-- ==== Sys2Proof/Word.lean ====
section
/-! DEFINITION. The words of the model: bytes, host read results. -/

namespace Sys2Proof

/-- One byte as memory, packets and payloads carry it. -/
abbrev Byte := BitVec 8

/-- A 32-bit register of the window (R6). -/
abbrev Word := BitVec 32

/-- One 16-byte deck instruction (R92). -/
abbrev DeckWord := BitVec 128

/-- What a read of host memory brought: the bytes, or nothing where the read failed (R332, R300). -/
abbrev HostRead := Option (List Byte)

end Sys2Proof
end

