-- ==== Sys2Proof/Syntax.lean ====
section
/-! DEFINITION. The commands of spec/opcode_table.json, one constructor per row, and the operands they carry. -/

namespace Sys2Proof

/-- Who raises or lowers a token channel by a SIGNAL or WAIT row (R38): a stage, whose deck names the channel; a Stay
engine whose entry has completed; the feed actor; the Caisson actor on a fence channel (R273). -/
inductive TokenActor
  | stage (stage : Nat)
  | stay (tile entry : Nat)
  | feed (channel n : Nat)
  | caisson (channel : Nat)
  deriving DecidableEq, Repr

/-- An actor as a token declaration names it (R38, R40). -/
inductive Actor
  | stage (stage : Nat)
  | stay (tile : Nat)
  | feed
  | caisson
  | host
  deriving DecidableEq, Repr

/-- STAGE and SCRATCH declarations of one stage (R48): its piers, the SCRATCH bytes of each, and whether it holds weights
that are not FROZEN, which gives it a version store (R199). -/
structure StageDecl where
  piers : List Nat
  scratch : List (Nat × Nat)
  trained : Bool
  deriving DecidableEq, Repr

/-- A slot class record (R183). -/
structure SlotClass where
  payloadMax : Nat
  maxTokens : Nat
  segMax : Nat
  deriving DecidableEq, Repr

/-- A queue declaration record (R187). -/
structure QueueDecl where
  queue : Nat
  depth : Nat
  slotClass : Nat
  producer : Nat
  consumer : Nat
  link : Nat
  peer : Nat
  kind : Nat
  bond : Nat
  group : Nat
  ports : Nat
  descAddr : Nat
  home : Nat
  deriving DecidableEq, Repr

/-- A fork or join group record (R195). -/
structure GroupDecl where
  index : Nat
  kind : Nat
  branches : Nat
  stage : Nat
  queues : List Nat
  offsets : List Nat
  deriving DecidableEq, Repr

/-- A TOKEN declaration (R40); `ring` is the completion ring queue of a channel the host consumes (R44). -/
structure TokenDecl where
  channel : Nat
  capacity : Nat
  initial : Nat
  producer : Actor
  consumer : Actor
  ring : Nat
  deriving DecidableEq, Repr

/-- A SPAN_BUFFER declaration of one Pylon die (R48, R268). -/
structure SpanBufferDecl where
  tile : Nat
  resident : Nat
  spillAddr : Nat
  spillBytes : Nat
  deriving DecidableEq, Repr

/-- What the declarations section of a span image (type 0x0002 of R103) declares. The manual gives its contents (R48) and
no byte layout, so the reading of the section travels with IMAGE_LOAD (log entry 3). -/
structure Decls where
  stages : List StageDecl
  slotClasses : List SlotClass
  queues : List QueueDecl
  groups : List GroupDecl
  tokens : List TokenDecl
  staggered : Bool
  versions : Nat
  slotBudget : Nat
  regions : List (Nat × Nat)
  frozen : List (Nat × Nat)
  spanBuffers : List SpanBufferDecl
  fences : List Nat
  deriving DecidableEq, Repr

/-- The width and rate one end of a substrate module trained (R373): lanes and GT/s. -/
structure TrainedWidth where
  lanes : Nat
  rate : Nat
  deriving DecidableEq, Repr

/-- The supply rails of R18. -/
inductive Rail
  | core (tile : Nat)
  | sram
  | hbm
  | serdes
  | apr
  | io
  deriving DecidableEq, Repr

/-- The sensors of R397. Temperatures are read in half degrees, voltages in mV, draws in quarter watts. -/
inductive Sensor
  | pierJunction (tile index : Nat)
  | pylonJunction (tile index : Nat)
  | approachJunction (index : Nat)
  | stack (stack : Nat)
  | coreVoltage (tile : Nat)
  | coreCurrent (tile : Nat)
  | rail (rail : Rail)
  deriving DecidableEq, Repr

/-- Where a frame arrives, and a number of its header: the ack of a link control frame, the lseq of a notice (R233). -/
structure Arrival where
  port : Nat
  number : Nat
  deriving DecidableEq, Repr

/-- A Tether flit behind its error correction (13 R318): the 8-byte header, 224 bytes of transaction data, the 64-bit CRC. -/
structure TetherFlit where
  header : List Byte
  data : List Byte
  crc : Nat
  deriving DecidableEq, Repr

/-- The bytes of a frame on the wire, and whether every codeword under them was correctable (R235). -/
structure WireFrame where
  bytes : List Byte
  fecGood : Bool
  deriving DecidableEq, Repr

/-- A stack that recalibrates, and the channel that fails training, if one does (R257, R264). -/
structure StackTraining where
  stack : Nat
  failed : Option Nat
  deriving DecidableEq, Repr

/-- The sequence number of a STACK_RECAL, and the stacks of which a channel fails training, each with that channel (R265, R270). -/
structure StackRecalCommand where
  seq : Nat
  failed : List (Nat × Nat)
  deriving DecidableEq, Repr

/-- A descriptor read of the walk (R368): the Approach die's own, the far end of an Approach or a ring module, a tile's Pier die through
Joint-F, or a stack's Footing. -/
inductive WalkRead
  | approach
  | overModule (module : Nat)
  | pier (tile : Nat)
  | footing (stack : Nat)
  deriving DecidableEq, Repr

/-- A retry of a boot (R371, R372): the step in which it falls, its module, and what the module's two ends report after it, an end that
does not answer nothing. -/
structure BootRetry where
  step : Nat
  module : Nat
  near : Option TrainedWidth
  far : Option TrainedWidth
  deriving DecidableEq, Repr

/-- What the far end reports at the end of an attempt within a die hold, and the Joint-F channels, tile and channel, that fail the
calibration of a release that follows (R361, R373). -/
structure AttemptEnd where
  width : TrainedWidth
  uncalibrated : List (Nat × Nat)
  deriving DecidableEq, Repr

/-- What the dies, links, regulators and stacks answer during one boot (R370): the board and the silicon decide these. -/
structure BootReport where
  /-- tiles whose VDD_CORE regulator does not answer (R20) -/
  silentRegulators : List Nat
  /-- descriptor reads whose answer is not the descriptor of the die that belongs there: the bytes read, none where nothing answered
  (R365, R368) -/
  descriptors : List (WalkRead × List Byte)
  /-- substrate modules an end of which offers less than R362's parameters (R367) -/
  lesserOffers : List Nat
  /-- modules trained below x16 or below 32 GT/s (R17) -/
  narrowModules : List Nat
  /-- HBM channels that failed training: stack and channel (R17) -/
  untrainedChannels : List (Nat × Nat)
  /-- Joint-F channels that failed calibration: tile and channel (R361) -/
  uncalibrated : List (Nat × Nat)
  /-- module resets and die-hold attempts that the boot needs, in order (R371) -/
  retries : List BootRetry
  deriving DecidableEq, Repr

/-- The commands, in the order of spec/opcode_table.json. -/
inductive Instr
  /-- LOAD_W (R98). -/
  | loadW (pier : Nat)
  /-- PASS (R97). -/
  | pass (pier : Nat)
  /-- PASS_ROW_WRITEBACK (R84). -/
  | passRowWriteback (pier : Nat)
  /-- DRAIN (R100). -/
  | drain (pier : Nat)
  /-- DRAIN_BIND (R86). -/
  | drainBind (pier : Nat)
  /-- VEC (R90). -/
  | vec (pier : Nat)
  /-- LANE_PROGRAM_RUNAWAY (R90). -/
  | laneProgramRunaway (pier : Nat)
  /-- ACC_WRITE (R258). -/
  | accWrite (pier : Nat)
  /-- COPY (R96). -/
  | copy (pier : Nat)
  /-- PUSH (R45). -/
  | push (stage : Nat)
  /-- POP (R186). -/
  | pop (stage : Nat)
  /-- RELEASE (R45). -/
  | release (stage : Nat)
  /-- FORK (R196). -/
  | fork (stage : Nat)
  /-- JOIN (R197). -/
  | join (stage : Nat)
  /-- SIGNAL (R41). -/
  | signal (actor : TokenActor)
  /-- WAIT (R41). -/
  | wait (actor : TokenActor)
  /-- CAPTURE_POINT (R274). -/
  | capturePoint
  /-- ADMIT (R193). -/
  | admitBatch (stage : Nat)
  /-- PIN (R199). -/
  | pin (stage : Nat)
  /-- RETIRE (R200). -/
  | retire (stage : Nat)
  /-- GATHER (R215). -/
  | gather (stage : Nat)
  /-- REDUCE_SCATTER (R218). -/
  | reduceScatter (stage : Nat)
  /-- ALL_REDUCE (R219). -/
  | allReduce (stage : Nat)
  /-- STEP_END (R169). -/
  | stepEnd
  /-- PROGRESS_WATCHDOG_EXPIRY (R61). -/
  | progressWatchdogExpiry (ctx : Nat)
  /-- SPAN_DESC (R178). -/
  | spanDesc (link : Nat) (src : Nat) (seq : Nat) (cont : Bool) (slot : Nat) (body : List Byte)
  /-- SPAN_DATA (R177). -/
  | spanData (link : Nat) (src : Nat) (seq : Nat) (last : Bool) (offset : Nat) (body : List Byte)
  /-- SPAN_CREDIT (R179). -/
  | spanCredit (link : Nat) (src : Nat) (seq : Nat) (released : Nat)
  /-- SPAN_HEARTBEAT (R179). -/
  | spanHeartbeat (link : Nat) (src : Nat) (seq : Nat)
  /-- SPAN_ABANDON (R181). -/
  | spanAbandon (link : Nat) (src : Nat) (seq : Nat) (status : Nat)
  /-- SPAN_BIND (R182). -/
  | spanBind (link : Nat) (src : Nat) (seq : Nat) (digest : List Byte)
  /-- SPAN_CLOSE (R181). -/
  | spanClose (link : Nat) (src : Nat) (seq : Nat)
  /-- SPAN_HEARTBEAT_TIMER (R179). -/
  | spanHeartbeatTimer (link : Nat)
  /-- SPAN_PEER_DEADLINE (R180). -/
  | spanPeerDeadline (link : Nat)
  /-- BIND_WINDOW_EXPIRY (R182). -/
  | bindWindowExpiry (ctx : Nat)
  /-- STAY_DATA (R224). -/
  | stayData (peer : Nat) (tile : Nat) (seq : Nat) (entry : Nat) (piece : Nat) (last : Bool) (offset : Nat) (body : List Byte)
  /-- STAY_CREDIT (R224). -/
  | stayCredit (peer : Nat) (tile : Nat) (seq : Nat) (granted : Nat)
  /-- STAY_HEARTBEAT (R224). -/
  | stayHeartbeat (peer : Nat) (tile : Nat) (seq : Nat)
  /-- STAY_ABANDON (R224). -/
  | stayAbandon (peer : Nat) (tile : Nat) (seq : Nat) (status : Nat)
  /-- STAY_BIND (R224). -/
  | stayBind (peer : Nat) (tile : Nat) (seq : Nat) (digest : List Byte)
  /-- STAY_CLOSE (R224). -/
  | stayClose (peer : Nat) (tile : Nat) (seq : Nat)
  /-- STAY_TRAILER (R221). -/
  | stayTrailer (peer : Nat) (tile : Nat) (seq : Nat) (entry : Nat) (piece : Nat) (body : List Byte)
  /-- STAY_HEARTBEAT_TIMER (R224). -/
  | stayHeartbeatTimer (peer : Nat)
  /-- STAY_PEER_DEADLINE (R224). -/
  | stayPeerDeadline (peer : Nat)
  /-- FRAME_FORWARD (R242). -/
  | frameForward (port : Nat) (frame : WireFrame)
  /-- LINK_CREDIT (R235). -/
  | linkCredit (at_ : Arrival) (grants : List Nat)
  /-- LINK_CREDIT_TIMER (R234). -/
  | linkCreditTimer (port : Nat)
  /-- NAK (R235). -/
  | nak (at_ : Arrival) (lseq : Nat)
  /-- PORT_REPLAY_TIMEOUT (R235). -/
  | portReplayTimeout (port : Nat)
  /-- HOLD (R236). -/
  | hold (at_ : Arrival) (pkg : Nat) (farPort : Nat)
  /-- HOLD_END (R236). -/
  | holdEnd (at_ : Arrival) (pkg : Nat) (farPort : Nat)
  /-- HOLD_TIMEOUT (R236). -/
  | holdTimeout (pkg : Nat) (farPort : Nat)
  /-- PORT_GIVE_UP (R237). -/
  | portGiveUp (port : Nat) (lostLock : Bool)
  /-- PORT_SIGNAL_DETECT (R231). -/
  | portSignalDetect (port : Nat)
  /-- EQUALISE_COMPLETE (R231). -/
  | equaliseComplete (port : Nat)
  /-- ALIGN_COMPLETE (R231). -/
  | alignComplete (port : Nat)
  /-- CONFIG (R234). -/
  | config (at_ : Arrival) (pkg : Nat) (farPort : Nat) (version : Nat) (retryKib : Nat)
  /-- CONFIG_RESEND_TIMER (R234). -/
  | configResendTimer (port : Nat)
  /-- PORT_TRAINING_TIMEOUT (R232). -/
  | portTrainingTimeout (port : Nat)
  /-- PORT_BER_CHECK (R239). -/
  | portBerCheck (port : Nat) (berE12 : Nat)
  /-- RECAL_REQ (R246). -/
  | recalReq (at_ : Arrival)
  /-- RECAL_REQ_RESEND_TIMER (R234). -/
  | recalReqResendTimer (port : Nat)
  /-- RECAL_ACK (R246). -/
  | recalAck (at_ : Arrival)
  /-- RECAL_ACK_TIMEOUT (R246). -/
  | recalAckTimeout (port : Nat)
  /-- RECAL_ENTER (R246). -/
  | recalEnter (port : Nat)
  /-- PORT_DISABLE (R245). -/
  | portDisable (q : Nat) (seq : Nat)
  /-- PORT_ENABLE (R245). -/
  | portEnable (q : Nat) (seq : Nat)
  /-- PORT_RECALIBRATE (R246). -/
  | portRecalibrate (q : Nat) (seq : Nat)
  /-- PKG_ID_SET (R241). -/
  | pkgIdSet (q : Nat) (seq : Nat)
  /-- ROUTE_LOAD (R243). -/
  | routeLoad (q : Nat) (seq : Nat)
  /-- ROUTE_COMMIT (R243). -/
  | routeCommit (q : Nat) (seq : Nat)
  /-- SCRUB (R256). -/
  | scrub (stack : Nat) (block : Nat)
  /-- STACK_AUTO_RECAL (R264). -/
  | stackAutoRecal (training : StackTraining)
  /-- STACK_RECAL (R265). -/
  | stackRecal (q : Nat) (cmd : StackRecalCommand)
  /-- HOT_REFRESH_END (R263). -/
  | hotRefreshEnd (stack : Nat)
  /-- CKPT_GRANULE_COPY (R277). -/
  | ckptGranuleCopy (stack : Nat)
  /-- SHARD_DIGEST (R279). -/
  | shardDigest (stack : Nat)
  /-- CKPT_COMMIT (R279). -/
  | ckptCommit
  /-- CKPT_TIMER_DUE (R275). -/
  | ckptTimerDue
  /-- CKPT_CONFIG (R289). -/
  | ckptConfig (q : Nat) (seq : Nat)
  /-- CKPT_TAKE (R289). -/
  | ckptTake (q : Nat) (seq : Nat)
  /-- CKPT_QUERY (R289). -/
  | ckptQuery (q : Nat) (seq : Nat)
  /-- CKPT_RESTORE (R284). -/
  | ckptRestore (q : Nat) (seq : Nat)
  /-- CKPT_EXPORT (R287). -/
  | ckptExport (q : Nat) (seq : Nat)
  /-- CKPT_IMPORT (R288). -/
  | ckptImport (q : Nat) (seq : Nat) (stream : HostRead)
  /-- CKPT_DISCARD (R289). -/
  | ckptDiscard (q : Nat) (seq : Nat)
  /-- APR_CONFIG (R294). -/
  | aprConfig (q : Nat) (seq : Nat)
  /-- APR_FEED (R298). -/
  | aprFeed (q : Nat) (seq : Nat) (items : HostRead)
  /-- ITEM_DECODE (R298). -/
  | itemDecode (q : Nat) (seq : Nat) (item : Nat) (unit : Nat) (data : HostRead)
  /-- PATCH_PACK (R299). -/
  | patchPack (q : Nat) (seq : Nat)
  /-- FEED_PUSH (R298). -/
  | feedPush (q : Nat) (seq : Nat)
  /-- APR_DECODE (R314). -/
  | aprDecode (q : Nat) (seq : Nat) (data : HostRead)
  /-- APR_TABLE_LOAD (R312). -/
  | aprTableLoad (q : Nat) (seq : Nat) (data : HostRead)
  /-- APR_QUERY (R293). -/
  | aprQuery (q : Nat) (seq : Nat)
  /-- ABUT_CONV_FWD (R147). -/
  | abutConvFwd (q : Nat) (seq : Nat)
  /-- ABUT_CONV_BWD_DATA (R147). -/
  | abutConvBwdData (q : Nat) (seq : Nat)
  /-- ABUT_CONV_BWD_WEIGHT (R147). -/
  | abutConvBwdWeight (q : Nat) (seq : Nat)
  /-- ABUT_POOL (R147). -/
  | abutPool (q : Nat) (seq : Nat)
  /-- DEV_IDENTIFY (R369). -/
  | devIdentify (q : Nat) (seq : Nat)
  /-- ERRLOG_READ (R403). -/
  | errlogRead (q : Nat) (seq : Nat)
  /-- POWER_TABLE_LOAD (R399). -/
  | powerTableLoad (q : Nat) (seq : Nat)
  /-- FW_UPDATE (R390). -/
  | fwUpdate (q : Nat) (seq : Nat) (package : HostRead)
  /-- MODULE_SWAP (R386). -/
  | moduleSwap (moduleId : Nat)
  /-- JOURNAL_COMPACTION (R384). -/
  | journalCompaction
  /-- ATTEST_QUOTE (R394). -/
  | attestQuote (q : Nat) (seq : Nat)
  /-- SUBTREE_COMPUTE (R392). -/
  | subtreeCompute
  /-- MEM_WRITE (R336). -/
  | memWrite (q : Nat) (seq : Nat) (data : HostRead)
  /-- MEM_READ (R336). -/
  | memRead (q : Nat) (seq : Nat)
  /-- MEM_FILL (R336). -/
  | memFill (q : Nat) (seq : Nat)
  /-- MEM_COPY (R336). -/
  | memCopy (q : Nat) (seq : Nat)
  /-- IMAGE_LOAD (R49). -/
  | imageLoad (q : Nat) (seq : Nat) (image : HostRead) (decls : Decls)
  /-- LAUNCH (R337). -/
  | launch (q : Nat) (seq : Nat)
  /-- UNLOAD (R337). -/
  | unload (q : Nat) (seq : Nat)
  /-- TOKEN_SIGNAL (R337). -/
  | tokenSignal (q : Nat) (seq : Nat)
  /-- SPAN_QUERY (R337). -/
  | spanQuery (q : Nat) (seq : Nat)
  /-- STAY_QUERY (R337). -/
  | stayQuery (q : Nat) (seq : Nat)
  /-- CTR_READ (R415). -/
  | ctrRead (q : Nat) (seq : Nat)
  /-- CTR_SELECT (R414). -/
  | ctrSelect (q : Nat) (seq : Nat)
  /-- SAMPLE_START (R417). -/
  | sampleStart (q : Nat) (seq : Nat)
  /-- SAMPLE_STOP (R421). -/
  | sampleStop (q : Nat) (seq : Nat)
  /-- CTX_CREATE (R343). -/
  | ctxCreate (q : Nat) (seq : Nat)
  /-- CTX_DESTROY (R346). -/
  | ctxDestroy (q : Nat) (seq : Nat)
  /-- CTX_GRANT (R345). -/
  | ctxGrant (q : Nat) (seq : Nat)
  /-- CTX_SLICE (R348). -/
  | ctxSlice (q : Nat) (seq : Nat)
  /-- CMD_ABORT (R356). -/
  | cmdAbort (q : Nat) (seq : Nat)
  /-- CTX_QUERY (R347). -/
  | ctxQuery (q : Nat) (seq : Nat)
  /-- SLICE_NOMINAL_END (R350). -/
  | sliceNominalEnd
  /-- SWITCH_OUT (R353). -/
  | switchOut
  /-- SWITCH_IN (R353). -/
  | switchIn
  /-- DOORBELL (R327). -/
  | doorbell (q : Nat) (value : Nat)
  /-- ENTRY_TAKE (R328). -/
  | entryTake (q : Nat) (entry : HostRead) (payload : HostRead)
  /-- ENTRY_REREAD (R328). -/
  | entryReread (q : Nat) (entry : HostRead) (payload : HostRead)
  /-- QARM_WRITE (R325). -/
  | qarmWrite (q : Nat) (value : Nat)
  /-- QCFG_WRITE (R325). -/
  | qcfgWrite (q : Nat) (value : Nat)
  /-- QCTAIL_WRITE (R333). -/
  | qctailWrite (q : Nat) (value : Nat)
  /-- COMPLETION_RING_FULL (R333). -/
  | completionRingFull (q : Nat)
  /-- LOSS_SCALE_WRITE (R162). -/
  | lossScaleWrite (value : Nat)
  /-- FLUSH_RB_READ (R338). -/
  | flushRbRead
  /-- PTIME_LO_READ (R323). -/
  | ptimeLoRead
  /-- CTX_ACCOUNT_LO_READ (R323). -/
  | ctxAccountLoRead (ctx : Nat)
  /-- REGISTER_WRITE (R7). -/
  | registerWrite (offset : Nat) (value : Nat)
  /-- TETHER_FLIT_RECEIVE (R320). -/
  | tetherFlitReceive (seq : Nat) (ack : Nat) (flit : TetherFlit)
  /-- TETHER_NAK (R320). -/
  | tetherNak (seq : Nat)
  /-- TETHER_REPLAY_TIMEOUT (R320). -/
  | tetherReplayTimeout
  /-- TETHER_RETRAIN (R320). -/
  | tetherRetrain
  /-- TETHER_RETRAIN_COMPLETE (R319). -/
  | tetherRetrainComplete
  /-- LINK_LOST (R321). -/
  | linkLost
  /-- TETHER_CABLE_ABSENT (R319). -/
  | tetherCableAbsent
  /-- ADAPTER_RESET_REQUEST (R318). -/
  | adapterResetRequest
  /-- REMOVE (R436). -/
  | remove
  /-- PWR_OK_RISE (R21). -/
  | pwrOkRise
  /-- PWR_OK_FALL (R21). -/
  | pwrOkFall
  /-- RAIL_DIP (R22). -/
  | railDip (rail : Rail) (durationNs : Nat)
  /-- REFCLK_LOSS (R396). -/
  | refclkLoss (durationNs : Nat)
  /-- PKG_RESET_N (R23). -/
  | pkgResetN (durationNs : Nat)
  /-- BOOT (R370). -/
  | boot (report : BootReport)
  /-- MODULE_RESET (R372). -/
  | moduleReset (module : Nat)
  /-- MODULE_WIDTH_REPORT (R373). -/
  | moduleWidthReport (module : Nat) (near : TrainedWidth) (far : TrainedWidth)
  /-- DIE_HOLD_ATTEMPT_END (R373). -/
  | dieHoldAttemptEnd (module : Nat) (near : TrainedWidth) (far : AttemptEnd)
  /-- BUDGET_SEND_TIMER (R377). -/
  | budgetSendTimer
  /-- BUDGET_MESSAGE (R375). -/
  | budgetMessage (die : Nat) (message : List Byte) (draws : List Nat)
  /-- BUDGET_REPORT (R376). -/
  | budgetReport (message : List Byte)
  /-- BUDGET_MISS (R377). -/
  | budgetMiss (die : Nat)
  /-- SENSOR_READ (R397). -/
  | sensorRead (sensor : Sensor) (reading : Int)
  /-- SENSOR_FAILURE (R398). -/
  | sensorFailure (sensor : Sensor)
  /-- SETDASA (R404). -/
  | setdasa (static : Nat) (dynamic : Nat)
  /-- ENTDAA (R404). -/
  | entdaa (dynamic : Nat)
  /-- SET_ENDPOINT_ID (R404). -/
  | setEndpointId (eid : Nat)
  /-- GET_ENDPOINT_ID (R404). -/
  | getEndpointId
  /-- GET_MCTP_VERSION_SUPPORT (R404). -/
  | getMctpVersionSupport
  /-- GET_MESSAGE_TYPE_SUPPORT (R404). -/
  | getMessageTypeSupport
  /-- GET_STATUS (R405). -/
  | getStatus
  /-- GET_SENSORS (R405). -/
  | getSensors
  /-- READ_ERRLOG (R405). -/
  | readErrlog (count : Nat) (first : Nat)
  /-- GET_IDENTITY (R405). -/
  | getIdentity (first : Nat)
  /-- POWER_TABLE (R405). -/
  | powerTable (payload : List Byte)
  /-- RESET_REQUEST (R405). -/
  | resetRequest
  /-- RECOVERY_WRITE (R405). -/
  | recoveryWrite (offset : Nat) (data : List Byte)
  /-- RECOVERY_COMMIT (R405). -/
  | recoveryCommit
  /-- TETHER_CABLE_PRESENT (R319). -/
  | tetherCablePresent
  /-- VDD_HBM_RISE (R283). -/
  | vddHbmRise
  /-- TACK_TIMER_EXPIRY (R329). -/
  | tackTimerExpiry (q : Nat) (seq : Nat)
  /-- OPCODE_NOT_IN_TABLE (R96). -/
  | opcodeNotInTable (pier : Nat)
  deriving DecidableEq, Repr

end Sys2Proof
end

