-- ==== Sys2Proof/Config.lean ====
section
/-! DEFINITION. What an implementation fixes and the manual does not state: constants and functions without a body,
so that nothing can be proved from a value of theirs. -/

namespace Sys2Proof

/-- Data types of lane programs (R90). -/
inductive LaneType
  | f32
  | f16
  | bf16
  | i32
  | u8
  deriving DecidableEq, Repr, Inhabited

/-- Arithmetic of the vector unit on binary32 (R114). -/
inductive LaneFun
  | add
  | sub
  | mul
  | fma
  | min
  | max
  | exp2
  | log2
  | recip
  | rsqrt
  deriving DecidableEq, Repr, Inhabited

/-- Comparisons of binary32 values (R114). -/
inductive LaneCmp
  | eq
  | lt
  | le
  | unordered
  deriving DecidableEq, Repr, Inhabited

/-- The trip count of a LOOP: an immediate, or a register (R90). -/
inductive LaneCount
  | immediate (n : Nat)
  | register (r : Nat)
  deriving DecidableEq, Repr, Inhabited

/-- What a lane instruction does. The manual gives the vector unit's operations (R90, R91, R111, R113, R114) and no list of its
instructions: these are the operations, each over registers d, a, b, c and predicates p, q, r (log 10). -/
inductive LaneOp
  /-- the program ends -/
  | stop
  | move (d a : Nat)
  | constant (d v : Nat)
  /-- argument word i into every lane -/
  | argument (d i : Nat)
  | arith (f : LaneFun) (d a b c : Nat)
  /-- arithmetic on int32 or uint8 values, which no rule describes further -/
  | integer (code d a b c : Nat)
  | convert (src dst : LaneType) (d a : Nat)
  /-- a scaled MX element, its code in a and its scale in b, to binary32 or binary16 -/
  | fromMx (format : Nat) (half : Bool) (d a b : Nat)
  /-- the values of 32 lanes to one MX block: element codes in d, its scale in c -/
  | quantise (format : Nat) (src : LaneType) (d c a : Nat)
  | compare (k : LaneCmp) (p a b : Nat)
  /-- a predicate as a Boolean function of two, by its truth table -/
  | logic (table p q r : Nat)
  | select (d p a b : Nat)
  /-- each lane reads the scratchpad at register a + offset -/
  | load (t : LaneType) (d a offset : Nat)
  | store (t : LaneType) (a d offset : Nat)
  /-- the sum of the lanes into lane 0 -/
  | reduce (d a : Nat)
  | broadcast (d a lane : Nat)
  | rotate (d a k : Nat)
  /-- the next `length` instructions, so many times -/
  | loop (count : LaneCount) (length : Nat)
  /-- skip the next `length` instructions where the predicate, equal in all lanes, holds -/
  | branch (p length : Nat)
  deriving DecidableEq, Repr, Inhabited

/-- A lane instruction: its operation, and the predicate, or its negation, that a lane needs to take its result. -/
structure LaneInstr where
  op : LaneOp
  guard : Option (Nat × Bool)
  deriving DecidableEq, Repr, Inhabited

/-- An output picture of a video stream: coded size, the output window in it, and its planes. The window is the conformance window of
HEVC or the upscaled frame of AV1, whose coded size here is the upscaled one; film grain is not applied. -/
structure VideoPicture where
  codedHeight : Nat
  codedWidth : Nat
  top : Nat
  left : Nat
  height : Nat
  width : Nat
  luma : List Nat
  cb : List Nat
  cr : List Nat
  deriving DecidableEq, Repr, Inhabited

/-- What the bitstream decoding of HEVC or AV1 gives (R305): whether a checksum of the format mismatches, and the offset of the error;
or what its headers say, their offset, and the output pictures in output order. `chroma` is 0 for monochrome, 1 for 4:2:0, 2 or more
for the others; `level` is ten times the level. -/
structure VideoStream where
  broken : Option (Bool × Nat)
  headerAt : Nat
  profile : Nat
  level : Nat
  depth : Nat
  chroma : Nat
  largeScale : Bool
  pictures : List VideoPicture
  deriving DecidableEq, Repr, Inhabited

namespace Config

/-- A value the spec leaves open, a fresh one for each number (log entry 2). -/
opaque freeValue : Nat → Nat

/-- The decoder of lane instructions: the manual gives no encoding; none where the vector unit defines none (R440; log 10). -/
opaque laneDecode : Nat → Option LaneInstr

/-- The result of integer arithmetic in a lane: operation, lane and operands (R90; log 10). -/
opaque laneInteger : (code lane a b c : Nat) → Nat

/-- A lane's register and predicate as a program finds them: the launch's number, register and lane (R90; log 10). -/
opaque laneRegister : (launch r lane : Nat) → Nat
opaque lanePredicate : (launch p lane : Nat) → Bool

/-- Bitstream decoding of HEVC (kind 3) and AV1 (kind 4), whose standards the manual names and does not repeat (R305; log 33). -/
opaque videoStream : Nat → List Byte → VideoStream

/-- The Opus reference decoder of RFC 6716, fixed-point build: output rate, channels and packets to 16-bit samples, channels
together; none where a packet is not valid (R306; log 33). -/
opaque opusDecode : (rate channels : Nat) → List (List Byte) → Option (List Nat)

/-- The 60-byte firmware root public key in boot ROM (R387). -/
opaque firmwareRoot : List Byte

/-- The identity key's 16-byte identifier and its private seed in the fuses; its randomizer for index q (R391; log 26). -/
opaque identityId : List Byte
opaque identitySeed : List Byte
opaque otsRandom : (q : Nat) → List Byte

/-- Voune's identity root key, which signed the certificate: identifier, seed, index used and randomizer of its levels 0 and 1
(R391; log 26). -/
opaque rootId : (level : Nat) → List Byte
opaque rootSeed : (level : Nat) → List Byte
opaque rootIndex : (level : Nat) → Nat
opaque rootRandom : (level : Nat) → List Byte

/-- The body digest of a module as delivered (R386, R394; log 32). -/
opaque factoryDigest : Nat → List Byte

/-- The unique die number of a die (R365), by its place among the 21 descriptors. -/
opaque dieUid : Nat → Nat

/-- The stepping of a die (R365), by its place among the 21 descriptors. -/
opaque dieRevision : Nat → Nat


end Config
end Sys2Proof
end

