-- ==== Sys2Proof/Machine/Bytes.lean ====
section
/-! DEFINITION. Bytes: little-endian fields (R5), slices, bit fields, list updates. -/

namespace Sys2Proof.Machine

/-- The little-endian value of a byte list (R5). -/
def leNat : List Byte → Nat
  | [] => 0
  | b :: bs => b.toNat + 256 * leNat bs

/-- `n` little-endian bytes of a value (R5). -/
def leBytes : Nat → Nat → List Byte
  | 0, _ => []
  | n + 1, v => BitVec.ofNat 8 v :: leBytes n (v / 256)

/-- `n` bytes of a list from offset `o`. -/
def slice (bs : List Byte) (o n : Nat) : List Byte := (bs.drop o).take n

/-- A little-endian field of `n` bytes at offset `o`. -/
def field (bs : List Byte) (o n : Nat) : Nat := leNat (slice bs o n)

/-- Bits [hi:lo] of a value (R5). -/
def bits (v hi lo : Nat) : Nat := (v >>> lo) % 2 ^ (hi + 1 - lo)

/-- Bit i of a value. -/
def bit (v i : Nat) : Bool := v.testBit i

/-- Every byte of the slice is 0 (reserved fields, R8). -/
def zeroField (bs : List Byte) (o n : Nat) : Bool := (slice bs o n).all (· == 0)

/-- A signed value of `n` bits. -/
def signed (n v : Nat) : Int := if v < 2 ^ (n - 1) then v else (v : Int) - 2 ^ n

/-- The `n`-bit two's complement encoding of an integer. -/
def unsigned (n : Nat) (v : Int) : Nat := (v % (2 ^ n : Int)).toNat

def ceilDiv (a b : Nat) : Nat := (a + b - 1) / b

/-- Addition modulo 2^32. -/
def add32 (a b : Nat) : Nat := (a + b) % 2 ^ 32

/-- Subtraction modulo 2^32. -/
def sub32 (a b : Nat) : Nat := (a + 2 ^ 32 - b % 2 ^ 32) % 2 ^ 32

/-- a is earlier than b, modulo 2^32. -/
def before32 (a b : Nat) : Bool := decide (2 ^ 31 ≤ sub32 a b)

/-- Change the entry at an index. -/
def modAt {α : Type} (l : List α) (i : Nat) (f : α → α) : List α :=
  match l, i with
  | [], _ => []
  | x :: t, 0 => f x :: t
  | x :: t, i + 1 => x :: modAt t i f

/-- Association lists with one entry a key. -/
def assoc {α : Type} (l : List (Nat × α)) (k : Nat) : Option α := l.lookup k

/-- Set the entry of a key, keeping its place. -/
def setAssoc {α : Type} (l : List (Nat × α)) (k : Nat) (v : α) : List (Nat × α) :=
  match l with
  | [] => [(k, v)]
  | (j, w) :: t => if j = k then (k, v) :: t else (j, w) :: setAssoc t k v

def dropAssoc {α : Type} (l : List (Nat × α)) (k : Nat) : List (Nat × α) := l.filter fun e => e.1 ≠ k

/-- Insert a number into a rising list without repeats. -/
def insertNat (l : List Nat) (n : Nat) : List Nat :=
  match l with
  | [] => [n]
  | m :: t => if n < m then n :: m :: t else if n = m then m :: t else m :: insertNat t n

/-- The numbers of a list in rising order, each once. -/
def sortNats (l : List Nat) : List Nat := l.foldr (fun n t => insertNat t n) []

/-- Two byte ranges meet. -/
def rangesMeet (a m b n : Nat) : Bool := decide (m ≠ 0 ∧ n ≠ 0 ∧ a < b + n ∧ b < a + m)

/-- The range [a, a + n) lies inside [b, b + m). -/
def rangeInside (a n b m : Nat) : Bool := decide (b ≤ a ∧ a + n ≤ b + m)

/-- Pad a byte list with zeros to a length. -/
def padTo (bs : List Byte) (n : Nat) : List Byte := bs ++ List.replicate (n - bs.length) 0

end Sys2Proof.Machine
end

