-- ==== Sys2Proof/Machine/Arith.lean ====
section
/-! DEFINITION. Number formats and accumulation (chapter 04): decoding to exact values, rounding to nearest even, the exact
chain of 128 products, the compensated pair, DRAIN's result, and the accumulate-write (10 R258). -/

namespace Sys2Proof.Machine

/-- A decoded value: NaN, an infinity, or (-1)^neg × m × 2^e. -/
inductive Val
  | nan
  | inf (neg : Bool)
  | fin (neg : Bool) (m : Nat) (e : Int)
  deriving DecidableEq, Repr

/-- A binary format: exponent bits, mantissa bits, bias (R106). -/
structure Fmt where
  ebits : Nat
  mbits : Nat
  bias : Int
  deriving DecidableEq, Repr

def fBinary32 : Fmt := { ebits := 8, mbits := 23, bias := 127 }
def fBinary16 : Fmt := { ebits := 5, mbits := 10, bias := 15 }
def fBf16 : Fmt := { ebits := 8, mbits := 7, bias := 127 }
def fE4M3 : Fmt := { ebits := 4, mbits := 3, bias := 7 }
def fE5M2 : Fmt := { ebits := 5, mbits := 2, bias := 15 }
def fE3M2 : Fmt := { ebits := 3, mbits := 2, bias := 3 }
def fE2M3 : Fmt := { ebits := 2, mbits := 3, bias := 1 }
def fE2M1 : Fmt := { ebits := 2, mbits := 1, bias := 1 }

def Fmt.width (f : Fmt) : Nat := 1 + f.ebits + f.mbits

/-- Exponent of the smallest subnormal (R106). -/
def Fmt.low (f : Fmt) : Int := 1 - f.bias - f.mbits

/-- The array's format codes (R76). -/
def arrayFmt (code : Nat) : Fmt :=
  if code = 0 then fBinary16 else if code = 1 then fE4M3 else if code = 2 then fE5M2 else if code = 3 then fE3M2
  else if code = 4 then fE2M3 else fE2M1

/-- Formats whose top exponent holds infinity and NaN, as IEEE 754 (R106). -/
def Fmt.ieee (f : Fmt) : Bool := f == fBinary32 || f == fBinary16 || f == fBf16 || f == fE5M2

/-- The value of a code (R106). -/
def decodeFloat (f : Fmt) (code : Nat) : Val :=
  let neg := bit code (f.ebits + f.mbits)
  let E := bits code (f.ebits + f.mbits - 1) f.mbits
  let M := code % 2 ^ f.mbits
  if f.ieee && E == 2 ^ f.ebits - 1 then (if M = 0 then .inf neg else .nan)
  else if f == fE4M3 && E == 15 && M == 7 then .nan
  else if E = 0 then .fin neg M f.low
  else .fin neg (2 ^ f.mbits + M) (f.low + (E - 1 : Nat))

/-- The canonical NaN (R112). -/
def canonicalNan (f : Fmt) : Nat :=
  if f == fE4M3 then 0x7F else if f == fE5M2 then 0x7F else (2 ^ f.ebits - 1) * 2 ^ f.mbits + 2 ^ (f.mbits - 1)

/-- Divide by 2^k, to nearest, ties to even. -/
def rneShift (m k : Nat) : Nat :=
  let q := m >>> k
  let r := m % 2 ^ k
  if 2 * r > 2 ^ k ∨ (2 * r = 2 ^ k ∧ q % 2 = 1) then q + 1 else q

/-- m × 2^e rounded to an integer, ties to even. -/
def rneScale (m : Nat) (e : Int) : Nat := if 0 ≤ e then m <<< e.toNat else rneShift m (-e).toNat

/-- Magnitude code of m × 2^e rounded to nearest even with an unbounded exponent above (R117): exponent field and mantissa
as one number, which may pass the format's top. -/
def roundMagnitude (f : Fmt) (m : Nat) (e : Int) : Nat :=
  if m = 0 then 0
  else
    let q := max (e + (Nat.log2 m + 1 : Nat) - (f.mbits + 1 : Nat)) f.low
    let r := rneScale m (e - q)
    r + (q - f.low).toNat * 2 ^ f.mbits

/-- First magnitude code that is not finite in an IEEE format. -/
def Fmt.top (f : Fmt) : Nat := (2 ^ f.ebits - 1) * 2 ^ f.mbits

/-- Encode a value in an IEEE format: overflow gives infinity (R111, R117). -/
def encodeFloat (f : Fmt) (v : Val) : Nat :=
  let sign := fun neg => if neg then 2 ^ (f.ebits + f.mbits) else 0
  match v with
  | .nan => canonicalNan f
  | .inf neg => sign neg + f.top
  | .fin neg m e => sign neg + min (roundMagnitude f m e) f.top

/-- Largest finite magnitude code of an array format (R106). -/
def Fmt.largest (f : Fmt) : Nat :=
  if f.ieee then f.top - 1 else if f == fE4M3 then 0x7E else 2 ^ (f.ebits + f.mbits) - 1

/-- Encode a finite value into an element format: it saturates (R110). -/
def encodeSaturating (f : Fmt) (neg : Bool) (m : Nat) (e : Int) : Nat :=
  (if neg then 2 ^ (f.ebits + f.mbits) else 0) + min (roundMagnitude f m e) f.largest

/-- Multiply by a power of two. -/
def Val.scale (v : Val) (k : Int) : Val := match v with
  | .fin neg m e => .fin neg m (e + k)
  | v => v

def Val.isZero : Val → Bool
  | .fin _ m _ => m == 0
  | _ => false

def Val.finite : Val → Bool
  | .fin _ _ _ => true
  | _ => false

/-- Signed integer of a magnitude. -/
def signedNat (neg : Bool) (m : Nat) : Int := if neg then -(m : Int) else m

/-- Exact sum (R114, R258): opposite infinities give NaN; an exact zero is +0 unless both operands are −0. -/
def Val.add (a b : Val) : Val := match a, b with
  | .nan, _ | _, .nan => .nan
  | .inf s, .inf t => if s = t then .inf s else .nan
  | .inf s, _ | _, .inf s => .inf s
  | .fin s m e, .fin t n d =>
    let lo := min e d
    let x := signedNat s (m <<< (e - lo).toNat) + signedNat t (n <<< (d - lo).toNat)
    if x = 0 then .fin (m == 0 && n == 0 && s && t) 0 0 else .fin (decide (x < 0)) x.natAbs lo

/-- Exact product (R114). -/
def Val.mul (a b : Val) : Val := match a, b with
  | .nan, _ | _, .nan => .nan
  | .inf s, .inf t => .inf (s != t)
  | .inf s, .fin t n _ => if n = 0 then .nan else .inf (s != t)
  | .fin s m _, .inf t => if m = 0 then .nan else .inf (s != t)
  | .fin s m e, .fin t n d => .fin (s != t) (m * n) (e + d)

def Val.neg : Val → Val
  | .nan => .nan
  | .inf s => .inf (!s)
  | .fin s m e => .fin (!s) m e

def f32 (code : Nat) : Val := decodeFloat fBinary32 code
def toF32 (v : Val) : Nat := encodeFloat fBinary32 v

/-- binary32 addition and multiplication (R114). -/
def addF32 (a b : Nat) : Nat := toF32 ((f32 a).add (f32 b))
def mulF32 (a b : Nat) : Nat := toF32 ((f32 a).mul (f32 b))

/-- a < b for values that are not NaN, with −0 below +0 (R114 minimum and maximum). -/
def Val.below (a b : Val) : Bool := match a, b with
  | .nan, _ | _, .nan => false
  | .inf s, .inf t => s && !t
  | .inf s, _ => s
  | _, .inf t => !t
  | .fin s m e, .fin t n d =>
    let lo := min e d
    let x := signedNat s (m <<< (e - lo).toNat)
    let y := signedNat t (n <<< (d - lo).toNat)
    decide (x < y) || (decide (x = y) && m == 0 && s && !t)

/-- Maximum and minimum of two binary32 codes; a NaN gives the canonical NaN (R114, R219). -/
def maxF32 (a b : Nat) : Nat :=
  match f32 a, f32 b with
  | .nan, _ | _, .nan => canonicalNan fBinary32
  | x, y => if x.below y then b else a

def minF32 (a b : Nat) : Nat :=
  match f32 a, f32 b with
  | .nan, _ | _, .nan => canonicalNan fBinary32
  | x, y => if y.below x then b else a

/-- binary32 to int32 and to uint8 limits (R111). -/
def toIntSaturating (lo hi : Int) (v : Val) : Int := match v with
  | .nan => 0
  | .inf neg => if neg then lo else hi
  | .fin neg m e => max lo (min hi (signedNat neg (rneScale m e)))

/-- An integer as an exact value. -/
def intVal (x : Int) : Val := .fin (decide (x < 0)) x.natAbs 0

/-! ### MX blocks (R108, R109, R113) -/

/-- An element with its scale exponent: none stands for the NaN scale 0xFF. -/
structure Elem where
  val : Val
  scale : Option Int
  deriving DecidableEq, Repr

/-- The exponent of an E8M0 code (R108). -/
def scaleExp (v : Nat) : Option Int := if v = 0xFF then none else some ((v : Int) - 127)

/-- A scaled value (R109): the NaN scale makes every element NaN. -/
def Elem.value (x : Elem) : Val := match x.scale with
  | none => .nan
  | some k => x.val.scale k

/-- emax of R113. -/
def emaxOf (f : Fmt) : Int := if f == fE4M3 then 8 else if f == fE5M2 then 15 else if f == fE3M2 then 4 else 2

/-- Exponent of the leading bit of a finite non-zero value. -/
def Val.floorLog2 : Val → Option Int
  | .fin _ m e => if m = 0 then none else some (Nat.log2 m + e)
  | _ => none

/-- Largest exponent of a list. -/
def maxInt : List Int → Option Int
  | [] => none
  | x :: t => some (t.foldl max x)

/-- Quantise a block of 32 values (R113): element codes and the scale code. -/
def quantiseBlock (f : Fmt) (vs : List Val) : List Nat × Nat :=
  if vs.any (!·.finite) then (vs.map fun _ => 0, 0xFF)
  else
    let code := fun (k : Int) (v : Val) => match v with
      | .fin neg m e => encodeSaturating f neg m (e - k)
      | _ => 0
    match maxInt (vs.filterMap Val.floorLog2) with
    | none => (vs.map (code 0), 0x7F)
    | some x =>
      let e := min (max (x - emaxOf f) (-127)) 127
      (vs.map (code e), (e + 127).toNat)

/-! ### The chain (R116 to R119) -/

/-- A product of the array: its element product and combined scale. -/
structure Prod where
  val : Val
  c : Int
  deriving DecidableEq, Repr

/-- The product of two elements (R116): a NaN scale or element makes it NaN. With a NaN scale it has no combined scale of the spec's;
its 0 counts only in the span (log 110). -/
def Elem.prod (x y : Elem) : Prod := match x.scale, y.scale with
  | some a, some b => { val := x.val.mul y.val, c := a + b }
  | _, _ => { val := .nan, c := 0 }

/-- The integer that a product adds to the chain on the grid 2^lam. -/
def Prod.grid (lam : Int) (p : Prod) : Int := match p.val with
  | .fin neg m e => signedNat neg (rneScale m (e + p.c - lam))
  | _ => 0

def Val.infSign : Val → Option Bool
  | .inf s => some s
  | _ => none

/-- The chain result, a binary32 code; a zero result is +0 (R116, R117). -/
def chain (ps : List Prod) : Nat :=
  if ps.any (fun p => p.val == .nan) then canonicalNan fBinary32
  else
    match (ps.filterMap fun p => p.val.infSign) with
    | s :: rest => if rest.all (· == s) then toF32 (.inf s) else canonicalNan fBinary32
    | [] =>
      match maxInt ((ps.filter fun p => !p.val.isZero).map (·.c)) with
      | none => 0
      | some cmax =>
        let acc := ((ps.filter fun p => !p.val.isZero).map (Prod.grid (cmax - 56))).sum
        let y := toF32 (.fin (decide (acc < 0)) acc.natAbs (cmax - 56))
        if y % 2 ^ 31 = 0 then 0 else y

/-- The span of combined scales over the non-zero products (R118). The rule gives a NaN product no combined scale: it counts as one with
scale 0 (log 110). -/
def chainSpan (ps : List Prod) : Int :=
  let cs := (ps.filter fun p => !p.val.isZero).map (·.c)
  match maxInt cs, maxInt (cs.map (- ·)) with
  | some hi, some lo => hi + lo
  | _, _ => 0

/-- The headroom of a pair (R118). -/
def headroom (a b : Nat) : Int := 56 + (arrayFmt a).low + (arrayFmt b).low

/-! ### The compensated pair (R120 to R122) and DRAIN (R87) -/

/-- Add a chain result into a pair (sum, error) of binary32 codes (R120). -/
def accumulate (s e c : Nat) : Nat × Nat :=
  let x := (f32 s).add (f32 c)
  let t := toF32 x
  if (f32 t).finite then (t, toF32 ((f32 e).add (x.add (f32 t).neg))) else (t, 0)

/-- The formats of DRAIN (R100). -/
def drainFmt (code : Nat) : Fmt := if code = 0 then fBinary32 else if code = 1 then fBinary16 else fBf16

/-- Bytes of an element of DRAIN's formats. -/
def drainBytes (code : Nat) : Nat := if code = 0 then 4 else 2

/-- DRAIN's result for one element (R87): the pair, the fused operation with its operand code, the conversion. -/
def drainElement (s e fuse fuseFmt operand outFmt : Nat) : Nat :=
  let r := addF32 s e
  let x := decodeFloat (drainFmt fuseFmt) operand
  let v := if fuse = 1 then toF32 ((f32 r).add x) else if fuse = 2 then toF32 ((f32 r).mul x) else r
  encodeFloat (drainFmt outFmt) (f32 v)

/-! ### The accumulate-write (R258) -/

/-- The sum of a stored and a source element: binary32 for format 0, binary16 for format 1. -/
def accWriteElement (fmt stored source : Nat) : Nat :=
  let f := if fmt = 0 then fBinary32 else fBinary16
  encodeFloat f ((decodeFloat f stored).add (decodeFloat f source))

/-- Elements of `n` bytes of a byte list. -/
def elements (n : Nat) (bs : List Byte) : List Nat :=
  (List.range (bs.length / n)).map fun i => field bs (n * i) n

/-- Add two byte lists element by element (R258). -/
def accWriteBytes (fmt : Nat) (stored source : List Byte) : List Byte :=
  let n := if fmt = 0 then 4 else 2
  ((elements n stored).zip (elements n source)).flatMap fun p => leBytes n (accWriteElement fmt p.1 p.2)

/-! ### Rows of elements (R107) -/

/-- Bits of an element of an array format. -/
def elemBits (code : Nat) : Nat := (arrayFmt code).width

/-- Bytes of a row of 128 elements: 256, 128, 96 or 64 (R97). -/
def rowBytes (code : Nat) : Nat := 16 * elemBits code

/-- The element codes of packed bytes (R107). -/
def unpack (width count : Nat) (bs : List Byte) : List Nat :=
  let n := leNat bs
  (List.range count).map fun i => bits n (width * i + width - 1) (width * i)

/-- Packed bytes of element codes (R107). -/
def packNat (width : Nat) : List Nat → Nat
  | [] => 0
  | c :: t => c % 2 ^ width + packNat width t * 2 ^ width

def packElems (width : Nat) (cs : List Nat) : List Byte := leBytes (ceilDiv (width * cs.length) 8) (packNat width cs)

end Sys2Proof.Machine
end

