-- ==== Sys2Proof/Machine/Sha256.lean ====
section
/-! DEFINITION. SHA-256 (FIPS 180-4), which R57, R182, R279, R281, R308, R381 and R389 name. The constants are those of the
standard: the first 32 bits of the fractional parts of square and cube roots of the first primes, computed here. PRESUMED:
the standard's text is not in spec/ (log 4). -/

namespace Sys2Proof.Machine

namespace Sha

/-- Integer root by bisection: the largest r below `hi` with r^k ≤ n, in `fuel` halvings. -/
def rootGo (k n : Nat) : Nat → Nat → Nat → Nat
  | 0, lo, _ => lo
  | f + 1, lo, hi =>
    let mid := (lo + hi) / 2
    if mid ^ k ≤ n then rootGo k n f mid hi else rootGo k n f lo mid

/-- The first 32 fractional bits of the k-th root of a number. -/
def fracRoot (k p : Nat) : Nat := rootGo k (p * 2 ^ (32 * k)) 40 0 (2 ^ 40) % 2 ^ 32

def primes : List Nat :=
  [2, 3, 5, 7, 11, 13, 17, 19, 23, 29, 31, 37, 41, 43, 47, 53, 59, 61, 67, 71, 73, 79, 83, 89, 97, 101, 103, 107, 109, 113,
   127, 131, 137, 139, 149, 151, 157, 163, 167, 173, 179, 181, 191, 193, 197, 199, 211, 223, 227, 229, 233, 239, 241, 251,
   257, 263, 269, 271, 277, 281, 283, 293, 307, 311]

def roundConstants : List Nat := primes.map (fracRoot 3)

def initial : List Nat := (primes.take 8).map (fracRoot 2)

def add (a b : Nat) : Nat := (a + b) % 2 ^ 32

def rotr (x n : Nat) : Nat := (x >>> n) ||| ((x <<< (32 - n)) % 2 ^ 32)

def not32 (x : Nat) : Nat := 2 ^ 32 - 1 - x

/-- Big-endian word of four bytes. -/
def word : List Byte → Nat
  | [a, b, c, d] => ((a.toNat * 256 + b.toNat) * 256 + c.toNat) * 256 + d.toNat
  | _ => 0

/-- The message schedule, newest word first. -/
def extend : Nat → List Nat → List Nat
  | 0, w => w
  | n + 1, w =>
    let x := w.getD 14 0
    let y := w.getD 1 0
    let s0 := rotr x 7 ^^^ rotr x 18 ^^^ (x >>> 3)
    let s1 := rotr y 17 ^^^ rotr y 19 ^^^ (y >>> 10)
    extend n (add (add (w.getD 15 0) s0) (add (w.getD 6 0) s1) :: w)

structure Regs where
  a : Nat
  b : Nat
  c : Nat
  d : Nat
  e : Nat
  f : Nat
  g : Nat
  h : Nat

def round (r : Regs) (kw : Nat × Nat) : Regs :=
  let s1 := rotr r.e 6 ^^^ rotr r.e 11 ^^^ rotr r.e 25
  let ch := (r.e &&& r.f) ^^^ (not32 r.e &&& r.g)
  let t1 := add (add r.h s1) (add ch (add kw.1 kw.2))
  let s0 := rotr r.a 2 ^^^ rotr r.a 13 ^^^ rotr r.a 22
  let mj := (r.a &&& r.b) ^^^ (r.a &&& r.c) ^^^ (r.b &&& r.c)
  { a := add t1 (add s0 mj), b := r.a, c := r.b, d := r.c, e := add r.d t1, f := r.e, g := r.f, h := r.g }

/-- One block of sixteen words into the hash value. -/
def compress (hv : List Nat) (block : List Nat) : List Nat :=
  let w := (extend 48 block.reverse).reverse
  match hv with
  | [a, b, c, d, e, f, g, h] =>
    let r := (roundConstants.zip w).foldl round { a, b, c, d, e, f, g, h }
    [add a r.a, add b r.b, add c r.c, add d r.d, add e r.e, add f r.f, add g r.g, add h r.h]
  | _ => hv

/-- Big-endian bytes of a value. -/
def beBytes (n v : Nat) : List Byte := (leBytes n v).reverse

def padded (m : List Byte) : List Byte :=
  m ++ [0x80] ++ List.replicate ((119 - m.length % 64) % 64) 0 ++ beBytes 8 (8 * m.length)

/-- Words of a byte list, four bytes each, in `fuel` steps. -/
def words : Nat → List Byte → List Nat
  | 0, _ => []
  | n + 1, bs => if bs.isEmpty then [] else word (bs.take 4) :: words n (bs.drop 4)

def blocks : Nat → List Nat → List Nat → List Nat
  | 0, hv, _ => hv
  | n + 1, hv, ws => blocks n (compress hv (ws.take 16)) (ws.drop 16)

end Sha

/-- The 32 bytes of SHA-256 of a message. -/
def sha256 (m : List Byte) : List Byte :=
  let p := Sha.padded m
  (Sha.blocks (p.length / 64) Sha.initial (Sha.words (p.length / 4) p)).flatMap (Sha.beBytes 4)

end Sys2Proof.Machine
end

