-- ==== Sys2Proof/Machine/Signatures.lean ====
section
/-! DEFINITION. The hash-based signatures of RFC 8554 with the parameters of the manual: verification of firmware (16 R387), the identity
key's signatures and certificate (16 R391). What is taken from RFC 8554 is PRESUMED (log 125). -/

namespace Sys2Proof.Machine

/-- A big-endian number of n bytes. -/
def beBytes (n v : Nat) : List Byte := (leBytes n v).reverse

/-- A big-endian number from bytes. -/
def beNat (b : List Byte) : Nat := leNat b.reverse

/-! ### LMOTS_SHA256_N32_W4: 67 chains of 15 steps -/

/-- The 4-bit digit i of a string. -/
def digit4 (b : List Byte) (i : Nat) : Nat :=
  let x := (b.getD (i / 2) 0).toNat
  if i % 2 = 0 then x / 16 else x % 16

/-- The 67 digits that sign a hash: its own and those of their checksum. -/
def otsDigits (hash : List Byte) : List Nat :=
  let ds := (List.range 64).map (digit4 hash)
  let sum := (ds.map fun d => 15 - d).sum * 16
  ds ++ (List.range 3).map (digit4 (beBytes 2 sum))

/-- `steps` steps of chain i from step j on. -/
def otsChain (pre : List Byte) (i : Nat) : Nat → Nat → List Byte → List Byte
  | 0, _, x => x
  | k + 1, j, x => otsChain pre i k (j + 1) (sha256 (pre ++ beBytes 2 i ++ beBytes 1 j ++ x))

/-- The hash that a one-time signature signs: identifier with index, randomizer, message. -/
def otsHash (pre c message : List Byte) : List Byte := sha256 (pre ++ [0x81, 0x81] ++ c ++ message)

/-- The public key that a one-time signature's chains end in. -/
def otsKey (pre hash y : List Byte) : List Byte :=
  sha256 (pre ++ [0x80, 0x80] ++ (otsDigits hash).zipIdx.flatMap fun d => otsChain pre d.2 (15 - d.1) d.1 (slice y (32 * d.2) 32))

/-! ### LMS and HSS -/

/-- The root above node r with the hash x, from the path of its siblings. -/
def lmsRoot (id : List Byte) : Nat → List (List Byte) → List Byte → List Byte
  | _, [], x => x
  | r, p :: t, x =>
    lmsRoot id (r / 2) t (sha256 (id ++ beBytes 4 (r / 2) ++ [0x83, 0x83] ++ if r % 2 = 1 then p ++ x else x ++ p))

/-- An LMS_SHA256_M32_H15 signature of a message under a 56-byte public key. -/
def lmsVerifies (key message sig : List Byte) : Bool :=
  let id := slice key 8 16
  let q := beNat (sig.take 4)
  let pre := id ++ beBytes 4 q
  let hash := otsHash pre (slice sig 8 32) message
  let leaf := sha256 (id ++ beBytes 4 (2 ^ 15 + q) ++ [0x82, 0x82] ++ otsKey pre hash (slice sig 40 2144))
  let path := (List.range 15).map fun i => slice sig (2188 + 32 * i) 32
  decide (key.length = 56 ∧ sig.length = 2668) && beNat (key.take 4) == 7 && beNat (slice key 4 4) == 3 && decide (q < 2 ^ 15)
    && beNat (slice sig 4 4) == 3 && beNat (slice sig 2184 4) == 7 && lmsRoot id (2 ^ 15 + q) path leaf == slice key 24 32

/-- An HSS signature of two levels under the 60-byte firmware root key in boot ROM (R387). -/
def hssVerifies (message sig : List Byte) : Bool :=
  let root := padTo (Config.firmwareRoot.take 60) 60
  let key := slice sig 2672 56
  decide (sig.length = 5396) && beNat (root.take 4) == 2 && beNat (sig.take 4) == 1
    && lmsVerifies (root.drop 4) key (slice sig 4 2668) && lmsVerifies key message (slice sig 2728 2668)

/-! ### Signing: a key's one-time secrets come from its seed -/

/-- A 32-byte value and a 16-byte identifier, whatever the length of the constant that gives them. -/
def hash32 (b : List Byte) : List Byte := padTo (b.take 32) 32
def id16 (b : List Byte) : List Byte := padTo (b.take 16) 16

/-- A key pair of LMS: identifier and seed, the tree's height and type code (RFC 8554). -/
structure LmsKey where
  id : List Byte
  seed : List Byte
  height : Nat
  type : Nat
  deriving DecidableEq, Repr

/-- The secret of chain i for index q. -/
def otsSecret (k : LmsKey) (q i : Nat) : List Byte := sha256 (k.id ++ beBytes 4 q ++ beBytes 2 i ++ [0xFF] ++ k.seed)

/-- The one-time public key of index q. -/
def otsPublic (k : LmsKey) (q : Nat) : List Byte :=
  let pre := k.id ++ beBytes 4 q
  sha256 (pre ++ [0x80, 0x80] ++ (List.range 67).flatMap fun i => otsChain pre i 15 0 (otsSecret k q i))

/-- Node r of the tree, at a height above the leaves. -/
def lmsNode (k : LmsKey) : Nat → Nat → List Byte
  | 0, r => sha256 (k.id ++ beBytes 4 r ++ [0x82, 0x82] ++ otsPublic k (r - 2 ^ k.height))
  | h + 1, r => sha256 (k.id ++ beBytes 4 r ++ [0x83, 0x83] ++ lmsNode k h (2 * r) ++ lmsNode k h (2 * r + 1))

/-- The 56-byte public key: types, identifier, root. -/
def lmsPublic (k : LmsKey) : List Byte := beBytes 4 k.type ++ beBytes 4 3 ++ k.id ++ lmsNode k k.height 1

/-- The signature of a message with index q and randomizer c: q, a one-time signature, the tree's type, the path to the root. -/
def lmsSign (k : LmsKey) (q : Nat) (c message : List Byte) : List Byte :=
  let pre := k.id ++ beBytes 4 q
  let y := (otsDigits (otsHash pre c message)).zipIdx.flatMap fun d => otsChain pre d.2 d.1 0 (otsSecret k q d.2)
  beBytes 4 q ++ beBytes 4 3 ++ c ++ y ++ beBytes 4 k.type
    ++ (List.range k.height).flatMap fun i => lmsNode k i ((2 ^ k.height + q) / 2 ^ i ^^^ 1)

/-! ### The identity key: LMS_SHA256_M32_H20 (R391) -/

/-- The key that identifier and seed in the fuses make. -/
def identityKeyPair : LmsKey := { id := id16 Config.identityId, seed := hash32 Config.identitySeed, height := 20, type := 8 }

/-- Node r of its tree at a height (R392). -/
def identityNode (height r : Nat) : List Byte := lmsNode identityKeyPair height r

/-- Its 2,828-byte signature of a digest with index q. -/
def identitySign (q : Nat) (digest : List Byte) : List Byte := lmsSign identityKeyPair q (hash32 (Config.otsRandom q)) digest

/-! ### The certificate (R391) -/

/-- Voune's identity root key, of two levels of H15 (R387). -/
def rootKeyPair (level : Nat) : LmsKey := { id := id16 (Config.rootId level), seed := hash32 (Config.rootSeed level), height := 15, type := 7 }

/-- Its 60-byte public key. -/
def rootPublic : List Byte := beBytes 4 2 ++ lmsPublic (rootKeyPair 0)

/-- The digest of that key in the fuses (R379, R391). -/
def fuseRootDigest : List Byte := sha256 rootPublic

/-- Its signature of a message, with the indices and randomizers that Voune used. -/
def rootSign (message : List Byte) : List Byte :=
  let sign := fun level m => lmsSign (rootKeyPair level) (Config.rootIndex level % 2 ^ 15) (hash32 (Config.rootRandom level)) m
  let key := lmsPublic (rootKeyPair 1)
  beBytes 4 1 ++ sign 0 key ++ key ++ sign 1 message

/-- The 5,484-byte certificate: the identity key, the Approach die's number and the order code, signed. -/
def certificate (uid : Nat) (order : List Byte) : List Byte :=
  let body := leBytes 4 0x54524543 ++ leBytes 4 0 ++ lmsPublic identityKeyPair ++ leBytes 8 uid ++ order
  body ++ rootSign body

end Sys2Proof.Machine
end

