-- ==== Sys2Proof/Machine/Store.lean ====
section
/-! DEFINITION. What Tollhouse's journal store holds (16 R380 to R384): records with their headers and bodies, the scan that finds
those that count, and the store as delivered. Error log entries are laid out here too (16 R400). -/

namespace Sys2Proof.Machine

/-! ### What records hold -/

/-- An error log entry (16 R400). -/
structure LogEntry where
  seq : Nat
  ptime : Nat
  cause : Nat
  status : Nat
  severity : Nat
  source : Nat
  position : Nat
  context : Nat
  persisted : Bool
  restored : Bool
  repeats : Nat
  detail : List Nat
  read : Bool
  deriving DecidableEq, Repr

/-- The 64 bytes of a log entry (R400). -/
def encodeLog (e : LogEntry) (detail : List Nat) : List Byte :=
  leBytes 8 e.seq ++ leBytes 8 e.ptime ++ leBytes 2 e.cause ++ leBytes 1 e.status ++ leBytes 1 e.severity
    ++ leBytes 1 e.source ++ leBytes 1 e.position ++ leBytes 1 e.context
    ++ leBytes 1 ((if e.persisted then 1 else 0) + (if e.restored then 2 else 0)) ++ leBytes 4 e.repeats ++ leBytes 4 0
    ++ padTo ((detail.take 8).flatMap (leBytes 4)) 32

/-- A firmware module revision (16 R386, R389): its package's header, body and signature. -/
structure FwModule where
  id : Nat
  revision : Nat
  security : Nat
  header : List Byte
  body : List Byte
  signature : List Byte
  deriving DecidableEq, Repr

/-- Bodies of journal records (16 R381). -/
inductive JournalBody
  | module (m : FwModule)
  /-- the first record that it covers, the kind of change, the digest of the bodies covered (R382) -/
  | commit (first kind : Nat) (digest : List Byte)
  | indexReserve (limit : Nat)
  | compactBegin
  /-- the blocks of the epoch, and the digest of the bodies copied (R384) -/
  | compactCommit (blocks : List Nat) (digest : List Byte)
  | errlog (e : LogEntry)
  /-- the top 11 levels of the identity key's tree, from the root down (R392) -/
  | tree (nodes : List (List Byte))
  | retire (block : Nat)
  deriving DecidableEq, Repr

/-- Pages of one erase block (16 R380). -/
structure Extent where
  block : Nat
  page : Nat
  count : Nat
  deriving DecidableEq, Repr

/-- A journal record (16 R381). -/
structure JournalRecord where
  /-- rec_magic as programmed -/
  magic : Nat
  seq : Nat
  epoch : Nat
  body : JournalBody
  /-- body_digest as programmed -/
  digest : List Byte
  /-- the pages that it takes, in order (R380) -/
  extents : List Extent
  /-- a page of it has more errors than its BCH ECC corrects (R380) -/
  unreadable : Bool
  deriving DecidableEq, Repr

/-! ### Records as bytes (R381, R382, R384) -/

def recMagic : Nat := 0x4C4E524A

/-- Type code of a record (R381). -/
def JournalBody.type : JournalBody → Nat
  | .module _ => 1
  | .commit _ _ _ => 2
  | .indexReserve _ => 3
  | .compactBegin => 4
  | .compactCommit _ _ => 5
  | .errlog _ => 6
  | .tree _ => 7
  | .retire _ => 8

/-- The bytes of a body. The manual gives COMMIT's 64 bytes; the others are laid out by what they hold (log 32). -/
def JournalBody.encode : JournalBody → List Byte
  | .module m => m.header ++ m.body ++ m.signature
  | .commit first kind digest => leBytes 8 first ++ leBytes 1 kind ++ leBytes 7 0 ++ digest ++ leBytes 8 0 ++ leBytes 8 0
  | .indexReserve limit => leBytes 8 limit
  | .compactBegin => []
  | .compactCommit blocks digest => blocks.flatMap (leBytes 2) ++ digest
  | .errlog e => encodeLog e e.detail
  | .tree nodes => nodes.flatten
  | .retire block => leBytes 4 block

/-- Bytes of a record's body, of a module at least those of its package's header and signature (R389). -/
def JournalBody.size : JournalBody → Nat
  | .module m => 64 + m.body.length + 5396
  | .commit _ _ _ => 64
  | .indexReserve _ => 8
  | .compactBegin => 0
  | .compactCommit blocks _ => 2 * blocks.length + 32
  | .errlog _ => 64
  | .tree _ => 2047 * 32
  | .retire _ => 4

/-- Pages that a record with this body takes: a 64-byte header, the body, zeros to the end of the last page (R381). -/
def JournalBody.pages (b : JournalBody) : Nat := ceilDiv (64 + b.size) 4096

/-- The module of a MODULE record, otherwise 0 (R381). -/
def JournalBody.moduleId : JournalBody → Nat
  | .module m => m.id
  | _ => 0

/-- The 64-byte header of a record (R381). -/
def JournalRecord.header (r : JournalRecord) : List Byte :=
  leBytes 4 r.magic ++ leBytes 1 r.body.type ++ leBytes 3 0 ++ leBytes 8 r.seq ++ leBytes 4 r.epoch ++ leBytes 4 r.body.size
    ++ leBytes 2 r.body.moduleId ++ leBytes 6 0 ++ r.digest

/-- The bytes that a record's pages hold (R381). -/
def JournalRecord.bytes (r : JournalRecord) : List Byte := padTo (r.header ++ r.body.encode) (4096 * r.body.pages)

/-- A record as Tollhouse programs it. -/
def JournalRecord.make (seq epoch : Nat) (body : JournalBody) (extents : List Extent) : JournalRecord :=
  { magic := recMagic, seq, epoch, body, digest := sha256 body.encode, extents, unreadable := false }

/-- The record's magic and digest are right and its pages can be read (R381). -/
def JournalRecord.intact (r : JournalRecord) : Bool := r.magic == recMagic && !r.unreadable && r.digest == sha256 r.body.encode

/-- The erase block in which a record begins. -/
def JournalRecord.start (r : JournalRecord) : Nat := ((r.extents.head?).map (·.block)).getD 0

/-! ### The scan (R381 to R383) -/

/-- Records that the scan finds: it stops in each block at the first absent one. `dead` lists the blocks where it has stopped. -/
def scanFrom (dead : List Nat) : List JournalRecord → List JournalRecord
  | [] => []
  | r :: t => if dead.contains r.start then scanFrom dead t else if r.intact then r :: scanFrom dead t else scanFrom (r.start :: dead) t

def scan (j : List JournalRecord) : List JournalRecord := scanFrom [] j

/-- Blocks where the scan stops. -/
def deadFrom (dead : List Nat) : List JournalRecord → List Nat
  | [] => dead
  | r :: t => if dead.contains r.start || r.intact then deadFrom dead t else deadFrom (r.start :: dead) t

/-- SHA-256 over the bodies of the records of an epoch with sequence numbers from a to below b, in order. -/
def bodiesDigest (p : List JournalRecord) (epoch a b : Nat) : List Byte :=
  sha256 ((p.filter fun r => r.epoch == epoch && decide (a ≤ r.seq ∧ r.seq < b)).flatMap (·.body.encode))

/-- A correct COMPACT_COMMIT: its digest is that of the bodies copied before it (R384). -/
def isBase (p : List JournalRecord) (c : JournalRecord) : Bool := match c.body with
  | .compactCommit _ d => d == bodiesDigest p c.epoch 0 c.seq
  | _ => false

/-- The highest epoch with a correct COMPACT_COMMIT (R383). -/
def baseEpoch (p : List JournalRecord) : Nat := ((p.filter (isBase p)).map (·.epoch)).foldl max 0

/-- A record that a correct COMMIT or COMPACT_COMMIT of its epoch covers (R382, R384). -/
def covers (p : List JournalRecord) (r c : JournalRecord) : Bool :=
  c.epoch == r.epoch && decide (r.seq < c.seq) && match c.body with
    | .commit first _ d => decide (first ≤ r.seq) && d == bodiesDigest p c.epoch first c.seq
    | .compactCommit _ d => d == bodiesDigest p c.epoch 0 c.seq
    | _ => false

/-- The records in effect: those of the base epoch that are covered (R382, R383). -/
def inEffect (j : List JournalRecord) : List JournalRecord :=
  let p := scan j
  p.filter fun r => r.epoch == baseEpoch p && p.any (covers p r)

/-- The sequence number of the next record: one more than the last one's (R381). -/
def nextSeq (j : List JournalRecord) : Nat := (j.map (·.seq)).foldl max 0 + 1

/-! ### The identity key's nodes in the store (R391, R392) -/

/-- The nodes of a tree level, from node r on. -/
def treeNodes (height r n : Nat) : List (List Byte) := (List.range n).map fun i => identityNode height (r + i)

/-- The 2,047 nodes from the root down to the roots of the subtrees. -/
def topNodes : List (List Byte) := (List.range 11).flatMap fun d => treeNodes (20 - d) (2 ^ d) (2 ^ d)

/-- The nodes of the 1,024-leaf subtree k, from its leaves up to below its root. -/
def subtreeNodes (k : Nat) : List (List Byte) :=
  (List.range 10).flatMap fun h => treeNodes h ((2 ^ 10 + k) * 2 ^ (10 - h)) (2 ^ (10 - h))

/-! ### The store as delivered (log 32) -/

/-- The order code in ASCII, zero-padded (R1, R365). -/
def orderCode (orderB : Bool) : List Byte :=
  ([0x5A, 0x58, 0x53, 0x2D, 0x34, 0x50, 0x31, 0x32, 0x2D] ++ [if orderB then 0x42 else 0x41] : List Byte) ++ List.replicate 6 0

/-- The modules of R386. -/
def moduleIds : List Nat :=
  [0x0001, 0x0002, 0x0003, 0x0004, 0x0005, 0x0010, 0x0011, 0x0012, 0x0013, 0x0014, 0x0015, 0x0016, 0x0017, 0x0018, 0x0019,
   0x0020]

/-- A module as delivered; its bytes are not stated, and revision and security version 0 are the model's (log 32). -/
def FwModule.factory (id : Nat) : FwModule :=
  { id, revision := 0, security := 0, header := [], body := [], signature := [] }

/-- Records one after another from block 0 on, from page p. -/
def layOut (epoch : Nat) : Nat → Nat → List JournalBody → List JournalRecord
  | _, _, [] => []
  | seq, p, b :: t => .make seq epoch b [{ block := 0, page := p, count := b.pages }] :: layOut epoch (seq + 1) (p + b.pages) t

/-- What a compaction writes before its COMPACT_COMMIT: the tree and the modules. -/
def factoryBase : List JournalRecord :=
  layOut 0 1 0 ([.compactBegin, .tree topNodes] ++ moduleIds.map fun i => JournalBody.module (.factory i))

/-- The journal as delivered: a compacted epoch 0 in block 0. A MODULE record here takes two pages. -/
def factoryJournal : List JournalRecord :=
  factoryBase ++ layOut 0 19 50 [.compactCommit [0] (bodiesDigest factoryBase 0 0 19)]

end Sys2Proof.Machine
end

