-- ==== Sys2Proof/Machine/State.lean ====
section
/-! DEFINITION. The state of the block as plain data, and the state right after a cold reset. Each field's comment names
the file and rule of spec/ that gives it and its reset value. -/

namespace Sys2Proof.Machine

/-- Reasons to stop with a fault. -/
inductive Fault
  /-- Raised by no meaning: beyond an absolute maximum the device detects nothing (R37). Safe. -/
  | absoluteMaximum
  deriving DecidableEq, Repr

/-- Reasons to give a command no meaning. -/
inductive Refusal
  /-- Raised by the dispatch for a command that has no meaning yet. Safe: nothing can be proved of it. -/
  | notModelled (mnemonic : String)
  deriving DecidableEq, Repr

/-- Memory cells in canonical form: addresses strictly rising, no cell holding what an unlisted address reads as. -/
abbrev Memory := List Host.Cell

/-! ### HBM -/

/-- One HBM stack and its Footing (chapter 10). -/
structure Stack where
  /-- RETAINED bit of the Footing (10/11 R283); reset: false -/
  retained : Bool
  /-- in self-refresh (10 R266); reset: true -/
  selfRefresh : Bool
  /-- refresh interval halved (10 R263); reset: false -/
  hotRefresh : Bool
  /-- powered time since which the stack has been below 82 °C, while halved (10 R263); reset: none -/
  coolSince : Option Nat
  /-- temperature in half degrees at the last calibration (10 R264); reset: none -/
  calTemp : Option Int
  /-- powered time of the last calibration (10 R264); reset: 0 -/
  calTime : Nat
  /-- powered times of corrections within the last hour (10 R257); reset: empty -/
  corrections : List Nat
  /-- block and powered time of each correcting read or scrub within 24 hours (10 R257); reset: empty -/
  blockCorrections : List (Nat × Nat)
  /-- a single-bit error stands in the Footing's arithmetic path or a staging buffer (10 R254); reset: false -/
  pathWeak : Bool
  /-- an uncorrectable one does (10 R254); reset: false -/
  pathBad : Bool
  deriving DecidableEq, Repr

/-- The HBM of the package. -/
structure Hbm where
  /-- every HBM byte by device-physical address (10 R249); reset: nothing listed, each byte reads 0 -/
  mem : Memory
  /-- uncorrectable 64-byte blocks, address ÷ 64 (10 R254, R255); reset: empty -/
  uncorrectable : List Nat
  /-- blocks with a correctable error (10 R255); reset: empty -/
  correctable : List Nat
  /-- the twelve stacks (00 R14); reset: twelve in self-refresh -/
  footings : List Stack
  deriving DecidableEq, Repr

/-! ### Piers -/

/-- One weight plane: the stored format of the last LOAD_W (03 R438), its rows of element codes and its scales (R77), and
the deck index of that LOAD_W (14 R353). Unfilled cells are +0 (R78). -/
structure Plane where
  /-- recorded stored format code (03 R438); reset: none -/
  format : Option Nat
  /-- element codes, row k then column n, of the rows and columns loaded (03 R98); reset: none filled -/
  rows : List (List Nat)
  /-- E8M0 scale of block b, column n at 128 b + n (03 R77, R98); reset: empty -/
  scales : List Nat
  /-- deck index of the last LOAD_W into the plane (14 R353); reset: none -/
  loadedAt : Option Nat
  deriving DecidableEq, Repr

/-- A range of scratchpad or HBM bytes named by an instruction (03 R93): start and length. -/
structure Range where
  start : Nat
  bytes : Nat
  deriving DecidableEq, Repr

/-- An instruction outstanding in a pier's scoreboard (03 R93). -/
structure Outstanding where
  /-- deck index of the instruction -/
  index : Nat
  /-- the instruction -/
  word : DeckWord
  /-- scratchpad ranges it reads -/
  reads : List Range
  /-- scratchpad ranges it writes -/
  writes : List Range
  /-- the accumulator range of a PASS -/
  accumulates : Option Range
  /-- the instruction is sampled (17 R418): powered time at issue -/
  sampled : Option Nat
  deriving DecidableEq, Repr

/-- A PASS whose rows are in the array or at its edge (03 R84): the chain results, binary32, of the rows not yet written
back. -/
structure PassInFlight where
  index : Nat
  accumulator : Nat
  first : Bool
  /-- number of the next row to reach the edge -/
  nextRow : Nat
  /-- chain results of the rows still to come -/
  rows : List (List Nat)
  /-- holds a tile slot -/
  slot : Bool
  deriving DecidableEq, Repr

/-- An entry of the drain path's queue, in issue order (03 R84, R86). -/
inductive DrainItem
  | pass (p : PassInFlight)
  | drain (index : Nat) (word : DeckWord)
  deriving DecidableEq, Repr

/-- A pier of the active context (03 R69). -/
structure Pier where
  /-- global pier ID (00 R11) -/
  id : Nat
  /-- scratchpad bytes (03 R80); reset: nothing listed, reads 0 (DESIGN CHOICE, log 5) -/
  mem : Memory
  /-- uncorrectable 64-bit words, address ÷ 8 (03 R81); reset: empty -/
  badWords : List Nat
  /-- 64-bit words with a correctable error (03 R81); reset: empty -/
  weakWords : List Nat
  /-- weight plane 0 (03 R73); reset: never filled -/
  plane0 : Plane
  /-- weight plane 1; reset: never filled -/
  plane1 : Plane
  /-- deck index of the next instruction (03 R92); reset: 0 -/
  index : Nat
  /-- scoreboard, oldest first, at most 8 (03 R93); reset: empty -/
  score : List Outstanding
  /-- drain path: passes and DRAIN tokens in order (03 R84, R86); reset: empty -/
  drain : List DrainItem
  /-- entry point and deck index of a lane program that has not ended (03 R90); reset: none -/
  lane : Option (Nat × Nat)
  /-- that program's VEC is sampled: its instruction and the powered time of its issue (17 R418); reset: none -/
  laneSample : Option (DeckWord × Nat)
  /-- the lane program store's contents, from its first byte (03 R69, R440); reset: empty -/
  store : List Byte
  /-- the instruction buffer (03 R69, R92): deck index of its first instruction, and the instructions fetched; reset: empty -/
  bufferAt : Nat
  buffer : List DeckWord
  deriving DecidableEq, Repr

/-! ### Span images and programs -/

/-- A section table entry (03 R102). -/
structure Section where
  type : Nat
  scope : Nat
  offset : Nat
  size : Nat
  deriving DecidableEq, Repr

/-- A step of a Stay entry (08 R214). -/
structure StayStep where
  op : Nat
  piece : Nat
  peerIn : Nat
  peerOut : Nat
  deriving DecidableEq, Repr

/-- A Stay schedule entry (08 R210) with its shard lengths (R213) and steps (R214). -/
structure StayEntry where
  kind : Nat
  grad : Bool
  consensus : Bool
  srcFmt : Nat
  dstFmt : Nat
  op : Nat
  layout : Nat
  table : Nat
  total : Nat
  lengths : Option (List Nat)
  src : Nat
  dst : Nat
  scaleDst : Nat
  steps : List StayStep
  /-- its 64 bytes, which the BIND digest covers (08 R224) -/
  raw : List Byte
  deriving DecidableEq, Repr

/-- A member table (08 R212). -/
structure MemberTable where
  d : Nat
  s : Nat
  p : Nat
  ownRank : Nat
  packages : List Nat
  deriving DecidableEq, Repr

/-- A tile's Stay schedule (08 R209). -/
structure StaySchedule where
  tile : Nat
  maxOutstanding : Nat
  consensusEntry : Nat
  verdictAddr : Nat
  stagingAddr : Nat
  stagingBytes : Nat
  entries : List StayEntry
  tables : List MemberTable
  deriving DecidableEq, Repr

/-- One operation of a queue policy (07 R191). -/
structure PolicyOp where
  op : Nat
  first : Nat
  count : Nat
  spilled : Bool
  queue : Nat
  deriving DecidableEq, Repr

/-- One Footing command (10 R261). -/
structure FootCmd where
  op : Nat
  stack : Nat
  length : Nat
  src : Nat
  dst : Nat
  deriving DecidableEq, Repr

/-- One tile's Footing command sequence (10 R260). -/
structure FootSeq where
  tile : Nat
  afterRestore : Bool
  cmds : List FootCmd
  deriving DecidableEq, Repr

/-- A loaded span image (03 R101 to R103, 02 R57). -/
structure Image where
  /-- where IMAGE_LOAD put it (13 R337) -/
  addr : Nat
  /-- its length in bytes (03 R101) -/
  bytes : Nat
  sections : List Section
  zecDigest : List Byte
  redDigest : List Byte
  decls : Decls
  stays : List StaySchedule
  policies : List PolicyOp
  foots : List FootSeq
  deriving DecidableEq, Repr

/-- The micro-batch descriptor (07 R184). -/
structure Desc where
  mbId : Nat
  step : Nat
  feedTag : Nat
  tokens : Nat
  payloadBytes : Nat
  version : Nat
  segCount : Nat
  last : Bool
  bwd : Bool
  joined : Bool
  origin : Nat
  deriving DecidableEq, Repr

/-- A segment table entry (07 R185). -/
structure Seg where
  length : Nat
  segId : Nat
  modality : Nat
  deriving DecidableEq, Repr

/-- The micro-batch a stage most recently popped or joined (07 R186). -/
structure Micro where
  desc : Desc
  segs : List Seg
  /-- scratchpad address where the stage's piers hold the delivered descriptor (07 R186, R199) -/
  addr : Nat
  deriving DecidableEq, Repr

/-- The states of a queue slot (07 R188). -/
inductive SlotState
  | free
  | filling
  | full
  | held
  deriving DecidableEq, Repr

/-- One slot of a queue (07 R188, R190). -/
structure Slot where
  /-- 07 R188; reset: free -/
  st : SlotState
  /-- resident in the Span buffer, else in its home (07 R190, R191) -/
  resident : Bool
  /-- bytes in the Span buffer, from offset 0 of the slot -/
  buf : Memory
  /-- a spilled slot that the policy has copied into the Span buffer (07 R190, R191); reset: false -/
  fetched : Bool
  /-- uncorrectable 64-bit words of the slot in the Span buffer, offset ÷ 8 (07 R190); reset: empty -/
  bad : List Nat
  /-- 64-bit words of it with a single-bit error (07 R190); reset: empty -/
  weak : List Nat
  /-- a remote slot whose segment table is still arriving: entries written (07 R178) -/
  segsSeen : Nat
  deriving DecidableEq, Repr

/-- The states of a queue (07 R189). -/
inductive QueueState
  | unbound
  | binding
  | opened
  | faulted
  deriving DecidableEq, Repr

/-- A Span frame (07 R177). -/
structure SpanFrame where
  type : Nat
  flags : Nat
  link : Nat
  seq : Nat
  value : Nat
  body : List Byte
  deriving DecidableEq, Repr

/-- The binding of a Span link or Stay association (07 R182, 08 R224). -/
inductive BindState
  | binding
  | bound
  | closed
  | failed
  deriving DecidableEq, Repr

/-- One end of a Span link (07 R175 to R182). -/
structure SpanLink where
  link : Nat
  peer : Nat
  /-- this package holds the sending end -/
  sending : Bool
  /-- ports of the bond (07 R187) -/
  ports : List Nat
  st : BindState
  /-- digest of the queue's declaration seen from this end (07 R182) -/
  digest : List Byte
  /-- sequence number of the next frame sent -/
  txSeq : Nat
  /-- sequence number expected next -/
  rxSeq : Nat
  /-- frames that arrived ahead of order (07 R176) -/
  ahead : List SpanFrame
  /-- slots sent, at the sending end (07 R179) -/
  sent : Nat
  /-- cumulative RELEASE count: received at the sending end, made at the hosting end (07 R179) -/
  released : Nat
  /-- powered time from which the 4 µs deadline runs (07 R180) -/
  heardAt : Nat
  /-- powered time of the last frame sent (07 R179) -/
  sentAt : Nat
  /-- index into `ports` of the port the next frame takes (07 R176) -/
  nextPort : Nat
  /-- discarded frames, SPAN_LINK_ERR (07 R203) -/
  errors : Nat
  deriving DecidableEq, Repr

/-- A queue of the launched program (07 R187 to R189). -/
structure SpanQueue where
  decl : QueueDecl
  st : QueueState
  /-- slots, at the hosting end; none at a sending end -/
  slots : List Slot
  /-- next slot to enter FILLING -/
  fillAt : Nat
  /-- next slot that a POP or JOIN takes -/
  headAt : Nat
  /-- oldest slot that the consumer holds -/
  heldAt : Nat
  /-- the link of a remote queue -/
  link : Option SpanLink
  deriving DecidableEq, Repr

/-- A version slot: the version it is LIVE with and its pin count, or EMPTY (07 R198). -/
abbrev VersionSlot := Option (Nat × Nat)

/-- A micro-batch pinned by a stage and not yet retired (07 R199, R200). -/
structure Pinned where
  mbId : Nat
  step : Nat
  version : Nat
  deriving DecidableEq, Repr

/-- The run-time state of a local stage. -/
structure StageRun where
  /-- descriptor and segment table most recently popped or joined (07 R186); at launch: none -/
  current : Option Micro
  /-- pinned micro-batches, oldest first (07 R200); at launch: empty -/
  pinned : List Pinned
  /-- the version store (07 R198); at launch: the launch version in slot 0, the others EMPTY -/
  store : List VersionSlot
  /-- versions that wait for an EMPTY slot (07 R201) -/
  waiting : List Nat
  /-- step of the newest micro-batch pinned (07 R198) -/
  newestStep : Option Nat
  deriving DecidableEq, Repr

/-- A trailer of a GRAD or consensus collective (08 R220). -/
structure Trailer where
  step : Nat
  members : Nat
  nonfinite : Nat
  flags : Nat
  firstRank : Nat
  deriving DecidableEq, Repr

/-- A DATA frame in a staging range: the 8 KiB frame of the range that holds it, its element offset within the piece, its body
bytes, and whether it is the last of the piece (08 R224). -/
structure StagedFrame where
  slot : Nat
  offset : Nat
  size : Nat
  last : Bool
  deriving DecidableEq, Repr

/-- A stream received for a piece of an entry from a rank, held until its step is reached (08 R214, R226). -/
structure StayInbox where
  entry : Nat
  piece : Nat
  fromRank : Nat
  /-- DATA frames that lie in the staging range, which take credit (08 R224) -/
  frames : List StagedFrame
  /-- the last DATA frame of the piece has been taken out -/
  ended : Bool
  trailer : Option Trailer
  deriving DecidableEq, Repr

/-- A part of a piece's local term, or of its narrow bytes kept for PUT, as a Stay engine holds it (08 R214). -/
structure HeldFrame where
  /-- narrow bytes, not a term -/
  narrow : Bool
  piece : Nat
  /-- which part of the piece, in units of a staging frame -/
  index : Nat
  /-- bytes of it at hand -/
  size : Nat
  /-- the 8 KiB frame of the staging range that holds it -/
  slot : Option Nat
  /-- its bytes, where no frame of the range was free (log 18) -/
  bytes : List Byte
  deriving DecidableEq, Repr

/-- An outstanding collective of a Stay engine (08 R209 to R221). -/
structure EntryRun where
  entry : Nat
  /-- completion channel (03 R96) -/
  channel : Nat
  /-- the stage that issued it -/
  stage : Nat
  /-- steps of the list done, by position -/
  done : List Nat
  /-- elements of its piece that each step has done, by position (08 R214) -/
  parts : List (Nat × Nat)
  /-- terms and transport bytes of its pieces, as they lie in staging (08 R214) -/
  held : List HeldFrame
  /-- an element read or produced here is non-finite (08 R220) -/
  nonfinite : Bool
  /-- merged received trailers by piece (08 R220) -/
  trailers : List (Nat × Trailer)
  /-- trailer of the payload received by TAKE, which decides nothing (08 R220) -/
  payload : Option Trailer
  /-- the consensus decision received by TAKE, on its way down (08 R221) -/
  verdict : Option Trailer
  /-- every step done; the completion SIGNAL is still to be made -/
  finished : Bool
  deriving DecidableEq, Repr

/-- A Stay engine of the program (08). -/
structure StayRun where
  tile : Nat
  /-- outstanding entries -/
  outstanding : List EntryRun
  /-- terms and shards in staging -/
  inbox : List StayInbox
  /-- step of the last completion of each entry (13 R337) -/
  lastStep : List (Nat × Nat)
  /-- first_rank of the last trailer with nonfinite 1 of each entry (13 R337) -/
  lastFirst : List (Nat × Nat)
  deriving DecidableEq, Repr

/-- A Stay frame (08 R224). -/
structure StayFrame where
  type : Nat
  flags : Nat
  entry : Nat
  piece : Nat
  seq : Nat
  value : Nat
  body : List Byte
  deriving DecidableEq, Repr

/-- One end of a Stay association (08 R224). -/
structure Assoc where
  peer : Nat
  st : BindState
  digest : List Byte
  txSeq : Nat
  rxSeq : Nat
  /-- frames that arrived ahead of order, with the tile they name -/
  ahead : List (Nat × StayFrame)
  /-- cumulative frames the peer has granted this end -/
  granted : Nat
  /-- DATA frames sent -/
  dataSent : Nat
  /-- cumulative frames this end has granted -/
  grantedOut : Nat
  /-- DATA frames that wait for credit, oldest first, with their tile -/
  backlog : List (Nat × StayFrame)
  heardAt : Nat
  sentAt : Nat
  errors : Nat
  deriving DecidableEq, Repr

/-- Where a launched program stands (13 R337, 14 R342, R353). -/
inductive ProgState
  | binding
  | waitingSlice
  | running
  | faulted
  deriving DecidableEq, Repr

/-- A launched program (02, 03, 07, 08). -/
structure Program where
  /-- queue and sequence number of its LAUNCH (13 R333) -/
  launchQ : Nat
  launchSeq : Nat
  st : ProgState
  /-- powered time of the launch's binding (07 R182) -/
  bindAt : Nat
  stages : List StageRun
  queues : List SpanQueue
  /-- count of each declared token channel (02 R41); at launch: the initial counts -/
  tokens : List (Nat × Nat)
  stays : List StayRun
  assocs : List Assoc
  /-- micro-batches in flight (07 R193); at launch: 0 -/
  inflight : Nat
  /-- the fields that ADMIT fixed for the next POP: mb_id, step, origin (07 R193) -/
  admitted : Option (Nat × Nat × Nat)
  /-- the first stage's admission step a (07 R193) -/
  admitStep : Nat
  /-- first step after launch or restore (07 R198) -/
  firstStep : Nat
  /-- version counter at launch or restore (07 R198) -/
  launchVersion : Nat
  /-- steps with known verdict and the version counter after each, newest first (07 R198) -/
  verdicts : List (Nat × Nat)
  /-- verdict of the step in hand: non-finite, E used, E next (13 R333) -/
  verdict : Option (Bool × Int × Int)
  /-- the package's local non-finite bit of the step (06 R164) -/
  localBit : Bool
  /-- Caisson fence WAITs made this step (11 R273) -/
  fencesDone : Nat
  /-- powered time from which the progress watchdog runs (02 R61, R62) -/
  watchdogAt : Nat
  /-- pier state stored at a switch-out, scratchpads left out (14 R353) -/
  saved : List Pier
  /-- it replaced a program that had faulted: a refused launch leaves the context faulted (07 R182, 13 R337) -/
  afterFault : Bool
  deriving DecidableEq, Repr

/-! ### Contexts -/

/-- Loss-scale state of a context (06 R161 to R163). -/
structure LossScale where
  /-- E (06 R161); at CTX_CREATE: 16 -/
  exp : Int
  /-- CLEAN, 16 bits; at CTX_CREATE: 0 -/
  clean : Nat
  /-- FLOOR; at CTX_CREATE: false -/
  floor : Bool
  /-- pending host value (PEND); at CTX_CREATE: none -/
  pend : Option Int
  deriving DecidableEq, Repr

/-- A profile of APR_CONFIG (12 R295). -/
structure Profile where
  cls : Nat
  patch : Nat
  tpatch : Nat
  pad : Nat
  colour : Nat
  dropAlpha : Bool
  audioMode : Nat
  nMels : Nat
  samplesPerToken : Nat
  a : List Nat
  b : List Nat
  deriving DecidableEq, Repr

/-- The APR_CONFIG in force for a context (12 R294). -/
structure AprConfig where
  stagingAddr : Nat
  stagingBytes : Nat
  rowBytes : Nat
  padTo : Nat
  omitErrors : Bool
  feedQueue : Nat
  profiles : List Profile
  deriving DecidableEq, Repr

/-- The counting of one pier in a sampling session (17 R418). -/
structure PierSample where
  pier : Nat
  /-- a step has begun on the pier since SAMPLE_START completed -/
  counting : Bool
  /-- instructions counted -/
  count : Nat
  /-- the rendezvous at the pier's index was counted and then withdrawn (R352) -/
  withdrawn : Bool
  /-- a record was dropped for want of room since the last one kept (R418, R419) -/
  lost : Bool
  deriving DecidableEq, Repr

/-- A sampling session (17 R417 to R421). -/
structure Sampling where
  bufAddr : Nat
  bufBytes : Nat
  period : Nat
  stages : Nat
  wrap : Bool
  opcodes : Nat
  written : Nat
  dropped : Nat
  piers : List PierSample
  /-- records that wait to be written, oldest first: their pier and their 32 bytes; at most 4 of one pier (R418) -/
  waiting : List (Nat × List Byte)
  deriving DecidableEq, Repr

/-- A context descriptor (14 R342, R343). -/
structure Context where
  /-- progress watchdog period in ms, 0 = 2,000 (02 R61, 14 R343) -/
  watchdogMs : Nat
  /-- ls_interval, 0 = 2,000 (06 R163) -/
  lsInterval : Nat
  /-- PERM_CTR (14 R343) -/
  permCtr : Bool
  /-- base and length in MiB on each of the twelve stacks (14 R343) -/
  grant : List (Nat × Nat)
  /-- engine-time account in ns (14 R349); at CTX_CREATE: 0 -/
  account : Nat
  /-- debt in ns (14 R350); at CTX_CREATE: 0 -/
  debt : Nat
  /-- 06 R161; at CTX_CREATE: its reset values -/
  ls : LossScale
  /-- step number, 32 bits (06 R170); at CTX_CREATE: 0 -/
  step : Nat
  /-- version counter (07 R198); at CTX_CREATE: 0 -/
  version : Nat
  /-- next mb_id (07 R193); at CTX_CREATE: 0 -/
  nextMb : Nat
  /-- a restore has completed since the last launch (10 R262) -/
  restored : Bool
  image : Option Image
  program : Option Program
  /-- last fault status or 0 (14 R347) -/
  faultStatus : Nat
  apr : Option AprConfig
  sampling : Option Sampling
  /-- events of the selectable counters: pier and twelve codes (17 R410); at CTX_CREATE: all 0x00 -/
  events : List (Nat × List Nat)
  /-- context counters by selector, classes 0 to 3 (17 R409); at CTX_CREATE: 0 -/
  counters : List (Nat × Nat)
  /-- the part of those counters that moves by free values: waits within a pier, and, under the selector of ARRAY_IDLE_NS, the time
  with a row in its array (17 R410; log 43); at CTX_CREATE: 0 -/
  waits : List (Nat × Nat)
  /-- ns for which the context's counters have counted (17 R409); at CTX_CREATE: 0 -/
  activeNs : Nat
  /-- CTR_SELECT commands under way: queue, sequence number, and the piers that have yet to take their events (17 R414);
  at CTX_CREATE: empty -/
  selecting : List (Nat × Nat × List Nat)
  deriving DecidableEq, Repr

/-- A pending or current slice (14 R348). -/
structure Slice where
  ctx : Nat
  lengthNs : Nat
  q : Nat
  seq : Nat
  deriving DecidableEq, Repr

/-- The slice in hand (14 R348 to R350). -/
structure CurrentSlice where
  slice : Slice
  /-- powered time at which charging for the slice began -/
  start : Nat
  nominalEnd : Nat
  /-- powered time at which, at or after the nominal end, an entry was first ready -/
  nextReady : Option Nat
  /-- the nominal end has been reached and no further instruction issues -/
  ending : Bool
  /-- overrun in ns, once the switch-out has begun (14 R350) -/
  overrun : Nat
  deriving DecidableEq, Repr

/-- The slice scheduler (14 R348, R353). -/
structure Sched where
  /-- the active context (14 R342); reset: none -/
  active : Option Nat
  /-- the slice in hand; reset: none -/
  current : Option CurrentSlice
  /-- pending slices, at most 16 (14 R348); reset: empty -/
  queue : List Slice
  /-- a switch-in that has begun: the slice taken and its effective length (14 R353); reset: none -/
  incoming : Option (Slice × Nat)
  /-- powered time up to which the active context has been charged (14 R349); reset: 0 -/
  chargedTo : Nat
  deriving DecidableEq, Repr

/-! ### Caisson -/

/-- A checkpoint configuration (11 R290). -/
structure CkptConfig where
  ctx : Nat
  /-- sequence number of its CKPT_CONFIG (13 R333) -/
  seq : Nat
  stepInterval : Nat
  timerS : Nat
  reportQueue : Nat
  sign : Bool
  text : List Byte
  /-- address and length in MiB of each range -/
  ranges : List (Nat × Nat)
  deriving DecidableEq, Repr

/-- A shard of a checkpoint (11 R276, R282). -/
structure Shard where
  src : Nat
  mib : Nat
  stack : Nat
  index : Nat
  halfOffsetMib : Nat
  digest : List Byte
  deriving DecidableEq, Repr

/-- A checkpoint in progress (11 R276 to R280). -/
structure CkptRun where
  ctx : Nat
  half : Nat
  cfg : CkptConfig
  text : List Byte
  /-- the two digests of the loaded image (11 R281) -/
  zecDigest : List Byte
  redDigest : List Byte
  captureTime : Nat
  /-- the step number at the boundary -/
  step : Nat
  version : Nat
  nextMb : Nat
  ls : LossScale
  lsInterval : Nat
  shards : List Shard
  /-- granules not yet copied: shard index and granule (11 R277) -/
  uncopied : List (Nat × Nat)
  /-- stacks whose shard records are written (11 R279) -/
  digested : List Nat
  /-- the context has reached STEP_END of the captured step (11 R280) -/
  stepEnded : Bool
  deriving DecidableEq, Repr

/-- A request of CKPT_TAKE: the step r, the text it supplied, and whether it has fallen due and is held (11 R275, R289). -/
structure CkptTake where
  step : Nat
  text : Option (List Byte)
  due : Bool
  deriving DecidableEq, Repr

/-- The Caisson (11). -/
structure Caisson where
  /-- configuration in force; reset: none -/
  config : Option CkptConfig
  /-- configuration, or release, that waits for the next capture point or the end of the run; with its command; reset: none -/
  newConfig : Option (Option CkptConfig × Nat × Nat)
  /-- requests of CKPT_TAKE whose checkpoint has not started, oldest first (11 R275, R289); reset: empty -/
  takes : List CkptTake
  /-- the timer has fallen due (11 R275); reset: false -/
  timerDue : Bool
  /-- a trigger is held (11 R275); reset: false -/
  held : Bool
  /-- powered time from which the timer counts (11 R275); reset: 0 -/
  timerFrom : Nat
  /-- the checkpoint in progress; reset: none -/
  run : Option CkptRun
  /-- highest sequence committed on this package since reset (11 R281); reset: 0 -/
  sequence : Nat
  deriving DecidableEq, Repr

/-! ### Pylon ports -/

/-- The states of a port (09 R231). -/
inductive PortState
  | disabled
  | detect
  | equalise
  | align
  | config
  | active
  | retrain
  | recal
  | failed
  deriving DecidableEq, Repr

/-- A Pylon frame (09 R233). -/
structure PylonFrame where
  dst : Nat
  dstTile : Nat
  src : Nat
  srcTile : Nat
  klass : Nat
  hops : Nat
  lseq : Nat
  ack : Nat
  payload : List Byte
  deriving DecidableEq, Repr

/-- A routed frame held for replay (09 R235). -/
structure TxFrame where
  frame : PylonFrame
  /-- times sent (09 R237) -/
  sends : Nat
  deriving DecidableEq, Repr

/-- A link control frame (09 R234). -/
inductive CtlFrame
  | credit (grants : List Nat)
  | nak (lseq : Nat)
  | config (pkg port version retryKib : Nat)
  | recalReq (port : Nat)
  | recalAck (port : Nat)
  deriving DecidableEq, Repr

/-- A live recalibration of a port (09 R246). -/
structure RecalRun where
  /-- the PORT_CTL that asked for it, at the requesting end -/
  cmd : Option (Nat × Nat)
  acked : Bool
  /-- powered time of the request -/
  since : Nat
  /-- neighbour before the recalibration -/
  neighbour : Option (Nat × Nat)
  /-- the port was in its bonds and routes before it -/
  inBonds : Bool
  deriving DecidableEq, Repr

/-- A Pylon port (09). -/
structure Port where
  /-- 09 R231; reset: disabled -/
  st : PortState
  /-- powered time of entry into the state (09 R231); reset: 0 -/
  since : Nat
  /-- sub-state of RETRAIN and RECAL: 0 equalise, 1 align, 2 config (09 R231); reset: 0 -/
  sub : Nat
  /-- powered time of entry into the sub-state (09 R231); reset: 0 -/
  subSince : Nat
  /-- the equalisation of RETRAIN or RECAL starts from saved coefficients (09 R231); reset: false -/
  fromSaved : Bool
  /-- consecutive failed training attempts (09 R232); reset: 0 -/
  attempts : Nat
  /-- powered times of entries to RETRAIN (09 R232); reset: empty -/
  retrains : List Nat
  /-- neighbour package and port learned in CONFIG (09 R234); reset: none -/
  neighbour : Option (Nat × Nat)
  /-- the port gives frames and belongs to its bonds and routes (09 R237, R246); reset: false -/
  inService : Bool
  /-- retry buffer, oldest first (09 R235, R236); reset: empty -/
  retry : List TxFrame
  /-- frames that wait for hop-class credit, oldest first, each with the port at which it arrived and whose buffer it takes until it
  leaves (09 R235); reset: empty -/
  waiting : List (Option Nat × PylonFrame)
  /-- lseq of the next frame sent (09 R233); reset: 0 -/
  txSeq : Nat
  /-- lseq expected next (09 R235); reset: 0 -/
  rxSeq : Nat
  /-- a NAK has been sent and the named lseq has not arrived (09 R235); reset: false -/
  nakSent : Bool
  /-- cumulative KiB granted by the partner for each hop class (09 R234); reset: eight times 0 -/
  credit : List Nat
  /-- KiB sent in each hop class, modulo 65,536; reset: eight times 0 -/
  used : List Nat
  /-- cumulative KiB granted to the partner for each hop class (09 R235: 32 KiB each); reset: eight times 32 -/
  granted : List Nat
  /-- retry activity: its start and the lseq of its last frame (09 R236); reset: none -/
  activity : Option (Nat × Nat)
  /-- packages sent a HOLD in this activity (09 R236); reset: empty -/
  holdTo : List Nat
  /-- powered time of the last advance of ack (09 R235); reset: 0 -/
  ackAt : Nat
  /-- a live recalibration in steps 3 to 6 (09 R246); reset: none -/
  recal : Option RecalRun
  /-- PORT_CTL disables that wait for the retry buffer (09 R245); reset: empty -/
  disabling : List (Nat × Nat)
  /-- link control frames sent: their ack and payload (09 R233, R234); reset: empty -/
  ctlOut : List (Nat × List Byte)
  /-- pre-FEC ratio of the last full second × 10^12 (17 R412); reset: 0 -/
  ber : Nat
  /-- frames discarded by R233 and R234, which no counter of R412 reads; reset: 0 -/
  discarded : Nat
  deriving DecidableEq, Repr

/-- A routing table entry (09 R242). -/
structure Route where
  ports : List Nat
  valid : Bool
  isLocal : Bool
  spread : Nat
  reserved : Bool
  deriving DecidableEq, Repr

/-- A HOLD or HOLD_END that reached this package (09 R236, R247): the port in retry activity it names, its powered time, and the
port and lseq at which it arrived; none for this package's own ports. -/
structure Hold where
  pkg : Nat
  port : Nat
  at_ : Nat
  arrival : Option (Nat × Nat)
  deriving DecidableEq, Repr

/-- The Pylon side of the package (09). -/
structure Pylon where
  /-- package ID (09 R241); reset: none -/
  pkgId : Option Nat
  /-- a ROUTE_COMMIT has been made since the last reset (09 R241); reset: false -/
  committed : Bool
  /-- active routing table, entries ever written, by destination (09 R242); reset: empty -/
  routes : List (Nat × Route)
  /-- shadow table (09 R243); reset: empty -/
  shadow : List (Nat × Route)
  /-- the 64 ports (09 R228); reset: all disabled -/
  ports : List Port
  /-- pauses by HOLD (09 R236); reset: empty -/
  holds : List Hold
  /-- HOLD_ENDs that ended no pause, for HOLDs still to arrive on the same port (09 R247); reset: empty -/
  ends : List Hold
  /-- routed frames delivered to this package and not yet taken by an engine (09 R242); reset: empty -/
  inbox : List PylonFrame
  /-- last log entry of a discard, by destination: powered time and count (09 R242); reset: empty -/
  discards : List (Nat × Nat × Nat)
  /-- position of the next port of a mask, by destination (09 R242); reset: empty -/
  turn : List (Nat × Nat)
  /-- tiles whose Span spill path holds a word with a single-bit error (07 R190); reset: empty -/
  spillWeak : List Nat
  /-- tiles whose Span spill path holds an uncorrectable word (07 R190); reset: empty -/
  spillBad : List Nat
  deriving DecidableEq, Repr

/-! ### Approach units -/

/-- An item of a feed (12 R297). -/
structure Item where
  addr : Nat
  length : Nat
  kind : Nat
  profile : Nat
  segId : Nat
  firstFrame : Nat
  maxFrames : Nat
  frameStride : Nat
  flags : Nat
  table : Nat
  tokenCap : Nat
  deriving DecidableEq, Repr

/-- What an item gave: its result record (12 R300) and its token rows (R299). -/
structure ItemResult where
  result : Nat
  unit : Nat
  detail : Nat
  microcode : Nat
  /-- token rows, the bytes of each, and the place of the first in the staging range -/
  tokens : Nat
  width : Nat
  place : Nat
  deriving DecidableEq, Repr

/-- An APR_FEED under way (12 R298). -/
structure Feed where
  q : Nat
  seq : Nat
  ctx : Nat
  last : Bool
  tag : Nat
  resultsAddr : Nat
  items : List Item
  results : List (Nat × ItemResult)
  /-- the tokenizer tables that its items name, as they stood when it was taken (12 R312) -/
  tables : List (Nat × List Byte)
  /-- the packed micro-batch of step 3 in the staging range: segments and the place of their table, payload bytes and their place -/
  packed : Option (Nat × Nat × Nat × Nat)
  deriving DecidableEq, Repr

/-- The Approach media intake (12). -/
structure Approach where
  /-- loaded tokenizer tables (12 R312); reset: empty -/
  tables : List (Nat × List Byte)
  /-- feeds under way in take order (12 R298); reset: empty -/
  feeds : List Feed
  deriving DecidableEq, Repr

/-! ### Tether, queues, commands -/

/-- The states of the Tether link (13 R319). -/
inductive TetherState
  | down
  | train
  | up
  | retrain
  | lost
  deriving DecidableEq, Repr

/-- Events that the adapter reports to the host driver (13 R321, R329, R339, 18 R436). -/
inductive AdapterEvent
  | linkLost
  | activityStart
  | activityEnd
  | unresponsive (q seq : Nat)
  | removeReady
  deriving DecidableEq, Repr

/-- A device write to host memory that the adapter has not acknowledged (13 R338). -/
structure Posted where
  addr : Nat
  bytes : List Byte
  /-- sequence number of its last flit (13 R320) -/
  last : Nat
  /-- a completion entry, which stands once it is in host memory (13 R321) -/
  reply : Bool
  deriving DecidableEq, Repr

/-- The adapter's timer of a valid entry: the flit that carries its TACK, and when the timer started (13 R329, R339). -/
structure TackTimer where
  q : Nat
  seq : Nat
  flit : Nat
  since : Nat
  deriving DecidableEq, Repr

/-- A host access to the register window that waits behind the link (13 R320). -/
inductive HostAccess
  | write (offset value : Nat)
  | read (offset : Nat)
  deriving DecidableEq, Repr

/-- The Tether (13). -/
structure Tether where
  /-- 13 R319; reset: down -/
  st : TetherState
  /-- powered time at which the link left UP (13 R321); reset: none -/
  outSince : Option Nat
  /-- retry activity (13 R320): the flits held at its start; reset: none -/
  activity : Option (List Nat)
  /-- next flit sequence number expected (13 R320); reset: 0 -/
  rxSeq : Nat
  /-- next flit sequence number sent; reset: 0 -/
  txSeq : Nat
  /-- the retry buffer: unacknowledged flits and their replays (13 R320); reset: empty -/
  unacked : List (Nat × Nat)
  /-- flits that wait for the link or for room in the retry buffer (13 R320); reset: 0 -/
  unsent : Nat
  /-- negative acknowledgements sent (13 R320); reset: 0 -/
  naksSent : Nat
  /-- the flit that the last negative acknowledgement asked for has not arrived intact (13 R320); reset: false -/
  awaitFlit : Bool
  /-- TETHER_STAT.RETRAINS (13 R323); reset: 0 at power-on -/
  retrains : Nat
  /-- TETHER_STAT.REPLAYS (13 R323); reset: 0 at power-on -/
  replays : Nat
  /-- last PTIME capture (13 R323); reset: 0 -/
  ptimeCapture : Nat
  /-- last CTX_ACCOUNT_n captures (13 R323); reset: sixteen times 0 -/
  accountCapture : List Nat
  /-- what the last register read returned (13 R322); reset: 0 -/
  readValue : Nat
  /-- the adapter forwards register writes (13 R329, R321); reset: true -/
  forwarding : Bool
  /-- adapter events, oldest first (13 R321, R329, R339); reset: empty -/
  events : List AdapterEvent
  /-- entries returned whose TACK has not reached the adapter (13 R329); reset: empty -/
  tackTimers : List TackTimer
  /-- host accesses that wait, oldest first (13 R320, R321, R340); reset: empty -/
  waiting : List HostAccess
  /-- host address of the last ring entry read (13 R326); reset: 0 -/
  fetchAddr : Nat
  /-- the last queue taken from among queues 0 to 3 (13 R328); reset: 3 -/
  lastHigh : Nat
  /-- the last queue taken from among queues 4 to 63 (13 R328); reset: 63 -/
  lastLow : Nat
  /-- writes issued and not yet acknowledged, oldest first (13 R338); reset: empty -/
  posted : List Posted
  /-- ranges outside completion rings that have reached host memory since the last flush (13 R321); reset: empty -/
  unflushed : List (Nat × Nat)
  /-- host memory bytes the device has written and that have reached it (13 R338); reset: nothing listed -/
  hostMem : Memory
  deriving DecidableEq, Repr

/-- A completion entry (13 R333), as it is held before it is written. -/
structure Completion where
  opcode : Nat
  status : Nat
  kind : Nat
  context : Nat
  last : Bool
  seq : Nat
  p : List Nat
  /-- a host WAIT goes with it, for the program that made the SIGNAL (02 R44) -/
  wait : Bool := false
  deriving DecidableEq, Repr

/-- A command queue (13 R325, R331). -/
structure HostQueue where
  /-- QRING_LO; reset: 0 -/
  ringLo : Nat
  /-- QRING_HI; reset: 0 -/
  ringHi : Nat
  /-- QCPL_LO; reset: 0 -/
  cplLo : Nat
  /-- QCPL_HI; reset: 0 -/
  cplHi : Nat
  /-- QCFG.ENABLE; reset: false -/
  enable : Bool
  /-- QCFG.CTX; reset: 0 -/
  ctx : Nat
  /-- QCFG.CPL_LOG2; reset: 0 -/
  cplLog2 : Nat
  /-- QCFG.RING_LOG2; reset: 0 -/
  ringLog2 : Nat
  /-- QHEAD; reset: 0 -/
  head : Nat
  /-- QCTAIL; reset: 0 -/
  ctail : Nat
  /-- QCHEAD; reset: 0 -/
  chead : Nat
  /-- QSTAT.STOPPED; reset: true -/
  stopped : Bool
  /-- QSTAT.CAUSE; reset: 0 -/
  cause : Nat
  /-- QSTAT.IGNORED; reset: 0 -/
  ignored : Nat
  /-- the queue was stopped by an event of R328 and not re-armed (13 R323 QSTOP); reset: false -/
  stopEvent : Bool
  /-- doorbell target: entries up to this one are to be taken (13 R327); reset: none -/
  target : Option Nat
  /-- powered time of the first invalid read of the head entry (13 R328); reset: none -/
  staleFrom : Option Nat
  /-- MAILBOX DATA words (13 R331); reset: twelve times 0 -/
  data : List Nat
  /-- MAILBOX EVENT; reset: 0 -/
  event : Nat
  /-- MAILBOX EXPECT; reset: 0 -/
  expect : Nat
  /-- MAILBOX FOUND; reset: 0 -/
  found : Nat
  /-- MAILBOX PTIME; reset: 0 -/
  mptime : Nat
  /-- completions that wait for ring room (13 R333); reset: empty -/
  held : List Completion
  /-- powered time since which the ring has been full (13 R333); reset: none -/
  fullSince : Option Nat
  /-- the episode is logged (13 R333); reset: false -/
  fullLogged : Bool
  deriving DecidableEq, Repr

/-- A command taken and not completed (13 R326, R328, R330). -/
structure Taken where
  q : Nat
  seq : Nat
  opcode : Nat
  context : Nat
  fence : Bool
  p : List Nat
  payload : List Byte
  /-- the command has started -/
  started : Bool
  /-- a CMD_ABORT whose target has completed since it was taken: the outcome it reports (14 R356) -/
  late : Option Nat := none
  deriving DecidableEq, Repr

/-- A CMD_ABORT that waits for its target's completion (14 R355): own queue and seq, target queue and seq, outcome. -/
structure AbortWait where
  q : Nat
  seq : Nat
  tq : Nat
  tseq : Nat
  outcome : Nat
  deriving DecidableEq, Repr

/-! ### Dies, modules, Tollhouse -/

/-- A budget-controlled die (01 R24, 15 R375 to R377). -/
structure Die where
  /-- die code of R375 -/
  code : Nat
  /-- released from reset (15 R370); reset: false -/
  released : Bool
  /-- budget in force, quarter watts (15 R377); reset: the floor -/
  budget : Nat
  /-- last valid budget, which the next valid message replaces -/
  given : Nat
  /-- sequence number of the last valid message; reset: none -/
  lastSeq : Option Nat
  /-- sequence number of the next message Tollhouse sends (15 R375); reset: 0 -/
  sendSeq : Nat
  /-- consecutive misses (15 R377); reset: 0 -/
  misses : Nat
  /-- the floor is in force (15 R376, R377); reset: true -/
  atFloor : Bool
  /-- powered time of the floor's entry (15 R377); reset: 0 -/
  floorSince : Nat
  /-- powered time of the last valid message or miss (15 R377); reset: 0 -/
  heardAt : Nat
  /-- discarded messages (15 R375); reset: 0 -/
  discards : Nat
  /-- draw of the last report (15 R376); reset: 0 -/
  draw : Nat
  /-- reports missing in a row (16 R399); reset: 0 -/
  silent : Nat
  /-- a sent message has not been answered yet (15 R376); reset: false -/
  awaiting : Bool
  /-- the draw measured at each 5 mV step from 620 mV, quarter watts; of a Pylon die, its draw with no limit first (01 R24, R29);
  reset: empty, nothing measured -/
  draws : List Nat
  /-- commanded core voltage in mV (01 R29, 15 R376); reset: 700 (01 R19) -/
  millivolts : Nat
  /-- throttled by a thermal alert (01 R31); reset: false -/
  throttled : Bool
  /-- held at its floor by failed sensors (16 R398); reset: false -/
  sensorFloor : Bool
  /-- the floor was entered, by misses or failed sensors, and its entry is not in the log yet (15 R377); reset: false -/
  floorEntered : Bool
  deriving DecidableEq, Repr

/-- A substrate module (15 R363, R372, R373). -/
structure Module where
  /-- the module carries flits of its link (15 R364); reset: false -/
  inLink : Bool
  /-- a module reset is under way (15 R372); reset: false -/
  resetting : Bool
  /-- attempts made in the die hold in which it is retrained (15 R373, R378); reset: none -/
  holdAttempts : Option Nat
  deriving DecidableEq, Repr

/-- A sensor's last reading and whether it has failed (16 R397, R398). -/
structure SensorState where
  sensor : Sensor
  reading : Int
  failed : Bool
  deriving DecidableEq, Repr

/-- A firmware update between its commit and its swap (16 R390); the command, or none for RECOVERY_COMMIT. -/
structure FwRun where
  cmd : Option (Nat × Nat)
  module : FwModule
  replaced : Nat
  deriving DecidableEq, Repr

/-- Tollhouse (16). -/
structure Tollhouse where
  /-- error log ring, oldest first, at most 8,192 (16 R402); reset: empty -/
  log : List LogEntry
  /-- seq of the next entry (16 R400); reset: 1 -/
  logSeq : Nat
  /-- unread entries replaced since the last read (16 R402, R403); reset: 0 -/
  logReplaced : Nat
  /-- budgets of the power table: four Pier, four Pylon dies, quarter watts (16 R399); reset: nominal of R24 -/
  table : List Nat
  /-- power tables loaded since boot (15 R375); reset: 0 -/
  epoch : Nat
  /-- last readings (16 R397); reset: none -/
  sensors : List SensorState
  /-- the journal store's records, oldest first; blocks that none takes are erased (16 R380, R381); reset: the factory's (log 32) -/
  journal : List JournalRecord
  /-- retired erase blocks (16 R380); reset: none -/
  retired : List Nat
  /-- erase blocks that fail when the journal next programs or erases one (16 R380; log 128); reset: none -/
  failing : List Nat
  /-- blocks that failed and whose RETIRE record is still to be written (16 R380); reset: none -/
  toRetire : List Nat
  /-- the certificate in the journal store (16 R391); reset: the factory's -/
  certificate : List Byte
  /-- power has been lost since the log's persisted entries were last restored (16 R402); reset: true -/
  restoreDue : Bool
  /-- module table in force (16 R386); reset: empty -/
  modules : List FwModule
  /-- module table after the last boot, for the boot measurement (16 R394); reset: empty -/
  bootModules : List FwModule
  /-- next identity index (16 R393); reset: 0 -/
  q : Nat
  /-- the subtree of the current index in SRAM: its number and its nodes (16 R392); reset: none, before the boot -/
  subtree : Option (Nat × List (List Byte))
  /-- the next 1,024-leaf subtree, once it is computed (16 R392); reset: none -/
  nextSubtree : Option (Nat × List (List Byte))
  /-- a firmware update that waits for its swap point (16 R390); reset: none -/
  fw : Option FwRun
  /-- a firmware fallback occurred at the last boot (16 R388, R394); reset: false -/
  fallback : Bool
  /-- staged recovery package (16 R405); reset: nothing listed -/
  staged : Memory
  /-- bytes staged (16 R405); reset: 0 -/
  stagedBytes : Nat
  /-- I3C dynamic address (16 R404); reset: none -/
  i3cAddr : Option Nat
  /-- MCTP endpoint ID (16 R404); reset: 0 -/
  eid : Nat
  /-- the last I3C response, in its transmission units (16 R404, R405); reset: empty -/
  response : List (List Byte)
  /-- budget messages sent and not yet received, oldest first (15 R375, R377); reset: empty -/
  messages : List (List Byte)
  /-- budget reports sent and not yet received, oldest first (15 R376); reset: empty -/
  reports : List (List Byte)
  /-- sources in thermal alert: die codes, 0x30 the Approach die, 0x40 + k stack k (01 R31, 16 R398); reset: empty -/
  alerting : List Nat
  deriving DecidableEq, Repr

/-! ### The package -/

/-- Power and reset phases (15 R370, 18 R423). -/
inductive Phase
  /-- PWR_OK is low: nothing runs (01 R21) -/
  | unpowered
  /-- a reset has been made and BOOT has not run (15 R370) -/
  | inReset
  /-- boot step 11 is complete (15 R370) -/
  | running
  /-- boot stopped before step 11 (15 R371), or the package was removed (18 R436) -/
  | stopped
  /-- thermal trip, until PWR_OK falls (01 R31) -/
  | tripped
  deriving DecidableEq, Repr

/-- Pins, power, reset and service state of the package (01, 13, 15, 18). -/
structure Package where
  /-- the part is ZXS-4P12-B (00 R1); reset: false, a ZXS-4P12-A (DESIGN CHOICE, log 6) -/
  orderB : Bool
  /-- PWR_OK (01 R33); reset: true -/
  pwrOk : Bool
  /-- TE_PRSNT_N is low (01 R33, 13 R318); reset: true -/
  cable : Bool
  /-- 15 R370; reset: inReset -/
  phase : Phase
  /-- boot step reached (15 R370, 16 R405); reset: 1 -/
  bootStep : Nat
  /-- LAST_RESET value that the next boot reports (13 R323, 18 R423); reset: 0x00 -/
  resetCause : Nat
  /-- DEV_STATUS.LAST_RESET (13 R323); reset: 0x00 -/
  lastReset : Nat
  /-- DEV_STATUS.RETAINED (13 R323); reset: false -/
  retained : Bool
  /-- DEV_STATUS.OOS, PKG_FAULT_N asserted (13 R323, 01 R17); reset: false -/
  oos : Bool
  /-- DEV_STATUS.OOS_CODE (13 R323); reset: 0 -/
  oosCode : Nat
  /-- DEV_STATUS.READY (13 R323); reset: false -/
  ready : Bool
  /-- THERM_ALERT_N asserted (01 R31); reset: false -/
  alert : Bool
  /-- THERM_TRIP_N asserted (01 R31); reset: false -/
  trip : Bool
  /-- a removal is under way, and its completions are not all written and acknowledged (18 R436); reset: false -/
  removing : Bool
  /-- TE_ALERT_N asserted by a removal (18 R436); reset: false -/
  removeAlert : Bool
  /-- tiles held in reset because their regulator did not answer the boot (01 R20); reset: empty -/
  heldTiles : List Nat
  /-- dies in the die hold that is running, by die code, 0x30 the Approach die (15 R372, R373, R378); reset: empty -/
  holdDies : List Nat
  /-- descriptors that the walk read and that differ from those of the dies that belong in their places (15 R368, R369); reset: empty -/
  found : List (Nat × List Byte)
  deriving DecidableEq, Repr

/-- The whole block. -/
structure State where
  /-- commands that wait, first in first out; reset: empty -/
  pending : List Instr
  /-- powered time in ns (00 R10, 16 R396); reset: 0 -/
  time : Nat
  pkg : Package
  toll : Tollhouse
  /-- the eight budget-controlled dies (15 R375) -/
  dies : List Die
  /-- the 80 substrate modules (15 R363) -/
  modules : List Module
  tether : Tether
  /-- the 64 command queues (00 R13) -/
  queues : List HostQueue
  /-- commands taken and not completed, in take order (13 R328) -/
  cmds : List Taken
  /-- aborts that wait (14 R355); reset: empty -/
  aborts : List AbortWait
  /-- the sixteen context descriptors (14 R342); reset: none exists -/
  ctxs : List (Option Context)
  sched : Sched
  hbm : Hbm
  /-- piers of the active context that hold anything, by rising ID; reset: empty -/
  piers : List Pier
  caisson : Caisson
  pylon : Pylon
  apr : Approach
  /-- package counters by selector, classes 4 to 7 (17 R409); reset: all 0 -/
  counters : List (Nat × Nat)
  /-- the part of those counters that moves by free values: corrected symbols, flits, waits on copies (17 R412, R413; log 43);
  reset: all 0 -/
  waits : List (Nat × Nat)
  /-- the model's own: the number of the next free value (log 2); reset: 0, DESIGN CHOICE -/
  free : Nat
  deriving DecidableEq, Repr

/-! ### Reset -/

def Stack.fresh : Stack :=
  { retained := false, selfRefresh := true, hotRefresh := false, coolSince := none, calTemp := none, calTime := 0,
    corrections := [], blockCorrections := [], pathWeak := false, pathBad := false }

def Plane.empty : Plane := { format := none, rows := [], scales := [], loadedAt := none }

def Pier.fresh (id : Nat) : Pier :=
  { id, mem := [], badWords := [], weakWords := [], plane0 := .empty, plane1 := .empty, index := 0, score := [],
    drain := [], lane := none, laneSample := none, store := [], bufferAt := 0, buffer := [] }

def Port.fresh : Port :=
  { st := .disabled, since := 0, sub := 0, attempts := 0, retrains := [], neighbour := none, inService := false,
    subSince := 0, fromSaved := false, retry := [], waiting := [], txSeq := 0, rxSeq := 0, nakSent := false, credit := List.replicate 8 0, used := List.replicate 8 0,
    granted := List.replicate 8 32, activity := none, holdTo := [], ackAt := 0, recal := none, disabling := [], ctlOut := [],
    ber := 0, discarded := 0 }

def HostQueue.fresh : HostQueue :=
  { ringLo := 0, ringHi := 0, cplLo := 0, cplHi := 0, enable := false, ctx := 0, cplLog2 := 0, ringLog2 := 0, head := 0,
    ctail := 0, chead := 0, stopped := true, cause := 0, ignored := 0, stopEvent := false, target := none,
    staleFrom := none, data := List.replicate 12 0, event := 0, expect := 0, found := 0, mptime := 0, held := [],
    fullSince := none, fullLogged := false }

/-- Floor budget in quarter watts (01 R24): 360 W for a Pier die, 80 W for a Pylon die. -/
def floorOf (code : Nat) : Nat := if code < 0x20 then 1440 else 320

/-- A die out of reset: at its floor (01 R24). Its core voltage is the 0.70 V that 01 R19 commands at power-up; after a
warm reset, a self-reset or a die hold no rule states a level, and for a Pylon die's engine regulator (01 R29) none
states one at all: 700 mV there too (DESIGN CHOICE, log 90). -/
def Die.fresh (code : Nat) : Die :=
  { code, released := false, budget := floorOf code, given := floorOf code, lastSeq := none, sendSeq := 0, misses := 0,
    atFloor := true, floorSince := 0, heardAt := 0, discards := 0, draw := 0, silent := 0, awaiting := false,
    draws := [], millivolts := 700, throttled := false, sensorFloor := false, floorEntered := false }

def Module.fresh : Module := { inLink := false, resetting := false, holdAttempts := none }

def Caisson.fresh : Caisson :=
  { config := none, newConfig := none, takes := [], timerDue := false, held := false, timerFrom := 0, run := none,
    sequence := 0 }

def Pylon.fresh : Pylon :=
  { pkgId := none, committed := false, routes := [], shadow := [], ports := List.replicate 64 Port.fresh, holds := [], ends := [],
    inbox := [], discards := [], turn := [], spillWeak := [], spillBad := [] }

def Sched.fresh : Sched := { active := none, current := none, queue := [], incoming := none, chargedTo := 0 }

def Tether.fresh : Tether :=
  { st := .down, outSince := none, activity := none, rxSeq := 0, txSeq := 0, unacked := [], naksSent := 0, awaitFlit := false, retrains := 0,
    replays := 0, ptimeCapture := 0, accountCapture := List.replicate 16 0, readValue := 0, forwarding := true,
    events := [], tackTimers := [], waiting := [], unsent := 0, fetchAddr := 0, lastHigh := 3, lastLow := 63, posted := [], unflushed := []
    hostMem := [] }

/-- The power table in force at boot, in quarter watts (16 R399). -/
def nominalTable (orderB : Bool) : List Nat :=
  if orderB then [2048, 2048, 2048, 2048, 440, 440, 440, 440] else [2880, 2880, 2880, 2880, 440, 440, 440, 440]

def Tollhouse.fresh : Tollhouse :=
  { log := [], logSeq := 1, logReplaced := 0, table := nominalTable false, epoch := 0, sensors := [], journal := factoryJournal,
    retired := [], failing := [], toRetire := [], certificate := Sys2Proof.Machine.certificate (Config.dieUid 0) (orderCode false), restoreDue := true,
    modules := [], bootModules := [], q := 0, subtree := none, nextSubtree := none,
    fw := none, fallback := false, staged := [], stagedBytes := 0, i3cAddr := none, eid := 0, response := [],
    messages := [], reports := [], alerting := [] }

def Package.fresh : Package :=
  { orderB := false, pwrOk := true, cable := true, phase := .inReset, bootStep := 1, resetCause := 0, lastReset := 0,
    retained := false, oos := false, oosCode := 0, ready := false, alert := false, trip := false, removing := false, removeAlert := false, heldTiles := [], holdDies := [], found := [] }

/-- The die codes of R375, Pier dies first. -/
def dieCodes : List Nat := [0x10, 0x11, 0x12, 0x13, 0x20, 0x21, 0x22, 0x23]

/-- The machine right after the cold reset of its first power-on: PWR_OK is high and BOOT has not run (18 R423). -/
def State.reset : State :=
  { pending := [], time := 0, pkg := .fresh, toll := .fresh, dies := dieCodes.map Die.fresh,
    modules := List.replicate 80 .fresh, tether := .fresh, queues := List.replicate 64 .fresh, cmds := [], aborts := [],
    ctxs := List.replicate 16 none, sched := .fresh,
    hbm := { mem := [], uncorrectable := [], correctable := [], footings := List.replicate 12 .fresh }, piers := [],
    caisson := .fresh, pylon := .fresh, apr := { tables := [], feeds := [] }, counters := [], waits := [], free := 0 }

end Sys2Proof.Machine
end

