-- ==== Sys2Proof/Machine/Memory.lean ====
section
/-! DEFINITION. Memory as sorted cells, each unlisted byte reading 0 (R267, R344), and HBM accesses with the error
correction of R254 and R255. -/

namespace Sys2Proof.Machine

def Range.meets (x y : Range) : Bool := rangesMeet x.start x.bytes y.start y.bytes

/-- What an unlisted byte reads as (R267; log 5 for what R267 does not cover). -/
def Memory.default : Byte := 0

/-- The canonical form: rising addresses, no listed default. -/
abbrev Memory.Wf (m : Memory) : Prop := m.Pairwise (fun x y => x.1 < y.1) ∧ ∀ c ∈ m, c.2 ≠ Memory.default

/-- The byte at an address. -/
def Memory.get (m : Memory) (a : Nat) : Byte := (List.lookup a m).getD Memory.default

/-- Store a byte, keeping the canonical form. -/
def Memory.set (m : Memory) (a : Nat) (v : Byte) : Memory :=
  match m with
  | [] => if v = Memory.default then [] else [(a, v)]
  | (b, w) :: t =>
    if a < b then (if v = Memory.default then (b, w) :: t else (a, v) :: (b, w) :: t)
    else if a = b then (if v = Memory.default then t else (a, v) :: t)
    else (b, w) :: Memory.set t a v

/-- `n` bytes from an address. -/
def Memory.read (m : Memory) (a n : Nat) : List Byte := (List.range n).map fun i => Memory.get m (a + i)

/-- Store bytes from an address. -/
def Memory.write (m : Memory) (a : Nat) : List Byte → Memory
  | [] => m
  | b :: bs => Memory.write (Memory.set m a b) (a + 1) bs

/-- Make a range read as the default. -/
def Memory.clear (m : Memory) (a n : Nat) : Memory := m.filter fun c => !decide (a ≤ c.1 ∧ c.1 < a + n)

/-- The listed cells of a range. -/
def Memory.cells (m : Memory) (a n : Nat) : List Host.Cell := m.filter fun c => decide (a ≤ c.1 ∧ c.1 < a + n)

/-- Store single cells. -/
def Memory.put (m : Memory) (cs : List Host.Cell) : Memory := cs.foldl (fun m c => Memory.set m c.1 c.2) m

/-- Copy `n` bytes between two memories. -/
def Memory.copyFrom (m src : Memory) (a b n : Nat) : Memory :=
  Memory.put (Memory.clear m b n) ((Memory.cells src a n).map fun c => (b + (c.1 - a), c.2))

/-- The bytes of a 32-bit fill word through a range (R336, R261). -/
def fillBytes (w n : Nat) : List Byte := (List.range n).map fun i => BitVec.ofNat 8 (w >>> (8 * (i % 4)))

/-- Fill a range with a 32-bit word. -/
def Memory.fill (m : Memory) (a n w : Nat) : Memory :=
  if w = 0 then Memory.clear m a n else Memory.write m a (fillBytes w n)

/-- The ECC block of an address (R254). -/
def blockOf (a : Nat) : Nat := a / 64

/-- The uncorrectable blocks that a range touches (R255). -/
def Hbm.badIn (h : Hbm) (a n : Nat) : List Nat := h.uncorrectable.filter fun b => rangesMeet (64 * b) 64 a n

/-- The uncorrectable blocks that a write of the range would have to merge into (R255). -/
def Hbm.badPartial (h : Hbm) (a n : Nat) : List Nat := (h.badIn a n).filter fun b => !rangeInside (64 * b) 64 a n

/-- Take `m` as the memory after a write of a range: blocks covered whole lose their error, uncorrectable blocks covered in
part keep their old bytes (R255). -/
def Hbm.commit (h : Hbm) (a n : Nat) (m : Memory) : Hbm :=
  { h with
    mem := (h.badPartial a n).foldl (fun m b => Memory.copyFrom m h.mem (64 * b) (64 * b) 64) m
    uncorrectable := h.uncorrectable.filter fun b => !rangeInside (64 * b) 64 a n
    correctable := h.correctable.filter fun b => !rangesMeet (64 * b) 64 a n }

/-- Write bytes into HBM. -/
def Hbm.write (h : Hbm) (a : Nat) (bs : List Byte) : Hbm := h.commit a bs.length (Memory.write h.mem a bs)

/-- Fill a range of HBM. -/
def Hbm.fill (h : Hbm) (a n w : Nat) : Hbm := h.commit a n (Memory.fill h.mem a n w)

/-- Copy within HBM. -/
def Hbm.copy (h : Hbm) (src dst n : Nat) : Hbm := h.commit dst n (Memory.copyFrom h.mem h.mem src dst n)

/-- Correctable blocks of a range, which a read corrects and writes back (R255). -/
def Hbm.weakIn (h : Hbm) (a n : Nat) : List Nat := h.correctable.filter fun b => rangesMeet (64 * b) 64 a n

/-- Correctable blocks that a write of the range merges into: they are read, and corrected, first (R255). -/
def Hbm.weakPartial (h : Hbm) (a n : Nat) : List Nat := (h.weakIn a n).filter fun b => !rangeInside (64 * b) 64 a n

/-- The blocks of a range have been read: corrected blocks are good again. -/
def Hbm.corrected (h : Hbm) (a n : Nat) : Hbm :=
  { h with correctable := h.correctable.filter fun b => !rangesMeet (64 * b) 64 a n }

/-! ### The address map (R249) -/

def stackBytes : Nat := 0x20_0000_0000
def generalBytes : Nat := 0x14_0000_0000
def halfBytes : Nat := 0x2_0000_0000
def mib : Nat := 1048576

/-- First address of a stack's window. -/
def stackBase (s : Nat) : Nat := s * stackBytes

/-- The stack of an address, when it has one. -/
def stackOf (a : Nat) : Option Nat := if a / stackBytes < 12 then some (a / stackBytes) else none

/-- A range lies wholly in general regions: each byte of it (R249). A range that crosses a window would cross spare bytes. -/
def inGeneral (a n : Nat) : Bool := decide (a / stackBytes < 12 ∧ a % stackBytes + n ≤ generalBytes)

/-- First address of a half's part on a stack (R249). -/
def halfBase (half s : Nat) : Nat := stackBase s + generalBytes + half * halfBytes

end Sys2Proof.Machine
end

