-- ==== Sys2Proof/Machine/Journal.lean ====
section
/-! DEFINITION. Tollhouse's journal store at work (16 R380 to R385): programming records, changes with their COMMIT, retirement of
blocks, compaction, and what the committed records say. -/

namespace Sys2Proof.Machine

/-! ### Room in the store (R380) -/

/-- The erase blocks that records take. -/
def usedBlocks (j : List JournalRecord) : List Nat := j.flatMap fun r => r.extents.map (·.block)

/-- The block being filled and its next page: where the last record ends, unless the block is full, retired, or one where a scan stops. -/
def openSpace (t : Tollhouse) : List (Nat × Nat) :=
  match (t.journal.getLast?).bind fun r => r.extents.getLast? with
  | none => []
  | some x =>
    if x.page + x.count < 64 && !t.retired.contains x.block && !(deadFrom [] t.journal).contains x.block then
      [(x.block, x.page + x.count)]
    else []

/-- Where records go next, in order: the open block, then the erased ones from the lowest on, which no rule fixes (DESIGN CHOICE,
log 135). `old` are records of another epoch that still stand. -/
def spaces (t : Tollhouse) (old : List JournalRecord) : List (Nat × Nat) :=
  let used := usedBlocks (old ++ t.journal)
  openSpace t ++ ((List.range 2048).filter fun b => !t.retired.contains b && !used.contains b).map fun b => (b, 0)

/-- Fill n pages from spaces: the extents, and the blocks that failed to program on the way. -/
def fill (failing : List Nat) : List (Nat × Nat) → Nat → List Extent × List Nat
  | [], _ => ([], [])
  | (b, p) :: rest, n =>
    if n = 0 then ([], [])
    else if failing.contains b then ((fill failing rest n).1, b :: (fill failing rest n).2)
    else
      ({ block := b, page := p, count := min n (64 - p) } :: (fill failing rest (n - (64 - p))).1, (fill failing rest (n - (64 - p))).2)

/-- Blocks that failed are retired; their RETIRE records are to be written (R380). -/
def Tollhouse.lose (t : Tollhouse) (failed : Nat → Bool) : Tollhouse :=
  { t with
    retired := t.retired ++ t.failing.filter failed
    toRetire := t.toRetire ++ t.failing.filter failed
    failing := t.failing.filter fun b => !failed b }

/-- Program one record of an epoch. One for which the store has no room is not written (log 93). -/
def program (old : List JournalRecord) (epoch : Nat) (t : Tollhouse) (b : JournalBody) : Tollhouse :=
  let x := fill t.failing (spaces t old) b.pages
  let r := JournalRecord.make (nextSeq (old ++ t.journal)) epoch b x.1
  let ok := (x.1.map (·.count)).sum == b.pages && !(deadFrom [] t.journal).contains r.start
  { t.lose x.2.contains with journal := if ok then t.journal ++ [r] else t.journal }

/-! ### Changes (R382) -/

/-- The epoch in force (R383). -/
def epochOf (t : Tollhouse) : Nat := baseEpoch (scan t.journal)

/-- Append a record in the epoch in force. -/
def appendRecord (t : Tollhouse) (b : JournalBody) : Tollhouse := program [] (epochOf t) t b

/-- The COMMIT of a change whose first record has a given sequence number, with its digest of their bodies. -/
def commitBody (t : Tollhouse) (first kind : Nat) : JournalBody :=
  .commit first kind (bodiesDigest (scan t.journal) (epochOf t) first (nextSeq t.journal))

/-- Append records and the COMMIT that makes them take effect (R382). -/
def commitRecords (t : Tollhouse) (kind : Nat) (bs : List JournalBody) : Tollhouse :=
  let u := bs.foldl appendRecord t
  appendRecord u (commitBody u (nextSeq t.journal) kind)

/-! ### What the committed records say (R383) -/

def moduleOf : JournalBody → Option FwModule
  | .module m => some m
  | _ => none

def reserveOf : JournalBody → Option Nat
  | .indexReserve k => some k
  | _ => none

def loggedOf : JournalBody → Option LogEntry
  | .errlog e => some e
  | _ => none

/-- Bodies in effect, oldest first. -/
def bodies (j : List JournalRecord) : List JournalBody := (inEffect j).map (·.body)

/-- Revisions of a module that the journal holds, oldest first. -/
def revisions (j : List JournalRecord) (id : Nat) : List FwModule := ((bodies j).filterMap moduleOf).filter fun m => m.id = id

/-- The live revision of a module. -/
def liveRevision (j : List JournalRecord) (id : Nat) : Option FwModule := (revisions j id).getLast?

/-- The previous revision of a module. -/
def previousRevision (j : List JournalRecord) (id : Nat) : Option FwModule := (revisions j id).dropLast.getLast?

/-- Persisted error entries, oldest first. -/
def persistedEntries (j : List JournalRecord) : List LogEntry := (bodies j).filterMap loggedOf

/-- L: the limit of the last committed INDEX_RESERVE, which is the highest (R393). -/
def limitOf (j : List JournalRecord) : Nat := ((bodies j).filterMap reserveOf).foldl max 0

def indexLimit (t : Tollhouse) : Nat := limitOf t.journal

/-! ### Capacity and compaction (R384, R385) -/

/-- Pages of blocks that have not been retired (R380, R384). -/
def usablePages (t : Tollhouse) : Nat := (2048 - t.retired.length) * 64

def usedPages (t : Tollhouse) : Nat := (t.journal.map fun r => (r.extents.map (·.count)).sum).sum

/-- More than 60 % of the usable pages would be in use. -/
def overFull (t : Tollhouse) (extra : Nat) : Bool := decide (6 * usablePages t < 10 * (usedPages t + extra))

/-- The newest `n` entries of a list. -/
def newest {α : Type} (n : Nat) (l : List α) : List α := l.drop (l.length - n)

/-- A body that compaction copies whatever its age: the tree and the retirements; or the live or previous revision of a module. -/
def isKept (j : List JournalRecord) : JournalBody → Bool
  | .module m => previousRevision j m.id == some m || liveRevision j m.id == some m
  | .tree _ => true
  | .retire _ => true
  | _ => false

/-- The bodies that compaction copies: previous and live revisions, the last INDEX_RESERVE, the tree, the newest 1,024 persisted
entries, the retirements (R384). -/
def kept (j : List JournalRecord) : List JournalBody :=
  (bodies j).filter (isKept j) ++ (if limitOf j = 0 then [] else [.indexReserve (limitOf j)])
    ++ (newest 1024 (persistedEntries j)).map JournalBody.errlog

/-- The blocks of a list of records, each once, rising. -/
def blockList (j : List JournalRecord) : List Nat := sortNats (usedBlocks j)

/-- Step 1 and 2 of a compaction: COMPACT_BEGIN and the copies of epoch e + 1, beside the records that stand. -/
def copyEpoch (t : Tollhouse) : Tollhouse :=
  (JournalBody.compactBegin :: kept t.journal).foldl (program t.journal (epochOf t + 1)) { t with journal := [] }

/-- Step 3: COMPACT_COMMIT with the epoch's blocks, its own among them, and the digest of the copies. -/
def sealEpoch (old : List JournalRecord) (epoch : Nat) (u : Tollhouse) : Tollhouse :=
  let digest := bodiesDigest (scan u.journal) epoch 0 (nextSeq (old ++ u.journal))
  let blocks := blockList (program old epoch u (.compactCommit [] digest)).journal
  program old epoch u (.compactCommit blocks digest)

/-- Compaction into epoch e + 1; at its end the blocks of epoch e are erased (R384). Where the new epoch cannot be written whole, the old
one stays (log 93). -/
def compact (t : Tollhouse) : Tollhouse :=
  let u := sealEpoch t.journal (epochOf t + 1) (copyEpoch t)
  let whole := u.journal.length == (kept t.journal).length + 2
  { u.lose fun b => whole && (usedBlocks t.journal).contains b with journal := if whole then u.journal else t.journal }

/-- R383's end: blocks of no epoch, or of another one than the base's, are erased. -/
def dropOthers (t : Tollhouse) : Tollhouse :=
  let keep := usedBlocks (t.journal.filter fun r => r.epoch == epochOf t)
  let gone := (usedBlocks t.journal).filter fun b => !keep.contains b
  { t.lose gone.contains with journal := t.journal.filter fun r => r.epoch == epochOf t || keep.contains r.start }

end Sys2Proof.Machine
end

