-- ==== Sys2Proof/Machine/Ops.lean ====
section
/-! DEFINITION. Named operations over the state: parts of it, powered time, counters, the error log with its journal
records, completions of commands, and free values. -/

namespace Sys2Proof.Machine

/-! ### Statuses (R335) -/

def stOk : Nat := 0x00
def stAbortLate : Nat := 0x01
def stEmptyOutput : Nat := 0x02
def stSkipped : Nat := 0x03
def stBadOpcode : Nat := 0x10
def stBadParam : Nat := 0x11
def stBadPad : Nat := 0x12
def stOversize : Nat := 0x13
def stNotPermitted : Nat := 0x14
def stRingStale : Nat := 0x20
def stAborted : Nat := 0x21
def stTimeout : Nat := 0x22
def stMemUncorrectable : Nat := 0x30
def stLinkLost : Nat := 0x31
def stPeerLost : Nat := 0x32
def stContextFault : Nat := 0x33
def stInconsistent : Nat := 0x40
def stDigestMismatch : Nat := 0x41
def stAuthFail : Nat := 0x50
def stJournalFull : Nat := 0x51
def stWidthMismatch : Nat := 0x60
def stInternal : Nat := 0x7F

/-! ### Parts of the state -/

/-- Context descriptor n, when it exists (R342). -/
def ctxAt (s : State) (n : Nat) : Option Context := (s.ctxs[n]?).join

def setCtx (s : State) (n : Nat) (c : Option Context) : State := { s with ctxs := s.ctxs.set n c }

def modCtx (s : State) (n : Nat) (f : Context → Context) : State :=
  { s with ctxs := modAt s.ctxs n (Option.map f) }

/-- The launched program of a context. -/
def progAt (s : State) (n : Nat) : Option Program := (ctxAt s n).bind (·.program)

def imageAt (s : State) (n : Nat) : Option Image := (ctxAt s n).bind (·.image)

def modProg (s : State) (n : Nat) (f : Program → Program) : State :=
  modCtx s n fun c => { c with program := c.program.map f }

def queueAt (s : State) (q : Nat) : HostQueue := s.queues.getD q .fresh

def modQueue (s : State) (q : Nat) (f : HostQueue → HostQueue) : State := { s with queues := modAt s.queues q f }

def portAt (s : State) (p : Nat) : Port := s.pylon.ports.getD p .fresh

def modPort (s : State) (p : Nat) (f : Port → Port) : State :=
  { s with pylon := { s.pylon with ports := modAt s.pylon.ports p f } }

def stackAt (s : State) (k : Nat) : Stack := s.hbm.footings.getD k .fresh

def modStack (s : State) (k : Nat) (f : Stack → Stack) : State :=
  { s with hbm := { s.hbm with footings := modAt s.hbm.footings k f } }

/-- Change a stage of a program. -/
def modStage (s : State) (n k : Nat) (f : StageRun → StageRun) : State :=
  modProg s n fun p => { p with stages := modAt p.stages k f }

/-- Change a queue of a program, by its queue index (R187). -/
def modSpanQueue (s : State) (n q : Nat) (f : SpanQueue → SpanQueue) : State :=
  modProg s n fun p => { p with queues := p.queues.map fun x => if x.decl.queue = q then f x else x }

def spanQueueAt (p : Program) (q : Nat) : Option SpanQueue := p.queues.find? fun x => x.decl.queue = q

/-- A pier of the active context, fresh where nothing is listed. -/
def pierAt (s : State) (p : Nat) : Pier := (s.piers.find? fun x => x.id = p).getD (.fresh p)

/-- Put a pier in place, keeping the list by rising ID. -/
def putPier (l : List Pier) (x : Pier) : List Pier :=
  match l with
  | [] => [x]
  | y :: t => if x.id < y.id then x :: y :: t else if x.id = y.id then x :: t else y :: putPier t x

def setPier (s : State) (x : Pier) : State := { s with piers := putPier s.piers x }

def modPier (s : State) (p : Nat) (f : Pier → Pier) : State := setPier s (f (pierAt s p))

def dieAt (s : State) (code : Nat) : Die := (s.dies.find? fun d => d.code = code).getD (.fresh code)

def modDie (s : State) (code : Nat) (f : Die → Die) : State :=
  { s with dies := s.dies.map fun d => if d.code = code then f d else d }

def modModule (s : State) (m : Nat) (f : Module → Module) : State := { s with modules := modAt s.modules m f }

/-- The block is powered and out of reset: boot step 11 is complete (R370). -/
def running (s : State) : Bool := s.pkg.phase == .running

/-- The block has power and Tollhouse runs (R379, R404). -/
def powered (s : State) : Bool := s.pkg.phase != .unpowered && s.pkg.phase != .tripped

/-- Take the next free value (log 2), below a bound. -/
def freeBelow (s : State) (bound : Nat) : Nat := Config.freeValue s.free % bound

def freeUsed (s : State) (k : Nat) : State := { s with free := s.free + k }

/-! ### Counters (chapter 17) -/

/-- The selector of a counter (R408). -/
def selector (cls inst index : Nat) : Nat := cls * 2 ^ 28 + inst * 2 ^ 16 + index

def addCounter (l : List (Nat × Nat)) (sel k : Nat) : List (Nat × Nat) :=
  if k = 0 then l else setAssoc l sel ((((assoc l sel).getD 0) + k) % 2 ^ 64)

/-- Count on a package counter (R409). -/
def count (s : State) (cls inst index k : Nat) : State :=
  { s with counters := addCounter s.counters (selector cls inst index) k }

/-- The context is active and not in a switch, which begins where its slice stops issue (R342, R353, R409). -/
def serving (s : State) (n : Nat) : Bool :=
  s.sched.active == some n && s.sched.incoming.isNone && !(s.sched.current.any fun c => c.ending)

/-- Count on a context counter, which counts only while its context is active (R409). -/
def countCtx (s : State) (n cls inst index k : Nat) : State :=
  if serving s n then
    modCtx s n fun c => { c with counters := addCounter c.counters (selector cls inst index) k }
  else s

/-- Raise a high-water counter of a context (R203 SPAN_Q_HIGH). -/
def highCtx (s : State) (n cls inst index v : Nat) : State :=
  if serving s n then
    modCtx s n fun c =>
      { c with counters := setAssoc c.counters (selector cls inst index) (max v ((assoc c.counters (selector cls inst index)).getD 0)) }
  else s

/-- The events selected on a pier's counters 0 to 11 (R410). -/
def eventsOf (c : Context) (pier : Nat) : List Nat := (assoc c.events pier).getD (List.replicate 12 0)

/-- A pier event of the active context (R410): every counter that selects it counts. -/
def countEvent (s : State) (n pier event k : Nat) : State :=
  if serving s n then
    modCtx s n fun c =>
      let tally := fun l e => if e.1 = event then addCounter l (selector 0 pier e.2) k else l
      { c with counters := (eventsOf c pier).zipIdx.foldl tally c.counters }
  else s

/-! ### The error log (R400 to R402) -/

/-- Causes that are persisted whatever their severity (R402). -/
def persistedCause (cause : Nat) : Bool := cause == 0x0011 || cause == 0x0050 || cause == 0x0053

/-- Put an entry into the ring of 8,192, which replaces the oldest (R402). -/
def pushLog (t : Tollhouse) (e : LogEntry) : Tollhouse :=
  match t.log with
  | [] => { t with log := [e] }
  | o :: rest =>
    if t.log.length < 8192 then { t with log := t.log ++ [e] }
    else { t with log := rest ++ [e], logReplaced := t.logReplaced + (if o.read then 0 else 1) }

/-- Causes of which each block or word, and each reader of it, has an entry of its own (R81, R255, R269; log 117). -/
def ownEntry (cause : Nat) : Bool := cause == 0x0011 || cause == 0x0013

/-- An earlier entry that counts a repeat (R400). -/
def repeats (s : State) (cause source position : Nat) (detail : List Nat) (e : LogEntry) : Bool :=
  decide (e.cause = cause ∧ e.source = source ∧ e.position = position ∧ e.restored = false ∧ s.time ≤ e.ptime + 1000000000)
    && (!ownEntry cause || e.detail == detail.map (· % 2 ^ 32))

/-- Enter a new record in the log, and in the journal where R402 says so. -/
def logFresh (s : State) (cause status severity source position context : Nat) (detail : List Nat) : State :=
  let keep := severity == 3 || persistedCause cause
  let e : LogEntry :=
    { seq := s.toll.logSeq, ptime := s.time, cause, status, severity, source, position, context, persisted := keep,
      restored := false, repeats := 0, detail := detail.map (· % 2 ^ 32), read := false }
  let t := pushLog { s.toll with logSeq := s.toll.logSeq + 1 } e
  { s with toll := if keep then commitRecords t 3 [.errlog e] else t }

/-- Enter an error in the log: a repeat counts with the first occurrence (R400). -/
def logEntry (s : State) (cause status severity source position context : Nat) (detail : List Nat) : State :=
  if s.toll.log.any (repeats s cause source position detail) then
    let again := fun e : LogEntry =>
      if repeats s cause source position detail e then { e with repeats := min (e.repeats + 1) 0xFFFFFFFF } else e
    { s with toll := { s.toll with log := s.toll.log.map again } }
  else logFresh s cause status severity source position context detail

/-- Severities of R400. -/
def sevInfo : Nat := 0
def sevWarning : Nat := 1
def sevFault : Nat := 2
def sevFatal : Nat := 3

/-- Source codes of R400: the die types of R365. -/
def srcPackage : Nat := 0
def srcApproach : Nat := 1
def srcPier : Nat := 2
def srcPylon : Nat := 3
def srcFooting : Nat := 4

/-- A block that failed is used no more: a RETIRE record names it, and cause 0x0053 is logged (R380). -/
def retireBlock (s : State) (b : Nat) : State :=
  logEntry { s with toll := commitRecords s.toll 4 [.retire b] } 0x0053 0 sevWarning srcPackage 0xFF 0xFF [b, usablePages s.toll / 64]

/-- Write the RETIRE records of blocks that failed, those among them that fail under these records too. -/
def retireFuel : Nat → State → State
  | 0, s => s
  | f + 1, s =>
    match s.toll.toRetire with
    | [] => s
    | b :: rest => retireFuel f (retireBlock { s with toll := { s.toll with toRetire := rest } } b)

/-- After the journal has programmed or erased blocks: those that failed are retired (R380; log 128). -/
def retireBlocks (s : State) : State := retireFuel (s.toll.toRetire.length + s.toll.failing.length) s

/-- Record an error (R400 to R402). Source is a die type or 0, position 0xFF for none, context 0xFF for none. -/
def logError (s : State) (cause status severity source position context : Nat) (detail : List Nat) : State :=
  retireBlocks (logEntry s cause status severity source position context detail)

/-! ### Host memory and completions (R333, R338) -/

/-- Flits of 256 bytes that the retry buffer of 128 KiB holds (R318, R320). -/
def retryFlits : Nat := 512

/-- Waiting flits are sent while the link is UP and the retry buffer has room (R320). -/
def Tether.pump (t : Tether) : Tether :=
  if t.st = .up then
    let m := min t.unsent (retryFlits - t.unacked.length)
    { t with
      unacked := t.unacked ++ (List.range m).map fun i => (add32 t.txSeq i, 0), txSeq := add32 t.txSeq m, unsent := t.unsent - m }
  else t

/-- The sequence number of the next flit to be built. -/
def Tether.nextFlit (t : Tether) : Nat := add32 t.txSeq t.unsent

/-- A device write to host memory: posted, not yet acknowledged (R338), in flits of 224 data bytes (R318; log 45). -/
def postWrite (s : State) (a : Nat) (bs : List Byte) (reply : Bool) : State :=
  if bs.isEmpty then s
  else
    let t := s.tether
    let n := ceilDiv bs.length 224
    { s with tether := Tether.pump { t with
        posted := t.posted ++ [{ addr := a, bytes := bs, last := add32 t.nextFlit (n - 1), reply }], unsent := t.unsent + n } }

def postHost (s : State) (a : Nat) (bs : List Byte) : State := postWrite s a bs false

def ringBase (lo hi : Nat) : Nat := hi * 2 ^ 32 + lo

/-- Entries of a completion ring (R325). -/
def cplEntries (Q : HostQueue) : Nat := 2 ^ (Q.cplLog2 + 4)

/-- The ring has room for one more completion (R333). -/
def cplRoom (Q : HostQueue) : Bool := decide (sub32 Q.chead Q.ctail < cplEntries Q)

/-- The 32 bytes of a completion entry (R333); `pass` is the number of passes through the ring since ENABLE. -/
def encodeCpl (q pass ptime : Nat) (c : Completion) : List Byte :=
  leBytes 2 c.opcode ++ leBytes 1 c.status ++ leBytes 1 c.kind ++ leBytes 1 q ++ leBytes 1 c.context
    ++ leBytes 1 ((if pass % 2 = 0 then 1 else 0) + (if c.last then 2 else 0)) ++ leBytes 1 0
    ++ leBytes 4 c.seq ++ leBytes 4 ptime ++ padTo ((c.p.take 4).flatMap (leBytes 4)) 16

/-- The WAIT that the device applies for the host when it writes a kind 2 entry (R44), an operation that completes (R61). -/
def hostWait (s : State) (c : Completion) : State :=
  if c.wait then
    modProg s c.context fun p =>
      { p with watchdogAt := s.time
               tokens := p.tokens.map fun t => if t.1 = c.p.getD 0 0 then (t.1, t.2 - c.p.getD 1 0) else t }
  else s

/-- Write one completion entry (R333). -/
def writeCpl (s : State) (q : Nat) (c : Completion) : State :=
  let Q := queueAt s q
  let s := postWrite s (ringBase Q.cplLo Q.cplHi + (Q.chead % cplEntries Q) * 32) (encodeCpl q (Q.chead / cplEntries Q) s.time c) true
  let full := fun Q : HostQueue => if cplRoom Q then Q else { Q with fullSince := some s.time, fullLogged := false }
  hostWait (modQueue s q fun Q => full { Q with chead := add32 Q.chead 1 }) c

/-- A program is replaced: the entries that its SIGNALs left waiting lower no channel of the next one (R44). -/
def dropWaits (s : State) (n : Nat) : State :=
  let drop := fun c : Completion => if c.context = n then { c with wait := false } else c
  { s with queues := s.queues.map fun Q => { Q with held := Q.held.map drop } }

/-- Hold a completion while its ring has no room (R333). -/
def holdCpl (s : State) (q : Nat) (c : Completion) : State :=
  modQueue s q fun Q => { Q with held := Q.held ++ [c] }

/-- The abort waits for this completion: the target's reply, or the last report of its program (R355). -/
def settles (q : Nat) (c : Completion) (a : AbortWait) : Bool :=
  a.tq == q && a.tseq == c.seq && (c.kind == 0 || (c.kind == 1 && c.last))

/-- Opcodes that no abort stops (R355). -/
def unabortable (op : Nat) : Bool :=
  op / 256 == 0x01 || [0x0210, 0x0601, 0x0602, 0x0603, 0x0607, 0x0701, 0x0704, 0x0705, 0x0401, 0x0501].contains op || op / 256 == 0x08
    || (op / 256 == 0x09 && op != 0x0904)

/-- An abort from queue q may name a target of queue tq (R355). -/
def mayAbort (s : State) (q tq : Nat) : Bool :=
  decide (tq < 64) && (decide (q < 4) || (decide (4 ≤ tq) && (queueAt s tq).ctx == (queueAt s q).ctx))

/-- A CMD_ABORT that has been taken and has not acted yet names the command or program that this completion ends (R356). -/
def awaits (s : State) (q : Nat) (c : Completion) (t : Taken) : Bool :=
  t.opcode == 0x0905 && t.p.getD 0 0 == q && t.p.getD 1 0 == c.seq && (c.kind == 0 || (c.kind == 1 && c.last)) && mayAbort s t.q q
    && !(s.aborts.any fun a => a.q == t.q && a.seq == t.seq)

/-- The outcome of such an abort: the target has completed first, or no abort stops it, a slice that has begun among these. -/
def lateOutcome (c : Completion) : Nat := if c.kind = 0 ∧ (unabortable c.opcode ∨ c.opcode = 0x0904) then 3 else 2

/-- A completion is posted after the aborts that name its command were taken, and before they act: they report its outcome, and an OK
becomes OK_ABORT_LATE (R356). -/
def meetAborts (s : State) (q : Nat) (c : Completion) : State × Completion :=
  if s.cmds.any (awaits s q c) then
    ({ s with cmds := s.cmds.map fun t => if awaits s q c t then { t with late := some (lateOutcome c) } else t },
      if c.kind = 0 ∧ c.status = stOk ∧ lateOutcome c = 2 then { c with status := stAbortLate } else c)
  else (s, c)

/-- The reply of CMD_ABORT (R355), with the context of its header. -/
def abortReply (cmds : List Taken) (a : AbortWait) : Completion :=
  let context := ((cmds.find? fun t => t.q == a.q && t.seq == a.seq).map (·.context)).getD 0
  { opcode := 0x0905, status := stOk, kind := 0, context, last := false, seq := a.seq, p := [a.outcome] }

/-- Write a completion, and then the replies of the aborts that waited for it. The fuel is the number of aborts. -/
def postFuel : Nat → State → Nat → Completion → State
  | 0, s, q, c =>
    let (s, c) := meetAborts s q c
    if (queueAt s q).held.isEmpty && cplRoom (queueAt s q) then writeCpl s q c else holdCpl s q c
  | f + 1, s, q, c =>
    let (s, c) := meetAborts s q c
    if (queueAt s q).held.isEmpty && cplRoom (queueAt s q) then
      let s := writeCpl s q c
      let hit := s.aborts.filter (settles q c)
      let replies := hit.map fun a => (a.q, abortReply s.cmds a)
      let s := { s with aborts := s.aborts.filter fun a => !settles q c a
                        cmds := s.cmds.filter fun t => !hit.any fun a => a.q == t.q && a.seq == t.seq }
      replies.foldl (fun s r => postFuel f s r.1 r.2) s
    else holdCpl s q c

/-- Post a completion: written while the ring has room, else held (R333). -/
def post (s : State) (q : Nat) (c : Completion) : State := postFuel (s.aborts.length + 1) s q c

/-- Write held completions while there is room (R333). -/
def flushFuel : Nat → State → Nat → State
  | 0, s, _ => s
  | f + 1, s, q =>
    match (queueAt s q).held with
    | [] => s
    | c :: rest =>
      if cplRoom (queueAt s q) then
        let s := modQueue s q fun Q => { Q with held := [] }
        let s := post s q c
        flushFuel f (modQueue s q fun Q => { Q with held := rest ++ Q.held }) q
      else s

def flushHeld (s : State) (q : Nat) : State :=
  let s := if cplRoom (queueAt s q) then modQueue s q fun Q => { Q with fullSince := none, fullLogged := false } else s
  flushFuel ((queueAt s q).held.length + s.aborts.length) s q

/-! ### Commands taken (R328, R330) -/

def isCmd (q seq : Nat) (t : Taken) : Bool := t.q == q && t.seq == seq

def findCmd (s : State) (q seq : Nat) : Option Taken := s.cmds.find? (isCmd q seq)

/-- Commands of the queue taken before this one and not completed. -/
def earlier (s : State) (q seq : Nat) : List Taken := (s.cmds.takeWhile fun t => !isCmd q seq t).filter fun t => t.q = q

/-- Replies of a queue that wait for room in its ring: their commands have not completed (R330, R333). -/
def heldReplies (s : State) (q : Nat) : List Completion := (queueAt s q).held.filter fun c => c.kind == 0

/-- An earlier command of the queue has not completed. -/
def fenceHeld (s : State) (t : Taken) : Bool :=
  !(earlier s t.q t.seq).isEmpty || (heldReplies s t.q).any fun c => decide (sub32 c.seq t.seq ≥ 2 ^ 31)

/-- A command starts after the earlier ones of its queue have started; with FENCE after they have completed (R330). -/
def canStart (s : State) (t : Taken) : Bool :=
  t.started || if t.fence then !fenceHeld s t else (earlier s t.q t.seq).all (·.started)

/-- The command that a row names, when it is outstanding with that opcode and may start. -/
def ready (s : State) (q seq opcode : Nat) : Option Taken :=
  (findCmd s q seq).filter fun t => t.opcode == opcode && canStart s t

/-- Mark a command as started. -/
def start (s : State) (q seq : Nat) : State :=
  { s with cmds := s.cmds.map fun t => if isCmd q seq t then { t with started := true } else t }

/-- The status that a command reports when an abort came after its handshake (R356). -/
def lateStatus (s : State) (q seq status : Nat) : Nat :=
  if status = stOk && s.aborts.any fun a => a.tq == q && a.tseq == seq && a.outcome == 2 then stAbortLate else status

/-- Complete a command: its kind 0 entry, and it is outstanding no more (R333). -/
def finish (s : State) (q seq status : Nat) (p : List Nat) : State :=
  match findCmd s q seq with
  | none => s
  | some t =>
    let st := lateStatus s q seq status
    post { s with cmds := s.cmds.filter fun t => !isCmd q seq t } q
      { opcode := t.opcode, status := st, kind := 0, context := t.context, last := false, seq, p }

/-- Complete a refused command (R335). -/
def refuse (s : State) (q seq status : Nat) : State := finish s q seq status []

/-- Run a command's effect when the row's command may start; else nothing happens. -/
def onCmd (s : State) (q seq opcode : Nat) (f : State → Taken → State) : State :=
  match ready s q seq opcode with
  | none => s
  | some t => f (start s q seq) t

/-- A die hold holds the Approach die, whose units then do no work (15 R373; log 40). -/
def approachHeld (s : State) : Bool := s.pkg.holdDies.contains 0x30

/-- A command for a unit of the Approach die: it waits while the die is held. -/
def onUnit (s : State) (q seq opcode : Nat) (f : State → Taken → State) : State :=
  if approachHeld s then s else onCmd s q seq opcode f

/-- A parameter word (R326). -/
def Taken.param (t : Taken) (i : Nat) : Nat := t.p.getD i 0

/-- Two parameter words as a 64-bit value, low word first. -/
def Taken.param64 (t : Taken) (i : Nat) : Nat := t.param i + t.param (i + 1) * 2 ^ 32

def lo32 (v : Nat) : Nat := v % 2 ^ 32
def hi32 (v : Nat) : Nat := v / 2 ^ 32 % 2 ^ 32

/-! ### Grants (R343, R344) -/

/-- The grant of a context as byte ranges. -/
def grantRanges (c : Context) : List (Nat × Nat) :=
  c.grant.zipIdx.map fun g => (stackBase g.2 + g.1.1 * mib, g.1.2 * mib)

def saveBytes : Nat := 384 * mib

/-- The granted range: the grant with the four save areas taken out (R344). -/
def grantedRanges (c : Context) : List (Nat × Nat) :=
  c.grant.zipIdx.map fun g =>
    if g.2 % 3 = 0 then (stackBase g.2 + g.1.1 * mib + saveBytes, g.1.2 * mib - saveBytes)
    else (stackBase g.2 + g.1.1 * mib, g.1.2 * mib)

/-- The save area of a tile (R344). -/
def saveArea (c : Context) (tile : Nat) : Nat := stackBase (3 * tile) + (c.grant.getD (3 * tile) (0, 0)).1 * mib

/-- A range lies in the granted range of a context (R344, R250). -/
def granted (s : State) (n a len : Nat) : Bool :=
  match ctxAt s n with
  | none => false
  | some c => inGeneral a len && (grantedRanges c).any fun g => rangeInside a len g.1 g.2

/-- A byte range is covered by ranges; the fuel is their number. -/
def coveredFuel : Nat → List (Nat × Nat) → Nat → Nat → Bool
  | 0, _, _, len => len == 0
  | f + 1, rs, a, len =>
    if len = 0 then true
    else
      match rs.find? fun g => decide (g.1 ≤ a ∧ a < g.1 + g.2) with
      | none => false
      | some g => coveredFuel f rs (g.1 + g.2) (a + len - (g.1 + g.2))

def covered (rs : List (Nat × Nat)) (a len : Nat) : Bool := coveredFuel rs.length rs a len

/-- A range lies in the HBM_REGION declarations of an image (R48, R50). -/
def inRegions (im : Image) (a len : Nat) : Bool := covered im.decls.regions a len

/-- The tile of a pier (R11) and of a port (R14). -/
def pierTile (p : Nat) : Nat := p / 128
def portTile (p : Nat) : Nat := p / 16

end Sys2Proof.Machine
end

