-- ==== Sys2Proof/Machine/Frames.lean ====
section
/-! DEFINITION. Sending: Pylon frames with credit, retry and routing (09 R233 to R242), Span frames on a bond (07 R176,
R177), Stay frames on an association (08 R224), and the pauses of deadlines that retry activity brings (09 R236). -/

namespace Sys2Proof.Machine

/-! ### Ports -/

/-- The port takes new frames of its bonds and routes (R237, R242, R246). -/
def usable (P : Port) : Bool := P.st == .active && P.inService

/-- One step of the CRC of IEEE 802.3 on a bit at the low end, the polynomial reflected. -/
def crcShift (c : Nat) : Nat := if c % 2 = 1 then (c / 2) ^^^ 0xEDB88320 else c / 2

/-- CRC-32 with the polynomial 0x04C1_1DB7 of IEEE 802.3 (R233; log 121). -/
def crc32 (bs : List Byte) : Nat :=
  (bs.foldl (fun c b => crcShift (crcShift (crcShift (crcShift (crcShift (crcShift (crcShift (crcShift (c ^^^ b.toNat))))))))) 0xFFFFFFFF)
    ^^^ 0xFFFFFFFF

/-- One step of the CRC of ECMA-182 on a bit at the high end. -/
def crc64Shift (c : Nat) : Nat := if 2 ^ 63 ≤ c then (2 * c) % 2 ^ 64 ^^^ 0x42F0E1EBA9EA3693 else 2 * c

/-- CRC-64 with the ECMA-182 polynomial (13 R318): each byte from its high bit on, from 0 (log 45). -/
def crc64 (bs : List Byte) : Nat :=
  bs.foldl (fun c b => (List.range 8).foldl (fun c _ => crc64Shift c) (c ^^^ (b.toNat * 2 ^ 56))) 0

/-- A flit's CRC covers its header and its transaction data (13 R318). -/
def flitIntact (f : TetherFlit) : Bool := crc64 (f.header ++ f.data) == f.crc

/-- The 16-byte header (R233). -/
def encodeHeader (f : PylonFrame) : List Byte :=
  leBytes 2 (f.dst + f.dstTile * 4096) ++ leBytes 2 (f.src + f.srcTile * 4096) ++ leBytes 1 f.klass ++ leBytes 1 f.hops
    ++ leBytes 2 f.payload.length ++ leBytes 4 f.lseq ++ leBytes 4 f.ack

/-- A frame on the wire: header, payload, CRC-32 over both (R233). -/
def encodeFrame (f : PylonFrame) : List Byte :=
  encodeHeader f ++ f.payload ++ leBytes 4 (crc32 (encodeHeader f ++ f.payload))

/-- The frame that bytes spell; none where the length or the CRC fails (R233, R235). -/
def decodeFrame (b : List Byte) : Option PylonFrame :=
  let n := field b 6 2
  if b.length = 20 + n ∧ field b (16 + n) 4 = crc32 (b.take (16 + n)) then
    some { dst := field b 0 2 % 4096, dstTile := field b 0 2 / 4096 % 4, src := field b 2 2 % 4096, srcTile := field b 2 2 / 4096 % 4
           klass := field b 4 1, hops := field b 5 1, lseq := field b 8 4, ack := field b 12 4, payload := slice b 16 n }
  else none

/-- Bytes of a frame on the wire: header, payload, CRC (R233). -/
def frameBytes (f : PylonFrame) : Nat := 20 + f.payload.length

/-- The class and its length limits are ones that R233 defines. -/
def classOk (f : PylonFrame) : Bool :=
  ((f.klass == 1 || f.klass == 2) && decide (f.payload.length ≤ 8208))
    || ((f.klass == 3 || f.klass == 4) && decide (4 ≤ f.payload.length ∧ f.payload.length ≤ 32))

/-- The payload of a link control frame (R234). -/
def encodeCtl : CtlFrame → List Byte
  | .credit g => leBytes 1 0x01 ++ leBytes 3 0 ++ g.flatMap (leBytes 2)
  | .nak l => leBytes 1 0x02 ++ leBytes 3 0 ++ leBytes 4 l
  | .config k p v r => leBytes 1 0x03 ++ leBytes 2 k ++ leBytes 1 p ++ leBytes 1 v ++ leBytes 2 r ++ leBytes 1 0
  | .recalReq p => leBytes 1 0x04 ++ leBytes 1 p ++ leBytes 2 0
  | .recalAck p => leBytes 1 0x05 ++ leBytes 1 p ++ leBytes 2 0

/-- The link control frame that a payload spells; none for any other type (R234). -/
def decodeCtl (b : List Byte) : Option CtlFrame :=
  let t := field b 0 1
  if t = 1 ∧ b.length = 20 then some (.credit ((List.range 8).map fun i => field b (4 + 2 * i) 2))
  else if t = 2 ∧ b.length = 8 then some (.nak (field b 4 4))
  else if t = 3 ∧ b.length = 8 then some (.config (field b 1 2) (field b 3 1) (field b 4 1) (field b 5 2))
  else if t = 4 ∧ b.length = 4 then some (.recalReq (field b 1 1))
  else if t = 5 ∧ b.length = 4 then some (.recalAck (field b 1 1))
  else none

/-- Send a link control frame on a port, with the ack that every frame carries (R233, R234). -/
def sendCtl (s : State) (p : Nat) (c : CtlFrame) : State :=
  modPort s p fun P => { P with ctlOut := P.ctlOut ++ [(P.rxSeq, encodeCtl c)] }

/-- KiB of hop-class buffer that a frame takes (R235). -/
def frameKib (f : PylonFrame) : Nat := ceilDiv (frameBytes f) 1024

/-- The partner's grant for the frame's hop class covers it (R235). -/
def hasCredit (P : Port) (f : PylonFrame) : Bool :=
  decide (frameKib f ≤ (P.credit.getD f.hops 0 + 65536 - P.used.getD f.hops 0 % 65536) % 65536)

/-- The retry buffer has room: 256 KiB (R236). -/
def retryRoom (P : Port) (f : PylonFrame) : Bool :=
  decide ((P.retry.map fun t => frameBytes t.frame).sum + frameBytes f ≤ 262144)

/-- Give back the space that a frame took in the hop-class buffer of the port it arrived at, and say so (R234, R235). -/
def regrant (s : State) (p hops kib : Nat) : State :=
  let s := modPort s p fun P => { P with granted := modAt P.granted hops fun g => (g + kib) % 65536 }
  if (portAt s p).st == .active then sendCtl s p (.credit (portAt s p).granted) else s

/-- A frame leaves this package: one that arrived at a port with a hop fewer frees its space there (R235). -/
def leaveBuffer (s : State) (x : Option Nat × PylonFrame) : State :=
  match x.1 with
  | some i => regrant s i (x.2.hops - 1) (frameKib x.2)
  | none => s

/-- Send a routed frame: it takes the next lseq and stays in the retry buffer (R235). -/
def transmit (s : State) (p : Nat) (x : Option Nat × PylonFrame) : State :=
  let s := modPort s p fun P =>
    { P with
      retry := P.retry ++ [{ frame := { x.2 with lseq := P.txSeq, ack := P.rxSeq }, sends := 1 }]
      txSeq := add32 P.txSeq 1
      used := modAt P.used x.2.hops fun u => (u + frameKib x.2) % 65536
      ackAt := if P.retry.isEmpty then s.time else P.ackAt }
  leaveBuffer (count (count s 4 p 0 1) 4 p 2 (frameBytes x.2)) x

/-- Give one waiting frame to the port, unless an earlier frame of its hop class still waits. -/
def pumpOne (p : Nat) (acc : State × List (Option Nat × PylonFrame)) (x : Option Nat × PylonFrame) :
    State × List (Option Nat × PylonFrame) :=
  let P := portAt acc.1 p
  if acc.2.any (fun g => g.2.hops == x.2.hops) || !hasCredit P x.2 || !retryRoom P x.2 then (acc.1, acc.2 ++ [x])
  else (transmit acc.1 p x, acc.2)

/-- Send every waiting frame that credit and the retry buffer allow. -/
def pumpPort (s : State) (p : Nat) : State :=
  if (portAt s p).st == .active then
    let r := (portAt s p).waiting.foldl (pumpOne p) (s, [])
    modPort r.1 p fun P => { P with waiting := r.2 }
  else s

/-- Give a frame to a port, with the port at which it arrived. -/
def giveFrame (s : State) (p : Nat) (x : Option Nat × PylonFrame) : State :=
  pumpPort (modPort s p fun P => { P with waiting := P.waiting ++ [x] }) p

/-! ### Routing (R242) -/

def routeOf (s : State) (dst : Nat) : Option Route := (assoc s.pylon.routes dst).filter fun r => r.valid && !r.isLocal

/-- Ports of the entry's mask that may take the frame. -/
def routePorts (s : State) (dst : Nat) : List Nat :=
  match routeOf s dst with
  | none => []
  | some r => r.ports.filter fun p => usable (portAt s p)

/-- The egress port: the next of the mask in turn, or the lowest-numbered (R242 spread). -/
def pickPort (s : State) (dst : Nat) : Option Nat :=
  match routeOf s dst with
  | none => none
  | some r =>
    if r.spread = 1 then (routePorts s dst).head?
    else
      match assoc s.pylon.turn dst with
      | none => (routePorts s dst).head?
      | some l => ((routePorts s dst).find? fun p => decide (l < p)).or (routePorts s dst).head?

/-- Discard a routed frame: counted at the port, one log entry a second for each destination (R242). -/
def discardFrame (s : State) (port : Option Nat) (dst : Nat) : State :=
  let s := match port with
    | some p => count s 4 p 15 1
    | none => s
  let old := s.pylon.discards.find? fun d => d.1 = dst
  let n := (old.map (·.2.2)).getD 0 + 1
  let fresh := old.all fun d => decide (d.2.1 + 1000000000 < s.time)
  let at_ := if fresh then s.time else (old.map (·.2.1)).getD s.time
  let s := { s with pylon := { s.pylon with discards := (s.pylon.discards.filter fun d => d.1 ≠ dst) ++ [(dst, at_, n)] } }
  if fresh then logFresh s 0x0023 0 sevWarning srcPylon (port.getD 0xFF) 0xFF [dst, n] else s

/-- Route a frame out of the package, with the port at which it arrived, or none for a frame of this package (R242). -/
def sendRouted (s : State) (x : Option Nat × PylonFrame) : State :=
  match pickPort s x.2.dst with
  | none => discardFrame (leaveBuffer s x) x.1 x.2.dst
  | some p => giveFrame { s with pylon := { s.pylon with turn := setAssoc s.pylon.turn x.2.dst p } } p x

/-- The package ID that frames carry as their source. -/
def ownId (s : State) : Nat := s.pylon.pkgId.getD 0

/-- A frame of this package (R233). -/
def ownFrame (s : State) (dst dstTile srcTile klass : Nat) (payload : List Byte) : PylonFrame :=
  { dst, dstTile, src := ownId s, srcTile, klass, hops := 0, lseq := 0, ack := 0, payload }

/-! ### Span frames -/

/-- The 16-byte header and body of a Span frame (R177). -/
def encodeSpan (f : SpanFrame) : List Byte :=
  leBytes 1 f.type ++ leBytes 1 f.flags ++ leBytes 2 f.link ++ leBytes 4 f.seq ++ leBytes 4 f.value
    ++ leBytes 4 f.body.length ++ f.body

/-- The ports of a bond, from the next in turn on. -/
def bondOrder (L : SpanLink) : List Nat := L.ports.drop (L.nextPort % L.ports.length) ++ L.ports.take (L.nextPort % L.ports.length)

/-- The port that the next frame of a link takes (R176, R238); with none left, one that still drains for a recalibration
(R247). -/
def bondPort (s : State) (L : SpanLink) : Option Nat :=
  ((bondOrder L).find? fun p => usable (portAt s p)).or
    ((bondOrder L).find? fun p => (portAt s p).st == .active && (portAt s p).recal.isSome)

def modLink (s : State) (n q : Nat) (f : SpanLink → SpanLink) : State :=
  modSpanQueue s n q fun x => { x with link := x.link.map f }

def linkAt (s : State) (n q : Nat) : Option SpanLink := ((progAt s n).bind fun p => spanQueueAt p q).bind (·.link)

/-- Send a Span frame on the link of a remote queue: types 0x01 DESC to 0x07 CLOSE (R177). -/
def sendSpan (s : State) (n q type flags value : Nat) (body : List Byte) : State :=
  match linkAt s n q with
  | none => s
  | some L =>
    match bondPort s L with
    | none => s
    | some p =>
      let bytes := encodeSpan { type, flags, link := L.link, seq := L.txSeq, value, body }
      let far := ((portAt s p).neighbour.map fun x => portTile x.2).getD (portTile p)
      let s := modLink s n q fun L =>
        { L with txSeq := add32 L.txSeq 1, sentAt := s.time, nextPort := (L.ports.idxOf p + 1) % L.ports.length }
      giveFrame s p (none, ownFrame s L.peer far (portTile p) 1 bytes)

/-! ### Stay frames -/

/-- The 16-byte header and body of a Stay frame (R224). -/
def encodeStay (f : StayFrame) : List Byte :=
  leBytes 1 f.type ++ leBytes 1 f.flags ++ leBytes 2 f.entry ++ leBytes 2 f.piece ++ leBytes 2 f.body.length
    ++ leBytes 4 f.seq ++ leBytes 4 f.value ++ f.body

def assocAt (s : State) (n peer : Nat) : Option Assoc := (progAt s n).bind fun p => p.assocs.find? fun a => a.peer = peer

def modAssoc (s : State) (n peer : Nat) (f : Assoc → Assoc) : State :=
  modProg s n fun p => { p with assocs := p.assocs.map fun a => if a.peer = peer then f a else a }

/-- Put a Stay frame on the wire: it takes the association's next sequence number. -/
def putStay (s : State) (n peer tile : Nat) (f : StayFrame) : State :=
  match assocAt s n peer with
  | none => s
  | some A =>
    let s := modAssoc s n peer fun A =>
      { A with txSeq := add32 A.txSeq 1, sentAt := s.time, dataSent := if f.type = 0x11 then add32 A.dataSent 1 else A.dataSent }
    sendRouted s (none, ownFrame s peer tile tile 2 (encodeStay { f with seq := A.txSeq }))

/-- The peer's grant covers one more DATA frame (R224). -/
def stayCredit (A : Assoc) : Bool := A.granted != A.dataSent

/-- Send what waits for credit, oldest first; the fuel is its number. -/
def drainBacklog : Nat → State → Nat → Nat → State
  | 0, s, _, _ => s
  | k + 1, s, n, peer =>
    match assocAt s n peer with
    | none => s
    | some A =>
      match A.backlog with
      | [] => s
      | (tile, f) :: rest =>
        if f.type = 0x11 && !stayCredit A then s
        else drainBacklog k (putStay (modAssoc s n peer fun A => { A with backlog := rest }) n peer tile f) n peer

/-- Send a Stay frame: DATA, and the trailer behind it, wait for the peer's credit (R224). -/
def sendStay (s : State) (n peer tile : Nat) (f : StayFrame) : State :=
  if f.type = 0x11 || f.type = 0x17 then
    let s := modAssoc s n peer fun A => { A with backlog := A.backlog ++ [(tile, f)] }
    drainBacklog (((assocAt s n peer).map (·.backlog.length)).getD 0) s n peer
  else putStay s n peer tile f

/-! ### Pauses (R236) -/

/-- Restart the deadlines of the links and associations that match (R180). -/
def restartDeadlines (s : State) (fl : SpanLink → Bool) (fa : Assoc → Bool) : State :=
  let link := fun L : SpanLink => if fl L then { L with heardAt := s.time } else L
  let queue := fun x : SpanQueue => { x with link := x.link.map link }
  let ass := fun a : Assoc => if fa a then { a with heardAt := s.time } else a
  let prog := fun p : Program => { p with queues := p.queues.map queue, assocs := p.assocs.map ass }
  { s with ctxs := s.ctxs.map (Option.map fun c => { c with program := c.program.map prog }) }

/-- Restart the progress watchdogs of the programs that match (R62). -/
def restartWatchdogs (s : State) (f : Program → Bool) : State :=
  let dog := fun x : Program => if f x then { x with watchdogAt := s.time } else x
  { s with ctxs := s.ctxs.map (Option.map fun c => { c with program := c.program.map dog }) }

/-- The program has a Pylon link or association, so that a pause by HOLD holds for it (R62, R236). -/
def usesPylon (x : Program) : Bool := (x.queues.any fun q => q.link.isSome) || !x.assocs.isEmpty

/-- The association's frames go by the port (R236). -/
def routesVia (s : State) (peer p : Nat) : Bool := (routeOf s peer).any fun r => r.ports.contains p

/-- The program uses the port: a bond or a route of an association (R62, R236). -/
def usesPort (s : State) (x : Program) (p : Nat) : Bool :=
  (x.queues.any fun q => q.link.any fun L => L.ports.contains p) || x.assocs.any fun a => routesVia s a.peer p

/-- A port of the bond is in retry activity, or a HOLD stands: the deadline is paused (R180, R236). -/
def linkPaused (s : State) (L : SpanLink) : Bool :=
  !s.pylon.holds.isEmpty || L.ports.any fun p => (portAt s p).activity.isSome

def assocPaused (s : State) (a : Assoc) : Bool :=
  !s.pylon.holds.isEmpty || ((routeOf s a.peer).map (·.ports)).any fun ps => ps.any fun p => (portAt s p).activity.isSome

/-- The body of HOLD and HOLD_END (R234). -/
def holdPayload (type pkg port : Nat) : List Byte :=
  leBytes 1 type ++ leBytes 3 0 ++ leBytes 2 pkg ++ leBytes 1 port ++ leBytes 1 0

/-- A notice names the port. -/
def Hold.names (h : Hold) (pkg port : Nat) : Bool := h.pkg == pkg && h.port == port

/-- Notice a came before notice b on the port at which both arrived (R247). -/
def earlierNotice (a b : Option (Nat × Nat)) : Bool :=
  match a, b with
  | some x, some y => x.1 == y.1 && before32 x.2 y.2
  | _, _ => false

/-- HOLD_ENDs that may still have a HOLD to come: none is kept longer than a pause lasts (R236, R247; log 134). -/
def liveEnds (s : State) : List Hold := s.pylon.ends.filter fun e => decide (s.time < e.at_ + 500000)

/-- Pause on a HOLD; the same port's earlier pause is replaced (R236). One whose HOLD_END came first, though later by lseq on the
arriving port, is over already (R247). -/
def addHold (s : State) (pkg port : Nat) (arrival : Option (Nat × Nat)) : State :=
  match (liveEnds s).find? fun e => e.names pkg port && earlierNotice arrival e.arrival with
  | some e => { s with pylon := { s.pylon with ends := s.pylon.ends.erase e } }
  | none =>
    { s with
      pylon := { s.pylon with holds := (s.pylon.holds.filter fun h => !h.names pkg port) ++ [{ pkg, port, at_ := s.time, arrival }] } }

/-- The lseq of port p begins anew: notices that arrived there come before all that arrive from now on (R247; log 134). -/
def dropArrivals (s : State) (p : Nat) : State :=
  let here := fun h : Hold => h.arrival.any fun a => a.1 == p
  { s with
    pylon := { s.pylon with
      ends := s.pylon.ends.filter fun h => !here h
      holds := s.pylon.holds.map fun h => if here h then { h with arrival := none } else h } }

/-- End the pause of a port; when none is left the deadlines and the paused watchdogs restart from zero (R62, R236). -/
def dropHold (s : State) (pkg port : Nat) : State :=
  let s := { s with pylon := { s.pylon with holds := s.pylon.holds.filter fun h => !h.names pkg port } }
  if s.pylon.holds.isEmpty then restartWatchdogs (restartDeadlines s (fun _ => true) (fun _ => true)) usesPylon else s

/-- A HOLD_END: it ends the matching pause, or waits for its HOLD, by lseq order on the arriving port (R236, R247). -/
def endHold (s : State) (pkg port : Nat) (arrival : Option (Nat × Nat)) : State :=
  match s.pylon.holds.find? fun h => h.names pkg port with
  | some h => if earlierNotice arrival h.arrival then s else dropHold s pkg port
  | none =>
    if arrival.isSome then
      { s with
        pylon := { s.pylon with ends := ((liveEnds s).filter fun h => !h.names pkg port) ++ [{ pkg, port, at_ := s.time, arrival }] } }
    else s

/-- Tell a source package of the activity on a port, itself included (R236). -/
def sendHold (s : State) (p type pkg : Nat) : State :=
  if pkg = ownId s then (if type = 0x10 then addHold s pkg p none else endHold s pkg p none)
  else sendRouted s (none, ownFrame s pkg (portTile p) (portTile p) 4 (holdPayload type (ownId s) p))

/-- Retry activity begins, or goes on from a new cause: it lasts until every frame unacknowledged now is acknowledged, and the
source of each frame held has had one HOLD (R236). -/
def beginActivity (s : State) (p : Nat) : State :=
  let P := portAt s p
  match P.retry.getLast? with
  | some last =>
    let srcs := ((P.retry.map fun t => t.frame.src).eraseDups).filter fun k => !P.holdTo.contains k
    let s := modPort s p fun P =>
      { P with activity := some ((P.activity.map (·.1)).getD s.time, last.frame.lseq), holdTo := P.holdTo ++ srcs }
    srcs.foldl (fun s k => sendHold s p 0x10 k) s
  | none => s

/-- Retry activity ends: HOLD_END to the same packages; deadlines and watchdogs restart (R236, R62). -/
def endActivity (s : State) (p : Nat) : State :=
  let srcs := (portAt s p).holdTo
  let s := modPort s p fun P => { P with activity := none, holdTo := [] }
  let s := srcs.foldl (fun s k => sendHold s p 0x11 k) s
  restartWatchdogs (restartDeadlines s (fun L => L.ports.contains p) (fun a => routesVia s a.peer p)) fun x => usesPort s x p

end Sys2Proof.Machine
end

