-- ==== Sys2Proof/Machine/Fault.lean ====
section
/-! DEFINITION. Context faults as one operation (R50, R104, R181, R189, R280, R316, R333), and HBM accesses with error
correction, error logging and the copy frontier of a checkpoint (R255, R257, R278). -/

namespace Sys2Proof.Machine

/-! ### Readers of HBM (R441) -/

/-- A reader or writer of HBM: the kind and unit number of the reader word of R441, and its context. -/
structure Reader where
  kind : Nat
  unit : Nat
  ctx : Nat
  deriving DecidableEq, Repr

def pierReader (n p : Nat) : Reader := { kind := 1, unit := p, ctx := n }
def spanReader (n t : Nat) : Reader := { kind := 2, unit := t, ctx := n }
def stayReader (n t : Nat) : Reader := { kind := 3, unit := t, ctx := n }
def aprReader (n cls i : Nat) : Reader := { kind := 4, unit := cls * 256 + i, ctx := n }
def abutReader (n : Nat) : Reader := { kind := 5, unit := 0, ctx := n }
def caissonReader (n k : Nat) : Reader := { kind := 6, unit := k, ctx := n }
def hostReader (n q : Nat) : Reader := { kind := 7, unit := q, ctx := n }
def footReader (n t : Nat) : Reader := { kind := 8, unit := t, ctx := n }
def scrubReader (k : Nat) : Reader := { kind := 9, unit := k, ctx := 0xFF }

/-- The reader word of R441; access 0 read, 1 accumulate-write, 2 merge of a partial write. -/
def readerWord (r : Reader) (access : Nat) : Nat := r.kind + r.unit * 256 + access * 2 ^ 24

/-- The stack of a block, 0 where there is none. -/
def blockStack (b : Nat) : Nat := (stackOf (64 * b)).getD 0

/-- Record an uncorrectable block (R255). -/
def logUncorrectable (r : Reader) (access : Nat) (s : State) (b : Nat) : State :=
  let k := blockStack b
  logError (count s 5 k 5 1) 0x0011 stMemUncorrectable sevFault srcFooting k r.ctx
    [k, lo32 (64 * b), 64 * b / 2 ^ 32, readerWord r access]

/-- A warning of R257: more than 1,000 corrections in an hour, or 16 on one block within 24 hours. -/
def errorRateWarning (K : Stack) (b now : Nat) : Bool :=
  decide ((K.corrections.filter fun t => decide (now < t + 3600000000000)).length > 1000)
    || decide ((K.blockCorrections.filter fun e => e.1 == b && decide (now < e.2 + 86400000000000)).length ≥ 16)

/-- Correct a block: counted, logged, and the stack's error rate watched (R255, R257). -/
def correctBlock (s : State) (b : Nat) : State :=
  let k := blockStack b
  let s := modStack s k fun K =>
    { K with
      corrections := (K.corrections.filter fun t => decide (s.time < t + 3600000000000)) ++ [s.time]
      blockCorrections := (K.blockCorrections.filter fun e => decide (s.time < e.2 + 86400000000000)) ++ [(b, s.time)] }
  let s := logError (count s 5 k 4 1) 0x0010 0 sevInfo srcFooting k 0xFF [5 + k * 256, lo32 (64 * b), 64 * b / 2 ^ 32]
  if errorRateWarning (stackAt s k) b s.time then
    logError s 0x0012 0 sevWarning srcFooting k 0xFF [k, (stackAt s k).corrections.length]
  else s

/-- Correct the correctable blocks that an access touches (R255). -/
def correctRange (s : State) (a n : Nat) : State :=
  let weak := s.hbm.weakIn a n
  weak.foldl correctBlock { s with hbm := s.hbm.corrected a n }

/-! ### The checkpoint in progress (R276 to R280) -/

/-- First byte of a granule at its source and in the target half (R276, R277). -/
def granuleSrc (run : CkptRun) (g : Nat × Nat) : Nat := ((run.shards[g.1]?).map (·.src)).getD 0 + g.2 * mib

def granuleDst (run : CkptRun) (g : Nat × Nat) : Nat :=
  match run.shards[g.1]? with
  | none => 0
  | some h => halfBase run.half h.stack + (h.halfOffsetMib + g.2) * mib

/-- A transfer through a Footing's arithmetic path or staging buffers: a single-bit error there is corrected, an uncorrectable
one is recorded, and nothing is handed on (R254, R441). Answers whether it was uncorrectable. -/
def footPath (s : State) (k a n : Nat) : State × Bool :=
  let detail := [4 + k * 256, lo32 a, a / 2 ^ 32]
  let clean := modStack s k fun K => { K with pathWeak := false, pathBad := false }
  if (stackAt s k).pathBad then (logError clean 0x0013 stMemUncorrectable sevFault srcFooting k n detail, true)
  else if (stackAt s k).pathWeak then (logError clean 0x0010 0 sevInfo srcFooting k n detail, false)
  else (s, false)

/-- Copy one granule into the target half and mark it copied (R277). -/
def copyGranule (s : State) (run : CkptRun) (g : Nat × Nat) : State :=
  let s := correctRange s (granuleSrc run g) mib
  let hbm := s.hbm.copy (granuleSrc run g) (granuleDst run g) mib
  let k := (stackOf (granuleSrc run g)).getD 0
  count { s with hbm, caisson := { s.caisson with run := some { run with uncopied := run.uncopied.erase g } } } 5 k 3 mib

/-- The higher local_seq that the package's halves hold, read from stack 0's commit records (R282). -/
def commitAt (s : State) (half k : Nat) : List Byte := s.hbm.mem.read (halfBase half k) 64

def commitMagic : Nat := 0x544D4D43

/-- A half holds a committed generation: the commit record on stack 0 is valid (R279, R426). -/
def committed (s : State) (half : Nat) : Bool :=
  decide (field (commitAt s half 0) 0 4 = commitMagic) && (s.hbm.badIn (halfBase half 0) 64).isEmpty

def localSeq (s : State) (half : Nat) : Nat := if committed s half then field (commitAt s half 0) 8 8 else 0

/-- The local_seq that the checkpoint in progress takes (R282). -/
def nextLocalSeq (s : State) : Nat := max (localSeq s 0) (localSeq s 1) + 1

/-! ### Reads and merges at a stack (R255) -/

/-- Read bytes at their stack: correctable blocks are corrected; uncorrectable ones are logged, and nothing is handed on. -/
def senseHbm (s : State) (r : Reader) (a n : Nat) : State × Option (List Byte) :=
  let bad := s.hbm.badIn a n
  if bad.isEmpty then
    let s := correctRange s a n
    (s, some (s.hbm.mem.read a n))
  else (bad.foldl (logUncorrectable r 0) s, none)

/-- Write through `put`, which changes HBM in the range [a, a + n) only: correctable blocks covered in part are corrected, and
uncorrectable ones stay as they are. Answers whether the write met an uncorrectable block. -/
def mergeHbm (s : State) (r : Reader) (a n : Nat) (put : Hbm → Hbm) : State × Bool :=
  let part := s.hbm.badPartial a n
  let s := part.foldl (logUncorrectable r 2) ((s.hbm.weakPartial a n).foldl correctBlock s)
  ({ s with hbm := put s.hbm }, !part.isEmpty)

/-- Read the commit records on stack 0, from which the halves are judged (R279, R426): blocks in error are met as in any read. -/
def readCommits (s : State) (n : Nat) : State :=
  [0, 1].foldl (fun s h => (senseHbm s (caissonReader n 0) (halfBase h 0) 64).1) s

/-- A kind 3 report (R333). -/
def ckptReport (s : State) (run : CkptRun) (status : Nat) : State :=
  post s run.cfg.reportQueue
    { opcode := 0x0601, status, kind := 3, context := run.ctx, last := false, seq := run.cfg.seq
      p := [run.step, lo32 (nextLocalSeq s), hi32 (nextLocalSeq s), run.half] }

/-- A release that waited for the checkpoint in progress takes effect (R289). -/
def settleRelease (s : State) : State :=
  match s.caisson.run, s.caisson.newConfig with
  | none, some (none, q, seq) =>
    finish { s with caisson := { s.caisson with config := none, newConfig := none, held := false, takes := [], timerDue := false } }
      q seq stOk []
  | _, _ => s

/-- Abandon the checkpoint in progress: no commit record is written, and the status is reported (R280, R291). -/
def abandonCkpt (s : State) (status : Nat) : State :=
  match s.caisson.run with
  | none => s
  | some run =>
    let s := ckptReport s run status
    let s := { s with caisson := { s.caisson with run := none } }
    settleRelease (logError s 0x0071 status sevFault srcPackage 0xFF run.ctx [run.step, status])

/-- Copy the uncopied granules that a write meets, in turn, before the write (R278). Answers whether one was
uncorrectable, which abandons the checkpoint (R255). -/
def copyBeforeList : List (Nat × Nat) → State → State × Bool
  | [], s => (s, false)
  | g :: gs, s =>
    match s.caisson.run with
    | none => (s, false)
    | some run =>
      let k := (stackOf (granuleSrc run g)).getD 0
      let bad := s.hbm.badIn (granuleSrc run g) mib
      if bad.isEmpty then
        match footPath s k (granuleSrc run g) run.ctx with
        | (s, true) => (abandonCkpt s stMemUncorrectable, true)
        | (s, false) => copyBeforeList gs (copyGranule s run g)
      else (abandonCkpt (bad.foldl (logUncorrectable (caissonReader run.ctx k) 0) s) stMemUncorrectable, true)

/-- The uncopied granules that a range meets (R277). -/
def granulesOf (s : State) (a n : Nat) : List (Nat × Nat) :=
  match s.caisson.run with
  | none => []
  | some run => run.uncopied.filter fun g => rangesMeet (granuleSrc run g) mib a n

/-- A write waits on the copies that it causes, for a time that the model leaves free (17 R413 CKPT_WRITE_WAIT; log 43). -/
def waitOnCopies (s : State) (a n : Nat) : State :=
  if (granulesOf s a n).isEmpty then s
  else
    let sel := selector 5 ((stackOf a).getD 0) 9
    { s with waits := addCounter s.waits sel (freeBelow s (2 ^ 32)), free := s.free + 1 }

def copyBefore (s : State) (a n : Nat) : State × Bool := copyBeforeList (granulesOf s a n) (waitOnCopies s a n)

/-! ### Records of a sampling session, and its end (R418, R420, R421) -/

/-- The header of a sample buffer (R420). -/
def sampleHeader (x : Sampling) (state : Nat) : List Byte :=
  leBytes 4 0x504D4153 ++ leBytes 4 0 ++ leBytes 8 x.written ++ leBytes 8 x.dropped ++ leBytes 1 state ++ leBytes 39 0

/-- A write of the sampler: one into an uncorrectable block leaves it unchanged and is logged, and faults nothing, since sampling
changes no status (R255, R407; log 52). Answers whether it met one. -/
def sampleStore (s : State) (r : Reader) (a : Nat) (bs : List Byte) : State × Bool :=
  let s := (copyBefore s a bs.length).1
  mergeHbm (count s 5 ((stackOf a).getD 0) 1 bs.length) r a bs.length fun h => h.write a bs

/-- Records that a sample buffer holds (R420). -/
def sampleCapacity (x : Sampling) : Nat := (x.bufBytes - 64) / 32

def modSampling (s : State) (n : Nat) (f : Sampling → Sampling) : State :=
  modCtx s n fun c => { c with sampling := c.sampling.map f }

/-- Bring the header of the session's buffer up to date. -/
def putHeader (s : State) (n state : Nat) : State :=
  match (ctxAt s n).bind (·.sampling) with
  | none => s
  | some x => (sampleStore s (hostReader n 0) x.bufAddr (sampleHeader x state)).1

/-- Write a record into its place of the buffer. Answers whether it found no room there, or an uncorrectable block. -/
def placeRecord (s : State) (n : Nat) (x : Sampling) (r : Nat × List Byte) : State × Bool :=
  if x.wrap || decide (x.written < sampleCapacity x) then
    sampleStore s (pierReader n r.1) (x.bufAddr + 64 + (x.written % sampleCapacity x) * 32) r.2
  else (s, true)

/-- Write one record, then the header that counts it. One that finds a full buffer, or whose block is uncorrectable, is not in the
buffer, and is counted as dropped (R420; log 52). -/
def storeRecord (s : State) (n : Nat) (r : Nat × List Byte) : State :=
  match (ctxAt s n).bind (·.sampling) with
  | none => s
  | some x =>
    let (s, lost) := placeRecord s n x r
    putHeader (modSampling s n fun y => if lost then { y with dropped := y.dropped + 1 } else { y with written := y.written + 1 }) n 1

/-- Write the oldest k of the records that wait. -/
def storeRecords : Nat → Nat → State → State
  | 0, _, s => s
  | k + 1, n, s =>
    match (ctxAt s n).bind fun c => c.sampling.bind (·.waiting.head?) with
    | none => s
    | some r => storeRecords k n (storeRecord (modSampling s n fun x => { x with waiting := x.waiting.tail }) n r)

/-- Records that wait in a context's session. -/
def waitingRecords (s : State) (n : Nat) : Nat := ((ctxAt s n).bind (·.sampling)).elim 0 (·.waiting.length)

/-- Every record that waits is written (R421). -/
def flushRecords (s : State) (n : Nat) : State := storeRecords (waitingRecords s n) n s

/-- Some of the waiting records are written: how many by now is a free value (log 52). -/
def drainRecords (s : State) (n : Nat) : State :=
  if waitingRecords s n = 0 then s else storeRecords (freeBelow s (waitingRecords s n + 1)) n (freeUsed s 1)

/-- End a context's session: every waiting record is written, then the header takes state 2 (R421). -/
def endSampling (s : State) (n : Nat) : State :=
  match (ctxAt s n).bind (·.sampling) with
  | none => s
  | some _ => modCtx (putHeader (flushRecords s n) n 2) n fun c => { c with sampling := none }

/-! ### Context faults -/

/-- Send ABANDON on the bound links of a program; their heartbeats stop (R181). -/
def abandonLinks (s : State) (n status : Nat) (qs : List Nat) : State :=
  qs.foldl (fun s q =>
    match linkAt s n q with
    | none => s
    | some L =>
      let s := if L.st == .bound then sendSpan s n q 0x05 0 status [] else s
      modLink s n q fun L => { L with st := .failed }) s

/-- Send ABANDON on the bound associations of a program (R181, R224). -/
def abandonAssocs (s : State) (n status : Nat) (peers : List Nat) : State :=
  peers.foldl (fun s k =>
    match assocAt s n k with
    | none => s
    | some A =>
      let s :=
        if A.st == .bound then
          putStay s n k 0 { type := 0x14, flags := 0, entry := 0, piece := 0, seq := 0, value := status, body := [] }
        else s
      modAssoc s n k fun A => { A with st := .failed, backlog := [] }) s

/-- An 8-bit two's complement field. -/
def byteOfInt (v : Int) : Nat := unsigned 8 v

/-- The kind 1 report of a context (R333). -/
def stepReport (s : State) (n status : Nat) (last : Bool) : State :=
  match ctxAt s n with
  | none => s
  | some c =>
    match c.program with
    | none => s
    | some p =>
      let used := (p.verdict.map (·.2.1)).getD c.ls.exp
      let next := (p.verdict.map (·.2.2)).getD c.ls.exp
      post s p.launchQ
        { opcode := 0x0302, status, kind := 1, context := n, last, seq := p.launchSeq
          p := [c.step, byteOfInt used + byteOfInt next * 256, c.version, 0] }

/-! ### The end of a feed (12 R298, R300) -/

def dropFeed (s : State) (q seq : Nat) : State :=
  { s with apr := { s.apr with feeds := s.apr.feeds.filter fun f => !(f.q == q && f.seq == seq) } }

/-- The result of item k, when it is decoded. -/
def Feed.result (f : Feed) (k : Nat) : Option ItemResult := assoc f.results k

/-- Items that become a segment: index, item, result; in list order (R299). -/
def Feed.segments (f : Feed) : List (Nat × Item × ItemResult) :=
  f.items.zipIdx.filterMap fun x => ((f.result x.2).filter fun r => r.tokens != 0).map fun r => (x.2, x.1, r)

def Feed.tokens (f : Feed) : Nat := (f.segments.map fun g => g.2.2.tokens).sum

/-- The result of an item that was not decoded: the manual gives its record no result, unit or microcode, which are free values;
it has no segment and no token (log 123). -/
def undecoded (s : State) : ItemResult :=
  let x := Config.freeValue s.free
  { result := x % 256, unit := x / 256 % 256, detail := 0, microcode := x / 65536 % 65536, tokens := 0, width := 0, place := 0 }

/-- A result record (R300). -/
def resultRecord (f : Feed) (k : Nat) (r : ItemResult) : List Byte :=
  let seg := (f.segments.map (·.1)).idxOf k
  leBytes 1 r.result ++ leBytes 1 r.unit ++ leBytes 2 (if r.tokens = 0 then 0xFFFF else seg) ++ leBytes 4 r.tokens
    ++ leBytes 4 r.detail ++ leBytes 2 r.microcode ++ leBytes 2 0

/-- Write the record of item k. -/
def postRecord (f : Feed) (s : State) (k : Nat) : State :=
  match f.result k with
  | some r => postHost s (f.resultsAddr + 16 * k) (resultRecord f k r)
  | none => freeUsed (postHost s (f.resultsAddr + 16 * k) (resultRecord f k (undecoded s))) 1

/-- The feed completes: a record for every item, then the command (R300). -/
def endFeed (s : State) (f : Feed) (status : Nat) (p : List Nat) : State :=
  finish (dropFeed ((List.range f.items.length).foldl (postRecord f) s) f.q f.seq) f.q f.seq status p

/-- The feeds of a context complete with its fault's status, those among them that have been taken and not started (R316, R340). -/
def endFeeds (s : State) (n status : Nat) : State :=
  let s := (s.apr.feeds.filter fun f => f.ctx == n).foldl (fun s f => endFeed s f status []) s
  (s.cmds.filter fun t => t.context == n && t.opcode == 0x0702).foldl (fun s t => finish s t.q t.seq status []) s

/-- Complete the outstanding commands that act on the program of a context (R316, R340). -/
def endProgramCommands (s : State) (n status : Nat) : State :=
  let hit := s.cmds.filter fun t => t.context == n && (t.opcode == 0x0302 && t.started || t.opcode == 0x0304)
  endFeeds (hit.foldl (fun s t => finish s t.q t.seq status []) s) n status

/-- The context faults with a status (R50, R104): the program stops, its queues go FAULTED, ABANDON goes to its peers, a
checkpoint before STEP_END is abandoned, its sampling session ends, its commands complete with the status, and the last
step report goes out. A context without a running program keeps only the status. -/
def faultContext (s : State) (n status : Nat) : State :=
  match progAt s n with
  | none => endFeeds (modCtx s n fun c => { c with faultStatus := status }) n status
  | some p =>
    if p.st == .faulted then endFeeds s n status
    else
      let launched := (findCmd s p.launchQ p.launchSeq).isNone
      let s := abandonLinks s n status (p.queues.map (·.decl.queue))
      let s := abandonAssocs s n status (p.assocs.map (·.peer))
      let s := modCtx s n fun c => { c with faultStatus := status }
      let s := modProg s n fun p =>
        { p with
          st := .faulted
          queues := p.queues.map fun x => { x with st := .faulted } }
      let s := match s.caisson.run with
        | some run => if run.ctx == n && !run.stepEnded then abandonCkpt s status else s
        | none => s
      let s := endSampling s n
      let s := endProgramCommands s n status
      if launched then stepReport s n status true else s

/-- Fault the context of a reader that met uncorrectable data, as R255 gives for its kind. -/
def memoryFault (s : State) (r : Reader) : State :=
  if r.kind = 7 || r.kind = 8 || r.kind = 9 then s else faultContext s r.ctx stMemUncorrectable

/-- Record a confinement or structural fault and fault the context (R50). -/
def confine (s : State) (n source position : Nat) (detail : List Nat) : State :=
  faultContext (logError s 0x0003 stContextFault sevFault source position n detail) n stContextFault

/-- Record a confinement fault of a pier's instruction and fault the context (R50, R401). -/
def pierFault (s : State) (n pier index address : Nat) : State := confine s n srcPier (pierTile pier) [pier, index, address]

/-- Fault a context for a lost peer (07 R180, R181): cause 0x0024 names the link or association, the peer and its status. -/
def peerLost (s : State) (n name peer status : Nat) : State :=
  faultContext (logError s 0x0024 stPeerLost sevFault srcPylon 0xFF n [name, peer, status]) n stPeerLost

/-! ### Reads and writes of HBM (R255) -/

/-- Read bytes over a stack's interface. -/
def readHbm (s : State) (r : Reader) (a n : Nat) : State × Option (List Byte) :=
  senseHbm (count s 5 ((stackOf a).getD 0) 0 n) r a n

/-- Copy the uncopied granules that a write meets (R278); an uncorrectable one among them faults the checkpoint's context
(R255). -/
def copyFirst (s : State) (a n : Nat) : State :=
  match copyBefore s a n, s.caisson.run with
  | (t, true), some run => faultContext t run.ctx stMemUncorrectable
  | (t, _), _ => t

/-- Store within a stack: uncopied granules are copied first (R278). Answers whether the write met an uncorrectable block. -/
def storeInside (s : State) (r : Reader) (a n : Nat) (put : Hbm → Hbm) : State × Bool := mergeHbm (copyFirst s a n) r a n put

/-- Store over a stack's interface (R413). -/
def storeHbm (s : State) (r : Reader) (a n : Nat) (put : Hbm → Hbm) : State × Bool :=
  storeInside (count s 5 ((stackOf a).getD 0) 1 n) r a n put

/-- Write bytes. -/
def writeHbm (s : State) (r : Reader) (a : Nat) (bs : List Byte) : State × Bool :=
  storeHbm s r a bs.length fun h => h.write a bs

/-- Write bytes; a merge into an uncorrectable block faults the writer's context (R255). -/
def writeOrFault (s : State) (r : Reader) (a : Nat) (bs : List Byte) : State :=
  let (s, bad) := writeHbm s r a bs
  if bad then memoryFault s r else s

/-- Read bytes; an uncorrectable block faults the reader's context (R255). -/
def readOrFault (s : State) (r : Reader) (a n : Nat) : State × Option (List Byte) :=
  match readHbm s r a n with
  | (s, some bs) => (s, some bs)
  | (s, none) => (memoryFault s r, none)

end Sys2Proof.Machine
end

