-- ==== Sys2Proof/Machine/Flags.lean ====
section
/-! DEFINITION. Status words, flags and register reads: DEV_STATUS, TETHER_STAT, QSTAT, LOSS_SCALE and its rules (06 R161
to R163), verdict records and trailers (06 R167, 08 R220), the window's reads (13 R322 to R331). -/

namespace Sys2Proof.Machine

def flag (b : Bool) (i : Nat) : Nat := if b then 2 ^ i else 0

/-! ### Window words -/

/-- DEV_ID (R323): family 0x0001, window layout 0x01. -/
def devId : Nat := 0x00010100

/-- An enabled queue is stopped by an event of R328 (R323 QSTOP). -/
def qstop (s : State) : Bool := s.queues.any fun Q => Q.enable && Q.stopped && Q.stopEvent

/-- The error log holds entries not yet read (R323, R403). -/
def errlogBit (s : State) : Bool := s.toll.log.any fun e => !e.read

/-- DEV_STATUS (R323). -/
def devStatus (s : State) : Nat :=
  s.pkg.lastReset * 2 ^ 16 + s.pkg.oosCode * 2 ^ 8 + flag (errlogBit s) 4 + flag s.pkg.retained 3 + flag (qstop s) 2
    + flag s.pkg.oos 1 + flag s.pkg.ready 0

/-- TE_ALERT_N is asserted (R318, R436). -/
def alertPin (s : State) : Bool := s.pkg.oos || qstop s || s.pkg.removeAlert

/-- PKG_FAULT_N is asserted: while the package is out of service (R323). -/
def faultPin (s : State) : Bool := s.pkg.oos

/-- TETHER_STAT (R323). -/
def tetherStat (s : State) : Nat := s.tether.retrains * 2 ^ 16 + s.tether.replays

/-- QSTAT_q (R325). -/
def qstat (Q : HostQueue) : Nat :=
  flag Q.stopped 31 + Q.cause * 2 ^ 16 + Q.ignored * 2 ^ 8 + flag (!cplRoom Q) 0

/-- QCFG_q (R325). -/
def qcfg (Q : HostQueue) : Nat := flag Q.enable 31 + Q.ctx * 2 ^ 16 + Q.cplLog2 * 2 ^ 8 + Q.ringLog2

/-! ### The loss scale (R161 to R163) -/

/-- LOSS_SCALE of a context (R161). -/
def lossScaleWord (l : LossScale) : Nat := l.clean * 2 ^ 16 + flag l.pend.isSome 15 + flag l.floor 14 + byteOfInt l.exp

/-- The reset values (R161). -/
def LossScale.initial : LossScale := { exp := 16, clean := 0, floor := false, pend := none }

/-- The exponents that a host write may set (R162). -/
def expOk (v : Int) : Bool := decide (-32 ≤ v ∧ v ≤ 32)

/-- A valid write of EXP: pending while a program runs, else at once (R162). -/
def LossScale.write (l : LossScale) (running : Bool) (v : Int) : LossScale :=
  if running then { l with pend := some v } else { l with exp := v, clean := 0, pend := none }

/-- The interval in force, where 0 selects 2,000 (R163). -/
def lsInterval (c : Context) : Nat := if c.lsInterval = 0 then 2000 else c.lsInterval

/-- The update at a verdict (R163): the new state; the exponent used is the old one. -/
def LossScale.verdict (l : LossScale) (interval : Nat) (nonfinite : Bool) : LossScale :=
  let floor := nonfinite && l.exp == -32
  match l.pend with
  | some v => { exp := v, clean := 0, floor, pend := none }
  | none =>
    if nonfinite then { exp := max (l.exp - 1) (-32), clean := 0, floor, pend := none }
    else
      let clean := min (l.clean + 1) 65535
      if interval ≤ clean ∧ l.exp < 32 then { exp := l.exp + 1, clean := 0, floor, pend := none }
      else { exp := l.exp, clean, floor, pend := none }

/-- The 32 bytes of a verdict or launch record (R167). -/
def verdictRecord (step : Nat) (nonfinite : Bool) (used next : Int) (flags clean : Nat) : List Byte :=
  leBytes 4 0x56445254 ++ leBytes 4 step ++ leBytes 1 (flag nonfinite 0) ++ leBytes 1 (byteOfInt used)
    ++ leBytes 1 (byteOfInt next) ++ leBytes 1 flags ++ leBytes 2 clean ++ leBytes 18 0

/-! ### Trailers (R220) -/

def encodeTrailer (t : Trailer) : List Byte :=
  leBytes 4 t.step ++ leBytes 2 t.members ++ leBytes 1 t.nonfinite ++ leBytes 1 t.flags ++ leBytes 2 t.firstRank ++ leBytes 6 0

def decodeTrailer (b : List Byte) : Trailer :=
  { step := field b 0 4, members := field b 4 2, nonfinite := field b 6 1, flags := field b 7 1, firstRank := field b 8 2 }

/-- Merge two trailers: members add, nonfinite and flags OR, first_rank takes the minimum (R220). -/
def mergeTrailer (a b : Trailer) : Trailer :=
  { step := a.step, members := (a.members + b.members) % 65536, nonfinite := a.nonfinite ||| b.nonfinite,
    flags := a.flags ||| b.flags, firstRank := min a.firstRank b.firstRank }

/-! ### Engine time (R349) -/

/-- The engine-time account of a context as it stands. -/
def accountOf (s : State) (n : Nat) : Nat :=
  match ctxAt s n with
  | none => 0
  | some c => (c.account + if s.sched.active = some n then s.time - s.sched.chargedTo else 0) % 2 ^ 64

/-! ### Reads of the window (R7, R322 to R331) -/

def readQueueReg (Q : HostQueue) (o : Nat) : Nat :=
  if o = 0x00 then Q.ringLo else if o = 0x04 then Q.ringHi else if o = 0x08 then Q.cplLo else if o = 0x0C then Q.cplHi
  else if o = 0x10 then qcfg Q else if o = 0x18 then Q.head else if o = 0x1C then Q.ctail else if o = 0x20 then Q.chead
  else if o = 0x24 then qstat Q else 0

def readMailbox (Q : HostQueue) (o : Nat) : Nat :=
  if o < 0x30 then Q.data.getD (o / 4) 0 else if o = 0x30 then Q.event else if o = 0x34 then Q.expect
  else if o = 0x38 then Q.found else Q.mptime

/-- What a read of the window returns; write-only and reserved offsets return 0 (R7, R8). Captures are the rows' own. The spec does
not say what LOSS_SCALE shows while no context is active: its fields are then a free value, its reserved bits 0 (R8; log 48). -/
def readRegister (s : State) (o : Nat) : Nat :=
  if o = 0x0000 then devId
  else if o = 0x0004 then devStatus s
  else if o = 0x0008 then lo32 s.time
  else if o = 0x000C then hi32 s.tether.ptimeCapture
  else if o = 0x0014 then tetherStat s
  else if o = 0x0020 then
    match s.sched.active.bind (ctxAt s) with
    | some c => lossScaleWord c.ls
    | none => freeBelow s (2 ^ 18) * 2 ^ 14 + freeBelow s (2 ^ 8)
  else if 0x0100 ≤ o ∧ o < 0x0180 then
    if o % 8 = 0 then lo32 (accountOf s ((o - 0x100) / 8)) else hi32 (s.tether.accountCapture.getD ((o - 0x100) / 8) 0)
  else if 0x2000 ≤ o ∧ o < 0x3000 then readQueueReg (queueAt s ((o - 0x2000) / 64)) ((o - 0x2000) % 64)
  else if 0x3000 ≤ o ∧ o < 0x4000 then readMailbox (queueAt s ((o - 0x3000) / 64)) ((o - 0x3000) % 64)
  else 0

end Sys2Proof.Machine
end

