-- ==== Sys2Proof/Machine/Operands.lean ====
section
/-! DEFINITION. Operand forms: the fields of deck instructions (03 R97 to R100) with the checks of R96, the scratchpad and HBM
ranges they name (R93), window descriptors and their geometry (05 R127 to R139), and where an image keeps its sections. -/

namespace Sys2Proof.Machine

/-! ### Fields of a deck instruction -/

/-- The scratchpad ends here (R80). -/
def scratchEnd : Nat := 0x300000

def opcodeOf (w : Nat) : Nat := bits w 127 120

/-- The opcodes of R96. -/
def opcodes : List Nat :=
  [0x01, 0x02, 0x03, 0x04, 0x05, 0x06, 0x10, 0x11, 0x12, 0x13, 0x14, 0x18, 0x19, 0x20, 0x21, 0x22, 0x28, 0x29, 0x2A, 0x30]

/-- LOAD_W (R98). -/
structure LoadW where
  plane : Bool
  format : Nat
  krows : Nat
  ncols : Nat
  wAddr : Nat
  wStride : Nat
  scaleAddr : Nat
  deriving DecidableEq, Repr

def loadWOf (w : Nat) : LoadW :=
  { plane := bit w 119, format := bits w 115 112, krows := bits w 111 104 + 1, ncols := bits w 103 96 + 1,
    wAddr := bits w 95 74, wStride := bits w 73 64 * 32, scaleAddr := bits w 63 42 }

/-- LOAD_W holds no reserved code, field or address (R96, R98). -/
def loadWOk (w : Nat) : Bool :=
  let i := loadWOf w
  bits w 118 116 == 0 && bits w 41 0 == 0 && decide (i.format ≤ 5) && decide (i.krows ≤ 128) && decide (i.ncols ≤ 128)
    && decide (i.wAddr < scratchEnd) && (i.format == 0 || decide (i.scaleAddr < scratchEnd))

/-- PASS (R97), with the window fields of R132. -/
structure Pass where
  transposed : Bool
  plane : Bool
  first : Bool
  mode : Nat
  streamed : Nat
  stored : Nat
  rows : Nat
  inAddr : Nat
  inStride : Nat
  scaleAddr : Nat
  window : Nat
  accAddr : Nat
  tapI : Nat
  tapJ : Nat
  p0 : Nat
  deriving DecidableEq, Repr

def passOf (w : Nat) : Pass :=
  { transposed := bit w 119, plane := bit w 118, first := bit w 117, mode := bits w 116 115, streamed := bits w 111 108,
    stored := bits w 107 104, rows := bits w 103 96 + 1, inAddr := bits w 95 74, inStride := bits w 73 64 * 32,
    scaleAddr := bits w 63 42, window := bits w 41 32, accAddr := bits w 31 10, tapI := bits w 73 69, tapJ := bits w 68 64,
    p0 := bits w 63 42 }

/-- PASS holds no reserved code, field or address (R96, R97, R132). -/
def passOk (w : Nat) : Bool :=
  let i := passOf w
  bits w 114 112 == 0 && bits w 9 0 == 0 && decide (i.mode ≤ 1) && decide (i.streamed ≤ 5) && decide (i.stored ≤ 5)
    && (i.mode == 0 || i.streamed == 0) && (i.mode == 1 || i.window == 0)
    && decide (i.inAddr < scratchEnd) && decide (i.accAddr < scratchEnd)
    && (i.mode == 1 || i.streamed == 0 || decide (i.scaleAddr < scratchEnd))

/-- DRAIN (R100). -/
structure Drain where
  fuse : Nat
  outFmt : Nat
  fuseFmt : Nat
  cols : Nat
  rows : Nat
  accAddr : Nat
  outAddr : Nat
  outStride : Nat
  fuseAddr : Nat
  fuseStride : Nat
  deriving DecidableEq, Repr

def drainOf (w : Nat) : Drain :=
  { fuse := bits w 119 118, outFmt := bits w 117 116, fuseFmt := bits w 115 114, cols := bits w 111 104 + 1,
    rows := bits w 103 96 + 1, accAddr := bits w 95 74, outAddr := bits w 73 52, outStride := bits w 51 42 * 32,
    fuseAddr := bits w 41 20, fuseStride := bits w 19 10 * 32 }

/-- DRAIN holds no reserved code, field or address (R96, R100). -/
def drainOk (w : Nat) : Bool :=
  let i := drainOf w
  bits w 113 112 == 0 && bits w 9 0 == 0 && decide (i.fuse ≤ 2) && decide (i.outFmt ≤ 2) && decide (i.fuseFmt ≤ 2)
    && decide (i.cols ≤ 128) && decide (i.accAddr < scratchEnd) && decide (i.outAddr < scratchEnd)
    && (i.fuse == 0 || decide (i.fuseAddr < scratchEnd))

/-- The general layout (R99); `length` is in bytes. -/
structure General where
  flags : Nat
  index : Nat
  length : Nat
  a : Nat
  count : Nat
  b : Nat
  deriving DecidableEq, Repr

def generalOf (w : Nat) : General :=
  { flags := bits w 119 116, index := bits w 115 104, length := bits w 103 86 * 32, a := bits w 85 64, count := bits w 63 48,
    b := bits w 47 0 }

/-- COPY between piers (R96). -/
def General.toPier (g : General) : Bool := bit g.flags 1

/-- The fields that an opcode does not use are 0 (R99), and its flags are defined (R96). -/
def generalOk (w : Nat) : Bool :=
  let g := generalOf w
  let op := opcodeOf w
  let aOk := decide (g.a < scratchEnd)
  if op = 0x04 then g.flags == 0 && g.length == 0 && g.count == 0 && g.b == 0 && aOk
  else if op = 0x05 then decide (g.flags ≤ 1) && g.index == 0 && g.count == 0 && aOk && g.b % 32 == 0
  else if op = 0x06 then
    g.count == 0 && aOk && g.b % 32 == 0
      && (if g.flags = 2 then decide (g.b < scratchEnd) else decide (g.flags ≤ 1) && g.index == 0)
  else if op = 0x10 ∨ op = 0x13 then decide (g.flags ≤ 1) && g.count == 0 && g.b == 0 && aOk
  else if op = 0x11 ∨ op = 0x14 then g.flags == 0 && g.count == 0 && g.b == 0 && aOk
  else if op = 0x12 ∨ op = 0x20 ∨ op = 0x21 ∨ op = 0x22 then
    g.flags == 0 && g.length == 0 && g.a == 0 && g.count == 0 && g.b == 0
  else if op = 0x18 ∨ op = 0x19 ∨ op = 0x28 ∨ op = 0x29 ∨ op = 0x2A then
    g.flags == 0 && g.length == 0 && g.a == 0 && g.b == 0
  else g.flags == 0 && g.index == 0 && g.length == 0 && g.a == 0 && g.count == 0 && g.b == 0

/-- The whole check of R96. -/
def wordOk (w : Nat) : Bool :=
  let op := opcodeOf w
  opcodes.contains op
    && (if op = 0x01 then loadWOk w else if op = 0x02 then passOk w else if op = 0x03 then drainOk w else generalOk w)

/-! ### Sections of the image (R101 to R103) -/

def sectionOf (im : Image) (type scope : Nat) : Option Section := im.sections.find? fun x => x.type == type && x.scope == scope

/-- Instructions in a pier's deck (R92). -/
def deckLength (im : Image) (p : Nat) : Nat := ((sectionOf im 0x0003 p).map fun x => x.size / 16).getD 0

/-- The instruction buffer's word for the pier's next instruction (R69, R92). -/
def bufferedWord (P : Pier) : Option Nat := if P.index < P.bufferAt then none else (P.buffer[P.index - P.bufferAt]?).map (·.toNat)

/-- Where instruction i of a pier's deck lies in HBM (R92). -/
def deckAddr (im : Image) (p i : Nat) : Nat := im.addr + ((sectionOf im 0x0003 p).map (·.offset)).getD 0 + 16 * i

/-- The word of a pier's next instruction: from its buffer, else as the deck in HBM holds it. -/
def peekWord (s : State) (im : Image) (p : Nat) : Nat :=
  (bufferedWord (pierAt s p)).getD (leNat (s.hbm.mem.read (deckAddr im p (pierAt s p).index) 16))

/-- The local stage of a pier (R48). -/
def stageOfPier (d : Decls) (p : Nat) : Option Nat := d.stages.findIdx? fun x => x.piers.contains p

/-- The bytes of a pier's SCRATCH declaration, from pier-local address 0 (R48). -/
def scratchOf (d : Decls) (p : Nat) : Nat :=
  (((d.stages.find? fun x => x.piers.contains p).bind fun x => assoc x.scratch p)).getD 0

/-- The piers of a stage in ascending global ID (R186). -/
def stagePiers (d : Decls) (k : Nat) : List Nat := sortNats (((d.stages[k]?).map (·.piers)).getD [])

/-- The home tile of a stage (R174). -/
def homeTile (d : Decls) (k : Nat) : Nat := (((stagePiers d k).head?).map pierTile).getD 0

/-! ### Window descriptors (R128) -/

structure Window where
  inH : Nat
  inW : Nat
  kh : Nat
  kw : Nat
  strideY : Nat
  strideX : Nat
  dilY : Nat
  dilX : Nat
  pad : Nat
  interleaved : Bool
  channels : Nat
  padLoY : Nat
  padHiY : Nat
  padLoX : Nat
  padHiX : Nat
  padConst : Nat
  planeStride : Nat
  rowStride : Nat
  posHi : Nat
  deriving DecidableEq, Repr

def windowOf (b : List Byte) : Window :=
  { inH := field b 0 2, inW := field b 2 2, kh := field b 4 1, kw := field b 5 1, strideY := field b 6 1, strideX := field b 7 1,
    dilY := field b 8 1, dilX := field b 9 1, pad := field b 10 1 % 4, interleaved := bit (field b 10 1) 4,
    channels := field b 11 1 + 1, padLoY := field b 12 2, padHiY := field b 14 2, padLoX := field b 16 2,
    padHiX := field b 18 2, padConst := field b 20 4, planeStride := field b 24 4, rowStride := field b 28 2,
    posHi := field b 30 2 }

def between (lo hi v : Nat) : Bool := decide (lo ≤ v ∧ v ≤ hi)

/-- The fields of a descriptor are within R128 (R138). -/
def windowOk (b : List Byte) : Bool :=
  let d := windowOf b
  between 1 65535 d.inH && between 1 65535 d.inW && between 1 32 d.kh && between 1 32 d.kw && between 1 64 d.strideY
    && between 1 64 d.strideX && between 1 32 d.dilY && between 1 32 d.dilX
    && bits (field b 10 1) 3 2 == 0 && bits (field b 10 1) 7 5 == 0 && between 1 128 d.channels
    && (d.pad == 1 || d.padConst == 0)
    && (if d.interleaved then d.planeStride == 0 else between 1 98304 d.planeStride) && decide (d.inW ≤ d.rowStride)

/-- A mirror pad is at most in − 1 on its axis (R131). -/
def mirrorOk (pad inH inW loY hiY loX hiX : Nat) : Bool :=
  pad != 2 || (decide (loY ≤ inH - 1 ∧ hiY ≤ inH - 1) && decide (loX ≤ inW - 1 ∧ hiX ≤ inW - 1))

/-- The output extent of an axis (R129). -/
def outExtent (ext lo hi k dil stride : Nat) : Int := (((ext + lo + hi : Nat) : Int) - dil * (k - 1) - 1) / stride + 1

def Window.outH (d : Window) : Int := outExtent d.inH d.padLoY d.padHiY d.kh d.dilY d.strideY
def Window.outW (d : Window) : Int := outExtent d.inW d.padLoX d.padHiX d.kw d.dilX d.strideX

/-- The operator is empty (R129). -/
def Window.empty (d : Window) : Bool := decide (d.outH ≤ 0 ∨ d.outW ≤ 0)

/-- Where a coordinate of an axis takes its value (R130): an input coordinate, zero or the constant. -/
inductive Source
  | at (x : Nat)
  | zero
  | const
  deriving DecidableEq, Repr

def padSource (pad ext : Nat) (x : Int) : Source :=
  if 0 ≤ x ∧ x < ext then .at x.toNat
  else if pad = 0 then .zero
  else if pad = 1 then .const
  else if pad = 2 then .at (if x < 0 then (-x).toNat else (2 * ((ext : Int) - 1) - x).toNat)
  else .at (if x < 0 then 0 else ext - 1)

/-- Both axes, the row axis first (R130). -/
def padSource2 (pad inH inW : Nat) (y x : Int) : Option (Nat × Nat) × Bool :=
  match padSource pad inH y with
  | .zero => (none, false)
  | .const => (none, true)
  | .at r =>
    match padSource pad inW x with
    | .zero => (none, false)
    | .const => (none, true)
    | .at c => (some (r, c), false)

/-- The pier-local address of element (c, y, x) (R127). -/
def Window.addr (d : Window) (base c y x : Nat) : Nat :=
  if d.interleaved then base + (y * d.rowStride + x) * 256 + c * 2
  else base + c * d.planeStride * 32 + (y * d.rowStride + x) * 2

/-- The address that element k of streamed row m fetches, or none with its value: +0 or the constant in binary16
(R133, R134, R139). A tap beyond the kernel's size, for which the spec states no outcome, is computed like any other (log 23). -/
def windowElement (d : Window) (i : Pass) (m k : Nat) : Option Nat × Nat :=
  let pos := d.posHi * 2 ^ 22 + i.p0 + m
  if d.channels ≤ k then (none, 0)
  else if i.transposed then
    let wPad := d.inW + d.padLoX + d.padHiX
    let dy : Int := (pos / wPad : Nat) - (i.tapI * d.dilY : Nat)
    let dx : Int := (pos % wPad : Nat) - (i.tapJ * d.dilX : Nat)
    if dy % d.strideY = 0 ∧ dx % d.strideX = 0 ∧ 0 ≤ dy ∧ 0 ≤ dx ∧ dy / d.strideY < d.outH ∧ dx / d.strideX < d.outW then
      (some (d.addr i.inAddr k (dy / d.strideY).toNat (dx / d.strideX).toNat), 0)
    else (none, 0)
  else if pos < (d.outH * d.outW).toNat then
    let oy := pos / d.outW.toNat
    let ox := pos % d.outW.toNat
    let y : Int := (oy * d.strideY + i.tapI * d.dilY : Nat)
    let x : Int := (ox * d.strideX + i.tapJ * d.dilX : Nat)
    match padSource2 d.pad d.inH d.inW (y - d.padLoY) (x - d.padLoX) with
    | (some (y, x), _) => (some (d.addr i.inAddr k y x), 0)
    | (none, true) => (none, encodeFloat fBinary16 (f32 d.padConst))
    | (none, false) => (none, 0)
  else (none, 0)

/-- Where a pier's window descriptor lies in HBM. -/
def windowAddr (im : Image) (p i : Nat) : Nat := im.addr + ((sectionOf im 0x0005 p).map (·.offset)).getD 0 + 32 * i

def windowCount (im : Image) (p : Nat) : Nat := ((sectionOf im 0x0005 p).map fun x => x.size / 32).getD 0

/-! ### Ranges (R93, R137) -/

/-- The range of `rows` rows of `n` bytes at a stride. -/
def rowsRange (a stride rows n : Nat) : Range := { start := a, bytes := (rows - 1) * stride + n }

/-- HBM addresses stand above the pier-local ones in the scoreboard's ranges. -/
def hbmSpace : Nat := 2 ^ 49

/-- What LOAD_W reads for row k: the bytes of its loaded columns, and at a block's first row the block's scales (R98). -/
def LoadW.rowReads (i : LoadW) (k : Nat) : List Range :=
  { start := i.wAddr + k * i.wStride, bytes := ceilDiv (i.ncols * elemBits i.format) 8 }
    :: (if i.format ≠ 0 ∧ k % 32 = 0 then [{ start := i.scaleAddr + 128 * (k / 32), bytes := i.ncols }] else [])

/-- The ranges that LOAD_W names (R93, R98): from its first row to its last, and the scales of its blocks (log 24). -/
def LoadW.reads (i : LoadW) : List Range :=
  rowsRange i.wAddr i.wStride i.krows (ceilDiv (i.ncols * elemBits i.format) 8)
    :: (if i.format = 0 then [] else [rowsRange i.scaleAddr 128 (ceilDiv i.krows 32) i.ncols])

def Pass.accRange (i : Pass) : Range := { start := i.accAddr, bytes := i.rows * 1024 }

/-- The highest range that a windowed pass could fetch (R137). -/
def windowRange (d : Window) (i : Pass) : List Range :=
  let tops := (List.range i.rows).flatMap fun m => (List.range d.channels).filterMap fun k => (windowElement d i m k).1
  match tops with
  | [] => []
  | t => [{ start := i.inAddr, bytes := t.foldl max 0 + 2 - i.inAddr }]

/-- What a PASS streams (R97, R137). -/
def Pass.streams (i : Pass) (win : Option Window) : List Range :=
  match win with
  | some d => windowRange d i
  | none =>
    rowsRange i.inAddr i.inStride i.rows (rowBytes i.streamed)
      :: (if i.streamed = 0 then [] else [rowsRange i.scaleAddr 4 i.rows 4])

def Drain.accRange (i : Drain) : Range := { start := i.accAddr, bytes := (i.rows - 1) * 1024 + i.cols * 8 }

def Drain.fuseReads (i : Drain) : List Range :=
  if i.fuse = 0 then [] else [rowsRange i.fuseAddr i.fuseStride i.rows (i.cols * drainBytes i.fuseFmt)]

def Drain.writes (i : Drain) : Range := rowsRange i.outAddr i.outStride i.rows (i.cols * drainBytes i.outFmt)

/-- An earlier outstanding instruction holds the new one back (R93); `acc` is the accumulator range of a PASS or DRAIN, which
an earlier PASS into it does not hold back. -/
def holdsBack (o : Outstanding) (reads writes : List Range) (accRead accWrite : Option Range) : Bool :=
  let hit := fun (xs : List Range) (ys : List Range) => xs.any fun x => ys.any fun y => x.meets y
  let exempt := match o.accumulates, accRead.or accWrite with
    | some x, some y => x.start == y.start
    | _, _ => false
  let r := accRead.toList
  let w := accWrite.toList
  let own := o.accumulates.toList
  hit o.writes (reads ++ writes) || hit o.reads writes || hit own (reads ++ writes) || hit (o.writes ++ o.reads) w || hit o.writes r
    || (!exempt && hit own (r ++ w))

/-- The scoreboard lets an instruction start (R93). -/
def scoreFree (P : Pier) (reads writes : List Range) (accRead accWrite : Option Range) : Bool :=
  decide (P.score.length < 8) && P.score.all fun o => !holdsBack o reads writes accRead accWrite

end Sys2Proof.Machine
end

