-- ==== Sys2Proof/Machine/Pier.lean ====
section
/-! DEFINITION. Tile instructions of a pier (chapters 03 and 04): LOAD_W, PASS with its write-backs, DRAIN, ACC_WRITE, COPY,
and the faults of R96. -/

namespace Sys2Proof.Machine

/-! ### Issue -/

/-- The context whose piers issue: active, its program running, its slice not at an end (R342, R351). -/
def issuing (s : State) : Option Nat :=
  if running s && s.sched.incoming.isNone && (s.sched.current.map fun c => !c.ending).getD true then
    s.sched.active.filter fun n => (progAt s n).any fun p => p.st == .running
  else none

/-- An instruction at issue: context, image, pier, deck index and word. -/
structure Issue where
  n : Nat
  im : Image
  pier : Nat
  index : Nat
  word : Nat

/-- The program's watchdog restarts whenever an operation completes (R61). -/
def opDone (s : State) (n : Nat) : State := modProg s n fun p => { p with watchdogAt := s.time }

/-- The image of the issuing context, when the pier belongs to a stage and runs no unended lane program. -/
def pierReady (s : State) (p : Nat) : Option (Nat × Image) :=
  match issuing s with
  | none => none
  | some n =>
    match imageAt s n with
    | none => none
    | some im => if (stageOfPier im.decls p).isSome && (pierAt s p).lane.isNone then some (n, im) else none

/-- Fill the instruction buffer from the pier's next instruction on: up to 4,096 instructions, those before the first
uncorrectable block. With the next instruction in one, the context faults (R69, R92, R255; log 111). -/
def refill (s : State) (n : Nat) (im : Image) (p : Nat) : State × Option Nat :=
  let i := (pierAt s p).index
  let a := deckAddr im p i
  let whole := min 4096 (deckLength im p - i)
  let k := match (s.hbm.badIn a (16 * whole)).min? with
    | none => whole
    | some b => max 1 ((64 * b - a) / 16)
  match readOrFault s (pierReader n p) a (16 * k) with
  | (s, none) => (s, none)
  | (s, some bs) =>
    (modPier s p fun P =>
      { P with bufferAt := i, buffer := (List.range k).map fun j => BitVec.ofNat 128 (field bs (16 * j) 16) }, some (field bs 0 16))

/-- The pier's next instruction, from its buffer (R92). -/
def fetchWord (s : State) (n : Nat) (im : Image) (p : Nat) : State × Option Nat :=
  match bufferedWord (pierAt s p) with
  | some w => (s, some w)
  | none => refill s n im p

/-- Fetch the pier's next instruction and, if it is one that the row names, run it. Beyond the deck's end the context faults
(R92). -/
def atPier (s : State) (p : Nat) (accept : Nat → Bool) (f : State → Issue → State) : State :=
  match pierReady s p with
  | none => s
  | some (n, im) =>
    let i := (pierAt s p).index
    if deckLength im p ≤ i then pierFault s n p i 0
    else
      match fetchWord s n im p with
      | (t, none) => t
      | (t, some w) => if accept (opcodeOf w) then f t { n, im, pier := p, index := i, word := w } else s

/-- The first range that leaves the pier's SCRATCH declaration (R50). -/
def outside (im : Image) (p : Nat) (rs : List Range) : Option Nat :=
  (rs.find? fun r => !rangeInside r.start r.bytes 0 (scratchOf im.decls p)).map (·.start)

/-! ### Precise sampling (17 R418 to R420) -/

/-- The session samples this pier and opcode. -/
def samples (x : Sampling) (im : Image) (p op : Nat) : Bool :=
  ((stageOfPier im.decls p).any fun k => bit x.stages k) && (x.opcodes == 0 || bit x.opcodes (op / 16))

/-- A step begins on the pier: counting starts (R418). -/
def startCounting (s : State) (n p : Nat) : State :=
  modCtx s n fun c => { c with sampling := c.sampling.map fun x =>
    { x with piers := if x.piers.any (·.pier == p) then x.piers.map fun y => if y.pier = p then { y with counting := true } else y
                      else x.piers ++ [{ pier := p, counting := true, count := 0, withdrawn := false, lost := false }] } }

/-- Count an instruction at issue; answers whether it is sampled. -/
def sampleTick (s : State) (n p op : Nat) : State × Bool :=
  match (ctxAt s n).bind (·.sampling), imageAt s n with
  | some x, some im =>
    match x.piers.find? fun y => y.pier == p && y.counting with
    | none => (s, false)
    | some y =>
      if y.withdrawn then
        (modCtx s n fun c => { c with sampling := some { x with piers := x.piers.map fun z =>
          if z.pier = p then { z with withdrawn := false } else z } }, false)
      else if samples x im p op then
        (modCtx s n fun c => { c with sampling := some { x with piers := x.piers.map fun z =>
          if z.pier = p then { z with count := z.count + 1 } else z } }, (y.count + 1) % x.period == 0)
      else (s, false)
  | _, _ => (s, false)

/-- First address that an instruction reads, and whether it is an HBM address (R419). -/
def firstRead (w : Nat) : Nat × Bool :=
  let op := opcodeOf w
  let g := generalOf w
  if op = 0x01 then ((loadWOf w).wAddr, false)
  else if op = 0x02 then ((passOf w).inAddr, false)
  else if op = 0x03 then ((drainOf w).accAddr, false)
  else if op = 0x06 ∧ g.flags = 0 then (g.b, true)
  else if op = 0x04 ∨ op = 0x05 ∨ op = 0x06 ∨ op = 0x10 ∨ op = 0x13 then (g.a, false)
  else (0, false)

/-- The bytes of a record (R419): `times` are its latency and scoreboard time. -/
def recordBytes (c : Context) (n p w index flags issued : Nat) (times : Nat × Nat) : List Byte :=
  let (a, hbm) := firstRead w
  leBytes 2 p ++ leBytes 1 (opcodeOf w) ++ leBytes 1 (flags ||| flag hbm 0) ++ leBytes 4 index ++ leBytes 4 c.step
    ++ leBytes 4 times.1 ++ leBytes 8 a ++ leBytes 4 issued ++ leBytes 2 times.2 ++ leBytes 1 n ++ leBytes 1 0

/-- A record joins the pier's at most 4 that wait, with LOST after a dropped one; one that finds no room is dropped and counted (R418,
R419). -/
def queueRecord (p : Nat) (bytes : Bool → List Byte) (x : Sampling) : Sampling :=
  let full := decide (4 ≤ (x.waiting.filter fun r => r.1 == p).length)
  let lost := x.piers.any fun y => y.pier == p && y.lost
  let x := { x with piers := x.piers.map fun y : PierSample => if y.pier = p then { y with lost := full } else y }
  if full then { x with dropped := x.dropped + 1 } else { x with waiting := x.waiting ++ [(p, bytes lost)] }

/-- Record a sampled instruction (R418, R419). `issued` is the powered time of its issue where State holds it, and `ended` that of its
completion. Without the first, a free time has passed since the issue; without the second, a free time passes until the completion
(log 2). Scoreboard time is free. -/
def takeRecord (s : State) (n p w index flags : Nat) (issued ended : Option Nat) : State :=
  match ctxAt s n with
  | none => s
  | some c =>
    if c.sampling.isNone then s
    else
      let free := Config.freeValue s.free
      let from_ := issued.getD (s.time - free)
      let latency := match issued, ended with
        | some _, none => free
        | _, _ => ended.getD s.time - from_
      let bytes := fun lost => recordBytes c n p w index (flags ||| flag lost 2) (lo32 from_)
        (min latency 0xFFFFFFFF, Config.freeValue (s.free + 1) % 65536)
      drainRecords (modSampling (freeUsed s 2) n (queueRecord p bytes)) n

/-- The pier issues its instruction: counted, and the deck index moves on. -/
def Issue.issue (i : Issue) (s : State) : State × Bool :=
  let s := modPier s i.pier fun P => { P with index := i.index + 1 }
  sampleTick (countEvent s i.n i.pier 0x01 1) i.n i.pier (opcodeOf i.word)

/-- The context's program has faulted. -/
def faultedIn (s : State) (n : Nat) : Bool := (progAt s n).any fun p => p.st == .faulted

/-- Complete an instruction: effect, then its sample record; where the effect faults the context, the record goes before the
end of the session (R422). A VEC whose lane program has not ended has not completed: its record waits for that end. -/
def sampled (s : State) (n p w index : Nat) (issued ended : Option Nat) (hit : Bool) (effect : State → State) : State :=
  let t := effect s
  if !hit then t
  else if faultedIn t n && !faultedIn s n then effect (takeRecord s n p w index (flag true 3) issued ended)
  else if (pierAt t p).lane.isSome then modPier t p fun P => { P with laneSample := some (BitVec.ofNat 128 w, issued.getD s.time) }
  else takeRecord t n p w index (flag (faultedIn t n) 3) issued ended

/-- Issue and complete at once: effect, sample record, watchdog. -/
def Issue.run (i : Issue) (s : State) (effect : State → State) : State :=
  let (s, hit) := i.issue s
  opDone (sampled s i.n i.pier i.word i.index (some s.time) none hit effect) i.n

/-- An instruction that faults is issued too: it is counted, and a sampled one has its record, with FAULTED (R418, R419, R422). The
deck index stays at it. -/
def issueFaulting (s : State) (n p index w : Nat) : State :=
  let r := sampleTick (countEvent s n p 0x01 1) n p (opcodeOf w)
  if r.2 then takeRecord r.1 n p w index (flag true 3) (some s.time) none else r.1

/-- Fault the context for the instruction at issue (R50, R96). -/
def Issue.fault (i : Issue) (s : State) (address : Nat) : State :=
  pierFault (issueFaulting s i.n i.pier i.index i.word) i.n i.pier i.index address

/-! ### Scratchpad accesses (R80, R81) -/

/-- The uncorrectable word that a range touches first. -/
def badWord (P : Pier) (rs : List Range) : Option Nat :=
  (P.badWords.filter fun w => rs.any fun r => rangesMeet (8 * w) 8 r.start r.bytes).min?.map (8 * ·)

/-- An uncorrectable scratchpad word ends the instruction and faults the context (R81, R104). -/
def padFault (s : State) (n p a : Nat) : State :=
  faultContext (logError s 0x0013 stMemUncorrectable sevFault srcPier (pierTile p) n [1 + p * 256, a, 0]) n stMemUncorrectable

/-- Correct the single-bit errors that a read meets (R81). -/
def correctWords (s : State) (n p : Nat) (rs : List Range) : State :=
  let hit := (pierAt s p).weakWords.filter fun w => rs.any fun r => rangesMeet (8 * w) 8 r.start r.bytes
  let s := modPier s p fun P => { P with weakWords := P.weakWords.filter fun w => !hit.contains w }
  let s := countCtx s n 0 p 15 hit.length
  hit.foldl (fun s w => logError s 0x0010 0 sevInfo srcPier (pierTile p) n [1 + p * 256, 8 * w, 0]) s

/-- Count and correct a read of ranges that hold no uncorrectable word. -/
def touchPad (s : State) (n p : Nat) (rs : List Range) : State :=
  correctWords (countEvent s n p 0x10 (rs.map (·.bytes)).sum) n p rs

/-- The words that a write covers in part (R81). -/
def partWords (ws : List Nat) (a len : Nat) : List Nat :=
  ws.filter fun w => rangesMeet (8 * w) 8 a len && !rangeInside (8 * w) 8 a len

/-- Write scratchpad bytes. A word written whole is good again; one written in part is read first, so that a single-bit error
in it is corrected, counted and logged, and an uncorrectable word stays uncorrectable (R81; log 113). -/
def writePad (s : State) (n p a : Nat) (bs : List Byte) : State :=
  let s := correctWords s n p ((partWords (pierAt s p).weakWords a bs.length).map fun w => { start := 8 * w, bytes := 8 })
  let s := modPier s p fun P =>
    { P with
      mem := P.mem.write a bs
      badWords := P.badWords.filter fun w => !rangeInside (8 * w) 8 a bs.length
      weakWords := P.weakWords.filter fun w => !rangesMeet (8 * w) 8 a bs.length }
  countEvent s n p 0x11 bs.length

/-! ### LOAD_W (R74, R77, R78, R98) -/

/-- The plane that LOAD_W fills: cells of the loaded rows and columns, scales of the loaded blocks. -/
def loadedPlane (P : Pier) (i : LoadW) (index : Nat) : Plane :=
  let width := elemBits i.format
  { format := some i.format
    rows := (List.range i.krows).map fun k =>
      unpack width i.ncols (P.mem.read (i.wAddr + k * i.wStride) (ceilDiv (i.ncols * width) 8))
    scales := if i.format = 0 then [] else
      (List.range (ceilDiv i.krows 32)).flatMap fun b =>
        ((P.mem.read (i.scaleAddr + 128 * b) i.ncols).map (·.toNat)) ++ List.replicate (128 - i.ncols) 0x7F
    loadedAt := some index }

/-- Read the rows of LOAD_W in order, up to the first that meets an uncorrectable word (R104): fuel and row. -/
def loadRows (n p : Nat) (x : LoadW) : Nat → Nat → State → State × Option (Nat × Nat)
  | 0, _, s => (s, none)
  | f + 1, k, s =>
    match badWord (pierAt s p) (x.rowReads k) with
    | some a => (s, some (k, a))
    | none => loadRows n p x f (k + 1) (touchPad s n p (x.rowReads k))

/-- A plane of which only the first k rows are filled anew (R104). -/
def Plane.filledTo (old new : Plane) (k : Nat) : Plane := { new with rows := new.rows.take k ++ old.rows.drop k }

def setPlane (P : Pier) (plane : Bool) (x : Plane) : Pier := if plane then { P with plane1 := x } else { P with plane0 := x }

def planeOf (P : Pier) (plane : Bool) : Plane := if plane then P.plane1 else P.plane0

/-- LOAD_W: fill a weight plane from the scratchpad. -/
def execLoadW (pier : Nat) (s0 : State) : Host.Outcome State Fault Refusal :=
  .next (atPier s0 pier (· == 0x01) fun s i =>
    let x := loadWOf i.word
    if !wordOk i.word then i.fault s 0
    else
      match outside i.im pier x.reads with
      | some a => i.fault s a
      | none =>
        if !scoreFree (pierAt s pier) x.reads [] none none then s0
        else
          i.run s fun s =>
            match loadRows i.n pier x x.krows 0 s with
            | (s, some (k, a)) =>
              let part := fun P => (planeOf P x.plane).filledTo (loadedPlane P x i.index) k
              padFault (modPier s pier fun P => setPlane P x.plane (part P)) i.n pier a
            | (s, none) =>
              countEvent (modPier s pier fun P => setPlane P x.plane (loadedPlane P x i.index)) i.n pier 0x04 1)

/-! ### PASS (R70, R71, R84, R97, R132 to R134) -/

/-- A stored cell. One that no LOAD_W filled counts as a stored +0, so that an infinite or NaN streamed element makes its
product NaN there too (R78, R116, R438; log 15). -/
def cellOf (pl : Plane) (k n : Nat) : Elem :=
  match pl.format with
  | none => { val := .fin false 0 0, scale := some 0 }
  | some f =>
    { val := decodeFloat (arrayFmt f) (((pl.rows[k]?).getD []).getD n 0)
      scale := if f = 0 then some 0 else scaleExp (pl.scales.getD (128 * (k / 32) + n) 0x7F) }

/-- What row m of a pass fetches. -/
def rowFetches (i : Pass) (win : Option Window) (m : Nat) : List Range :=
  match win with
  | some d => (List.range d.channels).filterMap fun k => (windowElement d i m k).1.map fun a => { start := a, bytes := 2 }
  | none =>
    { start := i.inAddr + m * i.inStride, bytes := rowBytes i.streamed }
      :: (if i.streamed = 0 then [] else [{ start := i.scaleAddr + 4 * m, bytes := 4 }])

/-- The 128 streamed elements of row m (R97, R133, R134). -/
def streamedRow (mem : Memory) (i : Pass) (win : Option Window) (m : Nat) : List Elem :=
  match win with
  | some d => (List.range 128).map fun k =>
      match windowElement d i m k with
      | (some a, _) => { val := decodeFloat fBinary16 (leNat (mem.read a 2)), scale := some 0 }
      | (none, v) => { val := decodeFloat fBinary16 v, scale := some 0 }
  | none =>
    let codes := unpack (elemBits i.streamed) 128 (mem.read (i.inAddr + m * i.inStride) (rowBytes i.streamed))
    codes.zipIdx.map fun c =>
      { val := decodeFloat (arrayFmt i.streamed) c.1
        scale := if i.streamed = 0 then some 0 else scaleExp ((mem.get (i.scaleAddr + 4 * m + c.2 / 32)).toNat) }

/-- The products of one chain: column j in a plain read, row j in a transposed one (R70, R71). -/
def chainProducts (pl : Plane) (transposed : Bool) (xs : List Elem) (j : Nat) : List Prod :=
  xs.zipIdx.map fun x => x.1.prod (if transposed then cellOf pl j x.2 else cellOf pl x.2 j)

/-- The chains of row m: results, and how many spans exceed the pair's headroom (R119). -/
def rowChains (P : Pier) (i : Pass) (win : Option Window) (m : Nat) : List Nat × Nat :=
  let xs := streamedRow P.mem i win m
  let ps := (List.range 128).map (chainProducts (planeOf P i.plane) i.transposed xs)
  (ps.map chain, (ps.filter fun q => decide (headroom i.streamed i.stored < chainSpan q)).length)

/-- The rows of a pass up to the first that meets an uncorrectable word: fuel, row, results so far (R104). -/
def passRows (P : Pier) (i : Pass) (win : Option Window) : Nat → Nat → List (List Nat) × Nat × Option Nat
  | 0, _ => ([], 0, none)
  | f + 1, m =>
    match badWord P (rowFetches i win m) with
    | some a => ([], 0, some a)
    | none =>
      let (ys, spans) := rowChains P i win m
      let (rest, n, bad) := passRows P i win f (m + 1)
      (ys :: rest, spans + n, bad)

/-- Issue beats of M rows (R76). -/
def issueBeats (i : Pass) (rows : Nat) : Nat :=
  if i.streamed = 0 ∧ i.stored = 0 then 2 * rows
  else if 3 ≤ i.streamed ∧ 3 ≤ i.stored then ceilDiv rows 2
  else rows

/-- Row m is supplied as +0 without a fetch (R133). -/
def zeroRow (i : Pass) (win : Option Window) (m : Nat) : Bool :=
  win.any fun d => (List.range 128).all fun k => windowElement d i m k == (none, 0)

/-- Count a pass (R410). -/
def countPass (s : State) (i : Issue) (x : Pass) : State := countEvent s i.n i.pier (if x.transposed then 0x03 else 0x02) 1

/-- The pass runs: its rows enter the array, and their chain results wait in the drain path (R84). -/
def startPass (s : State) (i : Issue) (x : Pass) (win : Option Window) : State :=
  let reads := x.streams win
  let P := pierAt s i.pier
  let (s, hit) := i.issue s
  let (rows, spans, bad) := passRows P x win x.rows 0
  let s := touchPad s i.n i.pier ((List.range rows.length).flatMap (rowFetches x win))
  let s := countCtx (countCtx s i.n 0 i.pier 12 (issueBeats x rows.length)) i.n 0 i.pier 14 spans
  let s := countPass s i x
  let idle := ((List.range rows.length).filter (zeroRow x win)).length
  let s := countEvent s i.n i.pier 0x0F idle
  let out : Outstanding :=
    { index := i.index, word := BitVec.ofNat 128 i.word, reads, writes := [], accumulates := some x.accRange
      sampled := if hit && bad.isNone then some s.time else none }
  let item : PassInFlight := { index := i.index, accumulator := x.accAddr, first := x.first, nextRow := 0, rows, slot := false }
  let s := if rows.isEmpty then s else
    modPier s i.pier fun P => { P with score := P.score ++ [out], drain := P.drain ++ [.pass item] }
  match bad with
  | none => s
  | some a => padFault (if hit then takeRecord s i.n i.pier i.word i.index (flag true 3) (some s.time) (some s.time) else s) i.n i.pier a

/-- The window descriptor that a PASS of mode 1 names, read at issue; nothing where it is uncorrectable (R255). -/
def fetchWindow (s : State) (i : Issue) (x : Pass) : State × Option (Option Window) :=
  if x.mode = 1 then
    match readOrFault s (pierReader i.n i.pier) (windowAddr i.im i.pier x.window) 32 with
    | (s, none) => (s, none)
    | (s, some bs) => (s, some (some (windowOf bs)))
  else (s, some none)

/-- PASS: stream rows through the array. A window index at or above the descriptors of the pier, for which no rule gives an
outcome, faults the context (DESIGN CHOICE, log 23). -/
def execPass (pier : Nat) (s0 : State) : Host.Outcome State Fault Refusal :=
  .next (atPier s0 pier (· == 0x02) fun s i =>
    let x := passOf i.word
    if !wordOk i.word then i.fault s 0
    else
      let P := pierAt s pier
      let recorded := (planeOf P x.plane).format
      if recorded.any (· != x.stored) then i.fault s 0
      else if x.mode = 1 ∧ windowCount i.im pier ≤ x.window then i.fault s 0
      else
        match fetchWindow s i x with
        | (s, none) => s
        | (s, some win) =>
          if win.any Window.empty then i.run s fun s => countPass s i x
          else
            match outside i.im pier (x.accRange :: x.streams win) with
            | some a => i.fault s a
            | none =>
              if scoreFree P (x.streams win) [] (if x.first then none else some x.accRange) (some x.accRange) then startPass s i x win
              else s0)

/-- An effect of an outstanding instruction that ends its sampling: its record is written with it (R422). -/
def sampledOnce (s : State) (n p index : Nat) (effect : State → State) : State :=
  let o := (pierAt s p).score.find? fun o => o.index == index
  let hit := o.bind (·.sampled)
  let s := modPier s p fun P => { P with score := P.score.map fun o => if o.index = index then { o with sampled := none } else o }
  sampled s n p ((o.map (·.word.toNat)).getD 0) index hit (some s.time) hit.isSome effect

/-- Complete an outstanding instruction with the last of its effect. -/
def finishOutstanding (s : State) (n p index : Nat) (effect : State → State) : State :=
  let s := sampledOnce s n p index effect
  opDone (modPier s p fun P => { P with score := P.score.filter fun o => o.index != index }) n

/-- The new pairs of a row: 128 chain results added in by R120. -/
def addRow (old : List Byte) (first : Bool) (cs : List Nat) : List Byte :=
  cs.zipIdx.flatMap fun c =>
    let pair := if first then accumulate 0 0 c.1 else accumulate (field old (8 * c.2) 4) (field old (8 * c.2 + 4) 4) c.1
    leBytes 4 pair.1 ++ leBytes 4 pair.2

/-- The oldest pass of the drain path. -/
def oldestPass : List DrainItem → Option PassInFlight
  | [] => none
  | .pass p :: _ => some p
  | .drain _ _ :: t => oldestPass t

/-- Replace or remove the oldest pass. -/
def putPass : List DrainItem → Option PassInFlight → List DrainItem
  | [], _ => []
  | .pass _ :: t, some p => .pass p :: t
  | .pass _ :: t, none => t
  | .drain i w :: t, x => .drain i w :: putPass t x

/-- The next row of a pass is done: after the last one the pass releases its slot and completes (R84). -/
def rowDone (s : State) (n pier : Nat) (p : PassInFlight) : State :=
  if p.rows.length ≤ 1 then finishOutstanding (modPier s pier fun P => { P with drain := putPass P.drain none }) n pier p.index id
  else
    modPier s pier fun P =>
      { P with drain := putPass P.drain (some { p with nextRow := p.nextRow + 1, rows := p.rows.tail, slot := true }) }

/-- PASS_ROW_WRITEBACK: the next row of the oldest pass is added into its accumulator and written back (R84, R85). A row whose
pairs meet an uncorrectable word is not; the rows behind it, already in the array, still are (R104). -/
def execPassRowWriteback (pier : Nat) (s : State) : Host.Outcome State Fault Refusal :=
  .next (match s.sched.active, oldestPass (pierAt s pier).drain with
    | some n, some p =>
      let a := p.accumulator + p.nextRow * 1024
      let r : List Range := if p.first then [] else [{ start := a, bytes := 1024 }]
      match badWord (pierAt s pier) r with
      | some b => rowDone (sampledOnce s n pier p.index fun s => padFault s n pier b) n pier p
      | none =>
        let s := touchPad s n pier r
        rowDone (writePad s n pier a (addRow ((pierAt s pier).mem.read a 1024) p.first (p.rows.headD []))) n pier p
    | _, _ => s)

/-! ### DRAIN (R86, R87, R100) -/

/-- DRAIN: its token joins the drain path's queue (R86). -/
def execDrain (pier : Nat) (s0 : State) : Host.Outcome State Fault Refusal :=
  .next (atPier s0 pier (· == 0x03) fun s i =>
    let x := drainOf i.word
    if !wordOk i.word then i.fault s 0
    else
      match outside i.im pier (x.accRange :: x.writes :: x.fuseReads) with
      | some a => i.fault s a
      | none =>
        if scoreFree (pierAt s pier) x.fuseReads [x.writes] (some { start := x.accAddr, bytes := x.accRange.bytes }) none then
          let (s, hit) := i.issue s
          let out : Outstanding :=
            { index := i.index, word := BitVec.ofNat 128 i.word, reads := x.accRange :: x.fuseReads, writes := [x.writes], accumulates := none
              sampled := if hit then some s.time else none }
          modPier s pier fun P =>
            { P with score := P.score ++ [out], drain := P.drain ++ [.drain i.index (BitVec.ofNat 128 i.word)] }
        else s0)

/-- The output row m of a DRAIN (R87). -/
def drainRow (mem : Memory) (x : Drain) (m : Nat) : List Byte :=
  let acc := mem.read (x.accAddr + m * 1024) (8 * x.cols)
  let fuse := if x.fuse = 0 then [] else mem.read (x.fuseAddr + m * x.fuseStride) (x.cols * drainBytes x.fuseFmt)
  (List.range x.cols).flatMap fun n =>
    leBytes (drainBytes x.outFmt)
      (drainElement (field acc (8 * n) 4) (field acc (8 * n + 4) 4) x.fuse x.fuseFmt
        (field fuse (n * drainBytes x.fuseFmt) (drainBytes x.fuseFmt)) x.outFmt)

/-- What row m of a DRAIN reads. -/
def drainReads (x : Drain) (m : Nat) : List Range :=
  { start := x.accAddr + m * 1024, bytes := 8 * x.cols }
    :: (if x.fuse = 0 then [] else [{ start := x.fuseAddr + m * x.fuseStride, bytes := x.cols * drainBytes x.fuseFmt }])

/-- The rows of a DRAIN in order, up to the first uncorrectable word (R104), and its completion: fuel and row. -/
def drainRows (n p : Nat) (x : Drain) : Nat → Nat → State → State
  | 0, _, s => countEvent s n p 0x05 1
  | f + 1, m, s =>
    match badWord (pierAt s p) (drainReads x m) with
    | some a => padFault s n p a
    | none =>
      let s := touchPad s n p (drainReads x m)
      drainRows n p x f (m + 1) (writePad s n p (x.outAddr + m * x.outStride) (drainRow (pierAt s p).mem x m))

/-- The oldest DRAIN of the drain path, with the passes queued before it. -/
def oldestDrain : List DrainItem → List PassInFlight → Option (Nat × Nat × List PassInFlight)
  | [], _ => none
  | .pass p :: t, ps => oldestDrain t (ps ++ [p])
  | .drain i w :: _, ps => some (i, w.toNat, ps)

def dropDrain : List DrainItem → List DrainItem
  | [] => []
  | .pass p :: t => .pass p :: dropDrain t
  | .drain _ _ :: t => t

/-- Tile slots that passes hold (R84). -/
def slotsHeld (l : List DrainItem) : Nat := (l.filter fun x => match x with
  | .pass p => p.slot
  | .drain _ _ => false).length

/-- DRAIN_BIND: the oldest DRAIN takes a free slot once every earlier PASS into its accumulator is done, and runs (R86). -/
def execDrainBind (pier : Nat) (s : State) : Host.Outcome State Fault Refusal :=
  .next (match s.sched.active, oldestDrain (pierAt s pier).drain [] with
    | some n, some (index, w, ps) =>
      let x := drainOf w
      if ps.any (fun p => rangesMeet p.accumulator ((p.nextRow + p.rows.length) * 1024) x.accRange.start x.accRange.bytes)
          || decide (2 ≤ slotsHeld (pierAt s pier).drain) then s
      else
        let s := modPier s pier fun P => { P with drain := dropDrain P.drain }
        finishOutstanding s n pier index (drainRows n pier x x.rows 0)
    | _, _ => s)

/-! ### ACC_WRITE (10 R258, R259) -/

/-- Add a source tile into the stored buffer; uncorrectable blocks stay unchanged (R255). An uncorrectable word in the Footing's
arithmetic path voids the whole addition (R254; log 118). -/
def accumulateHbm (s0 : State) (r : Reader) (fmt a : Nat) (source : List Byte) : State :=
  let (s, path) := footPath s0 ((stackOf a).getD 0) a r.ctx
  if path then memoryFault s r
  else
    let s := correctRange (copyFirst s a source.length) a source.length
    let bad := s.hbm.badIn a source.length
    let m := s.hbm.mem.write a (accWriteBytes fmt (s.hbm.mem.read a source.length) source)
    let keep := bad.foldl (fun m b => Memory.copyFrom m s.hbm.mem (64 * b) (64 * b) 64) m
    let s := count { s with hbm := { s.hbm with mem := keep } } 5 ((stackOf a).getD 0) 2 source.length
    if bad.isEmpty then s else memoryFault (bad.foldl (logUncorrectable r 1) s) r

/-- A write by the program into HBM stays in its regions and out of FROZEN ranges (R50, R159). -/
def mayWrite (im : Image) (a len : Nat) : Bool :=
  inRegions im a len && inGeneral a len && !(im.decls.frozen.any fun g => rangesMeet a len g.1 g.2)

def mayRead (im : Image) (a len : Nat) : Bool := inRegions im a len && inGeneral a len

/-- Bytes before the uncorrectable word that a read of the scratchpad meets first. -/
def goodBytes (P : Pier) (a len : Nat) : Nat :=
  match badWord P [{ start := a, bytes := len }] with
  | none => len
  | some b => b - a

/-- Bytes of the aligned 32-byte units before that word: each unit is read, added and written as one step (10 R259). -/
def goodUnits (P : Pier) (a len : Nat) : Nat := goodBytes P a len / 32 * 32

/-- ACC_WRITE: the Footing adds a source tile into HBM. -/
def execAccWrite (pier : Nat) (s0 : State) : Host.Outcome State Fault Refusal :=
  .next (atPier s0 pier (· == 0x05) fun s i =>
    let g := generalOf i.word
    let src : Range := { start := g.a, bytes := g.length }
    let dst : Range := { start := hbmSpace + g.b, bytes := g.length }
    if !wordOk i.word then i.fault s 0
    else
      match outside i.im pier [src] with
      | some a => i.fault s a
      | none =>
        if !mayWrite i.im g.b g.length then i.fault s (lo32 g.b)
        else if !scoreFree (pierAt s pier) [src, dst] [dst] none none then s0
        else
          i.run s fun s =>
            let k := goodUnits (pierAt s pier) g.a g.length
            let s := touchPad s i.n pier [{ start := g.a, bytes := k }]
            let s := countEvent s i.n pier 0x0E k
            let s := if k = 0 then s else accumulateHbm s (pierReader i.n pier) (g.flags % 2) g.b ((pierAt s pier).mem.read g.a k)
            match badWord (pierAt s pier) [src] with
            | some a => padFault s i.n pier a
            | none => s)

/-! ### COPY (R95, R96) -/

/-- HBM to the own scratchpad, up to the first uncorrectable block (R104). -/
def copyIn (s : State) (i : Issue) (g : General) : State :=
  let r := pierReader i.n i.pier
  let good := match (s.hbm.badIn g.b g.length).min? with
    | none => g.length
    | some b => 64 * b - g.b
  let s := match readHbm s r g.b good with
    | (s, some bs) => countEvent (writePad s i.n i.pier g.a bs) i.n i.pier 0x0C bs.length
    | (s, none) => s
  if good < g.length then (readOrFault s r (g.b + good) (g.length - good)).1 else s

/-- Own scratchpad to HBM or to another pier of the stage. -/
def copyOut (s : State) (i : Issue) (g : General) : State :=
  let p := i.pier
  let k := goodBytes (pierAt s p) g.a g.length
  let bs := (pierAt s p).mem.read g.a k
  let s := countEvent (touchPad s i.n p [{ start := g.a, bytes := k }]) i.n p 0x0D k
  let other := pierTile p * 128 + g.index
  let s := if g.toPier then countEvent (writePad s i.n other g.b bs) i.n other 0x0C k
    else writeOrFault s (pierReader i.n p) g.b bs
  match badWord (pierAt s p) [{ start := g.a, bytes := g.length }] with
  | some a => padFault s i.n p a
  | none => s

/-- The pier that a COPY names is one of the same stage on this tile, the issuing pier among them (log 114), and its range lies in
that pier's SCRATCH (R95). -/
def copyTargetOk (i : Issue) (g : General) : Bool :=
  let other := pierTile i.pier * 128 + g.index
  decide (g.index < 128) && stageOfPier i.im.decls other == stageOfPier i.im.decls i.pier
    && (outside i.im other [{ start := g.b, bytes := g.length }]).isNone

/-- COPY: bytes between a scratchpad and HBM, or between scratchpads. The pier named may be the issuing one, whose own range is
then written (log 114). -/
def execCopy (pier : Nat) (s0 : State) : Host.Outcome State Fault Refusal :=
  .next (atPier s0 pier (· == 0x06) fun s i =>
    let g := generalOf i.word
    let own : Range := { start := g.a, bytes := g.length }
    let far : Range := { start := hbmSpace + g.b, bytes := g.length }
    if !wordOk i.word then i.fault s 0
    else
      match outside i.im pier [own] with
      | some a => i.fault s a
      | none =>
        if g.toPier && !copyTargetOk i g then i.fault s (lo32 g.b)
        else if g.flags == 0 && !mayRead i.im g.b g.length then i.fault s (lo32 g.b)
        else if g.flags == 1 && !mayWrite i.im g.b g.length then i.fault s (lo32 g.b)
        else
          let reads := if g.flags = 0 then [far] else [own]
          let there : Range := { start := g.b, bytes := g.length }
          let self := pierTile pier * 128 + g.index == pier
          let writes := if g.flags = 0 then [own] else if g.toPier then (if self then [there] else []) else [far]
          if !scoreFree (pierAt s pier) reads writes none none then s0
          else i.run s fun s => if g.flags = 0 then copyIn s i g else copyOut s i g)

/-- OPCODE_NOT_IN_TABLE: a pier reaches an undefined opcode (R96). -/
def execOpcodeNotInTable (pier : Nat) (s : State) : Host.Outcome State Fault Refusal :=
  .next (atPier s pier (fun op => !opcodes.contains op) fun s i => i.fault s 0)

end Sys2Proof.Machine
end

