-- ==== Sys2Proof/Machine/Slots.lean ====
section
/-! DEFINITION. Queue slots: descriptors and segment tables (07 R184, R185), slots in the Span buffer or in their homes (07 R190),
queue policies (07 R191), filling, taking and releasing a slot (07 R186, R188), links' credit (07 R179). -/

namespace Sys2Proof.Machine

/-! ### Descriptors and segment tables -/

/-- The 64 bytes of a descriptor (R184). -/
def encodeDesc (d : Desc) : List Byte :=
  leBytes 4 d.mbId ++ leBytes 4 d.step ++ leBytes 4 d.feedTag ++ leBytes 4 d.tokens ++ leBytes 4 d.payloadBytes
    ++ leBytes 4 d.version ++ leBytes 2 d.segCount ++ leBytes 1 (flag d.last 0 + flag d.bwd 1 + flag d.joined 2)
    ++ leBytes 1 0 ++ leBytes 4 d.origin ++ leBytes 32 0

def decodeDesc (b : List Byte) : Desc :=
  { mbId := field b 0 4, step := field b 4 4, feedTag := field b 8 4, tokens := field b 12 4, payloadBytes := field b 16 4,
    version := field b 20 4, segCount := field b 24 2, last := bit (field b 26 1) 0, bwd := bit (field b 26 1) 1,
    joined := bit (field b 26 1) 2, origin := field b 28 4 }

/-- The 8 bytes of a segment table entry (R185). -/
def encodeSeg (g : Seg) : List Byte := leBytes 4 g.length ++ leBytes 2 g.segId ++ leBytes 1 g.modality ++ leBytes 1 0

def decodeSeg (b : List Byte) : Seg := { length := field b 0 4, segId := field b 4 2, modality := field b 6 1 }

/-- The entries of a segment table's bytes. -/
def decodeSegs (b : List Byte) (n : Nat) : List Seg := (List.range n).map fun i => decodeSeg (slice b (8 * i) 8)

/-! ### Where a slot's bytes lie (R183, R187, R190) -/

def remote : Nat := 0xFFFE

def classOf (im : Image) (d : QueueDecl) : SlotClass :=
  im.decls.slotClasses.getD d.slotClass { payloadMax := 32, maxTokens := 1, segMax := 0 }

/-- Offset of the payload in a slot of the class (R183). -/
def payloadOffset (c : SlotClass) : Nat := 64 + 8 * c.segMax

/-- Bytes of a slot: rounded up to 4 KiB (R183). -/
def slotSize (c : SlotClass) : Nat := ceilDiv (payloadOffset c + c.payloadMax) 4096 * 4096

/-- The tile whose Span engine hosts the queue (R175). -/
def hostTile (im : Image) (d : QueueDecl) : Nat := homeTile im.decls d.consumer

/-- The home of slot i, where the tile has a spill range (R187). -/
def slotHome (im : Image) (d : QueueDecl) (i : Nat) : Option Nat :=
  (im.decls.spanBuffers.find? fun b => b.tile = hostTile im d).map fun b =>
    b.spillAddr + d.home * 4096 + i * slotSize (classOf im d)

def Slot.empty : Slot :=
  { st := .free, resident := false, buf := [], fetched := false, bad := [], weak := [], segsSeen := 0 }

def slotAt (x : SpanQueue) (i : Nat) : Slot := x.slots.getD i .empty

def modSlot (s : State) (n q i : Nat) (f : Slot → Slot) : State :=
  modSpanQueue s n q fun x => { x with slots := modAt x.slots i f }

/-- The slot is filled and read in the Span buffer: it is resident and its context is active and not in a switch, or it has no
home (R190, R360). -/
def buffered (s : State) (n : Nat) (home : Option Nat) (x : Slot) : Bool :=
  home.isNone || (x.resident && s.sched.active == some n && s.sched.incoming.isNone)

/-- A confinement fault of the Span engine that hosts a queue (R50, R159). -/
def spanFault (s : State) (n : Nat) (im : Image) (x : SpanQueue) (a : Nat) : State :=
  confine s n srcPylon (hostTile im x.decl) [hostTile im x.decl, x.decl.queue, lo32 a]

/-- A transfer over a tile's spill path to or from HBM address a: a single-bit error there is corrected and recorded; an
uncorrectable one faults the context, and nothing is handed on (R190, R441). Answers whether it was uncorrectable. -/
def spillPath (s : State) (n tile a : Nat) : State × Bool :=
  let detail := [3 + tile * 256, lo32 a, a / 2 ^ 32]
  if s.pylon.spillBad.contains tile then
    let s := { s with pylon := { s.pylon with spillBad := s.pylon.spillBad.erase tile } }
    (faultContext (logError s 0x0013 stMemUncorrectable sevFault srcPylon tile n detail) n stMemUncorrectable, true)
  else if s.pylon.spillWeak.contains tile then
    let s := { s with pylon := { s.pylon with spillWeak := s.pylon.spillWeak.erase tile } }
    (logError s 0x0010 0 sevInfo srcPylon tile n detail, false)
  else (s, false)

/-- Record a word of the Span buffer: its offset in the buffer is a free value (R441; log 119). -/
def logBuffer (cause status severity n tile : Nat) (s : State) : State :=
  logError (freeUsed s 1) cause status severity srcPylon tile n [2 + tile * 256, freeBelow s (96 * mib), 0]

/-- Correct the single-bit errors of a slot in the Span buffer that an access meets (R190). -/
def correctSlot (s : State) (n : Nat) (im : Image) (x : SpanQueue) (i : Nat) (hit : List Nat) : State :=
  let s := modSlot s n x.decl.queue i fun y => { y with weak := y.weak.filter fun w => !hit.contains w }
  hit.foldl (fun s _ => logBuffer 0x0010 0 sevInfo n (hostTile im x.decl) s) s

/-- Write bytes of a slot: into the Span buffer, where a word written whole is good again and one written in part is corrected
first (R81, R190), or into its home, outside FROZEN ranges (R159). -/
def writeSlot (s : State) (n : Nat) (im : Image) (x : SpanQueue) (i off : Nat) (bs : List Byte) : State :=
  match slotHome im x.decl i, buffered s n (slotHome im x.decl i) (slotAt x i) with
  | some h, false =>
    if !mayWrite im (h + off) bs.length then spanFault s n im x (h + off)
    else
      match spillPath s n (hostTile im x.decl) (h + off) with
      | (s, true) => s
      | (s, false) =>
        writeOrFault (countCtx s n 2 x.decl.queue 4 bs.length) (spanReader n (hostTile im x.decl)) (h + off) bs
  | _, _ =>
    let s := correctSlot s n im x i (partWords (slotAt x i).weak off bs.length)
    modSlot s n x.decl.queue i fun y =>
      { y with
        buf := y.buf.write off bs
        bad := y.bad.filter fun w => !rangeInside (8 * w) 8 off bs.length
        weak := y.weak.filter fun w => !rangesMeet (8 * w) 8 off bs.length }

/-- An uncorrectable word of a slot in the Span buffer (R190). -/
def slotFault (s : State) (n : Nat) (im : Image) (x : SpanQueue) : State :=
  faultContext (logBuffer 0x0013 stMemUncorrectable sevFault n (hostTile im x.decl) s) n stMemUncorrectable

/-- Words of a list that a range of a slot touches. -/
def wordsIn (ws : List Nat) (off len : Nat) : List Nat := ws.filter fun w => rangesMeet (8 * w) 8 off len

/-- Read bytes of a slot: single-bit errors are corrected, uncorrectable words hand nothing on (R190). -/
def readSlot (s : State) (n : Nat) (im : Image) (x : SpanQueue) (i off len : Nat) : State × Option (List Byte) :=
  match slotHome im x.decl i, buffered s n (slotHome im x.decl i) (slotAt x i) || (slotAt x i).fetched with
  | some h, false =>
    match spillPath s n (hostTile im x.decl) (h + off) with
    | (s, true) => (s, none)
    | (s, false) => readOrFault (countCtx s n 2 x.decl.queue 4 len) (spanReader n (hostTile im x.decl)) (h + off) len
  | _, _ =>
    if !(wordsIn (slotAt x i).bad off len).isEmpty then (slotFault s n im x, none)
    else (correctSlot s n im x i (wordsIn (slotAt x i).weak off len), some ((slotAt x i).buf.read off len))

/-! ### Queue policies (R191) -/

def policyOf (im : Image) (q : Nat) : List PolicyOp :=
  ((im.policies.filter fun o => o.queue = q).take 8).takeWhile fun o => o.op != 0

/-- The slots outside FREE. -/
def occupancy (x : SpanQueue) : Nat := (x.slots.filter fun y => y.st != .free).length

/-- PLACE: the named slots that are FREE take their place. -/
def placeSlots (x : SpanQueue) (o : PolicyOp) : SpanQueue :=
  let place := fun y : Slot × Nat =>
    if y.1.st == .free && decide (o.first ≤ y.2 ∧ y.2 < o.first + o.count) then { y.1 with resident := !o.spilled } else y.1
  { x with slots := x.slots.zipIdx.map place }

/-- Slots from the head on, in FIFO order. -/
def fifo (x : SpanQueue) : List Nat := (List.range x.slots.length).map fun i => (x.headAt + i) % x.slots.length

/-- PREFETCH: copy a spilled FULL slot into the Span buffer. -/
def prefetchSlot (n : Nat) (im : Image) (q : Nat) (s : State) (i : Nat) : State :=
  match (progAt s n).bind fun p => spanQueueAt p q with
  | none => s
  | some x =>
    if (slotAt x i).fetched || buffered s n (slotHome im x.decl i) (slotAt x i) then s
    else
      let c := classOf im x.decl
      match readSlot s n im x i 0 (payloadOffset c + c.payloadMax) with
      | (s, none) => s
      | (s, some bs) => modSlot s n q i fun y => { y with buf := Memory.write [] 0 bs, fetched := true, bad := [], weak := [] }

/-- What a policy reacts to. -/
inductive SlotEvent
  | launched
  | filled
  | released
  deriving DecidableEq, Repr

/-- The occupancy crosses the MARK level at this event. -/
def crossesMark (x : SpanQueue) (e : SlotEvent) (level : Nat) : Bool :=
  match e with
  | .launched => false
  | .filled => occupancy x == level
  | .released => occupancy x + 1 == level

/-- One operation of a policy. -/
def policyOp (n : Nat) (im : Image) (e : SlotEvent) (s : State) (o : PolicyOp) : State :=
  match (progAt s n).bind fun p => spanQueueAt p o.queue with
  | none => s
  | some x =>
    if o.op = 1 then modSpanQueue s n o.queue fun x => placeSlots x o
    else if o.op = 2 then
      (((fifo x).filter fun i => (slotAt x i).st == .full && !(slotAt x i).resident).take o.count).foldl
        (prefetchSlot n im o.queue) s
    else if o.op = 3 ∧ crossesMark x e o.count then countCtx s n 2 o.queue 3 1
    else s

/-- Run the policy of a queue (R191). -/
def runPolicy (s : State) (n : Nat) (im : Image) (q : Nat) (e : SlotEvent) : State :=
  (policyOf im q).foldl (policyOp n im e) s

/-! ### Filling, taking and releasing (R186, R188) -/

/-- The next slot is FREE and the queue is open (R188, R189). -/
def hasRoom (x : SpanQueue) : Bool := x.st == .opened && (slotAt x x.fillAt).st == .free

/-- The head slot is FULL and the queue is open. -/
def hasFull (x : SpanQueue) : Bool := x.st == .opened && (slotAt x x.headAt).st == .full

/-- A slot becomes FULL. -/
def fullSlot (s : State) (n : Nat) (im : Image) (q i : Nat) : State :=
  runPolicy (modSlot s n q i fun y => { y with st := .full }) n im q .filled

/-- A slot takes its descriptor: FREE to FILLING, the next slot after it. -/
def beginSlot (s : State) (n q i : Nat) : State :=
  let s := modSlot s n q i fun y => { y with st := .filling, buf := [], fetched := false, bad := [], weak := [], segsSeen := 0 }
  let s := modSpanQueue s n q fun x => { x with fillAt := (i + 1) % x.slots.length }
  match (progAt s n).bind fun p => spanQueueAt p q with
  | none => s
  | some x => highCtx s n 2 q 2 (occupancy x)

/-- The occupancy that a queue reached before its program started, or while its context was inactive, counts as it runs (R203, R204). -/
def raiseHigh (n : Nat) (s : State) (x : SpanQueue) : State := highCtx s n 2 x.decl.queue 2 (occupancy x)

/-- Fill the next slot of a local queue whole. -/
def fillSlot (s : State) (n : Nat) (im : Image) (q : Nat) (desc : Desc) (segs : List Seg) (payload : List Byte) : State :=
  match (progAt s n).bind fun p => spanQueueAt p q with
  | none => s
  | some x =>
    let i := x.fillAt
    let s := beginSlot s n q i
    let s := writeSlot s n im x i 0 (encodeDesc desc ++ segs.flatMap encodeSeg)
    let s := writeSlot s n im x i (payloadOffset (classOf im x.decl)) payload
    if faultedIn s n then s else fullSlot s n im q i

/-- The descriptor, segment table and payload of the head slot. -/
def readHead (s : State) (n : Nat) (im : Image) (x : SpanQueue) : State × Option (Desc × List Seg × List Byte) :=
  match readSlot s n im x x.headAt 0 64 with
  | (s, none) => (s, none)
  | (s, some b) =>
    let d := decodeDesc b
    match readSlot s n im x x.headAt 64 (8 * d.segCount) with
    | (s, none) => (s, none)
    | (s, some g) =>
      match readSlot s n im x x.headAt (payloadOffset (classOf im x.decl)) d.payloadBytes with
      | (s, none) => (s, none)
      | (s, some pl) => (s, some (d, decodeSegs g d.segCount, pl))

/-- The head becomes HELD. -/
def holdHead (s : State) (n q : Nat) : State :=
  modSpanQueue s n q fun x =>
    { x with slots := modAt x.slots x.headAt fun y => { y with st := .held }, headAt := (x.headAt + 1) % x.slots.length }

/-- The oldest HELD slot becomes FREE; the hosting end of a remote queue sends CREDIT (R179). -/
def releaseSlot (s : State) (n : Nat) (im : Image) (q : Nat) : State :=
  let free := fun y : Slot => { y with st := .free, buf := [], fetched := false, bad := [], weak := [], segsSeen := 0 }
  let s := modSpanQueue s n q fun x =>
    { x with slots := modAt x.slots x.heldAt free, heldAt := (x.heldAt + 1) % x.slots.length }
  let s := match linkAt s n q with
    | none => s
    | some L =>
      let s := modLink s n q fun L => { L with released := add32 L.released 1 }
      sendSpan s n q 0x03 0 (add32 L.released 1) []
  runPolicy s n im q .released

/-! ### The sending end (R178, R179) -/

/-- Credit of a sending end: depth − (slots sent − cumulative RELEASE count). -/
def linkCredit (d : QueueDecl) (L : SpanLink) : Nat := d.depth - sub32 L.sent L.released

/-- A target queue of a PUSH or FORK has a free slot, or credit. The rules do not say what a later PUSH meets on a link that CLOSE ended
quietly; it goes by credit as before (DESIGN CHOICE, log 132). -/
def targetRoom (x : SpanQueue) : Bool :=
  match x.link with
  | some L => if L.sending then x.st == .opened && decide (0 < linkCredit x.decl L) else hasRoom x
  | none => hasRoom x

/-- Chunks of at most k elements; the fuel is their number. -/
def chunks {α : Type} : Nat → Nat → List α → List (List α)
  | 0, _, _ => []
  | f + 1, k, l => if l.isEmpty then [] else l.take k :: chunks f k (l.drop k)

/-- The DESC frames of a slot (R178). -/
def sendDesc (s : State) (n q slot : Nat) (desc : Desc) (segs : List Seg) : State :=
  let s := sendSpan s n q 0x01 0 slot (encodeDesc desc ++ (segs.take 1016).flatMap encodeSeg)
  (chunks (ceilDiv (segs.length - 1016) 1024) 1024 (segs.drop 1016)).foldl
    (fun s g => sendSpan s n q 0x01 2 slot (g.flatMap encodeSeg)) s

/-- The DATA frames of a slot: 8,192 bytes each, the last one marked (R177). -/
def sendData (s : State) (n q off : Nat) (payload : List Byte) : State :=
  let parts := if payload.isEmpty then [[]] else chunks (ceilDiv payload.length 8192) 8192 payload
  parts.zipIdx.foldl
    (fun s c => sendSpan s n q 0x02 (flag (c.2 + 1 == parts.length) 0) (off + 8192 * c.2) c.1) s

/-- One more slot sent. -/
def bumpSent (L : SpanLink) : SpanLink := { L with sent := add32 L.sent 1 }

/-- Put a micro-batch into a target queue: its own slot, or its link, whose slots are numbered as at the hosting end (R177, R188). -/
def deliver (s : State) (n : Nat) (im : Image) (q : Nat) (desc : Desc) (segs : List Seg) (payload : List Byte) : State :=
  match (progAt s n).bind fun p => spanQueueAt p q with
  | none => s
  | some x =>
    match x.link.filter (·.sending) with
    | none => fillSlot s n im q desc segs payload
    | some L =>
      let s := sendDesc s n q x.fillAt desc segs
      let s := sendData s n q (payloadOffset (classOf im x.decl)) payload
      modSpanQueue s n q fun x =>
        { x with fillAt := (x.fillAt + 1) % x.decl.depth, link := x.link.map bumpSent }

end Sys2Proof.Machine
end

