-- ==== Sys2Proof/Machine/Clock.lean ====
section
/-! DEFINITION. Powered time as it passes (16 R396), with the counters that it moves: waits and skew of stages, full and empty
queues, credit waits (07 R203, R204, 17 R410 to R413). -/

namespace Sys2Proof.Machine

/-- Opcodes of rendezvous instructions (R94, R96). -/
def isRendezvous (op : Nat) : Bool := opcodes.contains op && decide (0x10 ≤ op)

/-- The pier has no earlier instruction under way (R38, R93). -/
def atRest (s : State) (p : Nat) : Bool := (pierAt s p).score.isEmpty && (pierAt s p).lane.isNone

/-- The pier has reached a rendezvous instruction: its word. -/
def meetingWord (s : State) (im : Image) (p : Nat) : Option Nat :=
  if atRest s p && decide ((pierAt s p).index < deckLength im p) && isRendezvous (opcodeOf (peekWord s im p)) then
    some (peekWord s im p)
  else none

/-- The counter of a stage's wait on an operation (R203, R411). -/
def waitIndex (op : Nat) : Option Nat :=
  if op = 0x10 ∨ op = 0x13 then some 0 else if op = 0x11 then some 1 else if op = 0x14 then some 2 else if op = 0x20 then some 3
  else if op = 0x21 then some 4 else none

/-- Time passes for stage k: its wait once every pier has reached the rendezvous, the skew before that (R204). -/
def passStage (n : Nat) (im : Image) (d : Nat) (s : State) (k : Nat) : State :=
  let piers := stagePiers im.decls k
  let ws := piers.filterMap (meetingWord s im)
  let s := (piers.filter fun p => (meetingWord s im p).isSome).foldl (fun s p => countEvent s n p 0x0B d) s
  match ws with
  | [] => s
  | w :: _ =>
    if ws.length < piers.length then countCtx s n 1 k 5 d
    else
      match waitIndex (opcodeOf w) with
      | some i => countCtx s n 1 k i d
      | none => s

/-- A stage stands at a PUSH or FORK into the queue (R203). -/
def heldFor (s : State) (im : Image) (x : SpanQueue) : Bool :=
  let ws := (stagePiers im.decls x.decl.producer).map (meetingWord s im)
  let into := fun w : Nat =>
    (opcodeOf w == 0x10 && (generalOf w).index == x.decl.queue)
      || (opcodeOf w == 0x13 && x.decl.kind == 1 && (generalOf w).index == x.decl.group)
  !ws.isEmpty && ws.all fun w => w.any into

/-- Time passes for a queue: full, empty, or its sending end without credit (R203). -/
def passQueue (n : Nat) (im : Image) (d : Nat) (s : State) (x : SpanQueue) : State :=
  let hosted := !x.slots.isEmpty
  let s := if hosted && x.slots.all (fun y => y.st != .free) then countCtx s n 2 x.decl.queue 0 d else s
  let s := if hosted && x.slots.all (fun y => y.st != .full) then countCtx s n 2 x.decl.queue 1 d else s
  match x.link with
  | some L => if L.sending && linkCredit x.decl L == 0 && heldFor s im x then countCtx s n 2 x.decl.queue 5 d else s
  | none => s

/-- An engine of the tile holds DATA for lack of credit (R411). -/
def stayHeld (p : Program) (tile : Nat) : Bool :=
  p.assocs.any fun a => !stayCredit a && a.backlog.any fun f => f.1 == tile && f.2.type == 0x11

/-- Free times, each at most `d`, that a pier's accesses, rows, passes and issue waited: they count on the counters that select the
event (R410; log 43). -/
def pierWaits (free d pier : Nat) (events : List Nat) (l : List (Nat × Nat)) : List (Nat × Nat) :=
  [0x07, 0x08, 0x09, 0x0A].zipIdx.foldl (fun l e =>
    events.zipIdx.foldl (fun l x =>
      if x.1 = e.1 then addCounter l (selector 0 pier x.2) (Config.freeValue (free + e.2) % (d + 1)) else l) l) l

/-- A pass of the pier may have rows in its array. -/
def passing (P : Pier) : Bool := P.drain.any fun x => match x with
  | .pass _ => true
  | .drain _ _ => false

/-- Time passes within the piers: their waits, and the time with rows in their arrays, are free; the rest of the time the arrays are
idle (R410; log 43). -/
def passPiers (s : State) (n d : Nat) : State :=
  match serving s n, ctxAt s n with
  | true, some c =>
    let busy := s.piers.filter passing
    let waits := c.events.zipIdx.foldl (fun l e => pierWaits (s.free + busy.length + 4 * e.2) d e.1.1 e.1.2 l) c.waits
    let waits := busy.zipIdx.foldl (fun l x => addCounter l (selector 0 x.1.id 13) (Config.freeValue (s.free + x.2) % (d + 1))) waits
    freeUsed (modCtx s n fun c => { c with waits, activeNs := c.activeNs + d }) (busy.length + 4 * c.events.length)
  | _, _ => s

/-- Time passes for the stages, queues and engines of a running program. -/
def passProgram (s : State) (n d : Nat) : State :=
  match progAt s n, imageAt s n with
  | some p, some im =>
    if p.st != .running then s
    else
      let s := (List.range im.decls.stages.length).foldl (passStage n im d) s
      let s := p.queues.foldl (passQueue n im d) s
      ((List.range 4).filter (stayHeld p)).foldl (fun s t => countCtx s n 3 t 2 d) s
  | _, _ => s

/-- Time passes for a port: retry activity, and frames held for hop-class credit (R412). -/
def passPort (d : Nat) (s : State) (p : Nat) : State :=
  let P := portAt s p
  let s := if P.activity.isSome then count s 4 p 10 d else s
  if P.st == .active && P.waiting.any (fun x => !hasCredit P x.2) then count s 4 p 14 d else s

/-- Time passes for the active context. -/
def passContext (s : State) (n d : Nat) : State := passProgram (passPiers s n d) n d

/-- Package counters that move by free values as time passes, with a bound for a nanosecond: corrected symbols of the ports that are
on, flits sent again and carried (R412, R413; log 43). -/
def movingCounters (s : State) : List (Nat × Nat) :=
  ((List.range 64).filter fun p => (portAt s p).st != .disabled).map (fun p => (selector 4 p 4, 128))
    ++ (List.range 80).flatMap fun m => [(selector 6 m 0, 1), (selector 6 m 2, 1)]

/-- Those counters over a time. -/
def passLinks (s : State) (d : Nat) : State :=
  let l := movingCounters s
  { s with
    waits := l.zipIdx.foldl (fun w x => addCounter w x.1.1 (Config.freeValue (s.free + x.2) % (x.1.2 * d + 1))) s.waits
    free := s.free + l.length }

/-- Time passes for the package: ports, links, and stacks at the halved refresh interval (R412, R413). -/
def passPackage (s : State) (d : Nat) : State :=
  let s := (List.range 64).foldl (passPort d) (if running s then passLinks s d else s)
  ((List.range 12).filter fun k => (stackAt s k).hotRefresh).foldl (fun s k => count s 5 k 8 d) s

/-- Powered time moves on to a moment, if that lies ahead (R396). -/
def advanceTo (s : State) (t : Nat) : State :=
  if t ≤ s.time then s
  else
    let d := t - s.time
    let s' := passPackage s d
    let s' := match s.sched.active with
      | some n => passContext s' n d
      | none => s'
    { s' with time := t }

/-- The block idles for one period of the reference clock: powered time rises by 10 while it is powered (R396), and sample records
that wait may be written (R418). -/
def idle (s : State) : State := if powered s then (List.range 16).foldl drainRecords (advanceTo s (s.time + 10)) else s

end Sys2Proof.Machine
end

