-- ==== Sys2Proof/Machine/Functions.lean ====
section
/-! DEFINITION. The vector unit's binary32 arithmetic (04 R111, R114): addition and its like, comparison, the four correctly
rounded functions, and the conversions. A function's result is computed with some 80 bits to spare and a last bit that says the
value lies strictly above what was computed, so that one rounding gives the nearest binary32 value (log 112). -/

namespace Sys2Proof.Machine

/-- Round (n + x) × 2^e to binary32, where 0 < x < 1, or x = 0 where `exact` holds (R114). -/
def roundAbove (exact neg : Bool) (n : Nat) (e : Int) : Nat := toF32 (.fin neg (2 * n + if exact then 0 else 1) (e - 1))

/-- Subtraction and fused multiply–add (R114). -/
def subF32 (a b : Nat) : Nat := toF32 ((f32 a).add (f32 b).neg)
def fmaF32 (a b c : Nat) : Nat := toF32 (((f32 a).mul (f32 b)).add (f32 c))

/-- 1 ÷ x (R114). -/
def recipF32 (c : Nat) : Nat := match f32 c with
  | .nan => canonicalNan fBinary32
  | .inf s => toF32 (.fin s 0 0)
  | .fin s m e =>
    if m = 0 then toF32 (.inf s)
    else
      let k := Nat.log2 m + 40
      roundAbove (2 ^ k % m == 0) s (2 ^ k / m) (-k - e)

/-- Digits of an integer square root from bit b − 1 down, given the digits above. -/
def rootBits : Nat → Nat → Nat → Nat
  | 0, _, r => r
  | b + 1, n, r => rootBits b n (if (r + 2 ^ b) ^ 2 ≤ n then r + 2 ^ b else r)

/-- The integer square root, rounded down. -/
def intRoot (n : Nat) : Nat := rootBits (Nat.log2 n / 2 + 1) n 0

/-- 1 ÷ √x (R114). -/
def rsqrtF32 (c : Nat) : Nat := match f32 c with
  | .nan => canonicalNan fBinary32
  | .inf s => if s then canonicalNan fBinary32 else 0
  | .fin s m e =>
    if m = 0 then toF32 (.inf s)
    else if s then canonicalNan fBinary32
    else
      let m := if e % 2 = 0 then m else 2 * m
      let k := Nat.log2 m + 40
      let r := intRoot (2 ^ (2 * k) / m)
      roundAbove (r * r * m == 2 ^ (2 * k)) false r (-k - e / 2)

/-- Binary digits of log2 of a number in [1, 2), held × 2^256, by squaring. -/
def logDigits : Nat → Nat → Nat → Nat
  | 0, _, acc => acc
  | f + 1, v, acc =>
    let w := (v * v) >>> 256
    if 2 ^ 257 ≤ w then logDigits f (w >>> 1) (2 * acc + 1) else logDigits f w (2 * acc)

/-- log2 x (R114). -/
def log2F32 (c : Nat) : Nat := match f32 c with
  | .nan => canonicalNan fBinary32
  | .inf s => if s then canonicalNan fBinary32 else toF32 (.inf false)
  | .fin s m e =>
    if m = 0 then toF32 (.inf true)
    else if s then canonicalNan fBinary32
    else
      let l := Nat.log2 m
      let whole : Int := l + e
      if m = 2 ^ l then toF32 (intVal whole)
      else
        let y : Int := 2 * (whole * 2 ^ 120 + (logDigits 120 ((m * 2 ^ 256) >>> l) 0 : Nat)) + 1
        toF32 (.fin (decide (y < 0)) y.natAbs (-121))

/-- ln 2 × 2^200, rounded down. -/
def ln2Scaled : Nat := 1113844574712631719546256151097547306333272293549090750737802

/-- Terms k, k + 1, … of the series of e^z, with z and the terms held × 2^200. -/
def expTerms : Nat → Nat → Nat → Nat → Nat
  | 0, _, _, _ => 0
  | f + 1, k, term, z => term + expTerms f (k + 1) (term * z / (2 ^ 200 * (k + 1))) z

/-- 2^x (R114). -/
def exp2F32 (c : Nat) : Nat := match f32 c with
  | .nan => canonicalNan fBinary32
  | .inf s => if s then 0 else toF32 (.inf false)
  | .fin s m e =>
    let x : Int := if 0 ≤ e then signedNat s (m <<< e.toNat) else signedNat s m
    let k := (-e).toNat
    let whole := x / 2 ^ k
    let part := (x % 2 ^ k).toNat
    if 128 ≤ whole then toF32 (.inf false)
    else if whole < -150 then 0
    else if part = 0 then toF32 (.fin false 1 whole)
    else roundAbove false false (expTerms 60 0 (2 ^ 200) (((part <<< 200 >>> k) * ln2Scaled) >>> 200)) (whole - 200)

/-- a < b as IEEE 754 compares, where −0 equals +0. -/
def Val.less (a b : Val) : Bool := a.below b && !(a.isZero && b.isZero)

/-- The comparisons (R114). -/
def compareF32 (k : LaneCmp) (a b : Nat) : Bool :=
  let unordered := f32 a == .nan || f32 b == .nan
  match k with
  | .eq => !unordered && !(f32 a).less (f32 b) && !(f32 b).less (f32 a)
  | .lt => (f32 a).less (f32 b)
  | .le => !unordered && !(f32 b).less (f32 a)
  | .unordered => unordered

/-- An arithmetic operation of the vector unit, of up to three binary32 operands (R114). -/
def laneArith (f : LaneFun) (a b c : Nat) : Nat := match f with
  | .add => addF32 a b
  | .sub => subF32 a b
  | .mul => mulF32 a b
  | .fma => fmaF32 a b c
  | .min => minF32 a b
  | .max => maxF32 a b
  | .exp2 => exp2F32 a
  | .log2 => log2F32 a
  | .recip => recipF32 a
  | .rsqrt => rsqrtF32 a

/-- The format of a lane data type that is a floating format. -/
def laneFmt : LaneType → Option Fmt
  | .f32 => some fBinary32
  | .f16 => some fBinary16
  | .bf16 => some fBf16
  | .i32 => none
  | .u8 => none

/-- Bytes of a lane data type. -/
def laneBytes : LaneType → Nat
  | .f32 => 4
  | .i32 => 4
  | .f16 => 2
  | .bf16 => 2
  | .u8 => 1

/-- Limits of an integer data type. -/
def laneLimits : LaneType → Int × Int
  | .u8 => (0, 255)
  | _ => (-2 ^ 31, 2 ^ 31 - 1)

/-- A conversion of R111, of a code; none between the integer types, which its table does not list. -/
def convertLane (src dst : LaneType) (c : Nat) : Option Nat :=
  match laneFmt src, laneFmt dst with
  | some f, some g => some (encodeFloat g (decodeFloat f (c % 2 ^ f.width)))
  | some f, none =>
    some (unsigned (8 * laneBytes dst) (toIntSaturating (laneLimits dst).1 (laneLimits dst).2 (decodeFloat f (c % 2 ^ f.width))))
  | none, some g =>
    let v := if src = .u8 then intVal (c % 256 : Nat) else intVal (signed 32 (c % 2 ^ 32))
    some (encodeFloat g (f32 (toF32 v)))
  | none, none => none

/-- A scaled MX element converted to binary16 or binary32 (R109, R111). -/
def fromMx (format : Nat) (dst : Fmt) (code scale : Nat) : Nat :=
  encodeFloat dst ({ val := decodeFloat (arrayFmt format) (code % 2 ^ elemBits format), scale := scaleExp (scale % 256) : Elem }).value

/-- One level of the reduction tree: lanes 2i and 2i + 1 (R91). -/
def pairUp : List Nat → List Nat
  | a :: b :: t => addF32 a b :: pairUp t
  | l => l

/-- The sum of 64 lanes by the fixed tree (R91). -/
def treeSum (xs : List Nat) : Nat := (pairUp (pairUp (pairUp (pairUp (pairUp (pairUp xs)))))).headD 0

end Sys2Proof.Machine
end

