-- ==== Sys2Proof/Machine/Codecs.lean ====
section
/-! DEFINITION. The formats of the Approach units (12 R302 to R306): PNG, FLAC, WAV and the containers of the others, from their bytes
to codes. The manual names each format's standard; what is taken from a standard is PRESUMED (log 33). The Opus codec, HEVC and AV1
are uninterpreted. -/

namespace Sys2Proof.Machine

/-! ### Result codes (R300) -/

def resOk : Nat := 0x00
def resEmpty : Nat := 0x01
def resTruncated : Nat := 0x02
def resMalformed : Nat := 0x10
def resUnsupported : Nat := 0x11
def resLimit : Nat := 0x12
def resUtf8 : Nat := 0x13
def resRate : Nat := 0x14
def resRow : Nat := 0x15
def resChecksum : Nat := 0x16
def resHostRead : Nat := 0x17

/-- What a unit makes of an item's bytes: output pictures or samples. Pictures: codes in frame, channel, row, column order, chroma
already at every luma position; `ycc` is set for a JPEG coded as YCbCr. Sound: `frames` samples of each channel, channels together,
`depth` bits in two's complement (8-bit WAV: as coded), or binary32 encodings where `float` is set. -/
structure Decoded where
  frames : Nat
  channels : Nat
  height : Nat
  width : Nat
  depth : Nat
  ycc : Bool
  float : Bool
  rate : Nat
  codes : List Nat
  deriving DecidableEq, Repr

/-- A unit's answer: an error's result code and offset, or a value. -/
abbrev Parse (α : Type) := Except (Nat × Nat) α

/-- Fail with a result code at an offset unless the condition holds. -/
def need (ok : Bool) (result at_ : Nat) : Parse Unit := if ok then .ok () else .error (result, at_)

/-- A value, or MALFORMED at an offset. -/
def orBad {α : Type} (x : Option α) (at_ : Nat) : Parse α := match x with
  | some a => .ok a
  | none => .error (resMalformed, at_)

/-- A big-endian field. -/
def beField (b : List Byte) (o n : Nat) : Nat := leNat (slice b o n).reverse

/-! ### Bits -/

/-- Bits of bytes, least significant first, and most significant first. -/
def bitsLow (b : List Byte) : List Bool := b.flatMap fun x => (List.range 8).map (bit x.toNat)
def bitsHigh (b : List Byte) : List Bool := b.flatMap fun x => (List.range 8).map fun i => bit x.toNat (7 - i)

/-- Take n bits, the first the least significant. -/
def takeLow : Nat → List Bool → Option (Nat × List Bool)
  | 0, l => some (0, l)
  | _ + 1, [] => none
  | n + 1, x :: l => (takeLow n l).map fun r => (x.toNat + 2 * r.1, r.2)

/-- Take n bits after those of acc, the first the most significant. -/
def takeHigh (acc : Nat) : Nat → List Bool → Option (Nat × List Bool)
  | 0, l => some (acc, l)
  | _ + 1, [] => none
  | n + 1, x :: l => takeHigh (2 * acc + x.toNat) n l

/-- A count of 0 bits up to the next 1. -/
def takeUnary (acc : Nat) : List Bool → Option (Nat × List Bool)
  | [] => none
  | true :: l => some (acc, l)
  | false :: l => takeUnary (acc + 1) l

/-! ### Deflate and zlib -/

/-- The symbols of a canonical code by length, then value. -/
def codeSymbols (lens : List Nat) : List Nat :=
  (List.range 16).flatMap fun k => if k = 0 then [] else (lens.zipIdx.filter fun x => x.1 == k).map (·.2)

/-- Read one symbol: code so far, first code and index of its length. -/
def readSymbol (lens syms : List Nat) : Nat → Nat → Nat → Nat → Nat → List Bool → Option (Nat × List Bool)
  | 0, _, _, _, _, _ => none
  | _ + 1, _, _, _, _, [] => none
  | f + 1, k, code, first, index, x :: l =>
    let code := 2 * code + x.toNat
    let n := lens.count k
    if code < first + n then (syms[index + (code - first)]?).map fun s => (s, l)
    else readSymbol lens syms f (k + 1) code (2 * (first + n)) (index + n) l

/-- A code of the given lengths read from bits. -/
def readCode (lens : List Nat) (l : List Bool) : Option (Nat × List Bool) := readSymbol lens (codeSymbols lens) 15 1 0 0 0 l

def lengthBase : List (Nat × Nat) :=
  [(3, 0), (4, 0), (5, 0), (6, 0), (7, 0), (8, 0), (9, 0), (10, 0), (11, 1), (13, 1), (15, 1), (17, 1), (19, 2), (23, 2), (27, 2),
    (31, 2), (35, 3), (43, 3), (51, 3), (59, 3), (67, 4), (83, 4), (99, 4), (115, 4), (131, 5), (163, 5), (195, 5), (227, 5), (258, 0)]

def distBase : List (Nat × Nat) :=
  [(1, 0), (2, 0), (3, 0), (4, 0), (5, 1), (7, 1), (9, 2), (13, 2), (17, 3), (25, 3), (33, 4), (49, 4), (65, 5), (97, 5), (129, 6),
    (193, 6), (257, 7), (385, 7), (513, 8), (769, 8), (1025, 9), (1537, 9), (2049, 10), (3073, 10), (4097, 11), (6145, 11), (8193, 12),
    (12289, 12), (16385, 13), (24577, 13)]

/-- A base value with its extra bits. -/
def readBase (t : List (Nat × Nat)) (i : Nat) (l : List Bool) : Option (Nat × List Bool) :=
  (t[i]?).bind fun b => (takeLow b.2 l).map fun r => (b.1 + r.1, r.2)

/-- Repeat n bytes from `dist` back; the output stands newest first. -/
def copyBack : Nat → Nat → List Byte → Option (List Byte)
  | 0, _, out => some out
  | n + 1, dist, out => (out[dist - 1]?).bind fun b => copyBack n dist (b :: out)

/-- The symbols of a block up to its end. -/
def inflateCodes (lit dist : List Nat) : Nat → List Byte → List Bool → Option (List Byte × List Bool)
  | 0, _, _ => none
  | f + 1, out, l =>
    match readCode lit l with
    | none => none
    | some (s, l) =>
      if s < 256 then inflateCodes lit dist f (BitVec.ofNat 8 s :: out) l
      else if s = 256 then some (out, l)
      else
        match readBase lengthBase (s - 257) l with
        | none => none
        | some (n, l) =>
          match (readCode dist l).bind fun d => readBase distBase d.1 d.2 with
          | none => none
          | some (d, l) => (copyBack n d out).bind fun out => inflateCodes lit dist f out l

/-- Code lengths under the code-length code; `out` stands newest first. -/
def readLengths (cl : List Nat) (n : Nat) : Nat → List Nat → List Bool → Option (List Nat × List Bool)
  | 0, _, _ => none
  | f + 1, out, l =>
    if n ≤ out.length then (if out.length = n then some (out.reverse, l) else none)
    else
      match readCode cl l with
      | none => none
      | some (s, l) =>
        if s < 16 then readLengths cl n f (s :: out) l
        else
          let (width, base) := if s = 16 then (2, 3) else if s = 17 then (3, 3) else (7, 11)
          match takeLow width l, (if s = 16 then out.head? else some 0) with
          | some (k, l), some v => readLengths cl n f (List.replicate (base + k) v ++ out) l
          | _, _ => none

/-- Places of the code-length code's lengths. -/
def lengthOrder : List Nat := [16, 17, 18, 0, 8, 7, 9, 6, 10, 5, 11, 4, 12, 3, 13, 2, 14, 1, 15]

/-- k values of three bits. -/
def takeTriples : Nat → List Bool → Option (List Nat × List Bool)
  | 0, l => some ([], l)
  | k + 1, l => (takeLow 3 l).bind fun r => (takeTriples k r.2).map fun t => (r.1 :: t.1, t.2)

/-- The two codes of a dynamic block. -/
def dynamicCodes (l : List Bool) : Option (List Nat × List Nat × List Bool) :=
  (takeLow 5 l).bind fun hlit => (takeLow 5 hlit.2).bind fun hdist => (takeLow 4 hdist.2).bind fun hclen =>
    (takeTriples (hclen.1 + 4) hclen.2).bind fun ts =>
      let cl := (List.range 19).map fun i => (ts.1[lengthOrder.idxOf i]?).getD 0
      let n := hlit.1 + 257
      (readLengths cl (n + hdist.1 + 1) 400 [] ts.2).map fun r => (r.1.take n, r.1.drop n, r.2)

def fixedLit : List Nat := List.replicate 144 8 ++ List.replicate 112 9 ++ List.replicate 24 7 ++ List.replicate 8 8
def fixedDist : List Nat := List.replicate 30 5

/-- Deflate blocks; `total` is the number of bits at the start, for stored blocks' byte boundaries. -/
def inflate (total : Nat) : Nat → List Byte → List Bool → Option (List Byte × List Bool)
  | 0, _, _ => none
  | f + 1, out, l =>
    match (takeLow 1 l).bind fun a => (takeLow 2 a.2).map fun b => (a.1, b.1, b.2) with
    | none => none
    | some (last, type, l) =>
      let block :=
        if type = 0 then
          let l := l.drop ((8 - (total - l.length) % 8) % 8)
          (takeLow 16 l).bind fun n => (takeLow 16 n.2).bind fun c =>
            if n.1 + c.1 = 65535 ∧ 8 * n.1 ≤ c.2.length then
              let bytes := (List.range n.1).map fun i => BitVec.ofNat 8 (((takeLow 8 (c.2.drop (8 * i))).map (·.1)).getD 0)
              some (bytes.reverse ++ out, c.2.drop (8 * n.1))
            else none
        else if type = 1 then inflateCodes fixedLit fixedDist (l.length + 1) out l
        else if type = 2 then (dynamicCodes l).bind fun c => inflateCodes c.1 c.2.1 (l.length + 1) out c.2.2
        else none
      block.bind fun r => if last = 1 then some r else inflate total f r.1 r.2

/-- Adler-32. -/
def adler32 (b : List Byte) : Nat :=
  let r := b.foldl (fun s x => let a := (s.1 + x.toNat) % 65521; (a, (s.2 + a) % 65521)) (1, 0)
  r.2 * 65536 + r.1

/-- The bytes of a zlib stream, whose Adler-32 is checked (R304). -/
def unzlib (b : List Byte) (at_ : Nat) : Parse (List Byte) := do
  need (6 ≤ b.length && field b 0 1 % 16 == 8 && decide (field b 0 1 / 16 ≤ 7) && beField b 0 2 % 31 == 0 && !bit (field b 1 1) 5)
    resMalformed at_
  let l := bitsLow (b.drop 2)
  let r ← orBad (inflate l.length (l.length + 1) [] l) at_
  let used := 2 + (l.length - r.2.length + 7) / 8
  need (decide (used + 4 ≤ b.length)) resMalformed at_
  need (beField b used 4 == adler32 r.1.reverse) resChecksum at_
  return r.1.reverse

/-! ### PNG (R304) -/

/-- A chunk: its offset, type and data. -/
structure PngChunk where
  at_ : Nat
  type : Nat
  data : List Byte

/-- Chunks from an offset up to IEND, each CRC checked. -/
def pngChunks (b : List Byte) : Nat → Nat → Parse (List PngChunk)
  | 0, o => .error (resMalformed, o)
  | f + 1, o => do
    let n := beField b o 4
    need (decide (o + 12 + n ≤ b.length)) resMalformed o
    need (beField b (o + 8 + n) 4 == crc32 (slice b (o + 4) (4 + n))) resChecksum o
    let c : PngChunk := { at_ := o, type := beField b (o + 4) 4, data := slice b (o + 8) n }
    if c.type = 0x49454E44 then return [c] else return c :: (← pngChunks b f (o + 12 + n))

/-- Bit depths that a colour type allows. -/
def pngDepthOk (colour depth : Nat) : Bool :=
  if colour = 0 then [1, 2, 4, 8, 16].contains depth else if colour = 3 then [1, 2, 4, 8].contains depth
  else [2, 4, 6].contains colour && [8, 16].contains depth

def pngSamples (colour : Nat) : Nat := if colour = 2 then 3 else if colour = 4 then 2 else if colour = 6 then 4 else 1

def paeth (a b c : Nat) : Nat :=
  let p : Int := (a : Int) + b - c
  let pa := (p - a).natAbs
  let pb := (p - b).natAbs
  let pc := (p - c).natAbs
  if pa ≤ pb ∧ pa ≤ pc then a else if pb ≤ pc then b else c

/-- One scanline: filter type, bytes per pixel, the line above; `out` stands newest first. -/
def unfilter (type bpp : Nat) (up : List Byte) : List Byte → List Byte → List Byte
  | out, [] => out.reverse
  | out, x :: l =>
    let at_ := fun k : Nat => ((if k = 0 then none else out[k - 1]?).getD 0).toNat
    let a := at_ bpp
    let b := (up.getD out.length 0).toNat
    let c := if out.length < bpp then 0 else (up.getD (out.length - bpp) 0).toNat
    let p := if type = 1 then a else if type = 2 then b else if type = 3 then (a + b) / 2 else if type = 4 then paeth a b c else 0
    unfilter type bpp up (BitVec.ofNat 8 (x.toNat + p) :: out) l

/-- The scanlines of a pass and the bytes that follow. -/
def pngRows (size bpp : Nat) : Nat → List Byte → List Byte → Option (List (List Byte) × List Byte)
  | 0, _, b => some ([], b)
  | n + 1, up, b =>
    match b with
    | [] => none
    | t :: b =>
      if b.length < size ∨ 4 < t.toNat then none
      else
        let row := unfilter t.toNat bpp up [] (b.take size)
        (pngRows size bpp n row (b.drop size)).map fun r => (row :: r.1, r.2)

/-- Adam7: first column, first row, column and row steps; the one pass of a picture without interlace. -/
def pngPasses (interlaced : Bool) : List (Nat × Nat × Nat × Nat) :=
  if interlaced then [(0, 0, 8, 8), (4, 0, 8, 8), (0, 4, 4, 8), (2, 0, 4, 4), (0, 2, 2, 4), (1, 0, 2, 2), (0, 1, 1, 2)]
  else [(0, 0, 1, 1)]

def passSize (n first step : Nat) : Nat := if n ≤ first then 0 else (n - first - 1) / step + 1

/-- The rows of every pass. -/
def pngAllRows (w h px : Nat) : List (Nat × Nat × Nat × Nat) → List Byte → Option (List (List (List Byte)))
  | [], b => if b.isEmpty then some [] else none
  | p :: t, b =>
    let pw := passSize w p.1 p.2.2.1
    let ph := if pw = 0 then 0 else passSize h p.2.1 p.2.2.2
    (pngRows (ceilDiv (pw * px) 8) (max 1 (px / 8)) ph [] b).bind fun r => (pngAllRows w h px t r.2).map fun l => r.1 :: l

/-- Sample k of a scanline, most significant bit first. -/
def rowSample (depth k : Nat) (row : List Byte) : Nat :=
  if depth = 16 then beField row (2 * k) 2
  else (row.getD (k * depth / 8) 0).toNat >>> (8 - depth - k * depth % 8) % 2 ^ depth

/-- Sample k of pixel (y, x) of a decoded PNG. -/
def pngSample (rows : List (List (List Byte))) (passes : List (Nat × Nat × Nat × Nat)) (depth samples y x k : Nat) : Nat :=
  match passes.findIdx? fun p => p.1 ≤ x && (x - p.1) % p.2.2.1 == 0 && decide (p.2.1 ≤ y) && (y - p.2.1) % p.2.2.2 == 0 with
  | none => 0
  | some i =>
    let p := passes.getD i (0, 0, 1, 1)
    rowSample depth ((x - p.1) / p.2.2.1 * samples + k) ((rows.getD i []).getD ((y - p.2.1) / p.2.2.2) [])

/-- PNG to codes (R304). -/
def decodePng (b : List Byte) : Parse Decoded := do
  need (b.take 8 == [0x89, 0x50, 0x4E, 0x47, 0x0D, 0x0A, 0x1A, 0x0A]) resMalformed 0
  let cs ← pngChunks b b.length 8
  let ihdr := (cs.headD { at_ := 8, type := 0, data := [] })
  let d := ihdr.data
  let (w, h, depth, colour) := (beField d 0 4, beField d 4 4, field d 8 1, field d 9 1)
  need (ihdr.type == 0x49484452 && d.length == 13 && w != 0 && h != 0 && pngDepthOk colour depth && zeroField d 10 2
    && decide (field d 12 1 < 2)) resMalformed 8
  need (decide (w ≤ 16384 ∧ h ≤ 16384 ∧ w * h ≤ 67108864)) resLimit 8
  let passes := pngPasses (field d 12 1 == 1)
  let chunk := fun t : Nat => cs.find? fun c => c.type == t
  let idat := cs.filter fun c => c.type == 0x49444154
  match cs.find? fun c => !bit (c.type / 2 ^ 24) 5 && !([0x49484452, 0x504C5445, 0x49444154, 0x49454E44].contains c.type) with
  | some c => .error (resMalformed, c.at_)
  | none =>
    let at_ := (idat.head?.map (·.at_)).getD 8
    let raw ← unzlib (idat.flatMap (·.data)) at_
    let samples := pngSamples colour
    let rows ← orBad (pngAllRows w h (samples * depth) passes raw) at_
    let s := pngSample rows passes depth samples
    let trns := (chunk 0x74524E53).map (·.data)
    if colour = 3 then
      let pal := ((chunk 0x504C5445).map (·.data)).getD []
      need (!pal.isEmpty && pal.length % 3 == 0) resMalformed at_
      need ((List.range h).all fun y => (List.range w).all fun x => decide (3 * s y x 0 < pal.length)) resMalformed at_
      let code := fun c y x : Nat => if c = 3 then ((trns.getD []).getD (s y x 0) 0xFF).toNat else (pal.getD (3 * s y x 0 + c) 0).toNat
      return picture (if trns.isSome then 4 else 3) h w 8 code
    else
      match trns.filter fun _ => colour == 0 || colour == 2 with
      | some t =>
        let clear := fun y x : Nat => (List.range samples).all fun k => s y x k == beField t (2 * k) 2 % 2 ^ depth
        return picture (samples + 1) h w depth fun c y x =>
          if c = samples then (if clear y x then 0 else 2 ^ depth - 1) else s y x c
      | none => return picture samples h w depth fun c y x => s y x c
where
  picture (channels h w depth : Nat) (code : Nat → Nat → Nat → Nat) : Decoded :=
    { frames := 1, channels, height := h, width := w, depth, ycc := false, float := false, rate := 0
      codes := (List.range channels).flatMap fun c => (List.range h).flatMap fun y => (List.range w).map fun x => code c y x }

end Sys2Proof.Machine
end

