-- ==== Sys2Proof/Machine/Jpeg.lean ====
section
/-! DEFINITION. The entropy decoding of JPEG scans (12 R302): Huffman and arithmetic coding, sequential and progressive, with restart
intervals. The manual names T.81 for it; what is taken from there is PRESUMED (log 33). -/

namespace Sys2Proof.Machine

/-! ### The state of a scan's decoding -/

/-- Huffman bits to come; the arithmetic decoder's bytes to come, its registers and its statistics by bin; the prediction and the DC
conditioning of each component of the scan; blocks left in a run of ends of band. -/
structure JpegCoder where
  bits : List Bool
  bytes : List Byte
  codeReg : Nat
  interval : Nat
  shifts : Nat
  stats : List (Nat × Nat)
  preds : List Int
  contexts : List Nat
  run : Nat

/-- A step of decoding: none where the data break the standard. -/
abbrev JpegStep := StateT JpegCoder Option

/-! ### Huffman coding -/

/-- A Huffman table: codes of each length 1 to 16, and the values in code order. -/
structure HuffTable where
  counts : List Nat
  values : List Nat

/-- Read one code: the counts of the lengths still possible, the code so far, first code and index of its length. -/
def huffSymbol (values : List Nat) : List Nat → Nat → Nat → Nat → List Bool → Option (Nat × List Bool)
  | [], _, _, _, _ => none
  | _ :: _, _, _, _, [] => none
  | n :: t, code, first, index, x :: l =>
    let code := 2 * code + x.toNat
    if code < first + n then (values[index + (code - first)]?).map fun v => (v, l)
    else huffSymbol values t code (2 * (first + n)) (index + n) l

def huffCode (h : HuffTable) : JpegStep Nat := fun c =>
  (huffSymbol h.values h.counts 0 0 0 c.bits).map fun r => (r.1, { c with bits := r.2 })

/-- The next n bits, the first the most significant. -/
def jpegBits (n : Nat) : JpegStep Nat := fun c => (takeHigh 0 n c.bits).map fun r => (r.1, { c with bits := r.2 })

/-- The value that n bits after a code of size n say. -/
def extended (n : Nat) (v : Nat) : Int := if n = 0 then 0 else if v < 2 ^ (n - 1) then (v : Int) - (2 ^ n - 1) else v

def huffValue (n : Nat) : JpegStep Int := if 15 < n then fun _ => none else extended n <$> jpegBits n

/-! ### Arithmetic coding -/

/-- Probability estimation: Qe, next state after a less and a more probable symbol, and whether the former exchanges the senses. -/
def qeTable : List (Nat × Nat × Nat × Bool) :=
  [(0x5A1D, 1, 1, true), (0x2586, 14, 2, false), (0x1114, 16, 3, false), (0x080B, 18, 4, false), (0x03D8, 20, 5, false),
    (0x01DA, 23, 6, false), (0x00E5, 25, 7, false), (0x006F, 28, 8, false), (0x0036, 30, 9, false), (0x001A, 33, 10, false),
    (0x000D, 35, 11, false), (0x0006, 9, 12, false), (0x0003, 10, 13, false), (0x0001, 12, 13, false), (0x5A7F, 15, 15, true),
    (0x3F25, 36, 16, false), (0x2CF2, 38, 17, false), (0x207C, 39, 18, false), (0x17B9, 40, 19, false), (0x1182, 42, 20, false),
    (0x0CEF, 43, 21, false), (0x09A1, 45, 22, false), (0x072F, 46, 23, false), (0x055C, 48, 24, false), (0x0406, 49, 25, false),
    (0x0303, 51, 26, false), (0x0240, 52, 27, false), (0x01B1, 54, 28, false), (0x0144, 56, 29, false), (0x00F5, 57, 30, false)]
  ++ [(0x00B7, 59, 31, false), (0x008A, 60, 32, false), (0x0068, 62, 33, false), (0x004E, 63, 34, false), (0x003B, 32, 35, false),
    (0x002C, 33, 9, false), (0x5AE1, 37, 37, true), (0x484C, 64, 38, false), (0x3A0D, 65, 39, false), (0x2EF1, 67, 40, false),
    (0x261F, 68, 41, false), (0x1F33, 69, 42, false), (0x19A8, 70, 43, false), (0x1518, 72, 44, false), (0x1177, 73, 45, false),
    (0x0E74, 74, 46, false), (0x0BFB, 75, 47, false), (0x09F8, 77, 48, false), (0x0861, 78, 49, false), (0x0706, 79, 50, false),
    (0x05CD, 48, 51, false), (0x04DE, 50, 52, false), (0x040F, 50, 53, false), (0x0363, 51, 54, false), (0x02D4, 52, 55, false),
    (0x025C, 53, 56, false), (0x01F8, 54, 57, false), (0x01A4, 55, 58, false), (0x0160, 56, 59, false), (0x0125, 57, 60, false)]
  ++ [(0x00F6, 58, 61, false), (0x00CB, 59, 62, false), (0x00AB, 61, 63, false), (0x008F, 61, 32, false), (0x5B12, 65, 65, true),
    (0x4D04, 80, 66, false), (0x412C, 81, 67, false), (0x37D8, 82, 68, false), (0x2FE8, 83, 69, false), (0x293C, 84, 70, false),
    (0x2379, 86, 71, false), (0x1EDF, 87, 72, false), (0x1AA9, 87, 73, false), (0x174E, 72, 74, false), (0x1424, 72, 75, false),
    (0x119C, 74, 76, false), (0x0F6B, 74, 77, false), (0x0D51, 75, 78, false), (0x0BB6, 77, 79, false), (0x0A40, 77, 48, false),
    (0x5832, 80, 81, true), (0x4D1C, 88, 82, false), (0x438E, 89, 83, false), (0x3BDD, 90, 84, false), (0x34EE, 91, 85, false),
    (0x2EAE, 92, 86, false), (0x299A, 93, 87, false), (0x2516, 86, 71, false), (0x5570, 88, 89, true), (0x4CA9, 95, 90, false)]
  ++ [(0x44D9, 96, 91, false), (0x3E22, 97, 92, false), (0x3824, 99, 93, false), (0x32B4, 99, 94, false), (0x2E17, 93, 86, false),
    (0x56A8, 95, 96, true), (0x4F46, 101, 97, false), (0x47E5, 102, 98, false), (0x41CF, 103, 99, false), (0x3C3D, 104, 100, false),
    (0x375E, 99, 93, false), (0x5231, 105, 102, false), (0x4C0F, 106, 103, false), (0x4639, 107, 104, false), (0x415E, 103, 99, false),
    (0x5627, 105, 106, true), (0x50E7, 108, 107, false), (0x4B85, 109, 103, false), (0x5597, 110, 109, false), (0x504F, 111, 107, false),
    (0x5A10, 110, 111, true), (0x5522, 112, 109, false), (0x59EB, 112, 111, true)]

/-- Take the next byte of an interval, zeros after its end, into the code register. -/
def byteIn (c : JpegCoder) : JpegCoder :=
  { c with codeReg := c.codeReg + (c.bytes.headD 0).toNat * 256, bytes := c.bytes.tail, shifts := 8 }

/-- Shift until the interval is at least 8000H again. The fuel is 16 shifts. -/
def renorm : Nat → JpegCoder → JpegCoder
  | 0, c => c
  | f + 1, c =>
    let c := if c.shifts = 0 then byteIn c else c
    let c := { c with interval := 2 * c.interval, codeReg := 2 * c.codeReg, shifts := c.shifts - 1 }
    if c.interval < 0x8000 then renorm f c else c

/-- Decode one decision with the statistics of a bin: its state doubled, plus the more probable symbol. -/
def decide1 (bin : Nat) : JpegStep Bool := fun c =>
  let st := (assoc c.stats bin).getD 0
  let (qe, nlps, nmps, switch) := qeTable.getD (st / 2) (0, 0, 0, false)
  let mps := st % 2
  let a := c.interval - qe
  let more := fun c : JpegCoder => (mps == 1, renorm 16 { c with stats := setAssoc c.stats bin (2 * nmps + mps) })
  let less := fun c : JpegCoder =>
    (mps == 0, renorm 16 { c with stats := setAssoc c.stats bin (2 * nlps + if switch then 1 - mps else mps) })
  some (
    if c.codeReg / 65536 < a then
      if 0x8000 ≤ a then (mps == 1, { c with interval := a })
      else if a < qe then less { c with interval := a } else more { c with interval := a }
    else
      let c' := { c with codeReg := c.codeReg - a * 65536, interval := qe }
      if a < qe then more c' else less c')

/-- A decision of the fixed estimate one half. -/
def decideHalf : JpegStep Bool := fun c =>
  let a := c.interval - 0x5A1D
  let one := decide (a < 0x5A1D)
  some (
    if c.codeReg / 65536 < a then
      if 0x8000 ≤ a then (false, { c with interval := a }) else (one, renorm 16 { c with interval := a })
    else (!one, renorm 16 { c with codeReg := c.codeReg - a * 65536, interval := 0x5A1D }))

/-- Double a magnitude while the bins from one on say so; the fuel is what the standard allows. -/
def growMagnitude : Nat → Nat → Nat → JpegStep (Nat × Nat)
  | 0, _, _ => fun _ => none
  | f + 1, bin, m => do
    if ← decide1 bin then growMagnitude f (bin + 1) (2 * m) else return (bin, m)

/-- The bits of a magnitude below its highest. -/
def lowBits (bin : Nat) : Nat → Nat → JpegStep Nat
  | 0, v => return v
  | k + 1, v => do
    let hit ← decide1 bin
    lowBits bin k (if hit then v + 2 ^ k else v)

/-- A magnitude's bits and its sign. -/
def signedMagnitude (bin m : Nat) (neg : Bool) : JpegStep Int := do
  let v ← if m = 0 then pure 0 else lowBits (bin + 14) m.log2 m
  return if neg then -((v : Int) + 1) else (v : Int) + 1

/-- Statistics of DC table t begin at its bin, those of AC table t at its own. -/
def dcBin (t : Nat) : Nat := 64 * t
def acBin (t : Nat) : Nat := 1024 + 256 * t

/-- A DC difference: table, component of the scan, and its conditioning bounds L and U. -/
def arithDc (t i : Nat) (cond : Nat × Nat) : JpegStep Int := do
  let set := fun ctx => modify fun c : JpegCoder => { c with contexts := c.contexts.set i ctx }
  let st := dcBin t + ((← get).contexts.getD i 0)
  if !(← decide1 st) then
    set 0
    return 0
  else
    let neg ← decide1 (st + 1)
    let st := st + 2 + neg.toNat
    let (bin, m) ← if ← decide1 st then growMagnitude 15 (dcBin t + 20) 1 else pure (st, 0)
    set (if m < 2 ^ cond.1 / 2 then 0 else (if 2 ^ cond.2 / 2 < m then 12 else 4) + 4 * neg.toNat)
    signedMagnitude bin m neg

/-- The next coefficient that is not 0, from place k on: its place and value. The fuel is the places left. -/
def arithNext (t kx : Nat) : Nat → Nat → JpegStep (Nat × Int)
  | 0, _ => fun _ => none
  | f + 1, k => do
    let st := acBin t + 3 * (k - 1)
    if !(← decide1 (st + 1)) then arithNext t kx f (k + 1)
    else
      let neg ← decideHalf
      let (bin, m) ←
        if !(← decide1 (st + 2)) then pure (st + 2, 0)
        else if !(← decide1 (st + 2)) then pure (st + 2, 1)
        else growMagnitude 14 (acBin t + if k ≤ kx then 189 else 217) 2
      return (k, ← signedMagnitude bin m neg)

/-! ### Blocks -/

/-- What a scan says of a component: its place in the frame, its DC and AC table numbers. -/
structure ScanPart where
  comp : Nat
  dc : Nat
  ac : Nat

/-- A scan: its parts, spectral band and successive approximation. -/
structure JpegScan where
  parts : List ScanPart
  first : Nat
  last : Nat
  high : Nat
  low : Nat

/-- The tables in force: quantisation, Huffman by class and number, DC conditioning bounds, AC conditioning, restart interval. -/
structure JpegTables where
  quant : List (Nat × List Nat)
  huff : List ((Nat × Nat) × HuffTable)
  bounds : List (Nat × Nat × Nat)
  kx : List (Nat × Nat)
  interval : Nat

def huffTable (t : JpegTables) (cls n : Nat) : JpegStep HuffTable := fun c => (t.huff.lookup (cls, n)).map fun h => (h, c)

/-- Add to the prediction of component i of the scan. -/
def jpegPredict (i : Nat) (d : Int) : JpegStep Int := fun c =>
  let p := c.preds.getD i 0 + d
  some (p, { c with preds := c.preds.set i p })

/-- The DC coefficient of a first scan. -/
def dcFirst (arith : Bool) (t : JpegTables) (sc : JpegScan) (i : Nat) (p : ScanPart) : JpegStep Int := do
  let d ←
    if arith then arithDc p.dc i ((assoc t.bounds p.dc).getD (0, 1))
    else huffTable t 0 p.dc >>= huffCode >>= huffValue
  return (← jpegPredict i d) * 2 ^ sc.low

/-- AC coefficients of a first or only scan by Huffman codes, from place k on. The fuel is the places left. -/
def huffAc (h : HuffTable) (sc : JpegScan) : Nat → Nat → List Int → JpegStep (List Int)
  | 0, _, b => return b
  | f + 1, k, b => do
    if sc.last < k then return b
    else
      let rs ← huffCode h
      let r := rs / 16
      let s := rs % 16
      if s = 0 ∧ r < 15 then
        if sc.first = 0 ∧ r ≠ 0 then fun _ => none
        else
          let more ← jpegBits r
          modify fun c => { c with run := 2 ^ r + more - 1 }
          return b
      else if s = 0 then huffAc h sc f (k + 16) b
      else
        let v ← huffValue s
        if sc.last < k + r then fun _ => none
        else huffAc h sc f (k + r + 1) (b.set (k + r) (v * 2 ^ sc.low))

/-- The same by arithmetic coding. -/
def arithAc (t kx : Nat) (sc : JpegScan) : Nat → Nat → List Int → JpegStep (List Int)
  | 0, _, b => return b
  | f + 1, k, b => do
    if sc.last < k then return b
    else if ← decide1 (acBin t + 3 * (k - 1)) then return b
    else
      let (k, v) ← arithNext t kx (sc.last + 1 - k) k
      arithAc t kx sc f (k + 1) (b.set k (v * 2 ^ sc.low))

/-- One more bit of a coefficient that is not 0. -/
def refined (low : Nat) (v : Int) (more : Bool) : Int := if !more then v else if v < 0 then v - 2 ^ low else v + 2 ^ low

/-- Refine coefficients from place k on, up to the zero after `r` others; answers that place. -/
def huffPass (sc : JpegScan) : Nat → Nat → Nat → List Int → JpegStep (Nat × List Int)
  | 0, k, _, b => return (k, b)
  | f + 1, k, r, b => do
    if sc.last < k then return (k, b)
    else if b.getD k 0 ≠ 0 then
      let more ← jpegBits 1
      huffPass sc f (k + 1) r (b.set k (refined sc.low (b.getD k 0) (more == 1)))
    else if r = 0 then return (k, b)
    else huffPass sc f (k + 1) (r - 1) b

/-- AC coefficients of a refining scan by Huffman codes. -/
def huffRefine (h : HuffTable) (sc : JpegScan) : Nat → Nat → List Int → JpegStep (List Int)
  | 0, _, b => return b
  | f + 1, k, b => do
    if sc.last < k then return b
    else
      let rs ← huffCode h
      let r := rs / 16
      let s := rs % 16
      if 1 < s then fun _ => none
      else if s = 0 ∧ r < 15 then
        let more ← jpegBits r
        modify fun c => { c with run := 2 ^ r + more - 1 }
        return (← huffPass sc 64 k 64 b).2
      else
        let sign ← if s = 0 then pure 0 else jpegBits 1
        let v : Int := if sign = 1 then 2 ^ sc.low else -(2 ^ sc.low)
        let (k, b) ← huffPass sc 64 k r b
        huffRefine h sc f (k + 1) (if s = 0 ∨ sc.last < k then b else b.set k v)

/-- The next coefficient that a refining scan touches: the place after it. The fuel is the places left. -/
def arithTouch (t : Nat) (sc : JpegScan) : Nat → Nat → List Int → JpegStep (Nat × List Int)
  | 0, _, _ => fun _ => none
  | f + 1, k, b => do
    let st := acBin t + 3 * (k - 1)
    let v := b.getD k 0
    if v ≠ 0 then return (k + 1, b.set k (refined sc.low v (← decide1 (st + 2))))
    else if ← decide1 (st + 1) then return (k + 1, b.set k (if ← decideHalf then -(2 ^ sc.low) else 2 ^ sc.low))
    else arithTouch t sc f (k + 1) b

/-- AC coefficients of a refining scan by arithmetic coding; `kex` is the end of the block so far. -/
def arithRefine (t kex : Nat) (sc : JpegScan) : Nat → Nat → List Int → JpegStep (List Int)
  | 0, _, b => return b
  | f + 1, k, b => do
    if sc.last < k then return b
    else
      let stop ← if kex < k then decide1 (acBin t + 3 * (k - 1)) else pure false
      if stop then return b
      else
        let (k, b) ← arithTouch t sc (sc.last + 1 - k) k b
        arithRefine t kex sc f k b

/-- The last place up to a bound with a coefficient that is not 0. -/
def lastNonzero (b : List Int) : Nat → Nat
  | 0 => 0
  | k + 1 => if b.getD (k + 1) 0 ≠ 0 then k + 1 else lastNonzero b k

/-- The AC part of a block. -/
def acPart (arith : Bool) (t : JpegTables) (sc : JpegScan) (p : ScanPart) (b : List Int) : JpegStep (List Int) := do
  let k := max 1 sc.first
  if sc.last < k then return b
  else if arith then
    if sc.high = 0 then arithAc p.ac ((assoc t.kx p.ac).getD 5) sc 64 k b else arithRefine p.ac (lastNonzero b sc.last) sc 64 k b
  else
    let h ← huffTable t 1 p.ac
    let c ← get
    if c.run ≠ 0 then
      set { c with run := c.run - 1 }
      if sc.high = 0 then return b else return (← huffPass sc 64 k 64 b).2
    else if sc.high = 0 then huffAc h sc 64 k b
    else huffRefine h sc 64 k b

/-- One block of component i of the scan: coefficients in zigzag order. -/
def jpegBlock (arith : Bool) (t : JpegTables) (sc : JpegScan) (i : Nat) (p : ScanPart) (b : List Int) : JpegStep (List Int) := do
  let b ←
    if sc.first ≠ 0 then pure b
    else if sc.high = 0 then b.set 0 <$> dcFirst arith t sc i p
    else do
      let more ← if arith then decideHalf else (· == 1) <$> jpegBits 1
      return if more then b.set 0 (b.headD 0 + 2 ^ sc.low) else b
  acPart arith t sc p b

/-! ### Scans -/

/-- The coder at the start of an interval. -/
def freshCoder (arith : Bool) (n : Nat) (data : List Byte) : JpegCoder :=
  let c : JpegCoder :=
    { bits := if arith then [] else bitsHigh data, bytes := data, codeReg := 0, interval := 0x10000, shifts := 0, stats := []
      preds := List.replicate n 0, contexts := List.replicate n 0, run := 0 }
  if arith then
    { c with codeReg := (data.getD 0 0).toNat * 2 ^ 24 + (data.getD 1 0).toNat * 2 ^ 16, bytes := data.drop 2 }
  else c

/-- Coefficients of a frame: by component, by block, in zigzag order. -/
abbrev JpegPlanes := List (List (List Int))

/-- Decode the blocks of an interval, each named by its place in the scan and its number. -/
def jpegBlocks (arith : Bool) (t : JpegTables) (sc : JpegScan) : List (Nat × Nat) → JpegPlanes → JpegStep JpegPlanes
  | [], m => return m
  | (i, n) :: rest, m => do
    match sc.parts[i]? with
    | none => fun _ => none
    | some p =>
      let b ← jpegBlock arith t sc i p ((m.getD p.comp []).getD n [])
      jpegBlocks arith t sc rest (modAt m p.comp fun l => l.set n b)

/-- Entropy-coded data as intervals: stuffed zeros and fill bytes out, restarts in their order. -/
def jpegIntervals : List Byte → Nat → List Byte → Option (List (List Byte))
  | cur, _, [] => some [cur.reverse]
  | cur, _, [b] => some [(b :: cur).reverse]
  | cur, k, a :: b :: t =>
    if a.toNat = 0xFF then
      if b.toNat = 0 then jpegIntervals (a :: cur) k t
      else if b.toNat = 0xFF then jpegIntervals cur k (b :: t)
      else if b.toNat = 0xD0 + k % 8 then (jpegIntervals [] (k + 1) t).map (cur.reverse :: ·)
      else none
    else jpegIntervals (a :: cur) k (b :: t)

/-- Cut a list into parts of n, all in one where n is 0. -/
def partsOf (n : Nat) (l : List (List (Nat × Nat))) : List (List (Nat × Nat)) :=
  if n = 0 then [l.flatten] else (List.range (ceilDiv l.length n)).map fun i => ((l.drop (n * i)).take n).flatten

/-- The geometry of a component: blocks across and down that belong to its samples, blocks across as stored, sampling factors. -/
structure JpegGrid where
  cols : Nat
  rows : Nat
  stored : Nat
  storedRows : Nat
  hor : Nat
  ver : Nat

/-- The MCUs of a scan: the blocks of each, by place in the scan and number. -/
def scanUnits (grids : List JpegGrid) (sc : JpegScan) : List (List (Nat × Nat)) :=
  let grid := fun p : ScanPart => grids.getD p.comp { cols := 0, rows := 0, stored := 0, storedRows := 0, hor := 1, ver := 1 }
  match sc.parts with
  | [p] =>
    let g := grid p
    (List.range g.rows).flatMap fun y => (List.range g.cols).map fun x => [(0, y * g.stored + x)]
  | ps =>
    let across := (ps.head?.map fun p => (grid p).stored / (grid p).hor).getD 0
    let down := (ps.head?.map fun p => (grid p).storedRows / (grid p).ver).getD 0
    (List.range down).flatMap fun my => (List.range across).map fun mx =>
      ps.zipIdx.flatMap fun p =>
        let g := grid p.1
        (List.range g.ver).flatMap fun v => (List.range g.hor).map fun h => (p.2, (my * g.ver + v) * g.stored + mx * g.hor + h)

/-- Decode the intervals of a scan, each with its units. -/
def decodeIntervals (arith : Bool) (t : JpegTables) (sc : JpegScan) :
    List (List Byte) → List (List (Nat × Nat)) → JpegPlanes → Option JpegPlanes
  | [], [], m => some m
  | d :: ds, u :: us, m =>
    match (jpegBlocks arith t sc u m).run (freshCoder arith sc.parts.length d) with
    | some (m, _) => decodeIntervals arith t sc ds us m
    | none => none
  | _, _, _ => none

/-- Decode one scan into the coefficients. -/
def decodeScan (arith : Bool) (t : JpegTables) (grids : List JpegGrid) (sc : JpegScan) (data : List Byte) (m : JpegPlanes) :
    Option JpegPlanes :=
  (jpegIntervals [] 0 data).bind fun l => decodeIntervals arith t sc l (partsOf t.interval (scanUnits grids sc)) m

/-! ### Tables and scan headers -/

/-- DQT: tables of 64 values in zigzag order. -/
def readQuant : Nat → List Byte → List (Nat × List Nat) → Option (List (Nat × List Nat))
  | 0, _, _ => none
  | _ + 1, [], q => some q
  | f + 1, x :: d, q =>
    let wide := x.toNat / 16
    let n := 64 * (wide + 1)
    if 1 < wide ∨ 3 < x.toNat % 16 ∨ d.length < n then none
    else
      let v := (List.range 64).map fun i => beField d (i * (wide + 1)) (wide + 1)
      if v.contains 0 then none else readQuant f (d.drop n) (setAssoc q (x.toNat % 16) v)

/-- DHT: counts of 16 lengths, then the values. -/
def readHuff : Nat → List Byte → List ((Nat × Nat) × HuffTable) → Option (List ((Nat × Nat) × HuffTable))
  | 0, _, _ => none
  | _ + 1, [], h => some h
  | f + 1, x :: d, h =>
    let counts := (d.take 16).map (·.toNat)
    let n := counts.sum
    let fits := (counts.foldl (fun (a : Nat × Nat) k => (2 * a.1 + k, if 2 ^ (a.2 + 1) < 2 * a.1 + k then 99 else a.2 + 1)) (0, 0)).2 ≤ 16
    if 1 < x.toNat / 16 ∨ 3 < x.toNat % 16 ∨ 256 < n ∨ d.length < 16 + n ∨ !fits then none
    else
      let e := ((x.toNat / 16, x.toNat % 16), { counts, values := ((d.drop 16).take n).map (·.toNat) : HuffTable })
      readHuff f (d.drop (16 + n)) (e :: h.filter fun y => y.1 != e.1)

/-- DAC: conditioning of DC and AC tables. -/
def readConditioning : Nat → List Byte → JpegTables → Option JpegTables
  | 0, _, _ => none
  | _ + 1, [], t => some t
  | f + 1, x :: v :: d, t =>
    let n := x.toNat % 16
    let l := v.toNat % 16
    let u := v.toNat / 16
    if 3 < n then none
    else if x.toNat / 16 = 0 then
      if u < l then none else readConditioning f d { t with bounds := setAssoc t.bounds n (l, u) }
    else if x.toNat / 16 = 1 ∧ 1 ≤ v.toNat ∧ v.toNat ≤ 63 then readConditioning f d { t with kx := setAssoc t.kx n v.toNat }
    else none
  | _ + 1, [_], _ => none

/-- A scan header, with the components' numbers of the frame. -/
def readScan (ids : List Nat) (progressive : Bool) (d : List Byte) : Option JpegScan :=
  let n := field d 0 1
  let parts := (List.range n).filterMap fun i =>
    (ids.findIdx? (· == field d (1 + 2 * i) 1)).map fun comp =>
      { comp, dc := field d (2 + 2 * i) 1 / 16, ac := field d (2 + 2 * i) 1 % 16 : ScanPart }
  let a := field d (3 + 2 * n) 1
  let sc : JpegScan := { parts, first := field d (1 + 2 * n) 1, last := field d (2 + 2 * n) 1, high := a / 16, low := a % 16 }
  let band :=
    if progressive then
      decide (sc.first ≤ sc.last ∧ sc.last ≤ 63 ∧ sc.low ≤ 13) && (sc.high == 0 || sc.high == sc.low + 1)
        && if sc.first = 0 then sc.last == 0 else n == 1
    else decide (sc.first = 0 ∧ sc.last = 63 ∧ a = 0)
  if d.length = 4 + 2 * n ∧ 1 ≤ n ∧ n ≤ 4 ∧ parts.length = n ∧ (parts.map (·.comp)).Nodup
      ∧ (parts.all fun p => decide (p.dc < 4 ∧ p.ac < 4)) ∧ band then some sc
  else none

end Sys2Proof.Machine
end

