-- ==== Sys2Proof/Machine/Pictures.lean ====
section
/-! DEFINITION. JPEG and video (12 R302, R303, R305): what the manual defines of them, JPEG whole, and video over what its standards'
bitstream decoders give (log 33). -/

namespace Sys2Proof.Machine

/-! ### The inverse DCT (R303) -/

/-- cos(kπ/16) × 2^256 for k = 0 to 8, by half-angle roots. -/
def cosBase : List Nat :=
  let one := 2 ^ 256
  let half := fun c : Nat => intRoot ((one + c) * one / 2)
  let minus := fun c : Nat => intRoot ((one - c) * one / 2)
  let c4 := intRoot (one * one / 2)
  let c2 := half c4
  let c6 := minus c4
  [one, half c2, c2, half c6, c4, minus c6, c6, minus c2, 0]

/-- cos(kπ/16) × 2^256. -/
def cos16 (k : Nat) : Int :=
  let k := k % 32
  let k := if 16 < k then 32 - k else k
  if k ≤ 8 then (cosBase.getD k 0 : Nat) else -((cosBase.getD (16 - k) 0 : Nat) : Int)

/-- C(u)·cos((2x + 1)uπ/16) × 2^256 of T.81. -/
def dctBasis (u x : Nat) : Int := if u = 0 then cos16 4 else cos16 ((2 * x + 1) * u)

/-- A sample of a block before the level shift: the exact inverse DCT rounded to nearest, halves up. The sum is computed with some
230 bits after the point, and what lies within 2^-210 below a half is that half (log 112). -/
def idctSample (coef : List Int) (y x : Nat) : Int :=
  let sum := (List.range 64).foldl (fun (a : Int) i => a + coef.getD i 0 * (dctBasis (i % 8) x * dctBasis (i / 8) y)) 0
  (sum + 2 ^ 513 + 2 ^ 304) / 2 ^ 514

/-! ### JPEG (R302, R303) -/

/-- A component of a frame header: its number and sampling factors. -/
structure JpegComponent where
  id : Nat
  hor : Nat
  ver : Nat

/-- What the markers of a JPEG say: the frame header's offset, code and fields, the APP14 colour transform, and the offset of a marker
of what is not supported: DNL, or DHP or EXP of the hierarchical process. -/
structure JpegHeader where
  at_ : Nat
  sof : Nat
  precision : Nat
  height : Nat
  width : Nat
  components : List JpegComponent
  transform : Option Nat
  refused : Option Nat

/-- Bytes up to the next marker after entropy-coded data: FF followed by neither 00, nor FF, nor a restart. -/
def skipScan : Nat → List Byte → Nat
  | k, a :: b :: t =>
    if a.toNat = 0xFF ∧ b.toNat ≠ 0 ∧ b.toNat ≠ 0xFF ∧ ¬(0xD0 ≤ b.toNat ∧ b.toNat ≤ 0xD7) then k else skipScan (k + 1) (b :: t)
  | k, l => k + l.length

/-- A frame header marker. -/
def isSof (m : Nat) : Bool := decide (0xC0 ≤ m ∧ m ≤ 0xCF) && m != 0xC4 && m != 0xC8 && m != 0xCC

/-- Walk the markers from an offset up to EOI. -/
def jpegMarkers (b : List Byte) : Nat → Nat → JpegHeader → Parse JpegHeader
  | 0, o, _ => .error (resMalformed, o)
  | f + 1, o, h => do
    need (field b o 1 == 0xFF && decide (o + 2 ≤ b.length)) resMalformed o
    let m := field b (o + 1) 1
    if m = 0xD9 then return h
    else if m = 0xFF then jpegMarkers b f (o + 1) h
    else
      let n := beField b (o + 2) 2
      need (decide (2 ≤ n ∧ o + 2 + n ≤ b.length)) resMalformed o
      let d := slice b (o + 4) (n - 2)
      need (!(isSof m && h.sof != 0)) resMalformed o
      let h :=
        if isSof m then
          { h with
            at_ := o, sof := m, precision := field d 0 1, height := beField d 1 2, width := beField d 3 2
            components := (List.range (field d 5 1)).map fun i =>
              { id := field d (6 + 3 * i) 1, hor := field d (7 + 3 * i) 1 / 16, ver := field d (7 + 3 * i) 1 % 16 } }
        else if m = 0xEE ∧ d.take 5 = [0x41, 0x64, 0x6F, 0x62, 0x65] then { h with transform := some (field d 11 1) }
        else if [0xDC, 0xDE, 0xDF].contains m && h.refused.isNone then { h with refused := some o }
        else h
      let o := o + 2 + n
      jpegMarkers b f (if m = 0xDA then skipScan o (b.drop o) else o) h

/-- The place of a coefficient in a block, row by row, in zigzag order. -/
def zigzag : List Nat :=
  [0, 1, 8, 16, 9, 2, 3, 10, 17, 24, 32, 25, 18, 11, 4, 5, 12, 19, 26, 33, 40, 48, 41, 34, 27, 20, 13, 6, 7, 14, 21, 28, 35, 42, 49, 56,
    57, 50, 43, 36, 29, 22, 15, 23, 30, 37, 44, 51, 58, 59, 52, 45, 38, 31, 39, 46, 53, 60, 61, 54, 47, 55, 62, 63]

/-- A block in zigzag order, dequantised, row by row. -/
def dequantise (quant : List Nat) (b : List Int) : List Int :=
  (List.range 64).map fun i =>
    let k := zigzag.idxOf i
    b.getD k 0 * (quant.getD k 0 : Nat)

def maxHor (h : JpegHeader) : Nat := (h.components.map (·.hor)).foldl max 1
def maxVer (h : JpegHeader) : Nat := (h.components.map (·.ver)).foldl max 1

/-- The blocks of a component. -/
def jpegGrid (h : JpegHeader) (c : JpegComponent) : JpegGrid :=
  { cols := ceilDiv (ceilDiv (h.width * c.hor) (maxHor h)) 8, rows := ceilDiv (ceilDiv (h.height * c.ver) (maxVer h)) 8
    stored := ceilDiv h.width (8 * maxHor h) * c.hor, storedRows := ceilDiv h.height (8 * maxVer h) * c.ver, hor := c.hor, ver := c.ver }

/-- The scans of a frame as they are decoded: tables in force, coefficients, and for each component that a scan has named the table
that dequantises it. -/
structure JpegFrame where
  tables : JpegTables
  planes : JpegPlanes
  quants : List (Nat × List Nat)

/-- A scan: its components take the quantisation tables that are in force at their first one. -/
def jpegScan (h : JpegHeader) (selectors : List Nat) (d data : List Byte) (st : JpegFrame) : Option JpegFrame :=
  let progressive := h.sof == 0xC2 || h.sof == 0xCA
  (readScan (h.components.map (·.id)) progressive d).bind fun sc =>
    let named := sc.parts.map (·.comp)
    let again := named.any fun c => (assoc st.quants c).isSome
    let quants := named.foldl (fun (q : Option (List (Nat × List Nat))) c => q.bind fun q =>
      if (assoc q c).isSome then some q
      else (assoc st.tables.quant (selectors.getD c 0)).map fun v => setAssoc q c v) (some st.quants)
    if !progressive && again then none
    else
      match quants, decodeScan (decide (0xC9 ≤ h.sof)) st.tables (h.components.map (jpegGrid h)) sc data st.planes with
      | some quants, some planes => some { st with planes, quants }
      | _, _ => none

/-- Walk the markers again, taking tables and decoding scans. -/
def jpegScans (b : List Byte) (h : JpegHeader) (selectors : List Nat) : Nat → Nat → JpegFrame → Parse JpegFrame
  | 0, o, _ => .error (resMalformed, o)
  | f + 1, o, st =>
    let m := field b (o + 1) 1
    if m = 0xD9 then .ok st
    else if m = 0xFF then jpegScans b h selectors f (o + 1) st
    else
      let d := slice b (o + 4) (beField b (o + 2) 2 - 2)
      let next := o + 2 + beField b (o + 2) 2
      let tables := fun t : Option JpegTables => t.map fun t => { st with tables := t }
      let after := if m = 0xDA then skipScan next (b.drop next) else next
      let step :=
        if m = 0xDB then tables ((readQuant (d.length + 1) d st.tables.quant).map fun q => { st.tables with quant := q })
        else if m = 0xC4 then tables ((readHuff (d.length + 1) d st.tables.huff).map fun x => { st.tables with huff := x })
        else if m = 0xCC then tables (readConditioning (d.length + 1) d st.tables)
        else if m = 0xDD then (if d.length = 2 then some { st with tables := { st.tables with interval := beField d 0 2 } } else none)
        else if m = 0xDA then jpegScan h selectors d (slice b next (after - next)) st
        else some st
      match step with
      | some st => jpegScans b h selectors f after st
      | none => .error (resMalformed, o)

/-- Sample of a component at its own resolution. -/
def jpegSample (h : JpegHeader) (blocks : List (List Int)) (stored y x : Nat) : Nat :=
  let v := idctSample (blocks.getD (y / 8 * stored + x / 8) []) (y % 8) (x % 8) + 2 ^ (h.precision - 1)
  (max 0 (min v (2 ^ h.precision - 1))).toNat

/-- Codes of a component at every luma position: its samples replicated over those they cover (R303). -/
def jpegPlane (h : JpegHeader) (st : JpegFrame) (c : JpegComponent × Nat) : List Nat :=
  let blocks := (st.planes.getD c.2 []).map (dequantise ((assoc st.quants c.2).getD []))
  (List.range h.height).flatMap fun y => (List.range h.width).map fun x =>
    jpegSample h blocks (jpegGrid h c.1).stored (y * c.1.ver / maxVer h) (x * c.1.hor / maxHor h)

/-- JPEG to codes (R302, R303). -/
def decodeJpeg (b : List Byte) : Parse Decoded := do
  need (beField b 0 2 == 0xFFD8) resMalformed 0
  let h ← jpegMarkers b b.length 2
    { at_ := 0, sof := 0, precision := 8, height := 0, width := 0, components := [], transform := none, refused := none }
  match h.refused with
  | some o => .error (resUnsupported, o)
  | none =>
    need (h.sof != 0) resMalformed 0
    need ([0xC0, 0xC1, 0xC2, 0xC9, 0xCA].contains h.sof && (h.components.length == 1 || h.components.length == 3)) resUnsupported h.at_
    need ((h.precision == 8 || h.precision == 12 && h.sof != 0xC0) && h.height != 0 && h.width != 0
      && h.components.all fun c => decide (1 ≤ c.hor ∧ c.hor ≤ 4 ∧ 1 ≤ c.ver ∧ c.ver ≤ 4)) resMalformed h.at_
    need (decide (h.height ≤ 16384 ∧ h.width ≤ 16384 ∧ h.height * h.width ≤ 67108864)) resLimit h.at_
    let selectors := (List.range h.components.length).map fun i => field b (h.at_ + 12 + 3 * i) 1
    let empty := h.components.map fun c => List.replicate ((jpegGrid h c).stored * (jpegGrid h c).storedRows) (List.replicate 64 0)
    let st ← jpegScans b h selectors b.length 2
      { tables := { quant := [], huff := [], bounds := [], kx := [], interval := 0 }, planes := empty, quants := [] }
    need (st.quants.length == h.components.length) resMalformed h.at_
    return { frames := 1, channels := h.components.length, height := h.height, width := h.width, depth := h.precision
             ycc := h.components.length == 3 && h.transform != some 0, float := false, rate := 0
             codes := h.components.zipIdx.flatMap (jpegPlane h st) }

/-! ### HEVC and AV1 (R305) -/

/-- The profiles and tools that the video units accept: HEVC Main and Main 10; AV1 Main, and no large-scale tile. -/
def videoSupported (kind : Nat) (v : VideoStream) : Bool :=
  (v.depth == 8 || v.depth == 10) && (v.chroma == 1 || (kind == 4 && v.chroma == 0))
    && if kind = 3 then (v.profile == 1 && v.depth == 8 || v.profile == 2) && decide (v.level ≤ 62)
      else v.profile == 0 && !v.largeScale && decide (v.level ≤ 63)

/-- The luma or chroma code at a place of a picture's output window, chroma taken at (x >> 1, y >> 1). -/
def videoCode (v : VideoPicture) (c y x : Nat) : Nat :=
  let cw := (v.codedWidth + 1) / 2
  if c = 0 then v.luma.getD ((v.top + y) * v.codedWidth + v.left + x) 0
  else (if c = 1 then v.cb else v.cr).getD ((v.top / 2 + y >>> 1) * cw + v.left / 2 + x >>> 1) 0

/-- A picture is within R305's limits. -/
def videoSizeOk (v : VideoPicture) : Bool :=
  decide (v.codedHeight ≤ 4096 ∧ v.codedWidth ≤ 4096 ∧ v.codedHeight * v.codedWidth ≤ 9437184)

/-- HEVC or AV1 to codes: the output window of each picture. Pictures of differing windows have no layout in R299, and are not supported
(log 33). -/
def decodeVideo (kind : Nat) (b : List Byte) : Parse Decoded := do
  let v := Config.videoStream kind b
  match v.broken with
  | some (checksum, o) => .error (if checksum then resChecksum else resMalformed, o)
  | none =>
    need (videoSupported kind v) resUnsupported v.headerAt
    need (v.pictures.all videoSizeOk) resLimit v.headerAt
    let height := (v.pictures.head?.map (·.height)).getD 0
    let width := (v.pictures.head?.map (·.width)).getD 0
    need (v.pictures.all fun p => p.height == height && p.width == width) resUnsupported v.headerAt
    let channels := if v.chroma = 0 then 1 else 3
    return { frames := v.pictures.length, channels, height, width, depth := v.depth, ycc := false, float := false, rate := 0
             codes := v.pictures.flatMap fun p => (List.range channels).flatMap fun c =>
               (List.range height).flatMap fun y => (List.range width).map fun x => videoCode p c y x }

end Sys2Proof.Machine
end

