-- ==== Sys2Proof/Machine/Sound.lean ====
section
/-! DEFINITION. Sound (12 R306, R307): WAV, FLAC and Opus in Ogg to samples, and the log-mel front end. What is taken from a format's
standard is PRESUMED (log 33). -/

namespace Sys2Proof.Machine

/-- The binary32 reciprocal of a small number (R114). -/
def recipNat (c : Nat) : Nat := toF32 (.fin false (2 * (2 ^ 60 / c) + if 2 ^ 60 % c = 0 then 0 else 1) (-61))

/-- Decoded sound. -/
def soundOf (frames channels depth : Nat) (float : Bool) (rate : Nat) (codes : List Nat) : Decoded :=
  { frames, channels, height := 0, width := 0, depth, ycc := false, float, rate, codes }

/-- Samples per channel are limited to 2^31 (R306). -/
def soundLimit (frames at_ : Nat) : Parse Unit := need (decide (frames ≤ 2 ^ 31)) resLimit at_

/-! ### WAV -/

/-- The chunk of a RIFF file with a tag: offset and data. -/
def riffChunk (b : List Byte) (tag : Nat) : Nat → Nat → Parse (Nat × List Byte)
  | 0, o => .error (resMalformed, o)
  | f + 1, o => do
    let n := field b (o + 4) 4
    need (decide (o + 8 + n ≤ b.length)) resMalformed o
    if field b o 4 = tag then return (o, slice b (o + 8) n) else riffChunk b tag f (o + 8 + n + n % 2)

/-- The end of the subformat GUID of WAVE_FORMAT_EXTENSIBLE. -/
def waveGuid : List Byte := [0x00, 0x00, 0x00, 0x00, 0x10, 0x00, 0x80, 0x00, 0x00, 0xAA, 0x00, 0x38, 0x9B, 0x71]

/-- WAV to samples: tags 1 and 3, or EXTENSIBLE with those subformats (R306). -/
def decodeWav (b : List Byte) : Parse Decoded := do
  need (field b 0 4 == 0x46464952 && field b 8 4 == 0x45564157) resMalformed 0
  let (at_, f) ← riffChunk b 0x20746D66 b.length 12
  need (decide (16 ≤ f.length)) resMalformed at_
  let (channels, rate, bits) := (field f 2 2, field f 4 4, field f 14 2)
  let extensible := field f 0 2 == 0xFFFE
  need (!extensible || decide (40 ≤ f.length)) resMalformed at_
  need (!extensible || slice f 26 14 == waveGuid) resUnsupported at_
  let tag := if extensible then field f 24 2 else field f 0 2
  need ((tag == 1 && [8, 16, 24, 32].contains bits) || (tag == 3 && bits == 32)) resUnsupported at_
  need (between 1 8 channels) resUnsupported at_
  need (field f 12 2 == channels * (bits / 8)) resMalformed at_
  let (o, d) ← riffChunk b 0x61746164 b.length 12
  need (d.length % (channels * (bits / 8)) == 0) resMalformed o
  let frames := d.length / (channels * (bits / 8))
  soundLimit frames o
  let codes := (List.range (frames * channels)).map fun i => field d (i * (bits / 8)) (bits / 8)
  match codes.findIdx? fun c => tag == 3 && !(f32 c).finite with
  | some i => .error (resMalformed, o + 8 + 4 * i)
  | none => return soundOf frames channels bits (tag == 3) rate codes

/-! ### MD5, for FLAC's STREAMINFO -/

def md5Table : List Nat :=
  [0xD76AA478, 0xE8C7B756, 0x242070DB, 0xC1BDCEEE, 0xF57C0FAF, 0x4787C62A, 0xA8304613, 0xFD469501,
    0x698098D8, 0x8B44F7AF, 0xFFFF5BB1, 0x895CD7BE, 0x6B901122, 0xFD987193, 0xA679438E, 0x49B40821,
    0xF61E2562, 0xC040B340, 0x265E5A51, 0xE9B6C7AA, 0xD62F105D, 0x02441453, 0xD8A1E681, 0xE7D3FBC8,
    0x21E1CDE6, 0xC33707D6, 0xF4D50D87, 0x455A14ED, 0xA9E3E905, 0xFCEFA3F8, 0x676F02D9, 0x8D2A4C8A,
    0xFFFA3942, 0x8771F681, 0x6D9D6122, 0xFDE5380C, 0xA4BEEA44, 0x4BDECFA9, 0xF6BB4B60, 0xBEBFBC70,
    0x289B7EC6, 0xEAA127FA, 0xD4EF3085, 0x04881D05, 0xD9D4D039, 0xE6DB99E5, 0x1FA27CF8, 0xC4AC5665,
    0xF4292244, 0x432AFF97, 0xAB9423A7, 0xFC93A039, 0x655B59C3, 0x8F0CCC92, 0xFFEFF47D, 0x85845DD1,
    0x6FA87E4F, 0xFE2CE6E0, 0xA3014314, 0x4E0811A1, 0xF7537E82, 0xBD3AF235, 0x2AD7D2BB, 0xEB86D391]

def md5Turns : List Nat := [7, 12, 17, 22, 5, 9, 14, 20, 4, 11, 16, 23, 6, 10, 15, 21]

def rotl32 (x k : Nat) : Nat := (x * 2 ^ k) % 2 ^ 32 + x / 2 ^ (32 - k)

/-- One of the 64 operations. -/
def md5Step (m : List Nat) (s : Nat × Nat × Nat × Nat) (i : Nat) : Nat × Nat × Nat × Nat :=
  let (a, b, c, d) := s
  let nb := 2 ^ 32 - 1 - b
  let nd := 2 ^ 32 - 1 - d
  let (f, g) :=
    if i < 16 then ((b &&& c) ||| (nb &&& d), i) else if i < 32 then ((d &&& b) ||| (nd &&& c), (5 * i + 1) % 16)
    else if i < 48 then (b ^^^ c ^^^ d, (3 * i + 5) % 16) else (c ^^^ (b ||| nd), 7 * i % 16)
  let x := (a + f + md5Table.getD i 0 + m.getD g 0) % 2 ^ 32
  (d, add32 b (rotl32 x (md5Turns.getD (i / 16 * 4 + i % 4) 0)), b, c)

/-- MD5. -/
def md5 (b : List Byte) : List Byte :=
  let pad := (119 - b.length % 64) % 64
  let msg := b ++ [0x80] ++ List.replicate pad 0 ++ leBytes 8 (8 * b.length)
  let h := (List.range (msg.length / 64)).foldl (fun h k =>
    let m := (List.range 16).map fun i => field msg (64 * k + 4 * i) 4
    let r := (List.range 64).foldl (md5Step m) h
    (add32 h.1 r.1, add32 h.2.1 r.2.1, add32 h.2.2.1 r.2.2.1, add32 h.2.2.2 r.2.2.2)) (0x67452301, 0xEFCDAB89, 0x98BADCFE, 0x10325476)
  leBytes 4 h.1 ++ leBytes 4 h.2.1 ++ leBytes 4 h.2.2.1 ++ leBytes 4 h.2.2.2

/-! ### FLAC -/

/-- CRC of `width` bits, most significant bit first. -/
def crcHigh (width poly : Nat) (b : List Byte) : Nat :=
  (bitsHigh b).foldl (fun c x =>
    let top := bit c (width - 1) != x
    (2 * c % 2 ^ width) ^^^ if top then poly else 0) 0

/-- k signed values of n bits. -/
def takeSigned (n : Nat) : Nat → List Bool → Option (List Int × List Bool)
  | 0, l => some ([], l)
  | k + 1, l => (takeHigh 0 n l).bind fun r => (takeSigned n k r.2).map fun t => (signed n r.1 :: t.1, t.2)

/-- k Rice-coded residuals with parameter p. -/
def takeRice (p : Nat) : Nat → List Bool → Option (List Int × List Bool)
  | 0, l => some ([], l)
  | k + 1, l =>
    (takeUnary 0 l).bind fun q => (takeHigh 0 p q.2).bind fun r =>
      let v := q.1 * 2 ^ p + r.1
      (takeRice p k r.2).map fun t => ((if v % 2 = 0 then (v / 2 : Int) else -((v + 1) / 2 : Int)) :: t.1, t.2)

/-- The residual's partitions, each with its parameter or unencoded. -/
def takePartitions (width size first : Nat) : Nat → List Bool → Option (List Int × List Bool)
  | 0, l => some ([], l)
  | k + 1, l =>
    (takeHigh 0 width l).bind fun p =>
      let n := size - first
      let part :=
        if p.1 = 2 ^ width - 1 then (takeHigh 0 5 p.2).bind fun w => if w.1 = 0 then some (List.replicate n 0, w.2) else takeSigned w.1 n w.2
        else takeRice p.1 n p.2
      part.bind fun r => (takePartitions width size 0 k r.2).map fun t => (r.1 ++ t.1, t.2)

/-- The residual of a block after its warm-up samples. -/
def takeResidual (block order : Nat) (l : List Bool) : Option (List Int × List Bool) :=
  (takeHigh 0 2 l).bind fun m => (takeHigh 0 4 m.2).bind fun po =>
    if 1 < m.1 ∨ block % 2 ^ po.1 ≠ 0 ∨ block / 2 ^ po.1 < order then none
    else takePartitions (4 + m.1) (block / 2 ^ po.1) order (2 ^ po.1) po.2

/-- Samples from residuals by linear prediction; `past` stands newest first, and the coefficients apply to it in that order. -/
def predict (coef : List Int) (shift : Nat) : List Int → List Int → List Int
  | past, [] => past.reverse
  | past, e :: l => predict coef shift ((e + ((coef.zip past).map fun x => x.1 * x.2).sum / 2 ^ shift) :: past) l

/-- Coefficients of the fixed predictors. -/
def fixedCoef (order : Nat) : List Int := [[], [1], [2, -1], [3, -3, 1], [4, -6, 4, -1]].getD order []

/-- One subframe of a block at a sample width. -/
def takeSubframe (block depth : Nat) (l : List Bool) : Option (List Int × List Bool) :=
  (takeHigh 0 8 l).bind fun h =>
    let wasted := if h.1 % 2 = 1 then (takeUnary 1 h.2) else some (0, h.2)
    wasted.bind fun w =>
      let type := h.1 / 2
      let n := depth - w.1
      let body :=
        if depth ≤ w.1 then none
        else if type = 0 then (takeSigned n 1 w.2).map fun r => (List.replicate block (r.1.headD 0), r.2)
        else if type = 1 then takeSigned n block w.2
        else if 8 ≤ type ∧ type ≤ 12 then
          (takeSigned n (type - 8) w.2).bind fun u => (takeResidual block (type - 8) u.2).map fun r =>
            (predict (fixedCoef (type - 8)) 0 u.1.reverse r.1, r.2)
        else if 32 ≤ type ∧ type < 64 then
          let order := type - 31
          (takeSigned n order w.2).bind fun u => (takeHigh 0 4 u.2).bind fun p => (takeHigh 0 5 p.2).bind fun sh =>
            if p.1 = 15 ∨ 16 ≤ sh.1 then none
            else (takeSigned (p.1 + 1) order sh.2).bind fun c => (takeResidual block order c.2).map fun r =>
              (predict c.1 sh.1 u.1.reverse r.1, r.2)
        else none
      body.map fun r => (r.1.map (· * 2 ^ w.1), r.2)

/-- The subframes of every channel. -/
def takeChannels (block : Nat) : List Nat → List Bool → Option (List (List Int) × List Bool)
  | [], l => some ([], l)
  | d :: t, l => (takeSubframe block d l).bind fun r => (takeChannels block t r.2).map fun u => (r.1 :: u.1, u.2)

/-- Stereo decorrelation of a channel assignment. -/
def decorrelate (assign : Nat) (cs : List (List Int)) : List (List Int) :=
  let a := cs.getD 0 []
  let b := cs.getD 1 []
  let both := a.zip b
  if assign = 8 then [a, both.map fun x => x.1 - x.2]
  else if assign = 9 then [both.map fun x => x.1 + x.2, b]
  else if assign = 10 then [both.map fun x => (2 * x.1 + x.2 % 2 + x.2) / 2, both.map fun x => (2 * x.1 + x.2 % 2 - x.2) / 2]
  else cs

/-- Bytes of the coded number of a frame header. -/
def codedBytes (x : Nat) : Nat :=
  if x < 0x80 then 1 else if x < 0xC0 then 0 else if x < 0xE0 then 2 else if x < 0xF0 then 3 else if x < 0xF8 then 4 else if x < 0xFC then 5
  else if x < 0xFE then 6 else if x = 0xFE then 7 else 0

/-- What STREAMINFO says. -/
structure FlacInfo where
  rate : Nat
  channels : Nat
  depth : Nat
  total : Nat
  md5 : List Byte

/-- One frame at an offset: its samples by channel, and where it ends; both its CRCs checked (R301). -/
def flacFrame (b : List Byte) (s : FlacInfo) (o : Nat) : Parse (List (List Int) × Nat) := do
  need (beField b o 2 / 2 == 0x7FFC && field b (o + 3) 1 % 2 == 0) resMalformed o
  let code := field b (o + 2) 1
  let assign := field b (o + 3) 1 / 16
  let k := codedBytes (field b (o + 4) 1)
  need (k != 0 && decide (assign ≤ 10)) resMalformed o
  let bs := code / 16
  let extra := if bs = 6 then 1 else if bs = 7 then 2 else 0
  let block := if bs = 1 then 192 else if 2 ≤ bs ∧ bs ≤ 5 then 144 * 2 ^ bs else if bs = 6 ∨ bs = 7 then beField b (o + 4 + k) extra + 1
    else 2 ^ bs
  let rateExtra := if code % 16 = 12 then 1 else if code % 16 = 13 ∨ code % 16 = 14 then 2 else 0
  let depth := [s.depth, 8, 12, 0, 16, 20, 24, 32].getD (field b (o + 3) 1 / 2 % 8) 0
  let e := o + 4 + k + extra + rateExtra
  need (bs != 0 && code % 16 != 15 && depth == s.depth && (if assign < 8 then assign + 1 else 2) == s.channels) resMalformed o
  need (decide (e < b.length)) resMalformed o
  need (crcHigh 8 0x07 (slice b o (e - o)) == field b e 1) resChecksum o
  let depths := (List.range s.channels).map fun c =>
    if (assign = 8 ∧ c = 1) ∨ (assign = 9 ∧ c = 0) ∨ (assign = 10 ∧ c = 1) then depth + 1 else depth
  let l := bitsHigh (b.drop (e + 1))
  let (cs, rest) ← orBad (takeChannels block depths l) o
  let used := (l.length - rest.length + 7) / 8
  let f := e + 1 + used
  need (decide (f + 2 ≤ b.length)) resMalformed o
  need (crcHigh 16 0x8005 (slice b o (f - o)) == beField b f 2) resChecksum o
  return (decorrelate assign cs, f + 2)

/-- Every frame to the end of the stream. -/
def flacFrames (b : List Byte) (s : FlacInfo) : Nat → Nat → Parse (List (List (List Int)))
  | 0, o => .error (resMalformed, o)
  | f + 1, o => do
    if b.length ≤ o then return []
    else
      let (cs, e) ← flacFrame b s o
      return cs :: (← flacFrames b s f e)

/-- Skip the metadata blocks; answers the offset of the first frame. -/
def flacMetadata (b : List Byte) : Nat → Nat → Parse Nat
  | 0, o => .error (resMalformed, o)
  | f + 1, o => do
    let n := beField b (o + 1) 3
    need (decide (o + 4 + n ≤ b.length)) resMalformed o
    if bit (field b o 1) 7 then return o + 4 + n else flacMetadata b f (o + 4 + n)

/-- FLAC to samples (R306): native stream, 1 to 8 channels, 8, 12, 16, 20 or 24 bits; a non-zero MD5 is checked. -/
def decodeFlac (wanted : Nat) (b : List Byte) : Parse Decoded := do
  need (beField b 0 4 == 0x664C6143 && field b 4 1 % 128 == 0 && beField b 5 3 == 34 && decide (42 ≤ b.length)) resMalformed 0
  let x := beField b 18 8
  let s : FlacInfo := { rate := x / 2 ^ 44, channels := x / 2 ^ 41 % 8 + 1, depth := x / 2 ^ 36 % 32 + 1, total := x % 2 ^ 36, md5 := slice b 26 16 }
  need ([8, 12, 16, 20, 24].contains s.depth) resUnsupported 8
  need (s.rate == wanted) resRate 8
  soundLimit s.total 8
  let at_ ← flacMetadata b b.length 4
  let fs ← flacFrames b s (b.length + 1) at_
  let frames := (fs.map fun cs => (cs.headD []).length).sum
  need (s.total == 0 || s.total == frames) resMalformed at_
  soundLimit frames at_
  let codes := fs.flatMap fun cs => (List.range (cs.headD []).length).flatMap fun i => cs.map fun c => c.getD i 0
  let bytes := ceilDiv s.depth 8
  need (s.md5.all (· == 0) || s.md5 == md5 (codes.flatMap fun v => leBytes bytes (unsigned (8 * bytes) v))) resChecksum 8
  return soundOf frames s.channels s.depth false s.rate (codes.map (unsigned s.depth))

/-! ### Opus in Ogg -/

/-- A page: its offset, serial number, granule position and segments. -/
structure OggPage where
  at_ : Nat
  serial : Nat
  granule : Nat
  lacing : List Nat
  body : List Byte

/-- Every page, its CRC checked over the page with the field zero. -/
def oggPages (b : List Byte) : Nat → Nat → Parse (List OggPage)
  | 0, o => .error (resMalformed, o)
  | f + 1, o => do
    if b.length ≤ o then return []
    else
      need (field b o 4 == 0x5367674F && zeroField b (o + 4) 1 && decide (o + 27 ≤ b.length)) resMalformed o
      let lacing := (slice b (o + 27) (field b (o + 26) 1)).map (·.toNat)
      let e := o + 27 + lacing.length + lacing.sum
      need (decide (e ≤ b.length)) resMalformed o
      let page := slice b o (e - o)
      need (crcHigh 32 0x04C11DB7 (page.take 22 ++ leBytes 4 0 ++ page.drop 26) == field b (o + 22) 4) resChecksum o
      let p : OggPage := { at_ := o, serial := field b (o + 14) 4, granule := field b (o + 6) 8, lacing, body := page.drop (27 + lacing.length) }
      return p :: (← oggPages b f e)

/-- Packets from lacing values and bytes; `cur` is the packet in hand. -/
def oggPackets : List Byte → List Nat → List Byte → List (List Byte)
  | cur, [], _ => if cur.isEmpty then [] else [cur]
  | cur, n :: t, b => if n < 255 then (cur ++ b.take n) :: oggPackets [] t (b.drop n) else oggPackets (cur ++ b.take n) t (b.drop n)

/-- Opus to samples at the rate of the audio mode: one logical stream, mapping family 0, output gain 0; pre-skip and end trimming
applied (R306). -/
def decodeOpus (rate : Nat) (b : List Byte) : Parse Decoded := do
  let ps ← oggPages b (b.length + 1) 0
  let serial := (ps.head?.map (·.serial)).getD 0
  match ps.find? fun p => p.serial != serial with
  | some p => .error (resUnsupported, p.at_)
  | none =>
    let packets := oggPackets [] (ps.flatMap (·.lacing)) (ps.flatMap (·.body))
    let h := packets.headD []
    need (h.take 8 == [0x4F, 0x70, 0x75, 0x73, 0x48, 0x65, 0x61, 0x64] && decide (19 ≤ h.length) && field h 8 1 / 16 == 0
      && decide (2 ≤ packets.length)) resMalformed 0
    need (field h 18 1 == 0 && field h 16 2 == 0) resUnsupported 0
    let channels := field h 9 1
    need (between 1 2 channels) resMalformed 0
    let codes ← orBad (Config.opusDecode rate channels (packets.drop 2)) 0
    let skip := field h 10 2 * rate / 48000
    let last := (ps.getLast?.map (·.granule)).getD 0
    let frames := min (codes.length / channels - skip) ((last - field h 10 2) * rate / 48000)
    soundLimit frames 0
    return soundOf frames channels 16 false rate ((codes.drop (skip * channels)).take (frames * channels))

/-! ### Circular functions and logarithms to many digits -/

/-- 1/x − 1/3x³ + …, held × 2^p: the arc tangent of 1/x. -/
def arcTan (p x : Nat) : Nat → Nat → Nat → Int
  | 0, _, _ => 0
  | f + 1, k, power => (if k % 4 = 1 then (power / k : Int) else -(power / k : Int)) + arcTan p x f (k + 2) (power / (x * x))

/-- π × 2^1200, by Machin's formula. -/
def piScaled : Int := 4 * (4 * arcTan 1200 5 600 1 (2 ^ 1200 / 5) - arcTan 1200 239 600 1 (2 ^ 1200 / 239))

/-- Terms of the cosine (k even) or sine (k odd) series from θ^k/k! on, held × 2^1200. -/
def circleTerms (theta : Int) : Nat → Nat → Int → Int
  | 0, _, _ => 0
  | f + 1, k, term => term + circleTerms theta f (k + 2) (-(term * theta / 2 ^ 1200 * theta / 2 ^ 1200) / ((k + 1) * (k + 2)))

/-- cos(2π·a/n) × 2^1200; exact at the quarters of the circle. -/
def cosTurn (a n : Nat) : Int :=
  let a := a % n
  let b := if n < 2 * a then n - a else a
  let first := fun b : Nat =>
    if b = 0 then (2 : Int) ^ 1200 else if 4 * b = n then 0 else circleTerms (2 * piScaled * b / n) 120 0 (2 ^ 1200)
  if 4 * b ≤ n then first b else if n % 2 = 0 then -first (n / 2 - b) else circleTerms (2 * piScaled * b / n) 200 0 (2 ^ 1200)

/-- sin(2π·a/n) × 2^1200, for a multiple n of 4. -/
def sinTurn (a n : Nat) : Int := cosTurn (a + n - n / 4) n

/-- log2 of (num / den) × 2^120 for num ≥ den. -/
def log2Ratio (num den : Nat) : Nat :=
  let l := Nat.log2 (num / den)
  l * 2 ^ 120 + logDigits 120 (num * 2 ^ 256 / (den * 2 ^ l)) 0

/-! ### The log-mel front end (R307) -/

/-- W, H and N of R307. -/
def melShape (rate : Nat) : Nat × Nat × Nat := if rate = 16000 then (400, 160, 512) else (1200, 480, 2048)

/-- The window coefficient: the binary32 nearest 0.5 − 0.5·cos(2πi/W) (step 2; log 112). -/
def melWindow (w i : Nat) : Nat := toF32 (.fin false (2 ^ 1200 - cosTurn i w).toNat (-1201))

/-- A finite binary32 value × 2^149. -/
def wholeOf (c : Nat) : Option Int := match f32 c with
  | .fin s m e => some (signedNat s (m * 2 ^ (e + 149).toNat))
  | _ => none

/-- P[k]: the exact squared magnitude of the DFT of N samples at bin k, rounded once (step 3). The sums are held with 1,349 bits
after the point and their squares brought to 600 (log 112). -/
def dftPower (n : Nat) (frame : List Nat) (k : Nat) : Nat :=
  match frame.mapM wholeOf with
  | none => canonicalNan fBinary32
  | some xs =>
    let part := fun wave : Nat → Nat → Int => (xs.zipIdx.map fun x => x.1 * wave (x.2 * k % n) n).sum
    let re := part cosTurn
    let im := part sinTurn
    toF32 (.fin false (((re * re + im * im).toNat + 2 ^ 2097) / 2 ^ 2098) (-600))

/-- The weight of filter m at bin k: a triangle on the HTK mel scale, whose corners are the mel points m, m + 1 and m + 2 of
n_mels + 2 equal steps from 0 to r/2 (step 4; log 124). Bin k lies at (n_mels + 1)·mel(k·r/N)/mel(r/2) of those steps. -/
def melWeight (nMels rate m k : Nat) : Nat :=
  let n := (melShape rate).2.2
  let one : Int := 2 ^ 110
  let t : Int :=
    if k = 0 then 0 else if 2 * k = n then (nMels + 1) * one
    else (nMels + 1) * log2Ratio (700 * n + k * rate) (700 * n) * one / log2Ratio (1400 + rate) 1400
  let w := min (t - m * one) ((m + 2) * one - t)
  if w ≤ 0 then 0 else toF32 (.fin false w.toNat (-110))

/-- 2^-40 as binary32. -/
def melFloor : Nat := 87 * 2 ^ 23

/-- L: the binary32 nearest log10(2). -/
def log10Two : Nat := 0x3E9A209B

/-- The output of step 6, fl(log2(x) × L). -/
def logMel (x : Nat) : Nat := mulF32 (log2F32 x) log10Two

/-- One mel frame (R307 steps 2 to 6). -/
def melFrame (rate nMels : Nat) (x : List Nat) (f : Nat) : List Nat :=
  let (w, h, n) := melShape rate
  let frame := (List.range n).map fun i => if i < w then mulF32 (x.getD (f * h + i) 0) (melWindow w i) else 0
  let power := (List.range (n / 2 + 1)).map (dftPower n frame)
  (List.range nMels).map fun m =>
    let e := power.zipIdx.foldl (fun e p => fmaF32 p.1 (melWeight nMels rate m p.2) e) 0
    logMel (maxF32 e melFloor)

/-- Mel frames of a signal (R307 step 1). -/
def melFrames (rate nMels : Nat) (x : List Nat) : List (List Nat) :=
  let (w, h, _) := melShape rate
  let frames := if w ≤ x.length then (x.length - w) / h + 1 else 0
  (List.range frames).map (melFrame rate nMels x)

end Sys2Proof.Machine
end

