-- ==== Sys2Proof/Machine/Media.lean ====
section
/-! DEFINITION. What the Approach units produce from an item's bytes: text tokens (12 R308, R309), pictures and sound as
token rows (R299, R301, R303, R305, R306, R310). -/

namespace Sys2Proof.Machine

/-! ### UTF-8 (R309 step 1) -/

/-- The bounds of the byte after a lead byte. -/
def secondByte (b : Nat) : Nat × Nat :=
  if b = 0xE0 then (0xA0, 0xBF) else if b = 0xED then (0x80, 0x9F) else if b = 0xF0 then (0x90, 0xBF)
  else if b = 0xF4 then (0x80, 0x8F) else (0x80, 0xBF)

/-- Bytes of the character that a lead byte opens; 0 for no lead byte. -/
def charBytes (b : Nat) : Nat :=
  if b < 0x80 then 1 else if b < 0xC2 then 0 else if b < 0xE0 then 2 else if b < 0xF0 then 3 else if b < 0xF5 then 4 else 0

/-- How many of the bytes, up to k, continue a character whose next byte lies within the bounds. -/
def continuing : Nat → Nat × Nat → List Byte → Nat
  | 0, _, _ => 0
  | _ + 1, _, [] => 0
  | k + 1, w, b :: bs => if w.1 ≤ b.toNat ∧ b.toNat ≤ w.2 then 1 + continuing k (0x80, 0xBF) bs else 0

/-- The first character: whether it is valid, and its bytes or those of the maximal invalid subsequence. -/
def utf8Head : List Byte → Bool × Nat
  | [] => (true, 0)
  | b :: bs =>
    let n := charBytes b.toNat
    if n = 0 then (false, 1)
    else
      let k := continuing (n - 1) (secondByte b.toNat) bs
      (k == n - 1, 1 + k)

/-- Offset of the first invalid byte sequence. -/
def utf8Error : Nat → Nat → List Byte → Option Nat
  | 0, _, _ => none
  | f + 1, o, bs =>
    if bs.isEmpty then none
    else if (utf8Head bs).1 then utf8Error f (o + (utf8Head bs).2) (bs.drop (utf8Head bs).2)
    else some o

/-- Replace each maximal invalid subsequence by EF BF BD. -/
def utf8Repair : Nat → List Byte → List Byte
  | 0, _ => []
  | f + 1, bs =>
    if bs.isEmpty then []
    else
      let h := utf8Head bs
      (if h.1 then bs.take h.2 else [0xEF, 0xBF, 0xBD]) ++ utf8Repair f (bs.drop h.2)

/-! ### Byte-pair encoding (R308, R309) -/

def tokBuckets (t : List Byte) : Nat := field t 0x10 4
def tokChunkMax (t : List Byte) : Nat := field t 0x14 2
def tokBos (t : List Byte) : Nat := field t 0x18 4
def tokEos (t : List Byte) : Nat := field t 0x1C 4
def tokByte (t : List Byte) (b : Byte) : Nat := field t (0x40 + 4 * b.toNat) 4
def tokBoundary (t : List Byte) (b : Byte) : Bool := bit (field t (0x440 + b.toNat / 8) 1) (b.toNat % 8)

/-- A byte that continues a character. -/
def isContinuation (b : Byte) : Bool := decide (0x80 ≤ b.toNat ∧ b.toNat ≤ 0xBF)

/-- Bucket i: left, right, rank, result. -/
def tokBucket (t : List Byte) (i : Nat) : Nat × Nat × Nat × Nat :=
  let o := 0x460 + 16 * i
  (field t o 4, field t (o + 4) 4, field t (o + 8) 4, field t (o + 12) 4)

/-- Linear probing; the probe ends at the first empty bucket. -/
def probe (t : List Byte) (l r : Nat) : Nat → Nat → Option (Nat × Nat)
  | 0, _ => none
  | f + 1, i =>
    let b := tokBucket t i
    if b.2.2.1 = 0xFFFFFFFF then none
    else if b.1 = l ∧ b.2.1 = r then some (b.2.2.1, b.2.2.2)
    else probe t l r f ((i + 1) % tokBuckets t)

/-- Rank and result of a pair (R308). -/
def tokLookup (t : List Byte) (l r : Nat) : Option (Nat × Nat) :=
  probe t l r (tokBuckets t) ((l * 0x9E3779B1 + r) % 2 ^ 32 % tokBuckets t)

/-- The pair of lowest rank, the leftmost of equals: rank, place, result. -/
def bestPair (t : List Byte) : Nat → List Nat → Option (Nat × Nat × Nat) → Option (Nat × Nat × Nat)
  | i, a :: b :: rest, best =>
    let best := match tokLookup t a b with
      | some m => if best.all fun x => decide (m.1 < x.1) then some (m.1, i, m.2) else best
      | none => best
    bestPair t (i + 1) (b :: rest) best
  | _, _, best => best

/-- encode_chunk of R309, in at most `fuel` merges. -/
def mergePairs (t : List Byte) : Nat → List Nat → List Nat
  | 0, ids => ids
  | f + 1, ids =>
    match bestPair t 0 ids none with
    | none => ids
    | some (_, i, r) => mergePairs t f (ids.take i ++ r :: ids.drop (i + 2))

def encodeChunk (t : List Byte) (chunk : List Byte) : List Nat := mergePairs t chunk.length (chunk.map (tokByte t))

/-- Split before each byte that begins a chunk (R309 step 2); `cur` is the chunk in hand, last byte first. -/
def splitChunks (t : List Byte) : List Byte → List Byte → List (List Byte)
  | cur, [] => if cur.isEmpty then [] else [cur.reverse]
  | cur, b :: bs =>
    if !cur.isEmpty && tokBoundary t b && !isContinuation b then cur.reverse :: splitChunks t [b] bs
    else splitChunks t (b :: cur) bs

/-- The last character start from offset k down, above 0. -/
def lastStart (c : List Byte) : Nat → Nat
  | 0 => 0
  | k + 1 => if isContinuation (c.getD (k + 1) 0) then lastStart c k else k + 1

/-- Bytes up to the next character start after k. -/
def nextStart (c : List Byte) (k : Nat) : Nat := k + ((c.drop k).takeWhile isContinuation).length

/-- Cut a chunk longer than chunk_max at the last character start within it. -/
def cutChunk (m : Nat) : Nat → List Byte → List (List Byte)
  | 0, c => [c]
  | f + 1, c =>
    if c.length ≤ m then (if c.isEmpty then [] else [c])
    else
      let k := if lastStart c m = 0 then nextStart c m else lastStart c m
      c.take k :: cutChunk m f (c.drop k)

/-- A text item's token IDs, or the offset of invalid UTF-8 (R309). -/
def tokenize (t data : List Byte) (omitErrors : Bool) (flags : Nat) : Nat ⊕ List Nat :=
  match utf8Error data.length 0 data, omitErrors with
  | some o, false => .inl o
  | _, _ =>
    let text := utf8Repair data.length data
    let chunks := (splitChunks t [] text).flatMap fun c => cutChunk (tokChunkMax t) c.length c
    let ids := chunks.flatMap (encodeChunk t)
    .inr ((if bit flags 0 then [tokBos t] else []) ++ ids ++ (if bit flags 1 then [tokEos t] else []))

/-! ### Pictures (R302 to R305, R310) -/

/-- A picture or clip: frames, channels, rows, columns, code depth, codes in that order. -/
structure Picture where
  frames : Nat
  channels : Nat
  height : Nat
  width : Nat
  depth : Nat
  codes : List Nat
  deriving DecidableEq, Repr

def Picture.code (p : Picture) (f c y x : Nat) : Nat :=
  p.codes.getD (((f * p.channels + c) * p.height + y) * p.width + x) 0

def Picture.build (frames channels height width depth : Nat) (at_ : Nat → Nat → Nat → Nat → Nat) : Picture :=
  { frames, channels, height, width, depth
    codes := (List.range frames).flatMap fun f => (List.range channels).flatMap fun c =>
      (List.range height).flatMap fun y => (List.range width).map fun x => at_ f c y x }

def clampTo (hi : Nat) (v : Int) : Nat := (max 0 (min v hi)).toNat

/-- YCbCr to RGB (R303); channel 0 R, 1 G, 2 B. -/
def rgbOf (depth c : Nat) (y cb cr : Nat) : Nat :=
  let m : Int := 2 ^ (depth - 1)
  let b := (cb : Int) - m
  let r := (cr : Int) - m
  let v := if c = 0 then 91881 * r else if c = 1 then -22554 * b - 46802 * r else 116130 * b
  clampTo (2 ^ depth - 1) (y + (v + 32768) / 65536)

/-- Colour mode and alpha of a profile (R295, R303, R304). -/
def recolour (pr : Profile) (ycc : Bool) (p : Picture) : Picture :=
  let mode := pr.colour % 4
  let p := if pr.dropAlpha && (p.channels == 2 || p.channels == 4) then
      Picture.build p.frames (p.channels - 1) p.height p.width p.depth p.code else p
  if mode = 2 then Picture.build p.frames 1 p.height p.width p.depth p.code
  else if mode = 1 && ycc then
    Picture.build p.frames p.channels p.height p.width p.depth fun f c y x =>
      rgbOf p.depth c (p.code f 0 y x) (p.code f 1 y x) (p.code f 2 y x)
  else p

/-- The frames that a video item takes (R305). -/
def takeFrames (i : Item) (p : Picture) : Picture :=
  let ks := (List.range i.maxFrames).filterMap fun k =>
    let f := i.firstFrame + k * i.frameStride
    if f < p.frames then some f else none
  Picture.build ks.length p.channels p.height p.width p.depth fun f => p.code (ks.getD f 0)

/-- R310: fma(q, a, b) rounded to binary32, then to binary16. -/
def toBinary16 (pr : Profile) (c : Nat) (q : Val) : Nat :=
  let v := toF32 ((q.mul (f32 (pr.a.getD c 0))).add (f32 (pr.b.getD c 0)))
  encodeFloat fBinary16 (f32 v)

/-- The element at a place of a frame, which may lie beyond its edge: +0, or edge-repeat (R295, R130). -/
def Picture.element (p : Picture) (pr : Profile) (f c y x : Nat) : Nat :=
  if y < p.height ∧ x < p.width then toBinary16 pr c (intVal (p.code f c y x))
  else if pr.pad = 0 then 0
  else toBinary16 pr c (intVal (p.code f c (min y (p.height - 1)) (min x (p.width - 1))))

/-- Token rows of a picture: frame groups, then patches in raster order; in a row channel, frame, patch row, column (R299). -/
def pictureRows (pr : Profile) (p : Picture) : List (List Byte) :=
  let P := pr.patch
  let T := max 1 pr.tpatch
  (List.range (ceilDiv p.frames T)).flatMap fun g =>
    (List.range (ceilDiv p.height P)).flatMap fun py =>
      (List.range (ceilDiv p.width P)).map fun px =>
        (List.range p.channels).flatMap fun c => (List.range T).flatMap fun t => (List.range P).flatMap fun y =>
          (List.range P).flatMap fun x =>
            leBytes 2 (p.element pr (min (g * T + t) (p.frames - 1)) c (py * P + y) (px * P + x))

/-! ### Sound (R306, R307, R310) -/

/-- A decoded sample as binary32 (R306). -/
def sampleF32 (kind : Nat) (d : Decoded) (code : Nat) : Nat :=
  if d.float then code
  else
    let v := if kind = 7 ∧ d.depth = 8 then (code : Int) - 128 else signed d.depth code
    toF32 ((intVal v).scale (-((d.depth : Int) - 1)))

/-- The mono mix (R306): additions in channel order, then the reciprocal; one channel is taken unchanged. -/
def monoOf (kind : Nat) (d : Decoded) : List Nat :=
  (List.range d.frames).map fun i =>
    let xs := (List.range d.channels).map fun c => sampleF32 kind d (d.codes.getD (i * d.channels + c) 0)
    match xs with
    | [x] => x
    | x :: t => mulF32 (t.foldl addF32 x) (recipNat d.channels)
    | [] => 0

/-- The rate of an audio mode (R295). -/
def modeRate (mode : Nat) : Nat := if mode % 2 = 0 then 16000 else 48000

/-- Group values into rows of k, the last one filled with +0. -/
def groupRows (k : Nat) (vs : List Nat) : List (List Nat) :=
  (List.range (ceilDiv vs.length k)).map fun i => (List.range k).map fun j => vs.getD (i * k + j) 0

/-- The binary16 values of a sound, mel frames or samples (R310). -/
def soundValues (pr : Profile) (x : List Nat) : List Nat :=
  let vs := if pr.audioMode < 2 then (melFrames (modeRate pr.audioMode) pr.nMels x).flatten else x
  vs.map fun v => toBinary16 pr 0 (f32 v)

/-- Token rows of a sound (R299). -/
def soundRows (pr : Profile) (x : List Nat) : List (List Byte) :=
  let k := if pr.audioMode < 2 then pr.patch * pr.nMels else pr.samplesPerToken
  (groupRows k (soundValues pr x)).map fun r => r.flatMap (leBytes 2)

/-! ### Items (R297, R300) -/

/-- What an item decodes to. -/
inductive Content
  | failed (result detail : Nat)
  | text (ids : List Nat)
  | picture (p : Picture)
  | sound (samples : List Nat)
  deriving DecidableEq, Repr

/-- The class of a kind: 0 text, 1 image, 2 audio, 3 video (R295, R297). -/
def classOfKind (k : Nat) : Nat := if k = 0 then 0 else if k ≤ 2 then 1 else if k ≤ 4 then 3 else 2

/-- The unit's decoding of a kind (R302 to R306); `rate` is that of the profile's audio mode. -/
def decodeBytes (kind rate : Nat) (b : List Byte) : Parse Decoded :=
  if kind = 1 then decodeJpeg b
  else if kind = 2 then decodePng b
  else if kind = 3 ∨ kind = 4 then decodeVideo kind b
  else if kind = 5 then decodeOpus rate b
  else if kind = 6 then decodeFlac rate b
  else do
    let d ← decodeWav b
    need (d.rate == rate) resRate 0
    return d

/-- Decode an item's bytes (R301 to R310). -/
def decodeItem (table : Option (List Byte)) (omitErrors : Bool) (i : Item) (pr : Profile) (data : List Byte) : Content :=
  if i.kind = 0 then
    match table with
    | none => .failed resUnsupported 0
    | some t => match tokenize t data omitErrors i.flags with
      | .inl o => .failed resUtf8 o
      | .inr ids => .text ids
  else
    match decodeBytes i.kind (modeRate pr.audioMode) data with
    | .error e => .failed e.1 e.2
    | .ok d =>
      if classOfKind i.kind = 2 then .sound (monoOf i.kind d)
      else
        let p : Picture := { frames := d.frames, channels := d.channels, height := d.height, width := d.width, depth := d.depth, codes := d.codes }
        .picture (recolour pr d.ycc (if classOfKind i.kind = 3 then takeFrames i p else p))

/-- Token rows of a content, as yet without padding to row_bytes. -/
def contentRows (pr : Profile) : Content → List (List Byte)
  | .failed _ _ => []
  | .text ids => ids.map (leBytes 4)
  | .picture p => pictureRows pr p
  | .sound x => soundRows pr x

/-- Result, error offset and token rows of an item (R299, R300). -/
def itemRows (c : AprConfig) (table : Option (List Byte)) (i : Item) (pr : Profile) (data : List Byte) : Nat × Nat × List (List Byte) :=
  match decodeItem table c.omitErrors i pr data with
  | .failed r d => (r, d, [])
  | x =>
    let rows := contentRows pr x
    if rows.any fun r => decide (c.rowBytes < r.length) then (resRow, 0, [])
    else if rows.isEmpty then (resEmpty, 0, [])
    else if i.tokenCap ≠ 0 ∧ i.tokenCap < rows.length then (resTruncated, 0, rows.take i.tokenCap)
    else (resOk, 0, rows)

end Sys2Proof.Machine
end

