-- ==== Sys2Proof/Machine/Abutment.lean ====
section
/-! DEFINITION. The Abutment engine: convolutions and pooling on planar binary16 tensors (05 R144 to R149). -/

namespace Sys2Proof.Machine

/-- The payload of an Abutment command (R145). -/
structure Abut where
  in_ : Nat
  w : Nat
  out : Nat
  aux : Nat
  inH : Nat
  inW : Nat
  cIn : Nat
  cOut : Nat
  kh : Nat
  kw : Nat
  strideY : Nat
  strideX : Nat
  dilY : Nat
  dilX : Nat
  pad : Nat
  pool : Nat
  padLoY : Nat
  padHiY : Nat
  padLoX : Nat
  padHiX : Nat
  padConst : Nat
  n : Nat
  deriving DecidableEq, Repr

def abutOf (b : List Byte) : Abut :=
  { in_ := field b 0 8, w := field b 8 8, out := field b 0x10 8, aux := field b 0x18 8, inH := field b 0x20 2
    inW := field b 0x22 2, cIn := field b 0x24 2, cOut := field b 0x26 2, kh := field b 0x28 1, kw := field b 0x29 1
    strideY := field b 0x2A 1, strideX := field b 0x2B 1, dilY := field b 0x2C 1, dilX := field b 0x2D 1
    pad := field b 0x2E 1 % 4, pool := field b 0x2E 1 / 4 % 4, padLoY := field b 0x30 2, padHiY := field b 0x32 2
    padLoX := field b 0x34 2, padHiX := field b 0x36 2, padConst := field b 0x38 4, n := field b 0x3C 2 }

/-- The four commands. -/
inductive AbutKind
  | fwd
  | bwdData
  | bwdWeight
  | pool
  deriving DecidableEq, Repr

/-- A 48-bit address, 32-byte aligned (R145). -/
def abutAddr (a : Nat) : Bool := decide (a % 32 = 0 ∧ a < 2 ^ 48)

/-- Check 1 of R146. -/
def abutOk (k : AbutKind) (b : List Byte) : Bool :=
  let d := abutOf b
  let geometry := between 1 8192 d.inH && between 1 8192 d.inW && between 1 512 d.cIn && between 1 512 d.cOut && between 1 11 d.kh
    && between 1 11 d.kw && between 1 8 d.strideY && between 1 8 d.strideX && between 1 4 d.dilY && between 1 4 d.dilX
    && decide (d.padLoY ≤ 64 ∧ d.padHiY ≤ 64 ∧ d.padLoX ≤ 64 ∧ d.padHiX ≤ 64) && between 1 1024 d.n
  let addrs := abutAddr d.in_ && abutAddr d.w && abutAddr d.out && abutAddr d.aux
  let kind :=
    if k = .pool then d.w == 0 && d.aux == 0 && d.cIn == d.cOut
    else (k == .fwd || d.aux == 0) && decide (d.cIn ≤ 4 ∨ d.cOut ≤ 4) && d.pool == 0
  decide (b.length = 64) && geometry && addrs && kind && decide (field b 0x2E 1 < 16) && zeroField b 0x2F 1 && zeroField b 0x3E 2

/-- The command is a global average (R141, R145). -/
def Abut.isGlobal (d : Abut) (k : AbutKind) : Bool := k == .pool && d.pool == 3

/-- Output extents (R129). A global average passes the checks on them like every command (R146) and writes one by one. -/
def Abut.outH (d : Abut) : Int := outExtent d.inH d.padLoY d.padHiY d.kh d.dilY d.strideY
def Abut.outW (d : Abut) : Int := outExtent d.inW d.padLoX d.padHiX d.kw d.dilX d.strideX
def Abut.oh (d : Abut) (k : AbutKind) : Nat := if d.isGlobal k then 1 else d.outH.toNat
def Abut.ow (d : Abut) (k : AbutKind) : Nat := if d.isGlobal k then 1 else d.outW.toNat

/-- Bytes of the four tensors: in, w, out, aux (R144). -/
def Abut.sizes (d : Abut) (k : AbutKind) : Nat × Nat × Nat × Nat :=
  let x := d.n * d.cIn * d.inH * d.inW * 2
  let y := d.n * d.cOut * d.oh k * d.ow k * 2
  let w := d.cOut * d.cIn * d.kh * d.kw
  match k with
  | .fwd => (x, w * 2, y, if d.aux = 0 then 0 else d.cOut * 2)
  | .bwdData => (y, w * 2, x, 0)
  | .bwdWeight => (x, y, w * 4, 0)
  | .pool => (x, 0, y, 0)

/-- Element of a planar binary16 tensor as binary32 (R111). -/
def halfAt (m : List Byte) (i : Nat) : Nat := toF32 (decodeFloat fBinary16 (field m (2 * i) 2))

/-- Row-major index of [n][c][h][w]. -/
def planar (c h w n k y x : Nat) : Nat := ((n * c + k) * h + y) * w + x

/-- Where tap (i, j) of output position (oy, ox) reads (R130). -/
def Abut.tap (d : Abut) (oy ox i j : Nat) : Option (Nat × Nat) × Bool :=
  padSource2 d.pad d.inH d.inW (((oy * d.strideY + i * d.dilY : Nat) : Int) - d.padLoY)
    (((ox * d.strideX + j * d.dilX : Nat) : Int) - d.padLoX)

/-- The value of a tap, binary32 (R130, R147). -/
def Abut.value (d : Abut) (x : List Byte) (img c oy ox i j : Nat) : Nat :=
  match d.tap oy ox i j with
  | (some (y, xx), _) => halfAt x (planar d.cIn d.inH d.inW img c y xx)
  | (none, true) => d.padConst
  | (none, false) => 0

/-- Pairs of a range product in raster order. -/
def raster (a b : Nat) : List (Nat × Nat) := (List.range a).flatMap fun i => (List.range b).map fun j => (i, j)

/-- binary16 bytes of a binary32 value (R111). -/
def halfBytes16 (v : Nat) : List Byte := leBytes 2 (encodeFloat fBinary16 (f32 v))

def weightIndex (d : Abut) (o c i j : Nat) : Nat := ((o * d.cIn + c) * d.kh + i) * d.kw + j

/-- ABUT_CONV_FWD (R147): channel, then tap in raster order; the bias last. -/
def abutFwd (d : Abut) (x w aux : List Byte) : List Byte :=
  (List.range d.n).flatMap fun img => (List.range d.cOut).flatMap fun o =>
    (raster (d.oh .fwd) (d.ow .fwd)).flatMap fun p =>
      let acc := (List.range d.cIn).foldl (fun acc c => (raster d.kh d.kw).foldl (fun acc t =>
        fmaF32 (d.value x img c p.1 p.2 t.1 t.2) (halfAt w (weightIndex d o c t.1 t.2)) acc) acc) 0
      halfBytes16 (if d.aux = 0 then acc else addF32 acc (halfAt aux o))

/-- The gradient at a position of the padded input (R134, R147): output channel, then tap, where both quotients are in range. -/
def abutPadded (d : Abut) (dy w : List Byte) (img c Y X : Nat) : Nat :=
  (List.range d.cOut).foldl (fun acc o => (raster d.kh d.kw).foldl (fun acc t =>
    let qy : Int := (Y : Int) - (t.1 * d.dilY : Nat)
    let qx : Int := (X : Int) - (t.2 * d.dilX : Nat)
    if qy % d.strideY = 0 ∧ qx % d.strideX = 0 ∧ 0 ≤ qy ∧ 0 ≤ qx ∧ qy / d.strideY < d.outH ∧ qx / d.strideX < d.outW then
      fmaF32 (halfAt dy (planar d.cOut (d.oh .bwdData) (d.ow .bwdData) img o (qy / d.strideY).toNat (qx / d.strideX).toNat))
        (halfAt w (weightIndex d o c t.1 t.2)) acc
    else acc) acc) 0

/-- ABUT_CONV_BWD_DATA (R147): each input position, then the pad positions read from it, in raster order (R135). -/
def abutBwdData (d : Abut) (dy w : List Byte) : List Byte :=
  let ph := d.inH + d.padLoY + d.padHiY
  let pw := d.inW + d.padLoX + d.padHiX
  let pads := (raster ph pw).filterMap fun P =>
    let y : Int := (P.1 : Int) - d.padLoY
    let x : Int := (P.2 : Int) - d.padLoX
    if 0 ≤ y ∧ y < d.inH ∧ 0 ≤ x ∧ x < d.inW then none
    else if d.pad < 2 then none
    else (padSource2 d.pad d.inH d.inW y x).1.map fun src => (P, src)
  (List.range d.n).flatMap fun img => (List.range d.cIn).flatMap fun c =>
    (raster d.inH d.inW).flatMap fun p =>
      let own := abutPadded d dy w img c (p.1 + d.padLoY) (p.2 + d.padLoX)
      halfBytes16 ((pads.filter fun q => q.2 == p).foldl (fun acc q => addF32 acc (abutPadded d dy w img c q.1.1 q.1.2)) own)

/-- ABUT_CONV_BWD_WEIGHT (R147): image, then output position in raster order; binary32. -/
def abutBwdWeight (d : Abut) (x dy : List Byte) : List Byte :=
  let oh := d.oh .bwdWeight
  let ow := d.ow .bwdWeight
  (List.range d.cOut).flatMap fun o => (List.range d.cIn).flatMap fun c =>
    (raster d.kh d.kw).flatMap fun t =>
      leBytes 4 ((List.range d.n).foldl (fun acc img => (raster oh ow).foldl (fun acc p =>
        fmaF32 (d.value x img c p.1 p.2 t.1 t.2) (halfAt dy (planar d.cOut oh ow img o p.1 p.2)) acc) acc) 0)

/-- Sum from the first value on. -/
def sumF32 : List Nat → Nat
  | [] => 0
  | v :: t => t.foldl addF32 v

/-- One window of a pooling (R141: an average starts from the first tap's value); a global average takes the plane in ascending
order from +0 (R142, R147). -/
def abutWindow (d : Abut) (x : List Byte) (img c oy ox : Nat) : Nat :=
  let taps := raster d.kh d.kw
  let val := fun t : Nat × Nat => d.value x img c oy ox t.1 t.2
  let inside := taps.filter fun t =>
    let y : Int := ((oy * d.strideY + t.1 * d.dilY : Nat) : Int) - d.padLoY
    let xx : Int := ((ox * d.strideX + t.2 * d.dilX : Nat) : Int) - d.padLoX
    decide (0 ≤ y ∧ y < d.inH ∧ 0 ≤ xx ∧ xx < d.inW)
  if d.pool = 0 then
    match taps.map val with
    | [] => 0
    | v :: t => t.foldl maxF32 (maxF32 v v)
  else if d.pool = 1 then mulF32 (sumF32 (taps.map val)) (recipNat taps.length)
  else if d.pool = 2 then
    if inside.isEmpty then 0 else mulF32 (sumF32 (inside.map val)) (recipNat inside.length)
  else
    let plane := (List.range (d.inH * d.inW)).map fun e => halfAt x (planar d.cIn d.inH d.inW img c 0 e)
    mulF32 (plane.foldl addF32 0) (recipNat plane.length)

/-- ABUT_POOL (R141, R142, R147). -/
def abutPool (d : Abut) (x : List Byte) : List Byte :=
  (List.range d.n).flatMap fun img => (List.range d.cIn).flatMap fun c =>
    (raster (d.oh .pool) (d.ow .pool)).flatMap fun p => halfBytes16 (abutWindow d x img c p.1 p.2)

def abutResult (k : AbutKind) (d : Abut) (x w aux : List Byte) : List Byte :=
  match k with
  | .fwd => abutFwd d x w aux
  | .bwdData => abutBwdData d x w
  | .bwdWeight => abutBwdWeight d x w
  | .pool => abutPool d x

/-- The engine is free for the command: its context is active and before its slice's end, and no earlier Abutment command of
the context waits (R149, R342, R351). -/
def abutTurn (s : State) (t : Taken) : Bool :=
  serving s t.context
    && !(s.cmds.takeWhile fun x => !isCmd t.q t.seq x).any fun x => x.context == t.context && between 0x0780 0x0783 x.opcode

/-! ### What a command reads (R139, R146, R147) -/

/-- The input position (y, x) of a plane is read: some window's tap resolves to it, or the whole plane is averaged. -/
def Abut.readsInput (d : Abut) (k : AbutKind) (y x : Nat) : Bool :=
  d.isGlobal k || (raster (d.oh k) (d.ow k)).any fun p => (raster d.kh d.kw).any fun t => (d.tap p.1 p.2 t.1 t.2).1 == some (y, x)

/-- The gradient of output position q goes through tap t to an input position, or to a padded one that is folded in (R134, R135). -/
def Abut.lands (d : Abut) (q t : Nat × Nat) : Bool :=
  let y : Int := ((q.1 * d.strideY + t.1 * d.dilY : Nat) : Int) - d.padLoY
  let x : Int := ((q.2 * d.strideX + t.2 * d.dilX : Nat) : Int) - d.padLoX
  decide (2 ≤ d.pad) || decide (0 ≤ y ∧ y < d.inH ∧ 0 ≤ x ∧ x < d.inW)

/-- Element i of the tensor `in` is read. -/
def Abut.readsIn (d : Abut) (k : AbutKind) (i : Nat) : Bool :=
  if k = .bwdData then
    (raster d.kh d.kw).any (d.lands (i % (d.oh k * d.ow k) / d.ow k, i % d.ow k))
  else d.readsInput k (i % (d.inH * d.inW) / d.inW) (i % d.inW)

/-- Element i of the tensor `w` is read: weights that no gradient goes through are not. -/
def Abut.readsW (d : Abut) (k : AbutKind) (i : Nat) : Bool :=
  k != .bwdData
    || (raster (d.oh k) (d.ow k)).any fun q => d.lands q (i % (d.kh * d.kw) / d.kw, i % d.kw)

/-- Binary16 element i before runs of bytes that begin beyond it. -/
def addRun (i : Nat) : List (Nat × Nat) → List (Nat × Nat)
  | (o, l) :: t => if o = 2 * (i + 1) then (2 * i, l + 2) :: t else (2 * i, 2) :: (o, l) :: t
  | [] => [(2 * i, 2)]

/-- The runs of bytes, offset and length, of those among n binary16 elements that are read. -/
def runsRead (n : Nat) (p : Nat → Bool) : List (Nat × Nat) := (List.range n).foldr (fun i l => if p i then addRun i l else l) []

/-- What a command reads of `in`, `w` and `aux`. -/
def Abut.runs (d : Abut) (k : AbutKind) : List (Nat × Nat) × List (Nat × Nat) × List (Nat × Nat) :=
  let z := d.sizes k
  (runsRead (z.1 / 2) (d.readsIn k), runsRead (z.2.1 / 2) (d.readsW k), runsRead (z.2.2.2 / 2) fun _ => true)

/-- Read the runs of a tensor at address a, after the bytes at hand; bytes between runs are not read and nothing uses them. -/
def readTensor (n a : Nat) : List (Nat × Nat) → State → List Byte → State × Option (List Byte)
  | [], s, bs => (s, some bs)
  | (o, l) :: t, s, bs =>
    match readHbm s (abutReader n) (a + o) l with
    | (s, none) => (s, none)
    | (s, some r) => readTensor n a t s (padTo bs o ++ r)

/-- An Abutment command that passed its checks runs (check 5 of R146). -/
def abutRun (s : State) (t : Taken) (k : AbutKind) (d : Abut) : State :=
  let r := d.runs k
  let fail := fun s : State => finish (faultContext s t.context stMemUncorrectable) t.q t.seq stMemUncorrectable []
  match readTensor t.context d.in_ r.1 s [] with
  | (s, none) => fail s
  | (s, some x) =>
    match readTensor t.context d.w r.2.1 s [] with
    | (s, none) => fail s
    | (s, some w) =>
      match readTensor t.context d.aux r.2.2 s [] with
      | (s, none) => fail s
      | (s, some aux) =>
        let (s, bad) := writeHbm s (abutReader t.context) d.out (abutResult k d x w aux)
        if bad then fail s else finish s t.q t.seq stOk []

/-- The checks of R146 in order, and the command's turn on the engine. -/
def abutCommand (k : AbutKind) (s : State) (t : Taken) : State :=
  let d := abutOf t.payload
  let r := d.runs k
  let at_ := fun (a : Nat) (l : List (Nat × Nat)) => l.map fun x => (a + x.1, x.2)
  if !abutOk k t.payload then refuse s t.q t.seq stBadParam
  else if !mirrorOk d.pad d.inH d.inW d.padLoY d.padHiY d.padLoX d.padHiX then refuse s t.q t.seq stBadPad
  else if decide (d.outH ≤ 0 ∨ d.outW ≤ 0) then finish s t.q t.seq stEmptyOutput []
  else if !((at_ d.in_ r.1 ++ at_ d.w r.2.1 ++ [(d.out, (d.sizes k).2.2.1)] ++ at_ d.aux r.2.2).all fun x =>
      granted s t.context x.1 x.2) then refuse s t.q t.seq stNotPermitted
  else if !abutTurn s t then s
  else abutRun s t k d

/-- ABUT_CONV_FWD. -/
def execAbutConvFwd (q seq : Nat) (s : State) : Host.Outcome State Fault Refusal := .next (onUnit s q seq 0x0780 (abutCommand .fwd))

/-- ABUT_CONV_BWD_DATA. -/
def execAbutConvBwdData (q seq : Nat) (s : State) : Host.Outcome State Fault Refusal :=
  .next (onUnit s q seq 0x0781 (abutCommand .bwdData))

/-- ABUT_CONV_BWD_WEIGHT. -/
def execAbutConvBwdWeight (q seq : Nat) (s : State) : Host.Outcome State Fault Refusal :=
  .next (onUnit s q seq 0x0782 (abutCommand .bwdWeight))

/-- ABUT_POOL. -/
def execAbutPool (q seq : Nat) (s : State) : Host.Outcome State Fault Refusal := .next (onUnit s q seq 0x0783 (abutCommand .pool))

end Sys2Proof.Machine
end

