-- ==== Sys2Proof/Machine/Vector.lean ====
section
/-! DEFINITION. The vector unit (03 R89 to R91, R440): lane programs run by their instructions (log 10), and VEC, which launches
one. -/

namespace Sys2Proof.Machine

/-! ### The lane program store (R440) -/

/-- Entry points that the store defines. -/
def entryCount (store : List Byte) : Nat := field store 0 2

/-- The first instruction of an entry point. -/
def laneEntry (store : List Byte) (e : Nat) : Nat := field store (16 + 4 * e) 4

/-- The lane instruction with an index; none where the store holds none, or the unit defines none. -/
def laneWord (store : List Byte) (i : Nat) : Option LaneInstr :=
  if i < field store 2 2 then Config.laneDecode (field store (16 + 4 * entryCount store + 8 * i) 8) else none

/-! ### A lane program under way -/

/-- A LOOP under way: its first instruction, the one after its last, and the passes still to come. -/
structure LaneLoop where
  first : Nat
  after : Nat
  remaining : Nat
  deriving DecidableEq, Repr

/-- A lane program under way: the state with what it has done so far, registers and predicates by lane, the next instruction,
the loops under way, innermost first, the ranges read and written, and the instructions executed. -/
structure LaneRun where
  s : State
  regs : List (List Nat)
  preds : List (List Bool)
  pc : Nat
  loops : List LaneLoop
  reads : List Range
  writes : List Range
  executed : Nat
  deriving DecidableEq, Repr

/-- How a launch ends (R81, R90, R440). -/
inductive LaneStop
  | finished
  | undefined
  | outside (address : Nat)
  | bad (address : Nat)
  | runaway
  deriving DecidableEq, Repr

/-- Where a launch runs: context, pier, its SCRATCH bytes, its argument words. -/
structure LaneSite where
  n : Nat
  pier : Nat
  limit : Nat
  args : List Nat
  deriving DecidableEq, Repr

def LaneRun.reg (r : LaneRun) (k lane : Nat) : Nat := ((r.regs[k]?).getD []).getD lane 0

def LaneRun.pred (r : LaneRun) (k lane : Nat) : Bool := ((r.preds[k]?).getD []).getD lane false

/-- The lane takes the instruction's result (R90: divergent conditions act as predicates). -/
def LaneRun.takes (r : LaneRun) (guard : Option (Nat × Bool)) (lane : Nat) : Bool :=
  match guard with
  | none => true
  | some (p, negated) => r.pred p lane != negated

/-- Give register d a value in each lane that takes it. -/
def LaneRun.setReg (r : LaneRun) (guard : Option (Nat × Bool)) (d : Nat) (v : Nat → Nat) : LaneRun :=
  { r with regs := r.regs.set d ((List.range 64).map fun l => if r.takes guard l then v l % 2 ^ 32 else r.reg d l) }

/-- Give predicate p a value in each lane that takes it. -/
def LaneRun.setPred (r : LaneRun) (guard : Option (Nat × Bool)) (p : Nat) (v : Nat → Bool) : LaneRun :=
  { r with preds := r.preds.set p ((List.range 64).map fun l => if r.takes guard l then v l else r.pred p l) }

/-- The same in all lanes. -/
def uniformLanes {α : Type} [DecidableEq α] (f : Nat → α) : Bool := (List.range 64).all fun l => f l = f 0

/-- Registers and predicates that an operation names. -/
def laneOperands : LaneOp → List Nat × List Nat
  | .stop => ([], [])
  | .move d a => ([d, a], [])
  | .constant d _ => ([d], [])
  | .argument d _ => ([d], [])
  | .arith _ d a b c => ([d, a, b, c], [])
  | .integer _ d a b c => ([d, a, b, c], [])
  | .convert _ _ d a => ([d, a], [])
  | .fromMx _ _ d a b => ([d, a, b], [])
  | .quantise _ _ d c a => ([d, c, a], [])
  | .compare _ p a b => ([a, b], [p])
  | .logic _ p q r => ([], [p, q, r])
  | .select d p a b => ([d, a, b], [p])
  | .load _ d a _ => ([d, a], [])
  | .store _ a d _ => ([a, d], [])
  | .reduce d a => ([d, a], [])
  | .broadcast d a _ => ([d, a], [])
  | .rotate d a _ => ([d, a], [])
  | .loop (.register r) _ => ([r], [])
  | .loop (.immediate _) _ => ([], [])
  | .branch p _ => ([], [p])

/-- The operation acts on the program's course, and so on no single lane. -/
def steersLanes : LaneOp → Bool
  | .stop => true
  | .loop _ _ => true
  | .branch _ _ => true
  | _ => false

/-- The registers and predicates exist (R90), and a guard stands only where lanes take a result. -/
def laneOk (i : LaneInstr) : Bool :=
  (laneOperands i.op).1.all (· < 32) && (laneOperands i.op).2.all (· < 8)
    && match i.guard with
      | none => true
      | some (p, _) => decide (p < 8) && !steersLanes i.op

/-- The address of a lane's access. -/
def LaneRun.address (r : LaneRun) (a offset lane : Nat) : Nat := (r.reg a lane + offset) % 2 ^ 32

/-- The bytes that the lanes of an access touch, lane by lane. -/
def LaneRun.spans (r : LaneRun) (i : LaneInstr) (t : LaneType) (a offset : Nat) : List (Nat × Range) :=
  ((List.range 64).filter (r.takes i.guard)).map fun l => (l, { start := r.address a offset l, bytes := laneBytes t })

/-- A lane program's access stays in the SCRATCH declaration (R50, R82). -/
def firstOutside (limit : Nat) (rs : List (Nat × Range)) : Option Nat :=
  (rs.find? fun x => decide (limit < x.2.start + x.2.bytes)).map (·.2.start)

/-- One block of 32 lanes, quantised (R113): codes by lane, and the scale. -/
def quantiseHalf (r : LaneRun) (f : Fmt) (format half a : Nat) : List Nat × Nat :=
  quantiseBlock (arrayFmt format) ((List.range 32).map fun l => decodeFloat f (r.reg a (32 * half + l) % 2 ^ f.width))

/-- The next instruction, once the loops that end here have been repeated or left (R90). -/
def nextPc : List LaneLoop → Nat → List LaneLoop × Nat
  | [], pc => ([], pc)
  | l :: t, pc =>
    if pc < l.after then (l :: t, pc)
    else if pc = l.after ∧ 0 < l.remaining then ({ l with remaining := l.remaining - 1 } :: t, l.first)
    else nextPc t pc

/-- Go on at an instruction. -/
def LaneRun.goto (r : LaneRun) (pc : Nat) : LaneRun := { r with loops := (nextPc r.loops pc).1, pc := (nextPc r.loops pc).2 }

/-- A trip count, the same in all lanes, clamped (R90). -/
def tripCount (r : LaneRun) : LaneCount → Option Nat
  | .immediate n => some (min n 65535)
  | .register k => if uniformLanes (r.reg k) then some (min (r.reg k 0) 65535) else none

/-- The values that an operation without accesses or control gives register d; none where the unit defines none. -/
def laneValues (site : LaneSite) (r : LaneRun) : LaneOp → Option (Nat × (Nat → Nat))
  | .move d a => some (d, r.reg a)
  | .constant d v => some (d, fun _ => v)
  | .argument d i => if i < 8 then some (d, fun _ => site.args.getD i 0) else none
  | .arith f d a b c => some (d, fun l => laneArith f (r.reg a l) (r.reg b l) (r.reg c l))
  | .integer code d a b c => some (d, fun l => Config.laneInteger code l (r.reg a l) (r.reg b l) (r.reg c l))
  | .convert src dst d a =>
    if (convertLane src dst 0).isSome then some (d, fun l => (convertLane src dst (r.reg a l)).getD 0) else none
  | .fromMx format half d a b =>
    if format = 0 ∨ 5 < format then none
    else some (d, fun l => fromMx format (if half then fBinary16 else fBinary32) (r.reg a l) (r.reg b l))
  | .select d p a b => some (d, fun l => if r.pred p l then r.reg a l else r.reg b l)
  | .reduce d a => some (d, fun l => if l = 0 then treeSum ((List.range 64).map (r.reg a)) else r.reg d l)
  | .broadcast d a lane => if lane < 64 then some (d, fun _ => r.reg a lane) else none
  | .rotate d a k => some (d, fun l => r.reg a ((l + k) % 64))
  | _ => none

/-- One lane instruction (R89 to R91): the program goes on, or ends. -/
def laneStep (site : LaneSite) (r : LaneRun) (i : LaneInstr) : LaneRun × Option LaneStop :=
  match i.op with
  | .stop => (r, some .finished)
  | .compare k p a b => ((r.setPred i.guard p fun l => compareF32 k (r.reg a l) (r.reg b l)).goto (r.pc + 1), none)
  | .logic table p x y =>
    ((r.setPred i.guard p fun l => bit table ((if r.pred x l then 2 else 0) + (if r.pred y l then 1 else 0))).goto (r.pc + 1), none)
  | .quantise format src d c a =>
    match laneFmt src with
    | none => (r, some .undefined)
    | some f =>
      if format = 0 ∨ 5 < format then (r, some .undefined)
      else
        let q := fun l : Nat => quantiseHalf r f format l a
        (((r.setReg i.guard d fun l => (q (l / 32)).1.getD (l % 32) 0).setReg i.guard c fun l => (q (l / 32)).2).goto (r.pc + 1),
          none)
  | .load t d a offset =>
    let xs := r.spans i t a offset
    match firstOutside site.limit xs with
    | some x => (r, some (.outside x))
    | none =>
      let rs := xs.map (·.2)
      match badWord (pierAt r.s site.pier) rs with
      | some x => (r, some (.bad x))
      | none =>
        let mem := (pierAt r.s site.pier).mem
        let r := { r with s := touchPad r.s site.n site.pier rs, reads := r.reads ++ rs }
        ((r.setReg i.guard d fun l => leNat (mem.read (r.address a offset l) (laneBytes t))).goto (r.pc + 1), none)
  | .store t a d offset =>
    let xs := r.spans i t d offset
    match firstOutside site.limit xs with
    | some x => (r, some (.outside x))
    | none =>
      let put := fun (s : State) (x : Nat × Range) => writePad s site.n site.pier x.2.start (leBytes (laneBytes t) (r.reg a x.1))
      (({ r with s := xs.foldl put r.s, writes := r.writes ++ xs.map (·.2) } : LaneRun).goto (r.pc + 1), none)
  | .loop count length =>
    match tripCount r count with
    | none => (r, some .undefined)
    | some n =>
      if n = 0 ∨ length = 0 then (r.goto (r.pc + 1 + length), none)
      else if 4 ≤ r.loops.length then (r, some .undefined)
      else
        let l : LaneLoop := { first := r.pc + 1, after := r.pc + 1 + length, remaining := n - 1 }
        ({ r with loops := l :: r.loops, pc := r.pc + 1 }, none)
  | .branch p length =>
    if !uniformLanes (r.pred p) then (r, some .undefined)
    else (r.goto (r.pc + 1 + if r.pred p 0 then length else 0), none)
  | op =>
    match laneValues site r op with
    | none => (r, some .undefined)
    | some (d, v) => ((r.setReg i.guard d v).goto (r.pc + 1), none)

/-- Run a lane program for at most so many instructions (R90). -/
def runLanes (site : LaneSite) (store : List Byte) : Nat → LaneRun → LaneRun × LaneStop
  | 0, r => (r, .runaway)
  | f + 1, r =>
    match (laneWord store r.pc).filter laneOk with
    | none => (r, .undefined)
    | some i =>
      match laneStep site { r with executed := r.executed + 1 } i with
      | (r, some e) => (r, e)
      | (r, none) => runLanes site store f r

/-- Instructions that a launch may execute (R90). -/
def laneLimit : Nat := 16777216

/-- A launch at its first instruction: registers and predicates hold free values (log 10). -/
def freshLanes (s : State) (launch pc : Nat) : LaneRun :=
  { s
    regs := (List.range 32).map fun r => (List.range 64).map fun l => Config.laneRegister launch r l % 2 ^ 32
    preds := (List.range 8).map fun p => (List.range 64).map (Config.lanePredicate launch p)
    pc, loops := [], reads := [], writes := [], executed := 0 }

/-- The argument block of a VEC (R90). -/
def vecArgs (i : Issue) : Range := { start := (generalOf i.word).a, bytes := 32 }

/-- The launch of a VEC from its arguments, run to its end. -/
def launchLanes (s : State) (i : Issue) (launch : Nat) : LaneRun × LaneStop :=
  let P := pierAt s i.pier
  let site : LaneSite :=
    { n := i.n, pier := i.pier, limit := scratchOf i.im.decls i.pier, args := elements 4 (P.mem.read (vecArgs i).start 32) }
  runLanes site P.store laneLimit (freshLanes s launch (laneEntry P.store (generalOf i.word).index))

/-- The effect of a VEC: its arguments read, its program run to its end (R90, R104, R440). -/
def vecEffect (i : Issue) (launch : Nat) (s : State) : State :=
  match badWord (pierAt s i.pier) [vecArgs i] with
  | some a => padFault s i.n i.pier a
  | none =>
    let (r, e) := launchLanes (touchPad s i.n i.pier [vecArgs i]) i launch
    let s := countEvent r.s i.n i.pier 0x06 r.executed
    match e with
    | .finished => s
    | .undefined => pierFault s i.n i.pier i.index 0
    | .outside a => pierFault s i.n i.pier i.index a
    | .bad a => padFault s i.n i.pier a
    | .runaway => modPier s i.pier fun P => { P with lane := some ((generalOf i.word).index, i.index) }

/-- VEC: launch a lane program. It starts once its argument block and the ranges it comes to read and write are free in the
scoreboard (R93; log 14). -/
def execVec (pier : Nat) (s0 : State) : Host.Outcome State Fault Refusal :=
  .next (atPier s0 pier (· == 0x04) fun s i =>
    if !wordOk i.word then i.fault s 0
    else if entryCount (pierAt s pier).store ≤ (generalOf i.word).index then i.fault s 0
    else
      match outside i.im pier [vecArgs i] with
      | some a => i.fault s a
      | none =>
        let r := (launchLanes s i s.free).1
        if !scoreFree (pierAt s pier) (vecArgs i :: r.reads) r.writes none none then s0
        else i.run (freeUsed s 1) (vecEffect i s.free))

/-- LANE_PROGRAM_RUNAWAY: the unit stops a program at 16,777,216 instructions (R90). -/
def execLaneProgramRunaway (pier : Nat) (s : State) : Host.Outcome State Fault Refusal :=
  .next (match s.sched.active, (pierAt s pier).lane with
    | some n, some (entry, _) =>
      let s := match (pierAt s pier).lane.map (·.2), (pierAt s pier).laneSample with
        | some index, some (w, issued) => takeRecord s n pier w.toNat index (flag true 3) (some issued) (some s.time)
        | _, _ => s
      let s := modPier s pier fun P => { P with lane := none, laneSample := none }
      faultContext (logError s 0x0002 stContextFault sevFault srcPier (pierTile pier) n [pier, entry]) n stContextFault
    | _, _ => s)

end Sys2Proof.Machine
end

