-- ==== Sys2Proof/Machine/Stage.lean ====
section
/-! DEFINITION. Stage rendezvous (03 R94): queue, token, version and step operations of stage actors, tokens of the other
actors, and the progress watchdog (chapters 02, 06 and 07). -/

namespace Sys2Proof.Machine

/-! ### The meeting of a stage's piers (R94) -/

/-- A rendezvous that every pier of a stage has reached: context, image, stage, and each pier's deck index and word. -/
structure Meet where
  n : Nat
  im : Image
  stage : Nat
  piers : List (Nat × Nat × Nat)
  word : Nat

/-- Equal opcode, flags, index and count (R94). -/
def sameMeeting (v w : Nat) : Bool := opcodeOf v == opcodeOf w && bits v 119 104 == bits w 119 104 && bits v 63 48 == bits w 63 48

/-- Fetch the next word of each pier. -/
def fetchWords (n : Nat) (im : Image) : List Nat → State → State × Option (List (Nat × Nat × Nat))
  | [], s => (s, some [])
  | p :: ps, s =>
    let i := (pierAt s p).index
    if deckLength im p ≤ i then (pierFault s n p i 0, none)
    else
      match fetchWord s n im p with
      | (s, none) => (s, none)
      | (s, some w) =>
        match fetchWords n im ps s with
        | (s, none) => (s, none)
        | (s, some ws) => (s, some ((p, i, w) :: ws))

/-- The first pier whose rendezvous breaks R96, or differs from that of the first pier of the stage that waits at one (R94). -/
def misfit (ws : List (Nat × Nat × Nat)) : Option (Nat × Nat × Nat) :=
  match ws.filter fun x => isRendezvous (opcodeOf x.2.2) with
  | [] => none
  | x :: rest => (x :: rest).find? fun y => !wordOk y.2.2 || !sameMeeting x.2.2 y.2.2

/-- What the fetched words of a stage's piers make of a row that names the given opcodes. Piers that wait at differing
rendezvous fault the context, whichever the row names (R94). -/
def meet (s0 s : State) (n : Nat) (im : Image) (k : Nat) (ws : List (Nat × Nat × Nat)) (accept : Nat → Bool)
    (f : State → Meet → Option State) : State :=
  match ws.filter fun x => isRendezvous (opcodeOf x.2.2) with
  | [] => s0
  | x :: rest =>
    match misfit ws with
    | some y => pierFault (issueFaulting s n y.1 y.2.1 y.2.2) n y.1 y.2.1 0
    | none =>
      if !accept (opcodeOf x.2.2) then s0
      else if (x :: rest).length < (stagePiers im.decls k).length then s0
      else (f s { n, im, stage := k, piers := x :: rest, word := x.2.2 }).getD s0

/-- Run a rendezvous of stage k that the row names, when every pier of the stage has reached it. While it waits nothing
changes. -/
def atStage (s : State) (k : Nat) (accept : Nat → Bool) (f : State → Meet → Option State) : State :=
  match issuing s with
  | none => s
  | some n =>
    match imageAt s n with
    | none => s
    | some im =>
      match fetchWords n im ((stagePiers im.decls k).filter (atRest s)) s with
      | (t, none) => t
      | (t, some ws) => meet s t n im k ws accept f

/-- The rendezvous faults the context, for one of its piers (R50): every pier has issued it (R418, R419). -/
def Meet.faultAt (m : Meet) (s : State) (x : Nat × Nat × Nat) : State :=
  pierFault (m.piers.foldl (fun s y => issueFaulting s m.n y.1 y.2.1 y.2.2) s) m.n x.1 x.2.1 x.2.2

/-- The context faults in the effect of a rendezvous, for its first pier. -/
def Meet.stop (m : Meet) (s : State) : State :=
  match m.piers with
  | [] => s
  | x :: _ => pierFault s m.n x.1 x.2.1 0

/-- Fault the context for the rendezvous (R50). -/
def Meet.fault (m : Meet) (s : State) : State :=
  match m.piers with
  | [] => s
  | x :: _ => m.faultAt s (x.1, x.2.1, 0)

/-- One pier takes part in the completed rendezvous: counted, sampled with the given flags, and its deck index moves on. -/
def advancePier (n flags : Nat) (s : State) (x : Nat × Nat × Nat) : State :=
  let s := modPier s x.1 fun P => { P with index := x.2.1 + 1 }
  let r := sampleTick (countEvent s n x.1 0x01 1) n x.1 (opcodeOf x.2.2)
  if r.2 then takeRecord r.1 n x.1 x.2.2 x.2.1 flags none (some s.time) else r.1

/-- The rendezvous completes with its effect. One whose effect faults the context is sampled before it, with FAULTED (R422). -/
def Meet.done (m : Meet) (s : State) (effect : State → State) : State :=
  let t := effect s
  if faultedIn t m.n && !faultedIn s m.n then effect (m.piers.foldl (advancePier m.n (flag true 3)) s)
  else opDone (m.piers.foldl (advancePier m.n 0) t) m.n

def Meet.general (m : Meet) : General := generalOf m.word

/-- Each pier's scratchpad range (R96: A and length). -/
def Meet.slices (m : Meet) : List (Nat × Nat × Range) :=
  m.piers.map fun x => (x.1, x.2.1, { start := (generalOf x.2.2).a, bytes := (generalOf x.2.2).length })

/-- The first pier whose range leaves its SCRATCH declaration (R50). -/
def strays (im : Image) (rs : List (Nat × Nat × Range)) : Option (Nat × Nat × Nat) :=
  (rs.find? fun x => (outside im x.1 [x.2.2]).isSome).map fun x => (x.1, x.2.1, x.2.2.start)

/-- The first pier whose range holds an uncorrectable word (R81). -/
def badSlice (s : State) (rs : List (Nat × Nat × Range)) : Option (Nat × Nat) :=
  rs.findSome? fun x => (badWord (pierAt s x.1) [x.2.2]).map fun a => (x.1, a)

/-- The payload of a PUSH or FORK: the piers' slices in ascending global ID (R186). -/
def payloadOf (s : State) (rs : List (Nat × Nat × Range)) : List Byte :=
  rs.flatMap fun x => (pierAt s x.1).mem.read x.2.2.start x.2.2.bytes

/-! ### Queues (R45 to R47, R186, R196, R197) -/

/-- The descriptor that a PUSH or FORK writes (R186). -/
def outgoing (m : Meet) (c : Micro) (bytes : Nat) : Desc := { c.desc with payloadBytes := bytes, bwd := bit m.general.flags 0 }

def stageAt (s : State) (n k : Nat) : Option StageRun := (progAt s n).bind (·.stages[k]?)

/-- PUSH or FORK into target queues: checks of R50 and R186, then every target at once (R39, R196). -/
def send (s : State) (m : Meet) (targets : List SpanQueue) : Option State :=
  let rs := m.slices
  match (stageAt s m.n m.stage).bind (·.current) with
  | none => some (m.fault s)
  | some c =>
    if targets.any fun x => x.decl.producer != m.stage then some (m.fault s)
    else
      match strays m.im rs, badSlice s rs with
      | some x, _ => some (m.faultAt s x)
      | none, some b => some (m.done s fun s => padFault s m.n b.1 b.2)
      | none, none =>
        let payload := payloadOf s rs
        if targets.any fun x => decide ((classOf m.im x.decl).payloadMax < payload.length) then some (m.fault s)
        else if !targets.all targetRoom then none
        else
          some (m.done s fun s =>
            let s := rs.foldl (fun s x => touchPad s m.n x.1 [x.2.2]) s
            targets.foldl (fun s x => deliver s m.n m.im x.decl.queue (outgoing m c payload.length) c.segs payload) s)

/-- PUSH: one descriptor and its payload into the next free slot. -/
def execPush (stage : Nat) (s : State) : Host.Outcome State Fault Refusal :=
  .next (atStage s stage (· == 0x10) fun s m =>
    match (progAt s m.n).bind fun p => spanQueueAt p m.general.index with
    | none => some (m.fault s)
    | some x => send s m [x])

/-- The group that a FORK (0) or JOIN (1) of the stage names, with its branch queues (R195). -/
def groupOf (s : State) (m : Meet) (kind : Nat) : Option (GroupDecl × List SpanQueue) :=
  match m.im.decls.groups.find? fun g => g.index == m.general.index && g.kind == kind && g.stage == m.stage, progAt s m.n with
  | some g, some p => ((g.queues.take g.branches).mapM (spanQueueAt p)).map fun qs => (g, qs)
  | _, _ => none

/-- FORK: the descriptor, segment table and payload into every branch queue. -/
def execFork (stage : Nat) (s : State) : Host.Outcome State Fault Refusal :=
  .next (atStage s stage (· == 0x13) fun s m =>
    match groupOf s m 0 with
    | none => some (m.fault s)
    | some (_, qs) => send s m qs)

/-- Consecutive portions of a payload, zeros beyond it: pier, deck index, address, bytes (R186). -/
def portions (payload : List Byte) (shift : Nat) : Nat → List (Nat × Nat × Range) → List (Nat × Nat × Nat × List Byte)
  | _, [] => []
  | off, x :: t =>
    (x.1, x.2.1, x.2.2.start + shift, padTo (slice payload off x.2.2.bytes) x.2.2.bytes)
      :: portions payload shift (off + x.2.2.bytes) t

/-- Descriptor and segment table for every pier at desc_addr (R186). -/
def heading (m : Meet) (addr : Nat) (d : Desc) (segs : List Seg) : List (Nat × Nat × Nat × List Byte) :=
  m.piers.map fun x => (x.1, x.2.1, addr, encodeDesc d ++ segs.flatMap encodeSeg)

/-- Write into the piers' scratchpads, or fault for the first write that leaves a SCRATCH declaration (R50). -/
def writePiers (s : State) (m : Meet) (ws : List (Nat × Nat × Nat × List Byte)) : State :=
  match strays m.im (ws.map fun w => (w.1, w.2.1, { start := w.2.2.1, bytes := w.2.2.2.length })) with
  | some x => pierFault s m.n x.1 x.2.1 x.2.2
  | none => ws.foldl (fun s w => writePad s m.n w.1 w.2.2.1 w.2.2.2) s

/-- The stage's current micro-batch. -/
def setCurrent (s : State) (m : Meet) (d : Desc) (segs : List Seg) (addr : Nat) : State :=
  modStage s m.n m.stage fun r => { r with current := some { desc := d, segs, addr } }

/-- The stage that admits: the consumer of the feed queue (R174). -/
def firstStage (im : Image) : Option Nat := (im.decls.queues.find? fun d => d.kind = 3).map (·.consumer)

/-- The POP after an ADMIT writes mb_id, step and origin, and LAST moves the admission step on (R193). A second ADMIT before that POP
replaces the three fields, and a POP without an ADMIT stamps none (the rule gives neither order; DESIGN CHOICE, log 133). -/
def stampAdmitted (s : State) (n : Nat) (d : QueueDecl) (x : Desc) : State × Desc :=
  match d.kind == 3, (progAt s n).bind (·.admitted) with
  | true, some (mb, step, origin) =>
    (modProg s n fun p => { p with admitted := none, admitStep := if x.last then add32 p.admitStep 1 else p.admitStep },
      { x with mbId := mb, step, origin })
  | _, _ => (s, x)

/-- POP: the head slot for the stage, descriptor and portions to its piers. -/
def execPop (stage : Nat) (s : State) : Host.Outcome State Fault Refusal :=
  .next (atStage s stage (· == 0x11) fun s m =>
    match (progAt s m.n).bind fun p => spanQueueAt p m.general.index with
    | none => some (m.fault s)
    | some x =>
      if x.decl.consumer != m.stage then some (m.fault s)
      else if !hasFull x then none
      else
        some (m.done s fun s =>
          match readHead s m.n m.im x with
          | (s, none) => s
          | (s, some (d, segs, payload)) =>
            let (s, d) := stampAdmitted (holdHead s m.n x.decl.queue) m.n x.decl d
            let s := setCurrent s m d segs x.decl.descAddr
            writePiers s m (heading m x.decl.descAddr d segs ++ portions payload 0 0 m.slices)))

/-- RELEASE: the oldest held slot becomes free. -/
def execRelease (stage : Nat) (s : State) : Host.Outcome State Fault Refusal :=
  .next (atStage s stage (· == 0x12) fun s m =>
    match (progAt s m.n).bind fun p => spanQueueAt p m.general.index with
    | none => some (m.fault s)
    | some x =>
      if x.decl.consumer != m.stage || (slotAt x x.heldAt).st != .held then some (m.fault s)
      else some (m.done s fun s => releaseSlot s m.n m.im x.decl.queue))

/-- Read the heads of the branches in turn. -/
def readHeads (n : Nat) (im : Image) : List SpanQueue → State → State × Option (List (Desc × List Seg × List Byte))
  | [], s => (s, some [])
  | x :: xs, s =>
    match readHead s n im x with
    | (s, none) => (s, none)
    | (s, some h) =>
      match readHeads n im xs s with
      | (s, none) => (s, none)
      | (s, some hs) => (s, some (h :: hs))

/-- The effect of a JOIN whose heads are all FULL (R197). -/
def joinHeads (s : State) (m : Meet) (g : GroupDecl) (qs : List SpanQueue) : State :=
  match readHeads m.n m.im qs s with
  | (s, some ((d, segs, p) :: hs)) =>
    if hs.any fun h => h.1.mbId != d.mbId then m.stop s
    else
      let all := (d, segs, p) :: hs
      let s := qs.foldl (fun s x => holdHead s m.n x.decl.queue) s
      let d := { d with joined := true, payloadBytes := (all.map fun h => h.1.payloadBytes).sum % 2 ^ 32 }
      let addr := (qs.head?.map fun x => x.decl.descAddr).getD 0
      let s := setCurrent s m d segs addr
      writePiers s m (heading m addr d segs ++ (all.zip g.offsets).flatMap fun h => portions h.1.2.2 h.2 0 m.slices)
  | (s, _) => s

/-- JOIN: the head of every branch queue, delivered as one micro-batch. -/
def execJoin (stage : Nat) (s : State) : Host.Outcome State Fault Refusal :=
  .next (atStage s stage (· == 0x14) fun s m =>
    match groupOf s m 1 with
    | none => some (m.fault s)
    | some (g, qs) =>
      if qs.any fun x => x.decl.consumer != m.stage then some (m.fault s)
      else if !qs.all hasFull then none
      else some (m.done s fun s => joinHeads s m g qs))

/-! ### Tokens (R40 to R44) -/

def tokenDecl (im : Image) (ch : Nat) : Option TokenDecl := im.decls.tokens.find? fun d => d.channel = ch

def tokenCount (s : State) (n ch : Nat) : Nat := ((progAt s n).bind fun p => assoc p.tokens ch).getD 0

def setToken (s : State) (n ch v : Nat) : State := modProg s n fun p => { p with tokens := setAssoc p.tokens ch v }

/-- SIGNAL may complete: count + n ≤ capacity (R41). -/
def tokenRoom (s : State) (n : Nat) (d : TokenDecl) (k : Nat) : Bool := decide (tokenCount s n d.channel + k ≤ d.capacity)

/-- SIGNAL: the count rises; for a channel that the host consumes, a kind 2 entry follows (R44). -/
def signalToken (s : State) (n : Nat) (d : TokenDecl) (k : Nat) : State :=
  let s := setToken s n d.channel (tokenCount s n d.channel + k)
  if d.consumer = .host then
    post s d.ring { opcode := 0x0304, status := stOk, kind := 2, context := n, last := false, seq := 0, p := [d.channel, k], wait := true }
  else s

/-- WAIT: the count falls (R41). -/
def waitToken (s : State) (n ch k : Nat) : State := setToken s n ch (tokenCount s n ch - k)

/-- n is from 1 to the capacity (R41). -/
def tokenN (d : TokenDecl) (k : Nat) : Bool := between 1 d.capacity k

/-- SIGNAL of a stage. -/
def signalStage (s : State) (m : Meet) : Option State :=
  match tokenDecl m.im m.general.index with
  | none => some (m.fault s)
  | some d =>
    if d.producer != .stage m.stage || !tokenN d m.general.count then some (m.fault s)
    else if !tokenRoom s m.n d m.general.count then none
    else some (m.done s fun s => signalToken s m.n d m.general.count)

/-- WAIT of a stage. -/
def waitStage (s : State) (m : Meet) : Option State :=
  match tokenDecl m.im m.general.index with
  | none => some (m.fault s)
  | some d =>
    if d.consumer != .stage m.stage || !tokenN d m.general.count then some (m.fault s)
    else if tokenCount s m.n d.channel < m.general.count then none
    else some (m.done s fun s => waitToken s m.n d.channel m.general.count)

/-- The feed actor breaks R50: it names an undeclared channel, an end that is not its own, or an n out of range (log 116). -/
def feedFault (s : State) (n ch : Nat) : State := confine s n srcApproach 0xFF [0xFFFF, ch, 0]

/-- SIGNAL of the feed actor. -/
def signalFeed (s : State) (n : Nat) (im : Image) (ch k : Nat) : State :=
  match tokenDecl im ch with
  | none => feedFault s n ch
  | some d =>
    if d.producer != .feed || !tokenN d k then feedFault s n ch
    else if tokenRoom s n d k then opDone (signalToken s n d k) n
    else s

/-- The context whose actors run, with its image. -/
def acting (s : State) : Option (Nat × Image) := (issuing s).bind fun n => (imageAt s n).map fun im => (n, im)

/-- The fence channel that the Caisson actor waits on next (R273). -/
def nextFence (s : State) (n : Nat) (im : Image) : Option Nat := (progAt s n).bind fun p => im.decls.fences[p.fencesDone]?

/-- A WAIT of the Caisson actor on its next fence, made when the count is there. -/
def fenceReady (s : State) (n : Nat) (im : Image) : Bool := (nextFence s n im).any fun ch => decide (1 ≤ tokenCount s n ch)

/-- The Caisson actor's WAIT: count down, next fence (R273). -/
def passFence (s : State) (n ch : Nat) : State :=
  opDone (modProg (waitToken s n ch 1) n fun p => { p with fencesDone := p.fencesDone + 1 }) n

/-- WAIT of the Caisson actor on a fence channel that is not the last; the last one is the capture point (R274). -/
def waitCaisson (s : State) (n : Nat) (im : Image) (ch : Nat) : State :=
  let last := ((progAt s n).map fun p => p.fencesDone + 1 == im.decls.fences.length).getD true
  if nextFence s n im == some ch && fenceReady s n im && !last then passFence s n ch else s

/-- WAIT of the feed actor. -/
def waitFeed (s : State) (n : Nat) (im : Image) (ch k : Nat) : State :=
  match tokenDecl im ch with
  | none => feedFault s n ch
  | some d =>
    if d.consumer != .feed || !tokenN d k then feedFault s n ch
    else if tokenCount s n ch < k then s
    else opDone (waitToken s n ch k) n

/-- WAIT: lower a token channel's count. -/
def execWait (actor : TokenActor) (s : State) : Host.Outcome State Fault Refusal :=
  .next (match actor, acting s with
    | .stage k, _ => atStage s k (· == 0x19) waitStage
    | .feed ch k, some (n, im) => waitFeed s n im ch k
    | .caisson ch, some (n, im) => waitCaisson s n im ch
    | _, _ => s)

/-! ### Versions (R193, R198 to R201) -/

/-- The version counter after the verdict of step t, when it is known; earlier steps count as decided (R193, R198). -/
def counterAfter (p : Program) (t : Nat) : Option Nat :=
  if before32 t p.firstStep then some p.launchVersion else assoc p.verdicts t

/-- w(t): the version that step t carries (R198). -/
def carried (im : Image) (p : Program) (t : Nat) : Option Nat := counterAfter p (sub32 t im.decls.versions)

/-- The stage's current step t of R198. -/
def currentStep (im : Image) (p : Program) (k : Nat) (r : StageRun) : Nat :=
  if firstStage im = some k then p.admitStep else r.newestStep.getD p.firstStep

/-- LIVE slots that R198 lets go become EMPTY. -/
def emptied (w : Option Nat) (v : VersionSlot) : VersionSlot :=
  match v, w with
  | some (x, 0), some w => if before32 x w then none else v
  | _, _ => v

/-- Put waiting versions into EMPTY slots, oldest first (R201). -/
def assign : List VersionSlot → List Nat → List VersionSlot × List Nat
  | [], ws => ([], ws)
  | none :: t, v :: ws => let r := assign t ws; (some (v, 0) :: r.1, r.2)
  | x :: t, ws => let r := assign t ws; (x :: r.1, r.2)

/-- One stage's version slots after an event (R198, R201). -/
def sweepStage (im : Image) (p : Program) (k : Nat) (r : StageRun) : StageRun :=
  let a := assign (r.store.map (emptied (carried im p (currentStep im p k r)))) r.waiting
  { r with store := a.1, waiting := a.2 }

def sweep (s : State) (n : Nat) (im : Image) : State :=
  modProg s n fun p => { p with stages := p.stages.zipIdx.map fun x => sweepStage im p x.2 x.1 }

/-- The in-flight limit M (R48). -/
def inflightLimit (im : Image) : Nat := im.decls.versions * im.decls.slotBudget

/-- The origin word that ADMIT fixes (R184). -/
def originWord (s : State) (k : Nat) : Nat :=
  match s.pylon.pkgId with
  | some id => id + k % 16 * 4096
  | none => k % 16 * 4096 + 65536

/-- An ADMIT, PIN or RETIRE whose index is not the issuing stage faults (R50, R96). -/
def ownIndex (m : Meet) : Bool := m.general.index == m.stage

/-- ADMIT: one more micro-batch in flight. -/
def execAdmitBatch (stage : Nat) (s : State) : Host.Outcome State Fault Refusal :=
  .next (atStage s stage (· == 0x20) fun s m =>
    match progAt s m.n, ctxAt s m.n with
    | some p, some c =>
      if !ownIndex m || firstStage m.im != some m.stage then some (m.fault s)
      else if inflightLimit m.im ≤ p.inflight || (carried m.im p p.admitStep).isNone then none
      else
        some (m.done s fun s =>
          let s := modProg s m.n fun p =>
            { p with inflight := p.inflight + 1, admitted := some (c.nextMb, p.admitStep, originWord s m.stage) }
          sweep (modCtx s m.n fun c => { c with nextMb := add32 c.nextMb 1 }) m.n m.im)
    | _, _ => none)

/-- Raise the pin count of the slot that holds a version. -/
def pinSlot (l : List VersionSlot) (v : Nat) : List VersionSlot :=
  l.map fun x => match x with
    | some (w, k) => if w = v then some (w, k + 1) else x
    | none => none

/-- Lower the pin count of the slot that holds a version. -/
def unpinSlot (l : List VersionSlot) (v : Nat) : List VersionSlot :=
  l.map fun x => match x with
    | some (w, k) => if w = v then some (w, k - 1) else x
    | none => none

def holdsVersion (l : List VersionSlot) (v : Nat) : Bool := l.any fun x => x.any fun y => y.1 == v

/-- A stage has a version store: it holds weights that are not FROZEN (R199). -/
def hasStore (im : Image) (k : Nat) : Bool := (im.decls.stages[k]?).any (·.trained)

/-- The version that a PIN names: w(s) at the first stage, the descriptor's elsewhere (R199). -/
def pinVersion (m : Meet) (p : Program) (c : Micro) : Option Nat :=
  if firstStage m.im = some m.stage then carried m.im p c.desc.step else some c.desc.version

/-- The version field of the delivered descriptor in every pier of the stage: bytes 20 to 23 (R184, R199). -/
def versionField (m : Meet) (addr v : Nat) : List (Nat × Nat × Nat × List Byte) :=
  m.piers.map fun x => (x.1, x.2.1, addr + 20, leBytes 4 v)

/-- The effect of a PIN whose version holds a slot, or of a stage without a store. -/
def pinMicro (s : State) (m : Meet) (c : Micro) (v : Nat) : State :=
  let first := firstStage m.im = some m.stage
  let d := if first then { c.desc with version := v } else c.desc
  let s := modStage s m.n m.stage fun r =>
    { r with
      current := some { c with desc := d }
      store := if hasStore m.im m.stage then pinSlot r.store v else r.store
      pinned := r.pinned ++ [{ mbId := d.mbId, step := d.step, version := v }] }
  let s := if first then writePiers s m (versionField m c.addr v) else s
  sweep s m.n m.im

/-- PIN: the micro-batch's version is held for it. A slot that holds the version is pinned before any slot is emptied; where none does,
PIN may itself empty the slot that the version needs (R198, R201; log 16). While it waits nothing changes (R352). Before the stage's
first POP or JOIN there is no micro-batch to pin, and it waits (log 115). -/
def execPin (stage : Nat) (s : State) : Host.Outcome State Fault Refusal :=
  .next (atStage s stage (· == 0x21) fun s m =>
    match progAt s m.n, (stageAt s m.n m.stage).bind (·.current) with
    | some p, some c =>
      if !ownIndex m then some (m.fault s)
      else
        match pinVersion m p c with
        | none => none
        | some v =>
          let s := modStage s m.n m.stage fun r => { r with newestStep := some c.desc.step }
          let ready := fun s : State => !hasStore m.im m.stage || (stageAt s m.n m.stage).any fun r => holdsVersion r.store v
          if ready s then some (m.done s fun s => pinMicro s m c v)
          else if ready (sweep s m.n m.im) then some (m.done (sweep s m.n m.im) fun s => pinMicro s m c v)
          else none
    | some _, none => if ownIndex m then none else some (m.fault s)
    | none, _ => none)

/-- The effect of a RETIRE. -/
def retireMicro (s : State) (m : Meet) (x : Pinned) : State :=
  let s := modStage s m.n m.stage fun r =>
    { r with pinned := r.pinned.tail, store := if hasStore m.im m.stage then unpinSlot r.store x.version else r.store }
  let s := if firstStage m.im = some m.stage then modProg s m.n fun p => { p with inflight := p.inflight - 1 } else s
  sweep s m.n m.im

/-- RETIRE: the oldest pinned micro-batch is pinned no more. -/
def execRetire (stage : Nat) (s : State) : Host.Outcome State Fault Refusal :=
  .next (atStage s stage (· == 0x22) fun s m =>
    match (stageAt s m.n m.stage).map (·.pinned) with
    | some (x :: _) => if ownIndex m then some (m.done s fun s => retireMicro s m x) else some (m.fault s)
    | _ => some (m.fault s))

/-! ### STEP_END (R39, R169, R170) -/

/-- Fetch the words of every stage's piers at rest. -/
def allPiers (im : Image) : List Nat := (List.range im.decls.stages.length).flatMap (stagePiers im.decls)

/-- The other actors have done their work of the step: Stay entries, Caisson fences, host tokens (R39, R44, R273). -/
def othersDone (s : State) (n : Nat) (im : Image) : Bool :=
  match progAt s n with
  | none => false
  | some p =>
    p.stays.all (fun x => x.outstanding.isEmpty) && p.fencesDone == im.decls.fences.length
      && im.decls.tokens.all fun d => d.consumer != .host || tokenCount s n d.channel == 0

/-- The step ends: report, step number, the decks from instruction 0 (R92, R169, R170). -/
def endStep (s : State) (n : Nat) (im : Image) (ws : List (Nat × Nat × Nat)) : State :=
  let s := ws.foldl (advancePier n 0) s
  let skipped := ((progAt s n).bind (·.verdict)).any (·.1)
  let s := stepReport s n (if skipped then stSkipped else stOk) false
  let s := modCtx s n fun c => { c with step := add32 c.step 1 }
  let s := modProg s n fun p => { p with verdict := none, localBit := false, fencesDone := 0, watchdogAt := s.time }
  let mark := fun r : CkptRun => match ctxAt s n with
    | some c => if r.ctx = n ∧ r.step = c.step then { r with stepEnded := true, ls := c.ls, version := c.version } else r
    | none => r
  let s := { s with caisson := { s.caisson with run := s.caisson.run.map mark } }
  (allPiers im).foldl (fun s p => startCounting (modPier s p fun P => { P with index := 0 }) n p) s

/-- The first pier at a rendezvous that differs from its stage's, over all stages (R94). -/
def anyMisfit (im : Image) (ws : List (Nat × Nat × Nat)) : Option (Nat × Nat × Nat) :=
  (List.range im.decls.stages.length).findSome? fun k => misfit (ws.filter fun x => (stagePiers im.decls k).contains x.1)

/-- STEP_END: every actor of the context has reached the end of the step. -/
def execStepEnd (s : State) : Host.Outcome State Fault Refusal :=
  .next (match acting s with
    | none => s
    | some (n, im) =>
      match fetchWords n im ((allPiers im).filter (atRest s)) s with
      | (t, none) => t
      | (t, some ws) =>
        match anyMisfit im ws with
        | some y => pierFault (issueFaulting t n y.1 y.2.1 y.2.2) n y.1 y.2.1 0
        | none =>
          if (allPiers im).all (atRest s) && ws.all (fun x => opcodeOf x.2.2 == 0x30) && othersDone s n im then endStep t n im ws
          else s)

/-! ### The progress watchdog (R61, R62) -/

/-- What a pier's rendezvous waits on (R441). -/
def waitsOn (s : State) (im : Image) (p w : Nat) : Nat :=
  let op := opcodeOf w
  let k := (stageOfPier im.decls p).getD 0
  let i := (generalOf w).index
  if !(stagePiers im.decls k).all (fun q => (meetingWord s im q).isSome) then 7 * 2 ^ 28
  else if op = 0x18 ∨ op = 0x19 then 1 * 2 ^ 28 + i
  else if op = 0x10 ∨ op = 0x11 then 2 * 2 ^ 28 + i
  else if op = 0x13 then 3 * 2 ^ 28 + i
  else if op = 0x14 then 4 * 2 ^ 28 + i
  else if op = 0x20 ∨ op = 0x21 then 5 * 2 ^ 28 + i
  else if op = 0x30 then 6 * 2 ^ 28
  else 7 * 2 ^ 28

/-- The blocked operations of a context, two words each, in the order of R441. -/
def blockedWords (s : State) (n : Nat) (im : Image) : List Nat :=
  let pier := fun p : Nat =>
    match meetingWord s im p with
    | some w => [1 * 2 ^ 29 + p * 2 ^ 20 + (pierAt s p).index, waitsOn s im p w]
    | none => []
  let stays := ((progAt s n).map (·.stays)).getD []
  let stay := fun x : StayRun => (x.outstanding.filter (·.finished)).flatMap fun e =>
    [2 * 2 ^ 29 + x.tile * 2 ^ 20 + e.entry, 1 * 2 ^ 28 + e.channel]
  let feedQ := ((im.decls.queues.find? fun d => d.kind = 3).map (·.queue)).getD 0
  let feed := if s.apr.feeds.any fun f => f.ctx == n && f.packed.isSome then [3 * 2 ^ 29, 2 * 2 ^ 28 + feedQ] else []
  let fence := match nextFence s n im with
    | some ch => [4 * 2 ^ 29, 1 * 2 ^ 28 + ch]
    | none => []
  ((sortNats (allPiers im)).flatMap pier ++ stays.flatMap stay ++ feed ++ fence).take 8

/-- A link that the context uses is in retry activity (R62). -/
def retrying (s : State) (p : Program) : Bool :=
  s.tether.activity.isSome || s.tether.st == .retrain
    || p.queues.any (fun q => q.link.any (linkPaused s)) || p.assocs.any (assocPaused s)

/-- The watchdog period in ns (R61, R343). -/
def watchdogNs (c : Context) : Nat := (if c.watchdogMs = 0 then 2000 else c.watchdogMs) * 1000000

/-- PROGRESS_WATCHDOG_EXPIRY: the period elapses without an operation completing. -/
def execProgressWatchdogExpiry (ctx : Nat) (s : State) : Host.Outcome State Fault Refusal :=
  .next (match imageAt s ctx, ctxAt s ctx, progAt s ctx with
    | some im, some c, some p =>
      if running s && serving s ctx && p.st == .running && !retrying s p then
        let s := advanceTo s (p.watchdogAt + watchdogNs c)
        faultContext (logError s 0x0001 stContextFault sevFault srcPackage 0xFF ctx (padWords (blockedWords s ctx im))) ctx
          stContextFault
      else s
    | _, _, _ => s)
where
  padWords (l : List Nat) : List Nat := l ++ List.replicate (8 - l.length) 0

end Sys2Proof.Machine
end

