-- ==== Sys2Proof/Machine/Approach.lean ====
section
/-! DEFINITION. The media commands: configuration, feeds, single decodes, tokenizer tables (12 R293 to R300, R308, R312 to R316). -/

namespace Sys2Proof.Machine

/-! ### APR_CONFIG (R294, R295) -/

def gib : Nat := 1073741824

/-- The profile of 64 bytes (R295). -/
def profileOf (b : List Byte) : Profile :=
  { cls := field b 0 1, patch := field b 1 1, tpatch := field b 2 1, pad := field b 3 1, colour := field b 4 1 % 4
    dropAlpha := bit (field b 4 1) 4, audioMode := field b 5 1, nMels := field b 6 1, samplesPerToken := field b 8 2
    a := (List.range 4).map fun i => field b (0x10 + 4 * i) 4, b := (List.range 4).map fun i => field b (0x20 + 4 * i) 4 }

/-- Fields of a profile within R295. -/
def profileOk (b : List Byte) : Bool :=
  let p := profileOf b
  let col := field b 4 1
  let picture := between 2 32 p.patch && p.nMels == 0 && p.samplesPerToken == 0
  let byClass :=
    if p.cls = 1 then picture && p.tpatch == 0
    else if p.cls = 3 then picture && between 1 2 p.tpatch
    else if p.cls = 2 ∧ p.audioMode < 2 then
      between 1 16 p.patch && p.tpatch == 0 && [64, 80, 128].contains p.nMels && p.samplesPerToken == 0
    else if p.cls = 2 then p.patch == 0 && p.tpatch == 0 && p.nMels == 0 && between 32 8192 p.samplesPerToken
    else p.cls == 0 && p.patch == 0 && p.tpatch == 0 && p.nMels == 0 && p.samplesPerToken == 0
  byClass && decide (p.pad < 2) && (col == col % 4 || col == 16 + col % 4) && decide (col % 4 < 3) && decide (p.audioMode < 4)
    && zeroField b 7 1 && zeroField b 0x0A 6 && zeroField b 0x30 16

/-- Bytes of a profile's widest row (R294, R299). -/
def widestRow (p : Profile) : Nat :=
  let channels := if p.colour = 0 then 4 else if p.colour = 1 then 3 else 1
  if p.cls = 0 then 4
  else if p.cls = 2 then (if p.audioMode < 2 then 2 * p.patch * p.nMels else 2 * p.samplesPerToken)
  else 2 * channels * max 1 p.tpatch * p.patch * p.patch

/-- The configuration that a payload spells (R294). -/
def aprConfigOf (b : List Byte) : AprConfig :=
  { stagingAddr := field b 0 8, stagingBytes := field b 8 8, rowBytes := field b 0x10 2, padTo := field b 0x12 2
    omitErrors := bit (field b 0x15 1) 0, feedQueue := field b 0x16 2
    profiles := (List.range (field b 0x14 1)).map fun i => profileOf (slice b (0x20 + 64 * i) 64) }

/-- Fields of R294 that need no state. -/
def aprConfigOk (b : List Byte) : Bool :=
  let c := aprConfigOf b
  let n := field b 0x14 1
  decide (b.length = 0x20 + 64 * n) && between 1 16 n && decide (c.stagingAddr % 4096 = 0) && decide (c.rowBytes % 32 = 0)
    && between 32 16384 c.rowBytes && between 1 4096 c.padTo && decide (field b 0x15 1 < 2) && zeroField b 0x18 8
    && ((List.range n).all fun i => profileOk (slice b (0x20 + 64 * i) 64))
    && c.profiles.all fun p => decide (widestRow p ≤ c.rowBytes)

/-- The feed queue of an image that a configuration names. -/
def feedQueueOf (im : Image) (q : Nat) : Option QueueDecl := im.decls.queues.find? fun d => d.queue == q && d.kind == 3

/-- A range lies on the stacks of a tile (R294). -/
def onTile (tile a : Nat) : Bool := (stackOf a).any fun k => k / 3 == tile

/-- APR_CONFIG: the context's feed queue, staging range and profiles. -/
def execAprConfig (q seq : Nat) (s : State) : Host.Outcome State Fault Refusal :=
  .next (onCmd s q seq 0x0701 fun s t =>
    let c := aprConfigOf t.payload
    match imageAt s t.context with
    | none => refuse s q seq stBadParam
    | some im =>
      match feedQueueOf im c.feedQueue with
      | none => refuse s q seq stBadParam
      | some d =>
        if s.apr.feeds.any (fun f => f.ctx = t.context) || !aprConfigOk t.payload
            || !between ((classOf im d).payloadMax + 2 * gib) (16 * gib) c.stagingBytes then refuse s q seq stBadParam
        else if !granted s t.context c.stagingAddr c.stagingBytes then refuse s q seq stNotPermitted
        else if !(inGeneral c.stagingAddr c.stagingBytes && onTile (hostTile im d) c.stagingAddr) then refuse s q seq stBadParam
        else finish (modCtx s t.context fun x => { x with apr := some c }) q seq stOk [])

/-! ### Items (R297) -/

def itemOf (b : List Byte) : Item :=
  { addr := field b 0 8, length := field b 8 4, kind := field b 0x0C 1, profile := field b 0x0D 1, segId := field b 0x0E 2
    firstFrame := field b 0x10 4, maxFrames := field b 0x14 2, frameStride := field b 0x16 1, flags := field b 0x17 1
    table := field b 0x18 1, tokenCap := field b 0x20 4 }

/-- The structure of an item (R297, R298 step 1). -/
def itemOk (c : AprConfig) (b : List Byte) : Bool :=
  let i := itemOf b
  let video := if i.kind = 3 ∨ i.kind = 4 then between 1 4096 i.maxFrames && between 1 64 i.frameStride
    else i.firstFrame == 0 && i.maxFrames == 0 && i.frameStride == 0
  let text := if i.kind = 0 then decide (i.flags < 4 ∧ i.table < 8) else i.flags == 0 && i.table == 0
  decide (b.length = 48) && between 1 67108864 i.length && decide (i.kind < 8) && decide (i.segId < 65535)
    && ((c.profiles[i.profile]?).any fun p => p.cls == classOfKind i.kind) && video && text
    && zeroField b 0x19 7 && zeroField b 0x24 12

/-- The firmware module that decodes a kind (R386). -/
def microcodeModule (kind : Nat) : Nat := if kind = 0 then 0x0018 else 0x000F + kind

/-- The revision of a module in force; 0 where there is none. -/
def revisionOf (s : State) (id : Nat) : Nat := ((s.toll.modules.find? fun m => m.id = id).map (·.revision)).getD 0

/-- Units of the kind that decodes an item (R292). -/
def unitCount (kind : Nat) : Nat :=
  if classOfKind kind = 1 then 16 else if classOfKind kind = 3 then 8 else if classOfKind kind = 2 then 32 else 4

/-- The unit class of a kind in the reader word (R441). -/
def unitClass (kind : Nat) : Nat :=
  if classOfKind kind = 1 then 0 else if classOfKind kind = 3 then 1 else if classOfKind kind = 2 then 2 else 3

/-- The segment modality of a kind (R299). -/
def modalityOf (kind : Nat) : Nat := classOfKind kind

/-! ### Feeds (R296, R298) -/

def findFeed (s : State) (q seq : Nat) : Option Feed := s.apr.feeds.find? fun f => f.q == q && f.seq == seq

def modFeed (s : State) (q seq : Nat) (g : Feed → Feed) : State :=
  { s with apr := { s.apr with feeds := s.apr.feeds.map fun f => if f.q == q && f.seq == seq then g f else f } }

/-- APR_FEED: take a feed after the checks of step 1. -/
def execAprFeed (q seq : Nat) (items : HostRead) (s : State) : Host.Outcome State Fault Refusal :=
  .next (onUnit s q seq 0x0702 fun s t =>
    if (findFeed s q seq).isSome then s
    else
      let b := t.payload
      match (ctxAt s t.context).bind (·.apr), items with
      | none, _ => refuse s q seq stBadParam
      | some c, rd =>
        let n := field b 8 2
        if decide (b.length ≠ 32) || decide (field b 0 8 % 16 ≠ 0) || !between 1 4096 n || decide (2 ≤ field b 10 2)
            || !zeroField b 0x18 8 then refuse s q seq stBadParam
        else
          match rd with
          | none => finish s q seq stBadParam [0xFFFFFFFF]
          | some l =>
            let parts := (List.range n).map fun i => slice l (48 * i) 48
            if !parts.all (itemOk c) then refuse s q seq stBadParam
            else
              let f : Feed :=
                { q, seq, ctx := t.context, last := bit (field b 10 2) 0, tag := field b 12 4, resultsAddr := field b 0x10 8
                  items := parts.map itemOf, results := [], packed := none
                  tables := s.apr.tables.filter fun x => parts.any fun b => (itemOf b).kind == 0 && (itemOf b).table == x.1 }
              { s with apr := { s.apr with feeds := s.apr.feeds ++ [f] } })

/-! ### The staging range (R294, R298; log 34) -/

/-- The lowest free place of n bytes on a 32-byte boundary within [base, limit). -/
def firstFit (used : List (Nat × Nat)) (base limit n : Nat) : Option Nat :=
  let free := (base :: used.map fun r => ceilDiv (r.1 + r.2) 32 * 32).filter fun a =>
    !(used.any fun r => rangesMeet a n r.1 r.2) && decide (base ≤ a ∧ a + n ≤ limit)
  free.foldl (fun best a => some (best.elim a (min a))) none

/-- Ranges of a context's staging range in use: decoded items up to their packing, then packed feeds. -/
def stagingUsed (s : State) (n : Nat) : List (Nat × Nat) :=
  (s.apr.feeds.filter fun f => f.ctx == n).flatMap fun f =>
    match f.packed with
    | some (segs, table, bytes, place) => [(table, 8 * segs), (place, bytes)]
    | none => f.results.map fun r => (r.2.place, r.2.tokens * r.2.width)

/-- Bytes of the working area that decoded items leave to segment tables. -/
def tableSpace : Nat := 65536

/-- The oldest feed of a context. -/
def oldestFeed (s : State) (f : Feed) : Bool :=
  ((s.apr.feeds.find? fun g => g.ctx == f.ctx).map fun g => g.q == f.q && g.seq == f.seq).getD false

/-- A place for a decoded item, in the first 2 GiB (R294). -/
def itemPlace (s : State) (c : AprConfig) (f : Feed) (n : Nat) : Option Nat :=
  firstFit (stagingUsed s f.ctx) c.stagingAddr (c.stagingAddr + 2 * gib - tableSpace) n

/-- A staging access failed: a feed whose context kept running no program completes too (R316, R317). -/
def unitFault (s : State) (q seq status : Nat) : State :=
  match findFeed s q seq with
  | some f => endFeed s f status []
  | none => s

/-- The range meets a FROZEN range of the context's image (R159). -/
def meetsFrozen (s : State) (n a len : Nat) : Bool :=
  (imageAt s n).any fun im => im.decls.frozen.any fun g => rangesMeet a len g.1 g.2

/-- A write of a unit or of the packer into the staging range: the status that it ends with. A FROZEN range there is read-only to it
as to every actor (R159, R173). -/
def stage (s : State) (r : Reader) (place : Nat) (bs : List Byte) : State × Nat :=
  if meetsFrozen s r.ctx place bs.length then (confine s r.ctx srcApproach 0xFF [0xFFFF, r.unit, lo32 place], stContextFault)
  else
    match writeHbm s r place bs with
    | (s, true) => (memoryFault s r, stMemUncorrectable)
    | (s, false) => (s, stOk)

/-- The bytes that one number spells, least significant first. -/
def digitBytes (v n : Nat) : List Byte := (List.range n).map fun i => BitVec.ofNat 8 (v / 256 ^ i)

/-- One write of a unit's working data (R294): free bytes in whole blocks of the first 2 GiB, at a free place that no decoded item or
segment table takes, and free bytes read back (log 34). -/
def workWrite (r : Reader) (c : AprConfig) (s : State) : State :=
  let x := fun i => Config.freeValue (s.free + i)
  let blocks := 2 * gib / 64
  let first := x 0 % blocks
  let n := 64 * (x 1 % (blocks - first))
  let a := c.stagingAddr + 64 * first
  let s := count (freeUsed s 4) 5 ((stackOf a).getD 0) 0 (x 3 % (2 * gib))
  if (stagingUsed s r.ctx).any fun u => rangesMeet a n u.1 u.2 then s else (stage s r a (digitBytes (x 2) n)).1

/-- The working data that a unit writes for an item, in a free number of writes: reference frames, coefficient buffers, decoded planes.
A text has none. -/
def workData (s : State) (c : AprConfig) (r : Reader) (kind : Nat) : State :=
  if kind = 0 then s else (List.range (freeBelow s (2 ^ 32))).foldl (fun s _ => workWrite r c s) (freeUsed s 1)

/-- Decode one item on a unit: result, error offset, revision and token rows (R300, R313). -/
def decodeOn (s : State) (c : AprConfig) (tables : List (Nat × List Byte)) (i : Item) (unit : Nat) (data : HostRead) :
    ItemResult × List Byte :=
  let microcode := revisionOf s (microcodeModule i.kind)
  match data, c.profiles[i.profile]? with
  | some d, some pr =>
    let x := itemRows c (assoc tables i.table) i pr (d.take i.length)
    let width := (x.2.2.headD []).length
    ({ result := x.1, unit, detail := x.2.1, microcode, tokens := x.2.2.length, width, place := 0 }, x.2.2.flatten)
  | _, _ => ({ result := resHostRead, unit, detail := 0, microcode, tokens := 0, width := 0, place := 0 }, [])

/-- The micro-batch is beyond the feed class (R194). -/
def oversize (k : SlotClass) (rowBytes tokens segs : Nat) : Bool :=
  decide (k.maxTokens < tokens ∨ k.segMax < segs ∨ k.payloadMax < tokens * rowBytes)

/-- The slot class of a context's feed queue. -/
def feedClass (s : State) (n : Nat) (c : AprConfig) : Option SlotClass :=
  (imageAt s n).bind fun im => (feedQueueOf im c.feedQueue).map (classOf im)

/-- A decoded item enters its feed: its rows into the staging range, once there is space (R298 step 2). -/
def stageItem (s : State) (c : AprConfig) (f : Feed) (item : Nat) (kind : Nat) (r : ItemResult) (rows : List Byte) : State :=
  let keep := fun place : Nat => modFeed s f.q f.seq fun f => { f with results := f.results ++ [(item, { r with place })] }
  if rows.isEmpty then keep 0
  else
    match itemPlace s c f rows.length with
    | none => s
    | some a =>
      match stage (keep a) (aprReader f.ctx (unitClass kind) r.unit) a rows with
      | (s, 0) => s
      | (s, status) => unitFault s f.q f.seq status

/-- ITEM_DECODE: one unit decodes one item; decoding stops where the micro-batch would exceed the feed class (R298). -/
def execItemDecode (q seq item unit : Nat) (data : HostRead) (s : State) : Host.Outcome State Fault Refusal :=
  .next (match running s && !approachHeld s, findFeed s q seq with
    | true, some f =>
      match f.items[item]?, (ctxAt s f.ctx).bind (·.apr) with
      | some i, some c =>
        if (f.result item).isSome || decide (unitCount i.kind ≤ unit) then s
        else
          let (r, rows) := decodeOn s c f.tables i unit data
          let g := { f with results := f.results ++ [(item, r)] }
          if (feedClass s f.ctx c).any fun k => oversize k c.rowBytes g.tokens g.segments.length then
            endFeed (modFeed s q seq fun _ => g) g stOversize []
          else
            let s := workData s c (aprReader f.ctx (unitClass i.kind) unit) i.kind
            if (findFeed s q seq).isNone then s else stageItem s c f item i.kind r rows
      | _, _ => s
    | _, _ => s)

/-- Tokens rounded up to pad_to (R299). -/
def paddedTokens (c : AprConfig) (n : Nat) : Nat := ceilDiv n c.padTo * c.padTo

/-- Segment table of a feed, with its padding entry (R299). -/
def feedSegs (c : AprConfig) (f : Feed) : List Seg :=
  let n := f.tokens
  (f.segments.map fun g => { length := g.2.2.tokens, segId := g.2.1.segId, modality := modalityOf g.2.1.kind : Seg })
    ++ if paddedTokens c n = n then [] else [{ length := paddedTokens c n - n, segId := 65535, modality := 0xFF }]

/-- Read the decoded items back in list order: each row filled to row_bytes (R298 step 3, R299). -/
def readItems (c : AprConfig) (n : Nat) : List (Nat × Item × ItemResult) → State → State × Option (List Byte)
  | [], s => (s, some [])
  | (_, _, r) :: t, s =>
    match readOrFault s (aprReader n 4 0) r.place (r.tokens * r.width) with
    | (s, none) => (s, none)
    | (s, some bs) =>
      match readItems c n t s with
      | (s, none) => (s, none)
      | (s, some rest) => (s, some (((List.range r.tokens).flatMap fun k => padTo (slice bs (k * r.width) r.width) c.rowBytes) ++ rest))

/-- The first item that failed (R300). -/
def firstFailed (f : Feed) : Option Nat :=
  (List.range f.items.length).find? fun k => (f.result k).any fun r => decide (0x10 ≤ r.result)

/-- Places of the segment table and of the payload, once the decoded items are read: the payload beyond the first 2 GiB. -/
def packPlaces (s : State) (c : AprConfig) (f : Feed) (segs bytes : Nat) : Option (Nat × Nat) :=
  let used := stagingUsed (dropFeed s f.q f.seq) f.ctx
  let limit := c.stagingAddr + c.stagingBytes
  (firstFit used (c.stagingAddr + 2 * gib) limit bytes).bind fun place =>
    (firstFit ((place, bytes) :: used) c.stagingAddr limit (8 * segs)).map fun table => (table, place)

/-- Bytes of a feed's payload (R299). -/
def packedBytes (c : AprConfig) (f : Feed) : Nat := paddedTokens c f.tokens * c.rowBytes

/-- Write the segment table and the token rows of a feed at their places. -/
def packAt (s : State) (c : AprConfig) (f : Feed) (table place : Nat) : State :=
  match readItems c f.ctx f.segments s with
  | (s, none) => unitFault s f.q f.seq stMemUncorrectable
  | (s, some rows) =>
    let s := modFeed s f.q f.seq fun f => { f with packed := some ((feedSegs c f).length, table, packedBytes c f, place) }
    match stage s (aprReader f.ctx 4 0) table ((feedSegs c f).flatMap encodeSeg) with
    | (s, 0) =>
      match stage s (aprReader f.ctx 4 0) place (padTo rows (packedBytes c f)) with
      | (s, 0) => s
      | (s, status) => unitFault s f.q f.seq status
    | (s, status) => unitFault s f.q f.seq status

/-- Steps 3 and 4 of R298 for a feed whose micro-batch fits its class; it waits for staging space. -/
def packFeed (s : State) (c : AprConfig) (f : Feed) : State :=
  match packPlaces s c f (feedSegs c f).length (packedBytes c f) with
  | none => s
  | some (table, place) => packAt s c f table place

/-- Earlier feeds of the context are packed: the packer takes them in take order (log 34). -/
def packTurn (s : State) (f : Feed) : Bool :=
  ((s.apr.feeds.find? fun g => g.ctx == f.ctx && g.packed.isNone).map fun g => g.q == f.q && g.seq == f.seq).getD false

/-- PATCH_PACK: token rows and segment table into the staging range (R298 steps 3 and 4). -/
def execPatchPack (q seq : Nat) (s : State) : Host.Outcome State Fault Refusal :=
  .next (match running s && !approachHeld s, findFeed s q seq with
    | true, some f =>
      match (ctxAt s f.ctx).bind (·.apr), f.packed with
      | some c, none =>
        if f.results.length < f.items.length then s
        else
          match firstFailed f, c.omitErrors with
          | some k, false => endFeed s f stBadParam [k]
          | _, _ =>
            if f.tokens = 0 then endFeed s f stEmptyOutput []
            else if (feedClass s f.ctx c).any fun k => oversize k c.rowBytes (paddedTokens c f.tokens) (feedSegs c f).length then
              endFeed s f stOversize []
            else if packTurn s f then packFeed s c f
            else s
      | _, _ => s
    | _, _ => s)

/-- The descriptor of a feed; ADMIT and POP fill mb_id, step and origin (R184, R193). -/
def feedDesc (f : Feed) (segs : List Seg) (bytes : Nat) : Desc :=
  { mbId := 0, step := 0, feedTag := f.tag, tokens := (segs.map (·.length)).sum, payloadBytes := bytes, version := 0
    segCount := segs.length, last := f.last, bwd := false, joined := false, origin := 0 }

/-- Steps 6 and 7 of R298: the packed micro-batch from the staging range into the slot. -/
def pushFeed (s : State) (im : Image) (queue : Nat) (f : Feed) (segs table bytes place : Nat) : State :=
  match readOrFault s (aprReader f.ctx 4 0) table (8 * segs) with
  | (s, none) => unitFault s f.q f.seq stMemUncorrectable
  | (s, some tb) =>
    match readOrFault s (aprReader f.ctx 4 0) place bytes with
    | (s, none) => unitFault s f.q f.seq stMemUncorrectable
    | (s, some rows) =>
      let l := decodeSegs tb segs
      let s := fillSlot s f.ctx im queue (feedDesc f l bytes) l rows
      if (findFeed s f.q f.seq).isNone then s else endFeed (opDone s f.ctx) f stOk []

/-- FEED_PUSH: the packed micro-batch into the next FREE slot of the feed queue, in take order (R298 steps 5 to 7). -/
def execFeedPush (q seq : Nat) (s : State) : Host.Outcome State Fault Refusal :=
  .next (match running s && !approachHeld s, findFeed s q seq with
    | true, some f =>
      match (ctxAt s f.ctx).bind (·.apr), imageAt s f.ctx, f.packed with
      | some c, some im, some (segs, table, bytes, place) =>
        match (progAt s f.ctx).bind fun p => spanQueueAt p c.feedQueue with
        | some x => if !oldestFeed s f || !hasRoom x then s else pushFeed s im c.feedQueue f segs table bytes place
        | none => s
      | _, _, _ => s
    | _, _ => s)

/-! ### APR_DECODE (R314) -/

/-- The planar tensor of a content: dimensions, code depth where it has codes, elements as codes or values. -/
structure Planar where
  dims : List Nat
  /-- 0 for text IDs, else the depth of the codes; none where there are no codes -/
  depth : Option Nat
  text : Bool
  codes : List Nat
  halves : List Nat

/-- The tensor of a content (R314). -/
def planarOf (pr : Profile) (cls cap : Nat) : Content → Planar
  | .failed _ _ => { dims := [], depth := none, text := false, codes := [], halves := [] }
  | .text ids =>
    let ids := if cap = 0 then ids else ids.take cap
    { dims := [ids.length], depth := none, text := true, codes := ids, halves := [] }
  | .picture p =>
    let dims := [p.channels, p.height, p.width]
    let per := p.height * p.width
    { dims := if cls = 3 then p.frames :: dims else dims, depth := some p.depth, text := false, codes := p.codes
      halves := p.codes.zipIdx.map fun x => toBinary16 pr (x.2 / per % p.channels) (intVal x.1) }
  | .sound x =>
    let v := soundValues pr x
    { dims := if pr.audioMode < 2 then [v.length / pr.nMels, pr.nMels] else [v.length], depth := none, text := false, codes := []
      halves := v }

/-- The tensor's bytes in an output format, when the content has it. -/
def Planar.bytes (x : Planar) (fmt : Nat) : Option (List Byte) :=
  if x.text then some (x.codes.flatMap (leBytes 4))
  else if fmt = 2 then some (x.halves.flatMap (leBytes 2))
  else match x.depth with
    | none => none
    | some d => if fmt = 0 then (if d ≤ 8 then some (x.codes.flatMap (leBytes 1)) else none) else some (x.codes.flatMap (leBytes 2))

/-- The tensor's way through the working area, as far as that reaches, to its destination; it waits for staging space. -/
def deliverTensor (s : State) (c : AprConfig) (q seq n kind dst : Nat) (out : List Byte) (dims : List Nat) : State :=
  let r := aprReader n (unitClass kind) (freeBelow s (unitCount kind))
  let held := min out.length (2 * gib - tableSpace)
  let fault := fun s : State => finish (memoryFault s r) q seq stMemUncorrectable []
  match firstFit (stagingUsed s n) c.stagingAddr (c.stagingAddr + 2 * gib - tableSpace) held with
  | none => s
  | some a =>
    match stage (workData (freeUsed s 1) c r kind) r a (out.take held) with
    | (s, status + 1) => finish s q seq (status + 1) []
    | (s, 0) =>
      match readHbm s r a held with
      | (s, none) => fault s
      | (s, some bs) =>
        match writeHbm s r dst (bs ++ out.drop held) with
        | (s, true) => fault s
        | (s, false) => finish s q seq stOk dims

/-- APR_DECODE: one item into HBM, without the packer. -/
def execAprDecode (q seq : Nat) (data : HostRead) (s : State) : Host.Outcome State Fault Refusal :=
  .next (onUnit s q seq 0x0703 fun s t =>
    let b := t.payload
    let i := itemOf (slice b 0 48)
    let dst := field b 48 8
    let room := field b 56 8
    let fmt := field b 64 1
    match (ctxAt s t.context).bind (·.apr) with
    | none => refuse s q seq stBadParam
    | some c =>
      match c.profiles[i.profile]? with
      | none => refuse s q seq stBadParam
      | some pr =>
        if decide (b.length ≠ 65) || !itemOk c (slice b 0 48) || decide (dst % 32 ≠ 0) || decide (2 < fmt) then
          refuse s q seq stBadParam
        else if !granted s t.context dst room then refuse s q seq stNotPermitted
        else
          match data with
          | none => finish s q seq stBadParam [resHostRead]
          | some d =>
            match decodeItem (assoc s.apr.tables i.table) c.omitErrors i pr (d.take i.length) with
            | .failed r _ => finish s q seq stBadParam [r]
            | x =>
              let y := planarOf pr (classOfKind i.kind) i.tokenCap x
              match y.bytes fmt with
              | none => refuse s q seq stBadParam
              | some out =>
                if room < out.length then refuse s q seq stOversize
                else deliverTensor s c q seq t.context i.kind dst out y.dims)

/-! ### Tokenizer tables (R308, R312) -/

/-- Header and buckets of a table (R308, R312). -/
def tableOk (b : List Byte) : Bool :=
  let vocab := field b 8 4
  let merges := field b 12 4
  let n := field b 16 4
  decide (0x460 ≤ b.length) && decide (field b 0 4 = 0x4E4B4F54) && decide (field b 4 2 = 1) && zeroField b 6 2
    && between 257 262144 vocab && decide (merges + 256 ≤ vocab) && decide (merges < n ∧ n ≤ 524288) && decide (n = 2 ^ n.log2)
    && between 1 4096 (field b 20 2) && zeroField b 22 2 && decide (field b 24 4 < vocab) && decide (field b 28 4 < vocab)
    && decide (b.length = 0x460 + 16 * n)
    && decide (((List.range n).filter fun i => field b (0x460 + 16 * i + 8) 4 != 0xFFFFFFFF).length = merges)

/-- The 32 MiB of loaded tables (R312). -/
def tableRoom : Nat := 33554432

/-- Bytes of tables that stay loaded beside a new table t. -/
def otherTables (s : State) (t : Nat) : Nat := ((s.apr.tables.filter fun x => x.1 != t).map (·.2.length)).sum

/-- Bytes of old versions that feeds still use (R312). -/
def oldTables (s : State) (t : Nat) : Nat :=
  let used := (s.apr.feeds.flatMap (·.tables)).eraseDups
  ((used.filter fun x => x.1 == t || !s.apr.tables.contains x).map (·.2.length)).sum

/-- APR_TABLE_LOAD: load a tokenizer table; it waits for room for both versions. -/
def execAprTableLoad (q seq : Nat) (data : HostRead) (s : State) : Host.Outcome State Fault Refusal :=
  .next (onCmd s q seq 0x0704 fun s t =>
    match data with
    | none => finish s q seq stBadParam [0xFFFFFFFF]
    | some b =>
      if 7 < t.param 0 || decide (t.param 3 ≠ b.length) || !tableOk b then refuse s q seq stBadParam
      else if sha256 (b.drop 0x40) != slice b 0x20 32 then refuse s q seq stDigestMismatch
      else if tableRoom < otherTables s (t.param 0) + b.length then refuse s q seq stBadParam
      else if tableRoom < otherTables s (t.param 0) + b.length + oldTables s (t.param 0) then s
      else finish { s with apr := { s.apr with tables := setAssoc s.apr.tables (t.param 0) b } } q seq stOk [])

/-- Revisions of the units' microcode (R293, R386). -/
def microcodeRevisions (s : State) : List Nat := (List.range 10).map fun i => revisionOf s (0x0010 + i)

/-- APR_QUERY: loaded tables, microcode revisions, outstanding feeds (R293). -/
def execAprQuery (q seq : Nat) (s : State) : Host.Outcome State Fault Refusal :=
  .next (onCmd s q seq 0x0705 fun s t =>
    let revs := microcodeRevisions s
    let tables := ((List.range 8).map fun i => flag (assoc s.apr.tables i).isSome i).sum
    finish s q seq stOk
      [tables, revs.foldl min (revs.headD 0), revs.foldl max 0, (s.apr.feeds.filter fun f => f.ctx = t.context).length])

end Sys2Proof.Machine
end

