-- ==== Sys2Proof/Machine/Identity.lean ====
section
/-! DEFINITION. The identity key: index reservation and signatures (16 R391 to R395), and the subtree cache (R392). -/

namespace Sys2Proof.Machine

/-- Signatures of the key (R391). -/
def keyCapacity : Nat := 1048576

/-- Commit an INDEX_RESERVE where q has reached the limit (R393). -/
def reserveIndex (s : State) : State :=
  if s.toll.q < indexLimit s.toll then s
  else
    let s := retireBlocks { s with toll := commitRecords s.toll 2 [.indexReserve (s.toll.q + 64)] }
    logError s 0x0052 0 sevInfo srcPackage 0xFF 0xFF [s.toll.q + 64]

/-- The subtree k of the key's tree, if there is one (R392). -/
def subtreeOf (k : Nat) : Option (Nat × List (List Byte)) := if k < 1024 then some (k, subtreeNodes k) else none

/-- Leave index q behind: entering the next subtree takes the one computed ahead, or computes it (R392). -/
def useIndex (t : Tollhouse) : Tollhouse :=
  if (t.q + 1) % 1024 = 0 then
    { t with q := t.q + 1, subtree := t.nextSubtree.or (subtreeOf ((t.q + 1) / 1024)), nextSubtree := none }
  else { t with q := t.q + 1 }

/-- Sign a digest with the next index: the index and the 2,828 bytes of the signature; none when the key is exhausted, or no index can
be reserved (R391, R395). -/
def signDigest (s : State) (d : List Byte) : State × Option (Nat × List Byte) :=
  if keyCapacity ≤ s.toll.q then (s, none)
  else
    let s := reserveIndex s
    if indexLimit s.toll ≤ s.toll.q then (s, none)
    else ({ s with toll := useIndex s.toll }, some (s.toll.q, identitySign s.toll.q d))

/-- A reservation is needed for which the journal has no room before its compaction: a signature waits (R384, R406; log 93). -/
def signWaits (s : State) : Bool := decide (s.toll.q < keyCapacity ∧ indexLimit (reserveIndex s).toll ≤ s.toll.q)

/-- SUBTREE_COMPUTE: fewer than 128 indices of the current subtree remain, and the next one is computed (R392). -/
def execSubtreeCompute (s : State) : Host.Outcome State Fault Refusal :=
  .next (if powered s && decide (1024 - s.toll.q % 1024 < 128) then
      { s with toll := { s.toll with nextSubtree := subtreeOf (s.toll.q / 1024 + 1) } }
    else s)

end Sys2Proof.Machine
end

