-- ==== Sys2Proof/Machine/Caisson.lean ====
section
/-! DEFINITION. The Caisson: capture, copy, digest and commit of checkpoints, their configuration, restore, export and import
(chapter 11). -/

namespace Sys2Proof.Machine

/-! ### Halves and their layout (R276, R282) -/

def manifestMagic : Nat := 0x4E534143
def recordMagic : Nat := 0x44534B43
def manifestAt : Nat := 4096
def recordAt (index : Nat) : Nat := 524288 + 64 * index

/-- The stacks that hold commit records and manifests (R276). -/
def commitStacks : List Nat := [0, 6]

/-- Write into a half on one stack. -/
def writeHalf (s : State) (half k off : Nat) (bs : List Byte) : State :=
  { s with hbm := s.hbm.write (halfBase half k + off) bs }

/-- Clear a half's commit records (R276). -/
def clearHalf (s : State) (half : Nat) : State := commitStacks.foldl (fun s k => writeHalf s half k 0 (List.replicate 64 0)) s

/-- The target half: one without a valid commit record, half 0 first; else the one with the lower local_seq (R276). -/
def targetHalf (s : State) : Nat :=
  if !committed s 0 then 0 else if !committed s 1 then 1 else if localSeq s 0 < localSeq s 1 then 0 else 1

/-- Half 1 holds the newer committed generation (R282). -/
def newerIsOne (s : State) : Bool := committed s 1 && decide (localSeq s 0 < localSeq s 1)

/-- The uncorrectable blocks of a range of a half, each recorded (R255). -/
def logHalf (s : State) (ctx k a n : Nat) : State :=
  (s.hbm.badIn a n).foldl (logUncorrectable (caissonReader ctx k) 0) s

/-- Where a shard's data lies in a half (R276). -/
def shardData (half : Nat) (h : Shard) : Nat := halfBase half h.stack + h.halfOffsetMib * mib

/-! ### The capture point (R274 to R276) -/

/-- The shards of a configuration, laid out by stack in index order from 1 MiB on (R276); `tops` is the next free MiB of each
stack. -/
def layShards : Nat → List (Nat × Nat) → List (Nat × Nat) → List Shard
  | _, _, [] => []
  | i, tops, r :: rs =>
    let k := (stackOf r.1).getD 0
    let off := (assoc tops k).getD 1
    { src := r.1, mib := r.2, stack := k, index := i, halfOffsetMib := off, digest := [] }
      :: layShards (i + 1) (setAssoc tops k (off + r.2)) rs

/-- Every granule of every shard (R277). -/
def allGranules (hs : List Shard) : List (Nat × Nat) :=
  hs.zipIdx.flatMap fun h => (List.range h.1.mib).map fun g => (h.2, g)

/-- The requests that have fallen due at a boundary (R275). -/
def fellDue (boundary : Nat) (t : CkptTake) : Bool := t.due || decide (t.step ≤ boundary)

/-- The text of the checkpoint that starts: the latest request that supplied one, else the configuration's (R289). -/
def ckptText (cfg : CkptConfig) (ts : List CkptTake) : List Byte := ((ts.filterMap (·.text)).getLast?).getD cfg.text

/-- A checkpoint starts at a capture point (R276, R277). -/
def startCkpt (s : State) (c : Context) (im : Image) (cfg : CkptConfig) (boundary : Nat) : State :=
  let s := readCommits s cfg.ctx
  let half := targetHalf s
  let s := clearHalf s half
  let shards := layShards 0 [] cfg.ranges
  let run : CkptRun :=
    { ctx := cfg.ctx, half, cfg, text := ckptText cfg (s.caisson.takes.filter (fellDue boundary)), zecDigest := im.zecDigest
      redDigest := im.redDigest, captureTime := s.time
      step := boundary, version := c.version, nextMb := c.nextMb, ls := c.ls, lsInterval := c.lsInterval, shards
      uncopied := allGranules shards, digested := [], stepEnded := false }
  { s with
    caisson :=
      { s.caisson with
        run := some run, held := false, timerDue := false, timerFrom := s.time
        takes := s.caisson.takes.filter fun t => !fellDue boundary t } }

/-- A checkpoint is due at the capture point of the step before the boundary (R275). -/
def ckptDue (C : Caisson) (cfg : CkptConfig) (boundary now : Nat) : Bool :=
  C.held || (cfg.stepInterval != 0 && boundary % cfg.stepInterval == 0)
    || (cfg.timerS != 0 && (C.timerDue || decide (C.timerFrom + cfg.timerS * 1000000000 ≤ now)))
    || C.takes.any (fellDue boundary)

/-- A configuration of the context takes effect (R289). -/
def takeEffect (s : State) (n : Nat) : State :=
  match s.caisson.newConfig with
  | some (some cfg, _, _) =>
    if cfg.ctx = n then
      { s with caisson := { s.caisson with config := some cfg, newConfig := none, timerFrom := s.time, timerDue := false } }
    else s
  | _ => s

/-- What happens at the capture point of a context: a due checkpoint starts, or is held while one is in progress (R275). -/
def capture (s : State) (n : Nat) (im : Image) : State :=
  let s := takeEffect s n
  match s.caisson.config, ctxAt s n with
  | some cfg, some c =>
    let boundary := add32 c.step 1
    if cfg.ctx = n && ckptDue s.caisson cfg boundary s.time then
      if s.caisson.run.isSome then
        { s with
          caisson := { s.caisson with held := true, takes := s.caisson.takes.map fun t => { t with due := fellDue boundary t } } }
      else startCkpt s c im cfg boundary
    else s
  | _, _ => s

/-- CAPTURE_POINT: the Caisson actor's last fence WAIT of the step completes (R274). -/
def execCapturePoint (s : State) : Host.Outcome State Fault Refusal :=
  .next (match acting s with
    | none => s
    | some (n, im) =>
      match progAt s n, nextFence s n im with
      | some p, some ch =>
        if p.fencesDone + 1 = im.decls.fences.length && fenceReady s n im then capture (passFence s n ch) n im else s
      | _, _ => s)

/-- CKPT_TIMER_DUE: the timer's period elapses (R275). -/
def execCkptTimerDue (s : State) : Host.Outcome State Fault Refusal :=
  .next (match s.caisson.config with
    | some cfg =>
      if running s && cfg.timerS != 0 && !s.caisson.timerDue then
        let s := advanceTo s (s.caisson.timerFrom + cfg.timerS * 1000000000)
        { s with caisson := { s.caisson with timerDue := true } }
      else s
    | none => s)

/-! ### Copy and digest (R277, R279) -/

/-- The uncopied granule of a stack with the lowest source address. -/
def frontier (run : CkptRun) (k : Nat) : Option (Nat × Nat) :=
  (run.uncopied.filter fun g => ((run.shards[g.1]?).map (·.stack)) == some k).foldl
    (fun b g => match b with
      | none => some g
      | some x => if granuleSrc run g < granuleSrc run x then some g else some x) none

/-- CKPT_GRANULE_COPY: the copy frontier of a stack takes the next uncopied granule. -/
def execCkptGranuleCopy (stack : Nat) (s : State) : Host.Outcome State Fault Refusal :=
  .next (match running s, s.caisson.run with
    | true, some run =>
      match frontier run stack with
      | none => s
      | some g =>
        let (s, lost) := copyBeforeList [g] s
        if lost then faultContext s run.ctx stMemUncorrectable else s
    | _, _ => s)

/-- A shard record (R282). -/
def shardRecord (step sequence : Nat) (h : Shard) : List Byte :=
  leBytes 4 recordMagic ++ leBytes 4 step ++ leBytes 8 sequence ++ leBytes 2 h.index ++ leBytes 2 h.stack ++ leBytes 4 h.mib
    ++ leBytes 8 0 ++ h.digest

/-- The sequence that the checkpoint in progress takes (R281). -/
def nextSequence (s : State) : Nat := s.caisson.sequence + 1

/-- Give a shard the digest of its bytes in the target half. -/
def digestShard (s : State) (half : Nat) (h : Shard) : Shard := { h with digest := sha256 (s.hbm.mem.read (shardData half h) (h.mib * mib)) }

/-- The bytes of a stack's shards that are uncorrectable in a half. -/
def badShards (s : State) (half : Nat) (hs : List Shard) : List Shard :=
  hs.filter fun h => !(s.hbm.badIn (shardData half h) (h.mib * mib)).isEmpty

/-- SHARD_DIGEST: the digests of a stack's shards and their records; an uncorrectable block abandons the checkpoint (R279,
R291). -/
def execShardDigest (stack : Nat) (s : State) : Host.Outcome State Fault Refusal :=
  .next (match running s, s.caisson.run with
    | true, some run =>
      if (frontier run stack).isSome || run.digested.contains stack then s
      else
        let mine := run.shards.filter fun h => h.stack = stack
        match badShards s run.half mine with
        | [] =>
          let s := mine.foldl (fun s h => correctRange s (shardData run.half h) (h.mib * mib)) s
          let shards := run.shards.map fun h => if h.stack = stack then digestShard s run.half h else h
          let records := (shards.filter fun h => h.stack = stack)
          let s := records.foldl (fun s h => writeHalf s run.half stack (recordAt h.index) (shardRecord run.step (nextSequence s) h)) s
          { s with caisson := { s.caisson with run := some { run with shards, digested := run.digested ++ [stack] } } }
        | h :: _ => abandonCkpt (logHalf s run.ctx stack (shardData run.half h) (h.mib * mib)) stMemUncorrectable
    | _, _ => s)

/-! ### Manifest and commit (R279, R281, R282) -/

/-- A shard table entry (R282). -/
def shardEntry (h : Shard) : List Byte :=
  leBytes 8 h.src ++ leBytes 4 h.mib ++ leBytes 2 h.stack ++ leBytes 2 h.index ++ leBytes 4 h.halfOffsetMib ++ leBytes 12 0
    ++ h.digest

/-- The package ID as a manifest or a quote carries it: 0xFFFF while not set (R281, R394). -/
def idField (s : State) : Nat := s.pylon.pkgId.getD 0xFFFF

/-- The manifest up to the end of its shard table (R281). -/
def manifestBody (s : State) (run : CkptRun) (isSigned : Bool) : List Byte :=
  leBytes 4 manifestMagic ++ leBytes 2 1 ++ leBytes 1 (flag isSigned 0) ++ leBytes 1 0 ++ leBytes 8 (nextSequence s)
    ++ leBytes 8 run.captureTime ++ leBytes 8 s.time ++ leBytes 4 run.step ++ leBytes 4 run.version ++ leBytes 4 run.nextMb
    ++ leBytes 1 (byteOfInt run.ls.exp) ++ leBytes 1 0 ++ leBytes 2 run.ls.clean ++ leBytes 2 run.lsInterval
    ++ leBytes 2 run.shards.length ++ leBytes 2 (idField s) ++ leBytes 1 run.ctx ++ leBytes 9 0
    ++ run.zecDigest ++ run.redDigest ++ padTo run.text 64 ++ leBytes 64 0 ++ run.shards.flatMap shardEntry

/-- A manifest: body, digest, signature, zeros to a multiple of 64 bytes (R281). -/
def encodeManifest (body digest sig : List Byte) : List Byte :=
  let m := body ++ digest ++ leBytes 4 sig.length ++ sig
  padTo m (ceilDiv m.length 64 * 64)

/-- A commit record (R282). -/
def commitRecord (bytes seq step : Nat) (imported : Bool) (digest : List Byte) : List Byte :=
  leBytes 4 commitMagic ++ leBytes 4 bytes ++ leBytes 8 seq ++ leBytes 4 step ++ leBytes 4 (flag imported 0) ++ leBytes 8 0
    ++ digest

/-- Every stack that has a shard has its records written, and the captured step has ended (R279, R280). -/
def commitReady (run : CkptRun) : Bool :=
  run.uncopied.isEmpty && run.stepEnded && run.shards.all fun h => run.digested.contains h.stack

/-- With SIGN the manifest is signed, unless the key is exhausted (R279, R395). -/
def signManifest (s : State) (run : CkptRun) : State × List Byte :=
  if run.cfg.sign && decide (s.toll.q < keyCapacity) then
    let body := manifestBody s run true
    match signDigest s (sha256 body) with
    | (s, some (_, sig)) => (s, encodeManifest body (sha256 body) sig)
    | (s, none) => (s, encodeManifest body (sha256 body) [])
  else
    let s := if run.cfg.sign then logError s 0x0052 0 sevWarning srcPackage 0xFF run.ctx [keyCapacity] else s
    let body := manifestBody s run false
    (s, encodeManifest body (sha256 body) [])

/-- Write manifest and commit records, stack 0 before stack 6 (R279). -/
def writeGeneration (s : State) (half : Nat) (manifest record : List Byte) : State :=
  let s := commitStacks.foldl (fun s k => writeHalf s half k manifestAt manifest) s
  commitStacks.foldl (fun s k => writeHalf s half k 0 record) s

/-- Where a manifest's digest lies. -/
def digestAt (shards : Nat) : Nat := 256 + 64 * shards

/-- CKPT_COMMIT: manifest, signature, commit records, report; a signature waits while no index can be reserved. -/
def execCkptCommit (s : State) : Host.Outcome State Fault Refusal :=
  .next (match running s, s.caisson.run with
    | true, some run =>
      if !commitReady run || (run.cfg.sign && signWaits s) then s
      else
        let (s, m) := signManifest (readCommits s run.ctx) run
        let digest := slice m (digestAt run.shards.length) 32
        let r := ckptReport s run stOk
        let s := writeGeneration r run.half m (commitRecord m.length (nextLocalSeq s) run.step false digest)
        settleRelease { s with caisson := { s.caisson with run := none, sequence := nextSequence s } }
    | _, _ => s)

/-! ### Commands (R289, R290, R442) -/

/-- The context that holds a checkpoint configuration. -/
def ckptHolder (s : State) : Option Nat :=
  match s.caisson.newConfig with
  | some (some c, _, _) => some c.ctx
  | _ => s.caisson.config.map (·.ctx)

def releasing (s : State) : Bool :=
  match s.caisson.newConfig with
  | some (none, _, _) => true
  | _ => false

/-- The configuration that a payload spells (R290). -/
def configOf (ctx seq : Nat) (b : List Byte) : CkptConfig :=
  { ctx, seq, stepInterval := field b 2 2, timerS := field b 4 4, reportQueue := field b 8 1, sign := bit (field b 9 1) 0
    text := slice b 0x10 64
    ranges := (List.range (field b 0 2)).map fun i => (field b (0x80 + 16 * i) 8, field b (0x88 + 16 * i) 4) }

/-- Check 2 of R442: every field within R290. -/
def configOk (b : List Byte) : Bool :=
  let n := field b 0 2
  decide (b.length = 0x80 + 16 * n) && decide (n ≤ 240) && decide (field b 4 4 ≤ 86400) && decide (field b 8 1 < 64)
    && decide (field b 9 1 < 2) && zeroField b 0x0A 6 && zeroField b 0x50 48
    && (List.range n).all fun i =>
      zeroField b (0x8C + 16 * i) 4 && decide (field b (0x80 + 16 * i) 8 % mib = 0) && decide (1 ≤ field b (0x88 + 16 * i) 4)

/-- The ranges overlap somewhere. -/
def overlapping : List (Nat × Nat) → Bool
  | [] => false
  | r :: rs => (rs.any fun x => rangesMeet r.1 (r.2 * mib) x.1 (x.2 * mib)) || overlapping rs

/-- MiB of the ranges on a stack. -/
def mibOn (rs : List (Nat × Nat)) (k : Nat) : Nat := ((rs.filter fun r => stackOf r.1 == some k).map (·.2)).sum

/-- A fence channel of a stage (R273). -/
def fenceOk (im : Image) (x : Nat × Nat) : Bool :=
  (tokenDecl im x.1).any fun d => d.producer == .stage x.2 && d.consumer == .caisson && d.capacity == 1 && d.initial == 0

/-- The program has one fence channel for each stage (R273). -/
def fenced (im : Image) : Bool :=
  im.decls.stages.length != 0 && im.decls.fences.length == im.decls.stages.length && im.decls.fences.zipIdx.all (fenceOk im)

/-- Check 4 of R442. -/
def rangesOk (im : Image) (rs : List (Nat × Nat)) : Bool :=
  fenced im && (rs.all fun r => inGeneral r.1 (r.2 * mib) && inRegions im r.1 (r.2 * mib)) && !overlapping rs
    && (List.range 12).all fun k => decide (mibOn rs k ≤ 8191)

/-- CKPT_CONFIG: set or release the configuration. -/
def execCkptConfig (q seq : Nat) (s : State) : Host.Outcome State Fault Refusal :=
  .next (onCmd s q seq 0x0601 fun s t =>
    if releasing s && (ckptHolder s).getD t.context == t.context then s
    else if (ckptHolder s).any (· != t.context) then refuse s q seq stNotPermitted
    else if !configOk t.payload then refuse s q seq stBadParam
    else
      let cfg := configOf t.context seq t.payload
      if cfg.ranges.isEmpty then settleRelease { s with caisson := { s.caisson with newConfig := some (none, q, seq) } }
      else if !cfg.ranges.all fun r => granted s t.context r.1 (r.2 * mib) then refuse s q seq stNotPermitted
      else
        match imageAt s t.context with
        | none => refuse s q seq stBadParam
        | some im =>
          if rangesOk im cfg.ranges then
            finish { s with caisson := { s.caisson with newConfig := some (some cfg, q, seq) } } q seq stOk []
          else refuse s q seq stBadParam)

/-- CKPT_TAKE: request a checkpoint at step r. -/
def execCkptTake (q seq : Nat) (s : State) : Host.Outcome State Fault Refusal :=
  .next (onCmd s q seq 0x0602 fun s t =>
    if ckptHolder s != some t.context || (t.payload.length != 0 && t.payload.length != 64) then refuse s q seq stBadParam
    else
      let text := if t.payload.isEmpty then none else some t.payload
      finish { s with caisson := { s.caisson with takes := s.caisson.takes ++ [{ step := t.param 0, text, due := false }] } }
        q seq stOk [])

/-- A half's state code in CKPT_QUERY (R289). -/
def halfCode (s : State) (h : Nat) : Nat :=
  if s.caisson.run.any fun r => r.half = h then 2 else if committed s h then 1 else 0

/-- The step of a half's committed generation (R289). -/
def halfStep (s : State) (h : Nat) : Nat := if halfCode s h = 1 then field (commitAt s h 0) 16 4 else 0xFFFFFFFF

/-- CKPT_QUERY: the state of both halves and of the checkpoint in progress. -/
def execCkptQuery (q seq : Nat) (s : State) : Host.Outcome State Fault Refusal :=
  .next (onCmd s q seq 0x0603 fun s t =>
    let s := readCommits s t.context
    let p0 := halfCode s 0 + halfCode s 1 * 4 + flag s.caisson.held 4 + flag (newerIsOne s) 5
    finish s q seq stOk [p0, halfStep s 0, halfStep s 1, (s.caisson.run.map (·.step)).getD 0xFFFFFFFF])

/-- CKPT_DISCARD: clear a half's commit records. -/
def execCkptDiscard (q seq : Nat) (s : State) : Host.Outcome State Fault Refusal :=
  .next (onCmd s q seq 0x0607 fun s t =>
    if 1 < t.param 0 || (s.caisson.run.any fun r => r.half = t.param 0) then refuse s q seq stBadParam
    else finish (clearHalf s (t.param 0)) q seq stOk [])

/-! ### Restore (R284, R285) -/

/-- A shard table entry as it is read (R282). -/
def shardOf (b : List Byte) (i : Nat) : Shard :=
  let o := 256 + 64 * i
  { src := field b o 8, mib := field b (o + 8) 4, stack := field b (o + 12) 2, index := field b (o + 14) 2
    halfOffsetMib := field b (o + 16) 4, digest := slice b (o + 32) 32 }

def shardsOf (b : List Byte) : List Shard := (List.range (field b 0x32 2)).map (shardOf b)

/-- A manifest's digest is that of its bytes, and the commit record's (R281, R282). -/
def manifestMatches (b digest : List Byte) : Bool :=
  let e := digestAt (field b 0x32 2)
  decide (e + 36 ≤ b.length) && decide (field b 0 4 = manifestMagic) && sha256 (b.take e) == slice b e 32
    && slice b e 32 == digest

/-- The manifest of a half: the first copy that matches (check 4 of R284), among those on the stacks given. -/
def readManifest (n half : Nat) : List Nat → State → State × Option (List Byte)
  | [], s => (s, none)
  | k :: ks, s =>
    let c := commitAt s half 0
    match senseHbm s (caissonReader n k) (halfBase half k + manifestAt) (field c 4 4) with
    | (s, some b) => if manifestMatches b (slice c 32 32) then (s, some b) else readManifest n half ks s
    | (s, none) => readManifest n half ks s

/-- The half that p0 selects, when it holds a committed generation (check 3 of R284). -/
def selectHalf (s : State) (p0 : Nat) : Option Nat :=
  let h := if p0 = 2 then (if newerIsOne s then 1 else 0) else p0
  if h < 2 && committed s h then some h else none

/-- Check 8: the shard's record is there, with the manifest's step. -/
def recordOk (step : Nat) (h : Shard) (b : List Byte) : Bool :=
  decide (h.stack < 12) && decide (field b 0 4 = recordMagic) && decide (field b 4 4 = step) && decide (field b 16 2 = h.index)
    && decide (field b 18 2 = h.stack)

/-- The shards whose record fails check 8. -/
def badRecords (n half step : Nat) : List Shard → State → State × List Shard
  | [], s => (s, [])
  | h :: hs, s =>
    let r := senseHbm s (caissonReader n h.stack) (halfBase half h.stack + recordAt h.index) 64
    let rest := badRecords n half step hs r.1
    (rest.1, if r.2.any (recordOk step h) then rest.2 else h :: rest.2)

/-- Read every shard in place through its Footing's staging buffers (R254, R441). Answers the shards whose digest is not the table's
(check 9) and those with an uncorrectable block or word (check 10). -/
def checkShards (n half : Nat) : List Shard → State → State × List Shard × List Shard
  | [], s => (s, [], [])
  | h :: hs, s =>
    let p := footPath s h.stack (shardData half h) n
    let r := senseHbm p.1 (caissonReader n h.stack) (shardData half h) (h.mib * mib)
    let rest := checkShards n half hs r.1
    match r.2, p.2 with
    | some b, false => (rest.1, if sha256 b == h.digest then rest.2.1 else h :: rest.2.1, rest.2.2)
    | _, _ => (rest.1, rest.2.1, h :: rest.2.2)

/-- Refuse with a list of shards, as many as the host buffer holds (R284). -/
def refuseShards (s : State) (t : Taken) (status check : Nat) (hs : List Shard) : State :=
  let ids := (hs.map (·.index)).take 512
  finish (postHost s (t.param64 2) (ids.flatMap (leBytes 2))) t.q t.seq status [check, ids.length]

/-- The context state that a restore sets (R171, R285). -/
def restoreState (b : List Byte) (c : Context) : Context :=
  let husk := fun p : Program => { p with stages := p.stages.map fun r => { r with store := r.store.map fun _ => none } }
  { c with
    step := field b 0x20 4, version := field b 0x24 4, nextMb := field b 0x28 4
    ls := { c.ls with exp := signed 8 (field b 0x2C 1), clean := field b 0x2E 2, pend := none }
    lsInterval := field b 0x30 2, restored := true, program := c.program.map husk }

/-- Copy every shard to its source range, inside its stack (R284). The checks have read every shard through the same path. -/
def restoreShards (s : State) (n half : Nat) (hs : List Shard) : State :=
  hs.foldl (fun s h =>
    let s := (footPath s h.stack (shardData half h) n).1
    let s := (storeInside s (caissonReader n h.stack) h.src (h.mib * mib) fun m => m.copy (shardData half h) h.src (h.mib * mib)).1
    count s 5 h.stack 3 (h.mib * mib)) s

/-- Checks 5 to 10 and the copy of R284, on the manifest that check 4 found. -/
def restoreFrom (s : State) (t : Taken) (half : Nat) (b : List Byte) (im : Image) : State :=
  let step := field b 0x20 4
  let hs := shardsOf b
  if slice b 0x40 32 != im.zecDigest then finish s t.q t.seq stBadParam [5]
  else if !hs.all fun h => granted s t.context h.src (h.mib * mib) then finish s t.q t.seq stNotPermitted [6]
  else if t.param 1 != 0xFFFFFFFF && t.param 1 != step then finish s t.q t.seq stInconsistent [7, 0, step]
  else
    match badRecords t.context half step hs s with
    | (s, []) =>
      match checkShards t.context half hs s with
      | (s, [], []) =>
        let s := restoreShards s t.context half hs
        let s := modCtx s t.context (restoreState b)
        let s := { s with caisson := { s.caisson with held := false, timerDue := false
                                                      takes := s.caisson.takes.filter fun x => !x.due } }
        finish s t.q t.seq stOk [0, 0, 0, flag (slice b 0x60 32 != im.redDigest) 0]
      | (s, [], bad) => refuseShards s t stMemUncorrectable 10 bad
      | (s, bad, _) => refuseShards s t stDigestMismatch 9 bad
    | (s, bad) => refuseShards s t stInconsistent 8 bad

/-- CKPT_RESTORE: the checks of R284 in turn, then the copy and the context state; it waits while a checkpoint is in
progress. -/
def execCkptRestore (q seq : Nat) (s : State) : Host.Outcome State Fault Refusal :=
  .next (onCmd s q seq 0x0604 fun s t =>
    match ctxAt s t.context with
    | none => finish s q seq stBadParam [2]
    | some c =>
      match c.image with
      | none => finish s q seq stBadParam [2]
      | some im =>
        if c.program.any fun p => p.st != .faulted then finish s q seq stBadParam [2]
        else if s.caisson.run.isSome then s
        else
          let s := readCommits s t.context
          match selectHalf s (t.param 0) with
          | none => finish s q seq stBadParam [3]
          | some half =>
            match readManifest t.context half commitStacks s with
            | (s, none) => finish s q seq stDigestMismatch [4]
            | (s, some b) => restoreFrom s t half b im)

/-! ### Export and import (R287, R288) -/

/-- The pieces of a generation in stream order: stack, address and length of each (R287). -/
def streamPieces (half manifestBytes : Nat) (hs : List Shard) : List (Nat × Nat × Nat) :=
  [(0, halfBase half 0, 64), (0, halfBase half 0 + manifestAt, manifestBytes)]
    ++ hs.flatMap fun h =>
      [(h.stack, halfBase half h.stack + recordAt h.index, 64), (h.stack, shardData half h, h.mib * mib)]

/-- Read pieces of a half over their stacks' interfaces, all of them, whatever they meet. -/
def readPieces (n : Nat) (ps : List (Nat × Nat × Nat)) (s : State) : State × Option (List Byte) :=
  ps.foldl (fun acc p =>
    let r := readHbm acc.1 (caissonReader n p.1) p.2.1 p.2.2
    (r.1, acc.2.bind fun l => r.2.map fun b => l ++ b)) (s, some [])

/-- CKPT_EXPORT: post a generation's stream into host memory. -/
def execCkptExport (q seq : Nat) (s : State) : Host.Outcome State Fault Refusal :=
  .next (onCmd s q seq 0x0605 fun s t =>
    let half := t.param 0
    let s := readCommits s t.context
    if 1 < half || halfCode s half != 1 then refuse s q seq stBadParam
    else
      let bytes := field (commitAt s half 0) 4 4
      match senseHbm s (caissonReader t.context 0) (halfBase half 0 + manifestAt) bytes with
      | (s, none) => refuse s q seq stMemUncorrectable
      | (s, some m) =>
        let ps := streamPieces half bytes (shardsOf m)
        if t.param 3 * 4096 < (ps.map (·.2.2)).sum then refuse s q seq stBadParam
        else
          match readPieces t.context ps s with
          | (s, some b) => finish (postHost s (t.param64 1) b) q seq stOk []
          | (s, none) => refuse s q seq stMemUncorrectable)

/-- The structure of the manifest in a stream, and its place in a buffer (R288 step 1). -/
def streamOk (b : List Byte) (limit : Nat) : Bool :=
  let m := b.drop 64
  let n := field m 0x32 2
  let hs := shardsOf m
  let sig := field m (digestAt n + 32) 4
  decide (field b 0 4 = commitMagic) && decide (field b 0x14 4 < 2) && zeroField b 0x18 8 && decide (field m 0 4 = manifestMagic)
    && decide (field m 4 2 = 1) && decide (field m 6 1 < 2) && decide (1 ≤ n ∧ n ≤ 240) && decide (sig ≤ 4096)
    && decide (field b 4 4 = ceilDiv (digestAt n + 36 + sig) 64 * 64)
    && decide (64 + field b 4 4 + (hs.map fun h => 64 + h.mib * mib).sum ≤ limit)
    && hs.zipIdx.all fun h =>
      decide (h.1.index = h.2 ∧ h.1.stack < 12 ∧ 1 ≤ h.1.halfOffsetMib ∧ h.1.halfOffsetMib + h.1.mib ≤ 8192)

/-- A shard record agrees with the shard table (R288). -/
def recordAgrees (r : List Byte) (h : Shard) : Bool :=
  decide (field r 0 4 = recordMagic ∧ field r 16 2 = h.index ∧ field r 18 2 = h.stack ∧ field r 20 4 = h.mib)

/-- Write the shards of a stream, from offset `o` on; answers whether one disagreed or the stream ended early. -/
def importShards (half : Nat) (b : List Byte) : Nat → List Shard → State → State × Bool
  | _, [], s => (s, false)
  | o, h :: hs, s =>
    let r := slice b o 64
    let data := slice b (o + 64) (h.mib * mib)
    if r.length < 64 || data.length < h.mib * mib || !recordAgrees r h then (s, true)
    else
      let s := writeHalf s half h.stack (recordAt h.index) r
      let s := writeHalf s half h.stack (h.halfOffsetMib * mib) data
      importShards half b (o + 64 + h.mib * mib) hs s

/-- CKPT_IMPORT: write a stream into the target half and commit it as imported. -/
def execCkptImport (q seq : Nat) (stream : HostRead) (s : State) : Host.Outcome State Fault Refusal :=
  .next (onCmd s q seq 0x0606 fun s t =>
    if s.caisson.run.isSome then s
    else
      match stream with
      | none => finish s q seq stBadParam [0xFFFFFFFF]
      | some b =>
        let m := slice b 64 (field b 4 4)
        if !streamOk b (t.param 3 * 4096) then refuse s q seq stBadParam
        else if !manifestMatches m (slice b 32 32) then refuse s q seq stDigestMismatch
        else
          let s := readCommits s t.context
          let half := targetHalf s
          let s := commitStacks.foldl (fun s k => writeHalf s half k manifestAt m) (clearHalf s half)
          match importShards half b (64 + m.length) (shardsOf m) s with
          | (s, true) => refuse s q seq stBadParam
          | (s, false) =>
            let record := commitRecord m.length (nextLocalSeq s) (field m 0x20 4) true (slice b 32 32)
            finish (commitStacks.foldl (fun s k => writeHalf s half k 0 record) s) q seq stOk [])

end Sys2Proof.Machine
end

