-- ==== Sys2Proof/Machine/Firmware.lean ====
section
/-! DEFINITION. Firmware modules: compaction of the journal (16 R384), update packages (R386 to R390),
the swap of a module, attestation quotes (R394, R395). -/

namespace Sys2Proof.Machine

/-! ### Responses over I3C (R404) -/

/-- A message in transmission units of 64 bytes (R404). -/
def packets (bs : List Byte) : List (List Byte) := (List.range (ceilDiv bs.length 64)).map fun i => (bs.drop (64 * i)).take 64

/-- The path answers while the package has power and has not tripped (R31, R404). -/
def answer (s : State) (bs : List Byte) : State := { s with toll := { s.toll with response := packets bs } }

/-- A Voune message answers: type 0x7F with the vendor ID 0x0005_6E56, then the body (R404; log 41 for the order of its bytes). -/
def answerVoune (s : State) (bs : List Byte) : State := answer s ([0x7F, 0x00, 0x05, 0x6E, 0x56] ++ bs)

/-- JOURNAL_COMPACTION: it begins when more than 60 % of the usable pages are in use (R384). -/
def execJournalCompaction (s : State) : Host.Outcome State Fault Refusal :=
  .next (if powered s && overFull s.toll 0 then retireBlocks { s with toll := compact s.toll } else s)

/-! ### Update packages (R389, R390) -/

def sigBytes : Nat := 5396

/-- The structure of an update package (R389). -/
def packageOk (b : List Byte) : Bool :=
  let n := field b 0x10 4
  decide (64 ≤ b.length) && decide (field b 0 4 = 0x4B505746) && decide (field b 4 2 = 1) && moduleIds.contains (field b 6 2)
    && decide (1 ≤ n ∧ n ≤ 33554432) && zeroField b 0x14 12 && decide (b.length = 64 + n + sigBytes)

/-- The module revision that a package carries. -/
def packageModule (b : List Byte) : FwModule :=
  let n := field b 0x10 4
  { id := field b 6 2, revision := field b 8 4, security := field b 0x0C 4, header := b.take 64, body := slice b 64 n
    signature := slice b (64 + n) sigBytes }

/-- Body digest and signature (R387, R389). -/
def authentic (m : FwModule) : Bool :=
  sha256 m.body == slice m.header 0x20 32 && hssVerifies m.header m.signature

/-- Revision and security version against what the journal holds (R389). -/
def newer (t : Tollhouse) (m : FwModule) : Bool :=
  (revisions t.journal m.id).all (fun r => decide (r.revision < m.revision))
    && (liveRevision t.journal m.id).all fun r => decide (r.security ≤ m.security)

/-- Bytes of live module bodies with the new revision live, and of previous ones (R385). -/
def bodiesWith (t : Tollhouse) (m : FwModule) : Nat × Nat :=
  let size := fun x : Option FwModule => (x.map (·.body.length)).getD 0
  let live := (moduleIds.map fun i => if i = m.id then m.body.length else size (liveRevision t.journal i)).sum
  let prev := (moduleIds.map fun i => size (if i = m.id then liveRevision t.journal i else previousRevision t.journal i)).sum
  (live, prev)

/-- The journal has no room for the change, even after compaction (R385). -/
def noRoom (t : Tollhouse) (m : FwModule) : Bool :=
  let bodies := bodiesWith t m
  let extra := (JournalBody.module m).pages + 1
  decide (64 * mib < bodies.1) || decide (128 * mib < bodies.1 + bodies.2) || overFull (compact t) extra

/-- Steps 2 and 3 of R390 on a package: the status of a refusal, or the state with the change committed. -/
def commitUpdate (s : State) (cmd : Option (Nat × Nat)) (b : List Byte) : State × Nat :=
  let m := packageModule b
  if !packageOk b then (s, stBadParam)
  else if !authentic m then (s, stAuthFail)
  else if !newer s.toll m then (s, stNotPermitted)
  else if noRoom s.toll m then
    (logError s 0x0053 stJournalFull sevWarning srcPackage 0xFF 0xFF [0, usablePages s.toll / 64], stJournalFull)
  else
    let t := if overFull s.toll ((JournalBody.module m).pages + 1) then compact s.toll else s.toll
    let t := commitRecords t 1 [.module m]
    (retireBlocks { s with toll := { t with fw := some { cmd, module := m, replaced := revisionOf s m.id } } }, stOk)

/-- FW_UPDATE: verify a package and commit it; one update runs at a time. -/
def execFwUpdate (q seq : Nat) (package : HostRead) (s : State) : Host.Outcome State Fault Refusal :=
  .next (onCmd s q seq 0x0104 fun s t =>
    if s.toll.fw.isSome then s
    else if t.param 0 % 32 != 0 then refuse s q seq stBadParam
    else
      match package with
      | none => finish s q seq stBadParam [0xFFFFFFFF]
      | some d =>
        match commitUpdate s (some (q, seq)) (padTo (d.take (t.param 2)) (t.param 2)) with
        | (s, st) => if st = stOk then s else refuse s q seq st)

/-- A module's swap point (R386). The units' work between two rows is whole, so a unit is between items or commands. -/
def atSwapPoint (s : State) (id : Nat) : Bool :=
  if id = 0x0003 then s.caisson.run.isNone
  else if id = 0x0005 then
    s.pylon.ports.all fun p =>
      p.st != .equalise && p.st != .align && p.st != .config && p.st != .retrain && p.st != .recal
  else if id = 0x0019 then s.apr.feeds.all fun f => f.packed.isNone
  else true

/-- Put a revision into the module table, by rising module ID (R394). -/
def putModule (l : List FwModule) (m : FwModule) : List FwModule :=
  match l with
  | [] => [m]
  | x :: t => if m.id < x.id then m :: x :: t else if m.id = x.id then m :: t else x :: putModule t m

/-- MODULE_SWAP: at its swap point the module takes the revision that waits, and the update completes (R390). -/
def execModuleSwap (moduleId : Nat) (s : State) : Host.Outcome State Fault Refusal :=
  .next (match powered s, s.toll.fw with
    | true, some r =>
      if r.module.id = moduleId ∧ atSwapPoint s moduleId then
        let s := { s with toll := { s.toll with modules := putModule s.toll.modules r.module, fw := none } }
        let s := logError s 0x0051 0 sevInfo srcPackage 0xFF 0xFF [moduleId, r.replaced, r.module.revision]
        match r.cmd with
        | some (q, seq) => finish s q seq stOk [moduleId, r.module.revision, r.replaced]
        | none => answerVoune s [BitVec.ofNat 8 stOk]
      else s
    | _, _ => s)

/-! ### Identity descriptors (R365, R366, R369) -/

/-- Die type and position of descriptor i: Approach, Pylon 0 to 3, Pier 0 to 3, Footing 0 to 11 (R369). -/
def descriptorDie (i : Nat) : Nat × Nat :=
  if i = 0 then (srcApproach, 0xFF) else if i < 5 then (srcPylon, i - 1) else if i < 9 then (srcPier, i - 5) else (srcFooting, i - 9)

/-- Capabilities by die type (R366). -/
def capsOf (dieType : Nat) : Nat :=
  if dieType = srcApproach then 0x1C9 else if dieType = srcPylon then 0x3F else if dieType = srcPier then 0x3E else 0x18

/-- The 64 bytes of the identity descriptor in the fuses of the die that belongs at place i (R365). -/
def fused (s : State) (i : Nat) : List Byte :=
  let d := descriptorDie i
  let apr := d.1 == srcApproach
  let profile := if apr || d.1 == srcPylon then 1 else 0
  leBytes 4 0x544E494A ++ leBytes 1 1 ++ leBytes 1 d.1 ++ leBytes 1 (if apr then 1 else 2) ++ leBytes 1 (Config.dieRevision i)
    ++ leBytes 2 profile ++ leBytes 2 profile ++ leBytes 4 (capsOf d.1) ++ leBytes 8 (Config.dieUid i) ++ leBytes 1 d.2
    ++ leBytes 1 (if apr then 1 else 0) ++ leBytes 1 (if apr then 1 else 0)
    ++ leBytes 1 (if apr then 16 else if d.1 = srcPylon then 36 else 0) ++ leBytes 4 0
    ++ (if apr then orderCode s.pkg.orderB else List.replicate 16 0) ++ List.replicate 16 0

/-- Descriptor i as the boot's walk read it (R368, R369). -/
def identity (s : State) (i : Nat) : List Byte := (assoc s.pkg.found i).getD (fused s i)

/-- The profile version that the substrate links negotiated: the lowest profile_max of their dies (R367). -/
def profileVersion (s : State) : Nat := (((List.range 5).map fun i => field (identity s i) 10 2).min?).getD 1

/-- The tiles whose two dies are released from reset. -/
def releasedTiles (s : State) : Nat :=
  ((List.range 4).map fun t => flag ((dieAt s (0x10 + t)).released && (dieAt s (0x20 + t)).released) t).sum

/-- DEV_IDENTIFY: post the 21 descriptors (R369). -/
def execDevIdentify (q seq : Nat) (s : State) : Host.Outcome State Fault Refusal :=
  .next (onCmd s q seq 0x0101 fun s t =>
    if t.param64 0 % 64 != 0 then refuse s q seq stBadParam
    else
      finish (postHost s (t.param64 0) ((List.range 21).flatMap (identity s))) q seq stOk [21, profileVersion s, releasedTiles s])

/-! ### Attestation (R394, R395) -/

/-- The digest of a module's body, which a module as delivered does not show (log 32). -/
def bodyDigest (m : FwModule) : List Byte :=
  padTo ((if m.body.isEmpty then Config.factoryDigest m.id else sha256 m.body).take 32) 32

/-- The module table (R394). -/
def moduleTable (ms : List FwModule) : List Byte :=
  ms.flatMap fun m => leBytes 2 m.id ++ leBytes 2 0 ++ leBytes 4 m.revision ++ leBytes 4 m.security ++ leBytes 4 0 ++ bodyDigest m

/-- A quote up to the end of its module table (R394). -/
def quoteBody (s : State) (nonce : List Byte) : List Byte :=
  leBytes 4 0x54455551 ++ leBytes 2 1 ++ leBytes 2 s.toll.modules.length ++ leBytes 8 s.time ++ leBytes 8 s.toll.q
    ++ leBytes 2 (idField s) ++ leBytes 1 s.pkg.lastReset
    ++ leBytes 1 (flag s.pkg.oos 0 + flag s.pkg.retained 1 + flag s.toll.fallback 2) ++ leBytes 4 0 ++ nonce
    ++ orderCode s.pkg.orderB ++ leBytes 8 (Config.dieUid 0) ++ leBytes 8 0 ++ sha256 (moduleTable s.toll.bootModules)
    ++ sha256 (moduleTable s.toll.modules) ++ moduleTable s.toll.modules

/-- ATTEST_QUOTE: build, sign and post a quote; it waits while no index can be reserved. -/
def execAttestQuote (q seq : Nat) (s : State) : Host.Outcome State Fault Refusal :=
  .next (onCmd s q seq 0x0105 fun s t =>
    if t.payload.length != 32 || t.param64 0 % 64 != 0 || decide (t.param 2 < 16384) then refuse s q seq stBadParam
    else if signWaits s then s
    else
      let body := quoteBody s t.payload
      match signDigest s (sha256 body) with
      | (s, none) => finish s q seq stNotPermitted [1]
      | (s, some (i, sig)) =>
        let quote := body ++ sha256 body ++ sig ++ s.toll.certificate
        finish (postHost s (t.param64 0) quote) q seq stOk [quote.length, lo32 i])

end Sys2Proof.Machine
end

