-- ==== Sys2Proof/Machine/Reset.lean ====
section
/-! DEFINITION. Resets and what each leaves (01 R21 to R23, 10 R266, R267, 11 R283, 13 R321, 18 R423, R424), and the
out-of-service state (01 R17). -/

namespace Sys2Proof.Machine

/-! ### Out of service (R17) -/

/-- Take the package out of service with a status; the first status stands (R17, R323). -/
def goOos (s : State) (code : Nat) : State :=
  if s.pkg.oos then s else { s with pkg := { s.pkg with oos := true, oosCode := code } }

/-- A Joint module or HBM channel failed training: WIDTH_MISMATCH, named in the error log (R17). -/
def widthMismatch (s : State) (source position : Nat) (detail : List Nat) : State :=
  goOos (logError s 0x0032 stWidthMismatch sevFatal source position 0xFF detail) stWidthMismatch

/-! ### Self-refresh (R266, R283) -/

/-- A Footing that completes its entry into self-refresh sets its RETAINED bit. -/
def enterSelfRefresh (K : Stack) : Stack := if K.selfRefresh then K else { K with selfRefresh := true, retained := true }

def footingsDown (s : State) : State := { s with hbm := { s.hbm with footings := s.hbm.footings.map enterSelfRefresh } }

/-- VDD_HBM rises from below its tolerance, or the package trips: every RETAINED bit is cleared (R283). -/
def clearRetained (s : State) : State :=
  { s with hbm := { s.hbm with footings := s.hbm.footings.map fun K => { K with retained := false } } }

/-- The HBM bytes are not guaranteed any more (R22, R31): every cell that holds something may hold anything (log 86). -/
def scramble : List Host.Cell → State → State
  | [], s => s
  | c :: cs, s =>
    scramble cs { s with free := s.free + 1
                         hbm := { s.hbm with mem := Memory.write s.hbm.mem c.1 [BitVec.ofNat 8 (freeBelow s 256)] } }

/-- VDD_HBM was out of tolerance, or the package tripped: the RETAINED bits fall and the HBM bytes are lost (R22, R31, R283). -/
def loseHbm (s : State) : State := clearRetained (scramble s.hbm.mem s)

/-! ### What a reset leaves (R424) -/

/-- Posted writes at a reset: each is acknowledged or discarded (R428); which, the manual leaves open (log 36). -/
def settlePosted : List Posted → State → State
  | [], s => s
  | w :: ws, s =>
    let keep := freeBelow s 2 == 1
    let s := freeUsed s 1
    settlePosted ws
      (if keep then { s with tether := { s.tether with hostMem := Memory.write s.tether.hostMem w.addr w.bytes } } else s)

/-- Host memory and the adapter's events outlive every reset of the package; a register read that waits gets all ones (R321). -/
def Tether.afterReset (t : Tether) : Tether :=
  let lost := t.waiting.any fun a => match a with
    | .read _ => true
    | .write _ _ => false
  { Tether.fresh with
    hostMem := t.hostMem, events := t.events, forwarding := t.forwarding, readValue := if lost then 0xFFFFFFFF else t.readValue
    retrains := t.retrains
    replays := t.replays, ptimeCapture := t.ptimeCapture }

/-- Tollhouse through a warm reset or self-reset: log, journal, powered time, bus addresses stay (R402, R424; log 37). -/
def Tollhouse.afterReset (t : Tollhouse) (orderB : Bool) : Tollhouse :=
  { t with
    table := nominalTable orderB, epoch := 0, sensors := [], modules := [], bootModules := [], subtree := none, nextSubtree := none, fw := none
    fallback := false, staged := [], stagedBytes := 0, messages := [], reports := [] }

/-- Tollhouse after a loss of the always-on domain: the journal stays (R380, R402, R424). -/
def Tollhouse.afterPowerLoss (t : Tollhouse) (orderB : Bool) : Tollhouse :=
  { Tollhouse.fresh with
    table := nominalTable orderB, journal := t.journal, retired := t.retired, failing := t.failing, toRetire := t.toRetire
    certificate := t.certificate }

/-- A stack through a reset: its HBM interface is trained anew at boot; a halved refresh interval stays until the stack has been cool
for its second (R263). -/
def Stack.afterReset (K : Stack) : Stack := { K with calTemp := none }

/-- What every reset takes: dies, queues, contexts, piers, ports, counters (R424). -/
def loseState (s : State) : State :=
  let s := settlePosted s.tether.posted (footingsDown s)
  { s with
    dies := dieCodes.map Die.fresh, modules := List.replicate 80 .fresh, tether := s.tether.afterReset
    queues := List.replicate 64 .fresh, cmds := [], aborts := [], ctxs := List.replicate 16 none, sched := .fresh, piers := []
    hbm := { s.hbm with footings := s.hbm.footings.map Stack.afterReset }
    caisson := .fresh, pylon := .fresh, apr := { tables := [], feeds := [] }, counters := [], waits := []
    pkg := { s.pkg with bootStep := 1, ready := false, removing := false, heldTiles := [], holdDies := [], found := [] } }

/-- A Pier die's code (R375). -/
def isPier (code : Nat) : Bool := decide (code < 0x20)

/-- A die leaves the floor: its time there is counted (R413 FLOOR_NS), and an entry to the floor is recorded with its duration (R377). -/
def leaveFloor (s : State) (d : Die) : State :=
  if d.atFloor then
    let ns := s.time - d.floorSince
    let s := if d.released then count s 7 d.code 3 ns else s
    if d.floorEntered then
      logError s 0x0040 0 sevWarning (if isPier d.code then srcPier else srcPylon) (d.code % 16) 0xFF [d.code, ns / 1000]
    else s
  else s

/-- A warm reset or self-reset begins; BOOT follows (R423). The log keeps the entries to the floor that it ends (R377). -/
def resetKeep (s : State) (cause : Nat) : State :=
  let s := loseState (s.dies.foldl leaveFloor s)
  { s with
    toll := s.toll.afterReset s.pkg.orderB
    pkg := { s.pkg with phase := .inReset, resetCause := cause } }

/-- A reset takes the always-on domain's power: powered time, the log ring, out of service are lost (R17, R396, R424). -/
def resetLose (s : State) (phase : Phase) (cause : Nat) : State :=
  let s := loseState s
  let age := fun K : Stack => { K with coolSince := none, calTime := 0, corrections := [], blockCorrections := [] }
  { s with
    time := 0
    toll := s.toll.afterPowerLoss s.pkg.orderB
    tether := { s.tether with retrains := 0, replays := 0, ptimeCapture := 0 }
    hbm := { s.hbm with footings := s.hbm.footings.map age }
    pkg := { s.pkg with phase, resetCause := cause, oos := false, oosCode := 0, alert := false, trip := false, removing := false, removeAlert := false } }

/-- A warm reset, where power is good and the package has not tripped (R23, R31). -/
def warmReset (s : State) : State := if powered s then resetKeep s 0x01 else s

/-- The device stops and is held in reset, THERM_TRIP_N asserted, until PWR_OK falls (R31). -/
def thermalTrip (s : State) (source position : Nat) (detail : List Nat) : State :=
  let s := logError s 0x0044 0 sevFatal source position 0xFF detail
  let s := loseHbm (resetKeep s 0x00)
  { s with pkg := { s.pkg with phase := .tripped, trip := true } }

/-! ### Rows -/

/-- PWR_OK rises: a cold reset begins (R21, R423). -/
def execPwrOkRise (s : State) : Host.Outcome State Fault Refusal :=
  .next (if s.pkg.pwrOk then s
    else { s with time := 0, pkg := { s.pkg with pwrOk := true, phase := .inReset, resetCause := 0x00 } })

/-- PWR_OK falls: all activity stops (R21). -/
def execPwrOkFall (s : State) : Host.Outcome State Fault Refusal :=
  .next (if s.pkg.pwrOk then
      let s := resetLose s .unpowered 0x00
      { s with pkg := { s.pkg with pwrOk := false } }
    else s)

/-- A dip of a rail: with VDD_HBM the RETAINED bits fall as it rises again; beyond 5 µs the device resets (R22, R283). -/
def dip (s : State) (hbm long : Bool) : State :=
  let s := if long then resetLose s .inReset 0x03 else s
  if hbm then loseHbm s else s

/-- RAIL_DIP (R22). -/
def execRailDip (rail : Rail) (durationNs : Nat) (s : State) : Host.Outcome State Fault Refusal :=
  .next (if durationNs = 0 then s else dip s (rail == .hbm) (s.pkg.pwrOk && decide (5000 < durationNs)))

/-- REFCLK_LOSS: as a rail dip, with cause 0x0045 in the journal (R396). -/
def execRefclkLoss (durationNs : Nat) (s : State) : Host.Outcome State Fault Refusal :=
  .next (if s.pkg.pwrOk && decide (2000 < durationNs) then
      dip (logError s 0x0045 0 sevFatal srcPackage 0xFF 0xFF []) false true
    else s)

/-- VDD_HBM_RISE (R283). -/
def execVddHbmRise (s : State) : Host.Outcome State Fault Refusal := .next (loseHbm s)

/-- PKG_RESET_N: a low pulse of at least 10 µs starts a warm reset (R23). -/
def execPkgResetN (durationNs : Nat) (s : State) : Host.Outcome State Fault Refusal :=
  .next (if s.pkg.pwrOk && decide (10000 ≤ durationNs) then warmReset s else s)

/-- ADAPTER_RESET_REQUEST on the sideband: the effect of a warm reset (R318). -/
def execAdapterResetRequest (s : State) : Host.Outcome State Fault Refusal :=
  .next (if s.pkg.cable then warmReset s else s)

end Sys2Proof.Machine
end

