-- ==== Sys2Proof/Machine/Hbm.lean ====
section
/-! DEFINITION. Service of the HBM stacks: scrub, recalibration, refresh (10 R256, R263 to R265). -/

namespace Sys2Proof.Machine

/-- The last good reading of a sensor (R397, R398). -/
def reading (s : State) (x : Sensor) : Option Int :=
  ((s.toll.sensors.find? fun y => y.sensor = x).filter fun y => !y.failed).map (·.reading)

/-- The stack's tile is held in reset, so that nothing trains or scrubs it (R20; log 109). -/
def stackHeld (s : State) (k : Nat) : Bool := s.pkg.heldTiles.contains (k / 3)

/-- SCRUB: one block of a stack's round is read; a correctable one is written back corrected, an uncorrectable one is
recorded and nothing else happens (R256). -/
def execScrub (stack block : Nat) (s : State) : Host.Outcome State Fault Refusal :=
  .next (if !running s || stackHeld s stack then s
    else
      let b := blockOf (stackBase stack) + block
      let s := count s 5 stack 6 1
      if s.hbm.uncorrectable.contains b then logUncorrectable (scrubReader stack) 0 s b
      else correctRange s (64 * b) 64)

/-- One recalibration of a stack's interface timing: no result changes (R264). -/
def recalibrateStack (s : State) (k : Nat) : State :=
  let s := modStack s k fun K => { K with calTime := s.time, calTemp := reading s (.stack k) }
  count s 5 k 7 1

/-- The stack's temperature has moved 8 °C from its value at the last calibration (R264). -/
def tempMoved (s : State) (k : Nat) : Bool :=
  match reading s (.stack k), (stackAt s k).calTemp with
  | some t, some u => decide (16 ≤ (t - u).natAbs)
  | _, _ => false

/-- A recalibration that trains every channel, or one that finds a channel that fails training, which is a fatal width failure
(R17, R257, R270). -/
def trainStack (s : State) (k : Nat) (failed : Option Nat) : State :=
  match failed with
  | none => recalibrateStack s k
  | some channel => widthMismatch s srcFooting k [k, channel]

/-- STACK_AUTO_RECAL: the temperature has moved, or 10 minutes have passed since the last calibration. -/
def execStackAutoRecal (training : StackTraining) (s : State) : Host.Outcome State Fault Refusal :=
  .next (if !running s || stackHeld s training.stack then s
    else if tempMoved s training.stack then trainStack s training.stack training.failed
    else trainStack (advanceTo s ((stackAt s training.stack).calTime + 600000000000)) training.stack training.failed)

/-- STACK_RECAL: the stack that p0 names, or every stack in turn (R265); one of a held tile is left out (log 109). With a channel that fails training it reports
WIDTH_MISMATCH (R270). -/
def execStackRecal (q : Nat) (cmd : StackRecalCommand) (s : State) : Host.Outcome State Fault Refusal :=
  .next (onCmd s q cmd.seq 0x0210 fun s t =>
    let done := fun ks : List Nat =>
      let ks := ks.filter (!stackHeld s ·)
      let s := ks.foldl (fun s k => trainStack s k (assoc cmd.failed k)) s
      finish s q cmd.seq (if ks.any fun k => (assoc cmd.failed k).isSome then stWidthMismatch else stOk) []
    if t.param 0 < 12 then done [t.param 0]
    else if t.param 0 = 0xFFFFFFFF then done (List.range 12)
    else refuse s q cmd.seq stBadParam)

/-- HOT_REFRESH_END: the stack has been below 82 °C for 1 s, and the refresh interval is the standard one again (R263). -/
def execHotRefreshEnd (stack : Nat) (s : State) : Host.Outcome State Fault Refusal :=
  .next (match running s && !stackHeld s stack && (stackAt s stack).hotRefresh, (stackAt s stack).coolSince with
    | true, some t =>
      modStack (advanceTo s (t + 1000000000)) stack fun K => { K with hotRefresh := false, coolSince := none }
    | _, _ => s)

end Sys2Proof.Machine
end

