-- ==== Sys2Proof/Machine/Power.lean ====
section
/-! DEFINITION. Power tables and budgets (01 R24, R25, 15 R375 to R377, 16 R399), sensors and thermal control (01 R31, 16 R397, R398). -/

namespace Sys2Proof.Machine

/-! ### Power tables (R24, R25, R399) -/

/-- Ceiling of a die in quarter watts (R24). -/
def ceilingOf (orderB : Bool) (code : Nat) : Nat := if isPier code then (if orderB then 2220 else 3000) else 440

/-- Place of a die in a power table. -/
def tableIndex (code : Nat) : Nat := if isPier code then code - 0x10 else code - 0x20 + 4

/-- Reserved maxima of twelve stacks and the Approach die, and the envelope, in quarter watts (R24). -/
def reservedPower : Nat := 12 * 128 + 600
def envelope (orderB : Bool) : Nat := if orderB then 12800 else 16000

/-- The budgets of a table's payload (R399). -/
def powerTableOf (p : List Byte) : List Nat := (List.range 8).map fun i => field p (2 * i) 2

/-- R25: no budget above its ceiling, the sum within the envelope. -/
def powerTableOk (orderB : Bool) (p : List Byte) : Bool :=
  decide (p.length = 32) && zeroField p 16 16
    && (dieCodes.all fun c => decide ((powerTableOf p).getD (tableIndex c) 0 ≤ ceilingOf orderB c))
    && decide ((powerTableOf p).sum + reservedPower ≤ envelope orderB)

/-- Apply a power table; the previous one stays where it is refused (R25, R399). -/
def loadTable (s : State) (p : List Byte) : State × Nat :=
  if powerTableOk s.pkg.orderB p then ({ s with toll := { s.toll with table := powerTableOf p, epoch := s.toll.epoch + 1 } }, stOk)
  else (s, stBadParam)

/-- POWER_TABLE_LOAD. -/
def execPowerTableLoad (q seq : Nat) (s : State) : Host.Outcome State Fault Refusal :=
  .next (onCmd s q seq 0x0103 fun s t =>
    let (s, st) := loadTable s t.payload
    refuse s q seq st)

/-! ### Messages and reports (R375, R376) -/

/-- One bit of a CRC-16 with polynomial 0x1021. -/
def crcBit (c : Nat) : Nat := if bit c 15 then (c * 2 % 65536) ^^^ 0x1021 else c * 2 % 65536

def crcByte (c : Nat) (b : Byte) : Nat := (List.range 8).foldl (fun c _ => crcBit c) (c ^^^ (b.toNat * 256))

/-- CRC-16, initial value 0xFFFF (R375). -/
def crc16 (bs : List Byte) : Nat := bs.foldl crcByte 0xFFFF

/-- Append the check of R375. -/
def sealed (bs : List Byte) : List Byte := bs ++ leBytes 2 (crc16 bs)

def checkOk (m : List Byte) : Bool := decide (m.length = 16) && decide (field m 14 2 = crc16 (m.take 14))

/-- The budget that Tollhouse gives a die (R398, R399). -/
def budgetFor (s : State) (d : Die) : Nat :=
  if d.sensorFloor then floorOf d.code else s.toll.table.getD (tableIndex d.code) 0

/-- The budget message to a die (R375). -/
def budgetMessage (s : State) (d : Die) : List Byte :=
  sealed (leBytes 1 0x21 ++ leBytes 1 d.code ++ leBytes 2 d.sendSeq ++ leBytes 2 (budgetFor s d) ++ leBytes 2 (floorOf d.code)
    ++ leBytes 4 s.toll.epoch ++ leBytes 2 0)

/-- Send one released die its message; a third report missing in a row is logged (R377, R399). -/
def sendBudget (s : State) (d : Die) : State :=
  let silent := if d.awaiting then d.silent + 1 else d.silent
  let s := { s with toll := { s.toll with messages := s.toll.messages ++ [budgetMessage s d] } }
  let s := modDie s d.code fun d => { d with sendSeq := (d.sendSeq + 1) % 65536, awaiting := true, silent }
  if d.awaiting && silent == 3 then
    logError s 0x0041 0 sevWarning (if isPier d.code then srcPier else srcPylon) (d.code % 16) 0xFF [d.code, d.draw]
  else s

/-- BUDGET_SEND_TIMER: every released die gets a message (R377). -/
def execBudgetSendTimer (s : State) : Host.Outcome State Fault Refusal :=
  .next (if powered s then (s.dies.filter (·.released)).foldl sendBudget s else s)

/-- A valid message for a die (R375). Before the first one since release any seq is fresh (log 127). -/
def messageOk (orderB : Bool) (d : Die) (m : List Byte) : Bool :=
  let seq := field m 2 2
  let fresh := d.lastSeq.all fun l => decide (1 ≤ (seq + 65536 - l) % 65536 ∧ (seq + 65536 - l) % 65536 ≤ 32767)
  checkOk m && decide (field m 0 1 = 0x21) && decide (field m 1 1 = d.code) && fresh
    && decide (floorOf d.code ≤ field m 4 2 ∧ field m 4 2 ≤ ceilingOf orderB d.code)

/-- Junction sensors of a die (R397); 0x30 is the Approach die. -/
def junctions (code : Nat) : List Sensor :=
  if code = 0x30 then (List.range 4).map .approachJunction
  else if isPier code then (List.range 16).map (.pierJunction (code % 16))
  else (List.range 4).map (.pylonJunction (code % 16))

/-- The hottest working junction of a die (R397). -/
def hottest (s : State) (code : Nat) : Option Int := ((junctions code).filterMap (reading s)).max?

/-! ### The voltage controllers (R24, R26, R29) -/

/-- The 5 mV step of a voltage, of the 57 from 620 to 900 mV (R29). -/
def stepOfVolts (mv : Nat) : Nat := (mv - 620) / 5

/-- The highest step whose measured draw stays within the budget, or the lowest (R29). A die that has measured nothing yet stays
where it is (log 90). -/
def budgetStep (d : Die) : Nat :=
  if d.draws.isEmpty then stepOfVolts d.millivolts
  else ((List.range 57).reverse.find? fun i => (d.draws[i]?).any fun w => decide (w ≤ d.budget)).getD 0

/-- The voltage that a die's controller commands: the step of its budget, or while throttled a lower one, by how much the manual
does not say (R26, R31). The voltage of a Pylon die's engine regulator is free: no rule gives its steps (log 90). -/
def commandedVolts (s : State) (d : Die) : Nat :=
  let i := budgetStep d
  if isPier d.code then 620 + 5 * (if d.throttled ∧ 0 < i then freeBelow s i else i) else freeBelow s 65536

/-- A die's voltage controller acts on its budget, its measurements and its throttle. -/
def steer (s : State) (code : Nat) : State :=
  modDie (freeUsed s 1) code fun d => { d with millivolts := commandedVolts s d }

/-- A die's own draw: what it measured at its commanded voltage, a free value where it has measured nothing there (DESIGN CHOICE,
log 90); a Pylon die's regulator holds it to the budget (R24). -/
def drawOf (s : State) (d : Die) : Nat :=
  let measured := fun i : Nat => (d.draws[i]?).getD (Config.freeValue (s.free + 1) % 65536)
  if isPier d.code then measured (stepOfVolts d.millivolts) else min (measured 0) d.budget

/-- Even at 0.62 V a Pier die draws more than its budget (R29). -/
def overBudget (d : Die) : Bool := isPier d.code && decide (d.budget < d.draws.headD 0)

/-- The report of a die (R376): `old` is the die as it was when the message came, `new` as it acts on the message. A junction that no
sensor has read yet is free. -/
def budgetReport (s : State) (old new : Die) (m : List Byte) : List Byte :=
  let tj := match hottest s new.code with
    | some t => unsigned 16 t
    | none => freeBelow s 65536
  sealed (leBytes 1 0x22 ++ leBytes 1 new.code ++ leBytes 2 (field m 2 2) ++ leBytes 2 (drawOf s old) ++ leBytes 2 new.millivolts ++ leBytes 2 tj
    ++ leBytes 1 (flag old.atFloor 0 + flag (overBudget new) 1) ++ leBytes 3 0)

/-- A die applies a valid message, steers to its budget and answers; it discards any other (R375 to R377). The draws are what its
controller has measured by then at each step. -/
def takeMessage (s : State) (d : Die) (m : List Byte) (draws : List Nat) : State :=
  if messageOk s.pkg.orderB d m then
    let given := field m 4 2
    let floor := d.sensorFloor
    let budget := if floor then floorOf d.code else given
    let s := if floor then s else leaveFloor s d
    let s := steer (modDie s d.code fun d =>
      { d with budget, given, lastSeq := some (field m 2 2), misses := 0, atFloor := floor, floorEntered := floor && d.floorEntered, heardAt := s.time, draws }) d.code
    let report := budgetReport s { d with draws } (dieAt s d.code) m
    freeUsed { s with toll := { s.toll with reports := s.toll.reports ++ [report] } } 2
  else modDie s d.code fun d => { d with discards := d.discards + 1 }

/-- BUDGET_MESSAGE: a message reaches a die. -/
def execBudgetMessage (die : Nat) (message : List Byte) (draws : List Nat) (s : State) : Host.Outcome State Fault Refusal :=
  .next (let s := { s with toll := { s.toll with messages := s.toll.messages.erase message } }
    if (dieAt s die).released then takeMessage s (dieAt s die) message draws else s)

/-- BUDGET_REPORT: Tollhouse takes a die's report (R376, R399). -/
def execBudgetReport (message : List Byte) (s : State) : Host.Outcome State Fault Refusal :=
  .next (let code := field message 1 1
    let s := { s with toll := { s.toll with reports := s.toll.reports.erase message } }
    if checkOk message && field message 0 1 == 0x22 && dieCodes.contains code && (dieAt s code).released then
      let draw := field message 4 2
      let s := modDie s code fun d => { d with draw, awaiting := false, silent := 0 }
      if bit (field message 10 1) 1 then
        logError s 0x0041 0 sevWarning (if isPier code then srcPier else srcPylon) (code % 16) 0xFF [code, draw]
      else s
    else s)

/-- A die takes its floor budget and steers to it; one that even at 0.62 V draws more is logged (R29, R377, R398). -/
def enterFloor (s : State) (code : Nat) : State :=
  let s := steer (modDie s code fun d =>
    { d with budget := floorOf code, atFloor := true, floorSince := if d.atFloor then d.floorSince else s.time
             floorEntered := d.floorEntered || (d.released && !d.atFloor) }) code
  if overBudget (dieAt s code) then logError s 0x0041 0 sevWarning srcPier (code % 16) 0xFF [code, (dieAt s code).draws.headD 0] else s

/-- BUDGET_MISS: 275 µs without a valid message; the second in a row brings the floor (R377). -/
def execBudgetMiss (die : Nat) (s : State) : Host.Outcome State Fault Refusal :=
  .next (let d := dieAt s die
    if d.released then
      let s := advanceTo s (d.heardAt + 275000)
      let s := modDie s die fun d => { d with misses := d.misses + 1, heardAt := s.time }
      if 1 ≤ d.misses then enterFloor s die else s
    else s)

/-! ### Sensors (R397, R398) -/

/-- Every sensor of R397 but the die draws, in its order. -/
def allSensors : List Sensor :=
  (List.range 4).flatMap (fun t => junctions (0x10 + t)) ++ (List.range 4).flatMap (fun t => junctions (0x20 + t)) ++ junctions 0x30
    ++ (List.range 12).map .stack ++ (List.range 4).map .coreVoltage ++ (List.range 4).map .coreCurrent
    ++ [.rail .sram, .rail .hbm, .rail .serdes, .rail .apr, .rail .io]

/-- The source that a temperature sensor belongs to: a die code, 0x30, or 0x40 + k (R31). -/
def thermalSource : Sensor → Option Nat
  | .pierJunction t _ => some (0x10 + t)
  | .pylonJunction t _ => some (0x20 + t)
  | .approachJunction _ => some 0x30
  | .stack k => some (0x40 + k)
  | _ => none

/-- The number of a sensor within its source. -/
def sensorIndex : Sensor → Nat
  | .pierJunction _ i => i
  | .pylonJunction _ i => i
  | .approachJunction i => i
  | .stack _ => 0
  | .coreVoltage _ => 0
  | .coreCurrent _ => 1
  | .rail _ => 0

/-- Die type and position of a thermal source in the log (R400). -/
def sourceDie (c : Nat) : Nat × Nat :=
  if 0x40 ≤ c then (srcFooting, c - 0x40)
  else if c = 0x30 then (srcApproach, 0xFF)
  else if isPier c then (srcPier, c % 16) else (srcPylon, c % 16)

/-- Where the log names a sensor's failure: the source's die, a core regulator's tile, or the package. -/
def sensorDie : Sensor → Nat × Nat
  | .coreVoltage t => (srcPier, t)
  | .coreCurrent t => (srcPier, t)
  | x => ((thermalSource x).map sourceDie).getD (srcPackage, 0xFF)

/-- Alert and trip temperatures in half degrees (R31). -/
def alertAt (c : Nat) : Int := if 0x40 ≤ c then 170 else 180
def tripAt (c : Nat) : Int := if 0x40 ≤ c then 190 else 210

/-- The temperature of a source: its hottest working sensor. -/
def sourceTemp (s : State) (c : Nat) : Option Int := if 0x40 ≤ c then reading s (.stack (c - 0x40)) else hottest s c

def hasFailed (s : State) (x : Sensor) : Bool := s.toll.sensors.any fun y => y.sensor == x && y.failed

/-- The throttle of a die goes on or off, and its voltage with it (R26, R31). -/
def throttle (on : Bool) (s : State) (code : Nat) : State :=
  if (dieAt s code).throttled = on then s else steer (modDie s code fun d => { d with throttled := on }) code

/-- THERM_ALERT_N and the throttle of the Pier dies follow the sources in alert (R31). -/
def showAlert (s : State) : State :=
  let on := !s.toll.alerting.isEmpty
  [0x10, 0x11, 0x12, 0x13].foldl (throttle on) { s with pkg := { s.pkg with alert := on } }

/-- A source enters the alert state. -/
def raiseAlert (s : State) (c : Nat) : State :=
  if s.toll.alerting.contains c then s else showAlert { s with toll := { s.toll with alerting := insertNat s.toll.alerting c } }

/-- Record a reading. -/
def putReading (l : List SensorState) (x : Sensor) (v : Int) : List SensorState :=
  match l with
  | [] => [{ sensor := x, reading := v, failed := false }]
  | y :: t => if y.sensor = x then { y with reading := v } :: t else y :: putReading t x v

/-- Record that a sensor has failed. -/
def putFailed (l : List SensorState) (x : Sensor) : List SensorState :=
  match l with
  | [] => [{ sensor := x, reading := 0, failed := true }]
  | y :: t => if y.sensor = x then { y with failed := true } :: t else y :: putFailed t x

/-- The detail words of cause 0x0043: source, sensor, temperature (R401). -/
def alertDetail (c i : Nat) (t : Int) : List Nat := [c, i, unsigned 32 t]

/-- A sensor fails: it is logged and left out, with the consequences of R398. -/
def failSensor (s : State) (x : Sensor) : State :=
  if hasFailed s x then s
  else
    let d := sensorDie x
    let last := ((s.toll.sensors.find? fun y => y.sensor = x).map (·.reading)).getD 0
    let s := logError s 0x0043 0 sevWarning d.1 d.2 0xFF (alertDetail ((thermalSource x).getD 0) (sensorIndex x) last)
    let s := { s with toll := { s.toll with sensors := putFailed s.toll.sensors x } }
    match thermalSource x with
    | none => s
    | some c =>
      if 0x40 ≤ c then raiseAlert (modStack s (c - 0x40) fun K => { K with hotRefresh := true, coolSince := none }) c
      else
        let working := ((junctions c).filter fun y => !hasFailed s y).length
        if isPier c then
          if working < 4 ∧ !(dieAt s c).sensorFloor then enterFloor (modDie s c fun d => { d with sensorFloor := true }) c
          else s
        else if working = 0 then raiseAlert s c else s

/-- The refresh interval of a stack after a reading: halved above 85 °C, and the time below 82 °C is counted (R263). -/
def stackReading (s : State) (k : Nat) (t : Int) : State :=
  modStack s k fun K =>
    if 170 < t then { K with hotRefresh := true, coolSince := none }
    else if t < 164 then { K with coolSince := if K.hotRefresh then K.coolSince.or (some s.time) else none }
    else { K with coolSince := none }

/-- The thermal rules on a source whose temperature is known: one that reaches its trip temperature has reached its alert temperature
too (R31). -/
def thermalRules (s : State) (c i : Nat) : State :=
  match sourceTemp s c with
  | none => s
  | some t =>
    let d := sourceDie c
    let alert := fun s : State =>
      if s.toll.alerting.contains c then s
      else raiseAlert (logError s 0x0043 0 sevWarning d.1 d.2 0xFF (alertDetail c i t)) c
    if tripAt c ≤ t then thermalTrip (alert s) d.1 d.2 [c, unsigned 32 t]
    else if alertAt c ≤ t then alert s
    else if t ≤ alertAt c - 6 then showAlert { s with toll := { s.toll with alerting := s.toll.alerting.erase c } }
    else s

/-- SENSOR_READ: a reading is stored and the thermal rules apply; a temperature outside −40 °C to 150 °C is a failure. -/
def execSensorRead (sensor : Sensor) (reading : Int) (s : State) : Host.Outcome State Fault Refusal :=
  .next (if !powered s || hasFailed s sensor then s
    else
      match thermalSource sensor with
      | none => { s with toll := { s.toll with sensors := putReading s.toll.sensors sensor reading } }
      | some c =>
        if reading < -80 ∨ 300 < reading then failSensor s sensor
        else
          let s := { s with toll := { s.toll with sensors := putReading s.toll.sensors sensor reading } }
          let s := if 0x40 ≤ c then stackReading s (c - 0x40) reading else s
          thermalRules s c (sensorIndex sensor))

/-- SENSOR_FAILURE: no reading for 1 ms (R398). -/
def execSensorFailure (sensor : Sensor) (s : State) : Host.Outcome State Fault Refusal :=
  .next (if powered s then failSensor s sensor else s)

end Sys2Proof.Machine
end

