-- ==== Sys2Proof/Machine/Stay.lean ====
section
/-! DEFINITION. The Stay engine (chapter 08): GATHER, REDUCE_SCATTER and ALL_REDUCE, the steps of their entries, trailers, the
consensus and the verdict (06 R163 to R167), and the completion SIGNAL. -/

namespace Sys2Proof.Machine

def modStay (s : State) (n tile : Nat) (f : StayRun → StayRun) : State :=
  modProg s n fun p => { p with stays := p.stays.map fun x => if x.tile = tile then f x else x }

def stayAt (s : State) (n tile : Nat) : Option StayRun := (progAt s n).bind fun p => p.stays.find? fun x => x.tile = tile

def schedOf (im : Image) (tile : Nat) : Option StaySchedule := im.stays.find? fun x => x.tile = tile

/-- A collective that runs: its engine, schedule, entry and member table. -/
structure Coll where
  n : Nat
  im : Image
  tile : Nat
  sched : StaySchedule
  index : Nat
  e : StayEntry
  t : MemberTable

def collOf (n : Nat) (im : Image) (tile entry : Nat) : Option Coll :=
  match schedOf im tile with
  | none => none
  | some d =>
    match d.entries[entry]? with
    | none => none
    | some e => (d.tables[e.table]?).map fun t => { n, im, tile, sched := d, index := entry, e, t }

def Coll.run (c : Coll) (s : State) : Option EntryRun :=
  (stayAt s c.n c.tile).bind fun x => x.outstanding.find? fun r => r.entry = c.index

def Coll.mod (c : Coll) (s : State) (f : EntryRun → EntryRun) : State :=
  modStay s c.n c.tile fun x => { x with outstanding := x.outstanding.map fun r => if r.entry = c.index then f r else r }

/-- A confinement fault of the engine (R50). -/
def Coll.fault (c : Coll) (s : State) (a : Nat) : State := confine s c.n srcPylon c.tile [c.tile, c.index, lo32 a]

/-! ### Pieces and formats (R210 to R213) -/

/-- Bytes of a transport block of 32 elements (R210). -/
def blockBytes (fmt : Nat) : Nat := if fmt = 0 then 64 else if fmt = 8 ∨ fmt = 9 then 128 else 1 + 4 * elemBits fmt

/-- Bytes of `k` elements of a Stay format, a multiple of 32. -/
def stayBytes (fmt k : Nat) : Nat := k / 32 * blockBytes fmt

/-- Elements of the shard of a rank (R213). -/
def Coll.length (c : Coll) (r : Nat) : Nat :=
  match c.e.lengths with
  | some l => l.getD r 0
  | none => c.e.total / c.t.d

/-- First element of the shard of a rank (R213). -/
def Coll.offset (c : Coll) (r : Nat) : Nat := ((List.range r).map c.length).sum

/-- Elements of a piece: a shard, or for ALL_REDUCE everything (R219). -/
def Coll.pieceLen (c : Coll) (piece : Nat) : Nat := if c.e.kind = 2 then c.e.total else c.length piece

/-- The steps up to END. -/
def Coll.steps (c : Coll) : List StayStep := c.e.steps.takeWhile fun st => st.op != 0

/-- A step on the one piece of an ALL_REDUCE, named by rank D − 1 (R219). -/
def Coll.onPayload (c : Coll) (st : StayStep) : Bool := c.e.total != 0 && st.piece + 1 == c.t.d

/-- A step of the consensus that concerns the trailer alone: it names no piece of the payload (R221; log 17). -/
def Coll.trailerStep (c : Coll) (st : StayStep) : Bool := c.e.consensus && !c.onPayload st

/-- The streams of the step carry the consensus decision: those of the trailer steps, or, where every step is on the payload's
piece, all of them (R220, R221; log 17). -/
def Coll.deciding (c : Coll) (st : StayStep) : Bool := c.e.consensus && (!c.onPayload st || c.steps.all c.onPayload)

/-- A GRAD collective: a REDUCE_SCATTER or ALL_REDUCE that carries the mark (R164). -/
def Coll.grad (c : Coll) : Bool := c.e.grad && c.e.kind != 0

/-- Streams of the step end with a trailer (R220). -/
def Coll.trailed (c : Coll) (st : StayStep) : Bool := c.grad || c.deciding st

/-- The package is the root of the consensus: it sends its trailer to no parent (R221). -/
def Coll.root (c : Coll) : Bool := !c.steps.any fun st => c.deciding st && st.op == 2

/-! ### Terms (R214, R218, R219) -/

/-- An element is non-finite in its format. -/
def badElement (fmt v : Nat) : Bool :=
  if fmt = 9 then false else !(decodeFloat (if fmt = 0 then fBinary16 else fBinary32) v).finite

/-- A source element as a term, with the code whose finiteness R164 looks at. -/
def termOf (kind fmt v : Nat) : Nat × Nat × Nat :=
  if fmt = 9 then (v, 9, v)
  else if fmt = 0 then (toF32 (decodeFloat fBinary16 v), 0, v)
  else if kind = 1 then
    let h := encodeFloat fBinary16 (f32 v)
    (toF32 (decodeFloat fBinary16 h), 0, h)
  else (v, 8, v)

/-- Fold two terms by the entry's operation (R218, R219). -/
def foldTerm (op a b : Nat) : Nat :=
  if op = 1 then maxF32 a b else if op = 2 then minF32 a b else if op = 3 then a ||| b else addF32 a b

/-- A term in the destination format (R214 ROUND). -/
def roundTerm (fmt v : Nat) : Nat := if fmt = 0 then encodeFloat fBinary16 (f32 v) else v

/-- A non-finite element of a GRAD collective: the entry's bit and the package's local bit (R164, R220). -/
def Coll.flagBad (c : Coll) (s : State) (bad : Bool) : State :=
  if bad then
    let s := c.mod s fun r => { r with nonfinite := true }
    if c.grad then modProg s c.n fun p => { p with localBit := true } else s
  else s

/-- Read HBM for the engine, inside the declared regions (R50). -/
def Coll.read (c : Coll) (s : State) (a k : Nat) : State × Option (List Byte) :=
  if k = 0 then (s, some [])
  else if mayRead c.im a k then readOrFault s (stayReader c.n c.tile) a k else (c.fault s a, none)

/-- Write HBM for the engine, inside the declared regions (R50). -/
def Coll.write (c : Coll) (s : State) (a : Nat) (bs : List Byte) : State :=
  if bs.isEmpty then s
  else if mayWrite c.im a bs.length then writeOrFault s (stayReader c.n c.tile) a bs else c.fault s a

/-- Bytes of an element of a source or destination that holds no MX blocks. -/
def wideBytes (fmt : Nat) : Nat := if fmt = 0 then 2 else 4

/-! ### The staging range (R209, R214, R224) -/

/-- Elements that a full DATA frame of a format carries (R224). -/
def frameElems (fmt : Nat) : Nat := 8192 / blockBytes fmt * 32

/-- Frames of 8 KiB that the staging range of the tile holds (R224). -/
def stagingFrames (im : Image) (tile : Nat) : Nat := (((schedOf im tile).map (·.stagingBytes)).getD 0) / 8192

/-- What one association may be granted: a peer's share of half of the smallest staging range, or of all of it where half is less
than a frame for each, so that any tile's range holds the frames of every peer (R224; log 18). -/
def stagingShare (im : Image) (peers : Nat) : Nat :=
  let f := ((im.stays.map fun d => stagingFrames im d.tile).min?).getD 0
  (if 2 * peers ≤ f then f / 2 else f) / max peers 1

/-- Frames of the range, from its start, that arriving frames may take; the others hold terms (log 18). -/
def arrivalFrames (s : State) (n : Nat) (im : Image) : Nat :=
  let peers := (((progAt s n).map (·.assocs.length)).getD 0)
  stagingShare im peers * peers

/-- Frames of the range that hold something. -/
def usedFrames (x : StayRun) : List Nat :=
  (x.inbox.flatMap fun b => b.frames.map (·.slot)) ++ x.outstanding.flatMap fun r => r.held.filterMap (·.slot)

/-- Where frame i of the staging range lies (R209; log 18). -/
def Coll.slotAddr (c : Coll) (i : Nat) : Nat := c.sched.stagingAddr + 8192 * i

/-- The lowest free frame for a term. -/
def Coll.freeHeld (c : Coll) (s : State) : Option Nat :=
  let used := ((stayAt s c.n c.tile).map usedFrames).getD []
  (List.range (stagingFrames c.im c.tile)).find? fun i => decide (arrivalFrames s c.n c.im ≤ i) && !used.contains i

/-- The format of the narrow bytes that PUT and TAKE carry (R214). -/
def Coll.narrowFmt (c : Coll) : Nat := if c.e.kind = 0 then c.e.srcFmt else c.e.dstFmt

/-- Elements and bytes of a piece in one staging frame: of a term binary32 or int32, else of the narrow format. -/
def Coll.unitElems (c : Coll) (narrow : Bool) : Nat := if narrow then frameElems c.narrowFmt else 2048
def Coll.unitBytes (c : Coll) (narrow : Bool) : Nat := if narrow then stayBytes c.narrowFmt (frameElems c.narrowFmt) else 8192

def Coll.heldFrame (c : Coll) (s : State) (narrow : Bool) (piece j : Nat) : Option HeldFrame :=
  (c.run s).bind fun r => r.held.find? fun h => h.narrow == narrow && h.piece == piece && h.index == j

/-- Read k bytes from offset o of a held frame. -/
def Coll.readHeld (c : Coll) (s : State) (h : HeldFrame) (o k : Nat) : State × Option (List Byte) :=
  match h.slot with
  | some i => c.read s (c.slotAddr i + o) k
  | none => (s, some (slice h.bytes o k))

/-- Write bytes from offset o of a frame, which is in the staging range where that has room. -/
def Coll.writeHeld (c : Coll) (narrow : Bool) (piece : Nat) (s : State) (j o : Nat) (bs : List Byte) : State :=
  let old := c.heldFrame s narrow piece j
  let h := old.getD { narrow, piece, index := j, size := 0, slot := c.freeHeld s, bytes := [] }
  let bytes := if h.slot.isSome then [] else padTo (h.bytes.take o) o ++ bs ++ h.bytes.drop (o + bs.length)
  let new := { h with size := max h.size (o + bs.length), bytes }
  let s := c.mod s fun r => { r with held := (r.held.filter fun x => old != some x) ++ [new] }
  match h.slot with
  | some i => c.write s (c.slotAddr i + o) bs
  | none => s

/-- Bytes cut at the multiples of u, the first at offset a: where each part goes. -/
def cuts (u a : Nat) (bs : List Byte) : List (Nat × List Byte) :=
  (a, bs.take (u - a % u)) :: ((chunks (ceilDiv bs.length u) u (bs.drop (u - a % u))).zipIdx.map fun x => ((a / u + 1 + x.2) * u, x.1))

/-- Write bytes of a piece's term or narrow bytes from byte a on. -/
def Coll.putHeld (c : Coll) (s : State) (narrow : Bool) (piece a : Nat) (bs : List Byte) : State :=
  let u := c.unitBytes narrow
  (cuts u a bs).foldl (fun s x => c.writeHeld narrow piece s (x.1 / u) (x.1 % u) x.2) s

/-- Read bytes [a, b) of a piece's term or narrow bytes out of the frames that a list names. -/
def Coll.getFrames (c : Coll) (narrow : Bool) (piece a b : Nat) : List Nat → State → State × Option (List Byte)
  | [], s => (s, some [])
  | j :: js, s =>
    let at_ := c.unitBytes narrow * j
    match c.heldFrame s narrow piece j with
    | none => (s, some [])
    | some h =>
      match c.readHeld s h (max a at_ - at_) (min b (at_ + h.size) - max a at_) with
      | (s, none) => (s, none)
      | (s, some bs) =>
        match c.getFrames narrow piece a b js s with
        | (s, none) => (s, none)
        | (s, some rest) => (s, some (bs ++ rest))

/-- Read bytes [a, b) of a piece's term or narrow bytes. -/
def Coll.getHeld (c : Coll) (s : State) (narrow : Bool) (piece a b : Nat) : State × Option (List Byte) :=
  let u := c.unitBytes narrow
  c.getFrames narrow piece a b ((List.range (ceilDiv b u - a / u)).map (· + a / u)) s

/-- Elements of the step's piece that it has done. -/
def EntryRun.part (r : EntryRun) (i : Nat) : Nat := (assoc r.parts i).getD 0

/-- The steps that use a piece's term, or its narrow bytes, by position (R214). -/
def Coll.users (c : Coll) (narrow : Bool) (piece : Nat) : List Nat :=
  (c.steps.zipIdx.filter fun y =>
    y.1.piece == piece && if narrow then y.1.op == 4 else y.1.op == 1 || y.1.op == 2 || y.1.op == 3).map (·.2)

/-- Frames that every step of their piece has passed leave staging. -/
def Coll.release (c : Coll) (s : State) : State :=
  let keeps := fun (r : EntryRun) (h : HeldFrame) =>
    (c.users h.narrow h.piece).any fun i => !r.done.contains i && decide (r.part i < (h.index + 1) * c.unitElems h.narrow)
  c.mod s fun r => { r with held := r.held.filter (keeps r) }

/-- Elements of a piece's term that have been formed. -/
def Coll.atHand (c : Coll) (s : State) (piece : Nat) : Nat :=
  match c.run s with
  | none => 0
  | some r =>
    let ends := (r.held.filter fun h => !h.narrow && h.piece == piece).map fun h => h.index * 2048 + h.size / 4
    (ends ++ (c.users false piece).map r.part).foldl max 0

/-- Values of `k` bytes each. -/
def packTerms (k : Nat) (l : List Nat) : List Byte := l.flatMap (leBytes k)

/-- Form the local term of a piece up to element k: past the part at hand it is this package's own contribution, read from src
(R214). Answers whether it could be read. -/
def Coll.termTo (c : Coll) (s : State) (piece k : Nat) : State × Bool :=
  let at_ := c.atHand s piece
  if k ≤ at_ then (s, true)
  else
    let off := (if c.e.kind = 2 then 0 else c.offset piece) + at_
    match c.read s (c.e.src + stayBytes c.e.srcFmt off) (stayBytes c.e.srcFmt (k - at_)) with
    | (s, none) => (s, false)
    | (s, some bs) =>
      let ts := (elements (wideBytes c.e.srcFmt) bs).map (termOf c.e.kind c.e.srcFmt)
      let s := c.flagBad s (ts.any fun x => badElement x.2.1 x.2.2)
      (c.putHeld s false piece (4 * at_) (packTerms 4 (ts.map (·.1))), true)

/-- Elements [a, b) of a piece's local term. -/
def Coll.terms (c : Coll) (s : State) (piece a b : Nat) : State × Option (List Nat) :=
  match c.termTo s piece b with
  | (s, false) => (s, none)
  | (s, true) =>
    match c.getHeld s false piece (4 * a) (4 * b) with
    | (s, none) => (s, none)
    | (s, some bs) => (s, some (elements 4 bs))

/-- Keep narrow bytes of a piece from element k on, where a PUT of it is still to come (R214). -/
def Coll.keep (c : Coll) (s : State) (piece k : Nat) (bs : List Byte) : State :=
  if (c.users true piece).isEmpty then s else c.putHeld s true piece (stayBytes c.narrowFmt k) bs

/-! ### Widening (R216, R217) -/

/-- An element code and its block's scale code in the destination format (R217). -/
def widen (src dst scale code : Nat) : Nat :=
  if src = dst then code
  else if dst = 0 then
    encodeFloat fBinary16 ({ val := decodeFloat (arrayFmt src) code, scale := scaleExp scale } : Elem).value
  else
    match decodeFloat (arrayFmt src) code with
    | .fin neg m e => encodeSaturating (arrayFmt dst) neg m e
    | _ => code

/-- Scale byte and codes of a transport block (R210). -/
def blockCodes (fmt : Nat) (b : List Byte) : Nat × List Nat :=
  if fmt = 0 then (0x7F, unpack 16 32 b) else (((b.headD 0)).toNat, unpack (elemBits fmt) 32 b.tail)

/-- Where element e of block j goes, in elements (R216). -/
def placeElement (layout j e : Nat) : Nat :=
  if layout = 0 then 32 * j + e else 16384 * (j / 512) + 128 * (32 * (j % 512 / 128) + e) + j % 128

/-- Where the scale of block j goes, from scale_dst (R216). -/
def placeScale (layout j : Nat) : Nat := if layout = 0 then j else 512 * (j / 512) + 128 * (j % 512 / 128) + j % 128

/-- Destination elements and scales of a piece's blocks, from block j on. -/
def widened (c : Coll) : Nat → List (List Byte) → List (Nat × Nat) × List (Nat × Nat)
  | _, [] => ([], [])
  | j, b :: t =>
    let (sc, codes) := blockCodes c.e.srcFmt b
    let rest := widened c (j + 1) t
    (codes.zipIdx.map (fun x => (placeElement c.e.layout j x.2, widen c.e.srcFmt c.e.dstFmt sc x.1)) ++ rest.1,
      (placeScale c.e.layout j, sc) :: rest.2)

/-- Write a run of whole groups of 32 destination elements that ends before group g. -/
def Coll.putRun (c : Coll) (s : State) (g : Nat) (run : List Byte) : State :=
  c.write s (c.e.dst + g * (4 * elemBits c.e.dstFmt) - run.length) run

/-- One group of 32 destination elements: written with its neighbours where the codes give all of it; else the elements of other
blocks stay as they are. -/
def Coll.putGroup (c : Coll) (xs : List (Nat × Nat)) (acc : State × List Byte) (g : Nat) : State × List Byte :=
  let w := elemBits c.e.dstFmt
  let got := (List.range 32).map fun e => assoc xs (32 * g + e)
  if got.all (·.isSome) then (acc.1, acc.2 ++ packElems w (got.map (·.getD 0)))
  else
    let s := c.putRun acc.1 g acc.2
    if got.all (·.isNone) then (s, [])
    else
      match c.read s (c.e.dst + g * (4 * w)) (4 * w) with
      | (s, none) => (s, [])
      | (s, some old) =>
        (c.write s (c.e.dst + g * (4 * w)) (packElems w ((unpack w 32 old).zip got |>.map fun o => o.2.getD o.1)), [])

/-- Write elements into a packed destination. -/
def Coll.putElements (c : Coll) (s : State) (xs : List (Nat × Nat)) : State :=
  match (xs.map (·.1)).min?, (xs.map (·.1)).max? with
  | some a, some b =>
    let r := ((List.range (b / 32 + 1 - a / 32)).map (· + a / 32)).foldl (c.putGroup xs) (s, [])
    c.putRun r.1 (b / 32 + 1) r.2
  | _, _ => s

/-- Bytes at consecutive places, as runs that are each written at once. -/
def joinRuns : List (Nat × Nat) → List (Nat × List Byte)
  | [] => []
  | (a, v) :: t =>
    match joinRuns t with
    | (b, bs) :: rest => if b = a + 1 then (a, BitVec.ofNat 8 v :: bs) :: rest else (a, [BitVec.ofNat 8 v]) :: (b, bs) :: rest
    | [] => [(a, [BitVec.ofNat 8 v])]

/-- Widen the blocks of a piece from element k on into dst and scale_dst (R216, R217). -/
def Coll.widenPart (c : Coll) (s : State) (piece k : Nat) (bs : List Byte) : State :=
  let (xs, scales) := widened c ((c.offset piece + k) / 32) (chunks (bs.length / blockBytes c.e.srcFmt) (blockBytes c.e.srcFmt) bs)
  let s := c.putElements s xs
  let s := if c.e.dstFmt = 0 then s else (joinRuns scales).foldl (fun s x => c.write s (c.e.scaleDst + x.1) x.2) s
  countCtx s c.n 3 c.tile 1 bs.length

/-! ### Streams (R220, R224) -/

/-- This package's own trailer: of the consensus its local bit, of another GRAD collective what it read or produced there
(R220, R221). -/
def Coll.ownTrailer (c : Coll) (s : State) (deciding : Bool) : Trailer :=
  let bad := if deciding then ((progAt s c.n).map (·.localBit)).getD false else ((c.run s).map (·.nonfinite)).getD false
  { step := ((ctxAt s c.n).map (·.step)).getD 0, members := 1, nonfinite := if bad then 1 else 0, flags := 0,
    firstRank := if bad then c.t.ownRank else 0xFFFF }

/-- The trailer of a step's streams with all that was received: for its piece, or, of the consensus, by any of its deciding
steps. -/
def Coll.trailer (c : Coll) (s : State) (st : StayStep) : Trailer :=
  let got := ((c.run s).map (·.trailers)).getD []
  let same := fun x : Nat × Trailer =>
    if c.deciding st then c.steps.any fun y => c.deciding y && y.piece == x.1 else x.1 == st.piece
  ((got.filter same).map (·.2)).foldl mergeTrailer (c.ownTrailer s (c.deciding st))

/-- The consensus trailer with all that was received. -/
def Coll.merged (c : Coll) (s : State) : Trailer :=
  match c.steps.find? c.deciding with
  | some st => c.trailer s st
  | none => c.ownTrailer s true

/-- The root's trailer: FAULT where members differs from D (R222). -/
def Coll.rootTrailer (c : Coll) (s : State) : Trailer :=
  let t := c.merged s
  if t.members = c.t.d % 65536 then t else { t with flags := t.flags ||| 1 }

/-- The verdict's trailer: the root's own, or the one received (R221). -/
def Coll.downTrailer (c : Coll) (s : State) : Option Trailer :=
  if c.root then some (c.rootTrailer s) else (c.run s).bind (·.verdict)

/-- What PUT's streams end with: the consensus decision; else the trailer that a TAKE brought, or, at its origin, the merged
one (R220, R221). -/
def Coll.putTrailer (c : Coll) (s : State) (st : StayStep) : Option Trailer :=
  if c.deciding st then c.downTrailer s else ((c.run s).bind (·.payload)).or (some (c.trailer s st))

def Coll.package (c : Coll) (rank : Nat) : Nat := c.t.packages.getD rank 0

/-- How far a sender of a piece of `len` elements may go with `k` of them at hand: whole frames, or the end. -/
def sendable (fmt len k : Nat) : Nat := if len ≤ k then len else k / frameElems fmt * frameElems fmt

/-- Send bytes of a piece from element `at_` on in DATA frames; `last` marks the last one (R224). Each frame takes the most whole
transport blocks that 8,192 bytes hold, and an empty piece one empty frame (DESIGN CHOICE, log 18). -/
def Coll.stream (c : Coll) (s : State) (st : StayStep) (fmt at_ : Nat) (bs : List Byte) (last : Bool) : State :=
  let size := frameElems fmt / 32 * blockBytes fmt
  let parts := if bs.isEmpty then (if last then [[]] else []) else chunks (ceilDiv bs.length size) size bs
  parts.zipIdx.foldl (fun s x => sendStay s c.n (c.package st.peerOut) c.tile
    { type := 0x11, flags := flag (last && x.2 + 1 == parts.length) 0, entry := c.index, piece := st.piece, seq := 0
      value := at_ + x.2 * frameElems fmt, body := x.1 }) s

/-- Send a trailer at the end of a stream (R220). -/
def Coll.streamEnd (c : Coll) (s : State) (st : StayStep) (t : Trailer) : State :=
  sendStay s c.n (c.package st.peerOut) c.tile
    { type := 0x17, flags := 0, entry := c.index, piece := st.piece, seq := 0, value := 0, body := encodeTrailer t }

/-- Grant more frames to a peer (R224). -/
def grantStay (s : State) (n peer tile k : Nat) : State :=
  if k = 0 then s
  else
    let s := modAssoc s n peer fun A => { A with grantedOut := add32 A.grantedOut k }
    match assocAt s n peer with
    | none => s
    | some A => sendStay s n peer tile { type := 0x12, flags := 0, entry := 0, piece := 0, seq := 0, value := A.grantedOut, body := [] }

/-- The stream that a step receives: the first in staging of its piece and peer. -/
def Coll.inStream (c : Coll) (s : State) (st : StayStep) : Option StayInbox :=
  (stayAt s c.n c.tile).bind fun x => x.inbox.find? fun b => b.entry == c.index && b.piece == st.piece && b.fromRank == st.peerIn

/-- Change the stream that a step receives. -/
def Coll.modStream (c : Coll) (s : State) (b : StayInbox) (f : StayInbox → Option StayInbox) : State :=
  modStay s c.n c.tile fun x => { x with inbox := x.inbox.flatMap fun y => if y = b then (f y).toList else [y] }

/-- The frame of a stream that is next at element k. -/
def StayInbox.next (b : StayInbox) (k : Nat) : Option StagedFrame := b.frames.find? fun f => f.offset = k

/-- Read a frame out of staging, which gives its credit back (R50, R224, R227). -/
def Coll.unstage (c : Coll) (s : State) (b : StayInbox) (f : StagedFrame) : State × Option (List Byte) :=
  match c.read s (c.slotAddr f.slot) f.size with
  | (s, none) => (s, none)
  | (s, some bs) =>
    let s := c.modStream s b fun y => some { y with frames := y.frames.erase f, ended := y.ended || f.last }
    (grantStay s c.n (c.package b.fromRank) c.tile 1, some bs)

/-- A peer's GRAD trailer joins (R220, R222). -/
def Coll.mergeIn (c : Coll) (s : State) (piece : Nat) (t : Trailer) : State :=
  if t.step ≠ ((ctxAt s c.n).map (·.step)).getD 0 then c.fault s 0
  else
    c.mod s fun r =>
      { r with trailers := setAssoc r.trailers piece (match assoc r.trailers piece with
          | none => t
          | some u => mergeTrailer u t) }

/-- A trailer on its way down: the decision is kept unchanged for PUT and the verdict (R221); a payload's decides nothing, and one of
another step faults (R220, R222). -/
def Coll.takeTrailer (c : Coll) (s : State) (st : StayStep) (t : Trailer) : State :=
  if c.deciding st then c.mod s fun r => { r with verdict := some t }
  else if t.step ≠ ((ctxAt s c.n).map (·.step)).getD 0 then c.fault s 0
  else c.mod s fun r => { r with payload := some t }

/-! ### Steps (R214): each works on frames as they arrive -/

/-- Step i has done k elements of its piece. -/
def Coll.reach (c : Coll) (s : State) (i k : Nat) : State :=
  c.release (c.mod s fun r => { r with parts := setAssoc r.parts i k })

/-- Step i is complete: an operation of the engine (R61). -/
def Coll.stepDone (c : Coll) (s : State) (i : Nat) : State :=
  opDone (c.release (c.mod s fun r => { r with done := r.done ++ [i] })) c.n

/-- ADD on a frame at element k: the arrived terms fold into the local one; answers how many there were. -/
def Coll.fold (c : Coll) (s : State) (st : StayStep) (k : Nat) (bs : List Byte) : State × Nat :=
  let got := (elements 4 bs).take (c.pieceLen st.piece - k)
  match c.terms s st.piece k (k + got.length) with
  | (s, none) => (s, 0)
  | (s, some own) =>
    let l := (own.zip got).map fun x => foldTerm c.e.op x.1 x.2
    (countCtx (c.putHeld s false st.piece (4 * k) (packTerms 4 l)) c.n 3 c.tile 0 l.length, l.length)

/-- TAKE on a frame at element k: the arrived bytes into dst, kept for a later PUT; answers how many elements there were. -/
def Coll.takePart (c : Coll) (s : State) (st : StayStep) (k : Nat) (bs : List Byte) : State × Nat :=
  let fmt := c.narrowFmt
  let m := min (bs.length / blockBytes fmt * 32) (c.pieceLen st.piece - k)
  let bs := bs.take (stayBytes fmt m)
  let s := c.keep s st.piece k bs
  if c.e.kind = 0 then (c.widenPart s st.piece k bs, m)
  else
    let s := c.flagBad s ((elements (wideBytes fmt) bs).any (badElement fmt))
    (c.write s (c.e.dst + stayBytes fmt k) bs, m)

/-- ADD and TAKE, step i: the next frame of the stream where one waits, then its trailer. -/
def Coll.receive (c : Coll) (s : State) (r : EntryRun) (st : StayStep) (i limit : Nat) : Option State :=
  (c.inStream s st).bind fun b =>
    let k := r.part i
    let fmt := if st.op = 1 then 8 else c.narrowFmt
    match (if c.trailerStep st then none else b.next k) with
    | some f =>
      if limit < min (k + f.size / blockBytes fmt * 32) (c.pieceLen st.piece) then none
      else
        match c.unstage s b f with
        | (s, none) => some s
        | (s, some bs) =>
          let r := if st.op = 1 then c.fold s st k bs else c.takePart s st k bs
          some (c.reach r.1 i (k + r.2))
    | none =>
      if !c.trailerStep st && !(b.ended && decide (c.pieceLen st.piece ≤ k)) then none
      else
        let close := fun s => c.stepDone (c.modStream s b fun _ => none) i
        match b.trailer, c.trailed st with
        | some t, true => some (close (if st.op = 1 then c.mergeIn s st.piece t else c.takeTrailer s st t))
        | none, true => none
        | _, false => some (close s)

/-- SEND, step i: the local term, or the merged trailer alone, to peer_out. -/
def Coll.send (c : Coll) (s : State) (r : EntryRun) (st : StayStep) (i limit : Nat) : Option State :=
  if c.trailerStep st then some (c.stepDone (c.streamEnd s st (c.trailer s st)) i)
  else
    let len := c.pieceLen st.piece
    let k := r.part i
    let m := sendable 8 len limit
    if m ≤ k && m < len then none
    else
      match c.terms s st.piece k m with
      | (s, none) => some s
      | (s, some l) =>
        let s := c.reach (c.stream s st 8 k (packTerms 4 l) (m == len)) i m
        if m < len then some s
        else some (c.stepDone (if c.trailed st then c.streamEnd s st (c.trailer s st) else s) i)

/-- ROUND, step i: one rounding to dst_fmt, written to dst. -/
def Coll.round (c : Coll) (s : State) (r : EntryRun) (st : StayStep) (i limit : Nat) : Option State :=
  let len := c.pieceLen st.piece
  let k := r.part i
  if limit ≤ k && limit < len then none
  else
    match c.terms s st.piece k limit with
    | (s, none) => some s
    | (s, some l) =>
      let out := l.map (roundTerm c.e.dstFmt)
      let bs := packTerms (wideBytes c.e.dstFmt) out
      let s := c.keep (c.flagBad s (out.any (badElement c.e.dstFmt))) st.piece k bs
      let s := c.reach (c.write s (c.e.dst + stayBytes c.e.dstFmt k) bs) i limit
      some (if limit < len then s else c.stepDone s i)

/-- The own transport shard of a GATHER. -/
def Coll.ownShard (c : Coll) (s : State) : State × Option (List Byte) :=
  c.read s c.e.src (stayBytes c.e.srcFmt (c.length c.t.ownRank))

/-- The narrow bytes of elements [k, m) that a PUT sends: those kept of its piece, or of a GATHER's own shard. -/
def Coll.narrowOf (c : Coll) (s : State) (st : StayStep) (k m : Nat) : State × Option (List Byte) :=
  let a := stayBytes c.narrowFmt k
  let b := stayBytes c.narrowFmt m
  if c.e.kind = 0 && st.piece == c.t.ownRank then c.read s (c.e.src + a) (b - a) else c.getHeld s true st.piece a b

/-- A peer whose silence of 4 µs ended no later than now has been lost before what happens now (R223, R226). -/
def lostPeer (s : State) (n : Nat) : Option Assoc :=
  (((progAt s n).map (·.assocs)).getD []).find? fun A =>
    A.st == .bound && !assocPaused s A && decide (A.heardAt + 4000 ≤ s.time)

/-- The trailer that a PUT step ends its stream with, and the step's end. At the root a member lost no later than this moment was
lost before the consensus completed (R223, R226). -/
def Coll.putEnd (c : Coll) (s : State) (st : StayStep) (i : Nat) : Option State :=
  if !c.trailed st then some (c.stepDone s i)
  else
    match c.putTrailer s st with
    | none => none
    | some t =>
      match lostPeer s c.n, c.deciding st && c.root with
      | some A, true => some (peerLost s c.n (2 ^ 31 + A.peer) A.peer 0)
      | _, _ => some (c.stepDone (c.streamEnd s st t) i)

/-- PUT, step i: the narrow bytes of a piece, own or received, or the trailer alone, to peer_out. -/
def Coll.put (c : Coll) (s : State) (r : EntryRun) (st : StayStep) (i limit : Nat) : Option State :=
  if c.trailerStep st then c.putEnd s st i
  else
    let len := c.pieceLen st.piece
    let k := r.part i
    let m := sendable c.narrowFmt len limit
    if k = len ∧ len ≠ 0 then c.putEnd s st i
    else if m ≤ k && m < len then none
    else
      match c.narrowOf s st k m with
      | (s, none) => some s
      | (s, some bs) =>
        let s := c.reach (c.stream s st c.narrowFmt k bs (m == len)) i m
        if m < len then some s else (c.putEnd s st i).or (some s)

/-- SELF, step i: widen the own shard into dst. -/
def Coll.self (c : Coll) (s : State) (i : Nat) : State :=
  match c.ownShard s with
  | (s, none) => s
  | (s, some bs) => c.stepDone (c.widenPart s c.t.ownRank 0 bs) i

/-- How far the earlier steps of step i's piece have come: the steps of one piece run in list order, each on what the one before
it has done (R214). -/
def Coll.limit (c : Coll) (r : EntryRun) (st : StayStep) (i : Nat) : Nat :=
  ((c.steps.zipIdx.filter fun y => decide (y.2 < i) && y.1.piece == st.piece && !r.done.contains y.2).map fun y => r.part y.2).foldl
    min (c.pieceLen st.piece)

/-- An earlier step of the same piece is not complete: a step that ends with or carries only a trailer waits for it. -/
def Coll.behind (c : Coll) (r : EntryRun) (st : StayStep) (i : Nat) : Bool :=
  c.steps.zipIdx.any fun y => decide (y.2 < i) && y.1.piece == st.piece && !r.done.contains y.2

/-- What step i can do now; none where it waits. It completes after the earlier steps of its piece. -/
def Coll.work (c : Coll) (s : State) (r : EntryRun) (x : StayStep × Nat) : Option State :=
  let (st, i) := x
  let limit := c.limit r st i
  let wait := c.behind r st i && (c.trailerStep st || c.pieceLen st.piece ≤ limit || st.op == 6)
  if r.done.contains i || wait then none
  else if st.op = 1 ∨ st.op = 5 then c.receive s r st i limit
  else if st.op = 2 then c.send s r st i limit
  else if st.op = 3 then c.round s r st i limit
  else if st.op = 4 then c.put s r st i limit
  else some (c.self s i)

/-! ### The verdict (06 R163 to R167, 07 R201) -/

/-- The verdict record at every schedule's verdict address (R166), inside the declared regions and outside FROZEN ones (R50, R159,
R250). -/
def writeVerdict (s : State) (n : Nat) (im : Image) (rec_ : List Byte) : State :=
  im.stays.foldl (fun s d =>
    if mayWrite im d.verdictAddr rec_.length then writeOrFault s (stayReader n d.tile) d.verdictAddr rec_
    else confine s n srcPylon d.tile [d.tile, d.consensusEntry, lo32 d.verdictAddr]) s

/-- Log a verdict at the floor (R163, R173); E used is −32, whose 8-bit code fills its detail word from the low end (R401 gives no
width; DESIGN CHOICE, log 129). -/
def logFloor (s : State) (n step first : Nat) : State :=
  logError s 0x0026 0 sevWarning srcPackage 0xFF n [step, byteOfInt (-32), first]

/-- Apply a verdict: loss scale, record, version (R163, R166, R201). -/
def applyVerdict (s : State) (n : Nat) (im : Image) (nonfinite : Bool) (first : Nat) : State :=
  match ctxAt s n with
  | none => s
  | some c =>
    let ls := c.ls.verdict (lsInterval c) nonfinite
    let version := if nonfinite then c.version else add32 c.version 1
    let s := modCtx s n fun c => { c with ls, version }
    let s := writeVerdict s n im
      (verdictRecord c.step nonfinite c.ls.exp ls.exp (flag c.ls.pend.isSome 0 + flag ls.floor 1) ls.clean)
    let s := modProg s n fun p =>
      { p with
        verdict := some (nonfinite, c.ls.exp, ls.exp)
        verdicts := (c.step, version) :: p.verdicts
        stages := p.stages.zipIdx.map fun x =>
          if hasStore im x.2 && !nonfinite then { x.1 with waiting := x.1.waiting ++ [version] } else x.1 }
    let s := if ls.floor then logFloor s n c.step first else s
    sweep s n im

/-! ### Running an entry -/

/-- Log a GRAD trailer with nonfinite 1 (R220). -/
def Coll.logTrailer (c : Coll) (s : State) (t : Trailer) : State :=
  if t.nonfinite = 0 then s
  else
    let s := countCtx s c.n 3 c.tile 4 1
    let s := modStay s c.n c.tile fun x => { x with lastFirst := setAssoc x.lastFirst c.index t.firstRank }
    logError s 0x0025 0 sevWarning srcPylon c.tile c.n [c.index, t.firstRank, t.step]

/-- The step's verdict is known (R165). -/
def decided (s : State) (n : Nat) : Bool := ((progAt s n).bind (·.verdict)).isSome

/-- The merged trailer of the payload's streams: all that ADD and TAKE steps brought, and this package's own (R220). -/
def Coll.payloadTrailer (c : Coll) (s : State) : Trailer :=
  match c.run s with
  | none => c.ownTrailer s false
  | some r =>
    let got := r.trailers.filter fun x => !c.steps.any fun y => c.deciding y && y.piece == x.1
    (got.map (·.2) ++ r.payload.toList).foldl mergeTrailer (c.ownTrailer s false)

/-- The payload of a GRAD entry has trailers of its own, which decide nothing (R220). -/
def Coll.ownStreams (c : Coll) : Bool := c.grad && c.steps.any fun st => !c.deciding st

/-- Every step is done: the consensus gives its verdict, once a step (R165, R221, R222); the trailer of a GRAD entry's payload is
logged (R220). The verdict faults where FAULT is set, after this package has sent it on (R221, R222). -/
def Coll.finish (c : Coll) (s : State) : State :=
  let log := fun s : State => if c.ownStreams then c.logTrailer s (c.payloadTrailer s) else s
  let done := fun s : State => c.mod (log s) fun r => { r with finished := true }
  if c.e.consensus then
    match c.downTrailer s with
    | none => s
    | some t =>
      if bit t.flags 0 then c.fault s 0
      else if decided s c.n then done (c.logTrailer s t)
      else done (applyVerdict (c.logTrailer s t) c.n c.im (t.nonfinite != 0) t.firstRank)
  else done s

/-- The words of a pier's deck from its next instruction to the end of the step. -/
def wordsAhead (s : State) (im : Image) (p : Nat) : List Nat :=
  ((List.range (deckLength im p - (pierAt s p).index)).map fun i =>
    leNat (s.hbm.mem.read (deckAddr im p ((pierAt s p).index + i)) 16)).takeWhile fun w => opcodeOf w != 0x30

/-- The word issues a GRAD collective of the tile other than the consensus. -/
def issuesGrad (n : Nat) (im : Image) (tile w : Nat) : Bool :=
  (opcodeOf w == 0x29 || opcodeOf w == 0x2A)
    && (collOf n im tile (generalOf w).index).any fun d => d.grad && !d.e.consensus

/-- The consensus waits for every other GRAD collective of the package's step, those not yet issued among them (R165, R221; log
17). -/
def Coll.held (c : Coll) (s : State) : Bool :=
  let open_ := (((progAt s c.n).map (·.stays)).getD []).any fun x => x.outstanding.any fun r =>
    !r.finished && (collOf c.n c.im x.tile r.entry).any fun d => d.grad && !d.e.consensus
  let ahead := (List.range c.im.decls.stages.length).any fun k =>
    ((stagePiers c.im.decls k).take 1).any fun p => (wordsAhead s c.im p).any (issuesGrad c.n c.im (homeTile c.im.decls k))
  c.e.consensus && (open_ || ahead)

/-- Run the steps that can run. -/
def Coll.advance (c : Coll) : Nat → State → State
  | 0, s => s
  | f + 1, s =>
    match c.run s with
    | none => s
    | some r =>
      if r.finished || faultedIn s c.n then s
      else
        match c.steps.zipIdx.findSome? (c.work s r) with
        | some s => c.advance f s
        | none => if c.steps.length ≤ r.done.length then c.finish s else s

/-- Rounds that suffice: each completes a step, consumes a frame, or follows one. -/
def Coll.rounds (c : Coll) (s : State) : Nat :=
  let frames := (((stayAt s c.n c.tile).map (·.inbox)).getD []).map fun b => b.frames.length + 1
  (frames.sum + 2) * (2 * c.steps.length + 2)

/-- Take an entry as far as it goes. A consensus entry takes its payload's own contribution before its trailer (log 17). -/
def Coll.go (c : Coll) (s : State) : State :=
  if c.held s then s
  else
    let s := if c.e.consensus ∧ c.e.total ≠ 0 then (c.termTo s (c.t.d - 1) c.e.total).1 else s
    c.advance (c.rounds s) s

/-- Run every outstanding entry of the active context's Stay engines (R226). -/
def runStays (s : State) (n : Nat) : State :=
  if s.sched.active != some n || s.sched.incoming.isSome || !(progAt s n).any fun p => p.st == .running then s
  else
    match imageAt s n with
    | none => s
    | some im =>
      let all := (((progAt s n).map (·.stays)).getD []).flatMap fun x => x.outstanding.filterMap fun r => collOf n im x.tile r.entry
      (all.filter fun c => c.e.consensus).foldl (fun s c => c.go s) ((all.filter fun c => !c.e.consensus).foldl (fun s c => c.go s) s)

/-! ### Issue and completion -/

/-- An entry of which nothing has been done yet. -/
def freshEntry (entry channel stage : Nat) : EntryRun :=
  { entry, channel, stage, done := [], parts := [], held := [], nonfinite := false, trailers := [], payload := none
    verdict := none, finished := false }

/-- The stage's entry joins the outstanding collectives of its home tile, and the engine runs on (R209, R210). -/
def joinCollective (s : State) (m : Meet) : State :=
  let e := freshEntry m.general.index m.general.count m.stage
  runStays (modStay s m.n (homeTile m.im.decls m.stage) fun x => { x with outstanding := x.outstanding ++ [e] }) m.n

/-- Issue a collective of the stage's home tile (R96, R210, R226). -/
def issueCollective (s : State) (m : Meet) (kind : Nat) : Option State :=
  let tile := homeTile m.im.decls m.stage
  let g := m.general
  match collOf m.n m.im tile g.index, stayAt s m.n tile with
  | some c, some x =>
    if c.e.kind ≠ kind ∨ (c.run s).isSome ∨ c.sched.maxOutstanding ≤ x.outstanding.length then
      some (confine s m.n srcPylon tile [tile, g.index, 0])
    else
      some (m.done s fun s => joinCollective s m)
  | _, _ => some (confine s m.n srcPylon tile [tile, g.index, 0])

/-- GATHER: a whole copy of a tensor from every member's shard. -/
def execGather (stage : Nat) (s : State) : Host.Outcome State Fault Refusal :=
  .next (atStage s stage (· == 0x28) fun s m => issueCollective s m 0)

/-- REDUCE_SCATTER: the sum of every member's buffer, each owner its shard. -/
def execReduceScatter (stage : Nat) (s : State) : Host.Outcome State Fault Refusal :=
  .next (atStage s stage (· == 0x29) fun s m => issueCollective s m 1)

/-- ALL_REDUCE: one folded result for every member. -/
def execAllReduce (stage : Nat) (s : State) : Host.Outcome State Fault Refusal :=
  .next (atStage s stage (· == 0x2A) fun s m => issueCollective s m 2)

/-- The completion SIGNAL of a finished collective (R39, R96), which then is outstanding no more. -/
def signalStay (s : State) (n : Nat) (im : Image) (tile entry : Nat) : State :=
  match (stayAt s n tile).bind fun x => x.outstanding.find? fun e => e.entry == entry && e.finished with
  | none => s
  | some e =>
    match tokenDecl im e.channel with
    | none => confine s n srcPylon tile [tile, entry, 0]
    | some d =>
      if d.producer != .stay tile then confine s n srcPylon tile [tile, entry, 0]
      else if !tokenRoom s n d 1 then s
      else
        let step := ((ctxAt s n).map (·.step)).getD 0
        let s := modStay s n tile fun x =>
          { x with outstanding := x.outstanding.filter fun y => y.entry != entry, lastStep := setAssoc x.lastStep entry step }
        runStays (opDone (signalToken s n d 1) n) n

/-- SIGNAL: raise a token channel's count. -/
def execSignal (actor : TokenActor) (s : State) : Host.Outcome State Fault Refusal :=
  .next (match actor, acting s with
    | .stage k, _ => atStage s k (· == 0x18) signalStage
    | .stay tile entry, some (n, im) => signalStay s n im tile entry
    | .feed ch k, some (n, im) => signalFeed s n im ch k
    | _, _ => s)

end Sys2Proof.Machine
end

