-- ==== Sys2Proof/Machine/Program.lean ====
section
/-! DEFINITION. LAUNCH and what ends it: the checks of R138 and R240, binding (07 R182, 08 R224), the start of a program (11
R285, 10 R262, 06 R167), UNLOAD, TOKEN_SIGNAL and the two queries (13 R337). -/

namespace Sys2Proof.Machine

/-! ### Declarations on the wire -/

/-- The digest of a remote queue's declaration seen from this end (R182; widths of the three last fields: log 19). -/
def queueDigest (own : Nat) (im : Image) (d : QueueDecl) : List Byte :=
  let c := classOf im d
  let sending := d.consumer == remote
  sha256 (leBytes 2 d.queue ++ leBytes 1 d.depth ++ leBytes 1 d.slotClass ++ leBytes 2 d.link ++ leBytes 2 d.peer
    ++ leBytes 1 d.kind ++ leBytes 1 d.bond ++ leBytes 2 d.group ++ leBytes 8 d.ports ++ leBytes 4 d.descAddr ++ leBytes 4 d.home
    ++ leBytes 4 c.payloadMax ++ leBytes 4 c.maxTokens ++ leBytes 2 c.segMax ++ leBytes 6 0
    ++ leBytes 2 (if sending then own else d.peer) ++ leBytes 2 (if sending then d.peer else own) ++ leBytes 1 d.bond)

/-- Ports of a mask. -/
def portsOf (mask : Nat) : List Nat := (List.range 64).filter (bit mask)

/-- The rank that a step exchanges frames with (R214). -/
def stepPeer (st : StayStep) : Option Nat :=
  if st.op = 1 ∨ st.op = 5 then some st.peerIn else if st.op = 2 ∨ st.op = 4 then some st.peerOut else none

/-- The packages that an entry exchanges frames with. -/
def entryPeers (d : StaySchedule) (e : StayEntry) : List Nat :=
  match d.tables[e.table]? with
  | none => []
  | some t => (e.steps.takeWhile fun st => st.op != 0).filterMap fun st => (stepPeer st).map fun r => t.packages.getD r 0

/-- The peer packages of a program's associations (R224). -/
def assocPeers (im : Image) : List Nat := (im.stays.flatMap fun d => d.entries.flatMap (entryPeers d)).eraseDups

/-- The bytes of a member table (R212). -/
def encodeTable (t : MemberTable) : List Byte :=
  let b := leBytes 2 t.d ++ leBytes 2 t.s ++ leBytes 1 t.p ++ leBytes 1 0 ++ leBytes 2 t.ownRank ++ leBytes 8 0
    ++ t.packages.flatMap (leBytes 2)
  padTo b (ceilDiv b.length 16 * 16)

/-- The digest of what an association serves (R224). -/
def assocDigest (im : Image) (peer : Nat) : List Byte :=
  sha256 (im.stays.flatMap fun d => (d.entries.filter fun e => (entryPeers d e).contains peer).flatMap fun e =>
    e.raw ++ (e.lengths.getD []).flatMap (leBytes 4) ++ ((d.tables[e.table]?).map encodeTable).getD [])

/-! ### A new program -/

def freshLink (s : State) (im : Image) (d : QueueDecl) : SpanLink :=
  { link := d.link, peer := d.peer, sending := d.consumer == remote, ports := portsOf d.ports, st := .binding,
    digest := queueDigest (ownId s) im d, txSeq := 0, rxSeq := 0, ahead := [], sent := 0, released := 0, heardAt := s.time,
    sentAt := s.time, nextPort := 0, errors := 0 }

def isRemote (d : QueueDecl) : Bool := d.producer == remote || d.consumer == remote

def freshQueue (s : State) (im : Image) (d : QueueDecl) : SpanQueue :=
  { decl := d, st := if isRemote d then .binding else .unbound
    slots := if d.consumer = remote then [] else List.replicate d.depth .empty
    fillAt := 0, headAt := 0, heldAt := 0, link := if isRemote d then some (freshLink s im d) else none }

def freshAssoc (s : State) (im : Image) (peer : Nat) : Assoc :=
  { peer, st := .binding, digest := assocDigest im peer, txSeq := 0, rxSeq := 0, ahead := [], granted := 0, dataSent := 0,
    grantedOut := 0, backlog := [], heardAt := s.time, sentAt := s.time, errors := 0 }

/-- A stage at launch: the launch version holds a slot of a trained stage's store (R198, R285; log 16). -/
def freshStage (im : Image) (version : Nat) (d : StageDecl) : StageRun :=
  { current := none, pinned := [], store := if d.trained then some (version, 0) :: List.replicate (im.decls.versions - 1) none else []
    waiting := [], newestStep := none }

/-- The program of a LAUNCH, still to be bound (R182). -/
def freshProgram (s : State) (c : Context) (im : Image) (q seq : Nat) : Program :=
  { launchQ := q, launchSeq := seq, st := .binding, bindAt := s.time
    stages := im.decls.stages.map (freshStage im c.version)
    queues := im.decls.queues.map (freshQueue s im)
    tokens := im.decls.tokens.map fun d => (d.channel, d.initial)
    stays := im.stays.map fun d => { tile := d.tile, outstanding := [], inbox := [], lastStep := [], lastFirst := [] }
    assocs := (assocPeers im).map (freshAssoc s im)
    inflight := 0, admitted := none, admitStep := c.step, firstStep := c.step, launchVersion := c.version, verdicts := []
    verdict := none, localBit := false, fencesDone := 0, watchdogAt := s.time, saved := []
    afterFault := c.program.any fun p => p.st == .faulted }

/-- A program runs, or its launch is under way (R337). -/
def programRuns (c : Context) : Bool := c.program.any fun p => p.st != .faulted

/-! ### Checks of LAUNCH (R138, R240) -/

/-- The window descriptors of a section: pier, index, and how R138 refuses it. -/
def windowRefusal (b : List Byte) : Option Nat :=
  let d := windowOf b
  if !windowOk b then some stBadParam
  else if !mirrorOk d.pad d.inH d.inW d.padLoY d.padHiY d.padLoX d.padHiX then some stBadPad
  else none

/-- Sections of the loaded image as they stand in HBM. -/
def readSections (r : Reader) (im : Image) : List Section → State → State × Option (List (Section × List Byte))
  | [], s => (s, some [])
  | x :: t, s =>
    match readHbm s r (im.addr + x.offset) x.size with
    | (s, none) => (s, none)
    | (s, some bs) =>
      match readSections r im t s with
      | (s, none) => (s, none)
      | (s, some rest) => (s, some ((x, bs) :: rest))

/-- The first window descriptor that R138 refuses: status, pier, index. -/
def badWindow (l : List (Section × List Byte)) : Option (Nat × Nat × Nat) :=
  l.findSome? fun x => (List.range (x.1.size / 32)).findSome? fun i =>
    (windowRefusal (slice x.2 (32 * i) 32)).map fun st => (st, x.1.scope, i)

/-- A port of the bond is not ACTIVE towards the declared peer (R240). -/
def badBond (s : State) (d : QueueDecl) : Bool :=
  isRemote d && (portsOf d.ports).any fun p => (portAt s p).st != .active || ((portAt s p).neighbour.map (·.1)) != some d.peer

/-! ### The start (R262, R285, R167) -/

/-- What a section of pier scope gives its pier at launch: the preload of its scratchpad, or its lane program store (R69, R103;
log 111). -/
def fillPier (x : Section) (bs : List Byte) (P : Pier) : Pier :=
  if x.type = 0x0009 then { P with mem := P.mem.write 0 bs } else { P with store := bs }

/-- Load the piers' preloads and lane program stores for the LAUNCH of queue q; answers whether one was uncorrectable. -/
def preload (n q : Nat) (im : Image) (s : State) : State × Bool :=
  match readSections (hostReader n q) im (im.sections.filter fun x => x.type = 0x0009 ∨ x.type = 0x0004) s with
  | (s, none) => (s, true)
  | (s, some l) => (l.foldl (fun s x => modPier s x.1.scope (fillPier x.1 x.2)) s, false)

/-- One Footing command, which crosses no interface (R261, R262). A write into a FROZEN range faults the context (R159); answers whether the command met an
uncorrectable block or word, or faulted. -/
def footCommand (n : Nat) (im : Image) (tile : Nat) (s : State) (c : FootCmd) : State × Bool :=
  let a := stackBase c.stack + 32 * c.dst
  let len := 32 * c.length
  let r := footReader n tile
  if !mayWrite im a len then (confine s n srcFooting c.stack [c.stack, lo32 a, a / 2 ^ 32], true)
  else
    match footPath s c.stack a n with
    | (s, true) => (s, true)
    | (s, false) =>
      if c.op = 2 then storeInside s r a len fun h => h.fill a len c.src
      else
        let b := stackBase c.stack + 32 * c.src
        let bad := s.hbm.badIn b len
        if !bad.isEmpty then (bad.foldl (logUncorrectable r 0) s, true)
        else storeInside (count (correctRange s b len) 5 c.stack 3 len) r a len fun h => h.copy b a len

def footCommands (n : Nat) (im : Image) (tile : Nat) : List FootCmd → State → State × Bool
  | [], s => (s, false)
  | c :: t, s =>
    if c.op = 0 then (s, false)
    else
      match footCommand n im tile s c with
      | (s, true) => (s, true)
      | (s, false) => footCommands n im tile t s

def footSections (n : Nat) (im : Image) : List FootSeq → State → State × Bool
  | [], s => (s, false)
  | f :: t, s =>
    match footCommands n im f.tile f.cmds s with
    | (s, true) => (s, true)
    | (s, false) => footSections n im t s

/-- Take a launch back: the context is as before it (R182, R337). -/
def dropLaunch (s : State) (n : Nat) : State :=
  let husk := fun p : Program => { p with st := .faulted, queues := p.queues.map fun x => { x with st := .faulted } }
  modCtx s n fun c => { c with program := (c.program.filter (·.afterFault)).map husk }

/-- Refuse a LAUNCH under way. -/
def refuseLaunch (s : State) (n status p0 : Nat) : State :=
  match progAt s n with
  | none => s
  | some p => finish (dropLaunch s n) p.launchQ p.launchSeq status (if p0 = 0 then [] else [p0])

/-- The launch record: the step before the first, clear, E and CLEAN as they stand (R167). -/
def launchRecord (c : Context) : List Byte := verdictRecord (sub32 c.step 1) false c.ls.exp c.ls.exp 0 c.ls.clean

/-- Grant Stay credit from the staging ranges to every peer (R224; log 18). -/
def grantStaging (s : State) (n : Nat) (im : Image) : State :=
  let peers := assocPeers im
  let tile := ((im.stays.head?).map (·.tile)).getD 0
  peers.foldl (fun s k => grantStay s n k tile (stagingShare im peers.length)) s

/-- A program's piers: fresh planes, decks at instruction 0 (R92, R438), and scratchpads cleared, bytes and errors, whatever ran in
the same slice before (log 5). -/
def freshPiers (s : State) (im : Image) : State :=
  (allPiers im).foldl (fun s p => setPier s (.fresh p)) s

/-- The stages of a loaded program begin, and its LAUNCH completes (R337). -/
def beginProgram (s : State) (n : Nat) (im : Image) : State :=
  let s := modCtx s n fun c => { c with restored := false, counters := [], waits := [], activeNs := 0, faultStatus := 0 }
  let s := modProg s n fun p => { p with st := .running, watchdogAt := s.time }
  let s := (allPiers im).foldl (fun s p => startCounting s n p) s
  let s := grantStaging s n im
  match progAt s n with
  | none => s
  | some p => finish (p.queues.foldl (raiseHigh n) s) p.launchQ p.launchSeq stOk []

/-- Start the stages of a bound program in the active context: preloads, Footing sequences, launch record (R262, R285). -/
def startProgram (s : State) (n : Nat) : State :=
  match ctxAt s n, imageAt s n with
  | some c, some im =>
    match preload n ((c.program.map (·.launchQ)).getD 0) im (freshPiers s im) with
    | (s, true) => refuseLaunch s n stMemUncorrectable 0
    | (s, false) =>
      match footSections n im (im.foots.filter fun f => f.afterRestore || !c.restored) s with
      | (s, true) => if faultedIn s n then s else refuseLaunch s n stMemUncorrectable 0
      | (s, false) =>
        let s := writeVerdict s n im (launchRecord c)
        if faultedIn s n then s else beginProgram s n im
  | _, _ => s

/-- Every remote queue and association is bound: queues OPEN; the stages start once the context is active (R182, R342). -/
def checkBound (s : State) (n : Nat) : State :=
  match progAt s n, imageAt s n with
  | some p, some im =>
    if p.st == .binding && p.queues.all (fun x => x.link.all fun L => L.st == .bound) && p.assocs.all (fun a => a.st == .bound) then
      let s := modProg s n fun p =>
        { p with st := .waitingSlice, queues := p.queues.map fun x => { x with st := .opened } }
      let s := im.decls.queues.foldl (fun s d => runPolicy s n im d.queue .launched) s
      if s.sched.active = some n ∧ s.sched.incoming.isNone then startProgram s n else s
    else s
  | _, _ => s

/-- Send BIND on every link and association (R182, R224). -/
def sendBinds (s : State) (n : Nat) : State :=
  match progAt s n with
  | none => s
  | some p =>
    let s := p.queues.foldl (fun s x => match x.link with
      | some L => sendSpan s n x.decl.queue 0x06 0 0 L.digest
      | none => s) s
    p.assocs.foldl (fun s a =>
      putStay s n a.peer 0 { type := 0x15, flags := 0, entry := 0, piece := 0, seq := 0, value := 0, body := a.digest }) s

/-- Send CLOSE on every bound link and association (R182). -/
def sendCloses (s : State) (n : Nat) : State :=
  match progAt s n with
  | none => s
  | some p =>
    let s := p.queues.foldl (fun s x => match x.link with
      | some L => if L.st == .bound then sendSpan s n x.decl.queue 0x07 0 0 [] else s
      | none => s) s
    p.assocs.foldl (fun s a =>
      if a.st == .bound then putStay s n a.peer 0 { type := 0x16, flags := 0, entry := 0, piece := 0, seq := 0, value := 0, body := [] }
      else s) s

/-- The first link or association that has not bound, as the reply names it (R182, R224). -/
def unbound (p : Program) : Nat :=
  match (p.queues.filterMap (·.link)).find? fun L => L.st != .bound with
  | some L => L.link
  | none => 2 ^ 31 + ((p.assocs.find? fun a => a.st != .bound).map (·.peer)).getD 0

/-! ### The commands -/

/-- LAUNCH: checks, binding, and the start of the program. The rules give no status for a window section with an uncorrectable block:
LAUNCH completes MEM_UNCORRECTABLE and the context is not faulted (DESIGN CHOICE, log 130). -/
def execLaunch (q seq : Nat) (s : State) : Host.Outcome State Fault Refusal :=
  .next (onCmd s q seq 0x0302 fun s t =>
    match ctxAt s t.context with
    | none => refuse s q seq stBadParam
    | some c =>
      match c.image with
      | none => refuse s q seq stBadParam
      | some im =>
        if programRuns c then refuse s q seq stBadParam
        else
          match readSections (hostReader t.context q) im (im.sections.filter fun x => x.type = 0x0005) s with
          | (s, none) => refuse s q seq stMemUncorrectable
          | (s, some l) =>
            match badWindow l, im.decls.queues.find? (badBond s) with
            | some (st, pier, i), _ => finish s q seq st [pier, i]
            | none, some d => finish s q seq stBadParam [d.link]
            | none, none =>
              let s := modCtx (dropWaits s t.context) t.context fun c => { c with program := some (freshProgram s c im q seq) }
              checkBound (sendBinds s t.context) t.context)

/-- UNLOAD: remove the image and release its queues (R337); its sampling session ends (R421), its media configuration is no
longer in force (R294), and feeds still outstanding end (log 35). -/
def execUnload (q seq : Nat) (s : State) : Host.Outcome State Fault Refusal :=
  .next (onCmd s q seq 0x0303 fun s t =>
    match ctxAt s t.context with
    | none => refuse s q seq stBadParam
    | some c =>
      if programRuns c ∨ c.image.isNone then refuse s q seq stBadParam
      else
        let s := endProgramCommands (endSampling s t.context) t.context stBadParam
        finish (modCtx s t.context fun c => { c with image := none, program := none, apr := none }) q seq stOk [])

/-- TOKEN_SIGNAL: a host token (R44, R337). It completes when the count has moved; until there is room it waits. -/
def execTokenSignal (q seq : Nat) (s : State) : Host.Outcome State Fault Refusal :=
  .next (onCmd s q seq 0x0304 fun s t =>
    match progAt s t.context, (imageAt s t.context).bind fun im => tokenDecl im (t.param 0) with
    | some p, some d =>
      if d.producer != .host || !tokenN d (t.param 1) || p.st == .faulted then refuse s q seq stBadParam
      else if tokenRoom s t.context d (t.param 1) then finish (opDone (signalToken s t.context d (t.param 1)) t.context) q seq stOk []
      else s
    | _, _ => refuse s q seq stBadParam)

/-- The code of a queue state in SPAN_QUERY (R337). -/
def queueCode : QueueState → Nat
  | .unbound => 0
  | .binding => 1
  | .opened => 2
  | .faulted => 3

/-- SPAN_QUERY's reply for a queue of the program (R337). The mb_id is read where the head's descriptor lies; an uncorrectable one is
handed on to no one and faults the context (R190, R255; log 136). -/
def spanReply (s : State) (n : Nat) (im : Image) (x : SpanQueue) (version : Nat) : State × Option (List Nat) :=
  match x.link.filter (·.sending) with
  | some L => (s, some [queueCode x.st, x.decl.depth - linkCredit x.decl L, 0, version])
  | none =>
    if (slotAt x x.headAt).st = .filling ∨ (slotAt x x.headAt).st = .full then
      match readSlot s n im x x.headAt 0 4 with
      | (s, none) => (s, none)
      | (s, some b) => (s, some [queueCode x.st + 256, occupancy x, field b 0 4, version])
    else (s, some [queueCode x.st, occupancy x, 0, version])

/-- SPAN_QUERY: the state of a queue. -/
def execSpanQuery (q seq : Nat) (s : State) : Host.Outcome State Fault Refusal :=
  .next (onCmd s q seq 0x0401 fun s t =>
    match ctxAt s t.context with
    | none => refuse s q seq stBadParam
    | some c =>
      match c.image with
      | none => finish s q seq stOk [0, 0, 0, c.version]
      | some im =>
        match c.program.bind fun p => spanQueueAt p (t.param 0) with
        | none => finish s q seq stOk [0, 0, 0, c.version]
        | some x =>
          match spanReply s t.context im x c.version with
          | (s, some p) => finish s q seq stOk p
          | (s, none) => refuse s q seq stMemUncorrectable)

/-- STAY_QUERY: the state of a schedule entry, on the lowest tile that has it (log 20). -/
def execStayQuery (q seq : Nat) (s : State) : Host.Outcome State Fault Refusal :=
  .next (onCmd s q seq 0x0501 fun s t =>
    match ctxAt s t.context with
    | none => refuse s q seq stBadParam
    | some c =>
      let e := t.param 0
      let runs := ((c.program.map (·.stays)).getD [])
      let open_ := runs.any fun x => x.outstanding.any fun r => r.entry = e
      let last := (runs.findSome? fun x => assoc x.lastStep e).getD 0
      let first := (runs.findSome? fun x => assoc x.lastFirst e).getD 0xFFFF
      finish s q seq stOk [if open_ then 1 else 0, last, first])

end Sys2Proof.Machine
end

