-- ==== Sys2Proof/Machine/Links.lean ====
section
/-! DEFINITION. Span frames as they reach an end of a link (07 R176 to R182), Stay frames as they reach an end of an association
(08 R224), their timers, and the bind window (07 R182). -/

namespace Sys2Proof.Machine

/-- Take a delivered frame with this payload out of the package's inbox. -/
def takeInbox (s : State) (src klass : Nat) (payload : List Byte) : State :=
  match s.pylon.inbox.find? fun f => f.src == src && f.klass == klass && f.payload == payload with
  | none => s
  | some f => { s with pylon := { s.pylon with inbox := s.pylon.inbox.erase f } }

/-! ### Span links -/

/-- A link of a program by its link ID: context and queue. -/
def findLink (s : State) (ok : SpanLink → Bool) : Option (Nat × Nat) :=
  (List.range 16).findSome? fun n =>
    (progAt s n).bind fun p => (p.queues.find? fun x => x.link.any ok).map fun x => (n, x.decl.queue)

def isEnd (link src : Nat) (L : SpanLink) : Bool := L.link == link && L.peer == src

/-- A DESC frame: the descriptor opens the next slot, a continuation adds segments (R178). -/
def onDesc (s : State) (n : Nat) (im : Image) (x : SpanQueue) (cont : Bool) (body : List Byte) : State :=
  if !cont then
    let i := x.fillAt
    let s := writeSlot (beginSlot s n x.decl.queue i) n im x i 0 body
    modSlot s n x.decl.queue i fun y => { y with segsSeen := (body.length - 64) / 8 }
  else
    let i := (x.fillAt + x.slots.length - 1) % x.slots.length
    let seen := (slotAt x i).segsSeen
    let s := writeSlot s n im x i (64 + 8 * seen) body
    modSlot s n x.decl.queue i fun y => { y with segsSeen := seen + body.length / 8 }

/-- A DATA frame goes into the slot that fills; the last one makes it FULL (R177, R188). -/
def onData (s : State) (n : Nat) (im : Image) (x : SpanQueue) (last : Bool) (off : Nat) (body : List Byte) : State :=
  let i := (x.fillAt + x.slots.length - 1) % x.slots.length
  if (slotAt x i).st != .filling then s
  else
    let s := writeSlot s n im x i off body
    if last && !faultedIn s n then fullSlot s n im x.decl.queue i else s

/-- An instruction of a stage acts on the queue: PUSH, POP and RELEASE name it, FORK and JOIN a group with it as a branch
(R195). -/
def actsOn (im : Image) (x : SpanQueue) (w : Nat) : Bool :=
  let op := opcodeOf w
  let i := (generalOf w).index
  if op = 0x10 ∨ op = 0x11 ∨ op = 0x12 then i == x.decl.queue
  else if op = 0x13 ∨ op = 0x14 then
    im.decls.groups.any fun g => g.index == i && g.kind == op - 0x13 && (g.queues.take g.branches).contains x.decl.queue
  else false

/-- Operations of the own program are outstanding on the link (R181): a slot or a credit is out, or a pier stands at an
operation on the queue. -/
def linkBusy (s : State) (n : Nat) (im : Image) (x : SpanQueue) (L : SpanLink) : Bool :=
  let at_ := fun p : Nat => actsOn im x (peekWord s im p)
  decide (0 < occupancy x) || (L.sending && L.sent != L.released) || (s.sched.active == some n && (allPiers im).any at_)

/-- A BIND frame (R182). -/
def onBind (s : State) (n q : Nat) (L : SpanLink) (digest : List Byte) : State :=
  if L.st != .binding then s
  else if digest = L.digest then
    checkBound (modLink s n q fun L => { L with st := .bound, heardAt := s.time, sentAt := s.time }) n
  else refuseLaunch s n stBadParam L.link

/-- A frame that the link discards is counted (R177). -/
def discardSpan (s : State) (n q : Nat) : State :=
  countCtx (modLink s n q fun L => { L with errors := L.errors + 1 }) n 2 q 6 1

/-- Act on a Span frame in order; one of a reserved type is discarded and counted (R177). -/
def actSpan (s : State) (n q : Nat) (f : SpanFrame) : State :=
  match progAt s n, imageAt s n with
  | some p, some im =>
    match spanQueueAt p q with
    | none => s
    | some x =>
      match x.link with
      | none => s
      | some L =>
        if f.type = 6 then onBind s n q L f.body
        else if L.st != .bound then discardSpan s n q
        else if f.type = 1 then onDesc s n im x (bit f.flags 1) f.body
        else if f.type = 2 then onData s n im x (bit f.flags 0) f.value f.body
        else if f.type = 3 then modLink s n q fun L => { L with released := f.value }
        else if f.type = 5 then peerLost s n L.link L.peer f.value
        else if f.type = 7 then
          (if linkBusy s n im x L then peerLost s n L.link L.peer 0 else modLink s n q fun L => { L with st := .closed })
        else if f.type = 4 then s
        else discardSpan s n q
  | _, _ => s

/-- Act on the frames that are next in order; the fuel is the number of frames held. -/
def drainSpan : Nat → State → Nat → Nat → State
  | 0, s, _, _ => s
  | k + 1, s, n, q =>
    match linkAt s n q with
    | none => s
    | some L =>
      match L.ahead.find? fun f => f.seq = L.rxSeq with
      | none => s
      | some f =>
        let s := modLink s n q fun L => { L with rxSeq := add32 L.rxSeq 1, ahead := L.ahead.erase f }
        drainSpan k (actSpan s n q f) n q

/-- A Span frame that reaches no bound end. An ABANDON on a link that an own fault has ended is still logged with the peer's
status (R205); a BIND may come before this end's launch and waits for it; any other frame is discarded and counted, and one whose
src is not the link's peer is logged too (R177, R241, R248). -/
def strayingSpan (s : State) (src : Nat) (f : SpanFrame) : State :=
  match findLink s (fun L => isEnd f.link src L), findLink s fun L => L.link == f.link with
  | some (n, q), _ =>
    if f.type = 6 then s
    else
      let s := takeInbox s src 1 (encodeSpan f)
      if f.type = 5 && (linkAt s n q).any (·.st == .failed) then peerLost s n f.link src f.value else discardSpan s n q
  | none, some (n, q) => discardFrame (discardSpan (takeInbox s src 1 (encodeSpan f)) n q) none (ownId s)
  | none, none => if f.type = 6 then s else discardFrame (takeInbox s src 1 (encodeSpan f)) none (ownId s)

/-- A Span frame arrives: the deadline restarts, and order is restored by seq (R176, R180). -/
def recvSpan (s : State) (src : Nat) (f : SpanFrame) : State :=
  match findLink s fun L => isEnd f.link src L && (L.st == .bound || L.st == .binding) with
  | none => strayingSpan s src f
  | some (n, q) =>
    let s := takeInbox s src 1 (encodeSpan f)
    match linkAt s n q with
    | none => s
    | some L =>
      let old := before32 f.seq L.rxSeq || L.ahead.any fun g => g.seq = f.seq
      let s := modLink s n q fun L => { L with heardAt := s.time, ahead := if old then L.ahead else L.ahead ++ [f] }
      drainSpan (L.ahead.length + 1) s n q

/-- SPAN_DESC: a descriptor or a continuation of a segment table. -/
def execSpanDesc (link src seq : Nat) (cont : Bool) (slot : Nat) (body : List Byte) (s : State) :
    Host.Outcome State Fault Refusal :=
  .next (if running s then recvSpan s src { type := 1, flags := flag cont 1, link, seq, value := slot, body } else s)

/-- SPAN_DATA: payload bytes of a slot. -/
def execSpanData (link src seq : Nat) (last : Bool) (offset : Nat) (body : List Byte) (s : State) :
    Host.Outcome State Fault Refusal :=
  .next (if running s then recvSpan s src { type := 2, flags := flag last 0, link, seq, value := offset, body } else s)

/-- SPAN_CREDIT: the cumulative RELEASE count. -/
def execSpanCredit (link src seq released : Nat) (s : State) : Host.Outcome State Fault Refusal :=
  .next (if running s then recvSpan s src { type := 3, flags := 0, link, seq, value := released, body := [] } else s)

/-- SPAN_HEARTBEAT: the peer is alive. -/
def execSpanHeartbeat (link src seq : Nat) (s : State) : Host.Outcome State Fault Refusal :=
  .next (if running s then recvSpan s src { type := 4, flags := 0, link, seq, value := 0, body := [] } else s)

/-- SPAN_ABANDON: the peer's context has faulted. -/
def execSpanAbandon (link src seq status : Nat) (s : State) : Host.Outcome State Fault Refusal :=
  .next (if running s then recvSpan s src { type := 5, flags := 0, link, seq, value := status, body := [] } else s)

/-- SPAN_BIND: the peer's digest. -/
def execSpanBind (link src seq : Nat) (digest : List Byte) (s : State) : Host.Outcome State Fault Refusal :=
  .next (if running s then recvSpan s src { type := 6, flags := 0, link, seq, value := 0, body := digest } else s)

/-- SPAN_CLOSE: the peer closes the link. -/
def execSpanClose (link src seq : Nat) (s : State) : Host.Outcome State Fault Refusal :=
  .next (if running s then recvSpan s src { type := 7, flags := 0, link, seq, value := 0, body := [] } else s)

/-- SPAN_HEARTBEAT_TIMER: 1 µs without a frame sent on a bound link (R179). -/
def execSpanHeartbeatTimer (link : Nat) (s : State) : Host.Outcome State Fault Refusal :=
  .next (match running s, findLink s fun L => L.link == link && L.st == .bound with
    | true, some (n, q) =>
      match linkAt s n q with
      | some L => sendSpan (advanceTo s (L.sentAt + 1000)) n q 0x04 0 0 []
      | none => s
    | _, _ => s)

/-- SPAN_PEER_DEADLINE: 4 µs without a frame on a bound link, unless retry activity pauses it (R180). -/
def execSpanPeerDeadline (link : Nat) (s : State) : Host.Outcome State Fault Refusal :=
  .next (match running s, findLink s fun L => L.link == link && L.st == .bound with
    | true, some (n, q) =>
      match linkAt s n q with
      | some L => if linkPaused s L then s else peerLost (advanceTo s (L.heardAt + 4000)) n L.link L.peer 0
      | none => s
    | _, _ => s)

/-- BIND_WINDOW_EXPIRY: a BIND has not arrived within 60 s of the launch (R182). -/
def execBindWindowExpiry (ctx : Nat) (s : State) : Host.Outcome State Fault Refusal :=
  .next (match running s, progAt s ctx with
    | true, some p =>
      if p.st == .binding then
        let s := advanceTo s (p.bindAt + 60000000000)
        refuseLaunch (sendCloses s ctx) ctx stTimeout (unbound p)
      else s
    | _, _ => s)

/-! ### Stay associations -/

/-- The context whose association with a peer a frame reaches: the active one's first. -/
def findAssoc (s : State) (peer : Nat) (ok : Assoc → Bool) : Option Nat :=
  let has := fun n => (assocAt s n peer).any ok
  (s.sched.active.filter has).or ((List.range 16).find? has)

/-- Change the first stream of a key that is still open, or begin one. -/
def modStream (l : List StayInbox) (key : StayInbox → Bool) (open_ : StayInbox → Bool) (new : StayInbox)
    (f : StayInbox → StayInbox) : List StayInbox :=
  match l.findIdx? fun b => key b && open_ b with
  | some i => modAt l i f
  | none => l ++ [f new]

/-- A frame that the association discards is counted (R224). -/
def discardStay (s : State) (n peer tile : Nat) : State :=
  countCtx (modAssoc s n peer fun A => { A with errors := A.errors + 1 }) n 3 tile 3 1

/-- The lowest free frame of a tile's staging range among those for arrivals (log 18). -/
def freeFrame (x : StayRun) (frames : Nat) : Option Nat := (List.range frames).find? fun i => !(usedFrames x).contains i

/-- A DATA frame goes into the staging range, a TRAILER frame beside it (R224, R226), and the engine runs on. A frame for no entry,
or beyond the range, is discarded. -/
def holdStay (s : State) (n tile peer : Nat) (f : StayFrame) : State :=
  match (imageAt s n).bind (fun im => collOf n im tile f.entry), stayAt s n tile with
  | some c, some x =>
    let rank := c.t.packages.idxOf peer
    let key := fun b : StayInbox => b.entry == f.entry && b.piece == f.piece && b.fromRank == rank
    let new : StayInbox := { entry := f.entry, piece := f.piece, fromRank := rank, frames := [], ended := false, trailer := none }
    if f.type = 0x17 then
      runStays (modStay s n tile fun x =>
        { x with inbox := modStream x.inbox key (fun b => b.trailer.isNone) new fun b => { b with trailer := some (decodeTrailer f.body) } }) n
    else
      match freeFrame x (arrivalFrames s n c.im) with
      | none => discardStay s n peer tile
      | some i =>
        let s := c.write s (c.slotAddr i) f.body
        let put := fun b : StayInbox =>
          { b with frames := b.frames ++ [{ slot := i, offset := f.value, size := f.body.length, last := bit f.flags 0 }] }
        let isOpen := fun b : StayInbox => !b.ended && b.trailer.isNone && !b.frames.any (·.last)
        runStays (modStay s n tile fun x => { x with inbox := modStream x.inbox key isOpen new put }) n
  | _, _ => discardStay s n peer tile

/-- Operations of the own program are outstanding on an association (R181, R224). -/
def assocBusy (s : State) (n peer : Nat) (A : Assoc) : Bool :=
  !A.backlog.isEmpty || (((progAt s n).map (·.stays)).getD []).any fun x => x.outstanding.any fun r =>
    ((imageAt s n).bind fun im => collOf n im x.tile r.entry).any fun c => (entryPeers c.sched c.e).contains peer && !r.finished

/-- A BIND on an association (R224). -/
def onStayBind (s : State) (n peer : Nat) (A : Assoc) (digest : List Byte) : State :=
  if A.st != .binding then s
  else if digest = A.digest then
    checkBound (modAssoc s n peer fun A => { A with st := .bound, heardAt := s.time, sentAt := s.time }) n
  else refuseLaunch s n stBadParam (2 ^ 31 + peer)

/-- Act on a Stay frame in order. -/
def actStay (s : State) (n peer tile : Nat) (f : StayFrame) : State :=
  match assocAt s n peer with
  | none => s
  | some A =>
    if f.type = 0x15 then onStayBind s n peer A f.body
    else if A.st != .bound then discardStay s n peer tile
    else if f.type = 0x11 ∨ f.type = 0x17 then holdStay s n tile peer f
    else if f.type = 0x12 then
      let s := modAssoc s n peer fun A => { A with granted := f.value }
      if s.sched.active == some n && s.sched.incoming.isNone then drainBacklog (A.backlog.length) s n peer else s
    else if f.type = 0x14 then peerLost s n (2 ^ 31 + peer) peer f.value
    else if f.type = 0x16 then
      (if assocBusy s n peer A then peerLost s n (2 ^ 31 + peer) peer 0 else modAssoc s n peer fun A => { A with st := .closed })
    else if f.type = 0x13 then s
    else discardStay s n peer tile

def drainStay : Nat → State → Nat → Nat → State
  | 0, s, _, _ => s
  | k + 1, s, n, peer =>
    match assocAt s n peer with
    | none => s
    | some A =>
      match A.ahead.find? fun f => f.2.seq = A.rxSeq with
      | none => s
      | some f =>
        let s := modAssoc s n peer fun A => { A with rxSeq := add32 A.rxSeq 1, ahead := A.ahead.erase f }
        drainStay k (actStay s n peer f.1 f.2) n peer

/-- A Stay frame that reaches no bound end. An ABANDON on an association that an own fault has ended is still logged with the
peer's status (R205, R224); a BIND may come before this end's launch and waits for it; any other frame is discarded and counted,
and one whose src is no association's peer is logged too (R224, R241, R248). -/
def strayingStay (s : State) (peer tile : Nat) (f : StayFrame) : State :=
  match findAssoc s peer fun _ => true with
  | some n =>
    if f.type = 0x15 then s
    else
      let s := takeInbox s peer 2 (encodeStay f)
      if f.type = 0x14 && (assocAt s n peer).any (·.st == .failed) then peerLost s n (2 ^ 31 + peer) peer f.value
      else discardStay s n peer tile
  | none =>
    if f.type = 0x15 then s
    else
      let s := discardFrame (takeInbox s peer 2 (encodeStay f)) none (ownId s)
      match s.sched.active with
      | some n => countCtx s n 3 tile 3 1
      | none => s

/-- A Stay frame arrives: the deadline restarts, and order is restored by seq. An ABANDON decides over a trailer that it meets
(R224, R226). -/
def recvStay (s : State) (peer tile : Nat) (f : StayFrame) : State :=
  match findAssoc s peer fun A => A.st == .bound || A.st == .binding with
  | none => strayingStay s peer tile f
  | some n =>
    let s := takeInbox s peer 2 (encodeStay f)
    match assocAt s n peer with
    | none => s
    | some A =>
      let old := before32 f.seq A.rxSeq || A.ahead.any fun g => g.2.seq = f.seq
      if f.type = 0x14 && A.st == .bound && !old then peerLost s n (2 ^ 31 + peer) peer f.value
      else
        let s := modAssoc s n peer fun A => { A with heardAt := s.time, ahead := if old then A.ahead else A.ahead ++ [(tile, f)] }
        drainStay (A.ahead.length + 1) s n peer

/-- STAY_DATA: bytes of a term or of a transport shard. -/
def execStayData (peer tile seq entry piece : Nat) (last : Bool) (offset : Nat) (body : List Byte) (s : State) :
    Host.Outcome State Fault Refusal :=
  .next (if running s then recvStay s peer tile { type := 0x11, flags := flag last 0, entry, piece, seq, value := offset, body } else s)

/-- STAY_CREDIT: the cumulative frames granted. -/
def execStayCredit (peer tile seq granted : Nat) (s : State) : Host.Outcome State Fault Refusal :=
  .next (if running s then recvStay s peer tile { type := 0x12, flags := 0, entry := 0, piece := 0, seq, value := granted, body := [] } else s)

/-- STAY_HEARTBEAT: the peer is alive. -/
def execStayHeartbeat (peer tile seq : Nat) (s : State) : Host.Outcome State Fault Refusal :=
  .next (if running s then recvStay s peer tile { type := 0x13, flags := 0, entry := 0, piece := 0, seq, value := 0, body := [] } else s)

/-- STAY_ABANDON: the peer's context has faulted. -/
def execStayAbandon (peer tile seq status : Nat) (s : State) : Host.Outcome State Fault Refusal :=
  .next (if running s then recvStay s peer tile { type := 0x14, flags := 0, entry := 0, piece := 0, seq, value := status, body := [] } else s)

/-- STAY_BIND: the peer's digest. -/
def execStayBind (peer tile seq : Nat) (digest : List Byte) (s : State) : Host.Outcome State Fault Refusal :=
  .next (if running s then recvStay s peer tile { type := 0x15, flags := 0, entry := 0, piece := 0, seq, value := 0, body := digest } else s)

/-- STAY_CLOSE: the peer closes the association. -/
def execStayClose (peer tile seq : Nat) (s : State) : Host.Outcome State Fault Refusal :=
  .next (if running s then recvStay s peer tile { type := 0x16, flags := 0, entry := 0, piece := 0, seq, value := 0, body := [] } else s)

/-- STAY_TRAILER: a trailer, on its way up to be merged, or on its way down as the verdict. -/
def execStayTrailer (peer tile seq entry piece : Nat) (body : List Byte) (s : State) : Host.Outcome State Fault Refusal :=
  .next (if running s then recvStay s peer tile { type := 0x17, flags := 0, entry, piece, seq, value := 0, body } else s)

/-- STAY_HEARTBEAT_TIMER: 1 µs without a frame sent on a bound association (R224). -/
def execStayHeartbeatTimer (peer : Nat) (s : State) : Host.Outcome State Fault Refusal :=
  .next (match running s, findAssoc s peer fun A => A.st == .bound with
    | true, some n =>
      match assocAt s n peer with
      | some A =>
        putStay (advanceTo s (A.sentAt + 1000)) n peer 0
          { type := 0x13, flags := 0, entry := 0, piece := 0, seq := 0, value := 0, body := [] }
      | none => s
    | _, _ => s)

/-- STAY_PEER_DEADLINE: 4 µs without a frame on a bound association (R224). -/
def execStayPeerDeadline (peer : Nat) (s : State) : Host.Outcome State Fault Refusal :=
  .next (match running s, findAssoc s peer fun A => A.st == .bound with
    | true, some n =>
      match assocAt s n peer with
      | some A => if assocPaused s A then s else peerLost (advanceTo s (A.heardAt + 4000)) n (2 ^ 31 + peer) peer 0
      | none => s
    | _, _ => s)

end Sys2Proof.Machine
end

