-- ==== Sys2Proof/Machine/Pylon.lean ====
section
/-! DEFINITION. Pylon ports (chapter 09): frames with retry and flow control, training, give-up, recalibration, package ID and
routes. -/

namespace Sys2Proof.Machine

/-! ### Acknowledgement and replay (R235, R236) -/

/-- A frame whose lseq the ack covers. -/
def acked (ack : Nat) (t : TxFrame) : Bool := before32 t.frame.lseq ack

/-- The frame that ends the retry activity has been acknowledged. -/
def activityOver (P : Port) : Bool :=
  match P.activity with
  | none => false
  | some a => !P.retry.any fun t => !before32 a.2 t.frame.lseq

/-- The port leaves ACTIVE: lanes off, or training anew; a training that follows starts from saved coefficients (R231). -/
def offPort (P : Port) (st : PortState) (now : Nat) : Port :=
  { P with st, since := now, sub := 0, subSince := now, fromSaved := st == .retrain || st == .recal, inService := false, retry := []
           waiting := [], nakSent := false, activity := none, holdTo := [], recal := none, disabling := [] }

/-- A bound link whose bond has the port. -/
def onPort (p : Nat) (L : SpanLink) : Bool := L.st == .bound && L.ports.contains p

/-- The port is ACTIVE and in its bonds and routes, those included from which it drains for a recalibration (R246, R247). -/
def inBonds (P : Port) : Bool := P.st == .active && (P.inService || P.recal.isSome)

/-- Fail the links of a bond that has no ACTIVE port left (R180, R238). -/
def failBonds (s : State) (p : Nat) : State :=
  (List.range 16).foldl (fun s n =>
    let qs := ((progAt s n).map (·.queues)).getD []
    qs.foldl (fun s x =>
      match (linkAt s n x.decl.queue).filter (onPort p) with
      | none => s
      | some L => if L.ports.any fun k => inBonds (portAt s k) then s else peerLost s n L.link L.peer 0) s) s

/-- The commands that act on a port which is now off end: a recalibration with TIMEOUT (log 122), each disable with OK (R245). -/
def endPortCommands (s : State) (P : Port) : State :=
  let s := match P.recal.bind (·.cmd) with
    | some c => finish s c.1 c.2 stTimeout []
    | none => s
  P.disabling.foldl (fun s c => finish s c.1 c.2 stOk []) s

/-! ### Leaving bonds and routes (R237, R238) -/

/-- Send a frame of port p again on a port of its bond or mask (R238): with no other left, on p itself while that drains for a
recalibration (R247). -/
def resend (p : Nat) (s : State) (x : Option Nat × PylonFrame) : State :=
  let f := x.2
  if f.klass = 1 && f.src == ownId s then
    let mine := fun L : SpanLink => L.link == field f.payload 2 2 && L.peer == f.dst && L.ports.contains p
    match (findLink s mine).bind fun x => linkAt s x.1 x.2 with
    | none => s
    | some L =>
      match bondPort s L with
      | some k => giveFrame s k x
      | none => s
  else sendRouted s x

/-- Move every frame that the port still holds to other ports, in lseq order (R238, R246). -/
def moveFrames (s : State) (p : Nat) (fs : List (Option Nat × PylonFrame)) : State := fs.foldl (resend p) s

/-- Frames that the port holds: unacknowledged ones in lseq order, then those that wait (R238). -/
def framesOf (P : Port) : List (Option Nat × PylonFrame) := P.retry.map (fun t => (none, t.frame)) ++ P.waiting

/-- Switch a port off for a disable (R245); frames left on it go elsewhere, and its bonds may have lost their last port (R248). -/
def switchOff (s : State) (p : Nat) : State :=
  let P := portAt s p
  failBonds (moveFrames (endPortCommands (modPort s p fun P => offPort P .disabled s.time) P) p (framesOf P)) p

/-- Disables that waited for the retry buffer complete (R245). -/
def settleDisable (s : State) (p : Nat) : State :=
  if !(portAt s p).disabling.isEmpty && (portAt s p).retry.isEmpty then switchOff s p else s

/-- Apply an ack: frames leave the retry buffer, activity may end, waiting frames go out. -/
def applyAck (s : State) (p ack : Nat) : State :=
  let moved := (portAt s p).retry.any (acked ack)
  let s := modPort s p fun P =>
    { P with retry := P.retry.filter fun t => !acked ack t, ackAt := if moved then s.time else P.ackAt }
  let s := if activityOver (portAt s p) then endActivity s p else s
  settleDisable (pumpPort s p) p

/-- The port enters FAILED (R232); frames left on it go elsewhere. -/
def failPort (s : State) (p reason : Nat) : State :=
  let P := portAt s p
  let s := modPort s p fun P => offPort P .failed s.time
  let s := logError s 0x0021 0 sevWarning srcPylon p 0xFF [p, reason]
  failBonds (moveFrames (endPortCommands s P) p (framesOf P)) p

/-- Entries to RETRAIN within the last 60 s (R232). -/
def recentRetrains (P : Port) (now : Nat) : List Nat := P.retrains.filter fun t => decide (now < t + 60000000000)

/-- Reasons that cause 0x0021 carries (log 21). -/
def reasonGiveUp : Nat := 1
def reasonAttempts : Nat := 2
def reasonRetrain : Nat := 3
def reasonRetrains : Nat := 4
def reasonVersion : Nat := 5
def reasonDuplicate : Nat := 6

/-- The port gives up: it leaves its bonds and routes and enters RETRAIN; its frames, and the notices that its activity is over, go out
elsewhere (R236 to R238). A disable that waited for its frames then finds none left, and switches the port off from RETRAIN (R245). -/
def giveUp (s : State) (p : Nat) : State :=
  let s := modPort s p fun P => { P with inService := false }
  let s := if (portAt s p).activity.isSome then endActivity s p else s
  let P := portAt s p
  let s := count (count s 4 p 12 1) 4 p 11 1
  let s := logError s 0x0021 0 sevWarning srcPylon p 0xFF [p, reasonGiveUp]
  let tries := recentRetrains P s.time ++ [s.time]
  let s := match P.recal.bind (·.cmd) with
    | some c => finish s c.1 c.2 stTimeout []
    | none => s
  let s := modPort s p fun P => { offPort P .retrain s.time with retrains := tries, disabling := P.disabling }
  let s := moveFrames s p (framesOf P)
  if 3 ≤ tries.length then failPort s p reasonRetrains else settleDisable (failBonds s p) p

/-- Send every unacknowledged frame again, from the oldest, or give up where one has been sent 8 times (R235, R237). -/
def replay (s : State) (p : Nat) : State :=
  if (portAt s p).retry.any fun t => decide (8 ≤ t.sends) then giveUp s p
  else
    let k := (portAt s p).retry.length
    let s := modPort s p fun P =>
      { P with retry := P.retry.map fun t => { t with sends := t.sends + 1, frame := { t.frame with ack := P.rxSeq } }, ackAt := s.time }
    count s 4 p 9 k

/-- Ask for a replay, once until the missing frame arrives (R235). -/
def sendNak (s : State) (p : Nat) : State :=
  if (portAt s p).nakSent then s
  else
    let s := sendCtl (modPort s p fun P => { P with nakSent := true }) p (.nak (portAt s p).rxSeq)
    beginActivity (count s 4 p 7 1) p

/-! ### Frames (R235, R242) -/

/-- The Span frame that a payload spells (R177). -/
def decodeSpan (b : List Byte) : SpanFrame :=
  { type := field b 0 1, flags := field b 1 1, link := field b 2 2, seq := field b 4 4, value := field b 8 4, body := slice b 16 (field b 12 4) }

/-- The Stay frame that a payload spells (R224). -/
def decodeStay (b : List Byte) : StayFrame :=
  { type := field b 0 1, flags := field b 1 1, entry := field b 2 2, piece := field b 4 2, seq := field b 8 4, value := field b 12 4
    body := slice b 16 (field b 6 2) }

/-- Discard a frame that R233 or R234 has discarded and counted: DISCARDS counts those of R242 only (R412). -/
def dropOdd (s : State) (p : Nat) : State := modPort s p fun P => { P with discarded := P.discarded + 1 }

/-- A frame for this package: its engine's row takes it. One of a reserved Span or Stay type goes to its link or association, which
discards and counts it in turn (R177, R224); a notice of any other type is discarded and counted (R234). -/
def deliverFrame (s : State) (p : Nat) (f : PylonFrame) : State :=
  let type := field f.payload 0 1
  let known := if f.klass = 1 then between 1 7 type else if f.klass = 2 then between 0x11 0x17 type else between 0x10 0x11 type
  if known then { s with pylon := { s.pylon with inbox := s.pylon.inbox ++ [f] } }
  else if f.klass = 1 then recvSpan s f.src (decodeSpan f.payload)
  else if f.klass = 2 then recvStay s f.src f.dstTile (decodeStay f.payload)
  else dropOdd s p

/-- Hand an accepted frame on: to this package, or to the next port (R242); discarded and counted where its class or length is none
of R233's. It takes its hop class's buffer until it leaves the package (R235). -/
def forward (s : State) (p : Nat) (f : PylonFrame) : State :=
  let here := fun s : State => regrant s p f.hops (frameKib f)
  if !classOk f then here (dropOdd s p)
  else if s.pylon.pkgId = some f.dst then here (deliverFrame s p f)
  else if 7 ≤ f.hops then here (discardFrame s (some p) f.dst)
  else sendRouted s (some p, { f with hops := f.hops + 1 })

/-- NAK: the partner asks for a replay. -/
def arriveNak (s : State) (p lseq : Nat) : State :=
  let s := applyAck (count s 4 p 8 1) p lseq
  if (portAt s p).retry.isEmpty then s else replay (beginActivity s p) p

/-- Send CONFIG, once the package has an ID (R234, R241). -/
def sendConfig (s : State) (p : Nat) : State :=
  match s.pylon.pkgId with
  | some id => sendCtl s p (.config id p 1 256)
  | none => s

/-- The port stands in a state, or in the sub-state of RETRAIN and RECAL that repeats it. -/
def trains (P : Port) (st : PortState) (sub : Nat) : Bool := P.st == st || ((P.st == .retrain || P.st == .recal) && P.sub == sub)

/-- KiB of the port's hop-class buffers that frames which arrived there still take (R235). -/
def heldKib (s : State) (p h : Nat) : Nat :=
  (s.pylon.ports.map fun P => ((P.waiting.filter fun x => x.1 == some p && x.2.hops == h + 1).map fun x => frameKib x.2).sum).sum

/-- The port becomes ACTIVE (R231, R246); sequence numbers and credit begin anew (log 22), and frames that wait stay. -/
def activate (s : State) (p pkg farPort : Nat) : State :=
  let P := portAt s p
  let known := (P.recal.bind (·.neighbour)).or P.neighbour
  let same := P.st == .config || known.all fun x => x.1 == pkg
  let s := modPort (dropArrivals s p) p fun P =>
    { Port.fresh with
      st := .active, since := s.time, waiting := P.waiting, retrains := P.retrains, neighbour := some (pkg, farPort), inService := same && P.recal.all (·.inBonds)
      granted := (List.range 8).map fun h => 32 - heldKib s p h, ctlOut := P.ctlOut, ber := P.ber, ackAt := s.time
      discarded := P.discarded }
  let s := sendCtl s p (.credit (portAt s p).granted)
  match P.recal.bind (·.cmd) with
  | some c => finish s c.1 c.2 (if same then stOk else stBadParam) []
  | none => s

/-- CONFIG: the partner's identity (R231, R232, R241). -/
def arriveConfig (s : State) (p pkg farPort version : Nat) : State :=
  if (portAt s p).st == .active then sendConfig s p
  else if !trains (portAt s p) .config 2 then s
  else
    match s.pylon.pkgId with
    | none => s
    | some id =>
      if version ≠ 1 then failPort s p reasonVersion
      else if pkg = id then failPort (logError s 0x0022 0 sevWarning srcPylon p 0xFF [p, id]) p reasonDuplicate
      else activate (sendConfig s p) p pkg farPort

/-- Stop giving new frames to the port; those that wait go elsewhere (R246 steps 3 and 4). -/
def withhold (s : State) (p : Nat) : State :=
  let ws := (portAt s p).waiting
  moveFrames (modPort s p fun P => { P with inService := false, waiting := [] }) p ws

/-- RECAL_REQ: the partner asks to recalibrate; a request of this end takes it for its acknowledgement (R246, R247). -/
def arriveRecalReq (s : State) (p : Nat) : State :=
  match (portAt s p).recal with
  | some r => sendCtl (modPort s p fun P => { P with recal := some { r with acked := true } }) p (.recalAck p)
  | none =>
    let r : RecalRun := { cmd := none, acked := true, since := s.time, neighbour := (portAt s p).neighbour, inBonds := (portAt s p).inService }
    sendCtl (withhold (modPort s p fun P => { P with recal := some r }) p) p (.recalAck p)

/-- A link control frame arrives: its ack, as in every frame, then what it says (R233, R234). Only CONFIG means anything to a port
that is not ACTIVE. -/
def arriveCtl (s : State) (a : Arrival) (c : CtlFrame) : State :=
  if !running s then s
  else
    let s := if (portAt s a.port).st == .active then applyAck s a.port a.number else s
    match c, (portAt s a.port).st == .active with
    | .config pkg far version _, _ => arriveConfig s a.port pkg far version
    | .credit g, true => pumpPort (modPort s a.port fun P => { P with credit := g }) a.port
    | .nak lseq, true => arriveNak s a.port lseq
    | .recalReq _, true => arriveRecalReq s a.port
    | .recalAck _, true => modPort s a.port fun P => { P with recal := P.recal.map fun r => { r with acked := true } }
    | _, false => s

/-- A whole frame at an ACTIVE port: its ack, then routed classes in lseq order (R235); link control has no order, and a payload of
any other type is discarded and counted (R234). -/
def arriveFrame (s : State) (p : Nat) (f : PylonFrame) : State :=
  if f.klass = 3 then
    match decodeCtl f.payload with
    | some c => arriveCtl s ⟨p, f.ack⟩ c
    | none => dropOdd (applyAck s p f.ack) p
  else
    let s := applyAck s p f.ack
    if f.lseq = (portAt s p).rxSeq then
      let s := modPort s p fun P => { P with rxSeq := add32 P.rxSeq 1, nakSent := false }
      forward (count (count s 4 p 1 1) 4 p 3 (frameBytes f)) p f
    else if before32 f.lseq (portAt s p).rxSeq then s
    else sendNak s p

/-- FRAME_FORWARD: a frame arrives at a port. -/
def execFrameForward (port : Nat) (frame : WireFrame) (s : State) : Host.Outcome State Fault Refusal :=
  .next (
    if !running s || (portAt s port).st != .active then s
    else
      match decodeFrame frame.bytes, frame.fecGood with
      | some f, true => arriveFrame s port f
      | none, true => sendNak (count s 4 port 6 1) port
      | _, false => sendNak (count s 4 port 5 1) port)

/-- LINK_CREDIT: the partner's cumulative grants. -/
def execLinkCredit (at_ : Arrival) (grants : List Nat) (s : State) : Host.Outcome State Fault Refusal :=
  .next (if grants.length = 8 then arriveCtl s at_ (.credit grants) else s)

/-- LINK_CREDIT_TIMER: the grants are told again. -/
def execLinkCreditTimer (port : Nat) (s : State) : Host.Outcome State Fault Refusal :=
  .next (if running s && (portAt s port).st == .active then sendCtl s port (.credit (portAt s port).granted) else s)

/-- NAK: the partner asks for a replay. -/
def execNak (at_ : Arrival) (lseq : Nat) (s : State) : Host.Outcome State Fault Refusal := .next (arriveCtl s at_ (.nak lseq))

/-- PORT_REPLAY_TIMEOUT: 2 µs with unacknowledged frames and no advance of ack. -/
def execPortReplayTimeout (port : Nat) (s : State) : Host.Outcome State Fault Refusal :=
  .next (
    if running s && (portAt s port).st == .active && !(portAt s port).retry.isEmpty then
      replay (beginActivity (advanceTo s ((portAt s port).ackAt + 2000)) port) port
    else s)

/-- HOLD: a port on the way is in retry activity. -/
def execHold (at_ : Arrival) (pkg farPort : Nat) (s : State) : Host.Outcome State Fault Refusal :=
  .next (if running s then addHold (takeInbox s pkg 4 (holdPayload 0x10 pkg farPort)) pkg farPort (some (at_.port, at_.number)) else s)

/-- HOLD_END: that activity is over. -/
def execHoldEnd (at_ : Arrival) (pkg farPort : Nat) (s : State) : Host.Outcome State Fault Refusal :=
  .next (if running s then endHold (takeInbox s pkg 4 (holdPayload 0x11 pkg farPort)) pkg farPort (some (at_.port, at_.number)) else s)

/-- HOLD_TIMEOUT: 500 µs after the HOLD. -/
def execHoldTimeout (pkg farPort : Nat) (s : State) : Host.Outcome State Fault Refusal :=
  .next (match running s, s.pylon.holds.find? fun h => h.names pkg farPort with
    | true, some h => dropHold (advanceTo s (h.at_ + 500000)) pkg farPort
    | _, _ => s)

/-- PORT_GIVE_UP: a period of retry activity reaches 500 µs, or lock or signal is lost for 10 µs. -/
def execPortGiveUp (port : Nat) (lostLock : Bool) (s : State) : Host.Outcome State Fault Refusal :=
  .next (
    if running s && (portAt s port).st == .active then
      if lostLock then giveUp s port
      else
        match (portAt s port).activity with
        | some a => giveUp (advanceTo s (a.1 + 500000)) port
        | none => s
    else s)

/-! ### Training (R231, R232) -/

/-- Move on to the next training state. -/
def trainTo (s : State) (p : Nat) (st : PortState) (sub : Nat) : State :=
  modPort s p fun P =>
    if P.st == .retrain || P.st == .recal then { P with sub, subSince := s.time } else { P with st, since := s.time }

/-- PORT_SIGNAL_DETECT: a partner is seen. -/
def execPortSignalDetect (port : Nat) (s : State) : Host.Outcome State Fault Refusal :=
  .next (if running s && (portAt s port).st == .detect then trainTo s port .equalise 0 else s)

/-- EQUALISE_COMPLETE: every lane measures 10^-5 or below. -/
def execEqualiseComplete (port : Nat) (s : State) : Host.Outcome State Fault Refusal :=
  .next (if running s && trains (portAt s port) .equalise 0 then trainTo s port .align 1 else s)

/-- ALIGN_COMPLETE: boundaries locked, lanes deskewed. -/
def execAlignComplete (port : Nat) (s : State) : Host.Outcome State Fault Refusal :=
  .next (if running s && trains (portAt s port) .align 1 then sendConfig (trainTo s port .config 2) port else s)

/-- CONFIG: the partner's identity. -/
def execConfig (at_ : Arrival) (pkg farPort version retryKib : Nat) (s : State) : Host.Outcome State Fault Refusal :=
  .next (arriveCtl s at_ (.config pkg farPort version retryKib))

/-- CONFIG_RESEND_TIMER: 10 µs in CONFIG without an answer. -/
def execConfigResendTimer (port : Nat) (s : State) : Host.Outcome State Fault Refusal :=
  .next (if running s && trains (portAt s port) .config 2 then sendConfig s port else s)

/-- When the training state, or the sub-state of RETRAIN and RECAL, reaches its limit (R231): never for CONFIG while no package ID is
set. EQUALISE has 150 ms from default coefficients and 10 ms from saved ones. -/
def trainingLimit (s : State) (P : Port) : Option Nat :=
  match P.st with
  | .equalise => some (P.since + 150000000)
  | .align => some (P.since + 1000000)
  | .config => if s.pylon.pkgId.isSome then some (P.since + 100000) else none
  | .retrain | .recal =>
    some (P.subSince + if P.sub = 1 then 1000000 else if P.sub = 2 then 100000 else if P.fromSaved then 10000000 else 150000000)
  | _ => none

/-- RETRAIN and RECAL as a whole end within 200 ms (R231, R232). -/
def retrainLimit (P : Port) : Option Nat := if P.st == .retrain || P.st == .recal then some (P.since + 200000000) else none

/-- A training attempt has failed: EQUALISE again, from default coefficients; the third in a row fails the port (R231, R232). -/
def failAttempt (s : State) (p : Nat) : State :=
  let P := portAt s p
  if 3 ≤ P.attempts + 1 then failPort (modPort s p fun P => { P with attempts := P.attempts + 1 }) p reasonAttempts
  else if (retrainLimit P).isSome then
    modPort s p fun P => { P with sub := 0, subSince := s.time, fromSaved := false, attempts := P.attempts + 1 }
  else modPort s p fun P => { P with st := .equalise, since := s.time, attempts := P.attempts + 1 }

/-- PORT_TRAINING_TIMEOUT: a training state exceeds its limit, or RETRAIN or RECAL as a whole, whichever comes first. -/
def execPortTrainingTimeout (port : Nat) (s : State) : Host.Outcome State Fault Refusal :=
  .next (
    let P := portAt s port
    match running s, trainingLimit s P, retrainLimit P with
    | true, some l, some r => if r ≤ l then failPort (advanceTo s r) port reasonRetrain else failAttempt (advanceTo s l) port
    | true, some l, none => failAttempt (advanceTo s l) port
    | _, _, _ => s)

/-- PORT_BER_CHECK: the pre-FEC ratio of a full second, × 10^12 (R239). -/
def execPortBerCheck (port berE12 : Nat) (s : State) : Host.Outcome State Fault Refusal :=
  .next (
    if running s && (portAt s port).st == .active then
      let s := modPort s port fun P => { P with ber := berE12 }
      if 10000000 < berE12 then logError s 0x0020 0 sevWarning srcPylon port 0xFF [port, berE12 / 1000] else s
    else s)

/-! ### Recalibration (R245 to R247) -/

/-- RECAL_REQ: the partner asks to recalibrate. -/
def execRecalReq (at_ : Arrival) (s : State) : Host.Outcome State Fault Refusal := .next (arriveCtl s at_ (.recalReq at_.port))

/-- RECAL_REQ_RESEND_TIMER: 10 µs without RECAL_ACK. -/
def execRecalReqResendTimer (port : Nat) (s : State) : Host.Outcome State Fault Refusal :=
  .next (
    if running s && (portAt s port).st == .active && (portAt s port).recal.any (fun r => r.cmd.isSome && !r.acked) then
      sendCtl s port (.recalReq port)
    else s)

/-- RECAL_ACK: the partner has stopped its end. -/
def execRecalAck (at_ : Arrival) (s : State) : Host.Outcome State Fault Refusal := .next (arriveCtl s at_ (.recalAck at_.port))

/-- RECAL_ACK_TIMEOUT: 1 ms without RECAL_ACK. -/
def execRecalAckTimeout (port : Nat) (s : State) : Host.Outcome State Fault Refusal :=
  .next (match running s && (portAt s port).st == .active, (portAt s port).recal with
    | true, some r =>
      if r.acked then s
      else
        let s := advanceTo s (r.since + 1000000)
        let s := modPort s port fun P => { P with recal := none, inService := r.inBonds }
        match r.cmd with
        | some c => finish s c.1 c.2 stTimeout []
        | none => s
    | _, _ => s)

/-- RECAL_ENTER: both ends have drained; the port enters RECAL. -/
def execRecalEnter (port : Nat) (s : State) : Host.Outcome State Fault Refusal :=
  .next (
    let P := portAt s port
    if running s && P.st == .active && P.recal.any (·.acked) && P.retry.isEmpty && P.activity.isNone then
      failBonds (modPort s port fun P => { P with st := .recal, since := s.time, sub := 0, subSince := s.time, fromSaved := true, inService := false }) port
    else s)

/-- The port is the last ACTIVE one of a bond with a bound link, or of a mask that a bound association uses (R245). -/
def lastPort (s : State) (p : Nat) : Bool :=
  let others := fun ps : List Nat => ps.any fun k => k != p && inBonds (portAt s k)
  (portAt s p).st == .active && (List.range 16).any fun n => (progAt s n).any fun x =>
    (x.queues.any fun q => q.link.any fun L => onPort p L && !others L.ports)
      || x.assocs.any fun a => a.st == .bound && (routeOf s a.peer).any fun r => r.ports.contains p && !others r.ports

/-- PORT_CTL names a port and an action that exist (R245). -/
def portCtl (s : State) (q seq action : Nat) (f : State → Taken → Nat → State) : State :=
  onCmd s q seq 0x0140 fun t c =>
    if 64 ≤ c.param 0 ∨ 3 ≤ c.param 1 then refuse t q seq stBadParam
    else if c.param 1 = action then f t c (c.param 0)
    else s

/-- PORT_DISABLE: PORT_CTL with action 0. -/
def execPortDisable (q seq : Nat) (s : State) : Host.Outcome State Fault Refusal :=
  .next (portCtl s q seq 0 fun s _ p =>
    if (portAt s p).disabling.contains (q, seq) then settleDisable s p
    else if lastPort s p then refuse s q seq stNotPermitted
    else if (portAt s p).st == .active then
      settleDisable (withhold (modPort s p fun P => { P with disabling := P.disabling ++ [(q, seq)] }) p) p
    else finish (switchOff s p) q seq stOk [])

/-- PORT_ENABLE: PORT_CTL with action 1. A port of a die held in reset enters no state (R20, R374), and the command waits. -/
def execPortEnable (q seq : Nat) (s : State) : Host.Outcome State Fault Refusal :=
  .next (portCtl s q seq 1 fun s t p =>
    if (portAt s p).st == .disabled || (portAt s p).st == .failed then
      if (dieAt s (0x20 + portTile p)).released then
        finish (modPort s p fun P => { P with st := .detect, since := s.time, attempts := 0 }) q seq stOk []
      else s
    else if t.started then finish s q seq stOk []
    else refuse s q seq stBadParam)

/-- PORT_RECALIBRATE: PORT_CTL with action 2. A request of the partner under way serves this command too (R247). -/
def execPortRecalibrate (q seq : Nat) (s : State) : Host.Outcome State Fault Refusal :=
  .next (portCtl s q seq 2 fun s _ p =>
    let P := portAt s p
    if P.recal.any fun r => r.cmd == some (q, seq) then s
    else if lastPort s p then refuse s q seq stNotPermitted
    else if P.st != .active then refuse s q seq stBadParam
    else
      match P.recal with
      | some r => if r.cmd.isNone then modPort s p fun P => { P with recal := some { r with cmd := some (q, seq) } } else s
      | none =>
        let r : RecalRun := { cmd := some (q, seq), acked := false, since := s.time, neighbour := P.neighbour, inBonds := P.inService }
        sendCtl (withhold (modPort s p fun P => { P with recal := some r }) p) p (.recalReq p))

/-! ### Package ID and routes (R241 to R243) -/

/-- PKG_ID_SET: the package's address. -/
def execPkgIdSet (q seq : Nat) (s : State) : Host.Outcome State Fault Refusal :=
  .next (onCmd s q seq 0x0141 fun s t =>
    if s.pylon.committed then refuse s q seq stNotPermitted
    else if 4096 ≤ t.param 0 then refuse s q seq stBadParam
    else
      let s := { s with pylon := { s.pylon with pkgId := some (t.param 0) } }
      let wait := fun (s : State) (p : Nat) =>
        if (portAt s p).st == .config then sendConfig (modPort s p fun P => { P with since := s.time }) p else s
      finish ((List.range 64).foldl wait s) q seq stOk [])

/-- A routing table entry's 16 bytes (R242). -/
def decodeRoute (b : List Byte) : Route :=
  let w := leNat b
  { ports := portsOf (bits w 127 64), valid := bit w 63, isLocal := bit w 62, spread := bits w 61 60, reserved := bits w 59 0 != 0 }

/-- ROUTE_LOAD: entries into the shadow table. -/
def execRouteLoad (q seq : Nat) (s : State) : Host.Outcome State Fault Refusal :=
  .next (onCmd s q seq 0x0142 fun s t =>
    let k := t.payload.length / 16
    if t.payload.length % 16 ≠ 0 ∨ 4096 < t.payload.length ∨ 4096 < t.param 0 + k then refuse s q seq stBadParam
    else
      let put := fun (l : List (Nat × Route)) (i : Nat) => setAssoc l (t.param 0 + i) (decodeRoute (slice t.payload (16 * i) 16))
      finish { s with pylon := { s.pylon with shadow := (List.range k).foldl put s.pylon.shadow } } q seq stOk [])

/-- The shadow table passes the check of R243. -/
def shadowOk (s : State) : Bool :=
  s.pylon.shadow.all fun r => !r.2.reserved && decide (r.2.spread ≤ 1) && (!r.2.isLocal || s.pylon.pkgId == some r.1)

/-- ROUTE_COMMIT: the shadow table becomes active. -/
def execRouteCommit (q seq : Nat) (s : State) : Host.Outcome State Fault Refusal :=
  .next (onCmd s q seq 0x0143 fun s _ =>
    if shadowOk s then
      finish { s with pylon := { s.pylon with routes := s.pylon.shadow, committed := true } } q seq stOk []
    else refuse s q seq stBadParam)

end Sys2Proof.Machine
end

