-- ==== Sys2Proof/Machine/Boot.lean ====
section
/-! DEFINITION. Boot (15 R365 to R371, 16 R383, R388, 11 R283, 18 R426) and partial resets of the substrate (15 R372 to R374, R378). -/

namespace Sys2Proof.Machine

/-! ### Firmware at boot step 2 (R383, R388) -/

/-- A revision passes both checks (R388). Of a module as delivered the bytes are not stated, and it passes (log 32). -/
def verified (m : FwModule) : Bool := m.header.isEmpty || authentic m

/-- The revision that boot takes for a module, and whether it is the previous one. -/
def bootRevision (j : List JournalRecord) (id : Nat) : Option (FwModule × Bool) :=
  match (liveRevision j id).filter verified, (previousRevision j id).filter verified with
  | some m, _ => some (m, false)
  | none, some m => some (m, true)
  | none, none => none

/-- Modules 0x0001 to 0x0005 are required (R386). -/
def requiredModules : List Nat := [1, 2, 3, 4, 5]

/-- Restore a persisted entry with a new seq, marked restored (R402). -/
def restoreEntry (t : Tollhouse) (e : LogEntry) : Tollhouse :=
  pushLog { t with logSeq := t.logSeq + 1 } { e with seq := t.logSeq, persisted := true, restored := true, read := false }

/-- Log a module that fell back to its previous revision (R388). -/
def logFallback (s : State) (id : Nat) : State :=
  match bootRevision s.toll.journal id with
  | some (m, true) =>
    let failed := ((liveRevision s.toll.journal id).map (·.revision)).getD 0
    logError { s with toll := { s.toll with fallback := true } } 0x0050 0 sevWarning srcPackage 0xFF 0xFF [id, failed, m.revision]
  | _ => s

/-- After a loss of power the persisted entries come back into the log (R402, R424). -/
def restoreLog (t : Tollhouse) : Tollhouse :=
  if t.restoreDue then { (persistedEntries t.journal).foldl restoreEntry t with restoreDue := false } else t

/-- Step 2: the journal gives the module table, the next identity index with its subtree and, after a loss of power, the persisted
entries; blocks of other epochs are erased (R383, R392, R393). -/
def bootFirmware (s : State) : State :=
  let t := restoreLog (dropOthers s.toll)
  let table := moduleIds.filterMap fun id => (bootRevision t.journal id).map (·.1)
  let q := indexLimit t
  let s := { s with toll := { t with modules := table, bootModules := table, q, subtree := subtreeOf (q / 1024) } }
  moduleIds.foldl logFallback (retireBlocks s)

/-! ### The walk and the negotiation (R366 to R368) -/

/-- The place among the 21 descriptors of the die that belongs where a read goes (R363, R368, R369). -/
def expectedAt : WalkRead → Nat
  | .approach => 0
  | .overModule m => if m < 64 then 1 + (m / 16 + 1) % 4 else 1 + (m - 64) / 4
  | .pier t => 5 + t
  | .footing k => 9 + k

/-- What a read of the walk brings: nothing where no die answers. -/
def walked (r : BootReport) (s : State) (x : WalkRead) : List Byte := (r.descriptors.lookup x).getD (fused s (expectedAt x))

/-- Fields of a descriptor (R365). -/
def dieType (d : List Byte) : Nat := field d 5 1
def profileMin (d : List Byte) : Nat := field d 8 2
def profileMax (d : List Byte) : Nat := field d 10 2
def caps (d : List Byte) : Nat := field d 12 4
def dieUidOf (d : List Byte) : Nat := field d 0x10 8
def diePosition (d : List Byte) : Nat := field d 0x18 1

/-- The die of a ring or Approach module's near end: the Pylon die of its tile, read over its Approach link, or the Approach die. -/
def nearEnd (m : Nat) : WalkRead := if m < 64 then .overModule (64 + 4 * (m / 16)) else .approach

/-- The read over the first Approach module of the tile that a read over a module reaches. -/
def linkRead (m : Nat) : WalkRead := .overModule (64 + 4 * (expectedAt (.overModule m) - 1))

/-- The walk finds what it must find: a descriptor, of the type and position that belong there, and over every module of a link the
same die (R368). -/
def walkOk (r : BootReport) (s : State) (x : WalkRead) : Bool :=
  let d := walked r s x
  let e := descriptorDie (expectedAt x)
  let same := match x with
    | .overModule m => dieUidOf d == dieUidOf (walked r s (linkRead m))
    | _ => true
  decide (d.length = 64) && field d 0 4 == 0x544E494A && field d 4 1 == 1 && dieType d == e.1 && diePosition d == e.2 && same

/-- Capabilities that a link requires at its tile end and at its other end: ring links, Approach links, Joint-F (R366). -/
def ringNeeds : Nat := 0x3D
def tileNeeds : Nat := 0x0B
def approachNeeds : Nat := 0x1C9
def jointNeeds : Nat := 0x3C

/-- Every bit of a mask is set. -/
def hasAll (v need : Nat) : Bool := v &&& need == need

/-- Two ends agree on a profile version (R367). -/
def versionOk (a b : List Byte) : Bool := decide (max (profileMin a) (profileMin b) ≤ min (profileMax a) (profileMax b))

/-- A substrate module's link passes its negotiation (R362, R366, R367). -/
def negotiated (r : BootReport) (s : State) (m : Nat) : Bool :=
  let near := walked r s (nearEnd m)
  let far := walked r s (.overModule m)
  let needs := if m < 64 then ringNeeds else tileNeeds
  versionOk near far && hasAll (caps far) needs && hasAll (caps near) (if m < 64 then ringNeeds else approachNeeds)
    && !r.lesserOffers.contains m

/-- A tile's Joint-F has what R366 requires at both ends. -/
def jointOk (r : BootReport) (s : State) (t : Nat) : Bool :=
  hasAll (caps (walked r s (.pier t))) jointNeeds && hasAll (caps (walked r s (.overModule (64 + 4 * t)))) jointNeeds

/-- Descriptor fields as the log's detail words: type, generation and position; profile versions; capabilities (log 38). -/
def foundDetail (d : List Byte) : List Nat :=
  if d.isEmpty then [] else [dieType d + field d 6 1 * 256 + diePosition d * 65536, profileMin d + profileMax d * 65536, caps d]

/-- Where the record of a read names it: source, position and module word (R400, R401). -/
def readPlace : WalkRead → Nat × Nat × Nat
  | .approach => (srcApproach, 0xFF, 0xFFFFFFFF)
  | .overModule m => (srcPylon, m, m)
  | .pier t => (srcPier, t, 0xFFFFFFFF)
  | .footing k => (srcFooting, k, 0xFFFFFFFF)

/-- A discovery or a negotiation fails: INTERNAL, with what was found in the log (R367, R368). -/
def discoveryFault (r : BootReport) (x : WalkRead) (s : State) : State :=
  let p := readPlace x
  goOos (logError s 0x0033 stInternal sevFatal p.1 p.2.1 0xFF (p.2.2 :: foundDetail (walked r s x))) stInternal

/-- The reads of each step of the boot (R368, R370). -/
def readsAt (step : Nat) : List WalkRead :=
  if step = 3 then .approach :: (List.range 16).map fun i => .overModule (64 + i)
  else if step = 5 then (List.range 4).map .pier
  else if step = 8 then (List.range 64).map .overModule
  else if step = 9 then (List.range 12).map .footing
  else []

/-- The links that a step negotiates, by a read that names each: its modules, or the tile of Joint-F. -/
def linkReads (step : Nat) : List WalkRead :=
  if step = 4 then (List.range 16).map fun i => .overModule (64 + i)
  else if step = 5 then (List.range 4).map .pier
  else if step = 8 then (List.range 64).map .overModule
  else []

/-- The link of a read passes. -/
def linkOk (r : BootReport) (s : State) : WalkRead → Bool
  | .overModule m => negotiated r s m
  | .pier t => jointOk r s t
  | _ => true

/-! ### What the boot finds (R17, R20, R367, R368, R388) -/

/-- Restart-class findings of a step: firmware, the walk, negotiations, regulators, Joint-F calibration, widths, HBM channels. A record
names the module, the stack and channel, or the tile; a Joint-F channel has no module number, so its record names the tile, with the Pier
die as its source, and the channel (log 108). -/
def stepFindings (r : BootReport) (s : State) (step : Nat) : List (State → State) :=
  let walk := (readsAt step).filter fun x => !walkOk r s x
  let links := (linkReads step).filter fun x => walkOk r s x && !linkOk r s x
  let regulators := if step = 6 then r.silentRegulators else []
  let calibration := if step = 7 then r.uncalibrated else []
  let narrow := r.narrowModules.filter fun m => step == if m < 64 then 8 else 4
  let channels := if step = 9 then r.untrainedChannels else []
  (walk ++ links).map (discoveryFault r)
    ++ regulators.map (fun t s => goOos (logError s 0x0042 stInternal sevFatal srcPier t 0xFF [t]) stInternal)
    ++ calibration.map (fun c s => widthMismatch s srcPier c.1 [c.1, c.2])
    ++ narrow.map (fun m s => widthMismatch s srcPackage m [m])
    ++ channels.map fun c s => widthMismatch s srcFooting c.1 [c.1, c.2]

/-! ### HBM at boot step 9 (R267, R283, R426) -/

/-- Cells and blocks of the spare regions, which alone outlive the clearing. -/
def inSpare (a : Nat) : Bool := decide (generalBytes ≤ a % stackBytes)

/-- The Footings leave self-refresh and clear their general regions (R267, R370). The stacks of a tile held in reset, whose Pier die
cannot train them, stay as they are (R20; log 109). -/
def clearGeneral (s : State) : State :=
  let kept := fun a : Nat => inSpare a || stackHeld s (a / stackBytes)
  let up := fun x : Stack × Nat => if stackHeld s x.2 then x.1 else { x.1 with selfRefresh := false, calTime := s.time }
  { s with hbm := { mem := s.hbm.mem.filter fun c => kept c.1
                    uncorrectable := s.hbm.uncorrectable.filter fun b => kept (64 * b)
                    correctable := s.hbm.correctable.filter fun b => kept (64 * b)
                    footings := s.hbm.footings.zipIdx.map up } }

/-- Reconcile the commit records of one half (R426). -/
def repairHalf (s : State) (half : Nat) : State :=
  if !committed s half then writeHalf s half 6 0 (List.replicate 64 0)
  else
    match senseHbm s (caissonReader 0xFF 6) (halfBase half 6) 64 with
    | (s, some b) => if b == commitAt s half 0 then s else writeHalf s half 6 0 (commitAt s half 0)
    | (s, none) => writeHalf s half 6 0 (commitAt s half 0)

/-- The sequence of a half's generation, where this package committed it, from the first copy of its manifest that can be read (R279,
R281; log 39). -/
def ownSequence (half : Nat) : List Nat → State → State × Nat
  | [], s => (s, 0)
  | k :: ks, s =>
    if committed s half && !bit (field (commitAt s half 0) 0x14 4) 0 then
      match senseHbm s (caissonReader 0xFF k) (halfBase half k + manifestAt) 64 with
      | (s, some b) => (s, field b 8 8)
      | (s, none) => ownSequence half ks s
    else (s, 0)

/-- Stacks whose RETAINED bit is read as 0, as a mask. -/
def lostStacks (s : State) : Nat := ((List.range 12).map fun k => flag (!stackHeld s k && !(stackAt s k).retained) k).sum

/-- Clear both halves' commit records, on the stacks that can be reached (R283). -/
def dropRecords (s : State) : State :=
  ([0, 1].flatMap fun h => commitStacks.map fun k => (h, k)).foldl
    (fun s x => if stackHeld s x.2 then s else writeHalf s x.1 x.2 0 (List.replicate 64 0)) s

/-- Read the RETAINED bits; clear or reconcile the commit records (R283, R426). The bits of a held tile's stacks cannot be read: RETAINED
then reads 0, and with no bit read as 0 the records stay for a later boot (R20; log 109). -/
def bootCaisson (s : State) : State :=
  let s := readCommits s 0xFF
  let s :=
    if lostStacks s ≠ 0 then
      let s := dropRecords { s with pkg := { s.pkg with retained := false } }
      logError s 0x0070 0 sevWarning srcPackage 0xFF 0xFF [lostStacks s]
    else if !s.pkg.heldTiles.isEmpty then { s with pkg := { s.pkg with retained := false } }
    else repairHalf (repairHalf { s with pkg := { s.pkg with retained := true } } 0) 1
  let a := ownSequence 0 commitStacks s
  let b := ownSequence 1 commitStacks a.1
  { b.1 with caisson := { b.1.caisson with sequence := max a.2 b.2 } }

/-! ### Dies and modules in reset (R370, R372 to R374, R378) -/

/-- The tile of a die code (R375). -/
def tileOfDie (code : Nat) : Nat := code % 16

/-- A die held in reset; sensors that have failed stay failed (R398). -/
def Die.hold (d : Die) : Die := { Die.fresh d.code with sensorFloor := d.sensorFloor }

/-- A die leaves reset at its floor budget (R370, R377). -/
def Die.release (d : Die) (now : Nat) : Die := { d.hold with released := true, heardAt := now, floorSince := now }

/-- Dies leave reset, but for those of a tile that the boot holds (R20). -/
def releaseAll (s : State) (codes : List Nat) : State :=
  let up := fun d : Die =>
    if codes.contains d.code && !s.pkg.heldTiles.contains (tileOfDie d.code) then d.release s.time else d
  showAlert { s with dies := s.dies.map up }

/-- The ports of released Pylon dies go from DISABLED to DETECT (R231, R370, R374). -/
def raisePorts (s : State) (codes : List Nat) : State :=
  let up := fun x : Port × Nat =>
    let code := 0x20 + portTile x.2
    if codes.contains code ∧ (dieAt s code).released ∧ x.1.st = .disabled then { x.1 with st := .detect, since := s.time } else x.1
  { s with pylon := { s.pylon with ports := s.pylon.ports.zipIdx.map up } }

/-- The dies at the ends of a module: two Pylon dies, or a Pylon die and the Approach die, 0x30 (R363). -/
def moduleDies (m : Nat) : List Nat := if m < 64 then [0x20 + m / 16, 0x20 + (m / 16 + 1) % 4] else [0x20 + (m - 64) / 4, 0x30]

/-- The Pylon die at the far end of a module, which the walk reads over it (R368). -/
def farDie (m : Nat) : Nat := if m < 64 then 0x20 + (m / 16 + 1) % 4 else 0x20 + (m - 64) / 4

/-- A die hold holds the die. -/
def holdsDie (s : State) (code : Nat) : Bool := s.pkg.holdDies.contains code

/-- A width that R17 accepts: x16 at 32 GT/s (R362). -/
def fullWidth (w : TrainedWidth) : Bool := w.lanes == 16 && w.rate == 32

/-- What two ends' reports decide: rejoin, R17, or a disagreement (R373). -/
def agreed (near far : TrainedWidth) : Option Bool :=
  if fullWidth near && fullWidth far then some true
  else if near.rate < 32 ∨ far.rate < 32 ∨ near.lanes = far.lanes then some false
  else none

/-- The module carries flits again (R364). -/
def rejoin (s : State) (m : Nat) : State := modModule s m fun x => { x with inLink := true, resetting := false, holdAttempts := none }

/-- The widths as the log's detail words. -/
def widthDetail (m : Nat) (near far : TrainedWidth) : List Nat := [m, near.lanes + near.rate * 65536, far.lanes + far.rate * 65536]

/-- A port of a held die goes off: commands that act on it end (log 122). -/
def holdPort (s : State) (p : Nat) : State := modPort (endPortCommands s (portAt s p)) p fun _ => .fresh

/-- A die hold faults every context with a running program, then holds dies in reset, beside those held already (R374, R378). -/
def beginHold (s : State) (m : Nat) (codes : List Nat) : State :=
  let hit := (List.range 16).filter fun n => (ctxAt s n).any programRuns
  let s := hit.foldl (fun s n => faultContext s n stContextFault) s
  let s := logError s 0x0031 stContextFault sevFault srcPackage m 0xFF [m, 0]
  let s := modModule s m fun x => { x with resetting := false, holdAttempts := some 0 }
  let s := (s.dies.filter fun d => codes.contains d.code).foldl leaveFloor s
  let down := fun d : Die => if codes.contains d.code then d.hold else d
  let s := { s with dies := s.dies.map down, pkg := { s.pkg with holdDies := codes.foldl insertNat s.pkg.holdDies } }
  ((List.range 64).filter fun p => codes.contains (0x20 + portTile p)).foldl holdPort s

/-- Joint-F channels that fail the calibration of a release take the package out of service (R17, R361; log 108). -/
def calibrate (s : State) (codes : List Nat) (failed : List (Nat × Nat)) : State :=
  (failed.filter fun c => codes.any fun d => decide (d < 0x30) && tileOfDie d == c.1).foldl
    (fun s c => widthMismatch s srcPier c.1 [c.1, c.2]) s

/-- The hold ends once no module of it has attempts left to make: every die of it is released as in step 7, Joint-F calibrated, and its
ports start again (R361, R370, R373, R374, R378; log 40). Before step 7 of a boot the dies stay in reset. -/
def releaseHold (s : State) (uncalibrated : List (Nat × Nat)) : State :=
  if s.modules.any fun x => x.holdAttempts.isSome then s
  else
    let codes := s.pkg.holdDies
    let s := { s with pkg := { s.pkg with holdDies := [] } }
    if s.pkg.bootStep < 7 then s
    else
      let s := calibrate (releaseAll s codes) codes uncalibrated
      if running s then raisePorts s codes else s

/-- The ends' reports after a module reset decide (R373): rejoin, R17, or a hold of the dies given. -/
def settleReset (s : State) (m : Nat) (codes : List Nat) : Option Bool → State
  | some true => rejoin s m
  | some false => widthMismatch (modModule s m fun x => { x with resetting := false }) srcPackage m [m]
  | none => beginHold s m codes

/-- The ends' reports at the end of an attempt within a hold decide: `k` attempts were made before it (R373). -/
def settleAttempt (s : State) (m k : Nat) (uncalibrated : List (Nat × Nat)) : Option Bool → State
  | some true => releaseHold (rejoin s m) uncalibrated
  | some false => widthMismatch (modModule s m fun x => { x with holdAttempts := some 3 }) srcPackage m [m]
  | none =>
    let s := modModule s m fun x => { x with holdAttempts := some (k + 1) }
    if k = 2 then widthMismatch s srcPackage m [m] else s

/-! ### The boot (R370, R371) -/

/-- Step 7: release each tile whose regulator answers, each die at its floor budget; the others are held in reset (R20, R370). -/
def releaseTiles (r : BootReport) (s : State) : State :=
  let s := { s with pkg := { s.pkg with heldTiles := r.silentRegulators } }
  releaseAll s (dieCodes.filter fun c => !holdsDie s c)

/-- Step 11: train the Tether, report the reset, take commands (R319, R323, R370). -/
def bootTether (s : State) : State :=
  let t := { s.tether with st := if s.pkg.cable then .up else .down, outSince := none, forwarding := true }
  { s with tether := t, pkg := { s.pkg with phase := .running, bootStep := 11, lastReset := s.pkg.resetCause, ready := true } }

/-- Steps 4 and 8: modules carry their links, but for those of a tile held in reset, whose Pylon die trains none, and those that a hold
retrains (R20, R370; log 109). -/
def joinModules (s : State) (ms : List Nat) : State :=
  let held := fun m : Nat => (moduleDies m).any fun c => decide (c < 0x30) && s.pkg.heldTiles.contains (tileOfDie c)
  (ms.filter fun m => !held m).foldl (fun s m => modModule s m fun x => { x with inLink := x.holdAttempts.isNone }) s

/-- What both ends of a retry report; none where an end does not answer. -/
def retryWidths (r : BootRetry) : Option (TrainedWidth × TrainedWidth) := r.near.bind fun a => r.far.map fun b => (a, b)

/-- One retry of a boot: a module reset, or an attempt within the hold that one led to. An end that does not answer is the silent die,
which is held; ends that disagree are both held (R371 to R373). -/
def bootRetry (s : State) (r : BootRetry) : State :=
  let w := retryWidths r
  let decided := w.bind fun x => agreed x.1 x.2
  match (s.modules[r.module]?).bind (·.holdAttempts) with
  | none =>
    let detail := (w.map fun x => widthDetail r.module x.1 x.2).getD [r.module]
    let s := logError (count s 6 r.module 1 1) 0x0030 0 sevInfo srcPackage r.module 0xFF detail
    settleReset s r.module (if w.isSome then moduleDies r.module else [farDie r.module]) decided
  | some k =>
    if k ≥ 3 then s
    else settleAttempt (logError s 0x0031 0 sevInfo srcPackage r.module 0xFF [r.module, k + 1]) r.module k [] decided

/-- Retries that the boot runs: at most eight (R371). -/
def bootRetries (r : BootReport) (step : Nat) : List BootRetry := (r.retries.take 8).filter fun x => x.step == step

/-- A step from 3 to 9 of the boot with its retries and findings (R370). -/
def bootStep (r : BootReport) (s : State) (step : Nat) : State :=
  let s := { s with pkg := { s.pkg with bootStep := step } }
  let s := if step = 7 then releaseTiles r s else s
  let s := (bootRetries r step).foldl bootRetry s
  let s := (stepFindings r s step).foldl (fun s f => f s) s
  if step = 4 then joinModules s ((List.range 16).map (64 + ·))
  else if step = 8 then joinModules s (List.range 64)
  else if step = 9 then bootCaisson (clearGeneral s)
  else s

/-- Steps 3 to k. -/
def bootSteps (r : BootReport) (k : Nat) (s : State) : State := ((List.range (k - 2)).map (3 + ·)).foldl (bootStep r) s

/-- A boot that needs a ninth retry stops in its step, before step 11: the Tether stays DOWN (R371). -/
def stopBoot (r : BootReport) (step : Nat) (s : State) : State :=
  let s := bootSteps r (step - 1) s
  let s := (bootRetries r step).foldl bootRetry { s with pkg := { s.pkg with bootStep := step } }
  let s := goOos s stInternal
  { s with pkg := { s.pkg with phase := .stopped } }

/-- The descriptors that the walk read in place of a die's own (R369). -/
def foundBy (r : BootReport) : List (Nat × List Byte) :=
  let own := fun x : WalkRead => match x with
    | .overModule m => decide (64 ≤ m ∧ m % 4 = 0)
    | _ => true
  (r.descriptors.filter fun x => own x.1 && !x.2.isEmpty).map fun x => (expectedAt x.1, x.2)

/-- Firmware without a required module: the boot ROM completes the boot out of service (R388). -/
def checkModules (s : State) : State :=
  if requiredModules.all (s.toll.modules.map (·.id)).contains then s else goOos s stInternal

/-- BOOT: the whole boot after a reset. A tile whose regulator is silent stays out of it: its dies, stacks, modules and ports (log 109). -/
def execBoot (report : BootReport) (s : State) : Host.Outcome State Fault Refusal :=
  .next (if s.pkg.pwrOk && s.pkg.phase == .inReset then
      let s := checkModules (bootFirmware { s with pkg := { s.pkg with bootStep := 2, found := foundBy report } })
      match report.retries[8]? with
      | some ninth => stopBoot report ninth.step s
      | none => bootTether (raisePorts (bootSteps report 9 s) dieCodes)
    else s)

/-! ### Partial resets in service (R372 to R374, R378) -/

/-- MODULE_RESET: the module leaves its link and its adapters are reset; within a die hold of one of its dies it is retrained in
that hold (R364, R372, R378). -/
def execModuleReset (module : Nat) (s : State) : Host.Outcome State Fault Refusal :=
  .next (if running s && ((s.modules[module]?).any fun x => x.inLink) then
      let held := (moduleDies module).any (holdsDie s)
      let s := modModule s module fun x =>
        { x with inLink := false, resetting := !held, holdAttempts := if held then some 0 else none }
      count s 6 module 1 1
    else s)

/-- MODULE_WIDTH_REPORT: after a module reset, both ends report (R373). -/
def execModuleWidthReport (module : Nat) (near far : TrainedWidth) (s : State) : Host.Outcome State Fault Refusal :=
  .next (if running s && ((s.modules[module]?).any fun x => x.resetting) then
      let s := logError s 0x0030 0 sevInfo srcPackage module 0xFF (widthDetail module near far)
      settleReset s module (moduleDies module) (agreed near far)
    else s)

/-- DIE_HOLD_ATTEMPT_END: an attempt within a die hold ends (R373). -/
def execDieHoldAttemptEnd (module : Nat) (near : TrainedWidth) (far : AttemptEnd) (s : State) : Host.Outcome State Fault Refusal :=
  .next (match running s, (s.modules[module]?).bind (·.holdAttempts) with
    | true, some k =>
      if k ≥ 3 then s
      else
        let s := logError s 0x0031 0 sevInfo srcPackage module 0xFF [module, k + 1]
        settleAttempt s module k far.uncalibrated (agreed near far.width)
    | _, _ => s)

end Sys2Proof.Machine
end

