-- ==== Sys2Proof/Machine/Board.lean ====
section
/-! DEFINITION. The error log's readers (16 R403) and board management over I3C (16 R404, R405). -/

namespace Sys2Proof.Machine

/-! ### Reading the error log (R403) -/

/-- The first seq that a read takes: the one given, or the oldest unread entry, or the next that will be written. -/
def readFrom (t : Tollhouse) (first : Nat) : Nat :=
  if first = 0xFFFFFFFF then ((t.log.find? fun e => !e.read).map (·.seq)).getD t.logSeq else first

/-- The entries that a read posts. -/
def readEntries (t : Tollhouse) (first count : Nat) : List LogEntry :=
  (t.log.filter fun e => decide (readFrom t first ≤ e.seq)).take count

/-- Entries posted are read; the count of replaced ones restarts. -/
def markRead (t : Tollhouse) (es : List LogEntry) : Tollhouse :=
  let hit := fun e : LogEntry => es.any fun x => x.seq == e.seq
  { t with log := t.log.map fun e => if hit e then { e with read := true } else e
           logReplaced := 0 }

/-- Reply words: entries posted, the next seq, unread entries replaced. -/
def readReply (t : Tollhouse) (first : Nat) (es : List LogEntry) : List Nat :=
  [es.length, lo32 (((es.getLast?).map fun e => e.seq + 1).getD (readFrom t first)), t.logReplaced]

/-- The bytes of an entry as a queue sees it: another context's detail is hidden on queues 4 to 63. -/
def shownEntry (s : State) (q : Nat) (e : LogEntry) : List Byte :=
  let hidden := decide (4 ≤ q ∧ e.context ≠ 0xFF ∧ e.context ≠ (queueAt s q).ctx)
  encodeLog e (if hidden then [] else e.detail)

/-- ERRLOG_READ: post entries in seq order and mark them read. -/
def execErrlogRead (q seq : Nat) (s : State) : Host.Outcome State Fault Refusal :=
  .next (onCmd s q seq 0x0102 fun s t =>
    let es := readEntries s.toll (t.param 3) (t.param 2)
    let reply := readReply s.toll (t.param 3) es
    let s := postHost s (t.param64 0) (es.flatMap (shownEntry s q))
    finish { s with toll := markRead s.toll es } q seq stOk reply)

/-! ### The I3C target (R404) -/

/-- A Voune request whose code is followed by so many bytes fits a message of at most 4,096 bytes (R404). -/
def fitsMessage (n : Nat) : Bool := decide (5 + 1 + n ≤ 4096)

/-- The firmware runs, so that it serves the messages the boot ROM does not (R388, R405). -/
def firmwareUp (s : State) : Bool := s.toll.modules.any fun m => m.id == 0x0001

/-- SETDASA for static address 0x4A, of a target without a dynamic address (log 41). -/
def execSetdasa (static dynamic : Nat) (s : State) : Host.Outcome State Fault Refusal :=
  .next (if powered s && static == 0x4A && s.toll.i3cAddr.isNone then { s with toll := { s.toll with i3cAddr := some dynamic } } else s)

/-- ENTDAA: a target without a dynamic address takes one (log 41). -/
def execEntdaa (dynamic : Nat) (s : State) : Host.Outcome State Fault Refusal :=
  .next (if powered s && s.toll.i3cAddr.isNone then { s with toll := { s.toll with i3cAddr := some dynamic } } else s)

/-- Set Endpoint ID; the response's layout is DSP0236's (log 41). -/
def execSetEndpointId (eid : Nat) (s : State) : Host.Outcome State Fault Refusal :=
  .next (if !powered s then s
    else if eid = 0 ∨ eid = 0xFF then answer s [0x02, 0x10, BitVec.ofNat 8 s.toll.eid, 0]
    else answer { s with toll := { s.toll with eid } } [0, 0, BitVec.ofNat 8 eid, 0])

/-- Get Endpoint ID (log 41). -/
def execGetEndpointId (s : State) : Host.Outcome State Fault Refusal :=
  .next (if powered s then answer s [0, BitVec.ofNat 8 s.toll.eid, 0, 0] else s)

/-- Get MCTP Version Support: one version, whose number the manual does not give (log 41). -/
def execGetMctpVersionSupport (s : State) : Host.Outcome State Fault Refusal :=
  .next (if powered s then freeUsed (answer s ([0, 1] ++ leBytes 4 (freeBelow s (2 ^ 32)))) 1 else s)

/-- Get Message Type Support: type 0x7F (R404; log 41). -/
def execGetMessageTypeSupport (s : State) : Host.Outcome State Fault Refusal :=
  .next (if powered s then answer s [0, 1, 0x7F] else s)

/-! ### Voune messages (R405); their responses' layout after the status byte: log 42 -/

/-- GET_STATUS: DEV_STATUS, the boot step reached, powered time. -/
def execGetStatus (s : State) : Host.Outcome State Fault Refusal :=
  .next (if powered s then answerVoune s ([0] ++ leBytes 4 (devStatus s) ++ leBytes 1 s.pkg.bootStep ++ leBytes 8 s.time) else s)

/-- A sensor's reading, a free value before its first, and whether it has failed. -/
def sensorBytes (s : State) (x : Sensor × Nat) : List Byte :=
  match s.toll.sensors.find? fun y => y.sensor = x.1 with
  | some y => leBytes 4 (unsigned 32 y.reading) ++ leBytes 1 (flag y.failed 0)
  | none => leBytes 4 (Config.freeValue (s.free + x.2)) ++ leBytes 1 0

/-- GET_SENSORS: every sensor of R397 and whether it has failed; the draws are the last reports'. -/
def execGetSensors (s : State) : Host.Outcome State Fault Refusal :=
  .next (if powered s then
      let bs := allSensors.zipIdx.flatMap (sensorBytes s) ++ s.dies.flatMap fun d => leBytes 4 d.draw ++ leBytes 1 0
      freeUsed (answerVoune s ([0] ++ bs)) allSensors.length
    else s)

/-- READ_ERRLOG: as ERRLOG_READ, at most 60 entries, detail unfiltered. -/
def execReadErrlog (count first : Nat) (s : State) : Host.Outcome State Fault Refusal :=
  .next (if powered s then
      let es := readEntries s.toll first (min count 60)
      let bs := (readReply s.toll first es).flatMap (leBytes 4) ++ es.flatMap fun e => encodeLog e e.detail
      answerVoune { s with toll := markRead s.toll es } ([0] ++ bs)
    else s)

/-- GET_IDENTITY: descriptors from a given one on, four per message; the firmware serves it. -/
def execGetIdentity (first : Nat) (s : State) : Host.Outcome State Fault Refusal :=
  .next (if powered s && firmwareUp s then
      answerVoune s ([0] ++ (((List.range 21).drop first).take 4).flatMap (identity s))
    else s)

/-- POWER_TABLE: as POWER_TABLE_LOAD; the firmware serves it. -/
def execPowerTable (payload : List Byte) (s : State) : Host.Outcome State Fault Refusal :=
  .next (if powered s && firmwareUp s && fitsMessage payload.length then
      let (s, st) := loadTable s payload
      answerVoune s [BitVec.ofNat 8 st]
    else s)

/-- RESET_REQUEST: acknowledged, then a warm reset. -/
def execResetRequest (s : State) : Host.Outcome State Fault Refusal :=
  .next (if powered s then warmReset (answerVoune s [0]) else s)

/-- RECOVERY_WRITE: put up to 4,000 bytes into the staged package; more are refused (log 42). -/
def execRecoveryWrite (offset : Nat) (data : List Byte) (s : State) : Host.Outcome State Fault Refusal :=
  .next (if !powered s || !fitsMessage (4 + data.length) then s
    else if 4000 < data.length then answerVoune s [BitVec.ofNat 8 stBadParam]
    else
      let t := { s.toll with staged := Memory.write s.toll.staged offset data
                             stagedBytes := max s.toll.stagedBytes (offset + data.length) }
      answerVoune { s with toll := t } [0])

/-- RECOVERY_COMMIT: apply the staged package as FW_UPDATE from step 2; it waits for an update under way, and its response comes
with the swap. -/
def execRecoveryCommit (s : State) : Host.Outcome State Fault Refusal :=
  .next (if !powered s || s.toll.fw.isSome then s
    else
      match commitUpdate s none (Memory.read s.toll.staged 0 s.toll.stagedBytes) with
      | (s, st) =>
        if st = stOk then { s with toll := { s.toll with staged := [], stagedBytes := 0 } } else answerVoune s [BitVec.ofNat 8 st])

end Sys2Proof.Machine
end

