-- ==== Sys2Proof/Machine/Contexts.lean ====
section
/-! DEFINITION. Context descriptors (14 R342 to R347), slices, account and debt (R348 to R350), the switch (R351 to R353), abort
(R355 to R357). -/

namespace Sys2Proof.Machine

/-! ### Descriptors (R343, R344) -/

/-- The grant of a payload: base and length in MiB on each stack (R343). -/
def grantOf (p : List Byte) : List (Nat × Nat) := (List.range 12).map fun k => (field p (16 + 8 * k) 4, field p (20 + 8 * k) 4)

/-- Fields of R343, and the limits of R344 that concern one descriptor. -/
def descriptorOk (p : List Byte) : Bool :=
  let w := field p 0 4
  decide (p.length = 128) && (w == 0 || decide (10 ≤ w ∧ w ≤ 60000)) && decide (field p 6 1 < 2) && zeroField p 7 9 && zeroField p 0x70 16
    && ((grantOf p).all fun g => decide (g.1 + g.2 ≤ 81920))
    && [0, 3, 6, 9].all fun k => decide (384 ≤ ((grantOf p).getD k (0, 0)).2)

/-- A grant overlaps another descriptor's on some stack (R344). -/
def grantMeets (s : State) (n : Nat) (g : List (Nat × Nat)) : Bool :=
  (List.range 16).any fun m => m != n && (ctxAt s m).any fun c =>
    (g.zip c.grant).any fun x => rangesMeet x.1.1 x.1.2 x.2.1 x.2.2

/-- A new descriptor (R344). -/
def freshContext (p : List Byte) : Context :=
  { watchdogMs := field p 0 4, lsInterval := field p 4 2, permCtr := bit (field p 6 1) 0, grant := grantOf p, account := 0, debt := 0
    ls := .initial, step := 0, version := 0, nextMb := 0, restored := false, image := none, program := none, faultStatus := 0
    apr := none, sampling := none, events := [], counters := [], waits := [], activeNs := 0, selecting := [] }

/-- CTX_CREATE. -/
def execCtxCreate (q seq : Nat) (s : State) : Host.Outcome State Fault Refusal :=
  .next (onCmd s q seq 0x0901 fun s t =>
    let n := t.param 0
    if 16 ≤ n ∨ (ctxAt s n).isSome ∨ !descriptorOk t.payload ∨ grantMeets s n (grantOf t.payload) then refuse s q seq stBadParam
    else finish (setCtx s n (some (freshContext t.payload))) q seq stOk [])

/-- Fill general-region bytes with zeros; a granule not yet copied is copied first (R278, R345, R346). -/
def zeroRange (s : State) (r : Nat × Nat) : State :=
  let s := copyFirst s r.1 r.2
  { s with hbm := s.hbm.fill r.1 r.2 0 }

/-- What of a range on a stack a new range leaves: the parts before and after it, in MiB. -/
def leaving (old new : Nat × Nat) : List (Nat × Nat) :=
  if new.2 = 0 then [old]
  else [(old.1, min (old.1 + old.2) new.1 - old.1), (max old.1 (new.1 + new.2), old.1 + old.2 - max old.1 (new.1 + new.2))]

/-- The bytes that leave a grant. -/
def leavingBytes (old new : List (Nat × Nat)) : List (Nat × Nat) :=
  (old.zip new).zipIdx.flatMap fun x => (leaving x.1.1 x.1.2).map fun r => (stackBase x.2 + r.1 * mib, r.2 * mib)

/-- CTX_GRANT: every field anew; with an image loaded only PERM_CTR (R345). -/
def execCtxGrant (q seq : Nat) (s : State) : Host.Outcome State Fault Refusal :=
  .next (onCmd s q seq 0x0903 fun s t =>
    let n := t.param 0
    let x := freshContext t.payload
    match ctxAt s n with
    | none => refuse s q seq stBadParam
    | some c =>
      let changed := c.watchdogMs != x.watchdogMs || c.lsInterval != x.lsInterval || c.grant != x.grant
      if !descriptorOk t.payload || grantMeets s n x.grant || (c.image.isSome && changed) then refuse s q seq stBadParam
      else
        let s := ((leavingBytes c.grant x.grant).filter fun r => r.2 != 0).foldl zeroRange s
        let s := modCtx s n fun c =>
          { c with watchdogMs := x.watchdogMs, lsInterval := x.lsInterval, permCtr := x.permCtr, grant := x.grant }
        finish s q seq stOk [])

/-! ### Slices (R348 to R350) -/

def sat32 (v : Nat) : Nat := min v 0xFFFFFFFF

/-- The reply of a slice: charged, overrun, debt (R348). -/
def sliceReply (charged overrun debt : Nat) : List Nat := [lo32 charged, hi32 charged, sat32 overrun, sat32 debt]

def debtOf (s : State) (n : Nat) : Nat := ((ctxAt s n).map (·.debt)).getD 0

/-- Bring the active context's account up to now (R349). -/
def charge (s : State) : State :=
  let s := match s.sched.active with
    | some n => modCtx s n fun c => { c with account := (c.account + (s.time - s.sched.chargedTo)) % 2 ^ 64 }
    | none => s
  { s with sched := { s.sched with chargedTo := s.time } }

/-- The current slice ends, and its command completes (R348). -/
def endSlice (s : State) : State :=
  match s.sched.current with
  | none => s
  | some x =>
    let s := charge s
    let s := { s with sched := { s.sched with current := none } }
    finish s x.slice.q x.slice.seq stOk (sliceReply (s.time - x.start) x.overrun (debtOf s x.slice.ctx))

/-- A slice begins, its debt repaid (R350). -/
def beginSlice (s : State) (e : Slice) (effective : Nat) : State :=
  let current : CurrentSlice :=
    { slice := e, start := s.time, nominalEnd := s.time + effective, nextReady := none, ending := false, overrun := 0 }
  let s := charge s
  modCtx { s with sched := { s.sched with current := some current } } e.ctx fun c => { c with debt := 0 }

/-- Complete the entries at the head of the queue that their contexts' debt consumes whole (R348, R350). -/
def consumeHeads : Nat → State → State
  | 0, s => s
  | f + 1, s =>
    match s.sched.queue with
    | [] => s
    | e :: rest =>
      if debtOf s e.ctx < e.lengthNs then s
      else
        let s := modCtx s e.ctx fun c => { c with debt := c.debt - e.lengthNs }
        let s := { s with sched := { s.sched with queue := rest } }
        consumeHeads f (finish s e.q e.seq stOk (sliceReply 0 0 (debtOf s e.ctx)))

def popSlice (s : State) : State := { s with sched := { s.sched with queue := s.sched.queue.drop 1 } }

/-- With no slice current, take the head: at once for the context that is active, else by a switch-in (R348). -/
def takeSlice (s : State) : State :=
  if s.sched.current.isSome || s.sched.incoming.isSome then s
  else
    let s := consumeHeads s.sched.queue.length s
    match s.sched.queue with
    | [] => s
    | e :: _ =>
      let effective := e.lengthNs - debtOf s e.ctx
      let s := popSlice s
      if s.sched.active = some e.ctx then beginSlice s e effective
      else { s with sched := { s.sched with incoming := some (e, effective) } }

/-- The next slice is of the context that is active: it begins at once, without a switch and without debt (R348, R350). -/
def followSlice (s : State) (e : Slice) : State :=
  let s := popSlice (endSlice s)
  beginSlice s e (e.lengthNs - debtOf s e.ctx)

/-- At or after the nominal end, unless a switch is under way: with an entry that the debt does not consume, the slice ends, at once
where the next is the same context's; else it is extended (R348, R350). `ready` is when such an entry was first there. -/
def passEnd (s : State) (ready : Nat) : State :=
  if s.sched.incoming.isSome then s
  else
    let s := consumeHeads s.sched.queue.length s
    match s.sched.current, s.sched.queue with
    | some x, e :: _ =>
      if x.ending then s
      else if e.ctx = x.slice.ctx then followSlice s e
      else
        { s with sched := { s.sched with current := some { x with ending := true, nextReady := x.nextReady.or (some ready) } } }
    | _, _ => s

/-- A current slice beyond its nominal end, which entries already queued end or not. -/
def passDue (s : State) (ready : Option Nat) : State :=
  match s.sched.current with
  | some x => if x.nominalEnd ≤ s.time then passEnd s (ready.getD x.nominalEnd) else s
  | none => s

/-- SLICE_NOMINAL_END: the current slice reaches its nominal end. -/
def execSliceNominalEnd (s : State) : Host.Outcome State Fault Refusal :=
  .next (match running s, s.sched.current with
    | true, some x => passEnd (advanceTo s x.nominalEnd) x.nominalEnd
    | _, _ => s)

/-- The slice of a command, wherever it stands. -/
def knownSlice (s : State) (q seq : Nat) : Bool :=
  let is := fun e : Slice => e.q == q && e.seq == seq
  s.sched.queue.any is || s.sched.current.any (fun x => is x.slice) || s.sched.incoming.any fun x => is x.1

/-- CTX_SLICE: append a slice; it completes when the slice ends. -/
def execCtxSlice (q seq : Nat) (s : State) : Host.Outcome State Fault Refusal :=
  .next (onCmd s q seq 0x0904 fun s t =>
    if knownSlice s q seq then s
    else if (ctxAt s (t.param 0)).isNone ∨ t.param 1 < 100 ∨ 60000000 < t.param 1 then refuse s q seq stBadParam
    else
      let e : Slice := { ctx := t.param 0, lengthNs := t.param 1 * 1000, q, seq }
      let s := passDue s none
      if 16 ≤ s.sched.queue.length then refuse s q seq stBadParam
      else
        let s := { s with sched := { s.sched with queue := s.sched.queue ++ [e] } }
        if s.sched.current.isNone then takeSlice s else passDue s (some s.time))

/-! ### The switch (R351 to R353) -/

/-- Every pier sits between instructions with nothing outstanding (R351). -/
def atBoundary (s : State) : Bool := s.piers.all fun P => P.score.isEmpty && P.drain.isEmpty && P.lane.isNone

/-- Withdraw the rendezvous that a pier waits at: it is counted and sampled here, and not again when it is issued again (R352,
R418). -/
def withdraw (n : Nat) (im : Image) (s : State) (p : Nat) : State :=
  match meetingWord s im p with
  | none => s
  | some w =>
    let r := sampleTick s n p (opcodeOf w)
    let s := if r.2 then takeRecord r.1 n p w (pierAt s p).index (flag true 1) none none else r.1
    modCtx s n fun c => { c with sampling := c.sampling.map fun x =>
      { x with piers := x.piers.map fun z => if z.pier = p then { z with withdrawn := z.counting } else z } }

/-- The save area of a pier: pier p of tile t at p × 3 MiB (R353). -/
def padHome (c : Context) (p : Nat) : Nat := saveArea c (pierTile p) + p % 128 * (3 * mib)

/-- Write a pier's declared scratchpad range to its save area. -/
def savePad (n : Nat) (c : Context) (im : Image) (s : State) (p : Nat) : State :=
  let len := scratchOf im.decls p
  if faultedIn s n then s
  else
    match badWord (pierAt s p) [{ start := 0, bytes := len }] with
    | some a => padFault s n p a
    | none =>
      let s := correctWords s n p [{ start := 0, bytes := len }]
      let a := padHome c p
      let mem := (pierAt s p).mem
      match storeHbm s (pierReader n p) a len fun h => h.commit a len (Memory.copyFrom h.mem mem 0 a len) with
      | (s, true) => memoryFault s (pierReader n p)
      | (s, false) => s

/-- What a switch-out keeps of a pier: its position, and the LOAD_W of each plane in use. -/
def husk (P : Pier) : Pier :=
  { Pier.fresh P.id with
    index := P.index
    plane0 := { Plane.empty with loadedAt := P.plane0.loadedAt }
    plane1 := { Plane.empty with loadedAt := P.plane1.loadedAt } }

/-- Write a slot to its home h (R190): its single-bit errors are corrected, an uncorrectable word hands nothing on, a home in a FROZEN
range faults (R159). -/
def saveSlot (n : Nat) (im : Image) (x : SpanQueue) (i h len : Nat) (s : State) : State :=
  let y := slotAt x i
  let r := spanReader n (hostTile im x.decl)
  if !y.bad.isEmpty then slotFault s n im x
  else if !mayWrite im h len then spanFault s n im x h
  else
    match spillPath (correctSlot s n im x i y.weak) n (hostTile im x.decl) h with
    | (s, true) => s
    | (s, false) =>
      match storeHbm s r h len fun m => m.commit h len (Memory.copyFrom m.mem y.buf 0 h len) with
      | (s, true) => memoryFault s r
      | (s, false) => modSlot s n x.decl.queue i fun y => { y with buf := [] }

/-- Bytes of a slot that move between the Span buffer and its home. -/
def slotBytes (im : Image) (x : SpanQueue) : Nat := payloadOffset (classOf im x.decl) + (classOf im x.decl).payloadMax

/-- Write a queue's resident slots outside FREE to their homes (R190). -/
def saveSlots (n : Nat) (im : Image) (s : State) (x : SpanQueue) : State :=
  (List.range x.slots.length).foldl (fun s i =>
    let y := slotAt x i
    match slotHome im x.decl i with
    | none => s
    | some h =>
      if faultedIn s n then s
      else if y.resident && y.st != .free then saveSlot n im x i h (slotBytes im x) s
      else modSlot s n x.decl.queue i fun y => { y with buf := [], fetched := false, bad := [], weak := [] }) s

/-- Steps 2 to 4 for a running program: rendezvous withdrawn, slots and scratchpads written home, positions kept. -/
def saveProgram (s : State) (n : Nat) : State :=
  match ctxAt s n, imageAt s n, progAt s n with
  | some c, some im, some p =>
    let s :=
      if p.st == .running then
        let s := (allPiers im).foldl (withdraw n im) s
        let s := p.queues.foldl (saveSlots n im) s
        let s := (allPiers im).foldl (savePad n c im) s
        modProg s n fun x => { x with saved := (allPiers im).map fun k => husk (pierAt s k) }
      else s
    { s with piers := [] }
  | _, _, _ => { s with piers := [] }

/-- The wait from the due moment to the boundary becomes debt (R350). -/
def addOverrun (s : State) (x : CurrentSlice) : State :=
  let due := max x.nominalEnd (x.nextReady.getD x.nominalEnd)
  let late := s.time - due
  let s := { s with sched := { s.sched with current := some { x with overrun := late } } }
  modCtx s x.slice.ctx fun c => { c with debt := c.debt + late }

/-- SWITCH_OUT: the outgoing context has reached its boundary and is saved; with the next entry gone the slice is extended. -/
def execSwitchOut (s : State) : Host.Outcome State Fault Refusal :=
  .next (match running s && s.sched.incoming.isNone, s.sched.current with
    | true, some x =>
      if !x.ending || !atBoundary s then s
      else
        let s := consumeHeads s.sched.queue.length s
        match s.sched.queue with
        | [] =>
          opDone { s with sched := { s.sched with current := some { x with ending := false, nextReady := none } } } x.slice.ctx
        | e :: _ =>
          if e.ctx = x.slice.ctx then followSlice s e
          else
          let s := addOverrun s x
          let effective := e.lengthNs - debtOf s e.ctx
          let s := popSlice { s with sched := { s.sched with incoming := some (e, effective) } }
          saveProgram s x.slice.ctx
    | _, _ => s)

/-- Execute the last LOAD_W into a plane again (R353 step 9). -/
def reload (n : Nat) (im : Image) (plane : Bool) (s : State) (p : Nat) : State :=
  match (planeOf (pierAt s p) plane).loadedAt with
  | none => s
  | some i =>
    match readOrFault s (pierReader n p) (deckAddr im p i) 16 with
    | (s, none) => s
    | (s, some bs) => modPier s p fun P => setPlane P plane (loadedPlane P (loadWOf (leNat bs)) i)

/-- Load a pier's lane program store again from the image (R353; log 111). -/
def reloadStore (n : Nat) (im : Image) (s : State) (p : Nat) : State :=
  match sectionOf im 0x0004 p with
  | none => s
  | some x =>
    match readOrFault s (pierReader n p) (im.addr + x.offset) x.size with
    | (s, none) => s
    | (s, some bs) => modPier s p fun P => { P with store := bs }

/-- Restore a pier's scratchpad from its save area, its position, its lane program store and its planes; its instruction buffer fills
anew as it issues. -/
def restorePier (n : Nat) (c : Context) (im : Image) (s : State) (P : Pier) : State :=
  if faultedIn s n then s
  else
    let len := scratchOf im.decls P.id
    match readOrFault s (pierReader n P.id) (padHome c P.id) len with
    | (s, none) => s
    | (s, some _) =>
      let s := reloadStore n im (setPier s { P with mem := Memory.copyFrom [] s.hbm.mem (padHome c P.id) 0 len }) P.id
      reload n im true (reload n im false s P.id) P.id

/-- Restore a queue's resident slots from their homes (R190). -/
def restoreSlots (n : Nat) (im : Image) (s : State) (x : SpanQueue) : State :=
  let len := slotBytes im x
  (List.range x.slots.length).foldl (fun s i =>
    let y := slotAt x i
    match slotHome im x.decl i with
    | none => s
    | some h =>
      if faultedIn s n || !y.resident || y.st == .free then s
      else
        match spillPath s n (hostTile im x.decl) h with
        | (s, true) => s
        | (s, false) =>
          match readOrFault s (spanReader n (hostTile im x.decl)) h len with
          | (s, none) => s
          | (s, some _) =>
            modSlot s n x.decl.queue i fun y => { y with buf := Memory.copyFrom [] s.hbm.mem h 0 len, bad := [], weak := [] }) s

/-- Stay frames that waited while the context was inactive are sent as credit allows (R226). -/
def drainAssoc (n : Nat) (s : State) (a : Assoc) : State := drainBacklog a.backlog.length s n a.peer

/-- Steps 6 to 10 for the incoming context: restore a running program, or start one that is bound (R342, R353). -/
def restoreProgram (s : State) (n : Nat) : State :=
  match ctxAt s n, imageAt s n, progAt s n with
  | some c, some im, some p =>
    if p.st == .running then
      let s := p.queues.foldl (restoreSlots n im) s
      let s := p.saved.foldl (restorePier n c im) s
      let s := modProg s n fun x => { x with saved := [], watchdogAt := s.time }
      runStays (p.assocs.foldl (drainAssoc n) (p.queues.foldl (raiseHigh n) s)) n
    else if p.st == .waitingSlice then
      let s := p.queues.foldl (restoreSlots n im) s
      if faultedIn s n then s else startProgram s n
    else s
  | _, _, _ => s

/-- SWITCH_IN: the outgoing context's slice completes, and the incoming one becomes active. -/
def execSwitchIn (s : State) : Host.Outcome State Fault Refusal :=
  .next (match running s, s.sched.incoming with
    | true, some (e, effective) =>
      let s := endSlice s
      let s := charge s
      let s := { s with sched := { s.sched with active := some e.ctx, incoming := none } }
      restoreProgram (beginSlice s e effective) e.ctx
    | _, _ => s)

/-! ### CTX_DESTROY and CTX_QUERY (R346, R347) -/

/-- Pending slices: those in the queue, and one taken whose switch-in has not begun. -/
def pendingSlices (s : State) : List Slice := s.sched.queue ++ (s.sched.incoming.map (·.1)).toList

/-- Remove slices from the pending ones; a switch that was to bring one in goes on with the next entry, or leaves no context
active (log 44). -/
def dropSlices (s : State) (hit : Slice → Bool) : State :=
  let queue := s.sched.queue.filter fun e => !hit e
  match s.sched.incoming with
  | some x =>
    if hit x.1 then
      let s := { s with sched := { s.sched with queue, incoming := none } }
      let s := consumeHeads s.sched.queue.length s
      match s.sched.queue with
      | e :: _ => popSlice { s with sched := { s.sched with incoming := some (e, e.lengthNs - debtOf s e.ctx) } }
      | [] =>
        let s := endSlice s
        { s with sched := { s.sched with active := none } }
    else { s with sched := { s.sched with queue } }
  | none => { s with sched := { s.sched with queue } }

/-- A command that keeps its context from being destroyed (R346). -/
def ofContext (n context opcode : Nat) : Bool := context == n && opcode / 256 != 0x01 && opcode / 256 != 0x09

/-- A command of a context is outstanding: not ended, or its completion not yet written (R333, R346). -/
def commandsOf (s : State) (n : Nat) : Bool :=
  (s.cmds.any fun t => ofContext n t.context t.opcode)
    || (List.range 64).any fun q => (heldReplies s q).any fun c => ofContext n c.context c.opcode

/-- Release any checkpoint configuration that a context holds (R289, R346). -/
def releaseConfig (s : State) (n : Nat) : State :=
  if ckptHolder s = some n then
    { s with caisson := { s.caisson with config := none, newConfig := none, held := false, takes := [], timerDue := false } }
  else s

/-- Step 2 of R346: pending slices end ABORTED, the current one ends here with p2 and p3 0. -/
def endSlicesOf (s : State) (n : Nat) : State :=
  let gone := (pendingSlices s).filter fun e => e.ctx == n
  let s := dropSlices s fun e => e.ctx == n
  let s := gone.foldl (fun s e => finish s e.q e.seq stAborted []) s
  let s : State := match s.sched.current with
    | some x =>
      if x.slice.ctx = n then
        let s := charge s
        let s := { s with sched := { s.sched with current := none } }
        finish s x.slice.q x.slice.seq stOk (sliceReply (s.time - x.start) 0 0)
      else s
    | none => s
  if s.sched.active = some n then { charge s with sched := { (charge s).sched with active := none }, piers := [] } else s

/-- CTX_DESTROY. -/
def execCtxDestroy (q seq : Nat) (s : State) : Host.Outcome State Fault Refusal :=
  .next (onCmd s q seq 0x0902 fun s t =>
    let n := t.param 0
    match ctxAt s n with
    | none => refuse s q seq stBadParam
    | some c =>
      let bound := s.queues.zipIdx.any fun x => decide (4 ≤ x.2) && x.1.enable && x.1.ctx == n
      if c.image.isSome || bound || commandsOf s n then refuse s q seq stBadParam
      else
        let s := endSlicesOf (releaseConfig s n) n
        let s := ((grantRanges c).filter fun r => r.2 != 0).foldl zeroRange s
        takeSlice (finish (setCtx s n none) q seq stOk []))

/-- CTX_QUERY. -/
def execCtxQuery (q seq : Nat) (s : State) : Host.Outcome State Fault Refusal :=
  .next (onCmd s q seq 0x0906 fun s t =>
    let n := t.param 0
    if 4 ≤ q ∧ n ≠ (queueAt s q).ctx then refuse s q seq stNotPermitted
    else
      match ctxAt s n with
      | none => finish s q seq stOk []
      | some c =>
        let st := c.program.map (·.st)
        let p0 := 1 + flag (s.sched.active == some n) 1 + flag c.image.isSome 2 + flag (st == some .running) 3
          + flag (st == some .faulted || c.faultStatus != 0) 4 + flag c.permCtr 5 + c.faultStatus * 256
          + ((pendingSlices s).filter fun e => e.ctx == n).length * 65536
        finish s q seq stOk [p0, lo32 c.debt, hi32 c.debt, c.step])

/-! ### CMD_ABORT (R355 to R357) -/

/-- The slice of a command has begun (R356). -/
def sliceBegun (s : State) (t : Taken) : Bool :=
  s.sched.current.any fun x => x.slice.q == t.q && x.slice.seq == t.seq

/-- What stops with the target (R315, R357). -/
def stopTarget (s : State) (t : Taken) : State :=
  if t.opcode = 0x0904 then dropSlices s fun e => e.q == t.q && e.seq == t.seq
  else if t.opcode = 0x0302 then
    match progAt s t.context with
    | some p => if p.launchQ = t.q ∧ p.launchSeq = t.seq then dropLaunch (sendCloses s t.context) t.context else s
    | none => s
  else if t.opcode = 0x0702 then
    match findFeed s t.q t.seq with
    | some f => endFeed s f stAborted []
    | none => s
  else s

/-- The context whose running program a completed LAUNCH names. -/
def launched (s : State) (q seq : Nat) : Option Nat :=
  (List.range 16).find? fun n => (progAt s n).any fun p => p.launchQ == q && p.launchSeq == seq && p.st != .faulted

/-- A completion of the target waits for room in its ring (R333). -/
def replyHeld (s : State) (q seq : Nat) (c : Completion) : Bool :=
  settles q c { q, seq, tq := q, tseq := seq, outcome := 0 } && (queueAt s q).held.contains c

/-- An entry not yet written reports OK_ABORT_LATE where it was OK (R356). -/
def lateHeld (s : State) (q seq : Nat) : State :=
  modQueue s q fun Q =>
    { Q with held := Q.held.map fun c => if c.seq = seq ∧ c.kind = 0 ∧ c.status = stOk then { c with status := stAbortLate } else c }

/-- Act on a target, with the abort noted first so that the target's completion brings its reply. -/
def abortTarget (s : State) (q seq tq tseq : Nat) : State :=
  let note := fun (s : State) (outcome : Nat) => { s with aborts := s.aborts ++ [{ q, seq, tq, tseq, outcome }] }
  match findCmd s tq tseq with
  | some t =>
    if t.opcode = 0x0905 ∧ tq = q ∧ tseq = seq then finish s q seq stOk [3]
    else if unabortable t.opcode || (t.opcode == 0x0904 && sliceBegun s t) then note s 3
    else finish (stopTarget (note s 1) t) tq tseq stAborted []
  | none =>
    match launched s tq tseq with
    | some n => faultContext (note s 1) n stAborted
    | none =>
      match (queueAt s tq).held.find? (replyHeld s tq tseq) with
      | some c => if lateOutcome c = 3 then note s 3 else note (lateHeld s tq tseq) 2
      | none => finish s q seq stOk [0]

/-- The target has completed since the abort was taken: the abort completes, after the target's entry where that waits for room
(R356). -/
def abortLate (s : State) (q seq tq tseq outcome : Nat) : State :=
  if (queueAt s tq).held.any (replyHeld s tq tseq) then { s with aborts := s.aborts ++ [{ q, seq, tq, tseq, outcome }] }
  else finish s q seq stOk [outcome]

/-- CMD_ABORT. -/
def execCmdAbort (q seq : Nat) (s : State) : Host.Outcome State Fault Refusal :=
  .next (onCmd s q seq 0x0905 fun s t =>
    let tq := t.param 0
    if s.aborts.any fun a => a.q == q && a.seq == seq then s
    else if 4 ≤ q ∧ !mayAbort s q tq then refuse s q seq stNotPermitted
    else if 64 ≤ tq then refuse s q seq stBadParam
    else
      match t.late with
      | some outcome => abortLate s q seq tq (t.param 1) outcome
      | none => abortTarget s q seq tq (t.param 1))

end Sys2Proof.Machine
end

