-- ==== Sys2Proof/Machine/Counters.lean ====
section
/-! DEFINITION. Reading and selecting counters, and sampling sessions (chapter 17). -/

namespace Sys2Proof.Machine

/-! ### Selectors (R408, R410 to R413) -/

/-- Instances of a counter class. -/
def instanceOk (cls inst : Nat) : Bool :=
  if cls = 0 then decide (inst < 512) else if cls = 1 then decide (inst < 16) else if cls = 2 then decide (inst < 4096)
  else if cls = 3 then decide (inst < 4) else if cls = 4 then decide (inst < 64) else if cls = 5 then decide (inst < 12)
  else if cls = 6 then decide (inst < 80) else dieCodes.contains inst || inst == 0x30

/-- Counters of a class. -/
def indexCount (cls : Nat) : Nat := [16, 6, 7, 5, 17, 11, 3, 6].getD cls 0

def selClass (x : Nat) : Nat := bits x 31 28
def selInstance (x : Nat) : Nat := bits x 27 16
def selIndex (x : Nat) : Nat := bits x 7 0

/-- A selector names a counter (R408). -/
def selectorOk (x : Nat) : Bool :=
  decide (selClass x < 8) && instanceOk (selClass x) (selInstance x) && decide (bits x 15 8 = 0)
    && decide (selIndex x < indexCount (selClass x))

/-- The number of a port state (R231, R412). -/
def portCode : PortState → Nat
  | .disabled => 0
  | .detect => 1
  | .equalise => 2
  | .align => 3
  | .config => 4
  | .active => 5
  | .retrain => 6
  | .recal => 7
  | .failed => 8

/-- What a package counter reads, apart from the free values (R412, R413). -/
def packageCounter (s : State) (x : Nat) : Nat :=
  let k := selInstance x
  let stored := ((assoc s.counters x).getD 0 + (assoc s.waits x).getD 0) % 2 ^ 64
  let level := fun v : Option Int => unsigned 64 (v.getD 0)
  let failed := ((junctions k).zipIdx.map fun y => flag (hasFailed s y.1) y.2).sum
  if selClass x = 4 ∧ selIndex x = 13 then (portAt s k).ber
  else if selClass x = 4 ∧ selIndex x = 16 then portCode (portAt s k).st
  else if selClass x = 5 ∧ selIndex x = 10 then level (reading s (.stack k))
  else if selClass x = 7 then
    let d := dieAt s k
    let own := decide (k ≠ 0x30)
    if selIndex x = 0 then level (hottest s k)
    else if selIndex x = 1 then (if own then d.draw else 0)
    else if selIndex x = 2 then (if own then d.budget else 0)
    else if selIndex x = 3 then stored + (if own && d.atFloor && d.released then s.time - d.floorSince else 0)
    else if selIndex x = 4 then (if own then d.discards else 0)
    else failed
  else stored

/-- Levels that are free: the temperature of a source that no sensor has read (log 43). -/
def packageFree (s : State) (x : Nat) : Bool :=
  let k := selIndex x
  (selClass x == 5 && k == 10 && (reading s (.stack (selInstance x))).isNone)
    || (selClass x == 7 && k == 0 && (hottest s (selInstance x)).isNone)

/-- The image declares the stage or queue of a selector (R411). -/
def declared (im : Image) (x : Nat) : Bool :=
  if selClass x = 1 then decide (selInstance x < im.decls.stages.length)
  else if selClass x = 2 then im.decls.queues.any fun d => d.queue == selInstance x
  else true

/-- What a context counter reads: ARRAY_IDLE_NS is the time counted less the time with rows in the array (R410). -/
def contextCounter (c : Context) (x : Nat) : Nat :=
  let moved := (assoc c.waits x).getD 0
  if selClass x = 0 ∧ selIndex x = 13 then (c.activeNs - moved) % 2 ^ 64 else ((assoc c.counters x).getD 0 + moved) % 2 ^ 64

/-- What one capture reads; the second part says that it is a free value. -/
def counterValue (s : State) (n x : Nat) : Nat × Bool :=
  if 4 ≤ selClass x then (packageCounter s x, packageFree s x)
  else
    match ctxAt s n with
    | none => (0, false)
    | some c =>
      match c.image with
      | none => (0, false)
      | some im => (if declared im x then contextCounter c x else 0, false)

/-- The tile whose Span engine keeps a stage's or a queue's counters: the home tile of the stage, of the queue's consumer, or, where
that is remote, of its producer (07 R175, R203; log 43). -/
def spanTile (im : Image) (x : Nat) : Option Nat :=
  let tile := fun k => if k < im.decls.stages.length then some (homeTile im.decls k) else none
  if selClass x = 1 then tile (selInstance x)
  else (im.decls.queues.find? fun d => d.queue == selInstance x).bind fun d => (tile d.consumer).or (tile d.producer)

/-- The die that holds a counter, where the manual places it (R416): a module lies between two dies. -/
def counterDie (s : State) (n x : Nat) : Option Nat :=
  let k := selInstance x
  if selClass x = 0 then some (0x10 + pierTile k)
  else if selClass x = 1 ∨ selClass x = 2 then ((imageAt s n).bind fun im => spanTile im x).map (0x20 + ·)
  else if selClass x = 3 then some (0x20 + k)
  else if selClass x = 4 then some (0x20 + portTile k) else if selClass x = 5 then some (0x40 + k)
  else if selClass x = 7 then some k else none

/-- The longest time from one capture to the next (R416). -/
def captureBound (s : State) (n x y : Nat) : Nat :=
  if x = y ∨ ((counterDie s n x).isSome ∧ counterDie s n x = counterDie s n y) then 200 else 600

/-- The captures of a list: values with their stamps, and the state at the last of them. The times between captures and the
unread temperatures are free (log 2, log 43). -/
def captures (n : Nat) : List Nat → Option Nat → State → State × List (Nat × Nat)
  | [], _, s => (s, [])
  | x :: xs, before, s =>
    let s := match before with
      | some y => advanceTo (freeUsed s 1) (s.time + freeBelow s (captureBound s n y x + 1))
      | none => s
    let v := counterValue s n x
    let value := if v.2 then freeBelow s (2 ^ 64) else v.1
    let (s', l) := captures n xs (some x) (if v.2 then freeUsed s 1 else s)
    (s', (value, s.time) :: l)

/-! ### CTR_READ and CTR_SELECT (R414, R415) -/

def selectors (p : List Byte) : List Nat := (List.range (p.length / 4)).map fun i => field p (4 * i) 4

/-- Position of the first selector that is malformed, or that needs a context that does not exist. -/
def badSelector (s : State) (n : Nat) (xs : List Nat) : Option Nat :=
  xs.findIdx? fun x => !selectorOk x || (decide (selClass x < 4) && (ctxAt s n).isNone)

/-- CTR_READ: check every selector, then capture the counters in list order. -/
def execCtrRead (q seq : Nat) (s : State) : Host.Outcome State Fault Refusal :=
  .next (onCmd s q seq 0x0801 fun s t =>
    let xs := selectors t.payload
    if t.payload.length % 4 != 0 || xs.isEmpty || t.param64 0 % 32 != 0 || decide (2 ≤ t.param 2) then refuse s q seq stBadParam
    else
      match badSelector s t.context xs, (if 4 ≤ q then xs.findIdx? fun x => decide (4 ≤ selClass x) else none) with
      | some i, _ => finish s q seq stBadParam [i]
      | none, some i => finish s q seq stNotPermitted [i]
      | none, none =>
        let (s, l) := captures t.context xs none s
        let entry := fun e : Nat × Nat => leBytes 8 e.1 ++ if t.param 2 = 1 then leBytes 8 e.2 else []
        let stamp := fun e : Option (Nat × Nat) => lo32 ((e.map (·.2)).getD 0)
        finish (postHost s (t.param64 0) (l.flatMap entry)) q seq stOk [l.length, stamp l.head?, stamp l.getLast?])

/-- Give a pier its events; a counter whose event changes restarts at 0 (R414). -/
def selectEvents (es : List Nat) (c : Context) (pier : Nat) : Context :=
  let old := eventsOf c pier
  let stays := fun e : Nat × Nat =>
    !(decide (selClass e.1 = 0 ∧ selInstance e.1 = pier ∧ selIndex e.1 < 12)
      && decide (old.getD (selIndex e.1) 0 ≠ es.getD (selIndex e.1) 0))
  { c with events := setAssoc c.events pier es, counters := c.counters.filter stays, waits := c.waits.filter stays }

/-- The piers that a CTR_SELECT has yet to change: those that it names, at its start. -/
def toSelect (c : Context) (q seq : Nat) (piers : List Nat) : List Nat :=
  ((c.selecting.find? fun e => e.1 == q && e.2.1 == seq).map (·.2.2)).getD piers

/-- The pier is inside an instruction of the active context: a lane program that has not ended (R414). -/
def insideInstruction (s : State) (n p : Nat) : Bool := s.sched.active == some n && (pierAt s p).lane.isSome

/-- Change the piers that are at an instruction boundary; once all are changed, the command completes (R414). -/
def takeSelect (s : State) (q seq n : Nat) (piers es : List Nat) : State :=
  let (later, now) := piers.partition (insideInstruction s n)
  let s := modCtx s n fun c =>
    { now.foldl (selectEvents es) c with
      selecting := (c.selecting.filter fun e => !(e.1 == q && e.2.1 == seq)) ++ if later.isEmpty then [] else [(q, seq, later)] }
  if later.isEmpty then finish s q seq stOk [] else s

/-- CTR_SELECT: the events of one pier, or of every pier. While a pier of the active context is inside an instruction the command
waits for it. -/
def execCtrSelect (q seq : Nat) (s : State) : Host.Outcome State Fault Refusal :=
  .next (onCmd s q seq 0x0802 fun s t =>
    let es := t.payload.map (·.toNat)
    let all := t.param 0 == 0xFFFFFFFF
    match ctxAt s t.context with
    | none => refuse s q seq stBadParam
    | some c =>
      if es.length != 12 || es.any (fun e => decide (0x11 < e)) || (!all && decide (511 < t.param 0)) then refuse s q seq stBadParam
      else takeSelect s q seq t.context (toSelect c q seq (if all then List.range 512 else [t.param 0])) es)

/-! ### Sampling sessions (R417 to R421) -/

/-- The session that a payload spells (R417). -/
def sessionOf (p : List Byte) : Sampling :=
  { bufAddr := field p 0 8, bufBytes := field p 8 4, period := field p 12 4, stages := field p 16 2, wrap := bit (field p 18 1) 0
    opcodes := field p 20 4, written := 0, dropped := 0, piers := [], waiting := [] }

def sessionOk (p : List Byte) : Bool :=
  let x := sessionOf p
  decide (p.length = 32) && decide (field p 18 1 < 2) && zeroField p 19 1 && zeroField p 24 8 && decide (x.bufAddr % 4096 = 0)
    && decide (x.bufBytes % 32 = 0 ∧ 65536 ≤ x.bufBytes ∧ x.bufBytes ≤ 1073741824 ∧ 1024 ≤ x.period ∧ x.period ≤ 16777216)

/-- The buffer meets the image or one of its regions (R417). -/
def meetsImage (im : Image) (x : Sampling) : Bool :=
  rangesMeet x.bufAddr x.bufBytes im.addr im.bytes || im.decls.regions.any fun r => rangesMeet x.bufAddr x.bufBytes r.1 r.2

/-- SAMPLE_START: begin a session. -/
def execSampleStart (q seq : Nat) (s : State) : Host.Outcome State Fault Refusal :=
  .next (onCmd s q seq 0x0803 fun s t =>
    match ctxAt s t.context with
    | none => refuse s q seq stBadParam
    | some c =>
      match c.image with
      | none => refuse s q seq stBadParam
      | some im =>
        let x := sessionOf t.payload
        if c.sampling.isSome || !sessionOk t.payload || meetsImage im x then refuse s q seq stBadParam
        else if !granted s t.context x.bufAddr x.bufBytes then refuse s q seq stNotPermitted
        else
          let s := modCtx s t.context fun c => { c with sampling := some x }
          let s := (writeHbm s (hostReader t.context q) x.bufAddr (sampleHeader x 1)).1
          finish s q seq stOk [])

/-- SAMPLE_STOP: end the session and close its header. The reply counts the records written at that end. -/
def execSampleStop (q seq : Nat) (s : State) : Host.Outcome State Fault Refusal :=
  .next (onCmd s q seq 0x0804 fun s t =>
    let s := flushRecords s t.context
    match (ctxAt s t.context).bind (·.sampling) with
    | none => finish s q seq stOk []
    | some x => finish (endSampling s t.context) q seq stOk [lo32 x.written, hi32 x.written, lo32 x.dropped])

end Sys2Proof.Machine
end

