-- ==== Sys2Proof/Machine/ImageLoad.lean ====
section
/-! DEFINITION. IMAGE_LOAD: reading a span image and the nine load checks (02 R49, R57, 03 R101 to R103, R440, 07 R183 to R195, 08
R209 to R217, 10 R260, R261, R268, 13 R337). -/

namespace Sys2Proof.Machine

/-! ### Header, seal and sections (R57, R101, R102) -/

/-- The seal record lies at 0x40 (R101). -/
def sealField (b : List Byte) (o n : Nat) : Nat := field b (0x40 + o) n

def sectionCount (b : List Byte) : Nat := field b 6 2

def imageSections (b : List Byte) : List Section :=
  (List.range (sectionCount b)).map fun i =>
    let o := 0xC0 + 32 * i
    { type := field b o 2, scope := field b (o + 4) 4, offset := field b (o + 8) 8, size := field b (o + 16) 8 }

/-- The bytes of a section. -/
def Section.bytes (b : List Byte) (x : Section) : List Byte := slice b x.offset x.size

def ofType (xs : List Section) (t : Nat) : List Section := xs.filter fun x => x.type = t

/-- Check 1: seal magic and program_digest (R49, R101). -/
def loadCheck1 (b : List Byte) : Bool :=
  decide (0xC0 ≤ b.length) && decide (sealField b 0 4 = 0x5A454353) && sha256 (b.take 0x40 ++ b.drop 0xC0) == slice b 0x60 32

/-- Check 2: the ZEC version (R49, R64: 1.0 and 1.1). -/
def loadCheck2 (b : List Byte) : Bool := decide (sealField b 5 1 = 1 ∧ sealField b 4 1 ≤ 1)

/-- Scope of a section type: below the limit for piers and tiles, else the package (R103). -/
def scopeOk (x : Section) : Bool :=
  if [0x0003, 0x0004, 0x0005, 0x0009].contains x.type then decide (x.scope < 512)
  else if [0x0006, 0x0007, 0x000A].contains x.type then decide (x.scope < 4)
  else [0x0001, 0x0002, 0x0008].contains x.type && x.scope == 0xFFFFFFFF

/-- Sections do not overlap and none of a type names a scope twice (R102, R103). -/
def sectionsApart : List Section → Bool
  | [] => true
  | x :: xs => (xs.all fun y => !rangesMeet x.offset x.size y.offset y.size && !(x.type == y.type && x.scope == y.scope)) && sectionsApart xs

/-- Header and section table (R101 to R103), with the seal's reserved bytes 0 (R57 gives no check for them; DESIGN CHOICE, log 120). -/
def tableOfSections (b : List Byte) : Bool :=
  let n := sectionCount b
  let xs := imageSections b
  decide (field b 0 4 = 0x4D49585A) && decide (field b 4 2 = 1) && between 1 4096 n && decide (field b 8 8 = b.length)
    && decide (b.length ≤ 4 * 1073741824) && zeroField b 0x14 44 && decide (0xC0 + 32 * n ≤ b.length)
    && decide (field b 0x10 4 = (ofType xs 0x0003).length) && zeroField b 0x46 2 && zeroField b 0x58 8
    && decide (sealField b 8 4 = 0x00010001)
    && ((List.range n).all fun i => zeroField b (0xC0 + 32 * i + 2) 2 && zeroField b (0xC0 + 32 * i + 24) 8)
    && (xs.all fun x => scopeOk x && decide (x.offset % 4096 = 0 ∧ 0xC0 + 32 * n ≤ x.offset ∧ x.offset + x.size ≤ b.length))
    && sectionsApart xs && [0x0001, 0x0002, 0x0008].all fun t => (ofType xs t).length == 1

/-! ### Section contents (check 3) -/

/-- R92. -/
def deckOk (b : List Byte) : Bool := decide (b.length % 16 = 0 ∧ b.length / 16 ≤ 1048576)

/-- R90, R440. -/
def laneStoreOk (b : List Byte) : Bool :=
  let e := field b 0 2
  let n := field b 2 2
  decide (16 ≤ b.length) && between 1 256 e && between 1 4096 n && zeroField b 4 12 && decide (b.length = 16 + 4 * e + 8 * n)
    && (List.range e).all fun i => decide (field b (16 + 4 * i) 4 < n)

/-- R128. -/
def windowsOk (b : List Byte) : Bool := decide (b.length % 32 = 0 ∧ b.length / 32 ≤ 1024)

/-- One policy operation (R191). -/
def policyWord (w : Nat) : PolicyOp :=
  { op := bits w 63 56, first := bits w 55 48, count := bits w 47 40, spilled := bit w 32, queue := bits w 31 16 }

def policyWords (b : List Byte) : List Nat := (List.range (b.length / 8)).map fun i => field b (8 * i) 8

def policyWordOk (w : Nat) : Bool :=
  let o := policyWord w
  decide (o.op < 4) && bits w 15 0 == 0 && (if o.op = 1 then decide (bits w 39 32 < 2) else o.first == 0 && bits w 39 32 == 0)
    && (o.op != 0 || o.count == 0) && (o.op != 2 || decide (o.count ≤ 8))

/-- R191, R192: at most eight operations for one queue. -/
def policyOk (b : List Byte) : Bool :=
  let ws := policyWords b
  decide (b.length % 8 = 0) && ws.all policyWordOk
    && ws.all fun w => decide ((ws.filter fun v => bits v 31 16 == bits w 31 16).length ≤ 8)

/-- One Footing command (R261). -/
def footCmdOf (w : Nat) : FootCmd :=
  { op := bits w 127 120, stack := bits w 119 116, length := bits w 111 80, src := bits w 79 48, dst := bits w 47 16 }

def footCmdOk (d : Decls) (tile w : Nat) : Bool :=
  let c := footCmdOf w
  let n := 32 * c.length
  let at_ := fun o : Nat => stackBase c.stack + 32 * o
  decide (c.op < 3) && bits w 115 112 == 0 && bits w 15 0 == 0 && c.stack / 3 == tile
    && (c.op == 0 || (decide (1 ≤ c.length) && covered d.regions (at_ c.dst) n
      && (c.op == 2 || (covered d.regions (at_ c.src) n && !rangesMeet (at_ c.src) n (at_ c.dst) n))))

def footWords (b : List Byte) : List Nat := (List.range (field b 6 2)).map fun i => field b (16 + 16 * i) 16

/-- R260, R261. -/
def footOk (d : Decls) (tile : Nat) (b : List Byte) : Bool :=
  let n := field b 6 2
  decide (field b 0 4 = 0x544F4F46) && decide (field b 4 2 = 1) && between 1 4096 n && decide (field b 8 1 < 2) && zeroField b 9 7
    && decide (16 + 16 * n ≤ b.length) && (footWords b).all (footCmdOk d tile)

def footSeqOf (tile : Nat) (b : List Byte) : FootSeq :=
  { tile, afterRestore := field b 8 1 == 1, cmds := (footWords b).map footCmdOf }

/-! ### Stay schedules (R209 to R217) -/

def memberTable (b : List Byte) (o : Nat) : MemberTable :=
  { d := field b o 2, s := field b (o + 2) 2, p := field b (o + 4) 1, ownRank := field b (o + 6) 2
    packages := (List.range (field b o 2)).map fun r => field b (o + 16 + 2 * r) 2 }

/-- Bytes of a member table (R212). -/
def tableBytes (d : Nat) : Nat := 16 + ceilDiv (2 * d) 16 * 16

/-- Offsets of `n` member tables that follow each other. -/
def tableOffsets (b : List Byte) : Nat → Nat → List Nat
  | 0, _ => []
  | n + 1, o => o :: tableOffsets b n (o + tableBytes (field b o 2))

def memberTableOk (b : List Byte) (o : Nat) : Bool :=
  let t := memberTable b o
  between 1 4096 t.d && between 1 4096 t.s && between 1 16 t.p && decide (t.s * t.p = t.d ∧ t.ownRank < t.d) && zeroField b (o + 5) 1
    && zeroField b (o + 8) 8 && decide (o + tableBytes t.d ≤ b.length)
    && zeroField b (o + 16 + 2 * t.d) (tableBytes t.d - 16 - 2 * t.d)

def stepOf (w : Nat) : StayStep := { op := bits w 63 56, piece := bits w 55 44, peerIn := bits w 43 32, peerOut := bits w 31 20 }

/-- Ops that an entry's kind accepts (R214). -/
def acceptsOp (kind op : Nat) : Bool :=
  op == 0 || (if kind = 0 then [4, 5, 6].contains op else if kind = 1 then [1, 2, 3].contains op else [1, 2, 3, 4, 5].contains op)

def stepOk (kind d w : Nat) : Bool :=
  let x := stepOf w
  acceptsOp kind x.op && bits w 19 0 == 0 && decide (x.piece < d ∧ x.peerIn < d ∧ x.peerOut < d)
    && (x.peerIn == 0 || x.op == 1 || x.op == 5) && (x.peerOut == 0 || x.op == 2 || x.op == 4)

/-- Format pairs of a GATHER (R217). -/
def widens (src dst : Nat) : Bool :=
  decide (src ≤ 5) && (src == dst || (decide (1 ≤ src) && dst == 0) || (src == 3 && (dst == 1 || dst == 2)) || (src == 4 && dst == 1)
    || (src == 5 && between 1 4 dst))

/-- Formats and totals by kind (R211, R213, R219). -/
def formatsOk (e : StayEntry) : Bool :=
  let half := fun f : Nat => f == 0 || f == 8
  (if e.kind = 0 then widens e.srcFmt e.dstFmt
    else if e.kind = 1 then half e.srcFmt && e.dstFmt == 0
    else if e.op = 3 then e.srcFmt == 9 && e.dstFmt == 9 && decide (e.total ≤ 262144)
    else decide (e.op < 3) && half e.srcFmt && half e.dstFmt && decide (e.total ≤ 262144))
    && (e.op == 0 || e.kind == 2) && decide (e.total % 32 = 0) && (e.total != 0 || e.consensus)
    && (if e.kind = 0 then decide (e.layout < 2) else e.layout == 0) && (e.layout == 0 || e.total % 16384 == 0)
    && (e.scaleDst == 0 || (e.kind == 0 && e.dstFmt != 0))

/-- Words of an entry's step list (R210, R214). -/
def stepWords (b : List Byte) (o : Nat) : List Nat :=
  (List.range (field b (o + 0x2C) 2)).map fun j => field b (field b 0x34 4 + field b (o + 0x28) 4 + 8 * j) 8

/-- The entry at an offset of a schedule (R210). -/
def entryOf (b : List Byte) (tables : List MemberTable) (o : Nat) : StayEntry :=
  let d := ((tables[field b (o + 6) 2]?).map (·.d)).getD 0
  let lens := field b (o + 12) 4
  { kind := field b o 1, grad := bit (field b (o + 1) 1) 0, consensus := bit (field b (o + 1) 1) 1, srcFmt := field b (o + 2) 1
    dstFmt := field b (o + 3) 1, op := field b (o + 4) 1, layout := field b (o + 5) 1, table := field b (o + 6) 2
    total := field b (o + 8) 4
    lengths := if lens = 0xFFFFFFFF then none else some ((List.range d).map fun r => field b (field b 0x30 4 + lens + 4 * r) 4)
    src := field b (o + 0x10) 8, dst := field b (o + 0x18) 8, scaleDst := field b (o + 0x20) 8
    steps := (stepWords b o).map stepOf, raw := slice b o 64 }

/-- The length table of an entry (R213). -/
def lengthsOk (b : List Byte) (o d : Nat) (e : StayEntry) : Bool :=
  match e.lengths with
  | none => e.kind == 2 || e.total % (32 * d) == 0
  | some ls =>
    e.kind != 2 && decide (field b 0x30 4 + field b (o + 12) 4 + 4 * d ≤ b.length) && (ls.all fun n => n % 32 == 0)
      && ls.sum == e.total

def entryOkAt (b : List Byte) (tables : List MemberTable) (i : Nat) : Bool :=
  let o := field b 0x28 4 + 64 * i
  let e := entryOf b tables o
  match tables[e.table]? with
  | none => false
  | some t =>
    decide (o + 64 ≤ b.length) && decide (e.kind < 3) && decide (field b (o + 1) 1 < 4) && zeroField b (o + 0x2E) 18
      && (e.consensus == (i == field b 0x0C 2)) && (!e.consensus || e.kind == 2) && formatsOk e && lengthsOk b o t.d e
      && between 1 65535 (field b (o + 0x2C) 2)
      && decide (field b 0x34 4 + field b (o + 0x28) 4 + 8 * field b (o + 0x2C) 2 ≤ b.length)
      && (stepWords b o).all (stepOk e.kind t.d)

/-- The member tables of a schedule. -/
def tablesOf (b : List Byte) : List MemberTable := (tableOffsets b (field b 8 2) (field b 0x2C 4)).map (memberTable b)

/-- A tile's schedule (R209). -/
def scheduleOf (tile : Nat) (b : List Byte) : StaySchedule :=
  { tile, maxOutstanding := field b 0x0A 1, consensusEntry := field b 0x0C 2, verdictAddr := field b 0x10 8
    stagingAddr := field b 0x18 8, stagingBytes := field b 0x20 8
    entries := (List.range (field b 6 2)).map fun i => entryOf b (tablesOf b) (field b 0x28 4 + 64 * i)
    tables := tablesOf b }

/-- The structure of a schedule (check 3, R214). -/
def scheduleOk (tile : Nat) (b : List Byte) : Bool :=
  let d := scheduleOf tile b
  decide (64 ≤ b.length) && decide (field b 0 4 = 0x59415453) && decide (field b 4 2 = 1) && between 1 4096 (field b 6 2)
    && between 1 64 (field b 8 2) && between 1 32 d.maxOutstanding && zeroField b 0x0B 1 && decide (d.consensusEntry < field b 6 2)
    && zeroField b 0x0E 2 && decide (d.verdictAddr % 32 = 0 ∧ d.stagingAddr % 4096 = 0) && between mib (4096 * mib) d.stagingBytes
    && zeroField b 0x38 8 && inGeneral d.stagingAddr d.stagingBytes && ((stackOf d.stagingAddr).any fun k => k / 3 == tile)
    && (tableOffsets b (field b 8 2) (field b 0x2C 4)).all (memberTableOk b)
    && (List.range (field b 6 2)).all (entryOkAt b d.tables)

/-- The contents of one section (check 3). -/
def contentsOk (d : Decls) (b : List Byte) (x : Section) : Bool :=
  let c := x.bytes b
  if x.type = 0x0003 then deckOk c else if x.type = 0x0004 then laneStoreOk c else if x.type = 0x0005 then windowsOk c
  else if x.type = 0x0006 then scheduleOk x.scope c else if x.type = 0x0007 then policyOk c
  else if x.type = 0x000A then footOk d x.scope c else true

/-- Check 3. -/
def loadCheck3 (d : Decls) (b : List Byte) : Bool := tableOfSections b && (imageSections b).all (contentsOk d b)

/-! ### Declarations (checks 4 to 9) -/

/-- Check 4 (R48, R92). -/
def loadCheck4 (d : Decls) (b : List Byte) : Bool :=
  let piers := d.stages.flatMap (·.piers)
  between 1 16 d.stages.length && sealField b 0x0C 2 == d.stages.length && (d.stages.all fun k => !k.piers.isEmpty)
    && (piers.all fun p => decide (p < 512)) && piers.eraseDups.length == piers.length
    && ((imageSections b).filter fun x => [0x0003, 0x0004, 0x0005, 0x0009].contains x.type).all fun x => piers.contains x.scope

/-- A slot class within R183. -/
def slotClassOk (c : SlotClass) : Bool :=
  decide (c.payloadMax % 32 = 0) && between 32 268435456 c.payloadMax && between 1 1048576 c.maxTokens && decide (c.segMax ≤ 4096)

/-- A SPAN_BUFFER declaration within R48 and R268. -/
def spanBufferOk (d : Decls) (x : SpanBufferDecl) : Bool :=
  decide (x.tile < 4) && decide (x.resident ≤ 96 * mib) && decide (x.spillAddr % 4096 = 0) && between 1 (32768 * mib) x.spillBytes
    && inGeneral x.spillAddr x.spillBytes && ((stackOf x.spillAddr).any fun k => k / 3 == x.tile)
    && covered d.regions x.spillAddr x.spillBytes

/-- The fields of R187 that say where a queue ends. -/
def queueEndsOk (d : Decls) (x : QueueDecl) : Bool :=
  let n := d.stages.length
  let far := x.producer == remote || x.consumer == remote
  let own := if x.consumer = remote then x.producer else x.consumer
  let ports := portsOf x.ports
  (decide (x.producer < n) || x.producer == 0xFFFF || x.producer == remote) && (decide (x.consumer < n) || x.consumer == remote)
    && !(x.consumer == remote && decide (n ≤ x.producer)) && (x.kind == 3) == (x.producer == 0xFFFF)
    && (if far then
        decide (x.link < 4096 ∧ x.peer < 4096) && between 1 8 x.bond && decide (x.ports < 2 ^ 64) && ports.length == x.bond
          && ports.all fun p => portTile p == homeTile d own
      else x.link == 0xFFFF && x.peer == 0xFFFF && x.bond == 0 && x.ports == 0)

/-- A branch queue names a group of its kind and stage (R195). At the end away from the forking or joining stage the group is
the other package's, and both ends carry its index (R182, R187). -/
def queueGroupOk (d : Decls) (x : QueueDecl) : Bool :=
  let stage := if x.kind = 1 then x.producer else x.consumer
  if x.kind = 1 ∨ x.kind = 2 then
    if stage = remote then x.group != 0xFFFF
    else d.groups.any fun g => g.index == x.group && g.kind + 1 == x.kind && g.stage == stage
  else x.group == 0xFFFF

/-- Slot homes lie inside the hosting tile's spill range (R268). -/
def queueHomeOk (d : Decls) (x : QueueDecl) (c : SlotClass) : Bool :=
  x.consumer == remote || d.spanBuffers.any fun sb =>
    sb.tile == homeTile d x.consumer && decide (x.home * 4096 + x.depth * slotSize c ≤ sb.spillBytes)

/-- A queue declaration (R48, R183, R187). -/
def queueDeclOk (d : Decls) (x : QueueDecl) : Bool :=
  match d.slotClasses[x.slotClass]? with
  | none => false
  | some c =>
    decide (x.queue < 4096) && between 1 64 x.depth && decide (x.kind < 4) && queueEndsOk d x && queueGroupOk d x
      && decide (x.descAddr % 32 = 0 ∧ x.descAddr < 0x300000) && queueHomeOk d x c
      && (d.queues.filter fun y => y.kind = 3).all fun y => (d.slotClasses[y.slotClass]?).all fun f =>
        decide (f.maxTokens ≤ c.maxTokens ∧ f.segMax ≤ c.segMax)

/-- JOIN offsets leave branch slices of a length apart (R195). -/
def slicesApart (len : Nat) : List Nat → Bool
  | [] => true
  | o :: os => (os.all fun p => decide (o + len ≤ p ∨ p + len ≤ o)) && slicesApart len os

/-- The words of a pier's deck in an image's bytes. -/
def deckWords (b : List Byte) (p : Nat) : List Nat :=
  ((imageSections b).filter fun x => x.type = 0x0003 ∧ x.scope = p).flatMap fun x =>
    (List.range (x.size / 16)).map fun i => field b (x.offset + 16 * i) 16

/-- A fork or join group (R195). Entries of offset at or above b must be 0, which the table states for a fork only (DESIGN CHOICE,
log 120). -/
def groupOk (d : Decls) (b : List Byte) (g : GroupDecl) : Bool :=
  let qs := g.queues.take g.branches
  decide (g.kind < 2) && between 2 8 g.branches && decide (g.stage < d.stages.length) && g.queues.length == 8 && g.offsets.length == 8
    && (qs.all fun q => d.queues.any fun x => x.queue == q && x.group == g.index && x.kind == g.kind + 1)
    && ((g.queues.drop g.branches).all (· == 0xFFFF)) && ((g.offsets.drop g.branches).all (· == 0))
    && (if g.kind = 0 then g.offsets.all (· == 0)
      else (stagePiers d g.stage).all fun p => (deckWords b p).all fun w =>
        opcodeOf w != 0x14 || (generalOf w).index != g.index || slicesApart (generalOf w).length (g.offsets.take g.branches))

/-- Bytes of resident slots on a tile (R192). -/
def residentBytes (d : Decls) (ops : List PolicyOp) (tile : Nat) : Nat :=
  (d.queues.map fun x =>
    if x.consumer != remote && homeTile d x.consumer == tile then
      let mine := ((ops.filter fun o => o.queue = x.queue).take 8).takeWhile fun o => o.op != 0
      let resident := fun i : Nat => mine.foldl (fun r o => if o.op = 1 ∧ o.first ≤ i ∧ i < o.first + o.count then !o.spilled else r) false
      ((d.slotClasses[x.slotClass]?).map slotSize).getD 0 * ((List.range x.depth).filter resident).length
    else 0).sum

/-- The policies of an image. -/
def imagePolicies (b : List Byte) : List PolicyOp :=
  (ofType (imageSections b) 0x0007).flatMap fun x => (policyWords (x.bytes b)).map policyWord

/-- Check 5. It also refuses a FROZEN range that no HBM_REGION covers and a policy operation for an undeclared queue, of which
the check's rules say nothing (log 120). -/
def loadCheck5 (d : Decls) (b : List Byte) : Bool :=
  (d.frozen.isEmpty || decide (1 ≤ sealField b 4 1)) && (d.frozen.all fun r => covered d.regions r.1 r.2)
    && (d.stages.all fun k => k.scratch.all fun x => k.piers.contains x.1 && decide (x.2 ≤ 3145728))
    && ((ofType (imageSections b) 0x0009).all fun x => decide (x.size ≤ scratchOf d x.scope))
    && decide (d.slotClasses.length ≤ 16) && (d.queues.isEmpty || !d.slotClasses.isEmpty) && d.slotClasses.all slotClassOk
    && decide ((d.queues.filter fun x => x.kind = 3).length ≤ 1) && d.spanBuffers.all (spanBufferOk d)
    && (d.spanBuffers.map (·.tile)).eraseDups.length == d.spanBuffers.length
    && (d.queues.map (·.queue)).eraseDups.length == d.queues.length && d.queues.all (queueDeclOk d)
    && (d.groups.map fun g => (g.kind, g.index)).eraseDups.length == d.groups.length && d.groups.all (groupOk d b)
    && ((imagePolicies b).all fun o => o.op == 0 || d.queues.any fun x => x.queue == o.queue)
    && (List.range 4).all fun t =>
      decide (residentBytes d (imagePolicies b) t ≤ ((d.spanBuffers.find? fun x => x.tile = t).map (·.resident)).getD 0)

/-- Check 6 (R48, R57). -/
def loadCheck6 (d : Decls) (b : List Byte) : Bool :=
  (if d.staggered then between 2 8 d.versions else d.versions == 1) && between 1 64 d.slotBudget
    && sealField b 0x0E 1 == (if d.staggered then 1 else 0) && sealField b 0x0F 1 == d.versions && sealField b 0x10 2 == d.slotBudget
    && sealField b 0x12 2 == d.versions * d.slotBudget

/-- An actor that a declaration may name. -/
def actorOk (d : Decls) (a : Actor) : Bool :=
  match a with
  | .stage k => decide (k < d.stages.length)
  | .stay t => decide (t < 4)
  | _ => true

/-- Check 7 (R40, R44). -/
def loadCheck7 (d : Decls) (b : List Byte) : Bool :=
  sealField b 0x14 4 == d.tokens.length && (d.tokens.map (·.channel)).eraseDups.length == d.tokens.length
    && (d.tokens.all fun t => between 1 65535 t.capacity && decide (t.initial ≤ t.capacity) && actorOk d t.producer && actorOk d t.consumer
      && (t.consumer != .host || (t.initial == 0 && decide (t.ring < 64))))
    && (List.range d.stages.length).all fun k =>
      decide ((d.tokens.filter fun t => t.producer == .stage k || t.consumer == .stage k).length ≤ 4096)

/-- Check 8. It also refuses a region of zero length, of which R49 says nothing (log 120). -/
def loadCheck8 (d : Decls) : Bool := d.regions.all fun r => decide (r.2 ≠ 0) && inGeneral r.1 r.2

/-- Check 9. -/
def loadCheck9 (s : State) (n : Nat) (d : Decls) : Bool := d.regions.all fun r => granted s n r.1 r.2

/-- The first load check that fails, with its status (R49). -/
def loadCheck (s : State) (n : Nat) (d : Decls) (b : List Byte) : Option (Nat × Nat) :=
  if !loadCheck1 b then some (stDigestMismatch, 1)
  else if !loadCheck2 b then some (stBadParam, 2)
  else if !loadCheck3 d b then some (stBadParam, 3)
  else if !loadCheck4 d b then some (stBadParam, 4)
  else if !loadCheck5 d b then some (stBadParam, 5)
  else if !loadCheck6 d b then some (stBadParam, 6)
  else if !loadCheck7 d b then some (stBadParam, 7)
  else if !loadCheck8 d then some (stBadParam, 8)
  else if !loadCheck9 s n d then some (stNotPermitted, 9)
  else none

/-- Fence channels in ascending stage order: the Caisson consumes them (R273). -/
def fencesOf (d : Decls) : List Nat :=
  (List.range d.stages.length).flatMap fun k =>
    (d.tokens.filter fun t => t.consumer == .caisson && t.producer == .stage k).map (·.channel)

/-- The loaded image. -/
def imageOf (addr : Nat) (d : Decls) (b : List Byte) : Image :=
  let xs := imageSections b
  { addr, bytes := b.length, sections := xs, zecDigest := slice b 0x80 32, redDigest := slice b 0xA0 32
    decls := { d with fences := fencesOf d }
    stays := (ofType xs 0x0006).map fun x => scheduleOf x.scope (x.bytes b)
    policies := imagePolicies b
    foots := (ofType xs 0x000A).map fun x => footSeqOf x.scope (x.bytes b) }

/-- IMAGE_LOAD: copy the image and apply the load checks; a refused load writes nothing (R335). The step number and the next mb_id are
those of a first launch (R170, R193); the version counter goes on (DESIGN CHOICE, log 131). -/
def execImageLoad (q seq : Nat) (image : HostRead) (decls : Decls) (s : State) : Host.Outcome State Fault Refusal :=
  .next (onCmd s q seq 0x0301 fun s t =>
    let p := t.payload
    let bytes := field p 8 8
    let addr := field p 16 8
    match ctxAt s t.context with
    | none => refuse s q seq stBadParam
    | some c =>
      if c.image.isSome || decide (p.length ≠ 32) || !zeroField p 24 8 || decide (addr % 4096 ≠ 0) || decide (4 * 1073741824 < bytes)
          || decide (bytes = 0) then refuse s q seq stBadParam
      else if !granted s t.context addr bytes then refuse s q seq stNotPermitted
      else
        match image with
        | none => finish s q seq stBadParam [0xFFFFFFFF]
        | some b =>
          if b.length ≠ bytes then finish s q seq stBadParam [0xFFFFFFFF]
          else
            match loadCheck s t.context decls b with
            | some (st, k) => finish s q seq st [k]
            | none =>
              let (s, bad) := writeHbm s (hostReader t.context q) addr b
              if bad then finish s q seq stMemUncorrectable []
              else finish (modCtx s t.context fun c => { c with image := some (imageOf addr decls b), step := 0, nextMb := 0 }) q seq stOk [])

end Sys2Proof.Machine
end

