-- ==== Sys2Proof/Machine/Tether.lean ====
section
/-! DEFINITION. The register window (13 R322 to R325, R331, R333, R338, 06 R162), the Tether link, its retry and its loss (13 R318 to R321,
R329, R339), removal (18 R436). -/

namespace Sys2Proof.Machine

def modTether (s : State) (f : Tether → Tether) : State := { s with tether := f s.tether }

/-! ### Removal (R436) -/

/-- Running programs end as by a fault with ABORTED; launches that wait are dropped. -/
def stopPrograms (s : State) : State :=
  (List.range 16).foldl (fun s n =>
    match progAt s n with
    | none => s
    | some p => if p.st = .running then faultContext s n stAborted
                else if p.st = .faulted then s else dropLaunch (sendCloses s n) n) s

/-- Outstanding commands complete ABORTED. -/
def abortCommands (s : State) : State :=
  s.cmds.foldl (fun s t => if (findCmd s t.q t.seq).isSome then finish s t.q t.seq stAborted [] else s) s

/-- Step 5: the Footings enter self-refresh, the link goes down, and the package leaves service, with the adapter told. -/
def leaveService (s : State) : State :=
  let s := modTether (footingsDown s) fun t => { t with st := .down, outSince := none, events := t.events ++ [.removeReady] }
  { s with
    pkg := { s.pkg with
      removing := false, oos := true, oosCode := if s.pkg.oos then s.pkg.oosCode else 0, ready := false, phase := .stopped } }

/-- A removal goes on: TE_ALERT_N once every completion is written; out of service once the adapter has acknowledged them all. -/
def settleRemoval (s : State) : State :=
  if s.pkg.removing && s.queues.all (·.held.isEmpty) then
    let s := { s with pkg := { s.pkg with removeAlert := true } }
    if s.tether.posted.any (·.reply) then s else leaveService s
  else s

/-- Steps 3 and 4: programs, commands, feeds and slices end. -/
def beginRemoval (s : State) : State :=
  let s := abandonCkpt (abortCommands (stopPrograms s)) stAborted
  { s with apr := { s.apr with feeds := [] }, sched := .fresh, aborts := [], pkg := { s.pkg with removing := true } }

/-- REMOVE: running programs and outstanding commands end ABORTED; once their completions are written and acknowledged the package
leaves service. -/
def execRemove (s : State) : Host.Outcome State Fault Refusal :=
  .next (if running s && s.pkg.cable && !s.pkg.removing then settleRemoval (beginRemoval s) else s)

/-! ### Registers (R325, R331, R333) -/

/-- Stop a queue with its mailbox event (R327, R328, R331). -/
def stopQueue (s : State) (q cause expect found : Nat) : State :=
  let s := logError s 0x0061 cause sevWarning srcPackage 0xFF 0xFF [q, expect, found]
  modQueue s q fun Q =>
    { Q with
      stopped := true, stopEvent := cause == 0x20, cause, target := none, staleFrom := none, event := cause, expect, found
      mptime := lo32 s.time }

/-- A doorbell (R327). -/
def ring (s : State) (q value : Nat) : State :=
  let Q := queueAt s q
  let d := sub32 value Q.head
  if Q.stopped || !s.pkg.ready || decide (2 ^ 31 ≤ d) then modQueue s q fun Q => { Q with ignored := min (Q.ignored + 1) 255 }
  else if 2 ^ (Q.ringLog2 + 4) < d + 1 then stopQueue s q stBadParam Q.head value
  else modQueue s q fun Q => { Q with target := some value }

/-- QARM (R325, R331). -/
def armQueue (s : State) (q value : Nat) : State :=
  modQueue s q fun Q =>
    if Q.enable && Q.stopped then
      { Q with
        head := value, stopped := false, stopEvent := false, target := none, staleFrom := none, ignored := 0, event := 0, expect := 0
        found := 0, mptime := 0 }
    else Q

/-- QCFG (R325; log 47 for the record of a wrong ring size). -/
def configQueue (s : State) (q value : Nat) : State :=
  let Q := queueAt s q
  let on := bit value 31
  if Q.enable then
    if on then s else modQueue s q fun Q => { Q with enable := false, stopped := true, target := none, staleFrom := none }
  else
    let cpl := bits value 11 8
    let rlog := bits value 3 0
    let s := modQueue s q fun Q => { Q with ctx := bits value 19 16, cplLog2 := cpl, ringLog2 := rlog }
    if !on then s
    else if 12 < cpl ∨ 12 < rlog then logError s 0x0061 stBadParam sevWarning srcPackage 0xFF 0xFF [q, value]
    else
      settleRemoval (flushHeld (modQueue s q fun Q =>
        { Q with enable := true, stopped := true, stopEvent := false, target := none, staleFrom := none, ctail := 0, chead := 0 }) q)

/-- QCTAIL: held completions follow into the room (R333). -/
def moveTail (s : State) (q value : Nat) : State := settleRemoval (flushHeld (modQueue s q fun Q => { Q with ctail := value }) q)

/-- LOSS_SCALE.EXP of the active context (R161, R162); with none active a valid value finds nothing to set (log 48). A value out of
range is recorded whatever is active. -/
def writeScale (s : State) (value : Nat) : State :=
  let v := signed 8 (value % 256)
  if !expOk v then logError s 0x0054 0 sevWarning srcPackage 0xFF (s.sched.active.getD 0xFF) [value % 256]
  else
    match s.sched.active with
    | none => s
    | some n => modCtx s n fun c => { c with ls := c.ls.write (c.program.any fun p => p.st == .running) v }

/-- A plain register of a queue: discarded while the queue is enabled (R325). -/
def writeBase (s : State) (q o value : Nat) : State :=
  modQueue s q fun Q =>
    if Q.enable then Q
    else if o = 0x00 then { Q with ringLo := value / 4096 * 4096 }
    else if o = 0x04 then { Q with ringHi := value }
    else if o = 0x08 then { Q with cplLo := value / 4096 * 4096 }
    else if o = 0x0C then { Q with cplHi := value }
    else Q

/-- What a write to an offset of the window does; read-only and reserved offsets discard it (R7, R8, R322). -/
def writeRegister (s : State) (o value : Nat) : State :=
  let q := (o % 0x1000) / 64
  let r := o % 64
  if o = 0x0020 then writeScale s value
  else if 0x1000 ≤ o ∧ o < 0x1100 then ring s ((o - 0x1000) / 4) value
  else if 0x2000 ≤ o ∧ o < 0x3000 then
    if r = 0x10 then configQueue s q value
    else if r = 0x14 then armQueue s q value
    else if r = 0x1C then moveTail s q value
    else writeBase s q r value
  else if 0x3000 ≤ o ∧ o < 0x4000 ∧ r < 0x30 then modQueue s q fun Q => { Q with data := Q.data.set (r / 4) value }
  else s

/-! ### Host accesses (R320 to R323, R338, R340) -/

/-- Every posted write is acknowledged (R338). -/
def acknowledge (s : State) : State :=
  modTether s fun t => { t with hostMem := t.posted.foldl (fun m w => Memory.write m w.addr w.bytes) t.hostMem, posted := [], unflushed := [] }

/-- The link is out of UP for a while, and the adapter forwards: accesses wait behind it (R320, R321). -/
def linkOut (s : State) : Bool := running s && s.tether.st != .up && s.tether.outSince.isSome

/-- An access waits. -/
def holdAccess (s : State) (a : HostAccess) : State := modTether s fun t => { t with waiting := t.waiting ++ [a] }

/-- A flush completes: no retry activity, and every flit sent (R338, R340). -/
def flushReady (s : State) : Bool := s.tether.activity.isNone && s.tether.unsent == 0

/-- A register read that reaches the device: FLUSH_RB acknowledges every earlier write first, the low words of 64-bit values capture
them whole (R322, R323, R338). -/
def readNow (s : State) (o : Nat) : State :=
  if o = 0x0010 then
    if flushReady s then settleRemoval (modTether (acknowledge s) fun t => { t with readValue := 0 }) else holdAccess s (.read o)
  else if o = 0x0008 then modTether s fun t => { t with ptimeCapture := s.time % 2 ^ 64, readValue := readRegister s o }
  else if 0x0100 ≤ o ∧ o < 0x0180 ∧ o % 8 = 0 then
    modTether s fun t =>
      { t with accountCapture := t.accountCapture.set ((o - 0x100) / 8) (accountOf s ((o - 0x100) / 8)), readValue := readRegister s o }
  else modTether s fun t => { t with readValue := readRegister s o }

/-- A host read of the window: all ones where the adapter cannot deliver it (R322). -/
def hostRead (s : State) (o : Nat) : State :=
  if running s && s.tether.st == .up then readNow s o
  else if linkOut s then holdAccess s (.read o)
  else modTether s fun t => { t with readValue := 0xFFFFFFFF }

/-- A register write reaches the device: the link is UP and the adapter forwards (R321, R329). -/
def writesReach (s : State) : Bool := running s && s.tether.st == .up && s.tether.forwarding

/-- A host write of the window, with its effect: it waits behind a link out of UP, and is discarded where the adapter forwards none. -/
def hostWrite (s : State) (o value : Nat) (f : State → State) : State :=
  if writesReach s then f s else if linkOut s && s.tether.forwarding then holdAccess s (.write o value) else s

/-- An access that waited. -/
def runAccess (s : State) (a : HostAccess) : State :=
  match a with
  | .write o v => writeRegister s o v
  | .read o => readNow s o

/-- Accesses that waited follow in order; a flush may go on waiting. -/
def runWaiting (s : State) : State := s.tether.waiting.foldl runAccess (modTether s fun t => { t with waiting := [] })

/-! ### Retry activity (R320, R339) -/

/-- Retry activity begins: the flits held now must all be acknowledged before it ends. -/
def beginTetherRetry (s : State) : State :=
  if s.tether.activity.isSome then s
  else modTether s fun t => { t with activity := some (t.unacked.map (·.1)), events := t.events ++ [.activityStart] }

/-- The activity ends with the link UP and its flits acknowledged: stale windows, TACK timers and watchdogs restart from zero (R62,
R328, R339). -/
def settleActivity (s : State) : State :=
  match s.tether.activity with
  | some [] =>
    if s.tether.st = .up ∧ s.tether.awaitFlit = false then
      let s := modTether s fun t =>
        { t with
          activity := none, events := t.events ++ [.activityEnd], tackTimers := t.tackTimers.map fun x => { x with since := s.time } }
      { s with
        queues := s.queues.map fun Q => { Q with staleFrom := Q.staleFrom.map fun _ => s.time }
        ctxs := s.ctxs.map (Option.map fun c => { c with program := c.program.map fun p => { p with watchdogAt := s.time } }) }
    else s
  | _ => s

/-- A flush that waited completes once it may. -/
def settleReads (s : State) : State := if s.tether.st = .up ∧ flushReady s then runWaiting s else s

/-- Flits up to an acknowledged number leave the retry buffer: their writes are in host memory, and their TACKs with the adapter. -/
def ackFlits (s : State) (ack : Nat) : State :=
  let open_ := fun n : Nat => !decide (sub32 ack n < 2 ^ 31)
  let s := modTether s fun t =>
    let done := t.posted.filter fun w => !open_ w.last
    Tether.pump { t with
      unacked := t.unacked.filter fun x => open_ x.1, activity := t.activity.map fun l => l.filter open_
      tackTimers := t.tackTimers.filter fun x => open_ x.flit, posted := t.posted.filter fun w => open_ w.last
      hostMem := done.foldl (fun m w => Memory.write m w.addr w.bytes) t.hostMem
      unflushed := t.unflushed ++ (done.filter fun w => !w.reply).map fun w => (w.addr, w.bytes.length) }
  settleReads (settleActivity (settleRemoval s))

/-- The link leaves UP for RETRAIN (R319, R320). The replays of its flits count anew (log 45). -/
def enterRetrain (s : State) : State :=
  modTether (beginTetherRetry s) fun t =>
    { t with
      st := .retrain, outSince := some s.time, retrains := min (t.retrains + 1) 65535, unacked := t.unacked.map fun x => (x.1, 0) }

/-- The retry buffer is replayed from its oldest flit; one flit's eighth replay puts the link into RETRAIN (R320, R323). -/
def replayFlits (s : State) : State :=
  let s := beginTetherRetry s
  if s.tether.unacked.isEmpty then settleReads (settleActivity s)
  else
    let s := modTether s fun t => { t with unacked := t.unacked.map fun x => (x.1, x.2 + 1), replays := min (t.replays + 1) 65535 }
    if s.tether.unacked.any fun x => decide (8 ≤ x.2) then enterRetrain s else s

/-- TETHER_FLIT_RECEIVE: an intact flit in sequence is accepted and its acknowledgement taken; one that fails is discarded with a
negative acknowledgement. -/
def execTetherFlitReceive (seq ack : Nat) (flit : TetherFlit) (s : State) : Host.Outcome State Fault Refusal :=
  .next (if s.tether.st ≠ .up then s
    else if !flitIntact flit then
      beginTetherRetry (modTether s fun t => { t with naksSent := t.naksSent + 1, awaitFlit := true })
    else
      let s := if seq = s.tether.rxSeq then modTether s fun t => { t with rxSeq := add32 t.rxSeq 1, awaitFlit := false } else s
      ackFlits s ack)

/-- TETHER_NAK: the retry buffer is replayed. -/
def execTetherNak (seq : Nat) (s : State) : Host.Outcome State Fault Refusal :=
  .next (if s.tether.st = .up then replayFlits (ackFlits s (sub32 seq 1)) else s)

/-- TETHER_REPLAY_TIMEOUT: unacknowledged flits are replayed. -/
def execTetherReplayTimeout (s : State) : Host.Outcome State Fault Refusal :=
  .next (if s.tether.st = .up ∧ !s.tether.unacked.isEmpty then replayFlits s else s)

/-- TETHER_RETRAIN: a lane has lost lock. -/
def execTetherRetrain (s : State) : Host.Outcome State Fault Refusal := .next (if s.tether.st = .up then enterRetrain s else s)

/-- The link has been out of UP for at most 2 ms (R321). -/
def withinOutage (s : State) : Bool := s.tether.outSince.all fun t => decide (s.time ≤ t + 2000000)

/-- The link is UP: waiting flits are sent, and accesses that waited follow (R319, R320). -/
def linkUp (s : State) : State := settleReads (settleActivity (runWaiting (modTether s fun t => Tether.pump { t with st := .up, outSince := none })))

/-- TETHER_RETRAIN_COMPLETE: the link is UP again. -/
def execTetherRetrainComplete (s : State) : Host.Outcome State Fault Refusal :=
  .next (if s.tether.st = .retrain ∧ withinOutage s then linkUp s else s)

/-- Fault every context that exists (R321). -/
def faultAll (s : State) (status : Nat) : State :=
  (List.range 16).foldl (fun s n => if (ctxAt s n).isSome then faultContext s n status else s) s

/-- Bytes that are void: free values (R321). -/
def voidRange (s : State) (r : Nat × Nat) : State :=
  let bs := (List.range r.2).map fun i => BitVec.ofNat 8 (Config.freeValue (s.free + i))
  freeUsed (modTether s fun t => { t with hostMem := Memory.write t.hostMem r.1 bs }) r.2

/-- The log entry of a lost link. Writes not acknowledged are discarded; what commands wrote elsewhere since the last flush is void,
and completion entries stand (R321). -/
def dropLink (s : State) : State :=
  let s := s.tether.unflushed.foldl voidRange s
  modTether (logError s 0x0062 stLinkLost sevFatal srcPackage 0xFF 0xFF [s.tether.retrains, s.tether.replays]) fun t =>
    { t with posted := [], unflushed := [], unsent := 0, unacked := [], events := t.events ++ [.linkLost] }

/-- LINK_LOST: out of UP for more than 2 ms. Contexts fault, writes not yet acknowledged are discarded, the package self-resets
(R321, R427). -/
def execLinkLost (s : State) : Host.Outcome State Fault Refusal :=
  .next (match running s, s.tether.outSince with
    | true, some t => resetKeep (dropLink (faultAll (advanceTo s (t + 2000001)) stLinkLost)) 0x02
    | _, _ => s)

/-- TETHER_CABLE_ABSENT: TE_PRSNT_N goes high, and the link is DOWN (R319). -/
def execTetherCableAbsent (s : State) : Host.Outcome State Fault Refusal :=
  .next (let out := if s.tether.st = .up then some s.time else s.tether.outSince
    modTether { s with pkg := { s.pkg with cable := false } } fun t => { t with st := .down, outSince := out })

/-- TETHER_CABLE_PRESENT: TE_PRSNT_N goes low, and a link that is DOWN trains (R319). -/
def execTetherCablePresent (s : State) : Host.Outcome State Fault Refusal :=
  .next (let s := { s with pkg := { s.pkg with cable := true } }
    if running s && s.tether.st == .down && withinOutage s then
      linkUp s
    else s)

/-- TACK_TIMER_EXPIRY: 8 µs after it returned a valid entry, without TACK and outside retry activity, the adapter declares the device
unresponsive (R329, R339). -/
def execTackTimerExpiry (q seq : Nat) (s : State) : Host.Outcome State Fault Refusal :=
  .next (match s.tether.tackTimers.find? fun x => x.q == q && x.seq == seq with
    | none => s
    | some x =>
      if running s && s.tether.st == .up && s.tether.activity.isNone then
        modTether (advanceTo s (x.since + 8000)) fun t =>
          { t with
            forwarding := false, events := t.events ++ [.unresponsive q seq]
            tackTimers := t.tackTimers.filter fun y => !(y.q == q && y.seq == seq) }
      else s)

/-! ### Rows of the window -/

/-- DOORBELL. -/
def execDoorbell (q value : Nat) (s : State) : Host.Outcome State Fault Refusal :=
  .next (hostWrite s (0x1000 + 4 * q) value fun s => ring s q value)

/-- QARM_WRITE. -/
def execQarmWrite (q value : Nat) (s : State) : Host.Outcome State Fault Refusal :=
  .next (hostWrite s (0x2014 + 64 * q) value fun s => armQueue s q value)

/-- QCFG_WRITE. -/
def execQcfgWrite (q value : Nat) (s : State) : Host.Outcome State Fault Refusal :=
  .next (hostWrite s (0x2010 + 64 * q) value fun s => configQueue s q value)

/-- QCTAIL_WRITE. -/
def execQctailWrite (q value : Nat) (s : State) : Host.Outcome State Fault Refusal :=
  .next (hostWrite s (0x201C + 64 * q) value fun s => moveTail s q value)

/-- LOSS_SCALE_WRITE. -/
def execLossScaleWrite (value : Nat) (s : State) : Host.Outcome State Fault Refusal :=
  .next (hostWrite s 0x0020 value fun s => writeScale s value)

/-- REGISTER_WRITE. -/
def execRegisterWrite (offset value : Nat) (s : State) : Host.Outcome State Fault Refusal :=
  .next (hostWrite s offset value fun s => writeRegister s offset value)

/-- FLUSH_RB_READ: returns 0 once every earlier write is acknowledged, after any retry activity (R338, R340). -/
def execFlushRbRead (s : State) : Host.Outcome State Fault Refusal := .next (hostRead s 0x0010)

/-- PTIME_LO_READ: captures the whole powered time (R323). -/
def execPtimeLoRead (s : State) : Host.Outcome State Fault Refusal := .next (hostRead s 0x0008)

/-- CTX_ACCOUNT_LO_READ: captures the whole account (R323). -/
def execCtxAccountLoRead (ctx : Nat) (s : State) : Host.Outcome State Fault Refusal := .next (hostRead s (0x0100 + 8 * ctx))

/-- COMPLETION_RING_FULL: a ring full for 1 ms is logged once an episode (R333). -/
def execCompletionRingFull (q : Nat) (s : State) : Host.Outcome State Fault Refusal :=
  .next (match (queueAt s q).fullSince, (queueAt s q).fullLogged with
    | some t, false =>
      let s := advanceTo s (t + 1000000)
      modQueue (logError s 0x0060 0 sevWarning srcPackage 0xFF 0xFF [q]) q fun Q => { Q with fullLogged := true }
    | _, _ => s)

end Sys2Proof.Machine
end

