-- ==== Sys2Proof/Machine/Intake.lean ====
section
/-! DEFINITION. Taking ring entries: header checks, payload, TACK, stale rings (13 R326 to R330, R332, R334, 14 R359, 15 R371). -/

namespace Sys2Proof.Machine

/-! ### The opcode table (R334) -/

/-- A command of R334: queues 0 to 3 only, longest payload, and the parameter words it uses as a mask. -/
structure OpRow where
  op : Nat
  privileged : Bool
  payload : Nat
  uses : Nat

def opRows : List OpRow :=
  [⟨0x0101, false, 0, 0x3⟩, ⟨0x0102, false, 0, 0xF⟩, ⟨0x0103, true, 32, 0⟩, ⟨0x0104, true, 0, 0x7⟩, ⟨0x0105, false, 32, 0x7⟩,
   ⟨0x0140, true, 0, 0x3⟩, ⟨0x0141, true, 0, 0x1⟩, ⟨0x0142, true, 4096, 0x1⟩, ⟨0x0143, true, 0, 0⟩]
  ++ [⟨0x0201, false, 32, 0⟩, ⟨0x0202, false, 32, 0⟩, ⟨0x0203, false, 32, 0⟩, ⟨0x0204, false, 32, 0⟩, ⟨0x0210, true, 0, 0x1⟩,
   ⟨0x0301, true, 32, 0⟩, ⟨0x0302, true, 0, 0⟩, ⟨0x0303, true, 0, 0⟩, ⟨0x0304, false, 0, 0x3⟩, ⟨0x0401, false, 0, 0x1⟩,
   ⟨0x0501, false, 0, 0x1⟩]
  ++ [⟨0x0601, false, 3968, 0⟩, ⟨0x0602, false, 64, 0x1⟩, ⟨0x0603, false, 0, 0⟩, ⟨0x0604, true, 0, 0xF⟩, ⟨0x0605, false, 0, 0xF⟩,
   ⟨0x0606, true, 0, 0xE⟩, ⟨0x0607, true, 0, 0x1⟩, ⟨0x0701, false, 1056, 0⟩, ⟨0x0702, false, 32, 0⟩, ⟨0x0703, false, 65, 0⟩,
   ⟨0x0704, true, 0, 0xF⟩, ⟨0x0705, false, 0, 0⟩]
  ++ [⟨0x0780, false, 64, 0⟩, ⟨0x0781, false, 64, 0⟩, ⟨0x0782, false, 64, 0⟩, ⟨0x0783, false, 64, 0⟩, ⟨0x0801, false, 4096, 0x7⟩,
   ⟨0x0802, false, 12, 0x1⟩, ⟨0x0803, false, 32, 0⟩, ⟨0x0804, false, 0, 0⟩, ⟨0x0901, true, 128, 0x1⟩, ⟨0x0902, true, 0, 0x1⟩,
   ⟨0x0903, true, 128, 0x1⟩, ⟨0x0904, true, 0, 0x3⟩, ⟨0x0905, false, 0, 0x3⟩, ⟨0x0906, false, 0, 0x1⟩]

def opRow (op : Nat) : Option OpRow := opRows.find? fun r => r.op = op

def isManagement (op : Nat) : Bool := op / 256 == 0x01

/-- The counter commands of R359. -/
def isCounterCommand (op : Nat) : Bool := op / 256 == 0x08

/-! ### The header (R326, R332, R334) -/

/-- Header fields within R326. -/
def headerOk (q : Nat) (e : List Byte) : Bool :=
  decide (field e 2 2 < 8) && decide (field e 4 1 = q) && decide (field e 6 2 ≤ 4096) && zeroField e 0x0C 4 && zeroField e 0x58 36
    && (isManagement (field e 0 2) || decide (field e 5 1 < 16))

/-- The payload that the flags select, or the refusal: status and reply words (R332). -/
def payloadFor (s : State) (q : Nat) (e : List Byte) (payload : HostRead) : Except (Nat × List Nat) (List Byte) :=
  let inline_ := bit (field e 2 2) 0
  let mailbox := bit (field e 2 2) 1
  let len := field e 6 2
  if inline_ && mailbox then .error (stBadParam, [])
  else if inline_ then
    if 4 ≤ q then .error (stNotPermitted, []) else if 48 < len then .error (stBadParam, []) else .ok (slice e 0x28 len)
  else if mailbox then
    if 48 < len then .error (stBadParam, []) else .ok (((queueAt s q).data.flatMap (leBytes 4)).take len)
  else if len = 0 then .ok []
  else if field e 0x20 8 % 32 ≠ 0 then .error (stBadParam, [])
  else
    match payload with
    | none => .error (stBadParam, [0xFFFFFFFF])
    | some d => .ok (padTo (d.take len) len)

/-- The command that an entry spells. -/
def takenOf (q : Nat) (e payload : List Byte) : Taken :=
  { q, seq := field e 8 4, opcode := field e 0 2, context := field e 5 1, fence := bit (field e 2 2) 2
    p := (List.range 4).map fun i => field e (0x10 + 4 * i) 4, payload, started := false }

/-- The queue rules of R334 and R359: status and reply words of a refusal. -/
def queueRefusal (s : State) (q : Nat) (r : OpRow) (context : Nat) : Option (Nat × List Nat) :=
  let bound := (queueAt s q).ctx
  if q < 4 then none
  else if r.op = 0x0604 then some (stNotPermitted, [1])
  else if r.privileged then some (stNotPermitted, [])
  else if !isManagement r.op && context != bound then some (stNotPermitted, [])
  else if isCounterCommand r.op && !((ctxAt s bound).any (·.permCtr)) then some (stNotPermitted, [])
  else none

/-- Parameter words that the command does not use are 0, and its payload is no longer than it defines (R334). -/
def fits (r : OpRow) (t : Taken) : Bool :=
  decide (t.payload.length ≤ r.payload) && t.p.zipIdx.all fun x => bit r.uses x.2 || x.1 == 0

/-- Check a valid entry (log 49 for the order of the checks). -/
def checkEntry (s : State) (q : Nat) (e : List Byte) (payload : HostRead) : Except (Nat × List Nat) Taken :=
  match opRow (field e 0 2) with
  | none => .error (stBadOpcode, [])
  | some r =>
    if s.pkg.oos && !isManagement r.op then .error (stNotPermitted, [])
    else if !headerOk q e then .error (stBadParam, [])
    else
      match queueRefusal s q r (field e 5 1), payloadFor s q e payload with
      | some x, _ => .error x
      | none, .error x => .error x
      | none, .ok b => if fits r (takenOf q e b) then .ok (takenOf q e b) else .error (stBadParam, [])

/-! ### Intake (R328, R329) -/

/-- Commands of a queue taken and not completed, refused ones among them (R328, R330). -/
def outstandingOf (s : State) (q : Nat) : Nat := (s.cmds.filter fun t => t.q == q).length + (heldReplies s q).length

/-- The queue is to take its head entry: enabled, armed, covered by a doorbell, with intake room. -/
def wantsEntry (s : State) (q : Nat) : Bool :=
  let Q := queueAt s q
  running s && s.pkg.ready && s.tether.st == .up && Q.enable && !Q.stopped && (Q.target.any fun d => decide (sub32 d Q.head < 2 ^ 31))
    && decide (outstandingOf s q < 32)

/-- An entry is valid for sequence number N (R328). -/
def entryValid (n : Nat) (e : List Byte) : Bool := decide (field e 8 4 = n) && decide (field e 0x7C 4 = n)

/-- Host address of the ring entry with sequence number n (R326). -/
def entryAddr (Q : HostQueue) (n : Nat) : Nat := ringBase Q.ringLo Q.ringHi + n % 2 ^ (Q.ringLog2 + 4) * 128

/-- A read of the head entry. -/
def fetchEntry (s : State) (q : Nat) : State := modTether s fun t => { t with fetchAddr := entryAddr (queueAt s q) (queueAt s q).head }

/-- A queue whose head entry waits for its first read. -/
def waitsEntry (s : State) (q : Nat) : Bool := wantsEntry s q && (queueAt s q).staleFrom.isNone

/-- The first of k queues from `base` on, in turn after the last one taken. -/
def nextInTurn (s : State) (base k last : Nat) : Option Nat :=
  ((List.range k).map fun i => base + (last + 1 - base + i) % k).find? (waitsEntry s)

/-- The queue that the device takes from next: queues 0 to 3 before the others, round-robin among equals (R328; log 46). -/
def nextQueue (s : State) : Option Nat := (nextInTurn s 0 4 s.tether.lastHigh).or (nextInTurn s 4 60 s.tether.lastLow)

/-- A TACK on its way to the adapter, whose timer of the entry runs until it is there (R329). -/
def sendTack (s : State) (q n : Nat) : State :=
  modTether s fun t =>
    Tether.pump { t with
      tackTimers := t.tackTimers ++ [{ q, seq := n, flit := t.nextFlit, since := s.time }], unsent := t.unsent + 1 }

/-- Step 5 of R328: check, fetch, TACK, QHEAD. A refused command completes at once, and occupies intake while its completion waits
(R330). So does any command during a removal, with ABORTED (R436, R437). -/
def takeEntry (s : State) (q : Nat) (e : List Byte) (payload : HostRead) : State :=
  let n := (queueAt s q).head
  let r := checkEntry s q e payload
  let s := modQueue s q fun Q => { Q with head := add32 n 1, staleFrom := none }
  let s := modTether (sendTack s q n) fun t => if q < 4 then { t with lastHigh := q } else { t with lastLow := q }
  match r with
  | .ok t =>
    if s.pkg.removing then
      post s q { opcode := t.opcode, status := stAborted, kind := 0, context := t.context, last := false, seq := n, p := [] }
    else { s with cmds := s.cmds ++ [t] }
  | .error x =>
    post s q { opcode := field e 0 2, status := x.1, kind := 0, context := field e 5 1, last := false, seq := n, p := x.2 }

/-- ENTRY_TAKE: the first read of the head entry, in the queue's turn. -/
def execEntryTake (q : Nat) (entry payload : HostRead) (s : State) : Host.Outcome State Fault Refusal :=
  .next (if nextQueue s ≠ some q then s
    else
      let s := fetchEntry s q
      match entry.filter (entryValid (queueAt s q).head) with
      | some e => takeEntry s q e payload
      | none => modQueue s q fun Q => { Q with staleFrom := some s.time })

/-- What a stale ring shows as found: seq, or tail_seq where seq matched; free where the read failed (R331; log 50). -/
def foundIn (s : State) (n : Nat) : HostRead → Nat
  | none => freeBelow s (2 ^ 32)
  | some e => if field e 8 4 = n then field e 0x7C 4 else field e 8 4

/-- The next read of an invalid entry: every 2 µs from the first, the last at 16 µs (R328). -/
def nextRead (s : State) (first : Nat) : Nat := first + min 16000 (((s.time - first) / 2000 + 1) * 2000)

/-- ENTRY_REREAD: an invalid entry is read again; still invalid at 16 µs, the queue stops. Retry activity suspends the window. A valid
one out of the queue's turn waits for ENTRY_TAKE like any other. -/
def execEntryReread (q : Nat) (entry payload : HostRead) (s : State) : Host.Outcome State Fault Refusal :=
  .next (match wantsEntry s q && s.tether.activity.isNone, (queueAt s q).staleFrom with
    | true, some first =>
      let s := fetchEntry (advanceTo s (nextRead s first)) q
      let n := (queueAt s q).head
      match entry.filter (entryValid n) with
      | some e =>
        let t := modQueue s q fun Q => { Q with staleFrom := none }
        if nextQueue t = some q then takeEntry t q e payload else t
      | none =>
        if first + 16000 ≤ s.time then
          let found := foundIn s n entry
          stopQueue (if entry.isNone then freeUsed s 1 else s) q 0x20 n found
        else s
    | _, _ => s)

end Sys2Proof.Machine
end

