-- ==== Sys2Proof/Machine/MemCommands.lean ====
section
/-! DEFINITION. MEM_WRITE, MEM_READ, MEM_FILL and MEM_COPY (13 R336, 10 R250, R255). -/

namespace Sys2Proof.Machine

/-- The payload of the memory commands (R336): addr_a, addr_b, bytes. -/
structure MemArgs where
  a : Nat
  b : Nat
  bytes : Nat

def memArgs (p : List Byte) : MemArgs := { a := field p 0 8, b := field p 8 8, bytes := field p 16 8 }

/-- Payload length, alignment, size, reserved bytes (R336). -/
def memOk (p : List Byte) : Bool :=
  let x := memArgs p
  decide (p.length = 32) && zeroField p 24 8 && decide (x.a % 32 = 0 ∧ x.bytes % 32 = 0 ∧ 32 ≤ x.bytes ∧ x.bytes ≤ 2 ^ 32)

/-- Complete with MEM_UNCORRECTABLE or OK. -/
def memDone (s : State) (t : Taken) (bad : Bool) : State :=
  finish s t.q t.seq (if bad then stMemUncorrectable else stOk) []

/-- MEM_WRITE: host to HBM. -/
def execMemWrite (q seq : Nat) (data : HostRead) (s : State) : Host.Outcome State Fault Refusal :=
  .next (onCmd s q seq 0x0201 fun s t =>
    let x := memArgs t.payload
    if !memOk t.payload || x.b % 32 != 0 then refuse s q seq stBadParam
    else if !granted s t.context x.a x.bytes then refuse s q seq stNotPermitted
    else
      match data with
      | none => finish s q seq stBadParam [0xFFFFFFFF]
      | some d =>
        let (s, bad) := writeHbm s (hostReader t.context q) x.a (padTo (d.take x.bytes) x.bytes)
        memDone s t bad)

/-- MEM_READ: HBM to host. -/
def execMemRead (q seq : Nat) (s : State) : Host.Outcome State Fault Refusal :=
  .next (onCmd s q seq 0x0202 fun s t =>
    let x := memArgs t.payload
    if !memOk t.payload || x.b % 32 != 0 then refuse s q seq stBadParam
    else if !granted s t.context x.a x.bytes then refuse s q seq stNotPermitted
    else
      match readHbm s (hostReader t.context q) x.a x.bytes with
      | (s, none) => finish s q seq stMemUncorrectable [0]
      | (s, some d) => finish (postHost s x.b d) q seq stOk [])

/-- MEM_FILL: a 32-bit word through a range. -/
def execMemFill (q seq : Nat) (s : State) : Host.Outcome State Fault Refusal :=
  .next (onCmd s q seq 0x0203 fun s t =>
    let x := memArgs t.payload
    if !memOk t.payload || decide (2 ^ 32 ≤ x.b) then refuse s q seq stBadParam
    else if !granted s t.context x.a x.bytes then refuse s q seq stNotPermitted
    else
      let (s, bad) := storeHbm s (hostReader t.context q) x.a x.bytes fun h => h.fill x.a x.bytes x.b
      memDone s t bad)

/-- MEM_COPY: within HBM. -/
def execMemCopy (q seq : Nat) (s : State) : Host.Outcome State Fault Refusal :=
  .next (onCmd s q seq 0x0204 fun s t =>
    let x := memArgs t.payload
    let r := hostReader t.context q
    if !memOk t.payload || x.b % 32 != 0 || rangesMeet x.a x.bytes x.b x.bytes then refuse s q seq stBadParam
    else if !(granted s t.context x.a x.bytes && granted s t.context x.b x.bytes) then refuse s q seq stNotPermitted
    else
      match s.hbm.badIn x.b x.bytes with
      | [] =>
        let s := correctRange (count s 5 ((stackOf x.b).getD 0) 0 x.bytes) x.b x.bytes
        let (s, bad) := storeHbm s r x.a x.bytes fun h => h.copy x.b x.a x.bytes
        memDone s t bad
      | bad => memDone (bad.foldl (logUncorrectable r 0) s) t true)

end Sys2Proof.Machine
end

