-- ==== Sys2Proof/Machine/Dispatch.lean ====
section
/-! DEFINITION. One arm per command: each calls its meaning, or rejects the command by name. -/

namespace Sys2Proof.Machine

def exec (i : Instr) (s : State) : Host.Outcome State Fault Refusal :=
  match i with
  | .loadW pier => Sys2Proof.Machine.execLoadW pier s
  | .pass pier => Sys2Proof.Machine.execPass pier s
  | .passRowWriteback pier => Sys2Proof.Machine.execPassRowWriteback pier s
  | .drain pier => Sys2Proof.Machine.execDrain pier s
  | .drainBind pier => Sys2Proof.Machine.execDrainBind pier s
  | .vec pier => Sys2Proof.Machine.execVec pier s
  | .laneProgramRunaway pier => Sys2Proof.Machine.execLaneProgramRunaway pier s
  | .accWrite pier => Sys2Proof.Machine.execAccWrite pier s
  | .copy pier => Sys2Proof.Machine.execCopy pier s
  | .push stage => Sys2Proof.Machine.execPush stage s
  | .pop stage => Sys2Proof.Machine.execPop stage s
  | .release stage => Sys2Proof.Machine.execRelease stage s
  | .fork stage => Sys2Proof.Machine.execFork stage s
  | .join stage => Sys2Proof.Machine.execJoin stage s
  | .signal actor => Sys2Proof.Machine.execSignal actor s
  | .wait actor => Sys2Proof.Machine.execWait actor s
  | .capturePoint => Sys2Proof.Machine.execCapturePoint s
  | .admitBatch stage => Sys2Proof.Machine.execAdmitBatch stage s
  | .pin stage => Sys2Proof.Machine.execPin stage s
  | .retire stage => Sys2Proof.Machine.execRetire stage s
  | .gather stage => Sys2Proof.Machine.execGather stage s
  | .reduceScatter stage => Sys2Proof.Machine.execReduceScatter stage s
  | .allReduce stage => Sys2Proof.Machine.execAllReduce stage s
  | .stepEnd => Sys2Proof.Machine.execStepEnd s
  | .progressWatchdogExpiry ctx => Sys2Proof.Machine.execProgressWatchdogExpiry ctx s
  | .spanDesc link src seq cont slot body => Sys2Proof.Machine.execSpanDesc link src seq cont slot body s
  | .spanData link src seq last offset body => Sys2Proof.Machine.execSpanData link src seq last offset body s
  | .spanCredit link src seq released => Sys2Proof.Machine.execSpanCredit link src seq released s
  | .spanHeartbeat link src seq => Sys2Proof.Machine.execSpanHeartbeat link src seq s
  | .spanAbandon link src seq status => Sys2Proof.Machine.execSpanAbandon link src seq status s
  | .spanBind link src seq digest => Sys2Proof.Machine.execSpanBind link src seq digest s
  | .spanClose link src seq => Sys2Proof.Machine.execSpanClose link src seq s
  | .spanHeartbeatTimer link => Sys2Proof.Machine.execSpanHeartbeatTimer link s
  | .spanPeerDeadline link => Sys2Proof.Machine.execSpanPeerDeadline link s
  | .bindWindowExpiry ctx => Sys2Proof.Machine.execBindWindowExpiry ctx s
  | .stayData peer tile seq entry piece last offset body => Sys2Proof.Machine.execStayData peer tile seq entry piece last offset body s
  | .stayCredit peer tile seq granted => Sys2Proof.Machine.execStayCredit peer tile seq granted s
  | .stayHeartbeat peer tile seq => Sys2Proof.Machine.execStayHeartbeat peer tile seq s
  | .stayAbandon peer tile seq status => Sys2Proof.Machine.execStayAbandon peer tile seq status s
  | .stayBind peer tile seq digest => Sys2Proof.Machine.execStayBind peer tile seq digest s
  | .stayClose peer tile seq => Sys2Proof.Machine.execStayClose peer tile seq s
  | .stayTrailer peer tile seq entry piece body => Sys2Proof.Machine.execStayTrailer peer tile seq entry piece body s
  | .stayHeartbeatTimer peer => Sys2Proof.Machine.execStayHeartbeatTimer peer s
  | .stayPeerDeadline peer => Sys2Proof.Machine.execStayPeerDeadline peer s
  | .frameForward port frame => Sys2Proof.Machine.execFrameForward port frame s
  | .linkCredit at_ grants => Sys2Proof.Machine.execLinkCredit at_ grants s
  | .linkCreditTimer port => Sys2Proof.Machine.execLinkCreditTimer port s
  | .nak at_ lseq => Sys2Proof.Machine.execNak at_ lseq s
  | .portReplayTimeout port => Sys2Proof.Machine.execPortReplayTimeout port s
  | .hold at_ pkg farPort => Sys2Proof.Machine.execHold at_ pkg farPort s
  | .holdEnd at_ pkg farPort => Sys2Proof.Machine.execHoldEnd at_ pkg farPort s
  | .holdTimeout pkg farPort => Sys2Proof.Machine.execHoldTimeout pkg farPort s
  | .portGiveUp port lostLock => Sys2Proof.Machine.execPortGiveUp port lostLock s
  | .portSignalDetect port => Sys2Proof.Machine.execPortSignalDetect port s
  | .equaliseComplete port => Sys2Proof.Machine.execEqualiseComplete port s
  | .alignComplete port => Sys2Proof.Machine.execAlignComplete port s
  | .config at_ pkg farPort version retryKib => Sys2Proof.Machine.execConfig at_ pkg farPort version retryKib s
  | .configResendTimer port => Sys2Proof.Machine.execConfigResendTimer port s
  | .portTrainingTimeout port => Sys2Proof.Machine.execPortTrainingTimeout port s
  | .portBerCheck port berE12 => Sys2Proof.Machine.execPortBerCheck port berE12 s
  | .recalReq at_ => Sys2Proof.Machine.execRecalReq at_ s
  | .recalReqResendTimer port => Sys2Proof.Machine.execRecalReqResendTimer port s
  | .recalAck at_ => Sys2Proof.Machine.execRecalAck at_ s
  | .recalAckTimeout port => Sys2Proof.Machine.execRecalAckTimeout port s
  | .recalEnter port => Sys2Proof.Machine.execRecalEnter port s
  | .portDisable q seq => Sys2Proof.Machine.execPortDisable q seq s
  | .portEnable q seq => Sys2Proof.Machine.execPortEnable q seq s
  | .portRecalibrate q seq => Sys2Proof.Machine.execPortRecalibrate q seq s
  | .pkgIdSet q seq => Sys2Proof.Machine.execPkgIdSet q seq s
  | .routeLoad q seq => Sys2Proof.Machine.execRouteLoad q seq s
  | .routeCommit q seq => Sys2Proof.Machine.execRouteCommit q seq s
  | .scrub stack block => Sys2Proof.Machine.execScrub stack block s
  | .stackAutoRecal training => Sys2Proof.Machine.execStackAutoRecal training s
  | .stackRecal q cmd => Sys2Proof.Machine.execStackRecal q cmd s
  | .hotRefreshEnd stack => Sys2Proof.Machine.execHotRefreshEnd stack s
  | .ckptGranuleCopy stack => Sys2Proof.Machine.execCkptGranuleCopy stack s
  | .shardDigest stack => Sys2Proof.Machine.execShardDigest stack s
  | .ckptCommit => Sys2Proof.Machine.execCkptCommit s
  | .ckptTimerDue => Sys2Proof.Machine.execCkptTimerDue s
  | .ckptConfig q seq => Sys2Proof.Machine.execCkptConfig q seq s
  | .ckptTake q seq => Sys2Proof.Machine.execCkptTake q seq s
  | .ckptQuery q seq => Sys2Proof.Machine.execCkptQuery q seq s
  | .ckptRestore q seq => Sys2Proof.Machine.execCkptRestore q seq s
  | .ckptExport q seq => Sys2Proof.Machine.execCkptExport q seq s
  | .ckptImport q seq stream => Sys2Proof.Machine.execCkptImport q seq stream s
  | .ckptDiscard q seq => Sys2Proof.Machine.execCkptDiscard q seq s
  | .aprConfig q seq => Sys2Proof.Machine.execAprConfig q seq s
  | .aprFeed q seq items => Sys2Proof.Machine.execAprFeed q seq items s
  | .itemDecode q seq item unit data => Sys2Proof.Machine.execItemDecode q seq item unit data s
  | .patchPack q seq => Sys2Proof.Machine.execPatchPack q seq s
  | .feedPush q seq => Sys2Proof.Machine.execFeedPush q seq s
  | .aprDecode q seq data => Sys2Proof.Machine.execAprDecode q seq data s
  | .aprTableLoad q seq data => Sys2Proof.Machine.execAprTableLoad q seq data s
  | .aprQuery q seq => Sys2Proof.Machine.execAprQuery q seq s
  | .abutConvFwd q seq => Sys2Proof.Machine.execAbutConvFwd q seq s
  | .abutConvBwdData q seq => Sys2Proof.Machine.execAbutConvBwdData q seq s
  | .abutConvBwdWeight q seq => Sys2Proof.Machine.execAbutConvBwdWeight q seq s
  | .abutPool q seq => Sys2Proof.Machine.execAbutPool q seq s
  | .devIdentify q seq => Sys2Proof.Machine.execDevIdentify q seq s
  | .errlogRead q seq => Sys2Proof.Machine.execErrlogRead q seq s
  | .powerTableLoad q seq => Sys2Proof.Machine.execPowerTableLoad q seq s
  | .fwUpdate q seq package => Sys2Proof.Machine.execFwUpdate q seq package s
  | .moduleSwap moduleId => Sys2Proof.Machine.execModuleSwap moduleId s
  | .journalCompaction => Sys2Proof.Machine.execJournalCompaction s
  | .attestQuote q seq => Sys2Proof.Machine.execAttestQuote q seq s
  | .subtreeCompute => Sys2Proof.Machine.execSubtreeCompute s
  | .memWrite q seq data => Sys2Proof.Machine.execMemWrite q seq data s
  | .memRead q seq => Sys2Proof.Machine.execMemRead q seq s
  | .memFill q seq => Sys2Proof.Machine.execMemFill q seq s
  | .memCopy q seq => Sys2Proof.Machine.execMemCopy q seq s
  | .imageLoad q seq image decls => Sys2Proof.Machine.execImageLoad q seq image decls s
  | .launch q seq => Sys2Proof.Machine.execLaunch q seq s
  | .unload q seq => Sys2Proof.Machine.execUnload q seq s
  | .tokenSignal q seq => Sys2Proof.Machine.execTokenSignal q seq s
  | .spanQuery q seq => Sys2Proof.Machine.execSpanQuery q seq s
  | .stayQuery q seq => Sys2Proof.Machine.execStayQuery q seq s
  | .ctrRead q seq => Sys2Proof.Machine.execCtrRead q seq s
  | .ctrSelect q seq => Sys2Proof.Machine.execCtrSelect q seq s
  | .sampleStart q seq => Sys2Proof.Machine.execSampleStart q seq s
  | .sampleStop q seq => Sys2Proof.Machine.execSampleStop q seq s
  | .ctxCreate q seq => Sys2Proof.Machine.execCtxCreate q seq s
  | .ctxDestroy q seq => Sys2Proof.Machine.execCtxDestroy q seq s
  | .ctxGrant q seq => Sys2Proof.Machine.execCtxGrant q seq s
  | .ctxSlice q seq => Sys2Proof.Machine.execCtxSlice q seq s
  | .cmdAbort q seq => Sys2Proof.Machine.execCmdAbort q seq s
  | .ctxQuery q seq => Sys2Proof.Machine.execCtxQuery q seq s
  | .sliceNominalEnd => Sys2Proof.Machine.execSliceNominalEnd s
  | .switchOut => Sys2Proof.Machine.execSwitchOut s
  | .switchIn => Sys2Proof.Machine.execSwitchIn s
  | .doorbell q value => Sys2Proof.Machine.execDoorbell q value s
  | .entryTake q entry payload => Sys2Proof.Machine.execEntryTake q entry payload s
  | .entryReread q entry payload => Sys2Proof.Machine.execEntryReread q entry payload s
  | .qarmWrite q value => Sys2Proof.Machine.execQarmWrite q value s
  | .qcfgWrite q value => Sys2Proof.Machine.execQcfgWrite q value s
  | .qctailWrite q value => Sys2Proof.Machine.execQctailWrite q value s
  | .completionRingFull q => Sys2Proof.Machine.execCompletionRingFull q s
  | .lossScaleWrite value => Sys2Proof.Machine.execLossScaleWrite value s
  | .flushRbRead => Sys2Proof.Machine.execFlushRbRead s
  | .ptimeLoRead => Sys2Proof.Machine.execPtimeLoRead s
  | .ctxAccountLoRead ctx => Sys2Proof.Machine.execCtxAccountLoRead ctx s
  | .registerWrite offset value => Sys2Proof.Machine.execRegisterWrite offset value s
  | .tetherFlitReceive seq ack intact => Sys2Proof.Machine.execTetherFlitReceive seq ack intact s
  | .tetherNak seq => Sys2Proof.Machine.execTetherNak seq s
  | .tetherReplayTimeout => Sys2Proof.Machine.execTetherReplayTimeout s
  | .tetherRetrain => Sys2Proof.Machine.execTetherRetrain s
  | .tetherRetrainComplete => Sys2Proof.Machine.execTetherRetrainComplete s
  | .linkLost => Sys2Proof.Machine.execLinkLost s
  | .tetherCableAbsent => Sys2Proof.Machine.execTetherCableAbsent s
  | .adapterResetRequest => Sys2Proof.Machine.execAdapterResetRequest s
  | .remove => Sys2Proof.Machine.execRemove s
  | .pwrOkRise => Sys2Proof.Machine.execPwrOkRise s
  | .pwrOkFall => Sys2Proof.Machine.execPwrOkFall s
  | .railDip rail durationNs => Sys2Proof.Machine.execRailDip rail durationNs s
  | .refclkLoss durationNs => Sys2Proof.Machine.execRefclkLoss durationNs s
  | .pkgResetN durationNs => Sys2Proof.Machine.execPkgResetN durationNs s
  | .boot report => Sys2Proof.Machine.execBoot report s
  | .moduleReset module => Sys2Proof.Machine.execModuleReset module s
  | .moduleWidthReport module near far => Sys2Proof.Machine.execModuleWidthReport module near far s
  | .dieHoldAttemptEnd module near far => Sys2Proof.Machine.execDieHoldAttemptEnd module near far s
  | .budgetSendTimer => Sys2Proof.Machine.execBudgetSendTimer s
  | .budgetMessage die message draws => Sys2Proof.Machine.execBudgetMessage die message draws s
  | .budgetReport message => Sys2Proof.Machine.execBudgetReport message s
  | .budgetMiss die => Sys2Proof.Machine.execBudgetMiss die s
  | .sensorRead sensor reading => Sys2Proof.Machine.execSensorRead sensor reading s
  | .sensorFailure sensor => Sys2Proof.Machine.execSensorFailure sensor s
  | .setdasa static dynamic => Sys2Proof.Machine.execSetdasa static dynamic s
  | .entdaa dynamic => Sys2Proof.Machine.execEntdaa dynamic s
  | .setEndpointId eid => Sys2Proof.Machine.execSetEndpointId eid s
  | .getEndpointId => Sys2Proof.Machine.execGetEndpointId s
  | .getMctpVersionSupport => Sys2Proof.Machine.execGetMctpVersionSupport s
  | .getMessageTypeSupport => Sys2Proof.Machine.execGetMessageTypeSupport s
  | .getStatus => Sys2Proof.Machine.execGetStatus s
  | .getSensors => Sys2Proof.Machine.execGetSensors s
  | .readErrlog count first => Sys2Proof.Machine.execReadErrlog count first s
  | .getIdentity first => Sys2Proof.Machine.execGetIdentity first s
  | .powerTable payload => Sys2Proof.Machine.execPowerTable payload s
  | .resetRequest => Sys2Proof.Machine.execResetRequest s
  | .recoveryWrite offset data => Sys2Proof.Machine.execRecoveryWrite offset data s
  | .recoveryCommit => Sys2Proof.Machine.execRecoveryCommit s
  | .tetherCablePresent => Sys2Proof.Machine.execTetherCablePresent s
  | .vddHbmRise => Sys2Proof.Machine.execVddHbmRise s
  | .tackTimerExpiry q seq => Sys2Proof.Machine.execTackTimerExpiry q seq s
  | .opcodeNotInTable pier => Sys2Proof.Machine.execOpcodeNotInTable pier s

end Sys2Proof.Machine
end

