-- ==== Sys2Proof/Safety.lean ====
section
/-! DEFINITION. What counts as a sound state: parts in the numbers that the spec gives, memories in their canonical form,
identity indices below the committed limit, the rings within their sizes. -/

namespace Sys2Proof.Machine

/-- The parts have the numbers that the spec gives them (00 R13, R14, 09 R228, 14 R342, 15 R363, R375). -/
def State.Shaped (s : State) : Prop :=
  s.queues.length = 64 ∧ s.ctxs.length = 16 ∧ s.pylon.ports.length = 64 ∧ s.hbm.footings.length = 12
    ∧ s.modules.length = 80 ∧ s.dies.map (·.code) = dieCodes

/-- HBM, the bytes written to host memory, the staged recovery package and the scratchpads are in canonical form, and each
pier is listed once, by rising ID. -/
def State.MemoriesWf (s : State) : Prop :=
  Memory.Wf s.hbm.mem ∧ Memory.Wf s.tether.hostMem ∧ Memory.Wf s.toll.staged ∧ (∀ P ∈ s.piers, Memory.Wf P.mem)
    ∧ s.piers.Pairwise fun P Q => P.id < Q.id

/-- The store holds records of the epoch in force only, as after a boot or a compaction (16 R383, R384). -/
def OneEpoch (t : Tollhouse) : Prop := ∀ r ∈ t.journal, r.epoch = epochOf t

/-- The store holds one epoch, and no index of the identity key at or above the last committed limit has been used (16 R393). -/
def State.IndexReserved (s : State) : Prop := OneEpoch s.toll ∧ s.toll.q ≤ indexLimit s.toll

/-- The log ring holds at most 8,192 entries (16 R402), and at most 16 slices are pending (14 R348). -/
def State.Bounded (s : State) : Prop := s.toll.log.length ≤ 8192 ∧ s.sched.queue.length ≤ 16

/-! ### Resets -/

/-- What every reset takes (18 R424): dies are held, modules out of their links, queues, contexts, commands, slices, piers, the
Caisson, the ports and the counters as at power-on. -/
def Cleared (t : State) : Prop :=
  t.dies = dieCodes.map Die.fresh ∧ t.modules = List.replicate 80 .fresh ∧ t.queues = List.replicate 64 .fresh ∧ t.cmds = []
    ∧ t.aborts = [] ∧ t.ctxs = List.replicate 16 none ∧ t.sched = .fresh ∧ t.piers = [] ∧ t.caisson = .fresh ∧ t.pylon = .fresh
    ∧ t.apr.tables = [] ∧ t.apr.feeds = [] ∧ t.counters = [] ∧ t.waits = [] ∧ t.tether.st = .down ∧ t.tether.posted = []
    ∧ (∀ K ∈ t.hbm.footings, K.selfRefresh = true) ∧ t.pkg.ready = false ∧ t.pkg.bootStep = 1

/-! ### Instructions of piers -/

/-- Pier p of context n stands at deck word w of image im and may issue it (03 R92, R96). HBM and the pier's scratchpad hold
no error, and no sampling session is open on the context. -/
abbrev AtWord (s : State) (p n : Nat) (im : Image) (w : Nat) : Prop :=
  pierReady s p = some (n, im) ∧ (pierAt s p).index < deckLength im p ∧ peekWord s im p = w ∧ wordOk w = true
    ∧ s.hbm.uncorrectable = [] ∧ s.hbm.correctable = [] ∧ (pierAt s p).badWords = [] ∧ (pierAt s p).weakWords = []
    ∧ (ctxAt s n).bind (·.sampling) = none

/-- The pier with its next instruction in its instruction buffer: filled from the deck in an HBM without errors when it was
not there (03 R69, R92). -/
def filled (s : State) (im : Image) (p : Nat) : Pier :=
  let P := pierAt s p
  match bufferedWord P with
  | some _ => P
  | none =>
    let k := min 4096 (deckLength im p - P.index)
    { P with bufferAt := P.index
             buffer := (List.range k).map fun j =>
               BitVec.ofNat 128 (field (s.hbm.mem.read (deckAddr im p P.index) (16 * k)) (16 * j) 16) }

/-- From s to t only piers and counters have changed, and of context n its watchdog's start: what an instruction of a pier
may change beside the pier itself and HBM. -/
def Beside (s t : State) (n : Nat) : Prop :=
  (∀ m, m ≠ n → ctxAt t m = ctxAt s m)
    ∧ (∃ k w, ctxAt t n = (ctxAt s n).map fun c =>
        { c with counters := k, program := c.program.map fun x => { x with watchdogAt := w } })
    ∧ t = { s with piers := t.piers, ctxs := t.ctxs, counters := t.counters }

/-! ### Rendezvous of stages -/

/-- Every pier of stage k has reached one and the same rendezvous instruction of its deck, with no earlier one under way (03
R94), and m is that meeting. HBM holds no error. -/
abbrev Meets (s : State) (k : Nat) (m : Meet) : Prop :=
  m.stage = k ∧ issuing s = some m.n ∧ imageAt s m.n = some m.im
    ∧ m.piers = (stagePiers m.im.decls k).map (fun p =>
        (p, (pierAt s p).index, peekWord s m.im p))
    ∧ (m.piers.head?).map (·.2.2) = some m.word
    ∧ (∀ p ∈ stagePiers m.im.decls k, atRest s p = true ∧ (pierAt s p).index < deckLength m.im p)
    ∧ (∀ x ∈ m.piers, isRendezvous (opcodeOf x.2.2) = true ∧ wordOk x.2.2 = true ∧ sameMeeting m.word x.2.2 = true)
    ∧ s.hbm.uncorrectable = [] ∧ s.hbm.correctable = []

/-- u is s with the piers' next instructions in their buffers (03 R92): what fetching for a rendezvous leaves. -/
def Fetched (s u : State) (im : Image) (ps : List Nat) : Prop :=
  (∀ q, pierAt u q = if q ∈ ps then filled s im q else pierAt s q)
    ∧ u = { s with piers := u.piers, counters := u.counters }

/-- Every target of a PUSH or FORK takes the payload: the checks of 07 R186 hold and each has a free slot or credit. -/
abbrev MaySend (s : State) (m : Meet) (targets : List SpanQueue) : Prop :=
  targets.all (fun x => x.decl.producer == m.stage && targetRoom x
      && decide ((payloadOf s m.slices).length ≤ (classOf m.im x.decl).payloadMax)) = true
    ∧ strays m.im m.slices = none ∧ badSlice s m.slices = none

/-! ### Frames of links and associations -/

/-- A Span frame of this sequence number is the next in order at an end of a link that is bound or binding (07 R176), and no
later one is held: queue q of context n, with link L. -/
abbrev SpanNext (s : State) (link src seq n q : Nat) (im : Image) (x : SpanQueue) (L : SpanLink) : Prop :=
  running s = true ∧ findLink s (fun L => isEnd link src L && (L.st == .bound || L.st == .binding)) = some (n, q)
    ∧ imageAt s n = some im ∧ ((progAt s n).bind fun p => spanQueueAt p q) = some x ∧ x.link = some L
    ∧ L.rxSeq = seq ∧ L.ahead = []

/-- A Stay frame of this sequence number is the next in order on the association of context n with a peer (08 R224), and no
later one is held. -/
abbrev StayNext (s : State) (peer seq n : Nat) (A : Assoc) : Prop :=
  running s = true ∧ findAssoc s peer (fun A => A.st == .bound || A.st == .binding) = some n
    ∧ assocAt s n peer = some A ∧ A.rxSeq = seq ∧ A.ahead = []

/-- The frame has been taken from the port and moved the link on, with nothing else changed. -/
abbrev SpanTaken (s u : State) (n q : Nat) (x : SpanQueue) (L : SpanLink) : Prop :=
  linkAt u n q = some { L with rxSeq := add32 L.rxSeq 1, heardAt := s.time }
    ∧ ((progAt u n).bind fun p => spanQueueAt p q) = some { x with link := linkAt u n q }
    ∧ u = { s with pylon := { s.pylon with inbox := u.pylon.inbox }, ctxs := u.ctxs }

/-- The frame has been taken from the port and moved the association on, with nothing else changed. -/
abbrev StayTaken (s u : State) (n peer : Nat) (A : Assoc) : Prop :=
  assocAt u n peer = some { A with rxSeq := add32 A.rxSeq 1, heardAt := s.time }
    ∧ u = { s with pylon := { s.pylon with inbox := u.pylon.inbox }, ctxs := u.ctxs }

/-! ### Ports -/

/-- A port of the running package that is ACTIVE (09 R231). -/
abbrev PortOn (s : State) (p : Nat) (P : Port) : Prop := running s = true ∧ s.pylon.ports[p]? = some P ∧ P.st = .active

end Sys2Proof.Machine
end

