-- ==== Sys2Proof/Certificates/Slice0/Obligations.lean ====
section
/-! DEFINITION. The statements for the provers. -/

open Sys2Proof Sys2Proof.Machine

/-! ### Piers (chapters 03, 04, 10) -/

/-- LOAD_W has the layout of R98: its fields name the plane, the format, the rows and columns, and where the tile and its scales lie; a
word with a reserved field or code in it is no LOAD_W. It fills one weight plane from the scratchpad, each cell with its element of the
packed row and each cell that is not loaded with +0, records the stored format and the deck index, and changes nothing else; a row or
column code of 128 to 255 faults the context (R98, R77, R78, R96, R438). -/
def Obligations.LoadWFillsPlane : Prop :=
  (∀ (w : Nat) (x : LoadW), w < 2 ^ 128 → opcodeOf w = 0x01 → x = loadWOf w →
    w / 2 ^ 120 = 0x01 ∧ x.plane = decide (w / 2 ^ 119 % 2 = 1) ∧ x.format = w / 2 ^ 112 % 16 ∧ x.krows = w / 2 ^ 104 % 256 + 1
    ∧ x.ncols = w / 2 ^ 96 % 256 + 1 ∧ x.wAddr = w / 2 ^ 74 % 2 ^ 22 ∧ x.wStride = 32 * (w / 2 ^ 64 % 1024)
    ∧ x.scaleAddr = w / 2 ^ 42 % 2 ^ 22
    ∧ (wordOk w = true → w / 2 ^ 116 % 8 = 0 ∧ w % 2 ^ 42 = 0 ∧ x.format ≤ 5 ∧ x.krows ≤ 128 ∧ x.ncols ≤ 128)
    ∧ (x.format ≤ 5 → x.krows ≤ 128 → x.ncols ≤ 128 → ∀ (P : Pier) (index k c : Nat), k < 128 → c < 128 →
      ((loadedPlane P x index).rows.getD k []).getD c 0 = (if k < x.krows ∧ c < x.ncols then
          leNat (P.mem.read (x.wAddr + k * x.wStride) (rowBytes x.format)) / 2 ^ (elemBits x.format * c) % 2 ^ elemBits x.format
        else 0)
      ∧ (x.format = 0 → (loadedPlane P x index).scales = [])
      ∧ ∀ b, x.format ≠ 0 → 32 * b < x.krows → c < x.ncols →
        (loadedPlane P x index).scales.getD (128 * b + c) 0 = (P.mem.get (x.scaleAddr + 128 * b + c)).toNat))
  ∧ (∀ (s : State) (p n : Nat) (im : Image) (w : Nat), AtWord s p n im w → opcodeOf w = 0x01 →
    outside im p (loadWOf w).reads = none → scoreFree (pierAt s p) (loadWOf w).reads [] none none = true →
    ∃ t, exec (.loadW p) s = .next t
      ∧ pierAt t p = { setPlane (filled s im p) (loadWOf w).plane (loadedPlane (pierAt s p) (loadWOf w) (pierAt s p).index) with
          index := (pierAt s p).index + 1 }
      ∧ (∀ q, q ≠ p → pierAt t q = pierAt s q) ∧ Beside s t n)
  ∧ ∀ (s : State) (p n : Nat) (im : Image) (w : Nat), pierReady s p = some (n, im) → (pierAt s p).index < deckLength im p →
    peekWord s im p = w → s.hbm.uncorrectable = [] → s.hbm.correctable = [] → opcodeOf w = 0x01 →
    (128 ≤ w / 2 ^ 104 % 256 ∨ 128 ≤ w / 2 ^ 96 % 256) →
    ∃ u, Fetched s u im [p] ∧ exec (.loadW p) s = .next (pierFault (issueFaulting u n p (pierAt s p).index w) n p (pierAt s p).index 0)

/-- PASS puts its rows' 128 chain results each into the drain path and its entry into the scoreboard; with an empty window it
only moves on and counts as a PASS. PASS_ROW_WRITEBACK adds the next row into its accumulator, and after the last row ends the PASS (R84, R85, R97,
R129). -/
def Obligations.PassRowsReachAccumulator : Prop :=
  (∀ (s : State) (p n : Nat) (im : Image) (w : Nat) (win : Option Window), AtWord s p n im w → opcodeOf w = 0x02 →
    (planeOf (pierAt s p) (passOf w).plane).format.all (· == (passOf w).stored) = true →
    ((passOf w).mode = 1 → (passOf w).window < windowCount im p) →
    win = (if (passOf w).mode = 1 then some (windowOf (s.hbm.mem.read (windowAddr im p (passOf w).window) 32)) else none) →
    (win.any Window.empty = true →
      ∃ t, exec (.pass p) s = .next t ∧ pierAt t p = { filled s im p with index := (pierAt s p).index + 1 }
        ∧ (∀ q, q ≠ p → pierAt t q = pierAt s q) ∧ Beside s t n)
    ∧ (win.any Window.empty = false → outside im p ((passOf w).accRange :: (passOf w).streams win) = none →
      scoreFree (pierAt s p) ((passOf w).streams win) []
        (if (passOf w).first then none else some (passOf w).accRange) (some (passOf w).accRange) = true →
      ∃ t, exec (.pass p) s = .next t
        ∧ pierAt t p = { filled s im p with
            index := (pierAt s p).index + 1
            score := (pierAt s p).score ++
              [{ index := (pierAt s p).index, word := BitVec.ofNat 128 w, reads := (passOf w).streams win, writes := [], accumulates := some (passOf w).accRange,
                 sampled := none }]
            drain := (pierAt s p).drain ++
              [.pass { index := (pierAt s p).index, accumulator := (passOf w).accAddr, first := (passOf w).first, nextRow := 0,
                       rows := (List.range (passOf w).rows).map fun m => (rowChains (pierAt s p) (passOf w) win m).1,
                       slot := false }] }
        ∧ (∀ q, q ≠ p → pierAt t q = pierAt s q) ∧ Beside s t n))
  ∧ ∀ (s : State) (p n : Nat) (x : PassInFlight), s.sched.active = some n → oldestPass (pierAt s p).drain = some x →
    (pierAt s p).badWords = [] → (pierAt s p).weakWords = [] → (pierAt s p).score.all (·.sampled.isNone) = true →
    ∃ t, exec (.passRowWriteback p) s = .next t
      ∧ (pierAt t p).mem = (pierAt s p).mem.write (x.accumulator + x.nextRow * 1024)
          (addRow ((pierAt s p).mem.read (x.accumulator + x.nextRow * 1024) 1024) x.first (x.rows.headD []))
      ∧ (2 ≤ x.rows.length → pierAt t p = { pierAt s p with
          mem := (pierAt t p).mem
          drain := putPass (pierAt s p).drain (some { x with nextRow := x.nextRow + 1, rows := x.rows.tail, slot := true }) })
      ∧ (x.rows.length ≤ 1 → pierAt t p = { pierAt s p with
          mem := (pierAt t p).mem
          drain := putPass (pierAt s p).drain none
          score := (pierAt s p).score.filter fun o => o.index != x.index })
      ∧ (∀ q, q ≠ p → pierAt t q = pierAt s q) ∧ Beside s t n

/-- DRAIN has the layout of R100; a word with a reserved field or code in it is no DRAIN. It waits in the drain path's queue behind the
passes before it. DRAIN_BIND runs the oldest one when no pass into its
accumulator is before it and a tile slot is free: it writes every row, narrowed as R87 says, in row order; a column code of 128 to 255
faults the context (R86, R87, R96, R100). -/
def Obligations.DrainWritesRows : Prop :=
  (∀ (w : Nat) (x : Drain), w < 2 ^ 128 → opcodeOf w = 0x03 → x = drainOf w →
    w / 2 ^ 120 = 0x03 ∧ x.fuse = w / 2 ^ 118 % 4 ∧ x.outFmt = w / 2 ^ 116 % 4 ∧ x.fuseFmt = w / 2 ^ 114 % 4
    ∧ x.cols = w / 2 ^ 104 % 256 + 1 ∧ x.rows = w / 2 ^ 96 % 256 + 1 ∧ x.accAddr = w / 2 ^ 74 % 2 ^ 22 ∧ x.outAddr = w / 2 ^ 52 % 2 ^ 22
    ∧ x.outStride = 32 * (w / 2 ^ 42 % 1024) ∧ x.fuseAddr = w / 2 ^ 20 % 2 ^ 22 ∧ x.fuseStride = 32 * (w / 2 ^ 10 % 1024)
    ∧ (wordOk w = true → x.fuse ≤ 2 ∧ x.outFmt ≤ 2 ∧ x.fuseFmt ≤ 2 ∧ w / 2 ^ 112 % 4 = 0 ∧ x.cols ≤ 128 ∧ w % 2 ^ 10 = 0))
  ∧ (∀ (s : State) (p n : Nat) (im : Image) (w : Nat), AtWord s p n im w → opcodeOf w = 0x03 →
    outside im p ((drainOf w).accRange :: (drainOf w).writes :: (drainOf w).fuseReads) = none →
    scoreFree (pierAt s p) (drainOf w).fuseReads [(drainOf w).writes]
      (some { start := (drainOf w).accAddr, bytes := (drainOf w).accRange.bytes }) none = true →
    ∃ t, exec (.drain p) s = .next t
      ∧ pierAt t p = { filled s im p with
          index := (pierAt s p).index + 1
          score := (pierAt s p).score ++
            [{ index := (pierAt s p).index, word := BitVec.ofNat 128 w, reads := (drainOf w).accRange :: (drainOf w).fuseReads, writes := [(drainOf w).writes],
               accumulates := none, sampled := none }]
          drain := (pierAt s p).drain ++ [.drain (pierAt s p).index (BitVec.ofNat 128 w)] }
      ∧ (∀ q, q ≠ p → pierAt t q = pierAt s q) ∧ Beside s t n)
  ∧ (∀ (s : State) (p n i w : Nat) (ps : List PassInFlight), s.sched.active = some n →
    oldestDrain (pierAt s p).drain [] = some (i, w, ps) →
    (∀ x ∈ ps, rangesMeet x.accumulator ((x.nextRow + x.rows.length) * 1024) (drainOf w).accRange.start (drainOf w).accRange.bytes
      = false) →
    slotsHeld (pierAt s p).drain < 2 → (pierAt s p).badWords = [] → (pierAt s p).weakWords = [] →
    (pierAt s p).score.all (·.sampled.isNone) = true →
    ∃ t, exec (.drainBind p) s = .next t
      ∧ pierAt t p = { pierAt s p with
          mem := (List.range (drainOf w).rows).foldl
            (fun m r => m.write ((drainOf w).outAddr + r * (drainOf w).outStride) (drainRow m (drainOf w) r)) (pierAt s p).mem
          drain := dropDrain (pierAt s p).drain
          score := (pierAt s p).score.filter fun o => o.index != i }
      ∧ (∀ q, q ≠ p → pierAt t q = pierAt s q) ∧ Beside s t n)
  ∧ ∀ (s : State) (p n : Nat) (im : Image) (w : Nat), pierReady s p = some (n, im) → (pierAt s p).index < deckLength im p →
    peekWord s im p = w → s.hbm.uncorrectable = [] → s.hbm.correctable = [] → opcodeOf w = 0x03 →
    128 ≤ w / 2 ^ 104 % 256 →
    ∃ u, Fetched s u im [p] ∧ exec (.drain p) s = .next (pierFault (issueFaulting u n p (pierAt s p).index w) n p (pierAt s p).index 0)

/-- VEC issues once its argument block and the ranges that its program comes to read and write are free in the scoreboard, and
waits otherwise. It runs the lane program of its entry point from the pier's store to its end, which changes the scratchpad of
this pier alone; at most 16,777,216 instructions are executed, and a program that is not over then stays on the lanes until
LANE_PROGRAM_RUNAWAY ends it, which records cause 0x0002 and faults the context, after the record of a sampled VEC (R89 to R91, R93,
R422, R440). What a launch meets in
its registers, and the encoding of lane programs, are free values (log 10).
The model's own readings that enter: log 14. -/
def Obligations.VecRunsLaneProgram : Prop :=
  (∀ (s : State) (p n : Nat) (im : Image) (w : Nat) (i : Issue), AtWord s p n im w → opcodeOf w = 0x04 →
    i = { n, im, pier := p, index := (pierAt s p).index, word := w } →
    (generalOf w).index < entryCount (pierAt s p).store → outside im p [vecArgs i] = none →
    ∃ v, Fetched s v im [p]
      ∧ (scoreFree (pierAt s p) (vecArgs i :: (launchLanes v i s.free).1.reads) (launchLanes v i s.free).1.writes none none = false →
          exec (.vec p) s = .next s)
      ∧ (scoreFree (pierAt s p) (vecArgs i :: (launchLanes v i s.free).1.reads) (launchLanes v i s.free).1.writes none none = true
          ∨ (pierAt s p).score = [] →
        ∃ t u, exec (.vec p) s = .next t ∧ Beside { s with free := s.free + 1 } u n
          ∧ pierAt u p = { filled s im p with index := (pierAt s p).index + 1 }
          ∧ ((launchLanes u i s.free).2 = .finished →
              pierAt t p = { filled s im p with
                index := (pierAt s p).index + 1, mem := (pierAt (launchLanes u i s.free).1.s p).mem }
              ∧ (∀ q, q ≠ p → pierAt t q = pierAt s q) ∧ Beside { s with free := s.free + 1 } t n)
          ∧ ((launchLanes u i s.free).2 = .runaway →
              pierAt t p = { filled s im p with
                index := (pierAt s p).index + 1, mem := (pierAt (launchLanes u i s.free).1.s p).mem
                lane := some ((generalOf w).index, (pierAt s p).index) }
              ∧ (∀ q, q ≠ p → pierAt t q = pierAt s q) ∧ Beside { s with free := s.free + 1 } t n)
          ∧ ((launchLanes u i s.free).2 = .undefined ∨ (∃ a, (launchLanes u i s.free).2 = .outside a) →
              faultedIn t n = true ∧ (ctxAt t n).map (·.faultStatus) = some stContextFault)))
  ∧ (∀ (s : State) (i : Issue) (k : Nat), (launchLanes s i k).1.executed ≤ 16777216
      ∧ ((launchLanes s i k).2 = .runaway → (launchLanes s i k).1.executed = 16777216))
  ∧ (∀ (x : LaneSite) (store : List Byte) (f : Nat) (r : LaneRun),
      (runLanes x store f r).1.executed ≤ r.executed + f
        ∧ ((runLanes x store f r).2 = .runaway → (runLanes x store f r).1.executed = r.executed + f))
  ∧ ∀ (s : State) (p n e i : Nat), s.sched.active = some n → (pierAt s p).lane = some (e, i) →
    exec (.laneProgramRunaway p) s = .next (faultContext
      (logError (modPier
          ((pierAt s p).laneSample.elim s fun x => takeRecord s n p x.1.toNat i (flag true 3) (some x.2) (some s.time))
          p fun P => { P with lane := none, laneSample := none })
        0x0002 stContextFault sevFault srcPier (pierTile p) n [p, e])
      n stContextFault)

/-- ACC_WRITE adds a source tile into HBM. COPY moves bytes from HBM to the scratchpad, to HBM, or to another pier of the
stage. Every other byte of HBM and of the scratchpads stays (R95, R96, R258, R259). -/
def Obligations.AccWriteAndCopyMoveBytes : Prop :=
  (∀ (s : State) (p n : Nat) (im : Image) (w : Nat), AtWord s p n im w → opcodeOf w = 0x05 → 0 < (generalOf w).length →
    outside im p [{ start := (generalOf w).a, bytes := (generalOf w).length }] = none →
    mayWrite im (generalOf w).b (generalOf w).length = true →
    scoreFree (pierAt s p) [{ start := (generalOf w).a, bytes := (generalOf w).length },
        { start := hbmSpace + (generalOf w).b, bytes := (generalOf w).length }]
      [{ start := hbmSpace + (generalOf w).b, bytes := (generalOf w).length }] none none = true → s.caisson.run = none →
    (stackAt s ((stackOf (generalOf w).b).getD 0)).pathBad = false → (stackAt s ((stackOf (generalOf w).b).getD 0)).pathWeak = false →
    ∃ t, exec (.accWrite p) s = .next t
      ∧ pierAt t p = { filled s im p with index := (pierAt s p).index + 1 }
      ∧ t.hbm = { s.hbm with
          mem := s.hbm.mem.write (generalOf w).b
            (accWriteBytes ((generalOf w).flags % 2) (s.hbm.mem.read (generalOf w).b (generalOf w).length)
              ((pierAt s p).mem.read (generalOf w).a (generalOf w).length)) }
      ∧ (∀ q, q ≠ p → pierAt t q = pierAt s q) ∧ Beside { s with hbm := t.hbm } t n)
  ∧ (∀ (s : State) (p n : Nat) (im : Image) (w : Nat), AtWord s p n im w → opcodeOf w = 0x06 → (generalOf w).flags = 0 →
    outside im p [{ start := (generalOf w).a, bytes := (generalOf w).length }] = none →
    mayRead im (generalOf w).b (generalOf w).length = true →
    scoreFree (pierAt s p) [{ start := hbmSpace + (generalOf w).b, bytes := (generalOf w).length }]
      [{ start := (generalOf w).a, bytes := (generalOf w).length }] none none = true →
    ∃ t, exec (.copy p) s = .next t
      ∧ pierAt t p = { filled s im p with
          index := (pierAt s p).index + 1
          mem := (pierAt s p).mem.write (generalOf w).a (s.hbm.mem.read (generalOf w).b (generalOf w).length) }
      ∧ (∀ q, q ≠ p → pierAt t q = pierAt s q) ∧ Beside s t n)
  ∧ (∀ (s : State) (p n : Nat) (im : Image) (w : Nat), AtWord s p n im w → opcodeOf w = 0x06 → (generalOf w).flags = 1 →
    outside im p [{ start := (generalOf w).a, bytes := (generalOf w).length }] = none →
    mayWrite im (generalOf w).b (generalOf w).length = true →
    scoreFree (pierAt s p) [{ start := (generalOf w).a, bytes := (generalOf w).length }]
      [{ start := hbmSpace + (generalOf w).b, bytes := (generalOf w).length }] none none = true → s.caisson.run = none →
    ∃ t, exec (.copy p) s = .next t
      ∧ pierAt t p = { filled s im p with index := (pierAt s p).index + 1 }
      ∧ t.hbm = { s.hbm with mem := s.hbm.mem.write (generalOf w).b ((pierAt s p).mem.read (generalOf w).a (generalOf w).length) }
      ∧ (∀ q, q ≠ p → pierAt t q = pierAt s q) ∧ Beside { s with hbm := t.hbm } t n)
  ∧ ∀ (s : State) (p n : Nat) (im : Image) (w : Nat) (i : Issue), AtWord s p n im w → opcodeOf w = 0x06 → (generalOf w).flags = 2 →
    outside im p [{ start := (generalOf w).a, bytes := (generalOf w).length }] = none →
    i = { n, im, pier := p, index := (pierAt s p).index, word := w } → copyTargetOk i (generalOf w) = true →
    scoreFree (pierAt s p) [{ start := (generalOf w).a, bytes := (generalOf w).length }]
      (if pierTile p * 128 + (generalOf w).index = p then [{ start := (generalOf w).b, bytes := (generalOf w).length }] else [])
      none none = true → (pierAt s (pierTile p * 128 + (generalOf w).index)).weakWords = [] →
    ∃ t, exec (.copy p) s = .next t
      ∧ pierAt t p = { filled s im p with index := (pierAt s p).index + 1, mem := (pierAt t p).mem }
      ∧ (pierTile p * 128 + (generalOf w).index ≠ p → (pierAt t p).mem = (pierAt s p).mem)
      ∧ (pierAt t (pierTile p * 128 + (generalOf w).index)).mem =
          (pierAt s (pierTile p * 128 + (generalOf w).index)).mem.write (generalOf w).b
            ((pierAt s p).mem.read (generalOf w).a (generalOf w).length)
      ∧ (∀ q, q ≠ p → q ≠ pierTile p * 128 + (generalOf w).index → pierAt t q = pierAt s q) ∧ Beside s t n

/-- An undefined opcode, or a word that R96 does not allow, ends the program: the instruction counts as issued and has no effect, cause
0x0003 is recorded with the pier and the deck index, and the context faults (R50, R96). -/
def Obligations.UndefinedWordFaultsContext : Prop :=
  ∀ (s : State) (p n : Nat) (im : Image) (w : Nat), pierReady s p = some (n, im) → (pierAt s p).index < deckLength im p →
    peekWord s im p = w → s.hbm.uncorrectable = [] → s.hbm.correctable = [] →
    ∃ u, Fetched s u im [p]
      ∧ (opcodes.contains (opcodeOf w) = false →
          exec (.opcodeNotInTable p) s = .next (pierFault (issueFaulting u n p (pierAt s p).index w) n p (pierAt s p).index 0))
      ∧ (wordOk w = false → opcodeOf w = 0x01 → exec (.loadW p) s = .next (pierFault (issueFaulting u n p (pierAt s p).index w) n p (pierAt s p).index 0))
      ∧ (wordOk w = false → opcodeOf w = 0x02 → exec (.pass p) s = .next (pierFault (issueFaulting u n p (pierAt s p).index w) n p (pierAt s p).index 0))
      ∧ (wordOk w = false → opcodeOf w = 0x03 → exec (.drain p) s = .next (pierFault (issueFaulting u n p (pierAt s p).index w) n p (pierAt s p).index 0))
      ∧ (wordOk w = false → opcodeOf w = 0x04 → exec (.vec p) s = .next (pierFault (issueFaulting u n p (pierAt s p).index w) n p (pierAt s p).index 0))
      ∧ (wordOk w = false → opcodeOf w = 0x05 → exec (.accWrite p) s = .next (pierFault (issueFaulting u n p (pierAt s p).index w) n p (pierAt s p).index 0))
      ∧ (wordOk w = false → opcodeOf w = 0x06 → exec (.copy p) s = .next (pierFault (issueFaulting u n p (pierAt s p).index w) n p (pierAt s p).index 0))

/-! ### Stages (chapters 02, 03, 06, 07, 08) -/

/-- A completed rendezvous moves each of its piers to the next deck index and, beside its effect, changes counters and the
watchdog's start only (R92, R94).
The model's own readings that enter: log 13. -/
def Obligations.RendezvousAdvancesPiers : Prop :=
  ∀ (s : State) (m : Meet) (effect : State → State), (m.piers.map (·.1)).Nodup → (ctxAt (effect s) m.n).bind (·.sampling) = none →
    (faultedIn (effect s) m.n = true → faultedIn s m.n = true) →
    (∀ x ∈ m.piers, pierAt (m.done s effect) x.1 = { pierAt (effect s) x.1 with index := x.2.1 + 1 })
      ∧ (∀ q, q ∉ m.piers.map (·.1) → pierAt (m.done s effect) q = pierAt (effect s) q)
      ∧ Beside (effect s) (m.done s effect) m.n

/-- PUSH puts the stage's descriptor and its piers' slices into the target queue, FORK into every branch queue at once, when
each has a free slot or credit (R45, R186, R196). To deliver into a queue of this package takes its next slot from FREE to FULL, with the
descriptor, the segment table and the payload in the Span buffer or in the slot's home, and then runs the queue's policy; on a sending
link it sends them in DESC and DATA frames and counts one more slot sent (R177 to R179, R188, R190, R191).
The model's own readings that enter: log 13. -/
def Obligations.PushAndForkDeliver : Prop :=
  (∀ (s : State) (k : Nat) (m : Meet) (c : Micro), Meets s k m → (stageAt s m.n k).bind (·.current) = some c →
    ∃ u, Fetched s u m.im (m.piers.map (·.1))
      ∧ (∀ x, opcodeOf m.word = 0x10 → ((progAt s m.n).bind fun p => spanQueueAt p m.general.index) = some x → MaySend s m [x] →
          exec (.push k) s = .next (m.done u fun s =>
            deliver (m.slices.foldl (fun s y => touchPad s m.n y.1 [y.2.2]) s) m.n m.im x.decl.queue
              (outgoing m c (payloadOf u m.slices).length) c.segs (payloadOf u m.slices)))
      ∧ (∀ g qs, opcodeOf m.word = 0x13 → groupOf s m 0 = some (g, qs) → MaySend s m qs →
          exec (.fork k) s = .next (m.done u fun s =>
            qs.foldl (fun s x => deliver s m.n m.im x.decl.queue (outgoing m c (payloadOf u m.slices).length) c.segs
              (payloadOf u m.slices)) (m.slices.foldl (fun s y => touchPad s m.n y.1 [y.2.2]) s))))
  ∧ (∀ (s : State) (n q i : Nat) (im : Image) (p : Program) (x : SpanQueue) (d : Desc) (segs : List Seg) (payload : List Byte),
    progAt s n = some p → p.st ≠ .faulted → spanQueueAt p q = some x → x.link.filter (·.sending) = none → hasRoom x = true →
    i = x.fillAt → i < x.slots.length → (slotAt x i).weak = [] →
    (buffered s n (slotHome im x.decl i) (slotAt x i) = true →
      ∃ v, deliver s n im q d segs payload = runPolicy v n im q .filled
        ∧ ((progAt v n).bind fun p => spanQueueAt p q) = some { x with
            slots := modAt x.slots i fun y => { y with
              st := .full, fetched := false, bad := [], weak := [], segsSeen := 0
              buf := (Memory.write [] 0 (encodeDesc d ++ segs.flatMap encodeSeg)).write (payloadOffset (classOf im x.decl)) payload }
            fillAt := (i + 1) % x.slots.length }
        ∧ v = { s with ctxs := v.ctxs })
    ∧ (∀ h, slotHome im x.decl i = some h → buffered s n (some h) (slotAt x i) = false →
      mayWrite im h (encodeDesc d ++ segs.flatMap encodeSeg).length = true →
      mayWrite im (h + payloadOffset (classOf im x.decl)) payload.length = true →
      s.pylon.spillBad.contains (hostTile im x.decl) = false → s.pylon.spillWeak.contains (hostTile im x.decl) = false →
      s.hbm.uncorrectable = [] → s.hbm.correctable = [] → s.caisson.run = none →
      ∃ v, deliver s n im q d segs payload = runPolicy v n im q .filled
        ∧ ((progAt v n).bind fun p => spanQueueAt p q) = some { x with
            slots := modAt x.slots i fun y => { y with st := .full, fetched := false, bad := [], weak := [], segsSeen := 0, buf := [] }
            fillAt := (i + 1) % x.slots.length }
        ∧ v.hbm = { s.hbm with
            mem := (s.hbm.mem.write h (encodeDesc d ++ segs.flatMap encodeSeg)).write (h + payloadOffset (classOf im x.decl)) payload }
        ∧ v = { s with ctxs := v.ctxs, hbm := v.hbm, counters := v.counters }))
  ∧ ∀ (s : State) (n q : Nat) (im : Image) (x : SpanQueue) (L : SpanLink) (d : Desc) (segs : List Seg) (payload : List Byte),
    ((progAt s n).bind fun p => spanQueueAt p q) = some x → x.link = some L → L.sending = true →
    ∃ v w, deliver s n im q d segs payload = modSpanQueue w n q (fun y =>
          { y with fillAt := (y.fillAt + 1) % y.decl.depth, link := y.link.map fun L => { L with sent := add32 L.sent 1 } })
      ∧ v = sendDesc s n q x.fillAt d segs ∧ w = sendData v n q (payloadOffset (classOf im x.decl)) payload
      ∧ (segs.length ≤ 1016 → v = sendSpan s n q 0x01 0 x.fillAt (encodeDesc d ++ segs.flatMap encodeSeg))
      ∧ (1 ≤ payload.length ∧ payload.length ≤ 8192 →
          w = sendSpan v n q 0x02 1 (payloadOffset (classOf im x.decl)) payload)

/-- POP takes the head of its queue for the stage, JOIN the heads of every branch of its group, and RELEASE frees the oldest
held slot (R45, R188, R197). The head goes from FULL to HELD; the slot released goes to FREE, and the hosting end of a remote queue adds
one to its cumulative RELEASE count and sends it in CREDIT (R179).
The model's own readings that enter: log 13. -/
def Obligations.PopJoinAndReleaseTakeSlots : Prop :=
  (∀ (s : State) (k : Nat) (m : Meet), Meets s k m →
    ∃ u, Fetched s u m.im (m.piers.map (·.1))
      ∧ (∀ x, opcodeOf m.word = 0x11 → ((progAt s m.n).bind fun p => spanQueueAt p m.general.index) = some x →
          x.decl.consumer = k → hasFull x = true → ∃ e, exec (.pop k) s = .next (m.done u e)
            ∧ ∀ v d segs payload, readHead u m.n m.im x = (v, some (d, segs, payload)) →
                e u = writePiers (setCurrent (stampAdmitted (holdHead v m.n x.decl.queue) m.n x.decl d).1 m
                    (stampAdmitted (holdHead v m.n x.decl.queue) m.n x.decl d).2 segs x.decl.descAddr) m
                  (heading m x.decl.descAddr (stampAdmitted (holdHead v m.n x.decl.queue) m.n x.decl d).2 segs
                    ++ portions payload 0 0 m.slices))
      ∧ (∀ x, opcodeOf m.word = 0x12 → ((progAt s m.n).bind fun p => spanQueueAt p m.general.index) = some x →
          x.decl.consumer = k → (slotAt x x.heldAt).st = .held →
          exec (.release k) s = .next (m.done u fun s => releaseSlot s m.n m.im x.decl.queue))
      ∧ ∀ g qs, opcodeOf m.word = 0x14 → groupOf s m 1 = some (g, qs) → (∀ x ∈ qs, x.decl.consumer = k ∧ hasFull x = true) →
          exec (.join k) s = .next (m.done u fun s => joinHeads s m g qs))
  ∧ ∀ (s : State) (n q : Nat) (im : Image) (x : SpanQueue), ((progAt s n).bind fun p => spanQueueAt p q) = some x →
    ((progAt (holdHead s n q) n).bind fun p => spanQueueAt p q) = some { x with
        slots := modAt x.slots x.headAt fun y => { y with st := .held }
        headAt := (x.headAt + 1) % x.slots.length }
      ∧ holdHead s n q = { s with ctxs := (holdHead s n q).ctxs }
      ∧ ∃ w, ((progAt w n).bind fun p => spanQueueAt p q) = some { x with
            slots := modAt x.slots x.heldAt fun y =>
              { y with st := .free, buf := [], fetched := false, bad := [], weak := [], segsSeen := 0 }
            heldAt := (x.heldAt + 1) % x.slots.length
            link := x.link.map fun L => { L with released := add32 L.released 1 } }
          ∧ w = { s with ctxs := w.ctxs }
          ∧ releaseSlot s n im q =
              runPolicy (x.link.elim w fun L => sendSpan w n q 0x03 0 (add32 L.released 1) []) n im q .released

/-- A SIGNAL raises its channel's count by n when that stays within the capacity, and a WAIT lowers it by n when it holds n
(R41), for a stage, the feed actor, a finished collective, and the Caisson actor on a fence that is not its last. A stage's
waits until then, and one whose n is 0 or above the capacity faults the context. Other channels keep their counts.
The model's own readings that enter: log 12, 13. -/
def Obligations.SignalAndWaitCountTokens : Prop :=
  (∀ (s : State) (k : Nat) (m : Meet) (d : TokenDecl), Meets s k m → tokenDecl m.im m.general.index = some d →
    ∃ u, Fetched s u m.im (m.piers.map (·.1))
      ∧ (opcodeOf m.word = 0x18 → d.producer = .stage k → exec (.signal (.stage k)) s = .next
          (if tokenN d m.general.count = false then m.fault u
            else if tokenRoom s m.n d m.general.count then m.done u fun s => signalToken s m.n d m.general.count else s))
      ∧ (opcodeOf m.word = 0x19 → d.consumer = .stage k → exec (.wait (.stage k)) s = .next
          (if tokenN d m.general.count = false then m.fault u
            else if m.general.count ≤ tokenCount s m.n d.channel then m.done u fun s => waitToken s m.n d.channel m.general.count
            else s)))
  ∧ (∀ (s : State) (n : Nat) (im : Image) (d : TokenDecl) (ch k : Nat), acting s = some (n, im) → tokenDecl im ch = some d →
      tokenN d k = true →
      (d.producer = .feed → tokenRoom s n d k = true →
        exec (.signal (.feed ch k)) s = .next (opDone (signalToken s n d k) n))
      ∧ (d.consumer = .feed → k ≤ tokenCount s n ch → exec (.wait (.feed ch k)) s = .next (opDone (waitToken s n ch k) n)))
  ∧ (∀ (s : State) (n : Nat) (im : Image) (d : TokenDecl) (x : StayRun) (tile entry : Nat) (e : EntryRun),
      acting s = some (n, im) → stayAt s n tile = some x →
      x.outstanding.find? (fun r => r.entry == entry && r.finished) = some e → tokenDecl im e.channel = some d →
      d.producer = .stay tile → tokenRoom s n d 1 = true →
      ∃ u, exec (.signal (.stay tile entry)) s = .next (runStays (opDone (signalToken u n d 1) n) n)
        ∧ stayAt u n tile = some { x with
            outstanding := x.outstanding.filter fun r => r.entry != entry
            lastStep := setAssoc x.lastStep entry (((ctxAt s n).map (·.step)).getD 0) }
        ∧ (∀ ch, tokenCount u n ch = tokenCount s n ch) ∧ u = { s with ctxs := u.ctxs })
  ∧ (∀ (s : State) (n : Nat) (im : Image) (p : Program) (ch : Nat), acting s = some (n, im) → progAt s n = some p →
      im.decls.fences[p.fencesDone]? = some ch → p.fencesDone + 1 < im.decls.fences.length → 1 ≤ tokenCount s n ch →
      exec (.wait (.caisson ch)) s = .next (passFence s n ch))
  ∧ ∀ (s : State) (n : Nat) (p : Program) (d : TokenDecl) (k : Nat), progAt s n = some p →
      (d.consumer ≠ .host → tokenCount (signalToken s n d k) n d.channel = tokenCount s n d.channel + k
        ∧ ∀ ch, ch ≠ d.channel → tokenCount (signalToken s n d k) n ch = tokenCount s n ch)
      ∧ tokenCount (waitToken s n d.channel k) n d.channel = tokenCount s n d.channel - k
      ∧ ∀ ch, ch ≠ d.channel → tokenCount (waitToken s n d.channel k) n ch = tokenCount s n ch

/-- ADMIT fixes mb_id, step and origin for the next POP and takes one of the M places in flight. PIN holds the version that the
micro-batch names in its stage's store, at the first stage the version that its step carries; it may empty a slot for that version, and
waits while none holds it. RETIRE lets the oldest pinned
micro-batch go (R193, R198 to R200).
The model's own readings that enter: log 13, 16, 67. -/
def Obligations.AdmitPinAndRetire : Prop :=
  (∀ (s : State) (k : Nat) (m : Meet) (p : Program) (c : Context), Meets s k m → m.general.index = k →
    progAt s m.n = some p → ctxAt s m.n = some c → opcodeOf m.word = 0x20 → firstStage m.im = some k →
    p.inflight < inflightLimit m.im → (carried m.im p p.admitStep).isSome = true →
    ∃ u e, Fetched s u m.im (m.piers.map (·.1)) ∧ exec (.admitBatch k) s = .next (m.done u e)
      ∧ ((progAt (e u) m.n).map fun q => (q.inflight, q.admitted)) =
          some (p.inflight + 1, some (c.nextMb, p.admitStep, originWord s k))
      ∧ ((ctxAt (e u) m.n).map (·.nextMb)) = some (add32 c.nextMb 1) ∧ e u = { u with ctxs := (e u).ctxs })
  ∧ (∀ (s : State) (k : Nat) (m : Meet) (p : Program) (c : Micro) (v : Nat), Meets s k m → m.general.index = k →
    progAt s m.n = some p → opcodeOf m.word = 0x21 → (stageAt s m.n k).bind (·.current) = some c → pinVersion m p c = some v →
    ∃ u w, Fetched s u m.im (m.piers.map (·.1)) ∧ w = modStage u m.n k (fun r => { r with newestStep := some c.desc.step })
      ∧ ((hasStore m.im k = true → holdsVersion (((stageAt w m.n k).map (·.store)).getD []) v = true) →
          exec (.pin k) s = .next (m.done w fun s => pinMicro s m c v))
      ∧ (hasStore m.im k = true → holdsVersion (((stageAt w m.n k).map (·.store)).getD []) v = false →
          exec (.pin k) s = .next
            (if holdsVersion (((stageAt (sweep w m.n m.im) m.n k).map (·.store)).getD []) v = true then
              m.done (sweep w m.n m.im) fun s => pinMicro s m c v
            else s)))
  ∧ ∀ (s : State) (k : Nat) (m : Meet) (x : Pinned) (xs : List Pinned), Meets s k m → m.general.index = k →
    opcodeOf m.word = 0x22 → (stageAt s m.n k).map (·.pinned) = some (x :: xs) →
    ∃ u, Fetched s u m.im (m.piers.map (·.1)) ∧ exec (.retire k) s = .next (m.done u fun s => retireMicro s m x)

/-- What PIN and RETIRE do to a stage's list of pinned micro-batches, to its version store and to the count in flight: PIN raises the
pin count of the version's slot and RETIRE lowers it, and then every stage lets go and assigns the slots that R198 and R201 say (R199,
R200). At the first stage PIN also writes the version into the descriptor in each pier's scratchpad (R184, R199).
The model's own readings that enter: log 16. -/
def Obligations.PinAndRetireKeepOrder : Prop :=
  (∀ (s : State) (m : Meet) (c : Micro) (v : Nat) (r : StageRun) (p : Program), stageAt s m.n m.stage = some r →
    progAt s m.n = some p →
    (firstStage m.im ≠ some m.stage →
      stageAt (pinMicro s m c v) m.n m.stage = some (sweepStage m.im p m.stage { r with
          current := some c
          store := if hasStore m.im m.stage then pinSlot r.store v else r.store
          pinned := r.pinned ++ [{ mbId := c.desc.mbId, step := c.desc.step, version := v }] })
        ∧ (∀ j, j ≠ m.stage → stageAt (pinMicro s m c v) m.n j = (stageAt s m.n j).map (sweepStage m.im p j))
        ∧ pinMicro s m c v = { s with ctxs := (pinMicro s m c v).ctxs })
    ∧ (firstStage m.im = some m.stage → (m.piers.map (·.1)).Nodup →
      (∀ x ∈ m.piers, (pierAt s x.1).badWords = [] ∧ (pierAt s x.1).weakWords = []
        ∧ outside m.im x.1 [{ start := c.addr + 20, bytes := 4 }] = none) →
      stageAt (pinMicro s m c v) m.n m.stage = some (sweepStage m.im p m.stage { r with
          current := some { c with desc := { c.desc with version := v } }
          store := if hasStore m.im m.stage then pinSlot r.store v else r.store
          pinned := r.pinned ++ [{ mbId := c.desc.mbId, step := c.desc.step, version := v }] })
        ∧ (∀ j, j ≠ m.stage → stageAt (pinMicro s m c v) m.n j = (stageAt s m.n j).map (sweepStage m.im p j))
        ∧ (∀ x ∈ m.piers, pierAt (pinMicro s m c v) x.1 =
            { pierAt s x.1 with mem := (pierAt s x.1).mem.write (c.addr + 20) (leBytes 4 v) })
        ∧ (∀ q, q ∉ m.piers.map (·.1) → pierAt (pinMicro s m c v) q = pierAt s q)
        ∧ pinMicro s m c v = { s with piers := (pinMicro s m c v).piers, ctxs := (pinMicro s m c v).ctxs }))
  ∧ ∀ (s : State) (m : Meet) (x : Pinned) (r : StageRun) (p : Program), stageAt s m.n m.stage = some r →
    progAt s m.n = some p →
    stageAt (retireMicro s m x) m.n m.stage = some (sweepStage m.im p m.stage { r with
        pinned := r.pinned.tail
        store := if hasStore m.im m.stage then unpinSlot r.store x.version else r.store })
      ∧ (∀ j, j ≠ m.stage → stageAt (retireMicro s m x) m.n j = (stageAt s m.n j).map (sweepStage m.im p j))
      ∧ ((progAt (retireMicro s m x) m.n).map (·.inflight)) =
          some (if firstStage m.im = some m.stage then p.inflight - 1 else p.inflight)
      ∧ retireMicro s m x = { s with ctxs := (retireMicro s m x).ctxs }

/-- GATHER, REDUCE_SCATTER and ALL_REDUCE each join the outstanding collectives of the stage's home tile, and its Stay engine goes
on (R96, R209, R215, R218, R219). -/
def Obligations.CollectivesBecomeOutstanding : Prop :=
  ∀ (s : State) (k : Nat) (m : Meet) (c : Coll) (x : StayRun), Meets s k m →
    stayAt s m.n (homeTile m.im.decls k) = some x → collOf m.n m.im (homeTile m.im.decls k) m.general.index = some c →
    (c.run s).isSome = false → x.outstanding.length < c.sched.maxOutstanding →
    (opcodeOf m.word = 0x28 → c.e.kind = 0 → ∃ t u, exec (.gather k) s = .next t
      ∧ Fetched s u m.im (m.piers.map (·.1)) ∧ t = m.done u fun s =>
        runStays (modStay s m.n (homeTile m.im.decls k) fun x =>
          { x with outstanding := x.outstanding ++ [freshEntry m.general.index m.general.count k] }) m.n)
    ∧ (opcodeOf m.word = 0x29 → c.e.kind = 1 → ∃ t u, exec (.reduceScatter k) s = .next t
      ∧ Fetched s u m.im (m.piers.map (·.1)) ∧ t = m.done u fun s =>
        runStays (modStay s m.n (homeTile m.im.decls k) fun x =>
          { x with outstanding := x.outstanding ++ [freshEntry m.general.index m.general.count k] }) m.n)
    ∧ (opcodeOf m.word = 0x2A → c.e.kind = 2 → ∃ t u, exec (.allReduce k) s = .next t
      ∧ Fetched s u m.im (m.piers.map (·.1)) ∧ t = m.done u fun s =>
        runStays (modStay s m.n (homeTile m.im.decls k) fun x =>
          { x with outstanding := x.outstanding ++ [freshEntry m.general.index m.general.count k] }) m.n)

/-- STEP_END ends the step when every pier stands at it and the other actors are done: the step number rises by one and every
deck starts again. The last fence WAIT of the Caisson is the capture point. A program in which no operation completes for the
watchdog's period faults with cause 0x0001 (R39, R61, R169, R170, R274).
The model's own readings that enter: log 11, 13. -/
def Obligations.StepEndsAndWatchdog : Prop :=
  (∀ (s : State) (n : Nat) (im : Image) (c : Context), acting s = some (n, im) → ctxAt s n = some c → othersDone s n im = true →
    s.hbm.uncorrectable = [] → s.hbm.correctable = [] → c.sampling = none →
    (∀ p ∈ allPiers im, atRest s p = true ∧ (pierAt s p).index < deckLength im p
      ∧ opcodeOf (peekWord s im p) = 0x30
      ∧ wordOk (peekWord s im p) = true) →
    ∃ t, exec .stepEnd s = .next t ∧ (ctxAt t n).map (·.step) = some (add32 c.step 1)
      ∧ ((progAt t n).map fun p => (p.verdict, p.localBit, p.fencesDone)) = some (none, false, 0)
      ∧ (∀ p ∈ allPiers im, (pierAt t p).index = 0) ∧ t.hbm = s.hbm ∧ t.sched = s.sched)
  ∧ (∀ (s : State) (n : Nat) (im : Image) (p : Program) (ch : Nat), acting s = some (n, im) → progAt s n = some p →
    im.decls.fences[p.fencesDone]? = some ch → p.fencesDone + 1 = im.decls.fences.length → 1 ≤ tokenCount s n ch →
    exec .capturePoint s = .next (capture (passFence s n ch) n im))
  ∧ ∀ (s : State) (n : Nat) (im : Image) (c : Context) (p : Program), imageAt s n = some im → ctxAt s n = some c →
    progAt s n = some p → running s = true → serving s n = true → p.st = .running → retrying s p = false →
    exec (.progressWatchdogExpiry n) s = .next (faultContext
      (logError (advanceTo s (p.watchdogAt + watchdogNs c)) 0x0001 stContextFault sevFault srcPackage 0xFF n
        (blockedWords s n im ++ List.replicate (8 - (blockedWords s n im).length) 0)) n stContextFault)

/-! ### Span links and Stay associations (chapters 07, 08) -/

/-- The Span frame that is next in order restarts the link's deadline and acts at once: DESC and DATA fill a slot, CREDIT sets
the cumulative RELEASE count, HEARTBEAT does no more, BIND with the own digest binds the link, ABANDON faults the context, and
CLOSE faults it or closes an idle link (R176 to R182). Each of the seven rows runs on every such frame.
The model's own readings that enter: log 19. -/
def Obligations.SpanFramesActInOrder : Prop :=
  ∀ (s : State) (link src seq n q : Nat) (im : Image) (x : SpanQueue) (L : SpanLink), SpanNext s link src seq n q im x L →
    (L.st = .bound →
      (∀ cont slot body, ∃ t u, exec (.spanDesc link src seq cont slot body) s = .next t ∧ SpanTaken s u n q x L
          ∧ t = onDesc u n im { x with link := linkAt u n q } cont body)
      ∧ (∀ last off body, ∃ t u, exec (.spanData link src seq last off body) s = .next t ∧ SpanTaken s u n q x L
          ∧ t = onData u n im { x with link := linkAt u n q } last off body)
      ∧ (∀ k, ∃ t, exec (.spanCredit link src seq k) s = .next t
          ∧ linkAt t n q = some { L with rxSeq := add32 seq 1, heardAt := s.time, released := k }
          ∧ t = { s with pylon := { s.pylon with inbox := t.pylon.inbox }, ctxs := t.ctxs })
      ∧ (∃ t, exec (.spanHeartbeat link src seq) s = .next t ∧ SpanTaken s t n q x L)
      ∧ (∀ st, ∃ t u, exec (.spanAbandon link src seq st) s = .next t ∧ SpanTaken s u n q x L
          ∧ t = peerLost u n L.link L.peer st)
      ∧ ∃ t u, exec (.spanClose link src seq) s = .next t ∧ SpanTaken s u n q x L
        ∧ if linkBusy u n im { x with link := linkAt u n q } { L with rxSeq := add32 seq 1, heardAt := s.time } = true then
            t = peerLost u n L.link L.peer 0
          else linkAt t n q = some { L with rxSeq := add32 seq 1, heardAt := s.time, st := .closed }
            ∧ t = { s with pylon := { s.pylon with inbox := t.pylon.inbox }, ctxs := t.ctxs })
    ∧ (L.st = .binding → ∃ t u, exec (.spanBind link src seq L.digest) s = .next t ∧ t = checkBound u n
        ∧ linkAt u n q = some { L with rxSeq := add32 seq 1, heardAt := s.time, sentAt := s.time, st := .bound }
        ∧ u = { s with pylon := { s.pylon with inbox := u.pylon.inbox }, ctxs := u.ctxs })

/-- The Stay frame that is next in order restarts the association's deadline and acts at once: DATA and TRAILER go to staging
and let the collectives run on, CREDIT sends what waited for it while the context is active, HEARTBEAT does no more, BIND with
the own digest binds, ABANDON and a CLOSE with operations outstanding fault the context, and a CLOSE of an idle association closes
it (R221, R224, R226). Each of the seven rows runs on every such frame.
The model's own readings that enter: log 19. -/
def Obligations.StayFramesActInOrder : Prop :=
  ∀ (s : State) (peer tile seq n : Nat) (A : Assoc), StayNext s peer seq n A →
    (A.st = .bound →
      (∀ entry piece last off body, ∃ t u, exec (.stayData peer tile seq entry piece last off body) s = .next t
        ∧ StayTaken s u n peer A
        ∧ t = holdStay u n tile peer { type := 0x11, flags := flag last 0, entry, piece, seq, value := off, body })
      ∧ (∀ entry piece body, ∃ t u, exec (.stayTrailer peer tile seq entry piece body) s = .next t ∧ StayTaken s u n peer A
        ∧ t = holdStay u n tile peer { type := 0x17, flags := 0, entry, piece, seq, value := 0, body })
      ∧ (∀ k, ∃ t u, exec (.stayCredit peer tile seq k) s = .next t
        ∧ assocAt u n peer = some { A with rxSeq := add32 seq 1, heardAt := s.time, granted := k }
        ∧ u = { s with pylon := { s.pylon with inbox := u.pylon.inbox }, ctxs := u.ctxs }
        ∧ t = if s.sched.active = some n ∧ s.sched.incoming = none then drainBacklog A.backlog.length u n peer else u)
      ∧ (∃ t, exec (.stayHeartbeat peer tile seq) s = .next t ∧ StayTaken s t n peer A)
      ∧ (∀ st, ∃ t u, exec (.stayAbandon peer tile seq st) s = .next t
        ∧ u = { s with pylon := { s.pylon with inbox := u.pylon.inbox } } ∧ t = peerLost u n (2 ^ 31 + peer) peer st)
      ∧ ∃ t u, exec (.stayClose peer tile seq) s = .next t ∧ StayTaken s u n peer A
        ∧ if assocBusy u n peer { A with rxSeq := add32 seq 1, heardAt := s.time } = true then
            t = peerLost u n (2 ^ 31 + peer) peer 0
          else assocAt t n peer = some { A with rxSeq := add32 seq 1, heardAt := s.time, st := .closed }
            ∧ t = { s with pylon := { s.pylon with inbox := t.pylon.inbox }, ctxs := t.ctxs })
    ∧ (A.st = .binding → ∃ t u, exec (.stayBind peer tile seq A.digest) s = .next t ∧ t = checkBound u n
        ∧ assocAt u n peer = some { A with rxSeq := add32 seq 1, heardAt := s.time, sentAt := s.time, st := .bound }
        ∧ u = { s with pylon := { s.pylon with inbox := u.pylon.inbox }, ctxs := u.ctxs })

/-- 1 µs after the last frame sent on a bound link or association a HEARTBEAT goes out; 4 µs after the last one heard, with no
pause, the context faults with cause 0x0024 that names the link or association; 60 s after a launch whose links are not all
bound, it is refused with TIMEOUT (R179, R180, R182, R224).
The model's own readings that enter: log 11. -/
def Obligations.LinkTimersExpire : Prop :=
  (∀ (s : State) (link n q : Nat) (L : SpanLink), running s = true →
    findLink s (fun L => L.link == link && L.st == .bound) = some (n, q) → linkAt s n q = some L →
    exec (.spanHeartbeatTimer link) s = .next (sendSpan (advanceTo s (L.sentAt + 1000)) n q 0x04 0 0 [])
      ∧ (linkPaused s L = false → exec (.spanPeerDeadline link) s = .next (faultContext
          (logError (advanceTo s (L.heardAt + 4000)) 0x0024 stPeerLost sevFault srcPylon 0xFF n [L.link, L.peer, 0])
          n stPeerLost)))
  ∧ (∀ (s : State) (peer n : Nat) (A : Assoc), running s = true → findAssoc s peer (fun A => A.st == .bound) = some n →
    assocAt s n peer = some A →
    exec (.stayHeartbeatTimer peer) s = .next (putStay (advanceTo s (A.sentAt + 1000)) n peer 0
        { type := 0x13, flags := 0, entry := 0, piece := 0, seq := 0, value := 0, body := [] })
      ∧ (assocPaused s A = false → exec (.stayPeerDeadline peer) s = .next (faultContext
          (logError (advanceTo s (A.heardAt + 4000)) 0x0024 stPeerLost sevFault srcPylon 0xFF n [2 ^ 31 + peer, peer, 0])
          n stPeerLost)))
  ∧ (∀ (s : State) (n : Nat) (p : Program), running s = true → progAt s n = some p → p.st = .binding →
    exec (.bindWindowExpiry n) s = .next
      (refuseLaunch (sendCloses (advanceTo s (p.bindAt + 60000000000)) n) n stTimeout (unbound p)))
  ∧ ∀ (s : State) (n q type flags value : Nat) (body : List Byte) (L : SpanLink), linkAt s n q = some L →
    (bondPort s L).isSome = true →
    linkAt (sendSpan s n q type flags value body) n q =
      some { L with txSeq := add32 L.txSeq 1, sentAt := s.time
                    nextPort := (L.ports.idxOf ((bondPort s L).getD 0) + 1) % L.ports.length }

/-! ### Pylon ports, package ID and routes (chapter 09) -/

/-- A frame with the expected lseq is accepted: it goes to this package's inbox and its hop class's grant grows, or it goes on
with one hop more. A damaged frame brings one NAK. Grants let waiting frames out, a NAK or 2 µs without an ack send every
unacknowledged frame again, and after 500 µs of retry activity, or with lock lost, the port gives up (R233 to R237, R242).
The model's own readings that enter: log 11, 28 to 30, 121. -/
def Obligations.PortFramesAndReplay : Prop :=
  ∀ (s : State) (p : Nat) (P : Port), PortOn s p P →
    (∀ bytes f u, P.retry = [] → P.waiting = [] → P.activity = none → P.disabling = [] → decodeFrame bytes = some f → f.klass ≠ 3 →
        classOk f = true → f.lseq = P.rxSeq →
        u = count (count (modPort s p fun P => { P with rxSeq := add32 P.rxSeq 1, nakSent := false }) 4 p 1 1) 4 p 3 (frameBytes f) →
        (s.pylon.pkgId = some f.dst → (f.klass = 4 ∧ 0x10 ≤ field f.payload 0 1 ∧ field f.payload 0 1 ≤ 0x11
            ∨ f.klass = 1 ∧ 1 ≤ field f.payload 0 1 ∧ field f.payload 0 1 ≤ 7
            ∨ f.klass = 2 ∧ 0x11 ≤ field f.payload 0 1 ∧ field f.payload 0 1 ≤ 0x17) →
          ∃ t g, exec (.frameForward p ⟨bytes, true⟩) s = .next t
          ∧ g = modAt P.granted f.hops (fun k => (k + frameKib f) % 65536)
          ∧ t.pylon = { s.pylon with
              inbox := s.pylon.inbox ++ [f]
              ports := modAt s.pylon.ports p fun P =>
                { P with
                  rxSeq := add32 P.rxSeq 1, nakSent := false, granted := g
                  ctlOut := P.ctlOut ++ [(add32 P.rxSeq 1, encodeCtl (.credit g))] } }
          ∧ t = { s with pylon := t.pylon, counters := u.counters })
        ∧ (s.pylon.pkgId ≠ some f.dst → f.hops < 7 → exec (.frameForward p ⟨bytes, true⟩) s =
            .next (sendRouted u (some p, { f with hops := f.hops + 1 })))
        ∧ (s.pylon.pkgId ≠ some f.dst → 7 ≤ f.hops → exec (.frameForward p ⟨bytes, true⟩) s =
            .next (regrant (discardFrame u (some p) f.dst) p f.hops (frameKib f))))
    ∧ (∀ bytes good, P.retry = [] → decodeFrame bytes = none ∨ good = false → P.nakSent = false →
        ∃ t, exec (.frameForward p ⟨bytes, good⟩) s = .next t
        ∧ t.pylon = { s.pylon with
            ports := modAt s.pylon.ports p fun P =>
              { P with nakSent := true, ctlOut := P.ctlOut ++ [(P.rxSeq, encodeCtl (.nak P.rxSeq))] } }
        ∧ t = { s with pylon := t.pylon, counters := t.counters })
    ∧ (∀ a x gs, gs.length = 8 → P.retry.any (acked a) = false → P.activity = none → P.disabling = [] → P.waiting = [x] →
        hasCredit { P with credit := gs } x.2 = true → retryRoom P x.2 = true →
        ∃ t, exec (.linkCredit ⟨p, a⟩ gs) s = .next t ∧ (portAt t p).credit = gs ∧ (portAt t p).waiting = []
          ∧ (portAt t p).retry = P.retry ++ [{ frame := { x.2 with lseq := P.txSeq, ack := P.rxSeq }, sends := 1 }])
    ∧ exec (.linkCreditTimer p) s = .next (modPort s p fun P =>
        { P with ctlOut := P.ctlOut ++ [(P.rxSeq, encodeCtl (.credit P.granted))] })
    ∧ (∀ a x ack lseq, P.retry.getLast? = some x → P.retry.any (acked ack) = false → P.retry.any (acked lseq) = false →
        P.waiting = [] → P.disabling = [] → P.activity = some a → activityOver P = false → P.retry.all (·.sends < 8) = true →
        (∀ y ∈ P.retry, y.frame.src ∈ P.holdTo) →
        (∃ t, exec (.nak ⟨p, ack⟩ lseq) s = .next t
          ∧ portAt t p = { P with
              retry := P.retry.map fun x => { x with sends := x.sends + 1, frame := { x.frame with ack := P.rxSeq } }
              activity := some (a.1, x.frame.lseq), ackAt := s.time }
          ∧ t = { s with pylon := t.pylon, counters := t.counters })
        ∧ ∃ t, exec (.portReplayTimeout p) s = .next t
          ∧ portAt t p = { P with
              retry := P.retry.map fun x => { x with sends := x.sends + 1, frame := { x.frame with ack := P.rxSeq } }
              activity := some (a.1, x.frame.lseq), ackAt := max s.time (P.ackAt + 2000) }
          ∧ t = { advanceTo s (P.ackAt + 2000) with pylon := t.pylon, counters := t.counters })
    ∧ exec (.portGiveUp p true) s = .next (giveUp s p)
    ∧ ∀ a, P.activity = some a → exec (.portGiveUp p false) s = .next (giveUp (advanceTo s (a.1 + 500000)) p)

/-- A HOLD pauses deadlines until its HOLD_END or for 500 µs; one whose HOLD_END came first by lseq on the arriving port pauses
nothing. While a HOLD stands no peer deadline expires. When the last pause ends, every deadline and the watchdog of every program with a
Pylon link start from zero; while another stands nothing else changes (R62, R180, R236, R247).
The model's own readings that enter: log 11, 104, 134. -/
def Obligations.HoldsPauseDeadlines : Prop :=
  ∀ (s : State) (p lseq pkg far : Nat) (left : List Hold), running s = true →
    left = (s.pylon.holds.filter fun h => !h.names pkg far) →
    ((liveEnds s).find? (fun e => e.names pkg far && earlierNotice (some (p, lseq)) e.arrival) = none →
      ∃ t, exec (.hold ⟨p, lseq⟩ pkg far) s = .next t
      ∧ t.pylon.holds = left ++ [{ pkg, port := far, at_ := s.time, arrival := some (p, lseq) }]
      ∧ t = { s with pylon := { s.pylon with holds := t.pylon.holds, inbox := t.pylon.inbox } })
    ∧ (∀ e, (liveEnds s).find? (fun e => e.names pkg far && earlierNotice (some (p, lseq)) e.arrival) = some e →
      ∃ t, exec (.hold ⟨p, lseq⟩ pkg far) s = .next t
        ∧ t = { s with pylon := { s.pylon with ends := s.pylon.ends.erase e, inbox := t.pylon.inbox } })
    ∧ (s.pylon.holds.find? (fun h => h.names pkg far) = none → ∃ t, exec (.holdEnd ⟨p, lseq⟩ pkg far) s = .next t
        ∧ t.pylon.ends = ((liveEnds s).filter fun h => !h.names pkg far)
            ++ [{ pkg, port := far, at_ := s.time, arrival := some (p, lseq) }]
        ∧ t = { s with pylon := { s.pylon with ends := t.pylon.ends, inbox := t.pylon.inbox } })
    ∧ (∀ h, s.pylon.holds.find? (fun h => h.names pkg far) = some h → ∃ t, exec (.holdEnd ⟨p, lseq⟩ pkg far) s = .next t
        ∧ t = (if earlierNotice (some (p, lseq)) h.arrival = true then
            { s with pylon := { s.pylon with inbox := t.pylon.inbox } }
          else if left = [] then
            restartWatchdogs (restartDeadlines { s with pylon := { s.pylon with holds := [], inbox := t.pylon.inbox } }
              (fun _ => true) (fun _ => true)) usesPylon
          else { s with pylon := { s.pylon with holds := left, inbox := t.pylon.inbox } }))
    ∧ (∀ h, s.pylon.holds.find? (fun h => h.names pkg far) = some h → ∃ t, exec (.holdTimeout pkg far) s = .next t
        ∧ t.time = max s.time (h.at_ + 500000)
        ∧ t = (if left = [] then
            restartWatchdogs (restartDeadlines { advanceTo s (h.at_ + 500000) with pylon := { s.pylon with holds := [] } }
              (fun _ => true) (fun _ => true)) usesPylon
          else { advanceTo s (h.at_ + 500000) with pylon := { s.pylon with holds := left } }))
    ∧ (s.pylon.holds ≠ [] → ∀ link peer, exec (.spanPeerDeadline link) s = .next s ∧ exec (.stayPeerDeadline peer) s = .next s)

/-- A port trains from DETECT by EQUALISE, ALIGN and CONFIG to ACTIVE; a state that lasts too long is tried again from EQUALISE,
the third failed attempt ends in FAILED, and so does a CONFIG of another version; RETRAIN and RECAL end within 200 ms; an error ratio above 10^-5 is logged (R231, R232, R234, R239).
The model's own readings that enter: log 11, 21, 22, 73. -/
def Obligations.PortTrainsToActive : Prop :=
  ∀ (s : State) (p : Nat) (P : Port), running s = true → s.pylon.ports[p]? = some P →
    (P.st = .detect → exec (.portSignalDetect p) s = .next (modPort s p fun P => { P with st := .equalise, since := s.time }))
    ∧ (P.st = .equalise → exec (.equaliseComplete p) s = .next (modPort s p fun P => { P with st := .align, since := s.time })
      ∧ (P.attempts < 2 → exec (.portTrainingTimeout p) s = .next (modPort (advanceTo s (P.since + 150000000)) p fun _ =>
            { P with st := .equalise, since := max s.time (P.since + 150000000), attempts := P.attempts + 1 }))
      ∧ (2 ≤ P.attempts → exec (.portTrainingTimeout p) s = .next (failPort (modPort (advanceTo s (P.since + 150000000)) p fun P =>
            { P with attempts := P.attempts + 1 }) p reasonAttempts)))
    ∧ (P.st = .align → (s.pylon.pkgId = none → exec (.alignComplete p) s = .next (modPort s p fun P =>
          { P with st := .config, since := s.time }))
        ∧ ∀ id, s.pylon.pkgId = some id → exec (.alignComplete p) s = .next (modPort s p fun P =>
          { P with st := .config, since := s.time, ctlOut := P.ctlOut ++ [(P.rxSeq, encodeCtl (.config id p 1 256))] }))
    ∧ (∀ id, P.st = .config → s.pylon.pkgId = some id →
        exec (.configResendTimer p) s = .next (modPort s p fun P =>
          { P with ctlOut := P.ctlOut ++ [(P.rxSeq, encodeCtl (.config id p 1 256))] })
        ∧ (∀ ack pkg far kib gs, pkg ≠ id → P.recal = none → gs = ((List.range 8).map fun h => 32 - heldKib s p h) →
          exec (.config ⟨p, ack⟩ pkg far 1 kib) s = .next (modPort (dropArrivals s p) p fun P =>
            { Port.fresh with
              st := .active, since := s.time, waiting := P.waiting, retrains := P.retrains, neighbour := some (pkg, far)
              inService := true, granted := gs
              ctlOut := P.ctlOut ++ [(P.rxSeq, encodeCtl (.config id p 1 256))] ++ [(0, encodeCtl (.credit gs))]
              ber := P.ber, ackAt := s.time, discarded := P.discarded }))
        ∧ (∀ ack far kib, exec (.config ⟨p, ack⟩ id far 1 kib) s =
            .next (failPort (logError s 0x0022 0 sevWarning srcPylon p 0xFF [p, id]) p reasonDuplicate))
        ∧ ∀ ack pkg far v kib, v ≠ 1 → exec (.config ⟨p, ack⟩ pkg far v kib) s = .next (failPort s p reasonVersion))
    ∧ (∀ l, P.st = .align ∧ l = P.since + 1000000 ∨ P.st = .config ∧ s.pylon.pkgId.isSome = true ∧ l = P.since + 100000 →
        (P.attempts < 2 → exec (.portTrainingTimeout p) s = .next (modPort (advanceTo s l) p fun _ =>
            { P with st := .equalise, since := max s.time l, attempts := P.attempts + 1 }))
        ∧ (2 ≤ P.attempts → exec (.portTrainingTimeout p) s = .next (failPort (modPort (advanceTo s l) p fun P =>
            { P with attempts := P.attempts + 1 }) p reasonAttempts)))
    ∧ (P.st = .config → s.pylon.pkgId = none → exec (.portTrainingTimeout p) s = .next s)
    ∧ (∀ l, P.st = .retrain ∨ P.st = .recal →
        l = P.subSince + (if P.sub = 1 then 1000000 else if P.sub = 2 then 100000 else if P.fromSaved then 10000000 else 150000000) →
        (P.since + 200000000 ≤ l →
          exec (.portTrainingTimeout p) s = .next (failPort (advanceTo s (P.since + 200000000)) p reasonRetrain))
        ∧ (l < P.since + 200000000 → P.attempts < 2 → exec (.portTrainingTimeout p) s = .next (modPort (advanceTo s l) p fun _ =>
            { P with sub := 0, subSince := max s.time l, fromSaved := false, attempts := P.attempts + 1 }))
        ∧ (l < P.since + 200000000 → 2 ≤ P.attempts → exec (.portTrainingTimeout p) s =
            .next (failPort (modPort (advanceTo s l) p fun P => { P with attempts := P.attempts + 1 }) p reasonAttempts)))
    ∧ (P.st = .active → (∀ b, b ≤ 10000000 → exec (.portBerCheck p b) s = .next (modPort s p fun P => { P with ber := b }))
        ∧ ∀ b, 10000000 < b → exec (.portBerCheck p b) s = .next
            (logError (modPort s p fun P => { P with ber := b }) 0x0020 0 sevWarning srcPylon p 0xFF [p, b / 1000]))

/-- PORT_CTL disables, enables and recalibrates a port, and enables none of a die held in reset (R20); the partner is asked every 10 µs and after 1 ms without RECAL_ACK the
command ends with TIMEOUT; a port whose retry buffer has drained enters RECAL (R245 to R247).
The model's own readings that enter: log 11, 22, 122. -/
def Obligations.PortControlAndRecalibration : Prop :=
  (∀ (s : State) (q seq : Nat) (c : Taken) (P : Port), ready s q seq 0x0140 = some c → c.param 0 < 64 →
    s.pylon.ports[c.param 0]? = some P → lastPort s (c.param 0) = false → P.disabling = [] →
    (c.param 1 = 0 → P.st ≠ .active → P.recal = none → exec (.portDisable q seq) s = .next
        (finish (failBonds (moveFrames (modPort (start s q seq) (c.param 0) fun P => offPort P .disabled s.time) (c.param 0)
          (framesOf P)) (c.param 0)) q seq stOk []))
    ∧ (c.param 1 = 0 → P.st = .active → P.retry = [] → P.waiting = [] → P.recal = none → ∃ u, exec (.portDisable q seq) s = .next
          (failBonds (finish u q seq stOk []) (c.param 0)) ∧ (portAt u (c.param 0)).st = .disabled
        ∧ (portAt u (c.param 0)).inService = false
        ∧ u = { start s q seq with pylon := { s.pylon with ports := u.pylon.ports } }
        ∧ ∀ k, k ≠ c.param 0 → portAt u k = portAt s k)
    ∧ (c.param 1 = 1 → P.st = .disabled ∨ P.st = .failed → exec (.portEnable q seq) s = .next
        (if (dieAt s (0x20 + portTile (c.param 0))).released = true then
          finish (modPort (start s q seq) (c.param 0) fun P => { P with st := .detect, since := s.time, attempts := 0 }) q seq stOk []
        else start s q seq))
    ∧ (c.param 1 = 2 → P.st = .active → P.recal = none → P.waiting = [] → exec (.portRecalibrate q seq) s = .next
        (modPort (start s q seq) (c.param 0) fun P =>
          { P with
            recal := some { cmd := some (q, seq), acked := false, since := s.time, neighbour := P.neighbour, inBonds := P.inService }
            inService := false, ctlOut := P.ctlOut ++ [(P.rxSeq, encodeCtl (.recalReq (c.param 0)))] }))
    ∧ ∀ r, c.param 1 = 2 → P.st = .active → P.recal = some r → r.cmd = none → exec (.portRecalibrate q seq) s = .next
        (modPort (start s q seq) (c.param 0) fun P => { P with recal := some { r with cmd := some (q, seq) } }))
  ∧ ∀ (s : State) (p a : Nat) (P : Port), PortOn s p P → P.retry.any (acked a) = false → P.waiting = [] → P.activity = none →
      P.disabling = [] →
    (P.recal = none → exec (.recalReq ⟨p, a⟩) s = .next (modPort s p fun P =>
        { P with
          recal := some { cmd := none, acked := true, since := s.time, neighbour := P.neighbour, inBonds := P.inService }
          inService := false, ctlOut := P.ctlOut ++ [(P.rxSeq, encodeCtl (.recalAck p))] }))
    ∧ ∀ r, P.recal = some r →
      exec (.recalAck ⟨p, a⟩) s = .next (modPort s p fun P => { P with recal := some { r with acked := true } })
      ∧ (r.acked = true → P.retry = [] → exec (.recalEnter p) s = .next (failBonds
          (modPort s p fun P =>
            { P with st := .recal, since := s.time, sub := 0, subSince := s.time, fromSaved := true, inService := false }) p))
      ∧ ∀ c, r.cmd = some c → r.acked = false →
        exec (.recalReqResendTimer p) s = .next (modPort s p fun P =>
          { P with ctlOut := P.ctlOut ++ [(P.rxSeq, encodeCtl (.recalReq p))] })
        ∧ exec (.recalAckTimeout p) s = .next (finish
            (modPort (advanceTo s (r.since + 1000000)) p fun P => { P with recal := none, inService := r.inBonds }) c.1 c.2 stTimeout [])

/-- PKG_ID_SET sets the address once no routes are committed, and ports that waited in CONFIG send it; ROUTE_LOAD writes entries
of the shadow table; ROUTE_COMMIT makes a table that passes the check active, and the address can change no more (R241 to R243). -/
def Obligations.PackageIdAndRoutes : Prop :=
  ∀ (s : State) (q seq : Nat) (c : Taken),
    (ready s q seq 0x0141 = some c → (s.pylon.committed = true → exec (.pkgIdSet q seq) s =
          .next (finish (start s q seq) q seq stNotPermitted []))
      ∧ (s.pylon.committed = false → 4096 ≤ c.param 0 → exec (.pkgIdSet q seq) s = .next (finish (start s q seq) q seq stBadParam []))
      ∧ (s.pylon.committed = false → c.param 0 < 4096 → ∃ u, exec (.pkgIdSet q seq) s = .next (finish u q seq stOk [])
          ∧ u = { start s q seq with pylon := { s.pylon with pkgId := some (c.param 0), ports := u.pylon.ports } }
          ∧ ∀ k P, s.pylon.ports[k]? = some P → k < 64 → portAt u k =
              if P.st = .config then { P with since := s.time, ctlOut := P.ctlOut ++ [(P.rxSeq, encodeCtl (.config (c.param 0) k 1 256))] } else P))
    ∧ (∀ k i, ready s q seq 0x0142 = some c → c.payload.length = 16 * k → k ≤ 256 → c.param 0 + k ≤ 4096 →
        ∃ u, exec (.routeLoad q seq) s = .next (finish u q seq stOk [])
          ∧ assoc u.pylon.shadow i =
              (if c.param 0 ≤ i ∧ i < c.param 0 + k then some (decodeRoute (slice c.payload (16 * (i - c.param 0)) 16))
              else assoc s.pylon.shadow i)
          ∧ u = { start s q seq with pylon := { s.pylon with shadow := u.pylon.shadow } })
    ∧ (ready s q seq 0x0143 = some c → shadowOk s = true → exec (.routeCommit q seq) s = .next
        (finish { start s q seq with pylon := { s.pylon with routes := s.pylon.shadow, committed := true } } q seq stOk []))
    ∧ (ready s q seq 0x0143 = some c → shadowOk s = false → exec (.routeCommit q seq) s =
        .next (finish (start s q seq) q seq stBadParam []))

/-! ### HBM stacks and memory commands (chapters 10, 13) -/

/-- The memory commands change the bytes of their range and no other: MEM_WRITE to the host's bytes, MEM_FILL to the word, MEM_COPY
to the source's bytes; MEM_READ posts the bytes to the host (R255, R336).
The model's own readings that enter: log 80. -/
def Obligations.MemCommandsMoveBytes : Prop :=
  ∀ (s : State) (q seq : Nat) (c : Taken) (x : MemArgs), Memory.Wf s.hbm.mem → s.hbm.uncorrectable = [] → s.hbm.correctable = [] →
    s.caisson.run = none → memArgs c.payload = x → memOk c.payload = true → granted s c.context x.a x.bytes = true →
    (∀ d, ready s q seq 0x0201 = some c → x.b % 32 = 0 → d.length = x.bytes → ∃ u, exec (.memWrite q seq (some d)) s =
          .next (finish u q seq stOk [])
        ∧ (∀ a, u.hbm.mem.get a = if x.a ≤ a ∧ a < x.a + x.bytes then d.getD (a - x.a) 0 else s.hbm.mem.get a)
        ∧ u = { start s q seq with hbm := { s.hbm with mem := u.hbm.mem }, counters := u.counters })
    ∧ (ready s q seq 0x0202 = some c → x.b % 32 = 0 → ∃ u, exec (.memRead q seq) s =
          .next (finish (postHost u x.b (s.hbm.mem.read x.a x.bytes)) q seq stOk [])
        ∧ u = { start s q seq with counters := u.counters })
    ∧ (ready s q seq 0x0203 = some c → x.b < 2 ^ 32 → ∃ u, exec (.memFill q seq) s = .next (finish u q seq stOk [])
        ∧ (∀ a, u.hbm.mem.get a = if x.a ≤ a ∧ a < x.a + x.bytes then BitVec.ofNat 8 (x.b >>> (8 * ((a - x.a) % 4)))
            else s.hbm.mem.get a)
        ∧ u = { start s q seq with hbm := { s.hbm with mem := u.hbm.mem }, counters := u.counters })
    ∧ (ready s q seq 0x0204 = some c → x.b % 32 = 0 → granted s c.context x.b x.bytes = true →
        rangesMeet x.a x.bytes x.b x.bytes = false → ∃ u, exec (.memCopy q seq) s = .next (finish u q seq stOk [])
        ∧ (∀ a, u.hbm.mem.get a = if x.a ≤ a ∧ a < x.a + x.bytes then s.hbm.mem.get (x.b + (a - x.a)) else s.hbm.mem.get a)
        ∧ u = { start s q seq with hbm := { s.hbm with mem := u.hbm.mem }, counters := u.counters })

/-- MEM_READ of an uncorrectable block hands no bytes on: each such block is recorded, and the command ends with
MEM_UNCORRECTABLE. A range outside the context's grant is refused with NOT_PERMITTED, one out of alignment with BAD_PARAM
(R250, R255, R336). -/
def Obligations.MemReadRefuses : Prop :=
  ∀ (s : State) (q seq : Nat) (c : Taken) (x : MemArgs), memArgs c.payload = x → ready s q seq 0x0202 = some c →
    (memOk c.payload = true → x.b % 32 = 0 → granted s c.context x.a x.bytes = true → s.hbm.badIn x.a x.bytes ≠ [] →
      ∃ u, exec (.memRead q seq) s = .next (finish
          ((s.hbm.badIn x.a x.bytes).foldl (logUncorrectable (hostReader c.context q) 0) u) q seq stMemUncorrectable [0])
        ∧ u = { start s q seq with counters := u.counters })
    ∧ (memOk c.payload = true → x.b % 32 = 0 → granted s c.context x.a x.bytes = false →
      exec (.memRead q seq) s = .next (finish (start s q seq) q seq stNotPermitted []))
    ∧ ((memOk c.payload = false ∨ x.b % 32 ≠ 0) → exec (.memRead q seq) s = .next (finish (start s q seq) q seq stBadParam []))

/-- SCRUB corrects a correctable block and leaves every byte as it is; recalibration changes no result, and one that finds a channel
which fails training is a width failure; the hot refresh of a stack ends 1 s after it has cooled; nothing is done to a stack of a tile
held in reset (R20, R256, R257, R263 to R265, R270).
The model's own readings that enter: log 11, 74, 109. -/
def Obligations.StackServiceKeepsBytes : Prop :=
  (∀ (s : State) (k b : Nat), running s = true → stackHeld s k = false →
    (s.hbm.uncorrectable.contains (blockOf (stackBase k) + b) = false → ∃ t, exec (.scrub k b) s = .next t
      ∧ t.hbm.mem = s.hbm.mem ∧ t.hbm.uncorrectable = s.hbm.uncorrectable
      ∧ (∀ x ∈ t.hbm.correctable, x ∈ s.hbm.correctable ∧ x ≠ blockOf (stackBase k) + b)
      ∧ t = { s with hbm := t.hbm, toll := t.toll, counters := t.counters })
    ∧ (s.hbm.uncorrectable.contains (blockOf (stackBase k) + b) = true → ∃ u, u = { s with counters := u.counters }
      ∧ exec (.scrub k b) s = .next (logUncorrectable (scrubReader k) 0 u (blockOf (stackBase k) + b))))
  ∧ (∀ (s : State) (k b : Nat), stackHeld s k = true → exec (.scrub k b) s = .next s ∧ exec (.hotRefreshEnd k) s = .next s
    ∧ ∀ failed, exec (.stackAutoRecal ⟨k, failed⟩) s = .next s)
  ∧ (∀ (s : State) (k : Nat) (K : Stack), s.hbm.footings[k]? = some K → running s = true → stackHeld s k = false →
    (∀ v, v = (if tempMoved s k then s else advanceTo s (K.calTime + 600000000000)) →
      v.time = (if tempMoved s k then s.time else max s.time (K.calTime + 600000000000))
      ∧ (∃ t, exec (.stackAutoRecal ⟨k, none⟩) s = .next t
        ∧ t.hbm.footings = modAt s.hbm.footings k (fun K => { K with calTime := v.time, calTemp := reading s (.stack k) })
        ∧ t = { v with hbm := { s.hbm with footings := t.hbm.footings }, counters := t.counters })
      ∧ ∀ ch, exec (.stackAutoRecal ⟨k, some ch⟩) s = .next (widthMismatch v srcFooting k [k, ch]))
    ∧ ∀ at_, K.hotRefresh = true → K.coolSince = some at_ → ∃ t, exec (.hotRefreshEnd k) s = .next t
      ∧ t.hbm.footings = modAt s.hbm.footings k (fun K => { K with hotRefresh := false, coolSince := none })
      ∧ t.time = max s.time (at_ + 1000000000)
      ∧ t = { advanceTo s (at_ + 1000000000) with hbm := { s.hbm with footings := t.hbm.footings } })
  ∧ ∀ (s : State) (q seq : Nat) (c : Taken), ready s q seq 0x0210 = some c →
    (c.param 0 < 12 ∨ c.param 0 = 0xFFFFFFFF → ∃ u, exec (.stackRecal q ⟨seq, []⟩) s = .next (finish u q seq stOk [])
      ∧ (∀ k K, s.hbm.footings[k]? = some K → k < 12 → stackAt u k =
          if (c.param 0 = k ∨ c.param 0 = 0xFFFFFFFF) ∧ stackHeld s k = false then { K with calTime := s.time, calTemp := reading s (.stack k) } else K)
      ∧ u = { start s q seq with hbm := { s.hbm with footings := u.hbm.footings }, counters := u.counters })
    ∧ (∀ failed ch, c.param 0 < 12 → stackHeld s (c.param 0) = false → assoc failed (c.param 0) = some ch → exec (.stackRecal q ⟨seq, failed⟩) s = .next
        (finish (widthMismatch (start s q seq) srcFooting (c.param 0) [c.param 0, ch]) q seq stWidthMismatch []))
    ∧ (∀ failed, 12 ≤ c.param 0 → c.param 0 ≠ 0xFFFFFFFF → exec (.stackRecal q ⟨seq, failed⟩) s =
        .next (finish (start s q seq) q seq stBadParam []))

/-! ### Checkpoints (chapter 11) -/

/-- The timer falls due; a stack's copy frontier copies its lowest uncopied granule into the target half; a stack that is copied
gets the SHA-256 digests and records of its shards (R275, R277, R279, R282).
The model's own readings that enter: log 4, 11. -/
def Obligations.CheckpointCopiesAndDigests : Prop :=
  (∀ (s : State) (cfg : CkptConfig), running s = true → s.caisson.config = some cfg → cfg.timerS ≠ 0 → s.caisson.timerDue = false →
    exec .ckptTimerDue s = .next { advanceTo s (s.caisson.timerFrom + cfg.timerS * 1000000000) with
      caisson := { s.caisson with timerDue := true } })
  ∧ ∀ (s : State) (k : Nat) (run : CkptRun), running s = true → s.caisson.run = some run → s.hbm.uncorrectable = [] →
    s.hbm.correctable = [] → Memory.Wf s.hbm.mem →
    (∀ g, frontier run k = some g → (stackAt s ((stackOf (granuleSrc run g)).getD 0)).pathBad = false →
      (stackAt s ((stackOf (granuleSrc run g)).getD 0)).pathWeak = false → ∃ t, exec (.ckptGranuleCopy k) s = .next t
      ∧ (∀ a, t.hbm.mem.get a = if granuleDst run g ≤ a ∧ a < granuleDst run g + mib
          then s.hbm.mem.get (granuleSrc run g + (a - granuleDst run g)) else s.hbm.mem.get a)
      ∧ t.caisson = { s.caisson with run := some { run with uncopied := run.uncopied.erase g } }
      ∧ t = { s with hbm := { s.hbm with mem := t.hbm.mem }, caisson := t.caisson, counters := t.counters })
    ∧ ∀ hs, frontier run k = none → run.digested.contains k = false →
      hs = run.shards.map (fun h => if h.stack = k
        then { h with digest := sha256 (s.hbm.mem.read (shardData run.half h) (h.mib * mib)) } else h) →
      ∃ t, exec (.shardDigest k) s = .next t
        ∧ t.caisson = { s.caisson with run := some { run with shards := hs, digested := run.digested ++ [k] } }
        ∧ t.hbm = { s.hbm with
            mem := (hs.filter fun h => h.stack = k).foldl (fun m h => m.write (halfBase run.half k + recordAt h.index)
              (shardRecord run.step (s.caisson.sequence + 1) h)) s.hbm.mem }
        ∧ t = { s with hbm := t.hbm, caisson := t.caisson }

/-- CKPT_COMMIT writes manifest and commit records on stacks 0 and 6, reports, and ends the checkpoint: the half is committed with
a local_seq above those of both halves, and the sequence has risen by one (R279, R281, R282). A signature for which no index can be
reserved is waited for.
The model's own readings that enter: log 4, 39, 77, 79, 93. -/
def Obligations.CheckpointCommits : Prop :=
  ∀ (s v : State) (run : CkptRun) (m : List Byte), running s = true → s.caisson.run = some run → commitReady run = true →
    signManifest s run = (v, m) → s.caisson.newConfig = none → s.hbm.uncorrectable = [] → s.hbm.correctable = [] →
    Memory.Wf s.hbm.mem → nextLocalSeq s < 2 ^ 64 → run.half < 2 → m.length ≤ 520192 →
    (slice m (digestAt run.shards.length) 32).length = 32 →
    (run.cfg.sign = true → signWaits s = true → exec .ckptCommit s = .next s)
    ∧ (run.cfg.sign = false ∨ signWaits s = false → ∃ t, exec .ckptCommit s = .next t ∧ t.caisson = { s.caisson with run := none, sequence := s.caisson.sequence + 1 }
      ∧ committed t run.half = true ∧ localSeq t run.half = nextLocalSeq s
      ∧ (∀ k ∈ commitStacks, commitAt t run.half k =
          commitRecord m.length (nextLocalSeq s) run.step false (slice m (digestAt run.shards.length) 32)
        ∧ t.hbm.mem.read (halfBase run.half k + manifestAt) m.length = m)
      ∧ t = { ckptReport v run stOk with hbm := { s.hbm with mem := t.hbm.mem }, caisson := t.caisson })

/-- CKPT_CONFIG sets a configuration that takes effect at the next capture point or releases it, CKPT_TAKE adds a request,
CKPT_QUERY answers the state of both halves, and CKPT_DISCARD leaves its half uncommitted (R276, R289, R290, R442).
The model's own readings that enter: log 75. -/
def Obligations.CheckpointCommandsAct : Prop :=
  ∀ (s : State) (q seq : Nat) (c : Taken),
    (∀ im, ready s q seq 0x0601 = some c → s.caisson.newConfig = none → s.caisson.config.all (·.ctx == c.context) = true →
      configOk c.payload = true → imageAt s c.context = some im →
      ((configOf c.context seq c.payload).ranges ≠ [] →
        (configOf c.context seq c.payload).ranges.all (fun r => granted s c.context r.1 (r.2 * mib)) = true →
        rangesOk im (configOf c.context seq c.payload).ranges = true →
        exec (.ckptConfig q seq) s = .next (finish { start s q seq with
          caisson := { s.caisson with newConfig := some (some (configOf c.context seq c.payload), q, seq) } } q seq stOk []))
      ∧ ((configOf c.context seq c.payload).ranges = [] → s.caisson.run = none →
        exec (.ckptConfig q seq) s = .next (finish { start s q seq with
          caisson := { s.caisson with config := none, newConfig := none, held := false, takes := [], timerDue := false } }
          q seq stOk [])))
    ∧ (ready s q seq 0x0602 = some c → ckptHolder s = some c.context →
      (c.payload.length = 0 → exec (.ckptTake q seq) s = .next (finish { start s q seq with
        caisson := { s.caisson with takes := s.caisson.takes ++ [{ step := c.param 0, text := none, due := false }] } } q seq stOk []))
      ∧ (c.payload.length = 64 → exec (.ckptTake q seq) s = .next (finish { start s q seq with
        caisson := { s.caisson with takes := s.caisson.takes ++ [{ step := c.param 0, text := some c.payload, due := false }] } }
          q seq stOk [])))
    ∧ (ready s q seq 0x0603 = some c → exec (.ckptQuery q seq) s = .next (finish (readCommits (start s q seq) c.context) q seq stOk
        [halfCode s 0 + halfCode s 1 * 4 + flag s.caisson.held 4 + flag (newerIsOne s) 5, halfStep s 0, halfStep s 1,
          (s.caisson.run.map (·.step)).getD 0xFFFFFFFF]))
    ∧ (ready s q seq 0x0607 = some c → c.param 0 < 2 → (s.caisson.run.any fun r => r.half = c.param 0) = false →
        Memory.Wf s.hbm.mem → s.hbm.uncorrectable = [] → s.hbm.correctable = [] →
        ∃ u, exec (.ckptDiscard q seq) s = .next (finish u q seq stOk []) ∧ committed u (c.param 0) = false
          ∧ (∀ a, (∀ k ∈ commitStacks, ¬ (halfBase (c.param 0) k ≤ a ∧ a < halfBase (c.param 0) k + 64)) →
              u.hbm.mem.get a = s.hbm.mem.get a)
          ∧ u = { start s q seq with hbm := { s.hbm with mem := u.hbm.mem } })

/-- CKPT_RESTORE copies the shards of a generation that passes the ten checks back and sets the context's state from its
manifest; CKPT_EXPORT posts the generation's stream; CKPT_IMPORT writes a stream into the target half and commits it
(R171, R284, R285, R287, R288).
The model's own readings that enter: log 76 to 78, 80. -/
def Obligations.CheckpointsRestoreAndTravel : Prop :=
  ∀ (s : State) (q seq : Nat) (c : Taken),
    (∀ (x : Context) (im : Image) (half : Nat) (b : List Byte) (v w : State), ready s q seq 0x0604 = some c →
      ctxAt s c.context = some x → x.image = some im → x.program.all (·.st == .faulted) = true → s.caisson.run = none →
      selectHalf s (c.param 0) = some half →
      readManifest c.context half commitStacks (readCommits (start s q seq) c.context) = (v, some b) →
      slice b 0x40 32 = im.zecDigest → (∀ h ∈ shardsOf b, granted s c.context h.src (h.mib * mib) = true) →
      (c.param 1 = 0xFFFFFFFF ∨ c.param 1 = field b 0x20 4) → (badRecords c.context half (field b 0x20 4) (shardsOf b) v).2 = [] →
      checkShards c.context half (shardsOf b) (badRecords c.context half (field b 0x20 4) (shardsOf b) v).1 = (w, [], []) →
      ∃ u, exec (.ckptRestore q seq) s = .next (finish u q seq stOk [0, 0, 0, flag (slice b 0x60 32 != im.redDigest) 0])
        ∧ (ctxAt u c.context).map (fun y => (y.step, y.version, y.nextMb, y.ls, y.lsInterval, y.restored)) =
            (let y := restoreState b x; some (y.step, y.version, y.nextMb, y.ls, y.lsInterval, true))
        ∧ u.hbm = (restoreShards w c.context half (shardsOf b)).hbm)
    ∧ (∀ (n half : Nat) (hs : List Shard) (b : List Byte), s.hbm.uncorrectable = [] → s.hbm.correctable = [] →
      readCommits s n = s
      ∧ (∀ k ks, b = s.hbm.mem.read (halfBase half k + manifestAt) (field (commitAt s half 0) 4 4) →
          readManifest n half (k :: ks) s =
            if manifestMatches b (slice (commitAt s half 0) 32 32) = true then (s, some b) else readManifest n half ks s)
      ∧ (∀ step, badRecords n half step hs s = (s, hs.filter fun h =>
          !recordOk step h (s.hbm.mem.read (halfBase half h.stack + recordAt h.index) 64)))
      ∧ ((∀ h ∈ hs, (stackAt s h.stack).pathBad = false ∧ (stackAt s h.stack).pathWeak = false) →
          checkShards n half hs s =
            (s, hs.filter (fun h => sha256 (s.hbm.mem.read (shardData half h) (h.mib * mib)) != h.digest), [])))
    ∧ (∀ ps, ready s q seq 0x0605 = some c → c.param 0 < 2 → halfCode s (c.param 0) = 1 → s.hbm.uncorrectable = [] →
      s.hbm.correctable = [] →
      ps = streamPieces (c.param 0) (field (commitAt s (c.param 0) 0) 4 4) (shardsOf
        (s.hbm.mem.read (halfBase (c.param 0) 0 + manifestAt) (field (commitAt s (c.param 0) 0) 4 4))) →
      (ps.map (·.2.2)).sum ≤ c.param 3 * 4096 →
      ∃ u, exec (.ckptExport q seq) s = .next (finish (postHost u (c.param64 1)
          (ps.flatMap fun p => s.hbm.mem.read p.2.1 p.2.2)) q seq stOk [])
        ∧ u = { start s q seq with counters := u.counters })
    ∧ ∀ (b m : List Byte) (v w : State), ready s q seq 0x0606 = some c → s.caisson.run = none → streamOk b (c.param 3 * 4096) = true →
      m = slice b 64 (field b 4 4) → manifestMatches m (slice b 32 32) = true →
      w = readCommits (start s q seq) c.context → importShards (targetHalf w) b (64 + m.length) (shardsOf m)
        (commitStacks.foldl (fun u k => writeHalf u (targetHalf w) k manifestAt m) (clearHalf w (targetHalf w))) = (v, false) →
      exec (.ckptImport q seq (some b)) s = .next (finish
        (commitStacks.foldl (fun u k => writeHalf u (targetHalf w) k 0
          (commitRecord m.length (nextLocalSeq v) (field m 0x20 4) true (slice b 32 32))) v) q seq stOk [])

/-! ### Media commands and the Abutment (chapters 05, 12) -/

/-- APR_CONFIG binds a context to its feed queue, staging range and profiles; a feed is taken, its items are decoded on units of
their kind, which write their working data there too, into the staging range, PATCH_PACK writes the token rows and the segment table there, and FEED_PUSH fills the next slot of the feed queue and
completes the feed in take order (R294, R296, R298 to R300). While the Approach die is held all of them wait.
The model's own readings that enter: log 33, 34, 40, 81, 83. -/
def Obligations.FeedsReachTheFeedQueue : Prop :=
  (∀ (s : State) (q seq : Nat) (c : Taken) (im : Image) (d : QueueDecl), ready s q seq 0x0701 = some c →
    imageAt s c.context = some im → feedQueueOf im (aprConfigOf c.payload).feedQueue = some d →
    s.apr.feeds.any (fun f => f.ctx = c.context) = false → aprConfigOk c.payload = true →
    between ((classOf im d).payloadMax + 2 * gib) (16 * gib) (aprConfigOf c.payload).stagingBytes = true →
    granted s c.context (aprConfigOf c.payload).stagingAddr (aprConfigOf c.payload).stagingBytes = true →
    inGeneral (aprConfigOf c.payload).stagingAddr (aprConfigOf c.payload).stagingBytes = true →
    onTile (hostTile im d) (aprConfigOf c.payload).stagingAddr = true →
    exec (.aprConfig q seq) s = .next (finish
      (modCtx (start s q seq) c.context fun x => { x with apr := some (aprConfigOf c.payload) }) q seq stOk []))
  ∧ (∀ (s : State) (q seq n : Nat) (c : Taken) (a : AprConfig) (l : List Byte), approachHeld s = false →
    ready s q seq 0x0702 = some c → findFeed s q seq = none →
    (ctxAt s c.context).bind (·.apr) = some a → c.payload.length = 32 → field c.payload 0 8 % 16 = 0 →
    field c.payload 8 2 = n → between 1 4096 n = true → field c.payload 10 2 < 2 → zeroField c.payload 0x18 8 = true →
    (∀ i, i < n → itemOk a (slice l (48 * i) 48) = true) →
    exec (.aprFeed q seq (some l)) s = .next { start s q seq with
      apr := { s.apr with feeds := s.apr.feeds ++
        [{ q, seq, ctx := c.context, last := bit (field c.payload 10 2) 0, tag := field c.payload 12 4
           resultsAddr := field c.payload 0x10 8, items := (List.range n).map fun i => itemOf (slice l (48 * i) 48)
           results := [], packed := none
           tables := s.apr.tables.filter fun x => (List.range n).any fun i =>
             (itemOf (slice l (48 * i) 48)).kind == 0 && (itemOf (slice l (48 * i) 48)).table == x.1 }] } })
  ∧ (∀ (s : State) (q seq : Nat), approachHeld s = true → ∀ items k unit data, exec (.aprFeed q seq items) s = .next s
    ∧ exec (.itemDecode q seq k unit data) s = .next s ∧ exec (.patchPack q seq) s = .next s ∧ exec (.feedPush q seq) s = .next s)
  ∧ (∀ (s v : State) (n kind : Nat) (a : AprConfig) (unit : Nat), (∀ im, imageAt s n = some im → im.decls.frozen = []) →
    Memory.Wf s.hbm.mem → s.hbm.uncorrectable = [] → s.hbm.correctable = [] → s.caisson.run = none →
    v = workData s a (aprReader n (unitClass kind) unit) kind →
    (kind = 0 → v = s) ∧ v = { s with hbm := { s.hbm with mem := v.hbm.mem }, counters := v.counters, free := v.free }
      ∧ Memory.Wf v.hbm.mem
      ∧ ∀ b, b < a.stagingAddr ∨ a.stagingAddr + 2 * gib ≤ b ∨ (∃ x ∈ stagingUsed s n, x.1 ≤ b ∧ b < x.1 + x.2) →
          v.hbm.mem.get b = s.hbm.mem.get b)
  ∧ ∀ (s : State) (q seq : Nat) (f : Feed) (a : AprConfig), running s = true → approachHeld s = false → findFeed s q seq = some f →
    (ctxAt s f.ctx).bind (·.apr) = some a →
    (∀ k unit i data r rows g v, f.items[k]? = some i → f.result k = none → unit < unitCount i.kind →
      decodeOn s a f.tables i unit data = (r, rows) → g = { f with results := f.results ++ [(k, r)] } →
      v = workData s a (aprReader f.ctx (unitClass i.kind) unit) i.kind →
      (((feedClass s f.ctx a).any fun x => oversize x a.rowBytes g.tokens g.segments.length) = true →
        exec (.itemDecode q seq k unit data) s = .next (endFeed (modFeed s q seq fun _ => g) g stOversize []))
      ∧ (((feedClass s f.ctx a).any fun x => oversize x a.rowBytes g.tokens g.segments.length) = false →
        (findFeed v q seq = none → exec (.itemDecode q seq k unit data) s = .next v)
        ∧ ((findFeed v q seq).isSome = true →
          (rows = [] → exec (.itemDecode q seq k unit data) s = .next (modFeed v q seq fun f =>
            { f with results := f.results ++ [(k, { r with place := 0 })] }))
          ∧ (rows ≠ [] → itemPlace v a f rows.length = none → exec (.itemDecode q seq k unit data) s = .next v)
          ∧ ∀ w, rows ≠ [] → itemPlace v a f rows.length = some w → meetsFrozen v f.ctx w rows.length = false →
            Memory.Wf v.hbm.mem → v.hbm.uncorrectable = [] → v.hbm.correctable = [] → v.caisson.run = none →
            ∃ t, exec (.itemDecode q seq k unit data) s = .next t
            ∧ t.apr = (modFeed v q seq fun f => { f with results := f.results ++ [(k, { r with place := w })] }).apr
            ∧ t.hbm.mem.read w rows.length = rows ∧ (∀ b, b < w ∨ w + rows.length ≤ b → t.hbm.mem.get b = v.hbm.mem.get b)
            ∧ t = { v with hbm := { v.hbm with mem := t.hbm.mem }, apr := t.apr, counters := t.counters })))
    ∧ (∀ k, f.packed = none → f.results.length = f.items.length → firstFailed f = some k → a.omitErrors = false →
      exec (.patchPack q seq) s = .next (endFeed s f stBadParam [k]))
    ∧ (f.packed = none → f.results.length = f.items.length → firstFailed f = none ∨ a.omitErrors = true →
      (f.tokens = 0 → exec (.patchPack q seq) s = .next (endFeed s f stEmptyOutput []))
      ∧ ∀ table place rows, 0 < f.tokens →
        ((feedClass s f.ctx a).any fun x => oversize x a.rowBytes (paddedTokens a f.tokens) (feedSegs a f).length) = false →
        packTurn s f = true → packPlaces s a f (feedSegs a f).length (packedBytes a f) = some (table, place) →
        meetsFrozen s f.ctx table (8 * (feedSegs a f).length) = false → meetsFrozen s f.ctx place (packedBytes a f) = false →
        Memory.Wf s.hbm.mem → s.hbm.uncorrectable = [] → s.hbm.correctable = [] → s.caisson.run = none →
        rows = padTo (f.segments.flatMap fun g => (List.range g.2.2.tokens).flatMap fun k =>
          padTo (slice (s.hbm.mem.read g.2.2.place (g.2.2.tokens * g.2.2.width)) (k * g.2.2.width) g.2.2.width) a.rowBytes)
            (packedBytes a f) →
        ∃ t, exec (.patchPack q seq) s = .next t
          ∧ t.hbm.mem.read place (packedBytes a f) = rows
          ∧ t.hbm.mem.read table (8 * (feedSegs a f).length) = (feedSegs a f).flatMap encodeSeg
          ∧ (∀ b, (b < place ∨ place + packedBytes a f ≤ b) → (b < table ∨ table + 8 * (feedSegs a f).length ≤ b) →
              t.hbm.mem.get b = s.hbm.mem.get b)
          ∧ t.apr = (modFeed s q seq fun g => { g with packed := some ((feedSegs a f).length, table, packedBytes a f, place) }).apr
          ∧ t = { s with hbm := { s.hbm with mem := t.hbm.mem }, apr := t.apr, counters := t.counters })
    ∧ ∀ im x segs table bytes place l, imageAt s f.ctx = some im → f.packed = some (segs, table, bytes, place) →
      ((progAt s f.ctx).bind fun p => spanQueueAt p a.feedQueue) = some x → hasRoom x = true → oldestFeed s f = true →
      s.hbm.uncorrectable = [] → s.hbm.correctable = [] → l = decodeSegs (s.hbm.mem.read table (8 * segs)) segs →
      ∃ u v, u = { s with counters := u.counters }
        ∧ v = fillSlot u f.ctx im a.feedQueue (feedDesc f l bytes) l (s.hbm.mem.read place bytes)
        ∧ exec (.feedPush q seq) s = .next (if (findFeed v q seq).isNone then v else endFeed (opDone v f.ctx) f stOk [])

/-- APR_DECODE writes one item's tensor into HBM, by way of the working area and after its unit's working data, and answers its dimensions; APR_TABLE_LOAD keeps a tokenizer table whose digest
matches; APR_QUERY answers tables, microcode revisions and outstanding feeds (R293, R308, R312, R314).
The model's own readings that enter: log 33, 34, 40, 80, 82. -/
def Obligations.DecodesTablesAndQueries : Prop :=
  ∀ (s : State) (q seq : Nat) (c : Taken),
    (approachHeld s = true → ∀ d, exec (.aprDecode q seq d) s = .next s)
    ∧ (∀ a pr d x y out w i v, approachHeld s = false → ready s q seq 0x0703 = some c → (ctxAt s c.context).bind (·.apr) = some a →
      i = itemOf (slice c.payload 0 48) → a.profiles[i.profile]? = some pr → c.payload.length = 65 →
      itemOk a (slice c.payload 0 48) = true → field c.payload 48 8 % 32 = 0 → field c.payload 64 1 ≤ 2 →
      granted s c.context (field c.payload 48 8) (field c.payload 56 8) = true →
      decodeItem (assoc s.apr.tables i.table) a.omitErrors i pr (d.take i.length) = x → (∀ r k, x ≠ .failed r k) →
      y = planarOf pr (classOfKind i.kind) i.tokenCap x →
      y.bytes (field c.payload 64 1) = some out → out.length ≤ field c.payload 56 8 → out.length ≤ 2 * gib - tableSpace →
      firstFit (stagingUsed s c.context) a.stagingAddr (a.stagingAddr + 2 * gib - tableSpace) out.length = some w →
      v = workData (freeUsed (start s q seq) 1) a (aprReader c.context (unitClass i.kind) (freeBelow s (unitCount i.kind))) i.kind →
      meetsFrozen v c.context w out.length = false → Memory.Wf v.hbm.mem → v.hbm.uncorrectable = [] → v.hbm.correctable = [] →
      v.caisson.run = none →
      ∃ u, exec (.aprDecode q seq (some d)) s = .next (finish u q seq stOk y.dims)
        ∧ u.hbm.mem.read (field c.payload 48 8) out.length = out
        ∧ (∀ b, (b < field c.payload 48 8 ∨ field c.payload 48 8 + out.length ≤ b) → (b < w ∨ w + out.length ≤ b) →
            u.hbm.mem.get b = v.hbm.mem.get b)
        ∧ u = { v with hbm := { v.hbm with mem := u.hbm.mem }, counters := u.counters })
    ∧ (∀ b, ready s q seq 0x0704 = some c → c.param 0 < 8 → c.param 3 = b.length → tableOk b = true →
      sha256 (b.drop 0x40) = slice b 0x20 32 →
      otherTables s (c.param 0) + b.length + oldTables s (c.param 0) ≤ tableRoom →
      ∃ u, exec (.aprTableLoad q seq (some b)) s = .next (finish u q seq stOk []) ∧ assoc u.apr.tables (c.param 0) = some b
        ∧ (∀ k, k ≠ c.param 0 → assoc u.apr.tables k = assoc s.apr.tables k)
        ∧ u = { start s q seq with apr := { s.apr with tables := u.apr.tables } })
    ∧ (ready s q seq 0x0705 = some c → ∃ tables low high, exec (.aprQuery q seq) s = .next (finish (start s q seq) q seq stOk
        [tables, low, high, (s.apr.feeds.filter fun f => f.ctx = c.context).length])
      ∧ (∀ i, i < 8 → bit tables i = (assoc s.apr.tables i).isSome)
      ∧ (∀ i, i < 10 → low ≤ revisionOf s (0x0010 + i) ∧ revisionOf s (0x0010 + i) ≤ high))

/-- An Abutment command whose checks pass reads the runs of bytes that its windows take from the input, the weights and the bias, writes
its result over the output tensor and changes no other byte; BAD_PARAM, BAD_PAD, EMPTY_OUTPUT and NOT_PERMITTED, on the bytes that it
would read and write, come in that order before it (R139, R144 to R149).
The model's own readings that enter: log 31, 40. -/
def Obligations.AbutmentWritesItsOutput : Prop :=
  ∀ (s : State) (q seq op : Nat) (c : Taken) (k : AbutKind) (i : Instr) (d : Abut) (rs : List (Nat × Nat)) (f : Nat → List (Nat × Nat) → List Byte),
    (k = .fwd ∧ op = 0x0780 ∧ i = .abutConvFwd q seq ∨ k = .bwdData ∧ op = 0x0781 ∧ i = .abutConvBwdData q seq
      ∨ k = .bwdWeight ∧ op = 0x0782 ∧ i = .abutConvBwdWeight q seq ∨ k = .pool ∧ op = 0x0783 ∧ i = .abutPool q seq) →
    (approachHeld s = true → exec i s = .next s)
    ∧ (approachHeld s = false → ready s q seq op = some c → d = abutOf c.payload →
      rs = ((d.runs k).1.map fun x => (d.in_ + x.1, x.2)) ++ ((d.runs k).2.1.map fun x => (d.w + x.1, x.2))
        ++ [(d.out, (d.sizes k).2.2.1)] ++ ((d.runs k).2.2.map fun x => (d.aux + x.1, x.2)) →
      f = (fun a l => l.foldl (fun bs x => padTo bs x.1 ++ s.hbm.mem.read (a + x.1) x.2) []) →
      (abutOk k c.payload = false → exec i s = .next (finish (start s q seq) q seq stBadParam []))
      ∧ (abutOk k c.payload = true → mirrorOk d.pad d.inH d.inW d.padLoY d.padHiY d.padLoX d.padHiX = false →
        exec i s = .next (finish (start s q seq) q seq stBadPad []))
      ∧ (abutOk k c.payload = true → mirrorOk d.pad d.inH d.inW d.padLoY d.padHiY d.padLoX d.padHiX = true →
        (d.outH ≤ 0 ∨ d.outW ≤ 0 → exec i s = .next (finish (start s q seq) q seq stEmptyOutput []))
        ∧ (0 < d.outH → 0 < d.outW →
          ((rs.all fun r => granted s c.context r.1 r.2) = false → exec i s = .next (finish (start s q seq) q seq stNotPermitted []))
          ∧ ((rs.all fun r => granted s c.context r.1 r.2) = true → abutTurn (start s q seq) c = true → Memory.Wf s.hbm.mem →
            s.hbm.uncorrectable = [] → s.hbm.correctable = [] → s.caisson.run = none →
            ∃ u r, exec i s = .next (finish u q seq stOk [])
              ∧ r = abutResult k d (f d.in_ (d.runs k).1) (f d.w (d.runs k).2.1) (f d.aux (d.runs k).2.2)
              ∧ u.hbm.mem.read d.out r.length = r
              ∧ (∀ b, b < d.out ∨ d.out + r.length ≤ b → u.hbm.mem.get b = s.hbm.mem.get b)
              ∧ u = { start s q seq with hbm := { s.hbm with mem := u.hbm.mem }, counters := u.counters }))))

/-! ### Firmware, identity, error log, management (chapter 16) -/

/-- A package that parses, verifies, is newer and fits is committed to the journal and waits for its module's swap point; there the
module table takes it and the command completes (R385, R386, R389, R390). It is the live revision where its record and the COMMIT found
room in the store.
The model's own readings that enter: log 26, 32, 41, 80, 93, 128. -/
def Obligations.FirmwareUpdateCommitsAndSwaps : Prop :=
  (∀ (s : State) (q seq : Nat) (c : Taken) (d b : List Byte) (m : FwModule), ready s q seq 0x0104 = some c → s.toll.fw = none →
    c.param 0 % 32 = 0 → b = padTo (d.take (c.param 2)) (c.param 2) → m = packageModule b →
    (packageOk b = false → exec (.fwUpdate q seq (some d)) s = .next (finish (start s q seq) q seq stBadParam []))
    ∧ (packageOk b = true → sha256 m.body ≠ slice m.header 0x20 32 →
      exec (.fwUpdate q seq (some d)) s = .next (finish (start s q seq) q seq stAuthFail []))
    ∧ (packageOk b = true → newer s.toll m = false →
      exec (.fwUpdate q seq (some d)) s = .next (finish (start s q seq) q seq (if authentic m then stNotPermitted else stAuthFail) []))
    ∧ (packageOk b = true → newer s.toll m = true → noRoom s.toll m = false →
      ∃ t, exec (.fwUpdate q seq (some d)) s = .next t
        ∧ if authentic m then
            ∃ v u, v = (if overFull s.toll ((JournalBody.module m).pages + 1) then compact s.toll else s.toll)
              ∧ u = { start s q seq with
                  toll := { commitRecords v 1 [.module m] with
                    fw := some { cmd := some (q, seq), module := m, replaced := revisionOf s m.id } } }
              ∧ t = retireBlocks u ∧ indexLimit u.toll = indexLimit s.toll
              ∧ (u.toll.journal.length = v.journal.length + 2 → liveRevision u.toll.journal m.id = some m)
          else t = finish (start s q seq) q seq stAuthFail []))
  ∧ (∀ (s : State) (r : FwRun), powered s = true → s.toll.fw = some r → atSwapPoint s r.module.id = true →
    ∃ u, u = logError { s with toll := { s.toll with modules := putModule s.toll.modules r.module, fw := none } } 0x0051 0 sevInfo
        srcPackage 0xFF 0xFF [r.module.id, r.replaced, r.module.revision]
      ∧ revisionOf u r.module.id = r.module.revision
      ∧ (∀ q seq, r.cmd = some (q, seq) → exec (.moduleSwap r.module.id) s =
          .next (finish u q seq stOk [r.module.id, r.module.revision, r.replaced]))
      ∧ (r.cmd = none → exec (.moduleSwap r.module.id) s = .next (answerVoune u [0])))
  ∧ ∀ (s : State), powered s = true →
    (∀ off data, 4000 < data.length → data.length ≤ 4086 →
      exec (.recoveryWrite off data) s = .next (answerVoune s [BitVec.ofNat 8 stBadParam]))
    ∧ (∀ off data, 4086 < data.length → exec (.recoveryWrite off data) s = .next s)
    ∧ (∀ off data, data.length ≤ 4000 → Memory.Wf s.toll.staged → ∃ t, exec (.recoveryWrite off data) s = .next (answerVoune t [0])
      ∧ t.toll.staged.read off data.length = data ∧ t.toll.stagedBytes = max s.toll.stagedBytes (off + data.length)
      ∧ t = { s with toll := { s.toll with staged := t.toll.staged, stagedBytes := t.toll.stagedBytes } })
    ∧ ∀ b m v, s.toll.fw = none → b = s.toll.staged.read 0 s.toll.stagedBytes → m = packageModule b → packageOk b = true →
      newer s.toll m = true → noRoom s.toll m = false →
      v = (if overFull s.toll ((JournalBody.module m).pages + 1) then compact s.toll else s.toll) →
      ∃ t, exec .recoveryCommit s = .next t
        ∧ if authentic m then
            t.toll.fw = some { cmd := none, module := m, replaced := revisionOf s m.id } ∧ t.toll.staged = [] ∧ t.toll.stagedBytes = 0
              ∧ ((commitRecords v 1 [.module m]).journal.length = v.journal.length + 2 → liveRevision t.toll.journal m.id = some m)
          else t = answerVoune s [BitVec.ofNat 8 stAuthFail]

/-- Compaction keeps the live and the previous revision of every module, the limit of identity indices, and the newest 1,024
persisted log entries, in a new epoch of which it holds every record (R384); a used block that fails to erase is retired then, and a
RETIRE record is written for every block that failed (R380). Where the new epoch cannot be written whole the old one stays.
The model's own readings that enter: log 93, 128. -/
def Obligations.CompactionKeepsWhatCounts : Prop :=
  (∀ (s : State) (t : Tollhouse), powered s = true → overFull s.toll 0 = true → t = compact s.toll →
    exec .journalCompaction s = .next (retireBlocks { s with toll := t })
      ∧ t = { s.toll with journal := t.journal, retired := t.retired, toRetire := t.toRetire, failing := t.failing }
      ∧ indexLimit t = indexLimit s.toll
      ∧ if (sealEpoch s.toll.journal (epochOf s.toll + 1) (copyEpoch s.toll)).journal.length = (kept s.toll.journal).length + 2 then
          epochOf t = epochOf s.toll + 1 ∧ (∀ r ∈ t.journal, r.epoch = epochOf t)
            ∧ (∀ id, liveRevision t.journal id = liveRevision s.toll.journal id
              ∧ previousRevision t.journal id = previousRevision s.toll.journal id)
            ∧ persistedEntries t.journal = newest 1024 (persistedEntries s.toll.journal)
            ∧ ∀ b ∈ s.toll.failing, b ∈ usedBlocks s.toll.journal → b ∈ t.retired ∧ b ∉ t.failing
        else t.journal = s.toll.journal)
  ∧ ∀ (s : State), (retireBlocks s).toll.toRetire = [] ∧ indexLimit (retireBlocks s).toll = indexLimit s.toll
    ∧ ∀ b ∈ s.toll.retired, b ∈ (retireBlocks s).toll.retired

/-- Every signature takes the next index and never one at or above the committed limit; the exhausted key signs no quote.
DEV_IDENTIFY posts the 21 descriptors, ATTEST_QUOTE a signed quote, ERRLOG_READ the entries in order, which are then read
(R365, R369, R392 to R395, R403).
The model's own readings that enter: log 26, 32, 93, 97, 125. -/
def Obligations.IdentityQuotesAndLog : Prop :=
  (∀ (s v : State) (d : List Byte) (x : Nat × List Byte), signDigest s d = (v, some x) →
    x = (s.toll.q, identitySign s.toll.q d) ∧ x.1 < keyCapacity ∧ x.1 < indexLimit v.toll ∧ v.toll.q = s.toll.q + 1
      ∧ v = { s with toll := v.toll })
  ∧ (∀ (s : State), powered s = true → 1024 - s.toll.q % 1024 < 128 →
    exec .subtreeCompute s = .next { s with toll := { s.toll with nextSubtree := subtreeOf (s.toll.q / 1024 + 1) } })
  ∧ ∀ (s : State) (q seq : Nat) (c : Taken),
    (ready s q seq 0x0101 = some c → c.param64 0 % 64 = 0 → exec (.devIdentify q seq) s = .next (finish
      (postHost (start s q seq) (c.param64 0) ((List.range 21).flatMap (identity s))) q seq stOk
      [21, profileVersion s, releasedTiles s]))
    ∧ (ready s q seq 0x0105 = some c → c.payload.length = 32 → c.param64 0 % 64 = 0 → 16384 ≤ c.param 2 →
      (signWaits (start s q seq) = true → exec (.attestQuote q seq) s = .next (start s q seq))
      ∧ (signWaits (start s q seq) = false → ∀ v i sig quote,
        signDigest (start s q seq) (sha256 (quoteBody s c.payload)) = (v, some (i, sig)) →
        quote = quoteBody s c.payload ++ sha256 (quoteBody s c.payload) ++ sig ++ s.toll.certificate →
        exec (.attestQuote q seq) s = .next (finish (postHost v (c.param64 0) quote) q seq stOk [quote.length, lo32 i]))
      ∧ (keyCapacity ≤ s.toll.q → exec (.attestQuote q seq) s = .next (finish (start s q seq) q seq stNotPermitted [1])))
    ∧ (∀ es, ready s q seq 0x0102 = some c → es = readEntries s.toll (c.param 3) (c.param 2) →
      exec (.errlogRead q seq) s = .next (finish
        { postHost (start s q seq) (c.param64 0) (es.flatMap (shownEntry s q)) with toll := markRead s.toll es } q seq stOk
        (readReply s.toll (c.param 3) es))
      ∧ (∀ e ∈ (markRead s.toll es).log, e.read = true ∨ e ∈ s.toll.log ∧ es.all (·.seq != e.seq) = true))

/-- The I3C target takes a dynamic address once, keeps its endpoint ID, and answers each message, in packets of at most 64 bytes: status,
sensors, log entries, descriptors, a new power table; RESET_REQUEST is acknowledged and makes a warm reset (R404, R405).
The model's own readings that enter: log 41, 42, 94. -/
def Obligations.ManagementMessagesAnswered : Prop :=
  (∀ (bs : List Byte), (packets bs).flatten = bs ∧ ∀ p ∈ packets bs, 0 < p.length ∧ p.length ≤ 64)
  ∧ ∀ (s : State), powered s = true →
    (∀ a, s.toll.i3cAddr = none → exec (.setdasa 0x4A a) s = .next { s with toll := { s.toll with i3cAddr := some a } }
      ∧ exec (.entdaa a) s = .next { s with toll := { s.toll with i3cAddr := some a } })
    ∧ (∀ e, e ≠ 0 → e ≠ 0xFF → exec (.setEndpointId e) s =
        .next { s with toll := { s.toll with eid := e, response := packets [0, 0, BitVec.ofNat 8 e, 0] } })
    ∧ exec .getEndpointId s = .next { s with toll := { s.toll with response := packets [0, BitVec.ofNat 8 s.toll.eid, 0, 0] } }
    ∧ (∃ v, exec .getMctpVersionSupport s = .next { s with
        toll := { s.toll with response := packets ([0, 1] ++ leBytes 4 v) }, free := s.free + 1 })
    ∧ exec .getMessageTypeSupport s = .next { s with toll := { s.toll with response := packets [0, 1, 0x7F] } }
    ∧ exec .getStatus s = .next (answerVoune s ([0] ++ leBytes 4 (devStatus s) ++ leBytes 1 s.pkg.bootStep ++ leBytes 8 s.time))
    ∧ exec .getSensors s = .next { answerVoune s ([0] ++ (allSensors.zipIdx.flatMap (sensorBytes s)
          ++ s.dies.flatMap fun d => leBytes 4 d.draw ++ leBytes 1 0)) with free := s.free + allSensors.length }
    ∧ (∀ count first es, es = readEntries s.toll first (min count 60) → exec (.readErrlog count first) s = .next (answerVoune
        { s with toll := markRead s.toll es }
        ([0] ++ ((readReply s.toll first es).flatMap (leBytes 4) ++ es.flatMap fun e => encodeLog e e.detail))))
    ∧ (∀ first, firmwareUp s = true → exec (.getIdentity first) s =
        .next (answerVoune s ([0] ++ (((List.range 21).drop first).take 4).flatMap (identity s))))
    ∧ (∀ b, firmwareUp s = true → powerTableOk s.pkg.orderB b = true → exec (.powerTable b) s = .next (answerVoune
        { s with toll := { s.toll with table := powerTableOf b, epoch := s.toll.epoch + 1 } } [0]))
    ∧ exec .resetRequest s = .next (warmReset (answerVoune s [0]))
    ∧ ∀ bs, answerVoune s bs = { s with toll := { s.toll with response := packets ([0x7F, 0x00, 0x05, 0x6E, 0x56] ++ bs) } }

/-! ### Images, programs, counters (chapters 02, 03, 13, 17) -/

/-- IMAGE_LOAD copies an image that passes the nine checks into HBM and loads it; the first check that fails refuses it and writes
nothing; a loaded program's step count and next micro-batch number are 0. LAUNCH reads the window descriptors and refuses the first bad
one, or a bond that is not up; else it binds a fresh program; once everything is bound its queues open and, outside the active context, it waits for its
slice. UNLOAD removes the image (R49, R50, R182, R335, R337).
The model's own readings that enter: log 3, 11, 69, 70, 80, 85, 130, 131. -/
def Obligations.ImagesLoadLaunchAndUnload : Prop :=
  (∀ (s : State) (q seq : Nat) (c : Taken) (x : Context) (b : List Byte) (d : Decls) (addr : Nat), ready s q seq 0x0301 = some c →
    ctxAt s c.context = some x → x.image = none → c.payload.length = 32 → zeroField c.payload 24 8 = true →
    field c.payload 16 8 = addr → addr % 4096 = 0 → field c.payload 8 8 = b.length → 0 < b.length → b.length ≤ 4 * 1073741824 →
    granted s c.context addr b.length = true →
    (∀ st k, loadCheck s c.context d b = some (st, k) →
      exec (.imageLoad q seq (some b) d) s = .next (finish (start s q seq) q seq st [k]))
    ∧ (loadCheck s c.context d b = none → Memory.Wf s.hbm.mem → s.hbm.uncorrectable = [] → s.hbm.correctable = [] →
      s.caisson.run = none →
      ∃ u, exec (.imageLoad q seq (some b) d) s = .next (finish u q seq stOk [])
        ∧ (∀ n, ctxAt u n = if n = c.context then some { x with image := some (imageOf addr d b), step := 0, nextMb := 0 } else ctxAt s n)
        ∧ (∀ a, u.hbm.mem.get a = if addr ≤ a ∧ a < addr + b.length then b.getD (a - addr) 0 else s.hbm.mem.get a)
        ∧ u = { start s q seq with hbm := { s.hbm with mem := u.hbm.mem }, ctxs := u.ctxs, counters := u.counters }))
  ∧ (∀ (s v : State) (q seq : Nat) (c : Taken) (x : Context) (im : Image), ready s q seq 0x0302 = some c →
    ctxAt s c.context = some x → x.image = some im → programRuns x = false →
    (readSections (hostReader c.context q) im (im.sections.filter fun y => y.type = 0x0005) (start s q seq) = (v, none) →
      exec (.launch q seq) s = .next (finish v q seq stMemUncorrectable []))
    ∧ ∀ l, readSections (hostReader c.context q) im (im.sections.filter fun y => y.type = 0x0005) (start s q seq) = (v, some l) →
      (∀ st pier i, badWindow l = some (st, pier, i) → exec (.launch q seq) s = .next (finish v q seq st [pier, i]))
      ∧ (∀ d, badWindow l = none → im.decls.queues.find? (badBond v) = some d →
        exec (.launch q seq) s = .next (finish v q seq stBadParam [d.link]))
      ∧ (badWindow l = none → im.decls.queues.find? (badBond v) = none →
        exec (.launch q seq) s = .next (checkBound (sendBinds (modCtx (dropWaits v c.context) c.context fun y =>
          { y with program := some (freshProgram v y im q seq) }) c.context) c.context)))
  ∧ (∀ (s : State) (n : Nat) (p : Program) (im : Image), progAt s n = some p → imageAt s n = some im → p.st = .binding →
    p.queues.all (fun x => x.link.all fun L => L.st == .bound) = true → p.assocs.all (·.st == .bound) = true → im.policies = [] →
    s.sched.active ≠ some n →
    progAt (checkBound s n) n = some { p with st := .waitingSlice, queues := p.queues.map fun x => { x with st := .opened } }
      ∧ checkBound s n = { s with ctxs := (checkBound s n).ctxs })
  ∧ ∀ (s : State) (q seq : Nat) (c : Taken) (x : Context), ready s q seq 0x0303 = some c → ctxAt s c.context = some x →
    programRuns x = false → x.image.isSome = true →
    exec (.unload q seq) s = .next (finish
      (modCtx (endProgramCommands (endSampling (start s q seq) c.context) c.context stBadParam) c.context fun y =>
        { y with image := none, program := none, apr := none }) q seq stOk [])

/-- TOKEN_SIGNAL completes when its channel's count has moved; SPAN_QUERY and STAY_QUERY answer a queue's and an entry's state
(R44, R337).
The model's own readings that enter: log 20, 136. -/
def Obligations.TokensAndQueriesAnswer : Prop :=
  ∀ (s : State) (q seq : Nat) (c : Taken),
    (∀ im p d, ready s q seq 0x0304 = some c → imageAt s c.context = some im → progAt s c.context = some p →
      tokenDecl im (c.param 0) = some d → d.producer = .host → tokenN d (c.param 1) = true → p.st ≠ .faulted →
      tokenRoom s c.context d (c.param 1) = true →
      exec (.tokenSignal q seq) s = .next (finish
        (opDone (signalToken (start s q seq) c.context d (c.param 1)) c.context) q seq stOk []))
    ∧ (∀ x, ready s q seq 0x0401 = some c → ctxAt s c.context = some x →
      (x.image = none → exec (.spanQuery q seq) s = .next (finish (start s q seq) q seq stOk [0, 0, 0, x.version]))
      ∧ (∀ im y v, x.image = some im → (x.program.bind fun p => spanQueueAt p (c.param 0)) = some y →
        (∀ l, spanReply (start s q seq) c.context im y x.version = (v, some l) →
          exec (.spanQuery q seq) s = .next (finish v q seq stOk l))
        ∧ (spanReply (start s q seq) c.context im y x.version = (v, none) →
          exec (.spanQuery q seq) s = .next (finish v q seq stMemUncorrectable []))))
    ∧ ∀ x p y r, ready s q seq 0x0501 = some c → ctxAt s c.context = some x → x.program = some p → p.stays = [y] →
      y.outstanding = r →
      exec (.stayQuery q seq) s = .next (finish (start s q seq) q seq stOk
        [if r.any (fun e => e.entry = c.param 0) then 1 else 0, (assoc y.lastStep (c.param 0)).getD 0,
          (assoc y.lastFirst (c.param 0)).getD 0xFFFF])

/-- CTR_READ captures the selected counters in list order; CTR_SELECT gives piers their events, a pier inside an
instruction at its end; a sampling session writes its
header when it starts and when it ends (R409, R414 to R417, R420, R421).
The model's own readings that enter: log 43, 51, 52, 95, 96. -/
def Obligations.CountersAndSamplesRead : Prop :=
  ∀ (s : State) (q seq : Nat) (c : Taken),
    (∀ xs v l, ready s q seq 0x0801 = some c → xs = selectors c.payload → c.payload.length % 4 = 0 → xs ≠ [] →
      c.param64 0 % 32 = 0 → c.param 2 < 2 → badSelector s c.context xs = none → (4 ≤ q → xs.all (fun x => selClass x < 4) = true) →
      captures c.context xs none (start s q seq) = (v, l) →
      exec (.ctrRead q seq) s = .next (finish (postHost v (c.param64 0) (l.flatMap fun e =>
          leBytes 8 e.1 ++ if c.param 2 = 1 then leBytes 8 e.2 else [])) q seq stOk
        [l.length, lo32 ((l.head?.map (·.2)).getD 0), lo32 ((l.getLast?.map (·.2)).getD 0)])
      ∧ l.length = xs.length ∧ v = { start s q seq with time := v.time, free := v.free, ctxs := v.ctxs, counters := v.counters, waits := v.waits }
      ∧ (∀ e ∈ l, s.time ≤ e.2 ∧ e.2 ≤ v.time) ∧ v.time ≤ s.time + 600 * xs.length
      ∧ ∀ x, xs.head? = some x → (counterValue s c.context x).2 = false → l.head? = some ((counterValue s c.context x).1, s.time))
    ∧ (∀ x es ps, ready s q seq 0x0802 = some c → ctxAt s c.context = some x → es = c.payload.map (·.toNat) → es.length = 12 →
      (∀ e ∈ es, e ≤ 0x11) → (c.param 0 = 0xFFFFFFFF ∨ c.param 0 < 512) →
      (x.selecting.find? fun e => e.1 == q && e.2.1 == seq) = none →
      ps = (if c.param 0 = 0xFFFFFFFF then List.range 512 else [c.param 0]) →
      ∃ u y, exec (.ctrSelect q seq) s = .next (if ps.any (insideInstruction s c.context) then u else finish u q seq stOk [])
        ∧ (∀ n, ctxAt u n = if n = c.context then some y else ctxAt s n)
        ∧ (∀ p, p < 512 → eventsOf y p = if p ∈ ps ∧ insideInstruction s c.context p = false then es else eventsOf x p)
        ∧ y.selecting = x.selecting ++ (if ps.any (insideInstruction s c.context) then
            [(q, seq, ps.filter (insideInstruction s c.context))] else [])
        ∧ y = { x with events := y.events, counters := y.counters, waits := y.waits, selecting := y.selecting }
        ∧ u = { start s q seq with ctxs := u.ctxs })
    ∧ (∀ x im y, ready s q seq 0x0803 = some c → ctxAt s c.context = some x → x.image = some im → x.sampling = none →
      y = sessionOf c.payload → sessionOk c.payload = true → meetsImage im y = false →
      granted s c.context y.bufAddr y.bufBytes = true → Memory.Wf s.hbm.mem → s.hbm.uncorrectable = [] → s.hbm.correctable = [] →
      s.caisson.run = none →
      ∃ u, exec (.sampleStart q seq) s = .next (finish u q seq stOk [])
        ∧ (∀ n, ctxAt u n = if n = c.context then some { x with sampling := some y } else ctxAt s n)
        ∧ u.hbm.mem.read y.bufAddr 64 = sampleHeader y 1
        ∧ u = { start s q seq with hbm := { s.hbm with mem := u.hbm.mem }, ctxs := u.ctxs, counters := u.counters })
    ∧ (∀ y v, ready s q seq 0x0804 = some c → flushRecords (start s q seq) c.context = v →
      (ctxAt v c.context).bind (·.sampling) = some y →
      exec (.sampleStop q seq) s = .next (finish (endSampling v c.context) q seq stOk [lo32 y.written, hi32 y.written, lo32 y.dropped]))
    ∧ ∀ x y, ready s q seq 0x0804 = some c → ctxAt s c.context = some x → x.sampling = some y → y.waiting = [] →
      Memory.Wf s.hbm.mem → s.hbm.uncorrectable = [] → s.hbm.correctable = [] → s.caisson.run = none →
      ∃ u, exec (.sampleStop q seq) s = .next (finish u q seq stOk [lo32 y.written, hi32 y.written, lo32 y.dropped])
        ∧ (∀ n, ctxAt u n = if n = c.context then some { x with sampling := none } else ctxAt s n)
        ∧ u.hbm.mem.read y.bufAddr 64 = sampleHeader y 2
        ∧ u = { start s q seq with hbm := { s.hbm with mem := u.hbm.mem }, ctxs := u.ctxs, counters := u.counters }

/-! ### Contexts, slices, aborts (chapter 14) -/

/-- CTX_CREATE makes a descriptor with nothing loaded; CTX_GRANT sets its fields and fills what leaves the grant with zeros;
CTX_DESTROY fills the whole grant with zeros and removes the descriptor; CTX_QUERY answers its state (R343 to R347).
The model's own readings that enter: log 64, 101. -/
def Obligations.ContextsCreateGrantDestroy : Prop :=
  ∀ (s : State) (q seq : Nat) (c : Taken),
    (ready s q seq 0x0901 = some c → s.ctxs.length = 16 → c.param 0 < 16 → ctxAt s (c.param 0) = none →
      descriptorOk c.payload = true → grantMeets s (c.param 0) (grantOf c.payload) = false →
      ∃ u, exec (.ctxCreate q seq) s = .next (finish u q seq stOk [])
        ∧ (∀ n, ctxAt u n = if n = c.param 0 then some (freshContext c.payload) else ctxAt s n)
        ∧ u = { start s q seq with ctxs := u.ctxs })
    ∧ (∀ x, ctxAt s (c.param 0) = some x → Memory.Wf s.hbm.mem → s.hbm.uncorrectable = [] → s.hbm.correctable = [] →
      s.caisson.run = none →
      (ready s q seq 0x0903 = some c → x.image = none → descriptorOk c.payload = true →
        grantMeets s (c.param 0) (grantOf c.payload) = false →
        ∃ u, exec (.ctxGrant q seq) s = .next (finish u q seq stOk [])
          ∧ (∀ n, ctxAt u n = if n = c.param 0 then some { x with
                watchdogMs := field c.payload 0 4, lsInterval := field c.payload 4 2, permCtr := bit (field c.payload 6 1) 0
                grant := grantOf c.payload } else ctxAt s n)
          ∧ (∀ a, u.hbm.mem.get a = if (leavingBytes x.grant (grantOf c.payload)).any (fun r => r.1 ≤ a ∧ a < r.1 + r.2) then 0
              else s.hbm.mem.get a)
          ∧ u = { start s q seq with hbm := { s.hbm with mem := u.hbm.mem }, ctxs := u.ctxs })
      ∧ (ready s q seq 0x0902 = some c → s.ctxs.length = 16 → x.image = none → commandsOf s (c.param 0) = false →
        (s.queues.zipIdx.any fun y => decide (4 ≤ y.2) && y.1.enable && y.1.ctx == c.param 0) = false →
        ckptHolder s ≠ some (c.param 0) → s.sched.active ≠ some (c.param 0) →
        s.sched.current.any (·.slice.ctx = c.param 0) = false → (pendingSlices s).any (·.ctx == c.param 0) = false →
        ∃ u, exec (.ctxDestroy q seq) s = .next (takeSlice (finish u q seq stOk []))
          ∧ (∀ n, ctxAt u n = if n = c.param 0 then none else ctxAt s n)
          ∧ (∀ a, u.hbm.mem.get a = if (grantRanges x).any (fun r => r.1 ≤ a ∧ a < r.1 + r.2) then 0 else s.hbm.mem.get a)
          ∧ u = { start s q seq with hbm := { s.hbm with mem := u.hbm.mem }, ctxs := u.ctxs }))
    ∧ (ready s q seq 0x0906 = some c →
      (4 ≤ q → c.param 0 ≠ (queueAt s q).ctx → exec (.ctxQuery q seq) s = .next (finish (start s q seq) q seq stNotPermitted []))
      ∧ ((4 ≤ q → c.param 0 = (queueAt s q).ctx) →
        (ctxAt s (c.param 0) = none → exec (.ctxQuery q seq) s = .next (finish (start s q seq) q seq stOk []))
        ∧ ∀ x, ctxAt s (c.param 0) = some x →
          ∃ p0, exec (.ctxQuery q seq) s = .next (finish (start s q seq) q seq stOk [p0, lo32 x.debt, hi32 x.debt, x.step])
            ∧ bit p0 0 = true ∧ bit p0 1 = (s.sched.active == some (c.param 0)) ∧ bit p0 2 = x.image.isSome
            ∧ bit p0 3 = ((x.program.map (·.st)) == some .running) ∧ bit p0 4 = ((x.program.map (·.st)) == some .faulted || x.faultStatus != 0)
            ∧ bit p0 5 = x.permCtr ∧ bits p0 7 6 = 0
            ∧ p0 / 256 = x.faultStatus + ((pendingSlices s).filter fun e => e.ctx == c.param 0).length * 256))

/-- A slice joins the queue; with none current it begins at once in the active context, else its context is to be switched in.
The slice ends at its nominal end only if another waits; one of the same context follows without a switch, else the outgoing context's overrun becomes its debt; SWITCH_IN makes the next
context active and its slice current, its debt repaid; the outgoing slice, current until then, ends there and its command completes with the
time charged, the overrun and the debt (R348 to R353).
The model's own readings that enter: log 44, 100. -/
def Obligations.SlicesTakeTurns : Prop :=
  (∀ (s : State) (q seq : Nat) (c : Taken) (e : Slice), ready s q seq 0x0904 = some c → knownSlice s q seq = false →
    (ctxAt s (c.param 0)).isSome = true → 100 ≤ c.param 1 → c.param 1 ≤ 60000000 →
    e = { ctx := c.param 0, lengthNs := c.param 1 * 1000, q, seq } →
    (∀ x, s.sched.queue.length < 16 → s.sched.current = some x → s.time < x.nominalEnd →
      exec (.ctxSlice q seq) s = .next { start s q seq with sched := { s.sched with queue := s.sched.queue ++ [e] } })
    ∧ (s.sched.queue = [] → s.sched.current = none → s.sched.incoming = none → debtOf s e.ctx < e.lengthNs →
      ∃ t, exec (.ctxSlice q seq) s = .next t
        ∧ (s.sched.active = some e.ctx →
          t.sched.current = some { slice := e, start := s.time, nominalEnd := s.time + (e.lengthNs - debtOf s e.ctx)
                                   nextReady := none, ending := false, overrun := 0 }
          ∧ debtOf t e.ctx = 0)
        ∧ (s.sched.active ≠ some e.ctx → t.sched = { s.sched with incoming := some (e, e.lengthNs - debtOf s e.ctx) })))
  ∧ ∀ (s : State), running s = true → s.sched.incoming = none →
    (∀ x, s.sched.current = some x →
      (s.sched.queue = [] → exec .sliceNominalEnd s = .next (advanceTo s x.nominalEnd))
      ∧ (∀ e es, s.sched.queue = e :: es → e.ctx = x.slice.ctx → debtOf s e.ctx < e.lengthNs →
        (x.ending = false → exec .sliceNominalEnd s = .next (followSlice (advanceTo s x.nominalEnd) e))
        ∧ (x.ending = true → atBoundary s = true → exec .switchOut s = .next (followSlice s e)))
      ∧ ∀ e es, s.sched.queue = e :: es → e.ctx ≠ x.slice.ctx → debtOf s e.ctx < e.lengthNs →
        (x.ending = false → exec .sliceNominalEnd s = .next { advanceTo s x.nominalEnd with
          sched := { s.sched with current := some { x with ending := true, nextReady := x.nextReady.or (some x.nominalEnd) } } })
        ∧ (x.ending = true → atBoundary s = true →
          ∃ v late, exec .switchOut s = .next (saveProgram v x.slice.ctx)
            ∧ late = s.time - max x.nominalEnd (x.nextReady.getD x.nominalEnd)
            ∧ v.sched = { s.sched with
                queue := es, incoming := some (e, e.lengthNs - debtOf s e.ctx), current := some { x with overrun := late } }
            ∧ (∀ n, debtOf v n = if n = x.slice.ctx ∧ (ctxAt s n).isSome then debtOf s n + late else debtOf s n)
            ∧ v = { s with sched := v.sched, ctxs := v.ctxs }))
    ∧ (∀ x e eff, s.sched.current = some x → ∃ u w v,
        exec .switchIn { s with sched := { s.sched with incoming := some (e, eff) } } = .next (restoreProgram v e.ctx)
        ∧ u.sched = { s.sched with incoming := some (e, eff), current := none, chargedTo := s.time }
        ∧ (∀ n, ctxAt u n = if s.sched.active = some n then
              (ctxAt s n).map fun y => { y with account := (y.account + (s.time - s.sched.chargedTo)) % 2 ^ 64 } else ctxAt s n)
        ∧ u = { s with sched := u.sched, ctxs := u.ctxs }
        ∧ w = finish u x.slice.q x.slice.seq stOk
            [(s.time - x.start) % 2 ^ 32, (s.time - x.start) / 2 ^ 32 % 2 ^ 32, min x.overrun 0xFFFFFFFF, min (debtOf s x.slice.ctx) 0xFFFFFFFF]
        ∧ v.sched = { s.sched with
            active := some e.ctx, incoming := none, chargedTo := s.time
            current := some { slice := e, start := s.time, nominalEnd := s.time + eff, nextReady := none, ending := false
                              overrun := 0 } }
        ∧ (∀ n, debtOf v n = if n = e.ctx then 0 else debtOf w n)
        ∧ v = { w with sched := v.sched, ctxs := v.ctxs })
    ∧ ∀ e eff, s.sched.current = none → ∃ v, exec .switchIn { s with sched := { s.sched with incoming := some (e, eff) } } =
          .next (restoreProgram v e.ctx)
        ∧ v.sched = { s.sched with
            active := some e.ctx, incoming := none, chargedTo := s.time
            current := some { slice := e, start := s.time, nominalEnd := s.time + eff, nextReady := none, ending := false
                              overrun := 0 } }
        ∧ debtOf v e.ctx = 0
        ∧ v = { s with sched := v.sched, ctxs := v.ctxs }

/-- A scratchpad written to its save area at a switch-out comes back byte for byte at the next switch-in, with the pier at the same
deck index (R353). -/
def Obligations.SavedScratchpadsReturn : Prop :=
  ∀ (s : State) (n p : Nat) (c : Context) (im : Image), Memory.Wf s.hbm.mem → Memory.Wf (pierAt s p).mem →
    s.hbm.uncorrectable = [] → s.hbm.correctable = [] → s.caisson.run = none → faultedIn s n = false →
    (pierAt s p).badWords = [] → (pierAt s p).weakWords = [] →
    (∀ x ∈ (pierAt s p).mem, x.1 < scratchOf im.decls p) → (pierAt s p).plane0.loadedAt = none → (pierAt s p).plane1.loadedAt = none →
    ∃ t, restorePier n c im { savePad n c im s p with piers := [] } (husk (pierAt s p)) = t
      ∧ (pierAt t p).mem = (pierAt s p).mem ∧ (pierAt t p).index = (pierAt s p).index
      ∧ t.hbm.mem.read (padHome c p) (scratchOf im.decls p) = (pierAt s p).mem.read 0 (scratchOf im.decls p)
      ∧ ∀ a, a < padHome c p ∨ padHome c p + scratchOf im.decls p ≤ a → t.hbm.mem.get a = s.hbm.mem.get a

/-- CMD_ABORT: an unknown target answers 0 and itself 3; a command that no abort stops is waited for; another ends ABORTED with what
it began, and the abort's own reply, outcome 1, follows its completion; a target that completed since the abort was taken gives the outcome
that the take noted (R315, R355 to R357).
The model's own readings that enter: log 61. -/
def Obligations.AbortsStopCommands : Prop :=
  ∀ (s : State) (q seq : Nat) (c : Taken), ready s q seq 0x0905 = some c → (s.aborts.any fun a => a.q == q && a.seq == seq) = false →
    c.param 0 < 64 → (4 ≤ q → 4 ≤ c.param 0 ∧ (queueAt s (c.param 0)).ctx = (queueAt s q).ctx) →
    (∀ o, c.late = some o → exec (.cmdAbort q seq) s = .next
      (if (queueAt s (c.param 0)).held.any (replyHeld s (c.param 0) (c.param 1)) then { start s q seq with
        aborts := s.aborts ++ [{ q, seq, tq := c.param 0, tseq := c.param 1, outcome := o }] } else finish (start s q seq) q seq stOk [o]))
    ∧ (c.late = none →
    (c.param 0 = q → c.param 1 = seq → exec (.cmdAbort q seq) s = .next (finish (start s q seq) q seq stOk [3]))
    ∧ (findCmd s (c.param 0) (c.param 1) = none → launched s (c.param 0) (c.param 1) = none →
      (queueAt s (c.param 0)).held = [] → exec (.cmdAbort q seq) s = .next (finish (start s q seq) q seq stOk [0]))
    ∧ (∀ t, ¬ (c.param 0 = q ∧ c.param 1 = seq) → findCmd s (c.param 0) (c.param 1) = some t →
      (unabortable t.opcode = true → exec (.cmdAbort q seq) s = .next { start s q seq with
        aborts := s.aborts ++ [{ q, seq, tq := c.param 0, tseq := c.param 1, outcome := 3 }] })
      ∧ (unabortable t.opcode = false → t.opcode ≠ 0x0904 → t.opcode ≠ 0x0905 → exec (.cmdAbort q seq) s = .next (finish (stopTarget
          { start s q seq with aborts := s.aborts ++ [{ q, seq, tq := c.param 0, tseq := c.param 1, outcome := 1 }] } t)
          (c.param 0) (c.param 1) stAborted [])))
    ∧ ∀ n, findCmd s (c.param 0) (c.param 1) = none → launched s (c.param 0) (c.param 1) = some n →
      exec (.cmdAbort q seq) s = .next (faultContext
        { start s q seq with aborts := s.aborts ++ [{ q, seq, tq := c.param 0, tseq := c.param 1, outcome := 1 }] } n stAborted))

/-! ### The host interface (chapter 13) -/

/-- A completion with room in its ring and nothing held before it is written at the ring's head: 32 bytes whose PHASE is the
parity of the pass, and CHEAD moves on by one. Finishing a command takes it from the outstanding ones and posts its kind 0 entry with
its status, seq and reply; nothing but Tether, queues, commands and aborts changes (R333, R338).
The model's own readings that enter: log 45, 66. -/
def Obligations.CompletionsReachTheRing : Prop :=
  (∀ (s : State) (q : Nat) (Q : HostQueue) (c : Completion), s.queues[q]? = some Q → Q.held = [] → cplRoom Q = true →
    s.aborts.filter (settles q c) = [] → c.kind ≠ 2 →
    ∃ t e, post s q c = t ∧ e = encodeCpl q (Q.chead / cplEntries Q) s.time c ∧ e.length = 32
      ∧ t.tether.posted = s.tether.posted ++
          [{ addr := ringBase Q.cplLo Q.cplHi + (Q.chead % cplEntries Q) * 32, bytes := e, last := add32 s.tether.nextFlit 0, reply := true }]
      ∧ t.queues[q]? = some (if cplRoom { Q with chead := add32 Q.chead 1 } then { Q with chead := add32 Q.chead 1 }
          else { Q with chead := add32 Q.chead 1, fullSince := some s.time, fullLogged := false }) ∧ (∀ r, r ≠ q → t.queues[r]? = s.queues[r]?)
      ∧ t = { s with tether := t.tether, queues := t.queues })
  ∧ (∀ (s : State) (q : Nat) (Q : HostQueue) (c : Completion), s.queues[q]? = some Q → cplRoom Q = false →
    ∃ t, post s q c = t ∧ t.queues[q]? = some { Q with held := Q.held ++ [c] }
      ∧ t = { s with queues := t.queues })
  ∧ ∀ (s : State) (q seq st : Nat) (p : List Nat) (c : Taken), findCmd s q seq = some c →
    (s.aborts.any fun a => a.tq == q && a.tseq == seq && a.outcome == 2) = false →
    finish s q seq st p = post { s with cmds := s.cmds.filter fun x => !isCmd q seq x } q
        { opcode := c.opcode, status := st, kind := 0, context := c.context, last := false, seq, p }
      ∧ finish s q seq st p = { s with
          tether := (finish s q seq st p).tether, queues := (finish s q seq st p).queues, cmds := (finish s q seq st p).cmds
          aborts := (finish s q seq st p).aborts }

/-- A doorbell sets the target of an armed queue; one that is old, or that finds the queue stopped or the device not ready, is counted;
one beyond the ring stops the queue (R327). Queues 0 to 3 are taken from before the others. The head entry that the target covers is read: valid and well-formed, it is TACKed and
becomes an outstanding command; refused, or read during a removal, it completes at once; invalid, it is read again, and taken in its queue's turn once valid, until at
16 µs the queue stops with RING_STALE (R327 to R332, R334, R436).
The model's own readings that enter: log 11, 46, 49, 50, 62, 98. -/
def Obligations.QueuesTakeEntries : Prop :=
  (∀ (s : State) (q v : Nat) (Q : HostQueue), writesReach s = true → s.queues[q]? = some Q →
    (Q.stopped = true ∨ s.pkg.ready = false ∨ 2 ^ 31 ≤ sub32 v Q.head →
      exec (.doorbell q v) s = .next (modQueue s q fun Q => { Q with ignored := min (Q.ignored + 1) 255 }))
    ∧ (Q.stopped = false → s.pkg.ready = true → sub32 v Q.head < 2 ^ 31 →
      (2 ^ (Q.ringLog2 + 4) < sub32 v Q.head + 1 → ∃ t, exec (.doorbell q v) s = .next t
        ∧ t.queues[q]? = some { Q with
            stopped := true, stopEvent := false, cause := stBadParam, target := none, staleFrom := none, event := stBadParam
            expect := Q.head, found := v, mptime := lo32 s.time }
        ∧ (∀ r, r ≠ q → t.queues[r]? = s.queues[r]?) ∧ t.cmds = s.cmds ∧ wantsEntry t q = false)
      ∧ (sub32 v Q.head + 1 ≤ 2 ^ (Q.ringLog2 + 4) →
        exec (.doorbell q v) s = .next (modQueue s q fun Q => { Q with target := some v }))))
  ∧ (∀ (s : State) (q : Nat) (Q : HostQueue), s.queues[q]? = some Q → nextQueue s = some q →
    (∀ e payload u, entryValid Q.head e = true →
      u = modTether (modQueue s q fun Q => { Q with head := add32 Q.head 1, staleFrom := none }) (fun t =>
        let t := Tether.pump { t with
          fetchAddr := entryAddr Q Q.head, unsent := t.unsent + 1
          tackTimers := t.tackTimers ++ [{ q, seq := Q.head, flit := t.nextFlit, since := s.time }] }
        if q < 4 then { t with lastHigh := q } else { t with lastLow := q }) →
      (∀ t, checkEntry s q e payload = .ok t → exec (.entryTake q (some e) payload) s = .next
        (if s.pkg.removing then post u q
            { opcode := t.opcode, status := stAborted, kind := 0, context := t.context, last := false, seq := Q.head, p := [] }
          else { u with cmds := s.cmds ++ [t] }))
      ∧ (∀ st p, checkEntry s q e payload = .error (st, p) → exec (.entryTake q (some e) payload) s = .next (post u q
          { opcode := field e 0 2, status := st, kind := 0, context := field e 5 1, last := false, seq := Q.head, p })))
    ∧ ∀ entry payload, entry.filter (entryValid Q.head) = none →
      exec (.entryTake q entry payload) s = .next (modQueue (fetchEntry s q) q fun Q => { Q with staleFrom := some s.time }))
  ∧ (∀ (s : State) (q : Nat), nextQueue s = some q →
      waitsEntry s q = true ∧ (4 ≤ q → ∀ k, k < 4 → waitsEntry s k = false))
  ∧ ∀ (s v w : State) (q from_ : Nat) (Q : HostQueue), s.queues[q]? = some Q → wantsEntry s q = true → Q.staleFrom = some from_ →
    s.tether.activity = none → v = advanceTo s (nextRead s from_) →
    w = modQueue (fetchEntry v q) q (fun Q => { Q with staleFrom := none }) →
    (∀ e payload, entryValid Q.head e = true →
      (nextQueue w ≠ some q → exec (.entryReread q (some e) payload) s = .next w)
      ∧ ∀ t, nextQueue w = some q → checkEntry w q e payload = .ok t → s.pkg.removing = false →
        ∃ u : State, exec (.entryReread q (some e) payload) s = .next { u with cmds := s.cmds ++ [t] }
          ∧ u.queues[q]? = some { Q with head := add32 Q.head 1, staleFrom := none }
          ∧ u.tether.tackTimers =
              s.tether.tackTimers ++ [{ q, seq := Q.head, flit := s.tether.nextFlit, since := max s.time (nextRead s from_) }]
          ∧ u = { v with queues := u.queues, tether := u.tether })
    ∧ (∀ e payload, entryValid Q.head e = false → from_ + 16000 ≤ max s.time (nextRead s from_) →
      exec (.entryReread q (some e) payload) s = .next (stopQueue (fetchEntry v q) q 0x20 Q.head
        (if field e 8 4 = Q.head then field e 0x7C 4 else field e 8 4)))
    ∧ ∀ entry payload, entry.filter (entryValid Q.head) = none → max s.time (nextRead s from_) < from_ + 16000 →
      exec (.entryReread q entry payload) s = .next (fetchEntry v q)

/-- QCFG enables a queue stopped and with its ring pointers at zero, or disables it; QARM arms a stopped queue at a head and clears its
event; QCTAIL makes room; a ring full for 1 ms is logged once (R325, R331, R333).
The model's own readings that enter: log 11, 47, 102. -/
def Obligations.QueueRegistersAct : Prop :=
  ∀ (s : State) (q v : Nat) (Q : HostQueue), s.queues[q]? = some Q →
    (writesReach s = true →
      (Q.enable = false → bit v 31 = true → bits v 11 8 ≤ 12 → bits v 3 0 ≤ 12 → Q.held = [] →
        ∃ t, exec (.qcfgWrite q v) s = .next (settleRemoval t)
          ∧ t.queues[q]? = some { Q with
              ctx := bits v 19 16, cplLog2 := bits v 11 8, ringLog2 := bits v 3 0, enable := true, stopped := true, stopEvent := false
              target := none, staleFrom := none, ctail := 0, chead := 0, fullSince := none, fullLogged := false }
          ∧ (∀ r, r ≠ q → t.queues[r]? = s.queues[r]?) ∧ t = { s with queues := t.queues })
      ∧ (Q.enable = true → bit v 31 = false → exec (.qcfgWrite q v) s = .next (modQueue s q fun Q =>
          { Q with enable := false, stopped := true, target := none, staleFrom := none }))
      ∧ (Q.enable = true → bit v 31 = true → exec (.qcfgWrite q v) s = .next s)
      ∧ (Q.enable = true → Q.stopped = true → exec (.qarmWrite q v) s = .next (modQueue s q fun Q =>
          { Q with
            head := v, stopped := false, stopEvent := false, target := none, staleFrom := none, ignored := 0, event := 0
            expect := 0, found := 0, mptime := 0 }))
      ∧ (∀ c, Q.held = [c] → cplRoom { Q with ctail := v } = true → s.aborts = [] → c.kind ≠ 2 → ∃ t e,
        exec (.qctailWrite q v) s = .next (settleRemoval t) ∧ e = encodeCpl q (Q.chead / cplEntries Q) s.time c
          ∧ t.tether.posted = s.tether.posted ++
              [{ addr := ringBase Q.cplLo Q.cplHi + (Q.chead % cplEntries Q) * 32, bytes := e, last := add32 s.tether.nextFlit 0, reply := true }]
          ∧ (t.queues[q]?).map (fun R => (R.ctail, R.chead, R.held)) = some (v, add32 Q.chead 1, [])
          ∧ t = { s with tether := t.tether, queues := t.queues }))
    ∧ (∀ at_, Q.fullSince = some at_ → Q.fullLogged = false → ∃ u, exec (.completionRingFull q) s =
          .next (modQueue u q fun Q => { Q with fullLogged := true })
        ∧ u = logError (advanceTo s (at_ + 1000000)) 0x0060 0 sevWarning srcPackage 0xFF 0xFF [q])

/-- LOSS_SCALE sets the exponent of the active context's loss scale, at once or, while a program runs, as pending; queue bases and
mailbox words take a write, other offsets discard it. FLUSH_RB reads 0 once every earlier write is in host memory; the low halves of
powered time and of an account capture the whole. While the link is out of UP for a time, accesses wait for it in order; a read that
cannot be delivered returns all ones, and a write is discarded (R7, R161, R162, R320 to R323, R325, R338).
The model's own readings that enter: log 45, 48, 60, 103. -/
def Obligations.WindowReadsAndWrites : Prop :=
  (∀ (s : State), writesReach s = true →
    (∀ v n x, s.sched.active = some n → ctxAt s n = some x → expOk (signed 8 (v % 256)) = true → ∃ t,
      exec (.lossScaleWrite v) s = .next t
        ∧ (∀ m, ctxAt t m = if m = n then some { x with ls := x.ls.write (x.program.any fun p => p.st == .running) (signed 8 (v % 256)) }
            else ctxAt s m)
        ∧ t = { s with ctxs := t.ctxs })
    ∧ (∀ v, expOk (signed 8 (v % 256)) = false →
      exec (.lossScaleWrite v) s = .next (logError s 0x0054 0 sevWarning srcPackage 0xFF (s.sched.active.getD 0xFF) [v % 256]))
    ∧ (∀ q v Q, q < 64 → s.queues[q]? = some Q → Q.enable = false →
      exec (.registerWrite (0x2000 + 64 * q) v) s = .next (modQueue s q fun _ => { Q with ringLo := v / 4096 * 4096 })
      ∧ exec (.registerWrite (0x2004 + 64 * q) v) s = .next (modQueue s q fun _ => { Q with ringHi := v })
      ∧ exec (.registerWrite (0x2008 + 64 * q) v) s = .next (modQueue s q fun _ => { Q with cplLo := v / 4096 * 4096 })
      ∧ exec (.registerWrite (0x200C + 64 * q) v) s = .next (modQueue s q fun _ => { Q with cplHi := v }))
    ∧ (∀ q v k, q < 64 → k < 12 → exec (.registerWrite (0x3000 + 64 * q + 4 * k) v) s =
        .next (modQueue s q fun Q => { Q with data := Q.data.set k v }))
    ∧ (∀ o v, o < 0x1000 → o ≠ 0x20 → exec (.registerWrite o v) s = .next s)
    ∧ (s.tether.activity = none → s.tether.unsent = 0 → ∃ t, exec .flushRbRead s = .next (settleRemoval t) ∧ t.tether.readValue = 0
        ∧ t.tether.posted = []
        ∧ t.tether.hostMem = s.tether.posted.foldl (fun m w => m.write w.addr w.bytes) s.tether.hostMem
        ∧ t = { s with tether := t.tether })
    ∧ (s.tether.activity ≠ none ∨ s.tether.unsent ≠ 0 →
        exec .flushRbRead s = .next { s with tether := { s.tether with waiting := s.tether.waiting ++ [.read 0x10] } })
    ∧ exec .ptimeLoRead s = .next { s with
        tether := { s.tether with ptimeCapture := s.time % 2 ^ 64, readValue := lo32 s.time } }
    ∧ ∀ n, n < 16 → exec (.ctxAccountLoRead n) s = .next { s with
        tether := { s.tether with accountCapture := s.tether.accountCapture.set n (accountOf s n), readValue := lo32 (accountOf s n) } })
  ∧ ∀ (s : State), running s = false ∨ s.tether.st ≠ .up →
    (linkOut s = false → exec .ptimeLoRead s = .next { s with tether := { s.tether with readValue := 0xFFFFFFFF } }
      ∧ exec .flushRbRead s = .next { s with tether := { s.tether with readValue := 0xFFFFFFFF } }
      ∧ ∀ o v, exec (.registerWrite o v) s = .next s)
    ∧ (linkOut s = true → s.tether.forwarding = true →
      exec .ptimeLoRead s = .next { s with tether := { s.tether with waiting := s.tether.waiting ++ [.read 0x08] } }
      ∧ (∀ o v, exec (.registerWrite o v) s = .next { s with tether := { s.tether with waiting := s.tether.waiting ++ [.write o v] } })
      ∧ ∀ q v, exec (.doorbell q v) s =
          .next { s with tether := { s.tether with waiting := s.tether.waiting ++ [.write (0x1000 + 4 * q) v] } })

/-- A flit whose CRC covers its bytes is intact. An intact flit in sequence is taken and frees the flits it acknowledges, whose writes are then in host memory; a damaged one, a
NAK, a timeout or a retrain begins retry activity, which replays the buffer, at a flit's eighth replay retrains the link, and ends
when every flit held then is acknowledged with the link UP (R319, R320, R329, R338, R339).
The model's own readings that enter: log 11, 45. -/
def Obligations.TetherRetries : Prop :=
  ∀ (s : State), s.tether.st = .up →
    (s.tether.activity = none → s.tether.waiting = [] → ∀ (ack : Nat) (open_ : Nat → Bool) (done : List Posted), (∀ n, open_ n = !decide (sub32 ack n < 2 ^ 31)) →
      ∀ f : TetherFlit, crc64 (f.header ++ f.data) = f.crc → done = s.tether.posted.filter (fun w => !open_ w.last) →
      exec (.tetherFlitReceive s.tether.rxSeq ack f) s = .next (settleRemoval { s with
        tether := Tether.pump { s.tether with
          rxSeq := add32 s.tether.rxSeq 1, awaitFlit := false, unacked := s.tether.unacked.filter fun x => open_ x.1
          tackTimers := s.tether.tackTimers.filter fun x => open_ x.flit, posted := s.tether.posted.filter fun w => open_ w.last
          hostMem := done.foldl (fun m w => m.write w.addr w.bytes) s.tether.hostMem
          unflushed := s.tether.unflushed ++ (done.filter fun w => !w.reply).map fun w => (w.addr, w.bytes.length) } }))
    ∧ (∀ seq ack, ∀ f : TetherFlit, s.tether.activity = none → crc64 (f.header ++ f.data) ≠ f.crc → exec (.tetherFlitReceive seq ack f) s = .next { s with
        tether := { s.tether with
          naksSent := s.tether.naksSent + 1, awaitFlit := true, activity := some (s.tether.unacked.map (·.1))
          events := s.tether.events ++ [.activityStart] } })
    ∧ (∀ l ack, ∀ f : TetherFlit, crc64 (f.header ++ f.data) = f.crc → s.pkg.removing = false → s.tether.activity = some l → s.tether.waiting = [] → (l.all fun n => sub32 ack n < 2 ^ 31) = true → ∃ t,
        exec (.tetherFlitReceive s.tether.rxSeq ack f) s = .next t ∧ t.tether.activity = none
          ∧ t.tether.events = s.tether.events ++ [.activityEnd]
          ∧ t.queues = s.queues.map (fun Q => { Q with staleFrom := Q.staleFrom.map fun _ => s.time })
          ∧ (∀ x ∈ t.tether.tackTimers, x.since = s.time)
          ∧ (∀ n, (progAt t n).map (·.watchdogAt) = (progAt s n).map fun _ => s.time)
          ∧ t = { s with tether := t.tether, queues := t.queues, ctxs := t.ctxs })
    ∧ (∀ seq, exec (.tetherNak seq) s = .next (replayFlits (ackFlits s (sub32 seq 1))))
    ∧ (s.tether.unacked ≠ [] → s.tether.activity = none →
      (s.tether.unacked.all (·.2 < 7) = true → exec .tetherReplayTimeout s = .next { s with
        tether := { s.tether with
          unacked := s.tether.unacked.map fun x => (x.1, x.2 + 1), replays := min (s.tether.replays + 1) 65535
          activity := some (s.tether.unacked.map (·.1)), events := s.tether.events ++ [.activityStart] } })
      ∧ (s.tether.unacked.any (7 ≤ ·.2) = true → ∃ t, exec .tetherReplayTimeout s = .next t ∧ t.tether.st = .retrain
        ∧ t.tether.outSince = some s.time ∧ t.tether.retrains = min (s.tether.retrains + 1) 65535
        ∧ t.tether.replays = min (s.tether.replays + 1) 65535 ∧ t = { s with tether := t.tether }))
    ∧ (s.tether.activity = none → exec .tetherRetrain s = .next { s with
        tether := { s.tether with
          st := .retrain, outSince := some s.time, retrains := min (s.tether.retrains + 1) 65535
          unacked := s.tether.unacked.map fun x => (x.1, 0)
          activity := some (s.tether.unacked.map (·.1)), events := s.tether.events ++ [.activityStart] } })
    ∧ exec .tetherCableAbsent s = .next { s with
        pkg := { s.pkg with cable := false }, tether := { s.tether with st := .down, outSince := some s.time } }
    ∧ (∀ q seq x, running s = true → s.tether.activity = none →
        s.tether.tackTimers.find? (fun x => x.q == q && x.seq == seq) = some x →
        exec (.tackTimerExpiry q seq) s = .next { advanceTo s (x.since + 8000) with
          tether := { s.tether with
            forwarding := false, events := s.tether.events ++ [.unresponsive q seq]
            tackTimers := s.tether.tackTimers.filter fun y => !(y.q == q && y.seq == seq) } })

/-- A link that comes back within 2 ms is UP again; beyond that every context faults, unacknowledged writes are discarded, bytes
that no flush has covered are void, and the package resets itself. REMOVE ends programs and commands with ABORTED; with every
completion written TE_ALERT_N falls, and once they are acknowledged the package leaves service (R319, R321, R427, R436).
The model's own readings that enter: log 11, 36, 98, 99. -/
def Obligations.TetherReturnsOrIsLost : Prop :=
  ∀ (s : State),
    (∀ t0, s.tether.outSince = some t0 → s.time ≤ t0 + 2000000 → s.tether.activity = none → s.tether.waiting = [] →
      (s.tether.st = .retrain → exec .tetherRetrainComplete s = .next { s with
        tether := Tether.pump { s.tether with st := .up, outSince := none } })
      ∧ (running s = true → s.tether.st = .down → exec .tetherCablePresent s = .next { s with
        pkg := { s.pkg with cable := true }, tether := Tether.pump { s.tether with st := .up, outSince := none } }))
    ∧ (∀ t0, running s = true → s.tether.outSince = some t0 → ∃ u t, exec .linkLost s = .next t
        ∧ u = faultAll (advanceTo s (t0 + 2000001)) stLinkLost
        ∧ t = resetKeep (dropLink u) 0x02
        ∧ (Memory.Wf u.tether.hostMem → ∀ a, (∀ r ∈ u.tether.unflushed, a < r.1 ∨ r.1 + r.2 ≤ a) →
            t.tether.hostMem.get a = u.tether.hostMem.get a)
        ∧ t.tether.events = u.tether.events ++ [.linkLost]
        ∧ t.pkg.phase = .inReset ∧ t.pkg.resetCause = 0x02)
    ∧ (running s = true → s.pkg.cable = true → s.pkg.removing = false → ∃ u v : State, exec .remove s = .next (settleRemoval v)
        ∧ u = abandonCkpt (abortCommands (stopPrograms s)) stAborted
        ∧ v = { u with
            apr := { u.apr with feeds := [] }, sched := .fresh, aborts := [], pkg := { u.pkg with removing := true } })
    ∧ (s.pkg.removing = false → settleRemoval s = s)
    ∧ (s.pkg.removing = true →
      (s.queues.any (!·.held.isEmpty) = true → settleRemoval s = s)
      ∧ (s.queues.all (·.held.isEmpty) = true →
        (s.tether.posted.any (·.reply) = true → settleRemoval s = { s with pkg := { s.pkg with removeAlert := true } })
        ∧ (s.tether.posted.any (·.reply) = false → ∃ t, settleRemoval s = t
          ∧ t.pkg.removeAlert = true ∧ t.pkg.oos = true ∧ t.pkg.ready = false ∧ t.pkg.phase = .stopped ∧ t.pkg.removing = false
          ∧ t.tether.st = .down ∧ t.tether.events = s.tether.events ++ [.removeReady]
          ∧ (∀ K ∈ t.hbm.footings, K.selfRefresh = true)
          ∧ t = { s with pkg := t.pkg, tether := t.tether, hbm := { s.hbm with footings := t.hbm.footings } })))

/-! ### Power, resets, boot (chapters 01, 15, 16, 18) -/

/-- POWER_TABLE_LOAD puts a table in force, or refuses one with a budget above its ceiling or a sum above the envelope and keeps the
previous one; Tollhouse sends each released die its budget with a check; a die takes a valid message, commands the highest voltage step
that keeps its draw within the budget, lower while throttled, and reports, discards any other, and falls to its floor at the second
miss in a row, where it logs a draw that is above the floor even at 0.62 V; the end of a time at the floor is logged; Tollhouse takes a report (R24 to R26, R29, R375 to R377, R399). The model's own readings that enter: log 11, 56, 90. -/
def Obligations.PowerTablesAndBudgets : Prop :=
  (∀ (s : State) (q seq : Nat) (c : Taken), ready s q seq 0x0103 = some c →
    (powerTableOk s.pkg.orderB c.payload = true → exec (.powerTableLoad q seq) s = .next (finish
      { start s q seq with toll := { s.toll with table := powerTableOf c.payload, epoch := s.toll.epoch + 1 } } q seq stOk []))
    ∧ ((∃ d ∈ dieCodes, ceilingOf s.pkg.orderB d < (powerTableOf c.payload).getD (tableIndex d) 0)
        ∨ envelope s.pkg.orderB < (powerTableOf c.payload).sum + reservedPower →
      exec (.powerTableLoad q seq) s = .next (finish (start s q seq) q seq stBadParam [])))
  ∧ (∀ (s : State), powered s = true → s.dies.map (·.code) = dieCodes →
    ∃ t, exec .budgetSendTimer s = .next t
      ∧ t.toll.messages = s.toll.messages ++ (s.dies.filter (·.released)).map (budgetMessage s)
      ∧ t.dies = s.dies.map (fun d => if d.released then
          { d with sendSeq := (d.sendSeq + 1) % 65536, awaiting := true, silent := if d.awaiting then d.silent + 1 else d.silent } else d)
      ∧ ((∀ d ∈ s.dies, d.released = true → d.awaiting = false) →
          t = { s with toll := { s.toll with messages := t.toll.messages }, dies := t.dies })
      ∧ ∀ d ∈ s.dies, d.sendSeq < 65536 → checkOk (budgetMessage s d) = true ∧ field (budgetMessage s d) 0 1 = 0x21
        ∧ field (budgetMessage s d) 1 1 = d.code ∧ field (budgetMessage s d) 2 2 = d.sendSeq
        ∧ field (budgetMessage s d) 4 2 = budgetFor s d % 65536 ∧ field (budgetMessage s d) 6 2 = floorOf d.code)
  ∧ (∀ (s u : State) (code : Nat) (draws : List Nat) (m : List Byte) (d : Die), s.dies.map (·.code) = dieCodes → code ∈ dieCodes →
    d = dieAt s code → d.released = true → u = { s with toll := { s.toll with messages := s.toll.messages.erase m } } →
    (messageOk s.pkg.orderB d m = false →
      exec (.budgetMessage code m draws) s = .next (modDie u code fun d => { d with discards := d.discards + 1 }))
    ∧ (messageOk s.pkg.orderB d m = true → d.atFloor = false → d.sensorFloor = false →
      ∃ r v, exec (.budgetMessage code m draws) s = .next { modDie u code (fun d =>
          { d with budget := field m 4 2, given := field m 4 2, lastSeq := some (field m 2 2), misses := 0, atFloor := false, floorEntered := false
                   heardAt := s.time, draws, millivolts := v }) with
            toll := { u.toll with reports := s.toll.reports ++ [r] }, free := s.free + 3 }
        ∧ checkOk r = true ∧ field r 0 1 = 0x22 ∧ field r 1 1 = code ∧ field r 2 2 = field m 2 2
        ∧ field r 4 2 = drawOf { s with free := s.free + 1 } { d with draws } % 65536 ∧ field r 6 2 = v % 65536
        ∧ bit (field r 10 1) 0 = false ∧ bit (field r 10 1) 1 = (isPier code && decide (field m 4 2 < draws.headD 0))
        ∧ (isPier code = true → draws ≠ [] → ∃ i, i < 57 ∧ (∀ j w, i < j → j < 57 → draws[j]? = some w → field m 4 2 < w)
          ∧ (i = 0 ∨ ∃ w, draws[i]? = some w ∧ w ≤ field m 4 2)
          ∧ if d.throttled = true ∧ 0 < i then 620 ≤ v ∧ v < 620 + 5 * i else v = 620 + 5 * i))
    ∧ (messageOk s.pkg.orderB d m = true → ∃ t, exec (.budgetMessage code m draws) s = .next t
      ∧ (dieAt t code).budget = (if d.sensorFloor then floorOf code else field m 4 2) ∧ (dieAt t code).atFloor = d.sensorFloor
      ∧ (dieAt t code).misses = 0 ∧ (∀ k, k ≠ code → dieAt t k = dieAt s k)
      ∧ t.toll.log = (if d.atFloor ∧ d.floorEntered ∧ d.sensorFloor = false then
          (logError u 0x0040 0 sevWarning (if isPier code then srcPier else srcPylon) (code % 16) 0xFF
            [code, (s.time - d.floorSince) / 1000]).toll.log else s.toll.log)))
  ∧ (∀ (s u : State) (m : List Byte) (code : Nat), code = field m 1 1 → u = { s with toll := { s.toll with reports := s.toll.reports.erase m } } →
    (checkOk m = true → field m 0 1 = 0x22 → code ∈ dieCodes → (dieAt s code).released = true → bit (field m 10 1) 1 = false →
      exec (.budgetReport m) s = .next (modDie u code fun d => { d with draw := field m 4 2, awaiting := false, silent := 0 }))
    ∧ (checkOk m = true → field m 0 1 = 0x22 → code ∈ dieCodes → (dieAt s code).released = true → bit (field m 10 1) 1 = true →
      exec (.budgetReport m) s = .next (logError (modDie u code fun d => { d with draw := field m 4 2, awaiting := false, silent := 0 })
        0x0041 0 sevWarning (if isPier code then srcPier else srcPylon) (code % 16) 0xFF [code, field m 4 2]))
    ∧ (checkOk m = false → exec (.budgetReport m) s = .next u))
  ∧ ∀ (s u : State) (code : Nat) (d : Die), d = dieAt s code → d.released = true → u = advanceTo s (d.heardAt + 275000) →
    (d.misses = 0 → exec (.budgetMiss code) s = .next (modDie u code fun d => { d with misses := d.misses + 1, heardAt := u.time }))
    ∧ (1 ≤ d.misses → ∃ t, exec (.budgetMiss code) s = .next t ∧ t = { u with dies := t.dies, toll := t.toll, free := u.free + 1 } ∧ (dieAt t code).budget = floorOf code
      ∧ t.toll = (if isPier code ∧ floorOf code < d.draws.headD 0 then
          (logError u 0x0041 0 sevWarning srcPier (code % 16) 0xFF [code, d.draws.headD 0]).toll else u.toll)
      ∧ (dieAt t code).atFloor = true ∧ (dieAt t code).misses = d.misses + 1 ∧ ∀ k, k ≠ code → dieAt t k = dieAt s k)

/-- A source's temperature follows its hottest working sensor. At the alert threshold THERM_ALERT_N goes low and the Pier dies are
throttled, each below the voltage of its budget, until it falls 3 °C; at the trip threshold, with the alert, the package stops and is held in reset; a stack above 85 °C doubles its
refresh rate. A failed stack sensor brings the alert and the rate, a Pier die with fewer than four sensors its floor (R26, R31, R263, R397, R398).
The model's own readings that enter: log 90, 91. -/
def Obligations.SensorsDriveThermalControl : Prop :=
  ∀ (s : State) (x : Sensor), powered s = true → hasFailed s x = false → s.dies.map (·.code) = dieCodes →
    (∀ v, thermalSource x = none →
      exec (.sensorRead x v) s = .next { s with toll := { s.toll with sensors := putReading s.toll.sensors x v } })
    ∧ (∀ c v T u, thermalSource x = some c → -80 ≤ v → v ≤ 300 →
      u = (let s := { s with toll := { s.toll with sensors := putReading s.toll.sensors x v } }
           if 0x40 ≤ c then stackReading s (c - 0x40) v else s) →
      sourceTemp u c = some T →
      (tripAt c ≤ T → ∃ t, exec (.sensorRead x v) s = .next t ∧ t.pkg.phase = .tripped ∧ t.pkg.trip = true
        ∧ (∀ d ∈ t.dies, d.released = false) ∧ (∀ K ∈ t.hbm.footings, K.retained = false ∧ K.selfRefresh = true) ∧ t.time = s.time
        ∧ (c ∉ s.toll.alerting → t.pkg.alert = true ∧ c ∈ t.toll.alerting))
      ∧ (alertAt c ≤ T → T < tripAt c → c ∉ s.toll.alerting → ∃ t, exec (.sensorRead x v) s = .next t
        ∧ t.toll.alerting = insertNat s.toll.alerting c ∧ t.pkg = { s.pkg with alert := true }
        ∧ (∀ d ∈ s.dies, ∃ v, dieAt t d.code = { d with throttled := d.throttled || isPier d.code, millivolts := v }
          ∧ if isPier d.code = true ∧ d.throttled = false ∧ 0 < budgetStep d then v < 620 + 5 * budgetStep d
            else isPier d.code = false → v = d.millivolts)
        ∧ t = { u with toll := t.toll, pkg := t.pkg, dies := t.dies, free := t.free })
      ∧ (alertAt c ≤ T → T < tripAt c → c ∈ s.toll.alerting → exec (.sensorRead x v) s = .next u)
      ∧ (alertAt c - 6 < T → T < alertAt c → exec (.sensorRead x v) s = .next u)
      ∧ (T ≤ alertAt c - 6 → s.toll.alerting = [c] → ∃ t, exec (.sensorRead x v) s = .next t ∧ t.toll.alerting = []
        ∧ t.pkg = { s.pkg with alert := false }
        ∧ ∀ d ∈ s.dies, ∃ v, dieAt t d.code = { d with throttled := d.throttled && !isPier d.code, millivolts := v }
          ∧ v = if isPier d.code = true ∧ d.throttled = true then 620 + 5 * budgetStep d else d.millivolts))
    ∧ (∀ k v t, x = .stack k → k < s.hbm.footings.length → 170 < v → v < 190 → exec (.sensorRead x v) s = .next t →
      (stackAt t k).hotRefresh = true)
    ∧ (∃ t, exec (.sensorFailure x) s = .next t ∧ hasFailed t x = true
      ∧ (∀ c v, thermalSource x = some c → v < -80 ∨ 300 < v → exec (.sensorRead x v) s = .next t)
      ∧ (thermalSource x = none → t.dies = s.dies ∧ t.pkg = s.pkg ∧ t.toll.alerting = s.toll.alerting)
      ∧ (∀ k, x = .stack k → k < s.hbm.footings.length →
        (stackAt t k).hotRefresh = true ∧ 0x40 + k ∈ t.toll.alerting ∧ (0x40 + k ∉ s.toll.alerting → t.pkg.alert = true))
      ∧ (∀ k i, x = .pierJunction k i → k < 4 → (dieAt s (0x10 + k)).sensorFloor = false →
        if ((junctions (0x10 + k)).filter fun y => !hasFailed t y).length < 4 then
          (dieAt t (0x10 + k)).budget = floorOf (0x10 + k) ∧ (dieAt t (0x10 + k)).sensorFloor = true
        else t.dies = s.dies))

/-- Every reset takes contexts, queues, ports and pending work, and keeps the HBM bytes and the journal. A warm reset keeps powered
time, the log, where each time at the floor that it ends is recorded, and a thermal alert; a fall of PWR_OK or a rail below its minimum for more than 5 µs loses both; a pulse or dip that is too short does
nothing; a dip of VDD_HBM, and its rise, clear the RETAINED bits (R21 to R23, R283, R318, R396, R423, R424).
The model's own readings that enter: log 8, 36, 37, 86. -/
def Obligations.ResetsKeepWhatSurvives : Prop :=
  (∀ (s : State), s.pkg.pwrOk = true →
    (∃ t, exec .pwrOkFall s = .next t ∧ Cleared t ∧ t.pkg.pwrOk = false ∧ t.pkg.phase = .unpowered ∧ t.time = 0 ∧ t.toll.log = []
      ∧ t.toll.journal = s.toll.journal ∧ t.hbm.mem = s.hbm.mem ∧ t.pkg.oos = false)
    ∧ exec .pwrOkRise s = .next s
    ∧ (∀ r ns, 5000 < ns → ∃ t, exec (.railDip r ns) s = .next t ∧ Cleared t ∧ t.pkg.phase = .inReset ∧ t.pkg.resetCause = 0x03
      ∧ t.time = 0 ∧ t.toll.log = [] ∧ t.toll.journal = s.toll.journal ∧ (r ≠ .hbm → t.hbm.mem = s.hbm.mem)
      ∧ t.hbm.footings.map (·.retained) = s.hbm.footings.map fun K => r != .hbm && (K.retained || !K.selfRefresh))
    ∧ (∀ r ns, ns ≤ 5000 → r ≠ .hbm ∨ ns = 0 → exec (.railDip r ns) s = .next s)
    ∧ (∀ ns, 0 < ns → ns ≤ 5000 → exec (.railDip .hbm ns) s = exec .vddHbmRise s)
    ∧ (∀ ns, 2000 < ns → ∃ t, exec (.refclkLoss ns) s = .next t ∧ Cleared t ∧ t.pkg.resetCause = 0x03 ∧ t.time = 0
      ∧ t.toll.journal = (logError s 0x0045 0 sevFatal srcPackage 0xFF 0xFF []).toll.journal)
    ∧ (∀ ns, ns ≤ 2000 → exec (.refclkLoss ns) s = .next s)
    ∧ (∀ ns, ns < 10000 → exec (.pkgResetN ns) s = .next s)
    ∧ (∀ ns, 10000 ≤ ns → powered s = true → ∃ t, exec (.pkgResetN ns) s = .next t ∧ Cleared t ∧ t.pkg.phase = .inReset
      ∧ t.pkg.resetCause = 0x01 ∧ t.time = s.time
      ∧ t.toll.log = (s.dies.foldl leaveFloor s).toll.log ∧ t.toll.journal = (s.dies.foldl leaveFloor s).toll.journal
      ∧ ((∀ d ∈ s.dies, d.floorEntered = false) → t.toll.log = s.toll.log ∧ t.toll.journal = s.toll.journal)
      ∧ t.toll.table = nominalTable s.pkg.orderB ∧ t.toll.i3cAddr = s.toll.i3cAddr ∧ t.hbm.mem = s.hbm.mem ∧ t.pkg.oos = s.pkg.oos
      ∧ t.pkg.alert = s.pkg.alert ∧ t.toll.alerting = s.toll.alerting
      ∧ t.hbm.footings.map (·.retained) = s.hbm.footings.map (fun K => K.retained || !K.selfRefresh)
      ∧ (s.pkg.cable = true → exec .adapterResetRequest s = .next t)))
  ∧ (∀ (s : State), s.pkg.pwrOk = false → exec .pwrOkRise s =
      .next { s with time := 0, pkg := { s.pkg with pwrOk := true, phase := .inReset, resetCause := 0x00 } }
    ∧ exec .pwrOkFall s = .next s ∧ ∀ ns, exec (.pkgResetN ns) s = .next s)
  ∧ (∀ (s : State), s.pkg.cable = false → exec .adapterResetRequest s = .next s)
  ∧ ∀ (s : State), ∃ t, exec .vddHbmRise s = .next t
      ∧ t = { s with free := t.free, hbm := { s.hbm with
          mem := t.hbm.mem, footings := s.hbm.footings.map fun K => { K with retained := false } } }

/-- A boot that finds nothing amiss, whatever module resets it took, releases every die at its floor, clears the general regions, keeps
the spare regions but for the commit records, brings the ports to DETECT and the Tether up, and takes commands. It drops the generations
of both halves where a RETAINED bit reads 0. What it finds takes the package out of service: a die that the walk does not find where it
belongs, a link that lacks a version or a required capability, a silent regulator, whose tile stays in reset, a width; a ninth retry
stops the boot in its step (R17, R20, R267, R283, R367, R368, R370, R371, R426).
The model's own readings that enter: log 32, 38, 39, 87, 88, 109. -/
def Obligations.BootReachesRunning : Prop :=
  ∀ (s : State) (r : BootReport) (calm : Prop), s.pkg.pwrOk = true → s.pkg.phase = .inReset → s.Shaped → Memory.Wf s.hbm.mem →
    (calm ↔ s.pkg.holdDies = [] ∧ (∀ M ∈ s.modules, M.holdAttempts = none)
      ∧ ∀ x ∈ r.retries, ∃ a b, x.near = some a ∧ x.far = some b ∧ fullWidth a = true ∧ fullWidth b = true) →
    (∃ t, exec (.boot r) s = .next t ∧ t.time = s.time)
    ∧ (∀ x, r.retries[8]? = some x → ∃ t, exec (.boot r) s = .next t ∧ t.pkg.phase = .stopped ∧ t.pkg.oos = true
      ∧ t.pkg.ready = s.pkg.ready ∧ t.pkg.lastReset = s.pkg.lastReset ∧ t.pkg.bootStep = x.step
      ∧ (7 < x.step → calm → r.silentRegulators = [] → ∀ d ∈ t.dies, d.released = true))
    ∧ (r.retries.length ≤ 8 → ∃ t, exec (.boot r) s = .next t ∧ running t = true ∧ t.pkg.lastReset = s.pkg.resetCause
      ∧ t.pkg.heldTiles = r.silentRegulators
      ∧ (calm → ∀ d ∈ s.dies, (dieAt t d.code).released = (d.released || !r.silentRegulators.contains (tileOfDie d.code)))
      ∧ (r.silentRegulators ≠ [] → t.pkg.oos = true)
      ∧ (∀ k x, k ≤ 9 → (x ∈ readsAt k ∧ walkOk r s x = false) ∨ (x ∈ linkReads k ∧ walkOk r s x = true ∧ linkOk r s x = false) →
          t.pkg.oos = true))
    ∧ (r.retries.length ≤ 8 → calm → r.silentRegulators = [] → r.uncalibrated = [] →
      (∀ k x, (x ∈ readsAt k → walkOk r s x = true) ∧ (x ∈ linkReads k → linkOk r s x = true)) →
      (∀ i ∈ requiredModules, (bootRevision (dropOthers s.toll).journal i).isSome = true) →
      ∃ t, exec (.boot r) s = .next t ∧ running t = true ∧ t.pkg.bootStep = 11 ∧ t.pkg.ready = true
        ∧ t.tether.st = (if s.pkg.cable then .up else .down) ∧ t.toll.q = indexLimit (dropOthers s.toll)
        ∧ (∀ d ∈ t.dies, d.released = true ∧ d.budget = floorOf d.code ∧ d.atFloor = true)
        ∧ (∀ M ∈ t.modules, M.inLink = true)
        ∧ (s.pylon = .fresh → t.pylon.ports = List.replicate 64 { Port.fresh with st := .detect, since := s.time })
        ∧ (∀ a, inSpare a = false → t.hbm.mem.get a = 0)
        ∧ (∀ a, inSpare a = true → (∀ h ∈ [0, 1], ∀ k ∈ commitStacks, a < halfBase h k ∨ halfBase h k + 64 ≤ a) →
          t.hbm.mem.get a = s.hbm.mem.get a)
        ∧ (∀ K ∈ t.hbm.footings, K.selfRefresh = false)
        ∧ t.pkg.retained = s.hbm.footings.all (·.retained)
        ∧ (s.hbm.footings.all (·.retained) = false → ∀ h ∈ [0, 1], committed t h = false)
        ∧ (s.hbm.footings.all (·.retained) = true → ∀ h ∈ [0, 1], committed t h = committed s h
          ∧ commitAt t h 0 = commitAt s h 0 ∧ (committed s h = true → commitAt t h 6 = commitAt s h 0))
        ∧ (r.narrowModules = [] → r.untrainedChannels = [] → t.pkg.oos = s.pkg.oos)
        ∧ (s.pkg.oos = false → (r.narrowModules ≠ [] ∨ r.untrainedChannels ≠ []) →
          t.pkg.oos = true ∧ t.pkg.oosCode = stWidthMismatch))

/-- A module reset takes the module out of its link; two full-width reports bring it back; equal or slow reports take the package out
of service; reports that disagree hold the dies at its ends in reset and fault every running context. A die hold ends as one, once
no module of it retrains: its dies are released at their floors, Joint-F calibrated, and their ports, no others, go to DETECT; or, at its
third failed attempt, out of service (R17, R361, R364, R372 to R374, R378).
The model's own readings that enter: log 38, 40. -/
def Obligations.ModulesResetAndHold : Prop :=
  ∀ (s : State) (m : Nat) (x : Module), running s = true → s.modules[m]? = some x →
    (x.inLink = true → (moduleDies m).any (holdsDie s) = false → exec (.moduleReset m) s =
      .next (count (modModule s m fun y => { y with inLink := false, resetting := true, holdAttempts := none }) 6 m 1 1))
    ∧ (x.inLink = true → (moduleDies m).any (holdsDie s) = true → exec (.moduleReset m) s =
      .next (count (modModule s m fun y => { y with inLink := false, resetting := false, holdAttempts := some 0 }) 6 m 1 1))
    ∧ (x.inLink = false → exec (.moduleReset m) s = .next s)
    ∧ (∀ near far u, x.resetting = true → u = logError s 0x0030 0 sevInfo srcPackage m 0xFF (widthDetail m near far) →
      (fullWidth near = true → fullWidth far = true → exec (.moduleWidthReport m near far) s =
        .next (modModule u m fun y => { y with inLink := true, resetting := false, holdAttempts := none }))
      ∧ (fullWidth near = false ∨ fullWidth far = false → near.rate < 32 ∨ far.rate < 32 ∨ near.lanes = far.lanes →
        ∃ t, exec (.moduleWidthReport m near far) s = .next t ∧ t.modules[m]? = some { x with resetting := false } ∧ t.pkg.oos = true
          ∧ (s.pkg.oos = false → t.pkg.oosCode = stWidthMismatch) ∧ t = { s with toll := t.toll, pkg := t.pkg, modules := t.modules })
      ∧ (32 ≤ near.rate → 32 ≤ far.rate → near.lanes ≠ far.lanes → s.Shaped →
        ∃ t, exec (.moduleWidthReport m near far) s = .next t ∧ t.modules[m]? = some { x with resetting := false, holdAttempts := some 0 }
          ∧ (∀ d ∈ t.dies, d.code ∈ moduleDies m → d.released = false) ∧ (∀ c ∈ moduleDies m, holdsDie t c = true)
          ∧ (∀ p P, t.pylon.ports[p]? = some P → 0x20 + portTile p ∈ moduleDies m → P = .fresh)
          ∧ ∀ n p, progAt s n = some p → p.st ≠ .faulted →
            (ctxAt t n).map (·.faultStatus) = some stContextFault ∧ (progAt t n).map (·.st) = some .faulted))
    ∧ ∀ near far e k u, far = e.width → x.holdAttempts = some k → k < 3 → u = logError s 0x0031 0 sevInfo srcPackage m 0xFF [m, k + 1] →
      (fullWidth near = true → fullWidth far = true → s.Shaped →
        ∃ t, exec (.dieHoldAttemptEnd m near e) s = .next t
          ∧ t.modules[m]? = some { inLink := true, resetting := false, holdAttempts := none }
          ∧ ((∃ j y, j ≠ m ∧ s.modules[j]? = some y ∧ y.holdAttempts.isSome = true) → t.dies = s.dies ∧ t.pylon = s.pylon
            ∧ t.pkg = s.pkg)
          ∧ ((∀ j, j ≠ m → ∀ y, s.modules[j]? = some y → y.holdAttempts = none) → 7 ≤ s.pkg.bootStep → t.pkg.holdDies = []
            ∧ (∀ d ∈ t.dies, d.code ∈ s.pkg.holdDies → tileOfDie d.code ∉ s.pkg.heldTiles → d.released = true ∧ d.budget = floorOf d.code)
            ∧ (∀ p P, s.pylon.ports[p]? = some P → t.pylon.ports[p]? = some
                (if 0x20 + portTile p ∈ s.pkg.holdDies ∧ (dieAt t (0x20 + portTile p)).released = true ∧ P.st = .disabled then
                  { P with st := .detect, since := s.time } else P))
            ∧ ((∃ c ∈ e.uncalibrated, ∃ d ∈ s.pkg.holdDies, d < 0x30 ∧ tileOfDie d = c.1) → t.pkg.oos = true)))
      ∧ (32 ≤ near.rate → 32 ≤ far.rate → near.lanes ≠ far.lanes → k < 2 → exec (.dieHoldAttemptEnd m near e) s =
        .next (modModule u m fun y => { y with holdAttempts := some (k + 1) }))
      ∧ (32 ≤ near.rate → 32 ≤ far.rate → near.lanes ≠ far.lanes → k = 2 →
        ∃ t, exec (.dieHoldAttemptEnd m near e) s = .next t ∧ t.pkg.oos = true ∧ t.modules[m]? = some { x with holdAttempts := some 3 })

/-! ### Faults, formats, steps -/

/-- A context whose program faults keeps the status; its program stops, its queues are FAULTED, its bound links and associations fail,
and its last step report goes to the queue of its LAUNCH with the status and LAST set (R50, R181, R189, R333, R347).
The model's own readings that enter: log 59. -/
def Obligations.FaultEndsProgramWithReport : Prop :=
  ∀ (s t : State) (n st : Nat) (c : Context) (p : Program), ctxAt s n = some c → c.program = some p → p.st ≠ .faulted →
    t = faultContext s n st →
    (ctxAt t n).map (·.faultStatus) = some st ∧ (progAt t n).map (·.st) = some .faulted
    ∧ (∀ x, progAt t n = some x → ∀ Q ∈ x.queues, Q.st = .faulted)
    ∧ (∀ q L, linkAt s n q = some L → L.st = .bound ∨ L.st = .binding → (linkAt t n q).map (·.st) = some .failed)
    ∧ (∀ k A, assocAt s n k = some A → A.st = .bound ∨ A.st = .binding → (assocAt t n k).map (·.st) = some .failed)
    ∧ (∀ m, m ≠ n → ctxAt t m = ctxAt s m)
    ∧ (s.caisson.run = none → c.sampling = none → s.cmds = [] → s.aborts = [] → (queueAt s p.launchQ).held = [] →
      cplRoom (queueAt s p.launchQ) = true → s.apr.feeds = [] → ∀ Q, Q = queueAt s p.launchQ → p.launchQ < s.queues.length →
      t.tether.posted = s.tether.posted ++ [
        { addr := ringBase Q.cplLo Q.cplHi + (Q.chead % cplEntries Q) * 32
          bytes := encodeCpl p.launchQ (Q.chead / cplEntries Q) s.time
            { opcode := 0x0302, status := st, kind := 1, context := n, last := true, seq := p.launchSeq
              p := [c.step, byteOfInt ((p.verdict.map (·.2.1)).getD c.ls.exp) + byteOfInt ((p.verdict.map (·.2.2)).getD c.ls.exp) * 256,
                c.version, 0] }
          last := add32 s.tether.nextFlit 0, reply := true }]
      ∧ (queueAt t p.launchQ).chead = add32 Q.chead 1 ∧ t.hbm = s.hbm ∧ t.piers = s.piers)

/-- A descriptor takes 64 bytes, little-endian, with its fields at the offsets of R184 and its reserved bits 0; the origin that ADMIT
fixes holds the package ID and the local stage index, or UNSET; a segment table entry 8 bytes with those of R185; reading
either back gives every field as written. -/
def Obligations.DescriptorsReadBack : Prop :=
  (∀ d : Desc, d.mbId < 2 ^ 32 → d.step < 2 ^ 32 → d.feedTag < 2 ^ 32 → d.tokens < 2 ^ 32 → d.payloadBytes < 2 ^ 32 →
    d.version < 2 ^ 32 → d.segCount < 65536 → d.origin < 2 ^ 32 →
    decodeDesc (encodeDesc d) = d ∧ (encodeDesc d).length = 64
    ∧ field (encodeDesc d) 0x00 4 = d.mbId ∧ field (encodeDesc d) 0x04 4 = d.step ∧ field (encodeDesc d) 0x08 4 = d.feedTag
    ∧ field (encodeDesc d) 0x0C 4 = d.tokens ∧ field (encodeDesc d) 0x10 4 = d.payloadBytes ∧ field (encodeDesc d) 0x14 4 = d.version
    ∧ field (encodeDesc d) 0x18 2 = d.segCount ∧ bit (field (encodeDesc d) 0x1A 1) 0 = d.last ∧ bit (field (encodeDesc d) 0x1A 1) 1 = d.bwd
    ∧ bit (field (encodeDesc d) 0x1A 1) 2 = d.joined ∧ field (encodeDesc d) 0x1A 1 < 8 ∧ field (encodeDesc d) 0x1B 1 = 0 ∧ field (encodeDesc d) 0x1C 4 = d.origin
    ∧ zeroField (encodeDesc d) 0x20 32 = true)
  ∧ (∀ (s : State) (k : Nat), k < 16 →
    (∀ p, s.pylon.pkgId = some p → p < 4096 → bits (originWord s k) 11 0 = p ∧ bits (originWord s k) 15 12 = k ∧ originWord s k < 2 ^ 16)
    ∧ (s.pylon.pkgId = none → bits (originWord s k) 11 0 = 0 ∧ bits (originWord s k) 15 12 = k ∧ originWord s k / 2 ^ 16 = 1))
  ∧ (∀ g : Seg, g.length < 2 ^ 32 → g.segId < 65536 → g.modality < 256 →
    decodeSeg (encodeSeg g) = g ∧ (encodeSeg g).length = 8 ∧ field (encodeSeg g) 0 4 = g.length ∧ field (encodeSeg g) 4 2 = g.segId
    ∧ field (encodeSeg g) 6 1 = g.modality ∧ field (encodeSeg g) 7 1 = 0)
  ∧ ∀ b : List Byte, b.length = 8 → field b 7 1 = 0 → encodeSeg (decodeSeg b) = b

/-- A step takes the command at the front of the queue and runs it with the rest; with an empty queue the model idles: powered time
rises by the 10 ns of one period of the reference clock where the block is powered, with the counters that time moves, some of the sample
records that wait may be written, and nothing else changes. The idle period is the model's choice (log 7), and so is how far the counters
of waits move and how many records are written (log 43, 52). -/
def Obligations.StepRunsTheFrontCommand : Prop :=
  (∀ (s : State) (c : Instr), step { s with pending := c :: s.pending } = exec c s)
  ∧ (∀ (s : State) (c : Instr) (rest : List Instr), s.pending = c :: rest → step s = exec c { s with pending := rest })
  ∧ ∀ (s : State), s.pending = [] → (powered s = false → step s = .next s)
    ∧ (powered s = true → ∃ u, step s = .next ((List.range 16).foldl drainRecords u)
      ∧ u.time = s.time + 10 ∧ u = { s with time := u.time, ctxs := u.ctxs, counters := u.counters, waits := u.waits, free := u.free }
      ∧ (∀ n, ∃ k w a, ctxAt u n = (ctxAt s n).map fun c => { c with counters := k, waits := w, activeNs := a })
      ∧ ((∀ n, n < 16 → waitingRecords s n = 0) → step s = .next u))

/-- Every step completes: it answers a next state, takes at most the front command from the queue, leaves every part of the package
in the number the spec gives, and HBM, host memory, the staged package and the scratchpads in canonical form.
The model's own readings that enter: log 7. -/
def Obligations.StepKeepsShapeAndMemories : Prop :=
  ∀ (s : State), s.Shaped → s.MemoriesWf → ∃ t, step s = .next t ∧ t.pending = s.pending.tail ∧ t.Shaped ∧ t.MemoriesWf

/-- No step lets the next identity index pass the committed limit or, of a store with one epoch, lowers the limit, none lets the error log grow beyond its 8,192
entries, and none more than 16 slices wait (R348, R393, R402).
The model's own readings that enter: log 7. -/
def Obligations.StepKeepsIndexAndRings : Prop :=
  ∀ (s t : State), step s = .next t →
    (s.IndexReserved → t.IndexReserved) ∧ (OneEpoch s.toll → indexLimit s.toll ≤ indexLimit t.toll) ∧ (s.Bounded → t.Bounded)

/-- Right after a cold reset no context exists, every queue is stopped and disabled with its registers 0, every port is DISABLED with no
route and no package ID, no counter has counted, the error log is empty and powered time is 0; the invariants of a step hold.
The model's own readings that enter: log 1, 5, 6, 8. -/
def Obligations.ResetStateIsSound : Prop :=
  State.reset.Shaped ∧ State.reset.MemoriesWf ∧ State.reset.IndexReserved ∧ State.reset.Bounded
    ∧ State.reset.pending = [] ∧ State.reset.time = 0 ∧ (∀ n, ctxAt State.reset n = none)
    ∧ (∀ Q ∈ State.reset.queues, Q.enable = false ∧ Q.stopped = true ∧ Q.ringLo = 0 ∧ Q.ringHi = 0 ∧ Q.cplLo = 0 ∧ Q.cplHi = 0
      ∧ Q.head = 0 ∧ Q.chead = 0 ∧ Q.ctail = 0 ∧ Q.cause = 0)
    ∧ (∀ P ∈ State.reset.pylon.ports, P.st = .disabled) ∧ State.reset.pylon.routes = [] ∧ State.reset.pylon.pkgId = none
    ∧ State.reset.counters = [] ∧ State.reset.waits = [] ∧ State.reset.toll.log = [] ∧ State.reset.toll.logSeq = 1 ∧ State.reset.cmds = []
    ∧ (∀ a, State.reset.hbm.mem.get a = 0)
end

