-- ==== Sys2Proof/Laws/Bytes.lean ====
section
/-! SUPPORT. Little-endian fields: what a field reads of bytes that were written field by field (R5). -/

namespace Sys2Proof.Machine

theorem leBytes_length (n v : Nat) : (leBytes n v).length = n := by
  induction n generalizing v with
  | zero => rfl
  | succ n ih => simp [leBytes, ih]

theorem leNat_leBytes (n v : Nat) : leNat (leBytes n v) = v % 256 ^ n := by
  induction n generalizing v with
  | zero => simp [leBytes, leNat, Nat.mod_one]
  | succ n ih =>
    rw [leBytes, leNat, ih]
    rw [pow_succ', Nat.mod_mul]
    simp

theorem field_front (n v : Nat) (r : List Byte) : field (leBytes n v ++ r) 0 n = v % 256 ^ n := by
  unfold field slice
  rw [List.drop_zero, List.take_append_of_le_length (by rw [leBytes_length]), List.take_of_length_le (by rw [leBytes_length])]
  exact leNat_leBytes n v

theorem field_skip (m v o n : Nat) (r : List Byte) : field (leBytes m v ++ r) (m + o) n = field r o n := by
  unfold field slice
  rw [List.drop_append, leBytes_length, List.drop_of_length_le (by rw [leBytes_length]; omega), List.nil_append]
  congr 3; omega

theorem leNat_lt (l : List Byte) : leNat l < 256 ^ l.length := by
  induction l with
  | nil => simp [leNat]
  | cons b l ih =>
    simp only [leNat, List.length_cons, pow_succ]
    have := b.isLt
    omega

end Sys2Proof.Machine
end

