-- ==== Sys2Proof/Laws/Parts.lean ====
section
/-! SUPPORT. Reading a part of the state after a part of it has changed: piers, contexts, programs, host queues, ports,
stacks. -/

namespace Sys2Proof.Machine

/-! ### Piers -/

@[simp] theorem pierAt_id (s : State) (p : Nat) : (pierAt s p).id = p := by
  unfold pierAt
  cases h : s.piers.find? fun x => decide (x.id = p) with
  | none => rfl
  | some P => exact of_decide_eq_true (List.find?_some (p := fun x : Pier => decide (x.id = p)) h)

theorem find_putPier (l : List Pier) (x : Pier) (q : Nat) :
    (putPier l x).find? (fun y => decide (y.id = q)) = if x.id = q then some x else l.find? fun y => decide (y.id = q) := by
  induction l with
  | nil => by_cases h : x.id = q <;> simp [putPier, h]
  | cons y l ih =>
    unfold putPier
    split
    · by_cases h : x.id = q <;> simp [h]
    · split
      · rename_i _ e
        by_cases h : x.id = q
        · simp [h]
        · have : ¬ y.id = q := fun c => h (e.trans c)
          simp [h, this]
      · rename_i _ e
        by_cases h : y.id = q
        · have : ¬ x.id = q := fun c => e (c.trans h.symm)
          simp [h, this]
        · simp [h, ih]

theorem pierAt_setPier (s : State) (x : Pier) (q : Nat) : pierAt (setPier s x) q = if x.id = q then x else pierAt s q := by
  unfold pierAt
  simp only [setPier, find_putPier]
  split <;> simp_all

theorem pierAt_modPier (s : State) (p q : Nat) (f : Pier → Pier) (hf : (f (pierAt s p)).id = p) :
    pierAt (modPier s p f) q = if p = q then f (pierAt s p) else pierAt s q := by
  unfold modPier
  rw [pierAt_setPier, hf]

/-! ### Lists of parts -/

theorem getElem?_modAt {α : Type} (l : List α) (i j : Nat) (f : α → α) :
    (modAt l i f)[j]? = if i = j then (l[j]?).map f else l[j]? := by
  induction l generalizing i j with
  | nil => simp [modAt]
  | cons x l ih => cases i <;> cases j <;> simp [modAt, ih]

/-! ### Contexts and programs -/

theorem ctxAt_modCtx (s : State) (n m : Nat) (f : Context → Context) :
    ctxAt (modCtx s n f) m = if n = m then (ctxAt s m).map f else ctxAt s m := by
  unfold ctxAt modCtx
  simp only [getElem?_modAt]
  split
  · cases h : s.ctxs[m]? with
    | none => rfl
    | some c => cases c <;> rfl
  · rfl

theorem ctxAt_setCtx (s : State) (n m : Nat) (c : Option Context) (hn : n < s.ctxs.length) :
    ctxAt (setCtx s n c) m = if n = m then c else ctxAt s m := by
  unfold ctxAt setCtx
  by_cases h : n = m
  · subst h; simp [hn]
  · simp [h]

theorem progAt_modProg (s : State) (n m : Nat) (f : Program → Program) :
    progAt (modProg s n f) m = if n = m then (progAt s m).map f else progAt s m := by
  unfold progAt modProg
  rw [ctxAt_modCtx]
  split
  · cases ctxAt s m <;> rfl
  · rfl

/-! ### Host queues, ports, stacks -/

theorem queueAt_modQueue (s : State) (q r : Nat) (f : HostQueue → HostQueue) (h : r < s.queues.length) :
    queueAt (modQueue s q f) r = if q = r then f (queueAt s r) else queueAt s r := by
  unfold queueAt modQueue
  simp only [List.getD_eq_getElem?_getD, getElem?_modAt]
  split <;> simp [h]

theorem portAt_modPort (s : State) (p r : Nat) (f : Port → Port) (h : r < s.pylon.ports.length) :
    portAt (modPort s p f) r = if p = r then f (portAt s r) else portAt s r := by
  unfold portAt modPort
  simp only [List.getD_eq_getElem?_getD, getElem?_modAt]
  split <;> simp [h]

theorem stackAt_modStack (s : State) (k r : Nat) (f : Stack → Stack) (h : r < s.hbm.footings.length) :
    stackAt (modStack s k f) r = if k = r then f (stackAt s r) else stackAt s r := by
  unfold stackAt modStack
  simp only [List.getD_eq_getElem?_getD, getElem?_modAt]
  split <;> simp [h]

end Sys2Proof.Machine
end

