-- ==== Sys2Proof/Laws/State.lean ====
section
/-! SUPPORT. Each update of the state leaves the other fields as they are. -/

namespace Sys2Proof.Machine

variable (s : State)

@[simp] theorem setCtx_pending (n : Nat) (c : Option Context) : (setCtx s n c).pending = s.pending := rfl
@[simp] theorem setCtx_time (n : Nat) (c : Option Context) : (setCtx s n c).time = s.time := rfl
@[simp] theorem setCtx_pkg (n : Nat) (c : Option Context) : (setCtx s n c).pkg = s.pkg := rfl
@[simp] theorem setCtx_toll (n : Nat) (c : Option Context) : (setCtx s n c).toll = s.toll := rfl
@[simp] theorem setCtx_dies (n : Nat) (c : Option Context) : (setCtx s n c).dies = s.dies := rfl
@[simp] theorem setCtx_modules (n : Nat) (c : Option Context) : (setCtx s n c).modules = s.modules := rfl
@[simp] theorem setCtx_tether (n : Nat) (c : Option Context) : (setCtx s n c).tether = s.tether := rfl
@[simp] theorem setCtx_queues (n : Nat) (c : Option Context) : (setCtx s n c).queues = s.queues := rfl
@[simp] theorem setCtx_cmds (n : Nat) (c : Option Context) : (setCtx s n c).cmds = s.cmds := rfl
@[simp] theorem setCtx_aborts (n : Nat) (c : Option Context) : (setCtx s n c).aborts = s.aborts := rfl
@[simp] theorem setCtx_sched (n : Nat) (c : Option Context) : (setCtx s n c).sched = s.sched := rfl
@[simp] theorem setCtx_hbm (n : Nat) (c : Option Context) : (setCtx s n c).hbm = s.hbm := rfl
@[simp] theorem setCtx_piers (n : Nat) (c : Option Context) : (setCtx s n c).piers = s.piers := rfl
@[simp] theorem setCtx_caisson (n : Nat) (c : Option Context) : (setCtx s n c).caisson = s.caisson := rfl
@[simp] theorem setCtx_pylon (n : Nat) (c : Option Context) : (setCtx s n c).pylon = s.pylon := rfl
@[simp] theorem setCtx_apr (n : Nat) (c : Option Context) : (setCtx s n c).apr = s.apr := rfl
@[simp] theorem setCtx_counters (n : Nat) (c : Option Context) : (setCtx s n c).counters = s.counters := rfl
@[simp] theorem setCtx_waits (n : Nat) (c : Option Context) : (setCtx s n c).waits = s.waits := rfl
@[simp] theorem setCtx_free (n : Nat) (c : Option Context) : (setCtx s n c).free = s.free := rfl

@[simp] theorem modCtx_pending (n : Nat) (f : Context → Context) : (modCtx s n f).pending = s.pending := rfl
@[simp] theorem modCtx_time (n : Nat) (f : Context → Context) : (modCtx s n f).time = s.time := rfl
@[simp] theorem modCtx_pkg (n : Nat) (f : Context → Context) : (modCtx s n f).pkg = s.pkg := rfl
@[simp] theorem modCtx_toll (n : Nat) (f : Context → Context) : (modCtx s n f).toll = s.toll := rfl
@[simp] theorem modCtx_dies (n : Nat) (f : Context → Context) : (modCtx s n f).dies = s.dies := rfl
@[simp] theorem modCtx_modules (n : Nat) (f : Context → Context) : (modCtx s n f).modules = s.modules := rfl
@[simp] theorem modCtx_tether (n : Nat) (f : Context → Context) : (modCtx s n f).tether = s.tether := rfl
@[simp] theorem modCtx_queues (n : Nat) (f : Context → Context) : (modCtx s n f).queues = s.queues := rfl
@[simp] theorem modCtx_cmds (n : Nat) (f : Context → Context) : (modCtx s n f).cmds = s.cmds := rfl
@[simp] theorem modCtx_aborts (n : Nat) (f : Context → Context) : (modCtx s n f).aborts = s.aborts := rfl
@[simp] theorem modCtx_sched (n : Nat) (f : Context → Context) : (modCtx s n f).sched = s.sched := rfl
@[simp] theorem modCtx_hbm (n : Nat) (f : Context → Context) : (modCtx s n f).hbm = s.hbm := rfl
@[simp] theorem modCtx_piers (n : Nat) (f : Context → Context) : (modCtx s n f).piers = s.piers := rfl
@[simp] theorem modCtx_caisson (n : Nat) (f : Context → Context) : (modCtx s n f).caisson = s.caisson := rfl
@[simp] theorem modCtx_pylon (n : Nat) (f : Context → Context) : (modCtx s n f).pylon = s.pylon := rfl
@[simp] theorem modCtx_apr (n : Nat) (f : Context → Context) : (modCtx s n f).apr = s.apr := rfl
@[simp] theorem modCtx_counters (n : Nat) (f : Context → Context) : (modCtx s n f).counters = s.counters := rfl
@[simp] theorem modCtx_waits (n : Nat) (f : Context → Context) : (modCtx s n f).waits = s.waits := rfl
@[simp] theorem modCtx_free (n : Nat) (f : Context → Context) : (modCtx s n f).free = s.free := rfl

@[simp] theorem modProg_pending (n : Nat) (f : Program → Program) : (modProg s n f).pending = s.pending := rfl
@[simp] theorem modProg_time (n : Nat) (f : Program → Program) : (modProg s n f).time = s.time := rfl
@[simp] theorem modProg_pkg (n : Nat) (f : Program → Program) : (modProg s n f).pkg = s.pkg := rfl
@[simp] theorem modProg_toll (n : Nat) (f : Program → Program) : (modProg s n f).toll = s.toll := rfl
@[simp] theorem modProg_dies (n : Nat) (f : Program → Program) : (modProg s n f).dies = s.dies := rfl
@[simp] theorem modProg_modules (n : Nat) (f : Program → Program) : (modProg s n f).modules = s.modules := rfl
@[simp] theorem modProg_tether (n : Nat) (f : Program → Program) : (modProg s n f).tether = s.tether := rfl
@[simp] theorem modProg_queues (n : Nat) (f : Program → Program) : (modProg s n f).queues = s.queues := rfl
@[simp] theorem modProg_cmds (n : Nat) (f : Program → Program) : (modProg s n f).cmds = s.cmds := rfl
@[simp] theorem modProg_aborts (n : Nat) (f : Program → Program) : (modProg s n f).aborts = s.aborts := rfl
@[simp] theorem modProg_sched (n : Nat) (f : Program → Program) : (modProg s n f).sched = s.sched := rfl
@[simp] theorem modProg_hbm (n : Nat) (f : Program → Program) : (modProg s n f).hbm = s.hbm := rfl
@[simp] theorem modProg_piers (n : Nat) (f : Program → Program) : (modProg s n f).piers = s.piers := rfl
@[simp] theorem modProg_caisson (n : Nat) (f : Program → Program) : (modProg s n f).caisson = s.caisson := rfl
@[simp] theorem modProg_pylon (n : Nat) (f : Program → Program) : (modProg s n f).pylon = s.pylon := rfl
@[simp] theorem modProg_apr (n : Nat) (f : Program → Program) : (modProg s n f).apr = s.apr := rfl
@[simp] theorem modProg_counters (n : Nat) (f : Program → Program) : (modProg s n f).counters = s.counters := rfl
@[simp] theorem modProg_waits (n : Nat) (f : Program → Program) : (modProg s n f).waits = s.waits := rfl
@[simp] theorem modProg_free (n : Nat) (f : Program → Program) : (modProg s n f).free = s.free := rfl

@[simp] theorem modQueue_pending (q : Nat) (f : HostQueue → HostQueue) : (modQueue s q f).pending = s.pending := rfl
@[simp] theorem modQueue_time (q : Nat) (f : HostQueue → HostQueue) : (modQueue s q f).time = s.time := rfl
@[simp] theorem modQueue_pkg (q : Nat) (f : HostQueue → HostQueue) : (modQueue s q f).pkg = s.pkg := rfl
@[simp] theorem modQueue_toll (q : Nat) (f : HostQueue → HostQueue) : (modQueue s q f).toll = s.toll := rfl
@[simp] theorem modQueue_dies (q : Nat) (f : HostQueue → HostQueue) : (modQueue s q f).dies = s.dies := rfl
@[simp] theorem modQueue_modules (q : Nat) (f : HostQueue → HostQueue) : (modQueue s q f).modules = s.modules := rfl
@[simp] theorem modQueue_tether (q : Nat) (f : HostQueue → HostQueue) : (modQueue s q f).tether = s.tether := rfl
@[simp] theorem modQueue_cmds (q : Nat) (f : HostQueue → HostQueue) : (modQueue s q f).cmds = s.cmds := rfl
@[simp] theorem modQueue_aborts (q : Nat) (f : HostQueue → HostQueue) : (modQueue s q f).aborts = s.aborts := rfl
@[simp] theorem modQueue_ctxs (q : Nat) (f : HostQueue → HostQueue) : (modQueue s q f).ctxs = s.ctxs := rfl
@[simp] theorem modQueue_sched (q : Nat) (f : HostQueue → HostQueue) : (modQueue s q f).sched = s.sched := rfl
@[simp] theorem modQueue_hbm (q : Nat) (f : HostQueue → HostQueue) : (modQueue s q f).hbm = s.hbm := rfl
@[simp] theorem modQueue_piers (q : Nat) (f : HostQueue → HostQueue) : (modQueue s q f).piers = s.piers := rfl
@[simp] theorem modQueue_caisson (q : Nat) (f : HostQueue → HostQueue) : (modQueue s q f).caisson = s.caisson := rfl
@[simp] theorem modQueue_pylon (q : Nat) (f : HostQueue → HostQueue) : (modQueue s q f).pylon = s.pylon := rfl
@[simp] theorem modQueue_apr (q : Nat) (f : HostQueue → HostQueue) : (modQueue s q f).apr = s.apr := rfl
@[simp] theorem modQueue_counters (q : Nat) (f : HostQueue → HostQueue) : (modQueue s q f).counters = s.counters := rfl
@[simp] theorem modQueue_waits (q : Nat) (f : HostQueue → HostQueue) : (modQueue s q f).waits = s.waits := rfl
@[simp] theorem modQueue_free (q : Nat) (f : HostQueue → HostQueue) : (modQueue s q f).free = s.free := rfl

@[simp] theorem modPort_pending (p : Nat) (f : Port → Port) : (modPort s p f).pending = s.pending := rfl
@[simp] theorem modPort_time (p : Nat) (f : Port → Port) : (modPort s p f).time = s.time := rfl
@[simp] theorem modPort_pkg (p : Nat) (f : Port → Port) : (modPort s p f).pkg = s.pkg := rfl
@[simp] theorem modPort_toll (p : Nat) (f : Port → Port) : (modPort s p f).toll = s.toll := rfl
@[simp] theorem modPort_dies (p : Nat) (f : Port → Port) : (modPort s p f).dies = s.dies := rfl
@[simp] theorem modPort_modules (p : Nat) (f : Port → Port) : (modPort s p f).modules = s.modules := rfl
@[simp] theorem modPort_tether (p : Nat) (f : Port → Port) : (modPort s p f).tether = s.tether := rfl
@[simp] theorem modPort_queues (p : Nat) (f : Port → Port) : (modPort s p f).queues = s.queues := rfl
@[simp] theorem modPort_cmds (p : Nat) (f : Port → Port) : (modPort s p f).cmds = s.cmds := rfl
@[simp] theorem modPort_aborts (p : Nat) (f : Port → Port) : (modPort s p f).aborts = s.aborts := rfl
@[simp] theorem modPort_ctxs (p : Nat) (f : Port → Port) : (modPort s p f).ctxs = s.ctxs := rfl
@[simp] theorem modPort_sched (p : Nat) (f : Port → Port) : (modPort s p f).sched = s.sched := rfl
@[simp] theorem modPort_hbm (p : Nat) (f : Port → Port) : (modPort s p f).hbm = s.hbm := rfl
@[simp] theorem modPort_piers (p : Nat) (f : Port → Port) : (modPort s p f).piers = s.piers := rfl
@[simp] theorem modPort_caisson (p : Nat) (f : Port → Port) : (modPort s p f).caisson = s.caisson := rfl
@[simp] theorem modPort_apr (p : Nat) (f : Port → Port) : (modPort s p f).apr = s.apr := rfl
@[simp] theorem modPort_counters (p : Nat) (f : Port → Port) : (modPort s p f).counters = s.counters := rfl
@[simp] theorem modPort_waits (p : Nat) (f : Port → Port) : (modPort s p f).waits = s.waits := rfl
@[simp] theorem modPort_free (p : Nat) (f : Port → Port) : (modPort s p f).free = s.free := rfl

@[simp] theorem modStack_pending (k : Nat) (f : Stack → Stack) : (modStack s k f).pending = s.pending := rfl
@[simp] theorem modStack_time (k : Nat) (f : Stack → Stack) : (modStack s k f).time = s.time := rfl
@[simp] theorem modStack_pkg (k : Nat) (f : Stack → Stack) : (modStack s k f).pkg = s.pkg := rfl
@[simp] theorem modStack_toll (k : Nat) (f : Stack → Stack) : (modStack s k f).toll = s.toll := rfl
@[simp] theorem modStack_dies (k : Nat) (f : Stack → Stack) : (modStack s k f).dies = s.dies := rfl
@[simp] theorem modStack_modules (k : Nat) (f : Stack → Stack) : (modStack s k f).modules = s.modules := rfl
@[simp] theorem modStack_tether (k : Nat) (f : Stack → Stack) : (modStack s k f).tether = s.tether := rfl
@[simp] theorem modStack_queues (k : Nat) (f : Stack → Stack) : (modStack s k f).queues = s.queues := rfl
@[simp] theorem modStack_cmds (k : Nat) (f : Stack → Stack) : (modStack s k f).cmds = s.cmds := rfl
@[simp] theorem modStack_aborts (k : Nat) (f : Stack → Stack) : (modStack s k f).aborts = s.aborts := rfl
@[simp] theorem modStack_ctxs (k : Nat) (f : Stack → Stack) : (modStack s k f).ctxs = s.ctxs := rfl
@[simp] theorem modStack_sched (k : Nat) (f : Stack → Stack) : (modStack s k f).sched = s.sched := rfl
@[simp] theorem modStack_piers (k : Nat) (f : Stack → Stack) : (modStack s k f).piers = s.piers := rfl
@[simp] theorem modStack_caisson (k : Nat) (f : Stack → Stack) : (modStack s k f).caisson = s.caisson := rfl
@[simp] theorem modStack_pylon (k : Nat) (f : Stack → Stack) : (modStack s k f).pylon = s.pylon := rfl
@[simp] theorem modStack_apr (k : Nat) (f : Stack → Stack) : (modStack s k f).apr = s.apr := rfl
@[simp] theorem modStack_counters (k : Nat) (f : Stack → Stack) : (modStack s k f).counters = s.counters := rfl
@[simp] theorem modStack_waits (k : Nat) (f : Stack → Stack) : (modStack s k f).waits = s.waits := rfl
@[simp] theorem modStack_free (k : Nat) (f : Stack → Stack) : (modStack s k f).free = s.free := rfl

@[simp] theorem modDie_pending (k : Nat) (f : Die → Die) : (modDie s k f).pending = s.pending := rfl
@[simp] theorem modDie_time (k : Nat) (f : Die → Die) : (modDie s k f).time = s.time := rfl
@[simp] theorem modDie_pkg (k : Nat) (f : Die → Die) : (modDie s k f).pkg = s.pkg := rfl
@[simp] theorem modDie_toll (k : Nat) (f : Die → Die) : (modDie s k f).toll = s.toll := rfl
@[simp] theorem modDie_modules (k : Nat) (f : Die → Die) : (modDie s k f).modules = s.modules := rfl
@[simp] theorem modDie_tether (k : Nat) (f : Die → Die) : (modDie s k f).tether = s.tether := rfl
@[simp] theorem modDie_queues (k : Nat) (f : Die → Die) : (modDie s k f).queues = s.queues := rfl
@[simp] theorem modDie_cmds (k : Nat) (f : Die → Die) : (modDie s k f).cmds = s.cmds := rfl
@[simp] theorem modDie_aborts (k : Nat) (f : Die → Die) : (modDie s k f).aborts = s.aborts := rfl
@[simp] theorem modDie_ctxs (k : Nat) (f : Die → Die) : (modDie s k f).ctxs = s.ctxs := rfl
@[simp] theorem modDie_sched (k : Nat) (f : Die → Die) : (modDie s k f).sched = s.sched := rfl
@[simp] theorem modDie_hbm (k : Nat) (f : Die → Die) : (modDie s k f).hbm = s.hbm := rfl
@[simp] theorem modDie_piers (k : Nat) (f : Die → Die) : (modDie s k f).piers = s.piers := rfl
@[simp] theorem modDie_caisson (k : Nat) (f : Die → Die) : (modDie s k f).caisson = s.caisson := rfl
@[simp] theorem modDie_pylon (k : Nat) (f : Die → Die) : (modDie s k f).pylon = s.pylon := rfl
@[simp] theorem modDie_apr (k : Nat) (f : Die → Die) : (modDie s k f).apr = s.apr := rfl
@[simp] theorem modDie_counters (k : Nat) (f : Die → Die) : (modDie s k f).counters = s.counters := rfl
@[simp] theorem modDie_waits (k : Nat) (f : Die → Die) : (modDie s k f).waits = s.waits := rfl
@[simp] theorem modDie_free (k : Nat) (f : Die → Die) : (modDie s k f).free = s.free := rfl

@[simp] theorem modModule_pending (m : Nat) (f : Module → Module) : (modModule s m f).pending = s.pending := rfl
@[simp] theorem modModule_time (m : Nat) (f : Module → Module) : (modModule s m f).time = s.time := rfl
@[simp] theorem modModule_pkg (m : Nat) (f : Module → Module) : (modModule s m f).pkg = s.pkg := rfl
@[simp] theorem modModule_toll (m : Nat) (f : Module → Module) : (modModule s m f).toll = s.toll := rfl
@[simp] theorem modModule_dies (m : Nat) (f : Module → Module) : (modModule s m f).dies = s.dies := rfl
@[simp] theorem modModule_tether (m : Nat) (f : Module → Module) : (modModule s m f).tether = s.tether := rfl
@[simp] theorem modModule_queues (m : Nat) (f : Module → Module) : (modModule s m f).queues = s.queues := rfl
@[simp] theorem modModule_cmds (m : Nat) (f : Module → Module) : (modModule s m f).cmds = s.cmds := rfl
@[simp] theorem modModule_aborts (m : Nat) (f : Module → Module) : (modModule s m f).aborts = s.aborts := rfl
@[simp] theorem modModule_ctxs (m : Nat) (f : Module → Module) : (modModule s m f).ctxs = s.ctxs := rfl
@[simp] theorem modModule_sched (m : Nat) (f : Module → Module) : (modModule s m f).sched = s.sched := rfl
@[simp] theorem modModule_hbm (m : Nat) (f : Module → Module) : (modModule s m f).hbm = s.hbm := rfl
@[simp] theorem modModule_piers (m : Nat) (f : Module → Module) : (modModule s m f).piers = s.piers := rfl
@[simp] theorem modModule_caisson (m : Nat) (f : Module → Module) : (modModule s m f).caisson = s.caisson := rfl
@[simp] theorem modModule_pylon (m : Nat) (f : Module → Module) : (modModule s m f).pylon = s.pylon := rfl
@[simp] theorem modModule_apr (m : Nat) (f : Module → Module) : (modModule s m f).apr = s.apr := rfl
@[simp] theorem modModule_counters (m : Nat) (f : Module → Module) : (modModule s m f).counters = s.counters := rfl
@[simp] theorem modModule_waits (m : Nat) (f : Module → Module) : (modModule s m f).waits = s.waits := rfl
@[simp] theorem modModule_free (m : Nat) (f : Module → Module) : (modModule s m f).free = s.free := rfl

@[simp] theorem setPier_pending (x : Pier) : (setPier s x).pending = s.pending := rfl
@[simp] theorem setPier_time (x : Pier) : (setPier s x).time = s.time := rfl
@[simp] theorem setPier_pkg (x : Pier) : (setPier s x).pkg = s.pkg := rfl
@[simp] theorem setPier_toll (x : Pier) : (setPier s x).toll = s.toll := rfl
@[simp] theorem setPier_dies (x : Pier) : (setPier s x).dies = s.dies := rfl
@[simp] theorem setPier_modules (x : Pier) : (setPier s x).modules = s.modules := rfl
@[simp] theorem setPier_tether (x : Pier) : (setPier s x).tether = s.tether := rfl
@[simp] theorem setPier_queues (x : Pier) : (setPier s x).queues = s.queues := rfl
@[simp] theorem setPier_cmds (x : Pier) : (setPier s x).cmds = s.cmds := rfl
@[simp] theorem setPier_aborts (x : Pier) : (setPier s x).aborts = s.aborts := rfl
@[simp] theorem setPier_ctxs (x : Pier) : (setPier s x).ctxs = s.ctxs := rfl
@[simp] theorem setPier_sched (x : Pier) : (setPier s x).sched = s.sched := rfl
@[simp] theorem setPier_hbm (x : Pier) : (setPier s x).hbm = s.hbm := rfl
@[simp] theorem setPier_caisson (x : Pier) : (setPier s x).caisson = s.caisson := rfl
@[simp] theorem setPier_pylon (x : Pier) : (setPier s x).pylon = s.pylon := rfl
@[simp] theorem setPier_apr (x : Pier) : (setPier s x).apr = s.apr := rfl
@[simp] theorem setPier_counters (x : Pier) : (setPier s x).counters = s.counters := rfl
@[simp] theorem setPier_waits (x : Pier) : (setPier s x).waits = s.waits := rfl
@[simp] theorem setPier_free (x : Pier) : (setPier s x).free = s.free := rfl

@[simp] theorem modPier_pending (p : Nat) (f : Pier → Pier) : (modPier s p f).pending = s.pending := rfl
@[simp] theorem modPier_time (p : Nat) (f : Pier → Pier) : (modPier s p f).time = s.time := rfl
@[simp] theorem modPier_pkg (p : Nat) (f : Pier → Pier) : (modPier s p f).pkg = s.pkg := rfl
@[simp] theorem modPier_toll (p : Nat) (f : Pier → Pier) : (modPier s p f).toll = s.toll := rfl
@[simp] theorem modPier_dies (p : Nat) (f : Pier → Pier) : (modPier s p f).dies = s.dies := rfl
@[simp] theorem modPier_modules (p : Nat) (f : Pier → Pier) : (modPier s p f).modules = s.modules := rfl
@[simp] theorem modPier_tether (p : Nat) (f : Pier → Pier) : (modPier s p f).tether = s.tether := rfl
@[simp] theorem modPier_queues (p : Nat) (f : Pier → Pier) : (modPier s p f).queues = s.queues := rfl
@[simp] theorem modPier_cmds (p : Nat) (f : Pier → Pier) : (modPier s p f).cmds = s.cmds := rfl
@[simp] theorem modPier_aborts (p : Nat) (f : Pier → Pier) : (modPier s p f).aborts = s.aborts := rfl
@[simp] theorem modPier_ctxs (p : Nat) (f : Pier → Pier) : (modPier s p f).ctxs = s.ctxs := rfl
@[simp] theorem modPier_sched (p : Nat) (f : Pier → Pier) : (modPier s p f).sched = s.sched := rfl
@[simp] theorem modPier_hbm (p : Nat) (f : Pier → Pier) : (modPier s p f).hbm = s.hbm := rfl
@[simp] theorem modPier_caisson (p : Nat) (f : Pier → Pier) : (modPier s p f).caisson = s.caisson := rfl
@[simp] theorem modPier_pylon (p : Nat) (f : Pier → Pier) : (modPier s p f).pylon = s.pylon := rfl
@[simp] theorem modPier_apr (p : Nat) (f : Pier → Pier) : (modPier s p f).apr = s.apr := rfl
@[simp] theorem modPier_counters (p : Nat) (f : Pier → Pier) : (modPier s p f).counters = s.counters := rfl
@[simp] theorem modPier_waits (p : Nat) (f : Pier → Pier) : (modPier s p f).waits = s.waits := rfl
@[simp] theorem modPier_free (p : Nat) (f : Pier → Pier) : (modPier s p f).free = s.free := rfl

@[simp] theorem freeUsed_pending (k : Nat) : (freeUsed s k).pending = s.pending := rfl
@[simp] theorem freeUsed_time (k : Nat) : (freeUsed s k).time = s.time := rfl
@[simp] theorem freeUsed_pkg (k : Nat) : (freeUsed s k).pkg = s.pkg := rfl
@[simp] theorem freeUsed_toll (k : Nat) : (freeUsed s k).toll = s.toll := rfl
@[simp] theorem freeUsed_dies (k : Nat) : (freeUsed s k).dies = s.dies := rfl
@[simp] theorem freeUsed_modules (k : Nat) : (freeUsed s k).modules = s.modules := rfl
@[simp] theorem freeUsed_tether (k : Nat) : (freeUsed s k).tether = s.tether := rfl
@[simp] theorem freeUsed_queues (k : Nat) : (freeUsed s k).queues = s.queues := rfl
@[simp] theorem freeUsed_cmds (k : Nat) : (freeUsed s k).cmds = s.cmds := rfl
@[simp] theorem freeUsed_aborts (k : Nat) : (freeUsed s k).aborts = s.aborts := rfl
@[simp] theorem freeUsed_ctxs (k : Nat) : (freeUsed s k).ctxs = s.ctxs := rfl
@[simp] theorem freeUsed_sched (k : Nat) : (freeUsed s k).sched = s.sched := rfl
@[simp] theorem freeUsed_hbm (k : Nat) : (freeUsed s k).hbm = s.hbm := rfl
@[simp] theorem freeUsed_piers (k : Nat) : (freeUsed s k).piers = s.piers := rfl
@[simp] theorem freeUsed_caisson (k : Nat) : (freeUsed s k).caisson = s.caisson := rfl
@[simp] theorem freeUsed_pylon (k : Nat) : (freeUsed s k).pylon = s.pylon := rfl
@[simp] theorem freeUsed_apr (k : Nat) : (freeUsed s k).apr = s.apr := rfl
@[simp] theorem freeUsed_counters (k : Nat) : (freeUsed s k).counters = s.counters := rfl
@[simp] theorem freeUsed_waits (k : Nat) : (freeUsed s k).waits = s.waits := rfl

@[simp] theorem count_pending (a b c k : Nat) : (count s a b c k).pending = s.pending := rfl
@[simp] theorem count_time (a b c k : Nat) : (count s a b c k).time = s.time := rfl
@[simp] theorem count_pkg (a b c k : Nat) : (count s a b c k).pkg = s.pkg := rfl
@[simp] theorem count_toll (a b c k : Nat) : (count s a b c k).toll = s.toll := rfl
@[simp] theorem count_dies (a b c k : Nat) : (count s a b c k).dies = s.dies := rfl
@[simp] theorem count_modules (a b c k : Nat) : (count s a b c k).modules = s.modules := rfl
@[simp] theorem count_tether (a b c k : Nat) : (count s a b c k).tether = s.tether := rfl
@[simp] theorem count_queues (a b c k : Nat) : (count s a b c k).queues = s.queues := rfl
@[simp] theorem count_cmds (a b c k : Nat) : (count s a b c k).cmds = s.cmds := rfl
@[simp] theorem count_aborts (a b c k : Nat) : (count s a b c k).aborts = s.aborts := rfl
@[simp] theorem count_ctxs (a b c k : Nat) : (count s a b c k).ctxs = s.ctxs := rfl
@[simp] theorem count_sched (a b c k : Nat) : (count s a b c k).sched = s.sched := rfl
@[simp] theorem count_hbm (a b c k : Nat) : (count s a b c k).hbm = s.hbm := rfl
@[simp] theorem count_piers (a b c k : Nat) : (count s a b c k).piers = s.piers := rfl
@[simp] theorem count_caisson (a b c k : Nat) : (count s a b c k).caisson = s.caisson := rfl
@[simp] theorem count_pylon (a b c k : Nat) : (count s a b c k).pylon = s.pylon := rfl
@[simp] theorem count_apr (a b c k : Nat) : (count s a b c k).apr = s.apr := rfl
@[simp] theorem count_waits (a b c k : Nat) : (count s a b c k).waits = s.waits := rfl
@[simp] theorem count_free (a b c k : Nat) : (count s a b c k).free = s.free := rfl

end Sys2Proof.Machine
end

