-- ==== Sys2Proof/Laws/Access.lean ====
section
/-! SUPPORT. Memory accesses where no error is met, counting, and the completion of a pier's instruction: what each changes. -/

namespace Sys2Proof.Machine

/-! ### HBM without errors (R255) -/

theorem badIn_nil {h : Hbm} (e : h.uncorrectable = []) (a n : Nat) : h.badIn a n = [] := by simp [Hbm.badIn, e]
theorem badPartial_nil {h : Hbm} (e : h.uncorrectable = []) (a n : Nat) : h.badPartial a n = [] := by simp [Hbm.badPartial, badIn_nil e]

theorem correctRange_clean {s : State} (e : s.hbm.correctable = []) (a n : Nat) : correctRange s a n = s := by
  have h : s.hbm.corrected a n = s.hbm := by simp [Hbm.corrected, e]; rw [← e]
  simp [correctRange, Hbm.weakIn, e, h]

theorem senseHbm_clean {s : State} (eu : s.hbm.uncorrectable = []) (ec : s.hbm.correctable = []) (r : Reader) (a n : Nat) :
    senseHbm s r a n = (s, some (s.hbm.mem.read a n)) := by
  simp [senseHbm, badIn_nil, eu, correctRange_clean, ec]

theorem readHbm_clean {s : State} (eu : s.hbm.uncorrectable = []) (ec : s.hbm.correctable = []) (r : Reader) (a n : Nat) :
    readHbm s r a n = (count s 5 ((stackOf a).getD 0) 0 n, some (s.hbm.mem.read a n)) := by
  rw [readHbm, senseHbm_clean (by exact eu) (by exact ec)]; rfl

theorem readOrFault_clean {s : State} (eu : s.hbm.uncorrectable = []) (ec : s.hbm.correctable = []) (r : Reader) (a n : Nat) :
    readOrFault s r a n = (count s 5 ((stackOf a).getD 0) 0 n, some (s.hbm.mem.read a n)) := by
  simp [readOrFault, readHbm_clean eu ec]

theorem granulesOf_none {s : State} (e : s.caisson.run = none) (a n : Nat) : granulesOf s a n = [] := by simp [granulesOf, e]

theorem copyBefore_none {s : State} (e : s.caisson.run = none) (a n : Nat) : copyBefore s a n = (s, false) := by
  simp [copyBefore, waitOnCopies, granulesOf_none e, copyBeforeList]

theorem write_clean {h : Hbm} (eu : h.uncorrectable = []) (ec : h.correctable = []) (a : Nat) (bs : List Byte) :
    h.write a bs = { h with mem := h.mem.write a bs } := by
  simp [Hbm.write, Hbm.commit, badPartial_nil eu, eu, ec]

theorem copyFirst_none {s : State} (e : s.caisson.run = none) (a n : Nat) : copyFirst s a n = s := by
  unfold copyFirst; rw [copyBefore_none e]

theorem weakPartial_nil {h : Hbm} (e : h.correctable = []) (a n : Nat) : h.weakPartial a n = [] := by
  simp [Hbm.weakPartial, Hbm.weakIn, e]

theorem mergeHbm_clean {s : State} (eu : s.hbm.uncorrectable = []) (ec : s.hbm.correctable = []) (r : Reader) (a n : Nat)
    (put : Hbm → Hbm) : mergeHbm s r a n put = ({ s with hbm := put s.hbm }, false) := by
  simp [mergeHbm, badPartial_nil eu, weakPartial_nil ec]

theorem storeInside_clean {s : State} (eu : s.hbm.uncorrectable = []) (ec : s.hbm.correctable = []) (er : s.caisson.run = none)
    (r : Reader) (a n : Nat) (put : Hbm → Hbm) : storeInside s r a n put = ({ s with hbm := put s.hbm }, false) := by
  rw [storeInside, copyFirst_none er, mergeHbm_clean eu ec]

theorem storeHbm_clean {s : State} (eu : s.hbm.uncorrectable = []) (ec : s.hbm.correctable = []) (er : s.caisson.run = none)
    (r : Reader) (a n : Nat) (put : Hbm → Hbm) :
    storeHbm s r a n put = ({ count s 5 ((stackOf a).getD 0) 1 n with hbm := put s.hbm }, false) := by
  rw [storeHbm, storeInside_clean (by exact eu) (by exact ec) (by exact er)]; rfl

theorem writeHbm_clean {s : State} (eu : s.hbm.uncorrectable = []) (ec : s.hbm.correctable = []) (er : s.caisson.run = none)
    (r : Reader) (a : Nat) (bs : List Byte) :
    writeHbm s r a bs = ({ count s 5 ((stackOf a).getD 0) 1 bs.length with hbm := { s.hbm with mem := s.hbm.mem.write a bs } }, false) := by
  simp [writeHbm, storeHbm_clean eu ec er, write_clean eu ec]

theorem writeOrFault_clean {s : State} (eu : s.hbm.uncorrectable = []) (ec : s.hbm.correctable = []) (er : s.caisson.run = none)
    (r : Reader) (a : Nat) (bs : List Byte) :
    writeOrFault s r a bs = { count s 5 ((stackOf a).getD 0) 1 bs.length with hbm := { s.hbm with mem := s.hbm.mem.write a bs } } := by
  simp [writeOrFault, writeHbm_clean eu ec er]

/-! ### Counting changes counters only (R409, R410) -/

@[simp] theorem modAt_id {α : Type} (l : List α) (n : Nat) : modAt l n id = l := by
  induction l generalizing n with
  | nil => rfl
  | cons x l ih => cases n <;> simp [modAt, ih]

theorem modCtx_same (s : State) (n : Nat) : modCtx s n (fun c => { c with counters := c.counters }) = s := by
  have : (Option.map fun c : Context => { c with counters := c.counters }) = id := by funext x; cases x <;> rfl
  simp only [modCtx, this, modAt_id]

theorem countEvent_eq (s : State) (n p e k : Nat) : ∃ g : Context → List (Nat × Nat),
    countEvent s n p e k = modCtx s n fun c => { c with counters := g c } := by
  unfold countEvent
  split
  · exact ⟨_, rfl⟩
  · exact ⟨_, (modCtx_same s n).symm⟩

theorem countCtx_eq (s : State) (n c i x k : Nat) : ∃ g : Context → List (Nat × Nat),
    countCtx s n c i x k = modCtx s n fun c => { c with counters := g c } := by
  unfold countCtx
  split
  · exact ⟨_, rfl⟩
  · exact ⟨_, (modCtx_same s n).symm⟩

theorem Beside.refl (s : State) (n : Nat) : Beside s s n := by
  refine ⟨fun _ _ => rfl, ?_, rfl⟩
  cases h : ctxAt s n with
  | none => exact ⟨[], 0, rfl⟩
  | some c =>
    cases hp : c.program with
    | none => exact ⟨c.counters, 0, by cases c; simp_all⟩
    | some x => exact ⟨c.counters, x.watchdogAt, by cases c; simp_all⟩

theorem Beside.trans {s t u : State} {n : Nat} (h : Beside s t n) (g : Beside t u n) : Beside s u n := by
  refine ⟨fun m hm => (g.1 m hm).trans (h.1 m hm), ?_, ?_⟩
  · obtain ⟨k, w, e⟩ := h.2.1
    obtain ⟨k', w', e'⟩ := g.2.1
    refine ⟨k', w', ?_⟩
    rw [e', e, Option.map_map]
    congr 1
    funext c
    cases hp : c.program <;> simp [hp]
  · rw [g.2.2, h.2.2]

theorem Beside.modPier (s : State) (n p : Nat) (f : Pier → Pier) : Beside s (modPier s p f) n :=
  ⟨fun _ _ => rfl, (Beside.refl s n).2.1, rfl⟩

theorem Beside.count (s : State) (n c i x k : Nat) : Beside s (count s c i x k) n :=
  ⟨fun _ _ => rfl, (Beside.refl s n).2.1, rfl⟩

theorem Beside.counters (s : State) (n : Nat) (g : Context → List (Nat × Nat)) :
    Beside s (modCtx s n fun c => { c with counters := g c }) n := by
  refine ⟨fun m hm => by rw [ctxAt_modCtx, if_neg (Ne.symm hm)], ?_, rfl⟩
  rw [ctxAt_modCtx, if_pos rfl]
  cases h : ctxAt s n with
  | none => exact ⟨[], 0, rfl⟩
  | some c =>
    cases hp : c.program with
    | none => exact ⟨g c, 0, by simp [hp]⟩
    | some x => exact ⟨g c, x.watchdogAt, by simp [hp]⟩

theorem Beside.countEvent (s : State) (n p e k : Nat) : Beside s (countEvent s n p e k) n := by
  obtain ⟨g, h⟩ := countEvent_eq s n p e k
  rw [h]; exact Beside.counters s n g

theorem Beside.countCtx (s : State) (n c i x k : Nat) : Beside s (countCtx s n c i x k) n := by
  obtain ⟨g, h⟩ := countCtx_eq s n c i x k
  rw [h]; exact Beside.counters s n g

theorem Beside.opDone (s : State) (n : Nat) : Beside s (opDone s n) n := by
  refine ⟨fun m hm => by unfold Machine.opDone modProg; rw [ctxAt_modCtx, if_neg (Ne.symm hm)], ?_, rfl⟩
  unfold Machine.opDone modProg
  rw [ctxAt_modCtx, if_pos rfl]
  cases h : ctxAt s n with
  | none => exact ⟨[], 0, rfl⟩
  | some c => exact ⟨c.counters, s.time, rfl⟩

@[simp] theorem countEvent_piers (s : State) (n p e k : Nat) : (countEvent s n p e k).piers = s.piers := by
  obtain ⟨g, h⟩ := countEvent_eq s n p e k
  rw [h]; rfl
@[simp] theorem countEvent_hbm (s : State) (n p e k : Nat) : (countEvent s n p e k).hbm = s.hbm := by
  obtain ⟨g, h⟩ := countEvent_eq s n p e k
  rw [h]; rfl
@[simp] theorem countEvent_caisson (s : State) (n p e k : Nat) : (countEvent s n p e k).caisson = s.caisson := by
  obtain ⟨g, h⟩ := countEvent_eq s n p e k
  rw [h]; rfl
@[simp] theorem countCtx_piers (s : State) (n c i x k : Nat) : (countCtx s n c i x k).piers = s.piers := by
  obtain ⟨g, h⟩ := countCtx_eq s n c i x k
  rw [h]; rfl
@[simp] theorem countCtx_hbm (s : State) (n c i x k : Nat) : (countCtx s n c i x k).hbm = s.hbm := by
  obtain ⟨g, h⟩ := countCtx_eq s n c i x k
  rw [h]; rfl
@[simp] theorem pierAt_countEvent (s : State) (n p e k q : Nat) : pierAt (countEvent s n p e k) q = pierAt s q := by simp [pierAt]
@[simp] theorem pierAt_countCtx (s : State) (n c i x k q : Nat) : pierAt (countCtx s n c i x k) q = pierAt s q := by simp [pierAt]
@[simp] theorem pierAt_count (s : State) (c i x k q : Nat) : pierAt (count s c i x k) q = pierAt s q := rfl
@[simp] theorem pierAt_opDone (s : State) (n q : Nat) : pierAt (opDone s n) q = pierAt s q := rfl
@[simp] theorem opDone_hbm (s : State) (n : Nat) : (opDone s n).hbm = s.hbm := rfl

/-! ### Scratchpads without errors (R80, R81) -/

theorem badWord_clean {P : Pier} (e : P.badWords = []) (rs : List Range) : badWord P rs = none := by simp [badWord, e]

theorem modPier_same (s : State) (p q : Nat) (f : Pier → Pier) (h : f (pierAt s p) = pierAt s p) :
    pierAt (modPier s p f) q = pierAt s q := by
  rw [pierAt_modPier _ _ _ _ (by rw [h]; simp)]
  split
  · rename_i e; subst e; exact h
  · rfl

theorem pierAt_correctWords {s : State} {p : Nat} (e : (pierAt s p).weakWords = []) (n q : Nat) (rs : List Range) :
    pierAt (correctWords s n p rs) q = pierAt s q := by
  simp only [correctWords, e, List.filter_nil, List.length_nil, List.foldl_nil, pierAt_countCtx]
  rw [modPier_same _ _ _ _ (by cases hP : pierAt s p; simp_all)]

theorem Beside.correctWords {s : State} {p : Nat} (e : (pierAt s p).weakWords = []) (n : Nat) (rs : List Range) :
    Beside s (correctWords s n p rs) n := by
  simp only [Machine.correctWords, e, List.filter_nil, List.length_nil, List.foldl_nil]
  exact (Beside.modPier ..).trans (Beside.countCtx ..)

/-- A read of good words changes no pier. -/
theorem pierAt_touchPad {s : State} {p : Nat} (e : (pierAt s p).weakWords = []) (n q : Nat) (rs : List Range) :
    pierAt (touchPad s n p rs) q = pierAt s q := by
  unfold touchPad
  rw [pierAt_correctWords (by simpa using e)]
  simp

theorem Beside.touchPad {s : State} {p : Nat} (e : (pierAt s p).weakWords = []) (n : Nat) (rs : List Range) :
    Beside s (touchPad s n p rs) n := by
  unfold Machine.touchPad
  exact (Beside.countEvent ..).trans (Beside.correctWords (by simpa using e) ..)

theorem pierAt_writePad {s : State} {p : Nat} (e : (pierAt s p).badWords = []) (e' : (pierAt s p).weakWords = []) (n a q : Nat)
    (bs : List Byte) :
    pierAt (writePad s n p a bs) q = if p = q then { pierAt s p with mem := (pierAt s p).mem.write a bs } else pierAt s q := by
  simp only [writePad, pierAt_countEvent]
  rw [pierAt_modPier _ _ _ _ (by simp), pierAt_correctWords e', pierAt_correctWords e']
  split
  · cases hP : pierAt s p; simp_all
  · rfl

theorem Beside.writePad {s : State} {p : Nat} (e : (pierAt s p).weakWords = []) (n a : Nat) (bs : List Byte) :
    Beside s (writePad s n p a bs) n :=
  (Beside.correctWords e ..).trans ((Beside.modPier ..).trans (Beside.countEvent ..))

/-! ### Issue and completion without a sampling session (R92, R93, R417) -/

theorem ctxAt_sampling_modCtx {s : State} {n : Nat} (h : (ctxAt s n).bind (·.sampling) = none) (g : Context → List (Nat × Nat)) :
    (ctxAt (modCtx s n fun c => { c with counters := g c }) n).bind (·.sampling) = none := by
  rw [ctxAt_modCtx, if_pos rfl]
  cases hc : ctxAt s n with
  | none => rfl
  | some c => simpa [hc] using h

theorem sampleTick_none {s : State} {n : Nat} (h : (ctxAt s n).bind (·.sampling) = none) (p op : Nat) :
    sampleTick s n p op = (s, false) := by
  simp [sampleTick, h]

theorem Issue.issue_plain {s : State} (i : Issue) (h : (ctxAt s i.n).bind (·.sampling) = none) :
    i.issue s = (countEvent (modPier s i.pier fun P => { P with index := i.index + 1 }) i.n i.pier 0x01 1, false) := by
  unfold Issue.issue
  obtain ⟨g, e⟩ := countEvent_eq (modPier s i.pier fun P => { P with index := i.index + 1 }) i.n i.pier 0x01 1
  dsimp only
  rw [sampleTick_none]
  rw [e]
  exact ctxAt_sampling_modCtx h g

theorem Issue.run_plain {s : State} (i : Issue) (h : (ctxAt s i.n).bind (·.sampling) = none) (effect : State → State) :
    i.run s effect =
      opDone (effect (countEvent (modPier s i.pier fun P => { P with index := i.index + 1 }) i.n i.pier 0x01 1)) i.n := by
  simp [Issue.run, issue_plain i h, sampled]

theorem field_head (m : Memory) (a k : Nat) (h : 0 < k) : field (m.read a (16 * k)) 0 16 = leNat (m.read a 16) := by
  have : (List.range (16 * k)).take 16 = List.range 16 := by
    rw [List.take_range]; congr 1; omega
  simp only [field, slice, Memory.read, List.drop_zero, ← List.map_take, this]

theorem filled_eq (s : State) (im : Image) (p : Nat) :
    ∃ a b, filled s im p = { pierAt s p with bufferAt := a, buffer := b } := by
  unfold filled; dsimp only; split
  · exact ⟨(pierAt s p).bufferAt, (pierAt s p).buffer, rfl⟩
  · exact ⟨_, _, rfl⟩

@[simp] theorem filled_id (s : State) (im : Image) (p : Nat) : (filled s im p).id = p := by
  obtain ⟨a, b, e⟩ := filled_eq s im p
  rw [e]; simp
@[simp] theorem filled_mem (s : State) (im : Image) (p : Nat) : (filled s im p).mem = (pierAt s p).mem := by
  obtain ⟨a, b, e⟩ := filled_eq s im p
  rw [e]
@[simp] theorem filled_badWords (s : State) (im : Image) (p : Nat) : (filled s im p).badWords = (pierAt s p).badWords := by
  obtain ⟨a, b, e⟩ := filled_eq s im p
  rw [e]
@[simp] theorem filled_weakWords (s : State) (im : Image) (p : Nat) : (filled s im p).weakWords = (pierAt s p).weakWords := by
  obtain ⟨a, b, e⟩ := filled_eq s im p
  rw [e]
@[simp] theorem filled_plane0 (s : State) (im : Image) (p : Nat) : (filled s im p).plane0 = (pierAt s p).plane0 := by
  obtain ⟨a, b, e⟩ := filled_eq s im p
  rw [e]
@[simp] theorem filled_plane1 (s : State) (im : Image) (p : Nat) : (filled s im p).plane1 = (pierAt s p).plane1 := by
  obtain ⟨a, b, e⟩ := filled_eq s im p
  rw [e]
@[simp] theorem filled_index (s : State) (im : Image) (p : Nat) : (filled s im p).index = (pierAt s p).index := by
  obtain ⟨a, b, e⟩ := filled_eq s im p
  rw [e]
@[simp] theorem filled_score (s : State) (im : Image) (p : Nat) : (filled s im p).score = (pierAt s p).score := by
  obtain ⟨a, b, e⟩ := filled_eq s im p
  rw [e]
@[simp] theorem filled_drain (s : State) (im : Image) (p : Nat) : (filled s im p).drain = (pierAt s p).drain := by
  obtain ⟨a, b, e⟩ := filled_eq s im p
  rw [e]
@[simp] theorem filled_lane (s : State) (im : Image) (p : Nat) : (filled s im p).lane = (pierAt s p).lane := by
  obtain ⟨a, b, e⟩ := filled_eq s im p
  rw [e]
@[simp] theorem filled_store (s : State) (im : Image) (p : Nat) : (filled s im p).store = (pierAt s p).store := by
  obtain ⟨a, b, e⟩ := filled_eq s im p
  rw [e]

/-- Piers and counters that changed. -/
theorem Beside.parts {s t : State} (h : t = { s with piers := t.piers, counters := t.counters }) (n : Nat) : Beside s t n := by
  refine ⟨fun m _ => by rw [h]; rfl, ?_, by rw [h]⟩
  have : ctxAt t n = ctxAt s n := by rw [h]; rfl
  rw [this]; exact (Beside.refl s n).2.1

/-- What fetching a pier's next word makes of the state, in an HBM without errors (R69, R92). -/
theorem fetchWord_clean {s : State} {p n : Nat} {im : Image} (hd : (pierAt s p).index < deckLength im p)
    (eu : s.hbm.uncorrectable = []) (ec : s.hbm.correctable = []) :
    ∃ t, fetchWord s n im p = (t, some (peekWord s im p)) ∧ t = { s with piers := t.piers, counters := t.counters }
      ∧ ∀ q, pierAt t q = if p = q then filled s im p else pierAt s q := by
  cases hb : bufferedWord (pierAt s p) with
  | some w =>
    refine ⟨s, by simp [fetchWord, peekWord, hb], rfl, fun q => ?_⟩
    unfold filled
    split
    · rename_i e; subst e; simp [hb]
    · rfl
  | none =>
    have hk : min 4096 (deckLength im p - (pierAt s p).index) ≠ 0 := by omega
    refine ⟨modPier (count s 5 ((stackOf (deckAddr im p (pierAt s p).index)).getD 0) 0
        (16 * min 4096 (deckLength im p - (pierAt s p).index))) p fun P =>
          { P with bufferAt := (pierAt s p).index
                   buffer := (List.range (min 4096 (deckLength im p - (pierAt s p).index))).map fun j =>
                     BitVec.ofNat 128 (field (s.hbm.mem.read (deckAddr im p (pierAt s p).index)
                       (16 * min 4096 (deckLength im p - (pierAt s p).index))) (16 * j) 16) }, ?_, rfl, fun q => ?_⟩
    · simp only [fetchWord, hb, refill, badIn_nil eu, List.min?_nil, readOrFault_clean eu ec, peekWord, Option.getD_none]
      rw [field_head _ _ _ (Nat.pos_of_ne_zero hk)]
    · rw [pierAt_modPier _ _ _ _ (by simp)]
      simp only [pierAt_count, filled, hb]

/-- An instruction that the row names is fetched and run (R92). -/
theorem atPier_word {s : State} {p n : Nat} {im : Image} {w : Nat} (hr : pierReady s p = some (n, im))
    (hd : (pierAt s p).index < deckLength im p) (hw : peekWord s im p = w)
    (eu : s.hbm.uncorrectable = []) (ec : s.hbm.correctable = []) :
    ∃ t, (∀ (accept : Nat → Bool) (f : State → Issue → State), accept (opcodeOf w) = true → atPier s p accept f =
        f t { n, im, pier := p, index := (pierAt s p).index, word := w })
      ∧ t = { s with piers := t.piers, counters := t.counters } ∧ ∀ q, pierAt t q = if p = q then filled s im p else pierAt s q := by
  obtain ⟨t, h1, h2, h3⟩ := fetchWord_clean (n := n) hd eu ec
  refine ⟨t, fun accept f ha => ?_, h2, h3⟩
  unfold atPier
  rw [hr]
  dsimp only
  rw [if_neg (by omega), h1]
  simp only [hw, ha, if_true]

theorem Beside.hbm {s t : State} {n : Nat} (h : Beside s t n) : t.hbm = s.hbm := by rw [h.2.2]
theorem Beside.caisson {s t : State} {n : Nat} (h : Beside s t n) : t.caisson = s.caisson := by rw [h.2.2]

/-- A pier that stands at a word fetches it and issues it: the states before and after issue. -/
theorem issued {s : State} {p n : Nat} {im : Image} {w : Nat} (h : AtWord s p n im w) : ∃ v u,
    (∀ accept f, accept (opcodeOf w) = true →
      atPier s p accept f = f v { n, im, pier := p, index := (pierAt s p).index, word := w }) ∧
    pierAt v p = filled s im p ∧ (∀ q, q ≠ p → pierAt v q = pierAt s q) ∧ v = { s with piers := v.piers, counters := v.counters } ∧
    (∀ effect, Issue.run { n, im, pier := p, index := (pierAt s p).index, word := w } v effect = opDone (effect u) n) ∧
    Issue.issue { n, im, pier := p, index := (pierAt s p).index, word := w } v = (u, false) ∧
    pierAt u p = { filled s im p with index := (pierAt s p).index + 1 } ∧ (∀ q, q ≠ p → pierAt u q = pierAt s q) ∧ Beside s u n
      ∧ Beside v u n := by
  obtain ⟨hr, hd, hw, hok, eu, ec, eb, ek, hs⟩ := h
  obtain ⟨v, h1, h2, h3⟩ := atPier_word hr hd hw eu ec
  have hv : pierAt v p = filled s im p := by rw [h3, if_pos rfl]
  have hs' : (ctxAt v n).bind (·.sampling) = none := by
    have : ctxAt v n = ctxAt s n := by rw [h2]; rfl
    rw [this]; exact hs
  have b : Beside v (countEvent (modPier v p fun P => { P with index := (pierAt s p).index + 1 }) n p 0x01 1) n :=
    (Beside.modPier ..).trans (Beside.countEvent ..)
  refine ⟨v, _, h1, hv, fun q hq => ?_, h2, fun e => Issue.run_plain _ hs' e, Issue.issue_plain _ hs', ?_, ?_, (Beside.parts h2 n).trans b, b⟩
  · rw [h3, if_neg (Ne.symm hq)]
  · rw [pierAt_countEvent, pierAt_modPier _ _ _ _ (by simp), if_pos rfl, hv]
  · intro q hq
    rw [pierAt_countEvent, pierAt_modPier _ _ _ _ (by simp), if_neg (Ne.symm hq), h3, if_neg (Ne.symm hq)]

theorem Beside.hbmCount {s t : State} {n : Nat} (h : Beside s t n) (c i x k : Nat) (v : Hbm) : Beside { s with hbm := v } { Machine.count t c i x k with hbm := v } n :=
  ⟨h.1, h.2.1, by rw [h.2.2]; rfl⟩

theorem good_clean {P : Pier} (e : P.badWords = []) (a l : Nat) : goodBytes P a l = l := by simp [goodBytes, badWord_clean e]

theorem footPath_clean {s : State} {k : Nat} (hb : (stackAt s k).pathBad = false) (hw : (stackAt s k).pathWeak = false) (a n : Nat) :
    footPath s k a n = (s, false) := by
  simp [footPath, hb, hw]

theorem acc_clean {s : State} (eu : s.hbm.uncorrectable = []) (ec : s.hbm.correctable = []) (er : s.caisson.run = none)
    {a : Nat} (hb : (stackAt s ((stackOf a).getD 0)).pathBad = false) (hw : (stackAt s ((stackOf a).getD 0)).pathWeak = false)
    (r : Reader) (f : Nat) (src : List Byte) :
    accumulateHbm s r f a src = { count s 5 ((stackOf a).getD 0) 2 src.length with
      hbm := { s.hbm with mem := s.hbm.mem.write a (accWriteBytes f (s.hbm.mem.read a src.length) src) } } := by
  unfold accumulateHbm
  simp only [footPath_clean hb hw, copyFirst_none er, correctRange_clean ec, badIn_nil eu]
  rfl

theorem read_length (m : Memory) (a n : Nat) : (m.read a n).length = n := by simp [Memory.read]

end Sys2Proof.Machine
end

