-- ==== Sys2Proof/Laws/Clock.lean ====
section
/-! SUPPORT. What recording an error and the passing of time may change: the log in Tollhouse, and counters beside the time itself. -/

namespace Sys2Proof.Machine

/-! ### The error log (R380, R400 to R402) -/

/-- Entering an error changes Tollhouse only. -/
theorem logEntry_toll (s : State) (a b c d e f : Nat) (l : List Nat) :
    logEntry s a b c d e f l = { s with toll := (logEntry s a b c d e f l).toll } := by
  unfold logEntry logFresh
  split <;> rfl

/-- Retiring blocks changes Tollhouse only. -/
theorem retireFuel_toll (f : Nat) (s : State) : retireFuel f s = { s with toll := (retireFuel f s).toll } := by
  induction f generalizing s with
  | zero => rfl
  | succ f ih =>
    unfold retireFuel
    split
    · rfl
    · rw [ih, show retireBlock _ _ = _ from logEntry_toll ..]

theorem retireBlocks_toll (s : State) : retireBlocks s = { s with toll := (retireBlocks s).toll } := retireFuel_toll _ s

/-- Recording an error changes Tollhouse only. -/
theorem logError_toll (s : State) (a b c d e f : Nat) (l : List Nat) :
    logError s a b c d e f l = { s with toll := (logError s a b c d e f l).toll } := by
  unfold logError
  rw [retireBlocks_toll, logEntry_toll]

/-! ### Counters (R409) -/

/-- Of a context its counters may have changed: those that count, those that move by free values, and its active time. -/
def counted (c : Context) (counters waits : List (Nat × Nat)) (activeNs : Nat) : Context := { c with counters, waits, activeNs }

/-- Package counters and the counters of contexts may have changed, and free values been used, nothing else. -/
def OnlyCounts (s t : State) : Prop :=
  t = { s with counters := t.counters, waits := t.waits, free := t.free, ctxs := t.ctxs }
    ∧ ∀ m, ∃ k w a, ctxAt t m = (ctxAt s m).map fun c => counted c k w a

theorem OnlyCounts.refl (s : State) : OnlyCounts s s := by
  refine ⟨rfl, fun m => ?_⟩
  cases h : ctxAt s m with
  | none => exact ⟨[], [], 0, rfl⟩
  | some c => exact ⟨c.counters, c.waits, c.activeNs, rfl⟩

theorem OnlyCounts.trans {s t u : State} (h : OnlyCounts s t) (g : OnlyCounts t u) : OnlyCounts s u := by
  refine ⟨by rw [g.1, h.1], fun m => ?_⟩
  obtain ⟨k, w, a, e⟩ := h.2 m
  obtain ⟨k', w', a', e'⟩ := g.2 m
  exact ⟨k', w', a', by rw [e', e, Option.map_map]; rfl⟩

theorem OnlyCounts.count (s : State) (c i x k : Nat) : OnlyCounts s (Machine.count s c i x k) :=
  ⟨rfl, (OnlyCounts.refl s).2⟩

theorem OnlyCounts.freeUsed (s : State) (k : Nat) : OnlyCounts s (Machine.freeUsed s k) := ⟨rfl, (OnlyCounts.refl s).2⟩

theorem OnlyCounts.modCtx (s : State) (n : Nat) (g w : Context → List (Nat × Nat)) (a : Context → Nat) :
    OnlyCounts s (modCtx s n fun c => counted c (g c) (w c) (a c)) := by
  refine ⟨rfl, fun m => ?_⟩
  rw [ctxAt_modCtx]
  split
  · rename_i e; subst e
    cases h : ctxAt s n with
    | none => exact ⟨[], [], 0, rfl⟩
    | some c => exact ⟨g c, w c, a c, rfl⟩
  · exact (OnlyCounts.refl s).2 m

theorem OnlyCounts.countCtx (s : State) (n c i x k : Nat) : OnlyCounts s (Machine.countCtx s n c i x k) := by
  obtain ⟨g, h⟩ := countCtx_eq s n c i x k
  rw [h]; exact OnlyCounts.modCtx s n g (·.waits) (·.activeNs)

theorem OnlyCounts.countEvent (s : State) (n p e k : Nat) : OnlyCounts s (Machine.countEvent s n p e k) := by
  obtain ⟨g, h⟩ := countEvent_eq s n p e k
  rw [h]; exact OnlyCounts.modCtx s n g (·.waits) (·.activeNs)

theorem OnlyCounts.foldl {α : Type} {f : State → α → State} (hf : ∀ s x, OnlyCounts s (f s x)) (l : List α) (s : State) :
    OnlyCounts s (l.foldl f s) := by
  induction l generalizing s with
  | nil => exact OnlyCounts.refl s
  | cons x l ih => exact (hf s x).trans (ih _)

/-! ### The passing of time (R203, R204, R396, R410 to R413) -/

theorem OnlyCounts.passStage (n : Nat) (im : Image) (d : Nat) (s : State) (k : Nat) : OnlyCounts s (passStage n im d s k) := by
  unfold Machine.passStage
  dsimp only
  have h := OnlyCounts.foldl (f := fun s p => Machine.countEvent s n p 0x0B d) (fun s p => OnlyCounts.countEvent ..)
    ((stagePiers im.decls k).filter fun p => (meetingWord s im p).isSome) s
  split
  · exact h
  · split
    · exact h.trans (OnlyCounts.countCtx ..)
    · split
      · exact h.trans (OnlyCounts.countCtx ..)
      · exact h

theorem OnlyCounts.passQueue (n : Nat) (im : Image) (d : Nat) (s : State) (x : SpanQueue) : OnlyCounts s (passQueue n im d s x) := by
  unfold Machine.passQueue
  dsimp only
  have one : ∀ (b : Bool) (s : State) (c i j k : Nat), OnlyCounts s (if b then Machine.countCtx s n c i j k else s) := by
    intro b s c i j k
    cases b
    · exact OnlyCounts.refl s
    · exact OnlyCounts.countCtx ..
  split
  · exact ((one ..).trans (one ..)).trans (one ..)
  · exact (one ..).trans (one ..)

theorem OnlyCounts.passPiers (s : State) (n d : Nat) : OnlyCounts s (passPiers s n d) := by
  unfold Machine.passPiers
  split
  · exact (OnlyCounts.modCtx s n (·.counters) _ _).trans (OnlyCounts.freeUsed ..)
  · exact OnlyCounts.refl s

theorem OnlyCounts.passProgram (s : State) (n d : Nat) : OnlyCounts s (passProgram s n d) := by
  unfold Machine.passProgram
  split
  · split
    · exact OnlyCounts.refl s
    · exact ((OnlyCounts.foldl (OnlyCounts.passStage n _ d) _ _).trans (OnlyCounts.foldl (OnlyCounts.passQueue n _ d) _ _)).trans
        (OnlyCounts.foldl (fun s t => OnlyCounts.countCtx ..) _ _)
  · exact OnlyCounts.refl s

theorem OnlyCounts.passContext (s : State) (n d : Nat) : OnlyCounts s (passContext s n d) :=
  (OnlyCounts.passPiers ..).trans (OnlyCounts.passProgram ..)

theorem OnlyCounts.passLinks (s : State) (d : Nat) : OnlyCounts s (passLinks s d) := ⟨rfl, (OnlyCounts.refl s).2⟩

theorem OnlyCounts.passPackage (s : State) (d : Nat) : OnlyCounts s (passPackage s d) := by
  have one : ∀ (b : Bool) (s : State) (c i j k : Nat), OnlyCounts s (if b then Machine.count s c i j k else s) := by
    intro b s c i j k
    cases b
    · exact OnlyCounts.refl s
    · exact OnlyCounts.count ..
  have links : OnlyCounts s (if running s then Machine.passLinks s d else s) := by
    split
    · exact OnlyCounts.passLinks ..
    · exact OnlyCounts.refl s
  have port : ∀ s p, OnlyCounts s (Machine.passPort d s p) := fun s p => (one ..).trans (one ..)
  exact links.trans ((OnlyCounts.foldl port _ _).trans (OnlyCounts.foldl (fun s k => OnlyCounts.count ..) _ _))

/-- Time moves on to a moment that lies ahead; beside it only counters move. -/
theorem advanceTo_eq (s : State) (t : Nat) : ∃ u, OnlyCounts s u ∧ advanceTo s t = { u with time := max s.time t } := by
  unfold advanceTo
  split
  · refine ⟨s, OnlyCounts.refl s, ?_⟩
    rw [Nat.max_eq_left (by assumption)]
  · refine ⟨_, ?_, by rw [Nat.max_eq_right (by omega)]⟩
    split
    · exact (OnlyCounts.passPackage ..).trans (OnlyCounts.passContext ..)
    · exact OnlyCounts.passPackage ..

/-- Time moves on: time, counters and used free values change, nothing else. -/
theorem advanceTo_parts (s : State) (t : Nat) :
    advanceTo s t = { s with time := max s.time t, counters := (advanceTo s t).counters, waits := (advanceTo s t).waits
                             free := (advanceTo s t).free, ctxs := (advanceTo s t).ctxs }
      ∧ ∀ m, ∃ k w a, ctxAt (advanceTo s t) m = (ctxAt s m).map fun c => counted c k w a := by
  obtain ⟨u, h, e⟩ := advanceTo_eq s t
  rw [e]
  refine ⟨?_, h.2⟩
  have := h.1
  rw [this]

/-- A program stays as it is while time passes. -/
theorem progAt_advanceTo (s : State) (t n : Nat) : progAt (advanceTo s t) n = progAt s n := by
  obtain ⟨k, w, a, e⟩ := (advanceTo_parts s t).2 n
  unfold progAt
  rw [e]
  cases ctxAt s n <;> rfl

end Sys2Proof.Machine
end

