-- ==== Sys2Proof/Laws/Journal.lean ====
section
/-! SUPPORT. The journal: what appending a change and compacting do to the epoch in force, the records in effect and the index limit
(16 R381 to R384, R393). -/

namespace Sys2Proof.Machine

/-! ### Numbers and scans -/

theorem foldl_max_le {l : List Nat} {a b : Nat} (ha : a ≤ b) (hl : ∀ x ∈ l, x ≤ b) : l.foldl max a ≤ b := by
  induction l generalizing a with
  | nil => exact ha
  | cons x l ih => exact ih (max_le ha (hl x (by simp))) fun y hy => hl y (by simp [hy])

theorem le_foldl_max (l : List Nat) (a : Nat) : a ≤ l.foldl max a ∧ ∀ x ∈ l, x ≤ l.foldl max a := by
  induction l generalizing a with
  | nil => exact ⟨le_refl _, by simp⟩
  | cons x l ih =>
    obtain ⟨h, g⟩ := ih (max a x)
    refine ⟨(le_max_left ..).trans h, fun y hy => ?_⟩
    rcases List.mem_cons.1 hy with rfl | hy
    · exact (le_max_right ..).trans h
    · exact g y hy

/-- A record that is appended takes a number above all others (R381). -/
theorem lt_nextSeq {j : List JournalRecord} {r : JournalRecord} (h : r ∈ j) : r.seq < nextSeq j :=
  Nat.lt_succ_of_le ((le_foldl_max (j.map (·.seq)) 0).2 _ (List.mem_map_of_mem h))

theorem nextSeq_append (j l : List JournalRecord) : nextSeq j ≤ nextSeq (j ++ l) := by
  simp only [nextSeq, List.map_append, List.foldl_append]
  exact Nat.succ_le_succ (le_foldl_max _ _).1

theorem scanFrom_subset (dead : List Nat) (j : List JournalRecord) : ∀ r ∈ scanFrom dead j, r ∈ j := by
  induction j generalizing dead with
  | nil => simp [scanFrom]
  | cons x j ih =>
    intro r hr
    unfold scanFrom at hr
    split at hr
    · exact List.mem_cons_of_mem _ (ih _ r hr)
    · split at hr
      · rcases List.mem_cons.1 hr with rfl | hr
        · simp
        · exact List.mem_cons_of_mem _ (ih _ r hr)
      · exact List.mem_cons_of_mem _ (ih _ r hr)

theorem scanFrom_append (dead : List Nat) (j l : List JournalRecord) :
    scanFrom dead (j ++ l) = scanFrom dead j ++ scanFrom (deadFrom dead j) l := by
  induction j generalizing dead with
  | nil => rfl
  | cons x j ih =>
    simp only [List.cons_append, scanFrom, deadFrom]
    by_cases h : dead.contains x.start
    · simp only [h, if_true, Bool.true_or, ih]
    · by_cases g : x.intact
      · simp only [h, g, if_true, if_false, Bool.or_true, ih, List.cons_append, Bool.false_eq_true]
      · simp only [h, g, if_false, Bool.or_self, Bool.false_eq_true, ih]

theorem scanFrom_intact {j : List JournalRecord} (h : ∀ r ∈ j, r.intact = true) : scanFrom [] j = j := by
  induction j with
  | nil => rfl
  | cons x j ih =>
    simp only [scanFrom, h x (by simp), List.contains_nil, if_true, Bool.false_eq_true, if_false, ih fun r hr => h r (by simp [hr])]

theorem make_intact (seq epoch : Nat) (b : JournalBody) (e : List Extent) : (JournalRecord.make seq epoch b e).intact = true := by
  simp [JournalRecord.intact, JournalRecord.make]

/-! ### Records appended behind others (R382) -/

/-- A body that is no COMPACT_COMMIT, and no COMMIT of records before number n. -/
def Late (n : Nat) : JournalBody → Prop
  | .compactCommit _ _ => False
  | .commit first _ _ => n ≤ first
  | _ => True

theorem bodiesDigest_append {p l : List JournalRecord} {n : Nat} (hl : ∀ r ∈ l, n ≤ r.seq) (e a : Nat) {b : Nat} (hb : b ≤ n) :
    bodiesDigest (p ++ l) e a b = bodiesDigest p e a b := by
  have : (l.filter fun r => r.epoch == e && decide (a ≤ r.seq ∧ r.seq < b)) = [] := by
    rw [List.filter_eq_nil_iff]
    intro r hr
    have := hl r hr
    simp only [Bool.and_eq_true, decide_eq_true_eq, not_and]
    omega
  simp only [bodiesDigest, List.filter_append, this, List.append_nil]

/-- What the scanned list p keeps when late records l are appended. -/
structure Behind (n : Nat) (p l : List JournalRecord) : Prop where
  before : ∀ r ∈ p, r.seq < n
  after : ∀ r ∈ l, n ≤ r.seq
  late : ∀ r ∈ l, Late n r.body

theorem Behind.baseEpoch {n : Nat} {p l : List JournalRecord} (h : Behind n p l) : baseEpoch (p ++ l) = baseEpoch p := by
  have h1 : p.filter (isBase (p ++ l)) = p.filter (isBase p) := by
    refine List.filter_congr fun c hc => ?_
    unfold isBase
    split
    · rw [bodiesDigest_append h.after _ _ (h.before c hc).le]
    · rfl
  have h2 : l.filter (isBase (p ++ l)) = [] := by
    rw [List.filter_eq_nil_iff]
    intro c hc
    have := h.late c hc
    unfold isBase
    cases hb : c.body <;> simp_all [Late]
  simp only [Machine.baseEpoch, List.filter_append, h1, h2, List.append_nil]

/-- Late records cover none of the earlier ones, and change nothing of what covers these. -/
theorem Behind.covers {n : Nat} {p l : List JournalRecord} (h : Behind n p l) {x : JournalRecord} (hx : x ∈ p) :
    (p ++ l).any (covers (p ++ l) x) = p.any (covers p x) := by
  have h1 : p.any (Machine.covers (p ++ l) x) = p.any (Machine.covers p x) := by
    rw [Bool.eq_iff_iff, List.any_eq_true, List.any_eq_true]
    refine exists_congr fun c => and_congr_right fun hc => ?_
    unfold Machine.covers
    cases c.body <;> simp only [bodiesDigest_append h.after _ _ (h.before c hc).le]
  have h2 : l.any (Machine.covers (p ++ l) x) = false := by
    rw [List.any_eq_false]
    intro c hc
    have hl := h.late c hc
    have hs := h.before x hx
    unfold Machine.covers
    cases hb : c.body with
    | commit first k d =>
      rw [hb] at hl
      simp only [Late] at hl
      have : ¬ first ≤ x.seq := by omega
      simp [this]
    | _ => simp_all [Late]
  rw [List.any_append, h1, h2, Bool.or_false]

theorem Behind.inEffect {n : Nat} {j l : List JournalRecord} (h : Behind n j l) :
    ∃ l', inEffect (j ++ l) = inEffect j ++ l' ∧ ∀ r ∈ l', r ∈ l := by
  have hs : scan (j ++ l) = scan j ++ scanFrom (deadFrom [] j) l := scanFrom_append ..
  have hb : Behind n (scan j) (scanFrom (deadFrom [] j) l) :=
    ⟨fun r hr => h.before r (scanFrom_subset _ _ r hr), fun r hr => h.after r (scanFrom_subset _ _ r hr),
      fun r hr => h.late r (scanFrom_subset _ _ r hr)⟩
  refine ⟨(scanFrom (deadFrom [] j) l).filter fun r =>
    r.epoch == Machine.baseEpoch (scan (j ++ l)) && (scan (j ++ l)).any (Machine.covers (scan (j ++ l)) r), ?_,
    fun r hr => scanFrom_subset _ _ r (List.mem_of_mem_filter hr)⟩
  unfold Machine.inEffect
  dsimp only
  rw [hs, List.filter_append, hb.baseEpoch]
  congr 1
  exact List.filter_congr fun x hx => by rw [hb.covers hx]

/-- The limit does not fall; it stays where no INDEX_RESERVE is appended. -/
theorem Behind.limit {n : Nat} {j l : List JournalRecord} (h : Behind n j l) :
    limitOf j ≤ limitOf (j ++ l) ∧ ((∀ r ∈ l, reserveOf r.body = none) → limitOf (j ++ l) = limitOf j) := by
  obtain ⟨l', e, hl⟩ := h.inEffect
  have g : limitOf (j ++ l) = (((l'.map (·.body)).filterMap reserveOf)).foldl max (limitOf j) := by
    simp only [limitOf, bodies, e, List.map_append, List.filterMap_append, List.foldl_append]
  refine ⟨g ▸ (le_foldl_max _ _).1, fun hr => ?_⟩
  have : (l'.map (·.body)).filterMap reserveOf = [] := by
    rw [List.filterMap_eq_nil_iff]
    intro b hb
    obtain ⟨r, h1, rfl⟩ := List.mem_map.1 hb
    exact hr r (hl r h1)
  rw [g, this]; rfl

theorem Behind.epoch {n : Nat} {j l : List JournalRecord} (h : Behind n j l) :
    Machine.baseEpoch (scan (j ++ l)) = Machine.baseEpoch (scan j) := by
  have hb : Behind n (scan j) (scanFrom (deadFrom [] j) l) :=
    ⟨fun r hr => h.before r (scanFrom_subset _ _ r hr), fun r hr => h.after r (scanFrom_subset _ _ r hr),
      fun r hr => h.late r (scanFrom_subset _ _ r hr)⟩
  rw [show scan (j ++ l) = scan j ++ scanFrom (deadFrom [] j) l from scanFrom_append .., hb.baseEpoch]

/-! ### Appending a change (R382) -/

/-- From t to u only the journal and what is known of blocks has changed. -/
def StoreOnly (t u : Tollhouse) : Prop :=
  u = { t with journal := u.journal, retired := u.retired, toRetire := u.toRetire, failing := u.failing }

theorem StoreOnly.trans {t u v : Tollhouse} (h : StoreOnly t u) (g : StoreOnly u v) : StoreOnly t v := by
  unfold StoreOnly at *; rw [g, h]

theorem StoreOnly.lose (u : Tollhouse) (f : Nat → Bool) (j : List JournalRecord) : StoreOnly u { u.lose f with journal := j } := rfl

/-- Programming a record appends it, or nothing. -/
theorem program_journal (old : List JournalRecord) (epoch : Nat) (t : Tollhouse) (b : JournalBody) :
    (∃ l, (program old epoch t b).journal = t.journal ++ l ∧ (l = [] ∨ ∃ x, l = [.make (nextSeq (old ++ t.journal)) epoch b x]))
      ∧ StoreOnly t (program old epoch t b) := by
  refine ⟨?_, rfl⟩
  unfold program
  dsimp only
  split
  · exact ⟨_, rfl, .inr ⟨_, rfl⟩⟩
  · exact ⟨[], by simp, .inl rfl⟩

/-- From t to u records with numbers from n on have been appended, of the epoch in force, with bodies as told. -/
def Extends (n : Nat) (ok : JournalBody → Prop) (t u : Tollhouse) : Prop :=
  (∃ l, u.journal = t.journal ++ l ∧ ∀ r ∈ l, n ≤ r.seq ∧ r.epoch = epochOf t ∧ Late n r.body ∧ ok r.body)
    ∧ StoreOnly t u

theorem Extends.refl (n : Nat) (ok : JournalBody → Prop) (t : Tollhouse) : Extends n ok t t := ⟨⟨[], by simp, by simp⟩, rfl⟩

theorem Extends.epoch {n : Nat} {ok : JournalBody → Prop} {t u : Tollhouse} (hn : nextSeq t.journal = n) (h : Extends n ok t u) :
    epochOf u = epochOf t := by
  obtain ⟨⟨l, e, hl⟩, -⟩ := h
  have : Behind n t.journal l := ⟨fun r hr => hn ▸ lt_nextSeq hr, fun r hr => (hl r hr).1, fun r hr => (hl r hr).2.2.1⟩
  unfold epochOf
  rw [e, this.epoch]

theorem Extends.append {n : Nat} {ok : JournalBody → Prop} {t u : Tollhouse} (hn : nextSeq t.journal = n) (h : Extends n ok t u)
    {b : JournalBody} (hl : Late n b) (hb : ok b) : Extends n ok t (appendRecord u b) := by
  have he := h.epoch hn
  obtain ⟨⟨l, e, g⟩, k⟩ := h
  obtain ⟨⟨l', e', g'⟩, k'⟩ := program_journal [] (epochOf u) u b
  refine ⟨⟨l ++ l', by rw [appendRecord, e', e, List.append_assoc], fun r hr => ?_⟩, k.trans k'⟩
  rcases List.mem_append.1 hr with hr | hr
  · exact g r hr
  · rcases g' with rfl | ⟨x, rfl⟩
    · simp at hr
    · rw [List.mem_singleton] at hr
      subst hr
      refine ⟨?_, he, hl, hb⟩
      show n ≤ nextSeq ([] ++ u.journal)
      rw [List.nil_append, e, ← hn]
      exact nextSeq_append ..

theorem Extends.appendAll {n : Nat} {ok : JournalBody → Prop} {t u : Tollhouse} (hn : nextSeq t.journal = n) (h : Extends n ok t u)
    {bs : List JournalBody} (hb : ∀ b ∈ bs, Late n b ∧ ok b) : Extends n ok t (bs.foldl appendRecord u) := by
  induction bs generalizing u with
  | nil => exact h
  | cons b bs ih => exact ih (h.append hn (hb b (by simp)).1 (hb b (by simp)).2) fun c hc => hb c (by simp [hc])

/-- A change appends its bodies and a COMMIT behind the records that stand. -/
theorem commitRecords_extends {ok : JournalBody → Prop} (t : Tollhouse) (kind : Nat) {bs : List JournalBody}
    (hb : ∀ b ∈ bs, Late (nextSeq t.journal) b ∧ ok b) (hc : ∀ f k d, ok (.commit f k d)) :
    Extends (nextSeq t.journal) ok t (commitRecords t kind bs) :=
  ((Extends.refl _ _ _).appendAll rfl hb).append rfl (by simp [commitBody, Late]) (hc _ _ _)

/-- A change keeps the index discipline: one epoch stays one, and the limit does not fall. -/
theorem Extends.index {n : Nat} {ok : JournalBody → Prop} {t u : Tollhouse} (hn : nextSeq t.journal = n) (h : Extends n ok t u) :
    (OneEpoch t → OneEpoch u) ∧ indexLimit t ≤ indexLimit u ∧ u.q = t.q
      ∧ ((∀ b, ok b → reserveOf b = none) → indexLimit u = indexLimit t) := by
  have he := h.epoch hn
  obtain ⟨⟨l, e, g⟩, k⟩ := h
  have hb : Behind n t.journal l := ⟨fun r hr => hn ▸ lt_nextSeq hr, fun r hr => (g r hr).1, fun r hr => (g r hr).2.2.1⟩
  refine ⟨fun w r hr => ?_, ?_, by rw [k], fun hk => ?_⟩
  · rw [he]
    rw [e] at hr
    rcases List.mem_append.1 hr with hr | hr
    · exact w r hr
    · exact (g r hr).2.1
  · unfold indexLimit
    rw [e]; exact hb.limit.1
  · unfold indexLimit
    rw [e]; exact hb.limit.2 fun r hr => hk _ (g r hr).2.2.2

/-! ### Compaction (R384) -/

/-- Copies of bodies in a new epoch: at most one record for each, and where all are there, with these bodies. -/
theorem copies (old : List JournalRecord) (epoch : Nat) (bs : List JournalBody) (u : Tollhouse) :
    ∃ l, (bs.foldl (program old epoch) u).journal = u.journal ++ l ∧ (∀ r ∈ l, r.intact = true ∧ r.epoch = epoch)
      ∧ l.length ≤ bs.length ∧ (l.length = bs.length → l.map (·.body) = bs)
      ∧ StoreOnly u (bs.foldl (program old epoch) u) := by
  induction bs generalizing u with
  | nil => exact ⟨[], by simp, by simp, by simp, by simp, rfl⟩
  | cons b bs ih =>
    obtain ⟨⟨l, e, h⟩, k⟩ := program_journal old epoch u b
    obtain ⟨l', e', h', hl, hm, k'⟩ := ih (program old epoch u b)
    rw [List.foldl_cons]
    refine ⟨l ++ l', by rw [e', e, List.append_assoc], fun r hr => ?_, ?_, fun hn => ?_, k.trans k'⟩
    · rcases List.mem_append.1 hr with hr | hr
      · rcases h with rfl | ⟨x, rfl⟩
        · simp at hr
        · rw [List.mem_singleton] at hr
          subst hr
          exact ⟨make_intact .., rfl⟩
      · exact h' r hr
    · have : l.length ≤ 1 := by rcases h with rfl | ⟨x, rfl⟩ <;> simp
      simp only [List.length_append, List.length_cons]; omega
    · rcases h with rfl | ⟨x, rfl⟩
      · simp only [List.nil_append, List.length_cons] at hn; omega
      · simp only [List.length_append, List.length_cons, List.length_nil] at hn
        rw [List.map_append, hm (by omega)]
        rfl

theorem foldl_max_const {l : List Nat} {a : Nat} (h : ∀ x ∈ l, x = a) (hl : l ≠ []) : l.foldl max 0 = a := by
  refine le_antisymm (foldl_max_le (Nat.zero_le _) fun x hx => (h x hx).le) ?_
  obtain ⟨x, l', rfl⟩ := List.exists_cons_of_ne_nil hl
  rw [← h x (by simp)]
  exact (le_foldl_max _ _).2 x (by simp)

/-- A whole new epoch: its records in order, then the COMPACT_COMMIT over their bodies. -/
theorem wholeEpoch {l : List JournalRecord} {e n : Nat} {blocks : List Nat} {d : List Byte} {x : List Extent}
    (hi : ∀ r ∈ l, r.intact = true ∧ r.epoch = e) (hn : ∀ r ∈ l, r.seq < n) (hd : d = bodiesDigest (scan l) e 0 n) :
    (∀ r ∈ l ++ [.make n e (.compactCommit blocks d) x], r.epoch = baseEpoch (scan (l ++ [.make n e (.compactCommit blocks d) x])))
      ∧ inEffect (l ++ [.make n e (.compactCommit blocks d) x]) = l := by
  set c := JournalRecord.make n e (.compactCommit blocks d) x with hc
  have hall : ∀ r ∈ l ++ [c], r.intact = true ∧ r.epoch = e := fun r hr => by
    rcases List.mem_append.1 hr with hr | hr
    · exact hi r hr
    · rw [List.mem_singleton.1 hr]; exact ⟨make_intact .., rfl⟩
  have hs : scan (l ++ [c]) = l ++ [c] := scanFrom_intact fun r hr => (hall r hr).1
  have hs' : scan l = l := scanFrom_intact fun r hr => (hi r hr).1
  have hcs : c.seq = n := rfl
  have hce : c.epoch = e := rfl
  have hcb : c.body = .compactCommit blocks d := rfl
  have dig : bodiesDigest (l ++ [c]) e 0 n = d := by
    rw [hd, hs']
    exact bodiesDigest_append (fun r hr => by rw [List.mem_singleton.1 hr, hcs]) _ _ (le_refl n)
  have hb : isBase (l ++ [c]) c = true := by
    simp only [isBase, hcb, hcs, hce, dig, beq_self_eq_true]
  have he : baseEpoch (l ++ [c]) = e := by
    refine foldl_max_const ?_ ?_
    · intro y hy
      obtain ⟨r, hr, rfl⟩ := List.mem_map.1 hy
      exact (hall r (List.mem_of_mem_filter hr)).2
    · intro h0
      have : c ∈ (l ++ [c]).filter (isBase (l ++ [c])) := List.mem_filter.2 ⟨by simp, hb⟩
      rw [List.map_eq_nil_iff] at h0
      rw [h0] at this
      simp at this
  refine ⟨fun r hr => by rw [hs, he]; exact (hall r hr).2, ?_⟩
  unfold inEffect
  dsimp only
  rw [hs, he, List.filter_append]
  have h1 : l.filter (fun r => r.epoch == e && (l ++ [c]).any (covers (l ++ [c]) r)) = l := by
    rw [List.filter_eq_self]
    intro r hr
    have : covers (l ++ [c]) r c = true := by
      simp only [covers, hcb, hcs, hce, dig, (hi r hr).2, hn r hr, beq_self_eq_true, decide_true, Bool.and_self]
    simp only [(hi r hr).2, beq_self_eq_true, Bool.true_and, List.any_append, List.any_cons, this, Bool.true_or, Bool.or_true]
  have h2 : [c].filter (fun r => r.epoch == e && (l ++ [c]).any (covers (l ++ [c]) r)) = [] := by
    rw [List.filter_eq_nil_iff]
    intro r hr
    rw [List.mem_singleton.1 hr]
    have : (l ++ [c]).any (covers (l ++ [c]) c) = false := by
      rw [List.any_eq_false]
      intro y hy
      have : ¬ c.seq < y.seq := by
        rcases List.mem_append.1 hy with hy | hy
        · have := hn y hy; rw [hcs]; omega
        · rw [List.mem_singleton.1 hy]; omega
      simp [covers, this]
    simp [this]
  rw [h1, h2, List.append_nil]

/-- The bodies that compaction copies reserve exactly the limit. -/
theorem limit_kept (j : List JournalRecord) : (((JournalBody.compactBegin :: kept j).filterMap reserveOf)).foldl max 0 = limitOf j := by
  have h1 : ((bodies j).filter (isKept j)).filterMap reserveOf = [] := by
    rw [List.filterMap_eq_nil_iff]
    intro b hb
    have := (List.mem_filter.1 hb).2
    cases b <;> simp_all [isKept, reserveOf]
  have h2 : ((newest 1024 (persistedEntries j)).map JournalBody.errlog).filterMap reserveOf = [] := by
    rw [List.filterMap_eq_nil_iff]
    intro b hb
    obtain ⟨e, -, rfl⟩ := List.mem_map.1 hb
    rfl
  have h3 : (JournalBody.compactBegin :: kept j).filterMap reserveOf = if limitOf j = 0 then [] else [limitOf j] := by
    rw [List.filterMap_cons]
    simp only [kept, List.filterMap_append, h1, h2, List.nil_append, List.append_nil, reserveOf]
    split <;> rfl
  rw [h3]
  split
  · rename_i h; rw [h]; rfl
  · simp

/-- Compaction keeps the limit and leaves one epoch where one stood. -/
theorem compact_index (t : Tollhouse) :
    indexLimit (compact t) = indexLimit t ∧ (OneEpoch t → OneEpoch (compact t))
      ∧ StoreOnly t (compact t) := by
  obtain ⟨l, e, hi, hl, hm, k⟩ := copies t.journal (epochOf t + 1) (.compactBegin :: kept t.journal) { t with journal := [] }
  have ec : (copyEpoch t).journal = l := by rw [copyEpoch, e]; rfl
  obtain ⟨⟨l', e', hl'⟩, k'⟩ := program_journal t.journal (epochOf t + 1) (copyEpoch t)
    (.compactCommit (blockList (program t.journal (epochOf t + 1) (copyEpoch t) (.compactCommit []
      (bodiesDigest (scan (copyEpoch t).journal) (epochOf t + 1) 0 (nextSeq (t.journal ++ (copyEpoch t).journal))))).journal)
      (bodiesDigest (scan (copyEpoch t).journal) (epochOf t + 1) 0 (nextSeq (t.journal ++ (copyEpoch t).journal))))
  have es : (sealEpoch t.journal (epochOf t + 1) (copyEpoch t)).journal = l ++ l' := by
    rw [sealEpoch, e', ec]
  have frame : StoreOnly t (compact t) := by
    have h : StoreOnly t (sealEpoch t.journal (epochOf t + 1) (copyEpoch t)) :=
      StoreOnly.trans (u := copyEpoch t) (StoreOnly.trans (u := { t with journal := [] }) rfl k) k'
    unfold compact
    exact h.trans (StoreOnly.lose ..)
  have hc : (compact t).journal = if (sealEpoch t.journal (epochOf t + 1) (copyEpoch t)).journal.length == (kept t.journal).length + 2 then
      (sealEpoch t.journal (epochOf t + 1) (copyEpoch t)).journal else t.journal := by unfold compact; rfl
  refine ⟨?_, ?_, frame⟩
  all_goals
    by_cases hw : (sealEpoch t.journal (epochOf t + 1) (copyEpoch t)).journal.length = (kept t.journal).length + 2
    · have hj : (compact t).journal = l ++ l' := by
        rw [hc, if_pos (by simpa using hw), es]
      rw [es, List.length_append] at hw
      simp only [List.length_cons] at hl hm
      have hl1 : l'.length ≤ 1 := by rcases hl' with rfl | ⟨x, rfl⟩ <;> simp
      have h1 : l.map (·.body) = .compactBegin :: kept t.journal := hm (by omega)
      have h2 : l' ≠ [] := by rintro rfl; simp at hw; omega
      obtain ⟨x, hx⟩ := hl'.resolve_left h2
      have hseq : ∀ r ∈ l, r.seq < nextSeq (t.journal ++ (copyEpoch t).journal) := fun r hr =>
        lt_nextSeq (List.mem_append_right _ (ec ▸ hr))
      have hwhole := wholeEpoch (x := x) hi hseq
        (d := bodiesDigest (scan (copyEpoch t).journal) (epochOf t + 1) 0 (nextSeq (t.journal ++ (copyEpoch t).journal)))
        (by rw [ec])
        (blocks := blockList (program t.journal (epochOf t + 1) (copyEpoch t) (.compactCommit []
          (bodiesDigest (scan (copyEpoch t).journal) (epochOf t + 1) 0 (nextSeq (t.journal ++ (copyEpoch t).journal))))).journal)
      rw [← hx] at hwhole
      first
        | (unfold indexLimit
           rw [hj]
           show ((bodies (l ++ l')).filterMap reserveOf).foldl max 0 = _
           unfold bodies
           rw [hwhole.2, h1]
           exact limit_kept _)
        | (intro _ r hr
           unfold epochOf
           rw [hj] at hr ⊢
           exact hwhole.1 r hr)
    · have hj : (compact t).journal = t.journal := by
        rw [hc, if_neg (by simpa using hw)]
      first
        | (unfold indexLimit; rw [hj]; done)
        | (intro w r hr
           unfold epochOf
           rw [hj] at hr ⊢
           exact w r hr)

/-- Where one epoch stands, nothing is dropped (R383). -/
theorem dropOthers_one {t : Tollhouse} (h : OneEpoch t) : (dropOthers t).journal = t.journal := by
  simp only [dropOthers]
  rw [List.filter_eq_self]
  intro r hr
  simp [h r hr]

/-! ### A store without room (R380) -/

/-- Where the store has no room, a record is not written (log 93). -/
theorem program_full {old : List JournalRecord} {t : Tollhouse} {b : JournalBody} (epoch : Nat) (hs : spaces t old = []) (hb : b.pages ≠ 0) :
    program old epoch t b = t := by
  have : (0 == b.pages) = false := by simpa using hb.symm
  have hf : ∀ l : List Nat, l.filter ([] : List Nat).contains = [] := fun l => by simp
  simp [program, hs, fill, Tollhouse.lose, this, hf]

/-- A store whose blocks are all retired has no room. -/
theorem spaces_full {old : List JournalRecord} {t : Tollhouse} (hj : openSpace t = []) (hr : ∀ b < 2048, b ∈ t.retired) : spaces t old = [] := by
  simp [spaces, hj]
  exact fun b hb h => absurd (hr b hb) h

theorem commitRecords_full {t : Tollhouse} (kind : Nat) {bs : List JournalBody} (hs : spaces t [] = []) (hb : ∀ b ∈ bs, b.pages ≠ 0) :
    commitRecords t kind bs = t := by
  have : bs.foldl appendRecord t = t := by
    induction bs with
    | nil => rfl
    | cons b bs ih =>
      rw [List.foldl_cons, appendRecord, program_full _ hs (hb b (by simp))]
      exact ih fun c hc => hb c (by simp [hc])
  rw [commitRecords, this, appendRecord, program_full _ hs]
  simp [commitBody, JournalBody.pages, JournalBody.size, ceilDiv]

/-- A compaction of a store without room copies nothing. -/
theorem sealEpoch_full {t : Tollhouse} (epoch : Nat) (hr : ∀ b < 2048, b ∈ t.retired) :
    (sealEpoch t.journal epoch (copyEpoch t)).journal = [] := by
  have hs : spaces { t with journal := [] } t.journal = [] := spaces_full rfl hr
  have hk : ∀ b ∈ JournalBody.compactBegin :: kept t.journal, b.pages ≠ 0 := by
    intro b _
    simp only [JournalBody.pages, ceilDiv]
    omega
  have hc : copyEpoch t = { t with journal := [] } := by
    unfold copyEpoch
    generalize JournalBody.compactBegin :: kept t.journal = bs at hk ⊢
    induction bs with
    | nil => rfl
    | cons b bs ih =>
      rw [List.foldl_cons, program_full _ hs (hk b (by simp))]
      exact ih fun c hc => hk c (by simp [hc])
  rw [hc, sealEpoch, program_full _ hs]
  simp only [JournalBody.pages, ceilDiv]
  omega

end Sys2Proof.Machine
end

