-- ==== Sys2Proof/Laws/Meeting.lean ====
section
/-! SUPPORT. The meeting of a stage's piers: when every pier has reached the rendezvous, and what completing it moves. -/

namespace Sys2Proof.Machine

/-- A filled buffer holds the next word. -/
theorem buffered_filled {s : State} {im : Image} {p : Nat} (h : (pierAt s p).index < deckLength im p) :
    bufferedWord (filled s im p) = some (peekWord s im p) := by
  unfold filled peekWord
  cases hb : bufferedWord (pierAt s p) with
  | some w => simp [hb]
  | none =>
    have hk : 0 < min 4096 (deckLength im p - (pierAt s p).index) := by omega
    have hl : leNat (s.hbm.mem.read (deckAddr im p (pierAt s p).index) 16) < 2 ^ 128 := by
      have := leNat_lt (s.hbm.mem.read (deckAddr im p (pierAt s p).index) 16)
      rw [read_length] at this
      exact this
    simp only [hb]
    simp only [bufferedWord, lt_irrefl, if_false, Nat.sub_self, List.getElem?_map, List.getElem?_range hk, Option.map_some,
      Option.getD_none, Nat.mul_zero, field_head _ _ _ hk, BitVec.toNat_ofNat, Nat.mod_eq_of_lt hl]

/-- What fetching the words of piers makes of the state, in an HBM without errors (R92, R94). -/
theorem fetchWords_clean {n : Nat} {im : Image} (ps : List Nat) {s : State} (eu : s.hbm.uncorrectable = [])
    (ec : s.hbm.correctable = []) (hd : ∀ p ∈ ps, (pierAt s p).index < deckLength im p) :
    ∃ t, fetchWords n im ps s = (t, some (ps.map fun p => (p, (pierAt s p).index, peekWord s im p))) ∧ Fetched s t im ps := by
  induction ps generalizing s with
  | nil => exact ⟨s, rfl, by simp, rfl⟩
  | cons p ps ih =>
    have h := hd p (by simp)
    obtain ⟨t, e1, e2, e3⟩ := fetchWord_clean (n := n) h eu ec
    have hh : t.hbm = s.hbm := by rw [e2]
    have hi : ∀ q, (pierAt t q).index = (pierAt s q).index := fun q => by
      rw [e3]; split
      · rename_i e; subst e; simp
      · rfl
    have hf : ∀ q, filled t im q = if p = q then filled s im p else filled s im q := fun q => by
      by_cases e : p = q
      · subst e
        have hb : bufferedWord (pierAt t p) = some (peekWord s im p) := by rw [e3, if_pos rfl]; exact buffered_filled h
        have : filled t im p = pierAt t p := by unfold filled; simp only [hb]
        rw [if_pos rfl, this, e3, if_pos rfl]
      · have : pierAt t q = pierAt s q := by rw [e3, if_neg e]
        rw [if_neg e]; unfold filled; rw [this, hh]
    have hw : ∀ q, peekWord t im q = peekWord s im q := fun q => by
      by_cases e : p = q
      · subst e
        have hb : bufferedWord (pierAt t p) = some (peekWord s im p) := by rw [e3, if_pos rfl]; exact buffered_filled h
        unfold peekWord at hb ⊢; rw [hb]; rfl
      · have : pierAt t q = pierAt s q := by rw [e3, if_neg e]
        unfold peekWord; rw [this, hh]
    obtain ⟨u, f1, f2, f3⟩ := ih (s := t) (by rw [hh]; exact eu) (by rw [hh]; exact ec)
      fun q hq => by rw [hi]; exact hd q (by simp [hq])
    refine ⟨u, ?_, fun q => ?_, by rw [f3, e2]⟩
    · unfold fetchWords
      simp only [if_neg (Nat.not_le.2 h), e1, f1, List.map_cons, Option.some.injEq, Prod.mk.injEq, true_and, hi, hw]
    · rw [f2, hf, e3]
      by_cases e : p = q
      · subst e; simp
      · have : ¬ q = p := fun c => e c.symm
        simp [e, this]

/-- A row whose opcode the meeting has runs on the met piers. -/
theorem atStage_meets {s : State} {k : Nat} {m : Meet} (h : Meets s k m) :
    ∃ t, Fetched s t m.im (m.piers.map (·.1)) ∧ ∀ (accept : Nat → Bool) (f : State → Meet → Option State),
      accept (opcodeOf m.word) = true → atStage s k accept f = (f t m).getD s := by
  obtain ⟨hk, hi, him, hp, hw, hr, hx, eu, ec⟩ := h
  obtain ⟨t, e, hF⟩ := fetchWords_clean (n := m.n) (im := m.im) (stagePiers m.im.decls k) eu ec fun p h => (hr p h).2
  have hps : m.piers.map (·.1) = stagePiers m.im.decls k := by rw [hp]; simp [Function.comp_def]
  refine ⟨t, hps ▸ hF, fun accept f ha => ?_⟩
  have hf : (stagePiers m.im.decls k).filter (atRest s) = stagePiers m.im.decls k := List.filter_eq_self.2 fun p h => (hr p h).1
  unfold atStage
  simp only [hi, him]
  simp only [hf, e]
  rw [← hp]
  unfold meet
  have hg : (m.piers.filter fun x => isRendezvous (opcodeOf x.2.2)) = m.piers := List.filter_eq_self.2 fun x h => (hx x h).1
  rw [hg]
  cases hm : m.piers with
  | nil => rw [hm] at hw; simp at hw
  | cons x rest =>
    rw [hm] at hw
    simp only [List.head?_cons, Option.map_some, Option.some.injEq] at hw
    have hl : ¬ (x :: rest).length < (stagePiers m.im.decls k).length := by rw [← hm, hp]; simp
    have hn : misfit (x :: rest) = none := by
      unfold misfit
      have : (x :: rest).filter (fun x => isRendezvous (opcodeOf x.2.2)) = x :: rest := by rw [← hm]; exact hg
      rw [this]
      dsimp only
      rw [List.find?_eq_none]
      intro y hy
      have := hx y (hm ▸ hy)
      rw [hw]
      simp [this.2.1, this.2.2]
    simp only [hn, hw, ha, Bool.not_true, Bool.false_eq_true, if_false, if_neg hl]
    have : ({ n := m.n, im := m.im, stage := k, piers := x :: rest, word := m.word } : Meet) = m := by cases m; simp_all
    simp only [this]

/-- One pier of a completed meeting without a sampling session. -/
theorem advancePier_plain {s : State} {n : Nat} (h : (ctxAt s n).bind (·.sampling) = none) (x : Nat × Nat × Nat) :
    advancePier n 0 s x = countEvent (modPier s x.1 fun P => { P with index := x.2.1 + 1 }) n x.1 0x01 1 := by
  unfold advancePier
  obtain ⟨g, e⟩ := countEvent_eq (modPier s x.1 fun P => { P with index := x.2.1 + 1 }) n x.1 0x01 1
  dsimp only
  rw [sampleTick_none]
  · rfl
  · rw [e]; exact ctxAt_sampling_modCtx h g

theorem sampling_advance {s : State} {n : Nat} (h : (ctxAt s n).bind (·.sampling) = none) (x : Nat × Nat × Nat) :
    (ctxAt (advancePier n 0 s x) n).bind (·.sampling) = none := by
  rw [advancePier_plain h]
  obtain ⟨g, e⟩ := countEvent_eq (modPier s x.1 fun P => { P with index := x.2.1 + 1 }) n x.1 0x01 1
  rw [e]; exact ctxAt_sampling_modCtx h g

theorem advanceAll_plain {n : Nat} (xs : List (Nat × Nat × Nat)) {s : State} (h : (ctxAt s n).bind (·.sampling) = none)
    (hn : (xs.map (·.1)).Nodup) :
    (∀ x ∈ xs, pierAt (xs.foldl (advancePier n 0) s) x.1 = { pierAt s x.1 with index := x.2.1 + 1 })
      ∧ (∀ q, q ∉ xs.map (·.1) → pierAt (xs.foldl (advancePier n 0) s) q = pierAt s q)
      ∧ Beside s (xs.foldl (advancePier n 0) s) n ∧ (ctxAt (xs.foldl (advancePier n 0) s) n).bind (·.sampling) = none := by
  induction xs generalizing s with
  | nil => exact ⟨by simp, fun _ _ => rfl, Beside.refl _ _, h⟩
  | cons x xs ih =>
    simp only [List.map_cons, List.nodup_cons] at hn
    obtain ⟨h1, h2, h3, h4⟩ := ih (sampling_advance h x) hn.2
    have e : ∀ q, pierAt (advancePier n 0 s x) q = if x.1 = q then { pierAt s x.1 with index := x.2.1 + 1 } else pierAt s q := fun q => by
      rw [advancePier_plain h, pierAt_countEvent, pierAt_modPier _ _ _ _ (by simp)]
    have b : Beside s (advancePier n 0 s x) n := by
      rw [advancePier_plain h]; exact (Beside.modPier ..).trans (Beside.countEvent ..)
    rw [List.foldl_cons]
    refine ⟨fun y hy => ?_, fun q hq => ?_, b.trans h3, h4⟩
    · rcases List.mem_cons.1 hy with rfl | hy
      · rw [h2 _ hn.1, e, if_pos rfl]
      · have : x.1 ≠ y.1 := fun c => hn.1 (c ▸ List.mem_map_of_mem hy)
        rw [h1 y hy, e, if_neg this]
    · simp only [List.map_cons, List.mem_cons, not_or] at hq
      rw [h2 q hq.2, e, if_neg (Ne.symm hq.1)]

end Sys2Proof.Machine
end

