-- ==== Sys2Proof/Laws/Memory.lean ====
section
/-! SUPPORT. Memory: the canonical form is kept by every operation, a read after a write gives what was written, and a write
leaves every other byte alone. -/

namespace Sys2Proof.Machine

@[simp] theorem Memory.wf_nil : Memory.Wf [] := by simp [Memory.Wf]

theorem Memory.wf_cons {c : Host.Cell} {t : Memory} :
    Memory.Wf (c :: t) ↔ (∀ d ∈ t, c.1 < d.1) ∧ c.2 ≠ Memory.default ∧ Memory.Wf t := by
  simp only [Memory.Wf, List.pairwise_cons, List.mem_cons, forall_eq_or_imp]
  tauto

/-- A cell of a memory after one store is the new one or an old one. -/
theorem Memory.mem_set {m : Memory} {a : Nat} {v : Byte} {c : Host.Cell} (h : c ∈ Memory.set m a v) : c = (a, v) ∨ c ∈ m := by
  induction m with
  | nil => simp only [Memory.set] at h; split at h <;> simp_all
  | cons x t ih =>
    obtain ⟨b, w⟩ := x
    simp only [Memory.set] at h
    split at h
    · split at h <;> simp_all
    · split at h
      · split at h
        · simp [h]
        · rcases List.mem_cons.1 h with h | h <;> simp_all
      · rcases List.mem_cons.1 h with h | h
        · simp [h]
        · rcases ih h with h | h <;> simp [h]

/-- One store keeps the canonical form. -/
theorem Memory.wf_set {m : Memory} (h : Memory.Wf m) (a : Nat) (v : Byte) : Memory.Wf (Memory.set m a v) := by
  induction m with
  | nil =>
    simp only [Memory.set]
    split
    · exact Memory.wf_nil
    · exact Memory.wf_cons.2 ⟨by simp, by assumption, Memory.wf_nil⟩
  | cons x t ih =>
    obtain ⟨b, w⟩ := x
    rw [Memory.wf_cons] at h
    obtain ⟨hb, hw, ht⟩ := h
    simp only [Memory.set]
    split
    · rename_i hab
      split
      · exact Memory.wf_cons.2 ⟨hb, hw, ht⟩
      · rename_i hv
        refine Memory.wf_cons.2 ⟨fun d hd => ?_, hv, Memory.wf_cons.2 ⟨hb, hw, ht⟩⟩
        rcases List.mem_cons.1 hd with rfl | hd
        · exact hab
        · exact lt_trans hab (hb d hd)
    · split
      · subst_vars
        split
        · exact ht
        · rename_i hv
          exact Memory.wf_cons.2 ⟨hb, hv, ht⟩
      · refine Memory.wf_cons.2 ⟨fun d hd => ?_, hw, ih ht⟩
        rcases Memory.mem_set hd with rfl | hd
        · show b < a; omega
        · exact hb d hd

/-- A run of stores keeps the canonical form. -/
theorem Memory.wf_write {m : Memory} (h : Memory.Wf m) (a : Nat) (bs : List Byte) : Memory.Wf (Memory.write m a bs) := by
  induction bs generalizing m a with
  | nil => exact h
  | cons b bs ih => exact ih (Memory.wf_set h a b) (a + 1)

theorem Memory.wf_filter {m : Memory} (h : Memory.Wf m) (p : Host.Cell → Bool) : Memory.Wf (m.filter p) :=
  ⟨h.1.filter _, fun c hc => h.2 c (List.mem_filter.1 hc).1⟩

theorem Memory.wf_clear {m : Memory} (h : Memory.Wf m) (a n : Nat) : Memory.Wf (Memory.clear m a n) := Memory.wf_filter h _

theorem Memory.wf_put {m : Memory} (h : Memory.Wf m) (cs : List Host.Cell) : Memory.Wf (Memory.put m cs) := by
  induction cs generalizing m with
  | nil => exact h
  | cons c cs ih => exact ih (Memory.wf_set h c.1 c.2)

theorem Memory.wf_copyFrom {m : Memory} (h : Memory.Wf m) (src : Memory) (a b n : Nat) :
    Memory.Wf (Memory.copyFrom m src a b n) := Memory.wf_put (Memory.wf_clear h b n) _

theorem Memory.wf_fill {m : Memory} (h : Memory.Wf m) (a n w : Nat) : Memory.Wf (Memory.fill m a n w) := by
  unfold Memory.fill
  split
  · exact Memory.wf_clear h a n
  · exact Memory.wf_write h a _

/-- Restoring blocks from another memory keeps the canonical form. -/
theorem Memory.wf_keep {m : Memory} (h : Memory.Wf m) (src : Memory) (bs : List Nat) :
    Memory.Wf (bs.foldl (fun m b => Memory.copyFrom m src (64 * b) (64 * b) 64) m) := by
  induction bs generalizing m with
  | nil => exact h
  | cons b bs ih => exact ih (Memory.wf_copyFrom h _ _ _ _)

/-- A byte after one store (needs the canonical form, where the store removes a listed cell). -/
theorem Memory.get_set {m : Memory} (h : Memory.Wf m) (a b : Nat) (v : Byte) :
    Memory.get (Memory.set m a v) b = if b = a then v else Memory.get m b := by
  unfold Memory.get
  induction m with
  | nil =>
    simp only [Memory.set]
    by_cases hv : v = Memory.default
    · rw [if_pos hv]; split <;> simp [List.lookup, hv]
    · rw [if_neg hv]; by_cases hb : b = a <;> simp [List.lookup, hb, beq_eq_false_iff_ne.2]
  | cons x t ih =>
    obtain ⟨c, w⟩ := x
    rw [Memory.wf_cons] at h
    obtain ⟨hc, hw, ht⟩ := h
    have none_of : ∀ d, d ≤ c → List.lookup d t = none := fun d hd => by
      rw [List.lookup_eq_none_iff]
      intro e he
      have := hc e he
      have hne : d ≠ e.1 := by omega
      simpa using hne
    simp only [Memory.set]
    by_cases h1 : a < c
    · rw [if_pos h1]
      by_cases hv : v = Memory.default
      · rw [if_pos hv]
        by_cases hb : b = a
        · subst hb
          have : List.lookup b ((c, w) :: t) = none := by
            rw [List.lookup_cons, beq_eq_false_iff_ne.2 (by omega : b ≠ c)]
            exact none_of b (by omega)
          rw [this]; simp [hv]
        · simp [hb]
      · rw [if_neg hv, List.lookup_cons]
        by_cases hb : b = a
        · simp [hb]
        · simp [hb, beq_eq_false_iff_ne.2]
    · rw [if_neg h1]
      by_cases h2 : a = c
      · subst h2
        rw [if_pos rfl]
        by_cases hv : v = Memory.default
        · rw [if_pos hv]
          by_cases hb : b = a
          · subst hb; rw [none_of b (le_refl b)]; simp [hv]
          · simp [hb, List.lookup_cons, beq_eq_false_iff_ne.2]
        · rw [if_neg hv, List.lookup_cons]
          by_cases hb : b = a
          · simp [hb]
          · simp [hb, List.lookup_cons, beq_eq_false_iff_ne.2]
      · rw [if_neg h2, List.lookup_cons]
        by_cases hb : b = c
        · subst hb
          simp [Ne.symm h2]
        · simp only [List.lookup_cons, beq_eq_false_iff_ne.2 hb]
          exact ih ht

/-- A byte outside the stored range is unchanged. -/
theorem Memory.get_write_other {m : Memory} (h : Memory.Wf m) (a b : Nat) (bs : List Byte)
    (hb : b < a ∨ a + bs.length ≤ b) : Memory.get (Memory.write m a bs) b = Memory.get m b := by
  induction bs generalizing m a with
  | nil => rfl
  | cons x bs ih =>
    simp only [List.length_cons] at hb
    rw [Memory.write, ih (Memory.wf_set h a x) (a + 1) (by omega), Memory.get_set h, if_neg (by omega)]

/-- A byte of the stored range reads as it was stored. -/
theorem Memory.get_write {m : Memory} (h : Memory.Wf m) (a i : Nat) (bs : List Byte) (hi : i < bs.length) :
    Memory.get (Memory.write m a bs) (a + i) = bs[i] := by
  induction bs generalizing m a i with
  | nil => simp at hi
  | cons x bs ih =>
    rw [Memory.write]
    cases i with
    | zero =>
      rw [Memory.get_write_other (Memory.wf_set h a x) _ _ _ (by omega), Memory.get_set h]
      simp
    | succ i =>
      have := ih (Memory.wf_set h a x) (a + 1) i (by simpa using hi)
      rw [show a + (i + 1) = a + 1 + i by omega, this]
      simp

/-- A read of the stored range gives the bytes stored. -/
theorem Memory.read_write {m : Memory} (h : Memory.Wf m) (a : Nat) (bs : List Byte) :
    Memory.read (Memory.write m a bs) a bs.length = bs := by
  apply List.ext_getElem
  · simp [Memory.read]
  · intro i h1 h2
    simp [Memory.read, Memory.get_write h a i bs h2]

/-- A read that the stored range does not touch is unchanged. -/
theorem Memory.read_write_other {m : Memory} (h : Memory.Wf m) (a b n : Nat) (bs : List Byte)
    (hd : b + n ≤ a ∨ a + bs.length ≤ b) : Memory.read (Memory.write m a bs) b n = Memory.read m b n := by
  unfold Memory.read
  refine List.map_congr_left fun i hi => Memory.get_write_other h a _ bs ?_
  have := List.mem_range.1 hi
  omega

@[simp] theorem Memory.read_length (m : Memory) (a n : Nat) : (Memory.read m a n).length = n := by simp [Memory.read]

/-! ### HBM -/

/-! ### Reading a byte after a write, a fill or a copy -/

theorem Memory.get_write_if {m : Memory} (h : Memory.Wf m) (a b : Nat) (bs : List Byte) : (m.write a bs).get b = if a ≤ b ∧ b < a + bs.length then bs.getD (b - a) 0 else m.get b := by
  split
  · rename_i hh
    have := Memory.get_write h a (b - a) bs (by omega)
    rw [show a + (b - a) = b by omega] at this
    rw [this]; simp [List.getD_eq_getElem?_getD, show b - a < bs.length by omega]
  · exact Memory.get_write_other h a b bs (by omega)

theorem Memory.get_clear {m : Memory} (a n b : Nat) : (Memory.clear m a n).get b = if a ≤ b ∧ b < a + n then 0 else m.get b := by
  unfold Memory.clear Memory.get
  induction m with
  | nil => split <;> rfl
  | cons x m ih =>
    rw [List.filter_cons]
    by_cases hx : a ≤ x.1 ∧ x.1 < a + n
    · rw [if_neg (by simp [hx]), ih]
      split
      · rfl
      · rename_i hb
        have : b ≠ x.1 := by rintro rfl; exact hb hx
        rw [show x = (x.1, x.2) from rfl, List.lookup_cons, beq_false_of_ne this]
    · rw [if_pos (by simp only [hx, decide_false, Bool.not_false])]
      rw [show x = (x.1, x.2) from rfl, List.lookup_cons, List.lookup_cons]
      by_cases hb : b = x.1
      · subst hb; simp only [beq_self_eq_true, if_neg hx]
      · rw [beq_false_of_ne hb]; exact ih

theorem Memory.get_fill {m : Memory} (h : Memory.Wf m) (a n w b : Nat) : (m.fill a n w).get b = if a ≤ b ∧ b < a + n then BitVec.ofNat 8 (w >>> (8 * ((b - a) % 4))) else m.get b := by
  unfold Memory.fill
  split
  · rename_i hw
    subst hw
    rw [Memory.get_clear]; simp
  · rw [Memory.get_write_if h]
    simp only [fillBytes, List.length_map, List.length_range]
    split
    · rename_i hh
      rw [List.getD_eq_getElem?_getD]
      simp [show b - a < n by omega]
    · rfl

theorem Memory.get_put {m : Memory} (h : Memory.Wf m) (cs : List Host.Cell) (hc : cs.Pairwise fun x y => x.1 < y.1) (b : Nat) :
   (m.put cs).get b = (cs.lookup b).getD (m.get b) := by
  induction cs generalizing m with
  | nil => rfl
  | cons c cs ih =>
    show (Memory.put (Memory.set m c.1 c.2) cs).get b = _
    rw [ih (Memory.wf_set h _ _) (List.pairwise_cons.1 hc).2, show c = (c.1, c.2) from rfl, List.lookup_cons]
    have hg := Memory.get_set h c.1 b c.2
    by_cases hb : b = c.1
    · subst hb
      have : cs.lookup c.1 = none := by
        rw [List.lookup_eq_none_iff]
        intro x hx
        have := (List.pairwise_cons.1 hc).1 x hx
        simp; omega
      rw [this, hg]; simp
    · rw [beq_false_of_ne hb, hg]
      congr 1
      split
      · rename_i e; exact absurd e hb
      · rfl

theorem Memory.get_copyFrom {m : Memory} (h : Memory.Wf m) (src dst n b : Nat) : (Memory.copyFrom m m src dst n).get b = if dst ≤ b ∧ b < dst + n then m.get (src + (b - dst)) else m.get b := by
  unfold Memory.copyFrom
  rw [Memory.get_put (Memory.wf_clear h _ _), Memory.get_clear]
  · have hl : ∀ l : Memory, l.Pairwise (fun x y => x.1 < y.1) → (((Memory.cells l src n).map fun c => (dst + (c.1 - src), c.2)).lookup b) = if dst ≤ b ∧ b < dst + n then l.lookup (src + (b - dst)) else none := by
      intro l hl
      induction l with
      | nil => split <;> rfl
      | cons x l ih =>
        have ih := ih (List.pairwise_cons.1 hl).2
        unfold Memory.cells at ih ⊢
        rw [List.filter_cons]
        by_cases hx : src ≤ x.1 ∧ x.1 < src + n
        · rw [if_pos (by simp [hx]), List.map_cons, List.lookup_cons, ih]
          rw [show x = (x.1, x.2) from rfl, List.lookup_cons]
          by_cases hb : b = dst + (x.1 - src)
          · subst hb
            simp only [beq_self_eq_true]
            rw [if_pos (by omega), show src + (dst + (x.1 - src) - dst) = x.1 by omega]; simp
          · rw [beq_false_of_ne hb]
            by_cases hh : dst ≤ b ∧ b < dst + n
            · simp only [if_pos hh]
              rw [beq_false_of_ne (show src + (b - dst) ≠ x.1 by omega)]
            · simp only [if_neg hh]
        · rw [if_neg (by simpa using hx), ih]
          split
          · rename_i hh
            rw [show x = (x.1, x.2) from rfl, List.lookup_cons, beq_false_of_ne (show src + (b - dst) ≠ x.1 by omega)]
          · rfl
    rw [hl m h.1]
    split
    · rfl
    · rfl
  · rw [List.pairwise_map]
    have : (Memory.cells m src n).Pairwise fun x y => x.1 < y.1 := h.1.filter _
    refine List.Pairwise.imp_of_mem ?_ this
    intro x y hx hy hxy
    have h1 := (List.mem_filter.1 hx).2
    have h2 := (List.mem_filter.1 hy).2
    simp at h1 h2
    show dst + (x.1 - src) < dst + (y.1 - src)
    omega

theorem Hbm.wf_commit {h : Hbm} {m : Memory} (hm : Memory.Wf m) (a n : Nat) : Memory.Wf (h.commit a n m).mem := by
  unfold Hbm.commit
  generalize h.badPartial a n = bs
  simp only
  induction bs generalizing m with
  | nil => exact hm
  | cons b bs ih => exact ih (Memory.wf_copyFrom hm _ _ _ _)

theorem Hbm.wf_write {h : Hbm} (hm : Memory.Wf h.mem) (a : Nat) (bs : List Byte) : Memory.Wf (h.write a bs).mem :=
  Hbm.wf_commit (Memory.wf_write hm a bs) _ _

theorem Hbm.wf_fill {h : Hbm} (hm : Memory.Wf h.mem) (a n w : Nat) : Memory.Wf (h.fill a n w).mem :=
  Hbm.wf_commit (Memory.wf_fill hm a n w) _ _

theorem Hbm.wf_copy {h : Hbm} (hm : Memory.Wf h.mem) (a b n : Nat) : Memory.Wf (h.copy a b n).mem :=
  Hbm.wf_commit (Memory.wf_copyFrom hm _ _ _ _) _ _

@[simp] theorem Hbm.commit_footings (h : Hbm) (a n : Nat) (m : Memory) : (h.commit a n m).footings = h.footings := rfl
@[simp] theorem Hbm.write_footings (h : Hbm) (a : Nat) (bs : List Byte) : (h.write a bs).footings = h.footings := rfl
@[simp] theorem Hbm.fill_footings (h : Hbm) (a n w : Nat) : (h.fill a n w).footings = h.footings := rfl
@[simp] theorem Hbm.copy_footings (h : Hbm) (a b n : Nat) : (h.copy a b n).footings = h.footings := rfl

/-- A write that meets no uncorrectable block in part stores its bytes. -/
theorem Hbm.write_mem {h : Hbm} {a : Nat} {bs : List Byte} (hp : h.badPartial a bs.length = []) :
    (h.write a bs).mem = Memory.write h.mem a bs := by
  simp [Hbm.write, Hbm.commit, hp]

end Sys2Proof.Machine
end

