-- ==== Sys2Proof/Laws/Ports.lean ====
section
/-! SUPPORT. Ports, links and associations: reading one after it has changed, sending with and without frames that wait, and
acknowledgements that cover nothing. -/

namespace Sys2Proof.Machine

/-! ### Ports (09 R235, R236) -/

theorem portAt_of {s : State} {p : Nat} {P : Port} (h : s.pylon.ports[p]? = some P) : portAt s p = P := by
  unfold portAt; simp [List.getD_eq_getElem?_getD, h]

theorem modAt_fix {α : Type} (l : List α) (i : Nat) (f : α → α) (h : ∀ x, l[i]? = some x → f x = x) : modAt l i f = l := by
  induction l generalizing i with
  | nil => cases i <;> rfl
  | cons x l ih => cases i with
    | zero => simp [modAt, h x]
    | succ i => simp only [modAt]; rw [ih]; intro y hy; exact h y (by simpa using hy)

theorem modAt_congr {α : Type} (l : List α) (i : Nat) (f g : α → α) (h : ∀ x, l[i]? = some x → f x = g x) : modAt l i f = modAt l i g := by
  induction l generalizing i with
  | nil => cases i <;> rfl
  | cons x l ih => cases i with
    | zero => simp [modAt, h x]
    | succ i => simp only [modAt]; rw [ih]; intro y hy; exact h y (by simpa using hy)

theorem modAt_modAt {α : Type} (l : List α) (i : Nat) (f g : α → α) : modAt (modAt l i f) i g = modAt l i (g ∘ f) := by
  induction l generalizing i with
  | nil => cases i <;> rfl
  | cons x l ih => cases i <;> simp [modAt, ih]

theorem portAt_mod {s : State} {p : Nat} {P : Port} (f : Port → Port) (h : s.pylon.ports[p]? = some P) : portAt (modPort s p f) p = f P ∧ (modPort s p f).pylon.ports[p]? = some (f P) := by
  have : (modPort s p f).pylon.ports[p]? = some (f P) := by
    show (modAt s.pylon.ports p f)[p]? = _
    rw [getElem?_modAt, if_pos rfl, h]; rfl
  exact ⟨portAt_of this, this⟩

theorem modPort_congr {s : State} {p : Nat} {P : Port} (f g : Port → Port) (h : s.pylon.ports[p]? = some P) (e : f P = g P) : modPort s p f = modPort s p g := by
  unfold modPort
  rw [modAt_congr _ _ f g]
  intro x hx; rw [h] at hx; cases hx; exact e

theorem modPort_modPort (s : State) (p : Nat) (f g : Port → Port) : modPort (modPort s p f) p g = modPort s p (g ∘ f) := by
  unfold modPort; simp only [modAt_modAt]

theorem modPort_id {s : State} {p : Nat} {P : Port} (f : Port → Port) (h : s.pylon.ports[p]? = some P) (e : f P = P) : modPort s p f = s := by
  unfold modPort
  rw [modAt_fix]
  intro x hx; rw [h] at hx; cases hx; exact e

theorem pump_nil {s : State} {p : Nat} {P : Port} (h : s.pylon.ports[p]? = some P) (hw : P.waiting = []) : pumpPort s p = s := by
  unfold pumpPort
  rw [portAt_of h, hw]
  split
  · exact modPort_id _ h (by rw [List.foldl_nil]; simp [← hw])
  · rfl

theorem pump_one {u : State} {p : Nat} {P : Port} (f : PylonFrame) (h : u.pylon.ports[p]? = some P) (ha : P.st = .active)
    (hw : P.waiting = [(none, f)]) (hc : hasCredit P f = true) (hk : retryRoom P f = true) :
   portAt (pumpPort u p) p = { P with retry := P.retry ++ [{ frame := { f with lseq := P.txSeq, ack := P.rxSeq }, sends := 1 }]
                                      txSeq := add32 P.txSeq 1
                                      used := modAt P.used f.hops fun u => (u + frameKib f) % 65536
                                      ackAt := if P.retry.isEmpty then u.time else P.ackAt
                                      waiting := [] } := by
  unfold pumpPort
  rw [portAt_of h, ha, hw]
  simp only [beq_self_eq_true, if_true, List.foldl_cons, List.foldl_nil]
  have e : pumpOne p (u, []) (none, f) = (transmit u p (none, f), []) := by
    unfold pumpOne
    simp [portAt_of h, hc, hk]
  rw [e]
  have g : (transmit u p (none, f)).pylon.ports[p]? = some _ := (portAt_mod (fun P : Port => { P with
      retry := P.retry ++ [{ frame := { f with lseq := P.txSeq, ack := P.rxSeq }, sends := 1 }]
      txSeq := add32 P.txSeq 1
      used := modAt P.used f.hops fun u => (u + frameKib f) % 65536
      ackAt := if P.retry.isEmpty then u.time else P.ackAt }) h).2
  generalize transmit u p (none, f) = v at g
  rw [(portAt_mod _ g).1]
  simp only [ha]

theorem ack_nil {s : State} {p : Nat} {P : Port} (h : s.pylon.ports[p]? = some P) (a : Nat) (h1 : P.retry.any (acked a) = false) (h2 : P.waiting = []) (h3 : activityOver P = false) (h4 : P.disabling = []) : applyAck s p a = s := by
  unfold applyAck
  rw [portAt_of h, h1]
  have hf : P.retry.filter (fun t => !acked a t) = P.retry := by
    rw [List.filter_eq_self]; intro t ht
    rw [List.any_eq_false] at h1; simpa using h1 t ht
  show settleDisable (pumpPort (if activityOver (portAt (modPort s p _) p) = true then endActivity (modPort s p _) p else modPort s p _) p) p = s
  rw [modPort_id _ h (by simp [hf])]
  rw [portAt_of h, h3, if_neg (by simp), pump_nil h h2]
  unfold settleDisable
  rw [portAt_of h, h4]
  rfl

theorem nak_fresh {u : State} {p : Nat} {P : Port} (h : u.pylon.ports[p]? = some P) (h1 : P.retry = []) (h3 : P.nakSent = false) :
    sendNak u p = count (modPort u p fun P =>
      { P with nakSent := true, ctlOut := P.ctlOut ++ [(P.rxSeq, encodeCtl (.nak P.rxSeq))] }) 4 p 7 1 := by
  unfold sendNak
  rw [portAt_of h, h3, if_neg (by simp)]
  unfold sendCtl
  rw [modPort_modPort]
  rw [modPort_congr _ (fun P => { P with nakSent := true, ctlOut := P.ctlOut ++ [(P.rxSeq, encodeCtl (.nak P.rxSeq))] }) h rfl]
  have g := (portAt_mod (fun P => { P with nakSent := true, ctlOut := P.ctlOut ++ [(P.rxSeq, encodeCtl (.nak P.rxSeq))] }) h).2
  generalize modPort u p _ = v at g ⊢
  have g' : (count v 4 p 7 1).pylon.ports[p]? = some _ := g
  dsimp only
  have g2 : beginActivity (count v 4 p 7 1) p = count v 4 p 7 1 := by
    unfold beginActivity
    rw [portAt_of g']
    simp only [h1, List.getLast?_nil]
  exact g2

/-! ### Links and associations (07 R176, 08 R224) -/

theorem find_mapif {α : Type} (l : List α) (c : α → Bool) (f : α → α) (hf : ∀ x, c x = true → c (f x) = true) :
    (l.map fun x => if c x = true then f x else x).find? c = (l.find? c).map f := by
  induction l with
  | nil => rfl
  | cons x l ih =>
    rw [List.map_cons, List.find?_cons, List.find?_cons]
    cases h : c x with
    | true => simp [hf x h]
    | false => simp [h, ih]

theorem queue_modLink (s : State) (n q : Nat) (f : SpanLink → SpanLink) :
    ((progAt (modLink s n q f) n).bind fun p => spanQueueAt p q) =
      ((progAt s n).bind fun p => spanQueueAt p q).map fun x => { x with link := x.link.map f } := by
  unfold modLink modSpanQueue
  rw [progAt_modProg, if_pos rfl]
  cases progAt s n with
  | none => rfl
  | some p =>
    show spanQueueAt _ q = _
    unfold spanQueueAt
    have := find_mapif p.queues (fun x => decide (x.decl.queue = q)) (fun x => { x with link := x.link.map f }) (fun x h => h)
    simp only [decide_eq_true_eq] at this
    exact this

theorem linkAt_modLink (s : State) (n q : Nat) (f : SpanLink → SpanLink) : linkAt (modLink s n q f) n q = (linkAt s n q).map f := by
  unfold linkAt
  rw [queue_modLink]
  cases (progAt s n).bind fun p => spanQueueAt p q <;> rfl

theorem assocAt_modAssoc (s : State) (n peer : Nat) (f : Assoc → Assoc) (hf : ∀ a, (f a).peer = a.peer) :
    assocAt (modAssoc s n peer f) n peer = (assocAt s n peer).map f := by
  unfold assocAt modAssoc
  rw [progAt_modProg, if_pos rfl]
  cases progAt s n with
  | none => rfl
  | some p =>
    have := find_mapif p.assocs (fun a => decide (a.peer = peer)) f (fun a h => by rw [hf]; exact h)
    simp only [decide_eq_true_eq] at this
    exact this

theorem takeInbox_eq (s : State) (src k : Nat) (b : List Byte) : takeInbox s src k b = { s with pylon := { s.pylon with inbox := (takeInbox s src k b).pylon.inbox } } := by
  unfold takeInbox; split <;> rfl

theorem before_self (a : Nat) : before32 a a = false := by
  unfold before32 sub32
  simp only [decide_eq_false_iff_not, not_le]
  norm_num
  omega

end Sys2Proof.Machine
end

