-- ==== Sys2Proof/Laws/Post.lean ====
section
/-! SUPPORT. Completions (13 R333): what posting one and finishing a command may change, and the entry that a ring with room
takes. -/

namespace Sys2Proof.Machine

/-- Only the Tether, the host queues, and the lists of commands and aborts have changed. -/
def Posts (s t : State) : Prop :=
  t = { s with tether := t.tether, queues := t.queues, cmds := t.cmds, aborts := t.aborts }

theorem Posts.refl (s : State) : Posts s s := rfl

theorem Posts.trans {s t u : State} (h : Posts s t) (g : Posts t u) : Posts s u := by
  unfold Posts at *; rw [g, h]

theorem postWrite_posts (s : State) (a : Nat) (bs : List Byte) (b : Bool) : Posts s (postWrite s a bs b) := by
  unfold postWrite; split <;> rfl

theorem postHost_posts (s : State) (a : Nat) (bs : List Byte) : Posts s (postHost s a bs) := postWrite_posts ..

theorem writeCpl_posts (s : State) (q : Nat) {c : Completion} (h : c.wait = false) : Posts s (writeCpl s q c) := by
  unfold writeCpl hostWait
  rw [h]
  exact (postWrite_posts ..).trans rfl

theorem abortReply_wait (l : List Taken) (a : AbortWait) : (abortReply l a).wait = false := rfl

/-- Meeting the aborts that name a command changes only what these report, and the status. -/
theorem meetAborts_posts (s : State) (q : Nat) (c : Completion) :
    Posts s (meetAborts s q c).1 ∧ (meetAborts s q c).2.wait = c.wait ∧ (meetAborts s q c).1.aborts = s.aborts := by
  unfold meetAborts
  split
  · exact ⟨rfl, by dsimp only; split <;> rfl, rfl⟩
  · exact ⟨rfl, rfl, rfl⟩

theorem postFuel_posts (f : Nat) (s : State) (q : Nat) {c : Completion} (h : c.wait = false) : Posts s (postFuel f s q c) := by
  obtain ⟨hp, hw, -⟩ := meetAborts_posts s q c
  rw [h] at hw
  revert hp hw
  induction f generalizing s q c with
  | zero =>
    intro hp hw
    unfold postFuel
    dsimp only
    split
    · exact hp.trans (writeCpl_posts _ q hw)
    · exact hp.trans rfl
  | succ f ih =>
    intro hp hw
    unfold postFuel
    dsimp only
    split
    · have step : ∀ (l : List (Nat × Completion)), (∀ r ∈ l, r.2.wait = false) → ∀ u, Posts s u →
          Posts s (l.foldl (fun s r => postFuel f s r.1 r.2) u) := by
        intro l
        induction l with
        | nil => exact fun _ u hu => hu
        | cons r l il =>
          intro hl u hu
          have hr := hl r (by simp)
          obtain ⟨gp, gw, -⟩ := meetAborts_posts u r.1 r.2
          exact il (fun x hx => hl x (by simp [hx])) _ (hu.trans (ih u r.1 hr gp (gw.trans hr)))
      refine step _ ?_ _ ((hp.trans (writeCpl_posts _ q hw)).trans rfl)
      intro r hr
      obtain ⟨a, -, rfl⟩ := List.mem_map.1 hr
      rfl
    · exact hp.trans rfl

/-- A completion that lowers no channel changes nothing but the Tether, the host queues and the command lists. -/
theorem post_posts (s : State) (q : Nat) {c : Completion} (h : c.wait = false) : Posts s (post s q c) := postFuel_posts _ s q h

theorem finish_posts (s : State) (q seq status : Nat) (p : List Nat) : Posts s (finish s q seq status p) := by
  unfold finish; split
  · rfl
  · exact Posts.trans (t := { s with cmds := _ }) rfl (post_posts _ _ rfl)

theorem refuse_posts (s : State) (q seq status : Nat) : Posts s (refuse s q seq status) := finish_posts ..

/-- With room in the ring, nothing held and no abort of the command, the entry is written at the head of the ring. -/
theorem post_room {s : State} {q : Nat} {c : Completion} (hh : (queueAt s q).held = []) (hr : cplRoom (queueAt s q) = true)
    (ha : s.aborts.filter (settles q c) = []) (hn : s.cmds.any (awaits s q c) = false) (hk : c.wait = false) :
    post s q c = { writeCpl s q c with aborts := s.aborts, cmds := s.cmds } := by
  unfold post
  unfold postFuel
  have hm : meetAborts s q c = (s, c) := by unfold meetAborts; rw [hn]; rfl
  have e : (writeCpl s q c).aborts = s.aborts := by
    unfold writeCpl hostWait; rw [hk]; unfold postWrite; split <;> rfl
  have e' : (writeCpl s q c).cmds = s.cmds := by
    unfold writeCpl hostWait; rw [hk]; unfold postWrite; split <;> rfl
  simp only [hm, hh, List.isEmpty_nil, hr, Bool.and_self, if_true, e, e', ha, List.map_nil, List.foldl_nil, List.any_nil, Bool.not_false]
  have f : s.aborts.filter (fun a => !settles q c a) = s.aborts := by
    rw [List.filter_eq_self]
    intro a h
    by_contra hc
    have : a ∈ s.aborts.filter (settles q c) := List.mem_filter.2 ⟨h, by simpa using hc⟩
    rw [ha] at this; simp at this
  have g : s.cmds.filter (fun _ => true) = s.cmds := List.filter_eq_self.2 fun _ _ => rfl
  rw [f, g]

/-! ### Commands that may start (R330) -/

theorem ready_key {s : State} {q seq op : Nat} {c : Taken} (h : ready s q seq op = some c) :
    c.q = q ∧ c.seq = seq ∧ c.opcode = op := by
  unfold ready at h
  obtain ⟨h1, h2⟩ := Option.filter_eq_some_iff.1 h
  have := List.find?_some h1
  simp [isCmd] at this h2
  exact ⟨this.1, this.2, h2.1⟩

/-- A command that may start runs its effect on the state in which it has started. -/
theorem onCmd_ready {s : State} {q seq op : Nat} {c : Taken} (h : ready s q seq op = some c) (f : State → Taken → State) :
    onCmd s q seq op f = f (start s q seq) c := by
  unfold onCmd; rw [h]

end Sys2Proof.Machine
end

