-- ==== Sys2Proof/Laws/Sound.lean ====
section
/-! SUPPORT. What every operation of the model keeps: the command queue, the numbers of the parts, the canonical form of the
memories, the reservation of identity indices, the sizes of the rings. One lemma for each operation over the state, in the
form: what holds from `a` to `s` holds from `a` to the state that the operation makes of `s`. -/

namespace Sys2Proof.Machine

/-- Where one epoch stands, one still does, the limit of identity indices has not fallen, and a next index within it still is (R393). -/
def IndexKept (t u : Tollhouse) : Prop :=
  OneEpoch t → OneEpoch u ∧ indexLimit t ≤ indexLimit u ∧ (t.q ≤ indexLimit t → u.q ≤ indexLimit u)

theorem IndexKept.refl (t : Tollhouse) : IndexKept t t := fun h => ⟨h, le_refl _, id⟩

theorem IndexKept.trans {t u v : Tollhouse} (h : IndexKept t u) (g : IndexKept u v) : IndexKept t v := fun w =>
  have h := h w
  have g := g h.1
  ⟨g.1, h.2.1.trans g.2.1, g.2.2 ∘ h.2.2⟩

/-- `t` is as sound as `a`, with the same commands waiting. -/
def Sound (a t : State) : Prop :=
  t.pending = a.pending ∧ (a.Shaped → t.Shaped) ∧ (a.MemoriesWf → t.MemoriesWf) ∧ IndexKept a.toll t.toll ∧ (a.Bounded → t.Bounded)

theorem Sound.refl (a : State) : Sound a a := ⟨rfl, id, id, .refl _, id⟩

theorem Sound.trans {a s t : State} (h : Sound a s) (g : Sound s t) : Sound a t :=
  ⟨g.1.trans h.1, g.2.1 ∘ h.2.1, g.2.2.1 ∘ h.2.2.1, h.2.2.2.1.trans g.2.2.2.1, g.2.2.2.2 ∘ h.2.2.2.2⟩

/-- A pair that a function answers is sound when its first part is. -/
theorem Sound.of_pair {α : Type} {a t : State} {o : α} {p : State × α} (e : p = (t, o)) (h : Sound a p.1) : Sound a t := by
  rw [e] at h; exact h

theorem Sound.ite {a x y : State} {c : Prop} [Decidable c] (hx : c → Sound a x) (hy : ¬c → Sound a y) :
    Sound a (if c then x else y) := by
  split
  · exact hx ‹_›
  · exact hy ‹_›

theorem Sound.foldl {α : Type} {a s : State} {f : State → α → State} {l : List α} (h : Sound a s)
    (hf : ∀ t x, Sound a t → Sound a (f t x)) : Sound a (l.foldl f s) := by
  induction l generalizing s with
  | nil => exact h
  | cons x l ih => exact ih (hf s x h)

/-- A state that may be answered is sound. -/
def SoundOpt (a : State) (o : Option State) : Prop := ∀ t, o = some t → Sound a t

theorem SoundOpt.some {a t : State} (h : Sound a t) : SoundOpt a (some t) := fun u e => by cases e; exact h

theorem SoundOpt.none (a : State) : SoundOpt a none := fun _ e => by cases e

theorem SoundOpt.getD {a s : State} {o : Option State} (h : SoundOpt a o) (hs : Sound a s) : Sound a (o.getD s) := by
  cases o with
  | none => exact hs
  | some t => exact h t rfl

/-- A next state that a command answers is sound. -/
def SoundOut (a : State) (o : Host.Outcome State Fault Refusal) : Prop := ∀ t, o = .next t → Sound a t

theorem SoundOut.next {a t : State} (h : Sound a t) : SoundOut a (.next t) := fun _ e => by cases e; exact h

/-! ### Lists -/

@[simp] theorem length_modAt {α : Type} (l : List α) (i : Nat) (f : α → α) : (modAt l i f).length = l.length := by
  induction l generalizing i with
  | nil => rfl
  | cons x l ih => cases i <;> simp [modAt, ih]

theorem mem_putPier {l : List Pier} {x P : Pier} (h : P ∈ putPier l x) : P = x ∨ P ∈ l := by
  induction l with
  | nil => simpa [putPier] using h
  | cons y l ih =>
    simp only [putPier] at h
    split at h
    · simpa using h
    · split at h
      · rcases List.mem_cons.1 h with h | h <;> simp [h]
      · rcases List.mem_cons.1 h with h | h
        · simp [h]
        · rcases ih h with h | h <;> simp [h]

theorem pairwise_putPier {l : List Pier} (h : l.Pairwise fun P Q => P.id < Q.id) (x : Pier) :
    (putPier l x).Pairwise fun P Q => P.id < Q.id := by
  induction l with
  | nil => simp [putPier]
  | cons y l ih =>
    rw [List.pairwise_cons] at h
    simp only [putPier]
    split
    · refine List.pairwise_cons.2 ⟨fun z hz => ?_, List.pairwise_cons.2 h⟩
      rcases List.mem_cons.1 hz with rfl | hz
      · assumption
      · exact lt_trans ‹_› (h.1 z hz)
    · split
      · rename_i _ e
        exact List.pairwise_cons.2 ⟨fun z hz => e ▸ h.1 z hz, h.2⟩
      · refine List.pairwise_cons.2 ⟨fun z hz => ?_, ih h.2⟩
        rcases mem_putPier hz with rfl | hz
        · omega
        · exact h.1 z hz

/-! ### Updates -/

theorem Sound.setCtx {a s : State} (h : Sound a s) (n : Nat) (c : Option Context) : Sound a (setCtx s n c) :=
  h.trans ⟨rfl, by simp [State.Shaped, Machine.setCtx], id, .refl _, id⟩

theorem Sound.modCtx {a s : State} (h : Sound a s) (n : Nat) (f : Context → Context) : Sound a (modCtx s n f) :=
  h.trans ⟨rfl, by simp [State.Shaped, Machine.modCtx], id, .refl _, id⟩

theorem Sound.modProg {a s : State} (h : Sound a s) (n : Nat) (f : Program → Program) : Sound a (modProg s n f) := h.modCtx n _

theorem Sound.modStage {a s : State} (h : Sound a s) (n k : Nat) (f : StageRun → StageRun) : Sound a (modStage s n k f) := h.modProg n _

theorem Sound.modSpanQueue {a s : State} (h : Sound a s) (n q : Nat) (f : SpanQueue → SpanQueue) : Sound a (modSpanQueue s n q f) :=
  h.modProg n _

theorem Sound.modQueue {a s : State} (h : Sound a s) (q : Nat) (f : HostQueue → HostQueue) : Sound a (modQueue s q f) :=
  h.trans ⟨rfl, by simp [State.Shaped, Machine.modQueue], id, .refl _, id⟩

theorem Sound.modPort {a s : State} (h : Sound a s) (p : Nat) (f : Port → Port) : Sound a (modPort s p f) :=
  h.trans ⟨rfl, by simp [State.Shaped, Machine.modPort], id, .refl _, id⟩

theorem Sound.modStack {a s : State} (h : Sound a s) (k : Nat) (f : Stack → Stack) : Sound a (modStack s k f) :=
  h.trans ⟨rfl, by simp [State.Shaped, Machine.modStack], id, .refl _, id⟩

theorem Sound.modModule {a s : State} (h : Sound a s) (m : Nat) (f : Module → Module) : Sound a (modModule s m f) :=
  h.trans ⟨rfl, by simp [State.Shaped, Machine.modModule], id, .refl _, id⟩

theorem Sound.modDie {a s : State} (h : Sound a s) (k : Nat) (f : Die → Die) (hf : ∀ d, (f d).code = d.code) : Sound a (modDie s k f) :=
  h.trans ⟨rfl, fun w => by
    refine ⟨w.1, w.2.1, w.2.2.1, w.2.2.2.1, w.2.2.2.2.1, ?_⟩
    rw [← w.2.2.2.2.2]
    simp only [Machine.modDie, List.map_map]
    refine List.map_congr_left fun d _ => ?_
    simp only [Function.comp]
    split <;> simp [hf], id, .refl _, id⟩

theorem Sound.setPier {a s : State} (h : Sound a s) (x : Pier) (hx : s.MemoriesWf → Memory.Wf x.mem) : Sound a (setPier s x) :=
  h.trans ⟨rfl, id, fun w => ⟨w.1, w.2.1, w.2.2.1, fun P hP => by
    rcases mem_putPier hP with rfl | hP
    · exact hx w
    · exact w.2.2.2.1 P hP, pairwise_putPier w.2.2.2.2 x⟩, .refl _, id⟩

/-- A pier of the state, listed or fresh, has its scratchpad in canonical form. -/
theorem wf_pierAt {s : State} (w : s.MemoriesWf) (p : Nat) : Memory.Wf (pierAt s p).mem := by
  unfold pierAt
  cases h : s.piers.find? fun x => decide (x.id = p) with
  | none => exact Memory.wf_nil
  | some P => exact w.2.2.2.1 P (List.mem_of_find?_eq_some h)

theorem Sound.modPier {a s : State} (h : Sound a s) (p : Nat) (f : Pier → Pier) (hf : ∀ P, Memory.Wf P.mem → Memory.Wf (f P).mem) :
    Sound a (modPier s p f) := h.setPier _ fun w => hf _ (wf_pierAt w p)

theorem Sound.freeUsed {a s : State} (h : Sound a s) (k : Nat) : Sound a (freeUsed s k) := h

theorem Sound.count {a s : State} (h : Sound a s) (c i x k : Nat) : Sound a (count s c i x k) := h

/-! ### The journal and the log -/

theorem indexLimit_of_journal {t u : Tollhouse} (h : u.journal = t.journal) : indexLimit u = indexLimit t := by
  simp only [indexLimit, h]

@[simp] theorem pushLog_journal (t : Tollhouse) (e : LogEntry) : (pushLog t e).journal = t.journal := by
  unfold pushLog; split <;> (try split) <;> rfl

@[simp] theorem pushLog_q (t : Tollhouse) (e : LogEntry) : (pushLog t e).q = t.q := by
  unfold pushLog; split <;> (try split) <;> rfl

@[simp] theorem pushLog_staged (t : Tollhouse) (e : LogEntry) : (pushLog t e).staged = t.staged := by
  unfold pushLog; split <;> (try split) <;> rfl

theorem pushLog_length {t : Tollhouse} (h : t.log.length ≤ 8192) (e : LogEntry) : (pushLog t e).log.length ≤ 8192 := by
  unfold pushLog
  split
  · simp
  · split
    · simp only [List.length_append, List.length_singleton]; omega
    · rename_i o rest hl _
      rw [hl] at h
      simpa using h

/-- Tollhouse operations that keep the log's size, the staged package and the index discipline. -/
def TollSound (t u : Tollhouse) : Prop :=
  (Memory.Wf t.staged → Memory.Wf u.staged) ∧ IndexKept t u ∧ (t.log.length ≤ 8192 → u.log.length ≤ 8192)

theorem Sound.setToll {a s : State} {u : Tollhouse} (h : Sound a s) (g : TollSound s.toll u) : Sound a { s with toll := u } :=
  h.trans ⟨rfl, id, fun w => ⟨w.1, w.2.1, g.1 w.2.2.1, w.2.2.2⟩, g.2.1, fun w => ⟨g.2.2 w.1, w.2⟩⟩

theorem TollSound.refl (t : Tollhouse) : TollSound t t := ⟨id, .refl _, id⟩

theorem TollSound.trans {t u v : Tollhouse} (h : TollSound t u) (g : TollSound u v) : TollSound t v :=
  ⟨g.1 ∘ h.1, h.2.1.trans g.2.1, g.2.2 ∘ h.2.2⟩

/-- Changes outside the journal, the next index, the log and the staged package. -/
theorem TollSound.of_same {t u : Tollhouse} (hj : u.journal = t.journal) (hq : u.q = t.q) (hl : u.log = t.log) (hs : u.staged = t.staged) :
    TollSound t u := by
  refine ⟨by rw [hs]; exact id, fun w => ⟨fun r hr => ?_, ?_, ?_⟩, by rw [hl]; exact id⟩
  · unfold epochOf; rw [hj] at hr ⊢; exact w r hr
  · rw [indexLimit_of_journal hj]
  · rw [indexLimit_of_journal hj, hq]; exact id

/-- A change of the journal that the store appends. -/
theorem TollSound.extends {n : Nat} {ok : JournalBody → Prop} {t u v : Tollhouse} (h : TollSound t u)
    (hn : nextSeq u.journal = n) (g : Extends n ok u v) : TollSound t v := by
  obtain ⟨h1, h2, h3, -⟩ := g.index hn
  have e := g.2
  refine h.trans ⟨by rw [e]; exact id, fun w => ⟨h1 w, h2, fun k => by rw [h3]; exact k.trans h2⟩, by rw [e]; exact id⟩

theorem TollSound.commit {t u : Tollhouse} (h : TollSound t u) (kind : Nat) {bs : List JournalBody}
    (hb : ∀ b ∈ bs, Late (nextSeq u.journal) b) : TollSound t (commitRecords u kind bs) :=
  h.extends rfl (commitRecords_extends (ok := fun _ => True) u kind (fun b m => ⟨hb b m, trivial⟩) fun _ _ _ => trivial)

theorem TollSound.push {t u : Tollhouse} (h : TollSound t u) (e : LogEntry) : TollSound t (pushLog u e) := by
  have l : indexLimit (pushLog u e) = indexLimit u := indexLimit_of_journal (pushLog_journal u e)
  refine h.trans ⟨by simp, fun w => ⟨fun r hr => ?_, l.ge, fun k => ?_⟩, fun w => pushLog_length w e⟩
  · unfold epochOf
    rw [pushLog_journal] at hr ⊢
    exact w r hr
  · rw [l, pushLog_q]; exact k

theorem Sound.logFresh {a s : State} (h : Sound a s) (cause status severity source position context : Nat) (detail : List Nat) :
    Sound a (logFresh s cause status severity source position context detail) := by
  unfold Machine.logFresh
  refine h.setToll ?_
  have base : TollSound s.toll { s.toll with logSeq := s.toll.logSeq + 1 } := TollSound.refl s.toll
  dsimp only
  split
  · exact (base.push _).commit 3 (by simp [Late])
  · exact base.push _

theorem Sound.logEntry {a s : State} (h : Sound a s) (cause status severity source position context : Nat) (detail : List Nat) :
    Sound a (logEntry s cause status severity source position context detail) := by
  unfold Machine.logEntry
  split
  · refine h.setToll ⟨id, .refl _, fun w => ?_⟩
    simpa using w
  · exact h.logFresh ..

theorem Sound.retireBlock {a s : State} (h : Sound a s) (b : Nat) : Sound a (retireBlock s b) := by
  have g : TollSound s.toll (commitRecords s.toll 4 [.retire b]) := (TollSound.refl _).commit 4 (by simp [Late])
  exact (h.setToll g).logEntry ..

theorem Sound.retireFuel (f : Nat) {a s : State} (h : Sound a s) : Sound a (retireFuel f s) := by
  induction f generalizing s with
  | zero => exact h
  | succ f ih =>
    unfold Machine.retireFuel
    split
    · exact h
    · refine ih (Sound.retireBlock ?_ _)
      exact h.setToll (TollSound.of_same rfl rfl rfl rfl)

theorem Sound.retireBlocks {a s : State} (h : Sound a s) : Sound a (retireBlocks s) := h.retireFuel _

theorem Sound.logError {a s : State} (h : Sound a s) (cause status severity source position context : Nat) (detail : List Nat) :
    Sound a (logError s cause status severity source position context detail) := (h.logEntry ..).retireBlocks

/-- A change without an INDEX_RESERVE leaves the identity index and its limit alone. -/
theorem commit_index (t : Tollhouse) (kind : Nat) {bs : List JournalBody} (hb : ∀ b ∈ bs, Late (nextSeq t.journal) b ∧ reserveOf b = none) :
    (commitRecords t kind bs).q = t.q ∧ indexLimit (commitRecords t kind bs) = indexLimit t := by
  obtain ⟨-, -, h3, h4⟩ := (commitRecords_extends (ok := fun b => reserveOf b = none) t kind hb fun _ _ _ => rfl).index rfl
  exact ⟨h3, h4 fun _ => id⟩

/-- The error log leaves the identity index and its limit alone. -/
theorem logEntry_index (s : State) (cause status severity source position context : Nat) (detail : List Nat) :
    (logEntry s cause status severity source position context detail).toll.q = s.toll.q
      ∧ indexLimit (logEntry s cause status severity source position context detail).toll = indexLimit s.toll := by
  have push : ∀ (t : Tollhouse) (e : LogEntry), indexLimit (pushLog t e) = indexLimit t := fun t e =>
    indexLimit_of_journal (pushLog_journal t e)
  unfold Machine.logEntry
  split
  · exact ⟨rfl, rfl⟩
  · unfold Machine.logFresh
    dsimp only
    split
    · obtain ⟨h1, h2⟩ := commit_index (pushLog { s.toll with logSeq := s.toll.logSeq + 1 } _) 3
        (bs := [.errlog { seq := s.toll.logSeq, ptime := s.time, cause, status, severity, source, position, context, persisted := _,
                          restored := false, repeats := 0, detail := detail.map (· % 2 ^ 32), read := false }]) (by simp [Late, reserveOf])
      rw [h1, h2, push]
      exact ⟨by simp, indexLimit_of_journal rfl⟩
    · exact ⟨by simp, by rw [push]; exact indexLimit_of_journal rfl⟩

/-- Retiring a block leaves the identity index and its limit alone. -/
theorem retireBlock_index (s : State) (b : Nat) :
    (retireBlock s b).toll.q = s.toll.q ∧ indexLimit (retireBlock s b).toll = indexLimit s.toll := by
  obtain ⟨h1, h2⟩ := commit_index s.toll 4 (bs := [.retire b]) (by simp [Late, reserveOf])
  exact ⟨(logEntry_index _ _ _ _ _ _ _ _).1.trans h1, (logEntry_index _ _ _ _ _ _ _ _).2.trans h2⟩

/-- Retiring blocks leaves the identity index and its limit alone. -/
theorem retireBlocks_index (s : State) :
    (retireBlocks s).toll.q = s.toll.q ∧ indexLimit (retireBlocks s).toll = indexLimit s.toll := by
  have g : ∀ (f : Nat) (u : State), (retireFuel f u).toll.q = u.toll.q ∧ indexLimit (retireFuel f u).toll = indexLimit u.toll := by
    intro f
    induction f with
    | zero => exact fun u => ⟨rfl, rfl⟩
    | succ f ih =>
      intro u
      unfold retireFuel
      split
      · exact ⟨rfl, rfl⟩
      · exact ⟨(ih _).1.trans (retireBlock_index _ _).1, (ih _).2.trans ((retireBlock_index _ _).2.trans (indexLimit_of_journal rfl))⟩
  exact g _ _

/-- Recording an error leaves the identity index and its limit alone. -/
theorem logError_index (s : State) (cause status severity source position context : Nat) (detail : List Nat) :
    (logError s cause status severity source position context detail).toll.q = s.toll.q
      ∧ indexLimit (logError s cause status severity source position context detail).toll = indexLimit s.toll :=
  ⟨(retireBlocks_index _).1.trans (logEntry_index ..).1, (retireBlocks_index _).2.trans (logEntry_index ..).2⟩

/-! ### Single fields -/

theorem Sound.setCmds {a s : State} (h : Sound a s) (v : List Taken) : Sound a { s with cmds := v } := h
theorem Sound.setAborts {a s : State} (h : Sound a s) (v : List AbortWait) : Sound a { s with aborts := v } := h
theorem Sound.setCmdsAborts {a s : State} (h : Sound a s) (v : List AbortWait) (w : List Taken) :
    Sound a { s with aborts := v, cmds := w } := h
theorem Sound.setTime {a s : State} (h : Sound a s) (v : Nat) : Sound a { s with time := v } := h
theorem Sound.setPkg {a s : State} (h : Sound a s) (v : Package) : Sound a { s with pkg := v } := h
theorem Sound.setApr {a s : State} (h : Sound a s) (v : Approach) : Sound a { s with apr := v } := h
theorem Sound.setCaisson {a s : State} (h : Sound a s) (v : Caisson) : Sound a { s with caisson := v } := h
theorem Sound.setCounters {a s : State} (h : Sound a s) (v : List (Nat × Nat)) : Sound a { s with counters := v } := h
theorem Sound.setWaits {a s : State} (h : Sound a s) (v : List (Nat × Nat)) : Sound a { s with waits := v } := h
theorem Sound.setFree {a s : State} (h : Sound a s) (v : Nat) : Sound a { s with free := v } := h
theorem Sound.setWaitsFree {a s : State} (h : Sound a s) (v : List (Nat × Nat)) (w : Nat) : Sound a { s with waits := v, free := w } := h

theorem Sound.setPylon {a s : State} (h : Sound a s) (v : Pylon) (hv : v.ports.length = s.pylon.ports.length) :
    Sound a { s with pylon := v } :=
  h.trans ⟨rfl, fun w => ⟨w.1, w.2.1, hv.trans w.2.2.1, w.2.2.2⟩, id, .refl _, id⟩

theorem Sound.setTether {a s : State} (h : Sound a s) (v : Tether) (hv : Memory.Wf s.tether.hostMem → Memory.Wf v.hostMem) :
    Sound a { s with tether := v } :=
  h.trans ⟨rfl, id, fun w => ⟨w.1, hv w.2.1, w.2.2⟩, .refl _, id⟩

theorem Sound.setHbm {a s : State} (h : Sound a s) (v : Hbm) (hm : Memory.Wf s.hbm.mem → Memory.Wf v.mem)
    (hf : v.footings.length = s.hbm.footings.length) : Sound a { s with hbm := v } :=
  h.trans ⟨rfl, fun w => ⟨w.1, w.2.1, w.2.2.1, hf.trans w.2.2.2.1, w.2.2.2.2⟩, fun w => ⟨hm w.1, w.2⟩, .refl _, id⟩

theorem Sound.setSched {a s : State} (h : Sound a s) (v : Sched) (hv : s.sched.queue.length ≤ 16 → v.queue.length ≤ 16) :
    Sound a { s with sched := v } :=
  h.trans ⟨rfl, id, id, .refl _, fun w => ⟨w.1, hv w.2⟩⟩

theorem Sound.setCtxs {a s : State} (h : Sound a s) (v : List (Option Context)) (hv : v.length = s.ctxs.length) :
    Sound a { s with ctxs := v } :=
  h.trans ⟨rfl, fun w => ⟨w.1, hv.trans w.2.1, w.2.2⟩, id, .refl _, id⟩

theorem Sound.setQueues {a s : State} (h : Sound a s) (v : List HostQueue) (hv : v.length = s.queues.length) :
    Sound a { s with queues := v } :=
  h.trans ⟨rfl, fun w => ⟨hv.trans w.1, w.2⟩, id, .refl _, id⟩

theorem Sound.setModules {a s : State} (h : Sound a s) (v : List Module) (hv : v.length = s.modules.length) :
    Sound a { s with modules := v } :=
  h.trans ⟨rfl, fun w => ⟨w.1, w.2.1, w.2.2.1, w.2.2.2.1, hv.trans w.2.2.2.2.1, w.2.2.2.2.2⟩, id, .refl _, id⟩

theorem Sound.setDies {a s : State} (h : Sound a s) (v : List Die) (hv : v.map (·.code) = s.dies.map (·.code)) :
    Sound a { s with dies := v } :=
  h.trans ⟨rfl, fun w => ⟨w.1, w.2.1, w.2.2.1, w.2.2.2.1, w.2.2.2.2.1, hv.trans w.2.2.2.2.2⟩, id, .refl _, id⟩

/-- Any record of new fields beside the command queue. -/
theorem Sound.record {a s : State} (h : Sound a s) {time : Nat} {pkg : Package} {toll : Tollhouse} {dies : List Die}
    {modules : List Module} {tether : Tether} {queues : List HostQueue} {cmds : List Taken} {aborts : List AbortWait}
    {ctxs : List (Option Context)} {sched : Sched} {hbm : Hbm} {piers : List Pier} {caisson : Caisson} {pylon : Pylon}
    {apr : Approach} {counters waits : List (Nat × Nat)} {free : Nat}
    (hq : queues.length = s.queues.length) (hc : ctxs.length = s.ctxs.length) (hy : pylon.ports.length = s.pylon.ports.length)
    (hf : hbm.footings.length = s.hbm.footings.length) (hm : modules.length = s.modules.length)
    (hd : dies.map (·.code) = s.dies.map (·.code)) (wm : Memory.Wf s.hbm.mem → Memory.Wf hbm.mem)
    (wt : Memory.Wf s.tether.hostMem → Memory.Wf tether.hostMem)
    (wp : s.MemoriesWf → (∀ P ∈ piers, Memory.Wf P.mem) ∧ piers.Pairwise fun P Q => P.id < Q.id)
    (wl : TollSound s.toll toll) (wn : s.sched.queue.length ≤ 16 → sched.queue.length ≤ 16) :
    Sound a ⟨s.pending, time, pkg, toll, dies, modules, tether, queues, cmds, aborts, ctxs, sched, hbm, piers, caisson, pylon, apr,
      counters, waits, free⟩ :=
  h.trans ⟨rfl, fun w => ⟨hq.trans w.1, hc.trans w.2.1, hy.trans w.2.2.1, hf.trans w.2.2.2.1, hm.trans w.2.2.2.2.1, hd.trans w.2.2.2.2.2⟩,
    fun w => ⟨wm w.1, wt w.2.1, wl.1 w.2.2.1, wp w⟩, wl.2.1, fun w => ⟨wl.2.2 w.1, wn w.2⟩⟩

/-! ### Completions and commands -/

theorem Sound.countCtx {a s : State} (h : Sound a s) (n c i x k : Nat) : Sound a (countCtx s n c i x k) := by
  unfold Machine.countCtx; split
  · exact h.modCtx _ _
  · exact h

theorem Sound.highCtx {a s : State} (h : Sound a s) (n c i x k : Nat) : Sound a (highCtx s n c i x k) := by
  unfold Machine.highCtx; split
  · exact h.modCtx _ _
  · exact h

theorem Sound.countEvent {a s : State} (h : Sound a s) (n p e k : Nat) : Sound a (countEvent s n p e k) := by
  unfold Machine.countEvent; split
  · exact h.modCtx _ _
  · exact h

@[simp] theorem Tether.pump_hostMem (t : Tether) : t.pump.hostMem = t.hostMem := by unfold Tether.pump; split <;> rfl

theorem Sound.postWrite {a s : State} (h : Sound a s) (x : Nat) (bs : List Byte) (b : Bool) : Sound a (postWrite s x bs b) := by
  unfold Machine.postWrite; split
  · exact h
  · exact h.setTether _ (by simp)

theorem Sound.postHost {a s : State} (h : Sound a s) (x : Nat) (bs : List Byte) : Sound a (postHost s x bs) := h.postWrite x bs false

theorem Sound.hostWait {a s : State} (h : Sound a s) (c : Completion) : Sound a (hostWait s c) := by
  unfold Machine.hostWait; split
  · exact h.modProg _ _
  · exact h

theorem Sound.writeCpl {a s : State} (h : Sound a s) (q : Nat) (c : Completion) : Sound a (writeCpl s q c) :=
  ((h.postWrite _ _ _).modQueue q _).hostWait c

theorem Sound.holdCpl {a s : State} (h : Sound a s) (q : Nat) (c : Completion) : Sound a (holdCpl s q c) := h.modQueue q _

theorem Sound.meetAborts {a s : State} (h : Sound a s) (q : Nat) (c : Completion) : Sound a (meetAborts s q c).1 := by
  unfold Machine.meetAborts; split
  · exact h.setCmds _
  · exact h

theorem Sound.postFuel (f : Nat) {a s : State} (h : Sound a s) (q : Nat) (c : Completion) : Sound a (postFuel f s q c) := by
  induction f generalizing s q c with
  | zero =>
    unfold Machine.postFuel; dsimp only; split
    · exact (h.meetAborts q c).writeCpl q _
    · exact (h.meetAborts q c).holdCpl q _
  | succ f ih =>
    unfold Machine.postFuel; dsimp only; split
    · refine Sound.foldl ?_ fun t r ht => ih ht _ _
      exact Sound.setCmdsAborts ((h.meetAborts q c).writeCpl q _) _ _
    · exact (h.meetAborts q c).holdCpl q _

theorem Sound.post {a s : State} (h : Sound a s) (q : Nat) (c : Completion) : Sound a (post s q c) := h.postFuel _ q c

theorem Sound.flushFuel (f : Nat) {a s : State} (h : Sound a s) (q : Nat) : Sound a (flushFuel f s q) := by
  induction f generalizing s with
  | zero => exact h
  | succ f ih =>
    unfold Machine.flushFuel; split
    · exact h
    · split
      · refine ih (Sound.modQueue ?_ q _)
        exact Sound.post (h.modQueue q _) q _
      · exact h

theorem Sound.flushHeld {a s : State} (h : Sound a s) (q : Nat) : Sound a (flushHeld s q) := by
  unfold Machine.flushHeld; dsimp only; split
  · exact (h.modQueue q _).flushFuel _ q
  · exact h.flushFuel _ q

theorem Sound.start {a s : State} (h : Sound a s) (q seq : Nat) : Sound a (start s q seq) := h

theorem Sound.finish {a s : State} (h : Sound a s) (q seq status : Nat) (p : List Nat) : Sound a (finish s q seq status p) := by
  unfold Machine.finish; split
  · exact h
  · exact Sound.post (h.setCmds _) q _

theorem Sound.refuse {a s : State} (h : Sound a s) (q seq status : Nat) : Sound a (refuse s q seq status) := h.finish q seq status []

theorem Sound.onCmd {a s : State} (h : Sound a s) (q seq op : Nat) (f : State → Taken → State)
    (hf : ∀ t x, Sound a t → Sound a (f t x)) : Sound a (onCmd s q seq op f) := by
  unfold Machine.onCmd; split
  · exact h
  · exact hf _ _ (h.start q seq)

theorem Sound.onUnit {a s : State} (h : Sound a s) (q seq op : Nat) (f : State → Taken → State)
    (hf : ∀ t x, Sound a t → Sound a (f t x)) : Sound a (onUnit s q seq op f) := by
  unfold Machine.onUnit; split
  · exact h
  · exact h.onCmd q seq op f hf

theorem Sound.dropWaits {a s : State} (h : Sound a s) (n : Nat) : Sound a (dropWaits s n) := h.setQueues _ (by simp)

end Sys2Proof.Machine
end

