-- ==== Sys2Proof/Laws/SoundFrames.lean ====
section
/-! SUPPORT. Soundness of the operations of Machine/Frames.lean (see Laws/Sound.lean). -/

namespace Sys2Proof.Machine

theorem Sound.sendCtl {z s : State} (hz : Sound z s) (p : Nat) (c : CtlFrame) : Sound z (sendCtl s p c) := by
  unfold Machine.sendCtl
  try dsimp only
  repeat' first
    | with_reducible exact hz
    | with_reducible assumption
    | with_reducible apply Sound.modPort
    | exact fun w => w.2.2.2
    | intro _

theorem Sound.regrant {z s : State} (hz : Sound z s) (p : Nat) (hops : Nat) (kib : Nat) : Sound z (regrant s p hops kib) := by
  unfold Machine.regrant
  try dsimp only
  repeat' first
    | with_reducible exact hz
    | with_reducible assumption
    | with_reducible apply Sound.modPort
    | with_reducible apply Sound.sendCtl
    | split
    | exact fun w => w.2.2.2
    | intro _

theorem Sound.leaveBuffer {z s : State} (hz : Sound z s) (x : Option Nat × PylonFrame) : Sound z (leaveBuffer s x) := by
  unfold Machine.leaveBuffer
  try dsimp only
  repeat' first
    | with_reducible exact hz
    | with_reducible assumption
    | with_reducible apply Sound.regrant
    | with_reducible apply SoundOpt.some
    | with_reducible exact SoundOpt.none _
    | split
    | exact fun w => w.2.2.2
    | with_reducible refine Sound.of_pair (by assumption) ?_

theorem Sound.transmit {z s : State} (hz : Sound z s) (p : Nat) (x : Option Nat × PylonFrame) : Sound z (transmit s p x) := by
  unfold Machine.transmit
  try dsimp only
  repeat' first
    | with_reducible exact hz
    | with_reducible assumption
    | with_reducible apply Sound.modPort
    | with_reducible apply Sound.leaveBuffer
    | with_reducible apply Sound.count
    | split
    | exact fun w => w.2.2.2
    | intro _
    | with_reducible apply Sound.setTime
    | with_reducible apply Sound.record

theorem Sound.pumpOne {a : State} (p : Nat) {acc : State × List (Option Nat × PylonFrame)} (h : Sound a acc.1) (f : Option Nat × PylonFrame) :
    Sound a (pumpOne p acc f).1 := by
  unfold Machine.pumpOne; dsimp only; split
  · exact h
  · exact h.transmit p _

theorem Sound.pumpAll {a : State} (p : Nat) (l : List (Option Nat × PylonFrame)) {acc : State × List (Option Nat × PylonFrame)} (h : Sound a acc.1) :
    Sound a (l.foldl (Machine.pumpOne p) acc).1 := by
  induction l generalizing acc with
  | nil => exact h
  | cons f l ih => exact ih (h.pumpOne p f)

theorem Sound.pumpPort {a s : State} (h : Sound a s) (p : Nat) : Sound a (pumpPort s p) := by
  unfold Machine.pumpPort; dsimp only; split
  · exact Sound.modPort (Sound.pumpAll p _ h) p _
  · exact h

theorem Sound.giveFrame {z s : State} (hz : Sound z s) (p : Nat) (x : Option Nat × PylonFrame) : Sound z (giveFrame s p x) := by
  unfold Machine.giveFrame
  try dsimp only
  repeat' first
    | with_reducible exact hz
    | with_reducible assumption
    | with_reducible apply Sound.pumpPort
    | with_reducible apply Sound.modPort
    | exact fun w => w.2.2.2
    | intro _

theorem Sound.discardFrame {z s : State} (hz : Sound z s) (port : Option Nat) (dst : Nat) : Sound z (discardFrame s port dst) := by
  unfold Machine.discardFrame
  try dsimp only
  repeat' first
    | with_reducible exact hz
    | with_reducible assumption
    | with_reducible apply Sound.count
    | with_reducible apply Sound.logFresh
    | with_reducible apply SoundOpt.some
    | with_reducible exact SoundOpt.none _
    | split
    | exact fun w => w.2.2.2
    | intro _
    | with_reducible refine Sound.of_pair (by assumption) ?_
    | rfl
    | exact id
    | exact TollSound.refl _
    | (simp; done)
    | with_reducible apply Sound.setTime
    | with_reducible apply Sound.setPylon
    | with_reducible apply Sound.record

theorem Sound.sendRouted {z s : State} (hz : Sound z s) (x : Option Nat × PylonFrame) : Sound z (sendRouted s x) := by
  unfold Machine.sendRouted
  try dsimp only
  repeat' first
    | with_reducible exact hz
    | with_reducible assumption
    | with_reducible apply Sound.discardFrame
    | with_reducible apply Sound.leaveBuffer
    | with_reducible apply Sound.giveFrame
    | with_reducible apply SoundOpt.some
    | with_reducible exact SoundOpt.none _
    | split
    | exact fun w => w.2.2.2
    | with_reducible refine Sound.of_pair (by assumption) ?_
    | rfl
    | exact id
    | exact TollSound.refl _
    | (simp; done)
    | with_reducible apply Sound.setPylon

theorem Sound.modLink {z s : State} (hz : Sound z s) (n : Nat) (q : Nat) (f : SpanLink → SpanLink) : Sound z (modLink s n q f) := by
  unfold Machine.modLink
  try dsimp only
  repeat' first
    | with_reducible exact hz
    | with_reducible assumption
    | with_reducible apply Sound.modSpanQueue
    | exact fun w => w.2.2.2
    | intro _

theorem Sound.sendSpan {z s : State} (hz : Sound z s) (n : Nat) (q : Nat) (type : Nat) (flags : Nat) (value : Nat) (body : List Byte) : Sound z (sendSpan s n q type flags value body) := by
  unfold Machine.sendSpan
  try dsimp only
  repeat' first
    | with_reducible exact hz
    | with_reducible assumption
    | with_reducible apply Sound.modLink
    | with_reducible apply Sound.giveFrame
    | with_reducible apply SoundOpt.some
    | with_reducible exact SoundOpt.none _
    | split
    | exact fun w => w.2.2.2
    | intro _
    | with_reducible refine Sound.of_pair (by assumption) ?_
    | with_reducible apply Sound.setTime

theorem Sound.modAssoc {z s : State} (hz : Sound z s) (n : Nat) (peer : Nat) (f : Assoc → Assoc) : Sound z (modAssoc s n peer f) := by
  unfold Machine.modAssoc
  try dsimp only
  repeat' first
    | with_reducible exact hz
    | with_reducible assumption
    | with_reducible apply Sound.modProg
    | split
    | exact fun w => w.2.2.2
    | intro _

theorem Sound.putStay {z s : State} (hz : Sound z s) (n : Nat) (peer : Nat) (tile : Nat) (f : StayFrame) : Sound z (putStay s n peer tile f) := by
  unfold Machine.putStay
  try dsimp only
  repeat' first
    | with_reducible exact hz
    | with_reducible assumption
    | with_reducible apply Sound.modAssoc
    | with_reducible apply Sound.sendRouted
    | with_reducible apply SoundOpt.some
    | with_reducible exact SoundOpt.none _
    | split
    | exact fun w => w.2.2.2
    | intro _
    | with_reducible refine Sound.of_pair (by assumption) ?_
    | with_reducible apply Sound.setTime

theorem Sound.drainBacklog (k : Nat) {a s : State} (h : Sound a s) (n peer : Nat) : Sound a (drainBacklog k s n peer) := by
  induction k generalizing s with
  | zero => exact h
  | succ k ih =>
    unfold Machine.drainBacklog; split
    · exact h
    · split
      · exact h
      · split
        · exact h
        · refine ih (Sound.putStay (Sound.modAssoc h n peer _) n peer _ _)

theorem Sound.sendStay {z s : State} (hz : Sound z s) (n : Nat) (peer : Nat) (tile : Nat) (f : StayFrame) : Sound z (sendStay s n peer tile f) := by
  unfold Machine.sendStay
  try dsimp only
  repeat' first
    | with_reducible exact hz
    | with_reducible assumption
    | with_reducible apply Sound.modAssoc
    | with_reducible apply Sound.drainBacklog
    | with_reducible apply Sound.putStay
    | split
    | exact fun w => w.2.2.2
    | intro _

theorem Sound.restartDeadlines {z s : State} (hz : Sound z s) (fl : SpanLink → Bool) (fa : Assoc → Bool) : Sound z (restartDeadlines s fl fa) := by
  unfold Machine.restartDeadlines
  try dsimp only
  repeat' first
    | with_reducible exact hz
    | with_reducible assumption
    | split
    | exact fun w => w.2.2.2
    | intro _
    | rfl
    | exact id
    | exact TollSound.refl _
    | (simp; done)
    | with_reducible apply Sound.setTime
    | with_reducible apply Sound.setCtxs
    | with_reducible apply Sound.setQueues
    | with_reducible apply Sound.record

theorem Sound.restartWatchdogs {z s : State} (hz : Sound z s) (f : Program → Bool) : Sound z (restartWatchdogs s f) := by
  unfold Machine.restartWatchdogs
  try dsimp only
  repeat' first
    | with_reducible exact hz
    | with_reducible assumption
    | split
    | exact fun w => w.2.2.2
    | intro _
    | rfl
    | exact id
    | exact TollSound.refl _
    | (simp; done)
    | with_reducible apply Sound.setTime
    | with_reducible apply Sound.setCtxs
    | with_reducible apply Sound.record

theorem Sound.addHold {z s : State} (hz : Sound z s) (pkg : Nat) (port : Nat) (arrival : Option (Nat × Nat)) : Sound z (addHold s pkg port arrival) := by
  unfold Machine.addHold
  try dsimp only
  repeat' first
    | with_reducible exact hz
    | with_reducible assumption
    | with_reducible apply SoundOpt.some
    | with_reducible exact SoundOpt.none _
    | split
    | exact fun w => w.2.2.2
    | intro _
    | with_reducible refine Sound.of_pair (by assumption) ?_
    | rfl
    | exact id
    | exact TollSound.refl _
    | (simp; done)
    | with_reducible apply Sound.setTime
    | with_reducible apply Sound.setPkg
    | with_reducible apply Sound.setPylon
    | with_reducible apply Sound.record

theorem Sound.dropArrivals {z s : State} (hz : Sound z s) (p : Nat) : Sound z (dropArrivals s p) := by
  unfold Machine.dropArrivals
  try dsimp only
  repeat' first
    | with_reducible exact hz
    | with_reducible assumption
    | split
    | exact fun w => w.2.2.2
    | intro _
    | rfl
    | exact id
    | exact TollSound.refl _
    | (simp; done)
    | with_reducible apply Sound.setPylon
    | with_reducible apply Sound.record

theorem Sound.dropHold {z s : State} (hz : Sound z s) (pkg : Nat) (port : Nat) : Sound z (dropHold s pkg port) := by
  unfold Machine.dropHold
  try dsimp only
  repeat' first
    | with_reducible exact hz
    | with_reducible assumption
    | with_reducible apply Sound.restartWatchdogs
    | with_reducible apply Sound.restartDeadlines
    | split
    | exact fun w => w.2.2.2
    | intro _
    | rfl
    | exact id
    | exact TollSound.refl _
    | (simp; done)
    | with_reducible apply Sound.setPkg
    | with_reducible apply Sound.setPylon
    | with_reducible apply Sound.record

theorem Sound.endHold {z s : State} (hz : Sound z s) (pkg : Nat) (port : Nat) (arrival : Option (Nat × Nat)) : Sound z (endHold s pkg port arrival) := by
  unfold Machine.endHold
  try dsimp only
  repeat' first
    | with_reducible exact hz
    | with_reducible assumption
    | with_reducible apply Sound.dropHold
    | with_reducible apply SoundOpt.some
    | with_reducible exact SoundOpt.none _
    | split
    | exact fun w => w.2.2.2
    | intro _
    | with_reducible refine Sound.of_pair (by assumption) ?_
    | rfl
    | exact id
    | exact TollSound.refl _
    | (simp; done)
    | with_reducible apply Sound.setTime
    | with_reducible apply Sound.setPkg
    | with_reducible apply Sound.setPylon
    | with_reducible apply Sound.record

theorem Sound.sendHold {z s : State} (hz : Sound z s) (p : Nat) (type : Nat) (pkg : Nat) : Sound z (sendHold s p type pkg) := by
  unfold Machine.sendHold
  try dsimp only
  repeat' first
    | with_reducible exact hz
    | with_reducible assumption
    | with_reducible apply Sound.addHold
    | with_reducible apply Sound.endHold
    | with_reducible apply Sound.sendRouted
    | split

theorem Sound.beginActivity {z s : State} (hz : Sound z s) (p : Nat) : Sound z (beginActivity s p) := by
  unfold Machine.beginActivity
  try dsimp only
  repeat' first
    | with_reducible exact hz
    | with_reducible assumption
    | with_reducible apply Sound.modPort
    | with_reducible apply Sound.sendHold
    | with_reducible apply SoundOpt.some
    | with_reducible exact SoundOpt.none _
    | with_reducible apply Sound.foldl
    | split
    | exact fun w => w.2.2.2
    | intro _
    | with_reducible refine Sound.of_pair (by assumption) ?_
    | with_reducible apply Sound.setTime

theorem Sound.endActivity {z s : State} (hz : Sound z s) (p : Nat) : Sound z (endActivity s p) := by
  unfold Machine.endActivity
  try dsimp only
  repeat' first
    | with_reducible exact hz
    | with_reducible assumption
    | with_reducible apply Sound.modPort
    | with_reducible apply Sound.sendHold
    | with_reducible apply Sound.restartWatchdogs
    | with_reducible apply Sound.restartDeadlines
    | with_reducible apply Sound.foldl
    | exact fun w => w.2.2.2
    | intro _

end Sys2Proof.Machine
end

