-- ==== Sys2Proof/Laws/SoundFault.lean ====
section
/-! SUPPORT. Soundness of the operations of Machine/Fault.lean (see Laws/Sound.lean). -/

namespace Sys2Proof.Machine

theorem Sound.logUncorrectable {a s : State} (h : Sound a s) (r : Reader) (access b : Nat) : Sound a (logUncorrectable r access s b) :=
  Sound.logError (h.count _ _ _ _) _ _ _ _ _ _ _

theorem Sound.correctBlock {z s : State} (hz : Sound z s) (b : Nat) : Sound z (correctBlock s b) := by
  unfold Machine.correctBlock
  try dsimp only
  repeat' first
    | with_reducible exact hz
    | with_reducible assumption
    | with_reducible apply Sound.modStack
    | with_reducible apply Sound.logError
    | with_reducible apply Sound.count
    | split
    | exact fun w => w.2.2.2
    | intro _
    | with_reducible apply Sound.setTime
    | with_reducible apply Sound.record

theorem Sound.correctRange {a s : State} (h : Sound a s) (x n : Nat) : Sound a (correctRange s x n) := by
  unfold Machine.correctRange; dsimp only
  refine Sound.foldl ?_ fun t b ht => ht.correctBlock b
  exact h.setHbm _ id rfl

theorem Sound.footPath {z s : State} (hz : Sound z s) (k : Nat) (a : Nat) (n : Nat) : Sound z (footPath s k a n).1 := by
  unfold Machine.footPath
  try dsimp only
  repeat' first
    | with_reducible exact hz
    | with_reducible assumption
    | with_reducible apply Sound.modStack
    | with_reducible apply Sound.logError
    | split
    | exact fun w => w.2.2.2
    | intro _

theorem Sound.copyGranule {a s : State} (h : Sound a s) (run : CkptRun) (g : Nat × Nat) : Sound a (copyGranule s run g) := by
  unfold Machine.copyGranule; dsimp only
  have h1 := Sound.correctRange h (granuleSrc run g) mib
  refine Sound.count ?_ 5 _ 3 mib
  exact Sound.record h1 rfl rfl rfl rfl rfl rfl (fun w => Hbm.wf_copy w _ _ _) id (fun w => w.2.2.2) (TollSound.refl _) id

theorem Sound.senseHbm {z s : State} (hz : Sound z s) (r : Reader) (a : Nat) (n : Nat) : Sound z (senseHbm s r a n).1 := by
  unfold Machine.senseHbm
  try dsimp only
  repeat' first
    | with_reducible exact hz
    | with_reducible assumption
    | with_reducible apply Sound.correctRange
    | with_reducible apply Sound.logUncorrectable
    | with_reducible apply SoundOpt.some
    | with_reducible exact SoundOpt.none _
    | with_reducible apply Sound.foldl
    | split
    | intro _

/-- A change of HBM that keeps its canonical form and the number of stacks. -/
def KeepsHbm (put : Hbm → Hbm) : Prop :=
  ∀ m : Hbm, (Memory.Wf m.mem → Memory.Wf (put m).mem) ∧ (put m).footings.length = m.footings.length

theorem KeepsHbm.write (x : Nat) (bs : List Byte) : KeepsHbm fun h => h.write x bs := fun _ => ⟨fun w => Hbm.wf_write w _ _, rfl⟩

theorem Sound.mergeHbm {a s : State} (h : Sound a s) (r : Reader) (x n : Nat) {put : Hbm → Hbm} (hp : KeepsHbm put) :
    Sound a (mergeHbm s r x n put).1 := by
  unfold Machine.mergeHbm; dsimp only
  refine Sound.setHbm ?_ _ (hp _).1 (hp _).2
  refine Sound.foldl ?_ fun t b ht => ht.logUncorrectable _ _ b
  exact Sound.foldl h fun t b ht => ht.correctBlock b

theorem Sound.readCommits {z s : State} (hz : Sound z s) (n : Nat) : Sound z (readCommits s n) := by
  unfold Machine.readCommits
  try dsimp only
  repeat' first
    | with_reducible exact hz
    | with_reducible assumption
    | with_reducible apply Sound.senseHbm
    | with_reducible apply Sound.foldl
    | intro _

theorem Sound.ckptReport {z s : State} (hz : Sound z s) (run : CkptRun) (status : Nat) : Sound z (ckptReport s run status) := by
  unfold Machine.ckptReport
  try dsimp only
  repeat' first
    | with_reducible exact hz
    | with_reducible assumption
    | with_reducible apply Sound.post

theorem Sound.settleRelease {z s : State} (hz : Sound z s)  : Sound z (settleRelease s) := by
  unfold Machine.settleRelease
  try dsimp only
  repeat' first
    | with_reducible exact hz
    | with_reducible assumption
    | with_reducible apply Sound.finish
    | with_reducible apply SoundOpt.some
    | with_reducible exact SoundOpt.none _
    | split
    | exact fun w => w.2.2.2
    | with_reducible refine Sound.of_pair (by assumption) ?_
    | with_reducible apply Sound.setCaisson

theorem Sound.abandonCkpt {z s : State} (hz : Sound z s) (status : Nat) : Sound z (abandonCkpt s status) := by
  unfold Machine.abandonCkpt
  try dsimp only
  repeat' first
    | with_reducible exact hz
    | with_reducible assumption
    | with_reducible apply Sound.ckptReport
    | with_reducible apply Sound.settleRelease
    | with_reducible apply Sound.logError
    | with_reducible apply SoundOpt.some
    | with_reducible exact SoundOpt.none _
    | split
    | exact fun w => w.2.2.2
    | with_reducible refine Sound.of_pair (by assumption) ?_
    | with_reducible apply Sound.setCaisson

theorem Sound.copyBeforeList (gs : List (Nat × Nat)) {a s : State} (h : Sound a s) : Sound a (copyBeforeList gs s).1 := by
  induction gs generalizing s with
  | nil => exact h
  | cons g gs ih =>
    unfold Machine.copyBeforeList; split
    · exact h
    · dsimp only; split
      · split
        · rename_i e; exact Sound.abandonCkpt (Sound.of_pair e (h.footPath ..)) _
        · rename_i e; exact ih ((Sound.of_pair e (h.footPath ..)).copyGranule _ g)
      · exact Sound.abandonCkpt (Sound.foldl h fun t b ht => ht.logUncorrectable _ _ b) _

theorem Sound.waitOnCopies {z s : State} (hz : Sound z s) (a : Nat) (n : Nat) : Sound z (waitOnCopies s a n) := by
  unfold Machine.waitOnCopies
  try dsimp only
  repeat' first
    | with_reducible exact hz
    | with_reducible assumption
    | split
    | exact fun w => w.2.2.2
    | with_reducible apply Sound.setWaits
    | with_reducible apply Sound.setWaitsFree
    | with_reducible apply Sound.setFree
    | with_reducible apply Sound.record

theorem Sound.copyBefore {a s : State} (h : Sound a s) (x n : Nat) : Sound a (copyBefore s x n).1 :=
  Sound.copyBeforeList _ (h.waitOnCopies x n)

theorem Sound.sampleStore {a s : State} (h : Sound a s) (r : Reader) (x : Nat) (bs : List Byte) : Sound a (sampleStore s r x bs).1 :=
  Sound.mergeHbm ((h.copyBefore x _).count ..) r x _ (KeepsHbm.write x bs)

theorem Sound.modSampling {z s : State} (hz : Sound z s) (n : Nat) (f : Sampling → Sampling) : Sound z (modSampling s n f) := by
  unfold Machine.modSampling
  try dsimp only
  repeat' first
    | with_reducible exact hz
    | with_reducible assumption
    | with_reducible apply Sound.modCtx
    | exact fun w => w.2.2.2
    | intro _

theorem Sound.putHeader {z s : State} (hz : Sound z s) (n : Nat) (state : Nat) : Sound z (putHeader s n state) := by
  unfold Machine.putHeader
  try dsimp only
  repeat' first
    | with_reducible exact hz
    | with_reducible assumption
    | with_reducible apply Sound.sampleStore
    | with_reducible apply SoundOpt.some
    | with_reducible exact SoundOpt.none _
    | split
    | exact fun w => w.2.2.2
    | with_reducible refine Sound.of_pair (by assumption) ?_

theorem Sound.placeRecord {z s : State} (hz : Sound z s) (n : Nat) (x : Sampling) (r : Nat × List Byte) : Sound z (placeRecord s n x r).1 := by
  unfold Machine.placeRecord
  try dsimp only
  repeat' first
    | with_reducible exact hz
    | with_reducible assumption
    | with_reducible apply Sound.sampleStore
    | split

theorem Sound.storeRecord {z s : State} (hz : Sound z s) (n : Nat) (r : Nat × List Byte) : Sound z (storeRecord s n r) := by
  unfold Machine.storeRecord
  try dsimp only
  repeat' first
    | with_reducible exact hz
    | with_reducible assumption
    | with_reducible apply Sound.placeRecord
    | with_reducible apply Sound.putHeader
    | with_reducible apply Sound.modSampling
    | with_reducible apply SoundOpt.some
    | with_reducible exact SoundOpt.none _
    | split
    | exact fun w => w.2.2.2
    | intro _
    | with_reducible refine Sound.of_pair (by assumption) ?_
    | with_reducible apply Sound.record

theorem Sound.storeRecords (k n : Nat) {a s : State} (h : Sound a s) : Sound a (storeRecords k n s) := by
  induction k generalizing s with
  | zero => exact h
  | succ k ih =>
    unfold Machine.storeRecords; split
    · exact h
    · exact ih (Sound.storeRecord (h.modSampling n _) n _)

theorem Sound.flushRecords {z s : State} (hz : Sound z s) (n : Nat) : Sound z (flushRecords s n) := by
  unfold Machine.flushRecords
  try dsimp only
  repeat' first
    | with_reducible exact hz
    | with_reducible assumption
    | with_reducible apply Sound.storeRecords

theorem Sound.drainRecords {z s : State} (hz : Sound z s) (n : Nat) : Sound z (drainRecords s n) := by
  unfold Machine.drainRecords
  try dsimp only
  repeat' first
    | with_reducible exact hz
    | with_reducible assumption
    | with_reducible apply Sound.storeRecords
    | with_reducible apply Sound.freeUsed
    | split

theorem Sound.endSampling {z s : State} (hz : Sound z s) (n : Nat) : Sound z (endSampling s n) := by
  unfold Machine.endSampling
  try dsimp only
  repeat' first
    | with_reducible exact hz
    | with_reducible assumption
    | with_reducible apply Sound.modCtx
    | with_reducible apply Sound.putHeader
    | with_reducible apply Sound.flushRecords
    | with_reducible apply SoundOpt.some
    | with_reducible exact SoundOpt.none _
    | split
    | exact fun w => w.2.2.2
    | intro _
    | with_reducible refine Sound.of_pair (by assumption) ?_

theorem Sound.abandonLinks {z s : State} (hz : Sound z s) (n : Nat) (status : Nat) (qs : List Nat) : Sound z (abandonLinks s n status qs) := by
  unfold Machine.abandonLinks
  try dsimp only
  repeat' first
    | with_reducible exact hz
    | with_reducible assumption
    | with_reducible apply Sound.sendSpan
    | with_reducible apply Sound.modLink
    | with_reducible apply SoundOpt.some
    | with_reducible exact SoundOpt.none _
    | with_reducible apply Sound.foldl
    | split
    | exact fun w => w.2.2.2
    | intro _
    | with_reducible refine Sound.of_pair (by assumption) ?_

theorem Sound.abandonAssocs {z s : State} (hz : Sound z s) (n : Nat) (status : Nat) (peers : List Nat) : Sound z (abandonAssocs s n status peers) := by
  unfold Machine.abandonAssocs
  try dsimp only
  repeat' first
    | with_reducible exact hz
    | with_reducible assumption
    | with_reducible apply Sound.putStay
    | with_reducible apply Sound.modAssoc
    | with_reducible apply SoundOpt.some
    | with_reducible exact SoundOpt.none _
    | with_reducible apply Sound.foldl
    | split
    | exact fun w => w.2.2.2
    | intro _
    | with_reducible refine Sound.of_pair (by assumption) ?_

theorem Sound.stepReport {z s : State} (hz : Sound z s) (n : Nat) (status : Nat) (last : Bool) : Sound z (stepReport s n status last) := by
  unfold Machine.stepReport
  try dsimp only
  repeat' first
    | with_reducible exact hz
    | with_reducible assumption
    | with_reducible apply Sound.post
    | with_reducible apply SoundOpt.some
    | with_reducible exact SoundOpt.none _
    | split
    | exact fun w => w.2.2.2
    | with_reducible refine Sound.of_pair (by assumption) ?_

theorem Sound.dropFeed {z s : State} (hz : Sound z s) (q : Nat) (seq : Nat) : Sound z (dropFeed s q seq) := by
  unfold Machine.dropFeed
  try dsimp only
  repeat' first
    | with_reducible exact hz
    | with_reducible assumption
    | exact fun w => w.2.2.2
    | intro _
    | with_reducible apply Sound.setApr

theorem Sound.postRecord {z s : State} (hz : Sound z s) (f : Feed) (k : Nat) : Sound z (postRecord f s k) := by
  unfold Machine.postRecord
  try dsimp only
  repeat' first
    | with_reducible exact hz
    | with_reducible assumption
    | with_reducible apply Sound.postHost
    | with_reducible apply Sound.freeUsed
    | with_reducible apply SoundOpt.some
    | with_reducible exact SoundOpt.none _
    | split
    | exact fun w => w.2.2.2
    | with_reducible refine Sound.of_pair (by assumption) ?_

theorem Sound.endFeed {z s : State} (hz : Sound z s) (f : Feed) (status : Nat) (p : List Nat) : Sound z (endFeed s f status p) := by
  unfold Machine.endFeed
  try dsimp only
  repeat' first
    | with_reducible exact hz
    | with_reducible assumption
    | with_reducible apply Sound.finish
    | with_reducible apply Sound.dropFeed
    | with_reducible apply Sound.postRecord
    | with_reducible apply Sound.foldl
    | intro _

theorem Sound.endFeeds {z s : State} (hz : Sound z s) (n : Nat) (status : Nat) : Sound z (endFeeds s n status) := by
  unfold Machine.endFeeds
  try dsimp only
  repeat' first
    | with_reducible exact hz
    | with_reducible assumption
    | with_reducible apply Sound.endFeed
    | with_reducible apply Sound.finish
    | with_reducible apply Sound.foldl
    | intro _

theorem Sound.endProgramCommands {z s : State} (hz : Sound z s) (n : Nat) (status : Nat) : Sound z (endProgramCommands s n status) := by
  unfold Machine.endProgramCommands
  try dsimp only
  repeat' first
    | with_reducible exact hz
    | with_reducible assumption
    | with_reducible apply Sound.endFeeds
    | with_reducible apply Sound.finish
    | with_reducible apply Sound.foldl
    | exact fun w => w.2.2.2
    | intro _

theorem Sound.faultContext {z s : State} (hz : Sound z s) (n : Nat) (status : Nat) : Sound z (faultContext s n status) := by
  unfold Machine.faultContext
  try dsimp only
  repeat' first
    | with_reducible exact hz
    | with_reducible assumption
    | with_reducible apply Sound.endFeeds
    | with_reducible apply Sound.modCtx
    | with_reducible apply Sound.abandonLinks
    | with_reducible apply Sound.abandonAssocs
    | with_reducible apply Sound.modProg
    | with_reducible apply Sound.abandonCkpt
    | with_reducible apply Sound.endSampling
    | with_reducible apply Sound.endProgramCommands
    | with_reducible apply Sound.stepReport
    | with_reducible apply SoundOpt.some
    | with_reducible exact SoundOpt.none _
    | split
    | exact fun w => w.2.2.2
    | intro _
    | with_reducible refine Sound.of_pair (by assumption) ?_
    | rfl
    | exact id
    | exact TollSound.refl _
    | (simp; done)
    | with_reducible apply Sound.setCaisson
    | with_reducible apply Sound.setQueues
    | with_reducible apply Sound.record

theorem Sound.memoryFault {z s : State} (hz : Sound z s) (r : Reader) : Sound z (memoryFault s r) := by
  unfold Machine.memoryFault
  try dsimp only
  repeat' first
    | with_reducible exact hz
    | with_reducible assumption
    | with_reducible apply Sound.faultContext
    | split

theorem Sound.confine {z s : State} (hz : Sound z s) (n : Nat) (source : Nat) (position : Nat) (detail : List Nat) : Sound z (confine s n source position detail) := by
  unfold Machine.confine
  try dsimp only
  repeat' first
    | with_reducible exact hz
    | with_reducible assumption
    | with_reducible apply Sound.faultContext
    | with_reducible apply Sound.logError

theorem Sound.pierFault {z s : State} (hz : Sound z s) (n : Nat) (pier : Nat) (index : Nat) (address : Nat) : Sound z (pierFault s n pier index address) := by
  unfold Machine.pierFault
  try dsimp only
  repeat' first
    | with_reducible exact hz
    | with_reducible assumption
    | with_reducible apply Sound.confine

theorem Sound.peerLost {z s : State} (hz : Sound z s) (n : Nat) (name : Nat) (peer : Nat) (status : Nat) : Sound z (peerLost s n name peer status) := by
  unfold Machine.peerLost
  try dsimp only
  repeat' first
    | with_reducible exact hz
    | with_reducible assumption
    | with_reducible apply Sound.faultContext
    | with_reducible apply Sound.logError

theorem Sound.readHbm {z s : State} (hz : Sound z s) (r : Reader) (a : Nat) (n : Nat) : Sound z (readHbm s r a n).1 := by
  unfold Machine.readHbm
  try dsimp only
  repeat' first
    | with_reducible exact hz
    | with_reducible assumption
    | with_reducible apply Sound.senseHbm
    | with_reducible apply Sound.count

theorem Sound.copyFirst {a s : State} (h : Sound a s) (x n : Nat) : Sound a (copyFirst s x n) := by
  unfold Machine.copyFirst; split
  · rename_i e _; exact (Sound.of_pair e (h.copyBefore x n)).faultContext _ _
  · first | (rename_i e _; exact Sound.of_pair e (h.copyBefore x n)) | (rename_i e _ _; exact Sound.of_pair e (h.copyBefore x n))

theorem Sound.storeInside {a s : State} (h : Sound a s) (r : Reader) (x n : Nat) {put : Hbm → Hbm} (hp : KeepsHbm put) :
    Sound a (storeInside s r x n put).1 := (h.copyFirst x n).mergeHbm r x n hp

theorem Sound.storeHbm {a s : State} (h : Sound a s) (r : Reader) (x n : Nat) {put : Hbm → Hbm} (hp : KeepsHbm put) :
    Sound a (storeHbm s r x n put).1 := Sound.storeInside (h.count ..) r x n hp

theorem Sound.writeHbm {a s : State} (h : Sound a s) (r : Reader) (x : Nat) (bs : List Byte) : Sound a (writeHbm s r x bs).1 :=
  h.storeHbm r x _ (KeepsHbm.write x bs)

theorem Sound.writeOrFault {z s : State} (hz : Sound z s) (r : Reader) (a : Nat) (bs : List Byte) : Sound z (writeOrFault s r a bs) := by
  unfold Machine.writeOrFault
  try dsimp only
  repeat' first
    | with_reducible exact hz
    | with_reducible assumption
    | with_reducible apply Sound.writeHbm
    | with_reducible apply Sound.memoryFault
    | split
    | with_reducible refine Sound.of_pair (by assumption) ?_

theorem Sound.readOrFault {z s : State} (hz : Sound z s) (r : Reader) (a : Nat) (n : Nat) : Sound z (readOrFault s r a n).1 := by
  unfold Machine.readOrFault
  try dsimp only
  repeat' first
    | with_reducible exact hz
    | with_reducible assumption
    | with_reducible apply Sound.readHbm
    | with_reducible apply Sound.memoryFault
    | with_reducible apply SoundOpt.some
    | with_reducible exact SoundOpt.none _
    | split
    | exact fun w => w.2.2.2
    | with_reducible refine Sound.of_pair (by assumption) ?_

end Sys2Proof.Machine
end

