-- ==== Sys2Proof/Laws/SoundPier.lean ====
section
/-! SUPPORT. Soundness of the operations of Machine/Pier.lean (see Laws/Sound.lean). -/

namespace Sys2Proof.Machine

theorem wf_setPlane {P : Pier} (w : Memory.Wf P.mem) (b : Bool) (x : Plane) : Memory.Wf (setPlane P b x).mem := by
  unfold setPlane; split <;> exact w

theorem Sound.opDone {z s : State} (hz : Sound z s) (n : Nat) : Sound z (opDone s n) := by
  unfold Machine.opDone
  try dsimp only
  repeat' first
    | with_reducible exact hz
    | with_reducible assumption
    | with_reducible apply Sound.modProg
    | exact fun w => w.2.2.2
    | intro _
    | with_reducible apply Sound.setTime

theorem Sound.refill {z s : State} (hz : Sound z s) (n : Nat) (im : Image) (p : Nat) : Sound z (refill s n im p).1 := by
  unfold Machine.refill
  try dsimp only
  repeat' first
    | with_reducible exact hz
    | with_reducible assumption
    | with_reducible apply Sound.readOrFault
    | with_reducible apply Sound.modPier
    | with_reducible apply SoundOpt.some
    | with_reducible exact SoundOpt.none _
    | split
    | exact fun w => w.2.2.2
    | intro _
    | with_reducible refine Sound.of_pair (by assumption) ?_
    | rfl
    | exact fun _ w => w

theorem Sound.fetchWord {z s : State} (hz : Sound z s) (n : Nat) (im : Image) (p : Nat) : Sound z (fetchWord s n im p).1 := by
  unfold Machine.fetchWord
  try dsimp only
  repeat' first
    | with_reducible exact hz
    | with_reducible assumption
    | with_reducible apply Sound.refill
    | with_reducible apply SoundOpt.some
    | with_reducible exact SoundOpt.none _
    | split
    | exact fun w => w.2.2.2
    | with_reducible refine Sound.of_pair (by assumption) ?_

theorem Sound.atPier {z s : State} (hz : Sound z s) (p : Nat) (accept : Nat → Bool) (f : State → Issue → State)
    (hf : ∀ t i, Sound z t → Sound z (f t i)) : Sound z (atPier s p accept f) := by
  unfold Machine.atPier; split
  · exact hz
  · dsimp only; split
    · exact hz.pierFault ..
    · split
      · rename_i e; exact Sound.of_pair e (hz.fetchWord ..)
      · rename_i e
        have h1 := Sound.of_pair e (hz.fetchWord ..)
        split
        · exact hf _ _ h1
        · exact hz

theorem Sound.startCounting {z s : State} (hz : Sound z s) (n : Nat) (p : Nat) : Sound z (startCounting s n p) := by
  unfold Machine.startCounting
  try dsimp only
  repeat' first
    | with_reducible exact hz
    | with_reducible assumption
    | with_reducible apply Sound.modCtx
    | with_reducible apply Sound.count
    | split
    | exact fun w => w.2.2.2
    | intro _
    | with_reducible apply Sound.record

theorem Sound.sampleTick {z s : State} (hz : Sound z s) (n : Nat) (p : Nat) (op : Nat) : Sound z (sampleTick s n p op).1 := by
  unfold Machine.sampleTick
  try dsimp only
  repeat' first
    | with_reducible exact hz
    | with_reducible assumption
    | with_reducible apply Sound.modCtx
    | with_reducible apply Sound.count
    | with_reducible apply SoundOpt.some
    | with_reducible exact SoundOpt.none _
    | split
    | exact fun w => w.2.2.2
    | intro _
    | with_reducible refine Sound.of_pair (by assumption) ?_
    | with_reducible apply Sound.record

theorem Sound.takeRecord {z s : State} (hz : Sound z s) (n : Nat) (p : Nat) (w : Nat) (index : Nat) (flags : Nat) (issued : Option Nat) (ended : Option Nat) : Sound z (takeRecord s n p w index flags issued ended) := by
  unfold Machine.takeRecord
  try dsimp only
  repeat' first
    | with_reducible exact hz
    | with_reducible assumption
    | with_reducible apply Sound.drainRecords
    | with_reducible apply Sound.modSampling
    | with_reducible apply Sound.freeUsed
    | with_reducible apply SoundOpt.some
    | with_reducible exact SoundOpt.none _
    | split
    | exact fun w => w.2.2.2
    | intro _
    | with_reducible refine Sound.of_pair (by assumption) ?_
    | with_reducible apply Sound.setTime
    | with_reducible apply Sound.setFree
    | with_reducible apply Sound.record

theorem Sound.Issue_issue {z s : State} (hz : Sound z s) (i : Issue) : Sound z (Issue.issue i s).1 := by
  unfold Machine.Issue.issue
  try dsimp only
  repeat' first
    | with_reducible exact hz
    | with_reducible assumption
    | with_reducible apply Sound.modPier
    | with_reducible apply Sound.sampleTick
    | with_reducible apply Sound.countEvent
    | exact fun w => w.2.2.2
    | intro _
    | rfl
    | exact fun _ w => w

theorem Sound.sampled {z s : State} (hz : Sound z s) (n p w index : Nat) (issued ended : Option Nat) (hit : Bool) (effect : State → State)
    (hf : ∀ t, Sound z t → Sound z (effect t)) : Sound z (sampled s n p w index issued ended hit effect) := by
  unfold Machine.sampled; dsimp only; split
  · exact hf _ hz
  · split
    · exact hf _ (hz.takeRecord ..)
    · split
      · exact (hf _ hz).modPier p _ fun _ w => w
      · exact (hf _ hz).takeRecord ..

theorem Sound.Issue_run {z s : State} (i : Issue) (hz : Sound z s) (effect : State → State)
    (hf : ∀ t, Sound z t → Sound z (effect t)) : Sound z (i.run s effect) := by
  unfold Machine.Issue.run
  exact Sound.opDone (Sound.sampled (hz.Issue_issue i) _ _ _ _ _ _ _ _ hf) _

theorem Sound.issueFaulting {z s : State} (hz : Sound z s) (n : Nat) (p : Nat) (index : Nat) (w : Nat) : Sound z (issueFaulting s n p index w) := by
  unfold Machine.issueFaulting
  try dsimp only
  repeat' first
    | with_reducible exact hz
    | with_reducible assumption
    | with_reducible apply Sound.sampleTick
    | with_reducible apply Sound.countEvent
    | with_reducible apply Sound.takeRecord
    | with_reducible apply SoundOpt.some
    | with_reducible exact SoundOpt.none _
    | split

theorem Sound.Issue_fault {z s : State} (hz : Sound z s) (i : Issue) (address : Nat) : Sound z (Issue.fault i s address) := by
  unfold Machine.Issue.fault
  try dsimp only
  repeat' first
    | with_reducible exact hz
    | with_reducible assumption
    | with_reducible apply Sound.pierFault
    | with_reducible apply Sound.issueFaulting

theorem Sound.padFault {z s : State} (hz : Sound z s) (n : Nat) (p : Nat) (a : Nat) : Sound z (padFault s n p a) := by
  unfold Machine.padFault
  try dsimp only
  repeat' first
    | with_reducible exact hz
    | with_reducible assumption
    | with_reducible apply Sound.faultContext
    | with_reducible apply Sound.logError

theorem Sound.correctWords {z s : State} (hz : Sound z s) (n : Nat) (p : Nat) (rs : List Range) : Sound z (correctWords s n p rs) := by
  unfold Machine.correctWords
  try dsimp only
  repeat' first
    | with_reducible exact hz
    | with_reducible assumption
    | with_reducible apply Sound.modPier
    | with_reducible apply Sound.countCtx
    | with_reducible apply Sound.logError
    | with_reducible apply Sound.foldl
    | exact fun w => w.2.2.2
    | intro _
    | rfl
    | exact fun _ w => w

theorem Sound.touchPad {z s : State} (hz : Sound z s) (n : Nat) (p : Nat) (rs : List Range) : Sound z (touchPad s n p rs) := by
  unfold Machine.touchPad
  try dsimp only
  repeat' first
    | with_reducible exact hz
    | with_reducible assumption
    | with_reducible apply Sound.correctWords
    | with_reducible apply Sound.countEvent

theorem Sound.writePad {z s : State} (hz : Sound z s) (n p x : Nat) (bs : List Byte) : Sound z (writePad s n p x bs) := by
  unfold Machine.writePad; dsimp only
  exact Sound.countEvent ((hz.correctWords ..).modPier p _ fun _ w => Memory.wf_write w _ _) n p _ _

theorem Sound.loadRows (n p : Nat) (x : LoadW) (f k : Nat) {z s : State} (hz : Sound z s) : Sound z (loadRows n p x f k s).1 := by
  induction f generalizing k s with
  | zero => exact hz
  | succ f ih =>
    unfold Machine.loadRows; split
    · exact hz
    · exact ih _ (hz.touchPad ..)

theorem Sound.execLoadW {z s0 : State} (hz : Sound z s0) (pier : Nat) : SoundOut z (execLoadW pier s0) := by
  unfold Machine.execLoadW
  try dsimp only
  repeat' first
    | exact wf_setPlane ‹_› _ _
    | (apply Sound.loadRows)
    | with_reducible apply SoundOut.next
    | with_reducible exact hz
    | with_reducible assumption
    | with_reducible apply Sound.atPier
    | with_reducible apply Sound.Issue_fault
    | with_reducible apply Sound.Issue_run
    | with_reducible apply Sound.loadRows
    | with_reducible apply Sound.padFault
    | with_reducible apply Sound.modPier
    | with_reducible apply Sound.countEvent
    | split
    | exact fun w => w.2.2.2
    | with_reducible refine Sound.of_pair (by assumption) ?_
    | rfl
    | exact fun _ w => w
    | intro _

theorem Sound.countPass {z s : State} (hz : Sound z s) (i : Issue) (x : Pass) : Sound z (countPass s i x) := by
  unfold Machine.countPass
  try dsimp only
  repeat' first
    | with_reducible exact hz
    | with_reducible assumption
    | with_reducible apply Sound.countEvent
    | split

theorem Sound.startPass {z s : State} (hz : Sound z s) (i : Issue) (x : Pass) (win : Option Window) : Sound z (startPass s i x win) := by
  unfold Machine.startPass
  try dsimp only
  repeat' first
    | with_reducible exact hz
    | with_reducible assumption
    | with_reducible apply Sound.Issue_issue
    | with_reducible apply Sound.touchPad
    | with_reducible apply Sound.countCtx
    | with_reducible apply Sound.countPass
    | with_reducible apply Sound.countEvent
    | with_reducible apply Sound.sampled
    | with_reducible apply Sound.modPier
    | with_reducible apply Sound.padFault
    | with_reducible apply Sound.takeRecord
    | with_reducible apply SoundOpt.some
    | with_reducible exact SoundOpt.none _
    | split
    | exact fun w => w.2.2.2
    | intro _
    | with_reducible refine Sound.of_pair (by assumption) ?_
    | rfl
    | exact fun _ w => w
    | with_reducible apply Sound.setTime

theorem Sound.fetchWindow {z s : State} (hz : Sound z s) (i : Issue) (x : Pass) : Sound z (fetchWindow s i x).1 := by
  unfold Machine.fetchWindow
  try dsimp only
  repeat' first
    | with_reducible exact hz
    | with_reducible assumption
    | with_reducible apply Sound.readOrFault
    | with_reducible apply SoundOpt.some
    | with_reducible exact SoundOpt.none _
    | split
    | exact fun w => w.2.2.2
    | with_reducible refine Sound.of_pair (by assumption) ?_

theorem Sound.execPass {z s0 : State} (hz : Sound z s0) (pier : Nat) : SoundOut z (execPass pier s0) := by
  unfold Machine.execPass
  try dsimp only
  repeat' first
    | exact ‹Sound _ _›
    | with_reducible apply SoundOut.next
    | with_reducible exact hz
    | with_reducible assumption
    | with_reducible apply Sound.atPier
    | with_reducible apply Sound.Issue_fault
    | with_reducible apply Sound.fetchWindow
    | with_reducible apply Sound.Issue_run
    | with_reducible apply Sound.countPass
    | with_reducible apply Sound.startPass
    | split
    | exact fun w => w.2.2.2
    | with_reducible refine Sound.of_pair (by assumption) ?_
    | intro _

theorem Sound.sampledOnce {z s : State} (hz : Sound z s) (n p index : Nat) (effect : State → State)
    (hf : ∀ t, Sound z t → Sound z (effect t)) : Sound z (sampledOnce s n p index effect) := by
  unfold Machine.sampledOnce; dsimp only
  refine Sound.sampled ?_ _ _ _ _ _ _ _ _ hf
  apply Sound.modPier hz
  exact fun _ w => w

theorem Sound.finishOutstanding {z s : State} (hz : Sound z s) (n p index : Nat) (effect : State → State)
    (hf : ∀ t, Sound z t → Sound z (effect t)) : Sound z (finishOutstanding s n p index effect) := by
  unfold Machine.finishOutstanding; dsimp only
  apply Sound.opDone
  apply Sound.modPier (hz.sampledOnce _ _ _ _ hf)
  exact fun _ w => w

theorem Sound.rowDone {z s : State} (hz : Sound z s) (n : Nat) (pier : Nat) (p : PassInFlight) : Sound z (rowDone s n pier p) := by
  unfold Machine.rowDone; split
  · apply Sound.finishOutstanding _ _ _ _ _ fun _ w => w
    apply Sound.modPier hz
    exact fun _ w => w
  · apply Sound.modPier hz
    exact fun _ w => w

theorem Sound.execPassRowWriteback {z s : State} (hz : Sound z s) (pier : Nat) : SoundOut z (execPassRowWriteback pier s) := by
  unfold Machine.execPassRowWriteback
  try dsimp only
  repeat' first
    | exact ‹Sound _ _›
    | with_reducible apply SoundOut.next
    | with_reducible exact hz
    | with_reducible assumption
    | with_reducible apply Sound.rowDone
    | with_reducible apply Sound.sampledOnce
    | with_reducible apply Sound.padFault
    | with_reducible apply Sound.touchPad
    | with_reducible apply Sound.writePad
    | split
    | exact fun w => w.2.2.2
    | intro _

theorem Sound.execDrain {z s0 : State} (hz : Sound z s0) (pier : Nat) : SoundOut z (execDrain pier s0) := by
  unfold Machine.execDrain
  try dsimp only
  repeat' first
    | with_reducible apply SoundOut.next
    | with_reducible exact hz
    | with_reducible assumption
    | with_reducible apply Sound.atPier
    | with_reducible apply Sound.Issue_fault
    | with_reducible apply Sound.start
    | with_reducible apply Sound.Issue_issue
    | with_reducible apply Sound.sampled
    | with_reducible apply Sound.modPier
    | split
    | exact fun w => w.2.2.2
    | with_reducible refine Sound.of_pair (by assumption) ?_
    | rfl
    | exact fun _ w => w
    | with_reducible apply Sound.setTime
    | (exact fun _ w => Memory.wf_write w _ _)
    | intro _

theorem Sound.drainRows (n p : Nat) (x : Drain) (f m : Nat) {z s : State} (hz : Sound z s) : Sound z (drainRows n p x f m s) := by
  induction f generalizing m s with
  | zero => exact hz.countEvent ..
  | succ f ih =>
    unfold Machine.drainRows; split
    · exact hz.padFault ..
    · exact ih _ ((hz.touchPad ..).writePad ..)

theorem Sound.execDrainBind {z s : State} (hz : Sound z s) (pier : Nat) : SoundOut z (execDrainBind pier s) := by
  unfold Machine.execDrainBind
  try dsimp only
  repeat' first
    | (apply Sound.finishOutstanding)
    | with_reducible apply SoundOut.next
    | with_reducible exact hz
    | with_reducible assumption
    | with_reducible apply Sound.modPier
    | with_reducible apply Sound.finishOutstanding
    | with_reducible apply Sound.drainRows
    | with_reducible apply SoundOpt.some
    | with_reducible exact SoundOpt.none _
    | split
    | exact fun w => w.2.2.2
    | with_reducible refine Sound.of_pair (by assumption) ?_
    | rfl
    | exact fun _ w => w
    | intro _

theorem Sound.accumulateHbm {z s0 : State} (hz : Sound z s0) (r : Reader) (fmt a : Nat) (source : List Byte) :
    Sound z (accumulateHbm s0 r fmt a source) := by
  unfold Machine.accumulateHbm; dsimp only
  have h1 := hz.footPath ((stackOf a).getD 0) a r.ctx
  generalize Machine.footPath s0 ((stackOf a).getD 0) a r.ctx = P at h1
  split
  · exact h1.memoryFault r
  · have h2 := (h1.copyFirst a source.length).correctRange a source.length
    generalize Machine.correctRange (Machine.copyFirst P.1 a source.length) a source.length = u at h2
    have h3 := Sound.count (h2.setHbm { u.hbm with mem := (u.hbm.badIn a source.length).foldl (fun m b =>
      Memory.copyFrom m u.hbm.mem (64 * b) (64 * b) 64) (u.hbm.mem.write a (accWriteBytes fmt (u.hbm.mem.read a source.length) source)) }
      (fun w => Memory.wf_keep (Memory.wf_write w _ _) _ _) rfl) 5 ((stackOf a).getD 0) 2 source.length
    split
    · exact h3
    · exact Sound.memoryFault (Sound.foldl h3 fun t b ht => ht.logUncorrectable _ _ b) r

theorem Sound.execAccWrite {z s0 : State} (hz : Sound z s0) (pier : Nat) : SoundOut z (execAccWrite pier s0) := by
  unfold Machine.execAccWrite
  try dsimp only
  repeat' first
    | with_reducible apply SoundOut.next
    | with_reducible exact hz
    | with_reducible assumption
    | with_reducible apply Sound.atPier
    | with_reducible apply Sound.start
    | with_reducible apply Sound.Issue_fault
    | with_reducible apply Sound.Issue_run
    | with_reducible apply Sound.touchPad
    | with_reducible apply Sound.countEvent
    | with_reducible apply Sound.accumulateHbm
    | with_reducible apply Sound.padFault
    | split
    | exact fun w => w.2.2.2
    | with_reducible refine Sound.of_pair (by assumption) ?_
    | intro _

theorem Sound.copyIn {z s : State} (hz : Sound z s) (i : Issue) (g : General) : Sound z (copyIn s i g) := by
  unfold Machine.copyIn
  try dsimp only
  repeat' first
    | with_reducible exact hz
    | with_reducible assumption
    | with_reducible apply Sound.readHbm
    | with_reducible apply Sound.countEvent
    | with_reducible apply Sound.writePad
    | with_reducible apply Sound.readOrFault
    | with_reducible apply SoundOpt.some
    | with_reducible exact SoundOpt.none _
    | split
    | exact fun w => w.2.2.2
    | with_reducible refine Sound.of_pair (by assumption) ?_

theorem Sound.copyOut {z s : State} (hz : Sound z s) (i : Issue) (g : General) : Sound z (copyOut s i g) := by
  unfold Machine.copyOut
  try dsimp only
  repeat' first
    | with_reducible exact hz
    | with_reducible assumption
    | with_reducible apply Sound.countEvent
    | with_reducible apply Sound.touchPad
    | with_reducible apply Sound.start
    | with_reducible apply Sound.writePad
    | with_reducible apply Sound.writeOrFault
    | with_reducible apply Sound.padFault
    | with_reducible apply SoundOpt.some
    | with_reducible exact SoundOpt.none _
    | split
    | exact fun w => w.2.2.2
    | with_reducible refine Sound.of_pair (by assumption) ?_

theorem Sound.execCopy {z s0 : State} (hz : Sound z s0) (pier : Nat) : SoundOut z (execCopy pier s0) := by
  unfold Machine.execCopy
  try dsimp only
  repeat' first
    | with_reducible apply SoundOut.next
    | with_reducible exact hz
    | with_reducible assumption
    | with_reducible apply Sound.atPier
    | with_reducible apply Sound.start
    | with_reducible apply Sound.Issue_fault
    | with_reducible apply Sound.Issue_run
    | with_reducible apply Sound.copyIn
    | with_reducible apply Sound.copyOut
    | split
    | exact fun w => w.2.2.2
    | with_reducible refine Sound.of_pair (by assumption) ?_
    | intro _

theorem Sound.execOpcodeNotInTable {z s : State} (hz : Sound z s) (pier : Nat) : SoundOut z (execOpcodeNotInTable pier s) := by
  unfold Machine.execOpcodeNotInTable
  try dsimp only
  repeat' first
    | with_reducible apply SoundOut.next
    | with_reducible exact hz
    | with_reducible assumption
    | with_reducible apply Sound.atPier
    | with_reducible apply Sound.Issue_fault
    | intro _

end Sys2Proof.Machine
end

