-- ==== Sys2Proof/Laws/SoundSlots.lean ====
section
/-! SUPPORT. Soundness of the operations of Machine/Slots.lean (see Laws/Sound.lean). -/

namespace Sys2Proof.Machine

theorem Sound.modSlot {z s : State} (hz : Sound z s) (n : Nat) (q : Nat) (i : Nat) (f : Slot → Slot) : Sound z (modSlot s n q i f) := by
  unfold Machine.modSlot
  try dsimp only
  repeat' first
    | with_reducible exact hz
    | with_reducible assumption
    | with_reducible apply Sound.modSpanQueue
    | exact fun w => w.2.2.2
    | intro _

theorem Sound.spanFault {z s : State} (hz : Sound z s) (n : Nat) (im : Image) (x : SpanQueue) (a : Nat) : Sound z (spanFault s n im x a) := by
  unfold Machine.spanFault
  try dsimp only
  repeat' first
    | with_reducible exact hz
    | with_reducible assumption
    | with_reducible apply Sound.confine

theorem Sound.spillPath {z s : State} (hz : Sound z s) (n : Nat) (tile : Nat) (a : Nat) : Sound z (spillPath s n tile a).1 := by
  unfold Machine.spillPath
  try dsimp only
  repeat' first
    | with_reducible exact hz
    | with_reducible assumption
    | with_reducible apply Sound.faultContext
    | with_reducible apply Sound.logError
    | split
    | exact fun w => w.2.2.2
    | rfl
    | exact id
    | exact TollSound.refl _
    | (simp; done)
    | with_reducible apply Sound.setPylon

theorem Sound.logBuffer {z s : State} (hz : Sound z s) (cause : Nat) (status : Nat) (severity : Nat) (n : Nat) (tile : Nat) : Sound z (logBuffer cause status severity n tile s) := by
  unfold Machine.logBuffer
  try dsimp only
  repeat' first
    | with_reducible exact hz
    | with_reducible assumption
    | with_reducible apply Sound.logError
    | with_reducible apply Sound.freeUsed

theorem Sound.correctSlot {z s : State} (hz : Sound z s) (n : Nat) (im : Image) (x : SpanQueue) (i : Nat) (hit : List Nat) : Sound z (correctSlot s n im x i hit) := by
  unfold Machine.correctSlot
  try dsimp only
  repeat' first
    | with_reducible exact hz
    | with_reducible assumption
    | with_reducible apply Sound.modSlot
    | with_reducible apply Sound.logBuffer
    | with_reducible apply Sound.foldl
    | exact fun w => w.2.2.2
    | intro _

theorem Sound.writeSlot {z s : State} (hz : Sound z s) (n : Nat) (im : Image) (x : SpanQueue) (i : Nat) (off : Nat) (bs : List Byte) : Sound z (writeSlot s n im x i off bs) := by
  unfold Machine.writeSlot
  try dsimp only
  repeat' first
    | with_reducible exact hz
    | with_reducible assumption
    | with_reducible apply Sound.spanFault
    | with_reducible apply Sound.spillPath
    | with_reducible apply Sound.writeOrFault
    | with_reducible apply Sound.countCtx
    | with_reducible apply Sound.correctSlot
    | with_reducible apply Sound.modSlot
    | with_reducible apply SoundOpt.some
    | with_reducible exact SoundOpt.none _
    | split
    | exact fun w => w.2.2.2
    | intro _
    | with_reducible refine Sound.of_pair (by assumption) ?_
    | with_reducible apply Sound.record

theorem Sound.slotFault {z s : State} (hz : Sound z s) (n : Nat) (im : Image) (x : SpanQueue) : Sound z (slotFault s n im x) := by
  unfold Machine.slotFault
  try dsimp only
  repeat' first
    | with_reducible exact hz
    | with_reducible assumption
    | with_reducible apply Sound.faultContext
    | with_reducible apply Sound.logBuffer

theorem Sound.readSlot {z s : State} (hz : Sound z s) (n : Nat) (im : Image) (x : SpanQueue) (i : Nat) (off : Nat) (len : Nat) : Sound z (readSlot s n im x i off len).1 := by
  unfold Machine.readSlot
  try dsimp only
  repeat' first
    | with_reducible exact hz
    | with_reducible assumption
    | with_reducible apply Sound.spillPath
    | with_reducible apply Sound.readOrFault
    | with_reducible apply Sound.countCtx
    | with_reducible apply Sound.slotFault
    | with_reducible apply Sound.correctSlot
    | with_reducible apply SoundOpt.some
    | with_reducible exact SoundOpt.none _
    | split
    | exact fun w => w.2.2.2
    | with_reducible refine Sound.of_pair (by assumption) ?_

theorem Sound.prefetchSlot {z s : State} (hz : Sound z s) (n : Nat) (im : Image) (q : Nat) (i : Nat) : Sound z (prefetchSlot n im q s i) := by
  unfold Machine.prefetchSlot
  try dsimp only
  repeat' first
    | with_reducible exact hz
    | with_reducible assumption
    | with_reducible apply Sound.readSlot
    | with_reducible apply Sound.modSlot
    | with_reducible apply SoundOpt.some
    | with_reducible exact SoundOpt.none _
    | split
    | exact fun w => w.2.2.2
    | intro _
    | with_reducible refine Sound.of_pair (by assumption) ?_

theorem Sound.policyOp {z s : State} (hz : Sound z s) (n : Nat) (im : Image) (e : SlotEvent) (o : PolicyOp) : Sound z (policyOp n im e s o) := by
  unfold Machine.policyOp
  try dsimp only
  repeat' first
    | with_reducible exact hz
    | with_reducible assumption
    | with_reducible apply Sound.modSpanQueue
    | with_reducible apply Sound.prefetchSlot
    | with_reducible apply Sound.countCtx
    | with_reducible apply SoundOpt.some
    | with_reducible exact SoundOpt.none _
    | with_reducible apply Sound.foldl
    | split
    | exact fun w => w.2.2.2
    | intro _
    | with_reducible refine Sound.of_pair (by assumption) ?_

theorem Sound.runPolicy {z s : State} (hz : Sound z s) (n : Nat) (im : Image) (q : Nat) (e : SlotEvent) : Sound z (runPolicy s n im q e) := by
  unfold Machine.runPolicy
  try dsimp only
  repeat' first
    | with_reducible exact hz
    | with_reducible assumption
    | with_reducible apply Sound.policyOp
    | with_reducible apply Sound.foldl
    | intro _

theorem Sound.fullSlot {z s : State} (hz : Sound z s) (n : Nat) (im : Image) (q : Nat) (i : Nat) : Sound z (fullSlot s n im q i) := by
  unfold Machine.fullSlot
  try dsimp only
  repeat' first
    | with_reducible exact hz
    | with_reducible assumption
    | with_reducible apply Sound.runPolicy
    | with_reducible apply Sound.modSlot
    | exact fun w => w.2.2.2
    | intro _

theorem Sound.beginSlot {z s : State} (hz : Sound z s) (n : Nat) (q : Nat) (i : Nat) : Sound z (beginSlot s n q i) := by
  unfold Machine.beginSlot
  try dsimp only
  repeat' first
    | with_reducible exact hz
    | with_reducible assumption
    | with_reducible apply Sound.modSlot
    | with_reducible apply Sound.modSpanQueue
    | with_reducible apply Sound.highCtx
    | with_reducible apply SoundOpt.some
    | with_reducible exact SoundOpt.none _
    | split
    | exact fun w => w.2.2.2
    | intro _
    | with_reducible refine Sound.of_pair (by assumption) ?_

theorem Sound.raiseHigh {z s : State} (hz : Sound z s) (n : Nat) (x : SpanQueue) : Sound z (raiseHigh n s x) := by
  unfold Machine.raiseHigh
  try dsimp only
  repeat' first
    | with_reducible exact hz
    | with_reducible assumption
    | with_reducible apply Sound.highCtx

theorem Sound.fillSlot {z s : State} (hz : Sound z s) (n : Nat) (im : Image) (q : Nat) (desc : Desc) (segs : List Seg) (payload : List Byte) : Sound z (fillSlot s n im q desc segs payload) := by
  unfold Machine.fillSlot
  try dsimp only
  repeat' first
    | with_reducible exact hz
    | with_reducible assumption
    | with_reducible apply Sound.beginSlot
    | with_reducible apply Sound.writeSlot
    | with_reducible apply Sound.fullSlot
    | with_reducible apply SoundOpt.some
    | with_reducible exact SoundOpt.none _
    | split
    | exact fun w => w.2.2.2
    | intro _
    | with_reducible refine Sound.of_pair (by assumption) ?_

theorem Sound.readHead {z s : State} (hz : Sound z s) (n : Nat) (im : Image) (x : SpanQueue) : Sound z (readHead s n im x).1 := by
  unfold Machine.readHead
  try dsimp only
  repeat' first
    | with_reducible exact hz
    | with_reducible assumption
    | with_reducible apply Sound.readSlot
    | with_reducible apply SoundOpt.some
    | with_reducible exact SoundOpt.none _
    | split
    | exact fun w => w.2.2.2
    | with_reducible refine Sound.of_pair (by assumption) ?_

theorem Sound.holdHead {z s : State} (hz : Sound z s) (n : Nat) (q : Nat) : Sound z (holdHead s n q) := by
  unfold Machine.holdHead
  try dsimp only
  repeat' first
    | with_reducible exact hz
    | with_reducible assumption
    | with_reducible apply Sound.modSpanQueue
    | exact fun w => w.2.2.2
    | intro _
    | with_reducible apply Sound.record

theorem Sound.releaseSlot {z s : State} (hz : Sound z s) (n : Nat) (im : Image) (q : Nat) : Sound z (releaseSlot s n im q) := by
  unfold Machine.releaseSlot
  try dsimp only
  repeat' first
    | with_reducible exact hz
    | with_reducible assumption
    | with_reducible apply Sound.modSpanQueue
    | with_reducible apply Sound.modLink
    | with_reducible apply Sound.sendSpan
    | with_reducible apply Sound.runPolicy
    | with_reducible apply SoundOpt.some
    | with_reducible exact SoundOpt.none _
    | split
    | exact fun w => w.2.2.2
    | intro _
    | with_reducible refine Sound.of_pair (by assumption) ?_
    | with_reducible apply Sound.setFree

theorem Sound.sendDesc {z s : State} (hz : Sound z s) (n : Nat) (q : Nat) (slot : Nat) (desc : Desc) (segs : List Seg) : Sound z (sendDesc s n q slot desc segs) := by
  unfold Machine.sendDesc
  try dsimp only
  repeat' first
    | with_reducible exact hz
    | with_reducible assumption
    | with_reducible apply Sound.sendSpan
    | with_reducible apply Sound.foldl
    | intro _

theorem Sound.sendData {z s : State} (hz : Sound z s) (n : Nat) (q : Nat) (off : Nat) (payload : List Byte) : Sound z (sendData s n q off payload) := by
  unfold Machine.sendData
  try dsimp only
  repeat' first
    | with_reducible exact hz
    | with_reducible assumption
    | with_reducible apply Sound.sendSpan
    | with_reducible apply Sound.foldl
    | split
    | intro _

theorem Sound.deliver {z s : State} (hz : Sound z s) (n : Nat) (im : Image) (q : Nat) (desc : Desc) (segs : List Seg) (payload : List Byte) : Sound z (deliver s n im q desc segs payload) := by
  unfold Machine.deliver
  try dsimp only
  repeat' first
    | with_reducible exact hz
    | with_reducible assumption
    | with_reducible apply Sound.fillSlot
    | with_reducible apply Sound.sendDesc
    | with_reducible apply Sound.sendData
    | with_reducible apply Sound.modSpanQueue
    | with_reducible apply SoundOpt.some
    | with_reducible exact SoundOpt.none _
    | split
    | exact fun w => w.2.2.2
    | intro _
    | with_reducible refine Sound.of_pair (by assumption) ?_

end Sys2Proof.Machine
end

