-- ==== Sys2Proof/Laws/SoundClock.lean ====
section
/-! SUPPORT. Soundness of the operations of Machine/Clock.lean (see Laws/Sound.lean). -/

namespace Sys2Proof.Machine

theorem Sound.passStage {z s : State} (hz : Sound z s) (n : Nat) (im : Image) (d : Nat) (k : Nat) : Sound z (passStage n im d s k) := by
  unfold Machine.passStage
  try dsimp only
  repeat' first
    | with_reducible exact hz
    | with_reducible assumption
    | with_reducible apply Sound.countEvent
    | with_reducible apply Sound.countCtx
    | with_reducible apply SoundOpt.some
    | with_reducible exact SoundOpt.none _
    | with_reducible apply Sound.foldl
    | split
    | exact fun w => w.2.2.2
    | intro _
    | with_reducible refine Sound.of_pair (by assumption) ?_

theorem Sound.passQueue {z s : State} (hz : Sound z s) (n : Nat) (im : Image) (d : Nat) (x : SpanQueue) : Sound z (passQueue n im d s x) := by
  unfold Machine.passQueue
  try dsimp only
  repeat' first
    | with_reducible exact hz
    | with_reducible assumption
    | with_reducible apply Sound.countCtx
    | with_reducible apply SoundOpt.some
    | with_reducible exact SoundOpt.none _
    | split
    | exact fun w => w.2.2.2
    | intro _
    | with_reducible refine Sound.of_pair (by assumption) ?_

theorem Sound.passPiers {z s : State} (hz : Sound z s) (n : Nat) (d : Nat) : Sound z (passPiers s n d) := by
  unfold Machine.passPiers
  try dsimp only
  repeat' first
    | with_reducible exact hz
    | with_reducible assumption
    | with_reducible apply Sound.freeUsed
    | with_reducible apply Sound.modCtx
    | with_reducible apply SoundOpt.some
    | with_reducible exact SoundOpt.none _
    | with_reducible apply Sound.foldl
    | split
    | exact fun w => w.2.2.2
    | intro _
    | with_reducible refine Sound.of_pair (by assumption) ?_
    | with_reducible apply Sound.setWaits
    | with_reducible apply Sound.setWaitsFree
    | with_reducible apply Sound.setFree
    | with_reducible apply Sound.record

theorem Sound.passProgram {z s : State} (hz : Sound z s) (n : Nat) (d : Nat) : Sound z (passProgram s n d) := by
  unfold Machine.passProgram
  try dsimp only
  repeat' first
    | with_reducible exact hz
    | with_reducible assumption
    | with_reducible apply Sound.passStage
    | with_reducible apply Sound.passQueue
    | with_reducible apply Sound.countCtx
    | with_reducible apply SoundOpt.some
    | with_reducible exact SoundOpt.none _
    | with_reducible apply Sound.foldl
    | split
    | exact fun w => w.2.2.2
    | intro _
    | with_reducible refine Sound.of_pair (by assumption) ?_
    | rfl
    | exact id
    | exact TollSound.refl _
    | (simp; done)
    | with_reducible apply Sound.setQueues

theorem Sound.passPort {z s : State} (hz : Sound z s) (d : Nat) (p : Nat) : Sound z (passPort d s p) := by
  unfold Machine.passPort
  try dsimp only
  repeat' first
    | with_reducible exact hz
    | with_reducible assumption
    | with_reducible apply Sound.count
    | split
    | intro _

theorem Sound.passContext {z s : State} (hz : Sound z s) (n : Nat) (d : Nat) : Sound z (passContext s n d) := by
  unfold Machine.passContext
  try dsimp only
  repeat' first
    | with_reducible exact hz
    | with_reducible assumption
    | with_reducible apply Sound.passProgram
    | with_reducible apply Sound.passPiers

theorem Sound.passLinks {z s : State} (hz : Sound z s) (d : Nat) : Sound z (passLinks s d) := by
  unfold Machine.passLinks
  try dsimp only
  repeat' first
    | with_reducible exact hz
    | with_reducible assumption
    | with_reducible apply Sound.foldl
    | exact fun w => w.2.2.2
    | intro _
    | with_reducible apply Sound.setWaits
    | with_reducible apply Sound.setWaitsFree
    | with_reducible apply Sound.setFree
    | with_reducible apply Sound.record

theorem Sound.passPackage {z s : State} (hz : Sound z s) (d : Nat) : Sound z (passPackage s d) := by
  unfold Machine.passPackage
  try dsimp only
  repeat' first
    | with_reducible exact hz
    | with_reducible assumption
    | with_reducible apply Sound.passPort
    | with_reducible apply Sound.passLinks
    | with_reducible apply Sound.count
    | with_reducible apply Sound.foldl
    | split
    | intro _

theorem Sound.advanceTo {z s : State} (hz : Sound z s) (t : Nat) : Sound z (advanceTo s t) := by
  unfold Machine.advanceTo
  try dsimp only
  repeat' first
    | with_reducible exact hz
    | with_reducible assumption
    | with_reducible apply Sound.passPackage
    | with_reducible apply Sound.passContext
    | with_reducible apply SoundOpt.some
    | with_reducible exact SoundOpt.none _
    | split
    | exact fun w => w.2.2.2
    | with_reducible refine Sound.of_pair (by assumption) ?_
    | with_reducible apply Sound.setTime

theorem Sound.idle {z s : State} (hz : Sound z s)  : Sound z (idle s) := by
  unfold Machine.idle
  try dsimp only
  repeat' first
    | with_reducible exact hz
    | with_reducible assumption
    | with_reducible apply Sound.drainRecords
    | with_reducible apply Sound.advanceTo
    | with_reducible apply Sound.foldl
    | split
    | intro _

end Sys2Proof.Machine
end

