-- ==== Sys2Proof/Laws/SoundVector.lean ====
section
/-! SUPPORT. Soundness of the operations of Machine/Vector.lean (see Laws/Sound.lean). -/

namespace Sys2Proof.Machine

theorem Sound.laneStep {z : State} (site : LaneSite) {r : LaneRun} (h : Sound z r.s) (i : LaneInstr) :
    Sound z (laneStep site r i).1.s := by
  unfold Machine.laneStep
  split <;> (try dsimp only) <;> repeat' first
    | exact h
    | exact h.touchPad _ _ _
    | exact Sound.foldl h fun t x ht => ht.writePad _ _ _ _
    | split

theorem Sound.runLanes {z : State} (site : LaneSite) (store : List Byte) (f : Nat) {r : LaneRun} (h : Sound z r.s) :
    Sound z (runLanes site store f r).1.s := by
  induction f generalizing r with
  | zero => exact h
  | succ f ih =>
    unfold Machine.runLanes; split
    · exact h
    · rename_i i _
      have h1 := Sound.laneStep site (r := { r with executed := r.executed + 1 }) h i
      split
      · rename_i e; rw [e] at h1; exact h1
      · rename_i e; rw [e] at h1; exact ih h1

theorem Sound.launchLanes {z s : State} (h : Sound z s) (i : Issue) (launch : Nat) : Sound z (launchLanes s i launch).1.s :=
  Sound.runLanes _ _ _ h

theorem Sound.vecEffect {z s : State} (i : Issue) (launch : Nat) (h : Sound z s) : Sound z (vecEffect i launch s) := by
  unfold Machine.vecEffect; split
  · exact h.padFault ..
  · have h1 := ((h.touchPad i.n i.pier [vecArgs i]).launchLanes i launch).countEvent i.n i.pier 0x06
      (Machine.launchLanes (Machine.touchPad s i.n i.pier [vecArgs i]) i launch).1.executed
    dsimp only
    split
    · exact h1
    · exact h1.pierFault ..
    · exact h1.pierFault ..
    · exact h1.padFault ..
    · exact h1.modPier _ _ fun _ w => w

theorem Sound.execVec {z s0 : State} (hz : Sound z s0) (pier : Nat) : SoundOut z (execVec pier s0) := by
  unfold Machine.execVec
  try dsimp only
  repeat' first
    | (intro t ht; exact Sound.vecEffect _ _ ht)
    | with_reducible apply SoundOut.next
    | with_reducible exact hz
    | with_reducible assumption
    | with_reducible apply Sound.atPier
    | with_reducible apply Sound.Issue_fault
    | with_reducible apply Sound.launchLanes
    | with_reducible apply Sound.Issue_run
    | with_reducible apply Sound.freeUsed
    | with_reducible apply Sound.vecEffect
    | split
    | exact fun w => w.2.2.2
    | with_reducible refine Sound.of_pair (by assumption) ?_
    | with_reducible apply Sound.setFree
    | intro _

theorem Sound.execLaneProgramRunaway {z s : State} (hz : Sound z s) (pier : Nat) : SoundOut z (execLaneProgramRunaway pier s) := by
  unfold Machine.execLaneProgramRunaway
  try dsimp only
  repeat' first
    | with_reducible apply SoundOut.next
    | with_reducible exact hz
    | with_reducible assumption
    | with_reducible apply Sound.takeRecord
    | with_reducible apply Sound.modPier
    | with_reducible apply Sound.faultContext
    | with_reducible apply Sound.logError
    | split
    | exact fun w => w.2.2.2
    | with_reducible refine Sound.of_pair (by assumption) ?_
    | rfl
    | exact fun _ w => w
    | with_reducible apply Sound.setTime
    | intro _

end Sys2Proof.Machine
end

