-- ==== Sys2Proof/Laws/SoundStage.lean ====
section
/-! SUPPORT. Soundness of the operations of Machine/Stage.lean (see Laws/Sound.lean). -/

namespace Sys2Proof.Machine

theorem Sound.fetchWords (n : Nat) (im : Image) (ps : List Nat) {z s : State} (hz : Sound z s) : Sound z (fetchWords n im ps s).1 := by
  induction ps generalizing s with
  | nil => exact hz
  | cons p ps ih =>
    unfold Machine.fetchWords; dsimp only; split
    · exact hz.pierFault ..
    · split
      · rename_i e; exact Sound.of_pair e (hz.fetchWord ..)
      · rename_i e
        have h1 := ih (Sound.of_pair e (hz.fetchWord ..))
        split
        · rename_i e; exact Sound.of_pair e h1
        · rename_i e; exact Sound.of_pair e h1

theorem Sound.meet {z s0 s : State} (h0 : Sound z s0) (hz : Sound z s) (n : Nat) (im : Image) (k : Nat) (ws : List (Nat × Nat × Nat))
    (accept : Nat → Bool) (f : State → Meet → Option State) (hf : ∀ t m, Sound z t → SoundOpt z (f t m)) :
    Sound z (meet s0 s n im k ws accept f) := by
  unfold Machine.meet; split
  · exact h0
  · split
    · exact (hz.issueFaulting ..).pierFault ..
    · split
      · exact h0
      · split
        · exact h0
        · exact SoundOpt.getD (hf _ _ hz) h0

theorem Sound.atStage {z s : State} (hz : Sound z s) (k : Nat) (accept : Nat → Bool) (f : State → Meet → Option State)
    (hf : ∀ t m, Sound z t → SoundOpt z (f t m)) : Sound z (atStage s k accept f) := by
  unfold Machine.atStage; split
  · exact hz
  · split
    · exact hz
    · split
      · rename_i e; exact Sound.of_pair e (hz.fetchWords ..)
      · rename_i e; exact hz.meet (Sound.of_pair e (hz.fetchWords ..)) _ _ _ _ _ _ hf

theorem Sound.Meet_faultAt {z s : State} (hz : Sound z s) (m : Meet) (x : Nat × Nat × Nat) : Sound z (Meet.faultAt m s x) := by
  unfold Machine.Meet.faultAt
  try dsimp only
  repeat' first
    | with_reducible exact hz
    | with_reducible assumption
    | with_reducible apply Sound.pierFault
    | with_reducible apply Sound.issueFaulting
    | with_reducible apply Sound.foldl
    | intro _

theorem Sound.Meet_stop {z s : State} (hz : Sound z s) (m : Meet) : Sound z (Meet.stop m s) := by
  unfold Machine.Meet.stop
  try dsimp only
  repeat' first
    | with_reducible exact hz
    | with_reducible assumption
    | with_reducible apply Sound.pierFault
    | split
    | exact fun w => w.2.2.2
    | with_reducible refine Sound.of_pair (by assumption) ?_

theorem Sound.Meet_fault {z s : State} (hz : Sound z s) (m : Meet) : Sound z (Meet.fault m s) := by
  unfold Machine.Meet.fault
  try dsimp only
  repeat' first
    | with_reducible exact hz
    | with_reducible assumption
    | with_reducible apply Sound.Meet_faultAt
    | split
    | exact fun w => w.2.2.2
    | with_reducible refine Sound.of_pair (by assumption) ?_

theorem Sound.advancePier {z s : State} (hz : Sound z s) (n : Nat) (flags : Nat) (x : Nat × Nat × Nat) : Sound z (advancePier n flags s x) := by
  unfold Machine.advancePier
  try dsimp only
  repeat' first
    | with_reducible exact hz
    | with_reducible assumption
    | with_reducible apply Sound.modPier
    | with_reducible apply Sound.sampleTick
    | with_reducible apply Sound.countEvent
    | with_reducible apply Sound.takeRecord
    | with_reducible apply SoundOpt.some
    | with_reducible exact SoundOpt.none _
    | split
    | exact fun w => w.2.2.2
    | intro _
    | rfl
    | exact fun _ w => w
    | with_reducible apply Sound.setTime

theorem Sound.Meet_done {z s : State} (m : Meet) (hz : Sound z s) (effect : State → State) (hf : ∀ t, Sound z t → Sound z (effect t)) :
    Sound z (m.done s effect) := by
  unfold Machine.Meet.done; dsimp only; split
  · exact hf _ (Sound.foldl hz fun t x ht => ht.advancePier _ _ x)
  · exact Sound.opDone (Sound.foldl (hf _ hz) fun t x ht => ht.advancePier _ _ x) _

theorem Sound.send {z s : State} (hz : Sound z s) (m : Meet) (targets : List SpanQueue) : SoundOpt z (send s m targets) := by
  unfold Machine.send
  try dsimp only
  repeat' first
    | with_reducible exact hz
    | with_reducible assumption
    | with_reducible apply Sound.Issue_fault
    | with_reducible apply Sound.Meet_fault
    | with_reducible apply Sound.Meet_faultAt
    | with_reducible apply Sound.Meet_done
    | with_reducible apply Sound.padFault
    | with_reducible apply Sound.touchPad
    | with_reducible apply Sound.deliver
    | with_reducible apply SoundOpt.some
    | with_reducible exact SoundOpt.none _
    | with_reducible apply Sound.foldl
    | split
    | exact fun w => w.2.2.2
    | intro _
    | with_reducible refine Sound.of_pair (by assumption) ?_

theorem Sound.execPush {z s : State} (hz : Sound z s) (stage : Nat) : SoundOut z (execPush stage s) := by
  unfold Machine.execPush
  try dsimp only
  repeat' first
    | with_reducible apply SoundOut.next
    | with_reducible exact hz
    | with_reducible assumption
    | with_reducible apply Sound.atStage
    | with_reducible apply Sound.Issue_fault
    | with_reducible apply Sound.Meet_fault
    | with_reducible apply Sound.send
    | with_reducible apply SoundOpt.some
    | with_reducible exact SoundOpt.none _
    | split
    | exact fun w => w.2.2.2
    | with_reducible refine Sound.of_pair (by assumption) ?_
    | intro _

theorem Sound.execFork {z s : State} (hz : Sound z s) (stage : Nat) : SoundOut z (execFork stage s) := by
  unfold Machine.execFork
  try dsimp only
  repeat' first
    | with_reducible apply SoundOut.next
    | with_reducible exact hz
    | with_reducible assumption
    | with_reducible apply Sound.atStage
    | with_reducible apply Sound.Issue_fault
    | with_reducible apply Sound.Meet_fault
    | with_reducible apply Sound.send
    | with_reducible apply SoundOpt.some
    | with_reducible exact SoundOpt.none _
    | split
    | exact fun w => w.2.2.2
    | with_reducible refine Sound.of_pair (by assumption) ?_
    | intro _

theorem Sound.writePiers {z s : State} (hz : Sound z s) (m : Meet) (ws : List (Nat × Nat × Nat × List Byte)) : Sound z (writePiers s m ws) := by
  unfold Machine.writePiers
  try dsimp only
  repeat' first
    | with_reducible exact hz
    | with_reducible assumption
    | with_reducible apply Sound.start
    | with_reducible apply Sound.pierFault
    | with_reducible apply Sound.writePad
    | with_reducible apply SoundOpt.some
    | with_reducible exact SoundOpt.none _
    | with_reducible apply Sound.foldl
    | split
    | exact fun w => w.2.2.2
    | intro _
    | with_reducible refine Sound.of_pair (by assumption) ?_

theorem Sound.setCurrent {z s : State} (hz : Sound z s) (m : Meet) (d : Desc) (segs : List Seg) (addr : Nat) : Sound z (setCurrent s m d segs addr) := by
  unfold Machine.setCurrent
  try dsimp only
  repeat' first
    | with_reducible exact hz
    | with_reducible assumption
    | with_reducible apply Sound.modStage
    | with_reducible apply SoundOpt.some
    | with_reducible exact SoundOpt.none _
    | exact fun w => w.2.2.2
    | intro _

theorem Sound.stampAdmitted {z s : State} (hz : Sound z s) (n : Nat) (d : QueueDecl) (x : Desc) : Sound z (stampAdmitted s n d x).1 := by
  unfold Machine.stampAdmitted
  try dsimp only
  repeat' first
    | with_reducible exact hz
    | with_reducible assumption
    | with_reducible apply Sound.modProg
    | with_reducible apply SoundOpt.some
    | with_reducible exact SoundOpt.none _
    | split
    | exact fun w => w.2.2.2
    | intro _
    | with_reducible refine Sound.of_pair (by assumption) ?_

theorem Sound.execPop {z s : State} (hz : Sound z s) (stage : Nat) : SoundOut z (execPop stage s) := by
  unfold Machine.execPop
  try dsimp only
  repeat' first
    | with_reducible apply SoundOut.next
    | with_reducible exact hz
    | with_reducible assumption
    | with_reducible apply Sound.atStage
    | with_reducible apply Sound.Issue_fault
    | with_reducible apply Sound.Meet_fault
    | with_reducible apply Sound.Meet_done
    | with_reducible apply Sound.readHead
    | with_reducible apply Sound.stampAdmitted
    | with_reducible apply Sound.holdHead
    | with_reducible apply Sound.setCurrent
    | with_reducible apply Sound.writePiers
    | with_reducible apply SoundOpt.some
    | with_reducible exact SoundOpt.none _
    | split
    | exact fun w => w.2.2.2
    | with_reducible refine Sound.of_pair (by assumption) ?_
    | intro _

theorem Sound.execRelease {z s : State} (hz : Sound z s) (stage : Nat) : SoundOut z (execRelease stage s) := by
  unfold Machine.execRelease
  try dsimp only
  repeat' first
    | with_reducible apply SoundOut.next
    | with_reducible exact hz
    | with_reducible assumption
    | with_reducible apply Sound.atStage
    | with_reducible apply Sound.Issue_fault
    | with_reducible apply Sound.Meet_fault
    | with_reducible apply Sound.Meet_done
    | with_reducible apply Sound.releaseSlot
    | with_reducible apply SoundOpt.some
    | with_reducible exact SoundOpt.none _
    | split
    | exact fun w => w.2.2.2
    | with_reducible refine Sound.of_pair (by assumption) ?_
    | intro _

theorem Sound.readHeads (n : Nat) (im : Image) (xs : List SpanQueue) {z s : State} (hz : Sound z s) : Sound z (readHeads n im xs s).1 := by
  induction xs generalizing s with
  | nil => exact hz
  | cons x xs ih =>
    unfold Machine.readHeads; split
    · rename_i e; exact Sound.of_pair e (hz.readHead ..)
    · rename_i e
      have h1 := ih (Sound.of_pair e (hz.readHead ..))
      split
      · rename_i e; exact Sound.of_pair e h1
      · rename_i e; exact Sound.of_pair e h1

theorem Sound.joinHeads {z s : State} (hz : Sound z s) (m : Meet) (g : GroupDecl) (qs : List SpanQueue) : Sound z (joinHeads s m g qs) := by
  unfold Machine.joinHeads
  try dsimp only
  repeat' first
    | with_reducible exact hz
    | with_reducible assumption
    | with_reducible apply Sound.readHeads
    | with_reducible apply Sound.Meet_stop
    | with_reducible apply Sound.holdHead
    | with_reducible apply Sound.setCurrent
    | with_reducible apply Sound.writePiers
    | with_reducible apply SoundOpt.some
    | with_reducible exact SoundOpt.none _
    | with_reducible apply Sound.foldl
    | split
    | exact fun w => w.2.2.2
    | intro _
    | with_reducible refine Sound.of_pair (by assumption) ?_

theorem Sound.execJoin {z s : State} (hz : Sound z s) (stage : Nat) : SoundOut z (execJoin stage s) := by
  unfold Machine.execJoin
  try dsimp only
  repeat' first
    | with_reducible apply SoundOut.next
    | with_reducible exact hz
    | with_reducible assumption
    | with_reducible apply Sound.atStage
    | with_reducible apply Sound.Issue_fault
    | with_reducible apply Sound.Meet_fault
    | with_reducible apply Sound.Meet_done
    | with_reducible apply Sound.joinHeads
    | with_reducible apply SoundOpt.some
    | with_reducible exact SoundOpt.none _
    | split
    | exact fun w => w.2.2.2
    | with_reducible refine Sound.of_pair (by assumption) ?_
    | intro _

theorem Sound.setToken {z s : State} (hz : Sound z s) (n : Nat) (ch : Nat) (v : Nat) : Sound z (setToken s n ch v) := by
  unfold Machine.setToken
  try dsimp only
  repeat' first
    | with_reducible exact hz
    | with_reducible assumption
    | with_reducible apply Sound.modProg
    | exact fun w => w.2.2.2
    | intro _

theorem Sound.signalToken {z s : State} (hz : Sound z s) (n : Nat) (d : TokenDecl) (k : Nat) : Sound z (signalToken s n d k) := by
  unfold Machine.signalToken
  try dsimp only
  repeat' first
    | with_reducible exact hz
    | with_reducible assumption
    | with_reducible apply Sound.setToken
    | with_reducible apply Sound.post
    | split

theorem Sound.waitToken {z s : State} (hz : Sound z s) (n : Nat) (ch : Nat) (k : Nat) : Sound z (waitToken s n ch k) := by
  unfold Machine.waitToken
  try dsimp only
  repeat' first
    | with_reducible exact hz
    | with_reducible assumption
    | with_reducible apply Sound.setToken

theorem Sound.signalStage {z s : State} (hz : Sound z s) (m : Meet) : SoundOpt z (signalStage s m) := by
  unfold Machine.signalStage
  try dsimp only
  repeat' first
    | with_reducible exact hz
    | with_reducible assumption
    | with_reducible apply Sound.Issue_fault
    | with_reducible apply Sound.Meet_fault
    | with_reducible apply Sound.Meet_done
    | with_reducible apply Sound.signalToken
    | with_reducible apply SoundOpt.some
    | with_reducible exact SoundOpt.none _
    | split
    | exact fun w => w.2.2.2
    | intro _
    | with_reducible refine Sound.of_pair (by assumption) ?_

theorem Sound.waitStage {z s : State} (hz : Sound z s) (m : Meet) : SoundOpt z (waitStage s m) := by
  unfold Machine.waitStage
  try dsimp only
  repeat' first
    | with_reducible exact hz
    | with_reducible assumption
    | with_reducible apply Sound.Issue_fault
    | with_reducible apply Sound.Meet_fault
    | with_reducible apply Sound.Meet_done
    | with_reducible apply Sound.waitToken
    | with_reducible apply SoundOpt.some
    | with_reducible exact SoundOpt.none _
    | split
    | exact fun w => w.2.2.2
    | intro _
    | with_reducible refine Sound.of_pair (by assumption) ?_

theorem Sound.feedFault {z s : State} (hz : Sound z s) (n : Nat) (ch : Nat) : Sound z (feedFault s n ch) := by
  unfold Machine.feedFault
  try dsimp only
  repeat' first
    | with_reducible exact hz
    | with_reducible assumption
    | with_reducible apply Sound.confine

theorem Sound.signalFeed {z s : State} (hz : Sound z s) (n : Nat) (im : Image) (ch : Nat) (k : Nat) : Sound z (signalFeed s n im ch k) := by
  unfold Machine.signalFeed
  try dsimp only
  repeat' first
    | with_reducible exact hz
    | with_reducible assumption
    | with_reducible apply Sound.feedFault
    | with_reducible apply Sound.opDone
    | with_reducible apply Sound.signalToken
    | with_reducible apply SoundOpt.some
    | with_reducible exact SoundOpt.none _
    | split
    | exact fun w => w.2.2.2
    | with_reducible refine Sound.of_pair (by assumption) ?_

theorem Sound.passFence {z s : State} (hz : Sound z s) (n : Nat) (ch : Nat) : Sound z (passFence s n ch) := by
  unfold Machine.passFence
  try dsimp only
  repeat' first
    | with_reducible exact hz
    | with_reducible assumption
    | with_reducible apply Sound.opDone
    | with_reducible apply Sound.modProg
    | with_reducible apply Sound.waitToken
    | exact fun w => w.2.2.2
    | intro _

theorem Sound.waitCaisson {z s : State} (hz : Sound z s) (n : Nat) (im : Image) (ch : Nat) : Sound z (waitCaisson s n im ch) := by
  unfold Machine.waitCaisson
  try dsimp only
  repeat' first
    | with_reducible exact hz
    | with_reducible assumption
    | with_reducible apply Sound.passFence
    | with_reducible apply SoundOpt.some
    | with_reducible exact SoundOpt.none _
    | split
    | intro _

theorem Sound.waitFeed {z s : State} (hz : Sound z s) (n : Nat) (im : Image) (ch : Nat) (k : Nat) : Sound z (waitFeed s n im ch k) := by
  unfold Machine.waitFeed
  try dsimp only
  repeat' first
    | with_reducible exact hz
    | with_reducible assumption
    | with_reducible apply Sound.feedFault
    | with_reducible apply Sound.opDone
    | with_reducible apply Sound.waitToken
    | with_reducible apply SoundOpt.some
    | with_reducible exact SoundOpt.none _
    | split
    | exact fun w => w.2.2.2
    | with_reducible refine Sound.of_pair (by assumption) ?_

theorem Sound.execWait {z s : State} (hz : Sound z s) (actor : TokenActor) : SoundOut z (execWait actor s) := by
  unfold Machine.execWait
  try dsimp only
  repeat' first
    | with_reducible apply SoundOut.next
    | with_reducible exact hz
    | with_reducible assumption
    | with_reducible apply Sound.atStage
    | with_reducible apply Sound.waitStage
    | with_reducible apply Sound.waitFeed
    | with_reducible apply Sound.waitCaisson
    | with_reducible apply SoundOpt.some
    | with_reducible exact SoundOpt.none _
    | split
    | exact fun w => w.2.2.2
    | with_reducible refine Sound.of_pair (by assumption) ?_
    | with_reducible apply Sound.setCaisson
    | intro _

theorem Sound.sweep {z s : State} (hz : Sound z s) (n : Nat) (im : Image) : Sound z (sweep s n im) := by
  unfold Machine.sweep
  try dsimp only
  repeat' first
    | with_reducible exact hz
    | with_reducible assumption
    | with_reducible apply Sound.modProg
    | exact fun w => w.2.2.2
    | intro _

theorem Sound.execAdmitBatch {z s : State} (hz : Sound z s) (stage : Nat) : SoundOut z (execAdmitBatch stage s) := by
  unfold Machine.execAdmitBatch
  try dsimp only
  repeat' first
    | with_reducible apply SoundOut.next
    | with_reducible exact hz
    | with_reducible assumption
    | with_reducible apply Sound.atStage
    | with_reducible apply Sound.Issue_fault
    | with_reducible apply Sound.Meet_fault
    | with_reducible apply Sound.Meet_done
    | with_reducible apply Sound.modProg
    | with_reducible apply Sound.sweep
    | with_reducible apply Sound.modCtx
    | with_reducible apply SoundOpt.some
    | with_reducible exact SoundOpt.none _
    | split
    | exact fun w => w.2.2.2
    | with_reducible refine Sound.of_pair (by assumption) ?_
    | intro _

theorem Sound.pinMicro {z s : State} (hz : Sound z s) (m : Meet) (c : Micro) (v : Nat) : Sound z (pinMicro s m c v) := by
  unfold Machine.pinMicro
  try dsimp only
  repeat' first
    | with_reducible exact hz
    | with_reducible assumption
    | with_reducible apply Sound.modStage
    | with_reducible apply Sound.writePiers
    | with_reducible apply Sound.sweep
    | with_reducible apply SoundOpt.some
    | with_reducible exact SoundOpt.none _
    | split
    | exact fun w => w.2.2.2
    | intro _
    | with_reducible apply Sound.setWaits
    | with_reducible apply Sound.setWaitsFree
    | with_reducible apply Sound.record

theorem Sound.execPin {z s : State} (hz : Sound z s) (stage : Nat) : SoundOut z (execPin stage s) := by
  unfold Machine.execPin
  try dsimp only
  repeat' first
    | with_reducible apply SoundOut.next
    | with_reducible exact hz
    | with_reducible assumption
    | with_reducible apply Sound.atStage
    | with_reducible apply Sound.Issue_fault
    | with_reducible apply Sound.Meet_fault
    | with_reducible apply Sound.modStage
    | with_reducible apply Sound.Meet_done
    | with_reducible apply Sound.pinMicro
    | with_reducible apply Sound.sweep
    | with_reducible apply SoundOpt.some
    | with_reducible exact SoundOpt.none _
    | split
    | exact fun w => w.2.2.2
    | with_reducible refine Sound.of_pair (by assumption) ?_
    | intro _

theorem Sound.retireMicro {z s : State} (hz : Sound z s) (m : Meet) (x : Pinned) : Sound z (retireMicro s m x) := by
  unfold Machine.retireMicro
  try dsimp only
  repeat' first
    | with_reducible exact hz
    | with_reducible assumption
    | with_reducible apply Sound.modStage
    | with_reducible apply Sound.modProg
    | with_reducible apply Sound.sweep
    | with_reducible apply SoundOpt.some
    | with_reducible exact SoundOpt.none _
    | split
    | exact fun w => w.2.2.2
    | intro _

theorem Sound.execRetire {z s : State} (hz : Sound z s) (stage : Nat) : SoundOut z (execRetire stage s) := by
  unfold Machine.execRetire
  try dsimp only
  repeat' first
    | with_reducible apply SoundOut.next
    | with_reducible exact hz
    | with_reducible assumption
    | with_reducible apply Sound.atStage
    | with_reducible apply Sound.Meet_done
    | with_reducible apply Sound.retireMicro
    | with_reducible apply Sound.Issue_fault
    | with_reducible apply Sound.Meet_fault
    | with_reducible apply SoundOpt.some
    | with_reducible exact SoundOpt.none _
    | split
    | exact fun w => w.2.2.2
    | with_reducible refine Sound.of_pair (by assumption) ?_
    | intro _

theorem Sound.endStep {z s : State} (hz : Sound z s) (n : Nat) (im : Image) (ws : List (Nat × Nat × Nat)) : Sound z (endStep s n im ws) := by
  unfold Machine.endStep
  try dsimp only
  repeat' first
    | with_reducible exact hz
    | with_reducible assumption
    | with_reducible apply Sound.advancePier
    | with_reducible apply Sound.stepReport
    | with_reducible apply Sound.modCtx
    | with_reducible apply Sound.modProg
    | with_reducible apply Sound.startCounting
    | with_reducible apply Sound.modPier
    | with_reducible apply SoundOpt.some
    | with_reducible exact SoundOpt.none _
    | with_reducible apply Sound.foldl
    | split
    | exact fun w => w.2.2.2
    | intro _
    | with_reducible refine Sound.of_pair (by assumption) ?_
    | rfl
    | exact fun _ w => w
    | with_reducible apply Sound.setTime
    | with_reducible apply Sound.setCaisson
    | with_reducible apply Sound.record

theorem Sound.execStepEnd {z s : State} (hz : Sound z s)  : SoundOut z (execStepEnd s) := by
  unfold Machine.execStepEnd
  try dsimp only
  repeat' first
    | with_reducible apply SoundOut.next
    | with_reducible exact hz
    | with_reducible assumption
    | with_reducible apply Sound.fetchWords
    | with_reducible apply Sound.pierFault
    | with_reducible apply Sound.issueFaulting
    | with_reducible apply Sound.endStep
    | split
    | exact fun w => w.2.2.2
    | with_reducible refine Sound.of_pair (by assumption) ?_
    | intro _

theorem Sound.execProgressWatchdogExpiry {z s : State} (hz : Sound z s) (ctx : Nat) : SoundOut z (execProgressWatchdogExpiry ctx s) := by
  unfold Machine.execProgressWatchdogExpiry
  try dsimp only
  repeat' first
    | with_reducible apply SoundOut.next
    | with_reducible exact hz
    | with_reducible assumption
    | with_reducible apply Sound.advanceTo
    | with_reducible apply Sound.faultContext
    | with_reducible apply Sound.logError
    | split
    | exact fun w => w.2.2.2
    | with_reducible refine Sound.of_pair (by assumption) ?_
    | intro _

end Sys2Proof.Machine
end

