-- ==== Sys2Proof/Laws/SoundStay.lean ====
section
/-! SUPPORT. Soundness of the operations of Machine/Stay.lean (see Laws/Sound.lean). -/

namespace Sys2Proof.Machine

theorem Sound.modStay {z s : State} (hz : Sound z s) (n : Nat) (tile : Nat) (f : StayRun → StayRun) : Sound z (modStay s n tile f) := by
  unfold Machine.modStay
  try dsimp only
  repeat' first
    | with_reducible exact hz
    | with_reducible assumption
    | with_reducible apply Sound.modProg
    | split
    | exact fun w => w.2.2.2
    | intro _

theorem Sound.Coll_mod {z s : State} (hz : Sound z s) (c : Coll) (f : EntryRun → EntryRun) : Sound z (Coll.mod c s f) := by
  unfold Machine.Coll.mod
  try dsimp only
  repeat' first
    | with_reducible exact hz
    | with_reducible assumption
    | with_reducible apply Sound.modStay
    | split
    | exact fun w => w.2.2.2
    | intro _

theorem Sound.Coll_fault {z s : State} (hz : Sound z s) (c : Coll) (a : Nat) : Sound z (Coll.fault c s a) := by
  unfold Machine.Coll.fault
  try dsimp only
  repeat' first
    | with_reducible exact hz
    | with_reducible assumption
    | with_reducible apply Sound.confine

theorem Sound.Coll_flagBad {z s : State} (hz : Sound z s) (c : Coll) (bad : Bool) : Sound z (Coll.flagBad c s bad) := by
  unfold Machine.Coll.flagBad
  try dsimp only
  repeat' first
    | with_reducible exact hz
    | with_reducible assumption
    | with_reducible apply Sound.Coll_mod
    | with_reducible apply Sound.modProg
    | split
    | exact fun w => w.2.2.2
    | intro _

theorem Sound.Coll_read {z s : State} (hz : Sound z s) (c : Coll) (a : Nat) (k : Nat) : Sound z (Coll.read c s a k).1 := by
  unfold Machine.Coll.read
  try dsimp only
  repeat' first
    | with_reducible exact hz
    | with_reducible assumption
    | with_reducible apply Sound.readOrFault
    | with_reducible apply Sound.Issue_fault
    | with_reducible apply Sound.Meet_fault
    | with_reducible apply Sound.Coll_fault
    | with_reducible apply SoundOpt.some
    | with_reducible exact SoundOpt.none _
    | split

theorem Sound.Coll_write {z s : State} (hz : Sound z s) (c : Coll) (a : Nat) (bs : List Byte) : Sound z (Coll.write c s a bs) := by
  unfold Machine.Coll.write
  try dsimp only
  repeat' first
    | with_reducible exact hz
    | with_reducible assumption
    | with_reducible apply Sound.writeOrFault
    | with_reducible apply Sound.Issue_fault
    | with_reducible apply Sound.Meet_fault
    | with_reducible apply Sound.Coll_fault
    | split

theorem Sound.Coll_readHeld {z s : State} (hz : Sound z s) (c : Coll) (h : HeldFrame) (o : Nat) (k : Nat) : Sound z (Coll.readHeld c s h o k).1 := by
  unfold Machine.Coll.readHeld
  try dsimp only
  repeat' first
    | with_reducible exact hz
    | with_reducible assumption
    | with_reducible apply Sound.Coll_read
    | with_reducible apply SoundOpt.some
    | with_reducible exact SoundOpt.none _
    | split
    | exact fun w => w.2.2.2
    | with_reducible refine Sound.of_pair (by assumption) ?_

theorem Sound.Coll_writeHeld {z s : State} (hz : Sound z s) (c : Coll) (narrow : Bool) (piece : Nat) (j : Nat) (o : Nat) (bs : List Byte) : Sound z (Coll.writeHeld c narrow piece s j o bs) := by
  unfold Machine.Coll.writeHeld
  try dsimp only
  repeat' first
    | with_reducible exact hz
    | with_reducible assumption
    | with_reducible apply Sound.Coll_mod
    | with_reducible apply Sound.Coll_write
    | with_reducible apply SoundOpt.some
    | with_reducible exact SoundOpt.none _
    | split
    | exact fun w => w.2.2.2
    | intro _
    | with_reducible refine Sound.of_pair (by assumption) ?_

theorem Sound.Coll_putHeld {z s : State} (hz : Sound z s) (c : Coll) (narrow : Bool) (piece : Nat) (a : Nat) (bs : List Byte) : Sound z (Coll.putHeld c s narrow piece a bs) := by
  unfold Machine.Coll.putHeld
  try dsimp only
  repeat' first
    | with_reducible exact hz
    | with_reducible assumption
    | with_reducible apply Sound.Coll_writeHeld
    | with_reducible apply Sound.foldl
    | intro _

theorem Sound.Coll_getFrames (c : Coll) (narrow : Bool) (piece a b : Nat) (l : List Nat) {z s : State} (hz : Sound z s) :
    Sound z (c.getFrames narrow piece a b l s).1 := by
  induction l generalizing s with
  | nil => exact hz
  | cons i l ih =>
    unfold Machine.Coll.getFrames; dsimp only; split
    · exact hz
    · rename_i h _
      have h1 := hz.Coll_readHeld c h (max a (c.unitBytes narrow * i) - c.unitBytes narrow * i)
        (min b (c.unitBytes narrow * i + h.size) - max a (c.unitBytes narrow * i))
      split
      · rename_i e; exact Sound.of_pair e h1
      · rename_i e
        have h2 := ih (Sound.of_pair e h1)
        split
        · rename_i e; exact Sound.of_pair e h2
        · rename_i e; exact Sound.of_pair e h2

theorem Sound.Coll_getHeld {z s : State} (hz : Sound z s) (c : Coll) (narrow : Bool) (piece : Nat) (a : Nat) (b : Nat) : Sound z (Coll.getHeld c s narrow piece a b).1 := by
  unfold Machine.Coll.getHeld
  try dsimp only
  repeat' first
    | with_reducible exact hz
    | with_reducible assumption
    | with_reducible apply Sound.Coll_getFrames

theorem Sound.Coll_release {z s : State} (hz : Sound z s) (c : Coll) : Sound z (Coll.release c s) := by
  unfold Machine.Coll.release
  try dsimp only
  repeat' first
    | with_reducible exact hz
    | with_reducible assumption
    | with_reducible apply Sound.Coll_mod
    | exact fun w => w.2.2.2
    | intro _

theorem Sound.Coll_termTo {z s : State} (hz : Sound z s) (c : Coll) (piece : Nat) (k : Nat) : Sound z (Coll.termTo c s piece k).1 := by
  unfold Machine.Coll.termTo
  try dsimp only
  repeat' first
    | with_reducible exact hz
    | with_reducible assumption
    | with_reducible apply Sound.Coll_read
    | with_reducible apply Sound.Coll_flagBad
    | with_reducible apply Sound.Coll_putHeld
    | with_reducible apply SoundOpt.some
    | with_reducible exact SoundOpt.none _
    | split
    | exact fun w => w.2.2.2
    | intro _
    | with_reducible refine Sound.of_pair (by assumption) ?_

theorem Sound.Coll_terms {z s : State} (hz : Sound z s) (c : Coll) (piece : Nat) (a : Nat) (b : Nat) : Sound z (Coll.terms c s piece a b).1 := by
  unfold Machine.Coll.terms
  try dsimp only
  repeat' first
    | with_reducible exact hz
    | with_reducible assumption
    | with_reducible apply Sound.Coll_termTo
    | with_reducible apply Sound.Coll_getHeld
    | with_reducible apply SoundOpt.some
    | with_reducible exact SoundOpt.none _
    | split
    | exact fun w => w.2.2.2
    | with_reducible refine Sound.of_pair (by assumption) ?_

theorem Sound.Coll_keep {z s : State} (hz : Sound z s) (c : Coll) (piece : Nat) (k : Nat) (bs : List Byte) : Sound z (Coll.keep c s piece k bs) := by
  unfold Machine.Coll.keep
  try dsimp only
  repeat' first
    | with_reducible exact hz
    | with_reducible assumption
    | with_reducible apply Sound.Coll_putHeld
    | split

theorem Sound.Coll_putRun {z s : State} (hz : Sound z s) (c : Coll) (g : Nat) (run : List Byte) : Sound z (Coll.putRun c s g run) := by
  unfold Machine.Coll.putRun
  try dsimp only
  repeat' first
    | with_reducible exact hz
    | with_reducible assumption
    | with_reducible apply Sound.Coll_write

theorem Sound.Coll_putGroup (c : Coll) (xs : List (Nat × Nat)) {z : State} {acc : State × List Byte} (h : Sound z acc.1) (g : Nat) :
    Sound z (c.putGroup xs acc g).1 := by
  unfold Machine.Coll.putGroup; dsimp only; split
  · exact h
  · have h1 := Sound.Coll_putRun h c g acc.2
    split
    · exact h1
    · split
      · rename_i e; exact Sound.of_pair e (Sound.Coll_read h1 c _ _)
      · rename_i e; exact Sound.Coll_write (Sound.of_pair e (Sound.Coll_read h1 c _ _)) c _ _

theorem Sound.Coll_putGroups (c : Coll) (xs : List (Nat × Nat)) (l : List Nat) {z : State} {acc : State × List Byte} (h : Sound z acc.1) :
    Sound z (l.foldl (c.putGroup xs) acc).1 := by
  induction l generalizing acc with
  | nil => exact h
  | cons g l ih => exact ih (h.Coll_putGroup c xs g)

theorem Sound.Coll_putElements {z s : State} (hz : Sound z s) (c : Coll) (xs : List (Nat × Nat)) : Sound z (c.putElements s xs) := by
  unfold Machine.Coll.putElements; split
  · exact Sound.Coll_putRun (Sound.Coll_putGroups c xs _ hz) c _ _
  · exact hz

theorem Sound.Coll_widenPart {z s : State} (hz : Sound z s) (c : Coll) (piece : Nat) (k : Nat) (bs : List Byte) : Sound z (Coll.widenPart c s piece k bs) := by
  unfold Machine.Coll.widenPart
  try dsimp only
  repeat' first
    | with_reducible exact hz
    | with_reducible assumption
    | with_reducible apply Sound.Coll_putElements
    | with_reducible apply Sound.Coll_write
    | with_reducible apply Sound.countCtx
    | with_reducible apply Sound.foldl
    | split
    | intro _
    | with_reducible refine Sound.of_pair (by assumption) ?_

theorem Sound.Coll_stream {z s : State} (hz : Sound z s) (c : Coll) (st : StayStep) (fmt : Nat) (at_ : Nat) (bs : List Byte) (last : Bool) : Sound z (Coll.stream c s st fmt at_ bs last) := by
  unfold Machine.Coll.stream
  try dsimp only
  repeat' first
    | with_reducible exact hz
    | with_reducible assumption
    | with_reducible apply Sound.sendStay
    | with_reducible apply Sound.foldl
    | split
    | intro _

theorem Sound.Coll_streamEnd {z s : State} (hz : Sound z s) (c : Coll) (st : StayStep) (t : Trailer) : Sound z (Coll.streamEnd c s st t) := by
  unfold Machine.Coll.streamEnd
  try dsimp only
  repeat' first
    | with_reducible exact hz
    | with_reducible assumption
    | with_reducible apply Sound.sendStay

theorem Sound.grantStay {z s : State} (hz : Sound z s) (n : Nat) (peer : Nat) (tile : Nat) (k : Nat) : Sound z (grantStay s n peer tile k) := by
  unfold Machine.grantStay
  try dsimp only
  repeat' first
    | with_reducible exact hz
    | with_reducible assumption
    | with_reducible apply Sound.modAssoc
    | with_reducible apply Sound.sendStay
    | with_reducible apply SoundOpt.some
    | with_reducible exact SoundOpt.none _
    | split
    | exact fun w => w.2.2.2
    | intro _
    | with_reducible refine Sound.of_pair (by assumption) ?_

theorem Sound.Coll_modStream {z s : State} (hz : Sound z s) (c : Coll) (b : StayInbox) (f : StayInbox → Option StayInbox) : Sound z (Coll.modStream c s b f) := by
  unfold Machine.Coll.modStream
  try dsimp only
  repeat' first
    | with_reducible exact hz
    | with_reducible assumption
    | with_reducible apply Sound.modStay
    | split
    | exact fun w => w.2.2.2
    | intro _

theorem Sound.Coll_unstage {z s : State} (hz : Sound z s) (c : Coll) (b : StayInbox) (f : StagedFrame) : Sound z (Coll.unstage c s b f).1 := by
  unfold Machine.Coll.unstage
  try dsimp only
  repeat' first
    | with_reducible exact hz
    | with_reducible assumption
    | with_reducible apply Sound.Coll_read
    | with_reducible apply Sound.Coll_modStream
    | with_reducible apply Sound.grantStay
    | with_reducible apply SoundOpt.some
    | with_reducible exact SoundOpt.none _
    | split
    | exact fun w => w.2.2.2
    | intro _
    | with_reducible refine Sound.of_pair (by assumption) ?_

theorem Sound.Coll_mergeIn {z s : State} (hz : Sound z s) (c : Coll) (piece : Nat) (t : Trailer) : Sound z (Coll.mergeIn c s piece t) := by
  unfold Machine.Coll.mergeIn
  try dsimp only
  repeat' first
    | with_reducible exact hz
    | with_reducible assumption
    | with_reducible apply Sound.Issue_fault
    | with_reducible apply Sound.Meet_fault
    | with_reducible apply Sound.Coll_fault
    | with_reducible apply Sound.Coll_mod
    | with_reducible apply SoundOpt.some
    | with_reducible exact SoundOpt.none _
    | split
    | exact fun w => w.2.2.2
    | intro _
    | with_reducible refine Sound.of_pair (by assumption) ?_
    | with_reducible apply Sound.record

theorem Sound.Coll_takeTrailer {z s : State} (hz : Sound z s) (c : Coll) (st : StayStep) (t : Trailer) : Sound z (Coll.takeTrailer c s st t) := by
  unfold Machine.Coll.takeTrailer
  try dsimp only
  repeat' first
    | with_reducible exact hz
    | with_reducible assumption
    | with_reducible apply Sound.Coll_mod
    | with_reducible apply Sound.Issue_fault
    | with_reducible apply Sound.Meet_fault
    | with_reducible apply Sound.Coll_fault
    | with_reducible apply SoundOpt.some
    | with_reducible exact SoundOpt.none _
    | split
    | exact fun w => w.2.2.2
    | intro _

theorem Sound.Coll_reach {z s : State} (hz : Sound z s) (c : Coll) (i : Nat) (k : Nat) : Sound z (Coll.reach c s i k) := by
  unfold Machine.Coll.reach
  try dsimp only
  repeat' first
    | with_reducible exact hz
    | with_reducible assumption
    | with_reducible apply Sound.Coll_release
    | with_reducible apply Sound.Coll_mod
    | exact fun w => w.2.2.2
    | intro _

theorem Sound.Coll_stepDone {z s : State} (hz : Sound z s) (c : Coll) (i : Nat) : Sound z (Coll.stepDone c s i) := by
  unfold Machine.Coll.stepDone
  try dsimp only
  repeat' first
    | with_reducible exact hz
    | with_reducible assumption
    | with_reducible apply Sound.opDone
    | with_reducible apply Sound.Coll_release
    | with_reducible apply Sound.Coll_mod
    | with_reducible apply Sound.Meet_done
    | exact fun w => w.2.2.2
    | intro _

theorem Sound.Coll_fold {z s : State} (hz : Sound z s) (c : Coll) (st : StayStep) (k : Nat) (bs : List Byte) : Sound z (Coll.fold c s st k bs).1 := by
  unfold Machine.Coll.fold
  try dsimp only
  repeat' first
    | with_reducible exact hz
    | with_reducible assumption
    | with_reducible apply Sound.Coll_terms
    | with_reducible apply Sound.countCtx
    | with_reducible apply Sound.Coll_putHeld
    | with_reducible apply SoundOpt.some
    | with_reducible exact SoundOpt.none _
    | split
    | exact fun w => w.2.2.2
    | intro _
    | with_reducible refine Sound.of_pair (by assumption) ?_

theorem Sound.Coll_takePart {z s : State} (hz : Sound z s) (c : Coll) (st : StayStep) (k : Nat) (bs : List Byte) : Sound z (Coll.takePart c s st k bs).1 := by
  unfold Machine.Coll.takePart
  try dsimp only
  repeat' first
    | with_reducible exact hz
    | with_reducible assumption
    | with_reducible apply Sound.Coll_keep
    | with_reducible apply Sound.Coll_widenPart
    | with_reducible apply Sound.Coll_flagBad
    | with_reducible apply Sound.Coll_write
    | split

theorem Sound.Coll_receive {z s : State} (hz : Sound z s) (c : Coll) (r : EntryRun) (st : StayStep) (i limit : Nat) :
    SoundOpt z (c.receive s r st i limit) := by
  unfold Machine.Coll.receive
  cases c.inStream s st with
  | none => exact SoundOpt.none _
  | some b =>
    simp only [Option.bind_some]
    generalize (if c.trailerStep st = true then none else b.next (r.part i)) = o
    generalize (if st.op = 1 then 8 else c.narrowFmt) = fmt
    cases o with
    | some f =>
      dsimp only; split
      · exact SoundOpt.none _
      · split
        · rename_i e; exact SoundOpt.some (Sound.of_pair e (hz.Coll_unstage c b f))
        · rename_i e
          have h1 := Sound.of_pair e (hz.Coll_unstage c b f)
          refine SoundOpt.some (Sound.Coll_reach ?_ c _ _)
          split
          · exact h1.Coll_fold c _ _ _
          · exact h1.Coll_takePart c _ _ _
    | none =>
      dsimp only; split
      · exact SoundOpt.none _
      · split
        · refine SoundOpt.some (Sound.Coll_stepDone (Sound.Coll_modStream ?_ c _ _) c _)
          split
          · exact hz.Coll_mergeIn c _ _
          · exact hz.Coll_takeTrailer c _ _
        · exact SoundOpt.none _
        · exact SoundOpt.some (Sound.Coll_stepDone (hz.Coll_modStream c _ _) c _)

theorem Sound.Coll_send {z s : State} (hz : Sound z s) (c : Coll) (r : EntryRun) (st : StayStep) (i : Nat) (limit : Nat) : SoundOpt z (Coll.send c s r st i limit) := by
  unfold Machine.Coll.send
  try dsimp only
  repeat' first
    | with_reducible exact hz
    | with_reducible assumption
    | with_reducible apply Sound.Coll_stepDone
    | with_reducible apply Sound.Coll_streamEnd
    | with_reducible apply Sound.Coll_terms
    | with_reducible apply Sound.Coll_reach
    | with_reducible apply Sound.Coll_stream
    | with_reducible apply SoundOpt.some
    | with_reducible exact SoundOpt.none _
    | split
    | exact fun w => w.2.2.2
    | with_reducible refine Sound.of_pair (by assumption) ?_

theorem Sound.Coll_round {z s : State} (hz : Sound z s) (c : Coll) (r : EntryRun) (st : StayStep) (i : Nat) (limit : Nat) : SoundOpt z (Coll.round c s r st i limit) := by
  unfold Machine.Coll.round
  try dsimp only
  repeat' first
    | with_reducible exact hz
    | with_reducible assumption
    | with_reducible apply Sound.Coll_terms
    | with_reducible apply Sound.Coll_keep
    | with_reducible apply Sound.Coll_flagBad
    | with_reducible apply Sound.Coll_reach
    | with_reducible apply Sound.Coll_write
    | with_reducible apply Sound.Coll_stepDone
    | with_reducible apply SoundOpt.some
    | with_reducible exact SoundOpt.none _
    | split
    | exact fun w => w.2.2.2
    | with_reducible refine Sound.of_pair (by assumption) ?_

theorem Sound.Coll_ownShard {z s : State} (hz : Sound z s) (c : Coll) : Sound z (Coll.ownShard c s).1 := by
  unfold Machine.Coll.ownShard
  try dsimp only
  repeat' first
    | with_reducible exact hz
    | with_reducible assumption
    | with_reducible apply Sound.Coll_read

theorem Sound.Coll_narrowOf {z s : State} (hz : Sound z s) (c : Coll) (st : StayStep) (k : Nat) (m : Nat) : Sound z (Coll.narrowOf c s st k m).1 := by
  unfold Machine.Coll.narrowOf
  try dsimp only
  repeat' first
    | with_reducible exact hz
    | with_reducible assumption
    | with_reducible apply Sound.Coll_read
    | with_reducible apply Sound.Coll_getHeld
    | split

theorem Sound.Coll_putEnd {z s : State} (hz : Sound z s) (c : Coll) (st : StayStep) (i : Nat) : SoundOpt z (Coll.putEnd c s st i) := by
  unfold Machine.Coll.putEnd
  try dsimp only
  repeat' first
    | with_reducible exact hz
    | with_reducible assumption
    | with_reducible apply Sound.Coll_stepDone
    | with_reducible apply Sound.peerLost
    | with_reducible apply Sound.Coll_streamEnd
    | with_reducible apply SoundOpt.some
    | with_reducible exact SoundOpt.none _
    | split
    | exact fun w => w.2.2.2
    | with_reducible refine Sound.of_pair (by assumption) ?_

theorem SoundOpt.or {a : State} {o p : Option State} (h : SoundOpt a o) (g : SoundOpt a p) : SoundOpt a (o.or p) := by
  cases o with
  | none => simpa using g
  | some t => simpa using h

theorem Sound.Coll_put {z s : State} (hz : Sound z s) (c : Coll) (r : EntryRun) (st : StayStep) (i limit : Nat) :
    SoundOpt z (c.put s r st i limit) := by
  unfold Machine.Coll.put; split
  · exact hz.Coll_putEnd c st i
  · dsimp only
    split
    · exact hz.Coll_putEnd c st i
    · split
      · exact SoundOpt.none _
      · have h1 := hz.Coll_narrowOf c st (r.part i) (sendable c.narrowFmt (c.pieceLen st.piece) limit)
        split
        · rename_i e; exact SoundOpt.some (Sound.of_pair e h1)
        · rename_i s' bs e
          have h2 := Sound.of_pair e h1
          have h3 : ∀ m fmt (x : List Byte) b, Sound z (c.reach (c.stream s' st fmt (r.part i) x b) i m) := fun m fmt x b =>
            Sound.Coll_reach (h2.Coll_stream c st fmt _ x b) c i m
          split
          · exact SoundOpt.some (h3 _ _ _ _)
          · exact SoundOpt.or ((h3 _ _ _ _).Coll_putEnd c st i) (SoundOpt.some (h3 _ _ _ _))

theorem Sound.Coll_self {z s : State} (hz : Sound z s) (c : Coll) (i : Nat) : Sound z (Coll.self c s i) := by
  unfold Machine.Coll.self
  try dsimp only
  repeat' first
    | with_reducible exact hz
    | with_reducible assumption
    | with_reducible apply Sound.Coll_ownShard
    | with_reducible apply Sound.Coll_stepDone
    | with_reducible apply Sound.Coll_widenPart
    | with_reducible apply SoundOpt.some
    | with_reducible exact SoundOpt.none _
    | split
    | exact fun w => w.2.2.2
    | with_reducible refine Sound.of_pair (by assumption) ?_

theorem Sound.Coll_work {z s : State} (hz : Sound z s) (c : Coll) (r : EntryRun) (x : StayStep × Nat) : SoundOpt z (Coll.work c s r x) := by
  unfold Machine.Coll.work
  try dsimp only
  repeat' first
    | with_reducible exact hz
    | with_reducible assumption
    | with_reducible apply Sound.Coll_receive
    | with_reducible apply Sound.Coll_send
    | with_reducible apply Sound.Coll_round
    | with_reducible apply Sound.Coll_put
    | with_reducible apply Sound.Coll_self
    | with_reducible apply SoundOpt.some
    | with_reducible exact SoundOpt.none _
    | split
    | with_reducible refine Sound.of_pair (by assumption) ?_

theorem Sound.writeVerdict {z s : State} (hz : Sound z s) (n : Nat) (im : Image) (rec_ : List Byte) : Sound z (writeVerdict s n im rec_) := by
  unfold Machine.writeVerdict
  try dsimp only
  repeat' first
    | with_reducible exact hz
    | with_reducible assumption
    | with_reducible apply Sound.writeOrFault
    | with_reducible apply Sound.confine
    | with_reducible apply Sound.foldl
    | split
    | intro _

theorem Sound.logFloor {z s : State} (hz : Sound z s) (n : Nat) (step : Nat) (first : Nat) : Sound z (logFloor s n step first) := by
  unfold Machine.logFloor
  try dsimp only
  repeat' first
    | with_reducible exact hz
    | with_reducible assumption
    | with_reducible apply Sound.logError

theorem Sound.applyVerdict {z s : State} (hz : Sound z s) (n : Nat) (im : Image) (nonfinite : Bool) (first : Nat) : Sound z (applyVerdict s n im nonfinite first) := by
  unfold Machine.applyVerdict
  try dsimp only
  repeat' first
    | with_reducible exact hz
    | with_reducible assumption
    | with_reducible apply Sound.modCtx
    | with_reducible apply Sound.writeVerdict
    | with_reducible apply Sound.modProg
    | with_reducible apply Sound.logFloor
    | with_reducible apply Sound.sweep
    | with_reducible apply SoundOpt.some
    | with_reducible exact SoundOpt.none _
    | split
    | exact fun w => w.2.2.2
    | intro _
    | with_reducible refine Sound.of_pair (by assumption) ?_
    | with_reducible apply Sound.record

theorem Sound.Coll_logTrailer {z s : State} (hz : Sound z s) (c : Coll) (t : Trailer) : Sound z (Coll.logTrailer c s t) := by
  unfold Machine.Coll.logTrailer
  try dsimp only
  repeat' first
    | with_reducible exact hz
    | with_reducible assumption
    | with_reducible apply Sound.countCtx
    | with_reducible apply Sound.modStay
    | with_reducible apply Sound.logError
    | split
    | exact fun w => w.2.2.2
    | intro _

theorem Sound.Coll_finish {z s : State} (hz : Sound z s) (c : Coll) : Sound z (Coll.finish c s) := by
  unfold Machine.Coll.finish
  try dsimp only
  repeat' first
    | with_reducible exact hz
    | with_reducible assumption
    | with_reducible apply Sound.Coll_logTrailer
    | with_reducible apply Sound.Coll_mod
    | with_reducible apply Sound.Issue_fault
    | with_reducible apply Sound.Meet_fault
    | with_reducible apply Sound.Coll_fault
    | with_reducible apply Sound.applyVerdict
    | with_reducible apply SoundOpt.some
    | with_reducible exact SoundOpt.none _
    | split
    | exact fun w => w.2.2.2
    | intro _
    | with_reducible refine Sound.of_pair (by assumption) ?_

theorem Sound.Coll_findWork {z s : State} (hz : Sound z s) (c : Coll) (r : EntryRun) (l : List (StayStep × Nat)) :
    SoundOpt z (l.findSome? (c.work s r)) := by
  intro t e
  obtain ⟨x, _, hx⟩ := List.exists_of_findSome?_eq_some e
  exact hz.Coll_work c r x t hx

theorem Sound.Coll_advance (c : Coll) (f : Nat) {z s : State} (hz : Sound z s) : Sound z (c.advance f s) := by
  induction f generalizing s with
  | zero => exact hz
  | succ f ih =>
    unfold Machine.Coll.advance; split
    · exact hz
    · split
      · exact hz
      · split
        · rename_i e; exact ih (hz.Coll_findWork c _ _ _ e)
        · split
          · exact hz.Coll_finish c
          · exact hz

theorem Sound.Coll_go {z s : State} (hz : Sound z s) (c : Coll) : Sound z (Coll.go c s) := by
  unfold Machine.Coll.go
  try dsimp only
  repeat' first
    | with_reducible exact hz
    | with_reducible assumption
    | with_reducible apply Sound.Coll_termTo
    | with_reducible apply Sound.Coll_advance
    | split

theorem Sound.runStays {z s : State} (hz : Sound z s) (n : Nat) : Sound z (runStays s n) := by
  unfold Machine.runStays; split
  · exact hz
  · split
    · exact hz
    · dsimp only
      apply Sound.foldl
      · exact Sound.foldl hz fun t c ht => ht.Coll_go c
      · exact fun t c ht => ht.Coll_go c

theorem Sound.joinCollective {z s : State} (hz : Sound z s) (m : Meet) : Sound z (joinCollective s m) := by
  unfold Machine.joinCollective
  try dsimp only
  repeat' first
    | with_reducible exact hz
    | with_reducible assumption
    | with_reducible apply Sound.runStays
    | with_reducible apply Sound.modStay
    | exact fun w => w.2.2.2
    | intro _

theorem Sound.issueCollective {z s : State} (hz : Sound z s) (m : Meet) (kind : Nat) : SoundOpt z (issueCollective s m kind) := by
  unfold Machine.issueCollective
  try dsimp only
  repeat' first
    | with_reducible exact hz
    | with_reducible assumption
    | with_reducible apply Sound.Issue_run
    | with_reducible apply Sound.confine
    | with_reducible apply Sound.Meet_done
    | with_reducible apply Sound.joinCollective
    | with_reducible apply SoundOpt.some
    | with_reducible exact SoundOpt.none _
    | split
    | exact fun w => w.2.2.2
    | intro _
    | with_reducible refine Sound.of_pair (by assumption) ?_
    | rfl
    | exact id
    | exact TollSound.refl _
    | (simp; done)
    | with_reducible apply Sound.setSched

theorem Sound.execGather {z s : State} (hz : Sound z s) (stage : Nat) : SoundOut z (execGather stage s) := by
  unfold Machine.execGather
  try dsimp only
  repeat' first
    | with_reducible apply SoundOut.next
    | with_reducible exact hz
    | with_reducible assumption
    | with_reducible apply Sound.atStage
    | with_reducible apply Sound.issueCollective
    | intro _

theorem Sound.execReduceScatter {z s : State} (hz : Sound z s) (stage : Nat) : SoundOut z (execReduceScatter stage s) := by
  unfold Machine.execReduceScatter
  try dsimp only
  repeat' first
    | with_reducible apply SoundOut.next
    | with_reducible exact hz
    | with_reducible assumption
    | with_reducible apply Sound.atStage
    | with_reducible apply Sound.issueCollective
    | intro _

theorem Sound.execAllReduce {z s : State} (hz : Sound z s) (stage : Nat) : SoundOut z (execAllReduce stage s) := by
  unfold Machine.execAllReduce
  try dsimp only
  repeat' first
    | with_reducible apply SoundOut.next
    | with_reducible exact hz
    | with_reducible assumption
    | with_reducible apply Sound.atStage
    | with_reducible apply Sound.issueCollective
    | intro _

theorem Sound.signalStay {z s : State} (hz : Sound z s) (n : Nat) (im : Image) (tile : Nat) (entry : Nat) : Sound z (signalStay s n im tile entry) := by
  unfold Machine.signalStay
  try dsimp only
  repeat' first
    | with_reducible exact hz
    | with_reducible assumption
    | with_reducible apply Sound.confine
    | with_reducible apply Sound.modStay
    | with_reducible apply Sound.runStays
    | with_reducible apply Sound.opDone
    | with_reducible apply Sound.signalToken
    | with_reducible apply SoundOpt.some
    | with_reducible exact SoundOpt.none _
    | split
    | exact fun w => w.2.2.2
    | intro _
    | with_reducible refine Sound.of_pair (by assumption) ?_

theorem Sound.execSignal {z s : State} (hz : Sound z s) (actor : TokenActor) : SoundOut z (execSignal actor s) := by
  unfold Machine.execSignal
  try dsimp only
  repeat' first
    | with_reducible apply SoundOut.next
    | with_reducible exact hz
    | with_reducible assumption
    | with_reducible apply Sound.atStage
    | with_reducible apply Sound.signalStage
    | with_reducible apply Sound.signalStay
    | with_reducible apply Sound.signalFeed
    | with_reducible apply SoundOpt.some
    | with_reducible exact SoundOpt.none _
    | split
    | exact fun w => w.2.2.2
    | with_reducible refine Sound.of_pair (by assumption) ?_
    | intro _

end Sys2Proof.Machine
end

