-- ==== Sys2Proof/Laws/SoundProgram.lean ====
section
/-! SUPPORT. Soundness of the operations of Machine/Program.lean (see Laws/Sound.lean). -/

namespace Sys2Proof.Machine

theorem Sound.readSections (r : Reader) (im : Image) (xs : List Section) {z s : State} (hz : Sound z s) :
    Sound z (readSections r im xs s).1 := by
  induction xs generalizing s with
  | nil => exact hz
  | cons x xs ih =>
    unfold Machine.readSections; split
    · rename_i e; exact Sound.of_pair e (hz.readHbm ..)
    · rename_i e
      have h1 := ih (Sound.of_pair e (hz.readHbm ..))
      split
      · rename_i e; exact Sound.of_pair e h1
      · rename_i e; exact Sound.of_pair e h1

theorem Sound.preload {z s : State} (hz : Sound z s) (n q : Nat) (im : Image) : Sound z (preload n q im s).1 := by
  unfold Machine.preload; split
  · rename_i e; exact Sound.of_pair e (Sound.readSections _ _ _ hz)
  · rename_i e
    refine Sound.foldl (Sound.of_pair e (Sound.readSections _ _ _ hz)) fun t x ht => ht.modPier _ _ fun P w => ?_
    unfold fillPier; split
    · exact Memory.wf_write w _ _
    · exact w

theorem Sound.footCommand (n : Nat) (im : Image) (tile : Nat) {z s : State} (hz : Sound z s) (c : FootCmd) :
    Sound z (footCommand n im tile s c).1 := by
  unfold Machine.footCommand; dsimp only; split
  · exact hz.confine ..
  · split
    · rename_i e; exact Sound.of_pair e (hz.footPath ..)
    · rename_i e
      have h1 := Sound.of_pair e (hz.footPath ..)
      split
      · exact h1.storeInside _ _ _ fun _ => ⟨fun w => Hbm.wf_fill w _ _ _, rfl⟩
      · split
        · exact Sound.foldl h1 fun t b ht => ht.logUncorrectable _ _ b
        · exact Sound.storeInside ((h1.correctRange _ _).count _ _ _ _) _ _ _ fun _ => ⟨fun w => Hbm.wf_copy w _ _ _, rfl⟩

theorem Sound.footCommands (n : Nat) (im : Image) (tile : Nat) (cs : List FootCmd) {z s : State} (hz : Sound z s) :
    Sound z (footCommands n im tile cs s).1 := by
  induction cs generalizing s with
  | nil => exact hz
  | cons c cs ih =>
    unfold Machine.footCommands; split
    · exact hz
    · split
      · rename_i e; exact Sound.of_pair e (Sound.footCommand n im tile hz c)
      · rename_i e; exact ih (Sound.of_pair e (Sound.footCommand n im tile hz c))

theorem Sound.footSections (n : Nat) (im : Image) (fs : List FootSeq) {z s : State} (hz : Sound z s) :
    Sound z (footSections n im fs s).1 := by
  induction fs generalizing s with
  | nil => exact hz
  | cons f fs ih =>
    unfold Machine.footSections; split
    · rename_i e; exact Sound.of_pair e (Sound.footCommands n im _ _ hz)
    · rename_i e; exact ih (Sound.of_pair e (Sound.footCommands n im _ _ hz))

theorem Sound.dropLaunch {z s : State} (hz : Sound z s) (n : Nat) : Sound z (dropLaunch s n) := by
  unfold Machine.dropLaunch
  try dsimp only
  repeat' first
    | with_reducible exact hz
    | with_reducible assumption
    | with_reducible apply Sound.modCtx
    | exact fun w => w.2.2.2
    | intro _
    | rfl
    | exact id
    | exact TollSound.refl _
    | (simp; done)
    | with_reducible apply Sound.setQueues
    | with_reducible apply Sound.record

theorem Sound.refuseLaunch {z s : State} (hz : Sound z s) (n : Nat) (status : Nat) (p0 : Nat) : Sound z (refuseLaunch s n status p0) := by
  unfold Machine.refuseLaunch
  try dsimp only
  repeat' first
    | with_reducible exact hz
    | with_reducible assumption
    | with_reducible apply Sound.finish
    | with_reducible apply Sound.dropLaunch
    | with_reducible apply SoundOpt.some
    | with_reducible exact SoundOpt.none _
    | split
    | exact fun w => w.2.2.2
    | with_reducible refine Sound.of_pair (by assumption) ?_

theorem Sound.grantStaging {z s : State} (hz : Sound z s) (n : Nat) (im : Image) : Sound z (grantStaging s n im) := by
  unfold Machine.grantStaging
  try dsimp only
  repeat' first
    | with_reducible exact hz
    | with_reducible assumption
    | with_reducible apply Sound.grantStay
    | with_reducible apply Sound.foldl
    | intro _

theorem Sound.freshPiers {z s : State} (hz : Sound z s) (im : Image) : Sound z (freshPiers s im) :=
  Sound.foldl hz fun t p ht => ht.setPier _ fun _ => Memory.wf_nil

theorem Sound.beginProgram {z s : State} (hz : Sound z s) (n : Nat) (im : Image) : Sound z (beginProgram s n im) := by
  unfold Machine.beginProgram
  try dsimp only
  repeat' first
    | with_reducible exact hz
    | with_reducible assumption
    | with_reducible apply Sound.modCtx
    | with_reducible apply Sound.modProg
    | with_reducible apply Sound.startCounting
    | with_reducible apply Sound.grantStaging
    | with_reducible apply Sound.finish
    | with_reducible apply Sound.raiseHigh
    | with_reducible apply SoundOpt.some
    | with_reducible exact SoundOpt.none _
    | with_reducible apply Sound.foldl
    | split
    | exact fun w => w.2.2.2
    | intro _
    | with_reducible refine Sound.of_pair (by assumption) ?_
    | rfl
    | exact id
    | exact TollSound.refl _
    | (simp; done)
    | with_reducible apply Sound.setTime
    | with_reducible apply Sound.setCounters
    | with_reducible apply Sound.setWaits
    | with_reducible apply Sound.setWaitsFree
    | with_reducible apply Sound.setQueues
    | with_reducible apply Sound.record

theorem Sound.startProgram {z s : State} (hz : Sound z s) (n : Nat) : Sound z (startProgram s n) := by
  unfold Machine.startProgram; split
  · split
    · rename_i e; exact (Sound.of_pair e ((hz.freshPiers _).preload _ _ _)).refuseLaunch ..
    · rename_i e
      have h1 := Sound.of_pair e ((hz.freshPiers _).preload _ _ _)
      split
      · rename_i e2
        have h2 := Sound.of_pair e2 (Sound.footSections _ _ _ h1)
        split
        · exact h2
        · exact h2.refuseLaunch ..
      · rename_i e2
        have h2 := Sound.of_pair e2 (Sound.footSections _ _ _ h1)
        dsimp only
        split
        · exact h2.writeVerdict ..
        · exact (h2.writeVerdict ..).beginProgram ..
  · exact hz

theorem Sound.checkBound {z s : State} (hz : Sound z s) (n : Nat) : Sound z (checkBound s n) := by
  unfold Machine.checkBound
  try dsimp only
  repeat' first
    | with_reducible exact hz
    | with_reducible assumption
    | with_reducible apply Sound.modProg
    | with_reducible apply Sound.runPolicy
    | with_reducible apply Sound.startProgram
    | with_reducible apply SoundOpt.some
    | with_reducible exact SoundOpt.none _
    | with_reducible apply Sound.foldl
    | split
    | exact fun w => w.2.2.2
    | intro _
    | with_reducible refine Sound.of_pair (by assumption) ?_
    | rfl
    | exact id
    | exact TollSound.refl _
    | (simp; done)
    | with_reducible apply Sound.setSched
    | with_reducible apply Sound.setQueues
    | with_reducible apply Sound.record

theorem Sound.sendBinds {z s : State} (hz : Sound z s) (n : Nat) : Sound z (sendBinds s n) := by
  unfold Machine.sendBinds
  try dsimp only
  repeat' first
    | with_reducible exact hz
    | with_reducible assumption
    | with_reducible apply Sound.sendSpan
    | with_reducible apply Sound.putStay
    | with_reducible apply SoundOpt.some
    | with_reducible exact SoundOpt.none _
    | with_reducible apply Sound.foldl
    | split
    | exact fun w => w.2.2.2
    | intro _
    | with_reducible refine Sound.of_pair (by assumption) ?_
    | rfl
    | exact id
    | exact TollSound.refl _
    | (simp; done)
    | with_reducible apply Sound.setQueues

theorem Sound.sendCloses {z s : State} (hz : Sound z s) (n : Nat) : Sound z (sendCloses s n) := by
  unfold Machine.sendCloses
  try dsimp only
  repeat' first
    | with_reducible exact hz
    | with_reducible assumption
    | with_reducible apply Sound.sendSpan
    | with_reducible apply Sound.putStay
    | with_reducible apply SoundOpt.some
    | with_reducible exact SoundOpt.none _
    | with_reducible apply Sound.foldl
    | split
    | exact fun w => w.2.2.2
    | intro _
    | with_reducible refine Sound.of_pair (by assumption) ?_
    | rfl
    | exact id
    | exact TollSound.refl _
    | (simp; done)
    | with_reducible apply Sound.setQueues

theorem Sound.execLaunch {z s : State} (hz : Sound z s) (q : Nat) (seq : Nat) : SoundOut z (execLaunch q seq s) := by
  refine .next (hz.onCmd _ _ _ _ fun s t hs => ?_)
  split
  · exact hs.refuse ..
  · split
    · exact hs.refuse ..
    · split
      · exact hs.refuse ..
      · rename_i im _ _
        have h1 := Sound.readSections (hostReader t.context q) im (im.sections.filter fun x => x.type = 0x0005) hs
        split
        · rename_i e; exact (Sound.of_pair e h1).refuse ..
        · rename_i e
          have h2 := Sound.of_pair e h1
          split
          · exact h2.finish ..
          · exact h2.finish ..
          · exact Sound.checkBound (Sound.sendBinds ((h2.dropWaits _).modCtx _ _) _) _

theorem Sound.execUnload {z s : State} (hz : Sound z s) (q : Nat) (seq : Nat) : SoundOut z (execUnload q seq s) := by
  unfold Machine.execUnload
  try dsimp only
  repeat' first
    | with_reducible apply SoundOut.next
    | with_reducible exact hz
    | with_reducible assumption
    | with_reducible apply Sound.onCmd
    | with_reducible apply Sound.refuse
    | with_reducible apply Sound.endProgramCommands
    | with_reducible apply Sound.endSampling
    | with_reducible apply Sound.finish
    | with_reducible apply Sound.modCtx
    | split
    | exact fun w => w.2.2.2
    | with_reducible refine Sound.of_pair (by assumption) ?_
    | with_reducible apply Sound.setApr
    | intro _ _ _
    | intro _

theorem Sound.execTokenSignal {z s : State} (hz : Sound z s) (q : Nat) (seq : Nat) : SoundOut z (execTokenSignal q seq s) := by
  unfold Machine.execTokenSignal
  try dsimp only
  repeat' first
    | with_reducible apply SoundOut.next
    | with_reducible exact hz
    | with_reducible assumption
    | with_reducible apply Sound.onCmd
    | with_reducible apply Sound.refuse
    | with_reducible apply Sound.finish
    | with_reducible apply Sound.opDone
    | with_reducible apply Sound.signalToken
    | split
    | exact fun w => w.2.2.2
    | with_reducible refine Sound.of_pair (by assumption) ?_
    | intro _ _ _
    | intro _

theorem Sound.spanReply {z s : State} (hz : Sound z s) (n : Nat) (im : Image) (x : SpanQueue) (version : Nat) : Sound z (spanReply s n im x version).1 := by
  unfold Machine.spanReply
  try dsimp only
  repeat' first
    | with_reducible exact hz
    | with_reducible assumption
    | with_reducible apply Sound.readSlot
    | with_reducible apply SoundOpt.some
    | with_reducible exact SoundOpt.none _
    | split
    | exact fun w => w.2.2.2
    | with_reducible refine Sound.of_pair (by assumption) ?_

theorem Sound.execSpanQuery {z s : State} (hz : Sound z s) (q : Nat) (seq : Nat) : SoundOut z (execSpanQuery q seq s) := by
  unfold Machine.execSpanQuery
  try dsimp only
  repeat' first
    | with_reducible apply SoundOut.next
    | with_reducible exact hz
    | with_reducible assumption
    | with_reducible apply Sound.onCmd
    | with_reducible apply Sound.refuse
    | with_reducible apply Sound.finish
    | with_reducible apply Sound.spanReply
    | split
    | exact fun w => w.2.2.2
    | with_reducible refine Sound.of_pair (by assumption) ?_
    | intro _ _ _
    | intro _

theorem Sound.execStayQuery {z s : State} (hz : Sound z s) (q : Nat) (seq : Nat) : SoundOut z (execStayQuery q seq s) := by
  unfold Machine.execStayQuery
  try dsimp only
  repeat' first
    | with_reducible apply SoundOut.next
    | with_reducible exact hz
    | with_reducible assumption
    | with_reducible apply Sound.onCmd
    | with_reducible apply Sound.refuse
    | with_reducible apply Sound.finish
    | split
    | exact fun w => w.2.2.2
    | with_reducible refine Sound.of_pair (by assumption) ?_
    | intro _ _ _
    | intro _

end Sys2Proof.Machine
end

