-- ==== Sys2Proof/Laws/SoundLinks.lean ====
section
/-! SUPPORT. Soundness of the operations of Machine/Links.lean (see Laws/Sound.lean). -/

namespace Sys2Proof.Machine

theorem Sound.takeInbox {z s : State} (hz : Sound z s) (src : Nat) (klass : Nat) (payload : List Byte) : Sound z (takeInbox s src klass payload) := by
  unfold Machine.takeInbox
  try dsimp only
  repeat' first
    | with_reducible exact hz
    | with_reducible assumption
    | with_reducible apply SoundOpt.some
    | with_reducible exact SoundOpt.none _
    | split
    | exact fun w => w.2.2.2
    | intro _
    | with_reducible refine Sound.of_pair (by assumption) ?_
    | rfl
    | exact id
    | exact TollSound.refl _
    | (simp; done)
    | with_reducible apply Sound.setPylon

theorem Sound.onDesc {z s : State} (hz : Sound z s) (n : Nat) (im : Image) (x : SpanQueue) (cont : Bool) (body : List Byte) : Sound z (onDesc s n im x cont body) := by
  unfold Machine.onDesc
  try dsimp only
  repeat' first
    | with_reducible exact hz
    | with_reducible assumption
    | with_reducible apply Sound.writeSlot
    | with_reducible apply Sound.beginSlot
    | with_reducible apply Sound.modSlot
    | split
    | exact fun w => w.2.2.2
    | intro _

theorem Sound.onData {z s : State} (hz : Sound z s) (n : Nat) (im : Image) (x : SpanQueue) (last : Bool) (off : Nat) (body : List Byte) : Sound z (onData s n im x last off body) := by
  unfold Machine.onData
  try dsimp only
  repeat' first
    | with_reducible exact hz
    | with_reducible assumption
    | with_reducible apply Sound.writeSlot
    | with_reducible apply Sound.fullSlot
    | split

theorem Sound.onBind {z s : State} (hz : Sound z s) (n : Nat) (q : Nat) (L : SpanLink) (digest : List Byte) : Sound z (onBind s n q L digest) := by
  unfold Machine.onBind
  try dsimp only
  repeat' first
    | with_reducible exact hz
    | with_reducible assumption
    | with_reducible apply Sound.checkBound
    | with_reducible apply Sound.modLink
    | with_reducible apply Sound.refuseLaunch
    | split
    | exact fun w => w.2.2.2
    | intro _
    | with_reducible apply Sound.setTime

theorem Sound.discardSpan {z s : State} (hz : Sound z s) (n : Nat) (q : Nat) : Sound z (discardSpan s n q) := by
  unfold Machine.discardSpan
  try dsimp only
  repeat' first
    | with_reducible exact hz
    | with_reducible assumption
    | with_reducible apply Sound.countCtx
    | with_reducible apply Sound.modLink
    | exact fun w => w.2.2.2
    | intro _

theorem Sound.actSpan {z s : State} (hz : Sound z s) (n : Nat) (q : Nat) (f : SpanFrame) : Sound z (actSpan s n q f) := by
  unfold Machine.actSpan
  try dsimp only
  repeat' first
    | with_reducible exact hz
    | with_reducible assumption
    | with_reducible apply Sound.onBind
    | with_reducible apply Sound.discardSpan
    | with_reducible apply Sound.onDesc
    | with_reducible apply Sound.onData
    | with_reducible apply Sound.modLink
    | with_reducible apply Sound.peerLost
    | with_reducible apply SoundOpt.some
    | with_reducible exact SoundOpt.none _
    | split
    | exact fun w => w.2.2.2
    | intro _
    | with_reducible refine Sound.of_pair (by assumption) ?_

theorem Sound.drainSpan (k : Nat) {z s : State} (hz : Sound z s) (n x : Nat) : Sound z (drainSpan k s n x) := by
  induction k generalizing s with
  | zero => exact hz
  | succ k ih =>
    unfold Machine.drainSpan; split
    · exact hz
    · split
      · exact hz
      · exact ih (Sound.actSpan (Sound.modLink hz n x _) ..)

theorem Sound.strayingSpan {z s : State} (hz : Sound z s) (src : Nat) (f : SpanFrame) : Sound z (strayingSpan s src f) := by
  unfold Machine.strayingSpan
  try dsimp only
  repeat' first
    | with_reducible exact hz
    | with_reducible assumption
    | with_reducible apply Sound.takeInbox
    | with_reducible apply Sound.peerLost
    | with_reducible apply Sound.discardSpan
    | with_reducible apply Sound.discardFrame
    | with_reducible apply SoundOpt.some
    | with_reducible exact SoundOpt.none _
    | split
    | exact fun w => w.2.2.2
    | intro _
    | with_reducible refine Sound.of_pair (by assumption) ?_

theorem Sound.recvSpan {z s : State} (hz : Sound z s) (src : Nat) (f : SpanFrame) : Sound z (recvSpan s src f) := by
  unfold Machine.recvSpan
  try dsimp only
  repeat' first
    | with_reducible exact hz
    | with_reducible assumption
    | with_reducible apply Sound.strayingSpan
    | with_reducible apply Sound.takeInbox
    | with_reducible apply Sound.modLink
    | with_reducible apply Sound.drainSpan
    | with_reducible apply SoundOpt.some
    | with_reducible exact SoundOpt.none _
    | split
    | exact fun w => w.2.2.2
    | intro _
    | with_reducible refine Sound.of_pair (by assumption) ?_
    | with_reducible apply Sound.setTime

theorem Sound.execSpanDesc {z s : State} (hz : Sound z s) (link : Nat) (src : Nat) (seq : Nat) (cont : Bool) (slot : Nat) (body : List Byte) : SoundOut z (execSpanDesc link src seq cont slot body s) := by
  unfold Machine.execSpanDesc
  try dsimp only
  repeat' first
    | with_reducible apply SoundOut.next
    | with_reducible exact hz
    | with_reducible assumption
    | with_reducible apply Sound.recvSpan
    | split
    | intro _

theorem Sound.execSpanData {z s : State} (hz : Sound z s) (link : Nat) (src : Nat) (seq : Nat) (last : Bool) (offset : Nat) (body : List Byte) : SoundOut z (execSpanData link src seq last offset body s) := by
  unfold Machine.execSpanData
  try dsimp only
  repeat' first
    | with_reducible apply SoundOut.next
    | with_reducible exact hz
    | with_reducible assumption
    | with_reducible apply Sound.recvSpan
    | split
    | intro _

theorem Sound.execSpanCredit {z s : State} (hz : Sound z s) (link : Nat) (src : Nat) (seq : Nat) (released : Nat) : SoundOut z (execSpanCredit link src seq released s) := by
  unfold Machine.execSpanCredit
  try dsimp only
  repeat' first
    | with_reducible apply SoundOut.next
    | with_reducible exact hz
    | with_reducible assumption
    | with_reducible apply Sound.recvSpan
    | split
    | intro _

theorem Sound.execSpanHeartbeat {z s : State} (hz : Sound z s) (link : Nat) (src : Nat) (seq : Nat) : SoundOut z (execSpanHeartbeat link src seq s) := by
  unfold Machine.execSpanHeartbeat
  try dsimp only
  repeat' first
    | with_reducible apply SoundOut.next
    | with_reducible exact hz
    | with_reducible assumption
    | with_reducible apply Sound.recvSpan
    | split
    | intro _

theorem Sound.execSpanAbandon {z s : State} (hz : Sound z s) (link : Nat) (src : Nat) (seq : Nat) (status : Nat) : SoundOut z (execSpanAbandon link src seq status s) := by
  unfold Machine.execSpanAbandon
  try dsimp only
  repeat' first
    | with_reducible apply SoundOut.next
    | with_reducible exact hz
    | with_reducible assumption
    | with_reducible apply Sound.recvSpan
    | split
    | intro _

theorem Sound.execSpanBind {z s : State} (hz : Sound z s) (link : Nat) (src : Nat) (seq : Nat) (digest : List Byte) : SoundOut z (execSpanBind link src seq digest s) := by
  unfold Machine.execSpanBind
  try dsimp only
  repeat' first
    | with_reducible apply SoundOut.next
    | with_reducible exact hz
    | with_reducible assumption
    | with_reducible apply Sound.recvSpan
    | split
    | intro _

theorem Sound.execSpanClose {z s : State} (hz : Sound z s) (link : Nat) (src : Nat) (seq : Nat) : SoundOut z (execSpanClose link src seq s) := by
  unfold Machine.execSpanClose
  try dsimp only
  repeat' first
    | with_reducible apply SoundOut.next
    | with_reducible exact hz
    | with_reducible assumption
    | with_reducible apply Sound.recvSpan
    | split
    | intro _

theorem Sound.execSpanHeartbeatTimer {z s : State} (hz : Sound z s) (link : Nat) : SoundOut z (execSpanHeartbeatTimer link s) := by
  unfold Machine.execSpanHeartbeatTimer
  try dsimp only
  repeat' first
    | with_reducible apply SoundOut.next
    | with_reducible exact hz
    | with_reducible assumption
    | with_reducible apply Sound.sendSpan
    | with_reducible apply Sound.advanceTo
    | split
    | exact fun w => w.2.2.2
    | with_reducible refine Sound.of_pair (by assumption) ?_
    | intro _

theorem Sound.execSpanPeerDeadline {z s : State} (hz : Sound z s) (link : Nat) : SoundOut z (execSpanPeerDeadline link s) := by
  unfold Machine.execSpanPeerDeadline
  try dsimp only
  repeat' first
    | with_reducible apply SoundOut.next
    | with_reducible exact hz
    | with_reducible assumption
    | with_reducible apply Sound.peerLost
    | with_reducible apply Sound.advanceTo
    | split
    | exact fun w => w.2.2.2
    | with_reducible refine Sound.of_pair (by assumption) ?_
    | intro _

theorem Sound.execBindWindowExpiry {z s : State} (hz : Sound z s) (ctx : Nat) : SoundOut z (execBindWindowExpiry ctx s) := by
  unfold Machine.execBindWindowExpiry
  try dsimp only
  repeat' first
    | with_reducible apply SoundOut.next
    | with_reducible exact hz
    | with_reducible assumption
    | with_reducible apply Sound.advanceTo
    | with_reducible apply Sound.refuseLaunch
    | with_reducible apply Sound.sendCloses
    | split
    | exact fun w => w.2.2.2
    | with_reducible refine Sound.of_pair (by assumption) ?_
    | intro _

theorem Sound.discardStay {z s : State} (hz : Sound z s) (n : Nat) (peer : Nat) (tile : Nat) : Sound z (discardStay s n peer tile) := by
  unfold Machine.discardStay
  try dsimp only
  repeat' first
    | with_reducible exact hz
    | with_reducible assumption
    | with_reducible apply Sound.countCtx
    | with_reducible apply Sound.modAssoc
    | exact fun w => w.2.2.2
    | intro _

theorem Sound.holdStay {z s : State} (hz : Sound z s) (n : Nat) (tile : Nat) (peer : Nat) (f : StayFrame) : Sound z (holdStay s n tile peer f) := by
  unfold Machine.holdStay
  try dsimp only
  repeat' first
    | with_reducible exact hz
    | with_reducible assumption
    | with_reducible apply Sound.runStays
    | with_reducible apply Sound.modStay
    | with_reducible apply Sound.discardStay
    | with_reducible apply Sound.Coll_write
    | with_reducible apply SoundOpt.some
    | with_reducible exact SoundOpt.none _
    | split
    | exact fun w => w.2.2.2
    | intro _
    | with_reducible refine Sound.of_pair (by assumption) ?_
    | with_reducible apply Sound.record

theorem Sound.onStayBind {z s : State} (hz : Sound z s) (n : Nat) (peer : Nat) (A : Assoc) (digest : List Byte) : Sound z (onStayBind s n peer A digest) := by
  unfold Machine.onStayBind
  try dsimp only
  repeat' first
    | with_reducible exact hz
    | with_reducible assumption
    | with_reducible apply Sound.checkBound
    | with_reducible apply Sound.modAssoc
    | with_reducible apply Sound.refuseLaunch
    | split
    | exact fun w => w.2.2.2
    | intro _
    | with_reducible apply Sound.setTime

theorem Sound.actStay {z s : State} (hz : Sound z s) (n : Nat) (peer : Nat) (tile : Nat) (f : StayFrame) : Sound z (actStay s n peer tile f) := by
  unfold Machine.actStay
  try dsimp only
  repeat' first
    | with_reducible exact hz
    | with_reducible assumption
    | with_reducible apply Sound.onStayBind
    | with_reducible apply Sound.discardStay
    | with_reducible apply Sound.holdStay
    | with_reducible apply Sound.modAssoc
    | with_reducible apply Sound.drainBacklog
    | with_reducible apply Sound.peerLost
    | with_reducible apply SoundOpt.some
    | with_reducible exact SoundOpt.none _
    | split
    | exact fun w => w.2.2.2
    | intro _
    | with_reducible refine Sound.of_pair (by assumption) ?_
    | rfl
    | exact id
    | exact TollSound.refl _
    | (simp; done)
    | with_reducible apply Sound.setSched

theorem Sound.drainStay (k : Nat) {z s : State} (hz : Sound z s) (n x : Nat) : Sound z (drainStay k s n x) := by
  induction k generalizing s with
  | zero => exact hz
  | succ k ih =>
    unfold Machine.drainStay; split
    · exact hz
    · split
      · exact hz
      · exact ih (Sound.actStay (Sound.modAssoc hz n x _) ..)

theorem Sound.strayingStay {z s : State} (hz : Sound z s) (peer : Nat) (tile : Nat) (f : StayFrame) : Sound z (strayingStay s peer tile f) := by
  unfold Machine.strayingStay
  try dsimp only
  repeat' first
    | with_reducible exact hz
    | with_reducible assumption
    | with_reducible apply Sound.takeInbox
    | with_reducible apply Sound.peerLost
    | with_reducible apply Sound.discardStay
    | with_reducible apply Sound.discardFrame
    | with_reducible apply Sound.countCtx
    | with_reducible apply SoundOpt.some
    | with_reducible exact SoundOpt.none _
    | split
    | exact fun w => w.2.2.2
    | intro _
    | with_reducible refine Sound.of_pair (by assumption) ?_
    | rfl
    | exact id
    | exact TollSound.refl _
    | (simp; done)
    | with_reducible apply Sound.setSched

theorem Sound.recvStay {z s : State} (hz : Sound z s) (peer : Nat) (tile : Nat) (f : StayFrame) : Sound z (recvStay s peer tile f) := by
  unfold Machine.recvStay
  try dsimp only
  repeat' first
    | with_reducible exact hz
    | with_reducible assumption
    | with_reducible apply Sound.strayingStay
    | with_reducible apply Sound.takeInbox
    | with_reducible apply Sound.peerLost
    | with_reducible apply Sound.modAssoc
    | with_reducible apply Sound.drainStay
    | with_reducible apply SoundOpt.some
    | with_reducible exact SoundOpt.none _
    | split
    | exact fun w => w.2.2.2
    | intro _
    | with_reducible refine Sound.of_pair (by assumption) ?_
    | with_reducible apply Sound.setTime

theorem Sound.execStayData {z s : State} (hz : Sound z s) (peer : Nat) (tile : Nat) (seq : Nat) (entry : Nat) (piece : Nat) (last : Bool) (offset : Nat) (body : List Byte) : SoundOut z (execStayData peer tile seq entry piece last offset body s) := by
  unfold Machine.execStayData
  try dsimp only
  repeat' first
    | with_reducible apply SoundOut.next
    | with_reducible exact hz
    | with_reducible assumption
    | with_reducible apply Sound.recvStay
    | split
    | intro _

theorem Sound.execStayCredit {z s : State} (hz : Sound z s) (peer : Nat) (tile : Nat) (seq : Nat) (granted : Nat) : SoundOut z (execStayCredit peer tile seq granted s) := by
  unfold Machine.execStayCredit
  try dsimp only
  repeat' first
    | with_reducible apply SoundOut.next
    | with_reducible exact hz
    | with_reducible assumption
    | with_reducible apply Sound.recvStay
    | split
    | intro _

theorem Sound.execStayHeartbeat {z s : State} (hz : Sound z s) (peer : Nat) (tile : Nat) (seq : Nat) : SoundOut z (execStayHeartbeat peer tile seq s) := by
  unfold Machine.execStayHeartbeat
  try dsimp only
  repeat' first
    | with_reducible apply SoundOut.next
    | with_reducible exact hz
    | with_reducible assumption
    | with_reducible apply Sound.recvStay
    | split
    | intro _

theorem Sound.execStayAbandon {z s : State} (hz : Sound z s) (peer : Nat) (tile : Nat) (seq : Nat) (status : Nat) : SoundOut z (execStayAbandon peer tile seq status s) := by
  unfold Machine.execStayAbandon
  try dsimp only
  repeat' first
    | with_reducible apply SoundOut.next
    | with_reducible exact hz
    | with_reducible assumption
    | with_reducible apply Sound.recvStay
    | split
    | intro _

theorem Sound.execStayBind {z s : State} (hz : Sound z s) (peer : Nat) (tile : Nat) (seq : Nat) (digest : List Byte) : SoundOut z (execStayBind peer tile seq digest s) := by
  unfold Machine.execStayBind
  try dsimp only
  repeat' first
    | with_reducible apply SoundOut.next
    | with_reducible exact hz
    | with_reducible assumption
    | with_reducible apply Sound.recvStay
    | split
    | intro _

theorem Sound.execStayClose {z s : State} (hz : Sound z s) (peer : Nat) (tile : Nat) (seq : Nat) : SoundOut z (execStayClose peer tile seq s) := by
  unfold Machine.execStayClose
  try dsimp only
  repeat' first
    | with_reducible apply SoundOut.next
    | with_reducible exact hz
    | with_reducible assumption
    | with_reducible apply Sound.recvStay
    | split
    | intro _

theorem Sound.execStayTrailer {z s : State} (hz : Sound z s) (peer : Nat) (tile : Nat) (seq : Nat) (entry : Nat) (piece : Nat) (body : List Byte) : SoundOut z (execStayTrailer peer tile seq entry piece body s) := by
  unfold Machine.execStayTrailer
  try dsimp only
  repeat' first
    | with_reducible apply SoundOut.next
    | with_reducible exact hz
    | with_reducible assumption
    | with_reducible apply Sound.recvStay
    | split
    | intro _

theorem Sound.execStayHeartbeatTimer {z s : State} (hz : Sound z s) (peer : Nat) : SoundOut z (execStayHeartbeatTimer peer s) := by
  unfold Machine.execStayHeartbeatTimer
  try dsimp only
  repeat' first
    | with_reducible apply SoundOut.next
    | with_reducible exact hz
    | with_reducible assumption
    | with_reducible apply Sound.putStay
    | with_reducible apply Sound.advanceTo
    | split
    | exact fun w => w.2.2.2
    | with_reducible refine Sound.of_pair (by assumption) ?_
    | intro _

theorem Sound.execStayPeerDeadline {z s : State} (hz : Sound z s) (peer : Nat) : SoundOut z (execStayPeerDeadline peer s) := by
  unfold Machine.execStayPeerDeadline
  try dsimp only
  repeat' first
    | with_reducible apply SoundOut.next
    | with_reducible exact hz
    | with_reducible assumption
    | with_reducible apply Sound.peerLost
    | with_reducible apply Sound.advanceTo
    | split
    | exact fun w => w.2.2.2
    | with_reducible refine Sound.of_pair (by assumption) ?_
    | intro _

end Sys2Proof.Machine
end

