-- ==== Sys2Proof/Laws/SoundPylon.lean ====
section
/-! SUPPORT. Soundness of the operations of Machine/Pylon.lean (see Laws/Sound.lean). -/

namespace Sys2Proof.Machine

theorem Sound.failBonds {z s : State} (hz : Sound z s) (p : Nat) : Sound z (failBonds s p) := by
  unfold Machine.failBonds
  try dsimp only
  repeat' first
    | with_reducible exact hz
    | with_reducible assumption
    | with_reducible apply Sound.peerLost
    | with_reducible apply SoundOpt.some
    | with_reducible exact SoundOpt.none _
    | with_reducible apply Sound.foldl
    | split
    | exact fun w => w.2.2.2
    | intro _
    | with_reducible refine Sound.of_pair (by assumption) ?_

theorem Sound.endPortCommands {z s : State} (hz : Sound z s) (P : Port) : Sound z (endPortCommands s P) := by
  unfold Machine.endPortCommands
  try dsimp only
  repeat' first
    | with_reducible exact hz
    | with_reducible assumption
    | with_reducible apply Sound.finish
    | with_reducible apply SoundOpt.some
    | with_reducible exact SoundOpt.none _
    | with_reducible apply Sound.foldl
    | split
    | exact fun w => w.2.2.2
    | intro _
    | with_reducible refine Sound.of_pair (by assumption) ?_

theorem Sound.resend {z s : State} (hz : Sound z s) (p : Nat) (x : Option Nat × PylonFrame) : Sound z (resend p s x) := by
  unfold Machine.resend
  try dsimp only
  repeat' first
    | with_reducible exact hz
    | with_reducible assumption
    | with_reducible apply Sound.giveFrame
    | with_reducible apply Sound.sendRouted
    | with_reducible apply SoundOpt.some
    | with_reducible exact SoundOpt.none _
    | split
    | exact fun w => w.2.2.2
    | intro _
    | with_reducible refine Sound.of_pair (by assumption) ?_

theorem Sound.moveFrames {z s : State} (hz : Sound z s) (p : Nat) (fs : List (Option Nat × PylonFrame)) : Sound z (moveFrames s p fs) := by
  unfold Machine.moveFrames
  try dsimp only
  repeat' first
    | with_reducible exact hz
    | with_reducible assumption
    | with_reducible apply Sound.resend
    | with_reducible apply Sound.foldl
    | intro _

theorem Sound.switchOff {z s : State} (hz : Sound z s) (p : Nat) : Sound z (switchOff s p) := by
  unfold Machine.switchOff
  try dsimp only
  repeat' first
    | with_reducible exact hz
    | with_reducible assumption
    | with_reducible apply Sound.failBonds
    | with_reducible apply Sound.moveFrames
    | with_reducible apply Sound.endPortCommands
    | with_reducible apply Sound.modPort
    | intro _

theorem Sound.settleDisable {z s : State} (hz : Sound z s) (p : Nat) : Sound z (settleDisable s p) := by
  unfold Machine.settleDisable
  try dsimp only
  repeat' first
    | with_reducible exact hz
    | with_reducible assumption
    | with_reducible apply Sound.switchOff
    | split

theorem Sound.applyAck {z s : State} (hz : Sound z s) (p : Nat) (ack : Nat) : Sound z (applyAck s p ack) := by
  unfold Machine.applyAck
  try dsimp only
  repeat' first
    | with_reducible exact hz
    | with_reducible assumption
    | with_reducible apply Sound.modPort
    | with_reducible apply Sound.endActivity
    | with_reducible apply Sound.settleDisable
    | with_reducible apply Sound.pumpPort
    | split
    | exact fun w => w.2.2.2
    | intro _
    | with_reducible apply Sound.setTime

theorem Sound.failPort {z s : State} (hz : Sound z s) (p : Nat) (reason : Nat) : Sound z (failPort s p reason) := by
  unfold Machine.failPort
  try dsimp only
  repeat' first
    | with_reducible exact hz
    | with_reducible assumption
    | with_reducible apply Sound.modPort
    | with_reducible apply Sound.logError
    | with_reducible apply Sound.failBonds
    | with_reducible apply Sound.moveFrames
    | with_reducible apply Sound.endPortCommands
    | intro _

theorem Sound.giveUp {z s : State} (hz : Sound z s) (p : Nat) : Sound z (giveUp s p) := by
  unfold Machine.giveUp
  try dsimp only
  repeat' first
    | with_reducible exact hz
    | with_reducible assumption
    | with_reducible apply Sound.modPort
    | with_reducible apply Sound.endActivity
    | with_reducible apply Sound.count
    | with_reducible apply Sound.logError
    | with_reducible apply Sound.finish
    | with_reducible apply Sound.moveFrames
    | with_reducible apply Sound.failPort
    | with_reducible apply Sound.settleDisable
    | with_reducible apply Sound.failBonds
    | with_reducible apply SoundOpt.some
    | with_reducible exact SoundOpt.none _
    | split
    | exact fun w => w.2.2.2
    | intro _
    | with_reducible refine Sound.of_pair (by assumption) ?_
    | with_reducible apply Sound.setTime

theorem Sound.replay {z s : State} (hz : Sound z s) (p : Nat) : Sound z (replay s p) := by
  unfold Machine.replay
  try dsimp only
  repeat' first
    | with_reducible exact hz
    | with_reducible assumption
    | with_reducible apply Sound.giveUp
    | with_reducible apply Sound.modPort
    | with_reducible apply Sound.count
    | split
    | exact fun w => w.2.2.2
    | intro _
    | with_reducible apply Sound.setTime
    | with_reducible apply Sound.record

theorem Sound.sendNak {z s : State} (hz : Sound z s) (p : Nat) : Sound z (sendNak s p) := by
  unfold Machine.sendNak
  try dsimp only
  repeat' first
    | with_reducible exact hz
    | with_reducible assumption
    | with_reducible apply Sound.sendCtl
    | with_reducible apply Sound.modPort
    | with_reducible apply Sound.beginActivity
    | with_reducible apply Sound.count
    | split
    | exact fun w => w.2.2.2
    | intro _

theorem Sound.dropOdd {z s : State} (hz : Sound z s) (p : Nat) : Sound z (dropOdd s p) := by
  unfold Machine.dropOdd
  try dsimp only
  repeat' first
    | with_reducible exact hz
    | with_reducible assumption
    | with_reducible apply Sound.modPort
    | exact fun w => w.2.2.2
    | intro _

theorem Sound.deliverFrame {z s : State} (hz : Sound z s) (p : Nat) (f : PylonFrame) : Sound z (deliverFrame s p f) := by
  unfold Machine.deliverFrame
  try dsimp only
  repeat' first
    | with_reducible exact hz
    | with_reducible assumption
    | with_reducible apply Sound.recvSpan
    | with_reducible apply Sound.recvStay
    | with_reducible apply Sound.dropOdd
    | split
    | exact fun w => w.2.2.2
    | rfl
    | exact id
    | exact TollSound.refl _
    | (simp; done)
    | with_reducible apply Sound.setPylon

theorem Sound.forward {z s : State} (hz : Sound z s) (p : Nat) (f : PylonFrame) : Sound z (forward s p f) := by
  unfold Machine.forward
  try dsimp only
  repeat' first
    | with_reducible exact hz
    | with_reducible assumption
    | with_reducible apply Sound.regrant
    | with_reducible apply Sound.dropOdd
    | with_reducible apply Sound.deliverFrame
    | with_reducible apply Sound.discardFrame
    | with_reducible apply Sound.sendRouted
    | with_reducible apply SoundOpt.some
    | with_reducible exact SoundOpt.none _
    | split
    | exact fun w => w.2.2.2
    | intro _

theorem Sound.arriveNak {z s : State} (hz : Sound z s) (p : Nat) (lseq : Nat) : Sound z (arriveNak s p lseq) := by
  unfold Machine.arriveNak
  try dsimp only
  repeat' first
    | with_reducible exact hz
    | with_reducible assumption
    | with_reducible apply Sound.applyAck
    | with_reducible apply Sound.count
    | with_reducible apply Sound.replay
    | with_reducible apply Sound.beginActivity
    | split

theorem Sound.sendConfig {z s : State} (hz : Sound z s) (p : Nat) : Sound z (sendConfig s p) := by
  unfold Machine.sendConfig
  try dsimp only
  repeat' first
    | with_reducible exact hz
    | with_reducible assumption
    | with_reducible apply Sound.sendCtl
    | with_reducible apply SoundOpt.some
    | with_reducible exact SoundOpt.none _
    | split
    | exact fun w => w.2.2.2
    | with_reducible refine Sound.of_pair (by assumption) ?_

theorem Sound.activate {z s : State} (hz : Sound z s) (p : Nat) (pkg : Nat) (farPort : Nat) : Sound z (activate s p pkg farPort) := by
  unfold Machine.activate
  try dsimp only
  repeat' first
    | with_reducible exact hz
    | with_reducible assumption
    | with_reducible apply Sound.modPort
    | with_reducible apply Sound.dropArrivals
    | with_reducible apply Sound.sendCtl
    | with_reducible apply Sound.finish
    | with_reducible apply SoundOpt.some
    | with_reducible exact SoundOpt.none _
    | split
    | exact fun w => w.2.2.2
    | intro _
    | with_reducible refine Sound.of_pair (by assumption) ?_
    | with_reducible apply Sound.setTime
    | with_reducible apply Sound.setPkg
    | with_reducible apply Sound.record

theorem Sound.arriveConfig {z s : State} (hz : Sound z s) (p : Nat) (pkg : Nat) (farPort : Nat) (version : Nat) : Sound z (arriveConfig s p pkg farPort version) := by
  unfold Machine.arriveConfig
  try dsimp only
  repeat' first
    | with_reducible exact hz
    | with_reducible assumption
    | with_reducible apply Sound.sendConfig
    | with_reducible apply Sound.failPort
    | with_reducible apply Sound.logError
    | with_reducible apply Sound.activate
    | with_reducible apply SoundOpt.some
    | with_reducible exact SoundOpt.none _
    | split
    | exact fun w => w.2.2.2
    | with_reducible refine Sound.of_pair (by assumption) ?_
    | with_reducible apply Sound.setPkg

theorem Sound.withhold {z s : State} (hz : Sound z s) (p : Nat) : Sound z (withhold s p) := by
  unfold Machine.withhold
  try dsimp only
  repeat' first
    | with_reducible exact hz
    | with_reducible assumption
    | with_reducible apply Sound.moveFrames
    | with_reducible apply Sound.modPort
    | exact fun w => w.2.2.2
    | intro _

theorem Sound.arriveRecalReq {z s : State} (hz : Sound z s) (p : Nat) : Sound z (arriveRecalReq s p) := by
  unfold Machine.arriveRecalReq
  try dsimp only
  repeat' first
    | with_reducible exact hz
    | with_reducible assumption
    | with_reducible apply Sound.sendCtl
    | with_reducible apply Sound.modPort
    | with_reducible apply Sound.withhold
    | with_reducible apply SoundOpt.some
    | with_reducible exact SoundOpt.none _
    | split
    | exact fun w => w.2.2.2
    | intro _
    | with_reducible refine Sound.of_pair (by assumption) ?_
    | with_reducible apply Sound.setTime
    | with_reducible apply Sound.record

theorem Sound.arriveCtl {z s : State} (hz : Sound z s) (a : Arrival) (c : CtlFrame) : Sound z (arriveCtl s a c) := by
  unfold Machine.arriveCtl
  try dsimp only
  repeat' first
    | with_reducible exact hz
    | with_reducible assumption
    | with_reducible apply Sound.applyAck
    | with_reducible apply Sound.arriveConfig
    | with_reducible apply Sound.pumpPort
    | with_reducible apply Sound.modPort
    | with_reducible apply Sound.arriveNak
    | with_reducible apply Sound.arriveRecalReq
    | split
    | exact fun w => w.2.2.2
    | intro _
    | with_reducible refine Sound.of_pair (by assumption) ?_
    | with_reducible apply Sound.setPkg
    | with_reducible apply Sound.record

theorem Sound.arriveFrame {z s : State} (hz : Sound z s) (p : Nat) (f : PylonFrame) : Sound z (arriveFrame s p f) := by
  unfold Machine.arriveFrame
  try dsimp only
  repeat' first
    | with_reducible exact hz
    | with_reducible assumption
    | with_reducible apply Sound.arriveCtl
    | with_reducible apply Sound.dropOdd
    | with_reducible apply Sound.applyAck
    | with_reducible apply Sound.modPort
    | with_reducible apply Sound.forward
    | with_reducible apply Sound.count
    | with_reducible apply Sound.sendNak
    | with_reducible apply SoundOpt.some
    | with_reducible exact SoundOpt.none _
    | split
    | exact fun w => w.2.2.2
    | intro _
    | with_reducible refine Sound.of_pair (by assumption) ?_

theorem Sound.execFrameForward {z s : State} (hz : Sound z s) (port : Nat) (frame : WireFrame) : SoundOut z (execFrameForward port frame s) := by
  unfold Machine.execFrameForward
  try dsimp only
  repeat' first
    | with_reducible apply SoundOut.next
    | with_reducible exact hz
    | with_reducible assumption
    | with_reducible apply Sound.arriveFrame
    | with_reducible apply Sound.sendNak
    | with_reducible apply Sound.count
    | split
    | exact fun w => w.2.2.2
    | with_reducible refine Sound.of_pair (by assumption) ?_
    | intro _

theorem Sound.execLinkCredit {z s : State} (hz : Sound z s) (at_ : Arrival) (grants : List Nat) : SoundOut z (execLinkCredit at_ grants s) := by
  unfold Machine.execLinkCredit
  try dsimp only
  repeat' first
    | with_reducible apply SoundOut.next
    | with_reducible exact hz
    | with_reducible assumption
    | with_reducible apply Sound.arriveCtl
    | split
    | intro _

theorem Sound.execLinkCreditTimer {z s : State} (hz : Sound z s) (port : Nat) : SoundOut z (execLinkCreditTimer port s) := by
  unfold Machine.execLinkCreditTimer
  try dsimp only
  repeat' first
    | with_reducible apply SoundOut.next
    | with_reducible exact hz
    | with_reducible assumption
    | with_reducible apply Sound.sendCtl
    | split
    | intro _

theorem Sound.execNak {z s : State} (hz : Sound z s) (at_ : Arrival) (lseq : Nat) : SoundOut z (execNak at_ lseq s) := by
  unfold Machine.execNak
  try dsimp only
  repeat' first
    | with_reducible apply SoundOut.next
    | with_reducible exact hz
    | with_reducible assumption
    | with_reducible apply Sound.arriveCtl
    | intro _

theorem Sound.execPortReplayTimeout {z s : State} (hz : Sound z s) (port : Nat) : SoundOut z (execPortReplayTimeout port s) := by
  unfold Machine.execPortReplayTimeout
  try dsimp only
  repeat' first
    | with_reducible apply SoundOut.next
    | with_reducible exact hz
    | with_reducible assumption
    | with_reducible apply Sound.replay
    | with_reducible apply Sound.beginActivity
    | with_reducible apply Sound.advanceTo
    | split
    | intro _

theorem Sound.execHold {z s : State} (hz : Sound z s) (at_ : Arrival) (pkg : Nat) (farPort : Nat) : SoundOut z (execHold at_ pkg farPort s) := by
  unfold Machine.execHold
  try dsimp only
  repeat' first
    | with_reducible apply SoundOut.next
    | with_reducible exact hz
    | with_reducible assumption
    | with_reducible apply Sound.addHold
    | with_reducible apply Sound.takeInbox
    | split
    | intro _

theorem Sound.execHoldEnd {z s : State} (hz : Sound z s) (at_ : Arrival) (pkg : Nat) (farPort : Nat) : SoundOut z (execHoldEnd at_ pkg farPort s) := by
  unfold Machine.execHoldEnd
  try dsimp only
  repeat' first
    | with_reducible apply SoundOut.next
    | with_reducible exact hz
    | with_reducible assumption
    | with_reducible apply Sound.endHold
    | with_reducible apply Sound.takeInbox
    | split
    | intro _

theorem Sound.execHoldTimeout {z s : State} (hz : Sound z s) (pkg : Nat) (farPort : Nat) : SoundOut z (execHoldTimeout pkg farPort s) := by
  unfold Machine.execHoldTimeout
  try dsimp only
  repeat' first
    | with_reducible apply SoundOut.next
    | with_reducible exact hz
    | with_reducible assumption
    | with_reducible apply Sound.dropHold
    | with_reducible apply Sound.advanceTo
    | split
    | exact fun w => w.2.2.2
    | with_reducible refine Sound.of_pair (by assumption) ?_
    | with_reducible apply Sound.setPkg
    | intro _

theorem Sound.execPortGiveUp {z s : State} (hz : Sound z s) (port : Nat) (lostLock : Bool) : SoundOut z (execPortGiveUp port lostLock s) := by
  unfold Machine.execPortGiveUp
  try dsimp only
  repeat' first
    | with_reducible apply SoundOut.next
    | with_reducible exact hz
    | with_reducible assumption
    | with_reducible apply Sound.giveUp
    | with_reducible apply Sound.advanceTo
    | split
    | exact fun w => w.2.2.2
    | with_reducible refine Sound.of_pair (by assumption) ?_
    | intro _

theorem Sound.trainTo {z s : State} (hz : Sound z s) (p : Nat) (st : PortState) (sub : Nat) : Sound z (trainTo s p st sub) := by
  unfold Machine.trainTo
  try dsimp only
  repeat' first
    | with_reducible exact hz
    | with_reducible assumption
    | with_reducible apply Sound.modPort
    | split
    | exact fun w => w.2.2.2
    | intro _
    | with_reducible apply Sound.setTime
    | with_reducible apply Sound.record

theorem Sound.execPortSignalDetect {z s : State} (hz : Sound z s) (port : Nat) : SoundOut z (execPortSignalDetect port s) := by
  unfold Machine.execPortSignalDetect
  try dsimp only
  repeat' first
    | with_reducible apply SoundOut.next
    | with_reducible exact hz
    | with_reducible assumption
    | with_reducible apply Sound.trainTo
    | split
    | intro _

theorem Sound.execEqualiseComplete {z s : State} (hz : Sound z s) (port : Nat) : SoundOut z (execEqualiseComplete port s) := by
  unfold Machine.execEqualiseComplete
  try dsimp only
  repeat' first
    | with_reducible apply SoundOut.next
    | with_reducible exact hz
    | with_reducible assumption
    | with_reducible apply Sound.trainTo
    | split
    | intro _

theorem Sound.execAlignComplete {z s : State} (hz : Sound z s) (port : Nat) : SoundOut z (execAlignComplete port s) := by
  unfold Machine.execAlignComplete
  try dsimp only
  repeat' first
    | with_reducible apply SoundOut.next
    | with_reducible exact hz
    | with_reducible assumption
    | with_reducible apply Sound.sendConfig
    | with_reducible apply Sound.trainTo
    | split
    | intro _

theorem Sound.execConfig {z s : State} (hz : Sound z s) (at_ : Arrival) (pkg : Nat) (farPort : Nat) (version : Nat) (retryKib : Nat) : SoundOut z (execConfig at_ pkg farPort version retryKib s) := by
  unfold Machine.execConfig
  try dsimp only
  repeat' first
    | with_reducible apply SoundOut.next
    | with_reducible exact hz
    | with_reducible assumption
    | with_reducible apply Sound.arriveCtl
    | intro _

theorem Sound.execConfigResendTimer {z s : State} (hz : Sound z s) (port : Nat) : SoundOut z (execConfigResendTimer port s) := by
  unfold Machine.execConfigResendTimer
  try dsimp only
  repeat' first
    | with_reducible apply SoundOut.next
    | with_reducible exact hz
    | with_reducible assumption
    | with_reducible apply Sound.sendConfig
    | split
    | intro _

theorem Sound.failAttempt {z s : State} (hz : Sound z s) (p : Nat) : Sound z (failAttempt s p) := by
  unfold Machine.failAttempt
  try dsimp only
  repeat' first
    | with_reducible exact hz
    | with_reducible assumption
    | with_reducible apply Sound.failPort
    | with_reducible apply Sound.modPort
    | split
    | exact fun w => w.2.2.2
    | intro _
    | with_reducible apply Sound.setTime

theorem Sound.execPortTrainingTimeout {z s : State} (hz : Sound z s) (port : Nat) : SoundOut z (execPortTrainingTimeout port s) := by
  unfold Machine.execPortTrainingTimeout
  try dsimp only
  repeat' first
    | with_reducible apply SoundOut.next
    | with_reducible exact hz
    | with_reducible assumption
    | with_reducible apply Sound.failPort
    | with_reducible apply Sound.advanceTo
    | with_reducible apply Sound.failAttempt
    | split
    | exact fun w => w.2.2.2
    | with_reducible refine Sound.of_pair (by assumption) ?_
    | intro _

theorem Sound.execPortBerCheck {z s : State} (hz : Sound z s) (port : Nat) (berE12 : Nat) : SoundOut z (execPortBerCheck port berE12 s) := by
  unfold Machine.execPortBerCheck
  try dsimp only
  repeat' first
    | with_reducible apply SoundOut.next
    | with_reducible exact hz
    | with_reducible assumption
    | with_reducible apply Sound.modPort
    | with_reducible apply Sound.logError
    | split
    | exact fun w => w.2.2.2
    | intro _

theorem Sound.execRecalReq {z s : State} (hz : Sound z s) (at_ : Arrival) : SoundOut z (execRecalReq at_ s) := by
  unfold Machine.execRecalReq
  try dsimp only
  repeat' first
    | with_reducible apply SoundOut.next
    | with_reducible exact hz
    | with_reducible assumption
    | with_reducible apply Sound.arriveCtl
    | intro _

theorem Sound.execRecalReqResendTimer {z s : State} (hz : Sound z s) (port : Nat) : SoundOut z (execRecalReqResendTimer port s) := by
  unfold Machine.execRecalReqResendTimer
  try dsimp only
  repeat' first
    | with_reducible apply SoundOut.next
    | with_reducible exact hz
    | with_reducible assumption
    | with_reducible apply Sound.sendCtl
    | split
    | intro _

theorem Sound.execRecalAck {z s : State} (hz : Sound z s) (at_ : Arrival) : SoundOut z (execRecalAck at_ s) := by
  unfold Machine.execRecalAck
  try dsimp only
  repeat' first
    | with_reducible apply SoundOut.next
    | with_reducible exact hz
    | with_reducible assumption
    | with_reducible apply Sound.arriveCtl
    | intro _

theorem Sound.execRecalAckTimeout {z s : State} (hz : Sound z s) (port : Nat) : SoundOut z (execRecalAckTimeout port s) := by
  unfold Machine.execRecalAckTimeout
  try dsimp only
  repeat' first
    | with_reducible apply SoundOut.next
    | with_reducible exact hz
    | with_reducible assumption
    | with_reducible apply Sound.advanceTo
    | with_reducible apply Sound.modPort
    | with_reducible apply Sound.finish
    | split
    | exact fun w => w.2.2.2
    | with_reducible refine Sound.of_pair (by assumption) ?_
    | intro _

theorem Sound.execRecalEnter {z s : State} (hz : Sound z s) (port : Nat) : SoundOut z (execRecalEnter port s) := by
  unfold Machine.execRecalEnter
  try dsimp only
  repeat' first
    | with_reducible apply SoundOut.next
    | with_reducible exact hz
    | with_reducible assumption
    | with_reducible apply Sound.failBonds
    | with_reducible apply Sound.modPort
    | split
    | exact fun w => w.2.2.2
    | with_reducible apply Sound.setTime
    | intro _

theorem Sound.portCtl {z s : State} (hz : Sound z s) (q seq action : Nat) (f : State → Taken → Nat → State)
    (hf : ∀ t x p, Sound z t → Sound z (f t x p)) : Sound z (portCtl s q seq action f) := by
  unfold Machine.portCtl
  refine hz.onCmd _ _ _ _ fun t x ht => ?_
  split
  · exact ht.refuse ..
  · split
    · exact hf _ _ _ ht
    · exact hz

theorem Sound.execPortDisable {z s : State} (hz : Sound z s) (q : Nat) (seq : Nat) : SoundOut z (execPortDisable q seq s) := by
  unfold Machine.execPortDisable
  try dsimp only
  repeat' first
    | with_reducible apply SoundOut.next
    | with_reducible exact hz
    | with_reducible assumption
    | with_reducible apply Sound.portCtl
    | with_reducible apply Sound.settleDisable
    | with_reducible apply Sound.refuse
    | with_reducible apply Sound.withhold
    | with_reducible apply Sound.modPort
    | with_reducible apply Sound.finish
    | with_reducible apply Sound.switchOff
    | split
    | exact fun w => w.2.2.2
    | intro _

theorem Sound.execPortEnable {z s : State} (hz : Sound z s) (q : Nat) (seq : Nat) : SoundOut z (execPortEnable q seq s) := by
  unfold Machine.execPortEnable
  try dsimp only
  repeat' first
    | with_reducible apply SoundOut.next
    | with_reducible exact hz
    | with_reducible assumption
    | with_reducible apply Sound.portCtl
    | with_reducible apply Sound.finish
    | with_reducible apply Sound.modPort
    | with_reducible apply Sound.refuse
    | split
    | exact fun w => w.2.2.2
    | with_reducible apply Sound.setTime
    | intro _

theorem Sound.execPortRecalibrate {z s : State} (hz : Sound z s) (q : Nat) (seq : Nat) : SoundOut z (execPortRecalibrate q seq s) := by
  unfold Machine.execPortRecalibrate
  try dsimp only
  repeat' first
    | with_reducible apply SoundOut.next
    | with_reducible exact hz
    | with_reducible assumption
    | with_reducible apply Sound.portCtl
    | with_reducible apply Sound.refuse
    | with_reducible apply Sound.modPort
    | with_reducible apply Sound.sendCtl
    | with_reducible apply Sound.withhold
    | split
    | exact fun w => w.2.2.2
    | with_reducible refine Sound.of_pair (by assumption) ?_
    | with_reducible apply Sound.setTime
    | with_reducible apply Sound.record
    | intro _

theorem Sound.execPkgIdSet {z s : State} (hz : Sound z s) (q : Nat) (seq : Nat) : SoundOut z (execPkgIdSet q seq s) := by
  unfold Machine.execPkgIdSet
  try dsimp only
  repeat' first
    | with_reducible apply SoundOut.next
    | with_reducible exact hz
    | with_reducible assumption
    | with_reducible apply Sound.onCmd
    | with_reducible apply Sound.refuse
    | with_reducible apply Sound.sendConfig
    | with_reducible apply Sound.modPort
    | with_reducible apply Sound.finish
    | with_reducible apply Sound.foldl
    | split
    | exact fun w => w.2.2.2
    | rfl
    | exact id
    | exact TollSound.refl _
    | (simp; done)
    | with_reducible apply Sound.setTime
    | with_reducible apply Sound.setPylon
    | with_reducible apply Sound.record
    | intro _ _ _
    | intro _

theorem Sound.execRouteLoad {z s : State} (hz : Sound z s) (q : Nat) (seq : Nat) : SoundOut z (execRouteLoad q seq s) := by
  unfold Machine.execRouteLoad
  try dsimp only
  repeat' first
    | with_reducible apply SoundOut.next
    | with_reducible exact hz
    | with_reducible assumption
    | with_reducible apply Sound.onCmd
    | with_reducible apply Sound.refuse
    | with_reducible apply Sound.finish
    | with_reducible apply Sound.foldl
    | split
    | exact fun w => w.2.2.2
    | rfl
    | exact id
    | exact TollSound.refl _
    | (simp; done)
    | with_reducible apply Sound.setPylon
    | intro _ _ _
    | intro _

theorem Sound.execRouteCommit {z s : State} (hz : Sound z s) (q : Nat) (seq : Nat) : SoundOut z (execRouteCommit q seq s) := by
  unfold Machine.execRouteCommit
  try dsimp only
  repeat' first
    | with_reducible apply SoundOut.next
    | with_reducible exact hz
    | with_reducible assumption
    | with_reducible apply Sound.onCmd
    | with_reducible apply Sound.finish
    | with_reducible apply Sound.refuse
    | split
    | exact fun w => w.2.2.2
    | rfl
    | exact id
    | exact TollSound.refl _
    | (simp; done)
    | with_reducible apply Sound.setPylon
    | intro _ _ _
    | intro _

end Sys2Proof.Machine
end

