-- ==== Sys2Proof/Laws/SoundIdentity.lean ====
section
/-! SUPPORT. Soundness of the operations of Machine/Identity.lean (see Laws/Sound.lean). -/

namespace Sys2Proof.Machine

theorem Sound.reserveIndex {z s : State} (hz : Sound z s) : Sound z (reserveIndex s) := by
  unfold Machine.reserveIndex; split
  · exact hz
  · refine Sound.logError (Sound.retireBlocks (Sound.setToll hz ?_)) _ _ _ _ _ _ _
    exact (TollSound.refl _).commit 2 (by simp [Late])

/-- A reservation leaves the next index alone (R393). -/
theorem reserveIndex_q (s : State) : (reserveIndex s).toll.q = s.toll.q := by
  unfold reserveIndex
  split
  · rfl
  · dsimp only
    rw [(logError_index _ _ _ _ _ _ _ _).1, (retireBlocks_index _).1]
    exact ((commitRecords_extends (ok := fun _ => True) s.toll 2 (bs := [.indexReserve (s.toll.q + 64)]) (by simp [Late])
      fun _ _ _ => trivial).index rfl).2.2.1

theorem useIndex_parts (t : Tollhouse) : useIndex t = { t with q := t.q + 1, subtree := (useIndex t).subtree
                                                               nextSubtree := (useIndex t).nextSubtree } := by
  unfold useIndex; split <;> rfl

/-- An index below the limit may be used (R393). -/
theorem TollSound.useIndex {t : Tollhouse} (h : t.q < indexLimit t) : TollSound t (useIndex t) := by
  rw [useIndex_parts]
  exact ⟨id, fun w => ⟨w, le_refl _, fun _ => h⟩, id⟩

theorem Sound.signDigest {z s : State} (hz : Sound z s) (d : List Byte) : Sound z (signDigest s d).1 := by
  unfold Machine.signDigest; split
  · exact hz
  · dsimp only; split
    · exact hz.reserveIndex
    · rename_i h
      exact Sound.setToll hz.reserveIndex (TollSound.useIndex (Nat.lt_of_not_le h))

theorem Sound.execSubtreeCompute {z s : State} (hz : Sound z s)  : SoundOut z (execSubtreeCompute s) := by
  unfold Machine.execSubtreeCompute
  try dsimp only
  repeat' first
    | with_reducible apply SoundOut.next
    | with_reducible exact hz
    | with_reducible assumption
    | split
    | exact fun w => w.2.2.2
    | rfl
    | exact id
    | exact TollSound.refl _
    | (simp; done)
    | with_reducible apply Sound.setToll
    | intro _

end Sys2Proof.Machine
end

