-- ==== Sys2Proof/Laws/SoundCaisson.lean ====
section
/-! SUPPORT. Soundness of the operations of Machine/Caisson.lean (see Laws/Sound.lean). -/

namespace Sys2Proof.Machine

theorem Sound.writeHalf {z s : State} (hz : Sound z s) (half k off : Nat) (bs : List Byte) : Sound z (writeHalf s half k off bs) :=
  hz.setHbm _ (fun w => Hbm.wf_write w _ _) rfl

theorem Sound.clearHalf {z s : State} (hz : Sound z s) (half : Nat) : Sound z (clearHalf s half) := by
  unfold Machine.clearHalf
  try dsimp only
  repeat' first
    | with_reducible exact hz
    | with_reducible assumption
    | with_reducible apply Sound.writeHalf
    | with_reducible apply Sound.foldl
    | intro _

theorem Sound.logHalf {z s : State} (hz : Sound z s) (ctx : Nat) (k : Nat) (a : Nat) (n : Nat) : Sound z (logHalf s ctx k a n) := by
  unfold Machine.logHalf
  try dsimp only
  repeat' first
    | with_reducible exact hz
    | with_reducible assumption
    | with_reducible apply Sound.logUncorrectable
    | with_reducible apply Sound.foldl
    | intro _

theorem Sound.startCkpt {z s : State} (hz : Sound z s) (c : Context) (im : Image) (cfg : CkptConfig) (boundary : Nat) : Sound z (startCkpt s c im cfg boundary) := by
  unfold Machine.startCkpt
  try dsimp only
  repeat' first
    | with_reducible exact hz
    | with_reducible assumption
    | with_reducible apply Sound.readCommits
    | with_reducible apply Sound.clearHalf
    | with_reducible apply SoundOpt.some
    | with_reducible exact SoundOpt.none _
    | exact fun w => w.2.2.2
    | intro _
    | with_reducible apply Sound.setTime
    | with_reducible apply Sound.setCaisson
    | with_reducible apply Sound.record

theorem Sound.takeEffect {z s : State} (hz : Sound z s) (n : Nat) : Sound z (takeEffect s n) := by
  unfold Machine.takeEffect
  try dsimp only
  repeat' first
    | with_reducible exact hz
    | with_reducible assumption
    | with_reducible apply SoundOpt.some
    | with_reducible exact SoundOpt.none _
    | split
    | exact fun w => w.2.2.2
    | with_reducible refine Sound.of_pair (by assumption) ?_
    | with_reducible apply Sound.setTime
    | with_reducible apply Sound.setCaisson
    | with_reducible apply Sound.record

theorem Sound.capture {z s : State} (hz : Sound z s) (n : Nat) (im : Image) : Sound z (capture s n im) := by
  unfold Machine.capture
  try dsimp only
  repeat' first
    | with_reducible exact hz
    | with_reducible assumption
    | with_reducible apply Sound.takeEffect
    | with_reducible apply Sound.startCkpt
    | with_reducible apply SoundOpt.some
    | with_reducible exact SoundOpt.none _
    | split
    | exact fun w => w.2.2.2
    | intro _
    | with_reducible refine Sound.of_pair (by assumption) ?_
    | with_reducible apply Sound.setTime
    | with_reducible apply Sound.setCaisson
    | with_reducible apply Sound.record

theorem Sound.execCapturePoint {z s : State} (hz : Sound z s)  : SoundOut z (execCapturePoint s) := by
  unfold Machine.execCapturePoint
  try dsimp only
  repeat' first
    | with_reducible apply SoundOut.next
    | with_reducible exact hz
    | with_reducible assumption
    | with_reducible apply Sound.capture
    | with_reducible apply Sound.passFence
    | split
    | exact fun w => w.2.2.2
    | with_reducible refine Sound.of_pair (by assumption) ?_
    | intro _

theorem Sound.execCkptTimerDue {z s : State} (hz : Sound z s)  : SoundOut z (execCkptTimerDue s) := by
  unfold Machine.execCkptTimerDue
  try dsimp only
  repeat' first
    | with_reducible apply SoundOut.next
    | with_reducible exact hz
    | with_reducible assumption
    | with_reducible apply Sound.advanceTo
    | split
    | exact fun w => w.2.2.2
    | with_reducible refine Sound.of_pair (by assumption) ?_
    | with_reducible apply Sound.setCaisson
    | intro _

theorem Sound.execCkptGranuleCopy {z s : State} (hz : Sound z s) (stack : Nat) : SoundOut z (execCkptGranuleCopy stack s) := by
  unfold Machine.execCkptGranuleCopy
  try dsimp only
  repeat' first
    | with_reducible apply SoundOut.next
    | with_reducible exact hz
    | with_reducible assumption
    | with_reducible apply Sound.Issue_run
    | with_reducible apply Sound.copyBeforeList
    | with_reducible apply Sound.faultContext
    | split
    | exact fun w => w.2.2.2
    | with_reducible refine Sound.of_pair (by assumption) ?_
    | intro _

theorem Sound.execShardDigest {z s : State} (hz : Sound z s) (stack : Nat) : SoundOut z (execShardDigest stack s) := by
  unfold Machine.execShardDigest
  try dsimp only
  repeat' first
    | with_reducible apply SoundOut.next
    | with_reducible exact hz
    | with_reducible assumption
    | with_reducible apply Sound.Issue_run
    | with_reducible apply Sound.correctRange
    | with_reducible apply Sound.writeHalf
    | with_reducible apply Sound.abandonCkpt
    | with_reducible apply Sound.logHalf
    | with_reducible apply Sound.foldl
    | split
    | exact fun w => w.2.2.2
    | with_reducible refine Sound.of_pair (by assumption) ?_
    | with_reducible apply Sound.setCaisson
    | with_reducible apply Sound.record
    | intro _

theorem Sound.signManifest {z s : State} (hz : Sound z s) (run : CkptRun) : Sound z (signManifest s run).1 := by
  unfold Machine.signManifest
  try dsimp only
  repeat' first
    | with_reducible exact hz
    | with_reducible assumption
    | with_reducible apply Sound.signDigest
    | with_reducible apply Sound.logError
    | with_reducible apply SoundOpt.some
    | with_reducible exact SoundOpt.none _
    | split
    | exact fun w => w.2.2.2
    | with_reducible refine Sound.of_pair (by assumption) ?_

theorem Sound.writeGeneration {z s : State} (hz : Sound z s) (half : Nat) (manifest : List Byte) (record : List Byte) : Sound z (writeGeneration s half manifest record) := by
  unfold Machine.writeGeneration
  try dsimp only
  repeat' first
    | with_reducible exact hz
    | with_reducible assumption
    | with_reducible apply Sound.writeHalf
    | with_reducible apply Sound.foldl
    | intro _

theorem Sound.execCkptCommit {z s : State} (hz : Sound z s)  : SoundOut z (execCkptCommit s) := by
  unfold Machine.execCkptCommit
  try dsimp only
  repeat' first
    | with_reducible apply SoundOut.next
    | with_reducible exact hz
    | with_reducible assumption
    | with_reducible apply Sound.Issue_run
    | with_reducible apply Sound.signManifest
    | with_reducible apply Sound.readCommits
    | with_reducible apply Sound.ckptReport
    | with_reducible apply Sound.writeGeneration
    | with_reducible apply Sound.settleRelease
    | split
    | exact fun w => w.2.2.2
    | with_reducible refine Sound.of_pair (by assumption) ?_
    | with_reducible apply Sound.setCaisson
    | intro _

theorem Sound.execCkptConfig {z s : State} (hz : Sound z s) (q : Nat) (seq : Nat) : SoundOut z (execCkptConfig q seq s) := by
  unfold Machine.execCkptConfig
  try dsimp only
  repeat' first
    | with_reducible apply SoundOut.next
    | with_reducible exact hz
    | with_reducible assumption
    | with_reducible apply Sound.onCmd
    | with_reducible apply Sound.refuse
    | with_reducible apply Sound.settleRelease
    | with_reducible apply Sound.finish
    | split
    | exact fun w => w.2.2.2
    | with_reducible refine Sound.of_pair (by assumption) ?_
    | with_reducible apply Sound.setCaisson
    | intro _ _ _
    | intro _

theorem Sound.execCkptTake {z s : State} (hz : Sound z s) (q : Nat) (seq : Nat) : SoundOut z (execCkptTake q seq s) := by
  unfold Machine.execCkptTake
  try dsimp only
  repeat' first
    | with_reducible apply SoundOut.next
    | with_reducible exact hz
    | with_reducible assumption
    | with_reducible apply Sound.onCmd
    | with_reducible apply Sound.refuse
    | with_reducible apply Sound.finish
    | split
    | exact fun w => w.2.2.2
    | with_reducible apply Sound.setCaisson
    | intro _ _ _
    | intro _

theorem Sound.execCkptQuery {z s : State} (hz : Sound z s) (q : Nat) (seq : Nat) : SoundOut z (execCkptQuery q seq s) := by
  unfold Machine.execCkptQuery
  try dsimp only
  repeat' first
    | with_reducible apply SoundOut.next
    | with_reducible exact hz
    | with_reducible assumption
    | with_reducible apply Sound.onCmd
    | with_reducible apply Sound.readCommits
    | with_reducible apply Sound.finish
    | intro _ _ _
    | intro _

theorem Sound.execCkptDiscard {z s : State} (hz : Sound z s) (q : Nat) (seq : Nat) : SoundOut z (execCkptDiscard q seq s) := by
  unfold Machine.execCkptDiscard
  try dsimp only
  repeat' first
    | with_reducible apply SoundOut.next
    | with_reducible exact hz
    | with_reducible assumption
    | with_reducible apply Sound.onCmd
    | with_reducible apply Sound.refuse
    | with_reducible apply Sound.finish
    | with_reducible apply Sound.clearHalf
    | split
    | intro _ _ _
    | intro _

theorem Sound.readManifest (n half : Nat) (ks : List Nat) {z s : State} (hz : Sound z s) : Sound z (readManifest n half ks s).1 := by
  induction ks generalizing s with
  | nil => exact hz
  | cons k ks ih =>
    unfold Machine.readManifest; dsimp only; split
    · rename_i e
      split
      · exact Sound.of_pair e (hz.senseHbm ..)
      · exact ih (Sound.of_pair e (hz.senseHbm ..))
    · rename_i e; exact ih (Sound.of_pair e (hz.senseHbm ..))

theorem Sound.badRecords (n half step : Nat) (hs : List Shard) {z s : State} (hz : Sound z s) :
    Sound z (badRecords n half step hs s).1 := by
  induction hs generalizing s with
  | nil => exact hz
  | cons h hs ih => exact ih (hz.senseHbm ..)

theorem Sound.checkShards (n half : Nat) (hs : List Shard) {z s : State} (hz : Sound z s) : Sound z (checkShards n half hs s).1 := by
  induction hs generalizing s with
  | nil => exact hz
  | cons h hs ih =>
    unfold Machine.checkShards; dsimp only
    split <;> exact ih ((hz.footPath ..).senseHbm ..)

theorem Sound.refuseShards {z s : State} (hz : Sound z s) (t : Taken) (status check : Nat) (hs : List Shard) :
    Sound z (refuseShards s t status check hs) := Sound.finish (hz.postHost _ _) _ _ _ _

theorem Sound.restoreShards {z s : State} (hz : Sound z s) (n half : Nat) (hs : List Shard) : Sound z (restoreShards s n half hs) := by
  unfold Machine.restoreShards
  refine Sound.foldl hz fun t h ht => ?_
  exact Sound.count (Sound.storeInside (ht.footPath ..) _ _ _ fun _ => ⟨fun w => Hbm.wf_copy w _ _ _, rfl⟩) _ _ _ _

theorem Sound.restoreFrom {z s : State} (hz : Sound z s) (t : Taken) (half : Nat) (b : List Byte) (im : Image) : Sound z (restoreFrom s t half b im) := by
  unfold Machine.restoreFrom
  try dsimp only
  repeat' first
    | with_reducible exact hz
    | with_reducible assumption
    | with_reducible apply Sound.finish
    | with_reducible apply Sound.badRecords
    | with_reducible apply Sound.checkShards
    | with_reducible apply Sound.restoreShards
    | with_reducible apply Sound.modCtx
    | with_reducible apply Sound.refuseShards
    | split
    | exact fun w => w.2.2.2
    | intro _
    | with_reducible refine Sound.of_pair (by assumption) ?_
    | with_reducible apply Sound.setCaisson
    | with_reducible apply Sound.record

theorem Sound.execCkptRestore {z s : State} (hz : Sound z s) (q : Nat) (seq : Nat) : SoundOut z (execCkptRestore q seq s) := by
  unfold Machine.execCkptRestore
  try dsimp only
  repeat' first
    | with_reducible apply SoundOut.next
    | with_reducible exact hz
    | with_reducible assumption
    | with_reducible apply Sound.onCmd
    | with_reducible apply Sound.finish
    | with_reducible apply Sound.readCommits
    | with_reducible apply Sound.readManifest
    | with_reducible apply Sound.restoreFrom
    | split
    | exact fun w => w.2.2.2
    | with_reducible refine Sound.of_pair (by assumption) ?_
    | with_reducible apply Sound.setCaisson
    | intro _ _ _
    | intro _

theorem Sound.readPieces (n : Nat) (ps : List (Nat × Nat × Nat)) {z s : State} (hz : Sound z s) : Sound z (readPieces n ps s).1 := by
  unfold Machine.readPieces
  generalize (some [] : Option (List Byte)) = o
  induction ps generalizing s o with
  | nil => exact hz
  | cons p ps ih => exact ih (hz.readHbm ..) _

theorem Sound.execCkptExport {z s : State} (hz : Sound z s) (q : Nat) (seq : Nat) : SoundOut z (execCkptExport q seq s) := by
  unfold Machine.execCkptExport
  try dsimp only
  repeat' first
    | with_reducible apply SoundOut.next
    | with_reducible exact hz
    | with_reducible assumption
    | with_reducible apply Sound.onCmd
    | with_reducible apply Sound.readCommits
    | with_reducible apply Sound.refuse
    | with_reducible apply Sound.senseHbm
    | with_reducible apply Sound.readPieces
    | with_reducible apply Sound.finish
    | with_reducible apply Sound.postHost
    | split
    | exact fun w => w.2.2.2
    | with_reducible refine Sound.of_pair (by assumption) ?_
    | intro _ _ _
    | intro _

theorem Sound.importShards (half : Nat) (b : List Byte) (hs : List Shard) (o : Nat) {z s : State} (hz : Sound z s) :
    Sound z (importShards half b o hs s).1 := by
  induction hs generalizing o s with
  | nil => exact hz
  | cons h hs ih =>
    unfold Machine.importShards; dsimp only; split
    · exact hz
    · exact ih _ ((hz.writeHalf ..).writeHalf ..)

theorem Sound.execCkptImport {z s : State} (hz : Sound z s) (q : Nat) (seq : Nat) (stream : HostRead) : SoundOut z (execCkptImport q seq stream s) := by
  unfold Machine.execCkptImport
  try dsimp only
  repeat' first
    | with_reducible apply SoundOut.next
    | with_reducible exact hz
    | with_reducible assumption
    | with_reducible apply Sound.onCmd
    | with_reducible apply Sound.finish
    | with_reducible apply Sound.refuse
    | with_reducible apply Sound.readCommits
    | with_reducible apply Sound.writeHalf
    | with_reducible apply Sound.clearHalf
    | with_reducible apply Sound.importShards
    | with_reducible apply Sound.foldl
    | split
    | exact fun w => w.2.2.2
    | with_reducible refine Sound.of_pair (by assumption) ?_
    | intro _ _ _
    | intro _

end Sys2Proof.Machine
end

