-- ==== Sys2Proof/Laws/SoundApproach.lean ====
section
/-! SUPPORT. Soundness of the operations of Machine/Approach.lean (see Laws/Sound.lean). -/

namespace Sys2Proof.Machine

theorem Sound.execAprConfig {z s : State} (hz : Sound z s) (q : Nat) (seq : Nat) : SoundOut z (execAprConfig q seq s) := by
  unfold Machine.execAprConfig
  try dsimp only
  repeat' first
    | with_reducible apply SoundOut.next
    | with_reducible exact hz
    | with_reducible assumption
    | with_reducible apply Sound.onCmd
    | with_reducible apply Sound.refuse
    | with_reducible apply Sound.finish
    | with_reducible apply Sound.modCtx
    | split
    | exact fun w => w.2.2.2
    | with_reducible refine Sound.of_pair (by assumption) ?_
    | with_reducible apply Sound.setApr
    | intro _ _ _
    | intro _

theorem Sound.modFeed {z s : State} (hz : Sound z s) (q : Nat) (seq : Nat) (g : Feed → Feed) : Sound z (modFeed s q seq g) := by
  unfold Machine.modFeed
  try dsimp only
  repeat' first
    | with_reducible exact hz
    | with_reducible assumption
    | split
    | exact fun w => w.2.2.2
    | intro _
    | with_reducible apply Sound.setApr

theorem Sound.execAprFeed {z s : State} (hz : Sound z s) (q : Nat) (seq : Nat) (items : HostRead) : SoundOut z (execAprFeed q seq items s) := by
  unfold Machine.execAprFeed
  try dsimp only
  repeat' first
    | with_reducible apply SoundOut.next
    | with_reducible exact hz
    | with_reducible assumption
    | with_reducible apply Sound.onUnit
    | with_reducible apply Sound.refuse
    | with_reducible apply Sound.finish
    | split
    | exact fun w => w.2.2.2
    | with_reducible refine Sound.of_pair (by assumption) ?_
    | with_reducible apply Sound.setApr
    | intro _

theorem Sound.unitFault {z s : State} (hz : Sound z s) (q : Nat) (seq : Nat) (status : Nat) : Sound z (unitFault s q seq status) := by
  unfold Machine.unitFault
  try dsimp only
  repeat' first
    | with_reducible exact hz
    | with_reducible assumption
    | with_reducible apply Sound.endFeed
    | with_reducible apply SoundOpt.some
    | with_reducible exact SoundOpt.none _
    | split
    | exact fun w => w.2.2.2
    | with_reducible refine Sound.of_pair (by assumption) ?_

theorem Sound.stage {z s : State} (hz : Sound z s) (r : Reader) (place : Nat) (bs : List Byte) : Sound z (stage s r place bs).1 := by
  unfold Machine.stage
  try dsimp only
  repeat' first
    | with_reducible exact hz
    | with_reducible assumption
    | with_reducible apply Sound.confine
    | with_reducible apply Sound.writeHbm
    | with_reducible apply Sound.memoryFault
    | split
    | exact fun w => w.2.2.2
    | with_reducible refine Sound.of_pair (by assumption) ?_

theorem Sound.workWrite {z s : State} (hz : Sound z s) (r : Reader) (c : AprConfig) : Sound z (workWrite r c s) := by
  unfold Machine.workWrite
  try dsimp only
  repeat' first
    | with_reducible exact hz
    | with_reducible assumption
    | with_reducible apply Sound.count
    | with_reducible apply Sound.freeUsed
    | with_reducible apply Sound.stage
    | split
    | intro _

theorem Sound.workData {z s : State} (hz : Sound z s) (c : AprConfig) (r : Reader) (kind : Nat) : Sound z (workData s c r kind) := by
  unfold Machine.workData
  try dsimp only
  repeat' first
    | with_reducible exact hz
    | with_reducible assumption
    | with_reducible apply Sound.workWrite
    | with_reducible apply Sound.freeUsed
    | with_reducible apply Sound.foldl
    | split
    | intro _

theorem Sound.stageItem {z s : State} (hz : Sound z s) (c : AprConfig) (f : Feed) (item : Nat) (kind : Nat) (r : ItemResult) (rows : List Byte) : Sound z (stageItem s c f item kind r rows) := by
  unfold Machine.stageItem
  try dsimp only
  repeat' first
    | with_reducible exact hz
    | with_reducible assumption
    | with_reducible apply Sound.modFeed
    | with_reducible apply Sound.stage
    | with_reducible apply Sound.unitFault
    | with_reducible apply SoundOpt.some
    | with_reducible exact SoundOpt.none _
    | split
    | exact fun w => w.2.2.2
    | intro _
    | with_reducible refine Sound.of_pair (by assumption) ?_
    | with_reducible apply Sound.record

theorem Sound.execItemDecode {z s : State} (hz : Sound z s) (q : Nat) (seq : Nat) (item : Nat) (unit : Nat) (data : HostRead) : SoundOut z (execItemDecode q seq item unit data s) := by
  unfold Machine.execItemDecode
  try dsimp only
  repeat' first
    | with_reducible apply SoundOut.next
    | with_reducible exact hz
    | with_reducible assumption
    | with_reducible apply Sound.endFeed
    | with_reducible apply Sound.modFeed
    | with_reducible apply Sound.workData
    | with_reducible apply Sound.stageItem
    | split
    | exact fun w => w.2.2.2
    | with_reducible refine Sound.of_pair (by assumption) ?_
    | with_reducible apply Sound.setApr
    | intro _

theorem Sound.readItems (c : AprConfig) (n : Nat) (l : List (Nat × Item × ItemResult)) {z s : State} (hz : Sound z s) :
    Sound z (readItems c n l s).1 := by
  induction l generalizing s with
  | nil => exact hz
  | cons x l ih =>
    unfold Machine.readItems; split
    · rename_i e; exact Sound.of_pair e (hz.readOrFault ..)
    · rename_i e
      have h1 := ih (Sound.of_pair e (hz.readOrFault ..))
      split
      · rename_i e; exact Sound.of_pair e h1
      · rename_i e; exact Sound.of_pair e h1

theorem Sound.packAt {z s : State} (hz : Sound z s) (c : AprConfig) (f : Feed) (table place : Nat) : Sound z (packAt s c f table place) := by
  unfold Machine.packAt; split
  · rename_i e; exact (Sound.of_pair e (Sound.readItems _ _ _ hz)).unitFault ..
  · rename_i e
    have h1 := Sound.of_pair e (Sound.readItems _ _ _ hz)
    dsimp only; split
    · rename_i e
      have h2 := Sound.of_pair e ((h1.modFeed ..).stage ..)
      split
      · rename_i e; exact Sound.of_pair e (h2.stage ..)
      · rename_i _ e; exact (Sound.of_pair e (h2.stage ..)).unitFault ..
    · rename_i _ e; exact (Sound.of_pair e ((h1.modFeed ..).stage ..)).unitFault ..

theorem Sound.packFeed {z s : State} (hz : Sound z s) (c : AprConfig) (f : Feed) : Sound z (packFeed s c f) := by
  unfold Machine.packFeed
  generalize packPlaces s c f (feedSegs c f).length (packedBytes c f) = o
  rcases o with _ | ⟨a, b⟩
  · exact hz
  · exact hz.packAt c f a b

theorem Sound.execPatchPack {z s : State} (hz : Sound z s) (q : Nat) (seq : Nat) : SoundOut z (execPatchPack q seq s) := by
  unfold Machine.execPatchPack
  try dsimp only
  repeat' first
    | with_reducible apply SoundOut.next
    | with_reducible exact hz
    | with_reducible assumption
    | with_reducible apply Sound.endFeed
    | with_reducible apply Sound.packFeed
    | split
    | exact fun w => w.2.2.2
    | with_reducible refine Sound.of_pair (by assumption) ?_
    | with_reducible apply Sound.setApr
    | intro _

theorem Sound.pushFeed {z s : State} (hz : Sound z s) (im : Image) (queue : Nat) (f : Feed) (segs : Nat) (table : Nat) (bytes : Nat) (place : Nat) : Sound z (pushFeed s im queue f segs table bytes place) := by
  unfold Machine.pushFeed
  try dsimp only
  repeat' first
    | with_reducible exact hz
    | with_reducible assumption
    | with_reducible apply Sound.readOrFault
    | with_reducible apply Sound.unitFault
    | with_reducible apply Sound.fillSlot
    | with_reducible apply Sound.endFeed
    | with_reducible apply Sound.opDone
    | with_reducible apply SoundOpt.some
    | with_reducible exact SoundOpt.none _
    | split
    | exact fun w => w.2.2.2
    | with_reducible refine Sound.of_pair (by assumption) ?_

theorem Sound.execFeedPush {z s : State} (hz : Sound z s) (q : Nat) (seq : Nat) : SoundOut z (execFeedPush q seq s) := by
  unfold Machine.execFeedPush
  try dsimp only
  repeat' first
    | with_reducible apply SoundOut.next
    | with_reducible exact hz
    | with_reducible assumption
    | with_reducible apply Sound.pushFeed
    | split
    | exact fun w => w.2.2.2
    | with_reducible refine Sound.of_pair (by assumption) ?_
    | with_reducible apply Sound.setApr
    | intro _

theorem Sound.deliverTensor {z s : State} (hz : Sound z s) (c : AprConfig) (q : Nat) (seq : Nat) (n : Nat) (kind : Nat) (dst : Nat) (out : List Byte) (dims : List Nat) : Sound z (deliverTensor s c q seq n kind dst out dims) := by
  unfold Machine.deliverTensor
  try dsimp only
  repeat' first
    | with_reducible exact hz
    | with_reducible assumption
    | with_reducible apply Sound.finish
    | with_reducible apply Sound.memoryFault
    | with_reducible apply Sound.stage
    | with_reducible apply Sound.workData
    | with_reducible apply Sound.freeUsed
    | with_reducible apply Sound.readHbm
    | with_reducible apply Sound.writeHbm
    | with_reducible apply SoundOpt.some
    | with_reducible exact SoundOpt.none _
    | split
    | exact fun w => w.2.2.2
    | intro _
    | with_reducible refine Sound.of_pair (by assumption) ?_

theorem Sound.execAprDecode {z s : State} (hz : Sound z s) (q : Nat) (seq : Nat) (data : HostRead) : SoundOut z (execAprDecode q seq data s) := by
  unfold Machine.execAprDecode
  try dsimp only
  repeat' first
    | with_reducible apply SoundOut.next
    | with_reducible exact hz
    | with_reducible assumption
    | with_reducible apply Sound.onUnit
    | with_reducible apply Sound.refuse
    | with_reducible apply Sound.finish
    | with_reducible apply Sound.deliverTensor
    | split
    | exact fun w => w.2.2.2
    | with_reducible refine Sound.of_pair (by assumption) ?_
    | with_reducible apply Sound.setApr
    | intro _

theorem Sound.execAprTableLoad {z s : State} (hz : Sound z s) (q : Nat) (seq : Nat) (data : HostRead) : SoundOut z (execAprTableLoad q seq data s) := by
  unfold Machine.execAprTableLoad
  try dsimp only
  repeat' first
    | with_reducible apply SoundOut.next
    | with_reducible exact hz
    | with_reducible assumption
    | with_reducible apply Sound.onCmd
    | with_reducible apply Sound.finish
    | with_reducible apply Sound.refuse
    | split
    | exact fun w => w.2.2.2
    | with_reducible refine Sound.of_pair (by assumption) ?_
    | with_reducible apply Sound.setApr
    | intro _ _ _
    | intro _

theorem Sound.execAprQuery {z s : State} (hz : Sound z s) (q : Nat) (seq : Nat) : SoundOut z (execAprQuery q seq s) := by
  unfold Machine.execAprQuery
  try dsimp only
  repeat' first
    | with_reducible apply SoundOut.next
    | with_reducible exact hz
    | with_reducible assumption
    | with_reducible apply Sound.onCmd
    | with_reducible apply Sound.finish
    | with_reducible apply Sound.foldl
    | intro _ _ _
    | intro _

end Sys2Proof.Machine
end

