-- ==== Sys2Proof/Laws/SoundAbutment.lean ====
section
/-! SUPPORT. Soundness of the operations of Machine/Abutment.lean (see Laws/Sound.lean). -/

namespace Sys2Proof.Machine

theorem Sound.readTensor (n x : Nat) (l : List (Nat × Nat)) (bs : List Byte) {z s : State} (hz : Sound z s) :
    Sound z (readTensor n x l s bs).1 := by
  induction l generalizing s bs with
  | nil => exact hz
  | cons y l ih =>
    unfold Machine.readTensor; split
    · rename_i e; exact Sound.of_pair e (hz.readHbm ..)
    · rename_i e; exact ih _ (Sound.of_pair e (hz.readHbm ..))

theorem Sound.abutRun {z s : State} (hz : Sound z s) (t : Taken) (k : AbutKind) (d : Abut) : Sound z (abutRun s t k d) := by
  unfold Machine.abutRun
  try dsimp only
  repeat' first
    | with_reducible exact hz
    | with_reducible assumption
    | with_reducible apply Sound.finish
    | with_reducible apply Sound.faultContext
    | with_reducible apply Sound.readTensor
    | with_reducible apply Sound.writeHbm
    | with_reducible apply SoundOpt.some
    | with_reducible exact SoundOpt.none _
    | split
    | exact fun w => w.2.2.2
    | intro _
    | with_reducible refine Sound.of_pair (by assumption) ?_

theorem Sound.abutCommand {z s : State} (hz : Sound z s) (k : AbutKind) (t : Taken) : Sound z (abutCommand k s t) := by
  unfold Machine.abutCommand
  try dsimp only
  repeat' first
    | with_reducible exact hz
    | with_reducible assumption
    | with_reducible apply Sound.refuse
    | with_reducible apply Sound.finish
    | with_reducible apply Sound.abutRun
    | split
    | intro _

theorem Sound.execAbutConvFwd {z s : State} (hz : Sound z s) (q : Nat) (seq : Nat) : SoundOut z (execAbutConvFwd q seq s) := by
  unfold Machine.execAbutConvFwd
  try dsimp only
  repeat' first
    | with_reducible apply SoundOut.next
    | with_reducible exact hz
    | with_reducible assumption
    | with_reducible apply Sound.onUnit
    | with_reducible apply Sound.abutCommand
    | intro _

theorem Sound.execAbutConvBwdData {z s : State} (hz : Sound z s) (q : Nat) (seq : Nat) : SoundOut z (execAbutConvBwdData q seq s) := by
  unfold Machine.execAbutConvBwdData
  try dsimp only
  repeat' first
    | with_reducible apply SoundOut.next
    | with_reducible exact hz
    | with_reducible assumption
    | with_reducible apply Sound.onUnit
    | with_reducible apply Sound.abutCommand
    | intro _

theorem Sound.execAbutConvBwdWeight {z s : State} (hz : Sound z s) (q : Nat) (seq : Nat) : SoundOut z (execAbutConvBwdWeight q seq s) := by
  unfold Machine.execAbutConvBwdWeight
  try dsimp only
  repeat' first
    | with_reducible apply SoundOut.next
    | with_reducible exact hz
    | with_reducible assumption
    | with_reducible apply Sound.onUnit
    | with_reducible apply Sound.abutCommand
    | intro _

theorem Sound.execAbutPool {z s : State} (hz : Sound z s) (q : Nat) (seq : Nat) : SoundOut z (execAbutPool q seq s) := by
  unfold Machine.execAbutPool
  try dsimp only
  repeat' first
    | with_reducible apply SoundOut.next
    | with_reducible exact hz
    | with_reducible assumption
    | with_reducible apply Sound.onUnit
    | with_reducible apply Sound.abutCommand
    | intro _

end Sys2Proof.Machine
end

