-- ==== Sys2Proof/Laws/SoundMemCommands.lean ====
section
/-! SUPPORT. Soundness of the operations of Machine/MemCommands.lean (see Laws/Sound.lean). -/

namespace Sys2Proof.Machine

theorem Sound.memDone {z s : State} (hz : Sound z s) (t : Taken) (bad : Bool) : Sound z (memDone s t bad) := by
  unfold Machine.memDone
  try dsimp only
  repeat' first
    | with_reducible exact hz
    | with_reducible assumption
    | with_reducible apply Sound.finish
    | split

theorem Sound.execMemWrite {z s : State} (hz : Sound z s) (q : Nat) (seq : Nat) (data : HostRead) : SoundOut z (execMemWrite q seq data s) := by
  unfold Machine.execMemWrite
  try dsimp only
  repeat' first
    | with_reducible apply SoundOut.next
    | with_reducible exact hz
    | with_reducible assumption
    | with_reducible apply Sound.onCmd
    | with_reducible apply Sound.refuse
    | with_reducible apply Sound.finish
    | with_reducible apply Sound.writeHbm
    | with_reducible apply Sound.memDone
    | split
    | exact fun w => w.2.2.2
    | with_reducible refine Sound.of_pair (by assumption) ?_
    | intro _ _ _
    | intro _

theorem Sound.execMemRead {z s : State} (hz : Sound z s) (q : Nat) (seq : Nat) : SoundOut z (execMemRead q seq s) := by
  unfold Machine.execMemRead
  try dsimp only
  repeat' first
    | with_reducible apply SoundOut.next
    | with_reducible exact hz
    | with_reducible assumption
    | with_reducible apply Sound.onCmd
    | with_reducible apply Sound.refuse
    | with_reducible apply Sound.readHbm
    | with_reducible apply Sound.finish
    | with_reducible apply Sound.postHost
    | split
    | exact fun w => w.2.2.2
    | with_reducible refine Sound.of_pair (by assumption) ?_
    | intro _ _ _
    | intro _

theorem Sound.execMemFill {z s : State} (hz : Sound z s) (q : Nat) (seq : Nat) : SoundOut z (execMemFill q seq s) := by
  unfold Machine.execMemFill
  try dsimp only
  repeat' first
    | exact ⟨fun w => Hbm.wf_fill w _ _ _, rfl⟩
    | with_reducible apply SoundOut.next
    | with_reducible exact hz
    | with_reducible assumption
    | with_reducible apply Sound.onCmd
    | with_reducible apply Sound.refuse
    | with_reducible apply Sound.storeHbm
    | with_reducible apply Sound.memDone
    | split
    | with_reducible refine Sound.of_pair (by assumption) ?_
    | intro _ _ _
    | intro _

theorem Sound.execMemCopy {z s : State} (hz : Sound z s) (q : Nat) (seq : Nat) : SoundOut z (execMemCopy q seq s) := by
  unfold Machine.execMemCopy
  try dsimp only
  repeat' first
    | exact ⟨fun w => Hbm.wf_copy w _ _ _, rfl⟩
    | with_reducible apply SoundOut.next
    | with_reducible exact hz
    | with_reducible assumption
    | with_reducible apply Sound.onCmd
    | with_reducible apply Sound.refuse
    | with_reducible apply Sound.correctRange
    | with_reducible apply Sound.count
    | with_reducible apply Sound.storeHbm
    | with_reducible apply Sound.memDone
    | with_reducible apply Sound.logUncorrectable
    | with_reducible apply Sound.foldl
    | split
    | exact fun w => w.2.2.2
    | with_reducible refine Sound.of_pair (by assumption) ?_
    | intro _ _ _
    | intro _

end Sys2Proof.Machine
end

