-- ==== Sys2Proof/Laws/SoundImageLoad.lean ====
section
/-! SUPPORT. Soundness of the operations of Machine/ImageLoad.lean (see Laws/Sound.lean). -/

namespace Sys2Proof.Machine

theorem Sound.execImageLoad {z s : State} (hz : Sound z s) (q : Nat) (seq : Nat) (image : HostRead) (decls : Decls) : SoundOut z (execImageLoad q seq image decls s) := by
  unfold Machine.execImageLoad
  try dsimp only
  repeat' first
    | with_reducible apply SoundOut.next
    | with_reducible exact hz
    | with_reducible assumption
    | with_reducible apply Sound.onCmd
    | with_reducible apply Sound.refuse
    | with_reducible apply Sound.finish
    | with_reducible apply Sound.writeHbm
    | with_reducible apply Sound.modCtx
    | split
    | exact fun w => w.2.2.2
    | with_reducible refine Sound.of_pair (by assumption) ?_
    | intro _ _ _
    | intro _

end Sys2Proof.Machine
end

