-- ==== Sys2Proof/Laws/SoundReset.lean ====
section
/-! SUPPORT. Soundness of the operations of Machine/Reset.lean (see Laws/Sound.lean). -/

namespace Sys2Proof.Machine

theorem Sound.goOos {z s : State} (hz : Sound z s) (code : Nat) : Sound z (goOos s code) := by
  unfold Machine.goOos
  try dsimp only
  repeat' first
    | with_reducible exact hz
    | with_reducible assumption
    | split
    | exact fun w => w.2.2.2
    | with_reducible apply Sound.setPkg

theorem Sound.widthMismatch {z s : State} (hz : Sound z s) (source : Nat) (position : Nat) (detail : List Nat) : Sound z (widthMismatch s source position detail) := by
  unfold Machine.widthMismatch
  try dsimp only
  repeat' first
    | with_reducible exact hz
    | with_reducible assumption
    | with_reducible apply Sound.goOos
    | with_reducible apply Sound.logError
    | with_reducible refine Sound.of_pair (by assumption) ?_

theorem Sound.footingsDown {z s : State} (hz : Sound z s) : Sound z (footingsDown s) := hz.setHbm _ id (by simp)

theorem Sound.clearRetained {z s : State} (hz : Sound z s) : Sound z (clearRetained s) := hz.setHbm _ id (by simp)

theorem Sound.scramble (cs : List Host.Cell) {z s : State} (hz : Sound z s) : Sound z (scramble cs s) := by
  induction cs generalizing s with
  | nil => exact hz
  | cons c cs ih =>
    unfold Machine.scramble
    exact ih (Sound.setHbm (hz.setFree _) _ (fun w => Memory.wf_write w _ _) rfl)

theorem Sound.loseHbm {z s : State} (hz : Sound z s) : Sound z (loseHbm s) := Sound.clearRetained (hz.scramble _)

theorem Sound.settlePosted (ws : List Posted) {z s : State} (hz : Sound z s) : Sound z (settlePosted ws s) := by
  induction ws generalizing s with
  | nil => exact hz
  | cons w ws ih =>
    unfold Machine.settlePosted; dsimp only
    refine ih ?_
    split
    · refine Sound.setTether (hz.freeUsed 1) _ fun x => Memory.wf_write x _ _
    · exact hz.freeUsed 1

theorem Sound.loseState {z s : State} (hz : Sound z s) : Sound z (loseState s) := by
  have h1 := Sound.settlePosted s.tether.posted hz.footingsDown
  unfold Machine.loseState
  generalize Machine.settlePosted s.tether.posted (Machine.footingsDown s) = u at h1
  refine h1.trans ⟨rfl, fun w => ⟨?_, ?_, ?_, ?_, ?_, rfl⟩, fun w => ⟨w.1, w.2.1, w.2.2.1, ?_, ?_⟩, .refl _, fun w => ⟨w.1, ?_⟩⟩
  · simp
  · simp
  · simp [Pylon.fresh]
  · simpa using w.2.2.2.1
  · simp
  · simp
  · simp
  · simp [Sched.fresh]

theorem Sound.leaveFloor {z s : State} (hz : Sound z s) (d : Die) : Sound z (leaveFloor s d) := by
  unfold Machine.leaveFloor
  try dsimp only
  repeat' first
    | with_reducible exact hz
    | with_reducible assumption
    | with_reducible apply Sound.count
    | with_reducible apply Sound.logError
    | split

theorem TollSound.afterReset (t : Tollhouse) (b : Bool) : TollSound t (t.afterReset b) :=
  ⟨fun _ => Memory.wf_nil, .refl _, id⟩

theorem TollSound.afterPowerLoss (t : Tollhouse) (b : Bool) : TollSound t (t.afterPowerLoss b) :=
  ⟨fun _ => Memory.wf_nil, fun w => ⟨w, le_refl _, fun _ => Nat.zero_le _⟩, fun _ => Nat.zero_le _⟩

theorem Sound.resetKeep {z s : State} (hz : Sound z s) (cause : Nat) : Sound z (resetKeep s cause) := by
  unfold Machine.resetKeep; dsimp only
  refine Sound.record (Sound.loseState (Sound.foldl hz fun t d ht => ht.leaveFloor d)) rfl rfl rfl rfl rfl rfl id id (fun w => w.2.2.2) (TollSound.afterReset _ _) id

theorem Sound.resetLose {z s : State} (hz : Sound z s) (phase : Phase) (cause : Nat) : Sound z (resetLose s phase cause) := by
  unfold Machine.resetLose; dsimp only
  exact Sound.record hz.loseState rfl rfl rfl (by simp) rfl rfl id id (fun w => w.2.2.2) (TollSound.afterPowerLoss _ _) id

theorem Sound.warmReset {z s : State} (hz : Sound z s)  : Sound z (warmReset s) := by
  unfold Machine.warmReset
  try dsimp only
  repeat' first
    | with_reducible exact hz
    | with_reducible assumption
    | with_reducible apply Sound.resetKeep
    | split

theorem Sound.thermalTrip {z s : State} (hz : Sound z s) (source : Nat) (position : Nat) (detail : List Nat) : Sound z (thermalTrip s source position detail) := by
  unfold Machine.thermalTrip
  try dsimp only
  repeat' first
    | with_reducible exact hz
    | with_reducible assumption
    | with_reducible apply Sound.logError
    | with_reducible apply Sound.loseHbm
    | with_reducible apply Sound.resetKeep
    | exact fun w => w.2.2.2
    | with_reducible apply Sound.setPkg

theorem Sound.execPwrOkRise {z s : State} (hz : Sound z s) : SoundOut z (execPwrOkRise s) := by
  unfold Machine.execPwrOkRise
  split
  · exact .next hz
  · exact .next (Sound.setPkg (hz.setTime 0) _)

theorem Sound.execPwrOkFall {z s : State} (hz : Sound z s)  : SoundOut z (execPwrOkFall s) := by
  unfold Machine.execPwrOkFall
  try dsimp only
  repeat' first
    | with_reducible apply SoundOut.next
    | with_reducible exact hz
    | with_reducible assumption
    | with_reducible apply Sound.resetLose
    | split
    | exact fun w => w.2.2.2
    | with_reducible apply Sound.setPkg
    | intro _

theorem Sound.dip {z s : State} (hz : Sound z s) (hbm : Bool) (long : Bool) : Sound z (dip s hbm long) := by
  unfold Machine.dip
  try dsimp only
  repeat' first
    | with_reducible exact hz
    | with_reducible assumption
    | with_reducible apply Sound.resetLose
    | with_reducible apply Sound.loseHbm
    | split

theorem Sound.execRailDip {z s : State} (hz : Sound z s) (rail : Rail) (durationNs : Nat) : SoundOut z (execRailDip rail durationNs s) := by
  unfold Machine.execRailDip
  try dsimp only
  repeat' first
    | with_reducible apply SoundOut.next
    | with_reducible exact hz
    | with_reducible assumption
    | with_reducible apply Sound.dip
    | split
    | intro _

theorem Sound.execRefclkLoss {z s : State} (hz : Sound z s) (durationNs : Nat) : SoundOut z (execRefclkLoss durationNs s) := by
  unfold Machine.execRefclkLoss
  try dsimp only
  repeat' first
    | with_reducible apply SoundOut.next
    | with_reducible exact hz
    | with_reducible assumption
    | with_reducible apply Sound.dip
    | with_reducible apply Sound.logError
    | split
    | intro _

theorem Sound.execVddHbmRise {z s : State} (hz : Sound z s)  : SoundOut z (execVddHbmRise s) := by
  unfold Machine.execVddHbmRise
  try dsimp only
  repeat' first
    | with_reducible apply SoundOut.next
    | with_reducible exact hz
    | with_reducible assumption
    | with_reducible apply Sound.loseHbm
    | intro _

theorem Sound.execPkgResetN {z s : State} (hz : Sound z s) (durationNs : Nat) : SoundOut z (execPkgResetN durationNs s) := by
  unfold Machine.execPkgResetN
  try dsimp only
  repeat' first
    | with_reducible apply SoundOut.next
    | with_reducible exact hz
    | with_reducible assumption
    | with_reducible apply Sound.warmReset
    | split
    | intro _

theorem Sound.execAdapterResetRequest {z s : State} (hz : Sound z s)  : SoundOut z (execAdapterResetRequest s) := by
  unfold Machine.execAdapterResetRequest
  try dsimp only
  repeat' first
    | with_reducible apply SoundOut.next
    | with_reducible exact hz
    | with_reducible assumption
    | with_reducible apply Sound.warmReset
    | split
    | intro _

end Sys2Proof.Machine
end

