-- ==== Sys2Proof/Laws/SoundHbm.lean ====
section
/-! SUPPORT. Soundness of the operations of Machine/Hbm.lean (see Laws/Sound.lean). -/

namespace Sys2Proof.Machine

theorem Sound.execScrub {z s : State} (hz : Sound z s) (stack : Nat) (block : Nat) : SoundOut z (execScrub stack block s) := by
  unfold Machine.execScrub
  try dsimp only
  repeat' first
    | with_reducible apply SoundOut.next
    | with_reducible exact hz
    | with_reducible assumption
    | with_reducible apply Sound.count
    | with_reducible apply Sound.logUncorrectable
    | with_reducible apply Sound.correctRange
    | split
    | intro _

theorem Sound.recalibrateStack {z s : State} (hz : Sound z s) (k : Nat) : Sound z (recalibrateStack s k) := by
  unfold Machine.recalibrateStack
  try dsimp only
  repeat' first
    | with_reducible exact hz
    | with_reducible assumption
    | with_reducible apply Sound.modStack
    | with_reducible apply Sound.count
    | exact fun w => w.2.2.2
    | intro _
    | with_reducible apply Sound.setTime

theorem Sound.trainStack {z s : State} (hz : Sound z s) (k : Nat) (failed : Option Nat) : Sound z (trainStack s k failed) := by
  unfold Machine.trainStack
  try dsimp only
  repeat' first
    | with_reducible exact hz
    | with_reducible assumption
    | with_reducible apply Sound.recalibrateStack
    | with_reducible apply Sound.widthMismatch
    | with_reducible apply SoundOpt.some
    | with_reducible exact SoundOpt.none _
    | split
    | exact fun w => w.2.2.2
    | with_reducible refine Sound.of_pair (by assumption) ?_

theorem Sound.execStackAutoRecal {z s : State} (hz : Sound z s) (training : StackTraining) : SoundOut z (execStackAutoRecal training s) := by
  unfold Machine.execStackAutoRecal
  try dsimp only
  repeat' first
    | with_reducible apply SoundOut.next
    | with_reducible exact hz
    | with_reducible assumption
    | with_reducible apply Sound.trainStack
    | with_reducible apply Sound.advanceTo
    | split
    | intro _

theorem Sound.execStackRecal {z s : State} (hz : Sound z s) (q : Nat) (cmd : StackRecalCommand) : SoundOut z (execStackRecal q cmd s) := by
  unfold Machine.execStackRecal
  try dsimp only
  repeat' first
    | with_reducible apply SoundOut.next
    | with_reducible exact hz
    | with_reducible assumption
    | with_reducible apply Sound.onCmd
    | with_reducible apply Sound.trainStack
    | with_reducible apply Sound.finish
    | with_reducible apply Sound.refuse
    | with_reducible apply Sound.foldl
    | split
    | with_reducible refine Sound.of_pair (by assumption) ?_
    | intro _ _ _
    | intro _

theorem Sound.execHotRefreshEnd {z s : State} (hz : Sound z s) (stack : Nat) : SoundOut z (execHotRefreshEnd stack s) := by
  unfold Machine.execHotRefreshEnd
  try dsimp only
  repeat' first
    | with_reducible apply SoundOut.next
    | with_reducible exact hz
    | with_reducible assumption
    | with_reducible apply Sound.modStack
    | with_reducible apply Sound.advanceTo
    | split
    | exact fun w => w.2.2.2
    | with_reducible refine Sound.of_pair (by assumption) ?_
    | intro _

end Sys2Proof.Machine
end

