-- ==== Sys2Proof/Laws/SoundFirmware.lean ====
section
/-! SUPPORT. Soundness of the operations of Machine/Firmware.lean (see Laws/Sound.lean). -/

namespace Sys2Proof.Machine

theorem TollSound.compact {t u : Tollhouse} (h : TollSound t u) : TollSound t (compact u) := by
  obtain ⟨h1, h2, h3⟩ := compact_index u
  refine h.trans ⟨by rw [h3]; exact id, fun w => ⟨h2 w, h1.ge, fun k => ?_⟩, by rw [h3]; exact id⟩
  rw [h1, h3]; exact k

theorem Sound.answer {z s : State} (hz : Sound z s) (bs : List Byte) : Sound z (answer s bs) := by
  unfold Machine.answer
  try dsimp only
  repeat' first
    | with_reducible exact hz
    | with_reducible assumption
    | exact fun w => w.2.2.2
    | rfl
    | exact id
    | exact TollSound.refl _
    | (simp; done)
    | with_reducible apply Sound.setToll

theorem Sound.answerVoune {z s : State} (hz : Sound z s) (bs : List Byte) : Sound z (answerVoune s bs) := by
  unfold Machine.answerVoune
  try dsimp only
  repeat' first
    | with_reducible exact hz
    | with_reducible assumption
    | with_reducible apply Sound.answer

theorem Sound.execJournalCompaction {z s : State} (hz : Sound z s)  : SoundOut z (execJournalCompaction s) := by
  unfold Machine.execJournalCompaction
  try dsimp only
  repeat' first
    | with_reducible apply Sound.retireBlocks
    | exact (TollSound.refl _).compact
    | with_reducible apply SoundOut.next
    | with_reducible exact hz
    | with_reducible assumption
    | with_reducible apply Sound.retireBlocks
    | split
    | exact fun w => w.2.2.2
    | rfl
    | exact id
    | exact TollSound.refl _
    | (simp; done)
    | with_reducible apply Sound.setToll
    | intro _

theorem TollSound.update (t : Tollhouse) (m : FwModule) :
    TollSound t (commitRecords (if overFull t ((JournalBody.module m).pages + 1) then Machine.compact t else t) 1 [.module m]) := by
  refine TollSound.commit ?_ 1 (by simp [Late])
  split
  · exact (TollSound.refl _).compact
  · exact TollSound.refl _

theorem Sound.storeUpdate {z s : State} (hz : Sound z s) (v : Tollhouse) (x : Option FwRun) (base : TollSound s.toll v) :
    Sound z (Machine.retireBlocks { s with toll := { v with fw := x } }) := by
  refine Sound.retireBlocks (Sound.setToll hz ?_)
  exact base.trans (TollSound.of_same rfl rfl rfl rfl)

theorem Sound.commitUpdate {z s : State} (hz : Sound z s) (cmd : Option (Nat × Nat)) (b : List Byte) : Sound z (commitUpdate s cmd b).1 := by
  unfold Machine.commitUpdate; dsimp only
  split
  · exact hz
  · split
    · exact hz
    · split
      · exact hz
      · split
        · exact hz.logError ..
        · exact hz.storeUpdate _ _ (TollSound.update s.toll (packageModule b))

theorem Sound.execFwUpdate {z s : State} (hz : Sound z s) (q : Nat) (seq : Nat) (package : HostRead) : SoundOut z (execFwUpdate q seq package s) := by
  unfold Machine.execFwUpdate
  try dsimp only
  repeat' first
    | with_reducible apply SoundOut.next
    | with_reducible exact hz
    | with_reducible assumption
    | with_reducible apply Sound.onCmd
    | with_reducible apply Sound.refuse
    | with_reducible apply Sound.finish
    | with_reducible apply Sound.commitUpdate
    | split
    | exact fun w => w.2.2.2
    | with_reducible refine Sound.of_pair (by assumption) ?_
    | intro _ _ _
    | intro _

theorem Sound.execModuleSwap {z s : State} (hz : Sound z s) (moduleId : Nat) : SoundOut z (execModuleSwap moduleId s) := by
  unfold Machine.execModuleSwap
  try dsimp only
  repeat' first
    | with_reducible apply SoundOut.next
    | with_reducible exact hz
    | with_reducible assumption
    | with_reducible apply Sound.logError
    | with_reducible apply Sound.finish
    | with_reducible apply Sound.answerVoune
    | split
    | exact fun w => w.2.2.2
    | with_reducible refine Sound.of_pair (by assumption) ?_
    | rfl
    | exact id
    | exact TollSound.refl _
    | (simp; done)
    | with_reducible apply Sound.setModules
    | with_reducible apply Sound.setToll
    | with_reducible apply Sound.record
    | intro _

theorem Sound.execDevIdentify {z s : State} (hz : Sound z s) (q : Nat) (seq : Nat) : SoundOut z (execDevIdentify q seq s) := by
  unfold Machine.execDevIdentify
  try dsimp only
  repeat' first
    | with_reducible apply SoundOut.next
    | with_reducible exact hz
    | with_reducible assumption
    | with_reducible apply Sound.onCmd
    | with_reducible apply Sound.refuse
    | with_reducible apply Sound.finish
    | with_reducible apply Sound.postHost
    | split
    | intro _ _ _
    | intro _

theorem Sound.execAttestQuote {z s : State} (hz : Sound z s) (q : Nat) (seq : Nat) : SoundOut z (execAttestQuote q seq s) := by
  unfold Machine.execAttestQuote
  try dsimp only
  repeat' first
    | with_reducible apply SoundOut.next
    | with_reducible exact hz
    | with_reducible assumption
    | with_reducible apply Sound.onCmd
    | with_reducible apply Sound.refuse
    | with_reducible apply Sound.signDigest
    | with_reducible apply Sound.finish
    | with_reducible apply Sound.postHost
    | split
    | exact fun w => w.2.2.2
    | with_reducible refine Sound.of_pair (by assumption) ?_
    | rfl
    | exact id
    | exact TollSound.refl _
    | (simp; done)
    | with_reducible apply Sound.setToll
    | intro _ _ _
    | intro _

end Sys2Proof.Machine
end

