-- ==== Sys2Proof/Laws/SoundPower.lean ====
section
/-! SUPPORT. Soundness of the operations of Machine/Power.lean (see Laws/Sound.lean). -/

namespace Sys2Proof.Machine

theorem Sound.mapDies {z s : State} (hz : Sound z s) (f : Die → Die) (hf : ∀ d, (f d).code = d.code) :
    Sound z { s with dies := s.dies.map f } :=
  hz.setDies _ (by simp [Function.comp_def, hf])

theorem Sound.loadTable {z s : State} (hz : Sound z s) (p : List Byte) : Sound z (loadTable s p).1 := by
  unfold Machine.loadTable
  try dsimp only
  repeat' first
    | with_reducible exact hz
    | with_reducible assumption
    | split
    | exact fun w => w.2.2.2
    | rfl
    | exact id
    | exact TollSound.refl _
    | (simp; done)
    | with_reducible apply Sound.setToll

theorem Sound.execPowerTableLoad {z s : State} (hz : Sound z s) (q : Nat) (seq : Nat) : SoundOut z (execPowerTableLoad q seq s) := by
  unfold Machine.execPowerTableLoad
  try dsimp only
  repeat' first
    | with_reducible apply SoundOut.next
    | with_reducible exact hz
    | with_reducible assumption
    | with_reducible apply Sound.onCmd
    | with_reducible apply Sound.loadTable
    | with_reducible apply Sound.refuse
    | split
    | with_reducible refine Sound.of_pair (by assumption) ?_
    | intro _ _ _
    | intro _

theorem Sound.sendBudget {z s : State} (hz : Sound z s) (d : Die) : Sound z (sendBudget s d) := by
  unfold Machine.sendBudget
  try dsimp only
  repeat' first
    | with_reducible exact hz
    | with_reducible assumption
    | with_reducible apply Sound.modDie
    | with_reducible apply Sound.logError
    | split
    | exact fun w => w.2.2.2
    | intro _
    | rfl
    | exact id
    | exact TollSound.refl _
    | (simp; done)
    | exact fun _ w => w
    | with_reducible apply Sound.setToll

theorem Sound.execBudgetSendTimer {z s : State} (hz : Sound z s)  : SoundOut z (execBudgetSendTimer s) := by
  unfold Machine.execBudgetSendTimer
  try dsimp only
  repeat' first
    | with_reducible apply SoundOut.next
    | with_reducible exact hz
    | with_reducible assumption
    | with_reducible apply Sound.sendBudget
    | with_reducible apply Sound.foldl
    | split
    | intro _

theorem Sound.steer {z s : State} (hz : Sound z s) (code : Nat) : Sound z (steer s code) := by
  unfold Machine.steer
  try dsimp only
  repeat' first
    | with_reducible exact hz
    | with_reducible assumption
    | with_reducible apply Sound.modDie
    | with_reducible apply Sound.freeUsed
    | exact fun w => w.2.2.2
    | intro _
    | rfl
    | exact fun _ w => w

theorem Sound.takeMessage {z s : State} (hz : Sound z s) (d : Die) (m : List Byte) (draws : List Nat) : Sound z (takeMessage s d m draws) := by
  unfold Machine.takeMessage
  try dsimp only
  repeat' first
    | with_reducible exact hz
    | with_reducible assumption
    | with_reducible apply Sound.leaveFloor
    | with_reducible apply Sound.steer
    | with_reducible apply Sound.modDie
    | with_reducible apply Sound.freeUsed
    | with_reducible apply SoundOpt.some
    | with_reducible exact SoundOpt.none _
    | split
    | exact fun w => w.2.2.2
    | intro _
    | rfl
    | exact id
    | exact TollSound.refl _
    | (simp; done)
    | exact fun _ w => w
    | with_reducible apply Sound.setTime
    | with_reducible apply Sound.setToll
    | with_reducible apply Sound.record

theorem Sound.execBudgetMessage {z s : State} (hz : Sound z s) (die : Nat) (message : List Byte) (draws : List Nat) : SoundOut z (execBudgetMessage die message draws s) := by
  unfold Machine.execBudgetMessage
  try dsimp only
  repeat' first
    | with_reducible apply SoundOut.next
    | with_reducible exact hz
    | with_reducible assumption
    | with_reducible apply Sound.takeMessage
    | split
    | exact fun w => w.2.2.2
    | rfl
    | exact id
    | exact TollSound.refl _
    | (simp; done)
    | with_reducible apply Sound.setToll
    | intro _

theorem Sound.execBudgetReport {z s : State} (hz : Sound z s) (message : List Byte) : SoundOut z (execBudgetReport message s) := by
  unfold Machine.execBudgetReport
  try dsimp only
  repeat' first
    | with_reducible apply SoundOut.next
    | with_reducible exact hz
    | with_reducible assumption
    | with_reducible apply Sound.modDie
    | with_reducible apply Sound.logError
    | split
    | exact fun w => w.2.2.2
    | rfl
    | exact id
    | exact TollSound.refl _
    | (simp; done)
    | exact fun _ w => w
    | with_reducible apply Sound.setToll
    | intro _

theorem Sound.enterFloor {z s : State} (hz : Sound z s) (code : Nat) : Sound z (enterFloor s code) := by
  unfold Machine.enterFloor
  try dsimp only
  repeat' first
    | with_reducible exact hz
    | with_reducible assumption
    | with_reducible apply Sound.steer
    | with_reducible apply Sound.modDie
    | with_reducible apply Sound.logError
    | split
    | exact fun w => w.2.2.2
    | intro _
    | rfl
    | exact fun _ w => w
    | with_reducible apply Sound.setTime
    | with_reducible apply Sound.record

theorem Sound.execBudgetMiss {z s : State} (hz : Sound z s) (die : Nat) : SoundOut z (execBudgetMiss die s) := by
  unfold Machine.execBudgetMiss
  try dsimp only
  repeat' first
    | with_reducible apply SoundOut.next
    | with_reducible exact hz
    | with_reducible assumption
    | with_reducible apply Sound.advanceTo
    | with_reducible apply Sound.modDie
    | with_reducible apply Sound.enterFloor
    | split
    | exact fun w => w.2.2.2
    | rfl
    | exact fun _ w => w
    | with_reducible apply Sound.setTime
    | intro _

theorem Sound.throttle {z s : State} (hz : Sound z s) (on : Bool) (code : Nat) : Sound z (throttle on s code) := by
  unfold Machine.throttle
  try dsimp only
  repeat' first
    | with_reducible exact hz
    | with_reducible assumption
    | with_reducible apply Sound.steer
    | with_reducible apply Sound.modDie
    | split
    | exact fun w => w.2.2.2
    | intro _
    | rfl
    | exact fun _ w => w

theorem Sound.showAlert {z s : State} (hz : Sound z s)  : Sound z (showAlert s) := by
  unfold Machine.showAlert
  try dsimp only
  repeat' first
    | with_reducible exact hz
    | with_reducible assumption
    | with_reducible apply Sound.throttle
    | with_reducible apply Sound.foldl
    | exact fun w => w.2.2.2
    | intro _
    | with_reducible apply Sound.setPkg

theorem Sound.raiseAlert {z s : State} (hz : Sound z s) (c : Nat) : Sound z (raiseAlert s c) := by
  unfold Machine.raiseAlert
  try dsimp only
  repeat' first
    | with_reducible exact hz
    | with_reducible assumption
    | with_reducible apply Sound.showAlert
    | split
    | exact fun w => w.2.2.2
    | rfl
    | exact id
    | exact TollSound.refl _
    | (simp; done)
    | with_reducible apply Sound.setToll

theorem Sound.failSensor {z s : State} (hz : Sound z s) (x : Sensor) : Sound z (failSensor s x) := by
  unfold Machine.failSensor
  try dsimp only
  repeat' first
    | with_reducible exact hz
    | with_reducible assumption
    | with_reducible apply Sound.logError
    | with_reducible apply Sound.raiseAlert
    | with_reducible apply Sound.modStack
    | with_reducible apply Sound.enterFloor
    | with_reducible apply Sound.modDie
    | with_reducible apply SoundOpt.some
    | with_reducible exact SoundOpt.none _
    | split
    | exact fun w => w.2.2.2
    | intro _
    | with_reducible refine Sound.of_pair (by assumption) ?_
    | rfl
    | exact id
    | exact TollSound.refl _
    | (simp; done)
    | exact fun _ w => w
    | with_reducible apply Sound.setToll

theorem Sound.stackReading {z s : State} (hz : Sound z s) (k : Nat) (t : Int) : Sound z (stackReading s k t) := by
  unfold Machine.stackReading
  try dsimp only
  repeat' first
    | with_reducible exact hz
    | with_reducible assumption
    | with_reducible apply Sound.modStack
    | with_reducible apply SoundOpt.some
    | with_reducible exact SoundOpt.none _
    | split
    | exact fun w => w.2.2.2
    | intro _
    | with_reducible apply Sound.setTime

theorem Sound.thermalRules {z s : State} (hz : Sound z s) (c : Nat) (i : Nat) : Sound z (thermalRules s c i) := by
  unfold Machine.thermalRules
  try dsimp only
  repeat' first
    | with_reducible exact hz
    | with_reducible assumption
    | with_reducible apply Sound.raiseAlert
    | with_reducible apply Sound.logError
    | with_reducible apply Sound.thermalTrip
    | with_reducible apply Sound.showAlert
    | with_reducible apply SoundOpt.some
    | with_reducible exact SoundOpt.none _
    | split
    | exact fun w => w.2.2.2
    | intro _
    | with_reducible refine Sound.of_pair (by assumption) ?_
    | rfl
    | exact id
    | exact TollSound.refl _
    | (simp; done)
    | with_reducible apply Sound.setToll

theorem Sound.execSensorRead {z s : State} (hz : Sound z s) (sensor : Sensor) (reading : Int) : SoundOut z (execSensorRead sensor reading s) := by
  unfold Machine.execSensorRead
  try dsimp only
  repeat' first
    | with_reducible apply SoundOut.next
    | with_reducible exact hz
    | with_reducible assumption
    | with_reducible apply Sound.failSensor
    | with_reducible apply Sound.stackReading
    | with_reducible apply Sound.thermalRules
    | split
    | exact fun w => w.2.2.2
    | with_reducible refine Sound.of_pair (by assumption) ?_
    | rfl
    | exact id
    | exact TollSound.refl _
    | (simp; done)
    | with_reducible apply Sound.setToll
    | intro _

theorem Sound.execSensorFailure {z s : State} (hz : Sound z s) (sensor : Sensor) : SoundOut z (execSensorFailure sensor s) := by
  unfold Machine.execSensorFailure
  try dsimp only
  repeat' first
    | with_reducible apply SoundOut.next
    | with_reducible exact hz
    | with_reducible assumption
    | with_reducible apply Sound.failSensor
    | split
    | intro _

end Sys2Proof.Machine
end

