-- ==== Sys2Proof/Laws/SoundBoot.lean ====
section
/-! SUPPORT. Soundness of the operations of Machine/Boot.lean (see Laws/Sound.lean). -/

namespace Sys2Proof.Machine

theorem Sound.logFallback {z s : State} (hz : Sound z s) (id : Nat) : Sound z (logFallback s id) := by
  unfold Machine.logFallback
  try dsimp only
  repeat' first
    | with_reducible exact hz
    | with_reducible assumption
    | with_reducible apply Sound.logError
    | with_reducible apply SoundOpt.some
    | with_reducible exact SoundOpt.none _
    | split
    | exact fun w => w.2.2.2
    | with_reducible refine Sound.of_pair (by assumption) ?_
    | rfl
    | exact id
    | exact TollSound.refl _
    | (simp; done)
    | with_reducible apply Sound.setToll

theorem TollSound.restoreEntry {t u : Tollhouse} (h : TollSound t u) (e : LogEntry) : TollSound t (restoreEntry u e) := by
  have base : TollSound t { u with logSeq := u.logSeq + 1 } := h
  exact base.push _

theorem TollSound.restoreAll {t u : Tollhouse} (h : TollSound t u) (es : List LogEntry) : TollSound t (es.foldl Machine.restoreEntry u) := by
  induction es generalizing u with
  | nil => exact h
  | cons e es ih => exact ih (h.restoreEntry e)

theorem TollSound.restoreLog {t u : Tollhouse} (h : TollSound t u) : TollSound t (restoreLog u) := by
  unfold Machine.restoreLog; split
  · exact (h.restoreAll _).trans (TollSound.of_same rfl rfl rfl rfl)
  · exact h

theorem TollSound.dropOthers (t : Tollhouse) : TollSound t (dropOthers t) := by
  refine ⟨id, fun w => ⟨fun r hr => ?_, ?_, ?_⟩, id⟩
  · have e := dropOthers_one w
    unfold epochOf
    rw [e] at hr ⊢
    exact w r hr
  · rw [indexLimit_of_journal (dropOthers_one w)]
  · rw [indexLimit_of_journal (dropOthers_one w)]; exact id

theorem Sound.bootFirmware {z s : State} (hz : Sound z s) : Sound z (bootFirmware s) := by
  unfold Machine.bootFirmware; dsimp only
  refine Sound.foldl ?_ fun t id ht => Sound.logFallback ht id
  refine Sound.retireBlocks (Sound.setToll hz ?_)
  exact (TollSound.dropOthers s.toll).restoreLog.trans ⟨id, fun w => ⟨w, le_refl _, fun _ => le_refl _⟩, id⟩

theorem Sound.clearGeneral {z s : State} (hz : Sound z s) : Sound z (clearGeneral s) := by
  unfold Machine.clearGeneral; dsimp only
  exact hz.setHbm _ (fun w => Memory.wf_filter w _) (by simp)

theorem Sound.repairHalf {z s : State} (hz : Sound z s) (half : Nat) : Sound z (repairHalf s half) := by
  unfold Machine.repairHalf
  try dsimp only
  repeat' first
    | with_reducible exact hz
    | with_reducible assumption
    | with_reducible apply Sound.writeHalf
    | with_reducible apply Sound.senseHbm
    | with_reducible apply SoundOpt.some
    | with_reducible exact SoundOpt.none _
    | split
    | exact fun w => w.2.2.2
    | with_reducible refine Sound.of_pair (by assumption) ?_

theorem Sound.ownSequence (half : Nat) (ks : List Nat) {z s : State} (hz : Sound z s) : Sound z (ownSequence half ks s).1 := by
  induction ks generalizing s with
  | nil => exact hz
  | cons k ks ih =>
    unfold Machine.ownSequence; split
    · split
      · rename_i e; exact Sound.of_pair e (hz.senseHbm ..)
      · rename_i e; exact ih (Sound.of_pair e (hz.senseHbm ..))
    · exact hz

theorem Sound.dropRecords {z s : State} (hz : Sound z s)  : Sound z (dropRecords s) := by
  unfold Machine.dropRecords
  try dsimp only
  repeat' first
    | with_reducible exact hz
    | with_reducible assumption
    | with_reducible apply Sound.writeHalf
    | with_reducible apply Sound.foldl
    | split
    | exact fun w => w.2.2.2
    | intro _

theorem Sound.bootCaisson {z s : State} (hz : Sound z s)  : Sound z (bootCaisson s) := by
  unfold Machine.bootCaisson
  try dsimp only
  repeat' first
    | with_reducible exact hz
    | with_reducible assumption
    | with_reducible apply Sound.readCommits
    | with_reducible apply Sound.dropRecords
    | with_reducible apply Sound.logError
    | with_reducible apply Sound.repairHalf
    | with_reducible apply Sound.ownSequence
    | split
    | exact fun w => w.2.2.2
    | with_reducible apply Sound.setPkg
    | with_reducible apply Sound.setCaisson
    | with_reducible apply Sound.record

theorem Sound.releaseAll {z s : State} (hz : Sound z s) (codes : List Nat) : Sound z (releaseAll s codes) := by
  unfold Machine.releaseAll; dsimp only
  refine Sound.showAlert (hz.mapDies _ fun d => ?_)
  split <;> rfl

theorem Sound.raisePorts {z s : State} (hz : Sound z s) (codes : List Nat) : Sound z (raisePorts s codes) := by
  unfold Machine.raisePorts; dsimp only
  exact hz.setPylon _ (by simp)

theorem Sound.rejoin {z s : State} (hz : Sound z s) (m : Nat) : Sound z (rejoin s m) := by
  unfold Machine.rejoin
  try dsimp only
  repeat' first
    | with_reducible exact hz
    | with_reducible assumption
    | with_reducible apply Sound.modModule
    | exact fun w => w.2.2.2
    | intro _

theorem Sound.holdPort {z s : State} (hz : Sound z s) (p : Nat) : Sound z (holdPort s p) := by
  unfold Machine.holdPort
  try dsimp only
  repeat' first
    | with_reducible exact hz
    | with_reducible assumption
    | with_reducible apply Sound.modPort
    | with_reducible apply Sound.endPortCommands
    | intro _

theorem Sound.beginHold {z s : State} (hz : Sound z s) (m : Nat) (codes : List Nat) : Sound z (beginHold s m codes) := by
  unfold Machine.beginHold; dsimp only
  refine Sound.foldl (Sound.setPkg (Sound.mapDies (Sound.foldl (Sound.modModule (Sound.logError
    (Sound.foldl hz fun t n ht => ht.faultContext n _) ..) m _) fun t d ht => ht.leaveFloor d) _ fun d => ?_) _) fun t p ht => ht.holdPort p
  split <;> rfl

theorem Sound.calibrate {z s : State} (hz : Sound z s) (codes : List Nat) (failed : List (Nat × Nat)) : Sound z (calibrate s codes failed) := by
  unfold Machine.calibrate
  try dsimp only
  repeat' first
    | with_reducible exact hz
    | with_reducible assumption
    | with_reducible apply Sound.widthMismatch
    | with_reducible apply Sound.start
    | with_reducible apply Sound.foldl
    | intro _
    | with_reducible refine Sound.of_pair (by assumption) ?_

theorem Sound.releaseHold {z s : State} (hz : Sound z s) (uncalibrated : List (Nat × Nat)) : Sound z (releaseHold s uncalibrated) := by
  unfold Machine.releaseHold
  try dsimp only
  repeat' first
    | with_reducible exact hz
    | with_reducible assumption
    | with_reducible apply Sound.calibrate
    | with_reducible apply Sound.releaseAll
    | with_reducible apply Sound.raisePorts
    | split
    | exact fun w => w.2.2.2
    | intro _
    | with_reducible apply Sound.setPkg

theorem Sound.settleReset {z s : State} (hz : Sound z s) (m : Nat) (codes : List Nat) (d : Option Bool) :
    Sound z (settleReset s m codes d) := by
  rcases d with _ | _ | _
  · exact hz.beginHold m codes
  · exact (hz.modModule m _).widthMismatch _ _ _
  · exact hz.rejoin m

theorem Sound.settleAttempt {z s : State} (hz : Sound z s) (m k : Nat) (l : List (Nat × Nat)) (d : Option Bool) :
    Sound z (settleAttempt s m k l d) := by
  rcases d with _ | _ | _
  · unfold Machine.settleAttempt; dsimp only; split
    · exact (hz.modModule m _).widthMismatch _ _ _
    · exact hz.modModule m _
  · exact (hz.modModule m _).widthMismatch _ _ _
  · exact (hz.rejoin m).releaseHold l

theorem Sound.releaseTiles (r : BootReport) {z s : State} (hz : Sound z s) : Sound z (releaseTiles r s) := (hz.setPkg _).releaseAll _

theorem Sound.bootTether {z s : State} (hz : Sound z s)  : Sound z (bootTether s) := by
  unfold Machine.bootTether
  try dsimp only
  repeat' first
    | with_reducible exact hz
    | with_reducible assumption
    | split
    | exact fun w => w.2.2.2
    | rfl
    | exact id
    | exact TollSound.refl _
    | (simp; done)
    | with_reducible apply Sound.setPkg
    | with_reducible apply Sound.setTether
    | with_reducible apply Sound.record

theorem Sound.joinModules {z s : State} (hz : Sound z s) (ms : List Nat) : Sound z (joinModules s ms) := by
  unfold Machine.joinModules
  try dsimp only
  repeat' first
    | with_reducible exact hz
    | with_reducible assumption
    | with_reducible apply Sound.modModule
    | with_reducible apply Sound.foldl
    | exact fun w => w.2.2.2
    | intro _

theorem Sound.discoveryFault (r : BootReport) (x : WalkRead) {z s : State} (hz : Sound z s) : Sound z (discoveryFault r x s) :=
  Sound.goOos (hz.logError ..) _

theorem Sound.stepFindings (r : BootReport) (u : State) (step : Nat) {z : State} :
    ∀ f ∈ stepFindings r u step, ∀ s, Sound z s → Sound z (f s) := by
  intro f hf s hz
  unfold Machine.stepFindings at hf
  simp only [List.mem_append, List.mem_map] at hf
  rcases hf with (((⟨x, -, rfl⟩ | ⟨x, -, rfl⟩) | ⟨x, -, rfl⟩) | ⟨x, -, rfl⟩) | ⟨x, -, rfl⟩
  · exact hz.discoveryFault r x
  · exact Sound.goOos (hz.logError ..) _
  · exact hz.widthMismatch ..
  · exact hz.widthMismatch ..
  · exact hz.widthMismatch ..

theorem Sound.applyAll {fs : List (State → State)} {z s : State} (hz : Sound z s) (hf : ∀ f ∈ fs, ∀ s, Sound z s → Sound z (f s)) :
    Sound z (fs.foldl (fun s f => f s) s) := by
  induction fs generalizing s with
  | nil => exact hz
  | cons f fs ih => exact ih (hf f (by simp) s hz) fun g hg => hf g (by simp [hg])

theorem Sound.bootRetry {z s : State} (hz : Sound z s) (r : BootRetry) : Sound z (bootRetry s r) := by
  unfold Machine.bootRetry; dsimp only
  split
  · exact Sound.settleReset (Sound.logError (hz.count ..) ..) _ _ _
  · split
    · exact hz
    · exact Sound.settleAttempt (hz.logError ..) _ _ _ _

theorem Sound.bootStep {z s : State} (hz : Sound z s) (r : BootReport) (step : Nat) : Sound z (bootStep r s step) := by
  unfold Machine.bootStep; dsimp only
  have h0 : Sound z { s with pkg := { s.pkg with bootStep := step } } := hz.setPkg _
  generalize ({ s with pkg := { s.pkg with bootStep := step } } : State) = u at h0 ⊢
  have h1 : Sound z (if step = 7 then Machine.releaseTiles r u else u) := by
    split
    · exact Sound.releaseTiles r h0
    · exact h0
  generalize (if step = 7 then Machine.releaseTiles r u else u) = v at h1 ⊢
  have h2 : Sound z ((bootRetries r step).foldl Machine.bootRetry v) := Sound.foldl h1 fun t x ht => ht.bootRetry x
  generalize (bootRetries r step).foldl Machine.bootRetry v = w at h2 ⊢
  have h3 : Sound z ((Machine.stepFindings r w step).foldl (fun s f => f s) w) := Sound.applyAll h2 (Sound.stepFindings r w step)
  generalize (Machine.stepFindings r w step).foldl (fun s f => f s) w = x at h3 ⊢
  split
  · exact h3.joinModules _
  · split
    · exact h3.joinModules _
    · split
      · exact Sound.bootCaisson h3.clearGeneral
      · exact h3

theorem Sound.bootSteps {z s : State} (hz : Sound z s) (r : BootReport) (k : Nat) : Sound z (bootSteps r k s) :=
  Sound.foldl hz fun t x ht => ht.bootStep r x

theorem Sound.stopBoot {z s : State} (hz : Sound z s) (r : BootReport) (step : Nat) : Sound z (stopBoot r step s) := by
  unfold Machine.stopBoot; dsimp only
  exact Sound.setPkg (Sound.goOos (Sound.foldl (Sound.setPkg (hz.bootSteps ..) _) fun t x ht => ht.bootRetry x) _) _

theorem Sound.checkModules {z s : State} (hz : Sound z s)  : Sound z (checkModules s) := by
  unfold Machine.checkModules
  try dsimp only
  repeat' first
    | with_reducible exact hz
    | with_reducible assumption
    | with_reducible apply Sound.goOos
    | split

theorem Sound.execBoot {z s : State} (hz : Sound z s) (report : BootReport) : SoundOut z (execBoot report s) := by
  unfold Machine.execBoot
  split
  · dsimp only
    refine .next ?_
    have h1 : Sound z (Machine.checkModules (Machine.bootFirmware { s with pkg := { s.pkg with bootStep := 2, found := foundBy report } })) :=
      Sound.checkModules (Sound.bootFirmware (hz.setPkg _))
    split
    · exact h1.stopBoot _ _
    · exact Sound.bootTether (Sound.raisePorts (h1.bootSteps _ _) _)
  · exact .next hz

theorem Sound.execModuleReset {z s : State} (hz : Sound z s) (module : Nat) : SoundOut z (execModuleReset module s) := by
  unfold Machine.execModuleReset
  try dsimp only
  repeat' first
    | with_reducible apply SoundOut.next
    | with_reducible exact hz
    | with_reducible assumption
    | with_reducible apply Sound.modModule
    | with_reducible apply Sound.count
    | split
    | exact fun w => w.2.2.2
    | intro _

theorem Sound.execModuleWidthReport {z s : State} (hz : Sound z s) (module : Nat) (near : TrainedWidth) (far : TrainedWidth) : SoundOut z (execModuleWidthReport module near far s) := by
  unfold Machine.execModuleWidthReport
  try dsimp only
  repeat' first
    | with_reducible apply SoundOut.next
    | with_reducible exact hz
    | with_reducible assumption
    | with_reducible apply Sound.logError
    | with_reducible apply Sound.settleReset
    | split
    | intro _

theorem Sound.execDieHoldAttemptEnd {z s : State} (hz : Sound z s) (module : Nat) (near : TrainedWidth) (far : AttemptEnd) : SoundOut z (execDieHoldAttemptEnd module near far s) := by
  unfold Machine.execDieHoldAttemptEnd
  try dsimp only
  repeat' first
    | with_reducible apply SoundOut.next
    | with_reducible exact hz
    | with_reducible assumption
    | with_reducible apply Sound.logError
    | with_reducible apply Sound.settleAttempt
    | split
    | exact fun w => w.2.2.2
    | with_reducible refine Sound.of_pair (by assumption) ?_
    | intro _

end Sys2Proof.Machine
end

