-- ==== Sys2Proof/Laws/SoundBoard.lean ====
section
/-! SUPPORT. Soundness of the operations of Machine/Board.lean (see Laws/Sound.lean). -/

namespace Sys2Proof.Machine

theorem TollSound.markRead (t : Tollhouse) (es : List LogEntry) : TollSound t (markRead t es) :=
  ⟨id, .refl _, fun w => by simpa [Machine.markRead] using w⟩

theorem Sound.execErrlogRead {z s : State} (hz : Sound z s) (q : Nat) (seq : Nat) : SoundOut z (execErrlogRead q seq s) := by
  unfold Machine.execErrlogRead
  try dsimp only
  repeat' first
    | exact TollSound.markRead _ _
    | with_reducible apply SoundOut.next
    | with_reducible exact hz
    | with_reducible assumption
    | with_reducible apply Sound.onCmd
    | with_reducible apply Sound.postHost
    | with_reducible apply Sound.finish
    | exact fun w => w.2.2.2
    | rfl
    | exact id
    | exact TollSound.refl _
    | (simp; done)
    | with_reducible apply Sound.setToll
    | intro _ _ _
    | intro _

theorem Sound.execSetdasa {z s : State} (hz : Sound z s) (static : Nat) (dynamic : Nat) : SoundOut z (execSetdasa static dynamic s) := by
  unfold Machine.execSetdasa
  try dsimp only
  repeat' first
    | with_reducible apply SoundOut.next
    | with_reducible exact hz
    | with_reducible assumption
    | split
    | exact fun w => w.2.2.2
    | rfl
    | exact id
    | exact TollSound.refl _
    | (simp; done)
    | with_reducible apply Sound.setToll
    | intro _

theorem Sound.execEntdaa {z s : State} (hz : Sound z s) (dynamic : Nat) : SoundOut z (execEntdaa dynamic s) := by
  unfold Machine.execEntdaa
  try dsimp only
  repeat' first
    | with_reducible apply SoundOut.next
    | with_reducible exact hz
    | with_reducible assumption
    | split
    | exact fun w => w.2.2.2
    | rfl
    | exact id
    | exact TollSound.refl _
    | (simp; done)
    | with_reducible apply Sound.setToll
    | intro _

theorem Sound.execSetEndpointId {z s : State} (hz : Sound z s) (eid : Nat) : SoundOut z (execSetEndpointId eid s) := by
  unfold Machine.execSetEndpointId
  try dsimp only
  repeat' first
    | with_reducible apply SoundOut.next
    | with_reducible exact hz
    | with_reducible assumption
    | with_reducible apply Sound.answer
    | split
    | exact fun w => w.2.2.2
    | rfl
    | exact id
    | exact TollSound.refl _
    | (simp; done)
    | with_reducible apply Sound.setToll
    | intro _

theorem Sound.execGetEndpointId {z s : State} (hz : Sound z s)  : SoundOut z (execGetEndpointId s) := by
  unfold Machine.execGetEndpointId
  try dsimp only
  repeat' first
    | with_reducible apply SoundOut.next
    | with_reducible exact hz
    | with_reducible assumption
    | with_reducible apply Sound.answer
    | split
    | intro _

theorem Sound.execGetMctpVersionSupport {z s : State} (hz : Sound z s)  : SoundOut z (execGetMctpVersionSupport s) := by
  unfold Machine.execGetMctpVersionSupport
  try dsimp only
  repeat' first
    | with_reducible apply SoundOut.next
    | with_reducible exact hz
    | with_reducible assumption
    | with_reducible apply Sound.freeUsed
    | with_reducible apply Sound.answer
    | split
    | intro _

theorem Sound.execGetMessageTypeSupport {z s : State} (hz : Sound z s)  : SoundOut z (execGetMessageTypeSupport s) := by
  unfold Machine.execGetMessageTypeSupport
  try dsimp only
  repeat' first
    | with_reducible apply SoundOut.next
    | with_reducible exact hz
    | with_reducible assumption
    | with_reducible apply Sound.answer
    | split
    | intro _

theorem Sound.execGetStatus {z s : State} (hz : Sound z s)  : SoundOut z (execGetStatus s) := by
  unfold Machine.execGetStatus
  try dsimp only
  repeat' first
    | with_reducible apply SoundOut.next
    | with_reducible exact hz
    | with_reducible assumption
    | with_reducible apply Sound.answerVoune
    | split
    | intro _

theorem Sound.execGetSensors {z s : State} (hz : Sound z s)  : SoundOut z (execGetSensors s) := by
  unfold Machine.execGetSensors
  try dsimp only
  repeat' first
    | with_reducible apply SoundOut.next
    | with_reducible exact hz
    | with_reducible assumption
    | with_reducible apply Sound.freeUsed
    | with_reducible apply Sound.answerVoune
    | split
    | intro _

theorem Sound.execReadErrlog {z s : State} (hz : Sound z s) (count : Nat) (first : Nat) : SoundOut z (execReadErrlog count first s) := by
  unfold Machine.execReadErrlog
  try dsimp only
  repeat' first
    | exact TollSound.markRead _ _
    | with_reducible apply SoundOut.next
    | with_reducible exact hz
    | with_reducible assumption
    | with_reducible apply Sound.count
    | with_reducible apply Sound.answerVoune
    | split
    | exact fun w => w.2.2.2
    | rfl
    | exact id
    | exact TollSound.refl _
    | (simp; done)
    | with_reducible apply Sound.setToll
    | intro _

theorem Sound.execGetIdentity {z s : State} (hz : Sound z s) (first : Nat) : SoundOut z (execGetIdentity first s) := by
  unfold Machine.execGetIdentity
  try dsimp only
  repeat' first
    | with_reducible apply SoundOut.next
    | with_reducible exact hz
    | with_reducible assumption
    | with_reducible apply Sound.answerVoune
    | split
    | intro _

theorem Sound.execPowerTable {z s : State} (hz : Sound z s) (payload : List Byte) : SoundOut z (execPowerTable payload s) := by
  unfold Machine.execPowerTable
  try dsimp only
  repeat' first
    | with_reducible apply SoundOut.next
    | with_reducible exact hz
    | with_reducible assumption
    | with_reducible apply Sound.loadTable
    | with_reducible apply Sound.answerVoune
    | split
    | with_reducible refine Sound.of_pair (by assumption) ?_
    | intro _

theorem Sound.execResetRequest {z s : State} (hz : Sound z s)  : SoundOut z (execResetRequest s) := by
  unfold Machine.execResetRequest
  try dsimp only
  repeat' first
    | with_reducible apply SoundOut.next
    | with_reducible exact hz
    | with_reducible assumption
    | with_reducible apply Sound.warmReset
    | with_reducible apply Sound.answerVoune
    | split
    | intro _

theorem Sound.execRecoveryWrite {z s : State} (hz : Sound z s) (offset : Nat) (data : List Byte) : SoundOut z (execRecoveryWrite offset data s) := by
  unfold Machine.execRecoveryWrite
  try dsimp only
  repeat' first
    | exact ⟨fun w => Memory.wf_write w _ _, .refl _, id⟩
    | with_reducible apply SoundOut.next
    | with_reducible exact hz
    | with_reducible assumption
    | with_reducible apply Sound.answerVoune
    | with_reducible apply Sound.Coll_write
    | split
    | exact fun w => w.2.2.2
    | rfl
    | exact id
    | exact TollSound.refl _
    | (simp; done)
    | with_reducible apply Sound.setToll
    | intro _

theorem Sound.execRecoveryCommit {z s : State} (hz : Sound z s)  : SoundOut z (execRecoveryCommit s) := by
  unfold Machine.execRecoveryCommit
  try dsimp only
  repeat' first
    | exact ⟨fun _ => Memory.wf_nil, .refl _, id⟩
    | with_reducible apply SoundOut.next
    | with_reducible exact hz
    | with_reducible assumption
    | with_reducible apply Sound.commitUpdate
    | with_reducible apply Sound.Coll_read
    | with_reducible apply Sound.answerVoune
    | split
    | exact fun w => w.2.2.2
    | with_reducible refine Sound.of_pair (by assumption) ?_
    | rfl
    | exact id
    | exact TollSound.refl _
    | (simp; done)
    | with_reducible apply Sound.setToll
    | intro _

end Sys2Proof.Machine
end

