-- ==== Sys2Proof/Laws/SoundCounters.lean ====
section
/-! SUPPORT. Soundness of the operations of Machine/Counters.lean (see Laws/Sound.lean). -/

namespace Sys2Proof.Machine

theorem Sound.captures (n : Nat) (xs : List Nat) (before : Option Nat) {z s : State} (hz : Sound z s) :
    Sound z (captures n xs before s).1 := by
  induction xs generalizing before s with
  | nil => exact hz
  | cons x xs ih =>
    unfold Machine.captures; dsimp only
    refine ih _ ?_
    cases before with
    | some y =>
      have h1 := (hz.freeUsed 1).advanceTo (s.time + freeBelow s (captureBound s n y x + 1))
      dsimp only
      split
      · exact h1.freeUsed 1
      · exact h1
    | none =>
      dsimp only
      split
      · exact hz.freeUsed 1
      · exact hz

theorem Sound.execCtrRead {z s : State} (hz : Sound z s) (q : Nat) (seq : Nat) : SoundOut z (execCtrRead q seq s) := by
  unfold Machine.execCtrRead
  try dsimp only
  repeat' first
    | with_reducible apply SoundOut.next
    | with_reducible exact hz
    | with_reducible assumption
    | with_reducible apply Sound.onCmd
    | with_reducible apply Sound.refuse
    | with_reducible apply Sound.finish
    | with_reducible apply Sound.captures
    | with_reducible apply Sound.postHost
    | split
    | exact fun w => w.2.2.2
    | with_reducible refine Sound.of_pair (by assumption) ?_
    | intro _ _ _
    | intro _

theorem Sound.takeSelect {z s : State} (hz : Sound z s) (q : Nat) (seq : Nat) (n : Nat) (piers : List Nat) (es : List Nat) : Sound z (takeSelect s q seq n piers es) := by
  unfold Machine.takeSelect
  try dsimp only
  repeat' first
    | with_reducible exact hz
    | with_reducible assumption
    | with_reducible apply Sound.modCtx
    | with_reducible apply Sound.finish
    | with_reducible apply Sound.foldl
    | split
    | exact fun w => w.2.2.2
    | intro _
    | with_reducible refine Sound.of_pair (by assumption) ?_
    | with_reducible apply Sound.setWaits
    | with_reducible apply Sound.setWaitsFree
    | with_reducible apply Sound.record

theorem Sound.execCtrSelect {z s : State} (hz : Sound z s) (q : Nat) (seq : Nat) : SoundOut z (execCtrSelect q seq s) := by
  unfold Machine.execCtrSelect
  try dsimp only
  repeat' first
    | with_reducible apply SoundOut.next
    | with_reducible exact hz
    | with_reducible assumption
    | with_reducible apply Sound.onCmd
    | with_reducible apply Sound.refuse
    | with_reducible apply Sound.takeSelect
    | split
    | exact fun w => w.2.2.2
    | with_reducible refine Sound.of_pair (by assumption) ?_
    | intro _ _ _
    | intro _

theorem Sound.execSampleStart {z s : State} (hz : Sound z s) (q : Nat) (seq : Nat) : SoundOut z (execSampleStart q seq s) := by
  unfold Machine.execSampleStart
  try dsimp only
  repeat' first
    | with_reducible apply SoundOut.next
    | with_reducible exact hz
    | with_reducible assumption
    | with_reducible apply Sound.onCmd
    | with_reducible apply Sound.refuse
    | with_reducible apply Sound.modCtx
    | with_reducible apply Sound.writeHbm
    | with_reducible apply Sound.finish
    | split
    | exact fun w => w.2.2.2
    | with_reducible refine Sound.of_pair (by assumption) ?_
    | intro _ _ _
    | intro _

theorem Sound.execSampleStop {z s : State} (hz : Sound z s) (q : Nat) (seq : Nat) : SoundOut z (execSampleStop q seq s) := by
  unfold Machine.execSampleStop
  try dsimp only
  repeat' first
    | with_reducible apply SoundOut.next
    | with_reducible exact hz
    | with_reducible assumption
    | with_reducible apply Sound.onCmd
    | with_reducible apply Sound.flushRecords
    | with_reducible apply Sound.finish
    | with_reducible apply Sound.endSampling
    | split
    | exact fun w => w.2.2.2
    | with_reducible refine Sound.of_pair (by assumption) ?_
    | intro _ _ _
    | intro _

end Sys2Proof.Machine
end

