-- ==== Sys2Proof/Laws/SoundContexts.lean ====
section
/-! SUPPORT. Soundness of the operations of Machine/Contexts.lean (see Laws/Sound.lean). -/

namespace Sys2Proof.Machine

theorem Sound.execCtxCreate {z s : State} (hz : Sound z s) (q : Nat) (seq : Nat) : SoundOut z (execCtxCreate q seq s) := by
  unfold Machine.execCtxCreate
  try dsimp only
  repeat' first
    | with_reducible apply SoundOut.next
    | with_reducible exact hz
    | with_reducible assumption
    | with_reducible apply Sound.onCmd
    | with_reducible apply Sound.refuse
    | with_reducible apply Sound.finish
    | with_reducible apply Sound.setCtx
    | with_reducible apply SoundOpt.some
    | with_reducible exact SoundOpt.none _
    | split
    | intro _ _ _
    | intro _

theorem Sound.zeroRange {z s : State} (hz : Sound z s) (r : Nat × Nat) : Sound z (zeroRange s r) := by
  unfold Machine.zeroRange
  exact Sound.setHbm (hz.copyFirst r.1 r.2) _ (fun w => Hbm.wf_fill w _ _ _) rfl

theorem Sound.execCtxGrant {z s : State} (hz : Sound z s) (q : Nat) (seq : Nat) : SoundOut z (execCtxGrant q seq s) := by
  unfold Machine.execCtxGrant
  try dsimp only
  repeat' first
    | with_reducible apply SoundOut.next
    | with_reducible exact hz
    | with_reducible assumption
    | with_reducible apply Sound.onCmd
    | with_reducible apply Sound.refuse
    | with_reducible apply Sound.zeroRange
    | with_reducible apply Sound.modCtx
    | with_reducible apply Sound.finish
    | with_reducible apply SoundOpt.some
    | with_reducible exact SoundOpt.none _
    | with_reducible apply Sound.foldl
    | split
    | exact fun w => w.2.2.2
    | with_reducible refine Sound.of_pair (by assumption) ?_
    | intro _ _ _
    | intro _

theorem Sound.charge {z s : State} (hz : Sound z s)  : Sound z (charge s) := by
  unfold Machine.charge
  try dsimp only
  repeat' first
    | with_reducible exact hz
    | with_reducible assumption
    | with_reducible apply Sound.modCtx
    | with_reducible apply SoundOpt.some
    | with_reducible exact SoundOpt.none _
    | split
    | exact fun w => w.2.2.2
    | intro _
    | with_reducible refine Sound.of_pair (by assumption) ?_
    | rfl
    | exact id
    | exact TollSound.refl _
    | (simp; done)
    | with_reducible apply Sound.setTime
    | with_reducible apply Sound.setSched
    | with_reducible apply Sound.record

theorem Sound.endSlice {z s : State} (hz : Sound z s)  : Sound z (endSlice s) := by
  unfold Machine.endSlice
  try dsimp only
  repeat' first
    | with_reducible exact hz
    | with_reducible assumption
    | with_reducible apply Sound.charge
    | with_reducible apply Sound.finish
    | with_reducible apply SoundOpt.some
    | with_reducible exact SoundOpt.none _
    | split
    | exact fun w => w.2.2.2
    | with_reducible refine Sound.of_pair (by assumption) ?_
    | rfl
    | exact id
    | exact TollSound.refl _
    | (simp; done)
    | with_reducible apply Sound.setTime
    | with_reducible apply Sound.setSched
    | with_reducible apply Sound.record

theorem Sound.beginSlice {z s : State} (hz : Sound z s) (e : Slice) (effective : Nat) : Sound z (beginSlice s e effective) := by
  unfold Machine.beginSlice
  try dsimp only
  repeat' first
    | with_reducible exact hz
    | with_reducible assumption
    | with_reducible apply Sound.start
    | with_reducible apply Sound.charge
    | with_reducible apply Sound.modCtx
    | with_reducible apply SoundOpt.some
    | with_reducible exact SoundOpt.none _
    | exact fun w => w.2.2.2
    | intro _
    | rfl
    | exact id
    | exact TollSound.refl _
    | (simp; done)
    | with_reducible apply Sound.setSched
    | with_reducible apply Sound.record

theorem Sound.consumeHeads (f : Nat) {z s : State} (hz : Sound z s) : Sound z (consumeHeads f s) := by
  induction f generalizing s with
  | zero => exact hz
  | succ f ih =>
    unfold Machine.consumeHeads; split
    · exact hz
    · rename_i e rest hq
      split
      · exact hz
      · dsimp only
        refine ih (Sound.finish ?_ _ _ _ _)
        refine Sound.setSched (hz.modCtx _ _) _ fun w => ?_
        have : s.sched.queue.length ≤ 16 := w
        rw [hq] at this
        simp only [List.length_cons] at this
        show rest.length ≤ 16
        omega

theorem Sound.popSlice {z s : State} (hz : Sound z s) : Sound z (popSlice s) :=
  hz.setSched _ fun w => by simp only [List.length_drop]; omega

theorem Sound.takeSlice {z s : State} (hz : Sound z s)  : Sound z (takeSlice s) := by
  unfold Machine.takeSlice
  try dsimp only
  repeat' first
    | with_reducible exact hz
    | with_reducible assumption
    | with_reducible apply Sound.consumeHeads
    | with_reducible apply Sound.popSlice
    | with_reducible apply Sound.beginSlice
    | with_reducible apply SoundOpt.some
    | with_reducible exact SoundOpt.none _
    | split
    | exact fun w => w.2.2.2
    | with_reducible refine Sound.of_pair (by assumption) ?_
    | rfl
    | exact id
    | exact TollSound.refl _
    | (simp; done)
    | with_reducible apply Sound.setSched

theorem Sound.followSlice {z s : State} (hz : Sound z s) (e : Slice) : Sound z (followSlice s e) := by
  unfold Machine.followSlice
  try dsimp only
  repeat' first
    | with_reducible exact hz
    | with_reducible assumption
    | with_reducible apply Sound.popSlice
    | with_reducible apply Sound.endSlice
    | with_reducible apply Sound.beginSlice

theorem Sound.passEnd {z s : State} (hz : Sound z s) (ready : Nat) : Sound z (passEnd s ready) := by
  unfold Machine.passEnd
  try dsimp only
  repeat' first
    | with_reducible exact hz
    | with_reducible assumption
    | with_reducible apply Sound.consumeHeads
    | with_reducible apply Sound.followSlice
    | with_reducible apply SoundOpt.some
    | with_reducible exact SoundOpt.none _
    | split
    | exact fun w => w.2.2.2
    | with_reducible refine Sound.of_pair (by assumption) ?_
    | rfl
    | exact id
    | exact TollSound.refl _
    | (simp; done)
    | with_reducible apply Sound.setSched
    | with_reducible apply Sound.record

theorem Sound.passDue {z s : State} (hz : Sound z s) (ready : Option Nat) : Sound z (passDue s ready) := by
  unfold Machine.passDue
  try dsimp only
  repeat' first
    | with_reducible exact hz
    | with_reducible assumption
    | with_reducible apply Sound.passEnd
    | with_reducible apply SoundOpt.some
    | with_reducible exact SoundOpt.none _
    | split
    | exact fun w => w.2.2.2
    | with_reducible refine Sound.of_pair (by assumption) ?_
    | with_reducible apply Sound.setTime

theorem Sound.execSliceNominalEnd {z s : State} (hz : Sound z s)  : SoundOut z (execSliceNominalEnd s) := by
  unfold Machine.execSliceNominalEnd
  try dsimp only
  repeat' first
    | with_reducible apply SoundOut.next
    | with_reducible exact hz
    | with_reducible assumption
    | with_reducible apply Sound.passEnd
    | with_reducible apply Sound.advanceTo
    | split
    | exact fun w => w.2.2.2
    | with_reducible refine Sound.of_pair (by assumption) ?_
    | intro _

theorem Sound.execCtxSlice {z s : State} (hz : Sound z s) (q seq : Nat) : SoundOut z (execCtxSlice q seq s) := by
  refine .next (hz.onCmd _ _ _ _ fun s t hs => ?_)
  split
  · exact hs
  · split
    · exact hs.refuse ..
    · have h0 := hs.passDue none
      dsimp only
      split
      · exact h0.refuse ..
      · rename_i hn
        generalize Machine.passDue s none = u at h0 hn
        have h1 : Sound z { u with sched := { u.sched with
            queue := u.sched.queue ++ [{ ctx := t.param 0, lengthNs := t.param 1 * 1000, q, seq }] } } :=
          h0.setSched _ fun _ => by simp only [List.length_append, List.length_singleton]; omega
        split
        · exact h1.takeSlice
        · exact h1.passDue _

theorem Sound.withdraw {z s : State} (hz : Sound z s) (n : Nat) (im : Image) (p : Nat) : Sound z (withdraw n im s p) := by
  unfold Machine.withdraw
  try dsimp only
  repeat' first
    | with_reducible exact hz
    | with_reducible assumption
    | with_reducible apply Sound.sampleTick
    | with_reducible apply Sound.takeRecord
    | with_reducible apply Sound.modCtx
    | with_reducible apply SoundOpt.some
    | with_reducible exact SoundOpt.none _
    | split
    | exact fun w => w.2.2.2
    | intro _
    | with_reducible refine Sound.of_pair (by assumption) ?_
    | with_reducible apply Sound.record

theorem Sound.storeCopy {z s : State} (hz : Sound z s) (r : Reader) (a len : Nat) (f : Hbm → Memory)
    (hf : ∀ h : Hbm, Memory.Wf h.mem → Memory.Wf (f h)) : Sound z (Machine.storeHbm s r a len fun h => h.commit a len (f h)).1 :=
  hz.storeHbm _ _ _ fun m => ⟨fun w => Hbm.wf_commit (hf m w) _ _, rfl⟩

theorem Sound.savePad {z s : State} (hz : Sound z s) (n : Nat) (c : Context) (im : Image) (p : Nat) : Sound z (savePad n c im s p) := by
  unfold Machine.savePad; dsimp only; split
  · exact hz
  · split
    · exact hz.padFault ..
    · have h1 := fun r a len m => Sound.storeCopy (hz.correctWords n p [{ start := 0, bytes := scratchOf im.decls p }]) r a len
        (fun h => Memory.copyFrom h.mem m 0 a len) fun h w => Memory.wf_copyFrom w _ _ _ _
      split
      · rename_i e; exact (Sound.of_pair e (h1 _ _ _ _)).memoryFault _
      · rename_i e; exact Sound.of_pair e (h1 _ _ _ _)

theorem Sound.saveSlot {z s : State} (n : Nat) (im : Image) (x : SpanQueue) (i h len : Nat) (hz : Sound z s) :
    Sound z (saveSlot n im x i h len s) := by
  unfold Machine.saveSlot; dsimp only; split
  · exact hz.slotFault ..
  · split
    · exact hz.spanFault ..
    · split
      · rename_i e; exact Sound.of_pair e ((hz.correctSlot ..).spillPath ..)
      · rename_i e
        have h1 := fun r m => Sound.storeCopy (Sound.of_pair e ((hz.correctSlot ..).spillPath ..)) r h len
          (fun u => Memory.copyFrom u.mem m 0 h len) fun u w => Memory.wf_copyFrom w _ _ _ _
        split
        · rename_i e; exact (Sound.of_pair e (h1 _ _)).memoryFault _
        · rename_i e; exact (Sound.of_pair e (h1 _ _)).modSlot ..

theorem Sound.saveSlots {z s : State} (hz : Sound z s) (n : Nat) (im : Image) (x : SpanQueue) : Sound z (saveSlots n im s x) := by
  unfold Machine.saveSlots
  try dsimp only
  repeat' first
    | with_reducible exact hz
    | with_reducible assumption
    | with_reducible apply Sound.saveSlot
    | with_reducible apply Sound.modSlot
    | with_reducible apply SoundOpt.some
    | with_reducible exact SoundOpt.none _
    | with_reducible apply Sound.foldl
    | split
    | exact fun w => w.2.2.2
    | intro _
    | with_reducible refine Sound.of_pair (by assumption) ?_
    | with_reducible apply Sound.setFree

theorem Sound.dropPiers {z s : State} (hz : Sound z s) : Sound z { s with piers := [] } :=
  hz.trans ⟨rfl, id, fun w => ⟨w.1, w.2.1, w.2.2.1, by simp, by simp⟩, .refl _, id⟩

theorem Sound.saveProgram {z s : State} (hz : Sound z s) (n : Nat) : Sound z (saveProgram s n) := by
  unfold Machine.saveProgram; split
  · dsimp only
    refine Sound.dropPiers ?_
    split
    · refine Sound.modProg ?_ n _
      refine Sound.foldl ?_ fun t p ht => ht.savePad ..
      refine Sound.foldl ?_ fun t p ht => ht.saveSlots ..
      exact Sound.foldl hz fun t p ht => ht.withdraw ..
    · exact hz
  · exact hz.dropPiers

theorem Sound.addOverrun {z s : State} (hz : Sound z s) (x : CurrentSlice) : Sound z (addOverrun s x) := by
  unfold Machine.addOverrun
  try dsimp only
  repeat' first
    | with_reducible exact hz
    | with_reducible assumption
    | with_reducible apply Sound.modCtx
    | with_reducible apply SoundOpt.some
    | with_reducible exact SoundOpt.none _
    | exact fun w => w.2.2.2
    | intro _
    | rfl
    | exact id
    | exact TollSound.refl _
    | (simp; done)
    | with_reducible apply Sound.setSched
    | with_reducible apply Sound.record

theorem Sound.execSwitchOut {z s : State} (hz : Sound z s)  : SoundOut z (execSwitchOut s) := by
  unfold Machine.execSwitchOut
  try dsimp only
  repeat' first
    | with_reducible apply SoundOut.next
    | with_reducible exact hz
    | with_reducible assumption
    | with_reducible apply Sound.consumeHeads
    | with_reducible apply Sound.opDone
    | with_reducible apply Sound.followSlice
    | with_reducible apply Sound.addOverrun
    | with_reducible apply Sound.popSlice
    | with_reducible apply Sound.saveProgram
    | split
    | exact fun w => w.2.2.2
    | with_reducible refine Sound.of_pair (by assumption) ?_
    | rfl
    | exact id
    | exact TollSound.refl _
    | (simp; done)
    | with_reducible apply Sound.setSched
    | with_reducible apply Sound.record
    | intro _

theorem Sound.reload {z s : State} (hz : Sound z s) (n : Nat) (im : Image) (plane : Bool) (p : Nat) : Sound z (reload n im plane s p) := by
  unfold Machine.reload; split
  · exact hz
  · split
    · rename_i e; exact Sound.of_pair e (hz.readOrFault ..)
    · rename_i e
      refine Sound.modPier (Sound.of_pair e (hz.readOrFault ..)) _ _ ?_
      exact fun P w => wf_setPlane w _ _

theorem Sound.reloadStore {z s : State} (hz : Sound z s) (n : Nat) (im : Image) (p : Nat) : Sound z (reloadStore n im s p) := by
  unfold Machine.reloadStore
  try dsimp only
  repeat' first
    | with_reducible exact hz
    | with_reducible assumption
    | with_reducible apply Sound.readOrFault
    | with_reducible apply Sound.modPier
    | with_reducible apply SoundOpt.some
    | with_reducible exact SoundOpt.none _
    | split
    | exact fun w => w.2.2.2
    | intro _
    | with_reducible refine Sound.of_pair (by assumption) ?_
    | rfl
    | exact fun _ w => w

theorem Sound.restorePier {z s : State} (hz : Sound z s) (n : Nat) (c : Context) (im : Image) (P : Pier) :
    Sound z (restorePier n c im s P) := by
  unfold Machine.restorePier; dsimp only; split
  · exact hz
  · split
    · rename_i e; exact Sound.of_pair e (hz.readOrFault ..)
    · rename_i e
      refine Sound.reload (Sound.reload (Sound.reloadStore (Sound.setPier (Sound.of_pair e (hz.readOrFault ..)) _ ?_) ..) ..) ..
      exact fun _ => Memory.wf_copyFrom Memory.wf_nil _ _ _ _

theorem Sound.restoreSlots {z s : State} (hz : Sound z s) (n : Nat) (im : Image) (x : SpanQueue) : Sound z (restoreSlots n im s x) := by
  unfold Machine.restoreSlots
  try dsimp only
  repeat' first
    | with_reducible exact hz
    | with_reducible assumption
    | with_reducible apply Sound.spillPath
    | with_reducible apply Sound.readOrFault
    | with_reducible apply Sound.modSlot
    | with_reducible apply SoundOpt.some
    | with_reducible exact SoundOpt.none _
    | with_reducible apply Sound.foldl
    | split
    | exact fun w => w.2.2.2
    | intro _
    | with_reducible refine Sound.of_pair (by assumption) ?_
    | rfl
    | exact id
    | exact TollSound.refl _
    | (simp; done)
    | with_reducible apply Sound.setFree
    | with_reducible apply Sound.setHbm
    | with_reducible apply Sound.record

theorem Sound.drainAssoc {z s : State} (hz : Sound z s) (n : Nat) (a : Assoc) : Sound z (drainAssoc n s a) := by
  unfold Machine.drainAssoc
  try dsimp only
  repeat' first
    | with_reducible exact hz
    | with_reducible assumption
    | with_reducible apply Sound.drainBacklog

theorem Sound.restoreProgram {z s : State} (hz : Sound z s) (n : Nat) : Sound z (restoreProgram s n) := by
  unfold Machine.restoreProgram
  try dsimp only
  repeat' first
    | with_reducible exact hz
    | with_reducible assumption
    | with_reducible apply Sound.restoreSlots
    | with_reducible apply Sound.restorePier
    | with_reducible apply Sound.modProg
    | with_reducible apply Sound.runStays
    | with_reducible apply Sound.drainAssoc
    | with_reducible apply Sound.raiseHigh
    | with_reducible apply Sound.startProgram
    | with_reducible apply SoundOpt.some
    | with_reducible exact SoundOpt.none _
    | with_reducible apply Sound.foldl
    | split
    | exact fun w => w.2.2.2
    | intro _
    | with_reducible refine Sound.of_pair (by assumption) ?_
    | rfl
    | exact id
    | exact TollSound.refl _
    | (simp; done)
    | with_reducible apply Sound.setTime
    | with_reducible apply Sound.setQueues
    | with_reducible apply Sound.record

theorem Sound.execSwitchIn {z s : State} (hz : Sound z s)  : SoundOut z (execSwitchIn s) := by
  unfold Machine.execSwitchIn
  try dsimp only
  repeat' first
    | with_reducible apply SoundOut.next
    | with_reducible exact hz
    | with_reducible assumption
    | with_reducible apply Sound.endSlice
    | with_reducible apply Sound.charge
    | with_reducible apply Sound.restoreProgram
    | with_reducible apply Sound.beginSlice
    | split
    | exact fun w => w.2.2.2
    | with_reducible refine Sound.of_pair (by assumption) ?_
    | rfl
    | exact id
    | exact TollSound.refl _
    | (simp; done)
    | with_reducible apply Sound.setSched
    | intro _

theorem Sound.dropSlices {z s : State} (hz : Sound z s) (hit : Slice → Bool) : Sound z (dropSlices s hit) := by
  have le : ∀ {l : List Slice} {p : Slice → Bool}, l.length ≤ 16 → (l.filter p).length ≤ 16 := fun w => (List.length_filter_le _ _).trans w
  unfold Machine.dropSlices; dsimp only; split
  · split
    · have h1 := Sound.consumeHeads (s.sched.queue.filter fun e => !hit e).length
        (hz.setSched { s.sched with queue := s.sched.queue.filter fun e => !hit e, incoming := none } le)
      split
      · exact Sound.popSlice (h1.setSched _ id)
      · exact Sound.setSched (Sound.endSlice h1) _ id
    · exact hz.setSched _ le
  · exact hz.setSched _ le

theorem Sound.releaseConfig {z s : State} (hz : Sound z s) (n : Nat) : Sound z (releaseConfig s n) := by
  unfold Machine.releaseConfig
  try dsimp only
  repeat' first
    | with_reducible exact hz
    | with_reducible assumption
    | with_reducible apply SoundOpt.some
    | with_reducible exact SoundOpt.none _
    | split
    | exact fun w => w.2.2.2
    | with_reducible apply Sound.setCaisson

theorem Sound.noneCurrent {z s : State} (hz : Sound z s) :
    Sound z { s with sched := { s.sched with current := none } } := hz.setSched _ id

theorem Sound.noneActive {z s : State} (hz : Sound z s) :
    Sound z { s with sched := { s.sched with active := none }, piers := [] } :=
  Sound.dropPiers (hz.setSched { s.sched with active := none } id)

theorem Sound.endSlicesOf {z s : State} (hz : Sound z s) (n : Nat) : Sound z (endSlicesOf s n) := by
  unfold Machine.endSlicesOf; dsimp only
  have h1 : Sound z (((Machine.pendingSlices s).filter fun e => e.ctx == n).foldl (fun s e => Machine.finish s e.q e.seq stAborted [])
      (Machine.dropSlices s fun e => e.ctx == n)) := Sound.foldl (hz.dropSlices _) fun t e ht => ht.finish ..
  generalize ((Machine.pendingSlices s).filter fun e => e.ctx == n).foldl _ _ = u at h1
  cases hc : u.sched.current with
  | none =>
    dsimp only
    split
    · exact h1.charge.noneActive
    · exact h1
  | some x =>
    dsimp only
    by_cases hx : x.slice.ctx = n
    · simp only [if_pos hx]
      have h2 := Sound.finish h1.charge.noneCurrent x.slice.q x.slice.seq stOk (sliceReply ((Machine.charge u).time - x.start) 0 0)
      split
      · exact h2.charge.noneActive
      · exact h2
    · simp only [if_neg hx]
      split
      · exact h1.charge.noneActive
      · exact h1

theorem Sound.execCtxDestroy {z s : State} (hz : Sound z s) (q : Nat) (seq : Nat) : SoundOut z (execCtxDestroy q seq s) := by
  unfold Machine.execCtxDestroy
  try dsimp only
  repeat' first
    | with_reducible apply SoundOut.next
    | with_reducible exact hz
    | with_reducible assumption
    | with_reducible apply Sound.onCmd
    | with_reducible apply Sound.refuse
    | with_reducible apply Sound.endSlicesOf
    | with_reducible apply Sound.releaseConfig
    | with_reducible apply Sound.zeroRange
    | with_reducible apply Sound.takeSlice
    | with_reducible apply Sound.finish
    | with_reducible apply Sound.setCtx
    | with_reducible apply Sound.foldl
    | split
    | exact fun w => w.2.2.2
    | with_reducible refine Sound.of_pair (by assumption) ?_
    | rfl
    | exact id
    | exact TollSound.refl _
    | (simp; done)
    | with_reducible apply Sound.setQueues
    | intro _ _ _
    | intro _

theorem Sound.execCtxQuery {z s : State} (hz : Sound z s) (q : Nat) (seq : Nat) : SoundOut z (execCtxQuery q seq s) := by
  unfold Machine.execCtxQuery
  try dsimp only
  repeat' first
    | with_reducible apply SoundOut.next
    | with_reducible exact hz
    | with_reducible assumption
    | with_reducible apply Sound.onCmd
    | with_reducible apply Sound.refuse
    | with_reducible apply Sound.finish
    | split
    | exact fun w => w.2.2.2
    | with_reducible refine Sound.of_pair (by assumption) ?_
    | rfl
    | exact id
    | exact TollSound.refl _
    | (simp; done)
    | with_reducible apply Sound.setSched
    | intro _ _ _
    | intro _

theorem Sound.stopTarget {z s : State} (hz : Sound z s) (t : Taken) : Sound z (stopTarget s t) := by
  unfold Machine.stopTarget
  try dsimp only
  repeat' first
    | with_reducible exact hz
    | with_reducible assumption
    | with_reducible apply Sound.dropSlices
    | with_reducible apply Sound.dropLaunch
    | with_reducible apply Sound.sendCloses
    | with_reducible apply Sound.endFeed
    | with_reducible apply SoundOpt.some
    | with_reducible exact SoundOpt.none _
    | split
    | exact fun w => w.2.2.2
    | intro _
    | with_reducible refine Sound.of_pair (by assumption) ?_

theorem Sound.lateHeld {z s : State} (hz : Sound z s) (q : Nat) (seq : Nat) : Sound z (lateHeld s q seq) := by
  unfold Machine.lateHeld
  try dsimp only
  repeat' first
    | with_reducible exact hz
    | with_reducible assumption
    | with_reducible apply Sound.modQueue
    | split
    | exact fun w => w.2.2.2
    | intro _
    | with_reducible apply Sound.record

theorem Sound.abortTarget {z s : State} (hz : Sound z s) (q : Nat) (seq : Nat) (tq : Nat) (tseq : Nat) : Sound z (abortTarget s q seq tq tseq) := by
  unfold Machine.abortTarget
  try dsimp only
  repeat' first
    | with_reducible exact hz
    | with_reducible assumption
    | with_reducible apply Sound.finish
    | with_reducible apply Sound.stopTarget
    | with_reducible apply Sound.faultContext
    | with_reducible apply Sound.lateHeld
    | with_reducible apply SoundOpt.some
    | with_reducible exact SoundOpt.none _
    | split
    | exact fun w => w.2.2.2
    | intro _
    | with_reducible refine Sound.of_pair (by assumption) ?_
    | with_reducible apply Sound.setAborts
    | with_reducible apply Sound.setCmdsAborts
    | with_reducible apply Sound.record

theorem Sound.abortLate {z s : State} (hz : Sound z s) (q : Nat) (seq : Nat) (tq : Nat) (tseq : Nat) (outcome : Nat) : Sound z (abortLate s q seq tq tseq outcome) := by
  unfold Machine.abortLate
  try dsimp only
  repeat' first
    | with_reducible exact hz
    | with_reducible assumption
    | with_reducible apply Sound.finish
    | split
    | exact fun w => w.2.2.2
    | with_reducible apply Sound.setAborts
    | with_reducible apply Sound.setCmdsAborts
    | with_reducible apply Sound.record

theorem Sound.execCmdAbort {z s : State} (hz : Sound z s) (q : Nat) (seq : Nat) : SoundOut z (execCmdAbort q seq s) := by
  unfold Machine.execCmdAbort
  try dsimp only
  repeat' first
    | with_reducible apply SoundOut.next
    | with_reducible exact hz
    | with_reducible assumption
    | with_reducible apply Sound.onCmd
    | with_reducible apply Sound.refuse
    | with_reducible apply Sound.abortLate
    | with_reducible apply Sound.abortTarget
    | split
    | exact fun w => w.2.2.2
    | with_reducible refine Sound.of_pair (by assumption) ?_
    | intro _ _ _
    | intro _

end Sys2Proof.Machine
end

