-- ==== Sys2Proof/Laws/SoundTether.lean ====
section
/-! SUPPORT. Soundness of the operations of Machine/Tether.lean (see Laws/Sound.lean). -/

namespace Sys2Proof.Machine

theorem Sound.modTether {z s : State} (hz : Sound z s) (f : Tether → Tether)
    (hf : Memory.Wf s.tether.hostMem → Memory.Wf (f s.tether).hostMem) : Sound z (modTether s f) := hz.setTether _ hf

theorem Sound.stopPrograms {z s : State} (hz : Sound z s)  : Sound z (stopPrograms s) := by
  unfold Machine.stopPrograms
  try dsimp only
  repeat' first
    | with_reducible exact hz
    | with_reducible assumption
    | with_reducible apply Sound.faultContext
    | with_reducible apply Sound.dropLaunch
    | with_reducible apply Sound.sendCloses
    | with_reducible apply SoundOpt.some
    | with_reducible exact SoundOpt.none _
    | with_reducible apply Sound.foldl
    | split
    | exact fun w => w.2.2.2
    | intro _
    | with_reducible refine Sound.of_pair (by assumption) ?_

theorem Sound.abortCommands {z s : State} (hz : Sound z s)  : Sound z (abortCommands s) := by
  unfold Machine.abortCommands
  try dsimp only
  repeat' first
    | with_reducible exact hz
    | with_reducible assumption
    | with_reducible apply Sound.finish
    | with_reducible apply Sound.foldl
    | split
    | intro _

theorem Sound.leaveService {z s : State} (hz : Sound z s) : Sound z (leaveService s) :=
  Sound.setPkg (Sound.modTether hz.footingsDown _ id) _

theorem Sound.settleRemoval {z s : State} (hz : Sound z s)  : Sound z (settleRemoval s) := by
  unfold Machine.settleRemoval
  try dsimp only
  repeat' first
    | with_reducible exact hz
    | with_reducible assumption
    | with_reducible apply Sound.leaveService
    | split
    | exact fun w => w.2.2.2
    | rfl
    | exact id
    | exact TollSound.refl _
    | (simp; done)
    | with_reducible apply Sound.setPkg
    | with_reducible apply Sound.setTether
    | with_reducible apply Sound.record

theorem Sound.beginRemoval {z s : State} (hz : Sound z s) : Sound z (beginRemoval s) := by
  unfold Machine.beginRemoval; dsimp only
  exact Sound.record (Sound.abandonCkpt (Sound.abortCommands hz.stopPrograms) _) rfl rfl rfl rfl rfl rfl id id (fun w => w.2.2.2)
    (TollSound.refl _) fun _ => Nat.zero_le _

theorem Sound.execRemove {z s : State} (hz : Sound z s)  : SoundOut z (execRemove s) := by
  unfold Machine.execRemove
  try dsimp only
  repeat' first
    | with_reducible apply SoundOut.next
    | with_reducible exact hz
    | with_reducible assumption
    | with_reducible apply Sound.settleRemoval
    | with_reducible apply Sound.beginRemoval
    | split
    | intro _

theorem Sound.stopQueue {z s : State} (hz : Sound z s) (q : Nat) (cause : Nat) (expect : Nat) (found : Nat) : Sound z (stopQueue s q cause expect found) := by
  unfold Machine.stopQueue
  try dsimp only
  repeat' first
    | with_reducible exact hz
    | with_reducible assumption
    | with_reducible apply Sound.logError
    | with_reducible apply Sound.modQueue
    | exact fun w => w.2.2.2
    | intro _
    | with_reducible apply Sound.setTime
    | with_reducible apply Sound.record

theorem Sound.ring {z s : State} (hz : Sound z s) (q : Nat) (value : Nat) : Sound z (ring s q value) := by
  unfold Machine.ring
  try dsimp only
  repeat' first
    | with_reducible exact hz
    | with_reducible assumption
    | with_reducible apply Sound.modQueue
    | with_reducible apply Sound.stopQueue
    | with_reducible apply SoundOpt.some
    | with_reducible exact SoundOpt.none _
    | split
    | exact fun w => w.2.2.2
    | intro _

theorem Sound.armQueue {z s : State} (hz : Sound z s) (q : Nat) (value : Nat) : Sound z (armQueue s q value) := by
  unfold Machine.armQueue
  try dsimp only
  repeat' first
    | with_reducible exact hz
    | with_reducible assumption
    | with_reducible apply Sound.modQueue
    | split
    | exact fun w => w.2.2.2
    | intro _
    | with_reducible apply Sound.record

theorem Sound.configQueue {z s : State} (hz : Sound z s) (q : Nat) (value : Nat) : Sound z (configQueue s q value) := by
  unfold Machine.configQueue
  try dsimp only
  repeat' first
    | with_reducible exact hz
    | with_reducible assumption
    | with_reducible apply Sound.modQueue
    | with_reducible apply Sound.logError
    | with_reducible apply Sound.settleRemoval
    | with_reducible apply Sound.flushHeld
    | split
    | exact fun w => w.2.2.2
    | intro _

theorem Sound.moveTail {z s : State} (hz : Sound z s) (q : Nat) (value : Nat) : Sound z (moveTail s q value) := by
  unfold Machine.moveTail
  try dsimp only
  repeat' first
    | with_reducible exact hz
    | with_reducible assumption
    | with_reducible apply Sound.settleRemoval
    | with_reducible apply Sound.flushHeld
    | with_reducible apply Sound.modQueue
    | exact fun w => w.2.2.2
    | intro _

theorem Sound.writeScale {z s : State} (hz : Sound z s) (value : Nat) : Sound z (writeScale s value) := by
  unfold Machine.writeScale
  try dsimp only
  repeat' first
    | with_reducible exact hz
    | with_reducible assumption
    | with_reducible apply Sound.logError
    | with_reducible apply Sound.modCtx
    | with_reducible apply Sound.Coll_write
    | with_reducible apply SoundOpt.some
    | with_reducible exact SoundOpt.none _
    | split
    | exact fun w => w.2.2.2
    | intro _
    | with_reducible refine Sound.of_pair (by assumption) ?_

theorem Sound.writeBase {z s : State} (hz : Sound z s) (q : Nat) (o : Nat) (value : Nat) : Sound z (writeBase s q o value) := by
  unfold Machine.writeBase
  try dsimp only
  repeat' first
    | with_reducible exact hz
    | with_reducible assumption
    | with_reducible apply Sound.modQueue
    | split
    | exact fun w => w.2.2.2
    | intro _

theorem Sound.writeRegister {z s : State} (hz : Sound z s) (o : Nat) (value : Nat) : Sound z (writeRegister s o value) := by
  unfold Machine.writeRegister
  try dsimp only
  repeat' first
    | with_reducible exact hz
    | with_reducible assumption
    | with_reducible apply Sound.writeScale
    | with_reducible apply Sound.ring
    | with_reducible apply Sound.configQueue
    | with_reducible apply Sound.armQueue
    | with_reducible apply Sound.moveTail
    | with_reducible apply Sound.writeBase
    | with_reducible apply Sound.modQueue
    | split
    | exact fun w => w.2.2.2
    | intro _

theorem Memory.wf_writes {m : Memory} (h : Memory.Wf m) (ws : List Posted) :
    Memory.Wf (ws.foldl (fun m w => Memory.write m w.addr w.bytes) m) := by
  induction ws generalizing m with
  | nil => exact h
  | cons w ws ih => exact ih (Memory.wf_write h _ _)

theorem Sound.acknowledge {z s : State} (hz : Sound z s) : Sound z (acknowledge s) := hz.modTether _ fun w => Memory.wf_writes w _

theorem Sound.holdAccess {z s : State} (hz : Sound z s) (a : HostAccess) : Sound z (holdAccess s a) := by
  unfold Machine.holdAccess
  try dsimp only
  repeat' first
    | with_reducible exact hz
    | with_reducible assumption
    | with_reducible apply Sound.modTether
    | exact fun w => w.2.2.2
    | intro _
    | exact id

theorem Sound.readNow {z s : State} (hz : Sound z s) (o : Nat) : Sound z (readNow s o) := by
  unfold Machine.readNow
  try dsimp only
  repeat' first
    | with_reducible exact hz
    | with_reducible assumption
    | with_reducible apply Sound.settleRemoval
    | with_reducible apply Sound.modTether
    | with_reducible apply Sound.acknowledge
    | with_reducible apply Sound.holdAccess
    | split
    | exact fun w => w.2.2.2
    | intro _
    | exact id
    | with_reducible apply Sound.setTime

theorem Sound.hostRead {z s : State} (hz : Sound z s) (o : Nat) : Sound z (hostRead s o) := by
  unfold Machine.hostRead
  try dsimp only
  repeat' first
    | with_reducible exact hz
    | with_reducible assumption
    | with_reducible apply Sound.readNow
    | with_reducible apply Sound.holdAccess
    | with_reducible apply Sound.modTether
    | split
    | exact fun w => w.2.2.2
    | intro _
    | exact id

theorem Sound.hostWrite {z s : State} (hz : Sound z s) (o value : Nat) (f : State → State) (hf : ∀ t, Sound z t → Sound z (f t)) :
    Sound z (hostWrite s o value f) := by
  unfold Machine.hostWrite; split
  · exact hf _ hz
  · split
    · exact hz.holdAccess _
    · exact hz

theorem Sound.runAccess {z s : State} (hz : Sound z s) (a : HostAccess) : Sound z (runAccess s a) := by
  unfold Machine.runAccess
  try dsimp only
  repeat' first
    | with_reducible exact hz
    | with_reducible assumption
    | with_reducible apply Sound.writeRegister
    | with_reducible apply Sound.readNow
    | split
    | exact fun w => w.2.2.2
    | with_reducible refine Sound.of_pair (by assumption) ?_

theorem Sound.runWaiting {z s : State} (hz : Sound z s)  : Sound z (runWaiting s) := by
  unfold Machine.runWaiting
  try dsimp only
  repeat' first
    | with_reducible exact hz
    | with_reducible assumption
    | with_reducible apply Sound.runAccess
    | with_reducible apply Sound.modTether
    | with_reducible apply Sound.foldl
    | exact fun w => w.2.2.2
    | intro _
    | exact id

theorem Sound.beginTetherRetry {z s : State} (hz : Sound z s)  : Sound z (beginTetherRetry s) := by
  unfold Machine.beginTetherRetry
  try dsimp only
  repeat' first
    | with_reducible exact hz
    | with_reducible assumption
    | with_reducible apply Sound.modTether
    | with_reducible apply SoundOpt.some
    | with_reducible exact SoundOpt.none _
    | split
    | exact fun w => w.2.2.2
    | intro _
    | exact id

theorem Sound.settleActivity {z s : State} (hz : Sound z s)  : Sound z (settleActivity s) := by
  unfold Machine.settleActivity
  try dsimp only
  repeat' first
    | with_reducible exact hz
    | with_reducible assumption
    | with_reducible apply Sound.modTether
    | with_reducible apply SoundOpt.some
    | with_reducible exact SoundOpt.none _
    | split
    | exact fun w => w.2.2.2
    | intro _
    | with_reducible refine Sound.of_pair (by assumption) ?_
    | rfl
    | exact id
    | exact TollSound.refl _
    | (simp; done)
    | with_reducible apply Sound.setTime
    | with_reducible apply Sound.setTether
    | with_reducible apply Sound.setCtxs
    | with_reducible apply Sound.setQueues
    | with_reducible apply Sound.record

theorem Sound.settleReads {z s : State} (hz : Sound z s)  : Sound z (settleReads s) := by
  unfold Machine.settleReads
  try dsimp only
  repeat' first
    | with_reducible exact hz
    | with_reducible assumption
    | with_reducible apply Sound.runWaiting
    | split

theorem Sound.ackFlits {z s : State} (hz : Sound z s) (ack : Nat) : Sound z (ackFlits s ack) := by
  unfold Machine.ackFlits; dsimp only
  refine Sound.settleReads (Sound.settleActivity (Sound.settleRemoval (hz.modTether _ fun w => ?_)))
  rw [Tether.pump_hostMem]
  exact Memory.wf_writes w _

theorem Sound.enterRetrain {z s : State} (hz : Sound z s)  : Sound z (enterRetrain s) := by
  unfold Machine.enterRetrain
  try dsimp only
  repeat' first
    | with_reducible exact hz
    | with_reducible assumption
    | with_reducible apply Sound.modTether
    | with_reducible apply Sound.beginTetherRetry
    | with_reducible apply SoundOpt.some
    | with_reducible exact SoundOpt.none _
    | exact fun w => w.2.2.2
    | intro _
    | exact id
    | with_reducible apply Sound.setTime
    | with_reducible apply Sound.record

theorem Sound.replayFlits {z s : State} (hz : Sound z s)  : Sound z (replayFlits s) := by
  unfold Machine.replayFlits
  try dsimp only
  repeat' first
    | with_reducible exact hz
    | with_reducible assumption
    | with_reducible apply Sound.beginTetherRetry
    | with_reducible apply Sound.settleReads
    | with_reducible apply Sound.settleActivity
    | with_reducible apply Sound.modTether
    | with_reducible apply Sound.enterRetrain
    | split
    | exact fun w => w.2.2.2
    | intro _
    | rfl
    | exact id
    | exact TollSound.refl _
    | (simp; done)
    | with_reducible apply Sound.setTether

theorem Sound.execTetherFlitReceive {z s : State} (hz : Sound z s) (seq : Nat) (ack : Nat) (flit : TetherFlit) : SoundOut z (execTetherFlitReceive seq ack flit s) := by
  unfold Machine.execTetherFlitReceive
  try dsimp only
  repeat' first
    | with_reducible apply SoundOut.next
    | with_reducible exact hz
    | with_reducible assumption
    | with_reducible apply Sound.beginTetherRetry
    | with_reducible apply Sound.modTether
    | with_reducible apply Sound.ackFlits
    | split
    | exact fun w => w.2.2.2
    | rfl
    | exact id
    | exact TollSound.refl _
    | (simp; done)
    | with_reducible apply Sound.setTether
    | intro _

theorem Sound.execTetherNak {z s : State} (hz : Sound z s) (seq : Nat) : SoundOut z (execTetherNak seq s) := by
  unfold Machine.execTetherNak
  try dsimp only
  repeat' first
    | with_reducible apply SoundOut.next
    | with_reducible exact hz
    | with_reducible assumption
    | with_reducible apply Sound.replayFlits
    | with_reducible apply Sound.ackFlits
    | split
    | intro _

theorem Sound.execTetherReplayTimeout {z s : State} (hz : Sound z s)  : SoundOut z (execTetherReplayTimeout s) := by
  unfold Machine.execTetherReplayTimeout
  try dsimp only
  repeat' first
    | with_reducible apply SoundOut.next
    | with_reducible exact hz
    | with_reducible assumption
    | with_reducible apply Sound.replayFlits
    | split
    | intro _

theorem Sound.execTetherRetrain {z s : State} (hz : Sound z s)  : SoundOut z (execTetherRetrain s) := by
  unfold Machine.execTetherRetrain
  try dsimp only
  repeat' first
    | with_reducible apply SoundOut.next
    | with_reducible exact hz
    | with_reducible assumption
    | with_reducible apply Sound.enterRetrain
    | split
    | intro _

theorem Sound.linkUp {z s : State} (hz : Sound z s) : Sound z (linkUp s) := by
  unfold Machine.linkUp
  exact Sound.settleReads (Sound.settleActivity (Sound.runWaiting (hz.modTether _ fun w => by simpa using w)))

theorem Sound.execTetherRetrainComplete {z s : State} (hz : Sound z s)  : SoundOut z (execTetherRetrainComplete s) := by
  unfold Machine.execTetherRetrainComplete
  try dsimp only
  repeat' first
    | with_reducible apply SoundOut.next
    | with_reducible exact hz
    | with_reducible assumption
    | with_reducible apply Sound.linkUp
    | split
    | exact fun w => w.2.2.2
    | intro _

theorem Sound.faultAll {z s : State} (hz : Sound z s) (status : Nat) : Sound z (faultAll s status) := by
  unfold Machine.faultAll
  try dsimp only
  repeat' first
    | with_reducible exact hz
    | with_reducible assumption
    | with_reducible apply Sound.faultContext
    | with_reducible apply Sound.foldl
    | split
    | intro _

theorem Sound.voidRange {z s : State} (hz : Sound z s) (r : Nat × Nat) : Sound z (voidRange s r) :=
  (hz.modTether _ fun w => Memory.wf_write w _ _).freeUsed _

theorem Sound.dropLink {z s : State} (hz : Sound z s)  : Sound z (dropLink s) := by
  unfold Machine.dropLink
  try dsimp only
  repeat' first
    | with_reducible exact hz
    | with_reducible assumption
    | with_reducible apply Sound.voidRange
    | with_reducible apply Sound.modTether
    | with_reducible apply Sound.logError
    | with_reducible apply Sound.foldl
    | exact fun w => w.2.2.2
    | intro _
    | exact id

theorem Sound.execLinkLost {z s : State} (hz : Sound z s)  : SoundOut z (execLinkLost s) := by
  unfold Machine.execLinkLost
  try dsimp only
  repeat' first
    | with_reducible apply SoundOut.next
    | with_reducible exact hz
    | with_reducible assumption
    | with_reducible apply Sound.resetKeep
    | with_reducible apply Sound.dropLink
    | with_reducible apply Sound.faultAll
    | with_reducible apply Sound.advanceTo
    | split
    | exact fun w => w.2.2.2
    | with_reducible refine Sound.of_pair (by assumption) ?_
    | intro _

theorem Sound.execTetherCableAbsent {z s : State} (hz : Sound z s)  : SoundOut z (execTetherCableAbsent s) := by
  unfold Machine.execTetherCableAbsent
  try dsimp only
  repeat' first
    | with_reducible apply SoundOut.next
    | with_reducible exact hz
    | with_reducible assumption
    | with_reducible apply Sound.modTether
    | split
    | exact fun w => w.2.2.2
    | exact id
    | with_reducible apply Sound.setPkg
    | with_reducible apply Sound.record
    | intro _

theorem Sound.execTetherCablePresent {z s : State} (hz : Sound z s)  : SoundOut z (execTetherCablePresent s) := by
  unfold Machine.execTetherCablePresent
  try dsimp only
  repeat' first
    | with_reducible apply SoundOut.next
    | with_reducible exact hz
    | with_reducible assumption
    | with_reducible apply Sound.linkUp
    | split
    | exact fun w => w.2.2.2
    | rfl
    | exact id
    | exact TollSound.refl _
    | (simp; done)
    | with_reducible apply Sound.setPkg
    | with_reducible apply Sound.setTether
    | with_reducible apply Sound.record
    | intro _

theorem Sound.execTackTimerExpiry {z s : State} (hz : Sound z s) (q : Nat) (seq : Nat) : SoundOut z (execTackTimerExpiry q seq s) := by
  unfold Machine.execTackTimerExpiry
  try dsimp only
  repeat' first
    | with_reducible apply SoundOut.next
    | with_reducible exact hz
    | with_reducible assumption
    | with_reducible apply Sound.modTether
    | with_reducible apply Sound.advanceTo
    | split
    | exact fun w => w.2.2.2
    | with_reducible refine Sound.of_pair (by assumption) ?_
    | rfl
    | exact id
    | exact TollSound.refl _
    | (simp; done)
    | with_reducible apply Sound.setTether
    | with_reducible apply Sound.record
    | intro _

theorem Sound.execDoorbell {z s : State} (hz : Sound z s) (q : Nat) (value : Nat) : SoundOut z (execDoorbell q value s) := by
  unfold Machine.execDoorbell
  try dsimp only
  repeat' first
    | with_reducible apply SoundOut.next
    | with_reducible exact hz
    | with_reducible assumption
    | with_reducible apply Sound.hostWrite
    | with_reducible apply Sound.ring
    | intro _

theorem Sound.execQarmWrite {z s : State} (hz : Sound z s) (q : Nat) (value : Nat) : SoundOut z (execQarmWrite q value s) := by
  unfold Machine.execQarmWrite
  try dsimp only
  repeat' first
    | with_reducible apply SoundOut.next
    | with_reducible exact hz
    | with_reducible assumption
    | with_reducible apply Sound.hostWrite
    | with_reducible apply Sound.armQueue
    | intro _

theorem Sound.execQcfgWrite {z s : State} (hz : Sound z s) (q : Nat) (value : Nat) : SoundOut z (execQcfgWrite q value s) := by
  unfold Machine.execQcfgWrite
  try dsimp only
  repeat' first
    | with_reducible apply SoundOut.next
    | with_reducible exact hz
    | with_reducible assumption
    | with_reducible apply Sound.hostWrite
    | with_reducible apply Sound.configQueue
    | intro _

theorem Sound.execQctailWrite {z s : State} (hz : Sound z s) (q : Nat) (value : Nat) : SoundOut z (execQctailWrite q value s) := by
  unfold Machine.execQctailWrite
  try dsimp only
  repeat' first
    | with_reducible apply SoundOut.next
    | with_reducible exact hz
    | with_reducible assumption
    | with_reducible apply Sound.hostWrite
    | with_reducible apply Sound.moveTail
    | intro _

theorem Sound.execLossScaleWrite {z s : State} (hz : Sound z s) (value : Nat) : SoundOut z (execLossScaleWrite value s) := by
  unfold Machine.execLossScaleWrite
  try dsimp only
  repeat' first
    | with_reducible apply SoundOut.next
    | with_reducible exact hz
    | with_reducible assumption
    | with_reducible apply Sound.hostWrite
    | with_reducible apply Sound.writeScale
    | intro _

theorem Sound.execRegisterWrite {z s : State} (hz : Sound z s) (offset : Nat) (value : Nat) : SoundOut z (execRegisterWrite offset value s) := by
  unfold Machine.execRegisterWrite
  try dsimp only
  repeat' first
    | with_reducible apply SoundOut.next
    | with_reducible exact hz
    | with_reducible assumption
    | with_reducible apply Sound.hostWrite
    | with_reducible apply Sound.writeRegister
    | intro _

theorem Sound.execFlushRbRead {z s : State} (hz : Sound z s)  : SoundOut z (execFlushRbRead s) := by
  unfold Machine.execFlushRbRead
  try dsimp only
  repeat' first
    | with_reducible apply SoundOut.next
    | with_reducible exact hz
    | with_reducible assumption
    | with_reducible apply Sound.hostRead
    | intro _

theorem Sound.execPtimeLoRead {z s : State} (hz : Sound z s)  : SoundOut z (execPtimeLoRead s) := by
  unfold Machine.execPtimeLoRead
  try dsimp only
  repeat' first
    | with_reducible apply SoundOut.next
    | with_reducible exact hz
    | with_reducible assumption
    | with_reducible apply Sound.hostRead
    | intro _

theorem Sound.execCtxAccountLoRead {z s : State} (hz : Sound z s) (ctx : Nat) : SoundOut z (execCtxAccountLoRead ctx s) := by
  unfold Machine.execCtxAccountLoRead
  try dsimp only
  repeat' first
    | with_reducible apply SoundOut.next
    | with_reducible exact hz
    | with_reducible assumption
    | with_reducible apply Sound.hostRead
    | intro _

theorem Sound.execCompletionRingFull {z s : State} (hz : Sound z s) (q : Nat) : SoundOut z (execCompletionRingFull q s) := by
  unfold Machine.execCompletionRingFull
  try dsimp only
  repeat' first
    | with_reducible apply SoundOut.next
    | with_reducible exact hz
    | with_reducible assumption
    | with_reducible apply Sound.advanceTo
    | with_reducible apply Sound.modQueue
    | with_reducible apply Sound.logError
    | split
    | exact fun w => w.2.2.2
    | with_reducible refine Sound.of_pair (by assumption) ?_
    | intro _

end Sys2Proof.Machine
end

