-- ==== Sys2Proof/Laws/SoundIntake.lean ====
section
/-! SUPPORT. Soundness of the operations of Machine/Intake.lean (see Laws/Sound.lean). -/

namespace Sys2Proof.Machine

theorem Sound.fetchEntry {z s : State} (hz : Sound z s) (q : Nat) : Sound z (fetchEntry s q) := by
  unfold Machine.fetchEntry
  try dsimp only
  repeat' first
    | with_reducible exact hz
    | with_reducible assumption
    | with_reducible apply Sound.modTether
    | exact fun w => w.2.2.2
    | intro _
    | exact id

theorem Sound.sendTack {z s : State} (hz : Sound z s) (q n : Nat) : Sound z (sendTack s q n) := by
  unfold Machine.sendTack
  exact hz.modTether _ fun w => by simpa using w

theorem Sound.takeEntry {z s : State} (hz : Sound z s) (q : Nat) (e : List Byte) (payload : HostRead) : Sound z (takeEntry s q e payload) := by
  unfold Machine.takeEntry
  try dsimp only
  repeat' first
    | with_reducible exact hz
    | with_reducible assumption
    | with_reducible apply Sound.modQueue
    | with_reducible apply Sound.modTether
    | with_reducible apply Sound.sendTack
    | with_reducible apply Sound.post
    | split
    | exact fun w => w.2.2.2
    | intro _
    | with_reducible refine Sound.of_pair (by assumption) ?_
    | exact id
    | with_reducible apply Sound.setCmds
    | with_reducible apply Sound.setPkg
    | with_reducible apply Sound.record

theorem Sound.execEntryTake {z s : State} (hz : Sound z s) (q : Nat) (entry : HostRead) (payload : HostRead) : SoundOut z (execEntryTake q entry payload s) := by
  unfold Machine.execEntryTake
  try dsimp only
  repeat' first
    | with_reducible apply SoundOut.next
    | with_reducible exact hz
    | with_reducible assumption
    | with_reducible apply Sound.fetchEntry
    | with_reducible apply Sound.takeEntry
    | with_reducible apply Sound.modQueue
    | split
    | exact fun w => w.2.2.2
    | with_reducible refine Sound.of_pair (by assumption) ?_
    | with_reducible apply Sound.setTime
    | intro _

theorem Sound.execEntryReread {z s : State} (hz : Sound z s) (q : Nat) (entry : HostRead) (payload : HostRead) : SoundOut z (execEntryReread q entry payload s) := by
  unfold Machine.execEntryReread
  try dsimp only
  repeat' first
    | with_reducible apply SoundOut.next
    | with_reducible exact hz
    | with_reducible assumption
    | with_reducible apply Sound.fetchEntry
    | with_reducible apply Sound.advanceTo
    | with_reducible apply Sound.modQueue
    | with_reducible apply Sound.takeEntry
    | with_reducible apply Sound.stopQueue
    | with_reducible apply Sound.freeUsed
    | split
    | exact fun w => w.2.2.2
    | with_reducible refine Sound.of_pair (by assumption) ?_
    | with_reducible apply Sound.setTime
    | intro _

end Sys2Proof.Machine
end

