-- ==== Sys2Proof/WellFormed.lean ====
section
/-! DEFINITION. Well-formed commands: every operand within the range the spec gives it. -/

namespace Sys2Proof

/-- A global pier ID (R11). -/
def pierOk (p : Nat) : Bool := decide (p < 512)
/-- A tile number (R11). -/
def tileOk (t : Nat) : Bool := decide (t < 4)
/-- A local stage index (R48). -/
def stageOk (k : Nat) : Bool := decide (k < 16)
/-- A package ID (R12). -/
def pkgIdOk (p : Nat) : Bool := decide (p < 4096)
/-- A command queue number (R13). -/
def queueOk (q : Nat) : Bool := decide (q < 64)
/-- A stack number (R14). -/
def stackOk (s : Nat) : Bool := decide (s < 12)
/-- A Pylon port number (R14). -/
def portOk (p : Nat) : Bool := decide (p < 64)
/-- A context descriptor number (R342). -/
def ctxOk (n : Nat) : Bool := decide (n < 16)
/-- A link ID (R177). -/
def linkOk (l : Nat) : Bool := decide (l < 4096)
/-- A schedule entry index (R209). -/
def entryOk (e : Nat) : Bool := decide (e < 4096)
/-- A rank (R207). -/
def rankOk (r : Nat) : Bool := decide (r < 4096)
/-- A substrate module number (R363). -/
def moduleOk (m : Nat) : Bool := decide (m < 80)
def byteOk (v : Nat) : Bool := decide (v < 256)
def word16Ok (v : Nat) : Bool := decide (v < 65536)
def word32Ok (v : Nat) : Bool := decide (v < 4294967296)
/-- A sequence number modulo 2^32. -/
def seqOk (v : Nat) : Bool := word32Ok v
/-- A 7-bit bus address (R404). -/
def addr7Ok (a : Nat) : Bool := decide (a < 128)
/-- The body of a Span or Stay frame (R177, R224). -/
def bodyOk (b : List Byte) : Bool := decide (b.length ≤ 8192)
/-- 64-byte ECC blocks of one stack's 96 GiB (R249, R254). -/
def blocksPerStack : Nat := 0x18_0000_0000 / 64
/-- A ring entry read brings 128 bytes or fails (R326). -/
def entryReadOk (e : HostRead) : Bool := match e with
  | none => true
  | some b => decide (b.length = 128)
/-- The die code of R375. -/
def dieCodeOk (d : Nat) : Bool := (decide (0x10 ≤ d) && decide (d < 0x14)) || (decide (0x20 ≤ d) && decide (d < 0x24))

def TokenActor.ok : TokenActor → Bool
  | .stage k => stageOk k
  | .stay t e => tileOk t && entryOk e
  | .feed c n => decide (c < 65536) && word16Ok n
  | .caisson c => decide (c < 65536)

/-- A port and a 32-bit header field (R14, R233). -/
def Arrival.ok (a : Arrival) : Bool := portOk a.port && seqOk a.number

def Rail.ok : Rail → Bool
  | .core t => tileOk t
  | _ => true

def Sensor.ok : Sensor → Bool
  | .pierJunction t i => tileOk t && decide (i < 16)
  | .pylonJunction t i => tileOk t && decide (i < 4)
  | .approachJunction i => decide (i < 4)
  | .stack s => stackOk s
  | .coreVoltage t => tileOk t
  | .coreCurrent t => tileOk t
  | .rail r => r.ok

/-- Up to 16 lanes and 32 GT/s fit a byte each as a module reports them (R373). -/
def TrainedWidth.ok (w : TrainedWidth) : Bool := byteOk w.lanes && byteOk w.rate

/-- A Joint-F channel by tile and number (R361). -/
def jointChannelOk (c : Nat × Nat) : Bool := tileOk c.1 && decide (c.2 < 64)

def AttemptEnd.ok (a : AttemptEnd) : Bool := a.width.ok && a.uncalibrated.all jointChannelOk

def WalkRead.ok : WalkRead → Bool
  | .approach => true
  | .overModule m => moduleOk m
  | .pier t => tileOk t
  | .footing k => stackOk k

/-- A descriptor read brings 64 bytes, or nothing (R365). -/
def descriptorReadOk (d : WalkRead × List Byte) : Bool := d.1.ok && (d.2.isEmpty || decide (d.2.length = 64))

/-- A retry of steps 3 to 8 (R371). -/
def BootRetry.ok (x : BootRetry) : Bool :=
  decide (3 ≤ x.step) && decide (x.step ≤ 8) && moduleOk x.module && x.near.all TrainedWidth.ok && x.far.all TrainedWidth.ok

/-- What a boot names lies within its ranges (R11, R14, R361, R363), and its retries come in the order of the steps (R370). -/
def BootReport.ok (r : BootReport) : Bool :=
  r.silentRegulators.all tileOk && r.descriptors.all descriptorReadOk && r.lesserOffers.all moduleOk && r.narrowModules.all moduleOk
    && (r.untrainedChannels.all fun x => stackOk x.1 && decide (x.2 < 32)) && r.uncalibrated.all jointChannelOk
    && r.retries.all BootRetry.ok && decide ((r.retries.map (·.step)).Pairwise (· ≤ ·))

/-- An 8-byte header, 224 bytes of transactions and a 64-bit CRC (R318). -/
def TetherFlit.ok (f : TetherFlit) : Bool :=
  decide (f.header.length = 8) && decide (f.data.length = 224) && decide (f.crc < 0x1_0000_0000_0000_0000)

/-- The operands of a command are within the ranges that the spec gives them. -/
def Instr.wf : Instr → Bool
  | .loadW pier => pierOk pier
  | .pass pier => pierOk pier
  | .passRowWriteback pier => pierOk pier
  | .drain pier => pierOk pier
  | .drainBind pier => pierOk pier
  | .vec pier => pierOk pier
  | .laneProgramRunaway pier => pierOk pier
  | .accWrite pier => pierOk pier
  | .copy pier => pierOk pier
  | .push stage => stageOk stage
  | .pop stage => stageOk stage
  | .release stage => stageOk stage
  | .fork stage => stageOk stage
  | .join stage => stageOk stage
  | .signal actor => actor.ok
  | .wait actor => actor.ok
  | .capturePoint => true
  | .admitBatch stage => stageOk stage
  | .pin stage => stageOk stage
  | .retire stage => stageOk stage
  | .gather stage => stageOk stage
  | .reduceScatter stage => stageOk stage
  | .allReduce stage => stageOk stage
  | .stepEnd => true
  | .progressWatchdogExpiry ctx => ctxOk ctx
  | .spanDesc link src seq _ slot body => linkOk link && pkgIdOk src && seqOk seq && decide (slot < 64) && bodyOk body
  | .spanData link src seq _ offset body => linkOk link && pkgIdOk src && seqOk seq && word32Ok offset && bodyOk body
  | .spanCredit link src seq released => linkOk link && pkgIdOk src && seqOk seq && seqOk released
  | .spanHeartbeat link src seq => linkOk link && pkgIdOk src && seqOk seq
  | .spanAbandon link src seq status => linkOk link && pkgIdOk src && seqOk seq && byteOk status
  | .spanBind link src seq digest => linkOk link && pkgIdOk src && seqOk seq && decide (digest.length = 32)
  | .spanClose link src seq => linkOk link && pkgIdOk src && seqOk seq
  | .spanHeartbeatTimer link => linkOk link
  | .spanPeerDeadline link => linkOk link
  | .bindWindowExpiry ctx => ctxOk ctx
  | .stayData peer tile seq entry piece _ offset body => pkgIdOk peer && tileOk tile && seqOk seq && entryOk entry && rankOk piece && word32Ok offset && bodyOk body
  | .stayCredit peer tile seq granted => pkgIdOk peer && tileOk tile && seqOk seq && seqOk granted
  | .stayHeartbeat peer tile seq => pkgIdOk peer && tileOk tile && seqOk seq
  | .stayAbandon peer tile seq status => pkgIdOk peer && tileOk tile && seqOk seq && byteOk status
  | .stayBind peer tile seq digest => pkgIdOk peer && tileOk tile && seqOk seq && decide (digest.length = 32)
  | .stayClose peer tile seq => pkgIdOk peer && tileOk tile && seqOk seq
  | .stayTrailer peer tile seq entry piece body => pkgIdOk peer && tileOk tile && seqOk seq && entryOk entry && rankOk piece && decide (body.length = 16)
  | .stayHeartbeatTimer peer => pkgIdOk peer
  | .stayPeerDeadline peer => pkgIdOk peer
  | .frameForward port frame => portOk port && decide (frame.bytes.length ≤ 8228)
  | .linkCredit at_ grants => at_.ok && decide (grants.length = 8) && grants.all word16Ok
  | .linkCreditTimer port => portOk port
  | .nak at_ lseq => at_.ok && seqOk lseq
  | .portReplayTimeout port => portOk port
  | .hold at_ pkg farPort => at_.ok && pkgIdOk pkg && portOk farPort
  | .holdEnd at_ pkg farPort => at_.ok && pkgIdOk pkg && portOk farPort
  | .holdTimeout pkg farPort => pkgIdOk pkg && portOk farPort
  | .portGiveUp port _ => portOk port
  | .portSignalDetect port => portOk port
  | .equaliseComplete port => portOk port
  | .alignComplete port => portOk port
  | .config at_ pkg farPort version retryKib => at_.ok && word16Ok pkg && byteOk farPort && byteOk version && word16Ok retryKib
  | .configResendTimer port => portOk port
  | .portTrainingTimeout port => portOk port
  | .portBerCheck port _ => portOk port
  | .recalReq at_ => at_.ok
  | .recalReqResendTimer port => portOk port
  | .recalAck at_ => at_.ok
  | .recalAckTimeout port => portOk port
  | .recalEnter port => portOk port
  | .portDisable q seq => queueOk q && seqOk seq
  | .portEnable q seq => queueOk q && seqOk seq
  | .portRecalibrate q seq => queueOk q && seqOk seq
  | .pkgIdSet q seq => queueOk q && seqOk seq
  | .routeLoad q seq => queueOk q && seqOk seq
  | .routeCommit q seq => queueOk q && seqOk seq
  | .scrub stack block => stackOk stack && decide (block < blocksPerStack)
  | .stackAutoRecal training => stackOk training.stack && training.failed.all fun c => decide (c < 32)
  | .stackRecal q cmd => queueOk q && seqOk cmd.seq && cmd.failed.all fun c => stackOk c.1 && decide (c.2 < 32)
  | .hotRefreshEnd stack => stackOk stack
  | .ckptGranuleCopy stack => stackOk stack
  | .shardDigest stack => stackOk stack
  | .ckptCommit => true
  | .ckptTimerDue => true
  | .ckptConfig q seq => queueOk q && seqOk seq
  | .ckptTake q seq => queueOk q && seqOk seq
  | .ckptQuery q seq => queueOk q && seqOk seq
  | .ckptRestore q seq => queueOk q && seqOk seq
  | .ckptExport q seq => queueOk q && seqOk seq
  | .ckptImport q seq _ => queueOk q && seqOk seq
  | .ckptDiscard q seq => queueOk q && seqOk seq
  | .aprConfig q seq => queueOk q && seqOk seq
  | .aprFeed q seq _ => queueOk q && seqOk seq
  | .itemDecode q seq item unit _ => queueOk q && seqOk seq && decide (item < 4096) && decide (unit < 32)
  | .patchPack q seq => queueOk q && seqOk seq
  | .feedPush q seq => queueOk q && seqOk seq
  | .aprDecode q seq _ => queueOk q && seqOk seq
  | .aprTableLoad q seq _ => queueOk q && seqOk seq
  | .aprQuery q seq => queueOk q && seqOk seq
  | .abutConvFwd q seq => queueOk q && seqOk seq
  | .abutConvBwdData q seq => queueOk q && seqOk seq
  | .abutConvBwdWeight q seq => queueOk q && seqOk seq
  | .abutPool q seq => queueOk q && seqOk seq
  | .devIdentify q seq => queueOk q && seqOk seq
  | .errlogRead q seq => queueOk q && seqOk seq
  | .powerTableLoad q seq => queueOk q && seqOk seq
  | .fwUpdate q seq _ => queueOk q && seqOk seq
  | .moduleSwap moduleId => word16Ok moduleId
  | .journalCompaction => true
  | .attestQuote q seq => queueOk q && seqOk seq
  | .subtreeCompute => true
  | .memWrite q seq _ => queueOk q && seqOk seq
  | .memRead q seq => queueOk q && seqOk seq
  | .memFill q seq => queueOk q && seqOk seq
  | .memCopy q seq => queueOk q && seqOk seq
  | .imageLoad q seq _ _ => queueOk q && seqOk seq
  | .launch q seq => queueOk q && seqOk seq
  | .unload q seq => queueOk q && seqOk seq
  | .tokenSignal q seq => queueOk q && seqOk seq
  | .spanQuery q seq => queueOk q && seqOk seq
  | .stayQuery q seq => queueOk q && seqOk seq
  | .ctrRead q seq => queueOk q && seqOk seq
  | .ctrSelect q seq => queueOk q && seqOk seq
  | .sampleStart q seq => queueOk q && seqOk seq
  | .sampleStop q seq => queueOk q && seqOk seq
  | .ctxCreate q seq => queueOk q && seqOk seq
  | .ctxDestroy q seq => queueOk q && seqOk seq
  | .ctxGrant q seq => queueOk q && seqOk seq
  | .ctxSlice q seq => queueOk q && seqOk seq
  | .cmdAbort q seq => queueOk q && seqOk seq
  | .ctxQuery q seq => queueOk q && seqOk seq
  | .sliceNominalEnd => true
  | .switchOut => true
  | .switchIn => true
  | .doorbell q value => queueOk q && word32Ok value
  | .entryTake q entry _ => queueOk q && entryReadOk entry
  | .entryReread q entry _ => queueOk q && entryReadOk entry
  | .qarmWrite q value => queueOk q && word32Ok value
  | .qcfgWrite q value => queueOk q && word32Ok value
  | .qctailWrite q value => queueOk q && word32Ok value
  | .completionRingFull q => queueOk q
  | .lossScaleWrite value => word32Ok value
  | .flushRbRead => true
  | .ptimeLoRead => true
  | .ctxAccountLoRead ctx => ctxOk ctx
  | .registerWrite offset value => decide (offset < 0x10000) && decide (offset % 4 = 0) && word32Ok value
  | .tetherFlitReceive seq ack flit => seqOk seq && seqOk ack && flit.ok
  | .tetherNak seq => seqOk seq
  | .tetherReplayTimeout => true
  | .tetherRetrain => true
  | .tetherRetrainComplete => true
  | .linkLost => true
  | .tetherCableAbsent => true
  | .adapterResetRequest => true
  | .remove => true
  | .pwrOkRise => true
  | .pwrOkFall => true
  | .railDip rail _ => rail.ok
  | .refclkLoss _ => true
  | .pkgResetN _ => true
  | .boot report => report.ok
  | .moduleReset module => moduleOk module
  | .moduleWidthReport module near far => moduleOk module && near.ok && far.ok
  | .dieHoldAttemptEnd module near far => moduleOk module && near.ok && far.ok
  | .budgetSendTimer => true
  | .budgetMessage die message draws => dieCodeOk die && decide (message.length = 16) && decide (draws.length ≤ 57) && draws.all word16Ok
  | .budgetReport message => decide (message.length = 16)
  | .budgetMiss die => dieCodeOk die
  | .sensorRead sensor _ => sensor.ok
  | .sensorFailure sensor => sensor.ok
  | .setdasa static dynamic => addr7Ok static && addr7Ok dynamic
  | .entdaa dynamic => addr7Ok dynamic
  | .setEndpointId eid => byteOk eid
  | .getEndpointId => true
  | .getMctpVersionSupport => true
  | .getMessageTypeSupport => true
  | .getStatus => true
  | .getSensors => true
  | .readErrlog count first => word32Ok count && word32Ok first
  | .getIdentity first => decide (first < 21)
  | .powerTable payload => decide (payload.length = 32)
  | .resetRequest => true
  | .recoveryWrite offset _ => word32Ok offset
  | .recoveryCommit => true
  | .tetherCablePresent => true
  | .vddHbmRise => true
  | .tackTimerExpiry q seq => queueOk q && seqOk seq
  | .opcodeNotInTable pier => pierOk pier

end Sys2Proof
end

