-- ==== Sys2Proof/Tests/Slice0.lean ====
section
/-! SUPPORT. Tests: ill-formed commands are refused; each statement's hypotheses are met by a concrete state; small results worked
out by hand from the rules. -/

namespace Sys2Proof.Tests

open Sys2Proof.Machine

set_option Elab.async false

/-! ### States to test on -/

/-- The running block with nothing loaded. -/
def up : State :=
  { State.reset with
    pkg := { Package.fresh with phase := .running, bootStep := 11, ready := true }
    tether := { Tether.fresh with st := .up }
    dies := dieCodes.map fun c => { Die.fresh c with released := true } }

def noDecls : Decls :=
  { stages := [], slotClasses := [], queues := [], groups := [], tokens := [], staggered := false, versions := 1, slotBudget := 1,
    regions := [], frozen := [], spanBuffers := [], fences := [] }

/-- Stage 0 with piers 0 and 1, stage 1 with pier 2; one region from 1 MiB to 2 MiB. -/
def decls : Decls :=
  { noDecls with
    stages := [⟨[0, 1], [(0, 0x10000), (1, 0x10000)], true⟩, ⟨[2], [(2, 0x10000)], true⟩]
    slotClasses := [⟨64, 8, 1⟩]
    regions := [(0x100000, 0x100000)] }

/-- An image at 16 KiB with one-page decks for piers 0 to 2. -/
def image (d : Decls) : Image :=
  { addr := 0x4000, bytes := 0x4000
    sections := [⟨3, 0, 0x1000, 64⟩, ⟨3, 1, 0x2000, 64⟩, ⟨3, 2, 0x3000, 64⟩, ⟨4, 0, 0x200, 32⟩, ⟨5, 0, 0x100, 64⟩]
    zecDigest := [], redDigest := [], decls := d, stays := [], policies := [], foots := [] }

def program : Program :=
  { launchQ := 1, launchSeq := 7, st := .running, bindAt := 0
    stages := List.replicate 2 { current := none, pinned := [], store := [some (0, 0)], waiting := [], newestStep := none }
    queues := [], tokens := [], stays := [], assocs := [], inflight := 0, admitted := none, admitStep := 0, firstStep := 0
    launchVersion := 0, verdicts := [], verdict := none, localBit := false, fencesDone := 0, watchdogAt := 0, saved := []
    afterFault := false }

def context (im : Image) (p : Program) : Context :=
  { watchdogMs := 0, lsInterval := 0, permCtr := true, grant := (0, 4096) :: List.replicate 11 (0, 0), account := 0, debt := 0
    ls := .initial, step := 0, version := 0, nextMb := 0, restored := false, image := some im, program := some p, faultStatus := 0
    apr := none, sampling := none, events := [], counters := [], waits := [], activeNs := 0, selecting := [] }

/-- Context 0 is active with a program. -/
def active (d : Decls) (p : Program) : State :=
  { up with
    ctxs := some (context (image d) p) :: List.replicate 15 none
    sched := { Sched.fresh with active := some 0 } }

/-- The first word of a pier's deck. -/
def withWord (s : State) (pier w : Nat) : State :=
  { s with hbm := { s.hbm with mem := Memory.write s.hbm.mem (0x4000 + 0x1000 * (pier + 1)) (leBytes 16 w) } }

/-- The same word for the piers of stage 0. -/
def both (s : State) (w : Nat) : State := withWord (withWord s 0 w) 1 w

/-- A word in the general layout: opcode, flags, index, length in units of 32 bytes, A, count, B (R99). -/
def word (op flags index length a count b : Nat) : Nat :=
  op * 2 ^ 120 + flags * 2 ^ 116 + index * 2 ^ 104 + length * 2 ^ 86 + a * 2 ^ 64 + count * 2 ^ 48 + b

def withPier (s : State) (P : Pier) : State := setPier s P

/-- A command of queue 1 that has been taken. -/
def taken (opcode : Nat) (p : List Nat) (payload : List Byte) : Taken :=
  { q := 1, seq := 3, opcode, context := 0, fence := false, p, payload, started := false }

/-- A state with that command outstanding. -/
def having (s : State) (t : Taken) : State := { s with cmds := [t] }

/-! ### Piers -/

/-- LOAD_W of one row of 128 binary16 cells from address 0 into plane 1. -/
def loadWord : Nat := 0x01 * 2 ^ 120 + 2 ^ 119 + 127 * 2 ^ 96
/-- LOAD_W of 40 rows of 64 columns in the first MX format, with scales at 0x8000. -/
def loadScaled : Nat := 0x01 * 2 ^ 120 + 2 ^ 112 + 39 * 2 ^ 104 + 63 * 2 ^ 96 + 8 * 2 ^ 64 + 0x8000 * 2 ^ 42
/-- PASS of one row, first, from 0 into 0x1000, on plane 0. -/
def passWord : Nat := 0x02 * 2 ^ 120 + 2 ^ 117 + 0x1000 * 2 ^ 10
/-- The same with window 0. -/
def windowWord : Nat := passWord + 2 ^ 115
/-- DRAIN of one row of one column from 0x1000 to 0x2000 in binary32. -/
def drainWord : Nat := 0x03 * 2 ^ 120 + 0x1000 * 2 ^ 74 + 0x2000 * 2 ^ 52

/-- Pier 0 at a word. -/
def atWord (w : Nat) : State := withWord (active decls program) 0 w

theorem witness_LoadWFillsPlane : AtWord (atWord loadWord) 0 0 (image decls) loadWord ∧ opcodeOf loadWord = 0x01
    ∧ outside (image decls) 0 (loadWOf loadWord).reads = none
    ∧ scoreFree (pierAt (atWord loadWord) 0) (loadWOf loadWord).reads [] none none = true
    ∧ (∀ w ∈ [loadWord, loadScaled], w < 2 ^ 128 ∧ opcodeOf w = 0x01 ∧ wordOk w = true ∧ (loadWOf w).format ≤ 5 ∧ (loadWOf w).krows ≤ 128
      ∧ (loadWOf w).ncols ≤ 128)
    ∧ (loadWOf loadWord).format = 0 ∧ (loadWOf loadScaled).format ≠ 0 ∧ 32 * 1 < (loadWOf loadScaled).krows
    ∧ 63 < (loadWOf loadScaled).ncols := by decide +kernel

/-- A row code, or a column code, of 128 faults LOAD_W, and a column code of 128 a DRAIN (R98, R100). -/
theorem witness_reservedCodes : (∀ w ∈ [2 ^ 120 + 128 * 2 ^ 104, 2 ^ 120 + 128 * 2 ^ 96, 3 * 2 ^ 120 + 128 * 2 ^ 104], ∀ s, s = atWord w →
      pierReady s 0 = some (0, image decls) ∧ (pierAt s 0).index < deckLength (image decls) 0 ∧ peekWord s (image decls) 0 = w
      ∧ s.hbm.uncorrectable = [] ∧ s.hbm.correctable = [])
    ∧ opcodeOf (2 ^ 120 + 128 * 2 ^ 104) = 0x01 ∧ opcodeOf (2 ^ 120 + 128 * 2 ^ 96) = 0x01
    ∧ opcodeOf (3 * 2 ^ 120 + 128 * 2 ^ 104) = 0x03 := by
  refine ⟨?_, by decide +kernel⟩
  rintro w hw _ rfl
  revert w
  decide +kernel

/-- The scale of block 1, column 5 is the byte at scale_addr + 128 + 5; cell (1, 2) is byte 2 of row 1, and a column that is not loaded
holds +0 (R78, R98). -/
theorem test_loadedPlane : ∀ P, P = loadedPlane { Pier.fresh 0 with mem := [(0x102, 9), (0x8085, 7)] } (loadWOf loadScaled) 4 →
    P.scales.getD (128 + 5) 0 = 7 ∧ (P.rows.getD 1 []).getD 2 0 = 9 ∧ (P.rows.getD 1 []).getD 64 0 = 0 ∧ P.loadedAt = some 4 := by
  rintro _ rfl
  decide +kernel

/-- A window descriptor of one channel, kernel 1 × 1 at stride 1, over an input of h × 2, interleaved (R128). -/
def windowBytes (kh : Nat) : List Byte :=
  leBytes 2 1 ++ leBytes 2 2 ++ leBytes 1 kh ++ leBytes 1 1 ++ leBytes 1 1 ++ leBytes 1 1 ++ leBytes 1 1 ++ leBytes 1 1 ++ leBytes 1 0x10
    ++ leBytes 1 0 ++ leBytes 16 0 ++ leBytes 2 2 ++ leBytes 2 0

def atWindow (kh : Nat) : State :=
  let s := atWord windowWord
  { s with hbm := { s.hbm with mem := Memory.write s.hbm.mem 0x4100 (windowBytes kh) } }

theorem witness_PassRowsReachAccumulator_empty : AtWord (atWindow 2) 0 0 (image decls) windowWord
    ∧ (planeOf (pierAt (atWindow 2) 0) false).format.all (· == 0) = true ∧ (passOf windowWord).window < windowCount (image decls) 0
    ∧ (passOf windowWord).mode = 1 ∧ (passOf windowWord).window + 2 = windowCount (image decls) 0
    ∧ Window.empty (windowOf ((atWindow 2).hbm.mem.read (windowAddr (image decls) 0 0) 32)) = true := by decide +kernel

theorem witness_PassRowsReachAccumulator_window : AtWord (atWindow 1) 0 0 (image decls) windowWord
    ∧ Window.empty (windowOf ((atWindow 1).hbm.mem.read (windowAddr (image decls) 0 0) 32)) = false
    ∧ (∀ win, win = some (windowOf ((atWindow 1).hbm.mem.read (windowAddr (image decls) 0 0) 32)) →
      outside (image decls) 0 ((passOf windowWord).accRange :: (passOf windowWord).streams win) = none
      ∧ scoreFree (pierAt (atWindow 1) 0) ((passOf windowWord).streams win) [] none (some (passOf windowWord).accRange) = true) := by
  refine ⟨by decide +kernel, by decide +kernel, ?_⟩
  rintro _ rfl
  decide +kernel

theorem witness_PassRowsReachAccumulator_plain : AtWord (atWord passWord) 0 0 (image decls) passWord
    ∧ (planeOf (pierAt (atWord passWord) 0) false).format.all (· == 0) = true ∧ (passOf passWord).mode = 0
    ∧ outside (image decls) 0 ((passOf passWord).accRange :: (passOf passWord).streams none) = none
    ∧ scoreFree (pierAt (atWord passWord) 0) ((passOf passWord).streams none) [] none (some (passOf passWord).accRange) = true := by
  decide +kernel

/-- A pass of `rows` rows of chain results 1.0 into 0x1000. -/
def passing (rows : Nat) : PassInFlight :=
  { index := 0, accumulator := 0x1000, first := true, nextRow := 0, rows := List.replicate rows (List.replicate 128 0x3F800000),
    slot := false }

/-- Pier 0 with work in its drain path. -/
def draining (l : List DrainItem) : State := withPier (active decls program) { Pier.fresh 0 with drain := l, index := 1 }

theorem witness_PassRowsReachAccumulator_rows : ∀ k ∈ [1, 2], ∀ s, s = draining [.pass (passing k)] → s.sched.active = some 0
    ∧ oldestPass (pierAt s 0).drain = some (passing k) ∧ (pierAt s 0).badWords = [] ∧ (pierAt s 0).weakWords = []
    ∧ (pierAt s 0).score.all (·.sampled.isNone) = true := by
  rintro k hk _ rfl
  revert k
  decide +kernel

/-- Chain results of 1.0 enter an empty accumulator as the pair 1.0, 0 (R85, R120). -/
theorem test_passRowWriteback : ∃ t, exec (.passRowWriteback 0) (draining [.pass { passing 1 with rows := [[0x3F800000]] }]) = .next t
    ∧ (pierAt t 0).mem.read 0x1000 8 = [0, 0, 0x80, 0x3F, 0, 0, 0, 0] ∧ (pierAt t 0).drain = [] := by
  refine ⟨_, rfl, ?_⟩
  decide +kernel

theorem witness_DrainWritesRows : (AtWord (atWord drainWord) 0 0 (image decls) drainWord ∧ opcodeOf drainWord = 0x03 ∧ drainWord < 2 ^ 128
    ∧ wordOk drainWord = true
    ∧ outside (image decls) 0 ((drainOf drainWord).accRange :: (drainOf drainWord).writes :: (drainOf drainWord).fuseReads) = none
    ∧ scoreFree (pierAt (atWord drainWord) 0) (drainOf drainWord).fuseReads [(drainOf drainWord).writes]
      (some { start := (drainOf drainWord).accAddr, bytes := (drainOf drainWord).accRange.bytes }) none = true)
    ∧ ∀ ps ∈ [[], [{ passing 1 with accumulator := 0x8000 }]], ∀ s,
      s = draining (ps.map .pass ++ [.drain 0 (BitVec.ofNat 128 drainWord)]) → s.sched.active = some 0
      ∧ oldestDrain (pierAt s 0).drain [] = some (0, drainWord, ps)
      ∧ (∀ x ∈ ps, rangesMeet x.accumulator ((x.nextRow + x.rows.length) * 1024) (drainOf drainWord).accRange.start
        (drainOf drainWord).accRange.bytes = false)
      ∧ slotsHeld (pierAt s 0).drain < 2 ∧ (pierAt s 0).badWords = [] ∧ (pierAt s 0).weakWords = []
      ∧ (pierAt s 0).score.all (·.sampled.isNone) = true := by
  refine ⟨by decide +kernel, ?_⟩
  rintro ps hps _ rfl
  revert ps
  decide +kernel

/-- The pair 1.5, 0.25 drains in binary32 as 1.75 (R87). -/
theorem test_drainBind : ∃ t, exec (.drainBind 0) (withPier (active decls program)
      { Pier.fresh 0 with mem := Memory.write [] 0x1000 (leBytes 4 0x3FC00000 ++ leBytes 4 0x3E800000),
                          drain := [.drain 0 (BitVec.ofNat 128 drainWord)], index := 1 }) = .next t
    ∧ (pierAt t 0).mem.read 0x2000 4 = leBytes 4 0x3FE00000 := by
  refine ⟨_, rfl, ?_⟩
  decide +kernel

/-- VEC of entry point 0 with its arguments at 0x40. -/
def vecWord : Nat := word 0x04 0 0 0 0x40 0 0

/-- The pier's store holds one lane program; the scoreboard holds the given entries. -/
def atVec (score : List Outstanding) : State := withPier (atWord vecWord) { Pier.fresh 0 with store := leBytes 16 1, score }

/-- A COPY from HBM that still writes the argument block of the VEC. -/
def filling : Outstanding :=
  { index := 0, word := 0, reads := [], writes := [{ start := 0x40, bytes := 32 }], accumulates := none, sampled := none }

/-- Whatever a lane program does, the second clause is met with nothing outstanding, and the first with its argument block
still being written. -/
theorem witness_VecRunsLaneProgram : (∀ l ∈ [[], [filling]], ∀ s, s = atVec l → AtWord s 0 0 (image decls) vecWord
    ∧ (generalOf vecWord).index < entryCount (pierAt s 0).store
    ∧ outside (image decls) 0 [vecArgs { n := 0, im := image decls, pier := 0, index := 0, word := vecWord }] = none)
    ∧ opcodeOf vecWord = 0x04 ∧ (pierAt (atVec []) 0).score = []
    ∧ (∀ a b : List Range, scoreFree (pierAt (atVec [filling]) 0)
        (vecArgs { n := 0, im := image decls, pier := 0, index := 0, word := vecWord } :: a) b none none = false)
    ∧ (withPier (active decls program) { Pier.fresh 0 with lane := some (0, 0) }).sched.active = some 0
    ∧ (pierAt (withPier (active decls program) { Pier.fresh 0 with lane := some (0, 0) }) 0).lane = some (0, 0) := by
  refine ⟨?_, by decide +kernel, by decide +kernel, fun a b => ?_, by decide +kernel, by decide +kernel⟩
  · rintro l hl _ rfl
    revert l
    decide +kernel
  · have h : Range.meets { start := 0x40, bytes := 32 } (vecArgs { n := 0, im := image decls, pier := 0, index := 0, word := vecWord })
        = true := by decide +kernel
    show (true && (!(holdsBack filling _ _ _ _) && true)) = false
    simp [holdsBack, filling, h]

/-- ACC_WRITE of 32 bytes from 0 to 1 MiB; COPY the same way, from 1 MiB, and to pier 1. -/
def accWord : Nat := word 0x05 0 0 1 0 0 0x100000
def copyInWord : Nat := word 0x06 0 0 1 0 0 0x100000
def copyOutWord : Nat := word 0x06 1 0 1 0 0 0x1FFFE0
def copyToWord (pier : Nat) : Nat := word 0x06 2 pier 1 0 0 0x20

theorem witness_AccWriteAndCopyMoveBytes : (∀ w ∈ [accWord, copyInWord, copyOutWord], AtWord (atWord w) 0 0 (image decls) w
      ∧ 0 < (generalOf w).length ∧ outside (image decls) 0 [{ start := (generalOf w).a, bytes := (generalOf w).length }] = none
      ∧ mayRead (image decls) (generalOf w).b (generalOf w).length = true
      ∧ mayWrite (image decls) (generalOf w).b (generalOf w).length = true
      ∧ scoreFree (pierAt (atWord w) 0) [{ start := (generalOf w).a, bytes := (generalOf w).length },
          { start := hbmSpace + (generalOf w).b, bytes := (generalOf w).length }]
        [{ start := hbmSpace + (generalOf w).b, bytes := (generalOf w).length }] none none = true
      ∧ scoreFree (pierAt (atWord w) 0) [{ start := hbmSpace + (generalOf w).b, bytes := (generalOf w).length }]
        [{ start := (generalOf w).a, bytes := (generalOf w).length }] none none = true
      ∧ (atWord w).caisson.run = none ∧ (stackAt (atWord w) ((stackOf (generalOf w).b).getD 0)).pathBad = false
      ∧ (stackAt (atWord w) ((stackOf (generalOf w).b).getD 0)).pathWeak = false)
    ∧ (generalOf copyInWord).flags = 0 ∧ (generalOf copyOutWord).flags = 1
    ∧ ∀ p ∈ [0, 1], AtWord (atWord (copyToWord p)) 0 0 (image decls) (copyToWord p) ∧ (generalOf (copyToWord p)).flags = 2
      ∧ copyTargetOk { n := 0, im := image decls, pier := 0, index := 0, word := copyToWord p } (generalOf (copyToWord p)) = true
      ∧ scoreFree (pierAt (atWord (copyToWord p)) 0) [{ start := 0, bytes := (generalOf (copyToWord p)).length }]
        (if p = 0 then [{ start := (generalOf (copyToWord p)).b, bytes := (generalOf (copyToWord p)).length }] else []) none none = true
      ∧ (pierAt (atWord (copyToWord p)) p).weakWords = [] := by
  decide +kernel

/-- A COPY out and a COPY to pier 1 store their 32 bytes. -/
theorem test_copy : (∃ t, exec (.copy 0) (withPier (atWord copyOutWord) { Pier.fresh 0 with mem := [(3, 7)] }) = .next t
      ∧ t.hbm.mem.get 0x1FFFE3 = 7 ∧ (pierAt t 0).index = 1)
    ∧ ∃ t, exec (.copy 0) (withPier (atWord (copyToWord 1)) { Pier.fresh 0 with mem := [(3, 7)] }) = .next t
      ∧ (pierAt t 1).mem = [(0x23, 7)] := by
  refine ⟨⟨_, rfl, by decide +kernel⟩, ⟨_, rfl, by decide +kernel⟩⟩

theorem witness_UndefinedWordFaultsContext : (∀ w ∈ [word 0x07 0 0 0 0 0 0, 2 ^ 120 + 1, 2 * 2 ^ 120 + 1, 3 * 2 ^ 120 + 1, word 4 1 0 0 0 0 0,
      word 5 2 0 0 0 0 0, word 6 0 0 0 0 1 0], ∀ s, s = atWord w → pierReady s 0 = some (0, image decls)
      ∧ (pierAt s 0).index < deckLength (image decls) 0 ∧ peekWord s (image decls) 0 = w
      ∧ s.hbm.uncorrectable = [] ∧ s.hbm.correctable = [] ∧ wordOk w = false)
    ∧ opcodes.contains (opcodeOf (word 0x07 0 0 0 0 0 0)) = false := by
  refine ⟨?_, by decide +kernel⟩
  rintro w hw _ rfl
  revert w
  decide +kernel

/-! ### Stages -/

def queue (q producer consumer kind group : Nat) : QueueDecl :=
  { queue := q, depth := 2, slotClass := 0, producer, consumer, link := 0xFFFF, peer := 0, kind, bond := 0, group, ports := 0, descAddr := 0x8000,
    home := 0 }

def slot (st : SlotState) : Slot := { st, resident := true, buf := [], fetched := false, bad := [], weak := [], segsSeen := 0 }

/-- A queue whose first slot is in a state. -/
def queueWith (d : QueueDecl) (st : SlotState) : SpanQueue :=
  { decl := d, st := .opened, slots := [slot st, slot .free], fillAt := if st = .free then 0 else 1, headAt := 0, heldAt := 0, link := none }

/-- Queues 0 (feed) to stage 0, 1 and 2 from stage 0 to stage 1 as a fork group and a join group, 3 back to stage 0; a token channel for
each pair of ends. -/
def stageDecls : Decls :=
  { decls with
    queues := [queue 0 0xFFFF 0 3 0, queue 1 0 1 0 0, queue 2 0 1 0 0, queue 3 1 0 0 0, queue 4 1 0 0 0]
    groups := [⟨0, 0, 2, 0, [1, 2], [0, 0]⟩, ⟨1, 1, 2, 0, [3, 4], [0, 32]⟩]
    tokens := [⟨0, 2, 1, .stage 0, .stage 0, 0⟩, ⟨1, 2, 1, .feed, .feed, 0⟩, ⟨2, 2, 1, .stay 0, .caisson, 0⟩, ⟨3, 2, 1, .stage 1, .caisson, 0⟩,
      ⟨4, 2, 0, .stage 0, .host, 1⟩]
    fences := [2, 3] }

def desc : Desc :=
  { mbId := 5, step := 0, feedTag := 9, tokens := 1, payloadBytes := 32, version := 0, segCount := 0, last := false, bwd := false,
    joined := false, origin := 0 }

def micro : Micro := { desc, segs := [], addr := 0x8000 }

def entryRun : EntryRun :=
  { entry := 0, channel := 2, stage := 0, done := [], parts := [], held := [], nonfinite := false, trailers := [], payload := none, verdict := none,
    finished := true }

/-- The program of those declarations, with a micro-batch in hand and the heads of queues in a state. -/
def stageProgram (st : SlotState) : Program :=
  { program with
    stages := [{ current := some micro, pinned := [⟨5, 0, 0⟩], store := [some (0, 1)], waiting := [], newestStep := none },
      { current := none, pinned := [], store := [some (0, 0)], waiting := [], newestStep := none }]
    queues := [queueWith (queue 0 0xFFFF 0 3 0) st, queueWith (queue 1 0 1 0 0) .free, queueWith (queue 2 0 1 0 0) .free,
      queueWith (queue 3 1 0 0 0) st, queueWith (queue 4 1 0 0 0) st]
    tokens := [(0, 1), (1, 1), (2, 1), (3, 1), (4, 0)]
    stays := [{ tile := 0, outstanding := [entryRun], inbox := [], lastStep := [], lastFirst := [] }]
    firstStep := 0, inflight := 0 }

/-- The piers of stage 0 at a word. -/
def atRendezvous (st : SlotState) (w : Nat) : State := both (active stageDecls (stageProgram st)) w

def meeting (w : Nat) : Meet := { n := 0, im := image stageDecls, stage := 0, piers := [(0, 0, w), (1, 0, w)], word := w }

def rendezvousWord (op index : Nat) : Nat := word op 0 index 0 0 0 0

theorem witness_RendezvousAdvancesPiers : ((meeting (rendezvousWord 0x18 0)).piers.map (·.1)).Nodup
    ∧ (ctxAt (active stageDecls (stageProgram .free)) 0).bind (·.sampling) = none
    ∧ faultedIn (active stageDecls (stageProgram .free)) 0 = false := by decide +kernel

theorem witness_PushAndForkDeliver : (∀ w ∈ [word 0x10 0 1 1 0 0 0, word 0x13 1 0 1 0 0 0], ∀ s, s = atRendezvous .free w →
      Meets s 0 (meeting w) ∧ (stageAt s 0 0).bind (·.current) = some micro)
    ∧ (let w := word 0x10 0 1 1 0 0 0
       ∃ x, (progAt (atRendezvous .free w) 0).bind (fun p => spanQueueAt p 1) = some x ∧ MaySend (atRendezvous .free w) (meeting w) [x])
    ∧ (let w := word 0x13 1 0 1 0 0 0
       ∃ g qs, groupOf (atRendezvous .free w) (meeting w) 0 = some (g, qs) ∧ MaySend (atRendezvous .free w) (meeting w) qs) := by
  refine ⟨?_, ⟨_, rfl, by decide +kernel⟩, ⟨_, _, rfl, by decide +kernel⟩⟩
  rintro w hw _ rfl
  revert w
  decide +kernel

/-- Queue 1 with a Span buffer of no resident slot, whose homes stand at 1.0625 MiB; its first slot is not resident. -/
def spillDecls : Decls := { stageDecls with spanBuffers := [⟨0, 0, 0x110000, 0x10000⟩] }

def spilled : SpanQueue :=
  { queueWith (queue 1 0 1 0 0) .free with slots := [{ slot .free with resident := false }, { slot .free with resident := false }] }

def spilling : State :=
  active spillDecls { stageProgram .free with queues := [spilled] }

/-- A slot in the Span buffer, one with its home in HBM, and a sending link. -/
theorem witness_PushAndForkDeliver_deliver :
    (∀ s x p, s = active stageDecls (stageProgram .free) → x = queueWith (queue 1 0 1 0 0) .free → p = stageProgram .free →
      progAt s 0 = some p ∧ p.st ≠ .faulted ∧ spanQueueAt p 1 = some x ∧ x.link.filter (·.sending) = none ∧ hasRoom x = true
        ∧ x.fillAt < x.slots.length ∧ (slotAt x x.fillAt).weak = []
        ∧ buffered s 0 (slotHome (image stageDecls) x.decl x.fillAt) (slotAt x x.fillAt) = true)
    ∧ (∀ p, p = { stageProgram .free with queues := [spilled] } → progAt spilling 0 = some p ∧ p.st ≠ .faulted
        ∧ spanQueueAt p 1 = some spilled ∧ spilled.link.filter (·.sending) = none ∧ hasRoom spilled = true
        ∧ spilled.fillAt < spilled.slots.length ∧ (slotAt spilled spilled.fillAt).weak = []
        ∧ slotHome (image spillDecls) spilled.decl spilled.fillAt = some 0x110000
        ∧ buffered spilling 0 (some 0x110000) (slotAt spilled spilled.fillAt) = false
        ∧ mayWrite (image spillDecls) 0x110000 (encodeDesc desc ++ [].flatMap encodeSeg).length = true
        ∧ mayWrite (image spillDecls) (0x110000 + payloadOffset (classOf (image spillDecls) spilled.decl)) 32 = true
        ∧ spilling.pylon.spillBad.contains (hostTile (image spillDecls) spilled.decl) = false
        ∧ spilling.pylon.spillWeak.contains (hostTile (image spillDecls) spilled.decl) = false
        ∧ spilling.hbm.uncorrectable = [] ∧ spilling.hbm.correctable = [] ∧ spilling.caisson.run = none) := by
  refine ⟨?_, ?_⟩
  · rintro _ _ _ rfl rfl rfl
    decide +kernel
  · rintro _ rfl
    decide +kernel

/-- A PUSH of a 32-byte slice from each pier fills slot 0 of queue 1: it is FULL, with 64 payload bytes (R186). -/
theorem test_push : ∃ t, exec (.push 0) (atRendezvous .free (word 0x10 0 1 1 0 0 0)) = .next t
    ∧ ((progAt t 0).bind (fun p => spanQueueAt p 1)).map (fun x => ((slotAt x 0).st, field ((slotAt x 0).buf.read 0 64) 0x10 4, x.fillAt))
      = some (.full, 64, 1) ∧ (pierAt t 1).index = 1 := by
  refine ⟨_, rfl, ?_⟩
  decide +kernel

theorem witness_PopJoinAndReleaseTakeSlots : (∀ st ∈ [SlotState.full, .held], ∀ w ∈ [rendezvousWord 0x11 0, rendezvousWord 0x12 0,
      rendezvousWord 0x14 1], Meets (atRendezvous st w) 0 (meeting w))
    ∧ (let w := rendezvousWord 0x11 0
       ∃ x, (progAt (atRendezvous .full w) 0).bind (fun p => spanQueueAt p 0) = some x ∧ x.decl.consumer = 0 ∧ hasFull x = true
        ∧ ∃ v r, readHead (atRendezvous .full w) 0 (image stageDecls) x = (v, some r))
    ∧ (let w := rendezvousWord 0x12 0
       ∃ x, (progAt (atRendezvous .held w) 0).bind (fun p => spanQueueAt p 0) = some x ∧ x.decl.consumer = 0
        ∧ (slotAt x x.heldAt).st = .held)
    ∧ (let w := rendezvousWord 0x14 1
       ∃ g qs, groupOf (atRendezvous .full w) (meeting w) 1 = some (g, qs) ∧ ∀ x ∈ qs, x.decl.consumer = 0 ∧ hasFull x = true) := by
  refine ⟨by decide +kernel, ⟨_, rfl, by decide +kernel, by decide +kernel, _, _, rfl⟩, ⟨_, rfl, by decide +kernel, by decide +kernel⟩,
    ⟨_, _, rfl, by decide +kernel⟩⟩

theorem witness_PopJoinAndReleaseTakeSlots_slots : (progAt (atRendezvous .full (rendezvousWord 0x11 0)) 0).bind
    (fun p => spanQueueAt p 0) = some (queueWith (queue 0 0xFFFF 0 3 0) .full) := by decide +kernel

/-- A POP holds the head and moves to the next slot; a RELEASE frees it (R188). -/
theorem test_pop_release : (∃ t, exec (.pop 0) (atRendezvous .full (rendezvousWord 0x11 0)) = .next t
      ∧ ((progAt t 0).bind (fun p => spanQueueAt p 0)).map (fun x => ((slotAt x 0).st, x.headAt)) = some (.held, 1))
    ∧ ∃ t, exec (.release 0) (atRendezvous .held (rendezvousWord 0x12 0)) = .next t
      ∧ ((progAt t 0).bind (fun p => spanQueueAt p 0)).map (fun x => ((slotAt x 0).st, x.heldAt)) = some (.free, 1) := by
  refine ⟨⟨_, rfl, by decide +kernel⟩, ⟨_, rfl, by decide +kernel⟩⟩

def tokenWord (op : Nat) : Nat := word op 0 0 0 0 1 0

theorem witness_SignalAndWaitCountTokens :
    (∀ op ∈ [0x18, 0x19], ∃ d, Meets (atRendezvous .free (tokenWord op)) 0 (meeting (tokenWord op)) ∧ tokenDecl (image stageDecls) 0 = some d
      ∧ tokenN d 1 = true ∧ d.producer = .stage 0 ∧ d.consumer = .stage 0
      ∧ tokenRoom (atRendezvous .free (tokenWord op)) 0 d 1 = true ∧ 1 ≤ tokenCount (atRendezvous .free (tokenWord op)) 0 d.channel)
    ∧ (∀ s, s = active stageDecls (stageProgram .free) → acting s = some (0, image stageDecls)
      ∧ (∃ d, tokenDecl (image stageDecls) 1 = some d ∧ tokenN d 1 = true ∧ d.producer = .feed ∧ d.consumer = .feed
        ∧ tokenRoom s 0 d 1 = true ∧ 1 ≤ tokenCount s 0 1)
      ∧ (∃ x e d, stayAt s 0 0 = some x ∧ x.outstanding.find? (fun r => r.entry == 0 && r.finished) = some e
        ∧ tokenDecl (image stageDecls) e.channel = some d ∧ d.producer = .stay 0 ∧ tokenRoom s 0 d 1 = true)
      ∧ ∃ p, progAt s 0 = some p ∧ (image stageDecls).decls.fences[p.fencesDone]? = some 2
        ∧ p.fencesDone + 1 < (image stageDecls).decls.fences.length ∧ 1 ≤ tokenCount s 0 2) := by
  refine ⟨?_, ?_⟩
  · intro op h
    refine ⟨_, ?_, rfl, ?_⟩ <;> revert op <;> decide +kernel
  · rintro _ rfl
    exact ⟨by decide +kernel, ⟨_, rfl, by decide +kernel⟩, ⟨_, _, _, rfl, rfl, rfl, by decide +kernel⟩, ⟨_, rfl, by decide +kernel⟩⟩

/-- SIGNAL raises and WAIT lowers the count by n (R41). -/
theorem test_signal_wait : (∃ t, exec (.signal (.stage 0)) (atRendezvous .free (tokenWord 0x18)) = .next t ∧ tokenCount t 0 0 = 2)
    ∧ ∃ t, exec (.wait (.stage 0)) (atRendezvous .free (tokenWord 0x19)) = .next t ∧ tokenCount t 0 0 = 0 := by
  refine ⟨⟨_, rfl, by decide +kernel⟩, ⟨_, rfl, by decide +kernel⟩⟩

theorem witness_AdmitPinAndRetire : (∀ op ∈ [0x20, 0x21, 0x22], ∀ s, s = atRendezvous .free (rendezvousWord op 0) →
      Meets s 0 (meeting (rendezvousWord op 0)) ∧ (meeting (rendezvousWord op 0)).general.index = 0
      ∧ progAt s 0 = some (stageProgram .free) ∧ ctxAt s 0 = some (context (image stageDecls) (stageProgram .free))
      ∧ (stageAt s 0 0).bind (·.current) = some micro ∧ (stageAt s 0 0).map (·.pinned) = some [⟨5, 0, 0⟩])
    ∧ firstStage (image stageDecls) = some 0 ∧ (stageProgram .free).inflight < inflightLimit (image stageDecls)
    ∧ (carried (image stageDecls) (stageProgram .free) (stageProgram .free).admitStep).isSome = true
    ∧ pinVersion (meeting (rendezvousWord 0x21 0)) (stageProgram .free) micro = some 0 ∧ hasStore (image stageDecls) 0 = true
    ∧ (∀ u, u = atRendezvous .free (rendezvousWord 0x21 0) → holdsVersion (((stageAt (sweep (modStage u 0 0 fun r =>
        { r with newestStep := some micro.desc.step }) 0 (image stageDecls)) 0 0).map (·.store)).getD []) 0 = true) := by
  refine ⟨?_, by decide +kernel, by decide +kernel, by decide +kernel, by decide +kernel, by decide +kernel, ?_⟩
  · rintro op h _ rfl
    revert op
    decide +kernel
  · rintro _ rfl
    decide +kernel

/-- ADMIT takes mb_id 0 and one place in flight (R193). -/
theorem test_admit : ∃ t, exec (.admitBatch 0) (atRendezvous .free (rendezvousWord 0x20 0)) = .next t
    ∧ (progAt t 0).map (fun p => (p.inflight, p.admitted.map (·.1))) = some (1, some 0) := by
  refine ⟨_, rfl, ?_⟩
  decide +kernel

theorem witness_PinAndRetireKeepOrder : (∃ p r r', stageAt (active stageDecls (stageProgram .free)) 0 0 = some r
    ∧ stageAt (active stageDecls (stageProgram .free)) 0 1 = some r' ∧ firstStage (image stageDecls) ≠ some 1
    ∧ progAt (active stageDecls (stageProgram .free)) 0 = some p)
    ∧ ∀ s m, s = atRendezvous .free (rendezvousWord 0x21 0) → m = meeting (rendezvousWord 0x21 0) → firstStage m.im = some m.stage
      ∧ (m.piers.map (·.1)).Nodup ∧ hasStore m.im m.stage = true
      ∧ ∀ x ∈ m.piers, (pierAt s x.1).badWords = [] ∧ (pierAt s x.1).weakWords = []
        ∧ outside m.im x.1 [{ start := micro.addr + 20, bytes := 4 }] = none := by
  refine ⟨⟨_, _, _, rfl, rfl, by decide +kernel, rfl⟩, ?_⟩
  rintro _ _ rfl rfl
  decide +kernel

/-- A PIN at the first stage writes version 0 behind the descriptor's payload length in both piers and pins the version's slot (R199). -/
theorem test_pin : ∃ t, exec (.pin 0) (atRendezvous .free (rendezvousWord 0x21 0)) = .next t
    ∧ (stageAt t 0 0).map (fun r => (r.store, r.pinned.length)) = some ([some (0, 2)], 2) ∧ (pierAt t 1).index = 1 := by
  refine ⟨_, rfl, ?_⟩
  decide +kernel

/-- A GATHER, REDUCE_SCATTER or ALL_REDUCE entry of a Stay schedule (R210), without pieces for this rank. -/
def stayEntry (kind : Nat) : StayEntry :=
  { kind, grad := false, consensus := false, srcFmt := 0, dstFmt := 0, op := 0, layout := 0, table := 0, total := 32, lengths := none,
    src := 0x100000, dst := 0x110000, scaleDst := 0, steps := [], raw := [] }

def staySchedule : StaySchedule :=
  { tile := 0, maxOutstanding := 4, consensusEntry := 0xFFFF, verdictAddr := 0, stagingAddr := 0x120000, stagingBytes := 4096
    entries := [stayEntry 0, stayEntry 1, stayEntry 2], tables := [⟨1, 1, 1, 0, [0]⟩] }

def stayImage : Image := { image stageDecls with stays := [staySchedule] }

def atCollective (kind : Nat) : State :=
  let p := stageProgram .free
  let s := active stageDecls { p with stays := [{ tile := 0, outstanding := [], inbox := [], lastStep := [], lastFirst := [] }] }
  both (modCtx s 0 fun c => { c with image := some stayImage }) (word (0x28 + kind) 0 kind 0 0 2 0)

theorem witness_CollectivesBecomeOutstanding : ∀ kind ∈ [0, 1, 2], ∀ s m, s = atCollective kind →
    m = { meeting (word (0x28 + kind) 0 kind 0 0 2 0) with im := stayImage } → Meets s 0 m
    ∧ ∃ x c, stayAt s 0 (homeTile stayImage.decls 0) = some x ∧ collOf 0 stayImage 0 kind = some c ∧ c.e.kind = kind
      ∧ (c.run s).isSome = false ∧ x.outstanding.length < c.sched.maxOutstanding := by
  rintro kind h _ _ rfl rfl
  simp only [List.mem_cons, List.not_mem_nil, or_false] at h
  rcases h with rfl | rfl | rfl <;>
    exact ⟨by decide +kernel, _, _, rfl, rfl, by decide +kernel, by decide +kernel, by decide +kernel⟩

def endWord : Nat := word 0x30 0 0 0 0 0 0

/-- All piers at STEP_END, the other actors done. -/
def atStepEnd : State :=
  let p := stageProgram .free
  withWord (both (active stageDecls { p with stays := [], fencesDone := 2 }) endWord) 2 endWord

theorem witness_StepEndsAndWatchdog :
    (acting atStepEnd = some (0, image stageDecls) ∧ othersDone atStepEnd 0 (image stageDecls) = true
      ∧ atStepEnd.hbm.uncorrectable = [] ∧ atStepEnd.hbm.correctable = [] ∧ ((ctxAt atStepEnd 0).map (·.sampling)) = some none
      ∧ ∀ p ∈ allPiers (image stageDecls), atRest atStepEnd p = true ∧ (pierAt atStepEnd p).index < deckLength (image stageDecls) p
        ∧ opcodeOf (peekWord atStepEnd (image stageDecls) p) = 0x30
        ∧ wordOk (peekWord atStepEnd (image stageDecls) p) = true)
    ∧ (let p := { stageProgram .free with fencesDone := 1 }
       let s := active stageDecls p
       acting s = some (0, image stageDecls) ∧ progAt s 0 = some p ∧ stageDecls.fences[p.fencesDone]? = some 3
        ∧ p.fencesDone + 1 = stageDecls.fences.length ∧ 1 ≤ tokenCount s 0 3 ∧ imageAt s 0 = some (image stageDecls)
        ∧ running s = true ∧ serving s 0 = true ∧ p.st = .running ∧ retrying s p = false) := by decide +kernel

/-- STEP_END raises the step number and starts every deck again (R92, R170). -/
theorem test_stepEnd : ∃ t, exec .stepEnd atStepEnd = .next t ∧ (ctxAt t 0).map (·.step) = some 1 ∧ (pierAt t 2).index = 0 := by
  refine ⟨_, rfl, ?_⟩
  decide +kernel

/-! ### Links, associations, ports -/

/-- An end of a link with package 7, hosting queue 0, over port 3. -/
def span (st : BindState) : SpanLink :=
  { link := 12, peer := 7, sending := false, ports := [3], st, digest := [1, 2], txSeq := 0, rxSeq := 5, ahead := [], sent := 0, released := 0,
    heardAt := 0, sentAt := 0, nextPort := 0, errors := 0 }

def assocWith (st : BindState) : Assoc :=
  { peer := 9, st, digest := [3], txSeq := 0, rxSeq := 5, ahead := [], granted := 0, dataSent := 0, grantedOut := 0, backlog := [], heardAt := 0,
    sentAt := 0, errors := 0 }

def portActive : Port := { Port.fresh with st := .active, inService := true, neighbour := some (7, 1), credit := List.replicate 8 32 }

/-- A program with a link and an association in a binding state; `st` of slot 0 of the link's queue. -/
def linked (b : BindState) (st : SlotState) (p : ProgState) : State :=
  let s := active stageDecls { stageProgram .free with
    st := p, queues := [{ queueWith (queue 0 0xFFFF 0 0 0) st with link := some (span b) }], assocs := [assocWith b], stays := [] }
  { s with pylon := { s.pylon with ports := s.pylon.ports.set 3 portActive } }

theorem witness_SpanFramesActInOrder : ∀ b ∈ [BindState.bound, .binding], ∀ s, s = linked b .free .running →
    SpanNext s 12 7 5 0 0 (image stageDecls) { queueWith (queue 0 0xFFFF 0 0 0) .free with link := some (span b) } (span b)
    ∧ linkBusy s 0 (image stageDecls) { queueWith (queue 0 0xFFFF 0 0 0) .free with link := some (span b) } (span b) = false
    ∧ linkBusy (linked b .held .running) 0 (image stageDecls)
        { queueWith (queue 0 0xFFFF 0 0 0) .held with link := some (span b) } (span b) = true := by
  rintro b h _ rfl
  revert b
  decide +kernel

theorem witness_StayFramesActInOrder : ∀ b ∈ [BindState.bound, .binding], ∀ s, s = linked b .free .running →
    StayNext s 9 5 0 (assocWith b) ∧ assocBusy s 0 9 (assocWith b) = false
    ∧ assocBusy s 0 9 { assocWith b with backlog := [(0, { type := 0x11, flags := 0, entry := 0, piece := 0, seq := 0, value := 0, body := [] })] }
      = true := by
  rintro b h _ rfl
  revert b
  decide +kernel

/-- The same end as the sending end. -/
def sending : SpanLink := { span .bound with sending := true }

theorem witness_PushAndForkDeliver_sending : ∀ x, x = { queueWith (queue 1 0 0xFFFE 0 0) .free with slots := [], link := some sending } →
    ∀ s, s = active stageDecls { stageProgram .free with queues := [x] } →
    ((progAt s 0).bind fun p => spanQueueAt p 1) = some x ∧ x.link = some sending ∧ sending.sending = true := by
  rintro _ rfl _ rfl
  decide +kernel

/-- A CREDIT in order sets the cumulative RELEASE count and restarts the deadline (R179, R180). -/
theorem test_spanCredit : ∃ t, exec (.spanCredit 12 7 5 2) { linked .bound .free .running with time := 100 } = .next t
    ∧ (linkAt t 0 0).map (fun L => (L.released, L.rxSeq, L.heardAt)) = some (2, 6, 100) := by
  refine ⟨_, rfl, ?_⟩
  decide +kernel

theorem witness_LinkTimersExpire : (∀ s, s = linked .bound .free .running → running s = true
      ∧ findLink s (fun L => L.link == 12 && L.st == .bound) = some (0, 0) ∧ linkAt s 0 0 = some (span .bound)
      ∧ linkPaused s (span .bound) = false ∧ (bondPort s (span .bound)).isSome = true
      ∧ findAssoc s 9 (fun A => A.st == .bound) = some 0 ∧ assocAt s 0 9 = some (assocWith .bound)
      ∧ assocPaused s (assocWith .bound) = false)
    ∧ ∃ p, progAt (linked .binding .free .binding) 0 = some p ∧ p.st = .binding := by
  refine ⟨?_, _, rfl, rfl⟩
  rintro _ rfl
  decide +kernel

/-- The package with one port as given, ID 4, and no program. -/
def ported (P : Port) : State := { up with pylon := { up.pylon with pkgId := some 4, ports := up.pylon.ports.set 3 P } }

/-- A Span HEARTBEAT from package 7. -/
def frame (dst hops lseq : Nat) : PylonFrame :=
  { dst, dstTile := 0, src := 7, srcTile := 0, klass := 1, hops, lseq, ack := 0, payload := [4, 0, 12, 0] ++ leBytes 12 0 }

/-- Port 3 in retry activity with one frame held. -/
def retrying3 (sends : Nat) : Port :=
  { portActive with retry := [{ frame := frame 7 0 2, sends }], txSeq := 3, activity := some (0, 2), holdTo := [7] }

theorem witness_PortFramesAndReplay : PortOn (ported portActive) 3 portActive
    ∧ (portActive.retry = [] ∧ portActive.waiting = [] ∧ portActive.activity = none ∧ portActive.disabling = [])
    ∧ (∀ h ∈ [6, 7], ∀ d ∈ [4, 5], decodeFrame (encodeFrame (frame d h 0)) = some (frame d h 0) ∧ (frame d h 0).klass ≠ 3
      ∧ classOk (frame d h 0) = true ∧ (frame d h 0).lseq = portActive.rxSeq ∧ 1 ≤ field (frame d h 0).payload 0 1
      ∧ field (frame d h 0).payload 0 1 ≤ 7)
    ∧ (ported portActive).pylon.pkgId = some (frame 4 7 0).dst ∧ (ported portActive).pylon.pkgId ≠ some (frame 5 7 0).dst
    ∧ decodeFrame (0 :: encodeFrame (frame 4 0 0)) = none ∧ portActive.nakSent = false
    ∧ (∀ P, P = { portActive with waiting := [(none, frame 5 0 0)] } → PortOn (ported P) 3 P ∧ P.waiting = [(none, frame 5 0 0)]
      ∧ hasCredit { P with credit := List.replicate 8 1 } (frame 5 0 0) = true ∧ retryRoom P (frame 5 0 0) = true)
    ∧ (∀ P, P = retrying3 7 → PortOn (ported P) 3 P ∧ P.retry.getLast? = some { frame := frame 7 0 2, sends := 7 }
      ∧ P.retry.any (acked 2) = false ∧ P.waiting = [] ∧ P.disabling = [] ∧ P.activity = some (0, 2) ∧ activityOver P = false
      ∧ P.retry.all (·.sends < 8) = true ∧ ∀ y ∈ P.retry, y.frame.src ∈ P.holdTo) := by
  refine ⟨by decide +kernel, by decide +kernel, by decide +kernel, by decide +kernel, by decide +kernel, by decide +kernel,
    by decide +kernel, ?_, ?_⟩ <;> (rintro _ rfl; decide +kernel)

/-- A frame for this package goes to its inbox; a damaged one brings one NAK of the expected lseq (R235, R242). -/
theorem test_frameForward : (∃ t, exec (.frameForward 3 ⟨encodeFrame (frame 4 0 0), true⟩) (ported portActive) = .next t
      ∧ t.pylon.inbox.length = 1 ∧ (portAt t 3).rxSeq = 1)
    ∧ ∃ t, exec (.frameForward 3 ⟨encodeFrame (frame 4 0 0), false⟩) (ported portActive) = .next t
      ∧ (portAt t 3).ctlOut = [(0, encodeCtl (.nak 0))] := by
  refine ⟨⟨_, rfl, by decide +kernel⟩, ⟨_, rfl, by decide +kernel⟩⟩

/-- The check value of the CRC of IEEE 802.3: the digits 1 to 9 give CBF4_3926. -/
theorem test_crc32 : crc32 [0x31, 0x32, 0x33, 0x34, 0x35, 0x36, 0x37, 0x38, 0x39] = 0xCBF43926 := by decide +kernel

/-- A HOLD of port 1 of package 7 that came over port 3 with lseq 4, and one of package 8. -/
def held7 : Hold := { pkg := 7, port := 1, at_ := 20, arrival := some (3, 4) }

/-- With nothing noted; with the HOLD_END of lseq 4 noted, a HOLD of lseq 3 is over already; with that HOLD noted, one alone or
beside another, a HOLD_END of lseq 5 ends it. -/
theorem witness_HoldsPauseDeadlines : running up = true ∧ liveEnds up = [] ∧ up.pylon.holds = []
    ∧ (∀ s, s = { up with pylon := { up.pylon with ends := [held7] } } → running s = true
      ∧ (liveEnds s).find? (fun e => e.names 7 1 && earlierNotice (some (3, 3)) e.arrival) = some held7)
    ∧ ∀ l ∈ [[held7], [held7, { held7 with pkg := 8 }]], ∀ s, s = { up with pylon := { up.pylon with holds := l } } → running s = true
      ∧ s.pylon.holds.find? (fun h => h.names 7 1) = some held7 ∧ earlierNotice (some (3, 5)) held7.arrival = false
      ∧ earlierNotice (some (3, 3)) held7.arrival = true ∧ (s.pylon.holds.filter fun h => !h.names 7 1) = l.tail := by
  refine ⟨by decide +kernel, by decide +kernel, rfl, ?_, ?_⟩
  · rintro _ rfl
    decide +kernel
  · rintro l h _ rfl
    revert l
    decide +kernel

/-- The only HOLD over, the deadline of a link starts from zero (R180). -/
theorem test_holdEnd : ∃ t, exec (.holdEnd ⟨3, 5⟩ 7 1) { linked .bound .free .running with
      time := 900, pylon := { (linked .bound .free .running).pylon with holds := [held7] } } = .next t
    ∧ t.pylon.holds = [] ∧ (linkAt t 0 0).map (·.heardAt) = some 900 ∧ (progAt t 0).map (·.watchdogAt) = some 900 := by
  refine ⟨_, rfl, ?_⟩
  decide +kernel

theorem witness_PortTrainsToActive : ∀ st ∈ [PortState.detect, .equalise, .align, .config, .retrain, .active], ∀ a ∈ [0, 1, 2],
    ∀ at_ ∈ [0, 60000000], ∀ P, P = { Port.fresh with st, attempts := a, subSince := at_ } → running (ported P) = true
      ∧ (ported P).pylon.ports[3]? = some P ∧ (ported P).pylon.pkgId = some 4 ∧ P.recal = none
      ∧ decide (P.since + 200000000 ≤ P.subSince + 150000000) = (at_ == 60000000)
      ∧ { (ported P) with pylon := { (ported P).pylon with pkgId := none } }.pylon.pkgId = none := by
  rintro st h a g at_ h' _ rfl
  revert st a at_
  decide +kernel

/-- A third failed attempt fails the port (R232). -/
theorem test_portTrainingTimeout : ∃ t, exec (.portTrainingTimeout 3) (ported { Port.fresh with st := .align, attempts := 2 }) = .next t
    ∧ (portAt t 3).st = .failed ∧ t.time = 1000000 := by
  refine ⟨_, rfl, ?_⟩
  decide +kernel

theorem witness_PortControlAndRecalibration :
    (∀ a ∈ [0, 1, 2], ∀ st ∈ [PortState.disabled, .failed, .active], ∀ s, s = having (ported { portActive with st }) (taken 0x0140 [3, a] []) →
      ready s 1 3 0x0140 = some (taken 0x0140 [3, a] []) ∧ (taken 0x0140 [3, a] []).param 0 < 64
      ∧ s.pylon.ports[(taken 0x0140 [3, a] []).param 0]? = some { portActive with st } ∧ lastPort s 3 = false
      ∧ (taken 0x0140 [3, a] []).param 1 = a)
    ∧ (portActive.retry = [] ∧ portActive.waiting = [] ∧ portActive.recal = none ∧ portActive.activity = none
      ∧ portActive.disabling = [] ∧ PortOn (ported portActive) 3 portActive)
    ∧ ∀ r ∈ [⟨some (1, 3), false, 0, none, true⟩, ⟨none, true, 0, none, false⟩], ∀ P, P = { portActive with recal := some r } →
      PortOn (ported P) 3 P ∧ P.recal = some r ∧ P.retry = [] ∧ P.activity = none ∧ P.waiting = [] ∧ P.disabling = []
      ∧ ready (having (ported P) (taken 0x0140 [3, 2] [])) 1 3 0x0140 = some (taken 0x0140 [3, 2] [])
      ∧ lastPort (having (ported P) (taken 0x0140 [3, 2] [])) 3 = false := by
  refine ⟨?_, by decide +kernel, ?_⟩
  · rintro a h st g _ rfl
    revert a st
    decide +kernel
  · rintro r h _ rfl
    revert r
    decide +kernel

/-- The die of port 3 released, and held in reset. -/
theorem witness_PortControlAndRecalibration_enable : ∀ b ∈ [true, false], ∀ s,
    s = { having (ported { portActive with st := .disabled }) (taken 0x0140 [3, 1] []) with
      dies := dieCodes.map fun c => { Die.fresh c with released := b } } →
    ready s 1 3 0x0140 = some (taken 0x0140 [3, 1] []) ∧ (dieAt s (0x20 + portTile 3)).released = b ∧ lastPort s 3 = false := by
  rintro b h _ rfl
  revert b
  decide +kernel

theorem witness_PackageIdAndRoutes :
    (∀ p ∈ [4095, 4096], ∀ b ∈ [true, false], ∀ s, s = having { up with pylon := { up.pylon with committed := b } } (taken 0x0141 [p] []) →
      ready s 1 3 0x0141 = some (taken 0x0141 [p] []) ∧ s.pylon.committed = b ∧ (taken 0x0141 [p] []).param 0 = p)
    ∧ (∀ k ∈ [0, 1], ∀ c, c = taken 0x0142 [4096 - k] (List.replicate (16 * k) 0) → ready (having up c) 1 3 0x0142 = some c
      ∧ c.payload.length = 16 * k ∧ k ≤ 256 ∧ c.param 0 + k ≤ 4096)
    ∧ (∀ l ∈ [[], [(0, { ports := [], valid := true, isLocal := false, spread := 2, reserved := false })]], ∀ s,
      s = having { up with pylon := { up.pylon with shadow := l } } (taken 0x0143 [] []) →
      ready s 1 3 0x0143 = some (taken 0x0143 [] []) ∧ shadowOk s = l.isEmpty) := by
  refine ⟨?_, ?_, ?_⟩
  · rintro p h b g _ rfl
    revert p b
    decide +kernel
  · rintro k h _ rfl
    revert k
    decide +kernel
  · rintro l h _ rfl
    revert l
    decide +kernel

/-- ROUTE_LOAD writes its entry: bit 63 valid, ports from bit 64 on (R242). -/
theorem test_routeLoad : ∃ t, exec (.routeLoad 1 3) (having up (taken 0x0142 [5] (leBytes 16 (2 ^ 63 + 2 ^ 67)))) = .next t
    ∧ (assoc t.pylon.shadow 5).map (fun r => (r.ports, r.valid)) = some ([3], true) := by
  refine ⟨_, rfl, ?_⟩
  decide +kernel

/-! ### HBM, memory commands, checkpoints -/

/-- The payload of a memory command (R336). -/
def memPayload (a b n : Nat) : List Byte := leBytes 8 a ++ leBytes 8 b ++ leBytes 8 n ++ leBytes 8 0

/-- A context that is granted the first 4 GiB of stack 0, with a memory command outstanding. -/
def memState (op a b n : Nat) : State := having (active decls program) (taken op [] (memPayload a b n))

/-- The first byte of the context's granted range, after its save area (R344). -/
def grantedAt : Nat := 0x18000000

theorem witness_MemCommandsMoveBytes : ∀ op ∈ [0x0201, 0x0202, 0x0203, 0x0204], ∀ s, s = memState op grantedAt (grantedAt + 32) 32 →
    ∀ c, c = taken op [] (memPayload grantedAt (grantedAt + 32) 32) → ∀ x, x = memArgs c.payload → Memory.Wf s.hbm.mem
      ∧ s.hbm.uncorrectable = [] ∧ s.hbm.correctable = [] ∧ s.caisson.run = none ∧ memOk c.payload = true
      ∧ granted s c.context x.a x.bytes = true ∧ ready s 1 3 op = some c ∧ x.b % 32 = 0 ∧ x.b < 2 ^ 32
      ∧ (List.replicate 32 (0 : Byte)).length = x.bytes ∧ granted s c.context x.b x.bytes = true
      ∧ rangesMeet x.a x.bytes x.b x.bytes = false := by
  rintro op h _ rfl _ rfl _ rfl
  revert op
  decide +kernel

/-- MEM_FILL stores its word in byte order (R5, R336). -/
theorem test_memFill : ∃ t, exec (.memFill 1 3) (memState 0x0203 grantedAt 0x11223344 32) = .next t
    ∧ t.hbm.mem.read grantedAt 5 = [0x44, 0x33, 0x22, 0x11, 0x44] := by
  refine ⟨_, rfl, ?_⟩
  decide +kernel

theorem witness_MemReadRefuses : ∀ v ∈ [(grantedAt, 32, true, true), (grantedAt - 32, 32, true, false), (grantedAt, 16, false, true)], ∀ c,
    c = taken 0x0202 [] (memPayload v.1 v.2.1 32) → ∀ s, s = having
      { active decls program with hbm := { up.hbm with uncorrectable := [grantedAt / 64] } } c →
    ready s 1 3 0x0202 = some c ∧ memOk c.payload = true ∧ ((memArgs c.payload).b % 32 == 0) = v.2.2.1
      ∧ granted s c.context (memArgs c.payload).a 32 = v.2.2.2 ∧ (v.1 = grantedAt → s.hbm.badIn v.1 32 ≠ []) := by
  rintro v h _ rfl _ rfl
  revert v
  decide +kernel

theorem witness_StackServiceKeepsBytes :
    (∀ b ∈ [true, false], ∀ s, s = { up with hbm := { up.hbm with uncorrectable := if b then [7] else [] } } → running s = true
      ∧ s.hbm.uncorrectable.contains (blockOf (stackBase 0) + 7) = b)
    ∧ (∀ K, K = { Stack.fresh with hotRefresh := true, coolSince := some 4 } → ∀ s, s = { up with hbm := { up.hbm with
        footings := up.hbm.footings.set 11 K } } → s.hbm.footings[11]? = some K ∧ running s = true ∧ K.hotRefresh = true
      ∧ K.coolSince = some 4)
    ∧ (∀ h ∈ [true, false], ∀ s, s = { up with pkg := { up.pkg with heldTiles := if h then [3] else [] } } → stackHeld s 11 = h ∧ running s = true)
    ∧ assoc [(11, 3)] 11 = some 3 ∧ (∀ s, s = { up with time := 600000000000 } → tempMoved s 11 = false)
    ∧ ∀ p ∈ [11, 12, 0xFFFFFFFF], ready (having up (taken 0x0210 [p] [])) 1 3 0x0210 = some (taken 0x0210 [p] []) := by
  refine ⟨?_, ?_, ?_, by decide +kernel, ?_, by decide +kernel⟩
  · rintro b h _ rfl
    revert b
    decide +kernel
  · rintro _ rfl _ rfl
    decide +kernel
  · rintro h g _ rfl
    revert h
    decide +kernel
  · rintro _ rfl
    decide +kernel

def ckptConfig : CkptConfig :=
  { ctx := 0, seq := 3, stepInterval := 1, timerS := 60, reportQueue := 1, sign := false, text := [], ranges := [(0x18000000, 1)] }

def shard : Shard := { src := 0x18000000, mib := 1, stack := 0, index := 0, halfOffsetMib := 1, digest := [] }

def ckptRun (half : Nat) (hs : List Shard) (uncopied : List (Nat × Nat)) : CkptRun :=
  { ctx := 0, half, cfg := ckptConfig, text := [], zecDigest := List.replicate 32 0, redDigest := List.replicate 32 0, captureTime := 0, step := 4,
    version := 0, nextMb := 0, ls := .initial, lsInterval := 0, shards := hs, uncopied, digested := [], stepEnded := true }

def withRun (run : CkptRun) : State := { up with caisson := { up.caisson with config := some ckptConfig, run := some run } }

theorem witness_CheckpointCopiesAndDigests : (∀ s, s = withRun (ckptRun 0 [shard] [(0, 0)]) → running s = true
      ∧ s.caisson.config = some ckptConfig ∧ ckptConfig.timerS ≠ 0 ∧ s.caisson.timerDue = false
      ∧ s.hbm.uncorrectable = [] ∧ s.hbm.correctable = [] ∧ Memory.Wf s.hbm.mem
      ∧ ∀ k, k < 12 → (stackAt s k).pathBad = false ∧ (stackAt s k).pathWeak = false)
    ∧ frontier (ckptRun 0 [shard] [(0, 0)]) 0 = some (0, 0) ∧ frontier (ckptRun 0 [shard] []) 0 = none
    ∧ (ckptRun 0 [shard] []).digested.contains 0 = false := by
  refine ⟨?_, by decide +kernel⟩
  rintro _ rfl
  decide +kernel

/-- A generation without shards, and the state that its commit leaves. -/
def runDone (half : Nat) : CkptRun := ckptRun half [] []

theorem witness_CheckpointCommits : ∀ h ∈ [0, 1], ∀ s, s = withRun (runDone h) → ∃ v m, signManifest s (runDone h) = (v, m)
    ∧ running s = true ∧ commitReady (runDone h) = true ∧ s.caisson.newConfig = none ∧ s.hbm.uncorrectable = [] ∧ s.hbm.correctable = []
    ∧ Memory.Wf s.hbm.mem ∧ nextLocalSeq s < 2 ^ 64 ∧ (runDone h).half < 2 ∧ m.length ≤ 520192
    ∧ (slice m (digestAt (runDone h).shards.length) 32).length = 32 := by
  rintro h g _ rfl
  refine ⟨_, _, rfl, ?_⟩
  revert h
  decide +kernel

/-- A full store: all its blocks are retired (R380). -/
def fullStore (s : State) : State :=
  { s with toll := { s.toll with journal := [], retired := List.range 2048, log := [] } }

/-- Where the store has no room for a reservation, a signature waits. -/
theorem signWaits_full {s : State} (hq : s.toll.q = 0) (hd : s.toll.toRetire = []) (hf : s.toll.failing = []) :
    signWaits (fullStore s) = true := by
  have hr : ∀ b < 2048, b ∈ (fullStore s).toll.retired := by simp [fullStore]
  have hi : limitOf [] = 0 := rfl
  have hc := commitRecords_full (t := (fullStore s).toll) 2 (bs := [.indexReserve 64]) (spaces_full rfl hr) (by decide)
  simp only [fullStore, hq, hd, hf] at hc
  simp [fullStore, signWaits, reserveIndex, indexLimit, hq, hi, hc, retireBlocks, retireFuel, logError, hd, hf, logEntry, logFresh, pushLog,
    persistedCause, keyCapacity, sevInfo]

theorem signWaits_end (s : State) : signWaits { s with toll := { s.toll with q := keyCapacity } } = false := by simp [signWaits]

/-- A checkpoint whose commit is signed. -/
def signing : CkptRun := { runDone 0 with cfg := { ckptConfig with sign := true } }

theorem witness_CheckpointCommits_sign : ∀ s, s = withRun signing → signing.cfg.sign = true ∧ commitReady signing = true ∧ signWaits (fullStore s) = true
    ∧ signWaits { s with toll := { s.toll with q := keyCapacity } } = false
    ∧ running (fullStore s) = true ∧ (fullStore s).caisson.run = some signing ∧ (fullStore s).caisson.newConfig = none
    ∧ (fullStore s).hbm.uncorrectable = [] ∧ (fullStore s).hbm.correctable = [] ∧ Memory.Wf (fullStore s).hbm.mem ∧ nextLocalSeq (fullStore s) < 2 ^ 64 := by
  rintro _ rfl
  refine ⟨rfl, by decide, signWaits_full rfl rfl rfl, signWaits_end _, ?_⟩
  decide +kernel

/-- The state that a commit leaves. -/
def committedState (half : Nat) : State := match exec .ckptCommit (withRun (runDone half)) with
  | .next t => t
  | _ => up

/-- The commit leaves a committed half of local_seq 1, and CKPT_QUERY's code for it is 1 (R282, R289). -/
theorem test_ckptCommit : halfCode (committedState 1) 1 = 1 ∧ localSeq (committedState 1) 1 = 1 ∧ committed (committedState 1) 0 = false := by
  decide +kernel

/-- CKPT_CONFIG's payload (R290). -/
def configPayload (rs : List (Nat × Nat)) : List Byte :=
  leBytes 2 rs.length ++ leBytes 2 1 ++ leBytes 4 0 ++ leBytes 1 1 ++ leBytes 119 0 ++ rs.flatMap fun r => leBytes 8 r.1 ++ leBytes 4 r.2 ++ leBytes 4 0

/-- Fence channels 0 and 1, of stages 0 and 1, and 16 MiB at 384 MiB declared. -/
def fencedDecls : Decls :=
  { decls with
    regions := [(0x18000000, 0x1000000)], fences := [0, 1]
    tokens := [⟨0, 1, 0, .stage 0, .caisson, 0⟩, ⟨1, 1, 0, .stage 1, .caisson, 0⟩] }

theorem witness_CheckpointCommandsAct :
    (∀ rs ∈ [[], [(0x18000000, 16)]], ∀ c, c = taken 0x0601 [] (configPayload rs) → ∀ s, s = having (active fencedDecls program) c →
      ready s 1 3 0x0601 = some c ∧ s.caisson.newConfig = none ∧ s.caisson.config.all (·.ctx == c.context) = true ∧ configOk c.payload = true
      ∧ imageAt s c.context = some (image fencedDecls) ∧ (configOf c.context 3 c.payload).ranges = rs
      ∧ (configOf c.context 3 c.payload).ranges.all (fun r => granted s c.context r.1 (r.2 * mib)) = true
      ∧ rangesOk (image fencedDecls) (configOf c.context 3 c.payload).ranges = true ∧ s.caisson.run = none)
    ∧ (∀ n ∈ [0, 64], ∀ c, c = taken 0x0602 [0] (List.replicate n 0) → ∀ s, s = having (withRun (ckptRun 0 [] [])) c →
      ready s 1 3 0x0602 = some c ∧ ckptHolder s = some c.context ∧ c.payload.length = n)
    ∧ ready (having up (taken 0x0603 [] [])) 1 3 0x0603 = some (taken 0x0603 [] [])
    ∧ (∀ p ∈ [0, 1], ∀ s, s = having up (taken 0x0607 [p] []) → ready s 1 3 0x0607 = some (taken 0x0607 [p] [])
      ∧ (s.caisson.run.any fun r => r.half = p) = false ∧ Memory.Wf s.hbm.mem) := by
  refine ⟨?_, ?_, by decide +kernel, ?_⟩
  · rintro rs h _ rfl _ rfl
    revert rs
    decide +kernel
  · rintro n h _ rfl _ rfl
    revert n
    decide +kernel
  · rintro p h _ rfl
    revert p
    decide +kernel

/-- A context without a program, whose image has the digests of the generation. -/
def restoring (c : Taken) : State :=
  having { committedState 1 with ctxs := (active decls program).ctxs.map (Option.map fun x =>
    { x with image := some { image decls with zecDigest := List.replicate 32 0 }, program := none }) } c

/-- What reading the committed half's manifest gives. -/
def readBack (s : State) : State × Option (List Byte) := readManifest 0 1 commitStacks (readCommits (start s 1 3) 0)

/-- The manifest of that generation. -/
def generation : List Byte := (readManifest 0 1 commitStacks (committedState 1)).2.getD []

/-- The step named is the generation's, which is 4; 0xFFFFFFFF names any (R284). -/
theorem witness_CheckpointsRestoreAndTravel_restore : ∀ c, c = taken 0x0604 [2, 4] [] → ∀ s, s = restoring c →
    ready s 1 3 0x0604 = some c ∧ (ctxAt s c.context).map (fun x => (x.image.map (·.zecDigest), x.program)) =
      some (some (slice generation 0x40 32), none)
    ∧ s.caisson.run = none ∧ selectHalf s (c.param 0) = some 1 ∧ (readBack s).2 = some generation
    ∧ shardsOf generation = [] ∧ c.param 1 = field generation 0x20 4 := by
  rintro _ rfl _ rfl
  decide +kernel

/-- Of no shards, no record is bad and none is corrupt. -/
theorem witness_CheckpointsRestoreAndTravel_shards : ∀ v, v = (readBack up).1 →
    (badRecords 0 1 (field generation 0x20 4) [] v).2 = [] ∧ checkShards 0 1 [] (badRecords 0 1 (field generation 0x20 4) [] v).1 = (v, [], []) := by
  rintro _ rfl
  exact ⟨rfl, rfl⟩

theorem witness_CheckpointsRestoreAndTravel_reads : ∀ s, s = committedState 1 → s.hbm.uncorrectable = [] ∧ s.hbm.correctable = []
    ∧ ∀ h ∈ [shard], (stackAt s h.stack).pathBad = false ∧ (stackAt s h.stack).pathWeak = false := by
  rintro _ rfl
  decide +kernel

/-- A stream of one empty shard. -/
def stream : List Byte :=
  let h : Shard := { shard with mib := 0, digest := List.replicate 32 0 }
  let b := manifestBody up (ckptRun 0 [h] []) false
  let m := encodeManifest b (sha256 b) []
  commitRecord m.length 1 4 false (sha256 b) ++ m ++ shardRecord 4 1 h

def streamManifest : List Byte := slice stream 64 (field stream 4 4)

theorem witness_CheckpointsRestoreAndTravel_export : ∀ c, c = taken 0x0605 [1, 0, 0, 1] [] → ∀ s, s = having (committedState 1) c →
    ready s 1 3 0x0605 = some c ∧ c.param 0 < 2 ∧ halfCode s (c.param 0) = 1 ∧ s.hbm.uncorrectable = [] ∧ s.hbm.correctable = []
      ∧ ((streamPieces 1 (field (commitAt s 1 0) 4 4) (shardsOf
        (s.hbm.mem.read (halfBase 1 0 + manifestAt) (field (commitAt s 1 0) 4 4)))).map (·.2.2)).sum ≤ c.param 3 * 4096 := by
  rintro _ rfl _ rfl
  decide +kernel

theorem witness_CheckpointsRestoreAndTravel_import : ∀ c, c = taken 0x0606 [0, 0, 0, 1] [] → ∀ s, s = having up c →
    ready s 1 3 0x0606 = some c ∧ s.caisson.run = none ∧ streamOk stream (c.param 3 * 4096) = true
      ∧ manifestMatches streamManifest (slice stream 32 32) = true
      ∧ ∀ w, w = readCommits (start s 1 3) c.context → (importShards (targetHalf w) stream (64 + streamManifest.length) (shardsOf streamManifest)
        (commitStacks.foldl (fun u k => writeHalf u (targetHalf w) k manifestAt streamManifest) (clearHalf w (targetHalf w)))).2 = false := by
  rintro _ rfl _ rfl
  refine and_assoc.1 (and_assoc.1 (and_assoc.1 ⟨?_, ?_⟩))
  · decide +kernel
  · rintro _ rfl
    decide +kernel

/-! ### Media commands and the Abutment -/

def stagingBytes : Nat := 2 * gib + 4096

/-- APR_CONFIG's payload: the feed queue 0, one text profile, rows of 32 bytes (R294, R295). -/
def aprPayload : List Byte :=
  leBytes 8 grantedAt ++ leBytes 8 stagingBytes ++ leBytes 2 32 ++ leBytes 2 1 ++ leBytes 1 1 ++ leBytes 1 0 ++ leBytes 2 0 ++ leBytes 72 0

/-- A text item of one byte (R297). -/
def itemBytes : List Byte := leBytes 8 0 ++ leBytes 4 1 ++ leBytes 36 0

/-- A tokenizer table without merges, in which each byte is its own ID (R308). -/
def tokenTable : List Byte :=
  let body := ((List.range 256).flatMap (leBytes 4)) ++ List.replicate 32 0 ++ leBytes 8 0 ++ leBytes 4 0xFFFFFFFF ++ leBytes 4 0
  leBytes 4 0x4E4B4F54 ++ leBytes 2 1 ++ leBytes 2 0 ++ leBytes 4 257 ++ leBytes 4 0 ++ leBytes 4 1 ++ leBytes 2 4096 ++ leBytes 2 0
    ++ leBytes 4 256 ++ leBytes 4 256 ++ sha256 body ++ body

def feedWith (results : List (Nat × ItemResult)) (packed : Option (Nat × Nat × Nat × Nat)) : Feed :=
  { q := 1, seq := 3, ctx := 0, last := true, tag := 0, resultsAddr := 0, items := [itemOf itemBytes], results
    tables := [(0, tokenTable)], packed }

/-- One token of four bytes at the start of the staging range. -/
def oneRow : ItemResult := { result := 0, unit := 0, detail := 0, microcode := 0, tokens := 1, width := 4, place := grantedAt }

/-- A failed item, and one that fills the staging range. -/
def failedItem : ItemResult := { oneRow with result := 0x10, tokens := 0 }
def wholeRange : ItemResult := { oneRow with tokens := stagingBytes, width := 1 }

/-- Context 0 configured, with a feed under way. -/
def feeding (fs : List Feed) : State :=
  let s := active stageDecls (stageProgram .free)
  { modCtx s 0 fun c => { c with apr := some (aprConfigOf aprPayload) } with apr := { tables := [], feeds := fs } }

theorem witness_FeedsReachTheFeedQueue_config : ∀ c, c = taken 0x0701 [] aprPayload → ∀ s,
    s = having (active stageDecls (stageProgram .free)) c → ∀ d, d = queue 0 0xFFFF 0 3 0 → ready s 1 3 0x0701 = some c
      ∧ imageAt s c.context = some (image stageDecls) ∧ feedQueueOf (image stageDecls) (aprConfigOf c.payload).feedQueue = some d
      ∧ s.apr.feeds.any (fun f => f.ctx = c.context) = false ∧ aprConfigOk c.payload = true
      ∧ between ((classOf (image stageDecls) d).payloadMax + 2 * gib) (16 * gib) (aprConfigOf c.payload).stagingBytes = true
      ∧ granted s c.context (aprConfigOf c.payload).stagingAddr (aprConfigOf c.payload).stagingBytes = true
      ∧ inGeneral (aprConfigOf c.payload).stagingAddr (aprConfigOf c.payload).stagingBytes = true
      ∧ onTile (hostTile (image stageDecls) d) (aprConfigOf c.payload).stagingAddr = true := by
  rintro _ rfl _ rfl _ rfl
  decide +kernel

/-- A packed feed of one token, its segment table at the start of the staging range. -/
def packedFeed : Feed := feedWith [(0, oneRow)] (some (1, grantedAt, 32, grantedAt + 2 * gib))

def atPush : State :=
  let s := feeding [packedFeed]
  { s with hbm := { s.hbm with mem := Memory.write s.hbm.mem grantedAt (leBytes 8 1) } }

/-- APR_FEED's payload (R296). -/
def feedPayloadBytes : List Byte := leBytes 8 0 ++ leBytes 2 1 ++ leBytes 2 1 ++ leBytes 20 0

/-- A die hold of the Approach die. -/
def heldApproach : State := { up with pkg := { up.pkg with holdDies := [0x30] } }

theorem witness_ApproachHeld : approachHeld heldApproach = true ∧ approachHeld up = false := by decide +kernel

/-- Units' working data in a configured context: what the clause on it asks for holds for a video (its kind is 3) and for a text. -/
theorem witness_FeedsReachTheFeedQueue_work : ∀ s, s = feeding [] → (∀ im, imageAt s 0 = some im → im.decls.frozen = [])
    ∧ Memory.Wf s.hbm.mem ∧ s.hbm.uncorrectable = [] ∧ s.hbm.correctable = [] ∧ s.caisson.run = none
    ∧ workData s (aprConfigOf aprPayload) (aprReader 0 (unitClass 0) 0) 0 = s := by
  rintro _ rfl
  refine ⟨?_, by decide +kernel, by decide +kernel, by decide +kernel, by decide +kernel, rfl⟩
  have h : (imageAt (feeding []) 0).all (fun im => im.decls.frozen.isEmpty) = true := by decide +kernel
  rintro im g
  simpa [g] using h

theorem witness_FeedsReachTheFeedQueue_feed : (∀ c, c = taken 0x0702 [] feedPayloadBytes → ∀ s, s = having (feeding []) c →
      approachHeld s = false ∧ ready s 1 3 0x0702 = some c ∧ findFeed s 1 3 = none ∧ (ctxAt s c.context).bind (·.apr) = some (aprConfigOf aprPayload)
      ∧ c.payload.length = 32 ∧ field c.payload 0 8 % 16 = 0 ∧ field c.payload 8 2 = 1 ∧ between 1 4096 1 = true ∧ field c.payload 10 2 < 2
      ∧ zeroField c.payload 0x18 8 = true ∧ ∀ i, i < 1 → itemOk (aprConfigOf aprPayload) (slice itemBytes (48 * i) 48) = true)
    ∧ (∀ l ∈ [[], [{ feedWith [(0, wholeRange)] none with seq := 2 }]], ∀ f, f = feedWith [] none → ∀ s, s = feeding (l ++ [f]) →
      running s = true ∧ approachHeld s = false ∧ findFeed s 1 3 = some f ∧ (ctxAt s f.ctx).bind (·.apr) = some (aprConfigOf aprPayload)
      ∧ f.items[0]? = some (itemOf itemBytes) ∧ f.result 0 = none ∧ 3 < unitCount (itemOf itemBytes).kind
      ∧ (∀ d ∈ [none, some [0x41]], ∃ r rows, decodeOn s (aprConfigOf aprPayload) f.tables (itemOf itemBytes) 3 d = (r, rows)
        ∧ rows.isEmpty = d.isNone
        ∧ ((feedClass s f.ctx (aprConfigOf aprPayload)).any fun x => oversize x (aprConfigOf aprPayload).rowBytes
            { f with results := [(0, r)] }.tokens { f with results := [(0, r)] }.segments.length) = false)
      ∧ workData s (aprConfigOf aprPayload) (aprReader f.ctx (unitClass (itemOf itemBytes).kind) 3) (itemOf itemBytes).kind = s
      ∧ meetsFrozen s f.ctx grantedAt 4 = false ∧ itemPlace s (aprConfigOf aprPayload) f 4 = (if l.isEmpty then some grantedAt else none)
      ∧ Memory.Wf s.hbm.mem ∧ s.hbm.uncorrectable = [] ∧ s.hbm.correctable = [] ∧ s.caisson.run = none)
    ∧ (∀ f, f = feedWith [(0, { oneRow with tokens := 9 })] none → ∀ s, s = feeding [f] →
      ((feedClass s f.ctx (aprConfigOf aprPayload)).any fun x => oversize x (aprConfigOf aprPayload).rowBytes f.tokens f.segments.length)
        = true)
    ∧ (∀ f, f = feedWith [(0, failedItem)] none → firstFailed f = some 0 ∧ f.packed = none ∧ f.results.length = f.items.length
      ∧ (aprConfigOf aprPayload).omitErrors = false)
    ∧ (∀ f, f = feedWith [(0, oneRow)] none → ∀ s, s = feeding [f] → findFeed s 1 3 = some f ∧ f.packed = none
      ∧ f.results.length = f.items.length ∧ firstFailed f = none ∧ 0 < f.tokens
      ∧ ((feedClass s f.ctx (aprConfigOf aprPayload)).any fun x => oversize x (aprConfigOf aprPayload).rowBytes
          (paddedTokens (aprConfigOf aprPayload) f.tokens) (feedSegs (aprConfigOf aprPayload) f).length) = false
      ∧ packTurn s f = true
      ∧ packPlaces s (aprConfigOf aprPayload) f (feedSegs (aprConfigOf aprPayload) f).length (packedBytes (aprConfigOf aprPayload) f)
        = some (grantedAt, grantedAt + 2 * gib)
      ∧ meetsFrozen s f.ctx grantedAt (8 * (feedSegs (aprConfigOf aprPayload) f).length) = false
      ∧ meetsFrozen s f.ctx (grantedAt + 2 * gib) (packedBytes (aprConfigOf aprPayload) f) = false ∧ Memory.Wf s.hbm.mem ∧ s.hbm.uncorrectable = [] ∧ s.hbm.correctable = [] ∧ s.caisson.run = none)
    ∧ (feedWith [(0, { oneRow with tokens := 0 })] none).tokens = 0
    ∧ ∀ f, f = packedFeed → ∀ s, s = atPush → findFeed s 1 3 = some f ∧ imageAt s f.ctx = some (image stageDecls)
      ∧ ((progAt s f.ctx).bind fun p => spanQueueAt p (aprConfigOf aprPayload).feedQueue) = some (queueWith (queue 0 0xFFFF 0 3 0) .free)
      ∧ hasRoom (queueWith (queue 0 0xFFFF 0 3 0) .free) = true ∧ oldestFeed s f = true ∧ s.hbm.uncorrectable = []
      ∧ s.hbm.correctable = [] ∧ decodeSegs (s.hbm.mem.read grantedAt 8) 1 = [⟨1, 0, 0⟩]
      ∧ (findFeed (fillSlot s f.ctx (image stageDecls) 0 (feedDesc f [⟨1, 0, 0⟩] 32) [⟨1, 0, 0⟩] (List.replicate 32 1)) 1 3).isSome = true := by
  refine ⟨?_, ?_, ?_, ?_, ?_, by decide +kernel, ?_⟩
  · rintro _ rfl _ rfl
    decide +kernel
  · rintro l hl _ rfl _ rfl
    simp only [List.mem_cons, List.not_mem_nil, or_false] at hl
    rcases hl with rfl | rfl <;>
      refine ⟨by decide +kernel, by decide +kernel, by decide +kernel, by decide +kernel, by decide +kernel, by decide +kernel, by decide +kernel,
        ?_, rfl, by decide +kernel⟩ <;>
      · rintro d hd
        refine ⟨_, _, rfl, ?_⟩
        revert d
        decide +kernel
  · rintro _ rfl _ rfl
    decide +kernel
  · rintro _ rfl
    decide +kernel
  · rintro _ rfl _ rfl
    decide +kernel
  · rintro _ rfl _ rfl
    decide +kernel

/-- FEED_PUSH fills slot 0 of the feed queue with the feed's one token (R298). -/
theorem test_feedPush : ∃ t, exec (.feedPush 1 3) atPush = .next t
    ∧ ((progAt t 0).bind (fun p => spanQueueAt p 0)).map (fun x => ((slotAt x 0).st, field ((slotAt x 0).buf.read 0 64) 0x0C 4))
      = some (.full, 1) ∧ t.apr.feeds = [] := by
  refine ⟨_, rfl, ?_⟩
  decide +kernel

/-- APR_DECODE of one text item into 32 bytes at the granted range's start (R314). -/
def decodePayload : List Byte := itemBytes ++ leBytes 8 grantedAt ++ leBytes 8 32 ++ leBytes 1 0

/-- Configured, with table 0 loaded. -/
def decoding (c : Taken) : State := { having (feeding []) c with apr := { tables := [(0, tokenTable)], feeds := [] } }

/-- R309: without merges a text of one byte is that byte's ID. -/
theorem test_tokenize : decodeItem (some tokenTable) false (itemOf itemBytes) (profileOf (List.replicate 64 0)) [0x41] = .text [0x41] := by
  decide +kernel

theorem witness_DecodesTablesAndQueries_decode : ∀ c, c = taken 0x0703 [] decodePayload → ∀ s, s = decoding c → ∀ a, a = aprConfigOf aprPayload →
    ∀ i, i = itemOf (slice c.payload 0 48) → approachHeld s = false ∧ ready s 1 3 0x0703 = some c ∧ (ctxAt s c.context).bind (·.apr) = some a
      ∧ a.profiles[i.profile]? = some (profileOf (List.replicate 64 0)) ∧ c.payload.length = 65 ∧ itemOk a (slice c.payload 0 48) = true
      ∧ field c.payload 48 8 % 32 = 0 ∧ field c.payload 64 1 ≤ 2
      ∧ granted s c.context (field c.payload 48 8) (field c.payload 56 8) = true ∧ assoc s.apr.tables i.table = some tokenTable
      ∧ (planarOf (profileOf (List.replicate 64 0)) (classOfKind i.kind) i.tokenCap (.text [0x41])).bytes 0 = some [0x41, 0, 0, 0]
      ∧ [0x41, 0, 0, (0 : Byte)].length ≤ field c.payload 56 8
      ∧ firstFit (stagingUsed s c.context) a.stagingAddr (a.stagingAddr + 2 * gib - tableSpace) 4 = some grantedAt
      ∧ ∀ v, v = workData (freeUsed (start s 1 3) 1) a (aprReader c.context (unitClass i.kind) (freeBelow s (unitCount i.kind))) i.kind →
        meetsFrozen v c.context grantedAt 4 = false ∧ Memory.Wf v.hbm.mem ∧ v.hbm.uncorrectable = [] ∧ v.hbm.correctable = []
          ∧ v.caisson.run = none := by
  rintro _ rfl _ rfl _ rfl _ rfl
  refine and_assoc.1 (and_assoc.1 (and_assoc.1 (and_assoc.1 (and_assoc.1 (and_assoc.1 (and_assoc.1 (and_assoc.1 (and_assoc.1 (and_assoc.1
    (and_assoc.1 (and_assoc.1 ⟨?_, ?_⟩)))))))))))
  · decide +kernel
  · rintro _ rfl
    rw [workData, if_pos (by decide +kernel)]
    decide +kernel

theorem witness_DecodesTablesAndQueries_table : ∀ c, c = taken 0x0704 [7, 0, 0, 1136] [] → ready (having up c) 1 3 0x0704 = some c
    ∧ c.param 0 < 8 ∧ c.param 3 = tokenTable.length ∧ tableOk tokenTable = true ∧ sha256 (tokenTable.drop 0x40) = slice tokenTable 0x20 32
    ∧ otherTables (having up c) 7 + tokenTable.length + oldTables (having up c) 7 ≤ tableRoom
    ∧ ready (having up (taken 0x0705 [] [])) 1 3 0x0705 = some (taken 0x0705 [] []) := by
  rintro _ rfl
  decide +kernel

/-- An Abutment payload on one image of one channel, h × 4 with a kernel of 1 × kw (R145). -/
def abutPayload (w pad pool kw loX : Nat) : List Byte :=
  leBytes 8 grantedAt ++ leBytes 8 w ++ leBytes 8 (grantedAt + 0x2000) ++ leBytes 8 0 ++ leBytes 2 1 ++ leBytes 2 4 ++ leBytes 2 1
    ++ leBytes 2 1 ++ leBytes 1 1 ++ leBytes 1 kw ++ leBytes 4 0x01010101 ++ leBytes 1 (pad + 4 * pool) ++ leBytes 1 0 ++ leBytes 4 0
    ++ leBytes 2 loX ++ leBytes 2 0 ++ leBytes 4 0 ++ leBytes 2 1 ++ leBytes 2 0

def abutKinds : List (AbutKind × Nat) := [(.fwd, 0x0780), (.bwdData, 0x0781), (.bwdWeight, 0x0782), (.pool, 0x0783)]

def abutState (k : AbutKind × Nat) (pad pool kw loX : Nat) : State :=
  having (active decls program) (taken k.2 [] (abutPayload (if k.1 = .pool then 0 else grantedAt + 0x1000) pad pool kw loX))

/-- The ranges that a command would read and write (R139, R146). -/
def abutRanges (k : AbutKind) (d : Abut) : List (Nat × Nat) :=
  ((d.runs k).1.map fun x => (d.in_ + x.1, x.2)) ++ ((d.runs k).2.1.map fun x => (d.w + x.1, x.2))
    ++ [(d.out, (d.sizes k).2.2.1)] ++ ((d.runs k).2.2.map fun x => (d.aux + x.1, x.2))

theorem witness_AbutmentWritesItsOutput : ∀ k ∈ abutKinds,
    (∀ v ∈ [(0, 2, 0), (0, 5, 0), (2, 2, 4), (2, 2, 3)], ∀ s, s = abutState k v.1 0 v.2.1 v.2.2 →
      ∀ c, c = taken k.2 [] (abutPayload (if k.1 = .pool then 0 else grantedAt + 0x1000) v.1 0 v.2.1 v.2.2) → ∀ d, d = abutOf c.payload →
      approachHeld s = false ∧ ready s 1 3 k.2 = some c ∧ abutOk k.1 c.payload = true
      ∧ mirrorOk d.pad d.inH d.inW d.padLoY d.padHiY d.padLoX d.padHiX = decide (v.2.2 ≠ 4)
      ∧ ((v.2.1 = 5 ∧ d.outW ≤ 0) ∨ (v.2.1 = 2 ∧ 0 < d.outH ∧ 0 < d.outW))
      ∧ (v.2.1 = 2 → v.2.2 ≠ 4 → ((abutRanges k.1 d).all fun r => granted s c.context r.1 r.2) = true)
      ∧ abutTurn (start s 1 3) c = true ∧ Memory.Wf s.hbm.mem ∧ s.hbm.uncorrectable = [] ∧ s.hbm.correctable = [] ∧ s.caisson.run = none)
    ∧ abutOk k.1 (abutPayload 1 0 0 2 0) = false
    ∧ (k.1 = .pool → (abutOf (abutPayload 0 0 3 5 0)).isGlobal k.1 = true ∧ abutOk k.1 (abutPayload 0 0 3 5 0) = true) := by
  intro k hk
  refine ⟨?_, ?_, ?_⟩
  · rintro v hv _ rfl _ rfl _ rfl
    revert k v
    decide +kernel
  · revert k
    decide +kernel
  · revert k
    decide +kernel

theorem witness_AbutmentNotPermitted : ∀ c, c = { taken 0x0783 [] (abutPayload 0 0 0 2 0) with context := 1 } → ∀ s, s = having (active decls program) c →
    approachHeld s = false ∧ ready s 1 3 0x0783 = some c ∧ abutOk .pool c.payload = true ∧ 0 < (abutOf c.payload).outH ∧ 0 < (abutOf c.payload).outW
      ∧ ((abutRanges .pool (abutOf c.payload)).all fun r => granted s c.context r.1 r.2) = false := by
  rintro _ rfl _ rfl
  decide +kernel

/-- R139: a pooling window of one column at stride 2 never reads the columns between. -/
theorem test_abutRuns : (({ abutOf (abutPayload 0 0 0 1 0) with strideX := 2 } : Abut).runs .pool).1 = [(0, 2), (4, 2)] := by
  decide +kernel

/-- Max pooling of 1 × 2 windows over 1, 2, 4, 3 gives 2, 4, 4 (R141). -/
theorem test_abutPool : abutPool (abutOf (abutPayload 0 0 0 2 0)) ([0x3C00, 0x4000, 0x4400, 0x4200].flatMap (leBytes 2))
    = [0x4000, 0x4400, 0x4400].flatMap (leBytes 2) := by decide +kernel

/-- A kernel of weights 1, 1 over 1, 2, 4, 3 gives 3, 6, 7 (R147). -/
theorem test_abutConvFwd : abutFwd (abutOf (abutPayload 0x40 0 0 2 0)) ([0x3C00, 0x4000, 0x4400, 0x4200].flatMap (leBytes 2))
      ([0x3C00, 0x3C00].flatMap (leBytes 2)) [] = [0x4200, 0x4600, 0x4700].flatMap (leBytes 2) := by decide +kernel

/-- A JPEG of one 8 × 8 block with coefficients 64 and 8 after dequantisation; the row is 136 + √2 · cos((2x + 1)π/16), worked out by hand. -/
def smallJpeg : List Byte :=
  [0xFF, 0xD8, 0xFF, 0xDB, 0x00, 0x43, 0x00] ++ List.replicate 64 8
    ++ [0xFF, 0xC0, 0x00, 0x0B, 8, 0, 8, 0, 8, 1, 1, 0x11, 0]
    ++ [0xFF, 0xC4, 0x00, 0x14, 0x00, 0, 1] ++ List.replicate 14 0 ++ [4]
    ++ [0xFF, 0xC4, 0x00, 0x15, 0x10, 0, 2] ++ List.replicate 14 0 ++ [1, 0]
    ++ [0xFF, 0xDA, 0x00, 0x08, 1, 1, 0x00, 0, 63, 0, 0x20, 0xBF, 0xFF, 0xD9]

theorem test_jpeg : (match decodeJpeg smallJpeg with
    | .ok d => d.codes.take 8
    | .error _ => []) = [137, 137, 137, 136, 136, 135, 135, 135] := by decide +kernel

/-! ### Images, programs, counters -/

/-- One stage of one pier, without a deck. -/
def smallDecls : Decls := { noDecls with stages := [⟨[2], [], false⟩] }

/-- The header and the section table of an image of 4,096 bytes with the three sections every image has, empty (R101, R103). -/
def smallHeader : List Byte :=
  leBytes 4 0x4D49585A ++ leBytes 2 1 ++ leBytes 2 3 ++ leBytes 8 4096 ++ List.replicate 48 0

def smallTable : List Byte :=
  ([1, 2, 8].flatMap fun t => leBytes 2 t ++ leBytes 2 0 ++ leBytes 4 0xFFFFFFFF ++ leBytes 8 4096 ++ leBytes 8 0 ++ leBytes 8 0)
    ++ List.replicate 3808 0

/-- SHA-256 of the header and the table, worked out with another implementation of FIPS 180-4. -/
def smallDigest : List Byte :=
  [0xF0, 0xE6, 0xB5, 0x41, 0x34, 0x1D, 0xDA, 0x8B, 0x82, 0x6E, 0xB0, 0x60, 0xDE, 0x74, 0x9B, 0xDA, 0xDF, 0x59, 0x0D, 0x85, 0x22, 0xD9, 0x3E,
    0x70, 0xFE, 0x1F, 0x5C, 0xF1, 0x37, 0x80, 0x12, 0xBB]

/-- The image, with a seal of ZEC version 1.0, one stage, one version and one slot (R101). -/
def smallImage : List Byte :=
  smallHeader ++ (leBytes 4 0x5A454353 ++ leBytes 2 0x0100 ++ leBytes 2 0 ++ leBytes 4 0x00010001 ++ leBytes 2 1 ++ leBytes 1 0 ++ leBytes 1 1
    ++ leBytes 2 1 ++ leBytes 2 1 ++ leBytes 4 0 ++ leBytes 8 0 ++ smallDigest ++ List.replicate 64 0) ++ smallTable

def loadPayload (bytes : Nat) : List Byte := leBytes 8 0 ++ leBytes 8 bytes ++ leBytes 8 grantedAt ++ leBytes 8 0

/-- Context 0 with nothing loaded and IMAGE_LOAD outstanding. -/
def unloaded : Context := { context (image decls) program with image := none, program := none }

def loading (bytes : Nat) : State :=
  { having up (taken 0x0301 [] (loadPayload bytes)) with ctxs := some unloaded :: List.replicate 15 none }

theorem witness_ImagesLoadLaunchAndUnload_load : ∀ n ∈ [64, 4096], ∀ s, s = loading n → ∀ c, c = taken 0x0301 [] (loadPayload n) →
    ready s 1 3 0x0301 = some c ∧ ctxAt s c.context = some unloaded ∧ unloaded.image = none ∧ c.payload.length = 32
      ∧ zeroField c.payload 24 8 = true ∧ field c.payload 16 8 = grantedAt ∧ grantedAt % 4096 = 0 ∧ field c.payload 8 8 = n
      ∧ granted s c.context grantedAt n = true ∧ Memory.Wf s.hbm.mem ∧ s.hbm.uncorrectable = [] ∧ s.hbm.correctable = []
      ∧ s.caisson.run = none := by
  rintro n h _ rfl _ rfl
  revert n
  decide +kernel

theorem witness_ImagesLoadLaunchAndUnload_refused : smallHeader.length = 64
    ∧ loadCheck (loading 64) 0 smallDecls smallHeader = some (stDigestMismatch, 1) := by decide +kernel

theorem smallImage_check1 : smallImage.length = 4096 ∧ loadCheck1 smallImage = true := by decide +kernel

theorem smallImage_rest : loadCheck2 smallImage = true ∧ loadCheck3 smallDecls smallImage = true ∧ loadCheck4 smallDecls smallImage = true
    ∧ loadCheck5 smallDecls smallImage = true ∧ loadCheck6 smallDecls smallImage = true ∧ loadCheck7 smallDecls smallImage = true
    ∧ loadCheck8 smallDecls = true ∧ loadCheck9 (loading 4096) 0 smallDecls = true := by decide +kernel

theorem witness_ImagesLoadLaunchAndUnload_passes : loadCheck (loading 4096) 0 smallDecls smallImage = none := by
  have h := smallImage_rest
  simp [loadCheck, smallImage_check1, h]

/-- Context 0 loaded with an image without window descriptors, with no program. -/
def bare : Image := { image decls with sections := [] }

def loaded (c : Taken) : State :=
  { having up c with ctxs := some { context bare program with program := none } :: List.replicate 15 none }

theorem witness_ImagesLoadLaunchAndUnload_launch : ∀ c, c = taken 0x0302 [] [] → ∀ s, s = loaded c → ∀ x, ctxAt s 0 = some x →
    ready s 1 3 0x0302 = some c ∧ x.image = some bare ∧ programRuns x = false ∧ ∀ v, v = start s 1 3 →
      readSections (hostReader 0 1) bare (bare.sections.filter fun y => y.type = 0x0005) (start s 1 3) = (v, some [])
      ∧ badWindow [] = none ∧ bare.decls.queues.find? (badBond v) = none := by
  rintro _ rfl _ rfl x h
  cases h
  refine ⟨by decide +kernel, by decide +kernel, by decide +kernel, ?_⟩
  rintro _ rfl
  exact ⟨rfl, rfl, by decide +kernel⟩

/-- What LAUNCH reads of an image's window descriptors. -/
def windowsRead (s : State) (im : Image) : State × Option (List (Section × List Byte)) :=
  readSections (hostReader 0 1) im (im.sections.filter fun y => y.type = 0x0005) (start s 1 3)

/-- A remote queue over port 5, which is down. -/
def bondless : Image := { bare with decls := { decls with queues := [{ queue 6 0xFFFE 0 1 0 with link := 9, peer := 4, ports := 32 }] } }

theorem witness_ImagesLoadLaunchAndUnload_refusals : ∀ c, c = taken 0x0302 [] [] → ∀ s, s = loaded c →
    ((windowsRead s (image decls)).2.bind badWindow = some (stBadParam, 0, 0))
    ∧ (windowsRead { s with hbm := { s.hbm with uncorrectable := [0x4100 / 64] } } (image decls)).2 = none
    ∧ (windowsRead s bondless).2 = some [] ∧ (bondless.decls.queues.find? (badBond (windowsRead s bondless).1)).map (·.link) = some 9 := by
  rintro _ rfl _ rfl
  decide +kernel

/-- LAUNCH of a program that has nothing to bind and whose context is not active waits for its slice (R182, R342). -/
theorem test_launch : ∃ t, exec (.launch 1 3) (loaded (taken 0x0302 [] [])) = .next t
    ∧ (progAt t 0).map (·.st) = some .waitingSlice ∧ t.cmds.length = 1 := by
  refine ⟨_, rfl, ?_⟩
  decide +kernel

theorem witness_ImagesLoadLaunchAndUnload_bound : ∀ p, p = { program with st := .binding } → ∀ s, s = { active decls p with
      sched := Sched.fresh } → progAt s 0 = some p ∧ imageAt s 0 = some (image decls) ∧ p.st = .binding
      ∧ p.queues.all (fun x => x.link.all fun L => L.st == .bound) = true ∧ p.assocs.all (·.st == .bound) = true
      ∧ (image decls).policies = [] ∧ s.sched.active ≠ some 0 := by
  rintro _ rfl _ rfl
  decide +kernel

theorem witness_ImagesLoadLaunchAndUnload_unload : ∀ c, c = taken 0x0303 [] [] → ∀ s, s = loaded c → ready s 1 3 0x0303 = some c
    ∧ (ctxAt s 0).any (fun x => !programRuns x && x.image.isSome) = true := by
  rintro _ rfl _ rfl
  decide +kernel

/-- A host token channel to stage 0 of capacity 2. -/
def hostDecls : Decls := { decls with tokens := [⟨7, 2, 0, .host, .stage 0, 0⟩] }

def hostProgram : Program := { program with tokens := [(7, 0)] }

theorem witness_TokensAndQueriesAnswer_token : ∀ c, c = taken 0x0304 [7, 1] [] → ∀ s, s = having (active hostDecls hostProgram) c →
    ready s 1 3 0x0304 = some c ∧ imageAt s 0 = some (image hostDecls) ∧ progAt s 0 = some hostProgram
      ∧ (tokenDecl (image hostDecls) (c.param 0)).any (fun d => d.producer == .host && tokenN d (c.param 1)
        && tokenRoom s c.context d (c.param 1)) = true ∧ hostProgram.st ≠ .faulted := by
  rintro _ rfl _ rfl
  decide +kernel

/-- TOKEN_SIGNAL raises the count by the tokens it sends (R44). -/
theorem test_tokenSignal : ∃ t, exec (.tokenSignal 1 3) (having (active hostDecls hostProgram) (taken 0x0304 [7, 1] [])) = .next t
    ∧ (progAt t 0).map (·.tokens) = some [(7, 1)] ∧ t.cmds = [] := by
  refine ⟨_, rfl, ?_⟩
  decide +kernel

theorem witness_TokensAndQueriesAnswer_span : ∀ c, c = taken 0x0401 [1] [] →
    (∀ s, s = { having up c with ctxs := some unloaded :: List.replicate 15 none } → ready s 1 3 0x0401 = some c
      ∧ ctxAt s 0 = some unloaded ∧ unloaded.image = none)
    ∧ ∀ s, s = having (active stageDecls (stageProgram .full)) c → ready s 1 3 0x0401 = some c
      ∧ (ctxAt s 0).any (fun x => x.image.isSome && (x.program.bind fun p => spanQueueAt p (c.param 0)).isSome) = true
      ∧ (spanReply (start s 1 3) 0 (image stageDecls) (queueWith (queue 0 0xFFFF 0 3 0) .full) 4).2 = some [0x102, 1, 0, 4]
      ∧ (spanReply (start s 1 3) 0 (image stageDecls)
          { queueWith (queue 0 0xFFFF 0 3 0) .full with slots := [{ slot .full with bad := [0] }, slot .free] } 4).2 = none := by
  rintro _ rfl
  refine ⟨?_, ?_⟩ <;> rintro _ rfl <;> decide +kernel

theorem witness_TokensAndQueriesAnswer_stay : ∀ c, c = taken 0x0501 [0] [] → ∀ s, s = having (active stageDecls (stageProgram .full)) c →
    ready s 1 3 0x0501 = some c ∧ (ctxAt s 0).any (fun x => x.program.any fun p => p.stays.length == 1) = true := by
  rintro _ rfl _ rfl
  decide +kernel

/-- Selectors of pier 5's STALL counter and of the draw of the Approach die (R408, R413). -/
def ctrPayload : List Byte := leBytes 4 0x00050000 ++ leBytes 4 0x70300001

theorem witness_CountersAndSamplesRead_read : ∀ c, c = taken 0x0801 [0x1000, 0, 1] ctrPayload → ∀ s, s = having (active decls program) c →
    ready s 1 3 0x0801 = some c ∧ selectors c.payload = [0x00050000, 0x70300001] ∧ c.payload.length % 4 = 0 ∧ c.param64 0 % 32 = 0
      ∧ c.param 2 < 2 ∧ badSelector s c.context (selectors c.payload) = none
      ∧ (counterValue s c.context 0x00050000).2 = false := by
  rintro _ rfl _ rfl
  decide +kernel

theorem witness_CountersAndSamplesRead_select : ∀ k ∈ [0, 511, 0xFFFFFFFF], ∀ c,
    c = taken 0x0802 [k] [0, 1, 2, 3, 4, 5, 6, 7, 8, 9, 10, 17] → ∀ s, s = having (active decls program) c → ready s 1 3 0x0802 = some c
      ∧ (c.payload.map (·.toNat)).length = 12 ∧ (∀ e ∈ c.payload.map (·.toNat), e ≤ 0x11) ∧ (c.param 0 = 0xFFFFFFFF ∨ c.param 0 < 512)
      ∧ (ctxAt s c.context).isSome = true ∧ (ctxAt s c.context).any (fun x => x.selecting.isEmpty) = true ∧ insideInstruction s c.context 511 = false := by
  rintro k h _ rfl _ rfl
  revert k
  decide +kernel

/-- A pier in the middle of a lane program is inside its instruction. -/
theorem witness_CountersAndSamplesRead_inside : ∀ s, s = modPier (active decls program) 7 (fun P => { P with lane := some (0, 0) }) →
    insideInstruction s 0 7 = true ∧ insideInstruction s 0 6 = false := by
  rintro _ rfl
  decide +kernel

/-- A session of 64 KiB at the granted range, period 1,024 (R417). -/
def samplePayload : List Byte := leBytes 8 grantedAt ++ leBytes 4 0x10000 ++ leBytes 4 1024 ++ leBytes 4 1 ++ leBytes 4 0xFFFFFFFF ++ leBytes 8 0

theorem witness_CountersAndSamplesRead_start : ∀ c, c = taken 0x0803 [] samplePayload → ∀ s, s = having (active decls program) c →
    ∀ y, y = sessionOf c.payload → ready s 1 3 0x0803 = some c ∧ (ctxAt s 0).any (fun x => x.image.isSome && x.sampling.isNone) = true
      ∧ sessionOk c.payload = true ∧ meetsImage (image decls) y = false ∧ granted s c.context y.bufAddr y.bufBytes = true
      ∧ Memory.Wf s.hbm.mem ∧ s.hbm.uncorrectable = [] ∧ s.hbm.correctable = [] ∧ s.caisson.run = none := by
  rintro _ rfl _ rfl _ rfl
  decide +kernel

theorem witness_CountersAndSamplesRead_stop : ∀ c, c = taken 0x0804 [] [] → ∀ s, s = modCtx (having (active decls program) c) 0 (fun x =>
      { x with sampling := some (sessionOf samplePayload) }) → ready s 1 3 0x0804 = some c
      ∧ (ctxAt s c.context).map (·.sampling) = some (some (sessionOf samplePayload)) ∧ (sessionOf samplePayload).waiting = []
      ∧ (ctxAt (flushRecords (start s 1 3) c.context) c.context).bind (·.sampling) = some (sessionOf samplePayload) ∧ Memory.Wf s.hbm.mem ∧ s.hbm.uncorrectable = []
      ∧ s.hbm.correctable = [] ∧ s.caisson.run = none := by
  rintro _ rfl _ rfl
  decide +kernel

/-- SAMPLE_STOP writes a record that still waits before it answers (R421). -/
theorem test_sampleStop : ∀ s, s = modCtx (having (active decls program) (taken 0x0804 [] [])) 0 (fun x =>
      { x with sampling := some { sessionOf samplePayload with waiting := [(0, List.replicate 32 7)] } }) →
    ((ctxAt (flushRecords (start s 1 3) 0) 0).bind (·.sampling)).map (fun y => (y.written, y.waiting)) = some (1, [])
      ∧ ((flushRecords (start s 1 3) 0).hbm.mem.read (grantedAt + 64) 2) = [7, 7] := by
  rintro _ rfl
  decide +kernel

/-! ### Contexts, slices, aborts -/

/-- A descriptor with 384 MiB on the first stack of each tile, from `base` MiB (R343). -/
def descriptor (base : Nat) : List Byte :=
  leBytes 4 1000 ++ leBytes 2 5 ++ leBytes 1 1 ++ List.replicate 9 0
    ++ ((List.range 12).flatMap fun k => if k % 3 = 0 then leBytes 4 base ++ leBytes 4 384 else leBytes 8 0) ++ List.replicate 16 0

/-- A context with nothing loaded that has the descriptor's grant. -/
def plain (base : Nat) : Context := freshContext (descriptor base)

def twoContexts : State := { up with ctxs := some (plain 0) :: some (plain 384) :: List.replicate 14 none }

theorem witness_ContextsCreateGrantDestroy_create : ∀ n ∈ [2, 15], ∀ c, c = taken 0x0901 [n] (descriptor 768) → ∀ s, s = having twoContexts c →
    ready s 1 3 0x0901 = some c ∧ s.ctxs.length = 16 ∧ c.param 0 < 16 ∧ ctxAt s (c.param 0) = none ∧ descriptorOk c.payload = true
      ∧ grantMeets s (c.param 0) (grantOf c.payload) = false := by
  rintro n h _ rfl _ rfl
  revert n
  decide +kernel

theorem witness_ContextsCreateGrantDestroy_grant : ∀ c, c = taken 0x0903 [1] (descriptor 400) → ∀ s, s = having twoContexts c →
    ready s 1 3 0x0903 = some c ∧ ctxAt s (c.param 0) = some (plain 384) ∧ (plain 384).image = none ∧ descriptorOk c.payload = true
      ∧ grantMeets s (c.param 0) (grantOf c.payload) = false ∧ Memory.Wf s.hbm.mem ∧ s.hbm.uncorrectable = [] ∧ s.hbm.correctable = []
      ∧ s.caisson.run = none := by
  rintro _ rfl _ rfl
  decide +kernel

theorem witness_ContextsCreateGrantDestroy_destroy : ∀ n ∈ [0, 1], ∀ c, c = taken 0x0902 [n] [] → ∀ s, s = having twoContexts c →
    ready s 1 3 0x0902 = some c ∧ s.ctxs.length = 16 ∧ (ctxAt s (c.param 0)).any (fun x => x.image.isNone) = true
      ∧ commandsOf s (c.param 0) = false ∧ (s.queues.zipIdx.any fun y => decide (4 ≤ y.2) && y.1.enable && y.1.ctx == c.param 0) = false
      ∧ ckptHolder s ≠ some (c.param 0) ∧ s.sched.active ≠ some (c.param 0) ∧ s.sched.current.any (·.slice.ctx = c.param 0) = false
      ∧ (pendingSlices s).any (·.ctx == c.param 0) = false := by
  rintro n h _ rfl _ rfl
  revert n
  decide +kernel

theorem witness_ContextsCreateGrantDestroy_query : ∀ s, s = having twoContexts (taken 0x0906 [1] []) →
    ready s 1 3 0x0906 = some (taken 0x0906 [1] []) ∧ (ctxAt s 1).isSome = true := by
  rintro _ rfl
  decide +kernel

/-- The bytes that leave a grant: 384 MiB to 400 MiB on stack 0 (R345). -/
theorem test_leavingBytes : (leavingBytes (plain 384).grant (grantOf (descriptor 400))).head? = some (0x18000000, 0x1000000) := by
  decide +kernel

def sliceOf (n us seq : Nat) : Slice := { ctx := n, lengthNs := us * 1000, q := 1, seq }

def currentOf (n : Nat) (ending : Bool) : CurrentSlice :=
  { slice := sliceOf n 100 9, start := 0, nominalEnd := 100000, nextReady := none, ending, overrun := 0 }

theorem witness_SlicesTakeTurns_command : ∀ us ∈ [100, 60000000], ∀ c, c = taken 0x0904 [1, us] [] → ∀ v ∈ [(none, none),
      (none, some 1), (some (currentOf 0 false), some 0)], ∀ s, s = { having twoContexts c with
        sched := { Sched.fresh with current := v.1, active := v.2 } } → ready s 1 3 0x0904 = some c ∧ knownSlice s 1 3 = false
      ∧ (ctxAt s (c.param 0)).isSome = true ∧ 100 ≤ c.param 1 ∧ c.param 1 ≤ 60000000 ∧ s.sched.queue.length < 16
      ∧ s.sched.incoming = none ∧ debtOf s 1 < c.param 1 * 1000 ∧ s.sched.current.all (fun x => s.time < x.nominalEnd) = true := by
  rintro us h _ rfl v g _ rfl
  revert us v
  decide +kernel

theorem witness_SlicesTakeTurns_end : ∀ v ∈ [([], false), ([sliceOf 1 100 10], false), ([sliceOf 1 100 10], true), ([sliceOf 0 100 10], false),
      ([sliceOf 0 100 10], true)], ∀ s, s = { twoContexts with
      sched := { Sched.fresh with active := some 0, current := some (currentOf 0 v.2), queue := v.1 } } → running s = true
      ∧ s.sched.incoming = none ∧ s.sched.current = some (currentOf 0 v.2)
      ∧ s.sched.queue.all (fun e => decide (debtOf s e.ctx < e.lengthNs)) = true ∧ atBoundary s = true := by
  rintro v h _ rfl
  revert v
  decide +kernel

theorem witness_SlicesTakeTurns_in : running twoContexts = true ∧ twoContexts.sched.incoming = none ∧ twoContexts.sched.current = none := by
  decide +kernel

/-- After SWITCH_OUT the outgoing slice is still current, with its overrun. -/
theorem witness_SlicesTakeTurns_inAfterOut : ∃ t, exec .switchOut { twoContexts with time := 250000, sched := { Sched.fresh with
      active := some 0, current := some (currentOf 0 true), queue := [sliceOf 1 100 10] } } = .next t
    ∧ running t = true ∧ t.sched.current = some { currentOf 0 true with overrun := 150000 }
    ∧ t.sched.incoming = some (sliceOf 1 100 10, 100000) ∧ debtOf t 0 = 150000 := by
  refine ⟨_, rfl, ?_⟩
  decide +kernel

theorem witness_SlicesTakeTurns_inWithCurrent : ∀ s, s = { twoContexts with
      sched := { Sched.fresh with active := some 0, current := some { currentOf 0 true with overrun := 150000 } } } → running s = true ∧ s.sched.incoming = none
      ∧ s.sched.current = some { currentOf 0 true with overrun := 150000 } := by
  rintro _ rfl
  decide +kernel

/-- The active context's second slice of 100 µs begins where its first ends (R348). -/
theorem test_sliceNominalEnd : ∃ t, exec .sliceNominalEnd { twoContexts with
      sched := { Sched.fresh with active := some 0, current := some (currentOf 0 false), queue := [sliceOf 0 200 10] } } = .next t
    ∧ t.time = 100000 ∧ t.sched.queue = [] ∧ t.sched.current.map (·.nominalEnd) = some 300000 ∧ accountOf t 0 = 100000 := by
  refine ⟨_, rfl, ?_⟩
  decide +kernel

theorem witness_SavedScratchpadsReturn : ∀ P, P = { Pier.fresh 1 with mem := [(0, 5), (0xFFFF, 7)], index := 3 } → ∀ s, s = withPier (active
      decls program) P → Memory.Wf s.hbm.mem ∧ Memory.Wf (pierAt s 1).mem ∧ s.hbm.uncorrectable = [] ∧ s.hbm.correctable = []
    ∧ s.caisson.run = none ∧ faultedIn s 0 = false ∧ (pierAt s 1).badWords = [] ∧ (pierAt s 1).weakWords = []
    ∧ (∀ x ∈ (pierAt s 1).mem, x.1 < scratchOf (image decls).decls 1) ∧ (pierAt s 1).plane0.loadedAt = none
    ∧ (pierAt s 1).plane1.loadedAt = none := by
  rintro _ rfl _ rfl
  decide +kernel

/-- A target of queue 1 and CMD_ABORT, sequence number 3 of queue 1, that names it. -/
def aborting (op tq tseq : Nat) : State :=
  let abort := taken 0x0905 [tq, tseq] []
  { having (active decls program) abort with cmds := [abort, { taken op [1, 100] [] with seq := 4 }] }

theorem witness_AbortsStopCommands : ∀ v ∈ [(0x0201, 1, 3), (0x0201, 0, 9), (0x0201, 1, 4), (0x0601, 1, 4), (0x0201, 1, 7)], ∀ s,
    s = aborting v.1 v.2.1 v.2.2 → ready s 1 3 0x0905 = some (taken 0x0905 [v.2.1, v.2.2] [])
      ∧ (s.aborts.any fun a => a.q == 1 && a.seq == 3) = false ∧ v.2.1 < 64 ∧ (queueAt s v.2.1).held = []
      ∧ findCmd s v.2.1 v.2.2 = (if v.2 = (1, 3) then some (taken 0x0905 [1, 3] []) else if v.2 = (1, 4) then
          some { taken v.1 [1, 100] [] with seq := 4 } else none)
      ∧ launched s v.2.1 v.2.2 = (if v.2 = (1, 7) then some 0 else none) := by
  rintro v h _ rfl
  revert v
  decide +kernel

/-- A target that completed after the abort was taken: its entry stands written, or is held for want of room (R356). -/
def lateAbort (held : List Completion) : State :=
  let abort := { taken 0x0905 [1, 4] [] with late := some 2 }
  { having (active decls program) abort with queues := modAt up.queues 1 (fun Q => { Q with held := held }) }

theorem witness_AbortsStopCommands_late : ∀ h ∈ [false, true], ∀ s, s = lateAbort (if h then
      [{ opcode := 0x0201, status := 0x15, kind := 0, context := 0, last := false, seq := 4, p := [] }] else []) →
    ready s 1 3 0x0905 = some { taken 0x0905 [1, 4] [] with late := some 2 }
      ∧ (s.aborts.any fun a => a.q == 1 && a.seq == 3) = false ∧ (queueAt s 1).held.any (replyHeld s 1 4) = h := by
  rintro h g _ rfl
  revert h
  decide +kernel

/-- A context whose command's completion is held for want of room still has a command outstanding (R333, R346). -/
theorem test_commandsOf : commandsOf { twoContexts with queues := modAt up.queues 1 (fun Q => { Q with held :=
      [{ opcode := 0x0201, status := 0, kind := 0, context := 1, last := false, seq := 4, p := [] }] }) } 1 = true
    ∧ commandsOf twoContexts 1 = false := by decide +kernel

/-- An aborted command completes with ABORTED; the abort's reply, outcome 1, follows it (R355, R356). -/
theorem test_cmdAbort : ∃ t, exec (.cmdAbort 1 3) (aborting 0x0201 1 4) = .next t ∧ t.cmds = [] ∧ t.aborts = [] := by
  refine ⟨_, rfl, ?_⟩
  decide +kernel

theorem test_unabortable : unabortable 0x0601 = true ∧ unabortable 0x0201 = false := by decide +kernel

/-! ### The host interface -/

/-- A state whose queue 1 is as given. -/
def queued (Q : HostQueue) : State := { up with queues := up.queues.set 1 Q }

def someQueue : HostQueue := { HostQueue.fresh with enable := true, stopped := false, cplLo := 0x2000 }

def someReply : Completion := { opcode := 0x0906, status := 0, kind := 0, context := 0, last := false, seq := 5, p := [1, 2, 3, 4] }

theorem witness_CompletionsReachTheRing_room : ∀ h ∈ [0, 15, 16, 0xFFFFFFFF], ∀ s, s = queued { someQueue with chead := h, ctail := h } →
    (s.queues[1]?).any (fun Q => Q.held.isEmpty && cplRoom Q) = true ∧ s.aborts.filter (settles 1 someReply) = [] := by
  rintro h g _ rfl
  revert h
  decide +kernel

theorem witness_CompletionsReachTheRing_full : (∀ s, s = queued { someQueue with chead := 16 } → (s.queues[1]?).map cplRoom = some false)
    ∧ ∀ c, c = taken 0x0906 [] [] → findCmd (having up c) 1 3 = some c
      ∧ ((having up c).aborts.any fun a => a.tq == 1 && a.tseq == 3 && a.outcome == 2) = false := by
  refine ⟨?_, ?_⟩ <;> rintro _ rfl <;> decide +kernel

/-- The seventeenth entry of a ring of 16 stands at its start again and has PHASE 0 (R333). -/
theorem test_post : (post (queued { someQueue with chead := 16, ctail := 16 }) 1 someReply).tether.posted.map (fun w => (w.addr, w.bytes.take 16)) =
    [(0x2000, [0x06, 0x09, 0, 0, 1, 0, 0, 0, 5, 0, 0, 0, 0, 0, 0, 0])] := by decide +kernel

theorem witness_QueuesTakeEntries_doorbell : ∀ v ∈ [0, 14, 15, 16, 0x7FFFFFFF], ∀ s, s = queued someQueue → writesReach s = true ∧ s.pkg.ready = true
    ∧ s.queues[1]? = some someQueue ∧ someQueue.stopped = false ∧ someQueue.target.all (fun d => sub32 v d < 2 ^ 31) = true ∧ sub32 v someQueue.head < 2 ^ 31
    ∧ decide (sub32 v someQueue.head + 1 ≤ 2 ^ (someQueue.ringLog2 + 4)) = decide (v ≤ 15) := by
  rintro v g _ rfl
  revert v
  decide +kernel

/-- A doorbell that is counted: an old one, one at a stopped queue, one at a device that is not ready (R327). -/
theorem witness_QueuesTakeEntries_ignored : writesReach (queued someQueue) = true ∧ 2 ^ 31 ≤ sub32 0x80000000 someQueue.head
    ∧ (∀ Q, Q = { someQueue with stopped := true } → ∀ s, s = queued Q → writesReach s = true ∧ s.queues[1]? = some Q ∧ Q.stopped = true)
    ∧ ∀ s, s = { queued someQueue with pkg := { up.pkg with ready := false } } → writesReach s = true ∧ s.queues[1]? = some someQueue
      ∧ s.pkg.ready = false := by
  refine ⟨by decide +kernel, by decide +kernel, ?_, ?_⟩
  · rintro _ rfl _ rfl
    decide +kernel
  · rintro _ rfl
    decide +kernel

/-- A ring entry of sequence number 7: opcode and parameters (R326). -/
def entry (op : Nat) (p : List Nat) (tail : Nat) : List Byte :=
  leBytes 2 op ++ leBytes 2 0 ++ leBytes 1 1 ++ leBytes 1 0 ++ leBytes 2 0 ++ leBytes 4 7 ++ leBytes 4 0
    ++ padTo (p.flatMap (leBytes 4)) 16 ++ List.replicate 92 0 ++ leBytes 4 tail

def rung (stale : Option Nat) : HostQueue := { someQueue with head := 7, target := some 7, staleFrom := stale }

theorem witness_QueuesTakeEntries_take : ∀ s, s = queued (rung none) → s.queues[1]? = some (rung none) ∧ nextQueue s = some 1
    ∧ entryValid 7 (entry 0x0906 [0] 7) = true ∧ entryValid 7 (entry 0x0906 [0] 6) = false
    ∧ checkEntry s 1 (entry 0x0906 [0] 7) none = .ok { taken 0x0906 [0, 0, 0, 0] [] with seq := 7 }
    ∧ checkEntry s 1 (entry 0x0999 [0] 7) none = .error (stBadOpcode, [])
    ∧ checkEntry s 1 (entry 0x0906 [0, 1] 7) none = .error (stBadParam, []) := by
  rintro _ rfl
  decide +kernel

/-- A removal in progress; and queue 5, which waits behind no other. -/
theorem witness_QueuesTakeEntries_turns : (∀ s, s = { queued (rung none) with pkg := { up.pkg with removing := true } } → s.queues[1]? = some (rung none)
      ∧ nextQueue s = some 1 ∧ s.pkg.removing = true)
    ∧ nextQueue { up with queues := up.queues.set 5 (rung none) } = some 5
    ∧ ∀ s, s = { queued (rung (some 0)) with queues := (queued (rung (some 0))).queues.set 0 (rung none) } → wantsEntry s 1 = true
      ∧ s.queues[1]? = some (rung (some 0)) ∧ s.tether.activity = none
      ∧ ∀ v, v = advanceTo s (nextRead s 0) → ∀ w, w = modQueue (fetchEntry v 1) 1 (fun Q => { Q with staleFrom := none }) → nextQueue w = some 0 := by
  refine ⟨?_, by decide +kernel, ?_⟩
  · rintro _ rfl
    decide +kernel
  · rintro _ rfl
    refine ⟨by decide +kernel, by decide +kernel, by decide +kernel, ?_⟩
    rintro _ rfl _ rfl
    decide +kernel

theorem witness_QueuesTakeEntries_reread : ∀ at_ ∈ [0, 15999, 16000], ∀ s, s = { queued (rung (some 0)) with time := at_ } → wantsEntry s 1 = true
    ∧ s.queues[1]? = some (rung (some 0)) ∧ s.tether.activity = none ∧ decide (16000 ≤ max s.time (nextRead s 0)) = decide (14000 ≤ at_)
    ∧ s.pkg.removing = false
    ∧ ∀ v, v = advanceTo s (nextRead s 0) → ∀ w, w = modQueue (fetchEntry v 1) 1 (fun Q => { Q with staleFrom := none }) → nextQueue w = some 1
      ∧ checkEntry w 1 (entry 0x0906 [0] 7) none = .ok { taken 0x0906 [0, 0, 0, 0] [] with seq := 7 } := by
  rintro n g _ rfl
  refine and_assoc.1 (and_assoc.1 (and_assoc.1 (and_assoc.1 ⟨?_, ?_⟩)))
  · revert n
    decide +kernel
  · rintro _ rfl _ rfl
    revert n
    decide +kernel

/-- An unknown opcode is TACKed and completes at once with BAD_OPCODE (R330, R334). -/
theorem test_entryTake : ∃ t, exec (.entryTake 1 (some (entry 0x0999 [0] 7)) none) (queued (rung none)) = .next t ∧ t.cmds = []
    ∧ t.tether.tackTimers = [{ q := 1, seq := 7, flit := t.tether.txSeq - 2, since := 0 }] ∧ t.tether.posted.map (fun w => w.bytes.take 3) = [[0x99, 0x09, 0x10]] := by
  refine ⟨_, rfl, ?_⟩
  decide +kernel

theorem witness_QueueRegistersAct : (∀ s, s = queued HostQueue.fresh → writesReach s = true ∧ s.queues[1]? = some HostQueue.fresh
      ∧ HostQueue.fresh.enable = false ∧ HostQueue.fresh.held = [] ∧ bit 0x80000C0C 31 = true ∧ bits 0x80000C0C 11 8 = 12
      ∧ bits 0x80000C0C 3 0 = 12 ∧ bit 0 31 = false)
    ∧ (∀ b ∈ [true, false], ∀ Q, Q = { someQueue with stopped := b, held := [someReply], chead := 16, fullSince := some 4 } → ∀ s, s = queued Q →
      writesReach s = true ∧ s.queues[1]? = some Q ∧ Q.enable = true ∧ Q.stopped = b ∧ Q.held = [someReply] ∧ s.aborts = []
      ∧ cplRoom { Q with ctail := 1 } = true ∧ cplRoom Q = false ∧ someReply.kind ≠ 2 ∧ Q.fullSince = some 4 ∧ Q.fullLogged = false) := by
  refine ⟨?_, ?_⟩
  · rintro _ rfl
    decide +kernel
  · rintro b h _ rfl _ rfl
    revert b
    decide +kernel

theorem witness_WindowReadsAndWrites : (∀ v ∈ [32, 0xE0, 33, 0xDF], ∀ s, s = active decls program → writesReach s = true ∧ s.sched.active = some 0
      ∧ (ctxAt s 0).isSome = true ∧ expOk (signed 8 (v % 256)) = decide (v = 32 ∨ v = 0xE0))
    ∧ (∀ s, s = { up with tether := { up.tether with posted := [{ addr := 64, bytes := [1, 2], last := 0, reply := false }] } } →
      writesReach s = true ∧ s.tether.activity = none ∧ s.tether.unsent = 0
      ∧ s.queues[63]? = some HostQueue.fresh ∧ HostQueue.fresh.enable = false)
    ∧ (∀ s, s = { up with tether := { up.tether with activity := some [5] } } → writesReach s = true ∧ s.tether.activity ≠ none)
    ∧ ∀ x ∈ [(TetherState.down, none), (.retrain, some 10)], ∀ s, s = { up with tether := { up.tether with st := x.1, outSince := x.2 } } →
      s.tether.st ≠ .up ∧ linkOut s = x.2.isSome ∧ s.tether.forwarding = true := by
  refine ⟨?_, ?_, ?_, ?_⟩
  · rintro v h _ rfl
    revert v
    decide +kernel
  · rintro _ rfl
    decide +kernel
  · rintro _ rfl
    decide +kernel
  · rintro x h _ rfl
    revert x
    decide +kernel

/-- A write of LOSS_SCALE of −32 while a program runs is pending (R162). -/
theorem test_lossScale : ∃ t, exec (.lossScaleWrite 0xE0) (active decls program) = .next t
    ∧ (ctxAt t 0).map (fun x => (x.ls.exp, x.ls.pend)) = some (LossScale.initial.exp, some (-32)) := by
  refine ⟨_, rfl, ?_⟩
  decide +kernel

/-- A Tether in a state with one flit in its retry buffer. -/
def tethered (st : TetherState) (activity : Option (List Nat)) : State :=
  { up with tether := { up.tether with st, activity, unacked := [(5, 0)], outSince := if st = .up then none else some 10 } }

/-- A flit of zeros, whose CRC is 0, and one with a CRC that is not its own (R318). -/
def goodFlit : TetherFlit := { header := List.replicate 8 0, data := List.replicate 224 0, crc := 0 }
def badFlit : TetherFlit := { goodFlit with crc := 1 }

/-- The check value of the CRC of ECMA-182 with initial value 0 over "123456789". -/
theorem test_crc64 : crc64 [0x31, 0x32, 0x33, 0x34, 0x35, 0x36, 0x37, 0x38, 0x39] = 0x6C40DF5F0B497347 := by decide +kernel

theorem crc64_zeros (n : Nat) : crc64 (List.replicate n 0) = 0 := by
  induction n with
  | zero => rfl
  | succ n ih =>
    have h : (List.range 8).foldl (fun c _ => crc64Shift c) (0 ^^^ ((0 : Byte).toNat * 2 ^ 56)) = 0 := by decide
    rw [List.replicate_succ, crc64, List.foldl_cons, h]
    exact ih

theorem witness_TetherRetries_flits : crc64 (goodFlit.header ++ goodFlit.data) = goodFlit.crc ∧ crc64 (badFlit.header ++ badFlit.data) ≠ badFlit.crc
    ∧ up.pkg.removing = false := by
  have h : crc64 (goodFlit.header ++ goodFlit.data) = 0 := by rw [goodFlit, List.replicate_append_replicate, crc64_zeros]
  exact ⟨h, fun e => absurd (h.symm.trans e) (by decide), rfl⟩

theorem witness_TetherRetries : ∀ x ∈ [none, some [5]], ∀ s, s = tethered .up x → s.tether.st = .up ∧ s.tether.activity = x ∧ s.tether.waiting = []
    ∧ (x = some [5] → ([5].all fun n => sub32 5 n < 2 ^ 31) = true)
    ∧ s.tether.unacked ≠ [] ∧ s.tether.unacked.all (·.2 < 7) = true := by
  rintro x h _ rfl
  revert x
  decide +kernel

theorem witness_TetherRetries_last : ∀ s, s = { up with tether := { (tethered .up none).tether with
      unacked := [(5, 7), (6, 0)], tackTimers := [{ q := 1, seq := 7, flit := 5, since := 3 }] } } →
    s.tether.st = .up ∧ s.tether.unacked ≠ [] ∧ s.tether.activity = none ∧ s.tether.unacked.any (7 ≤ ·.2) = true ∧ running s = true
    ∧ s.tether.tackTimers.find? (fun x => x.q == 1 && x.seq == 7) = some { q := 1, seq := 7, flit := 5, since := 3 } := by
  rintro _ rfl
  decide +kernel

theorem witness_TetherReturnsOrIsLost : ∀ st ∈ [TetherState.retrain, .down], ∀ n ∈ [10, 2000010], ∀ s, s = { tethered st none with time := n } →
    s.tether.outSince = some 10 ∧ s.time ≤ 10 + 2000000 ∧ s.tether.activity = none ∧ s.tether.waiting = [] ∧ s.tether.st = st ∧ running s = true
      ∧ s.pkg.cable = true := by
  rintro st h n g _ rfl
  revert st n
  decide +kernel

/-- During a removal: an entry is held for want of room, its write is unacknowledged, or nothing is left to wait for. -/
def removal (held : List Completion) (posted : List Posted) : State :=
  { queued { someQueue with held } with pkg := { up.pkg with removing := true }, tether := { up.tether with posted } }

theorem witness_TetherReturnsOrIsLost_remove : (running up = true ∧ up.pkg.cable = true ∧ up.pkg.removing = false)
    ∧ ∀ v ∈ [([someReply], []), ([], [{ addr := 0, bytes := [1], last := 0, reply := true }]), ([], [])], ∀ s, s = removal v.1 v.2 →
      s.pkg.removing = true ∧ s.queues.any (!·.held.isEmpty) = !v.1.isEmpty ∧ (v.1 = [] → s.queues.all (·.held.isEmpty) = true)
      ∧ s.tether.posted.any (·.reply) = !v.2.isEmpty := by
  refine ⟨by decide +kernel, ?_⟩
  rintro v h _ rfl
  revert v
  decide +kernel

/-- REMOVE of an idle package takes it out of service at once (R436). -/
theorem test_remove : ∃ t, exec .remove up = .next t ∧ t.pkg.oos = true ∧ t.pkg.removeAlert = true ∧ t.tether.st = .down := by
  refine ⟨_, rfl, ?_⟩
  decide +kernel

/-- An acknowledgement of the flit held ends retry activity (R339). -/
theorem test_tetherFlit : ∃ t, exec (.tetherFlitReceive 0 5 goodFlit) (tethered .up (some [5])) = .next t ∧ t.tether.activity = none
    ∧ t.tether.unacked = [] ∧ t.tether.rxSeq = 1 := by
  have h : flitIntact goodFlit = true := by simp only [flitIntact, witness_TetherRetries_flits.1, beq_self_eq_true]
  show ∃ t, execTetherFlitReceive 0 5 goodFlit _ = .next t ∧ _
  rw [execTetherFlitReceive, h]
  exact ⟨_, rfl, by decide +kernel⟩

/-! ### Firmware, identity, error log, management -/

/-- An update package for module 0x0001 with a body of one byte, 0x5A; its digest, worked out with another implementation of SHA-256, may be
spoilt (R389). -/
def package (magic revision : Nat) (digest : List Byte) : List Byte :=
  leBytes 4 magic ++ leBytes 2 1 ++ leBytes 2 1 ++ leBytes 4 revision ++ leBytes 4 9 ++ leBytes 4 1 ++ List.replicate 12 0 ++ digest
    ++ [0x5A] ++ List.replicate 5396 0

def bodyDigestOf5A : List Byte :=
  [0xBB, 0xEE, 0xBD, 0x87, 0x9E, 0x1D, 0xFF, 0x69, 0x18, 0x54, 0x6D, 0xC0, 0xC1, 0x79, 0xFD, 0xDE, 0x50, 0x5F, 0x2A, 0x21, 0x59, 0x1C, 0x9A,
    0x9C, 0x96, 0xE3, 0x6B, 0x05, 0x4E, 0xC5, 0xAF, 0x83]

/-- A journal with one committed record of a body in block 0, laid out by hand (R381, R382). -/
def journalOf (b : JournalBody) : List JournalRecord :=
  let r := JournalRecord.make 1 0 b [⟨0, 0, b.pages⟩]
  [r, .make 2 0 (.commit 1 1 (bodiesDigest [r] 0 1 2)) [⟨0, b.pages, 1⟩]]

/-- A package that is up with a journal of its own. -/
def storing (j : List JournalRecord) : State := { up with toll := { up.toll with journal := j } }

/-- Module 0x0001 as delivered but for its revision. -/
def olderModule : FwModule := { id := 1, revision := 3, security := 9, header := [], body := [0x5A], signature := [] }

def badDigest : List Byte := List.replicate 32 7

theorem witness_FirmwareUpdateCommitsAndSwaps_command : ∀ c, c = taken 0x0104 [0, 0, 5461] [] → ∀ s, s = having up c → ready s 1 3 0x0104 = some c
    ∧ s.toll.fw = none ∧ c.param 0 % 32 = 0 ∧ c.param 2 = 5461 := by
  rintro _ rfl _ rfl
  decide +kernel

theorem witness_FirmwareUpdateCommitsAndSwaps_package : ∀ v ∈ [(0x4B505746, 5, bodyDigestOf5A), (0x4B505746, 0, bodyDigestOf5A),
      (0x4B505746, 5, badDigest), (0, 5, badDigest)], ∀ d, d = package v.1 v.2.1 v.2.2 → ∀ b, b = padTo (d.take 5461) 5461 →
    packageOk b = decide (v.1 ≠ 0) ∧ newer (storing (journalOf (.module olderModule))).toll (packageModule b) = decide (v.2.1 = 5)
      ∧ noRoom (storing []).toll (packageModule b) = false ∧ newer (storing []).toll (packageModule b) = true
      ∧ (sha256 (packageModule b).body = slice (packageModule b).header 0x20 32) = (v.2.2 = bodyDigestOf5A) := by
  rintro v h d e b g
  simp only [List.mem_cons, List.not_mem_nil, or_false] at h
  rcases h with rfl | rfl | rfl | rfl <;> subst e g <;> simp only [eq_iff_iff] <;> decide +kernel

/-- The change is committed, and its module is live. -/
theorem test_commit : (commitRecords (storing []).toll 1 [.module olderModule]).journal.length = (storing []).toll.journal.length + 2
    ∧ liveRevision (journalOf (.module olderModule)) 1 = some olderModule := by decide +kernel

def update (cmd : Option (Nat × Nat)) : FwRun :=
  { cmd, module := { id := 1, revision := 5, security := 9, header := [], body := [0x5A], signature := [] }, replaced := 1 }

theorem witness_FirmwareUpdateCommitsAndSwaps_swap : ∀ x ∈ [none, some (1, 3)], ∀ s, s = { up with toll := { up.toll with
      fw := some (update x) } } → powered s = true ∧ s.toll.fw = some (update x) ∧ atSwapPoint s 1 = true := by
  rintro x h _ rfl
  revert x
  decide +kernel

theorem witness_FirmwareUpdateCommitsAndSwaps_recovery : powered up = true ∧ 4000 < (List.replicate 4001 (0 : Byte)).length ∧ Memory.Wf up.toll.staged ∧ up.toll.fw = none := by
  decide +kernel

/-- A staged package of 4 bytes is read back and refused with BAD_PARAM, the staged bytes kept (R389, R405). -/
theorem test_recovery : ∃ t, exec (.recoveryWrite 0 [1, 2, 3, 4]) up = .next t ∧ ∃ u, exec .recoveryCommit t = .next u
    ∧ u.toll.response = [[0x7F, 0x00, 0x05, 0x6E, 0x56, 0x11]] ∧ u.toll.staged.read 0 4 = [1, 2, 3, 4] := by
  refine ⟨_, rfl, _, rfl, ?_⟩
  decide +kernel

/-- A journal of one record of 80,000 pages from block 0 on, a block that fails when it is used. -/
def longJournal : State :=
  { up with toll := { up.toll with journal := [.make 1 0 (.retire 5) [⟨0, 0, 80000⟩]], failing := [0] } }

theorem witness_CompactionKeepsWhatCounts : powered longJournal = true ∧ overFull longJournal.toll 0 = true ∧ overFull (storing []).toll 0 = false
    ∧ (sealEpoch longJournal.toll.journal (epochOf longJournal.toll + 1) (copyEpoch longJournal.toll)).journal.length
        = (kept longJournal.toll.journal).length + 2
    ∧ 0 ∈ longJournal.toll.failing ∧ 0 ∈ usedBlocks longJournal.toll.journal := by
  decide +kernel

/-- With every block retired the new epoch finds no room. -/
theorem witness_CompactionKeepsWhatCounts_noRoom : ∀ t, t = { longJournal.toll with retired := List.range 2048 } → overFull t 0 = true
    ∧ (sealEpoch t.journal (epochOf t + 1) (copyEpoch t)).journal.length ≠ (kept t.journal).length + 2 := by
  rintro t ht
  have hr : ∀ b < 2048, b ∈ t.retired := by
    intro b hb
    simp only [ht, List.mem_range]
    exact hb
  refine ⟨by subst ht; decide +kernel, ?_⟩
  rw [sealEpoch_full _ hr]
  simp

/-- R380: a block that fails is retired, with a RETIRE record and cause 0x0053; 2,047 blocks stay usable. -/
theorem test_retire_block : ∀ t, t = commitRecords { (storing []).toll with failing := [0] } 2 [.indexReserve 64] →
    t.retired = [0] ∧ t.toRetire = [0] ∧ t.failing = [] ∧ t.journal.map (·.start) = [1, 1] := by
  rintro _ rfl; decide +kernel

theorem test_retire_log : ∀ s, s = retireBlocks { storing [] with toll := { (storing []).toll with retired := [7], toRetire := [7] } } →
    s.toll.toRetire = [] ∧ s.toll.log.map (fun e => (e.cause, e.detail)) = [(0x0053, [7, 2047])]
      ∧ s.toll.journal.any (fun r => r.body == .retire 7) = true := by
  rintro _ rfl; decide +kernel

/-- A record whose digest is wrong hides it and what follows in its block (R381). -/
theorem test_scan : (scan ({ JournalRecord.make 1 0 .compactBegin [⟨3, 0, 1⟩] with digest := [] } :: (journalOf (.retire 9)).map fun r =>
      { r with extents := [⟨3, 1, 1⟩] })).length = 0 ∧ (inEffect (journalOf (.retire 9))).map (·.body) = [.retire 9] := by decide +kernel

theorem witness_IdentityQuotesAndLog_sign : ∀ q ∈ [0, 64, 1048575], ∀ s, s = { storing (journalOf (.indexReserve 1048576)) with
      toll := { (storing (journalOf (.indexReserve 1048576))).toll with q } } → signWaits s = false
    ∧ ∃ v x, signDigest s (List.replicate 32 0) = (v, some x) := by
  rintro q h s rfl
  refine ⟨by revert q; decide +kernel, ?_⟩
  have : (signDigest { storing (journalOf (.indexReserve 1048576)) with
      toll := { (storing (journalOf (.indexReserve 1048576))).toll with q } } (List.replicate 32 0)).2.isSome = true := by
    revert q
    decide +kernel
  obtain ⟨x, hx⟩ := Option.isSome_iff_exists.1 this
  exact ⟨_, x, Prod.ext rfl hx⟩

theorem witness_IdentityQuotesAndLog_commands : (∀ q ∈ [897, 1023], ∀ s, s = { up with toll := { up.toll with q } } → powered s = true
      ∧ 1024 - s.toll.q % 1024 < 128)
    ∧ (∀ c, c = taken 0x0101 [64, 0] [] → ready (having up c) 1 3 0x0101 = some c ∧ c.param64 0 % 64 = 0)
    ∧ (∀ q ∈ [0, 1048576], ∀ c, c = taken 0x0105 [64, 0, 16384] (List.replicate 32 1) → ∀ s, s = { having up c with toll := { up.toll with q } } →
      ready s 1 3 0x0105 = some c ∧ c.payload.length = 32 ∧ c.param64 0 % 64 = 0 ∧ 16384 ≤ c.param 2 ∧ (keyCapacity ≤ s.toll.q) = (q ≠ 0))
    ∧ ∀ c, c = taken 0x0102 [64, 0, 1, 0xFFFFFFFF] [] → ready (having up c) 1 3 0x0102 = some c := by
  refine ⟨?_, ?_, ?_, ?_⟩
  · rintro q h _ rfl
    revert q
    decide +kernel
  · rintro _ rfl
    decide +kernel
  · rintro q h _ rfl _ rfl
    simp only [List.mem_cons, List.not_mem_nil, or_false] at h
    rcases h with rfl | rfl <;> simp only [eq_iff_iff] <;> decide +kernel
  · rintro _ rfl
    decide +kernel

theorem signs {s : State} {d : List Byte} (h : (signDigest s d).2.isSome = true) : ∃ v i sig, signDigest s d = (v, some (i, sig)) := by
  obtain ⟨x, hx⟩ := Option.isSome_iff_exists.1 h
  exact ⟨_, x.1, x.2, Prod.ext rfl hx⟩

theorem witness_IdentityQuotesAndLog_quote : ∀ c, c = taken 0x0105 [64, 0, 16384] (List.replicate 32 1) → ∀ s,
      s = having (storing (journalOf (.indexReserve 1048576))) c → ready s 1 3 0x0105 = some c ∧ signWaits (start s 1 3) = false
    ∧ ∃ v i sig, signDigest (start s 1 3) (sha256 (quoteBody s c.payload)) = (v, some (i, sig)) := by
  rintro _ rfl _ rfl
  exact ⟨by decide +kernel, by decide +kernel, signs (by decide +kernel)⟩

/-- A quote whose signature waits for room. -/
theorem witness_IdentityQuotesAndLog_waits : ∀ c, c = taken 0x0105 [64, 0, 16384] (List.replicate 32 1) → ∀ s, s = having (fullStore up) c →
    ready s 1 3 0x0105 = some c ∧ signWaits (start s 1 3) = true := by
  rintro _ rfl _ rfl
  exact ⟨by decide +kernel, signWaits_full (s := start (having up _) 1 3) rfl rfl rfl⟩

/-- The two entries of a log of one cause, and what a read of one leaves unread (R403). -/
def logged : State := logError (logError up 0x0045 0 sevFatal srcPackage 0xFF 0xFF []) 0x0051 0 sevInfo srcPackage 0xFF 0xFF []

theorem test_errlog : (readEntries logged.toll 0xFFFFFFFF 1).map (·.cause) = [0x0045]
    ∧ (markRead logged.toll (readEntries logged.toll 0xFFFFFFFF 1)).log.map (·.read) = [true, false]
    ∧ readReply logged.toll 0xFFFFFFFF (readEntries logged.toll 0xFFFFFFFF 1) = [1, 2, 0] := by decide +kernel

/-- A power table with one budget for the Pier dies and 110 W for each Pylon die, in quarter watts (R399). -/
def tablePayload (pier : Nat) : List Byte :=
  ((List.replicate 4 pier ++ List.replicate 4 440).flatMap (leBytes 2)) ++ List.replicate 16 0

theorem witness_ManagementMessagesAnswered : ∀ s, s = { up with toll := { up.toll with modules := [.factory 1] } } → powered s = true
    ∧ s.toll.i3cAddr = none ∧ firmwareUp s = true ∧ powerTableOk s.pkg.orderB (tablePayload 2880) = true := by
  rintro _ rfl
  decide +kernel

/-- Entry 0 of the descriptors spells the magic number and the Approach die (R365). -/
theorem test_identity : (identity up 0).take 7 = [0x4A, 0x49, 0x4E, 0x54, 1, BitVec.ofNat 8 srcApproach, 1] ∧ (identity up 20).length = 64 := by
  decide +kernel

/-! ### Power, resets, boot -/

theorem witness_PowerTablesAndBudgets_load : ∀ v ∈ [(3000, true), (3001, false), (5000, false)], ∀ c, c = taken 0x0103 [] (tablePayload v.1) →
    ∀ s, s = having up c → ready s 1 3 0x0103 = some c ∧ powerTableOk s.pkg.orderB c.payload = v.2
      ∧ (v.1 = 5000 → envelope s.pkg.orderB < (powerTableOf c.payload).sum + reservedPower)
      ∧ (v.1 = 3001 → ceilingOf s.pkg.orderB 0x10 < (powerTableOf c.payload).getD (tableIndex 0x10) 0) := by
  rintro v h _ rfl _ rfl
  revert v
  decide +kernel

theorem witness_PowerTablesAndBudgets_send : powered up = true ∧ up.dies.map (·.code) = dieCodes
    ∧ (∀ d ∈ up.dies, d.released = true ∧ d.awaiting = false ∧ d.sendSeq < 65536) := by decide +kernel

/-- The message that sets a die's budget. -/
def message (code seq budget : Nat) : List Byte :=
  sealed (leBytes 1 0x21 ++ leBytes 1 code ++ leBytes 2 seq ++ leBytes 2 budget ++ leBytes 2 (floorOf code) ++ leBytes 6 0)

/-- The block with one Pier die above its floor. -/
def raised : State := modDie up 0x10 fun d => { d with atFloor := false, budget := 2000, misses := 1 }

theorem witness_PowerTablesAndBudgets_message : (∀ v ∈ [(1440, true), (3000, true), (1439, false), (3001, false)],
      messageOk false (dieAt raised 0x10) (message 0x10 0 v.1) = v.2)
    ∧ raised.dies.map (·.code) = dieCodes ∧ isPier 0x10 = true
    ∧ 0x10 ∈ dieCodes ∧ (dieAt raised 0x10).released = true ∧ (dieAt raised 0x10).atFloor = false ∧ (dieAt raised 0x10).sensorFloor = false
    ∧ (dieAt raised 0x10).misses = 1 ∧ (dieAt up 0x10).misses = 0 := by decide +kernel

/-- CRC-16 of "123456789" with polynomial 0x1021 and initial value 0xFFFF is 0x29B1, its published check value (R375). -/
theorem test_crc16 : crc16 [0x31, 0x32, 0x33, 0x34, 0x35, 0x36, 0x37, 0x38, 0x39] = 0x29B1 := by decide +kernel

/-- The report of that message. -/
def reportBytes (flags : Nat) : List Byte :=
  sealed (leBytes 1 0x22 ++ leBytes 1 0x10 ++ leBytes 2 0 ++ leBytes 2 1800 ++ leBytes 2 700 ++ leBytes 2 100 ++ leBytes 1 flags ++ leBytes 3 0)

theorem witness_PowerTablesAndBudgets_report : checkOk (reportBytes 0) = true ∧ field (reportBytes 0) 0 1 = 0x22 ∧ field (reportBytes 0) 1 1 = 0x10
    ∧ (dieAt up 0x10).released = true ∧ bit (field (reportBytes 0) 10 1) 1 = false ∧ checkOk (List.replicate 16 0) = false := by decide +kernel

/-- A report of a draw over the budget, of a released die of the table. -/
theorem witness_PowerTablesAndBudgets_over : checkOk (reportBytes 2) = true ∧ field (reportBytes 2) 0 1 = 0x22 ∧ field (reportBytes 2) 1 1 = 0x10
    ∧ 0x10 ∈ dieCodes ∧ (dieAt up 0x10).released = true ∧ bit (field (reportBytes 2) 10 1) 1 = true := by decide +kernel

/-- A die at its floor, by misses or failed sensors, and one that draws more than the floor at every step. -/
def floored (sensor : Bool) : State :=
  modDie up 0x10 fun d => { d with atFloor := true, floorEntered := true, sensorFloor := sensor, misses := 2, floorSince := 5, draws := [1441] }

theorem witness_PowerTablesAndBudgets_floored : ∀ b ∈ [true, false], ∀ s, s = floored b → s.dies.map (·.code) = dieCodes ∧ 0x10 ∈ dieCodes
    ∧ (dieAt s 0x10).released = true ∧ messageOk s.pkg.orderB (dieAt s 0x10) (message 0x10 0 2000) = true ∧ (dieAt s 0x10).atFloor = true
    ∧ (dieAt s 0x10).floorEntered = true ∧ (dieAt s 0x10).sensorFloor = b ∧ 1 ≤ (dieAt s 0x10).misses ∧ isPier 0x10 = true
    ∧ floorOf 0x10 < (dieAt s 0x10).draws.headD 0 := by
  rintro b h _ rfl
  revert b
  decide +kernel

/-- R377: the end of a time at the floor is logged with its length; R29: so is a draw above the floor at 620 mV. -/
theorem test_floorLog : (∃ t, exec (.budgetMessage 0x10 (message 0x10 0 2000) []) { floored false with time := 9005 } = .next t
      ∧ t.toll.log.map (fun e => (e.cause, e.detail)) = [(0x0040, [0x10, 9])] ∧ (dieAt t 0x10).floorEntered = false)
    ∧ ∃ t, exec (.budgetMiss 0x10) (floored false) = .next t ∧ t.toll.log.map (fun e => (e.cause, e.detail)) = [(0x0041, [0x10, 1441])] := by
  refine ⟨⟨_, rfl, ?_⟩, _, rfl, ?_⟩ <;> decide +kernel

/-- The block with one reading of a sensor, and the sources in alert. -/
def sensed (alerting : List Nat) : State := { up with toll := { up.toll with alerting } }

theorem witness_SensorsDriveThermalControl : ∀ x, x = Sensor.pierJunction 0 5 → ∀ a ∈ [[], [0x10]], ∀ s, s = sensed a → powered s = true
    ∧ hasFailed s x = false ∧ thermalSource x = some 0x10 ∧ thermalSource (.coreVoltage 0) = none
    ∧ (∀ v ∈ [174, 175, 179, 180, 209, 210, 300], sourceTemp { s with toll := { s.toll with sensors := putReading s.toll.sensors x v } } 0x10 = some v)
    ∧ s.hbm.footings.length = 12 ∧ s.dies.map (·.code) = dieCodes ∧ (dieAt s 0x10).sensorFloor = false := by
  rintro _ rfl a h _ rfl
  revert a
  decide +kernel

theorem witness_SensorsDriveThermalControl_stack : ∀ v ∈ [169, 170, 189, 190], ∃ t, exec (.sensorRead (.stack 11) v) up = .next t
    ∧ (sourceTemp { up with toll := { up.toll with sensors := putReading up.toll.sensors (.stack 11) v } } (0x40 + 11)) = some v
    ∧ t.pkg.trip = decide (v = 190) ∧ (stackAt t 11).hotRefresh = decide (170 < v) := by
  intro v h
  refine ⟨_, rfl, ?_⟩
  revert v
  decide +kernel

/-- A junction at 89.5 °C raises nothing, at 90 °C the alert, which stays at 87.5 °C and goes at 87 °C (R31). -/
theorem test_alert : ∀ v ∈ [(179, false, false), (180, false, true), (175, true, true), (174, true, false)], ∃ t,
    exec (.sensorRead (.pierJunction 0 5) v.1) (sensed (if v.2.1 then [0x10] else [])) = .next t ∧ decide (t.toll.alerting = [0x10]) = v.2.2 := by
  intro v h
  refine ⟨_, rfl, ?_⟩
  revert v
  decide +kernel

theorem witness_ResetsKeepWhatSurvives : up.pkg.pwrOk = true ∧ powered up = true
    ∧ ({ up with pkg := { up.pkg with pwrOk := false } } : State).pkg.pwrOk = false
    ∧ ({ up with pkg := { up.pkg with cable := false } } : State).pkg.cable = false := by decide +kernel

/-- A die that is held at its floor when a warm reset comes. -/
theorem witness_ResetsKeepWhatSurvives_floor : (floored false).pkg.pwrOk = true ∧ powered (floored false) = true
    ∧ (∃ d ∈ (floored false).dies, d.floorEntered = true) ∧ ∀ d ∈ up.dies, d.floorEntered = false := by decide +kernel

/-- The reads of a walk, and the descriptor of the die that belongs at each, with a number of its own (R365, R368). -/
def walkReads : List WalkRead :=
  (.approach :: (List.range 80).map .overModule) ++ (List.range 4).map .pier ++ (List.range 12).map .footing

def answer (x : WalkRead) : List Byte :=
  let d := descriptorDie (expectedAt x)
  leBytes 4 0x544E494A ++ leBytes 1 1 ++ leBytes 1 d.1 ++ leBytes 2 1 ++ leBytes 2 1 ++ leBytes 2 1 ++ leBytes 4 (capsOf d.1)
    ++ leBytes 8 (expectedAt x + 1) ++ leBytes 1 d.2 ++ List.replicate 39 0

/-- What a boot that finds nothing amiss reports. -/
def goodBoot : BootReport :=
  { silentRegulators := [], descriptors := walkReads.map fun x => (x, answer x), lesserOffers := [], narrowModules := [], untrainedChannels := []
    uncalibrated := [], retries := [] }

/-- Every module as delivered, in one committed change (R382). -/
def delivered : List JournalRecord :=
  let l := layOut 0 1 0 (moduleIds.map fun i => .module (.factory i))
  l ++ layOut 0 17 32 [.commit 1 1 (bodiesDigest l 0 1 17)]

def atReset : State := { State.reset with toll := { State.reset.toll with journal := delivered } }

/-- A retry of a step, at whose end both ends of module 5 are whole, or one does not answer. -/
def retryAt (step : Nat) (far : Bool) : BootRetry :=
  { step, module := 5, near := some ⟨16, 32⟩, far := if far then some ⟨16, 32⟩ else none }

theorem witness_BootReachesRunning : ∀ r ∈ [goodBoot, { goodBoot with narrowModules := [3, 79] }, { goodBoot with untrainedChannels := [(11, 31)] },
      { goodBoot with retries := [retryAt 8 true] }], ∀ s, s = atReset → s.pkg.pwrOk = true ∧ s.pkg.phase = .inReset ∧ Memory.Wf s.hbm.mem
      ∧ r.retries.length ≤ 8 ∧ r.silentRegulators = [] ∧ r.uncalibrated = [] ∧ s.pylon = .fresh
      ∧ (s.pkg.holdDies = [] ∧ (∀ M ∈ s.modules, M.holdAttempts = none)) := by
  rintro r h _ rfl
  revert r
  decide +kernel

/-- Both ends report full widths after each of its retries. -/
theorem witness_BootReachesRunning_calm : ∀ x ∈ [retryAt 8 true], ∃ a b, x.near = some a ∧ x.far = some b ∧ fullWidth a = true ∧ fullWidth b = true := by
  simp [retryAt, fullWidth]

theorem witness_BootReachesRunning_walk : ∀ k, k < 10 → (∀ x ∈ readsAt k, walkOk goodBoot atReset x = true)
    ∧ ∀ x ∈ linkReads k, Machine.linkOk goodBoot atReset x = true := by decide +kernel

theorem witness_BootReachesRunning_steps : ∀ k, 10 ≤ k → readsAt k = [] ∧ linkReads k = [] := by
  intro k hk
  constructor
  · simp only [readsAt]
    iterate 4 rw [if_neg (by omega)]
  · simp only [linkReads]
    iterate 3 rw [if_neg (by omega)]

theorem witness_BootReachesRunning_firmware : ∀ i ∈ requiredModules, (bootRevision (dropOthers atReset.toll).journal i).isSome = true := by decide +kernel

/-- A ninth retry; a walk that finds a wrong die over a module, or a link without a required capability; a silent regulator. -/
theorem witness_BootReachesRunning_amiss : (({ goodBoot with retries := List.replicate 8 (retryAt 8 true) ++ [retryAt 8 true] } : BootReport).retries[8]?).map (·.step) = some 8
    ∧ 7 < 8 ∧ .overModule 9 ∈ readsAt 8 ∧ .overModule 9 ∈ linkReads 8
    ∧ walkOk { goodBoot with descriptors := [(.overModule 9, answer (.overModule 25))] } atReset (.overModule 9) = false
    ∧ (∀ r, r = { goodBoot with descriptors := ((.overModule 9, (answer (.overModule 9)).set 12 0) : WalkRead × List Byte) :: goodBoot.descriptors } →
      walkOk r atReset (.overModule 9) = true ∧ Machine.linkOk r atReset (.overModule 9) = false)
    ∧ ({ goodBoot with silentRegulators := [2] } : BootReport).silentRegulators ≠ [] := by
  refine ⟨by decide +kernel, by decide, by decide +kernel, by decide +kernel, by decide +kernel, ?_, by decide⟩
  rintro _ rfl
  decide +kernel

theorem witness_BootReachesRunning_shaped : State.reset.Shaped ∧ atReset.Shaped := by
  refine ⟨⟨?_, ?_⟩, ?_, ?_⟩ <;> decide +kernel

/-- The first boot ends at step 11 with every die released (R370). -/
theorem test_boot : ∃ t, exec (.boot goodBoot) atReset = .next t ∧ running t = true ∧ t.dies.all (·.released) = true := by
  refine ⟨_, rfl, ?_⟩
  decide +kernel

def withModule (x : Module) : State := { up with modules := (List.replicate 80 { Module.fresh with inLink := true }).set 3 x }

/-- Module 3, between the Pylon dies 0x20 and 0x21; a hold holds them. -/
def holdingWith (x : Module) (step : Nat) : State :=
  { withModule x with pkg := { (withModule x).pkg with holdDies := if x.holdAttempts.isSome then [0x20, 0x21] else [], bootStep := step } }

theorem others_idle {x : Module} {j : Nat} (hj : j ≠ 3) {y : Module} (hy : (withModule x).modules[j]? = some y) : y.holdAttempts = none := by
  have hlt : j < 80 := by
    have := (List.getElem?_eq_some_iff.1 hy).1
    simpa [withModule] using this
  rw [withModule, List.getElem?_set] at hy
  simp only [Ne.symm hj, if_false, List.getElem?_replicate, hlt, if_true, Option.some.injEq] at hy
  subst hy
  rfl

theorem witness_ModulesResetAndHold : ∀ v ∈ [(true, false, none), (false, true, none), (false, false, some 0), (false, false, some 2), (true, false, some 1)], ∀ x,
    x = { Module.fresh with inLink := v.1, resetting := v.2.1, holdAttempts := v.2.2 } → ∀ s, s = holdingWith x 11 → running s = true
      ∧ s.modules[3]? = some x ∧ ((moduleDies 3).any (holdsDie s) = (v.2.2).isSome) ∧ s.pkg.oos = false ∧ 7 ≤ s.pkg.bootStep
      ∧ (∀ j, j ≠ 3 → ∀ y, s.modules[j]? = some y → y.holdAttempts = none) := by
  rintro v h _ rfl _ rfl
  refine ⟨?_, ?_, ?_, ?_, ?_, fun j hj y hy => others_idle hj hy⟩ <;> revert v <;> decide +kernel

/-- Two modules of one hold; a channel of a held tile that fails its calibration. -/
theorem witness_ModulesResetAndHold_two : ∀ x, x = { Module.fresh with holdAttempts := some 0 } → ∀ s, s = { holdingWith x 11 with
      modules := (holdingWith x 11).modules.set 4 x } → running s = true ∧ s.modules[3]? = some x ∧ 4 ≠ 3 ∧ s.modules[4]? = some x
    ∧ x.holdAttempts.isSome = true ∧ ∃ c ∈ ([(1, 5)] : List (Nat × Nat)), ∃ d ∈ s.pkg.holdDies, d < 0x30 ∧ tileOfDie d = c.1 := by
  rintro _ rfl _ rfl
  decide +kernel

theorem witness_ModulesResetAndHold_widths : ∀ n ∈ [(⟨16, 32⟩ : TrainedWidth), ⟨8, 32⟩, ⟨16, 16⟩], ∀ f, f = (⟨16, 32⟩ : TrainedWidth) →
    fullWidth n = decide (n.lanes = 16 ∧ n.rate = 32) ∧ (n.rate < 32 ∨ n.lanes ≠ f.lanes ∨ fullWidth n = true) := by
  rintro n h _ rfl
  revert n
  decide +kernel

theorem witness_ModulesResetAndHold_shaped : ∀ x k, (holdingWith x k).Shaped := by
  intro x k
  have h : up.Shaped := by refine ⟨?_, ?_⟩ <;> decide +kernel
  obtain ⟨h1, h2, h3, h4, -, h6⟩ := h
  exact ⟨h1, h2, h3, h4, by simp [holdingWith, withModule], h6⟩

theorem witness_ModulesResetAndHold_program : ∃ p, progAt (active decls program) 0 = some p ∧ p.st ≠ .faulted := ⟨_, rfl, by decide +kernel⟩

/-! ### Faults, formats, steps -/

theorem witness_FaultEndsProgramWithReport : ∀ c, c = context (image stageDecls) (stageProgram .free) → ∀ s, s = active stageDecls (stageProgram
      .free) → ctxAt s 0 = some c ∧ c.program = some (stageProgram .free) ∧ (stageProgram .free).st ≠ .faulted ∧ s.caisson.run = none
    ∧ c.sampling = none ∧ s.cmds = [] ∧ s.apr.feeds = [] ∧ s.aborts = [] ∧ (queueAt s (stageProgram .free).launchQ).held = []
    ∧ cplRoom (queueAt s (stageProgram .free).launchQ) = true ∧ (stageProgram .free).launchQ < s.queues.length := by
  rintro _ rfl _ rfl
  decide +kernel

theorem witness_DescriptorsReadBack : (∀ d, d = { desc with mbId := 2 ^ 32 - 1, segCount := 65535 } → d.mbId < 2 ^ 32 ∧ d.step < 2 ^ 32
      ∧ d.feedTag < 2 ^ 32 ∧ d.tokens < 2 ^ 32 ∧ d.payloadBytes < 2 ^ 32 ∧ d.version < 2 ^ 32 ∧ d.segCount < 65536 ∧ d.origin < 2 ^ 32)
    ∧ (∀ g : Seg, g = { length := 2 ^ 32 - 1, segId := 65535, modality := 255 } → g.length < 2 ^ 32 ∧ g.segId < 65536 ∧ g.modality < 256)
    ∧ ∀ b : List Byte, b = [1, 2, 3, 4, 5, 6, 7, 0] → b.length = 8 ∧ field b 7 1 = 0 := by
  refine ⟨?_, ?_, ?_⟩ <;> rintro _ rfl <;> decide +kernel

theorem witness_StepRunsTheFrontCommand : (∀ s, s = { up with pending := [Instr.getStatus, .stepEnd] } →
      s.pending = .getStatus :: [.stepEnd]) ∧ up.pending = [] ∧ powered up = true ∧ (∀ n, n < 16 → waitingRecords up n = 0)
    ∧ powered { up with pkg := { up.pkg with phase := .unpowered } } = false := by
  refine ⟨?_, by decide +kernel⟩
  rintro _ rfl
  rfl

theorem witness_StepKeepsShapeAndMemories : up.Shaped ∧ up.MemoriesWf := by
  refine ⟨⟨?_, ?_⟩, ?_, ?_, ?_, ?_, ?_⟩ <;> decide +kernel

/-- A store with one epoch: reset's, whatever the nodes of its tree. -/
theorem witness_StepKeepsIndexAndRings_store : OneEpoch (storing (journalOf (.indexReserve 64))).toll ∧ ∃ t, step (storing (journalOf (.indexReserve 64))) = .next t := by
  refine ⟨?_, _, rfl⟩
  unfold OneEpoch
  decide +kernel

theorem witness_StepKeepsIndexAndRings : ∀ s, s = storing (journalOf (.indexReserve 64)) → s.IndexReserved ∧ s.Bounded := by
  rintro _ rfl
  refine ⟨⟨witness_StepKeepsIndexAndRings_store.1, by decide +kernel⟩, ?_⟩
  unfold State.Bounded
  decide +kernel

/-! ### Well-formed commands: each check lets the ends of its range through and refuses what lies beyond -/

theorem wf_piers : ∀ f ∈ [Instr.loadW, .pass, .passRowWriteback, .drain, .drainBind, .vec, .laneProgramRunaway, .accWrite, .copy, .opcodeNotInTable],
    (f 511).wf = true ∧ (f 512).wf = false := by decide +kernel

theorem wf_stages : ∀ f ∈ [Instr.push, .pop, .release, .fork, .join, .admitBatch, .pin, .retire, .gather, .reduceScatter, .allReduce],
    (f 15).wf = true ∧ (f 16).wf = false := by decide +kernel

theorem wf_actors : ∀ f ∈ [Instr.signal, .wait],
    ([.stage 15, .stay 3 4095, .feed 65535 65535, .caisson 65535].all fun a => (f a).wf) = true
      ∧ ([.stage 16, .stay 4 0, .stay 0 4096, .feed 65536 1, .feed 0 65536, .caisson 65536].all fun a => !(f a).wf) = true := by decide +kernel

theorem wf_contexts : ∀ f ∈ [Instr.progressWatchdogExpiry, .bindWindowExpiry, .ctxAccountLoRead], (f 15).wf = true ∧ (f 16).wf = false := by
  decide +kernel

theorem wf_spanFrames : ∀ f ∈ [fun l p n => Instr.spanDesc l p n true 63 [], fun l p n => .spanData l p n true 0 [], fun l p n => .spanCredit l p n 0,
      .spanHeartbeat, fun l p n => .spanAbandon l p n 255, fun l p n => .spanBind l p n (List.replicate 32 0), .spanClose],
    (f 4095 4095 0xFFFFFFFF).wf = true ∧ (f 4096 0 0).wf = false ∧ (f 0 4096 0).wf = false ∧ (f 0 0 0x100000000).wf = false := by decide +kernel

theorem wf_spanFields : ([Instr.spanDesc 0 0 0 true 64 [], .spanDesc 0 0 0 true 0 (List.replicate 8193 0), .spanData 0 0 0 true 0x100000000 [],
      .spanData 0 0 0 true 0 (List.replicate 8193 0), .spanCredit 0 0 0 0x100000000, .spanAbandon 0 0 0 256, .spanBind 0 0 0 [],
      .spanHeartbeatTimer 4096, .spanPeerDeadline 4096].all fun c => !c.wf) = true := by decide +kernel

theorem wf_stayFrames : ∀ f ∈ [fun p t n => Instr.stayData p t n 4095 4095 true 0 [], fun p t n => .stayCredit p t n 0, .stayHeartbeat,
      fun p t n => .stayAbandon p t n 255, fun p t n => .stayBind p t n (List.replicate 32 0), .stayClose,
      fun p t n => .stayTrailer p t n 4095 4095 (List.replicate 16 0)],
    (f 4095 3 0xFFFFFFFF).wf = true ∧ (f 4096 0 0).wf = false ∧ (f 0 4 0).wf = false ∧ (f 0 0 0x100000000).wf = false := by decide +kernel

theorem wf_stayFields : ([Instr.stayData 0 0 0 4096 0 true 0 [], .stayData 0 0 0 0 4096 true 0 [], .stayData 0 0 0 0 0 true 0x100000000 [],
      .stayData 0 0 0 0 0 true 0 (List.replicate 8193 0), .stayCredit 0 0 0 0x100000000, .stayAbandon 0 0 0 256, .stayBind 0 0 0 [],
      .stayTrailer 0 0 0 4096 0 (List.replicate 16 0), .stayTrailer 0 0 0 0 4096 (List.replicate 16 0), .stayTrailer 0 0 0 0 0 [],
      .stayHeartbeatTimer 4096, .stayPeerDeadline 4096].all fun c => !c.wf) = true := by decide +kernel

theorem wf_frames : (Instr.frameForward 63 ⟨List.replicate 8228 0, true⟩).wf = true ∧ (Instr.frameForward 64 ⟨[], true⟩).wf = false
    ∧ (Instr.frameForward 0 ⟨List.replicate 8229 0, true⟩).wf = false := by decide +kernel

theorem wf_ports : ∀ f ∈ [Instr.linkCreditTimer, .portReplayTimeout, fun p => .portGiveUp p true, .portSignalDetect, .equaliseComplete, .alignComplete,
      .configResendTimer, .portTrainingTimeout, fun p => .portBerCheck p 0, fun p => .recalReq ⟨p, 0xFFFFFFFF⟩, .recalReqResendTimer, fun p => .recalAck ⟨p, 0xFFFFFFFF⟩, .recalAckTimeout,
      .recalEnter, fun p => .nak ⟨p, 0⟩ 0xFFFFFFFF, fun p => .linkCredit ⟨p, 0⟩ (List.replicate 8 65535), fun p => .hold ⟨p, 0xFFFFFFFF⟩ 4095 63,
      fun p => .holdEnd ⟨p, 0xFFFFFFFF⟩ 4095 63, fun p => .holdTimeout 0 p, fun p => .config ⟨p, 0xFFFFFFFF⟩ 65535 255 255 65535],
    (f 63).wf = true ∧ (f 64).wf = false := by decide +kernel

theorem wf_portFields : ([Instr.nak ⟨0, 0⟩ 0x100000000, .nak ⟨0, 0x100000000⟩ 0, .linkCredit ⟨0, 0⟩ [0], .linkCredit ⟨0, 0⟩ (List.replicate 8 65536),
      .linkCredit ⟨0, 0x100000000⟩ (List.replicate 8 0), .hold ⟨0, 0⟩ 4096 0, .hold ⟨0, 0⟩ 0 64, .hold ⟨0, 0x100000000⟩ 0 0,
      .holdEnd ⟨0, 0⟩ 4096 0, .holdEnd ⟨0, 0⟩ 0 64, .holdEnd ⟨0, 0x100000000⟩ 0 0, .holdTimeout 4096 0, .recalReq ⟨0, 0x100000000⟩, .recalAck ⟨0, 0x100000000⟩,
      .config ⟨0, 0x100000000⟩ 0 0 0 0, .config ⟨0, 0⟩ 65536 0 0 0, .config ⟨0, 0⟩ 0 256 0 0, .config ⟨0, 0⟩ 0 0 256 0,
      .config ⟨0, 0⟩ 0 0 0 65536].all fun c => !c.wf) = true := by decide +kernel

theorem wf_stacks : ∀ f ∈ [fun k => Instr.scrub k 1610612735, fun k => .stackAutoRecal ⟨k, some 31⟩, .hotRefreshEnd, .ckptGranuleCopy,
      .shardDigest], (f 11).wf = true ∧ (f 12).wf = false ∧ (Instr.scrub 0 1610612736).wf = false ∧ (Instr.stackAutoRecal ⟨0, some 32⟩).wf = false
    ∧ (Instr.stackRecal 0 ⟨0, [(12, 0)]⟩).wf = false ∧ (Instr.stackRecal 0 ⟨0, [(0, 32)]⟩).wf = false := by decide +kernel

/-- Every command that names a queue and a sequence number. -/
def queueCommands : List (Nat → Nat → Instr) :=
  [.portDisable, .portEnable, .portRecalibrate, .pkgIdSet, .routeLoad, .routeCommit, fun q n => .stackRecal q ⟨n, [(11, 31)]⟩, .ckptConfig, .ckptTake, .ckptQuery,
    .ckptRestore, .ckptExport, fun q n => .ckptImport q n none, .ckptDiscard, .aprConfig, fun q n => .aprFeed q n none,
    fun q n => .itemDecode q n 4095 31 none, .patchPack, .feedPush, fun q n => .aprDecode q n none, fun q n => .aprTableLoad q n none, .aprQuery,
    .abutConvFwd, .abutConvBwdData, .abutConvBwdWeight, .abutPool]
  ++ [.devIdentify, .errlogRead, .powerTableLoad, fun q n => .fwUpdate q n none, .attestQuote, fun q n => .memWrite q n none, .memRead, .memFill,
    .memCopy, fun q n => .imageLoad q n none noDecls, .launch, .unload, .tokenSignal, .spanQuery, .stayQuery, .ctrRead, .ctrSelect, .sampleStart,
    .sampleStop, .ctxCreate, .ctxDestroy, .ctxGrant, .ctxSlice, .cmdAbort, .ctxQuery, .tackTimerExpiry]

theorem wf_queueCommands : ∀ f ∈ queueCommands, (f 63 0xFFFFFFFF).wf = true ∧ (f 64 0).wf = false ∧ (f 0 0x100000000).wf = false := by decide +kernel

theorem wf_items : (Instr.itemDecode 0 0 4096 0 none).wf = false ∧ (Instr.itemDecode 0 0 0 32 none).wf = false := by decide +kernel

theorem wf_queueRegisters : ∀ f ∈ [Instr.doorbell, .qarmWrite, .qcfgWrite, .qctailWrite],
    (f 63 0xFFFFFFFF).wf = true ∧ (f 64 0).wf = false ∧ (f 0 0x100000000).wf = false := by decide +kernel

theorem wf_entries : ∀ f ∈ [Instr.entryTake, .entryReread], (f 63 (some (List.replicate 128 0)) none).wf = true ∧ (f 63 none none).wf = true
    ∧ (f 64 none none).wf = false ∧ (f 0 (some []) none).wf = false := by decide +kernel

theorem wf_window : ([Instr.registerWrite 0xFFFC 0xFFFFFFFF, .lossScaleWrite 0xFFFFFFFF, .completionRingFull 63, .tetherFlitReceive 0 0 goodFlit,
      .tetherNak 0].all fun c => c.wf) = true
    ∧ ([Instr.registerWrite 0x10000 0, .registerWrite 2 0, .registerWrite 0 0x100000000, .lossScaleWrite 0x100000000, .completionRingFull 64,
      .tetherFlitReceive 0x100000000 0 goodFlit, .tetherFlitReceive 0 0x100000000 goodFlit, .tetherFlitReceive 0 0 { goodFlit with header := [] },
      .tetherFlitReceive 0 0 { goodFlit with data := [] }, .tetherFlitReceive 0 0 { goodFlit with crc := 0x10000000000000000 }, .tetherNak 0x100000000].all fun c => !c.wf) = true := by
  decide +kernel

theorem wf_package : ([Instr.moduleSwap 65535, .railDip (.core 3) 0, .boot goodBoot, .moduleReset 79, .moduleWidthReport 79 ⟨16, 32⟩ ⟨16, 32⟩,
      .dieHoldAttemptEnd 79 ⟨16, 32⟩ ⟨⟨16, 32⟩, [(3, 63)]⟩, .budgetMessage 0x23 (List.replicate 16 0) (List.replicate 57 65535), .budgetReport (List.replicate 16 0),
      .budgetMiss 0x13, .sensorRead (.stack 11) 0, .sensorFailure (.pierJunction 3 15)].all fun c => c.wf) = true
    ∧ ([Instr.moduleSwap 65536, .railDip (.core 4) 0, .moduleReset 80, .moduleWidthReport 80 ⟨16, 32⟩ ⟨16, 32⟩,
      .dieHoldAttemptEnd 80 ⟨16, 32⟩ ⟨⟨16, 32⟩, []⟩, .dieHoldAttemptEnd 0 ⟨16, 32⟩ ⟨⟨16, 32⟩, [(4, 0)]⟩, .budgetMessage 0x24 (List.replicate 16 0) [], .budgetMessage 0x10 [] [],
      .budgetMessage 0x10 (List.replicate 16 0) [65536], .budgetMessage 0x10 (List.replicate 16 0) (List.replicate 58 0), .budgetReport [], .budgetMiss 0x14, .budgetMiss 0x1F].all fun c => !c.wf) = true := by
  decide +kernel

theorem wf_boot : ([{ goodBoot with silentRegulators := [4] }, { goodBoot with descriptors := [(.overModule 80, [])] },
      { goodBoot with descriptors := [(.pier 4, [])] }, { goodBoot with descriptors := [(.footing 12, [])] },
      { goodBoot with descriptors := [(.approach, [0])] }, { goodBoot with lesserOffers := [80] }, { goodBoot with narrowModules := [80] },
      { goodBoot with untrainedChannels := [(12, 0)] }, { goodBoot with untrainedChannels := [(0, 32)] },
      { goodBoot with uncalibrated := [(4, 0)] }, { goodBoot with uncalibrated := [(0, 64)] }, { goodBoot with retries := [retryAt 2 true] },
      { goodBoot with retries := [retryAt 9 true] }, { goodBoot with retries := [retryAt 8 true, retryAt 3 true] },
      { goodBoot with retries := [{ retryAt 8 true with module := 80 }] }].all fun r => !(Instr.boot r).wf) = true
    ∧ (Instr.boot { goodBoot with retries := [retryAt 3 true, retryAt 8 false] }).wf = true := by decide +kernel

theorem wf_sensors : ∀ f ∈ [fun x => Instr.sensorRead x 0, .sensorFailure], ([.pierJunction 4 0, .pierJunction 0 16, .pylonJunction 4 0,
      .pylonJunction 0 4, .approachJunction 4, .stack 12, .coreVoltage 4, .coreCurrent 4, .rail (.core 4)].all fun x => !(f x).wf) = true := by
  decide +kernel

theorem wf_board : ([Instr.setdasa 127 127, .entdaa 127, .setEndpointId 255, .readErrlog 0 0xFFFFFFFF, .getIdentity 20,
      .powerTable (List.replicate 32 0), .recoveryWrite 0xFFFFFFFF [1]].all fun c => c.wf) = true
    ∧ ([Instr.setdasa 128 0, .setdasa 0 128, .entdaa 128, .setEndpointId 256, .readErrlog 0x100000000 0, .readErrlog 0 0x100000000,
      .getIdentity 21, .powerTable [], .recoveryWrite 0x100000000 []].all fun c => !c.wf) = true := by
  decide +kernel

end Sys2Proof.Tests
end

/-! SUPPORT. One step as a whole: every command of the table completes, and what the soundness of its meaning says (the lemmas
`Sound.exec…` of Laws/Sound*.lean) holds of the step that takes it from the queue. -/

namespace Sys2Proof.Machine

/-- Every meaning of the table answers a next state: none ends in a fault or a refusal. -/
theorem exec_completes (c : Instr) (s : State) : ∃ t, exec c s = .next t := by
  cases c <;> exact ⟨_, rfl⟩

/-- Each arm of the dispatch is sound by the lemma about its meaning. -/
theorem Sound.exec {z s : State} (hz : Sound z s) : ∀ c : Instr, SoundOut z (Machine.exec c s)
  | .loadW pier => hz.execLoadW pier
  | .pass pier => hz.execPass pier
  | .passRowWriteback pier => hz.execPassRowWriteback pier
  | .drain pier => hz.execDrain pier
  | .drainBind pier => hz.execDrainBind pier
  | .vec pier => hz.execVec pier
  | .laneProgramRunaway pier => hz.execLaneProgramRunaway pier
  | .accWrite pier => hz.execAccWrite pier
  | .copy pier => hz.execCopy pier
  | .push stage => hz.execPush stage
  | .pop stage => hz.execPop stage
  | .release stage => hz.execRelease stage
  | .fork stage => hz.execFork stage
  | .join stage => hz.execJoin stage
  | .signal actor => hz.execSignal actor
  | .wait actor => hz.execWait actor
  | .capturePoint => hz.execCapturePoint
  | .admitBatch stage => hz.execAdmitBatch stage
  | .pin stage => hz.execPin stage
  | .retire stage => hz.execRetire stage
  | .gather stage => hz.execGather stage
  | .reduceScatter stage => hz.execReduceScatter stage
  | .allReduce stage => hz.execAllReduce stage
  | .stepEnd => hz.execStepEnd
  | .progressWatchdogExpiry ctx => hz.execProgressWatchdogExpiry ctx
  | .spanDesc link src seq cont slot body => hz.execSpanDesc link src seq cont slot body
  | .spanData link src seq last offset body => hz.execSpanData link src seq last offset body
  | .spanCredit link src seq released => hz.execSpanCredit link src seq released
  | .spanHeartbeat link src seq => hz.execSpanHeartbeat link src seq
  | .spanAbandon link src seq status => hz.execSpanAbandon link src seq status
  | .spanBind link src seq digest => hz.execSpanBind link src seq digest
  | .spanClose link src seq => hz.execSpanClose link src seq
  | .spanHeartbeatTimer link => hz.execSpanHeartbeatTimer link
  | .spanPeerDeadline link => hz.execSpanPeerDeadline link
  | .bindWindowExpiry ctx => hz.execBindWindowExpiry ctx
  | .stayData peer tile seq entry piece last offset body => hz.execStayData peer tile seq entry piece last offset body
  | .stayCredit peer tile seq granted => hz.execStayCredit peer tile seq granted
  | .stayHeartbeat peer tile seq => hz.execStayHeartbeat peer tile seq
  | .stayAbandon peer tile seq status => hz.execStayAbandon peer tile seq status
  | .stayBind peer tile seq digest => hz.execStayBind peer tile seq digest
  | .stayClose peer tile seq => hz.execStayClose peer tile seq
  | .stayTrailer peer tile seq entry piece body => hz.execStayTrailer peer tile seq entry piece body
  | .stayHeartbeatTimer peer => hz.execStayHeartbeatTimer peer
  | .stayPeerDeadline peer => hz.execStayPeerDeadline peer
  | .frameForward port frame => hz.execFrameForward port frame
  | .linkCredit at_ grants => hz.execLinkCredit at_ grants
  | .linkCreditTimer port => hz.execLinkCreditTimer port
  | .nak at_ lseq => hz.execNak at_ lseq
  | .portReplayTimeout port => hz.execPortReplayTimeout port
  | .hold at_ pkg farPort => hz.execHold at_ pkg farPort
  | .holdEnd at_ pkg farPort => hz.execHoldEnd at_ pkg farPort
  | .holdTimeout pkg farPort => hz.execHoldTimeout pkg farPort
  | .portGiveUp port lostLock => hz.execPortGiveUp port lostLock
  | .portSignalDetect port => hz.execPortSignalDetect port
  | .equaliseComplete port => hz.execEqualiseComplete port
  | .alignComplete port => hz.execAlignComplete port
  | .config at_ pkg farPort version retryKib => hz.execConfig at_ pkg farPort version retryKib
  | .configResendTimer port => hz.execConfigResendTimer port
  | .portTrainingTimeout port => hz.execPortTrainingTimeout port
  | .portBerCheck port berE12 => hz.execPortBerCheck port berE12
  | .recalReq at_ => hz.execRecalReq at_
  | .recalReqResendTimer port => hz.execRecalReqResendTimer port
  | .recalAck at_ => hz.execRecalAck at_
  | .recalAckTimeout port => hz.execRecalAckTimeout port
  | .recalEnter port => hz.execRecalEnter port
  | .portDisable q seq => hz.execPortDisable q seq
  | .portEnable q seq => hz.execPortEnable q seq
  | .portRecalibrate q seq => hz.execPortRecalibrate q seq
  | .pkgIdSet q seq => hz.execPkgIdSet q seq
  | .routeLoad q seq => hz.execRouteLoad q seq
  | .routeCommit q seq => hz.execRouteCommit q seq
  | .scrub stack block => hz.execScrub stack block
  | .stackAutoRecal training => hz.execStackAutoRecal training
  | .stackRecal q cmd => hz.execStackRecal q cmd
  | .hotRefreshEnd stack => hz.execHotRefreshEnd stack
  | .ckptGranuleCopy stack => hz.execCkptGranuleCopy stack
  | .shardDigest stack => hz.execShardDigest stack
  | .ckptCommit => hz.execCkptCommit
  | .ckptTimerDue => hz.execCkptTimerDue
  | .ckptConfig q seq => hz.execCkptConfig q seq
  | .ckptTake q seq => hz.execCkptTake q seq
  | .ckptQuery q seq => hz.execCkptQuery q seq
  | .ckptRestore q seq => hz.execCkptRestore q seq
  | .ckptExport q seq => hz.execCkptExport q seq
  | .ckptImport q seq stream => hz.execCkptImport q seq stream
  | .ckptDiscard q seq => hz.execCkptDiscard q seq
  | .aprConfig q seq => hz.execAprConfig q seq
  | .aprFeed q seq items => hz.execAprFeed q seq items
  | .itemDecode q seq item unit data => hz.execItemDecode q seq item unit data
  | .patchPack q seq => hz.execPatchPack q seq
  | .feedPush q seq => hz.execFeedPush q seq
  | .aprDecode q seq data => hz.execAprDecode q seq data
  | .aprTableLoad q seq data => hz.execAprTableLoad q seq data
  | .aprQuery q seq => hz.execAprQuery q seq
  | .abutConvFwd q seq => hz.execAbutConvFwd q seq
  | .abutConvBwdData q seq => hz.execAbutConvBwdData q seq
  | .abutConvBwdWeight q seq => hz.execAbutConvBwdWeight q seq
  | .abutPool q seq => hz.execAbutPool q seq
  | .devIdentify q seq => hz.execDevIdentify q seq
  | .errlogRead q seq => hz.execErrlogRead q seq
  | .powerTableLoad q seq => hz.execPowerTableLoad q seq
  | .fwUpdate q seq package => hz.execFwUpdate q seq package
  | .moduleSwap moduleId => hz.execModuleSwap moduleId
  | .journalCompaction => hz.execJournalCompaction
  | .attestQuote q seq => hz.execAttestQuote q seq
  | .subtreeCompute => hz.execSubtreeCompute
  | .memWrite q seq data => hz.execMemWrite q seq data
  | .memRead q seq => hz.execMemRead q seq
  | .memFill q seq => hz.execMemFill q seq
  | .memCopy q seq => hz.execMemCopy q seq
  | .imageLoad q seq image decls => hz.execImageLoad q seq image decls
  | .launch q seq => hz.execLaunch q seq
  | .unload q seq => hz.execUnload q seq
  | .tokenSignal q seq => hz.execTokenSignal q seq
  | .spanQuery q seq => hz.execSpanQuery q seq
  | .stayQuery q seq => hz.execStayQuery q seq
  | .ctrRead q seq => hz.execCtrRead q seq
  | .ctrSelect q seq => hz.execCtrSelect q seq
  | .sampleStart q seq => hz.execSampleStart q seq
  | .sampleStop q seq => hz.execSampleStop q seq
  | .ctxCreate q seq => hz.execCtxCreate q seq
  | .ctxDestroy q seq => hz.execCtxDestroy q seq
  | .ctxGrant q seq => hz.execCtxGrant q seq
  | .ctxSlice q seq => hz.execCtxSlice q seq
  | .cmdAbort q seq => hz.execCmdAbort q seq
  | .ctxQuery q seq => hz.execCtxQuery q seq
  | .sliceNominalEnd => hz.execSliceNominalEnd
  | .switchOut => hz.execSwitchOut
  | .switchIn => hz.execSwitchIn
  | .doorbell q value => hz.execDoorbell q value
  | .entryTake q entry payload => hz.execEntryTake q entry payload
  | .entryReread q entry payload => hz.execEntryReread q entry payload
  | .qarmWrite q value => hz.execQarmWrite q value
  | .qcfgWrite q value => hz.execQcfgWrite q value
  | .qctailWrite q value => hz.execQctailWrite q value
  | .completionRingFull q => hz.execCompletionRingFull q
  | .lossScaleWrite value => hz.execLossScaleWrite value
  | .flushRbRead => hz.execFlushRbRead
  | .ptimeLoRead => hz.execPtimeLoRead
  | .ctxAccountLoRead ctx => hz.execCtxAccountLoRead ctx
  | .registerWrite offset value => hz.execRegisterWrite offset value
  | .tetherFlitReceive seq ack intact => hz.execTetherFlitReceive seq ack intact
  | .tetherNak seq => hz.execTetherNak seq
  | .tetherReplayTimeout => hz.execTetherReplayTimeout
  | .tetherRetrain => hz.execTetherRetrain
  | .tetherRetrainComplete => hz.execTetherRetrainComplete
  | .linkLost => hz.execLinkLost
  | .tetherCableAbsent => hz.execTetherCableAbsent
  | .adapterResetRequest => hz.execAdapterResetRequest
  | .remove => hz.execRemove
  | .pwrOkRise => hz.execPwrOkRise
  | .pwrOkFall => hz.execPwrOkFall
  | .railDip rail durationNs => hz.execRailDip rail durationNs
  | .refclkLoss durationNs => hz.execRefclkLoss durationNs
  | .pkgResetN durationNs => hz.execPkgResetN durationNs
  | .boot report => hz.execBoot report
  | .moduleReset module => hz.execModuleReset module
  | .moduleWidthReport module near far => hz.execModuleWidthReport module near far
  | .dieHoldAttemptEnd module near far => hz.execDieHoldAttemptEnd module near far
  | .budgetSendTimer => hz.execBudgetSendTimer
  | .budgetMessage die message draws => hz.execBudgetMessage die message draws
  | .budgetReport message => hz.execBudgetReport message
  | .budgetMiss die => hz.execBudgetMiss die
  | .sensorRead sensor reading => hz.execSensorRead sensor reading
  | .sensorFailure sensor => hz.execSensorFailure sensor
  | .setdasa static dynamic => hz.execSetdasa static dynamic
  | .entdaa dynamic => hz.execEntdaa dynamic
  | .setEndpointId eid => hz.execSetEndpointId eid
  | .getEndpointId => hz.execGetEndpointId
  | .getMctpVersionSupport => hz.execGetMctpVersionSupport
  | .getMessageTypeSupport => hz.execGetMessageTypeSupport
  | .getStatus => hz.execGetStatus
  | .getSensors => hz.execGetSensors
  | .readErrlog count first => hz.execReadErrlog count first
  | .getIdentity first => hz.execGetIdentity first
  | .powerTable payload => hz.execPowerTable payload
  | .resetRequest => hz.execResetRequest
  | .recoveryWrite offset data => hz.execRecoveryWrite offset data
  | .recoveryCommit => hz.execRecoveryCommit
  | .tetherCablePresent => hz.execTetherCablePresent
  | .vddHbmRise => hz.execVddHbmRise
  | .tackTimerExpiry q seq => hz.execTackTimerExpiry q seq
  | .opcodeNotInTable pier => hz.execOpcodeNotInTable pier

/-- The state as a step's command finds it: without the command at the front of the queue, where there is one. -/
def State.popped (s : State) : State := { s with pending := s.pending.tail }

theorem step_cons {s : State} {c : Instr} {rest : List Instr} (h : s.pending = c :: rest) : step s = exec c s.popped := by
  simp only [step, State.popped, h, List.tail_cons]

theorem step_nil {s : State} (h : s.pending = []) : step s = .next (idle s) := by
  simp only [step, h]

theorem popped_nil {s : State} (h : s.pending = []) : s.popped = s := by
  cases s
  cases h
  rfl

theorem step_completes (s : State) : ∃ t, step s = .next t := by
  cases h : s.pending with
  | nil => exact ⟨_, step_nil h⟩
  | cons c rest =>
    rw [step_cons h]
    exact exec_completes c _

/-- A step is sound from the state without the command that it takes. -/
theorem step_sound {s t : State} (h : step s = .next t) : Sound s.popped t := by
  cases hp : s.pending with
  | nil =>
    obtain rfl : idle s = t := by simpa [step_nil hp] using h
    rw [popped_nil hp]
    exact (Sound.refl s).idle
  | cons c rest =>
    rw [step_cons hp] at h
    exact (Sound.refl s.popped).exec c t h

/-- Settles O58: a step completes and is sound, and soundness holds the queue's rest, the shape and the memories' form. -/
theorem stepKeepsShapeAndMemories : Obligations.StepKeepsShapeAndMemories := by
  intro s hshaped hmem
  obtain ⟨t, ht⟩ := step_completes s
  obtain ⟨hpending, keepsShape, keepsMemories, -, -⟩ := step_sound ht
  exact ⟨t, ht, hpending, keepsShape hshaped, keepsMemories hmem⟩

end Sys2Proof.Machine

/-! SUPPORT. Host accesses of the window: what decides whether an access reaches the device, waits or is lost (R320 to R322),
and what a register's offset selects (R7, R322, R325, R331). -/

namespace Sys2Proof.Machine

section

variable {s : State}

/-! ### Where an access goes -/

theorem hostWrite_reaches (h : writesReach s = true) (o v : Nat) (f : State → State) : hostWrite s o v f = f s := if_pos h

theorem hostRead_reaches (h : writesReach s = true) (o : Nat) : hostRead s o = readNow s o :=
  if_pos (Bool.and_eq_true_iff.1 h).1

theorem up_eq_false (h : running s = false ∨ s.tether.st ≠ .up) : (running s && s.tether.st == .up) = false := by
  rcases h with h | h <;> simp [h]

theorem writesReach_eq_false (h : running s = false ∨ s.tether.st ≠ .up) : writesReach s = false := by
  simp [writesReach, up_eq_false h]

theorem hostWrite_waits (h : running s = false ∨ s.tether.st ≠ .up) (hl : linkOut s = true) (hf : s.tether.forwarding = true)
    (o v : Nat) (f : State → State) : hostWrite s o v f = holdAccess s (.write o v) := by
  simp [hostWrite, writesReach_eq_false h, hl, hf]

theorem hostWrite_lost (h : running s = false ∨ s.tether.st ≠ .up) (hl : linkOut s = false) (o v : Nat) (f : State → State) :
    hostWrite s o v f = s := by
  simp [hostWrite, writesReach_eq_false h, hl]

theorem hostRead_waits (h : running s = false ∨ s.tether.st ≠ .up) (hl : linkOut s = true) (o : Nat) :
    hostRead s o = holdAccess s (.read o) := by
  simp [hostRead, up_eq_false h, hl]

theorem hostRead_lost (h : running s = false ∨ s.tether.st ≠ .up) (hl : linkOut s = false) (o : Nat) :
    hostRead s o = modTether s fun t => { t with readValue := 0xFFFFFFFF } := by
  simp [hostRead, up_eq_false h, hl]

/-! ### What an offset selects -/

/-- A change of a listed queue depends on what it makes of that queue only. -/
theorem modQueue_const {q : Nat} {Q : HostQueue} (h : s.queues[q]? = some Q) (f : HostQueue → HostQueue) :
    modQueue s q f = modQueue s q fun _ => f Q := by
  have e : modAt s.queues q f = modAt s.queues q fun _ => f Q := modAt_congr _ _ _ _ fun R hR => by
    rw [Option.some.inj (h.symm.trans hR)]
  simp only [modQueue, e]

/-- The first four registers of a queue's block are its ring bases (R325). -/
theorem writeRegister_base {q r o : Nat} (hq : q < 64) (hr : r < 0x10) (ho : o = 0x2000 + 64 * q + r) (v : Nat) :
    writeRegister s o v = writeBase s q r v := by
  have hblock : o % 0x1000 / 64 = q := by omega
  have hreg : o % 64 = r := by omega
  rw [writeRegister, if_neg (by omega), if_neg (by omega), if_pos (by omega), hblock, hreg, if_neg (by omega), if_neg (by omega),
    if_neg (by omega)]

/-- The first twelve words of a queue's mailbox are its data words (R331). -/
theorem writeRegister_mailbox {q k : Nat} (hq : q < 64) (hk : k < 12) (v : Nat) :
    writeRegister s (0x3000 + 64 * q + 4 * k) v = modQueue s q fun Q => { Q with data := Q.data.set k v } := by
  have hblock : (0x3000 + 64 * q + 4 * k) % 0x1000 / 64 = q := by omega
  have hreg : (0x3000 + 64 * q + 4 * k) % 64 = 4 * k := by omega
  have hword : 4 * k / 4 = k := by omega
  rw [writeRegister, if_neg (by omega), if_neg (by omega), if_neg (by omega), if_pos (by omega), hblock, hreg, hword]

/-- Below the doorbells only LOSS_SCALE takes a write (R7, R323). -/
theorem writeRegister_discards {o : Nat} (ho : o < 0x1000) (hne : o ≠ 0x20) (v : Nat) : writeRegister s o v = s := by
  rw [writeRegister, if_neg hne, if_neg (by omega), if_neg (by omega), if_neg (by omega)]

/-! ### The rows of the window -/

theorem exec_registerWrite (h : writesReach s = true) (o v : Nat) : exec (.registerWrite o v) s = .next (writeRegister s o v) :=
  congrArg Host.Outcome.next (hostWrite_reaches h o v _)

theorem exec_lossScaleWrite (h : writesReach s = true) (v : Nat) : exec (.lossScaleWrite v) s = .next (writeScale s v) :=
  congrArg Host.Outcome.next (hostWrite_reaches h 0x20 v _)

theorem writeScale_valid {v n : Nat} (ha : s.sched.active = some n) (hv : expOk (signed 8 (v % 256)) = true) : writeScale s v =
    modCtx s n fun c => { c with ls := c.ls.write (c.program.any fun p => p.st == .running) (signed 8 (v % 256)) } := by
  simp [writeScale, ha, hv]

theorem writeScale_invalid {v : Nat} (hv : expOk (signed 8 (v % 256)) = false) : writeScale s v =
    logError s 0x0054 0 sevWarning srcPackage 0xFF (s.sched.active.getD 0xFF) [v % 256] := by
  simp [writeScale, hv]

theorem registerWrite_sets_bases (h : writesReach s = true) {q : Nat} {Q : HostQueue} (hq : q < 64) (hQ : s.queues[q]? = some Q)
    (hoff : Q.enable = false) (v : Nat) :
    exec (.registerWrite (0x2000 + 64 * q) v) s = .next (modQueue s q fun _ => { Q with ringLo := v / 4096 * 4096 })
      ∧ exec (.registerWrite (0x2004 + 64 * q) v) s = .next (modQueue s q fun _ => { Q with ringHi := v })
      ∧ exec (.registerWrite (0x2008 + 64 * q) v) s = .next (modQueue s q fun _ => { Q with cplLo := v / 4096 * 4096 })
      ∧ exec (.registerWrite (0x200C + 64 * q) v) s = .next (modQueue s q fun _ => { Q with cplHi := v }) := by
  have base (r o : Nat) (hr : r < 0x10) (ho : o = 0x2000 + 64 * q + r) :
      exec (.registerWrite o v) s = .next (writeBase s q r v) := by
    rw [exec_registerWrite h, writeRegister_base hq hr ho]
  refine ⟨(base 0x00 _ (by omega) (by omega)).trans ?_, (base 0x04 _ (by omega) (by omega)).trans ?_,
    (base 0x08 _ (by omega) (by omega)).trans ?_, (base 0x0C _ (by omega) (by omega)).trans ?_⟩
  all_goals simp [writeBase, modQueue_const hQ, hoff]

/-- A flush that may complete acknowledges every posted write and returns 0. -/
theorem flushRbRead_completes (h : writesReach s = true) (ha : s.tether.activity = none) (hu : s.tether.unsent = 0) :
    exec .flushRbRead s = .next (settleRemoval (modTether (acknowledge s) fun t => { t with readValue := 0 })) := by
  have ready : flushReady s = true := by simp [flushReady, ha, hu]
  exact congrArg Host.Outcome.next ((hostRead_reaches h 0x10).trans (if_pos ready))

theorem flushRbRead_waits (h : writesReach s = true) (hw : s.tether.activity ≠ none ∨ s.tether.unsent ≠ 0) :
    exec .flushRbRead s = .next (holdAccess s (.read 0x10)) := by
  have notReady : ¬ flushReady s = true := by
    simp only [flushReady, Bool.and_eq_true, Option.isNone_iff_eq_none, beq_iff_eq]
    tauto
  exact congrArg Host.Outcome.next ((hostRead_reaches h 0x10).trans (if_neg notReady))

theorem ptimeLoRead_captures (h : writesReach s = true) : exec .ptimeLoRead s = .next { s with
    tether := { s.tether with ptimeCapture := s.time % 2 ^ 64, readValue := lo32 s.time } } :=
  congrArg Host.Outcome.next (hostRead_reaches h 0x08)

theorem ctxAccountLoRead_captures (h : writesReach s = true) {n : Nat} (hn : n < 16) :
    exec (.ctxAccountLoRead n) s = .next { s with
      tether := { s.tether with accountCapture := s.tether.accountCapture.set n (accountOf s n), readValue := lo32 (accountOf s n) } } := by
  have hlow : (0x100 + 8 * n) % 8 = 0 := by omega
  have hctx : (0x100 + 8 * n - 0x100) / 8 = n := by omega
  have hread : readRegister s (0x100 + 8 * n) = lo32 (accountOf s n) := by
    simp only [readRegister]
    rw [if_neg (by omega), if_neg (by omega), if_neg (by omega), if_neg (by omega), if_neg (by omega), if_neg (by omega),
      if_pos (by omega), if_pos hlow, hctx]
  refine congrArg Host.Outcome.next ((hostRead_reaches h _).trans ?_)
  rw [readNow, if_neg (by omega), if_neg (by omega), if_pos (by omega), hctx, hread]
  rfl

end

/-- Settles O47: by where the access goes (it reaches the device, is lost, or waits), then by the register. -/
theorem windowReadsAndWrites : Obligations.WindowReadsAndWrites := by
  refine ⟨fun s h => ⟨?scale, ?invalid, ?bases, ?mailbox, ?discard, ?flush, ?flushWaits, ptimeLoRead_captures h,
    fun n hn => ctxAccountLoRead_captures h hn⟩, fun s h => ⟨?lost, ?wait⟩⟩
  case scale =>
    intro v n x ha hx hv
    refine ⟨_, (exec_lossScaleWrite h v).trans (congrArg _ (writeScale_valid ha hv)), fun m => ?_, rfl⟩
    rw [ctxAt_modCtx]
    by_cases hm : m = n
    · subst hm
      simp [hx]
    · simp [hm, Ne.symm hm]
  case invalid =>
    intro v hv
    rw [exec_lossScaleWrite h, writeScale_invalid hv]
  case bases =>
    intro q v Q hq hQ hoff
    exact registerWrite_sets_bases h hq hQ hoff v
  case mailbox =>
    intro q v k hq hk
    rw [exec_registerWrite h, writeRegister_mailbox hq hk]
  case discard =>
    intro o v ho hne
    rw [exec_registerWrite h, writeRegister_discards ho hne]
  case flush =>
    intro ha hu
    exact ⟨_, flushRbRead_completes h ha hu, rfl, rfl, rfl, rfl⟩
  case flushWaits => exact flushRbRead_waits h
  case lost =>
    intro hl
    exact ⟨congrArg _ (hostRead_lost h hl 0x08), congrArg _ (hostRead_lost h hl 0x10),
      fun o v => congrArg _ (hostWrite_lost h hl o v _)⟩
  case wait =>
    intro hl hf
    exact ⟨congrArg _ (hostRead_waits h hl 0x08), fun o v => congrArg _ (hostWrite_waits h hl hf o v _),
      fun q v => congrArg _ (hostWrite_waits h hl hf (0x1000 + 4 * q) v _)⟩

end Sys2Proof.Machine

/-! SUPPORT. What recording an error keeps of Tollhouse and of the other parts, and what it depends on (16 R380, R400 to R402). -/

namespace Sys2Proof.Machine

/-! ### Of Tollhouse the log and the journal store change -/

/-- From t to u only the log and the journal store have changed. -/
def LogOnly (t u : Tollhouse) : Prop :=
  u = { t with
    log := u.log, logSeq := u.logSeq, logReplaced := u.logReplaced, journal := u.journal, retired := u.retired, toRetire := u.toRetire
    failing := u.failing }

theorem LogOnly.refl (t : Tollhouse) : LogOnly t t := rfl

theorem LogOnly.trans {t u v : Tollhouse} (h : LogOnly t u) (g : LogOnly u v) : LogOnly t v := by
  unfold LogOnly at *; rw [g, h]

theorem StoreOnly.logOnly {t u : Tollhouse} (h : StoreOnly t u) : LogOnly t u := by
  unfold StoreOnly at h; rw [h]; rfl

theorem pushLog_logOnly (t : Tollhouse) (e : LogEntry) : LogOnly t (pushLog t e) := by
  unfold pushLog
  split
  · rfl
  · split <;> rfl

theorem appendAll_storeOnly (bs : List JournalBody) (t : Tollhouse) : StoreOnly t (bs.foldl appendRecord t) := by
  induction bs generalizing t with
  | nil => rfl
  | cons b bs ih => exact StoreOnly.trans (program_journal [] (epochOf t) t b).2 (ih _)

theorem commitRecords_storeOnly (t : Tollhouse) (kind : Nat) (bs : List JournalBody) : StoreOnly t (commitRecords t kind bs) :=
  (appendAll_storeOnly bs t).trans (program_journal ..).2

theorem logEntry_logOnly (s : State) (a b c d e f : Nat) (l : List Nat) : LogOnly s.toll (logEntry s a b c d e f l).toll := by
  unfold logEntry
  split
  · rfl
  · unfold logFresh
    have fresh (x : LogEntry) : LogOnly s.toll (pushLog { s.toll with logSeq := s.toll.logSeq + 1 } x) :=
      LogOnly.trans (u := { s.toll with logSeq := s.toll.logSeq + 1 }) rfl (pushLog_logOnly _ x)
    dsimp only
    split
    · exact (fresh _).trans (commitRecords_storeOnly ..).logOnly
    · exact fresh _

theorem retireBlock_logOnly (s : State) (b : Nat) : LogOnly s.toll (retireBlock s b).toll := by
  unfold retireBlock
  exact (commitRecords_storeOnly s.toll 4 [.retire b]).logOnly.trans (logEntry_logOnly { s with toll := commitRecords s.toll 4 [.retire b] } ..)

theorem retireFuel_logOnly (f : Nat) (s : State) : LogOnly s.toll (retireFuel f s).toll := by
  induction f generalizing s with
  | zero => rfl
  | succ f ih =>
    unfold retireFuel
    split
    · rfl
    · rename_i b rest _
      have taken : LogOnly s.toll { s.toll with toRetire := rest } := rfl
      exact taken.trans ((retireBlock_logOnly { s with toll := { s.toll with toRetire := rest } } b).trans (ih _))

/-- Recording an error changes of Tollhouse the log and the journal store only. -/
theorem logError_logOnly (s : State) (a b c d e f : Nat) (l : List Nat) : LogOnly s.toll (logError s a b c d e f l).toll := by
  unfold logError retireBlocks
  exact (logEntry_logOnly s a b c d e f l).trans (retireFuel_logOnly ..)

section
variable (s : State) (a b c d e f : Nat) (l : List Nat)

@[simp] theorem logError_sensors : (logError s a b c d e f l).toll.sensors = s.toll.sensors := by rw [logError_logOnly]
@[simp] theorem logError_alerting : (logError s a b c d e f l).toll.alerting = s.toll.alerting := by rw [logError_logOnly]
@[simp] theorem logError_table : (logError s a b c d e f l).toll.table = s.toll.table := by rw [logError_logOnly]
@[simp] theorem logError_epoch : (logError s a b c d e f l).toll.epoch = s.toll.epoch := by rw [logError_logOnly]
@[simp] theorem logError_messages : (logError s a b c d e f l).toll.messages = s.toll.messages := by rw [logError_logOnly]
@[simp] theorem logError_i3cAddr : (logError s a b c d e f l).toll.i3cAddr = s.toll.i3cAddr := by rw [logError_logOnly]

/-! ### Of the state Tollhouse changes -/

@[simp] theorem logError_time : (logError s a b c d e f l).time = s.time := by rw [logError_toll]
@[simp] theorem logError_pkg : (logError s a b c d e f l).pkg = s.pkg := by rw [logError_toll]
@[simp] theorem logError_dies : (logError s a b c d e f l).dies = s.dies := by rw [logError_toll]
@[simp] theorem logError_modules : (logError s a b c d e f l).modules = s.modules := by rw [logError_toll]
@[simp] theorem logError_tether : (logError s a b c d e f l).tether = s.tether := by rw [logError_toll]
@[simp] theorem logError_ctxs : (logError s a b c d e f l).ctxs = s.ctxs := by rw [logError_toll]
@[simp] theorem logError_hbm : (logError s a b c d e f l).hbm = s.hbm := by rw [logError_toll]
@[simp] theorem logError_pylon : (logError s a b c d e f l).pylon = s.pylon := by rw [logError_toll]
@[simp] theorem logError_counters : (logError s a b c d e f l).counters = s.counters := by rw [logError_toll]
@[simp] theorem logError_free : (logError s a b c d e f l).free = s.free := by rw [logError_toll]

@[simp] theorem dieAt_logError (k : Nat) : dieAt (logError s a b c d e f l) k = dieAt s k := by simp [dieAt]

end

/-! ### What is recorded depends on Tollhouse and the time only -/

section
variable {s u : State}

theorem logEntry_congr (ht : u.toll = s.toll) (hn : u.time = s.time) (a b c d e f : Nat) (l : List Nat) :
    (logEntry u a b c d e f l).toll = (logEntry s a b c d e f l).toll := by
  have hr : repeats u = repeats s := by funext; simp only [repeats, hn]
  unfold logEntry logFresh
  simp only [ht, hn, hr]
  split <;> rfl

theorem retireBlock_toll (s : State) (b : Nat) : retireBlock s b = { s with toll := (retireBlock s b).toll } := by
  unfold retireBlock
  rw [logEntry_toll]

theorem retireBlock_congr (ht : u.toll = s.toll) (hn : u.time = s.time) (b : Nat) : (retireBlock u b).toll = (retireBlock s b).toll := by
  unfold retireBlock
  rw [ht]
  refine logEntry_congr ?_ ?_ ..
  · rfl
  · exact hn

theorem retireFuel_congr (f : Nat) (ht : u.toll = s.toll) (hn : u.time = s.time) : (retireFuel f u).toll = (retireFuel f s).toll := by
  induction f generalizing s u with
  | zero => exact ht
  | succ f ih =>
    unfold retireFuel
    rw [ht]
    split
    · exact ht
    · rename_i b rest _
      refine ih ?_ ?_
      · refine retireBlock_congr ?_ ?_ b
        · rfl
        · exact hn
      · rw [retireBlock_toll, retireBlock_toll { s with toll := { s.toll with toRetire := rest } }]
        exact hn

theorem logError_congr (ht : u.toll = s.toll) (hn : u.time = s.time) (a b c d e f : Nat) (l : List Nat) :
    (logError u a b c d e f l).toll = (logError s a b c d e f l).toll := by
  have h := logEntry_congr ht hn a b c d e f l
  unfold logError retireBlocks
  rw [h]
  refine retireFuel_congr _ h ?_
  rw [logEntry_toll, logEntry_toll s]
  exact hn

end

end Sys2Proof.Machine

/-! SUPPORT. The budget-controlled dies: reading one after one of them has changed (15 R375). -/

namespace Sys2Proof.Machine

@[simp] theorem dieAt_code (s : State) (k : Nat) : (dieAt s k).code = k := by
  unfold dieAt
  cases h : s.dies.find? fun d => decide (d.code = k) with
  | none => rfl
  | some d => exact of_decide_eq_true (List.find?_some (p := fun d : Die => decide (d.code = k)) h)

theorem dieAt_congr {s u : State} (h : u.dies = s.dies) (k : Nat) : dieAt u k = dieAt s k := by rw [dieAt, dieAt, h]

/-- A die that is not the one held fresh is listed. -/
theorem dieAt_listed {s : State} {k : Nat} (h : (dieAt s k).released = true) : dieAt s k ∈ s.dies := by
  unfold dieAt at h ⊢
  cases hf : s.dies.find? fun d => decide (d.code = k) with
  | none => rw [hf] at h; cases h
  | some d => exact List.mem_of_find?_eq_some hf

section
variable {s : State} {k : Nat} {f g : Die → Die}

theorem dieAt_modDie_self (h : ∃ d ∈ s.dies, d.code = k) (hf : ∀ d, (f d).code = d.code := by exact fun _ => rfl) : dieAt (modDie s k f) k = f (dieAt s k) := by
  have hfind := find_mapif s.dies (fun d => decide (d.code = k)) f fun d hd => by simpa [hf] using hd
  simp only [decide_eq_true_eq] at hfind
  obtain ⟨d, hd⟩ := Option.isSome_iff_exists.1 (List.find?_isSome (p := fun d : Die => decide (d.code = k)).2 (by simpa using h))
  simp only [dieAt, modDie, hfind, hd, Option.map_some, Option.getD_some]

theorem dieAt_modDie_ne {j : Nat} (h : j ≠ k) (hf : ∀ d, (f d).code = d.code := by exact fun _ => rfl) : dieAt (modDie s k f) j = dieAt s j := by
  have key : ∀ l : List Die, (l.map fun d => if d.code = k then f d else d).find? (fun d => decide (d.code = j)) = l.find? fun d => decide (d.code = j) := by
    intro l
    induction l with
    | nil => rfl
    | cons d l ih =>
      by_cases hd : d.code = k
      · have hne : ¬ k = j := fun e => h e.symm
        simp [hf, hd, hne, ih]
      · simp [hd, List.find?_cons, ih]
  rw [dieAt, modDie, key, dieAt]

theorem modDie_modDie (hf : ∀ d, (f d).code = d.code := by exact fun _ => rfl) : modDie (modDie s k f) k g = modDie s k (g ∘ f) := by
  unfold modDie
  simp only [List.map_map]
  congr 1
  refine List.map_congr_left fun d _ => ?_
  by_cases hd : d.code = k <;> simp [hf, hd]

end

/-! ### Each code is listed once -/

theorem dieCodes_nodup : dieCodes.Nodup := by decide

section
variable {s : State} (hs : s.dies.map (·.code) = dieCodes)
include hs

/-- A listed die is the one that its code names. -/
theorem dieAt_of_mem {d : Die} (hd : d ∈ s.dies) : dieAt s d.code = d := by
  have nodup : (s.dies.map (·.code)).Nodup := hs ▸ dieCodes_nodup
  have same : ∀ e ∈ s.dies, e.code = d.code → e = d := fun e he hc => List.inj_on_of_nodup_map nodup he hd hc
  unfold dieAt
  cases hf : s.dies.find? fun e => decide (e.code = d.code) with
  | none => exact absurd (List.find?_eq_none.1 hf d hd) (by simp)
  | some e => exact same e (List.mem_of_find?_eq_some hf) (by simpa using List.find?_some hf)

theorem die_listed {k : Nat} (hk : k ∈ dieCodes) : ∃ d ∈ s.dies, d.code = k := by
  rw [← hs] at hk
  simpa using hk

theorem code_mem_dieCodes {d : Die} (hd : d ∈ s.dies) : d.code ∈ dieCodes := hs ▸ List.mem_map_of_mem hd

/-- What a change makes of a die depends on the die that its code names only. -/
theorem modDie_congr {k : Nat} {f g : Die → Die} (h : f (dieAt s k) = g (dieAt s k)) : modDie s k f = modDie s k g := by
  unfold modDie
  congr 1
  refine List.map_congr_left fun d hd => ?_
  by_cases hc : d.code = k
  · rw [← hc, dieAt_of_mem hs hd] at h
    simp only [hc, if_true, h]
  · simp [hc]

end

theorem modDie_codes {s : State} {k : Nat} {f : Die → Die} (hf : ∀ d, (f d).code = d.code := by exact fun _ => rfl) :
    (modDie s k f).dies.map (·.code) = s.dies.map (·.code) := by
  simp only [modDie, List.map_map]
  refine List.map_congr_left fun d _ => ?_
  by_cases hd : d.code = k <;> simp [hf, hd]

/-- A change of a die keeps the codes that are listed. -/
theorem listed_modDie {s : State} {k j : Nat} {f : Die → Die} (h : ∃ d ∈ s.dies, d.code = j)
    (hf : ∀ d, (f d).code = d.code := by exact fun _ => rfl) : ∃ d ∈ (modDie s k f).dies, d.code = j := by
  have hj : j ∈ s.dies.map (·.code) := by simpa using h
  rw [← modDie_codes (s := s) (k := k) hf] at hj
  simpa using hj

end Sys2Proof.Machine

/-! SUPPORT. Resets: what each takes and what it keeps (01 R21 to R23, 11 R283, 18 R423, R424). -/

namespace Sys2Proof.Machine

/-! ### The parts of a reset -/

/-- Settling posted writes changes host memory and used free values only. -/
theorem settlePosted_parts (ws : List Posted) (s : State) : settlePosted ws s =
    { s with free := (settlePosted ws s).free, tether := { s.tether with hostMem := (settlePosted ws s).tether.hostMem } } := by
  induction ws generalizing s with
  | nil => rfl
  | cons w ws ih =>
    unfold settlePosted
    dsimp only
    rw [ih]
    split <;> rfl

theorem selfRefresh_enterSelfRefresh (K : Stack) : (enterSelfRefresh K).selfRefresh = true := by
  unfold enterSelfRefresh
  split
  · assumption
  · rfl

theorem retained_enterSelfRefresh (K : Stack) : (enterSelfRefresh K).retained = (K.retained || !K.selfRefresh) := by
  unfold enterSelfRefresh
  split <;> simp_all

@[simp] theorem loseState_footings (s : State) :
    (loseState s).hbm.footings = (s.hbm.footings.map enterSelfRefresh).map Stack.afterReset := by
  unfold loseState
  rw [settlePosted_parts]
  rfl

@[simp] theorem loseState_time (s : State) : (loseState s).time = s.time := by
  unfold loseState
  rw [settlePosted_parts]
  rfl

@[simp] theorem loseState_toll (s : State) : (loseState s).toll = s.toll := by
  unfold loseState
  rw [settlePosted_parts]
  rfl

@[simp] theorem loseState_mem (s : State) : (loseState s).hbm.mem = s.hbm.mem := by
  unfold loseState
  rw [settlePosted_parts]
  rfl

@[simp] theorem loseState_pkg (s : State) : (loseState s).pkg =
    { s.pkg with bootStep := 1, ready := false, removing := false, heldTiles := [], holdDies := [], found := [] } := by
  unfold loseState
  rw [settlePosted_parts]
  rfl

theorem loseState_selfRefresh (s : State) : ∀ K ∈ (loseState s).hbm.footings, K.selfRefresh = true := by
  intro K hK
  rw [loseState_footings, List.map_map] at hK
  obtain ⟨L, -, rfl⟩ := List.mem_map.1 hK
  exact selfRefresh_enterSelfRefresh L

/-- Every reset takes what R424 lists. -/
theorem cleared_loseState (s : State) : Cleared (loseState s) := by
  refine ⟨rfl, rfl, rfl, rfl, rfl, rfl, rfl, rfl, rfl, rfl, rfl, rfl, rfl, rfl, rfl, rfl, loseState_selfRefresh s, ?_, ?_⟩
  · rw [loseState_pkg]
  · rw [loseState_pkg]

theorem retained_loseState (s : State) :
    (loseState s).hbm.footings.map (·.retained) = s.hbm.footings.map fun K => K.retained || !K.selfRefresh := by
  rw [loseState_footings, List.map_map, List.map_map]
  exact List.map_congr_left fun K _ => retained_enterSelfRefresh K

/-! ### The end of a time at the floor (15 R377) -/

/-- The end of a time at the floor changes counters and the log only. -/
theorem leaveFloor_parts (s : State) (d : Die) :
    leaveFloor s d = { s with counters := (leaveFloor s d).counters, toll := (leaveFloor s d).toll } := by
  unfold leaveFloor
  dsimp only
  split
  · split
    · rw [logError_counters]
      refine (logError_toll ..).trans ?_
      split <;> rfl
    · split <;> rfl
  · rfl

theorem leaveFloor_logOnly (s : State) (d : Die) : LogOnly s.toll (leaveFloor s d).toll := by
  unfold leaveFloor
  dsimp only
  split
  · have counted (b : Bool) (x y z w : Nat) : (if b then count s x y z w else s).toll = s.toll := by split <;> rfl
    split
    · refine LogOnly.trans ?_ (logError_logOnly ..)
      rw [counted]
      exact .refl _
    · rw [counted]
      exact .refl _
  · exact .refl _

theorem leaveFloor_idle {s : State} {d : Die} (h : d.atFloor = false) : leaveFloor s d = s := by simp [leaveFloor, h]

theorem leaveFloor_unentered {s : State} {d : Die} (h : d.floorEntered = false) : (leaveFloor s d).toll = s.toll := by
  unfold leaveFloor
  simp only [h, Bool.false_eq_true, if_false]
  split
  · split <;> rfl
  · rfl

/-- An entry to the floor is recorded with its duration. -/
theorem leaveFloor_entered {s : State} {d : Die} (ha : d.atFloor = true) (he : d.floorEntered = true) : (leaveFloor s d).toll =
    (logError s 0x0040 0 sevWarning (if isPier d.code then srcPier else srcPylon) (d.code % 16) 0xFF
      [d.code, (s.time - d.floorSince) / 1000]).toll := by
  unfold leaveFloor
  simp only [ha, he, if_true]
  split
  · exact logError_congr (s := s) (u := count s ..) rfl rfl ..
  · rfl

theorem leaveFloors_parts (ds : List Die) (s : State) : ds.foldl leaveFloor s =
    { s with counters := (ds.foldl leaveFloor s).counters, toll := (ds.foldl leaveFloor s).toll } := by
  induction ds generalizing s with
  | nil => rfl
  | cons d ds ih => rw [List.foldl_cons, ih, leaveFloor_parts]

theorem leaveFloors_logOnly (ds : List Die) (s : State) : LogOnly s.toll (ds.foldl leaveFloor s).toll := by
  induction ds generalizing s with
  | nil => exact .refl _
  | cons d ds ih => exact (leaveFloor_logOnly s d).trans (ih _)

theorem leaveFloors_unentered {ds : List Die} (h : ∀ d ∈ ds, d.floorEntered = false) (s : State) : (ds.foldl leaveFloor s).toll = s.toll := by
  induction ds generalizing s with
  | nil => rfl
  | cons d ds ih =>
    rw [List.foldl_cons, ih (fun e he => h e (by simp [he])), leaveFloor_unentered (h d (by simp))]

/-! ### Warm resets and self-resets -/

theorem resetKeep_cleared (s : State) (cause : Nat) : Cleared (resetKeep s cause) := cleared_loseState (s.dies.foldl leaveFloor s)

@[simp] theorem resetKeep_time (s : State) (cause : Nat) : (resetKeep s cause).time = s.time := by
  show (loseState _).time = _
  rw [loseState_time, leaveFloors_parts]

@[simp] theorem resetKeep_toll (s : State) (cause : Nat) :
    (resetKeep s cause).toll = (s.dies.foldl leaveFloor s).toll.afterReset s.pkg.orderB := by
  show (loseState _).toll.afterReset (loseState _).pkg.orderB = _
  rw [loseState_toll, loseState_pkg]
  rw [leaveFloors_parts]

@[simp] theorem resetKeep_pkg (s : State) (cause : Nat) : (resetKeep s cause).pkg =
    { s.pkg with bootStep := 1, ready := false, removing := false, heldTiles := [], holdDies := [], found := [], phase := .inReset
                 resetCause := cause } := by
  show ({ (loseState _).pkg with phase := _, resetCause := _ } : Package) = _
  rw [loseState_pkg, leaveFloors_parts]

@[simp] theorem resetKeep_mem (s : State) (cause : Nat) : (resetKeep s cause).hbm.mem = s.hbm.mem := by
  show (loseState _).hbm.mem = _
  rw [loseState_mem, leaveFloors_parts]

@[simp] theorem resetKeep_footings (s : State) (cause : Nat) :
    (resetKeep s cause).hbm.footings = (s.hbm.footings.map enterSelfRefresh).map Stack.afterReset := by
  show (loseState _).hbm.footings = _
  rw [loseState_footings, leaveFloors_parts]

theorem retained_resetKeep (s : State) (cause : Nat) :
    (resetKeep s cause).hbm.footings.map (·.retained) = s.hbm.footings.map fun K => K.retained || !K.selfRefresh := by
  show (loseState _).hbm.footings.map _ = _
  rw [retained_loseState, leaveFloors_parts]

/-! ### Resets that take the always-on domain's power -/

theorem resetLose_cleared (s : State) (phase : Phase) (cause : Nat) : Cleared (resetLose s phase cause) := by
  obtain ⟨h1, h2, h3, h4, h5, h6, h7, h8, h9, h10, h11, h12, h13, h14, h15, h16, h17, h18, h19⟩ := cleared_loseState s
  refine ⟨h1, h2, h3, h4, h5, h6, h7, h8, h9, h10, h11, h12, h13, h14, h15, h16, fun K hK => ?_, h18, h19⟩
  obtain ⟨L, hL, rfl⟩ := List.mem_map.1 hK
  exact h17 L hL

@[simp] theorem resetLose_toll (s : State) (phase : Phase) (cause : Nat) :
    (resetLose s phase cause).toll = s.toll.afterPowerLoss s.pkg.orderB := by
  show (loseState _).toll.afterPowerLoss (loseState _).pkg.orderB = _
  rw [loseState_toll, loseState_pkg]

@[simp] theorem resetLose_mem (s : State) (phase : Phase) (cause : Nat) : (resetLose s phase cause).hbm.mem = s.hbm.mem := loseState_mem s

theorem retained_resetLose (s : State) (phase : Phase) (cause : Nat) :
    (resetLose s phase cause).hbm.footings.map (·.retained) = s.hbm.footings.map fun K => K.retained || !K.selfRefresh := by
  rw [← retained_loseState]
  exact List.map_map

/-! ### The loss of HBM (R22, R31, R283) -/

theorem scramble_parts (cs : List Host.Cell) (s : State) :
    scramble cs s = { s with free := (scramble cs s).free, hbm := { s.hbm with mem := (scramble cs s).hbm.mem } } := by
  induction cs generalizing s with
  | nil => rfl
  | cons c cs ih =>
    unfold scramble
    rw [ih]

/-- Losing HBM changes its bytes, the RETAINED bits and used free values only. -/
theorem loseHbm_parts (s : State) : loseHbm s =
    { s with free := (loseHbm s).free, hbm := { s.hbm with
      mem := (loseHbm s).hbm.mem, footings := s.hbm.footings.map fun K => { K with retained := false } } } := by
  unfold loseHbm clearRetained
  rw [scramble_parts]

theorem loseHbm_cleared {s : State} (h : Cleared s) : Cleared (loseHbm s) := by
  obtain ⟨h1, h2, h3, h4, h5, h6, h7, h8, h9, h10, h11, h12, h13, h14, h15, h16, h17, h18, h19⟩ := h
  rw [loseHbm_parts]
  refine ⟨h1, h2, h3, h4, h5, h6, h7, h8, h9, h10, h11, h12, h13, h14, h15, h16, fun K hK => ?_, h18, h19⟩
  obtain ⟨L, hL, rfl⟩ := List.mem_map.1 hK
  exact h17 L hL

/-! ### The rows -/

section
variable {s : State}

theorem exec_pwrOkFall (h : s.pkg.pwrOk = true) : exec .pwrOkFall s =
    .next { resetLose s .unpowered 0x00 with pkg := { (resetLose s .unpowered 0x00).pkg with pwrOk := false } } :=
  congrArg Host.Outcome.next (if_pos h)

/-- A rail that stays below its minimum for more than 5 µs resets the device (R22). -/
theorem exec_railDip_long (h : s.pkg.pwrOk = true) {r : Rail} {ns : Nat} (hns : 5000 < ns) :
    exec (.railDip r ns) s = .next (if r = .hbm then loseHbm (resetLose s .inReset 0x03) else resetLose s .inReset 0x03) := by
  show Host.Outcome.next _ = _
  rw [if_neg (by omega)]
  simp [dip, h, hns]

/-- A shorter dip does nothing but to HBM (R22, R283). -/
theorem exec_railDip_short {r : Rail} {ns : Nat} (hns : ns ≤ 5000) :
    exec (.railDip r ns) s = .next (if r = .hbm ∧ ns ≠ 0 then loseHbm s else s) := by
  show Host.Outcome.next _ = _
  have short : ¬ 5000 < ns := by omega
  by_cases h0 : ns = 0 <;> simp [dip, h0, short]

theorem exec_refclkLoss_long (h : s.pkg.pwrOk = true) {ns : Nat} (hns : 2000 < ns) :
    exec (.refclkLoss ns) s = .next (resetLose (logError s 0x0045 0 sevFatal srcPackage 0xFF 0xFF []) .inReset 0x03) := by
  show Host.Outcome.next _ = _
  rw [if_pos (by simp [h, hns])]
  rfl

theorem exec_refclkLoss_short {ns : Nat} (hns : ns ≤ 2000) : exec (.refclkLoss ns) s = .next s := by
  show Host.Outcome.next _ = _
  rw [if_neg (by simp [hns])]

theorem exec_pkgResetN_long (h : s.pkg.pwrOk = true) (hp : powered s = true) {ns : Nat} (hns : 10000 ≤ ns) :
    exec (.pkgResetN ns) s = .next (resetKeep s 0x01) := by
  show Host.Outcome.next _ = _
  rw [if_pos (by simp [h, hns]), warmReset, if_pos hp]

theorem exec_pkgResetN_short {ns : Nat} (hns : ns < 10000) : exec (.pkgResetN ns) s = .next s := by
  show Host.Outcome.next _ = _
  rw [if_neg (by simp [hns])]

theorem exec_adapterResetRequest (hc : s.pkg.cable = true) (hp : powered s = true) :
    exec .adapterResetRequest s = .next (resetKeep s 0x01) := by
  show Host.Outcome.next _ = _
  rw [if_pos hc, warmReset, if_pos hp]

end

/-- What a rail dip of more than 5 µs leaves. -/
theorem railDip_long (s : State) (r : Rail) : ∃ t, (if r = .hbm then loseHbm (resetLose s .inReset 0x03) else resetLose s .inReset 0x03) = t
    ∧ Cleared t ∧ t.pkg.phase = .inReset ∧ t.pkg.resetCause = 0x03 ∧ t.time = 0 ∧ t.toll = s.toll.afterPowerLoss s.pkg.orderB
    ∧ (r ≠ .hbm → t.hbm.mem = s.hbm.mem)
    ∧ t.hbm.footings.map (·.retained) = s.hbm.footings.map fun K => r != .hbm && (K.retained || !K.selfRefresh) := by
  by_cases hr : r = .hbm
  · subst hr
    refine ⟨_, if_pos rfl, loseHbm_cleared (resetLose_cleared ..), ?_, ?_, ?_, ?_, fun h => absurd rfl h, ?_⟩
    all_goals rw [loseHbm_parts]
    · rfl
    · rfl
    · rfl
    · exact resetLose_toll s .inReset 0x03
    · have h := congrArg List.length (retained_resetLose s .inReset 0x03)
      simp only [List.length_map] at h
      simp [Function.comp_def, List.map_const', h]
  · have hne : (r != .hbm) = true := by simpa using hr
    refine ⟨_, if_neg hr, resetLose_cleared .., rfl, rfl, rfl, resetLose_toll .., fun _ => resetLose_mem .., ?_⟩
    simp only [hne, Bool.true_and]
    exact retained_resetLose ..

/-- What a warm reset leaves. -/
theorem warmReset_keeps (s : State) : ∃ t, resetKeep s 0x01 = t ∧ Cleared t ∧ t.pkg.phase = .inReset ∧ t.pkg.resetCause = 0x01 ∧ t.time = s.time
    ∧ t.toll.log = (s.dies.foldl leaveFloor s).toll.log ∧ t.toll.journal = (s.dies.foldl leaveFloor s).toll.journal
    ∧ ((∀ d ∈ s.dies, d.floorEntered = false) → t.toll.log = s.toll.log ∧ t.toll.journal = s.toll.journal)
    ∧ t.toll.table = nominalTable s.pkg.orderB ∧ t.toll.i3cAddr = s.toll.i3cAddr ∧ t.hbm.mem = s.hbm.mem ∧ t.pkg.oos = s.pkg.oos
    ∧ t.pkg.alert = s.pkg.alert ∧ t.toll.alerting = s.toll.alerting
    ∧ t.hbm.footings.map (·.retained) = s.hbm.footings.map fun K => K.retained || !K.selfRefresh := by
  have frame := leaveFloors_logOnly s.dies s
  refine ⟨_, rfl, resetKeep_cleared .., ?_, ?_, resetKeep_time .., ?_, ?_, fun h => ?_, ?_, ?_, resetKeep_mem .., ?_, ?_, ?_, retained_resetKeep ..⟩
  · rw [resetKeep_pkg]
  · rw [resetKeep_pkg]
  · rw [resetKeep_toll]; rfl
  · rw [resetKeep_toll]; rfl
  · rw [resetKeep_toll, leaveFloors_unentered h]
    exact ⟨rfl, rfl⟩
  · rw [resetKeep_toll]; rfl
  · rw [resetKeep_toll, frame]; rfl
  · rw [resetKeep_pkg]
  · rw [resetKeep_pkg]
  · rw [resetKeep_toll, frame]; rfl

/-- Settles O52: the rows of a powered package, of an unpowered one, of an adapter that is not there, and VDD_HBM. -/
theorem resetsKeepWhatSurvives : Obligations.ResetsKeepWhatSurvives := by
  unfold Obligations.ResetsKeepWhatSurvives
  refine ⟨fun s h => ⟨?fall, ?rise, ?dip, ?shortDip, ?hbmDip, ?clock, ?shortClock, ?pulse, ?warm⟩, fun s h => ⟨?coldRise, ?coldFall, ?coldPulse⟩,
    ?noCable, ?hbmRise⟩
  case fall =>
    have htoll := resetLose_toll s .unpowered 0x00
    refine ⟨_, exec_pwrOkFall h, resetLose_cleared s .unpowered 0x00, rfl, rfl, rfl, ?_, ?_, resetLose_mem s .unpowered 0x00, rfl⟩
    · dsimp only; rw [htoll]; rfl
    · dsimp only; rw [htoll]; rfl
  case rise => exact congrArg Host.Outcome.next (if_pos h)
  case dip =>
    intro r ns hns
    obtain ⟨t, ht, hcleared, hphase, hcause, htime, htoll, hmem, hretained⟩ := railDip_long s r
    refine ⟨t, (exec_railDip_long h hns).trans (congrArg _ ht), hcleared, hphase, hcause, htime, ?_, ?_, hmem, hretained⟩
    · rw [htoll]; rfl
    · rw [htoll]; rfl
  case shortDip =>
    intro r ns hns hr
    rw [exec_railDip_short hns, if_neg (by tauto)]
  case hbmDip =>
    intro ns hpos hns
    rw [exec_railDip_short hns, if_pos ⟨rfl, by omega⟩]
    rfl
  case clock =>
    intro ns hns
    refine ⟨_, exec_refclkLoss_long h hns, resetLose_cleared .., rfl, rfl, ?_⟩
    rw [resetLose_toll]
    rfl
  case shortClock =>
    intro ns hns
    exact exec_refclkLoss_short hns
  case pulse =>
    intro ns hns
    exact exec_pkgResetN_short hns
  case warm =>
    intro ns hns hp
    obtain ⟨t, rfl, hcleared, hphase, hcause, htime, hlog, hjournal, hidle, htable, haddr, hmem, hoos, halert, halerting, hretained⟩ :=
      warmReset_keeps s
    exact ⟨_, exec_pkgResetN_long h hp hns, hcleared, hphase, hcause, htime, hlog, hjournal, hidle, htable, haddr, hmem, hoos, halert, halerting,
      hretained, fun hc => exec_adapterResetRequest hc hp⟩
  case coldRise => exact congrArg Host.Outcome.next (if_neg (by simp [h]))
  case coldFall => exact congrArg Host.Outcome.next (if_neg (by simp [h]))
  case coldPulse => exact fun ns => congrArg Host.Outcome.next (if_neg (by simp [h]))
  case noCable => exact fun s h => congrArg Host.Outcome.next (if_neg (by simp [h]))
  case hbmRise => exact fun s => ⟨_, rfl, loseHbm_parts s⟩

end Sys2Proof.Machine

/-! SUPPORT. Budget messages and reports as bytes (15 R375, R376): what a sealed message carries and that its check holds. -/

namespace Sys2Proof.Machine

/-! ### The check of R375 -/

theorem crcBit_lt (c : Nat) : crcBit c < 65536 := by
  have h : c * 2 % 65536 < 2 ^ 16 := Nat.mod_lt _ (by decide)
  unfold crcBit
  split
  · exact Nat.xor_lt_two_pow h (by decide)
  · exact h

theorem crcByte_lt (c : Nat) (b : Byte) : crcByte c b < 65536 := by
  unfold crcByte
  rw [List.range_succ, List.foldl_append, List.foldl_cons, List.foldl_nil]
  exact crcBit_lt _

theorem crc16_lt (bs : List Byte) : crc16 bs < 65536 := by
  unfold crc16
  induction bs using List.reverseRecOn with
  | nil => decide
  | append_singleton bs b _ =>
    rw [List.foldl_append, List.foldl_cons, List.foldl_nil]
    exact crcByte_lt _ b

/-! ### Fields of a sealed message -/

theorem field_append {bs : List Byte} {o n : Nat} (h : o + n ≤ bs.length) (r : List Byte) : field (bs ++ r) o n = field bs o n := by
  unfold field slice
  rw [List.drop_append_of_le_length (by omega), List.take_append_of_le_length (by simp only [List.length_drop]; omega)]

theorem field_sealed {bs : List Byte} {o n : Nat} (h : o + n ≤ bs.length) : field (sealed bs) o n = field bs o n := field_append h _

/-- A message of 14 bytes with its check passes. -/
theorem checkOk_sealed {bs : List Byte} (h : bs.length = 14) : checkOk (sealed bs) = true := by
  have hlen : (sealed bs).length = 16 := by simp [sealed, h, leBytes_length]
  have htake : (sealed bs).take 14 = bs := by rw [sealed, List.take_append_of_le_length (by omega), List.take_of_length_le (by omega)]
  have hcheck : field (sealed bs) 14 2 = crc16 bs := by
    unfold field slice sealed
    rw [← h, List.drop_left, List.take_of_length_le (by rw [leBytes_length])]
    rw [leNat_leBytes]
    exact Nat.mod_eq_of_lt (crc16_lt bs)
  simp [checkOk, hlen, htake, hcheck]

/-! ### Budget messages (R375) -/

/-- What a budget message carries. -/
theorem budgetMessage_fields (s : State) (d : Die) : checkOk (budgetMessage s d) = true ∧ field (budgetMessage s d) 0 1 = 0x21
    ∧ field (budgetMessage s d) 1 1 = d.code % 256 ∧ field (budgetMessage s d) 2 2 = d.sendSeq % 65536
    ∧ field (budgetMessage s d) 4 2 = budgetFor s d % 65536 ∧ field (budgetMessage s d) 6 2 = floorOf d.code % 65536 := by
  refine ⟨checkOk_sealed (by simp [leBytes_length]), ?_, ?_, ?_, ?_, ?_⟩
  all_goals
    rw [budgetMessage, field_sealed (by simp [leBytes_length])]
    simp only [List.append_assoc]
  · rw [field_front]
    rfl
  · rw [field_skip 1 _ 0, field_front]
    rfl
  · rw [field_skip 1 _ 1, field_skip 1 _ 0, field_front]
    rfl
  · rw [field_skip 1 _ 3, field_skip 1 _ 2, field_skip 2 _ 0, field_front]
    rfl
  · rw [field_skip 1 _ 5, field_skip 1 _ 4, field_skip 2 _ 2, field_skip 2 _ 0, field_front]
    rfl

/-! ### Budget reports (R376) -/

/-- What a budget report carries: the die as it was when the message came, its voltage, and whether it is over its budget. -/
theorem budgetReport_fields (s : State) (old new : Die) (m : List Byte) (r : List Byte) (hr : r = budgetReport s old new m) :
    checkOk r = true ∧ field r 0 1 = 0x22 ∧ field r 1 1 = new.code % 256 ∧ field r 2 2 = field m 2 2 % 65536
    ∧ field r 4 2 = drawOf s old % 65536 ∧ field r 6 2 = new.millivolts % 65536
    ∧ field r 10 1 = flag old.atFloor 0 + flag (overBudget new) 1 := by
  subst hr
  refine ⟨checkOk_sealed (by simp [leBytes_length]), ?_, ?_, ?_, ?_, ?_, ?_⟩
  all_goals
    rw [budgetReport]
    rw [field_sealed (by simp [leBytes_length])]
    simp only [List.append_assoc]
  · rw [field_front]
    rfl
  · rw [field_skip 1 _ 0, field_front]
    rfl
  · rw [field_skip 1 _ 1, field_skip 1 _ 0, field_front]
    rfl
  · rw [field_skip 1 _ 3, field_skip 1 _ 2, field_skip 2 _ 0, field_front]
    rfl
  · rw [field_skip 1 _ 5, field_skip 1 _ 4, field_skip 2 _ 2, field_skip 2 _ 0, field_front]
    rfl
  · rw [field_skip 1 _ 9, field_skip 1 _ 8, field_skip 2 _ 6, field_skip 2 _ 4, field_skip 2 _ 2, field_skip 2 _ 0, field_front]
    cases old.atFloor <;> cases overBudget new <;> rfl

theorem bit_flags (a b : Bool) : bit (flag a 0 + flag b 1) 0 = a ∧ bit (flag a 0 + flag b 1) 1 = b := by
  cases a <;> cases b <;> decide

theorem field_two_lt (m : List Byte) (o : Nat) : field m o 2 < 65536 := by
  refine lt_of_lt_of_le (leNat_lt _) ?_
  have : (slice m o 2).length ≤ 2 := by simp [slice]
  calc 256 ^ (slice m o 2).length ≤ 256 ^ 2 := Nat.pow_le_pow_right (by decide) this
    _ = 65536 := rfl

end Sys2Proof.Machine

/-! SUPPORT. The voltage controllers of the dies: the step that a budget gives, and how a die steers to it (01 R24, R26, R29). -/

namespace Sys2Proof.Machine

/-! ### The step of a budget (R29) -/

/-- The highest index below n at which p holds, or 0. -/
theorem find_highest (p : Nat → Bool) (n : Nat) (hn : 0 < n) : ∃ i, ((List.range n).reverse.find? p).getD 0 = i ∧ i < n
    ∧ (∀ j, i < j → j < n → p j = false) ∧ (i = 0 ∨ p i = true) := by
  induction n with
  | zero => omega
  | succ n ih =>
    rw [List.range_succ, List.reverse_append, List.reverse_singleton, List.singleton_append, List.find?_cons]
    cases hp : p n with
    | true => exact ⟨n, rfl, by omega, fun j hj hj' => by omega, .inr hp⟩
    | false =>
      rcases Nat.eq_zero_or_pos n with rfl | hpos
      · exact ⟨0, rfl, by omega, fun j hj hj' => by omega, .inl rfl⟩
      · obtain ⟨i, hi, hlt, habove, hat⟩ := ih hpos
        refine ⟨i, hi, by omega, fun j hj hj' => ?_, hat⟩
        rcases Nat.lt_or_eq_of_le (Nat.lt_succ_iff.1 hj') with h | rfl
        · exact habove j hj h
        · exact hp

/-- Above the step of a budget no measured draw keeps it; at that step one does, unless it is the lowest. -/
theorem budgetStep_highest {d : Die} (h : d.draws ≠ []) : budgetStep d < 57
    ∧ (∀ j w, budgetStep d < j → j < 57 → d.draws[j]? = some w → d.budget < w)
    ∧ (budgetStep d = 0 ∨ ∃ w, d.draws[budgetStep d]? = some w ∧ w ≤ d.budget) := by
  obtain ⟨i, hi, hlt, habove, hat⟩ := find_highest (fun i => (d.draws[i]?).any fun w => decide (w ≤ d.budget)) 57 (by omega)
  have e : budgetStep d = i := by
    rw [budgetStep, if_neg (by simpa using h), hi]
  rw [e]
  refine ⟨hlt, fun j w hj hj' hw => ?_, hat.imp_right fun hp => ?_⟩
  · have := habove j hj hj'
    rw [hw] at this
    simpa using this
  · obtain ⟨w, hw, hle⟩ := (Option.any_eq_true ..).1 hp
    exact ⟨w, hw, by simpa using hle⟩

/-- A Pier die that is not throttled commands the step of its budget. -/
theorem commandedVolts_free {s : State} {d : Die} (hp : isPier d.code = true) (ht : ¬ (d.throttled = true ∧ 0 < budgetStep d)) :
    commandedVolts s d = 620 + 5 * budgetStep d := by
  simp only [commandedVolts, hp, if_true, ht, if_false]

/-- A throttled one commands a lower step. -/
theorem commandedVolts_throttled {s : State} {d : Die} (hp : isPier d.code = true) (ht : d.throttled = true) (hi : 0 < budgetStep d) :
    620 ≤ commandedVolts s d ∧ commandedVolts s d < 620 + 5 * budgetStep d := by
  have hlt : freeBelow s (budgetStep d) < budgetStep d := Nat.mod_lt _ hi
  simp only [commandedVolts, hp, if_true, ht, hi, and_self]
  omega

/-! ### Steering -/

/-- Steering commands the voltage that the controller finds for the die. -/
theorem steer_eq {s : State} (hs : s.dies.map (·.code) = dieCodes) (k : Nat) :
    steer s k = modDie (freeUsed s 1) k fun d => { d with millivolts := commandedVolts s (dieAt s k) } :=
  modDie_congr (s := freeUsed s 1) hs rfl

theorem steer_parts (s : State) (k : Nat) : steer s k = { s with dies := (steer s k).dies, free := s.free + 1 } := rfl

@[simp] theorem steer_toll (s : State) (k : Nat) : (steer s k).toll = s.toll := rfl

theorem dieAt_steer_ne (s : State) {k j : Nat} (h : j ≠ k) : dieAt (steer s k) j = dieAt s j :=
  dieAt_modDie_ne (s := freeUsed s 1) h

theorem dieAt_steer_self {s : State} {k : Nat} (h : ∃ d ∈ s.dies, d.code = k) :
    dieAt (steer s k) k = { dieAt s k with millivolts := commandedVolts s (dieAt s k) } :=
  dieAt_modDie_self (s := freeUsed s 1) h

/-! ### The floor (R377, R398) -/

/-- A die as it takes its floor, before its controller steers to it. -/
def Die.floored (d : Die) (k now : Nat) : Die :=
  { d with budget := floorOf k, atFloor := true, floorSince := if d.atFloor then d.floorSince else now
           floorEntered := d.floorEntered || (d.released && !d.atFloor) }

theorem enterFloor_parts (s : State) (k : Nat) :
    enterFloor s k = { s with dies := (enterFloor s k).dies, toll := (enterFloor s k).toll, free := s.free + 1 } := by
  unfold enterFloor
  dsimp only
  split
  · rw [logError_toll]
    rfl
  · rfl

theorem enterFloor_dies (s : State) (k : Nat) : (enterFloor s k).dies = (steer (modDie s k fun d => d.floored k s.time) k).dies := by
  unfold enterFloor
  dsimp only
  split
  · rw [logError_dies]
    rfl
  · rfl

theorem dieAt_enterFloor_ne (s : State) {k j : Nat} (h : j ≠ k) : dieAt (enterFloor s k) j = dieAt s j := by
  rw [dieAt_congr (enterFloor_dies s k), dieAt_steer_ne _ h, dieAt_modDie_ne h]

/-- A listed die that enters its floor, as its controller has steered it. -/
theorem dieAt_floored {s : State} {k : Nat} (h : ∃ d ∈ s.dies, d.code = k) :
    ∃ v, dieAt (steer (modDie s k fun d => d.floored k s.time) k) k = { (dieAt s k).floored k s.time with millivolts := v } := by
  rw [dieAt_steer_self (listed_modDie h), dieAt_modDie_self h]
  exact ⟨_, rfl⟩

theorem dieAt_enterFloor_self {s : State} {k : Nat} (h : ∃ d ∈ s.dies, d.code = k) :
    ∃ v, dieAt (enterFloor s k) k = { (dieAt s k).floored k s.time with millivolts := v } := by
  rw [dieAt_congr (enterFloor_dies s k)]
  exact dieAt_floored h

/-- A die that draws more than its floor even at 0.62 V is logged (R29). -/
theorem enterFloor_toll {s : State} {k : Nat} (h : ∃ d ∈ s.dies, d.code = k) : (enterFloor s k).toll =
    if isPier k ∧ floorOf k < (dieAt s k).draws.headD 0 then
      (logError s 0x0041 0 sevWarning srcPier (k % 16) 0xFF [k, (dieAt s k).draws.headD 0]).toll
    else s.toll := by
  have unfolded : enterFloor s k = (let u := steer (modDie s k fun d => d.floored k s.time) k
    if overBudget (dieAt u k) then logError u 0x0041 0 sevWarning srcPier (k % 16) 0xFF [k, (dieAt u k).draws.headD 0] else u) := rfl
  obtain ⟨v, hdie⟩ := dieAt_floored h
  have exceeds : overBudget (dieAt (steer (modDie s k fun d => d.floored k s.time) k) k)
      = decide (isPier k = true ∧ floorOf k < (dieAt s k).draws.headD 0) := by
    rw [hdie]
    simp [overBudget, Die.floored]
  have draws : (dieAt (steer (modDie s k fun d => d.floored k s.time) k) k).draws = (dieAt s k).draws := by rw [hdie]; rfl
  rw [unfolded]
  dsimp only
  rw [exceeds, draws]
  by_cases hc : isPier k = true ∧ floorOf k < (dieAt s k).draws.headD 0
  · rw [if_pos hc, if_pos (decide_eq_true hc)]
    exact logError_congr (s := s) (u := steer (modDie s k fun d => d.floored k s.time) k) rfl rfl ..
  · rw [if_neg hc, if_neg (by simpa using hc)]
    rfl

end Sys2Proof.Machine

/-! SUPPORT. Power tables, budget messages, reports and misses (01 R24 to R26, R29, 15 R375 to R377, 16 R399). -/

namespace Sys2Proof.Machine

/-! ### Power tables (R25, R399) -/

theorem loadTable_accepts {s : State} {p : List Byte} (h : powerTableOk s.pkg.orderB p = true) :
    loadTable s p = ({ s with toll := { s.toll with table := powerTableOf p, epoch := s.toll.epoch + 1 } }, stOk) := if_pos h

theorem loadTable_refuses {s : State} {p : List Byte} (h : powerTableOk s.pkg.orderB p = false) : loadTable s p = (s, stBadParam) :=
  if_neg (by simp [h])

/-- A budget above its ceiling, or a sum above the envelope, spoils a table (R25). -/
theorem powerTableOk_limits {b : Bool} {p : List Byte}
    (h : (∃ d ∈ dieCodes, ceilingOf b d < (powerTableOf p).getD (tableIndex d) 0) ∨ envelope b < (powerTableOf p).sum + reservedPower) :
    powerTableOk b p = false := by
  by_contra hok
  simp only [powerTableOk, Bool.not_eq_false, Bool.and_eq_true, List.all_eq_true, decide_eq_true_eq] at hok
  obtain ⟨⟨-, hceiling⟩, hsum⟩ := hok
  rcases h with ⟨d, hd, hlt⟩ | hlt
  · exact absurd (hceiling d hd) (by omega)
  · omega

theorem exec_powerTableLoad {s : State} {q seq : Nat} {c : Taken} (h : ready s q seq 0x0103 = some c) :
    exec (.powerTableLoad q seq) s =
      .next (finish (loadTable (start s q seq) c.payload).1 q seq (loadTable (start s q seq) c.payload).2 []) :=
  congrArg Host.Outcome.next (onCmd_ready h _)

/-! ### Sending budgets (R375, R377) -/

/-- A die to which a message has been sent. -/
def Die.sent (d : Die) : Die :=
  { d with sendSeq := (d.sendSeq + 1) % 65536, awaiting := true, silent := if d.awaiting then d.silent + 1 else d.silent }

theorem budgetMessage_congr {s u : State} (ht : u.toll.table = s.toll.table) (he : u.toll.epoch = s.toll.epoch) (d : Die) :
    budgetMessage u d = budgetMessage s d := by
  simp only [budgetMessage, budgetFor, ht, he]

/-- The message of a die is on its way: the state before a third report missing in a row is logged. -/
def messageSent (s : State) (d : Die) : State :=
  modDie { s with toll := { s.toll with messages := s.toll.messages ++ [budgetMessage s d] } } d.code fun x =>
    { x with sendSeq := (x.sendSeq + 1) % 65536, awaiting := true, silent := if d.awaiting then d.silent + 1 else d.silent }

theorem sendBudget_eq (s : State) (d : Die) : sendBudget s d =
    if (d.awaiting && d.sent.silent == 3) = true then
      logError (messageSent s d) 0x0041 0 sevWarning (if isPier d.code then srcPier else srcPylon) (d.code % 16) 0xFF [d.code, d.draw]
    else messageSent s d := rfl

/-- Sending one message changes the dies and Tollhouse. -/
theorem sendBudget_parts (s : State) (d : Die) :
    sendBudget s d = { s with dies := (messageSent s d).dies, toll := (sendBudget s d).toll } := by
  rw [sendBudget_eq]
  by_cases h : (d.awaiting && d.sent.silent == 3) = true
  · rw [if_pos h, logError_toll]
    rfl
  · rw [if_neg h]
    rfl

theorem sendBudget_toll (s : State) (d : Die) : (sendBudget s d).toll.messages = s.toll.messages ++ [budgetMessage s d]
    ∧ (sendBudget s d).toll.table = s.toll.table ∧ (sendBudget s d).toll.epoch = s.toll.epoch := by
  rw [sendBudget_eq]
  by_cases h : (d.awaiting && d.sent.silent == 3) = true
  · rw [if_pos h, logError_messages, logError_table, logError_epoch]
    exact ⟨rfl, rfl, rfl⟩
  · rw [if_neg h]
    exact ⟨rfl, rfl, rfl⟩

/-- Of Tollhouse only the messages change while the die has answered. -/
theorem sendBudget_answered {s : State} {d : Die} (h : d.awaiting = false) :
    (sendBudget s d).toll = { s.toll with messages := (sendBudget s d).toll.messages } := by
  rw [sendBudget_eq, if_neg (by simp [h])]
  rfl

/-- A message in a list of dies changes the one die of its code. -/
theorem sendBudget_dies {s : State} {before behind : List Die} {d : Die} (hs : s.dies = before ++ d :: behind)
    (hcodes : ((before ++ d :: behind).map (·.code)).Nodup) : (sendBudget s d).dies = before ++ d.sent :: behind := by
  rw [List.map_append, List.map_cons, List.nodup_append] at hcodes
  obtain ⟨-, hbehind, hapart⟩ := hcodes
  have kept : ∀ l : List Die, (∀ e ∈ l, e.code ≠ d.code) → ∀ f : Die → Die, (l.map fun e => if e.code = d.code then f e else e) = l := by
    intro l hl f
    conv_rhs => rw [← List.map_id l]
    exact List.map_congr_left fun e he => if_neg (hl e he)
  rw [sendBudget_parts]
  show s.dies.map _ = _
  rw [hs, List.map_append, List.map_cons, if_pos rfl, kept before fun e he => hapart _ (List.mem_map_of_mem he) _ (by simp),
    kept behind fun e he hc => (List.nodup_cons.1 hbehind).1 (hc ▸ List.mem_map_of_mem (f := fun d : Die => d.code) he)]
  rfl

theorem sendBudgets_parts (ds : List Die) (s : State) : ds.foldl sendBudget s =
    { s with dies := (ds.foldl sendBudget s).dies, toll := (ds.foldl sendBudget s).toll } := by
  induction ds generalizing s with
  | nil => rfl
  | cons d ds ih => rw [List.foldl_cons, ih, sendBudget_parts]

theorem sendBudgets_messages (ds : List Die) (s : State) :
    (ds.foldl sendBudget s).toll.messages = s.toll.messages ++ ds.map (budgetMessage s) := by
  induction ds generalizing s with
  | nil => simp
  | cons d ds ih =>
    obtain ⟨hmessages, htable, hepoch⟩ := sendBudget_toll s d
    have same : ds.map (budgetMessage (sendBudget s d)) = ds.map (budgetMessage s) :=
      List.map_congr_left fun e _ => budgetMessage_congr htable hepoch e
    rw [List.foldl_cons, ih, hmessages, same, List.map_cons, List.append_assoc]
    rfl

theorem sendBudgets_answered {ds : List Die} (h : ∀ d ∈ ds, d.awaiting = false) (s : State) :
    (ds.foldl sendBudget s).toll = { s.toll with messages := (ds.foldl sendBudget s).toll.messages } := by
  induction ds generalizing s with
  | nil => rfl
  | cons d ds ih => rw [List.foldl_cons, ih (fun e he => h e (by simp [he])), sendBudget_answered (h d (by simp))]

/-- What the send timer makes of a die. -/
def Die.addressed (d : Die) : Die := if d.released then d.sent else d

@[simp] theorem Die.addressed_code (d : Die) : d.addressed.code = d.code := by
  unfold Die.addressed
  split <;> rfl

/-- Dies are sent their messages one after another: those before have theirs, those behind are as they were. -/
theorem sendBudgets_dies (rest done : List Die) (s : State) (hs : s.dies = done.map Die.addressed ++ rest)
    (hcodes : ((done ++ rest).map (·.code)).Nodup) :
    ((rest.filter (·.released)).foldl sendBudget s).dies = (done ++ rest).map Die.addressed := by
  induction rest generalizing done s with
  | nil => simpa using hs
  | cons d rest ih =>
    have step : ∀ u : State, u.dies = done.map Die.addressed ++ d.addressed :: rest →
        ((rest.filter (·.released)).foldl sendBudget u).dies = (done ++ d :: rest).map Die.addressed := by
      intro u hu
      simpa using ih (done ++ [d]) u (by simpa using hu) (by simpa using hcodes)
    cases hr : d.released with
    | false =>
      rw [List.filter_cons_of_neg (by simp [hr])]
      exact step s (by simpa [Die.addressed, hr] using hs)
    | true =>
      rw [List.filter_cons_of_pos hr, List.foldl_cons]
      refine step _ ?_
      rw [sendBudget_dies hs (by simpa [Function.comp_def] using hcodes), Die.addressed, if_pos hr]

/-- The send timer of a powered package (R377). -/
theorem exec_budgetSendTimer {s : State} (h : powered s = true) :
    exec .budgetSendTimer s = .next ((s.dies.filter (·.released)).foldl sendBudget s) := congrArg Host.Outcome.next (if_pos h)

theorem budgetSendTimer_sends {s : State} (hp : powered s = true) (hs : s.dies.map (·.code) = dieCodes) :
    ∃ t, exec .budgetSendTimer s = .next t ∧ t.toll.messages = s.toll.messages ++ (s.dies.filter (·.released)).map (budgetMessage s)
      ∧ t.dies = s.dies.map Die.addressed
      ∧ ((∀ d ∈ s.dies, d.released = true → d.awaiting = false) →
          t = { s with toll := { s.toll with messages := t.toll.messages }, dies := t.dies }) := by
  refine ⟨_, exec_budgetSendTimer hp, sendBudgets_messages .., ?_, fun h => ?_⟩
  · exact sendBudgets_dies s.dies [] s rfl (hs ▸ dieCodes_nodup)
  · have answered : ∀ d ∈ s.dies.filter (·.released), d.awaiting = false := fun d hd =>
      h d (List.mem_of_mem_filter hd) (List.mem_filter.1 hd).2
    rw [← sendBudgets_answered answered]
    exact sendBudgets_parts ..

end Sys2Proof.Machine

/-! SUPPORT. What a die makes of budget messages, reports and misses (01 R24, R29, 15 R375 to R377, 16 R399). -/

namespace Sys2Proof.Machine

/-! ### A die takes a message (R375, R376) -/

/-- What a valid message makes of the listed die x, where the die that takes it is d: the change before the controller steers. -/
def Die.hear (d : Die) (m : List Byte) (draws : List Nat) (now : Nat) (x : Die) : Die :=
  { x with
    budget := if d.sensorFloor then floorOf d.code else field m 4 2, given := field m 4 2, lastSeq := some (field m 2 2), misses := 0
    atFloor := d.sensorFloor, floorEntered := d.sensorFloor && x.floorEntered, heardAt := now, draws }

/-- The listed die x after the message, steered to the voltage that the controller finds for d. -/
def Die.steered (d : Die) (s : State) (m : List Byte) (draws : List Nat) (x : Die) : Die :=
  { d.hear m draws s.time x with millivolts := commandedVolts s (d.hear m draws s.time d) }

theorem commandedVolts_congr {s u : State} (h : u.free = s.free) (d : Die) : commandedVolts u d = commandedVolts s d := by
  simp only [commandedVolts, freeBelow, h]

theorem drawOf_congr {s u : State} (h : u.free = s.free) (d : Die) : drawOf u d = drawOf s d := by
  simp only [drawOf, h]

/-- The state in which a die acts on a message: unless failed sensors hold it at its floor, its time there is over. -/
def offFloor (s : State) (d : Die) : State := if d.sensorFloor then s else leaveFloor s d

theorem offFloor_parts (s : State) (d : Die) :
    offFloor s d = { s with counters := (offFloor s d).counters, toll := (offFloor s d).toll } := by
  unfold offFloor
  split
  · rfl
  · exact leaveFloor_parts s d

theorem offFloor_logOnly (s : State) (d : Die) : LogOnly s.toll (offFloor s d).toll := by
  unfold offFloor
  split
  · exact .refl _
  · exact leaveFloor_logOnly s d

/-- The log after a die has acted on a message: an entry to the floor that ends is recorded (R377). -/
theorem offFloor_log (s : State) (d : Die) : (offFloor s d).toll =
    if d.atFloor ∧ d.floorEntered ∧ d.sensorFloor = false then
      (logError s 0x0040 0 sevWarning (if isPier d.code then srcPier else srcPylon) (d.code % 16) 0xFF
        [d.code, (s.time - d.floorSince) / 1000]).toll
    else s.toll := by
  unfold offFloor
  cases hf : d.sensorFloor with
  | true => simp
  | false =>
    simp only [Bool.false_eq_true, if_false, and_true]
    cases ha : d.atFloor with
    | false => simp [leaveFloor_idle ha]
    | true =>
      cases he : d.floorEntered with
      | false => simp [leaveFloor_unentered he]
      | true => simp [leaveFloor_entered ha he]

theorem takeMessage_invalid {s : State} {d : Die} {m : List Byte} (h : messageOk s.pkg.orderB d m = false) (draws : List Nat) :
    takeMessage s d m draws = modDie s d.code fun d => { d with discards := d.discards + 1 } := if_neg (by simp [h])

/-- What a valid message makes of the state: the die as it has heard it and steered, and its report. -/
theorem takeMessage_valid {s : State} {d : Die} {m : List Byte} {draws : List Nat} (hs : s.dies.map (·.code) = dieCodes) (hk : d.code ∈ dieCodes)
    (hd : dieAt s d.code = d) (h : messageOk s.pkg.orderB d m = true) : ∃ r u,
      takeMessage s d m draws = { modDie (offFloor s d) d.code (d.steered s m draws) with
        toll := { (offFloor s d).toll with reports := s.toll.reports ++ [r] }, free := s.free + 3 }
      ∧ u.free = s.free + 1 ∧ r = budgetReport u { d with draws } (d.steered s m draws d) m := by
  have hparts := offFloor_parts s d
  have hdies : (offFloor s d).dies = s.dies := by rw [hparts]
  have hfree : (offFloor s d).free = s.free := by rw [hparts]
  have htime : (offFloor s d).time = s.time := by rw [hparts]
  have hreports : (offFloor s d).toll.reports = s.toll.reports := by rw [offFloor_logOnly]
  have hdie : dieAt (offFloor s d) d.code = d := (dieAt_congr hdies _).trans hd
  have hlisted : ∃ e ∈ (offFloor s d).dies, e.code = d.code := by
    rw [hdies]
    exact die_listed hs hk
  -- the die applies the message, then its controller steers, then it reports
  have heard : takeMessage s d m draws = (let u := steer (modDie (offFloor s d) d.code (d.hear m draws (offFloor s d).time)) d.code
      freeUsed { u with toll := { u.toll with reports := u.toll.reports ++ [budgetReport u { d with draws } (dieAt u d.code) m] } } 2) := if_pos h
  have applied : dieAt (modDie (offFloor s d) d.code (d.hear m draws s.time)) d.code = d.hear m draws s.time d := by
    rw [dieAt_modDie_self hlisted, hdie]
  have volts : commandedVolts (modDie (offFloor s d) d.code (d.hear m draws s.time)) (d.hear m draws s.time d)
      = commandedVolts s (d.hear m draws s.time d) := commandedVolts_congr hfree _
  have steered : steer (modDie (offFloor s d) d.code (d.hear m draws s.time)) d.code
      = modDie (freeUsed (offFloor s d) 1) d.code (d.steered s m draws) := by
    rw [steer_eq (by rw [modDie_codes, hdies, hs]), applied, volts]
    exact modDie_modDie (s := freeUsed (offFloor s d) 1)
  have reporting : dieAt (modDie (freeUsed (offFloor s d) 1) d.code (d.steered s m draws)) d.code = d.steered s m draws d := by
    rw [dieAt_modDie_self (s := freeUsed (offFloor s d) 1) hlisted]
    exact congrArg (d.steered s m draws) hdie
  refine ⟨_, modDie (freeUsed (offFloor s d) 1) d.code (d.steered s m draws), ?_, congrArg (· + 1) hfree, rfl⟩
  rw [heard, htime]
  dsimp only
  rw [steered, reporting, ← hreports, ← hfree]
  rfl

theorem exec_budgetMessage {s : State} {k : Nat} (hr : (dieAt s k).released = true) (m : List Byte) (draws : List Nat) :
    exec (.budgetMessage k m draws) s =
      .next (takeMessage { s with toll := { s.toll with messages := s.toll.messages.erase m } } (dieAt s k) m draws) :=
  congrArg Host.Outcome.next (if_pos hr)

/-- The voltage of a Pier die that has taken a message is the highest step that its budget allows, or lower while throttled (R26, R29). -/
theorem steered_volts {s : State} {d : Die} {m : List Byte} {draws : List Nat} (hp : isPier d.code = true) (hne : draws ≠ [])
    (hf : d.sensorFloor = false) : ∃ i, i < 57 ∧ (∀ j w, i < j → j < 57 → draws[j]? = some w → field m 4 2 < w)
      ∧ (i = 0 ∨ ∃ w, draws[i]? = some w ∧ w ≤ field m 4 2)
      ∧ if d.throttled = true ∧ 0 < i then 620 ≤ (d.steered s m draws d).millivolts ∧ (d.steered s m draws d).millivolts < 620 + 5 * i
        else (d.steered s m draws d).millivolts = 620 + 5 * i := by
  have budget : (d.hear m draws s.time d).budget = field m 4 2 := by simp [Die.hear, hf]
  obtain ⟨hlt, habove, hat⟩ := budgetStep_highest (d := d.hear m draws s.time d) hne
  rw [budget] at habove hat
  refine ⟨_, hlt, habove, hat, ?_⟩
  split
  · rename_i ht
    exact commandedVolts_throttled (d := d.hear m draws s.time d) hp ht.1 ht.2
  · rename_i ht
    exact commandedVolts_free (d := d.hear m draws s.time d) hp ht

/-- A valid message to a die that stands off its floor (R375 to R377). -/
theorem budgetMessage_takes {s u : State} {d : Die} {m : List Byte} {draws : List Nat} (hs : s.dies.map (·.code) = dieCodes)
    (hk : d.code ∈ dieCodes) (hd : dieAt s d.code = d) (hr : d.released = true)
    (hu : u = { s with toll := { s.toll with messages := s.toll.messages.erase m } }) (hok : messageOk s.pkg.orderB d m = true)
    (ha : d.atFloor = false) (hf : d.sensorFloor = false) :
    ∃ r v, exec (.budgetMessage d.code m draws) s = .next { modDie u d.code (fun d =>
          { d with budget := field m 4 2, given := field m 4 2, lastSeq := some (field m 2 2), misses := 0, atFloor := false, floorEntered := false
                   heardAt := s.time, draws, millivolts := v }) with
            toll := { u.toll with reports := s.toll.reports ++ [r] }, free := s.free + 3 }
        ∧ checkOk r = true ∧ field r 0 1 = 0x22 ∧ field r 1 1 = d.code ∧ field r 2 2 = field m 2 2
        ∧ field r 4 2 = drawOf { s with free := s.free + 1 } { d with draws } % 65536 ∧ field r 6 2 = v % 65536
        ∧ bit (field r 10 1) 0 = false ∧ bit (field r 10 1) 1 = (isPier d.code && decide (field m 4 2 < draws.headD 0))
        ∧ (isPier d.code = true → draws ≠ [] → ∃ i, i < 57 ∧ (∀ j w, i < j → j < 57 → draws[j]? = some w → field m 4 2 < w)
          ∧ (i = 0 ∨ ∃ w, draws[i]? = some w ∧ w ≤ field m 4 2)
          ∧ if d.throttled = true ∧ 0 < i then 620 ≤ v ∧ v < 620 + 5 * i else v = 620 + 5 * i) := by
  have hcode : d.code < 256 := by
    have : ∀ k ∈ dieCodes, k < 256 := by decide
    exact this _ hk
  obtain ⟨r, w, htake, hfree, hreport⟩ := takeMessage_valid (s := u) (draws := draws) (by rw [hu]; exact hs) hk (by rw [hu]; exact hd) (by rw [hu]; exact hok)
  obtain ⟨hcheck, htype, hdie, hseq, hdraw, hvolts, hflags⟩ := budgetReport_fields _ _ _ _ r hreport
  have off : offFloor u d = u := by rw [offFloor, hf, if_neg (by simp), leaveFloor_idle ha]
  refine ⟨r, (d.steered u m draws d).millivolts, ?_, hcheck, htype, hdie.trans (Nat.mod_eq_of_lt hcode),
    hseq.trans (Nat.mod_eq_of_lt (field_two_lt m 2)), ?_, hvolts, ?_, ?_, fun hp hne => steered_volts hp hne hf⟩
  · rw [exec_budgetMessage (by rw [hd]; exact hr), hd, ← hu, htake, off]
    congr 1
    have same := modDie_congr (s := u) (by rw [hu]; exact hs) (k := d.code) (f := d.steered u m draws) (g := fun x =>
      { x with budget := field m 4 2, given := field m 4 2, lastSeq := some (field m 2 2), misses := 0, atFloor := false, floorEntered := false
               heardAt := s.time, draws, millivolts := (d.steered u m draws d).millivolts }) (by simp [Die.steered, Die.hear, hf, hu])
    rw [same, hu]
  · rw [hdraw]
    exact congrArg (· % 65536) (drawOf_congr (by rw [hfree, hu]) _)
  · rw [hflags, (bit_flags ..).1]
    exact ha
  · have hover : overBudget (d.steered u m draws d) = (isPier d.code && decide (field m 4 2 < draws.headD 0)) := by
      simp [overBudget, Die.steered, Die.hear, hf]
    rw [hflags, (bit_flags ..).2, hover]

/-- What any valid message does to the dies and the log. -/
theorem budgetMessage_dies {s u : State} {d : Die} {m : List Byte} {draws : List Nat} (hs : s.dies.map (·.code) = dieCodes)
    (hk : d.code ∈ dieCodes) (hd : dieAt s d.code = d) (hr : d.released = true)
    (hu : u = { s with toll := { s.toll with messages := s.toll.messages.erase m } }) (hok : messageOk s.pkg.orderB d m = true) :
    ∃ t, exec (.budgetMessage d.code m draws) s = .next t
      ∧ (dieAt t d.code).budget = (if d.sensorFloor then floorOf d.code else field m 4 2) ∧ (dieAt t d.code).atFloor = d.sensorFloor
      ∧ (dieAt t d.code).misses = 0 ∧ (∀ k, k ≠ d.code → dieAt t k = dieAt s k)
      ∧ t.toll.log = (if d.atFloor ∧ d.floorEntered ∧ d.sensorFloor = false then
          (logError u 0x0040 0 sevWarning (if isPier d.code then srcPier else srcPylon) (d.code % 16) 0xFF
            [d.code, (s.time - d.floorSince) / 1000]).toll.log else s.toll.log) := by
  obtain ⟨r, w, htake, -, -⟩ := takeMessage_valid (s := u) (draws := draws) (by rw [hu]; exact hs) hk (by rw [hu]; exact hd) (by rw [hu]; exact hok)
  have hdies : (offFloor u d).dies = s.dies := by
    rw [offFloor_parts, hu]
  have steered : dieAt (modDie (offFloor u d) d.code (d.steered u m draws)) d.code = d.steered u m draws d := by
    rw [dieAt_modDie_self (by rw [hdies]; exact die_listed hs hk), dieAt_congr hdies, hd]
  refine ⟨_, (exec_budgetMessage (by rw [hd]; exact hr) m draws).trans (by rw [hd, ← hu, htake]), ?_, ?_, ?_, fun k hne => ?_, ?_⟩
  · exact congrArg Die.budget steered
  · exact congrArg Die.atFloor steered
  · exact congrArg Die.misses steered
  · exact (dieAt_modDie_ne (s := offFloor u d) hne).trans (dieAt_congr hdies k)
  · have hlog := congrArg Tollhouse.log (offFloor_log u d)
    rw [apply_ite Tollhouse.log] at hlog
    have htime : u.time = s.time := by rw [hu]
    have hold : u.toll.log = s.toll.log := by rw [hu]
    rw [htime, hold] at hlog
    exact hlog

/-! ### Tollhouse takes a report (R376, R399) -/

theorem exec_budgetReport {s u : State} {m : List Byte} (hu : u = { s with toll := { s.toll with reports := s.toll.reports.erase m } })
    (hc : checkOk m = true) (ht : field m 0 1 = 0x22) (hk : field m 1 1 ∈ dieCodes) (hr : (dieAt s (field m 1 1)).released = true) :
    exec (.budgetReport m) s = .next (let v := modDie u (field m 1 1) fun d => { d with draw := field m 4 2, awaiting := false, silent := 0 }
      if bit (field m 10 1) 1 then
        logError v 0x0041 0 sevWarning (if isPier (field m 1 1) then srcPier else srcPylon) (field m 1 1 % 16) 0xFF [field m 1 1, field m 4 2]
      else v) := by
  subst hu
  have released : (dieAt { s with toll := { s.toll with reports := s.toll.reports.erase m } } (field m 1 1)).released = true := hr
  exact congrArg Host.Outcome.next (if_pos (by simp [hc, ht, hk, released]))

theorem exec_budgetReport_bad {s u : State} {m : List Byte} (hu : u = { s with toll := { s.toll with reports := s.toll.reports.erase m } })
    (hc : checkOk m = false) : exec (.budgetReport m) s = .next u := by
  subst hu
  exact congrArg Host.Outcome.next (if_neg (by simp [hc]))

/-! ### Missed messages (R377) -/

/-- A released die after a time without a valid message. -/
theorem exec_budgetMiss {s u : State} {k : Nat} (hr : (dieAt s k).released = true) (hu : u = advanceTo s ((dieAt s k).heardAt + 275000)) :
    exec (.budgetMiss k) s = .next (let v := modDie u k fun d => { d with misses := d.misses + 1, heardAt := u.time }
      if 1 ≤ (dieAt s k).misses then enterFloor v k else v) := by
  subst hu
  exact congrArg Host.Outcome.next (if_pos hr)

/-- The second miss in a row brings the floor. -/
theorem budgetMiss_floors {s u : State} {k : Nat} {d : Die} (hd : d = dieAt s k) (hr : d.released = true)
    (hu : u = advanceTo s (d.heardAt + 275000)) (hm : 1 ≤ d.misses) :
    ∃ t, exec (.budgetMiss k) s = .next t ∧ t = { u with dies := t.dies, toll := t.toll, free := u.free + 1 }
      ∧ (dieAt t k).budget = floorOf k
      ∧ t.toll = (if isPier k ∧ floorOf k < d.draws.headD 0 then
          (logError u 0x0041 0 sevWarning srcPier (k % 16) 0xFF [k, d.draws.headD 0]).toll else u.toll)
      ∧ (dieAt t k).atFloor = true ∧ (dieAt t k).misses = d.misses + 1 ∧ ∀ j, j ≠ k → dieAt t j = dieAt s j := by
  have hdies : u.dies = s.dies := by rw [hu, (advanceTo_parts s _).1]
  have hlisted : ∃ e ∈ u.dies, e.code = k := by
    rw [hdies]
    exact ⟨_, dieAt_listed (hd ▸ hr), dieAt_code s k⟩
  have hdie : dieAt u k = d := (dieAt_congr hdies k).trans hd.symm
  have missed : dieAt (modDie u k fun d => { d with misses := d.misses + 1, heardAt := u.time }) k
      = { d with misses := d.misses + 1, heardAt := u.time } := by rw [dieAt_modDie_self hlisted, hdie]
  obtain ⟨v, hfloor⟩ := dieAt_enterFloor_self (listed_modDie (k := k) (f := fun d => { d with misses := d.misses + 1, heardAt := u.time }) hlisted)
  rw [missed] at hfloor
  refine ⟨_, (exec_budgetMiss (hd ▸ hr) (hd ▸ hu)).trans (congrArg _ (if_pos (hd ▸ hm))), enterFloor_parts .., ?_, ?_, ?_, ?_, fun j hj => ?_⟩
  · exact congrArg Die.budget hfloor
  · rw [enterFloor_toll (listed_modDie hlisted), missed]
    split
    · exact logError_congr (s := u) (u := modDie u k _) rfl rfl ..
    · rfl
  · exact congrArg Die.atFloor hfloor
  · exact congrArg Die.misses hfloor
  · rw [dieAt_enterFloor_ne _ hj, dieAt_modDie_ne hj, dieAt_congr hdies]

/-- Settles O50: the table, the send timer, the message at a die, its report at Tollhouse, and the misses. -/
theorem powerTablesAndBudgets : Obligations.PowerTablesAndBudgets := by
  unfold Obligations.PowerTablesAndBudgets
  refine ⟨fun s q seq c h => ⟨fun hok => ?accept, fun hbad => ?refuse⟩, fun s hp hs => ?send,
    fun s u code draws m d hs hk hd hr hu => ?message, fun s u m code hcode hu => ?report, fun s u code d hd hr hu => ⟨fun hm => ?miss, fun hm => ?floor⟩⟩
  case accept => rw [exec_powerTableLoad h, loadTable_accepts (s := start s q seq) hok]; rfl
  case refuse => rw [exec_powerTableLoad h, loadTable_refuses (s := start s q seq) (powerTableOk_limits hbad)]
  case send =>
    obtain ⟨t, ht, hmessages, hdies, hanswered⟩ := budgetSendTimer_sends hp hs
    refine ⟨t, ht, hmessages, hdies, hanswered, fun d hd hseq => ?_⟩
    obtain ⟨hcheck, htype, hdie, hnumber, hbudget, hfloor⟩ := budgetMessage_fields s d
    have small : ∀ k ∈ dieCodes, k % 256 = k ∧ floorOf k % 65536 = floorOf k := by decide
    obtain ⟨hcode, hfloorOf⟩ := small _ (code_mem_dieCodes hs hd)
    exact ⟨hcheck, htype, hdie.trans hcode, hnumber.trans (Nat.mod_eq_of_lt hseq), hbudget, hfloor.trans hfloorOf⟩
  case message =>
    obtain rfl : d.code = code := by rw [hd, dieAt_code]
    refine ⟨fun hbad => ?_, fun hok ha hf => budgetMessage_takes hs hk hd.symm hr hu hok ha hf,
      fun hok => budgetMessage_dies hs hk hd.symm hr hu hok⟩
    rw [exec_budgetMessage (hd ▸ hr), ← hu, ← hd, takeMessage_invalid (by rw [hu]; exact hbad)]
  case report =>
    subst hcode
    refine ⟨fun hc ht hk hr hb => ?_, fun hc ht hk hr hb => ?_, exec_budgetReport_bad hu⟩
    · rw [exec_budgetReport hu hc ht hk hr, hb]
      rfl
    · rw [exec_budgetReport hu hc ht hk hr, hb]
      rfl
  case miss =>
    rw [exec_budgetMiss (hd ▸ hr) (hd ▸ hu), ← hd, if_neg (by omega)]
  case floor => exact budgetMiss_floors hd hr hu hm

end Sys2Proof.Machine

/-! SUPPORT. Sensors and thermal control: readings, the throttle of the dies, alerts (01 R26, R31, 16 R397, R398). -/

namespace Sys2Proof.Machine

theorem mem_insertNat {l : List Nat} {n m : Nat} : m ∈ insertNat l n ↔ m = n ∨ m ∈ l := by
  induction l with
  | nil => simp [insertNat]
  | cons k l ih =>
    unfold insertNat
    split
    · simp
    · split
      · rename_i h
        simp [h]
      · simp [ih, or_left_comm]

theorem insertNat_ne_nil (l : List Nat) (n : Nat) : insertNat l n ≠ [] := List.ne_nil_of_mem (mem_insertNat.2 (.inl rfl))

/-! ### Readings (R397) -/

theorem find_putReading (l : List SensorState) (x : Sensor) (v : Int) : (putReading l x v).find? (fun y => y.sensor = x) =
    some { sensor := x, reading := v, failed := ((l.find? fun y => y.sensor = x).map (·.failed)).getD false } := by
  induction l with
  | nil => simp [putReading]
  | cons y l ih =>
    unfold putReading
    by_cases h : y.sensor = x <;> simp [h, ih]

/-- A sensor that has not failed reads as it was last read. -/
theorem reading_putReading {s u : State} {x : Sensor} {v : Int} (hx : hasFailed s x = false)
    (hu : u.toll.sensors = putReading s.toll.sensors x v) : reading u x = some v := by
  have working : ((s.toll.sensors.find? fun y => y.sensor = x).map (·.failed)).getD false = false := by
    cases hf : s.toll.sensors.find? fun y => decide (y.sensor = x) with
    | none => rfl
    | some y =>
      have hmem := List.mem_of_find?_eq_some hf
      have hsensor : y.sensor = x := by simpa using List.find?_some hf
      simpa [hsensor] using List.any_eq_false.1 hx y hmem
  simp [reading, hu, find_putReading, working]

theorem any_putFailed (l : List SensorState) (x : Sensor) : (putFailed l x).any (fun y => y.sensor == x && y.failed) = true := by
  induction l with
  | nil => simp [putFailed]
  | cons y l ih =>
    unfold putFailed
    by_cases h : y.sensor = x <;> simp [h, ih]

theorem hasFailed_congr {s u : State} (h : u.toll.sensors = s.toll.sensors) (x : Sensor) : hasFailed u x = hasFailed s x := by
  rw [hasFailed, hasFailed, h]

/-! ### The throttle (R26, R31) -/

/-- A die whose throttle has been set: its voltage stays where the throttle did, and is commanded anew where it changed. -/
def Throttled (on : Bool) (d e : Die) : Prop :=
  ∃ v, e = { d with throttled := on, millivolts := v } ∧ (d.throttled = on → v = d.millivolts)
    ∧ (d.throttled ≠ on → ∃ u, v = commandedVolts u { d with throttled := on })

theorem throttle_parts (on : Bool) (s : State) (k : Nat) : throttle on s k = { s with dies := (throttle on s k).dies, free := (throttle on s k).free } := by
  unfold throttle
  split <;> rfl

theorem throttle_codes (on : Bool) (s : State) (k : Nat) : (throttle on s k).dies.map (·.code) = s.dies.map (·.code) := by
  unfold throttle
  split
  · rfl
  · exact (modDie_codes (s := freeUsed (modDie s k _) 1)).trans (modDie_codes (s := s))

theorem dieAt_throttle_ne (on : Bool) (s : State) {k j : Nat} (h : j ≠ k) : dieAt (throttle on s k) j = dieAt s j := by
  unfold throttle
  split
  · rfl
  · rw [dieAt_steer_ne _ h, dieAt_modDie_ne h]

theorem dieAt_throttle_self (on : Bool) {s : State} {k : Nat} (h : ∃ d ∈ s.dies, d.code = k) :
    Throttled on (dieAt s k) (dieAt (throttle on s k) k) := by
  unfold throttle
  split
  · rename_i he
    exact ⟨(dieAt s k).millivolts, by rw [← he], fun _ => rfl, fun hne => absurd he hne⟩
  · rename_i hne
    rw [dieAt_steer_self (listed_modDie h), dieAt_modDie_self h]
    exact ⟨_, rfl, fun he => absurd he hne, fun _ => ⟨_, rfl⟩⟩

theorem throttles_parts (on : Bool) (ks : List Nat) (s : State) : ks.foldl (throttle on) s =
    { s with dies := (ks.foldl (throttle on) s).dies, free := (ks.foldl (throttle on) s).free } := by
  induction ks generalizing s with
  | nil => rfl
  | cons k ks ih => rw [List.foldl_cons, ih, throttle_parts]

/-- Setting the throttle of several dies, each once, sets it of these and leaves the others. -/
theorem dieAt_throttles (on : Bool) {ks : List Nat} (hks : ks.Nodup) {s : State} (h : ∀ k ∈ ks, k ∈ s.dies.map (·.code)) (j : Nat) :
    (j ∈ ks → Throttled on (dieAt s j) (dieAt (ks.foldl (throttle on) s) j)) ∧ (j ∉ ks → dieAt (ks.foldl (throttle on) s) j = dieAt s j) := by
  induction ks generalizing s with
  | nil => simp
  | cons k ks ih =>
    obtain ⟨hk, hks⟩ := List.nodup_cons.1 hks
    obtain ⟨hset, hleft⟩ := ih hks (s := throttle on s k) fun i hi => by
      rw [throttle_codes]
      exact h i (by simp [hi])
    rw [List.foldl_cons]
    refine ⟨fun hj => ?_, fun hj => ?_⟩
    · rcases List.mem_cons.1 hj with rfl | hj
      · rw [hleft hk]
        exact dieAt_throttle_self on (by simpa using h j (by simp))
      · have hne : j ≠ k := fun e => hk (e ▸ hj)
        rw [← dieAt_throttle_ne on s hne]
        exact hset hj
    · rw [List.mem_cons, not_or] at hj
      rw [hleft hj.2, dieAt_throttle_ne on s hj.1]

/-! ### Alerts (R31) -/

theorem showAlert_parts (s : State) : showAlert s = { s with
    pkg := { s.pkg with alert := !s.toll.alerting.isEmpty }, dies := (showAlert s).dies, free := (showAlert s).free } := by
  unfold showAlert
  dsimp only
  rw [throttles_parts]

/-- Of a listed die an alert changes the throttle, and of a Pier die only. -/
theorem dieAt_showAlert {s : State} (hs : s.dies.map (·.code) = dieCodes) {k : Nat} (hk : k ∈ dieCodes) :
    (isPier k = true → Throttled (!s.toll.alerting.isEmpty) (dieAt s k) (dieAt (showAlert s) k))
      ∧ (isPier k = false → dieAt (showAlert s) k = dieAt s k) := by
  have piers : ∀ j ∈ dieCodes, (isPier j = true ↔ j ∈ [0x10, 0x11, 0x12, 0x13]) := by decide
  obtain ⟨hset, hleft⟩ := dieAt_throttles (!s.toll.alerting.isEmpty) (ks := [0x10, 0x11, 0x12, 0x13]) (by decide)
    (s := { s with pkg := { s.pkg with alert := !s.toll.alerting.isEmpty } }) (fun j hj => by
      show j ∈ s.dies.map (·.code)
      rw [hs]
      revert j
      decide) k
  refine ⟨fun hp => hset ((piers k hk).1 hp), fun hp => hleft fun hmem => ?_⟩
  rw [(piers k hk).2 hmem] at hp
  cases hp

theorem raiseAlert_again {s : State} {c : Nat} (h : c ∈ s.toll.alerting) : raiseAlert s c = s := if_pos (by simpa using h)

theorem raiseAlert_new {s : State} {c : Nat} (h : c ∉ s.toll.alerting) :
    raiseAlert s c = showAlert { s with toll := { s.toll with alerting := insertNat s.toll.alerting c } } := if_neg (by simpa using h)

/-- A source that enters the alert state: the pin, the list of sources, and the dies (R31). -/
theorem raiseAlert_parts {s : State} {c : Nat} (h : c ∉ s.toll.alerting) : raiseAlert s c = { s with
    toll := { s.toll with alerting := insertNat s.toll.alerting c }, pkg := { s.pkg with alert := true }, dies := (raiseAlert s c).dies
    free := (raiseAlert s c).free } := by
  have on : (!(insertNat s.toll.alerting c).isEmpty) = true := by simp [insertNat_ne_nil]
  rw [raiseAlert_new h]
  rw [showAlert_parts]
  simp only [on]

theorem raiseAlert_hbm (s : State) (c : Nat) : (raiseAlert s c).hbm = s.hbm := by
  by_cases h : c ∈ s.toll.alerting
  · rw [raiseAlert_again h]
  · rw [raiseAlert_parts h]

theorem raiseAlert_sensors (s : State) (c : Nat) : (raiseAlert s c).toll.sensors = s.toll.sensors := by
  by_cases h : c ∈ s.toll.alerting
  · rw [raiseAlert_again h]
  · rw [raiseAlert_parts h]

theorem mem_raiseAlert (s : State) (c : Nat) : c ∈ (raiseAlert s c).toll.alerting := by
  by_cases h : c ∈ s.toll.alerting
  · rw [raiseAlert_again h]
    exact h
  · rw [raiseAlert_parts h]
    exact mem_insertNat.2 (.inl rfl)

/-- A throttle that goes on lowers the voltage below that of the budget, where a lower step is left (R26). -/
theorem Throttled.lowers {d e : Die} (h : Throttled true d e) (hp : isPier d.code = true) : ∃ v,
    e = { d with throttled := true, millivolts := v } ∧ (d.throttled = false → 0 < budgetStep d → v < 620 + 5 * budgetStep d) := by
  obtain ⟨v, he, -, hchange⟩ := h
  refine ⟨v, he, fun hoff hstep => ?_⟩
  obtain ⟨u, hv⟩ := hchange (by simp [hoff])
  exact hv ▸ (commandedVolts_throttled (d := { d with throttled := true }) hp rfl hstep).2

/-- A throttle that goes off brings back the voltage of the budget. -/
theorem Throttled.restores {d e : Die} (h : Throttled false d e) (hp : isPier d.code = true) : ∃ v,
    e = { d with throttled := false, millivolts := v } ∧ v = if d.throttled = true then 620 + 5 * budgetStep d else d.millivolts := by
  obtain ⟨v, he, hsame, hchange⟩ := h
  refine ⟨v, he, ?_⟩
  cases ht : d.throttled with
  | false => exact hsame ht
  | true =>
    obtain ⟨u, hv⟩ := hchange (by simp [ht])
    rw [hv, if_pos rfl]
    exact commandedVolts_free (d := { d with throttled := false }) hp (by simp)

end Sys2Proof.Machine

/-! SUPPORT. The thermal rules on a reading, and the failure of a sensor (01 R31, 10 R263, 16 R397, R398). -/

namespace Sys2Proof.Machine

/-! ### A reading (R397) -/

/-- A reading is taken: it is stored, and for a stack the refresh interval follows it. -/
def readingTaken (s : State) (x : Sensor) (c : Nat) (v : Int) : State :=
  let s := { s with toll := { s.toll with sensors := putReading s.toll.sensors x v } }
  if 0x40 ≤ c then stackReading s (c - 0x40) v else s

theorem readingTaken_parts (s : State) (x : Sensor) (c : Nat) (v : Int) : readingTaken s x c v = { s with
    toll := { s.toll with sensors := putReading s.toll.sensors x v }, hbm := (readingTaken s x c v).hbm } := by
  unfold readingTaken
  dsimp only
  split <;> rfl

section
variable {s : State} {x : Sensor}

theorem exec_sensorRead_plain (hp : powered s = true) (hx : hasFailed s x = false) (hc : thermalSource x = none) (v : Int) :
    exec (.sensorRead x v) s = .next { s with toll := { s.toll with sensors := putReading s.toll.sensors x v } } := by
  show Host.Outcome.next _ = _
  rw [if_neg (by simp [hp, hx]), hc]

theorem exec_sensorRead_thermal (hp : powered s = true) (hx : hasFailed s x = false) {c : Nat} (hc : thermalSource x = some c) {v : Int}
    (hv : -80 ≤ v ∧ v ≤ 300) : exec (.sensorRead x v) s = .next (thermalRules (readingTaken s x c v) c (sensorIndex x)) := by
  show Host.Outcome.next _ = _
  rw [if_neg (by simp [hp, hx]), hc]
  dsimp only
  rw [if_neg (by omega)]
  rfl

/-- A temperature outside −40 °C to 150 °C is a failure of its sensor (R398). -/
theorem exec_sensorRead_outside (hp : powered s = true) (hx : hasFailed s x = false) {c : Nat} (hc : thermalSource x = some c) {v : Int}
    (hv : v < -80 ∨ 300 < v) : exec (.sensorRead x v) s = .next (failSensor s x) := by
  show Host.Outcome.next _ = _
  rw [if_neg (by simp [hp, hx]), hc]
  dsimp only
  rw [if_pos hv]

theorem exec_sensorFailure (hp : powered s = true) : exec (.sensorFailure x) s = .next (failSensor s x) :=
  congrArg Host.Outcome.next (if_pos hp)

end

/-! ### The thermal rules (R31) -/

/-- A source at its alert temperature: logged and in alert, unless it is already. -/
def alerted (s : State) (c i : Nat) (T : Int) : State :=
  if s.toll.alerting.contains c then s
  else raiseAlert (logError s 0x0043 0 sevWarning (sourceDie c).1 (sourceDie c).2 0xFF (alertDetail c i T)) c

section
variable {s : State} {c : Nat} {T : Int}

theorem tripAt_gt (c : Nat) : alertAt c < tripAt c := by
  unfold alertAt tripAt
  split <;> decide

theorem thermalRules_trip (hT : sourceTemp s c = some T) (i : Nat) (h : tripAt c ≤ T) : thermalRules s c i =
    thermalTrip (alerted s c i T) (sourceDie c).1 (sourceDie c).2 [c, unsigned 32 T] := by
  simp only [thermalRules, hT, h, if_true]
  rfl

theorem thermalRules_alert (hT : sourceTemp s c = some T) (i : Nat) (h : alertAt c ≤ T) (h' : T < tripAt c) :
    thermalRules s c i = alerted s c i T := by
  have cold : ¬ tripAt c ≤ T := by omega
  simp only [thermalRules, hT, h, cold, if_true, if_false]
  rfl

theorem thermalRules_between (hT : sourceTemp s c = some T) (i : Nat) (h : alertAt c - 6 < T) (h' : T < alertAt c) : thermalRules s c i = s := by
  have htrip := tripAt_gt c
  simp only [thermalRules, hT, show ¬ tripAt c ≤ T by omega, show ¬ alertAt c ≤ T by omega, show ¬ T ≤ alertAt c - 6 by omega, if_false]

theorem thermalRules_cool (hT : sourceTemp s c = some T) (i : Nat) (h : T ≤ alertAt c - 6) :
    thermalRules s c i = showAlert { s with toll := { s.toll with alerting := s.toll.alerting.erase c } } := by
  have htrip := tripAt_gt c
  simp only [thermalRules, hT, show ¬ tripAt c ≤ T by omega, show ¬ alertAt c ≤ T by omega, h, if_false, if_true]

theorem alerted_again (h : c ∈ s.toll.alerting) (i : Nat) (T : Int) : alerted s c i T = s := if_pos (by simpa using h)

theorem alerted_new (h : c ∉ s.toll.alerting) (i : Nat) (T : Int) : alerted s c i T =
    raiseAlert (logError s 0x0043 0 sevWarning (sourceDie c).1 (sourceDie c).2 0xFF (alertDetail c i T)) c := if_neg (by simpa using h)

/-- What a new alert changes. -/
theorem alerted_parts (h : c ∉ s.toll.alerting) (i : Nat) (T : Int) : alerted s c i T = { s with
      toll := (alerted s c i T).toll, pkg := { s.pkg with alert := true }, dies := (alerted s c i T).dies, free := (alerted s c i T).free }
    ∧ (alerted s c i T).toll.alerting = insertNat s.toll.alerting c := by
  have hlog : c ∉ (logError s 0x0043 0 sevWarning (sourceDie c).1 (sourceDie c).2 0xFF (alertDetail c i T)).toll.alerting := by
    rw [logError_alerting]
    exact h
  rw [alerted_new h]
  constructor
  · rw [raiseAlert_parts hlog, logError_toll]
  · rw [raiseAlert_parts hlog]
    dsimp only
    rw [logError_alerting]

theorem alerted_hbm (i : Nat) (T : Int) : (alerted s c i T).hbm = s.hbm := by
  by_cases h : c ∈ s.toll.alerting
  · rw [alerted_again h]
  · rw [(alerted_parts h i T).1]

theorem alerted_time (i : Nat) (T : Int) : (alerted s c i T).time = s.time := by
  by_cases h : c ∈ s.toll.alerting
  · rw [alerted_again h]
  · rw [(alerted_parts h i T).1]

/-- In a state that a source enters the alert state from, the dies are throttled, each below the voltage of its budget (R26, R31). -/
theorem dieAt_raiseAlert (hs : s.dies.map (·.code) = dieCodes) (h : c ∉ s.toll.alerting) {d : Die} (hd : d ∈ s.dies) :
    ∃ v, dieAt (raiseAlert s c) d.code = { d with throttled := d.throttled || isPier d.code, millivolts := v }
      ∧ if isPier d.code = true ∧ d.throttled = false ∧ 0 < budgetStep d then v < 620 + 5 * budgetStep d
        else isPier d.code = false → v = d.millivolts := by
  have on : (!(insertNat s.toll.alerting c).isEmpty) = true := by simp [insertNat_ne_nil]
  obtain ⟨hpier, hother⟩ := dieAt_showAlert (s := { s with toll := { s.toll with alerting := insertNat s.toll.alerting c } }) hs
    (code_mem_dieCodes hs hd)
  rw [raiseAlert_new h]
  rw [dieAt_congr (u := { s with toll := { s.toll with alerting := insertNat s.toll.alerting c } }) (s := s) rfl, dieAt_of_mem hs hd, on] at hpier
  rw [dieAt_congr (u := { s with toll := { s.toll with alerting := insertNat s.toll.alerting c } }) (s := s) rfl, dieAt_of_mem hs hd] at hother
  cases hp : isPier d.code with
  | true =>
    obtain ⟨v, he, hlow⟩ := (hpier hp).lowers hp
    refine ⟨v, by rw [he, Bool.or_true], ?_⟩
    split
    · rename_i hc
      exact hlow hc.2.1 hc.2.2
    · simp
  | false =>
    refine ⟨d.millivolts, by rw [hother hp, Bool.or_false], ?_⟩
    simp

/-- In a new alert the dies are throttled, each below the voltage of its budget (R26, R31). -/
theorem dieAt_alerted (hs : s.dies.map (·.code) = dieCodes) (h : c ∉ s.toll.alerting) (i : Nat) (T : Int) {d : Die} (hd : d ∈ s.dies) :
    ∃ v, dieAt (alerted s c i T) d.code = { d with throttled := d.throttled || isPier d.code, millivolts := v }
      ∧ if isPier d.code = true ∧ d.throttled = false ∧ 0 < budgetStep d then v < 620 + 5 * budgetStep d
        else isPier d.code = false → v = d.millivolts := by
  rw [alerted_new h]
  exact dieAt_raiseAlert (by rw [logError_dies, hs]) (by rwa [logError_alerting]) (by rwa [logError_dies])

/-- Where the only source in alert has cooled, the alert ends, and each die returns to the voltage of its budget (R31). -/
theorem showAlert_ends (hs : s.dies.map (·.code) = dieCodes) (h : s.toll.alerting = []) {d : Die} (hd : d ∈ s.dies) :
    ∃ v, dieAt (showAlert s) d.code = { d with throttled := d.throttled && !isPier d.code, millivolts := v }
      ∧ v = if isPier d.code = true ∧ d.throttled = true then 620 + 5 * budgetStep d else d.millivolts := by
  obtain ⟨hpier, hother⟩ := dieAt_showAlert hs (code_mem_dieCodes hs hd)
  rw [dieAt_of_mem hs hd] at hpier hother
  cases hp : isPier d.code with
  | true =>
    rw [h] at hpier
    obtain ⟨v, he, hv⟩ := (hpier hp).restores hp
    refine ⟨v, by rw [he, Bool.not_true, Bool.and_false], ?_⟩
    simpa using hv
  | false =>
    refine ⟨d.millivolts, by rw [hother hp, Bool.not_false, Bool.and_true], ?_⟩
    simp

/-! ### The trip (R31) -/

/-- A trip stops the package and holds it in reset; powered time and the alert stay. -/
theorem thermalTrip_keeps (s : State) (source position : Nat) (detail : List Nat) : ∃ t, thermalTrip s source position detail = t
    ∧ t.pkg.phase = .tripped ∧ t.pkg.trip = true ∧ (∀ d ∈ t.dies, d.released = false)
    ∧ (∀ K ∈ t.hbm.footings, K.retained = false ∧ K.selfRefresh = true) ∧ t.time = s.time ∧ t.pkg.alert = s.pkg.alert
    ∧ t.toll.alerting = s.toll.alerting := by
  have cleared := resetKeep_cleared (logError s 0x0044 0 sevFatal source position 0xFF detail) 0x00
  have frame := leaveFloors_logOnly s.dies (logError s 0x0044 0 sevFatal source position 0xFF detail)
  obtain ⟨hdies, -, -, -, -, -, -, -, -, -, -, -, -, -, -, -, hrefresh, -, -⟩ := cleared
  refine ⟨_, rfl, rfl, rfl, ?_, ?_, ?_, ?_, ?_⟩
  all_goals
    unfold thermalTrip
    dsimp only
    rw [loseHbm_parts]
  · rw [hdies]
    intro d hd
    obtain ⟨k, -, rfl⟩ := List.mem_map.1 hd
    rfl
  · intro K hK
    obtain ⟨L, hL, rfl⟩ := List.mem_map.1 hK
    exact ⟨rfl, hrefresh L hL⟩
  · rw [resetKeep_time, logError_time]
  · rw [resetKeep_pkg, logError_pkg]
  · rw [resetKeep_toll, logError_dies, frame]
    exact logError_alerting ..

end

end Sys2Proof.Machine

/-! SUPPORT. The failure of a sensor, and what readings and failures bring about (01 R26, R31, 10 R263, 16 R397, R398). -/

namespace Sys2Proof.Machine

/-! ### A failed sensor (R398) -/

/-- A sensor that fails: recorded, and out of use. -/
def sensorOut (s : State) (x : Sensor) : State :=
  let last := ((s.toll.sensors.find? fun y => y.sensor = x).map (·.reading)).getD 0
  let s := logError s 0x0043 0 sevWarning (sensorDie x).1 (sensorDie x).2 0xFF
    (alertDetail ((thermalSource x).getD 0) (sensorIndex x) last)
  { s with toll := { s.toll with sensors := putFailed s.toll.sensors x } }

section
variable (s : State) (x : Sensor)

theorem sensorOut_parts : sensorOut s x = { s with toll := (sensorOut s x).toll } := by
  unfold sensorOut
  dsimp only
  rw [logError_toll]

theorem sensorOut_sensors : (sensorOut s x).toll.sensors = putFailed s.toll.sensors x := by
  unfold sensorOut
  dsimp only
  rw [logError_sensors]

theorem sensorOut_alerting : (sensorOut s x).toll.alerting = s.toll.alerting := by
  unfold sensorOut
  dsimp only
  rw [logError_alerting]

theorem sensorOut_dies : (sensorOut s x).dies = s.dies := by rw [sensorOut_parts]

variable {s x}

/-- A state with the sensors that the failure leaves has the sensor failed. -/
theorem hasFailed_sensorOut {t : State} (h : t.toll.sensors = (sensorOut s x).toll.sensors) : hasFailed t x = true := by
  rw [hasFailed, h, sensorOut_sensors]
  exact any_putFailed ..

/-- A die whose failed sensors leave it too few to steer by, as it takes its floor. -/
def sensorFloored (s : State) (c : Nat) : State := enterFloor (modDie s c fun d => { d with sensorFloor := true }) c

theorem failSensor_plain (hx : hasFailed s x = false) (hc : thermalSource x = none) : failSensor s x = sensorOut s x := by
  unfold failSensor
  rw [if_neg (by simp [hx]), hc]
  simp only [sensorOut, hc]

theorem failSensor_source (hx : hasFailed s x = false) {c : Nat} (hc : thermalSource x = some c) : failSensor s x =
    if 0x40 ≤ c then raiseAlert (modStack (sensorOut s x) (c - 0x40) fun K => { K with hotRefresh := true, coolSince := none }) c
    else if isPier c then
      if ((junctions c).filter fun y => !hasFailed (sensorOut s x) y).length < 4 ∧ !(dieAt (sensorOut s x) c).sensorFloor then
        sensorFloored (sensorOut s x) c
      else sensorOut s x
    else if ((junctions c).filter fun y => !hasFailed (sensorOut s x) y).length = 0 then raiseAlert (sensorOut s x) c
    else sensorOut s x := by
  unfold failSensor
  rw [if_neg (by simp [hx]), hc]
  simp only [sensorOut, hc, sensorFloored]

theorem sensorFloored_sensors (s : State) (c : Nat) : (sensorFloored s c).toll.sensors = s.toll.sensors := by
  unfold sensorFloored enterFloor
  dsimp only
  split
  · rw [logError_sensors]; rfl
  · rfl

/-- A failure changes no other sensor than the one that it is of. -/
theorem failSensor_sensors (hx : hasFailed s x = false) : (failSensor s x).toll.sensors = (sensorOut s x).toll.sensors := by
  cases hc : thermalSource x with
  | none => rw [failSensor_plain hx hc]
  | some c =>
    rw [failSensor_source hx hc]
    split
    · exact raiseAlert_sensors ..
    · split
      · split
        · exact sensorFloored_sensors ..
        · rfl
      · split
        · exact raiseAlert_sensors ..
        · rfl

/-- A stack whose sensor has failed refreshes at the doubled rate and is in alert. -/
theorem failSensor_stack {k : Nat} (hx : hasFailed s (.stack k) = false) (hk : k < s.hbm.footings.length) : ∃ t, failSensor s (.stack k) = t
    ∧ (stackAt t k).hotRefresh = true ∧ 0x40 + k ∈ t.toll.alerting ∧ (0x40 + k ∉ s.toll.alerting → t.pkg.alert = true) := by
  refine ⟨_, (failSensor_source hx rfl).trans (if_pos (Nat.le_add_right ..)), ?_, mem_raiseAlert .., fun hnew => ?_⟩
  · have hot := stackAt_modStack (sensorOut s (.stack k)) k k (fun K => { K with hotRefresh := true, coolSince := none })
      (by rw [sensorOut_parts]; exact hk)
    rw [if_pos rfl] at hot
    rw [Nat.add_sub_cancel_left, stackAt, raiseAlert_hbm, ← stackAt, hot]
  · rw [raiseAlert_parts]
    show _ ∉ (sensorOut s (.stack k)).toll.alerting
    rwa [sensorOut_alerting]

/-- A Pier die with fewer than four working sensors takes its floor. -/
theorem failSensor_pier {k i : Nat} (hx : hasFailed s (.pierJunction k i) = false) (hk : k < 4) (hs : s.dies.map (·.code) = dieCodes)
    (hfloor : (dieAt s (0x10 + k)).sensorFloor = false) : ∃ t, failSensor s (.pierJunction k i) = t
    ∧ if ((junctions (0x10 + k)).filter fun y => !hasFailed t y).length < 4 then
        (dieAt t (0x10 + k)).budget = floorOf (0x10 + k) ∧ (dieAt t (0x10 + k)).sensorFloor = true
      else t.dies = s.dies := by
  have counted : ∀ y, hasFailed (failSensor s (.pierJunction k i)) y = hasFailed (sensorOut s (.pierJunction k i)) y :=
    hasFailed_congr (failSensor_sensors hx)
  have pier : isPier (0x10 + k) = true := decide_eq_true (by omega)
  have listed : ∃ d ∈ (sensorOut s (.pierJunction k i)).dies, d.code = 0x10 + k := by
    rw [sensorOut_dies]
    have piers : ∀ k < 4, 0x10 + k ∈ dieCodes := by decide
    exact die_listed hs (piers k hk)
  have unfloored : (dieAt (sensorOut s (.pierJunction k i)) (0x10 + k)).sensorFloor = false := by
    rw [dieAt_congr (sensorOut_dies ..), hfloor]
  have rule := failSensor_source hx (c := 0x10 + k) rfl
  rw [if_neg (by omega), if_pos pier] at rule
  refine ⟨_, rfl, ?_⟩
  simp only [counted]
  split
  · rename_i few
    rw [rule, if_pos ⟨few, by simp [unfloored]⟩]
    obtain ⟨v, floored⟩ := dieAt_enterFloor_self (s := modDie (sensorOut s (.pierJunction k i)) (0x10 + k) fun d => { d with sensorFloor := true })
      (listed_modDie listed)
    rw [dieAt_modDie_self listed] at floored
    rw [sensorFloored, floored]
    exact ⟨rfl, rfl⟩
  · rename_i enough
    rw [rule, if_neg (fun h => enough h.1), sensorOut_dies]

/-! ### A reading of a stack (R263) -/

theorem stackReading_hot (s : State) {k : Nat} (hk : k < s.hbm.footings.length) {v : Int} (hv : 170 < v) :
    (stackAt (stackReading s k v) k).hotRefresh = true := by
  rw [stackReading, stackAt_modStack _ _ _ _ hk, if_pos rfl, if_pos hv]

/-- A stack above 85 °C refreshes at the doubled rate. -/
theorem sensorRead_stack (hp : powered s = true) {k : Nat} (hx : hasFailed s (.stack k) = false) (hk : k < s.hbm.footings.length) {v : Int}
    (hv : 170 < v) (hv' : v < 190) : ∃ t, exec (.sensorRead (.stack k) v) s = .next t ∧ (stackAt t k).hotRefresh = true := by
  have taken : readingTaken s (.stack k) (0x40 + k) v
      = stackReading { s with toll := { s.toll with sensors := putReading s.toll.sensors (.stack k) v } } (0x40 + k - 0x40) v :=
    if_pos (Nat.le_add_right ..)
  have temp : sourceTemp (readingTaken s (.stack k) (0x40 + k) v) (0x40 + k) = some v := by
    rw [sourceTemp, if_pos (Nat.le_add_right ..), Nat.add_sub_cancel_left]
    refine reading_putReading hx ?_
    rw [taken]
    rfl
  have thresholds : alertAt (0x40 + k) = 170 ∧ tripAt (0x40 + k) = 190 := by simp [alertAt, tripAt]
  refine ⟨_, exec_sensorRead_thermal hp hx (c := 0x40 + k) rfl (by omega), ?_⟩
  rw [thermalRules_alert temp _ (by omega) (by omega), stackAt, alerted_hbm, ← stackAt, taken, Nat.add_sub_cancel_left]
  exact stackReading_hot { s with toll := { s.toll with sensors := putReading s.toll.sensors (.stack k) v } } hk hv

end

/-- Settles O51: a reading by the rule that its source's temperature comes under, then a failure. -/
theorem sensorsDriveThermalControl : Obligations.SensorsDriveThermalControl := by
  unfold Obligations.SensorsDriveThermalControl
  intro s x hp hx hs
  refine ⟨fun v hc => exec_sensorRead_plain hp hx hc v, fun c v T u hc hv hv' hu hT => ?reading, fun k v t hk hlen hv hv' ht => ?stack, ?failure⟩
  case reading =>
    have taken := exec_sensorRead_thermal hp hx hc (v := v) ⟨hv, hv'⟩
    have parts := readingTaken_parts s x c v
    rw [show readingTaken s x c v = u from hu.symm] at taken parts
    have dies : u.dies = s.dies := by rw [parts]
    have alerting : u.toll.alerting = s.toll.alerting := by rw [parts]
    have pkg : u.pkg = s.pkg := by rw [parts]
    have time : u.time = s.time := by rw [parts]
    refine ⟨fun h => ?_, fun h h' hnew => ?_, fun h h' hold => ?_, fun h h' => ?_, fun h honly => ?_⟩
    · rw [thermalRules_trip hT _ h] at taken
      obtain ⟨t, ht, hphase, htrip, hdies, hfootings, htime, halert, halerting⟩ :=
        thermalTrip_keeps (alerted u c (sensorIndex x) T) (sourceDie c).1 (sourceDie c).2 [c, unsigned 32 T]
      refine ⟨t, taken.trans (congrArg _ ht), hphase, htrip, hdies, hfootings, by rw [htime, alerted_time, time], fun hnew => ?_⟩
      obtain ⟨hparts, hins⟩ := alerted_parts (s := u) (by rwa [alerting]) (sensorIndex x) T
      rw [halert, halerting, hins]
      exact ⟨by rw [hparts], mem_insertNat.2 (.inl rfl)⟩
    · rw [thermalRules_alert hT _ h h'] at taken
      rw [← alerting] at hnew
      obtain ⟨hparts, hins⟩ := alerted_parts hnew (sensorIndex x) T
      refine ⟨_, taken, by rw [hins, alerting], by rw [hparts, pkg], fun d hd => ?_, by rw [hparts]⟩
      exact dieAt_alerted (by rw [dies, hs]) hnew (sensorIndex x) T (dies ▸ hd)
    · rw [taken, thermalRules_alert hT _ h h', alerted_again (alerting ▸ hold)]
    · rw [taken, thermalRules_between hT _ h h']
    · rw [thermalRules_cool hT _ h] at taken
      have none_left : u.toll.alerting.erase c = [] := by simp [alerting, honly]
      refine ⟨_, taken, ?_, ?_, fun d hd => ?_⟩
      · rw [showAlert_parts]
        exact none_left
      · rw [showAlert_parts]
        simp [none_left, pkg]
      · refine showAlert_ends ?_ none_left ?_
        · exact (congrArg _ dies).trans hs
        · exact dies.symm ▸ hd
  case stack =>
    subst hk
    obtain ⟨w, hw, hot⟩ := sensorRead_stack hp hx hlen hv hv'
    cases hw.symm.trans ht
    exact hot
  case failure =>
    refine ⟨failSensor s x, exec_sensorFailure hp, hasFailed_sensorOut (failSensor_sensors hx), fun c v hc hv => exec_sensorRead_outside hp hx hc hv,
      fun hc => ?_, fun k hk hlen => ?_, fun k i hk hlt hfloor => ?_⟩
    · rw [failSensor_plain hx hc]
      exact ⟨sensorOut_dies .., by rw [sensorOut_parts], sensorOut_alerting ..⟩
    · subst hk
      obtain ⟨t, rfl, facts⟩ := failSensor_stack hx hlen
      exact facts
    · subst hk
      obtain ⟨t, rfl, facts⟩ := failSensor_pier hx hlt hs hfloor
      exact facts

end Sys2Proof.Machine

/-! SUPPORT. The vitals: the modules, and of each context its fault status and the state of its program. What sending, posting and
checkpointing leave alone, and what a context fault changes (02 R50, 07 R181, 15 R374). -/

namespace Sys2Proof.Machine

/-- Of context n its fault status and the state of its program. -/
def vital (s : State) (n : Nat) : Option Nat × Option ProgState := ((ctxAt s n).map (·.faultStatus), (progAt s n).map (·.st))

/-- The modules, and the vitals of every context. -/
def vitals (s : State) : List Module × (Nat → Option Nat × Option ProgState) := (s.modules, vital s)

theorem vitals_eq {s t : State} (hm : t.modules = s.modules) (hc : ∀ n, vital t n = vital s n) : vitals t = vitals s :=
  Prod.ext hm (funext hc)

theorem vitals_modules {s t : State} (h : vitals t = vitals s) : t.modules = s.modules := congrArg Prod.fst h

theorem vital_of_vitals {s t : State} (h : vitals t = vitals s) (n : Nat) : vital t n = vital s n := congrFun (congrArg Prod.snd h) n

theorem vitals_foldl {α : Type} {f : State → α → State} (hf : ∀ s x, vitals (f s x) = vitals s) (l : List α) (s : State) :
    vitals (l.foldl f s) = vitals s := by
  induction l generalizing s with
  | nil => rfl
  | cons x l ih => rw [List.foldl_cons, ih, hf]

/-! ### Changes of a context and its program -/

theorem vitals_modCtx (s : State) (n : Nat) {f : Context → Context} (hs : ∀ c, (f c).faultStatus = c.faultStatus)
    (hp : ∀ c, (f c).program.map (·.st) = c.program.map (·.st)) : vitals (modCtx s n f) = vitals s := by
  refine vitals_eq rfl fun m => ?_
  unfold vital progAt
  rw [ctxAt_modCtx]
  by_cases h : n = m
  · rw [if_pos h]
    cases ctxAt s m with
    | none => rfl
    | some c => simp only [Option.map_some, Option.bind_some, hs, hp]
  · rw [if_neg h]

theorem vitals_modProg (s : State) (n : Nat) {f : Program → Program} (hf : ∀ p, (f p).st = p.st) : vitals (modProg s n f) = vitals s := by
  refine vitals_modCtx s n (fun _ => rfl) fun c => ?_
  cases c.program with
  | none => rfl
  | some p => simp only [Option.map_some, hf]

@[simp] theorem vitals_modSpanQueue (s : State) (n q : Nat) (f : SpanQueue → SpanQueue) : vitals (modSpanQueue s n q f) = vitals s :=
  vitals_modProg s n fun _ => rfl

@[simp] theorem vitals_modLink (s : State) (n q : Nat) (f : SpanLink → SpanLink) : vitals (modLink s n q f) = vitals s :=
  vitals_modSpanQueue ..

@[simp] theorem vitals_modAssoc (s : State) (n k : Nat) (f : Assoc → Assoc) : vitals (modAssoc s n k f) = vitals s :=
  vitals_modProg s n fun _ => rfl

@[simp] theorem vitals_modSampling (s : State) (n : Nat) (f : Sampling → Sampling) : vitals (modSampling s n f) = vitals s :=
  vitals_modCtx s n (fun _ => rfl) fun _ => rfl

/-! ### Changes elsewhere -/

@[simp] theorem vitals_modPort (s : State) (p : Nat) (f : Port → Port) : vitals (modPort s p f) = vitals s := rfl
@[simp] theorem vitals_count (s : State) (c i x k : Nat) : vitals (count s c i x k) = vitals s := rfl
@[simp] theorem vitals_modStack (s : State) (k : Nat) (f : Stack → Stack) : vitals (modStack s k f) = vitals s := rfl
@[simp] theorem vitals_freeUsed (s : State) (k : Nat) : vitals (freeUsed s k) = vitals s := rfl
@[simp] theorem vitals_pylon (s : State) (x : Pylon) : vitals { s with pylon := x } = vitals s := rfl
@[simp] theorem vitals_hbm (s : State) (x : Hbm) : vitals { s with hbm := x } = vitals s := rfl
@[simp] theorem vitals_caisson (s : State) (x : Caisson) : vitals { s with caisson := x } = vitals s := rfl

theorem vitals_toll (s : State) (t : Tollhouse) : vitals { s with toll := t } = vitals s := rfl

@[simp] theorem vitals_logError (s : State) (a b c d e f : Nat) (l : List Nat) : vitals (logError s a b c d e f l) = vitals s := by
  rw [logError_toll, vitals_toll]

@[simp] theorem vitals_logFresh (s : State) (a b c d e f : Nat) (l : List Nat) : vitals (logFresh s a b c d e f l) = vitals s := rfl

theorem Posts.vitals {s t : State} (h : Posts s t) : vitals t = Machine.vitals s := by rw [h]; rfl

@[simp] theorem vitals_finish (s : State) (q seq st : Nat) (p : List Nat) : vitals (finish s q seq st p) = vitals s := (finish_posts ..).vitals

@[simp] theorem vitals_postHost (s : State) (a : Nat) (bs : List Byte) : vitals (postHost s a bs) = vitals s := (postHost_posts ..).vitals

/-! ### Frames -/

@[simp] theorem vitals_regrant (s : State) (p hops kib : Nat) : vitals (regrant s p hops kib) = vitals s := by
  unfold regrant
  dsimp only
  split <;> rfl

@[simp] theorem vitals_leaveBuffer (s : State) (x : Option Nat × PylonFrame) : vitals (leaveBuffer s x) = vitals s := by
  unfold leaveBuffer
  split
  · exact vitals_regrant ..
  · rfl

@[simp] theorem vitals_transmit (s : State) (p : Nat) (x : Option Nat × PylonFrame) : vitals (transmit s p x) = vitals s :=
  vitals_leaveBuffer ..

theorem vitals_pumpOne (p : Nat) (acc : State × List (Option Nat × PylonFrame)) (x : Option Nat × PylonFrame) :
    vitals (pumpOne p acc x).1 = vitals acc.1 := by
  unfold pumpOne
  dsimp only
  split
  · rfl
  · exact vitals_transmit ..

theorem vitals_pumpAll (p : Nat) (l : List (Option Nat × PylonFrame)) (acc : State × List (Option Nat × PylonFrame)) :
    vitals (l.foldl (pumpOne p) acc).1 = vitals acc.1 := by
  induction l generalizing acc with
  | nil => rfl
  | cons x l ih => rw [List.foldl_cons, ih, vitals_pumpOne]

@[simp] theorem vitals_giveFrame (s : State) (p : Nat) (x : Option Nat × PylonFrame) : vitals (giveFrame s p x) = vitals s := by
  unfold giveFrame pumpPort
  dsimp only
  split
  · exact vitals_pumpAll ..
  · rfl

theorem vitals_discardFrame (s : State) (port : Option Nat) (dst : Nat) : vitals (discardFrame s port dst) = vitals s := by
  cases port <;> (unfold discardFrame; dsimp only; split <;> rfl)

@[simp] theorem vitals_sendRouted (s : State) (x : Option Nat × PylonFrame) : vitals (sendRouted s x) = vitals s := by
  unfold sendRouted
  split
  · rw [vitals_discardFrame, vitals_leaveBuffer]
  · rw [vitals_giveFrame, vitals_pylon]

@[simp] theorem vitals_sendSpan (s : State) (n q type flags value : Nat) (body : List Byte) :
    vitals (sendSpan s n q type flags value body) = vitals s := by
  unfold sendSpan
  split
  · rfl
  · split
    · rfl
    · dsimp only
      rw [vitals_giveFrame, vitals_modLink]

@[simp] theorem vitals_putStay (s : State) (n k tile : Nat) (f : StayFrame) : vitals (putStay s n k tile f) = vitals s := by
  unfold putStay
  split
  · rfl
  · dsimp only
    rw [vitals_sendRouted, vitals_modAssoc]

@[simp] theorem vitals_abandonLinks (s : State) (n st : Nat) (qs : List Nat) : vitals (abandonLinks s n st qs) = vitals s := by
  refine vitals_foldl (fun s q => ?_) qs s
  split
  · rfl
  · dsimp only
    rw [vitals_modLink]
    split
    · exact vitals_sendSpan ..
    · rfl

@[simp] theorem vitals_abandonAssocs (s : State) (n st : Nat) (ks : List Nat) : vitals (abandonAssocs s n st ks) = vitals s := by
  refine vitals_foldl (fun s k => ?_) ks s
  split
  · rfl
  · dsimp only
    rw [vitals_modAssoc]
    split
    · exact vitals_putStay ..
    · rfl

/-! ### HBM, and the checkpoint in progress -/

@[simp] theorem vitals_logUncorrectable (r : Reader) (access : Nat) (s : State) (b : Nat) :
    vitals (logUncorrectable r access s b) = vitals s := by
  unfold logUncorrectable
  dsimp only
  rw [vitals_logError, vitals_count]

@[simp] theorem vitals_correctBlock (s : State) (b : Nat) : vitals (correctBlock s b) = vitals s := by
  unfold correctBlock
  dsimp only
  split <;> simp

@[simp] theorem vitals_correctRange (s : State) (a n : Nat) : vitals (correctRange s a n) = vitals s :=
  vitals_foldl vitals_correctBlock ..

theorem vitals_footPath (s : State) (k a n : Nat) : vitals (footPath s k a n).1 = vitals s := by
  unfold footPath
  dsimp only
  split
  · simp
  · split <;> simp

@[simp] theorem vitals_copyGranule (s : State) (run : CkptRun) (g : Nat × Nat) : vitals (copyGranule s run g) = vitals s :=
  vitals_correctRange ..

theorem vitals_mergeHbm (s : State) (r : Reader) (a n : Nat) (put : Hbm → Hbm) : vitals (mergeHbm s r a n put).1 = vitals s := by
  unfold mergeHbm
  dsimp only
  rw [vitals_hbm, vitals_foldl (vitals_logUncorrectable r 2), vitals_foldl vitals_correctBlock]

@[simp] theorem vitals_ckptReport (s : State) (run : CkptRun) (st : Nat) : vitals (ckptReport s run st) = vitals s := (post_posts _ _ rfl).vitals

@[simp] theorem vitals_settleRelease (s : State) : vitals (settleRelease s) = vitals s := by
  unfold settleRelease
  split
  · rw [vitals_finish, vitals_caisson]
  · rfl

@[simp] theorem vitals_abandonCkpt (s : State) (st : Nat) : vitals (abandonCkpt s st) = vitals s := by
  unfold abandonCkpt
  split
  · rfl
  · simp

theorem vitals_copyBeforeList (gs : List (Nat × Nat)) (s : State) : vitals (copyBeforeList gs s).1 = vitals s := by
  induction gs generalizing s with
  | nil => rfl
  | cons g gs ih =>
    unfold copyBeforeList
    split
    · rfl
    · rename_i run _
      have foot := vitals_footPath s ((stackOf (granuleSrc run g)).getD 0) (granuleSrc run g) run.ctx
      dsimp only
      split
      · split
        · rename_i h
          rw [h] at foot
          rw [vitals_abandonCkpt]
          exact foot
        · rename_i h
          rw [h] at foot
          rw [ih, vitals_copyGranule]
          exact foot
      · rw [vitals_abandonCkpt, vitals_foldl (vitals_logUncorrectable _ 0)]

theorem vitals_copyBefore (s : State) (a n : Nat) : vitals (copyBefore s a n).1 = vitals s := by
  unfold copyBefore waitOnCopies
  rw [vitals_copyBeforeList]
  split <;> rfl

/-! ### The end of a sampling session -/

theorem vitals_sampleStore (s : State) (r : Reader) (a : Nat) (bs : List Byte) : vitals (sampleStore s r a bs).1 = vitals s := by
  unfold sampleStore
  dsimp only
  rw [vitals_mergeHbm, vitals_count, vitals_copyBefore]

@[simp] theorem vitals_putHeader (s : State) (n state : Nat) : vitals (putHeader s n state) = vitals s := by
  unfold putHeader
  split
  · rfl
  · exact vitals_sampleStore ..

theorem vitals_placeRecord (s : State) (n : Nat) (x : Sampling) (r : Nat × List Byte) : vitals (placeRecord s n x r).1 = vitals s := by
  unfold placeRecord
  split
  · exact vitals_sampleStore ..
  · rfl

theorem vitals_storeRecord (s : State) (n : Nat) (r : Nat × List Byte) : vitals (storeRecord s n r) = vitals s := by
  unfold storeRecord
  split
  · rfl
  · dsimp only
    rw [vitals_putHeader, vitals_modSampling, vitals_placeRecord]

theorem vitals_storeRecords (k n : Nat) (s : State) : vitals (storeRecords k n s) = vitals s := by
  induction k generalizing s with
  | zero => rfl
  | succ k ih =>
    unfold storeRecords
    split
    · rfl
    · rw [ih, vitals_storeRecord, vitals_modSampling]

@[simp] theorem vitals_endSampling (s : State) (n : Nat) : vitals (endSampling s n) = vitals s := by
  unfold endSampling
  split
  · rfl
  · rw [vitals_modCtx, vitals_putHeader, flushRecords, vitals_storeRecords]
    · exact fun _ => rfl
    · exact fun _ => rfl

/-! ### The commands of a context -/

@[simp] theorem vitals_stepReport (s : State) (n st : Nat) (last : Bool) : vitals (stepReport s n st last) = vitals s := by
  unfold stepReport
  split
  · rfl
  · split
    · rfl
    · exact (post_posts _ _ rfl).vitals

theorem vitals_endFeed (s : State) (f : Feed) (st : Nat) (p : List Nat) : vitals (endFeed s f st p) = vitals s := by
  have record (s : State) (k : Nat) : vitals (postRecord f s k) = vitals s := by
    unfold postRecord
    split <;> simp
  unfold endFeed
  rw [vitals_finish]
  exact vitals_foldl record ..

@[simp] theorem vitals_endFeeds (s : State) (n st : Nat) : vitals (endFeeds s n st) = vitals s := by
  unfold endFeeds
  dsimp only
  rw [vitals_foldl fun s t => vitals_finish .., vitals_foldl fun s f => vitals_endFeed ..]

@[simp] theorem vitals_endProgramCommands (s : State) (n st : Nat) : vitals (endProgramCommands s n st) = vitals s := by
  unfold endProgramCommands
  dsimp only
  rw [vitals_endFeeds, vitals_foldl fun s t => vitals_finish ..]

end Sys2Proof.Machine

/-! SUPPORT. A die hold begins: contexts fault, dies go to reset, ports go off (15 R374, R378). -/

namespace Sys2Proof.Machine

/-- A reading that no step of a fold changes. -/
theorem foldl_keeps {α β : Type} (k : State → β) {f : State → α → State} (hf : ∀ s x, k (f s x) = k s) (l : List α) (s : State) :
    k (l.foldl f s) = k s := by
  induction l generalizing s with
  | nil => rfl
  | cons x l ih => rw [List.foldl_cons, ih, hf]

/-! ### A context fault (R50, R181) -/

/-- What a fault with a status makes of the vitals of its context. -/
def faultVital (st : Nat) (v : Option Nat × Option ProgState) : Option Nat × Option ProgState :=
  if v.2 = some .faulted then v else (v.1.map fun _ => st, v.2.map fun _ => .faulted)

theorem vital_faultStatus (s : State) (n st m : Nat) : vital (modCtx s n fun c => { c with faultStatus := st }) m =
    if n = m then ((vital s m).1.map fun _ => st, (vital s m).2) else vital s m := by
  unfold vital progAt
  rw [ctxAt_modCtx]
  by_cases h : n = m
  · rw [if_pos h, if_pos h]
    cases ctxAt s m <;> rfl
  · rw [if_neg h, if_neg h]

theorem vital_faulted (s : State) (n : Nat) {f : Program → Program} (hf : ∀ p, (f p).st = .faulted) (m : Nat) : vital (modProg s n f) m =
    if n = m then ((vital s m).1, (vital s m).2.map fun _ => .faulted) else vital s m := by
  unfold vital
  rw [progAt_modProg]
  unfold modProg
  rw [ctxAt_modCtx]
  by_cases h : n = m
  · simp only [if_pos h]
    refine Prod.ext ?_ ?_
    · cases ctxAt s m <;> rfl
    · cases progAt s m with
      | none => rfl
      | some p => simp only [Option.map_some, hf]
  · simp only [if_neg h]

/-- From s to t the vitals have changed as a fault of context n with the status changes them. -/
def FaultsVitals (n st : Nat) (s t : State) : Prop := t.modules = s.modules ∧ ∀ m, vital t m = if n = m then faultVital st (vital s m) else vital s m

theorem FaultsVitals.of_vitals {n st : Nat} {s t u : State} (h : FaultsVitals n st s t) (g : vitals u = vitals t) : FaultsVitals n st s u := by
  refine ⟨(vitals_modules g).trans h.1, fun m => ?_⟩
  rw [vital_of_vitals g]
  exact h.2 m

/-- The status alone, of a context without a program. -/
theorem faultsVitals_idle {s : State} {n : Nat} (h : progAt s n = none) (st : Nat) :
    FaultsVitals n st s (modCtx s n fun c => { c with faultStatus := st }) := by
  refine ⟨rfl, fun m => ?_⟩
  rw [vital_faultStatus]
  by_cases hm : n = m
  · subst hm
    have off : (vital s n).2 = none := by simp [vital, h]
    simp [faultVital, off]
  · rw [if_neg hm, if_neg hm]

theorem faultsVitals_again {s : State} {n : Nat} {p : Program} (h : progAt s n = some p) (hp : p.st = .faulted) (st : Nat) :
    FaultsVitals n st s s := by
  refine ⟨rfl, fun m => ?_⟩
  by_cases hm : n = m
  · subst hm
    have faulted : (vital s n).2 = some .faulted := by simp [vital, h, hp]
    simp [faultVital, faulted]
  · rw [if_neg hm]

/-- The status and the state of a program that runs. -/
theorem faultsVitals_live {s t : State} {n : Nat} {p : Program} (h : progAt s n = some p) (hp : p.st ≠ .faulted) (ht : vitals t = vitals s)
    {f : Program → Program} (hf : ∀ p, (f p).st = .faulted) (st : Nat) :
    FaultsVitals n st s (modProg (modCtx t n fun c => { c with faultStatus := st }) n f) := by
  refine ⟨(vitals_modules ht : t.modules = s.modules), fun m => ?_⟩
  rw [vital_faulted _ _ hf, vital_faultStatus, vital_of_vitals ht]
  by_cases hm : n = m
  · subst hm
    have live : (vital s n).2 ≠ some .faulted := by simp [vital, h, hp]
    simp [faultVital, live]
  · simp only [if_neg hm]

theorem faultContext_faultsVitals (s : State) (n st : Nat) : FaultsVitals n st s (faultContext s n st) := by
  unfold faultContext
  cases hp : progAt s n with
  | none => exact (faultsVitals_idle hp st).of_vitals (vitals_endFeeds ..)
  | some p =>
    dsimp only
    by_cases hst : p.st = .faulted
    · rw [if_pos (by simp [hst])]
      exact (faultsVitals_again hp hst st).of_vitals (vitals_endFeeds ..)
    · rw [if_neg (by simpa using hst)]
      have abandoned : vitals (abandonAssocs (abandonLinks s n st (p.queues.map (·.decl.queue))) n st (p.assocs.map (·.peer))) = vitals s := by simp
      have checkpoint (u : State) : vitals (match u.caisson.run with
          | some run => if run.ctx == n && !run.stepEnded then abandonCkpt u st else u
          | none => u) = vitals u := by
        split
        · split
          · exact vitals_abandonCkpt ..
          · rfl
        · rfl
      generalize hu : modProg _ _ _ = u
      have stopped : FaultsVitals n st s u := hu ▸ faultsVitals_live hp hst abandoned (fun _ => rfl) st
      refine stopped.of_vitals ?_
      split
      · rw [vitals_stepReport, vitals_endProgramCommands, vitals_endSampling]
        exact checkpoint _
      · rw [vitals_endProgramCommands, vitals_endSampling]
        exact checkpoint _

theorem faultVital_again (st : Nat) : faultVital st (some st, some .faulted) = (some st, some .faulted) := if_pos rfl

theorem faultVital_live {st : Nat} {v : Option Nat × Option ProgState} {f : Nat} {x : ProgState} (h : v = (some f, some x)) (hx : x ≠ .faulted) :
    faultVital st v = (some st, some .faulted) := by
  subst h
  exact if_neg (by simpa using hx)

/-- Faults of several contexts with one status, of one whose program runs among them. -/
theorem vital_faults {st n : Nat} {ns : List Nat} (hn : n ∈ ns) {s : State} {f : Nat} {x : ProgState} (h : vital s n = (some f, some x))
    (hx : x ≠ .faulted) : vital (ns.foldl (fun s n => faultContext s n st) s) n = (some st, some .faulted) := by
  have kept (ns : List Nat) (s : State) (h : vital s n = (some st, some .faulted)) :
      vital (ns.foldl (fun s n => faultContext s n st) s) n = (some st, some .faulted) := by
    induction ns generalizing s with
    | nil => exact h
    | cons k ns ih =>
      refine ih _ ?_
      rw [(faultContext_faultsVitals s k st).2]
      split
      · rw [h, faultVital_again]
      · exact h
  induction ns generalizing s with
  | nil => cases hn
  | cons k ns ih =>
    rw [List.foldl_cons]
    have step := (faultContext_faultsVitals s k st).2 n
    by_cases hk : k = n
    · refine kept ns _ ?_
      rw [step, if_pos hk, faultVital_live h hx]
    · refine ih (by simpa [Ne.symm hk] using hn) ?_
      rw [step, if_neg hk, h]

/-! ### A held port (R231; log 122) -/

theorem endPortCommands_posts (s : State) (P : Port) : Posts s (endPortCommands s P) := by
  unfold endPortCommands
  have disabled (l : List (Nat × Nat)) (s : State) : Posts s (l.foldl (fun s c => finish s c.1 c.2 stOk []) s) := by
    induction l generalizing s with
    | nil => exact .refl s
    | cons c l ih => exact (finish_posts ..).trans (ih _)
  refine Posts.trans ?_ (disabled ..)
  split
  · exact finish_posts ..
  · exact .refl s

section
variable (s : State) (p : Nat)

theorem holdPort_dies : (holdPort s p).dies = s.dies := by
  show (endPortCommands s (portAt s p)).dies = _
  rw [endPortCommands_posts]

theorem holdPort_pkg : (holdPort s p).pkg = s.pkg := by
  show (endPortCommands s (portAt s p)).pkg = _
  rw [endPortCommands_posts]

theorem vitals_holdPort : vitals (holdPort s p) = vitals s := (endPortCommands_posts s (portAt s p)).vitals

theorem holdPort_ports : (holdPort s p).pylon.ports = modAt s.pylon.ports p fun _ => .fresh := by
  show modAt (endPortCommands s (portAt s p)).pylon.ports p _ = _
  rw [endPortCommands_posts]

end

/-- Of the ports that are held none keeps anything. -/
theorem holdPorts_fresh {ps : List Nat} {p : Nat} (hp : p ∈ ps) {s : State} {P : Port} (h : (ps.foldl holdPort s).pylon.ports[p]? = some P) :
    P = .fresh := by
  have kept (ps : List Nat) (s : State) (hs : ∀ P, s.pylon.ports[p]? = some P → P = .fresh) :
      ∀ P, (ps.foldl holdPort s).pylon.ports[p]? = some P → P = .fresh := by
    induction ps generalizing s with
    | nil => exact hs
    | cons q ps ih =>
      refine ih _ fun P hP => ?_
      rw [holdPort_ports, getElem?_modAt] at hP
      split at hP
      · obtain ⟨-, -, rfl⟩ := Option.map_eq_some_iff.1 hP
        rfl
      · exact hs P hP
  induction ps generalizing s with
  | nil => cases hp
  | cons q ps ih =>
    by_cases hq : q = p
    · refine kept ps (holdPort s q) (fun P hP => ?_) P h
      rw [holdPort_ports, getElem?_modAt, if_pos hq] at hP
      obtain ⟨-, -, rfl⟩ := Option.map_eq_some_iff.1 hP
      rfl
    · exact ih (by simpa [Ne.symm hq] using hp) h

/-! ### The hold -/

theorem mem_insertAll {cs l : List Nat} {c : Nat} : c ∈ cs.foldl insertNat l ↔ c ∈ cs ∨ c ∈ l := by
  induction cs generalizing l with
  | nil => simp
  | cons k cs ih =>
    rw [List.foldl_cons, ih, mem_insertNat, List.mem_cons]
    tauto

/-- The contexts that a hold faults. -/
def runningCtxs (s : State) : List Nat := (List.range 16).filter fun n => (ctxAt s n).any programRuns

/-- The ports of Pylon dies among those given. -/
def portsOfDies (codes : List Nat) : List Nat := (List.range 64).filter fun p => codes.contains (0x20 + portTile p)

/-- A hold with its contexts faulted and its module retraining, as its dies go to reset. -/
def holdFaulted (s : State) (m : Nat) (codes : List Nat) : State :=
  let s := (runningCtxs s).foldl (fun s n => faultContext s n stContextFault) s
  let s := logError s 0x0031 stContextFault sevFault srcPackage m 0xFF [m, 0]
  let s := modModule s m fun x => { x with resetting := false, holdAttempts := some 0 }
  (s.dies.filter fun d => codes.contains d.code).foldl leaveFloor s

/-- The dies given, and those held already, held in reset. -/
def holdDown (s : State) (codes : List Nat) : State :=
  { s with dies := s.dies.map fun d => if codes.contains d.code then d.hold else d
           pkg := { s.pkg with holdDies := codes.foldl insertNat s.pkg.holdDies } }

theorem vitals_holdDown (s : State) (codes : List Nat) : vitals (holdDown s codes) = vitals s := rfl

theorem beginHold_eq (s : State) (m : Nat) (codes : List Nat) :
    beginHold s m codes = (portsOfDies codes).foldl holdPort (holdDown (holdFaulted s m codes) codes) := by
  simp only [beginHold, holdFaulted, holdDown, runningCtxs, portsOfDies]

theorem faults_modules (st : Nat) (ns : List Nat) (s : State) : (ns.foldl (fun s n => faultContext s n st) s).modules = s.modules :=
  foldl_keeps (·.modules) (fun s n => (faultContext_faultsVitals s n st).1) ns s

theorem vital_congr {s t : State} (h : t.ctxs = s.ctxs) (n : Nat) : vital t n = vital s n := by
  unfold vital progAt ctxAt
  rw [h]

theorem holdFaulted_modules (s : State) (m : Nat) (codes : List Nat) : (holdFaulted s m codes).modules =
    modAt s.modules m fun x => { x with resetting := false, holdAttempts := some 0 } := by
  unfold holdFaulted
  dsimp only
  rw [leaveFloors_parts]
  show modAt (logError _ _ _ _ _ _ _ _).modules _ _ = _
  rw [logError_modules, faults_modules]

theorem vital_holdFaulted (s : State) (m : Nat) (codes : List Nat) (n : Nat) : vital (holdFaulted s m codes) n =
    vital ((runningCtxs s).foldl (fun s n => faultContext s n stContextFault) s) n := by
  refine vital_congr ?_ n
  unfold holdFaulted
  dsimp only
  rw [leaveFloors_parts]
  exact logError_ctxs ..

/-- What a die hold brings (R374, R378). -/
theorem beginHold_holds {s : State} {m : Nat} {codes : List Nat} {x : Module} (hx : s.modules[m]? = some x) (hs : s.Shaped) :
    ∃ t, beginHold s m codes = t ∧ t.modules[m]? = some { x with resetting := false, holdAttempts := some 0 }
      ∧ (∀ d ∈ t.dies, d.code ∈ codes → d.released = false) ∧ (∀ c ∈ codes, holdsDie t c = true)
      ∧ (∀ p P, t.pylon.ports[p]? = some P → 0x20 + portTile p ∈ codes → P = .fresh)
      ∧ ∀ n p, progAt s n = some p → p.st ≠ .faulted →
        (ctxAt t n).map (·.faultStatus) = some stContextFault ∧ (progAt t n).map (·.st) = some .faulted := by
  have shaped : (beginHold s m codes).Shaped := ((Sound.refl s).beginHold m codes).2.1 hs
  have frame : vitals (beginHold s m codes) = vitals (holdFaulted s m codes) := by
    rw [beginHold_eq, vitals_foldl vitals_holdPort, vitals_holdDown]
  refine ⟨_, rfl, ?_, fun d hd hc => ?_, fun c hc => ?_, fun p P hP hc => ?_, fun n p hp hst => ?_⟩
  · rw [vitals_modules frame, holdFaulted_modules, getElem?_modAt, if_pos rfl, hx, Option.map_some]
  · rw [beginHold_eq, foldl_keeps (·.dies) holdPort_dies] at hd
    obtain ⟨e, -, rfl⟩ := List.mem_map.1 hd
    split
    · rfl
    · rename_i he
      rw [if_neg he] at hc
      exact absurd (by simpa using hc) he
  · rw [holdsDie, beginHold_eq, foldl_keeps (·.pkg) holdPort_pkg]
    exact List.contains_iff_mem.2 (mem_insertAll.2 (.inl hc))
  · obtain ⟨-, -, ports, -⟩ := shaped
    have small : p < 64 := ports ▸ (List.getElem?_eq_some_iff.1 hP).1
    rw [beginHold_eq] at hP
    exact holdPorts_fresh (List.mem_filter.2 ⟨by simpa using small, by simpa using hc⟩) hP
  · obtain ⟨c, hctx, hprog⟩ : ∃ c, ctxAt s n = some c ∧ c.program = some p := Option.bind_eq_some_iff.1 hp
    obtain ⟨-, ctxs, -⟩ := hs
    have small : n < 16 := by
      by_contra hge
      have gone : ctxAt s n = none := by simp [ctxAt, List.getElem?_eq_none (l := s.ctxs) (i := n) (by omega)]
      rw [gone] at hctx
      cases hctx
    have hit : n ∈ runningCtxs s := by
      refine List.mem_filter.2 ⟨by simpa using small, ?_⟩
      simp [hctx, programRuns, hprog, hst]
    have before : vital s n = (some c.faultStatus, some p.st) := by simp [vital, hctx, hp]
    have after : vital (beginHold s m codes) n = (some stContextFault, some .faulted) := by
      rw [vital_of_vitals frame, vital_holdFaulted]
      exact vital_faults hit before hst
    exact ⟨congrArg Prod.fst after, congrArg Prod.snd after⟩

end Sys2Proof.Machine

/-! SUPPORT. The ends' reports after a module reset and after an attempt within a die hold, and the end of the hold (01 R17, 15 R361, R364,
R372 to R374, R378). -/

namespace Sys2Proof.Machine

/-! ### What the reports decide (R373) -/

section
variable {near far : TrainedWidth}

theorem agreed_full (hn : fullWidth near = true) (hf : fullWidth far = true) : agreed near far = some true := by simp [agreed, hn, hf]

theorem agreed_narrow (h : fullWidth near = false ∨ fullWidth far = false) (hw : near.rate < 32 ∨ far.rate < 32 ∨ near.lanes = far.lanes) :
    agreed near far = some false := by
  have not_full : (fullWidth near && fullWidth far) = false := by simpa using fun hn => h.resolve_left (by simp [hn])
  simp only [agreed, not_full, hw, if_true, Bool.false_eq_true, if_false]

theorem agreed_differs (hn : 32 ≤ near.rate) (hf : 32 ≤ far.rate) (hl : near.lanes ≠ far.lanes) : agreed near far = none := by
  have not_full : (fullWidth near && fullWidth far) = false := by
    by_contra h
    simp only [fullWidth, Bool.not_eq_false, Bool.and_eq_true, beq_iff_eq] at h
    exact hl (h.1.1.trans h.2.1.symm)
  have fast : ¬ (near.rate < 32 ∨ far.rate < 32 ∨ near.lanes = far.lanes) := by omega
  simp only [agreed, not_full, fast, Bool.false_eq_true, if_false]

end

/-! ### Out of service (R17) -/

/-- A width that does not do takes the package out of service; a code recorded earlier stays. -/
theorem widthMismatch_parts (s : State) (source position : Nat) (detail : List Nat) : widthMismatch s source position detail =
    { s with toll := (widthMismatch s source position detail).toll
             pkg := { s.pkg with oos := true, oosCode := if s.pkg.oos then s.pkg.oosCode else stWidthMismatch } } := by
  unfold widthMismatch goOos
  rw [logError_pkg]
  cases h : s.pkg.oos with
  | true =>
    simp only [if_true]
    rw [← h]
    exact logError_toll ..
  | false =>
    simp only [Bool.false_eq_true, if_false]
    rw [logError_toll]

theorem widthMismatch_oos (s : State) (source position : Nat) (detail : List Nat) : (widthMismatch s source position detail).pkg.oos = true := by
  rw [widthMismatch_parts]

/-- Channels that fail calibration change the log and whether the package is in service. -/
theorem calibrate_parts (s : State) (codes : List Nat) (failed : List (Nat × Nat)) : calibrate s codes failed =
    { s with toll := (calibrate s codes failed).toll
             pkg := { s.pkg with oos := (calibrate s codes failed).pkg.oos, oosCode := (calibrate s codes failed).pkg.oosCode } } := by
  unfold calibrate
  generalize failed.filter _ = l
  induction l generalizing s with
  | nil => rfl
  | cons c l ih =>
    rw [List.foldl_cons, ih]
    rw [widthMismatch_parts]

theorem calibrate_oos {s : State} {codes : List Nat} {failed : List (Nat × Nat)}
    (h : ∃ c ∈ failed, ∃ d ∈ codes, d < 0x30 ∧ tileOfDie d = c.1) : (calibrate s codes failed).pkg.oos = true := by
  have kept (l : List (Nat × Nat)) (s : State) (hs : s.pkg.oos = true) :
      (l.foldl (fun s c => widthMismatch s srcPier c.1 [c.1, c.2]) s).pkg.oos = true := by
    induction l generalizing s with
    | nil => exact hs
    | cons c l ih => exact ih _ (widthMismatch_oos ..)
  obtain ⟨c, hc, d, hd, hsmall, htile⟩ := h
  have hit : c ∈ failed.filter fun c => codes.any fun d => decide (d < 0x30) && tileOfDie d == c.1 :=
    List.mem_filter.2 ⟨hc, List.any_eq_true.2 ⟨d, hd, by simp [hsmall, htile]⟩⟩
  unfold calibrate
  cases hl : failed.filter fun c => codes.any fun d => decide (d < 0x30) && tileOfDie d == c.1 with
  | nil => simp [hl] at hit
  | cons e l => exact kept l _ (widthMismatch_oos ..)

/-! ### Dies that leave reset (R370, R374) -/

/-- A die as a release leaves it. -/
def releasedDie (s : State) (codes : List Nat) (d : Die) : Die :=
  if codes.contains d.code && !s.pkg.heldTiles.contains (tileOfDie d.code) then d.release s.time else d

theorem releasedDie_code (s : State) (codes : List Nat) (d : Die) : (releasedDie s codes d).code = d.code := by
  unfold releasedDie
  split <;> rfl

theorem releaseAll_eq (s : State) (codes : List Nat) : releaseAll s codes = showAlert { s with dies := s.dies.map (releasedDie s codes) } := rfl

theorem releaseAll_parts (s : State) (codes : List Nat) : releaseAll s codes = { s with
    pkg := { s.pkg with alert := !s.toll.alerting.isEmpty }, dies := (releaseAll s codes).dies, free := (releaseAll s codes).free } := by
  rw [releaseAll_eq, showAlert_parts]

/-- Setting the throttle keeps whether a die is released, and its budget. -/
theorem showAlert_released {s : State} (hs : s.dies.map (·.code) = dieCodes) {k : Nat} (hk : k ∈ dieCodes) :
    (dieAt (showAlert s) k).released = (dieAt s k).released ∧ (dieAt (showAlert s) k).budget = (dieAt s k).budget := by
  obtain ⟨hpier, hother⟩ := dieAt_showAlert hs hk
  cases hp : isPier k with
  | true =>
    obtain ⟨v, he, -, -⟩ := hpier hp
    rw [he]
    exact ⟨rfl, rfl⟩
  | false =>
    rw [hother hp]
    exact ⟨rfl, rfl⟩

/-- Dies that are released are at their floors. -/
theorem releaseAll_released {s : State} (hs : s.dies.map (·.code) = dieCodes) {codes : List Nat} {k : Nat} (hk : k ∈ dieCodes) (hc : k ∈ codes)
    (ht : tileOfDie k ∉ s.pkg.heldTiles) : (dieAt (releaseAll s codes) k).released = true ∧ (dieAt (releaseAll s codes) k).budget = floorOf k := by
  have listed : (s.dies.map (releasedDie s codes)).map (·.code) = dieCodes := by
    rw [List.map_map, ← hs]
    exact List.map_congr_left fun d _ => releasedDie_code s codes d
  obtain ⟨d, hd, rfl⟩ := die_listed hs hk
  have released := dieAt_of_mem (s := { s with dies := s.dies.map (releasedDie s codes) }) listed (List.mem_map_of_mem hd)
  rw [releasedDie_code] at released
  rw [releaseAll_eq, (showAlert_released listed hk).1, (showAlert_released listed hk).2, released, releasedDie, if_pos (by simp [hc, ht])]
  exact ⟨rfl, rfl⟩

end Sys2Proof.Machine

/-! SUPPORT. The rows of module resets and die holds (01 R17, 15 R361, R364, R372 to R374, R378). -/

namespace Sys2Proof.Machine

/-! ### The end of a hold (R374, R378) -/

/-- The dies of a hold released, Joint-F calibrated. -/
def holdReleased (s : State) (uncalibrated : List (Nat × Nat)) : State :=
  calibrate (releaseAll { s with pkg := { s.pkg with holdDies := [] } } s.pkg.holdDies) s.pkg.holdDies uncalibrated

theorem releaseHold_waits {s : State} (h : ∃ y ∈ s.modules, y.holdAttempts.isSome = true) (us : List (Nat × Nat)) : releaseHold s us = s :=
  if_pos (List.any_eq_true.2 h)

theorem releaseHold_booting {s : State} (h : ∀ y ∈ s.modules, y.holdAttempts = none) (hb : s.pkg.bootStep < 7) (us : List (Nat × Nat)) :
    releaseHold s us = { s with pkg := { s.pkg with holdDies := [] } } := by
  unfold releaseHold
  rw [if_neg (by simpa using h)]
  exact if_pos hb

/-- What the release of a hold's dies changes. -/
theorem holdReleased_parts (s : State) (us : List (Nat × Nat)) : holdReleased s us = { s with
    toll := (holdReleased s us).toll, dies := (holdReleased s us).dies, free := (holdReleased s us).free
    pkg := { s.pkg with holdDies := [], alert := !s.toll.alerting.isEmpty, oos := (holdReleased s us).pkg.oos
                        oosCode := (holdReleased s us).pkg.oosCode } } := by
  unfold holdReleased
  rw [calibrate_parts, releaseAll_parts]

theorem holdReleased_dies (s : State) (us : List (Nat × Nat)) :
    (holdReleased s us).dies = (releaseAll { s with pkg := { s.pkg with holdDies := [] } } s.pkg.holdDies).dies := by
  unfold holdReleased
  rw [calibrate_parts]

theorem releaseHold_service {s : State} (h : ∀ y ∈ s.modules, y.holdAttempts = none) (hb : 7 ≤ s.pkg.bootStep) (hr : running s = true)
    (us : List (Nat × Nat)) : releaseHold s us = raisePorts (holdReleased s us) s.pkg.holdDies := by
  have on : running (holdReleased s us) = true := by
    rw [holdReleased_parts]
    exact hr
  unfold releaseHold
  rw [if_neg (by simpa using h)]
  dsimp only
  rw [if_neg (by omega)]
  exact if_pos on

theorem releaseHold_modules (s : State) (us : List (Nat × Nat)) : (releaseHold s us).modules = s.modules := by
  unfold releaseHold
  split
  · rfl
  · dsimp only
    split
    · rfl
    · have released : (holdReleased s us).modules = s.modules := by rw [holdReleased_parts]
      split
      · exact released
      · exact released

/-- The ports of released dies, and no others, go to DETECT. -/
theorem raisePorts_port {s : State} {codes : List Nat} {p : Nat} {P : Port} (h : s.pylon.ports[p]? = some P) :
    (raisePorts s codes).pylon.ports[p]? = some
      (if 0x20 + portTile p ∈ codes ∧ (dieAt s (0x20 + portTile p)).released = true ∧ P.st = .disabled then
        { P with st := .detect, since := s.time } else P) := by
  simp [raisePorts, List.getElem?_zipIdx, h]

/-! ### The rows -/

section
variable {s : State} {m : Nat} {x : Module}

theorem exec_moduleReset (hr : running s = true) (hx : s.modules[m]? = some x) (hin : x.inLink = true) : exec (.moduleReset m) s =
    .next (count (modModule s m fun y => { y with inLink := false, resetting := !(moduleDies m).any (holdsDie s)
                                                  holdAttempts := if (moduleDies m).any (holdsDie s) then some 0 else none }) 6 m 1 1) :=
  congrArg Host.Outcome.next (if_pos (by simp [hr, hx, hin]))

theorem exec_moduleReset_out (hx : s.modules[m]? = some x) (hin : x.inLink = false) : exec (.moduleReset m) s = .next s :=
  congrArg Host.Outcome.next (if_neg (by simp [hx, hin]))

theorem exec_moduleWidthReport (hr : running s = true) (hx : s.modules[m]? = some x) (hre : x.resetting = true) (near far : TrainedWidth) :
    exec (.moduleWidthReport m near far) s =
      .next (settleReset (logError s 0x0030 0 sevInfo srcPackage m 0xFF (widthDetail m near far)) m (moduleDies m) (agreed near far)) :=
  congrArg Host.Outcome.next (if_pos (by simp [hr, hx, hre]))

theorem exec_dieHoldAttemptEnd (hr : running s = true) (hx : s.modules[m]? = some x) {k : Nat} (hk : x.holdAttempts = some k) (hlt : k < 3)
    (near : TrainedWidth) (e : AttemptEnd) : exec (.dieHoldAttemptEnd m near e) s =
      .next (settleAttempt (logError s 0x0031 0 sevInfo srcPackage m 0xFF [m, k + 1]) m k e.uncalibrated (agreed near e.width)) := by
  show Host.Outcome.next _ = _
  simp only [hr, hx, Option.bind_some, hk]
  rw [if_neg (by omega)]

end

/-- Where no other module retrains in a hold, none does once this one is back. -/
theorem rejoin_others {s : State} {m : Nat} (h : ∀ j, j ≠ m → ∀ y, s.modules[j]? = some y → y.holdAttempts = none) :
    ∀ y ∈ (rejoin s m).modules, y.holdAttempts = none := by
  intro y hy
  obtain ⟨j, hj⟩ := List.mem_iff_getElem?.1 hy
  rw [rejoin, modModule, getElem?_modAt] at hj
  split at hj
  · obtain ⟨z, -, rfl⟩ := Option.map_eq_some_iff.1 hj
    rfl
  · rename_i hne
    exact h j (Ne.symm hne) y hj

theorem rejoin_other {s : State} {m j : Nat} {y : Module} (hj : j ≠ m) (hy : s.modules[j]? = some y) : y ∈ (rejoin s m).modules := by
  refine List.mem_iff_getElem?.2 ⟨j, ?_⟩
  rw [rejoin, modModule, getElem?_modAt, if_neg (Ne.symm hj), hy]

/-- The last module of a hold is back: every die of the hold leaves reset at its floor, and its ports start again (R361, R374, R378). -/
theorem hold_ends {s : State} (hs : s.Shaped) (h : ∀ y ∈ s.modules, y.holdAttempts = none) (hb : 7 ≤ s.pkg.bootStep) (hr : running s = true)
    (us : List (Nat × Nat)) : ∃ t, releaseHold s us = t ∧ t.pkg.holdDies = []
      ∧ (∀ d ∈ t.dies, d.code ∈ s.pkg.holdDies → tileOfDie d.code ∉ s.pkg.heldTiles → d.released = true ∧ d.budget = floorOf d.code)
      ∧ (∀ p P, s.pylon.ports[p]? = some P → t.pylon.ports[p]? = some
          (if 0x20 + portTile p ∈ s.pkg.holdDies ∧ (dieAt t (0x20 + portTile p)).released = true ∧ P.st = .disabled then
            { P with st := .detect, since := s.time } else P))
      ∧ ((∃ c ∈ us, ∃ d ∈ s.pkg.holdDies, d < 0x30 ∧ tileOfDie d = c.1) → t.pkg.oos = true) := by
  have listed : (releaseHold s us).dies.map (·.code) = dieCodes := by
    obtain ⟨-, -, -, -, -, dies⟩ := ((Sound.refl s).releaseHold us).2.1 hs
    exact dies
  obtain ⟨-, -, -, -, -, dies⟩ := hs
  have ended := releaseHold_service h hb hr us
  have freed : (releaseHold s us).dies = (releaseAll { s with pkg := { s.pkg with holdDies := [] } } s.pkg.holdDies).dies := by
    rw [ended, ← holdReleased_dies]
    rfl
  refine ⟨_, rfl, ?_, fun d hd hc ht => ?_, fun p P hP => ?_, fun hfail => ?_⟩
  · rw [ended]
    show (holdReleased s us).pkg.holdDies = _
    rw [holdReleased_parts]
  · have released := releaseAll_released (s := { s with pkg := { s.pkg with holdDies := [] } }) dies (code_mem_dieCodes listed hd) hc ht
    rwa [← dieAt_congr freed, dieAt_of_mem listed hd] at released
  · have port : (holdReleased s us).pylon.ports[p]? = some P := by
      rw [holdReleased_parts]
      exact hP
    have time : (holdReleased s us).time = s.time := by rw [holdReleased_parts]
    rw [ended, raisePorts_port port, time]
    rfl
  · rw [ended]
    exact calibrate_oos hfail

/-- Settles O54: the rows of a module in or out of its link, the three outcomes of its reports, and the three of an attempt's. -/
theorem modulesResetAndHold : Obligations.ModulesResetAndHold := by
  unfold Obligations.ModulesResetAndHold
  intro s m x hr hx
  refine ⟨fun hin hfree => ?_, fun hin hheld => ?_, fun hout => exec_moduleReset_out hx hout, fun near far u hre hu => ?report,
    fun near far e k u hfar hk hlt hu => ?attempt⟩
  · rw [exec_moduleReset hr hx hin, hfree]
    rfl
  · rw [exec_moduleReset hr hx hin, hheld]
    rfl
  case report =>
    have step := exec_moduleWidthReport hr hx hre near far
    rw [← hu] at step
    have parts : u = { s with toll := u.toll } := by rw [hu]; exact logError_toll ..
    have hux : u.modules[m]? = some x := by rw [parts]; exact hx
    refine ⟨fun hn hf => ?_, fun hwidth hw => ?_, fun hn hf hl hs => ?_⟩
    · rw [step, agreed_full hn hf]
      rfl
    · have narrow : exec (.moduleWidthReport m near far) s =
          .next (widthMismatch (modModule u m fun y => { y with resetting := false }) srcPackage m [m]) := by
        rw [step, agreed_narrow hwidth hw]
        rfl
      refine ⟨_, narrow, ?_, widthMismatch_oos .., fun hoos => ?_, ?_⟩
      all_goals rw [widthMismatch_parts]
      · rw [modModule, getElem?_modAt, if_pos rfl, hux, Option.map_some]
      · rw [modModule_pkg, parts]
        simp [hoos]
      · rw [modModule, parts]
    · rw [agreed_differs hn hf hl] at step
      have shaped : u.Shaped := by rw [parts]; exact hs
      obtain ⟨t, ht, facts⟩ := beginHold_holds (codes := moduleDies m) hux shaped
      refine ⟨t, step.trans (congrArg _ ht), ?_⟩
      rw [parts] at facts
      exact facts
  case attempt =>
    subst hfar
    have step := exec_dieHoldAttemptEnd hr hx hk hlt near e
    rw [← hu] at step
    have parts : u = { s with toll := u.toll } := by rw [hu]; exact logError_toll ..
    have hux : u.modules[m]? = some x := by rw [parts]; exact hx
    refine ⟨fun hn hf hs => ?_, fun hn hf hl hk2 => ?_, fun hn hf hl hk2 => ?_⟩
    · have joined : exec (.dieHoldAttemptEnd m near e) s = .next (releaseHold (rejoin u m) e.uncalibrated) := by
        rw [step, agreed_full hn hf]
        rfl
      have pkg : (rejoin u m).pkg = s.pkg := by rw [rejoin, modModule_pkg, parts]
      have pylon : (rejoin u m).pylon = s.pylon := by rw [rejoin, modModule_pylon, parts]
      have time : (rejoin u m).time = s.time := by rw [rejoin, modModule_time, parts]
      refine ⟨_, joined, ?_, fun hother => ?_, fun halone hboot => ?_⟩
      · rw [releaseHold_modules, rejoin, modModule, getElem?_modAt, if_pos rfl, hux, Option.map_some]
      · obtain ⟨j, y, hj, hy, hsome⟩ := hother
        rw [releaseHold_waits ⟨y, rejoin_other hj (by rw [parts]; exact hy), hsome⟩]
        exact ⟨by rw [rejoin, modModule_dies, parts], pylon, pkg⟩
      · have others : ∀ y ∈ (rejoin u m).modules, y.holdAttempts = none := rejoin_others (by rw [parts]; exact halone)
        have shaped : (rejoin u m).Shaped := ((Sound.refl u).rejoin m).2.1 (by rw [parts]; exact hs)
        obtain ⟨t, rfl, facts⟩ := hold_ends shaped others (by rw [pkg]; exact hboot) (by rw [running, pkg]; exact hr) e.uncalibrated
        rw [pkg, pylon, time] at facts
        exact facts
    · rw [step, agreed_differs hn hf hl]
      show Host.Outcome.next (if k = 2 then _ else _) = _
      rw [if_neg (by omega)]
    · have last : exec (.dieHoldAttemptEnd m near e) s =
          .next (widthMismatch (modModule u m fun y => { y with holdAttempts := some 3 }) srcPackage m [m]) := by
        subst hk2
        rw [step, agreed_differs hn hf hl]
        rfl
      refine ⟨_, last, widthMismatch_oos .., ?_⟩
      rw [widthMismatch_parts, modModule, getElem?_modAt, if_pos rfl, hux, Option.map_some]

end Sys2Proof.Machine

/-! SUPPORT. O53 fails on a package in reset that still lists a tile as held. Every reset of the model empties that list (`loseState`),
but the statement assumes nothing of it, and step 4 of a boot reads it (`joinModules`) before step 7 sets it anew (`releaseTiles`). -/

namespace Sys2Proof.Machine

/-- The reads of a walk (R368). -/
def heldTileReads : List WalkRead :=
  .approach :: (List.range 80).map .overModule ++ (List.range 4).map .pier ++ (List.range 12).map .footing

/-- A descriptor with the type, position and capabilities that belong at a place, profile version 1, and the place as the die's number (R365, R366). -/
def placeDescriptor (i : Nat) : List Byte :=
  leBytes 4 0x544E494A ++ leBytes 1 1 ++ leBytes 1 (descriptorDie i).1 ++ leBytes 2 0 ++ leBytes 2 1 ++ leBytes 2 1
    ++ leBytes 4 (capsOf (descriptorDie i).1) ++ leBytes 8 i ++ leBytes 1 (descriptorDie i).2 ++ leBytes 39 0

/-- A boot in which every die answers as it must and nothing is amiss. -/
def soundBoot : BootReport :=
  { silentRegulators := [], descriptors := heldTileReads.map fun x => (x, placeDescriptor (expectedAt x)), lesserOffers := [], narrowModules := []
    untrainedChannels := [], uncalibrated := [], retries := [] }

/-- The five required modules as delivered, in one committed change (R382, R386). -/
def requiredJournal : List JournalRecord :=
  let l := layOut 0 1 0 (requiredModules.map fun i => .module (.factory i))
  l ++ layOut 0 6 10 [.commit 1 1 (bodiesDigest l 0 1 6)]

/-- A package in reset that lists tile 0 as held. -/
def tileHeldInReset : State :=
  { State.reset with
    pkg := { State.reset.pkg with heldTiles := [0] }, toll := { State.reset.toll with journal := requiredJournal } }

theorem soundBoot_walk : ∀ k < 10, ∀ x, (x ∈ readsAt k → walkOk soundBoot tileHeldInReset x = true)
    ∧ (x ∈ linkReads k → linkOk soundBoot tileHeldInReset x = true) := by
  have h : ∀ k < 10, (∀ x ∈ readsAt k, walkOk soundBoot tileHeldInReset x = true)
      ∧ ∀ x ∈ linkReads k, linkOk soundBoot tileHeldInReset x = true := by decide +kernel
  exact fun k hk x => ⟨(h k hk).1 x, (h k hk).2 x⟩

theorem requiredJournal_boots : ∀ i ∈ requiredModules, (bootRevision (dropOthers tileHeldInReset.toll).journal i).isSome = true := by
  decide +kernel

/-- No step after 9 reads a descriptor or negotiates a link (R370). -/
theorem no_reads_after_nine {k : Nat} (hk : 10 ≤ k) : readsAt k = [] ∧ linkReads k = [] := by
  constructor
  · rw [readsAt, if_neg (by omega), if_neg (by omega), if_neg (by omega), if_neg (by omega)]
  · rw [linkReads, if_neg (by omega), if_neg (by omega), if_neg (by omega)]

theorem tileHeldInReset_shaped : tileHeldInReset.Shaped := by refine ⟨?_, ?_⟩ <;> decide +kernel

/-- The state after the boot, in which step 4 has left out the modules of tile 0. -/
theorem tileHeldInReset_boots : ∃ t, exec (.boot soundBoot) tileHeldInReset = .next t ∧ (t.modules[64]?).map (·.inLink) = some false := by
  refine ⟨_, rfl, ?_⟩
  decide +kernel

/-- Refutes O53: with tile 0 listed as held, step 4 leaves module 64 out of its link, and no later step takes it in. -/
theorem not_bootReachesRunning : ¬ Obligations.BootReachesRunning := by
  unfold Obligations.BootReachesRunning
  intro h
  obtain ⟨-, -, -, hboot⟩ := h tileHeldInReset soundBoot _ rfl rfl tileHeldInReset_shaped Memory.wf_nil Iff.rfl
  obtain ⟨t, ht, -, -, -, -, -, -, hmodules, -⟩ := hboot (by decide) ⟨rfl, by decide +kernel, by simp [soundBoot]⟩ rfl rfl
    (fun k x => by
      rcases Nat.lt_or_ge k 10 with hk | hk
      · exact soundBoot_walk k hk x
      · simp [no_reads_after_nine hk])
    requiredJournal_boots
  obtain ⟨u, hu, hout⟩ := tileHeldInReset_boots
  obtain rfl : u = t := Host.Outcome.next.inj (hu.symm.trans ht)
  obtain ⟨M, hM, hlink⟩ := Option.map_eq_some_iff.1 hout
  rw [hmodules M (List.mem_of_getElem? hM)] at hlink
  exact absurd hlink (by decide)

end Sys2Proof.Machine

/-! SUPPORT. An instruction that faults at issue, and what a fetch leaves of the state (02 R50, 03 R92, R94, R96). -/

namespace Sys2Proof.Machine

/-! ### A pier's word that no row runs (R50, R96) -/

/-- What is fetched for one pier. -/
theorem fetched_one {s u : State} {im : Image} {p : Nat} (piers : ∀ q, pierAt u q = if p = q then filled s im p else pierAt s q)
    (parts : u = { s with piers := u.piers, counters := u.counters }) : Fetched s u im [p] := by
  refine ⟨fun q => ?_, parts⟩
  rw [piers]
  by_cases h : p = q
  · subst h
    simp
  · simp [h, Ne.symm h]

/-- Settles O6: every row that the word's opcode names takes its faulting branch, on the state in which the word has been fetched. -/
theorem undefinedWordFaultsContext : Obligations.UndefinedWordFaultsContext := by
  unfold Obligations.UndefinedWordFaultsContext
  intro s p n im w hr hd hw eu ec
  obtain ⟨u, run, parts, piers⟩ := atPier_word hr hd hw eu ec
  have faults (accept : Nat → Bool) (f : State → Issue → State) (named : accept (opcodeOf w) = true)
      (rejects : f u { n, im, pier := p, index := (pierAt s p).index, word := w } =
        Issue.fault { n, im, pier := p, index := (pierAt s p).index, word := w } u 0) :
      (Host.Outcome.next (atPier s p accept f) : Host.Outcome State Fault Refusal) =
        .next (pierFault (issueFaulting u n p (pierAt s p).index w) n p (pierAt s p).index 0) :=
    congrArg _ ((run accept f named).trans rejects)
  refine ⟨u, fetched_one piers parts, fun undefined => faults _ _ (by simpa using undefined) rfl, fun bad op => faults _ _ (by simp [op]) ?_,
    fun bad op => faults _ _ (by simp [op]) ?_, fun bad op => faults _ _ (by simp [op]) ?_, fun bad op => faults _ _ (by simp [op]) ?_,
    fun bad op => faults _ _ (by simp [op]) ?_, fun bad op => faults _ _ (by simp [op]) ?_⟩
  all_goals exact if_pos (by rw [bad]; rfl)

end Sys2Proof.Machine

/-! SUPPORT. A rendezvous that every pier has reached runs on the state that its fetches leave: what it reads there is what stood before
them (03 R92, R94). -/

namespace Sys2Proof.Machine

section
variable {s u : State} {im : Image} {ps : List Nat} (hF : Fetched s u im ps)
include hF

theorem Fetched.ctxAt (n : Nat) : ctxAt u n = Machine.ctxAt s n := by
  obtain ⟨-, parts⟩ := hF
  rw [parts]
  rfl

theorem Fetched.progAt (n : Nat) : progAt u n = Machine.progAt s n := by
  unfold Machine.progAt
  rw [hF.ctxAt]

theorem Fetched.stageAt (n k : Nat) : stageAt u n k = Machine.stageAt s n k := by
  unfold Machine.stageAt
  rw [hF.progAt]

theorem Fetched.tokenCount (n ch : Nat) : tokenCount u n ch = Machine.tokenCount s n ch := by
  unfold Machine.tokenCount
  rw [hF.progAt]

theorem Fetched.tokenRoom (n : Nat) (d : TokenDecl) (k : Nat) : tokenRoom u n d k = Machine.tokenRoom s n d k := by
  unfold Machine.tokenRoom
  rw [hF.tokenCount]

theorem Fetched.groupOf (m : Meet) (kind : Nat) : groupOf u m kind = Machine.groupOf s m kind := by
  unfold Machine.groupOf
  rw [hF.progAt]

theorem Fetched.mem (q : Nat) : (pierAt u q).mem = (pierAt s q).mem := by
  rw [hF.1]
  split
  · exact filled_mem ..
  · rfl

theorem Fetched.badWords (q : Nat) : (pierAt u q).badWords = (pierAt s q).badWords := by
  rw [hF.1]
  split
  · exact filled_badWords ..
  · rfl

theorem Fetched.payloadOf (rs : List (Nat × Nat × Range)) : payloadOf u rs = Machine.payloadOf s rs := by
  unfold Machine.payloadOf
  simp only [hF.mem]

theorem Fetched.badSlice (rs : List (Nat × Nat × Range)) : badSlice u rs = Machine.badSlice s rs := by
  unfold Machine.badSlice badWord
  simp only [hF.badWords]

theorem Fetched.maySend {m : Meet} {targets : List SpanQueue} (h : MaySend s m targets) : MaySend u m targets := by
  unfold MaySend at h ⊢
  rwa [hF.payloadOf, hF.badSlice]

end

/-- A row of the meeting's opcode, with what it makes of the fetched state. -/
theorem atStage_runs {s u t : State} {k : Nat} {m : Meet}
    (run : ∀ (accept : Nat → Bool) (f : State → Meet → Option State), accept (opcodeOf m.word) = true → atStage s k accept f = (f u m).getD s)
    {op : Nat} (hop : opcodeOf m.word = op) {f : State → Meet → Option State} (hf : (f u m).getD s = t) :
    (Host.Outcome.next (atStage s k (· == op) f) : Host.Outcome State Fault Refusal) = .next t :=
  congrArg _ ((run _ f (by simp [hop])).trans hf)

end Sys2Proof.Machine

/-! SUPPORT. Token channels (02 R40 to R44, 11 R273). -/

namespace Sys2Proof.Machine

/-! ### The counts -/

theorem assoc_setAssoc_same {α : Type} (l : List (Nat × α)) (k : Nat) (v : α) : assoc (setAssoc l k v) k = some v := by
  induction l with
  | nil => simp [setAssoc, assoc]
  | cons x l ih =>
    obtain ⟨i, w⟩ := x
    simp only [setAssoc]
    split
    · simp [assoc]
    · rename_i h
      simpa [assoc, List.lookup_cons, beq_false_of_ne (Ne.symm h)] using ih

theorem assoc_setAssoc_ne {α : Type} (l : List (Nat × α)) {j k : Nat} (h : j ≠ k) (v : α) : assoc (setAssoc l k v) j = assoc l j := by
  induction l with
  | nil => simp [setAssoc, assoc, List.lookup_cons, beq_false_of_ne h]
  | cons x l ih =>
    obtain ⟨i, w⟩ := x
    simp only [setAssoc]
    split
    · rename_i e
      subst e
      simp [assoc, List.lookup_cons, beq_false_of_ne h]
    · simp only [assoc, List.lookup_cons] at ih ⊢
      rw [ih]

section
variable {s : State} {n : Nat} {p : Program} (hp : progAt s n = some p)
include hp

theorem tokenCount_setToken_same (ch v : Nat) : tokenCount (setToken s n ch v) n ch = v := by
  simp [tokenCount, setToken, progAt_modProg, hp, assoc_setAssoc_same]

theorem tokenCount_setToken_ne {ch j : Nat} (h : j ≠ ch) (v : Nat) : tokenCount (setToken s n ch v) n j = tokenCount s n j := by
  simp [tokenCount, setToken, progAt_modProg, hp, assoc_setAssoc_ne _ h]

end

theorem signalToken_local {d : TokenDecl} (h : d.consumer ≠ .host) (s : State) (n k : Nat) :
    signalToken s n d k = setToken s n d.channel (tokenCount s n d.channel + k) := if_neg h

/-! ### SIGNAL and WAIT of a stage -/

/-- A stage's SIGNAL on its own channel: out of range, with room, or without. -/
theorem signalStage_own {u : State} {m : Meet} {d : TokenDecl} (hd : tokenDecl m.im m.general.index = some d) (hk : d.producer = .stage m.stage)
    (s : State) : (signalStage u m).getD s = if tokenN d m.general.count = false then m.fault u
      else if tokenRoom u m.n d m.general.count then m.done u fun s => signalToken s m.n d m.general.count else s := by
  simp only [signalStage, hd, hk, bne_self_eq_false, Bool.false_or]
  cases tokenN d m.general.count with
  | false => rfl
  | true =>
    cases tokenRoom u m.n d m.general.count with
    | false => rfl
    | true => rfl

/-- A stage's WAIT on its own channel: out of range, with the count there, or without. -/
theorem waitStage_own {u : State} {m : Meet} {d : TokenDecl} (hd : tokenDecl m.im m.general.index = some d) (hk : d.consumer = .stage m.stage)
    (s : State) : (waitStage u m).getD s = if tokenN d m.general.count = false then m.fault u
      else if m.general.count ≤ tokenCount u m.n d.channel then m.done u fun s => waitToken s m.n d.channel m.general.count else s := by
  simp only [waitStage, hd, hk, bne_self_eq_false, Bool.false_or]
  cases tokenN d m.general.count with
  | false => rfl
  | true =>
    by_cases h : m.general.count ≤ tokenCount u m.n d.channel
    · simp [h, Nat.not_lt.2 h]
    · simp [h, Nat.not_le.1 h]

/-! ### The other actors -/

section
variable {s : State} {n : Nat} {im : Image} (ha : acting s = some (n, im))
include ha

theorem exec_signalFeed {ch k : Nat} {d : TokenDecl} (hd : tokenDecl im ch = some d) (hk : tokenN d k = true) (hf : d.producer = .feed)
    (hr : tokenRoom s n d k = true) : exec (.signal (.feed ch k)) s = .next (opDone (signalToken s n d k) n) := by
  show Host.Outcome.next _ = _
  simp only [ha, signalFeed, hd, hk, hf, hr]
  rfl

theorem exec_waitFeed {ch k : Nat} {d : TokenDecl} (hd : tokenDecl im ch = some d) (hk : tokenN d k = true) (hf : d.consumer = .feed)
    (hr : k ≤ tokenCount s n ch) : exec (.wait (.feed ch k)) s = .next (opDone (waitToken s n ch k) n) := by
  show Host.Outcome.next _ = _
  simp only [ha, waitFeed, hd, hk, hf]
  exact congrArg _ (if_neg (Nat.not_lt.2 hr))

theorem exec_waitCaisson {p : Program} {ch : Nat} (hp : progAt s n = some p) (hf : im.decls.fences[p.fencesDone]? = some ch)
    (hlast : p.fencesDone + 1 < im.decls.fences.length) (hc : 1 ≤ tokenCount s n ch) :
    exec (.wait (.caisson ch)) s = .next (passFence s n ch) := by
  have next : nextFence s n im = some ch := by simp [nextFence, hp, hf]
  have more : (p.fencesDone + 1 == im.decls.fences.length) = false := by simp; omega
  show Host.Outcome.next _ = _
  simp [ha, waitCaisson, next, fenceReady, hc, hp, more]

theorem exec_signalStay {x : StayRun} {tile entry : Nat} {e : EntryRun} {d : TokenDecl} (hx : stayAt s n tile = some x)
    (he : x.outstanding.find? (fun r => r.entry == entry && r.finished) = some e) (hd : tokenDecl im e.channel = some d)
    (hp : d.producer = .stay tile) (hr : tokenRoom s n d 1 = true) :
    exec (.signal (.stay tile entry)) s = .next (runStays (opDone (signalToken (modStay s n tile fun x =>
      { x with outstanding := x.outstanding.filter fun y => y.entry != entry
               lastStep := setAssoc x.lastStep entry (((ctxAt s n).map (·.step)).getD 0) }) n d 1) n) n) := by
  show Host.Outcome.next _ = _
  simp only [ha, signalStay, hx, Option.bind_some, he, hd, hp, hr, bne_self_eq_false, Bool.not_true, Bool.false_eq_true, if_false]

end

theorem stayAt_modStay {s : State} {n tile : Nat} {x : StayRun} (hx : stayAt s n tile = some x) {f : StayRun → StayRun}
    (hf : ∀ x, (f x).tile = x.tile) : stayAt (modStay s n tile f) n tile = some (f x) := by
  obtain ⟨p, hp, hfind⟩ := Option.bind_eq_some_iff.1 hx
  have found := find_mapif p.stays (fun y => decide (y.tile = tile)) f (fun y h => by rwa [hf])
  simp only [decide_eq_true_eq] at found
  simp only [stayAt, modStay, progAt_modProg, hp, if_true, Option.map_some, Option.bind_some, found, hfind]

theorem tokenCount_modStay (s : State) (n tile ch : Nat) (f : StayRun → StayRun) : tokenCount (modStay s n tile f) n ch = tokenCount s n ch := by
  unfold tokenCount modStay
  rw [progAt_modProg, if_pos rfl]
  cases progAt s n <;> rfl

/-- Settles O10: the stage's two rows on the fetched state, the other actors' rows, and the counts after a SIGNAL and a WAIT. -/
theorem signalAndWaitCountTokens : Obligations.SignalAndWaitCountTokens := by
  unfold Obligations.SignalAndWaitCountTokens
  refine ⟨fun s k m d hm hd => ?stage, fun s n im d ch k ha hd hk => ⟨fun hf hr => exec_signalFeed ha hd hk hf hr,
    fun hf hr => exec_waitFeed ha hd hk hf hr⟩, fun s n im d x tile entry e ha hx he hd hp hr => ?stay,
    fun s n im p ch ha hp hf hl hc => exec_waitCaisson ha hp hf hl hc, fun s n p d k hp => ?counts⟩
  case stage =>
    obtain ⟨u, hF, run⟩ := atStage_meets hm
    obtain ⟨rfl, -⟩ := hm
    refine ⟨u, hF, fun hop hk => ?_, fun hop hk => ?_⟩
    · rw [← hF.tokenRoom]
      exact atStage_runs run hop (signalStage_own hd hk s)
    · rw [← hF.tokenCount]
      exact atStage_runs run hop (waitStage_own hd hk s)
  case stay =>
    exact ⟨_, exec_signalStay ha hx he hd hp hr, stayAt_modStay hx fun _ => rfl, fun ch => tokenCount_modStay .., rfl⟩
  case counts =>
    refine ⟨fun hc => ?_, tokenCount_setToken_same hp .., fun ch hne => tokenCount_setToken_ne hp hne _⟩
    rw [signalToken_local hc]
    exact ⟨tokenCount_setToken_same hp .., fun ch hne => tokenCount_setToken_ne hp hne _⟩

end Sys2Proof.Machine

/-! SUPPORT. Commands on programs: what one that may start runs on, and the replies of the queries (02 R44, R49, 13 R335, R337). -/

namespace Sys2Proof.Machine

/-- A row of a command that may start, with what it makes of the state in which the command has started. -/
theorem onCmd_runs {s t : State} {q seq op : Nat} {c : Taken} (hr : ready s q seq op = some c) {f : State → Taken → State}
    (hf : f (start s q seq) c = t) : (Host.Outcome.next (onCmd s q seq op f) : Host.Outcome State Fault Refusal) = .next t :=
  congrArg _ ((onCmd_ready hr f).trans hf)

/-! ### Starting a command changes no context -/

@[simp] theorem ctxAt_start (s : State) (q seq n : Nat) : ctxAt (start s q seq) n = ctxAt s n := rfl
@[simp] theorem progAt_start (s : State) (q seq n : Nat) : progAt (start s q seq) n = progAt s n := rfl
@[simp] theorem imageAt_start (s : State) (q seq n : Nat) : imageAt (start s q seq) n = imageAt s n := rfl
@[simp] theorem tokenRoom_start (s : State) (q seq n : Nat) (d : TokenDecl) (k : Nat) :
    tokenRoom (start s q seq) n d k = tokenRoom s n d k := rfl

/-- Settles O38: each of the three commands runs its accepting branch on the state in which it has started. -/
theorem tokensAndQueriesAnswer : Obligations.TokensAndQueriesAnswer := by
  unfold Obligations.TokensAndQueriesAnswer
  intro s q seq c
  refine ⟨fun im p d hr him hp hd hown hk hst hroom => onCmd_runs hr ?_, fun x hr hx => ⟨fun him => onCmd_runs hr ?_,
    fun im y v him hy => ⟨fun l hl => onCmd_runs hr ?_, fun hl => onCmd_runs hr ?_⟩⟩, fun x p y r hr hx hp hy ho => onCmd_runs hr ?_⟩
  · have live : (p.st == .faulted) = false := by simpa using hst
    simp [hp, him, hd, hown, hk, live, hroom]
  · simp only [ctxAt_start, hx, him]
  · simp only [ctxAt_start, hx, him, hy, hl]
  · simp only [ctxAt_start, hx, him, hy, hl]
    rfl
  · subst ho
    simp only [ctxAt_start, hx, hp, Option.map_some, Option.getD_some, hy, List.any_cons, List.any_nil, Bool.or_false,
      List.findSome?_singleton]

/-! ### IMAGE_LOAD (R49, R335) -/

@[simp] theorem loadCheck_start (s : State) (q seq n : Nat) (d : Decls) (b : List Byte) : loadCheck (start s q seq) n d b = loadCheck s n d b := rfl
@[simp] theorem granted_start (s : State) (q seq n a len : Nat) : granted (start s q seq) n a len = granted s n a len := rfl

section
variable {s : State} {q seq : Nat} {c : Taken} {x : Context} {b : List Byte} {d : Decls} (hr : ready s q seq 0x0301 = some c)
  (hx : ctxAt s c.context = some x) (hi : x.image = none) (hlen : c.payload.length = 32) (hz : zeroField c.payload 24 8 = true)
  (ha : field c.payload 16 8 % 4096 = 0) (hb : field c.payload 8 8 = b.length) (hpos : 0 < b.length) (hmax : b.length ≤ 4 * 1073741824)
  (hg : granted s c.context (field c.payload 16 8) b.length = true)
include hr hx hi hlen hz ha hb hpos hmax hg

/-- An image whose payload is in order and whose place is granted fails a load check. -/
theorem exec_imageLoad_refused {st k : Nat} (h : loadCheck s c.context d b = some (st, k)) :
    exec (.imageLoad q seq (some b) d) s = .next (finish (start s q seq) q seq st [k]) := by
  have whole : b.length ≠ 0 := by omega
  have fits : ¬ 4 * 1073741824 < b.length := by omega
  refine onCmd_runs hr ?_
  simp [hx, hi, hlen, hz, ha, hb, whole, fits, hg, h]

/-- Such an image passes the load checks, and HBM takes it. -/
theorem exec_imageLoad_loaded (h : loadCheck s c.context d b = none) (eu : s.hbm.uncorrectable = []) (ec : s.hbm.correctable = [])
    (er : s.caisson.run = none) : exec (.imageLoad q seq (some b) d) s = .next (finish
      (modCtx { count (start s q seq) 5 ((stackOf (field c.payload 16 8)).getD 0) 1 b.length with
          hbm := { s.hbm with mem := s.hbm.mem.write (field c.payload 16 8) b } } c.context
        fun y => { y with image := some (imageOf (field c.payload 16 8) d b), step := 0, nextMb := 0 }) q seq stOk []) := by
  have whole : b.length ≠ 0 := by omega
  have fits : ¬ 4 * 1073741824 < b.length := by omega
  have written := writeHbm_clean (s := start s q seq) eu ec er (hostReader c.context q) (field c.payload 16 8) b
  refine onCmd_runs hr ?_
  simp only [ctxAt_start, hx, hi, Option.isSome_none, hlen, hz, ha, hb, whole, fits, granted_start, hg, ne_eq, not_true_eq_false, decide_false,
    Bool.not_true, Bool.or_self, Bool.false_eq_true, if_false, loadCheck_start, h, written]
  rfl

end

/-! ### LAUNCH (R182, R335, R337) -/

section
variable {s v : State} {q seq : Nat} {c : Taken} {x : Context} {im : Image} {l : List (Section × List Byte)} (hr : ready s q seq 0x0302 = some c)
  (hx : ctxAt s c.context = some x) (hi : x.image = some im) (hp : programRuns x = false)
include hr hx hi hp

theorem exec_launch_unreadable
    (hv : readSections (hostReader c.context q) im (im.sections.filter fun y => y.type = 0x0005) (start s q seq) = (v, none)) :
    exec (.launch q seq) s = .next (finish v q seq stMemUncorrectable []) := by
  refine onCmd_runs hr ?_
  simp only [ctxAt_start, hx, hi, hp, Bool.false_eq_true, if_false, hv, refuse]

variable (hv : readSections (hostReader c.context q) im (im.sections.filter fun y => y.type = 0x0005) (start s q seq) = (v, some l))
include hv

theorem exec_launch_badWindow {st pier i : Nat} (hw : badWindow l = some (st, pier, i)) :
    exec (.launch q seq) s = .next (finish v q seq st [pier, i]) := by
  refine onCmd_runs hr ?_
  simp only [ctxAt_start, hx, hi, hp, Bool.false_eq_true, if_false, hv, hw]

theorem exec_launch_badBond {d : QueueDecl} (hw : badWindow l = none) (hd : im.decls.queues.find? (badBond v) = some d) :
    exec (.launch q seq) s = .next (finish v q seq stBadParam [d.link]) := by
  refine onCmd_runs hr ?_
  simp only [ctxAt_start, hx, hi, hp, Bool.false_eq_true, if_false, hv, hw, hd]

theorem exec_launch_binds (hw : badWindow l = none) (hd : im.decls.queues.find? (badBond v) = none) : exec (.launch q seq) s = .next
    (checkBound (sendBinds (modCtx (dropWaits v c.context) c.context fun y =>
      { y with program := some (freshProgram v y im q seq) }) c.context) c.context) := by
  refine onCmd_runs hr ?_
  simp only [ctxAt_start, hx, hi, hp, Bool.false_eq_true, if_false, hv, hw, hd]

end

/-! ### Binding complete (R182, R191) -/

/-- A queue without a policy does nothing at an event. -/
theorem runPolicy_none {im : Image} (h : im.policies = []) (s : State) (n q : Nat) (e : SlotEvent) : runPolicy s n im q e = s := by
  simp [runPolicy, policyOf, h]

/-- Everything is bound and the context is not the active one: its queues open, and it waits for its slice. -/
theorem checkBound_inactive {s : State} {n : Nat} {p : Program} {im : Image} (hp : progAt s n = some p) (hi : imageAt s n = some im)
    (hst : p.st = .binding) (hl : p.queues.all (fun x => x.link.all fun L => L.st == .bound) = true) (ha : p.assocs.all (·.st == .bound) = true)
    (hpol : im.policies = []) (hact : s.sched.active ≠ some n) : checkBound s n = modProg s n fun p =>
      { p with st := .waitingSlice, queues := p.queues.map fun x => { x with st := .opened } } := by
  have quiet (s : State) : im.decls.queues.foldl (fun s d => runPolicy s n im d.queue .launched) s = s := by
    induction im.decls.queues generalizing s with
    | nil => rfl
    | cons d ds ih => rw [List.foldl_cons, runPolicy_none hpol, ih]
  simp only [checkBound, hp, hi, hst, hl, ha, beq_self_eq_true, Bool.and_self, if_true, quiet, modProg_sched, hact, false_and, if_false]

/-- Settles O37: each of the four rows by the branch that its conditions choose. -/
theorem imagesLoadLaunchAndUnload : Obligations.ImagesLoadLaunchAndUnload := by
  unfold Obligations.ImagesLoadLaunchAndUnload
  refine ⟨fun s q seq c x b d addr hr hx hi hlen hz haddr ha hb hpos hmax hg => ?load, fun s v q seq c x im hr hx hi hp =>
    ⟨exec_launch_unreadable hr hx hi hp, fun l hl => ⟨fun st pier i => exec_launch_badWindow hr hx hi hp hl,
      fun d => exec_launch_badBond hr hx hi hp hl, exec_launch_binds hr hx hi hp hl⟩⟩,
    fun s n p im hp hi hst hl ha hpol hact => ?bound, fun s q seq c x hr hx hp hi => onCmd_runs hr ?unload⟩
  case load =>
    subst haddr
    refine ⟨fun st k h => exec_imageLoad_refused hr hx hi hlen hz ha hb hpos hmax hg h, fun h hwf eu ec er => ?_⟩
    refine ⟨_, exec_imageLoad_loaded hr hx hi hlen hz ha hb hpos hmax hg h eu ec er, fun n => ?_, fun a => Memory.get_write_if hwf .., rfl⟩
    rw [ctxAt_modCtx]
    by_cases hn : n = c.context
    · subst hn
      rw [if_pos rfl, if_pos rfl]
      show (ctxAt s c.context).map _ = _
      rw [hx]
      rfl
    · rw [if_neg (Ne.symm hn), if_neg hn]
      rfl
  case bound =>
    rw [checkBound_inactive hp hi hst hl ha hpol hact, progAt_modProg, if_pos rfl, hp]
    exact ⟨rfl, rfl⟩
  case unload =>
    have loaded : ¬ (programRuns x = true ∨ x.image.isNone = true) := by
      cases h : x.image <;> simp_all
    simp only [ctxAt_start, hx, if_neg loaded]

end Sys2Proof.Machine

/-! SUPPORT. Queues of a program: reading one after it has changed, and a slot's bytes written where no error is met (07 R186 to R191). -/

namespace Sys2Proof.Machine

/-! ### A queue after a change -/

theorem queue_modSpanQueue {s : State} {n q : Nat} {x : SpanQueue} (hx : ((progAt s n).bind fun p => spanQueueAt p q) = some x)
    {f : SpanQueue → SpanQueue} (hf : ∀ x, (f x).decl = x.decl) :
    ((progAt (modSpanQueue s n q f) n).bind fun p => spanQueueAt p q) = some (f x) := by
  obtain ⟨p, hp, hfind⟩ := Option.bind_eq_some_iff.1 hx
  have found := find_mapif p.queues (fun y => decide (y.decl.queue = q)) f (fun y h => by rwa [hf])
  simp only [decide_eq_true_eq] at found
  simp only [modSpanQueue, progAt_modProg, hp, if_true, Option.map_some, Option.bind_some, spanQueueAt] at hfind ⊢
  rw [found, hfind]
  rfl

theorem queue_decl {s : State} {n q : Nat} {x : SpanQueue} (hx : ((progAt s n).bind fun p => spanQueueAt p q) = some x) : x.decl.queue = q := by
  obtain ⟨p, -, hfind⟩ := Option.bind_eq_some_iff.1 hx
  simpa using List.find?_some hfind

theorem linkAt_queue {s : State} {n q : Nat} {x : SpanQueue} (hx : ((progAt s n).bind fun p => spanQueueAt p q) = some x) :
    linkAt s n q = x.link := by
  unfold linkAt
  rw [hx]
  rfl

/-- Queue q of context n stands as given, in a program that has not faulted. -/
def Holds (s : State) (n q : Nat) (x : SpanQueue) : Prop :=
  ((progAt s n).bind fun p => spanQueueAt p q) = some x ∧ faultedIn s n = false

section
variable {s : State} {n q : Nat} {x : SpanQueue} (h : Holds s n q x)
include h

theorem Holds.queue {f : SpanQueue → SpanQueue} (hf : ∀ x, (f x).decl = x.decl) : Holds (modSpanQueue s n q f) n q (f x) := by
  refine ⟨queue_modSpanQueue h.1 hf, ?_⟩
  have live := h.2
  unfold faultedIn at live ⊢
  unfold modSpanQueue
  rw [progAt_modProg, if_pos rfl]
  cases hp : progAt s n with
  | none => rfl
  | some p => simpa [hp] using live

theorem Holds.of_prog {t : State} (ht : progAt t n = progAt s n) : Holds t n q x := by
  unfold Holds faultedIn at h ⊢
  rwa [ht]

end

theorem progAt_counters (s : State) (n m : Nat) (g : Context → List (Nat × Nat)) :
    progAt (modCtx s n fun c => { c with counters := g c }) m = progAt s m := by
  unfold progAt
  rw [ctxAt_modCtx]
  split
  · cases ctxAt s m <;> rfl
  · rfl

/-- Raising a high-water counter changes counters of the context only. -/
theorem highCtx_eq (s : State) (n c i x v : Nat) : ∃ g : Context → List (Nat × Nat),
    highCtx s n c i x v = modCtx s n fun c => { c with counters := g c } := by
  unfold highCtx
  split
  · exact ⟨_, rfl⟩
  · exact ⟨_, (modCtx_same s n).symm⟩

/-- From s to t contexts alone have changed, and queue q of context n has become x. -/
def Requeued (s t : State) (n q : Nat) (x : SpanQueue) : Prop := Holds t n q x ∧ t = { s with ctxs := t.ctxs }

section
variable {s t : State} {n q : Nat} {x : SpanQueue} (h : Requeued s t n q x)
include h

theorem Requeued.queue {f : SpanQueue → SpanQueue} (hf : ∀ x, (f x).decl = x.decl) : Requeued s (modSpanQueue t n q f) n q (f x) := by
  refine ⟨h.1.queue hf, ?_⟩
  rw [h.2]
  rfl

theorem Requeued.slot (i : Nat) (f : Slot → Slot) : Requeued s (modSlot t n q i f) n q { x with slots := modAt x.slots i f } :=
  h.queue fun _ => rfl

theorem Requeued.counters (g : Context → List (Nat × Nat)) : Requeued s (modCtx t n fun c => { c with counters := g c }) n q x := by
  refine ⟨h.1.of_prog (progAt_counters ..), ?_⟩
  rw [h.2]
  rfl

/-- A slot of the queue takes its descriptor. -/
theorem Requeued.begun (i : Nat) : Requeued s (beginSlot t n q i) n q { x with
    slots := modAt x.slots i fun y => { y with st := .filling, buf := [], fetched := false, bad := [], weak := [], segsSeen := 0 }
    fillAt := (i + 1) % x.slots.length } := by
  have begun := (h.slot i fun y => { y with st := .filling, buf := [], fetched := false, bad := [], weak := [], segsSeen := 0 }).queue
    (f := fun x => { x with fillAt := (i + 1) % x.slots.length }) fun _ => rfl
  simp only [length_modAt] at begun
  unfold beginSlot
  dsimp only
  rw [begun.1.1]
  obtain ⟨g, hg⟩ := highCtx_eq _ n 2 q 2 (occupancy _)
  dsimp only
  rw [hg]
  exact begun.counters g

end

/-! ### A slot's bytes (R190, R191) -/

theorem Requeued.refl {s : State} {n q : Nat} {x : SpanQueue} (h : Holds s n q x) : Requeued s s n q x := ⟨h, rfl⟩

theorem Requeued.buffered {s t : State} {n q : Nat} {x : SpanQueue} (h : Requeued s t n q x) (home : Option Nat) (y : Slot) :
    buffered t n home y = Machine.buffered s n home y := by
  unfold Machine.buffered
  rw [h.2]

/-- The single-bit errors of a slot that holds none are corrected, and its bytes written, in the Span buffer. -/
def putBuffer (off : Nat) (bs : List Byte) (y : Slot) : Slot :=
  let y := { y with weak := y.weak.filter fun w => !([] : List Nat).contains w }
  { y with
    buf := y.buf.write off bs
    bad := y.bad.filter fun w => !rangeInside (8 * w) 8 off bs.length
    weak := y.weak.filter fun w => !rangesMeet (8 * w) 8 off bs.length }

section
variable {s t : State} {n q i : Nat} {im : Image} {x y : SpanQueue} (hq : x.decl.queue = q)
include hq

/-- Bytes written into a slot of the Span buffer that holds no single-bit error. -/
theorem Requeued.written (h : Requeued s t n q y) (hb : Machine.buffered s n (slotHome im x.decl i) (slotAt x i) = true)
    (hw : (slotAt x i).weak = []) (off : Nat) (bs : List Byte) :
    Requeued s (writeSlot t n im x i off bs) n q { y with slots := modAt y.slots i (putBuffer off bs) } := by
  rw [← h.buffered] at hb
  have put := (h.slot i fun y => { y with weak := y.weak.filter fun w => !([] : List Nat).contains w }).slot i fun y =>
    { y with
      buf := y.buf.write off bs
      bad := y.bad.filter fun w => !rangeInside (8 * w) 8 off bs.length
      weak := y.weak.filter fun w => !rangesMeet (8 * w) 8 off bs.length }
  simp only [modAt_modAt] at put
  unfold writeSlot
  rw [hb]
  cases slotHome im x.decl i <;> (simp only [correctSlot, partWords, hw, hq, List.filter_nil, List.foldl_nil]; exact put)

end

/-- From s to t contexts, counters and HBM have changed: queue q of context n has become y, and HBM holds m. -/
def Spilled (s t : State) (n q : Nat) (y : SpanQueue) (m : Memory) : Prop :=
  Holds t n q y ∧ t = { s with ctxs := t.ctxs, hbm := { s.hbm with mem := m }, counters := t.counters }

theorem Requeued.spilled {s t : State} {n q : Nat} {y : SpanQueue} (h : Requeued s t n q y) : Spilled s t n q y s.hbm.mem := by
  refine ⟨h.1, ?_⟩
  rw [h.2]

theorem Spilled.hbm {s t : State} {n q : Nat} {y : SpanQueue} {m : Memory} (h : Spilled s t n q y m) : t.hbm = { s.hbm with mem := m } := by
  rw [h.2]

theorem Spilled.slot {s t : State} {n q : Nat} {y : SpanQueue} {m : Memory} (h : Spilled s t n q y m) (i : Nat) (f : Slot → Slot) :
    Spilled s (modSlot t n q i f) n q { y with slots := modAt y.slots i f } m := by
  refine ⟨h.1.queue fun _ => rfl, ?_⟩
  rw [h.2]
  rfl

section
variable {s t : State} {n q i home : Nat} {im : Image} {x y : SpanQueue} {m : Memory} (hh : slotHome im x.decl i = some home)
  (hb : buffered s n (some home) (slotAt x i) = false) (hbad : s.pylon.spillBad.contains (hostTile im x.decl) = false)
  (hweak : s.pylon.spillWeak.contains (hostTile im x.decl) = false) (eu : s.hbm.uncorrectable = []) (ec : s.hbm.correctable = [])
  (er : s.caisson.run = none)
include hh hb hbad hweak eu ec er

/-- Bytes of a slot written into its home, over a spill path and in an HBM without errors. -/
theorem Spilled.written (h : Spilled s t n q y m) (off : Nat) (bs : List Byte) (hm : mayWrite im (home + off) bs.length = true) :
    Spilled s (writeSlot t n im x i off bs) n q y (m.write (home + off) bs) := by
  have parts := h.2
  obtain ⟨g, hg⟩ := countCtx_eq t n 2 x.decl.queue 4 bs.length
  have there : buffered t n (some home) (slotAt x i) = false := by
    rw [← hb, parts]
    rfl
  have path : spillPath t n (hostTile im x.decl) (home + off) = (t, false) := by
    have tb : t.pylon = s.pylon := by rw [parts]
    simp only [spillPath, tb, hbad, hweak, Bool.false_eq_true, if_false]
  have mem := h.hbm
  have run : t.caisson = s.caisson := by rw [parts]
  have step : writeSlot t n im x i off bs = { count (countCtx t n 2 x.decl.queue 4 bs.length) 5 ((stackOf (home + off)).getD 0) 1 bs.length with
      hbm := { t.hbm with mem := t.hbm.mem.write (home + off) bs } } := by
    unfold writeSlot
    simp only [hh, there, hm, Bool.not_true, Bool.false_eq_true, if_false, path]
    rw [writeOrFault_clean (by rw [countCtx_hbm, mem]; exact eu) (by rw [countCtx_hbm, mem]; exact ec) (by rw [hg]; exact run ▸ er), countCtx_hbm]
  rw [step, hg]
  refine ⟨h.1.of_prog (progAt_counters t n n g), ?_⟩
  rw [parts]
  rfl

end

/-! ### A micro-batch delivered into a queue of this package (R186, R188) -/

section
variable {s : State} {n q : Nat} {im : Image} {x : SpanQueue} (h : Holds s n q x) (d : Desc) (segs : List Seg) (payload : List Byte)
include h

/-- The state in which a slot's bytes are written, before it is FULL. -/
theorem fillSlot_live (live : faultedIn (writeSlot (writeSlot (beginSlot s n q x.fillAt) n im x x.fillAt 0 (encodeDesc d ++ segs.flatMap encodeSeg))
      n im x x.fillAt (payloadOffset (classOf im x.decl)) payload) n = false) :
    fillSlot s n im q d segs payload = runPolicy (modSlot (writeSlot (writeSlot (beginSlot s n q x.fillAt) n im x x.fillAt 0
      (encodeDesc d ++ segs.flatMap encodeSeg)) n im x x.fillAt (payloadOffset (classOf im x.decl)) payload) n q x.fillAt
        fun y => { y with st := .full }) n im q .filled := by
  unfold fillSlot
  rw [h.1]
  dsimp only
  rw [live]
  rfl

/-- A slot of the Span buffer filled whole. -/
theorem fillSlot_buffered (hb : buffered s n (slotHome im x.decl x.fillAt) (slotAt x x.fillAt) = true) (hw : (slotAt x x.fillAt).weak = []) :
    ∃ v, fillSlot s n im q d segs payload = runPolicy v n im q .filled ∧ Requeued s v n q { x with
      slots := modAt x.slots x.fillAt fun y => { y with
        st := .full, fetched := false, bad := [], weak := [], segsSeen := 0
        buf := (Memory.write [] 0 (encodeDesc d ++ segs.flatMap encodeSeg)).write (payloadOffset (classOf im x.decl)) payload }
      fillAt := (x.fillAt + 1) % x.slots.length } := by
  have hq := queue_decl h.1
  have filled := (((Requeued.refl h).begun x.fillAt).written hq hb hw 0 (encodeDesc d ++ segs.flatMap encodeSeg)).written hq hb hw
    (payloadOffset (classOf im x.decl)) payload
  have full := filled.slot x.fillAt fun y => { y with st := .full }
  simp only [modAt_modAt, Function.comp_def, putBuffer, List.filter_nil] at full
  exact ⟨_, fillSlot_live h d segs payload filled.1.2, full⟩

/-- A slot filled whole in its home. -/
theorem fillSlot_spilled {home : Nat} (hh : slotHome im x.decl x.fillAt = some home) (hb : buffered s n (some home) (slotAt x x.fillAt) = false)
    (hd : mayWrite im home (encodeDesc d ++ segs.flatMap encodeSeg).length = true)
    (hp : mayWrite im (home + payloadOffset (classOf im x.decl)) payload.length = true)
    (hbad : s.pylon.spillBad.contains (hostTile im x.decl) = false) (hweak : s.pylon.spillWeak.contains (hostTile im x.decl) = false)
    (eu : s.hbm.uncorrectable = []) (ec : s.hbm.correctable = []) (er : s.caisson.run = none) :
    ∃ v, fillSlot s n im q d segs payload = runPolicy v n im q .filled ∧ Spilled s v n q { x with
        slots := modAt x.slots x.fillAt fun y => { y with st := .full, fetched := false, bad := [], weak := [], segsSeen := 0, buf := [] }
        fillAt := (x.fillAt + 1) % x.slots.length }
      ((s.hbm.mem.write home (encodeDesc d ++ segs.flatMap encodeSeg)).write (home + payloadOffset (classOf im x.decl)) payload) := by
  have filled := (((Requeued.refl h).begun x.fillAt).spilled.written hh hb hbad hweak eu ec er 0 _ hd).written hh hb hbad hweak eu ec er
    (payloadOffset (classOf im x.decl)) payload hp
  have full := filled.slot x.fillAt fun y => { y with st := .full }
  simp only [modAt_modAt] at full
  exact ⟨_, fillSlot_live h d segs payload filled.1.2, full⟩

end

end Sys2Proof.Machine

/-! SUPPORT. PUSH and FORK (02 R45, 07 R177 to R179, R186, R196). -/

namespace Sys2Proof.Machine

/-- A PUSH or FORK whose targets take the payload. -/
theorem send_delivers {u : State} {m : Meet} {c : Micro} {targets : List SpanQueue} (hc : (stageAt u m.n m.stage).bind (·.current) = some c)
    (h : MaySend u m targets) : send u m targets = some (m.done u fun s =>
      targets.foldl (fun s x => deliver s m.n m.im x.decl.queue (outgoing m c (payloadOf u m.slices).length) c.segs (payloadOf u m.slices))
        (m.slices.foldl (fun s y => touchPad s m.n y.1 [y.2.2]) s)) := by
  obtain ⟨ready, hs, hb⟩ := h
  have each (x : SpanQueue) (hx : x ∈ targets) : x.decl.producer = m.stage ∧ targetRoom x = true
      ∧ (payloadOf u m.slices).length ≤ (classOf m.im x.decl).payloadMax := by
    simpa [and_assoc] using List.all_eq_true.1 ready x hx
  have own : (targets.any fun x => x.decl.producer != m.stage) = false := by
    simpa [List.any_eq_false] using fun x hx => (each x hx).1
  have fits : (targets.any fun x => decide ((classOf m.im x.decl).payloadMax < (payloadOf u m.slices).length)) = false := by
    simpa [List.any_eq_false] using fun x hx => (each x hx).2.2
  have room : targets.all targetRoom = true := List.all_eq_true.2 fun x hx => (each x hx).2.1
  simp only [send, hc, own, hs, hb, fits, room, Bool.not_true, Bool.false_eq_true, if_false]

/-- A queue that is not the sending end of a link is filled where it is. -/
theorem deliver_here {s : State} {n q : Nat} {x : SpanQueue} (hx : ((progAt s n).bind fun p => spanQueueAt p q) = some x)
    (hl : x.link.filter (·.sending) = none) (im : Image) (d : Desc) (segs : List Seg) (payload : List Byte) :
    deliver s n im q d segs payload = fillSlot s n im q d segs payload := by
  simp only [deliver, hx, hl]

/-- A sending end sends, and counts one more slot. -/
theorem deliver_far {s : State} {n q : Nat} {x : SpanQueue} {L : SpanLink} (hx : ((progAt s n).bind fun p => spanQueueAt p q) = some x)
    (hl : x.link = some L) (hL : L.sending = true) (im : Image) (d : Desc) (segs : List Seg) (payload : List Byte) :
    deliver s n im q d segs payload = modSpanQueue (sendData (sendDesc s n q x.fillAt d segs) n q (payloadOffset (classOf im x.decl)) payload) n q
      fun y => { y with fillAt := (y.fillAt + 1) % y.decl.depth, link := y.link.map bumpSent } := by
  simp only [deliver, hx, hl, Option.filter, hL, if_true]

/-- A segment table that one frame holds. -/
theorem sendDesc_one {segs : List Seg} (h : segs.length ≤ 1016) (s : State) (n q slot : Nat) (d : Desc) :
    sendDesc s n q slot d segs = sendSpan s n q 0x01 0 slot (encodeDesc d ++ segs.flatMap encodeSeg) := by
  have none : ceilDiv (segs.length - 1016) 1024 = 0 := by
    rw [Nat.sub_eq_zero_of_le h]
    rfl
  simp only [sendDesc, List.take_of_length_le h, none, chunks, List.foldl_nil]

/-- A payload that one frame holds. -/
theorem sendData_one {payload : List Byte} (h1 : 1 ≤ payload.length) (h2 : payload.length ≤ 8192) (s : State) (n q off : Nat) :
    sendData s n q off payload = sendSpan s n q 0x02 1 off payload := by
  have full : payload.isEmpty = false := by
    cases payload with
    | nil => simp at h1
    | cons b bs => rfl
  have one : ceilDiv payload.length 8192 = 1 := by
    unfold ceilDiv
    omega
  simp [sendData, full, one, chunks, List.take_of_length_le h2, flag]

/-- Settles O8: the two rows on the fetched state, then a delivery into a slot of the Span buffer, into a slot's home, and over a link. -/
theorem pushAndForkDeliver : Obligations.PushAndForkDeliver := by
  unfold Obligations.PushAndForkDeliver
  refine ⟨fun s k m c hm hc => ?rows, fun s n q i im p x d segs payload hp hst hx hl _ hi _ hw => ?here,
    fun s n q im x L d segs payload hx hl hL => ?far⟩
  case rows =>
    obtain ⟨u, hF, run⟩ := atStage_meets hm
    obtain ⟨rfl, -⟩ := hm
    rw [← hF.stageAt] at hc
    refine ⟨u, hF, fun x hop hx hsend => atStage_runs run hop ?_, fun g qs hop hg hsend => atStage_runs run hop ?_⟩
    · simp only [hF.progAt, hx, send_delivers hc (hF.maySend hsend)]
      rfl
    · simp only [hF.groupOf, hg, send_delivers hc (hF.maySend hsend)]
      rfl
  case here =>
    subst hi
    have queue : ((progAt s n).bind fun p => spanQueueAt p q) = some x := by rw [hp]; exact hx
    have holds : Holds s n q x := ⟨queue, by simp [faultedIn, hp, hst]⟩
    rw [deliver_here queue hl]
    refine ⟨fun hb => ?_, fun home hh hb hd hpay hbad hweak eu ec er => ?_⟩
    · obtain ⟨v, hv, ⟨stands, -⟩, parts⟩ := fillSlot_buffered holds d segs payload hb hw
      exact ⟨v, hv, stands, parts⟩
    · obtain ⟨v, hv, spilled⟩ := fillSlot_spilled holds d segs payload hh hb hd hpay hbad hweak eu ec er
      have mem := spilled.hbm
      obtain ⟨⟨stands, -⟩, parts⟩ := spilled
      refine ⟨v, hv, stands, mem, ?_⟩
      rw [mem]
      exact parts
  case far =>
    exact ⟨_, _, deliver_far hx hl hL .., rfl, rfl, fun h => sendDesc_one h .., fun h => sendData_one h.1 h.2 ..⟩

end Sys2Proof.Machine

/-! SUPPORT. POP, JOIN and RELEASE (02 R45, 07 R179, R188, R197). -/

namespace Sys2Proof.Machine

/-- A queue whose oldest held slot is released. -/
def freeOldest (x : SpanQueue) : SpanQueue :=
  { x with
    slots := modAt x.slots x.heldAt fun y => { y with st := .free, buf := [], fetched := false, bad := [], weak := [], segsSeen := 0 }
    heldAt := (x.heldAt + 1) % x.slots.length }

/-- A link with one more RELEASE. -/
def oneMoreReleased (L : SpanLink) : SpanLink := { L with released := add32 L.released 1 }

section
variable {s : State} {n q : Nat} {x : SpanQueue} (hx : ((progAt s n).bind fun p => spanQueueAt p q) = some x)
include hx

theorem queue_freed : ((progAt (modSpanQueue s n q freeOldest) n).bind fun p => spanQueueAt p q) = some (freeOldest x) :=
  queue_modSpanQueue hx fun _ => rfl

/-- A local queue's oldest held slot is released, and its policy runs. -/
theorem releaseSlot_here (im : Image) (hl : x.link = none) :
    releaseSlot s n im q = runPolicy (modSpanQueue s n q freeOldest) n im q .released := by
  have link : linkAt (modSpanQueue s n q freeOldest) n q = none := by
    rw [linkAt_queue (queue_freed hx)]
    exact hl
  unfold releaseSlot
  dsimp only
  unfold freeOldest at link ⊢
  rw [link]

/-- At the hosting end of a remote queue CREDIT goes out too. -/
theorem releaseSlot_far (im : Image) {L : SpanLink} (hl : x.link = some L) : releaseSlot s n im q = runPolicy
    (sendSpan (modLink (modSpanQueue s n q freeOldest) n q oneMoreReleased) n q 0x03 0 (add32 L.released 1) []) n im q .released := by
  have link : linkAt (modSpanQueue s n q freeOldest) n q = some L := by
    rw [linkAt_queue (queue_freed hx)]
    exact hl
  unfold releaseSlot
  dsimp only
  unfold freeOldest at link ⊢
  rw [link]
  rfl

/-- The slot is free before the hosting end sends CREDIT and the policy runs. -/
theorem releaseSlot_frees (im : Image) : ∃ w, ((progAt w n).bind fun p => spanQueueAt p q) = some { x with
      slots := modAt x.slots x.heldAt fun y => { y with st := .free, buf := [], fetched := false, bad := [], weak := [], segsSeen := 0 }
      heldAt := (x.heldAt + 1) % x.slots.length
      link := x.link.map fun L => { L with released := add32 L.released 1 } }
    ∧ w = { s with ctxs := w.ctxs }
    ∧ releaseSlot s n im q = runPolicy (x.link.elim w fun L => sendSpan w n q 0x03 0 (add32 L.released 1) []) n im q .released := by
  cases hl : x.link with
  | none =>
    refine ⟨_, (queue_freed hx).trans ?_, rfl, releaseSlot_here hx im hl⟩
    simp only [freeOldest, hl, Option.map_none]
  | some L =>
    refine ⟨modLink (modSpanQueue s n q freeOldest) n q oneMoreReleased,
      (queue_modSpanQueue (queue_freed hx) (f := fun y => { y with link := y.link.map oneMoreReleased }) fun _ => rfl).trans ?_, rfl,
      releaseSlot_far hx im hl⟩
    simp only [freeOldest, hl]
    rfl

end

/-- What POP does to a state of the stage's piers: the head is read, held and written to them. -/
def takeHead (m : Meet) (x : SpanQueue) (u : State) : State :=
  match readHead u m.n m.im x with
  | (v, none) => v
  | (v, some (d, segs, payload)) =>
    writePiers (setCurrent (stampAdmitted (holdHead v m.n x.decl.queue) m.n x.decl d).1 m
        (stampAdmitted (holdHead v m.n x.decl.queue) m.n x.decl d).2 segs x.decl.descAddr) m
      (heading m x.decl.descAddr (stampAdmitted (holdHead v m.n x.decl.queue) m.n x.decl d).2 segs ++ portions payload 0 0 m.slices)

/-- Settles O9: the three rows on the fetched state, then what the head and the oldest held slot become. -/
theorem popJoinAndReleaseTakeSlots : Obligations.PopJoinAndReleaseTakeSlots := by
  unfold Obligations.PopJoinAndReleaseTakeSlots
  refine ⟨fun s k m hm => ?rows, fun s n q im x hx => ⟨queue_modSpanQueue hx fun _ => rfl, rfl, releaseSlot_frees hx im⟩⟩
  obtain ⟨u, hF, run⟩ := atStage_meets hm
  obtain ⟨rfl, -⟩ := hm
  refine ⟨u, hF, fun x hop hx hc hfull => ⟨takeHead m x, atStage_runs run hop ?_, fun v d segs payload hread => ?_⟩,
    fun x hop hx hc hheld => atStage_runs run hop ?_, fun g qs hop hg hall => atStage_runs run hop ?_⟩
  · simp only [hF.progAt, hx, hc, bne_self_eq_false, Bool.false_eq_true, if_false, hfull, Bool.not_true]
    rfl
  · simp only [takeHead, hread]
  · simp only [hF.progAt, hx, hc, hheld, bne_self_eq_false, Bool.or_self, Bool.false_eq_true, if_false]
    rfl
  · have own : (qs.any fun x => x.decl.consumer != m.stage) = false := by
      simpa [List.any_eq_false] using fun x hx => (hall x hx).1
    have full : qs.all hasFull = true := List.all_eq_true.2 fun x hx => (hall x hx).2
    simp only [hF.groupOf, hg, own, full, Bool.false_eq_true, if_false, Bool.not_true]
    rfl

end Sys2Proof.Machine

/-! SUPPORT. STEP_END: all piers stand at it, the step is counted, and every deck starts again (02 R39, 06 R169, R170). -/

namespace Sys2Proof.Machine

/-! ### Piers at STEP_END fit together -/

/-- A STEP_END that R96 allows has no flags, no index and no count. -/
theorem stepEnd_operands {w : Nat} (hop : opcodeOf w = 0x30) (hok : wordOk w = true) : bits w 119 104 = 0 ∧ bits w 63 48 = 0 := by
  have fields : (generalOf w).flags = 0 ∧ (generalOf w).index = 0 ∧ (generalOf w).count = 0 := by
    unfold wordOk at hok
    simp only [hop, generalOk] at hok
    simp only [Nat.reduceEqDiff, if_false, or_self, Bool.and_eq_true, beq_iff_eq] at hok
    obtain ⟨-, ⟨⟨⟨⟨flags, index⟩, -⟩, -⟩, count⟩, -⟩ := hok
    exact ⟨flags, index, count⟩
  obtain ⟨flags, index, count⟩ := fields
  simp only [generalOf, bits, Nat.shiftRight_eq_div_pow] at flags index count ⊢
  omega

theorem stepEnd_sameMeeting {v w : Nat} (hv : opcodeOf v = 0x30 ∧ wordOk v = true) (hw : opcodeOf w = 0x30 ∧ wordOk w = true) :
    sameMeeting v w = true := by
  obtain ⟨v1, v2⟩ := stepEnd_operands hv.1 hv.2
  obtain ⟨w1, w2⟩ := stepEnd_operands hw.1 hw.2
  simp [sameMeeting, hv.1, hw.1, v1, v2, w1, w2]

theorem misfit_stepEnd {ws : List (Nat × Nat × Nat)} (h : ∀ x ∈ ws, opcodeOf x.2.2 = 0x30 ∧ wordOk x.2.2 = true) : misfit ws = none := by
  have all : (ws.filter fun x => isRendezvous (opcodeOf x.2.2)) = ws :=
    List.filter_eq_self.2 fun x hx => by rw [(h x hx).1]; rfl
  unfold misfit
  rw [all]
  cases ws with
  | nil => rfl
  | cons x rest =>
    refine List.find?_eq_none.2 fun y hy => ?_
    simp [(h y hy).2, stepEnd_sameMeeting (h x List.mem_cons_self) (h y hy)]

theorem anyMisfit_stepEnd {im : Image} {ws : List (Nat × Nat × Nat)} (h : ∀ x ∈ ws, opcodeOf x.2.2 = 0x30 ∧ wordOk x.2.2 = true) :
    anyMisfit im ws = none :=
  List.findSome?_eq_none_iff.2 fun _ _ => misfit_stepEnd fun x hx => h x (List.mem_of_mem_filter hx)

/-! ### The end of the step -/

theorem advanceAll_beside {n : Nat} (xs : List (Nat × Nat × Nat)) {s : State} (h : (ctxAt s n).bind (·.sampling) = none) :
    Beside s (xs.foldl (advancePier n 0) s) n := by
  induction xs generalizing s with
  | nil => exact Beside.refl ..
  | cons x xs ih =>
    have one : Beside s (advancePier n 0 s x) n := by
      rw [advancePier_plain h]
      exact (Beside.modPier ..).trans (Beside.countEvent ..)
    exact one.trans (ih (sampling_advance h x))

theorem stepReport_posts (s : State) (n status : Nat) (last : Bool) : Posts s (stepReport s n status last) := by
  unfold stepReport
  split
  · rfl
  · split
    · rfl
    · exact post_posts _ _ rfl

/-- A pier's deck starts again, and a sampling session counts in it. -/
def restart (n : Nat) (s : State) (p : Nat) : State := startCounting (modPier s p fun P => { P with index := 0 }) n p

theorem pierAt_restart (n : Nat) (s : State) (p q : Nat) :
    pierAt (restart n s p) q = if p = q then { pierAt s p with index := 0 } else pierAt s q :=
  pierAt_modPier s p q (fun P => { P with index := 0 }) (pierAt_id s p)

theorem ctxAt_restart (n : Nat) (s : State) (p : Nat) : ∃ f : Context → Option Sampling,
    ctxAt (restart n s p) n = (ctxAt s n).map fun c => { c with sampling := f c } :=
  ⟨_, by unfold restart startCounting; rw [ctxAt_modCtx, if_pos rfl]; rfl⟩

/-- Every deck listed starts again; contexts change in their sampling only. -/
theorem restartAll (n : Nat) (ps : List Nat) (s : State) :
    (∀ q, q ∈ ps ∨ (pierAt s q).index = 0 → (pierAt (ps.foldl (restart n) s) q).index = 0)
      ∧ (∃ f : Context → Option Sampling, ctxAt (ps.foldl (restart n) s) n = (ctxAt s n).map fun c => { c with sampling := f c })
      ∧ ps.foldl (restart n) s = { s with piers := (ps.foldl (restart n) s).piers, ctxs := (ps.foldl (restart n) s).ctxs } := by
  induction ps generalizing s with
  | nil => exact ⟨fun q h => by simpa using h, ⟨(·.sampling), (Option.map_id' (x := _)).symm⟩, rfl⟩
  | cons p ps ih =>
    obtain ⟨index, ⟨f, ctx⟩, parts⟩ := ih (restart n s p)
    refine ⟨fun q h => index q ?_, ?_, parts⟩
    · rw [pierAt_restart]
      by_cases e : p = q
      · exact .inr (by rw [if_pos e])
      · rw [if_neg e]
        rcases h with h | h
        · exact .inl ((List.mem_cons.1 h).resolve_left (Ne.symm e))
        · exact .inr h
    · obtain ⟨g, one⟩ := ctxAt_restart n s p
      exact ⟨fun c => f { c with sampling := g c }, by rw [List.foldl_cons, ctx, one, Option.map_map]; rfl⟩

/-- The step is counted, and the program begins the next one. -/
def countStep (s : State) (n : Nat) : State :=
  modProg (modCtx s n fun c => { c with step := add32 c.step 1 }) n fun p =>
    { p with verdict := none, localBit := false, fencesDone := 0, watchdogAt := s.time }

/-- The end of a step: the meeting's piers go on, the step is reported and counted, and the decks start again. -/
theorem endStep_eq (s : State) (n : Nat) (im : Image) (ws : List (Nat × Nat × Nat)) : ∃ status run, endStep s n im ws =
    (allPiers im).foldl (restart n) { countStep (stepReport (ws.foldl (advancePier n 0) s) n status false) n with
      caisson := { (stepReport (ws.foldl (advancePier n 0) s) n status false).caisson with run := run } } :=
  ⟨_, _, rfl⟩

theorem ctxAt_countStep (s : State) (n : Nat) : ctxAt (countStep s n) n = (ctxAt s n).map fun c =>
    { c with step := add32 c.step 1
             program := c.program.map fun p => { p with verdict := none, localBit := false, fencesDone := 0, watchdogAt := s.time } } := by
  unfold countStep modProg
  rw [ctxAt_modCtx, if_pos rfl, ctxAt_modCtx, if_pos rfl, Option.map_map]
  rfl

/-- What the end of a step does to the context, the decks, HBM and the schedule. -/
theorem endStep_counts {s : State} {n : Nat} {im : Image} {c : Context} {p : Program} (hc : ctxAt s n = some c) (hp : c.program = some p)
    (hs : c.sampling = none) (ws : List (Nat × Nat × Nat)) :
    (ctxAt (endStep s n im ws) n).map (·.step) = some (add32 c.step 1)
      ∧ ((progAt (endStep s n im ws) n).map fun p => (p.verdict, p.localBit, p.fencesDone)) = some (none, false, 0)
      ∧ (∀ q ∈ allPiers im, (pierAt (endStep s n im ws) q).index = 0)
      ∧ (endStep s n im ws).hbm = s.hbm ∧ (endStep s n im ws).sched = s.sched := by
  obtain ⟨-, ⟨k, w, advanced⟩, advance⟩ := advanceAll_beside ws (s := s) (n := n) (by rw [hc]; exact hs)
  obtain ⟨status, run, eq⟩ := endStep_eq s n im ws
  have report := stepReport_posts (ws.foldl (advancePier n 0) s) n status false
  rw [eq]
  generalize stepReport _ _ _ _ = t at report ⊢
  have before : ctxAt t n = ctxAt (ws.foldl (advancePier n 0) s) n := by rw [report]; rfl
  have counted := ctxAt_countStep t n
  rw [before, advanced, hc] at counted
  obtain ⟨index, ⟨f, ctx⟩, parts⟩ := restartAll n (allPiers im) { countStep t n with caisson := { t.caisson with run := run } }
  have after := ctx.trans (congrArg _ counted)
  refine ⟨?_, ?_, fun q hq => index q (.inl hq), ?_, ?_⟩
  · rw [after]
    rfl
  · unfold progAt
    rw [after]
    simp [hp]
  · rw [parts, ← show t.hbm = s.hbm by rw [report, advance]]
    rfl
  · rw [parts, ← show t.sched = s.sched by rw [report, advance]]
    rfl

/-! ### The actors' rows -/

/-- All piers stand at STEP_END, as R96 allows it. -/
def AtStepEnd (s : State) (im : Image) : Prop := ∀ p ∈ allPiers im, atRest s p = true ∧ (pierAt s p).index < deckLength im p
  ∧ opcodeOf (peekWord s im p) = 0x30 ∧ wordOk (peekWord s im p) = true

/-- STEP_END runs on the state that the fetches of all piers leave. -/
theorem exec_stepEnd {s : State} {n : Nat} {im : Image} (ha : acting s = some (n, im)) (hd : othersDone s n im = true)
    (eu : s.hbm.uncorrectable = []) (ec : s.hbm.correctable = []) (h : AtStepEnd s im) : ∃ u, Fetched s u im (allPiers im)
      ∧ exec .stepEnd s = .next (endStep u n im ((allPiers im).map fun p => (p, (pierAt s p).index, peekWord s im p))) := by
  obtain ⟨u, fetch, hF⟩ := fetchWords_clean (n := n) (allPiers im) eu ec fun p hp => (h p hp).2.1
  refine ⟨u, hF, ?_⟩
  have standing : (allPiers im).filter (atRest s) = allPiers im := List.filter_eq_self.2 fun p hp => (h p hp).1
  have rest : (allPiers im).all (atRest s) = true := List.all_eq_true.2 fun p hp => (h p hp).1
  have words : ∀ x ∈ (allPiers im).map fun p => (p, (pierAt s p).index, peekWord s im p),
      opcodeOf x.2.2 = 0x30 ∧ wordOk x.2.2 = true := List.forall_mem_map.2 fun p hp => (h p hp).2.2
  have ends : (((allPiers im).map fun p => (p, (pierAt s p).index, peekWord s im p)).all fun x => opcodeOf x.2.2 == 0x30) = true :=
    List.all_eq_true.2 fun x hx => beq_iff_eq.2 (words x hx).1
  show Host.Outcome.next _ = _
  simp only [ha, standing, fetch, anyMisfit_stepEnd words, rest, ends, hd, Bool.and_self, if_true]

theorem exec_capturePoint {s : State} {n ch : Nat} {im : Image} {p : Program} (ha : acting s = some (n, im)) (hp : progAt s n = some p)
    (hf : im.decls.fences[p.fencesDone]? = some ch) (hlast : p.fencesDone + 1 = im.decls.fences.length) (hc : 1 ≤ tokenCount s n ch) :
    exec .capturePoint s = .next (capture (passFence s n ch) n im) := by
  have next : nextFence s n im = some ch := by simp [nextFence, hp, hf]
  show Host.Outcome.next _ = _
  simp [ha, next, fenceReady, hc, hp, hlast]

/-- What a program waits for is read from the piers, HBM, the apron and the program. -/
theorem blockedWords_congr {s t : State} {n : Nat} (piers : t.piers = s.piers) (hbm : t.hbm = s.hbm) (apr : t.apr = s.apr)
    (prog : progAt t n = progAt s n) (im : Image) : blockedWords t n im = blockedWords s n im := by
  have pier : pierAt t = pierAt s := by
    funext p
    unfold pierAt
    rw [piers]
  have word : meetingWord t = meetingWord s := by
    funext im p
    unfold meetingWord atRest peekWord
    rw [pier, hbm]
  have waits : waitsOn t = waitsOn s := by
    funext im p w
    unfold waitsOn
    rw [word]
  unfold blockedWords nextFence
  rw [pier, word, waits, apr, prog]

theorem blockedWords_advanceTo (s : State) (t n : Nat) (im : Image) : blockedWords (advanceTo s t) n im = blockedWords s n im := by
  have parts := (advanceTo_parts s t).1
  refine blockedWords_congr ?_ ?_ ?_ (progAt_advanceTo ..) im <;> rw [parts]

/-- Settles O14: the step's end, the last fence, and the watchdog. -/
theorem stepEndsAndWatchdog : Obligations.StepEndsAndWatchdog := by
  unfold Obligations.StepEndsAndWatchdog
  refine ⟨fun s n im c ha hc hd eu ec hs h => ?stepEnd, fun s n im p ch ha hp hf hlast hch => exec_capturePoint ha hp hf hlast hch,
    fun s n im c p him hc hp hrun hserve hst hretry => ?watchdog⟩
  case stepEnd =>
    obtain ⟨u, hF, run⟩ := exec_stepEnd ha hd eu ec h
    obtain ⟨p, hp⟩ : ∃ p, c.program = some p := by
      unfold othersDone progAt at hd
      rw [hc] at hd
      cases hp : c.program with
      | none => simp [hp] at hd
      | some p => exact ⟨p, rfl⟩
    obtain ⟨step, prog, index, hbm, sched⟩ := endStep_counts (im := im) ((hF.ctxAt n).trans hc) hp hs
      ((allPiers im).map fun p => (p, (pierAt s p).index, peekWord s im p))
    exact ⟨_, run, step, prog, index, by rw [hbm, hF.2], by rw [sched, hF.2]⟩
  case watchdog =>
    show Host.Outcome.next _ = _
    simp only [him, hc, hp, hrun, hserve, hst, hretry, blockedWords_advanceTo, execProgressWatchdogExpiry.padWords]
    exact congrArg _ (if_pos rfl)

end Sys2Proof.Machine

/-! SUPPORT. A frame on its way out changes the Pylon, the log and the counters alone (09 R233 to R242). -/

namespace Sys2Proof.Machine

/-- Only the Pylon, the log and the package's counters have changed. -/
def OnWire (s t : State) : Prop := t = { s with pylon := t.pylon, toll := t.toll, counters := t.counters }

theorem OnWire.trans {s t u : State} (h : OnWire s t) (g : OnWire t u) : OnWire s u := by
  unfold OnWire at h g ⊢
  rw [g, h]

theorem regrant_onWire (s : State) (p hops kib : Nat) : OnWire s (regrant s p hops kib) := by
  unfold regrant
  dsimp only
  split <;> rfl

theorem leaveBuffer_onWire (s : State) (x : Option Nat × PylonFrame) : OnWire s (leaveBuffer s x) := by
  unfold leaveBuffer
  split
  · exact regrant_onWire ..
  · rfl

theorem transmit_onWire (s : State) (p : Nat) (x : Option Nat × PylonFrame) : OnWire s (transmit s p x) := by
  unfold transmit
  refine OnWire.trans ?_ (leaveBuffer_onWire ..)
  rfl

theorem pumpOne_onWire (p : Nat) (acc : State × List (Option Nat × PylonFrame)) (x : Option Nat × PylonFrame) :
    OnWire acc.1 (pumpOne p acc x).1 := by
  unfold pumpOne
  dsimp only
  split
  · rfl
  · exact transmit_onWire ..

theorem pumpAll_onWire (p : Nat) (l : List (Option Nat × PylonFrame)) (acc : State × List (Option Nat × PylonFrame)) :
    OnWire acc.1 (l.foldl (pumpOne p) acc).1 := by
  induction l generalizing acc with
  | nil => rfl
  | cons x l ih => exact (pumpOne_onWire p acc x).trans (ih _)

theorem giveFrame_onWire (s : State) (p : Nat) (x : Option Nat × PylonFrame) : OnWire s (giveFrame s p x) := by
  unfold giveFrame pumpPort
  dsimp only
  split
  · exact OnWire.trans (t := modPort s p _) rfl ((pumpAll_onWire p _ (_, [])).trans rfl)
  · rfl

theorem discardFrame_onWire (s : State) (port : Option Nat) (dst : Nat) : OnWire s (discardFrame s port dst) := by
  cases port <;> (unfold discardFrame; dsimp only; split <;> rfl)

theorem sendRouted_onWire (s : State) (x : Option Nat × PylonFrame) : OnWire s (sendRouted s x) := by
  unfold sendRouted
  split
  · exact (leaveBuffer_onWire ..).trans (discardFrame_onWire ..)
  · exact OnWire.trans (t := { s with pylon := _ }) rfl (giveFrame_onWire ..)

end Sys2Proof.Machine

/-! SUPPORT. The links and associations of a program that faults: ABANDON goes out, and each of them fails (07 R181, R189). -/

namespace Sys2Proof.Machine

/-- From s to t only the Pylon, the log, the counters, and the queues and associations of context n's program have changed. -/
def Unbinds (n : Nat) (s t : State) : Prop :=
  t = { s with pylon := t.pylon, toll := t.toll, counters := t.counters, ctxs := t.ctxs }
    ∧ (∀ m, m ≠ n → ctxAt t m = ctxAt s m)
    ∧ ∃ (qs : Program → List SpanQueue) (as : Program → List Assoc), ctxAt t n = (ctxAt s n).map fun c =>
        { c with program := c.program.map fun p => { p with queues := qs p, assocs := as p } }

theorem Unbinds.of_ctxs {n : Nat} {s t : State}
    (h : t = { s with pylon := t.pylon, toll := t.toll, counters := t.counters, ctxs := t.ctxs }) (hc : t.ctxs = s.ctxs) : Unbinds n s t := by
  have same (m : Nat) : ctxAt t m = ctxAt s m := by
    unfold ctxAt
    rw [hc]
  refine ⟨h, fun m _ => same m, (·.queues), (·.assocs), ?_⟩
  rw [same]
  cases ctxAt s n with
  | none => rfl
  | some c =>
    show some c = some { c with program := c.program.map id }
    rw [Option.map_id]
    rfl

theorem Unbinds.refl (n : Nat) (s : State) : Unbinds n s s := .of_ctxs rfl rfl

theorem OnWire.unbinds {s t : State} (h : OnWire s t) (n : Nat) : Unbinds n s t := by
  unfold OnWire at h
  exact .of_ctxs (by rw [h]) (by rw [h])

theorem Unbinds.trans {n : Nat} {s t u : State} (h : Unbinds n s t) (g : Unbinds n t u) : Unbinds n s u := by
  obtain ⟨hparts, hothers, qs, as, hctx⟩ := h
  obtain ⟨gparts, gothers, qs', as', gctx⟩ := g
  refine ⟨by rw [gparts, hparts], fun m hm => (gothers m hm).trans (hothers m hm),
    fun p => qs' { p with queues := qs p, assocs := as p }, fun p => as' { p with queues := qs p, assocs := as p }, ?_⟩
  rw [gctx, hctx, Option.map_map]
  congr 1
  funext c
  simp only [Function.comp, Option.map_map]
  rfl

theorem modProg_unbinds (n : Nat) (s : State) (qs : Program → List SpanQueue) (as : Program → List Assoc) :
    Unbinds n s (modProg s n fun p => { p with queues := qs p, assocs := as p }) := by
  unfold modProg
  refine ⟨rfl, fun m hm => ?_, qs, as, ?_⟩
  · rw [ctxAt_modCtx, if_neg (Ne.symm hm)]
  · rw [ctxAt_modCtx, if_pos rfl]

theorem modLink_unbinds (n : Nat) (s : State) (q : Nat) (f : SpanLink → SpanLink) : Unbinds n s (modLink s n q f) := modProg_unbinds n s _ (·.assocs)

theorem modAssoc_unbinds (n : Nat) (s : State) (k : Nat) (f : Assoc → Assoc) : Unbinds n s (modAssoc s n k f) := modProg_unbinds n s (·.queues) _

/-! ### The state of one link, and of one association -/

def linkSt (s : State) (n q : Nat) : Option BindState := (linkAt s n q).map (·.st)

def assocSt (s : State) (n k : Nat) : Option BindState := (assocAt s n k).map (·.st)

theorem linkSt_of_prog {s t : State} {n : Nat} (h : progAt t n = progAt s n) (q : Nat) : linkSt t n q = linkSt s n q := by
  unfold linkSt linkAt
  rw [h]

theorem assocSt_of_prog {s t : State} {n : Nat} (h : progAt t n = progAt s n) (k : Nat) : assocSt t n k = assocSt s n k := by
  unfold assocSt assocAt
  rw [h]

theorem OnWire.prog {s t : State} (h : OnWire s t) (n : Nat) : progAt t n = progAt s n := by
  unfold OnWire at h
  rw [h]
  rfl

/-- A change of the elements with one key is not seen under another. -/
theorem find_mapif_ne {α : Type} (l : List α) (key : α → Nat) (f : α → α) (hf : ∀ x, key (f x) = key x) {i j : Nat} (h : i ≠ j) :
    (l.map fun x => if key x = i then f x else x).find? (fun x => decide (key x = j)) = l.find? fun x => decide (key x = j) := by
  induction l with
  | nil => rfl
  | cons x l ih =>
    rw [List.map_cons, List.find?_cons, List.find?_cons, ih]
    by_cases hx : key x = i
    · have other : key x ≠ j := hx ▸ h
      simp only [if_pos hx, hf, decide_eq_false other]
    · rw [if_neg hx]

theorem linkAt_modLink_ne (s : State) (n : Nat) {q k : Nat} (h : q ≠ k) (f : SpanLink → SpanLink) : linkAt (modLink s n q f) n k = linkAt s n k := by
  unfold linkAt modLink modSpanQueue
  rw [progAt_modProg, if_pos rfl]
  cases progAt s n with
  | none => rfl
  | some p =>
    show (spanQueueAt _ k).bind SpanQueue.link = (spanQueueAt p k).bind SpanQueue.link
    unfold spanQueueAt
    exact congrArg (fun y : Option SpanQueue => y.bind SpanQueue.link)
      (find_mapif_ne p.queues (·.decl.queue) (fun x => { x with link := x.link.map f }) (fun _ => rfl) h)

theorem assocAt_modAssoc_ne (s : State) (n : Nat) {k j : Nat} (h : k ≠ j) {f : Assoc → Assoc} (hf : ∀ a, (f a).peer = a.peer) :
    assocAt (modAssoc s n k f) n j = assocAt s n j := by
  unfold assocAt modAssoc
  rw [progAt_modProg, if_pos rfl]
  cases progAt s n with
  | none => rfl
  | some p => exact find_mapif_ne p.assocs (·.peer) f hf h

theorem linkAt_modAssoc (s : State) (n k q : Nat) (f : Assoc → Assoc) : linkAt (modAssoc s n k f) n q = linkAt s n q := by
  unfold linkAt modAssoc
  rw [progAt_modProg, if_pos rfl]
  cases progAt s n <;> rfl

theorem assocAt_modLink (s : State) (n q k : Nat) (f : SpanLink → SpanLink) : assocAt (modLink s n q f) n k = assocAt s n k := by
  unfold assocAt modLink modSpanQueue
  rw [progAt_modProg, if_pos rfl]
  cases progAt s n <;> rfl

/-- A change of a link that keeps its state. -/
theorem linkSt_modLink_same (s : State) (n q k : Nat) {f : SpanLink → SpanLink} (hf : ∀ L, (f L).st = L.st) :
    linkSt (modLink s n q f) n k = linkSt s n k := by
  unfold linkSt
  by_cases h : q = k
  · subst h
    rw [linkAt_modLink, Option.map_map]
    exact congrArg (Option.map · _) (funext hf)
  · rw [linkAt_modLink_ne s n h]

theorem assocSt_modAssoc_same (s : State) (n k j : Nat) {f : Assoc → Assoc} (hp : ∀ a, (f a).peer = a.peer) (hf : ∀ a, (f a).st = a.st) :
    assocSt (modAssoc s n k f) n j = assocSt s n j := by
  unfold assocSt
  by_cases h : k = j
  · subst h
    rw [assocAt_modAssoc _ _ _ _ hp, Option.map_map]
    exact congrArg (Option.map · _) (funext hf)
  · rw [assocAt_modAssoc_ne s n h hp]

/-! ### Sending ABANDON -/

/-- From s to t frames may have gone out; every link and association keeps its state. -/
structure Sends (n : Nat) (s t : State) : Prop where
  unbinds : Unbinds n s t
  links : ∀ q, linkSt t n q = linkSt s n q
  assocs : ∀ k, assocSt t n k = assocSt s n k

theorem Sends.refl (n : Nat) (s : State) : Sends n s s := ⟨.refl n s, fun _ => rfl, fun _ => rfl⟩

theorem Sends.onWire {n : Nat} {s t u : State} (h : Sends n s t) (g : OnWire t u) : Sends n s u :=
  ⟨h.unbinds.trans (g.unbinds n), fun q => (linkSt_of_prog (g.prog n) q).trans (h.links q),
    fun k => (assocSt_of_prog (g.prog n) k).trans (h.assocs k)⟩

theorem modLink_sends (s : State) (n q : Nat) {f : SpanLink → SpanLink} (hf : ∀ L, (f L).st = L.st) : Sends n s (modLink s n q f) :=
  ⟨modLink_unbinds .., fun k => linkSt_modLink_same s n q k hf, fun k => congrArg _ (assocAt_modLink s n q k f)⟩

theorem modAssoc_sends (s : State) (n k : Nat) {f : Assoc → Assoc} (hp : ∀ a, (f a).peer = a.peer) (hf : ∀ a, (f a).st = a.st) :
    Sends n s (modAssoc s n k f) :=
  ⟨modAssoc_unbinds .., fun q => congrArg _ (linkAt_modAssoc s n k q f), fun j => assocSt_modAssoc_same s n k j hp hf⟩

theorem sendSpan_sends (s : State) (n q type flags value : Nat) (body : List Byte) : Sends n s (sendSpan s n q type flags value body) := by
  unfold sendSpan
  split
  · exact .refl n s
  · split
    · exact .refl n s
    · dsimp only
      refine Sends.onWire ?_ (giveFrame_onWire ..)
      exact modLink_sends s n q fun _ => rfl

theorem putStay_sends (s : State) (n k tile : Nat) (f : StayFrame) : Sends n s (putStay s n k tile f) := by
  unfold putStay
  split
  · exact .refl n s
  · dsimp only
    refine Sends.onWire ?_ (sendRouted_onWire ..)
    exact modAssoc_sends s n k (fun _ => rfl) fun _ => rfl

/-! ### Every link and association listed fails -/

/-- A reading by number that each step of a fold sets to `failed` under its own number, and keeps under others. -/
theorem foldl_fails {g : State → Nat → Option BindState} {f : State → Nat → State}
    (hf : ∀ s q k, g (f s q) k = if q = k then (g s k).map fun _ => .failed else g s k) (l : List Nat) (s : State) (k : Nat) :
    g (l.foldl f s) k = if k ∈ l then (g s k).map fun _ => .failed else g s k := by
  induction l generalizing s with
  | nil => simp
  | cons q l ih =>
    rw [List.foldl_cons, ih, hf]
    by_cases h : q = k
    · subst h
      simp [Function.comp_def]
    · simp [h, Ne.symm h]

/-- ABANDON on a bound link, which fails, as any that is listed. -/
def failLink (n status : Nat) (s : State) (q : Nat) : State :=
  match linkAt s n q with
  | none => s
  | some L =>
    modLink (if L.st == .bound then sendSpan s n q 0x05 0 status [] else s) n q fun L => { L with st := .failed }

theorem abandonLinks_eq (s : State) (n status : Nat) (qs : List Nat) : abandonLinks s n status qs = qs.foldl (failLink n status) s := rfl

def breakAssoc (A : Assoc) : Assoc := { A with st := .failed, backlog := [] }

/-- ABANDON on a bound association, which fails, as any that is listed. -/
def failAssoc (n status : Nat) (s : State) (k : Nat) : State :=
  match assocAt s n k with
  | none => s
  | some A =>
    modAssoc (if A.st == .bound then
        putStay s n k 0 { type := 0x14, flags := 0, entry := 0, piece := 0, seq := 0, value := status, body := [] }
      else s) n k breakAssoc

theorem abandonAssocs_eq (s : State) (n status : Nat) (ks : List Nat) : abandonAssocs s n status ks = ks.foldl (failAssoc n status) s := rfl

/-- A link's failure sends at most a frame, and then sets the link. -/
theorem failLink_cases (n status : Nat) (s : State) (q : Nat) : linkAt s n q = none ∧ failLink n status s q = s
    ∨ ∃ t, Sends n s t ∧ failLink n status s q = modLink t n q fun L => { L with st := .failed } := by
  unfold failLink
  cases h : linkAt s n q with
  | none => exact .inl ⟨rfl, rfl⟩
  | some L =>
    refine .inr ⟨_, ?_, rfl⟩
    split
    · exact sendSpan_sends ..
    · exact .refl n s

theorem failAssoc_cases (n status : Nat) (s : State) (k : Nat) : assocAt s n k = none ∧ failAssoc n status s k = s
    ∨ ∃ t, Sends n s t ∧ failAssoc n status s k = modAssoc t n k breakAssoc := by
  unfold failAssoc
  cases h : assocAt s n k with
  | none => exact .inl ⟨rfl, rfl⟩
  | some A =>
    refine .inr ⟨_, ?_, rfl⟩
    split
    · exact putStay_sends ..
    · exact .refl n s

theorem failLink_unbinds (n status : Nat) (s : State) (q : Nat) : Unbinds n s (failLink n status s q) := by
  rcases failLink_cases n status s q with ⟨-, e⟩ | ⟨t, sent, e⟩
  · rw [e]
    exact .refl n s
  · rw [e]
    exact sent.unbinds.trans (modLink_unbinds ..)

theorem failAssoc_unbinds (n status : Nat) (s : State) (k : Nat) : Unbinds n s (failAssoc n status s k) := by
  rcases failAssoc_cases n status s k with ⟨-, e⟩ | ⟨t, sent, e⟩
  · rw [e]
    exact .refl n s
  · rw [e]
    exact sent.unbinds.trans (modAssoc_unbinds ..)

theorem linkSt_failLink (n status : Nat) (s : State) (q k : Nat) :
    linkSt (failLink n status s q) n k = if q = k then (linkSt s n k).map fun _ => .failed else linkSt s n k := by
  rcases failLink_cases n status s q with ⟨off, e⟩ | ⟨t, sent, e⟩
  · rw [e]
    split
    · rename_i h
      subst h
      simp [linkSt, off]
    · rfl
  · rw [e, ← sent.links]
    unfold linkSt
    split
    · rename_i h
      subst h
      rw [linkAt_modLink, Option.map_map, Option.map_map]
      rfl
    · rename_i h
      rw [linkAt_modLink_ne _ _ h]

theorem assocSt_failAssoc (n status : Nat) (s : State) (k j : Nat) :
    assocSt (failAssoc n status s k) n j = if k = j then (assocSt s n j).map fun _ => .failed else assocSt s n j := by
  rcases failAssoc_cases n status s k with ⟨off, e⟩ | ⟨t, sent, e⟩
  · rw [e]
    split
    · rename_i h
      subst h
      simp [assocSt, off]
    · rfl
  · rw [e, ← sent.assocs]
    unfold assocSt
    split
    · rename_i h
      subst h
      rw [assocAt_modAssoc t n k breakAssoc fun _ => rfl, Option.map_map, Option.map_map]
      rfl
    · rename_i h
      rw [assocAt_modAssoc_ne t n h (f := breakAssoc) fun _ => rfl]

theorem assocSt_failLink (n status : Nat) (s : State) (q k : Nat) : assocSt (failLink n status s q) n k = assocSt s n k := by
  rcases failLink_cases n status s q with ⟨-, e⟩ | ⟨t, sent, e⟩
  · rw [e]
  · rw [e, ← sent.assocs]
    exact congrArg _ (assocAt_modLink ..)

theorem linkSt_failAssoc (n status : Nat) (s : State) (k q : Nat) : linkSt (failAssoc n status s k) n q = linkSt s n q := by
  rcases failAssoc_cases n status s k with ⟨-, e⟩ | ⟨t, sent, e⟩
  · rw [e]
  · rw [e, ← sent.links]
    exact congrArg _ (linkAt_modAssoc ..)

theorem foldl_unbinds {n : Nat} {f : State → Nat → State} (hf : ∀ s x, Unbinds n s (f s x)) (l : List Nat) (s : State) :
    Unbinds n s (l.foldl f s) := by
  induction l generalizing s with
  | nil => exact .refl n s
  | cons x l ih => exact (hf s x).trans (ih _)

/-- The links, and then the associations, of a program are abandoned. -/
def abandonAll (s : State) (n status : Nat) (p : Program) : State :=
  abandonAssocs (abandonLinks s n status (p.queues.map (·.decl.queue))) n status (p.assocs.map (·.peer))

theorem abandonAll_unbinds (s : State) (n status : Nat) (p : Program) : Unbinds n s (abandonAll s n status p) :=
  (foldl_unbinds (failLink_unbinds n status) _ s).trans (foldl_unbinds (failAssoc_unbinds n status) _ _)

theorem linkSt_abandonLinks (s : State) (n status : Nat) (qs : List Nat) (q : Nat) : linkSt (abandonLinks s n status qs) n q =
    if q ∈ qs then (linkSt s n q).map fun _ => .failed else linkSt s n q := by
  rw [abandonLinks_eq]
  exact foldl_fails (g := fun s k => linkSt s n k) (fun s q k => linkSt_failLink n status s q k) qs s q

theorem assocSt_abandonAssocs (s : State) (n status : Nat) (ks : List Nat) (k : Nat) : assocSt (abandonAssocs s n status ks) n k =
    if k ∈ ks then (assocSt s n k).map fun _ => .failed else assocSt s n k := by
  rw [abandonAssocs_eq]
  exact foldl_fails (g := fun s k => assocSt s n k) (fun s q k => assocSt_failAssoc n status s q k) ks s k

theorem linkSt_abandonAssocs (s : State) (n status : Nat) (ks : List Nat) (q : Nat) :
    linkSt (abandonAssocs s n status ks) n q = linkSt s n q :=
  foldl_keeps (linkSt · n q) (fun s k => linkSt_failAssoc n status s k q) ks s

theorem assocSt_abandonLinks (s : State) (n status : Nat) (qs : List Nat) (k : Nat) :
    assocSt (abandonLinks s n status qs) n k = assocSt s n k :=
  foldl_keeps (assocSt · n k) (fun s q => assocSt_failLink n status s q k) qs s

theorem linkSt_abandonAll {s : State} {n : Nat} {p : Program} (hp : progAt s n = some p) (status : Nat) {q : Nat} {L : SpanLink}
    (hL : linkAt s n q = some L) : linkSt (abandonAll s n status p) n q = some .failed := by
  have listed : q ∈ p.queues.map (·.decl.queue) := by
    unfold linkAt at hL
    rw [hp] at hL
    obtain ⟨x, hx, -⟩ := Option.bind_eq_some_iff.1 hL
    exact List.mem_map.2 ⟨x, List.mem_of_find?_eq_some hx, by simpa using List.find?_some hx⟩
  unfold abandonAll
  rw [linkSt_abandonAssocs, linkSt_abandonLinks, if_pos listed]
  simp [linkSt, hL]

theorem assocSt_abandonAll {s : State} {n : Nat} {p : Program} (hp : progAt s n = some p) (status : Nat) {k : Nat} {A : Assoc}
    (hA : assocAt s n k = some A) : assocSt (abandonAll s n status p) n k = some .failed := by
  have listed : k ∈ p.assocs.map (·.peer) := by
    unfold assocAt at hA
    rw [hp] at hA
    exact List.mem_map.2 ⟨A, List.mem_of_find?_eq_some hA, by simpa using List.find?_some hA⟩
  unfold abandonAll
  rw [assocSt_abandonAssocs, if_pos listed, assocSt_abandonLinks]
  simp [assocSt, hA]

end Sys2Proof.Machine

/-! SUPPORT. What follows a fault once the program has stopped changes no context, but for the session that ends (07 R181, 17 R421). -/

namespace Sys2Proof.Machine

/-! ### HBM and the checkpoint in progress -/

theorem Posts.ctxs {s t : State} (h : Posts s t) : t.ctxs = s.ctxs := by rw [h]

@[simp] theorem ctxs_logUncorrectable (r : Reader) (access : Nat) (s : State) (b : Nat) : (logUncorrectable r access s b).ctxs = s.ctxs := by
  unfold logUncorrectable
  dsimp only
  rw [logError_ctxs]
  rfl

@[simp] theorem ctxs_correctBlock (s : State) (b : Nat) : (correctBlock s b).ctxs = s.ctxs := by
  unfold correctBlock
  dsimp only
  split <;> (simp only [logError_ctxs]; rfl)

theorem ctxs_correctRange (s : State) (a n : Nat) : (correctRange s a n).ctxs = s.ctxs := foldl_keeps State.ctxs ctxs_correctBlock ..

theorem ctxs_footPath (s : State) (k a n : Nat) : (footPath s k a n).1.ctxs = s.ctxs := by
  unfold footPath
  dsimp only
  split
  · exact logError_ctxs ..
  · split
    · exact logError_ctxs ..
    · rfl

theorem ctxs_copyGranule (s : State) (run : CkptRun) (g : Nat × Nat) : (copyGranule s run g).ctxs = s.ctxs := ctxs_correctRange ..

theorem ctxs_mergeHbm (s : State) (r : Reader) (a n : Nat) (put : Hbm → Hbm) : (mergeHbm s r a n put).1.ctxs = s.ctxs :=
  (foldl_keeps State.ctxs (ctxs_logUncorrectable r 2) ..).trans (foldl_keeps State.ctxs ctxs_correctBlock ..)

theorem ctxs_settleRelease (s : State) : (settleRelease s).ctxs = s.ctxs := by
  unfold settleRelease
  split
  · exact (finish_posts ..).ctxs
  · rfl

@[simp] theorem ctxs_abandonCkpt (s : State) (st : Nat) : (abandonCkpt s st).ctxs = s.ctxs := by
  unfold abandonCkpt
  split
  · rfl
  · dsimp only
    rw [ctxs_settleRelease, logError_ctxs]
    exact (post_posts _ _ rfl).ctxs

theorem ctxs_copyBeforeList (gs : List (Nat × Nat)) (s : State) : (copyBeforeList gs s).1.ctxs = s.ctxs := by
  induction gs generalizing s with
  | nil => rfl
  | cons g gs ih =>
    unfold copyBeforeList
    split
    · rfl
    · rename_i run _
      have foot := ctxs_footPath s ((stackOf (granuleSrc run g)).getD 0) (granuleSrc run g) run.ctx
      dsimp only
      split
      · split
        · rename_i h
          rw [h] at foot
          exact (ctxs_abandonCkpt ..).trans foot
        · rename_i h
          rw [h] at foot
          exact (ih _).trans ((ctxs_copyGranule ..).trans foot)
      · exact (ctxs_abandonCkpt ..).trans (foldl_keeps State.ctxs (ctxs_logUncorrectable _ 0) ..)

theorem ctxs_copyBefore (s : State) (a n : Nat) : (copyBefore s a n).1.ctxs = s.ctxs := by
  refine (ctxs_copyBeforeList ..).trans ?_
  unfold waitOnCopies
  split <;> rfl

theorem ctxs_sampleStore (s : State) (r : Reader) (a : Nat) (bs : List Byte) : (sampleStore s r a bs).1.ctxs = s.ctxs :=
  (ctxs_mergeHbm ..).trans (ctxs_copyBefore ..)

theorem ctxs_putHeader (s : State) (n state : Nat) : (putHeader s n state).ctxs = s.ctxs := by
  unfold putHeader
  split
  · rfl
  · exact ctxs_sampleStore ..

theorem ctxs_placeRecord (s : State) (n : Nat) (x : Sampling) (r : Nat × List Byte) : (placeRecord s n x r).1.ctxs = s.ctxs := by
  unfold placeRecord
  split
  · exact ctxs_sampleStore ..
  · rfl

/-! ### The commands of the context -/

theorem ctxs_stepReport (s : State) (n st : Nat) (last : Bool) : (stepReport s n st last).ctxs = s.ctxs := (stepReport_posts ..).ctxs

theorem ctxs_postRecord (f : Feed) (s : State) (k : Nat) : (postRecord f s k).ctxs = s.ctxs := by
  unfold postRecord
  split
  · exact (postHost_posts ..).ctxs
  · exact (postHost_posts ..).ctxs

theorem ctxs_endFeed (s : State) (f : Feed) (st : Nat) (p : List Nat) : (endFeed s f st p).ctxs = s.ctxs :=
  (finish_posts ..).ctxs.trans (foldl_keeps State.ctxs (ctxs_postRecord f) ..)

theorem ctxs_endFeeds (s : State) (n st : Nat) : (endFeeds s n st).ctxs = s.ctxs :=
  (foldl_keeps State.ctxs (fun _ _ => (finish_posts ..).ctxs) ..).trans (foldl_keeps State.ctxs (fun _ _ => ctxs_endFeed ..) ..)

theorem ctxs_endProgramCommands (s : State) (n st : Nat) : (endProgramCommands s n st).ctxs = s.ctxs :=
  (ctxs_endFeeds ..).trans (foldl_keeps State.ctxs (fun _ _ => (finish_posts ..).ctxs) ..)

/-! ### The end of the session -/

/-- Every context as it is, of context n what is not its sampling session. -/
def apart (n : Nat) (s : State) (m : Nat) : Option Context :=
  if n = m then (ctxAt s m).map fun c => { c with sampling := none } else ctxAt s m

theorem apart_of_ctxs {s t : State} (h : t.ctxs = s.ctxs) (n : Nat) : apart n t = apart n s := by
  funext m
  unfold apart ctxAt
  rw [h]

theorem apart_sampling (s : State) (n : Nat) (f : Context → Option Sampling) :
    apart n (modCtx s n fun c => { c with sampling := f c }) = apart n s := by
  funext m
  unfold apart
  rw [ctxAt_modCtx]
  by_cases h : n = m
  · simp only [if_pos h]
    cases ctxAt s m <;> rfl
  · simp only [if_neg h]

theorem apart_modSampling (s : State) (n : Nat) (f : Sampling → Sampling) : apart n (modSampling s n f) = apart n s :=
  apart_sampling s n fun c => c.sampling.map f

theorem apart_storeRecord (s : State) (n : Nat) (r : Nat × List Byte) : apart n (storeRecord s n r) = apart n s := by
  unfold storeRecord
  split
  · rfl
  · dsimp only
    rw [apart_of_ctxs (ctxs_putHeader ..), apart_modSampling, apart_of_ctxs (ctxs_placeRecord ..)]

theorem apart_storeRecords (k n : Nat) (s : State) : apart n (storeRecords k n s) = apart n s := by
  induction k generalizing s with
  | zero => rfl
  | succ k ih =>
    unfold storeRecords
    split
    · rfl
    · rw [ih, apart_storeRecord, apart_modSampling]

theorem apart_endSampling (s : State) (n : Nat) : apart n (endSampling s n) = apart n s := by
  unfold endSampling
  split
  · rfl
  · rw [apart_sampling _ _ fun _ => none, apart_of_ctxs (ctxs_putHeader ..)]
    exact apart_storeRecords ..

theorem progAt_of_apart {n : Nat} {s t : State} (h : apart n t = apart n s) : progAt t n = progAt s n := by
  have off (s : State) : (apart n s n).bind (·.program) = progAt s n := by
    unfold apart progAt
    rw [if_pos rfl]
    cases ctxAt s n <;> rfl
  rw [← off, ← off, h]

theorem faultStatus_of_apart {n : Nat} {s t : State} (h : apart n t = apart n s) :
    (ctxAt t n).map (·.faultStatus) = (ctxAt s n).map (·.faultStatus) := by
  have off (s : State) : (apart n s n).map (·.faultStatus) = (ctxAt s n).map (·.faultStatus) := by
    unfold apart
    rw [if_pos rfl]
    cases ctxAt s n <;> rfl
  rw [← off, ← off, h]

theorem ctxAt_of_apart {n : Nat} {s t : State} (h : apart n t = apart n s) {m : Nat} (hm : m ≠ n) : ctxAt t m = ctxAt s m := by
  have at_m := congrFun h m
  unfold apart at at_m
  rwa [if_neg (Ne.symm hm), if_neg (Ne.symm hm)] at at_m

end Sys2Proof.Machine

/-! SUPPORT. A context fault in three parts: what is bound is abandoned, the program stops, and the rest ends (02 R50, 07 R181, R189). -/

namespace Sys2Proof.Machine

/-- A program that has faulted, its queues with it. -/
def Program.stopped (p : Program) : Program := { p with st := .faulted, queues := p.queues.map fun x => { x with st := .faulted } }

/-- What is bound is abandoned, and the program stops with the status. -/
def stopProgram (s : State) (n status : Nat) (p : Program) : State :=
  modProg (modCtx (abandonAll s n status p) n fun c => { c with faultStatus := status }) n Program.stopped

/-- The checkpoint in progress of a context that faults is abandoned, unless its step has ended. -/
def endCkpt (s : State) (n status : Nat) : State :=
  match s.caisson.run with
  | some run => if run.ctx == n && !run.stepEnded then abandonCkpt s status else s
  | none => s

theorem faultContext_live {s : State} {n : Nat} {p : Program} (hp : progAt s n = some p) (hst : p.st ≠ .faulted) (status : Nat) :
    faultContext s n status =
      if (findCmd s p.launchQ p.launchSeq).isNone then
        stepReport (endProgramCommands (endSampling (endCkpt (stopProgram s n status p) n status) n) n status) n status true
      else endProgramCommands (endSampling (endCkpt (stopProgram s n status p) n status) n) n status := by
  unfold faultContext
  rw [hp]
  dsimp only
  rw [if_neg (by simpa using hst)]
  rfl

theorem ctxs_endCkpt (s : State) (n status : Nat) : (endCkpt s n status).ctxs = s.ctxs := by
  unfold endCkpt
  split
  · split
    · exact ctxs_abandonCkpt ..
    · rfl
  · rfl

theorem apart_faultContext {s : State} {n : Nat} {p : Program} (hp : progAt s n = some p) (hst : p.st ≠ .faulted) (status : Nat) :
    apart n (faultContext s n status) = apart n (stopProgram s n status p) := by
  have ended : apart n (endProgramCommands (endSampling (endCkpt (stopProgram s n status p) n status) n) n status) =
      apart n (stopProgram s n status p) := by
    rw [apart_of_ctxs (ctxs_endProgramCommands ..), apart_endSampling, apart_of_ctxs (ctxs_endCkpt ..)]
  rw [faultContext_live hp hst]
  split
  · rw [apart_of_ctxs (ctxs_stepReport ..), ended]
  · exact ended

/-- A context whose program has stopped, with some queues and associations. -/
def Context.stopped (c : Context) (status : Nat) (qs : Program → List SpanQueue) (as : Program → List Assoc) : Context :=
  { c with faultStatus := status, program := c.program.map fun p => Program.stopped { p with queues := qs p, assocs := as p } }

theorem ctxAt_stopProgram (s : State) (n status : Nat) (p : Program) : ∃ qs as,
    ctxAt (stopProgram s n status p) n = (ctxAt s n).map fun c => c.stopped status qs as := by
  obtain ⟨-, -, qs, as, hctx⟩ := abandonAll_unbinds s n status p
  refine ⟨qs, as, ?_⟩
  unfold stopProgram modProg
  rw [ctxAt_modCtx, if_pos rfl, ctxAt_modCtx, if_pos rfl, hctx]
  cases ctxAt s n with
  | none => rfl
  | some c =>
    cases hp : c.program <;> simp [Context.stopped, hp]

theorem ctxAt_stopProgram_ne (s : State) (n status : Nat) (p : Program) {m : Nat} (hm : m ≠ n) :
    ctxAt (stopProgram s n status p) m = ctxAt s m := by
  obtain ⟨-, others, -⟩ := abandonAll_unbinds s n status p
  unfold stopProgram modProg
  rw [ctxAt_modCtx, if_neg (Ne.symm hm), ctxAt_modCtx, if_neg (Ne.symm hm), others m hm]

theorem stopProgram_parts (s : State) (n status : Nat) (p : Program) : stopProgram s n status p = { s with
    pylon := (stopProgram s n status p).pylon, toll := (stopProgram s n status p).toll
    counters := (stopProgram s n status p).counters, ctxs := (stopProgram s n status p).ctxs } := by
  have parts := (abandonAll_unbinds s n status p).1
  unfold stopProgram
  generalize abandonAll s n status p = t at parts ⊢
  rw [parts]
  rfl

theorem progAt_stopProgram (s : State) (n status : Nat) (p : Program) :
    progAt (stopProgram s n status p) n = (progAt (abandonAll s n status p) n).map Program.stopped := by
  unfold stopProgram
  rw [progAt_modProg, if_pos rfl]
  unfold progAt
  rw [ctxAt_modCtx, if_pos rfl]
  cases ctxAt (abandonAll s n status p) n <;> rfl

theorem linkSt_stopProgram (s : State) (n status : Nat) (p : Program) (q : Nat) :
    linkSt (stopProgram s n status p) n q = linkSt (abandonAll s n status p) n q := by
  unfold linkSt linkAt
  rw [progAt_stopProgram]
  cases progAt (abandonAll s n status p) n with
  | none => rfl
  | some x =>
    simp only [Option.map_some, Option.bind_some, spanQueueAt, Program.stopped, List.find?_map, Function.comp_def]
    cases x.queues.find? fun y => decide (y.decl.queue = q) <;> rfl

theorem assocSt_stopProgram (s : State) (n status : Nat) (p : Program) (k : Nat) :
    assocSt (stopProgram s n status p) n k = assocSt (abandonAll s n status p) n k := by
  unfold assocSt assocAt
  rw [progAt_stopProgram]
  cases progAt (abandonAll s n status p) n <;> rfl

/-! ### The report -/

theorem encodeCpl_length (q pass time : Nat) {c : Completion} (h : c.p.length = 4) : (encodeCpl q pass time c).length = 32 := by
  obtain ⟨a, b, d, e, hp⟩ := List.length_eq_four.1 h
  simp [encodeCpl, hp, padTo, leBytes_length]

/-- An entry written takes one flit of the Tether. -/
theorem writeCpl_posted (s : State) (q : Nat) {c : Completion} (h : c.p.length = 4) (hw : c.wait = false) :
    (writeCpl s q c).tether.posted = s.tether.posted ++ [
      { addr := ringBase (queueAt s q).cplLo (queueAt s q).cplHi + ((queueAt s q).chead % cplEntries (queueAt s q)) * 32
        bytes := encodeCpl q ((queueAt s q).chead / cplEntries (queueAt s q)) s.time c
        last := add32 s.tether.nextFlit 0, reply := true }] := by
  have length := encodeCpl_length q ((queueAt s q).chead / cplEntries (queueAt s q)) s.time h
  have filled : (encodeCpl q ((queueAt s q).chead / cplEntries (queueAt s q)) s.time c).isEmpty = false := by
    rw [List.isEmpty_eq_false_iff, ← List.length_pos_iff, length]
    decide
  have pumped (t : Tether) : t.pump.posted = t.posted := by
    unfold Tether.pump
    split <;> rfl
  unfold writeCpl hostWait
  rw [hw]
  show (postWrite s _ _ true).tether.posted = _
  unfold postWrite
  rw [filled]
  simp only [Bool.false_eq_true, if_false, pumped, length]
  rfl

theorem postWrite_queues (s : State) (a : Nat) (bs : List Byte) (reply : Bool) : (postWrite s a bs reply).queues = s.queues := by
  unfold postWrite
  split <;> rfl

theorem queueAt_postWrite (s : State) (a : Nat) (bs : List Byte) (reply : Bool) (q : Nat) :
    queueAt (postWrite s a bs reply) q = queueAt s q := by
  unfold queueAt
  rw [postWrite_queues]

/-- An entry written moves the ring's head on. -/
theorem writeCpl_chead {s : State} {q : Nat} (hq : q < s.queues.length) {c : Completion} (hw : c.wait = false) :
    (queueAt (writeCpl s q c) q).chead = add32 (queueAt s q).chead 1 := by
  unfold writeCpl hostWait
  rw [hw, if_neg Bool.false_ne_true, queueAt_modQueue _ _ _ _ (by rwa [postWrite_queues]), if_pos rfl]
  simp only [queueAt_postWrite]
  split <;> rfl

/-- The step report of a context whose program is p. -/
def reportOf (n status : Nat) (last : Bool) (c : Context) (p : Program) : Completion :=
  { opcode := 0x0302, status, kind := 1, context := n, last, seq := p.launchSeq
    p := [c.step, byteOfInt ((p.verdict.map (·.2.1)).getD c.ls.exp) + byteOfInt ((p.verdict.map (·.2.2)).getD c.ls.exp) * 256, c.version, 0] }

theorem stepReport_eq {s : State} {n : Nat} {c : Context} {p : Program} (hc : ctxAt s n = some c) (hp : c.program = some p)
    (status : Nat) (last : Bool) : stepReport s n status last = post s p.launchQ (reportOf n status last c p) := by
  unfold stepReport
  rw [hc]
  dsimp only
  rw [hp]
  rfl

theorem endSampling_none {s : State} {n : Nat} (h : (ctxAt s n).bind (·.sampling) = none) : endSampling s n = s := by
  unfold endSampling
  rw [h]

theorem endCkpt_none {s : State} (h : s.caisson.run = none) (n status : Nat) : endCkpt s n status = s := by
  unfold endCkpt
  rw [h]

theorem endProgramCommands_none {s : State} (hc : s.cmds = []) (hf : s.apr.feeds = []) (n status : Nat) : endProgramCommands s n status = s := by
  simp [endProgramCommands, endFeeds, hc, hf]

/-- With no checkpoint, session, command or feed, the report alone follows the stop. -/
theorem faultContext_quiet {s : State} {n : Nat} {c : Context} {p : Program} (hc : ctxAt s n = some c) (hprog : c.program = some p)
    (hst : p.st ≠ .faulted) (hrun : s.caisson.run = none) (hsampling : c.sampling = none) (hcmds : s.cmds = []) (hfeeds : s.apr.feeds = [])
    (status : Nat) : faultContext s n status = stepReport (stopProgram s n status p) n status true := by
  have hp : progAt s n = some p := by
    unfold progAt
    rw [hc]
    exact hprog
  have launched : (findCmd s p.launchQ p.launchSeq).isNone = true := by
    unfold findCmd
    rw [hcmds]
    rfl
  have parts := stopProgram_parts s n status p
  obtain ⟨qs, as, stopped⟩ := ctxAt_stopProgram s n status p
  rw [faultContext_live hp hst, if_pos launched, endCkpt_none (by rw [parts, hrun]), endSampling_none (by rw [stopped, hc]; exact hsampling),
    endProgramCommands_none (by rw [parts, hcmds]) (by rw [parts, hfeeds])]

/-- The last report of a program that faults, in a ring with room. -/
theorem faultContext_report {s : State} {n : Nat} {c : Context} {p : Program} (hc : ctxAt s n = some c) (hprog : c.program = some p)
    (hst : p.st ≠ .faulted) (hrun : s.caisson.run = none) (hsampling : c.sampling = none) (hcmds : s.cmds = []) (hfeeds : s.apr.feeds = [])
    (haborts : s.aborts = []) (hheld : (queueAt s p.launchQ).held = []) (hroom : cplRoom (queueAt s p.launchQ) = true) (status : Nat) :
    ∃ v, v = { s with pylon := v.pylon, toll := v.toll, counters := v.counters, ctxs := v.ctxs }
      ∧ Posts v (faultContext s n status)
      ∧ (faultContext s n status).tether = (writeCpl v p.launchQ (reportOf n status true c p)).tether
      ∧ (faultContext s n status).queues = (writeCpl v p.launchQ (reportOf n status true c p)).queues := by
  have parts := stopProgram_parts s n status p
  obtain ⟨qs, as, stopped⟩ := ctxAt_stopProgram s n status p
  rw [hc] at stopped
  have prog : (c.stopped status qs as).program = some (Program.stopped { p with queues := qs p, assocs := as p }) := by
    simp [Context.stopped, hprog]
  have queue : queueAt (stopProgram s n status p) p.launchQ = queueAt s p.launchQ := by
    rw [parts]
    rfl
  have written := post_room (s := stopProgram s n status p) (q := p.launchQ) (c := reportOf n status true c p) (queue ▸ hheld) (queue ▸ hroom)
    (by rw [parts, haborts]; rfl) (by rw [parts, hcmds]; rfl) rfl
  have reported : faultContext s n status = post (stopProgram s n status p) p.launchQ (reportOf n status true c p) := by
    rw [faultContext_quiet hc hprog hst hrun hsampling hcmds hfeeds, stepReport_eq stopped prog]
    rfl
  refine ⟨stopProgram s n status p, parts, ?_, ?_, ?_⟩
  · rw [reported]
    exact post_posts _ _ rfl
  · rw [reported, written]
  · rw [reported, written]

/-- Settles O55: what the stop of the program makes of its context stays, and the report follows it. -/
theorem faultEndsProgramWithReport : Obligations.FaultEndsProgramWithReport := by
  unfold Obligations.FaultEndsProgramWithReport
  rintro s t n status c p hc hprog hst rfl
  have hp : progAt s n = some p := by
    unfold progAt
    rw [hc]
    exact hprog
  have kept := apart_faultContext hp hst status
  have prog := progAt_of_apart kept
  obtain ⟨qs, as, stopped⟩ := ctxAt_stopProgram s n status p
  rw [hc] at stopped
  have progStopped : progAt (stopProgram s n status p) n = some (Program.stopped { p with queues := qs p, assocs := as p }) := by
    unfold progAt
    rw [stopped]
    simp [Context.stopped, hprog]
  refine ⟨?_, ?_, fun x hx Q hQ => ?_, fun q L hL _ => ?_, fun k A hA _ => ?_, fun m hm => ?_, ?report⟩
  · rw [faultStatus_of_apart kept, stopped]
    rfl
  · rw [prog, progStopped]
    rfl
  · rw [prog, progStopped] at hx
    cases hx
    obtain ⟨y, -, rfl⟩ := List.mem_map.1 hQ
    rfl
  · exact (linkSt_of_prog prog q).trans ((linkSt_stopProgram ..).trans (linkSt_abandonAll hp status hL))
  · exact (assocSt_of_prog prog k).trans ((assocSt_stopProgram ..).trans (assocSt_abandonAll hp status hA))
  · exact (ctxAt_of_apart kept hm).trans (ctxAt_stopProgram_ne s n status p hm)
  case report =>
    rintro hrun hsampling hcmds haborts hheld hroom hfeeds Q rfl hlen
    obtain ⟨v, parts, posts, tether, queues⟩ := faultContext_report hc hprog hst hrun hsampling hcmds hfeeds haborts hheld hroom status
    have posted := writeCpl_posted v p.launchQ (c := reportOf n status true c p) rfl rfl
    have head := writeCpl_chead (s := v) (q := p.launchQ) (by rw [parts]; exact hlen) (c := reportOf n status true c p) rfl
    have queue : queueAt v p.launchQ = queueAt s p.launchQ := by
      rw [parts]
      rfl
    rw [queue] at posted head
    refine ⟨?_, ?_, ?_, ?_⟩
    · rw [tether, show s.tether = v.tether by rw [parts], show s.time = v.time by rw [parts]]
      exact posted
    · unfold queueAt at head ⊢
      rw [queues, head]
    · rw [posts, show s.hbm = v.hbm by rw [parts]]
    · rw [posts, show s.piers = v.piers by rw [parts]]

end Sys2Proof.Machine

/-! SUPPORT. An instruction of a pier: what it has made so far of its pier, of the other piers and of the rest, and the rule of each state
operation for it (03 R92, R93; scratchpads R80, R81). -/

namespace Sys2Proof.Machine

/-! ### What an instruction of a pier leaves -/

/-- From s to t, work for pier p of context n has made of the pier P; the other piers stand, and beside them only counters and the
watchdog's start have changed. -/
def OnPier (s t : State) (p n : Nat) (P : Pier) : Prop :=
  pierAt t p = P ∧ (∀ q, q ≠ p → pierAt t q = pierAt s q) ∧ Beside s t n

theorem OnPier.refl (s : State) (p n : Nat) : OnPier s s p n (pierAt s p) := ⟨rfl, fun _ _ => rfl, Beside.refl s n⟩

section
variable {s t : State} {p n : Nat} {P : Pier} (h : OnPier s t p n P)
include h

theorem OnPier.pier : pierAt t p = P := h.1
theorem OnPier.beside : Beside s t n := h.2.2

/-- What changes no pier, and beside them only counters and the watchdog's start. -/
theorem OnPier.step {u : State} (piers : ∀ q, pierAt u q = pierAt t q) (beside : Beside t u n) : OnPier s u p n P :=
  ⟨(piers p).trans h.pier, fun q hq => (piers q).trans (h.2.1 q hq), h.beside.trans beside⟩

/-- What changes pier p alone, and beside it only counters and the watchdog's start. -/
theorem OnPier.set {u : State} {Q : Pier} (piers : ∀ q, pierAt u q = if p = q then Q else pierAt t q) (beside : Beside t u n) :
    OnPier s u p n Q :=
  ⟨(piers p).trans (if_pos rfl), fun q hq => ((piers q).trans (if_neg (Ne.symm hq))).trans (h.2.1 q hq), h.beside.trans beside⟩

theorem OnPier.modPier {f : Pier → Pier} (hf : (f P).id = p) : OnPier s (modPier t p f) p n (f P) := by
  refine h.set (fun q => ?_) (Beside.modPier ..)
  rw [pierAt_modPier _ _ _ _ (by rw [h.pier, hf]), h.pier]

theorem OnPier.count (c i x k : Nat) : OnPier s (count t c i x k) p n P := h.step (fun _ => pierAt_count ..) (Beside.count ..)

theorem OnPier.countEvent (q e k : Nat) : OnPier s (countEvent t n q e k) p n P :=
  h.step (fun _ => pierAt_countEvent ..) (Beside.countEvent ..)

theorem OnPier.countCtx (c i x k : Nat) : OnPier s (countCtx t n c i x k) p n P :=
  h.step (fun _ => pierAt_countCtx ..) (Beside.countCtx ..)

theorem OnPier.opDone : OnPier s (opDone t n) p n P := h.step (fun _ => pierAt_opDone ..) (Beside.opDone ..)

theorem OnPier.touchPad (weak : P.weakWords = []) (rs : List Range) : OnPier s (touchPad t n p rs) p n P :=
  have clean : (pierAt t p).weakWords = [] := by rw [h.pier, weak]
  h.step (fun q => pierAt_touchPad clean n q rs) (Beside.touchPad clean n rs)

theorem OnPier.writePad (bad : P.badWords = []) (weak : P.weakWords = []) (a : Nat) (bs : List Byte) :
    OnPier s (writePad t n p a bs) p n { P with mem := P.mem.write a bs } := by
  refine h.set (fun q => ?_) (Beside.writePad (by rw [h.pier, weak]) ..)
  rw [pierAt_writePad (by rw [h.pier, bad]) (by rw [h.pier, weak]), h.pier]

theorem OnPier.badWord (bad : P.badWords = []) (rs : List Range) : badWord (pierAt t p) rs = none :=
  badWord_clean (by rw [h.pier, bad]) rs

theorem OnPier.id : P.id = p := h.pier ▸ pierAt_id t p

/-- Where HBM has changed from one state to the other, and its accesses have been counted. -/
theorem OnPier.withHbm (c i x k : Nat) (v : Hbm) : OnPier { s with hbm := v } { Machine.count t c i x k with hbm := v } p n P :=
  ⟨h.pier, h.2.1, h.beside.hbmCount c i x k v⟩

end

theorem Beside.sampling {s t : State} {n : Nat} (h : Beside s t n) (quiet : (ctxAt s n).bind (·.sampling) = none) :
    (ctxAt t n).bind (·.sampling) = none := by
  obtain ⟨-, ⟨k, w, e⟩, -⟩ := h
  rw [e]
  cases hc : ctxAt s n with
  | none => rfl
  | some c => simpa [hc] using quiet

/-! ### Fetch and issue (R92, R93) -/

/-- The instruction that pier p stands at. -/
abbrev issueAt (s : State) (p n : Nat) (im : Image) (w : Nat) : Issue := { n, im, pier := p, index := (pierAt s p).index, word := w }

/-- What the rows of the word's opcode make of s at pier p, they make of v, in which the word has been fetched. -/
abbrev RunsOn (s v : State) (p n : Nat) (im : Image) (w : Nat) : Prop :=
  ∀ (accept : Nat → Bool) (f : State → Issue → State), accept (opcodeOf w) = true → atPier s p accept f = f v (issueAt s p n im w)

/-- What the issue of an instruction leaves when no session samples it: it is counted, and the deck index moves on. -/
def Issue.issued (i : Issue) (s : State) : State :=
  countEvent (modPier s i.pier fun P => { P with index := i.index + 1 }) i.n i.pier 0x01 1

theorem Issue.issue_quiet {s : State} {i : Issue} (quiet : (ctxAt s i.n).bind (·.sampling) = none) : i.issue s = (i.issued s, false) :=
  Issue.issue_plain i quiet

theorem Issue.run_quiet {s : State} {i : Issue} (quiet : (ctxAt s i.n).bind (·.sampling) = none) (effect : State → State) :
    i.run s effect = opDone (effect (i.issued s)) i.n :=
  Issue.run_plain i quiet effect

theorem OnPier.issued {s t : State} {p n : Nat} {P : Pier} (h : OnPier s t p n P) {i : Issue} (hp : i.pier = p) (hn : i.n = n) :
    OnPier s (i.issued t) p n { P with index := i.index + 1 } := by
  subst hp hn
  exact (h.modPier (f := fun P => { P with index := i.index + 1 }) h.id).countEvent ..

/-- A pier that stands at a word fetches it: the rows that name its opcode run on the state v. -/
theorem AtWord.fetched {s : State} {p n : Nat} {im : Image} {w : Nat} (h : AtWord s p n im w) : ∃ v,
    RunsOn s v p n im w ∧ OnPier s v p n (filled s im p) ∧ Fetched s v im [p] ∧ (ctxAt v n).bind (·.sampling) = none := by
  obtain ⟨ready, inside, word, -, eu, ec, -, -, quiet⟩ := h
  obtain ⟨v, runs, parts, piers⟩ := atPier_word ready inside word eu ec
  have beside := Beside.parts parts n
  exact ⟨v, runs, (OnPier.refl s p n).set piers beside, fetched_one piers parts, beside.sampling quiet⟩

theorem scoreFree_filled (s : State) (im : Image) (p : Nat) (reads writes : List Range) (a b : Option Range) :
    scoreFree (filled s im p) reads writes a b = scoreFree (pierAt s p) reads writes a b := by
  simp only [scoreFree, filled_score]

/-- A row of the word's opcode, with what it makes of the fetched state. -/
theorem atPier_runs {s v t : State} {p n : Nat} {im : Image} {w op : Nat} (runs : RunsOn s v p n im w)
    (hop : opcodeOf w = op) {f : State → Issue → State} (hf : f v (issueAt s p n im w) = t) :
    (Host.Outcome.next (atPier s p (· == op) f) : Host.Outcome State Fault Refusal) = .next t :=
  congrArg _ ((runs _ f (by simp [hop])).trans hf)

end Sys2Proof.Machine

/-! SUPPORT. What holds of every rendezvous, and the collectives of the Stay engine (03 R92, R94, R96, 08 R209). -/

namespace Sys2Proof.Machine

/-- Settles O7: each pier of the meeting moves on once, as no two of them are the same. -/
theorem rendezvousAdvancesPiers : Obligations.RendezvousAdvancesPiers := by
  unfold Obligations.RendezvousAdvancesPiers
  intro s m effect distinct quiet noFault
  have completes : m.done s effect = opDone (m.piers.foldl (advancePier m.n 0) (effect s)) m.n := by
    unfold Meet.done
    refine if_neg fun newly => ?_
    simp only [Bool.and_eq_true, Bool.not_eq_true'] at newly
    exact absurd (noFault newly.1) (by simp [newly.2])
  obtain ⟨moved, kept, beside, -⟩ := advanceAll_plain m.piers quiet distinct
  rw [completes]
  exact ⟨fun x hx => moved x hx, fun q hq => kept q hq, beside.trans (Beside.opDone ..)⟩

theorem Fetched.stayAt {s u : State} {im : Image} {ps : List Nat} (hF : Fetched s u im ps) (n tile : Nat) :
    stayAt u n tile = Machine.stayAt s n tile := by
  unfold Machine.stayAt
  rw [hF.progAt]

theorem Fetched.collRun {s u : State} {im : Image} {ps : List Nat} (hF : Fetched s u im ps) (c : Coll) : c.run u = c.run s := by
  unfold Coll.run
  rw [hF.stayAt]

/-- A collective of the kind that the image declares, which is not yet outstanding and finds room, joins (R209, R210). -/
theorem issueCollective_joins {s : State} {m : Meet} {c : Coll} {x : StayRun}
    (coll : collOf m.n m.im (homeTile m.im.decls m.stage) m.general.index = some c)
    (stay : stayAt s m.n (homeTile m.im.decls m.stage) = some x) (idle : (c.run s).isSome = false)
    (room : x.outstanding.length < c.sched.maxOutstanding) :
    issueCollective s m c.e.kind = some (m.done s fun s => joinCollective s m) := by
  unfold issueCollective
  simp only [coll, stay, idle]
  exact if_neg (by simpa using room)

/-- Settles O13: the three rows differ only in the kind of the entry that they take. -/
theorem collectivesBecomeOutstanding : Obligations.CollectivesBecomeOutstanding := by
  unfold Obligations.CollectivesBecomeOutstanding
  intro s k m c x met stay coll idle room
  obtain ⟨u, hF, run⟩ := atStage_meets met
  obtain ⟨rfl, -⟩ := met
  have joins (kind : Nat) (hkind : c.e.kind = kind) :
      (issueCollective u m kind).getD s = m.done u fun s => joinCollective s m := by
    subst hkind
    rw [issueCollective_joins coll (by rwa [hF.stayAt]) (by rwa [hF.collRun]) room]
    rfl
  exact ⟨fun op kind => ⟨_, u, atStage_runs run op (joins 0 kind), hF, rfl⟩,
    fun op kind => ⟨_, u, atStage_runs run op (joins 1 kind), hF, rfl⟩,
    fun op kind => ⟨_, u, atStage_runs run op (joins 2 kind), hF, rfl⟩⟩

end Sys2Proof.Machine

/-! SUPPORT. Fields of a deck word and packed rows of elements (00 R5, 03 R97 to R100, 04 R107). -/

namespace Sys2Proof.Machine

theorem bits_eq (v hi lo : Nat) : bits v hi lo = v / 2 ^ lo % 2 ^ (hi + 1 - lo) := by rw [bits, Nat.shiftRight_eq_div_pow]

theorem bit_eq (v i : Nat) : bit v i = decide (v / 2 ^ i % 2 = 1) := Nat.testBit_eq_decide_div_mod_eq

/-- The opcode is all that stands above bit 119 of a deck word. -/
theorem opcodeOf_eq {w : Nat} (hw : w < 2 ^ 128) : opcodeOf w = w / 2 ^ 120 := by
  rw [opcodeOf, bits_eq]
  exact Nat.mod_eq_of_lt (by omega)

theorem leNat_append (xs ys : List Byte) : leNat (xs ++ ys) = leNat xs + 256 ^ xs.length * leNat ys := by
  induction xs with
  | nil => simp [leNat]
  | cons x xs ih =>
    simp only [List.cons_append, leNat, ih, List.length_cons, pow_succ]
    ring

/-- The bytes of a shorter read are the low ones of a longer read. -/
theorem leNat_read_mod (m : Memory) (a : Nat) {k l : Nat} (h : k ≤ l) : leNat (m.read a k) = leNat (m.read a l) % 256 ^ k := by
  have split : m.read a l = m.read a k ++ (m.read a l).drop k := by
    have front : m.read a k = (m.read a l).take k := by
      simp only [Memory.read, ← List.map_take, List.take_range, Nat.min_eq_left h]
    rw [front, List.take_append_drop]
  rw [split, leNat_append, Memory.read_length, Nat.add_mul_mod_self_left]
  refine (Nat.mod_eq_of_lt ?_).symm
  have := leNat_lt (m.read a k)
  rwa [Memory.read_length] at this

/-- An element of a packed row is read from as many of the row's bytes as hold it (R107). -/
theorem unpack_read (m : Memory) (a : Nat) {width count c len k : Nat} (positive : 0 < width) (hc : c < count)
    (hk : width * c + width ≤ 8 * k) (hl : k ≤ len) :
    (unpack width count (m.read a k)).getD c 0 = leNat (m.read a len) / 2 ^ (width * c) % 2 ^ width := by
  have element : (unpack width count (m.read a k)).getD c 0 = leNat (m.read a k) / 2 ^ (width * c) % 2 ^ width := by
    simp [unpack, hc, bits_eq, show width * c + width - 1 + 1 - width * c = width by omega]
  have enough : 256 ^ k = 2 ^ (width * c) * 2 ^ (8 * k - width * c) := by
    rw [← pow_add, show (256 : Nat) = 2 ^ 8 from rfl, ← pow_mul]
    congr 1
    omega
  rw [element, leNat_read_mod m a hl, enough, Nat.mod_mul_right_div_self]
  exact Nat.mod_mod_of_dvd _ (pow_dvd_pow 2 (by omega))

theorem elemBits_pos (format : Nat) : 0 < elemBits format := by
  unfold elemBits arrayFmt
  repeat' split
  all_goals decide

/-- Blocks of one length stand one after another. -/
theorem getElem?_flatMap_block {α β : Type} {f : α → List β} {k : Nat} (block : ∀ x, (f x).length = k) (l : List α) (b c : Nat)
    (hc : c < k) : (l.flatMap f)[k * b + c]? = l[b]?.bind fun x => (f x)[c]? := by
  induction l generalizing b with
  | nil => simp
  | cons x l ih =>
    cases b with
    | zero => simp [List.getElem?_append, block, hc]
    | succ b =>
      have past : k * (b + 1) + c = k + (k * b + c) := by ring
      simp [List.getElem?_append, block, past, ih]

end Sys2Proof.Machine

/-! SUPPORT. LOAD_W (03 R74, R77, R78, R96, R98). -/

namespace Sys2Proof.Machine

theorem ceilDiv_covers (a : Nat) {b : Nat} (hb : 0 < b) : a ≤ b * ceilDiv a b := by
  have := Nat.div_add_mod (a + b - 1) b
  have := Nat.mod_lt (a + b - 1) hb
  unfold ceilDiv
  omega

theorem ceilDiv_le {a b c : Nat} (hb : 0 < b) (h : a ≤ b * c) : ceilDiv a b ≤ c := by
  unfold ceilDiv
  exact Nat.lt_succ_iff.1 (Nat.div_lt_of_lt_mul (by rw [Nat.mul_succ]; omega))

theorem lt_ceilDiv {a b c : Nat} (hb : 0 < b) (h : b * c < a) : c < ceilDiv a b := by
  by_contra hle
  have := Nat.mul_le_mul_left b (Nat.not_lt.1 hle)
  have := ceilDiv_covers a hb
  omega

/-- A cell of the filled plane: its element of the packed row, or +0 where it is not loaded (R78, R98). -/
theorem loadedPlane_cell (P : Pier) (x : LoadW) (index k c : Nat) (hcols : x.ncols ≤ 128) :
    ((loadedPlane P x index).rows.getD k []).getD c 0 = if k < x.krows ∧ c < x.ncols then
        leNat (P.mem.read (x.wAddr + k * x.wStride) (rowBytes x.format)) / 2 ^ (elemBits x.format * c) % 2 ^ elemBits x.format
      else 0 := by
  have row : (loadedPlane P x index).rows.getD k [] = if k < x.krows then
      unpack (elemBits x.format) x.ncols (P.mem.read (x.wAddr + k * x.wStride) (ceilDiv (x.ncols * elemBits x.format) 8)) else [] := by
    by_cases hk : k < x.krows <;> simp [loadedPlane, hk]
  rw [row]
  by_cases hk : k < x.krows
  · by_cases hc : c < x.ncols
    · rw [if_pos hk, if_pos ⟨hk, hc⟩]
      refine unpack_read P.mem _ (elemBits_pos x.format) hc ?_ ?_
      · refine le_trans ?_ (ceilDiv_covers (x.ncols * elemBits x.format) (by decide))
        rw [← Nat.mul_succ, Nat.mul_comm]
        exact Nat.mul_le_mul_right _ hc
      · refine ceilDiv_le (by decide) ?_
        rw [rowBytes, ← Nat.mul_assoc]
        exact Nat.mul_le_mul_right _ hcols
    · simp [hk, hc, unpack]
  · simp [hk]

/-- A scale of the filled plane (R98). -/
theorem loadedPlane_scale (P : Pier) (x : LoadW) (index b c : Nat) (hcols : x.ncols ≤ 128) (mx : x.format ≠ 0) (hb : 32 * b < x.krows)
    (hc : c < x.ncols) : (loadedPlane P x index).scales.getD (128 * b + c) 0 = (P.mem.get (x.scaleAddr + 128 * b + c)).toNat := by
  simp only [loadedPlane, if_neg mx]
  rw [List.getD_eq_getElem?_getD, getElem?_flatMap_block (fun b => by simp; omega) _ b c (by omega),
    List.getElem?_range (lt_ceilDiv (by decide) hb)]
  simp [Memory.read, List.getElem?_append, hc]

theorem loadedPlane_of_mem {P Q : Pier} (h : P.mem = Q.mem) (x : LoadW) (index : Nat) : loadedPlane P x index = loadedPlane Q x index := by
  simp only [loadedPlane, h]

/-- The layout of R98. -/
theorem loadW_layout (w : Nat) : (loadWOf w).plane = decide (w / 2 ^ 119 % 2 = 1) ∧ (loadWOf w).format = w / 2 ^ 112 % 16
    ∧ (loadWOf w).krows = w / 2 ^ 104 % 256 + 1 ∧ (loadWOf w).ncols = w / 2 ^ 96 % 256 + 1 ∧ (loadWOf w).wAddr = w / 2 ^ 74 % 2 ^ 22
    ∧ (loadWOf w).wStride = 32 * (w / 2 ^ 64 % 1024) ∧ (loadWOf w).scaleAddr = w / 2 ^ 42 % 2 ^ 22 :=
  ⟨bit_eq .., bits_eq .., congrArg (· + 1) (bits_eq ..), congrArg (· + 1) (bits_eq ..), bits_eq ..,
    (congrArg (· * 32) (bits_eq ..)).trans (Nat.mul_comm ..), bits_eq ..⟩

/-- What R96 and R98 ask of a LOAD_W. -/
theorem loadWOk_fields {w : Nat} (op : opcodeOf w = 0x01) (ok : wordOk w = true) : w / 2 ^ 116 % 8 = 0 ∧ w % 2 ^ 42 = 0
    ∧ (loadWOf w).format ≤ 5 ∧ (loadWOf w).krows ≤ 128 ∧ (loadWOf w).ncols ≤ 128 := by
  have fields : loadWOk w = true := by simpa [wordOk, op, opcodes] using ok
  simp only [loadWOk, Bool.and_eq_true, beq_iff_eq, decide_eq_true_eq, bits_eq, pow_zero, Nat.div_one] at fields
  obtain ⟨⟨⟨⟨⟨⟨reserved, low⟩, format⟩, krows⟩, ncols⟩, -⟩, -⟩ := fields
  exact ⟨reserved, low, format, krows, ncols⟩

/-- Rows that meet no uncorrectable word are all read (R104). -/
theorem OnPier.loadRows {s t : State} {p n : Nat} {P : Pier} (h : OnPier s t p n P) (bad : P.badWords = []) (weak : P.weakWords = [])
    (x : LoadW) (f k : Nat) : ∃ u, loadRows n p x f k t = (u, none) ∧ OnPier s u p n P := by
  induction f generalizing t k with
  | zero => exact ⟨t, rfl, h⟩
  | succ f ih =>
    obtain ⟨u, reads, kept⟩ := ih (h.touchPad weak (x.rowReads k)) (k + 1)
    refine ⟨u, ?_, kept⟩
    unfold Machine.loadRows
    rw [h.badWord bad]
    exact reads

@[simp] theorem setPlane_id (P : Pier) (b : Bool) (x : Plane) : (setPlane P b x).id = P.id := by
  cases b <;> rfl

theorem setPlane_index (P : Pier) (b : Bool) (x : Plane) (index : Nat) :
    setPlane { P with index } b x = { setPlane P b x with index } := by
  cases b <;> rfl

/-- Settles O1: every row is read, and the plane that is put in is made of the pier's memory as it stood. -/
theorem loadWFillsPlane : Obligations.LoadWFillsPlane := by
  unfold Obligations.LoadWFillsPlane
  refine ⟨?layout, ?fills, ?reserved⟩
  case layout =>
    rintro w x hw op rfl
    obtain ⟨plane, format, krows, ncols, wAddr, wStride, scaleAddr⟩ := loadW_layout w
    refine ⟨opcodeOf_eq hw ▸ op, plane, format, krows, ncols, wAddr, wStride, scaleAddr, loadWOk_fields op, ?_⟩
    intro _ _ hcols P index k c _ _
    exact ⟨loadedPlane_cell P _ index k c hcols, fun plain => by simp [loadedPlane, plain],
      fun b mx hb hc => loadedPlane_scale P _ index b c hcols mx hb hc⟩
  case fills =>
    intro s p n im w stands op within free
    obtain ⟨v, runs, fetched, -, quiet⟩ := stands.fetched
    obtain ⟨-, -, -, ok, -, -, bad, weak, -⟩ := stands
    have issued := fetched.issued (i := issueAt s p n im w) rfl rfl
    obtain ⟨u, reads, kept⟩ := issued.loadRows (by simpa using bad) (by simpa using weak) (loadWOf w) (loadWOf w).krows 0
    have filling := ((kept.modPier (f := fun P => setPlane P (loadWOf w).plane (loadedPlane P (loadWOf w) (pierAt s p).index))
      (by simp)).countEvent p 0x04 1).opDone
    rw [setPlane_index, loadedPlane_of_mem (Q := pierAt s p) (by simp)] at filling
    refine ⟨_, atPier_runs runs op ?_, filling⟩
    simp only [ok, within, fetched.pier, scoreFree_filled, free, Issue.run_quiet (i := issueAt s p n im w) quiet, reads]
    rfl
  case reserved =>
    intro s p n im w ready inside word eu ec op code
    have bad : wordOk w = false := by
      by_contra ok
      obtain ⟨-, -, -, krows, ncols⟩ := loadWOk_fields op (by simpa using ok)
      obtain ⟨-, -, hk, hc, -⟩ := loadW_layout w
      omega
    obtain ⟨u, hF, -, faults, -⟩ := undefinedWordFaultsContext s p n im w ready inside word eu ec
    exact ⟨u, hF, faults bad op⟩

end Sys2Proof.Machine

/-! SUPPORT. PASS and its rows on the way to the accumulator (03 R84, R85, R93, R97, 05 R129). -/

namespace Sys2Proof.Machine

/-- The rows of a pass that meets no uncorrectable word all run. -/
theorem passRows_clean {P : Pier} (bad : P.badWords = []) (x : Pass) (win : Option Window) (f m : Nat) :
    ∃ spans, passRows P x win f m = ((List.range' m f).map fun m => (rowChains P x win m).1, spans, none) := by
  induction f generalizing m with
  | zero => exact ⟨0, rfl⟩
  | succ f ih =>
    obtain ⟨spans, later⟩ := ih (m + 1)
    refine ⟨(rowChains P x win m).2 + spans, ?_⟩
    unfold passRows
    rw [badWord_clean bad]
    simp only [later, List.range'_succ, List.map_cons]

/-- A PASS under way. -/
abbrev enteredPass (P : Pier) (i : Issue) (x : Pass) (win : Option Window) : Pier :=
  { P with
    index := i.index + 1
    score := P.score ++ [{ index := i.index, word := BitVec.ofNat 128 i.word, reads := x.streams win, writes := [],
                           accumulates := some x.accRange, sampled := none }]
    drain := P.drain ++ [.pass { index := i.index, accumulator := x.accAddr, first := x.first, nextRow := 0,
                                 rows := (List.range x.rows).map fun m => (rowChains P x win m).1, slot := false }] }

theorem OnPier.startPass {s t : State} {p n : Nat} {P : Pier} (h : OnPier s t p n P) (bad : P.badWords = []) (weak : P.weakWords = [])
    {i : Issue} (hp : i.pier = p) (hn : i.n = n) (quiet : (ctxAt t i.n).bind (·.sampling) = none) {x : Pass} (rows : 0 < x.rows)
    (win : Option Window) : OnPier s (startPass t i x win) p n (enteredPass P i x win) := by
  have issued := h.issued hp hn
  obtain ⟨spans, run⟩ := passRows_clean bad x win x.rows 0
  rw [← List.range_eq_range'] at run
  have some_row : ((List.range x.rows).map fun m => (rowChains P x win m).1).isEmpty = false := by
    simpa using Nat.pos_iff_ne_zero.1 rows
  subst hp hn
  unfold Machine.startPass countPass
  simp only [Issue.issue_quiet quiet, h.pier, run, some_row, Bool.false_eq_true, if_false]
  exact (((((issued.touchPad weak _).countCtx ..).countCtx ..).countEvent ..).countEvent ..).modPier
    (f := fun P => { P with score := P.score ++ [_], drain := P.drain ++ [_] }) h.id

/-- The window descriptor of a PASS is read from an HBM without errors (R128, R255). -/
theorem OnPier.fetchWindow {s t : State} {p n : Nat} {P : Pier} (h : OnPier s t p n P) (eu : s.hbm.uncorrectable = [])
    (ec : s.hbm.correctable = []) (i : Issue) (x : Pass) : ∃ u,
    fetchWindow t i x = (u, some (if x.mode = 1 then some (windowOf (s.hbm.mem.read (windowAddr i.im i.pier x.window) 32)) else none))
      ∧ OnPier s u p n P ∧ Beside t u n := by
  have hbm := h.beside.hbm
  unfold Machine.fetchWindow
  split
  · rw [readOrFault_clean (by rw [hbm, eu]) (by rw [hbm, ec]), hbm]
    exact ⟨_, rfl, h.count .., Beside.count ..⟩
  · exact ⟨t, rfl, h, Beside.refl t n⟩

theorem rowChains_filled (s : State) (im : Image) (p : Nat) (x : Pass) (win : Option Window) (m : Nat) :
    rowChains (filled s im p) x win m = rowChains (pierAt s p) x win m := by
  obtain ⟨a, b, e⟩ := filled_eq s im p
  rw [e]
  rfl

theorem planeOf_filled (s : State) (im : Image) (p : Nat) (b : Bool) : planeOf (filled s im p) b = planeOf (pierAt s p) b := by
  cases b <;> simp [planeOf]

/-! ### The end of an outstanding instruction -/

/-- An outstanding instruction that is not sampled ends: it leaves the scoreboard once its effect is done. -/
theorem OnPier.finishOutstanding {s t : State} {p n : Nat} {P Q : Pier} (h : OnPier s t p n P)
    (plain : P.score.all (·.sampled.isNone) = true) (index : Nat) {effect : State → State}
    (runs : ∀ {u}, OnPier s u p n P → OnPier s (effect u) p n Q) :
    OnPier s (finishOutstanding t n p index effect) p n { Q with score := Q.score.filter fun o => o.index != index } := by
  simp only [List.all_eq_true, Option.isNone_iff_eq_none] at plain
  have unsampled : ((pierAt t p).score.find? fun o => o.index == index).bind (·.sampled) = none := by
    rw [h.pier]
    cases found : P.score.find? fun o => o.index == index with
    | none => rfl
    | some o => exact plain o (List.mem_of_find?_eq_some found)
  have same : (P.score.map fun o => if o.index = index then { o with sampled := none } else o) = P.score := by
    refine (List.map_congr_left fun o ho => ?_).trans (List.map_id _)
    have unsampled := plain o ho
    cases o
    simp_all
  have cleared := h.modPier (f := fun P => { P with score := P.score.map fun o => if o.index = index then { o with sampled := none } else o }) h.id
  simp only [same] at cleared
  have ran := runs cleared
  unfold Machine.finishOutstanding sampledOnce
  simp only [unsampled]
  exact (ran.modPier (f := fun P => { P with score := P.score.filter fun o => o.index != index }) ran.id).opDone

/-! ### PASS and PASS_ROW_WRITEBACK -/

/-- The next row of a pass, written back: the pass moves on to the row after it, or ends. -/
theorem OnPier.rowDone {s t : State} {p n : Nat} {P : Pier} (h : OnPier s t p n P) (plain : P.score.all (·.sampled.isNone) = true)
    (x : PassInFlight) : OnPier s (rowDone t n p x) p n (if x.rows.length ≤ 1 then
        { P with drain := putPass P.drain none, score := P.score.filter fun o => o.index != x.index }
      else { P with drain := putPass P.drain (some { x with nextRow := x.nextRow + 1, rows := x.rows.tail, slot := true }) }) := by
  unfold Machine.rowDone
  split
  · exact (h.modPier (f := fun P => { P with drain := putPass P.drain none }) h.id).finishOutstanding plain x.index fun hu => hu
  · exact h.modPier (f := fun P => { P with drain := putPass P.drain _ }) h.id

/-- A PASS of the plane's format whose window descriptor has been read: an empty window only counts, another one streams its rows. -/
theorem execPass_runs {s v u : State} {p n : Nat} {im : Image} {w : Nat} {win : Option Window} (runs : RunsOn s v p n im w)
    (op : opcodeOf w = 0x02) (ok : wordOk w = true)
    (format : (planeOf (pierAt v p) (passOf w).plane).format.all (· == (passOf w).stored) = true)
    (index : (passOf w).mode = 1 → (passOf w).window < windowCount im p)
    (fetch : fetchWindow v (issueAt s p n im w) (passOf w) = (u, some win)) :
    (win.any Window.empty = true → exec (.pass p) s = .next
        ((issueAt s p n im w).run u fun t => countPass t (issueAt s p n im w) (passOf w)))
      ∧ (win.any Window.empty = false → outside im p ((passOf w).accRange :: (passOf w).streams win) = none →
        scoreFree (pierAt v p) ((passOf w).streams win) [] (if (passOf w).first then none else some (passOf w).accRange)
          (some (passOf w).accRange) = true →
        exec (.pass p) s = .next (startPass u (issueAt s p n im w) (passOf w) win)) := by
  have recorded : (planeOf (pierAt v p) (passOf w).plane).format.any (· != (passOf w).stored) = false := by
    cases e : (planeOf (pierAt v p) (passOf w).plane).format with
    | none => rfl
    | some f => simpa [e] using format
  have named : ¬ ((passOf w).mode = 1 ∧ windowCount im p ≤ (passOf w).window) := fun h => absurd (index h.1) (Nat.not_lt.2 h.2)
  refine ⟨fun empty => atPier_runs runs op ?_, fun windowed within free => atPier_runs runs op ?_⟩
  · simp only [ok, recorded, if_neg named, fetch, empty]
    rfl
  · simp only [ok, recorded, if_neg named, fetch, windowed, within, free]
    rfl

/-- Where the next row of a pass adds in. -/
abbrev rowAddr (x : PassInFlight) : Nat := x.accumulator + x.nextRow * 1024

/-- What that row reads of the accumulator. -/
abbrev rowReads (x : PassInFlight) : List Range := if x.first then [] else [{ start := rowAddr x, bytes := 1024 }]

theorem execPassRowWriteback_runs {s : State} {p n : Nat} {x : PassInFlight} (active : s.sched.active = some n)
    (oldest : oldestPass (pierAt s p).drain = some x) (bad : (pierAt s p).badWords = [])
    (weak : (pierAt s p).weakWords = []) :
    exec (.passRowWriteback p) s = .next (rowDone (writePad (touchPad s n p (rowReads x)) n p (rowAddr x)
      (addRow ((pierAt s p).mem.read (rowAddr x) 1024) x.first (x.rows.headD []))) n p x) := by
  show execPassRowWriteback p s = _
  unfold execPassRowWriteback
  simp only [active, oldest, badWord_clean bad, pierAt_touchPad weak]

/-- Settles O2: what is fetched before the issue changes neither the pier's memory nor its planes, and no row meets a bad word. -/
theorem passRowsReachAccumulator : Obligations.PassRowsReachAccumulator := by
  unfold Obligations.PassRowsReachAccumulator
  refine ⟨?issue, ?row⟩
  case issue =>
    intro s p n im w win stands op format index hwin
    obtain ⟨v, runs, fetched, -, quiet⟩ := stands.fetched
    obtain ⟨-, -, -, ok, eu, ec, bad, weak, -⟩ := stands
    obtain ⟨u, fetch, kept, beside⟩ := fetched.fetchWindow eu ec (issueAt s p n im w) (passOf w)
    have quiet := beside.sampling quiet
    obtain ⟨counts, streams⟩ := execPass_runs runs op ok (by rwa [fetched.pier, planeOf_filled]) index (hwin ▸ fetch)
    refine ⟨fun empty => ?_, fun windowed within free => ?_⟩
    · exact ⟨_, (counts empty).trans (congrArg _ (Issue.run_quiet quiet _)), ((kept.issued rfl rfl).countEvent ..).opDone⟩
    · have started := kept.startPass (by simpa using bad) (by simpa using weak) (i := issueAt s p n im w) rfl rfl quiet (x := passOf w)
        (Nat.succ_pos _) win
      simp only [enteredPass, rowChains_filled, filled_score, filled_drain] at started
      exact ⟨_, streams windowed within (by rwa [fetched.pier, scoreFree_filled]), started⟩
  case row =>
    intro s p n x active oldest bad weak plain
    have done := (((OnPier.refl s p n).touchPad weak (rowReads x)).writePad bad weak (rowAddr x)
      (addRow ((pierAt s p).mem.read (rowAddr x) 1024) x.first (x.rows.headD []))).rowDone plain x
    refine ⟨_, execPassRowWriteback_runs active oldest bad weak, ?_, fun more => ?_, fun last => ?_, done.2⟩
    · rw [done.pier]
      split <;> rfl
    · rw [done.pier, if_neg (by omega)]
    · rw [done.pier, if_pos last]

end Sys2Proof.Machine

/-! SUPPORT. DRAIN and its rows (03 R86, R87, R93, R96, R100). -/

namespace Sys2Proof.Machine

/-- The layout of R100. -/
theorem drain_layout (w : Nat) : (drainOf w).fuse = w / 2 ^ 118 % 4 ∧ (drainOf w).outFmt = w / 2 ^ 116 % 4
    ∧ (drainOf w).fuseFmt = w / 2 ^ 114 % 4 ∧ (drainOf w).cols = w / 2 ^ 104 % 256 + 1 ∧ (drainOf w).rows = w / 2 ^ 96 % 256 + 1
    ∧ (drainOf w).accAddr = w / 2 ^ 74 % 2 ^ 22 ∧ (drainOf w).outAddr = w / 2 ^ 52 % 2 ^ 22
    ∧ (drainOf w).outStride = 32 * (w / 2 ^ 42 % 1024) ∧ (drainOf w).fuseAddr = w / 2 ^ 20 % 2 ^ 22
    ∧ (drainOf w).fuseStride = 32 * (w / 2 ^ 10 % 1024) :=
  ⟨bits_eq .., bits_eq .., bits_eq .., congrArg (· + 1) (bits_eq ..), congrArg (· + 1) (bits_eq ..), bits_eq .., bits_eq ..,
    (congrArg (· * 32) (bits_eq ..)).trans (Nat.mul_comm ..), bits_eq .., (congrArg (· * 32) (bits_eq ..)).trans (Nat.mul_comm ..)⟩

/-- What R96 and R100 ask of a DRAIN. -/
theorem drainOk_fields {w : Nat} (op : opcodeOf w = 0x03) (ok : wordOk w = true) : (drainOf w).fuse ≤ 2 ∧ (drainOf w).outFmt ≤ 2
    ∧ (drainOf w).fuseFmt ≤ 2 ∧ w / 2 ^ 112 % 4 = 0 ∧ (drainOf w).cols ≤ 128 ∧ w % 2 ^ 10 = 0 := by
  have fields : drainOk w = true := by simpa [wordOk, op, opcodes] using ok
  simp only [drainOk, Bool.and_eq_true, beq_iff_eq, decide_eq_true_eq, bits_eq, pow_zero, Nat.div_one] at fields
  obtain ⟨⟨⟨⟨⟨⟨⟨⟨reserved, low⟩, fuse⟩, outFmt⟩, fuseFmt⟩, cols⟩, -⟩, -⟩, -⟩ := fields
  exact ⟨fuse, outFmt, fuseFmt, reserved, cols, low⟩

/-- The rows of a DRAIN that meets no uncorrectable word are all written, in order. -/
theorem OnPier.drainRows {s t : State} {p n : Nat} {P : Pier} (h : OnPier s t p n P) (bad : P.badWords = []) (weak : P.weakWords = [])
    (x : Drain) (f m : Nat) : OnPier s (drainRows n p x f m t) p n { P with
      mem := (List.range' m f).foldl (fun mem r => mem.write (x.outAddr + r * x.outStride) (drainRow mem x r)) P.mem } := by
  induction f generalizing t m P with
  | zero => exact h.countEvent ..
  | succ f ih =>
    have touched := h.touchPad weak (drainReads x m)
    unfold Machine.drainRows
    simp only [h.badWord bad, touched.pier]
    exact ih (touched.writePad bad weak _ _) bad weak (m + 1)

/-- DRAIN_BIND takes the oldest DRAIN when no pass into its accumulator is before it and a slot is free. -/
theorem execDrainBind_runs {s : State} {p n i w : Nat} {ps : List PassInFlight} (active : s.sched.active = some n)
    (oldest : oldestDrain (pierAt s p).drain [] = some (i, w, ps))
    (clear : ∀ x ∈ ps, rangesMeet x.accumulator ((x.nextRow + x.rows.length) * 1024) (drainOf w).accRange.start
      (drainOf w).accRange.bytes = false) (slot : slotsHeld (pierAt s p).drain < 2) :
    exec (.drainBind p) s = .next (finishOutstanding (modPier s p fun P => { P with drain := dropDrain P.drain }) n p i
      (drainRows n p (drainOf w) (drainOf w).rows 0)) := by
  show execDrainBind p s = _
  have binds : (ps.any (fun p => rangesMeet p.accumulator ((p.nextRow + p.rows.length) * 1024) (drainOf w).accRange.start
      (drainOf w).accRange.bytes) || decide (2 ≤ slotsHeld (pierAt s p).drain)) = false := by
    rw [Bool.or_eq_false_iff]
    exact ⟨List.any_eq_false.2 fun x hx => by simp [clear x hx], by simpa using slot⟩
  unfold execDrainBind
  simp only [active, oldest, binds]
  rfl

/-- Settles O3: the DRAIN joins the queue unchanged, and its rows are written one after another to the memory as it then stands. -/
theorem drainWritesRows : Obligations.DrainWritesRows := by
  unfold Obligations.DrainWritesRows
  refine ⟨?layout, ?queues, ?binds, ?reserved⟩
  case layout =>
    rintro w x hw op rfl
    obtain ⟨fuse, outFmt, fuseFmt, cols, rows, accAddr, outAddr, outStride, fuseAddr, fuseStride⟩ := drain_layout w
    exact ⟨opcodeOf_eq hw ▸ op, fuse, outFmt, fuseFmt, cols, rows, accAddr, outAddr, outStride, fuseAddr, fuseStride, drainOk_fields op⟩
  case queues =>
    intro s p n im w stands op within free
    obtain ⟨v, runs, fetched, -, quiet⟩ := stands.fetched
    obtain ⟨-, -, -, ok, -⟩ := stands
    have issued := fetched.issued (i := issueAt s p n im w) rfl rfl
    have queued := issued.modPier (f := fun P => { P with
      score := P.score ++ [{ index := (pierAt s p).index, word := BitVec.ofNat 128 w, reads := (drainOf w).accRange :: (drainOf w).fuseReads,
                             writes := [(drainOf w).writes], accumulates := none, sampled := none }]
      drain := P.drain ++ [.drain (pierAt s p).index (BitVec.ofNat 128 w)] }) (filled_id ..)
    simp only [filled_score, filled_drain] at queued
    refine ⟨_, atPier_runs runs op ?_, queued⟩
    simp only [ok, within, fetched.pier, scoreFree_filled, free, Issue.issue_quiet (i := issueAt s p n im w) quiet]
    rfl
  case binds =>
    intro s p n i w ps active oldest clear slot bad weak plain
    have taken := (OnPier.refl s p n).modPier (f := fun P => { P with drain := dropDrain P.drain }) (pierAt_id s p)
    have done := taken.finishOutstanding plain i fun hu => hu.drainRows bad weak (drainOf w) (drainOf w).rows 0
    rw [← List.range_eq_range'] at done
    exact ⟨_, execDrainBind_runs active oldest clear slot, done⟩
  case reserved =>
    intro s p n im w ready inside word eu ec op code
    have bad : wordOk w = false := by
      by_contra ok
      obtain ⟨-, -, -, -, hc, -⟩ := drainOk_fields op (by simpa using ok)
      obtain ⟨-, -, -, cols, -⟩ := drain_layout w
      omega
    obtain ⟨u, hF, -, -, -, faults, -⟩ := undefinedWordFaultsContext s p n im w ready inside word eu ec
    exact ⟨u, hF, faults bad op⟩

end Sys2Proof.Machine

/-! SUPPORT. ACC_WRITE and COPY: the bytes they move (03 R95, R96, 10 R258, R259). -/

namespace Sys2Proof.Machine

/-! ### Accesses to HBM -/

section
variable {s t : State} {p n : Nat} {P : Pier} (h : OnPier s t p n P) (eu : s.hbm.uncorrectable = []) (ec : s.hbm.correctable = [])
  (er : s.caisson.run = none)
include h eu ec er

/-- Bytes added in HBM, where no error is met. -/
theorem OnPier.accumulateHbm {a : Nat} (good : (stackAt s ((stackOf a).getD 0)).pathBad = false)
    (strong : (stackAt s ((stackOf a).getD 0)).pathWeak = false) (r : Reader) (f : Nat) (src : List Byte) :
    OnPier { s with hbm := { s.hbm with mem := s.hbm.mem.write a (accWriteBytes f (s.hbm.mem.read a src.length) src) } }
      (accumulateHbm t r f a src) p n P := by
  have hbm := h.beside.hbm
  have stack : stackAt t ((stackOf a).getD 0) = stackAt s ((stackOf a).getD 0) := by rw [stackAt, hbm, stackAt]
  rw [acc_clean (by rw [hbm, eu]) (by rw [hbm, ec]) (by rw [h.beside.caisson, er]) (by rw [stack, good]) (by rw [stack, strong]), hbm]
  exact h.withHbm ..

/-- Bytes written to HBM, where no error is met. -/
theorem OnPier.writeOrFault (r : Reader) (a : Nat) (bs : List Byte) :
    OnPier { s with hbm := { s.hbm with mem := s.hbm.mem.write a bs } } (writeOrFault t r a bs) p n P := by
  have hbm := h.beside.hbm
  rw [writeOrFault_clean (by rw [hbm, eu]) (by rw [hbm, ec]) (by rw [h.beside.caisson, er]), hbm]
  exact h.withHbm ..

end

/-- Where the instruction's writes to HBM are known, so is HBM. -/
theorem OnPier.hbm {s t : State} {p n : Nat} {P : Pier} {v : Hbm} (h : OnPier { s with hbm := v } t p n P) :
    t.hbm = v ∧ (∀ q, q ≠ p → pierAt t q = pierAt s q) ∧ Beside { s with hbm := t.hbm } t n :=
  ⟨h.beside.hbm, h.2.1, by rw [h.beside.hbm]; exact h.beside⟩

/-! ### ACC_WRITE (R258, R259) -/

theorem goodUnits_clean {P : Pier} (bad : P.badWords = []) (a w : Nat) : goodUnits P a (generalOf w).length = (generalOf w).length := by
  rw [goodUnits, good_clean bad]
  exact Nat.div_mul_cancel (Nat.dvd_mul_left ..)

/-- The effect of an ACC_WRITE. -/
def accWriteEffect (i : Issue) (s : State) : State :=
  let g := generalOf i.word
  let k := goodUnits (pierAt s i.pier) g.a g.length
  let s := countEvent (touchPad s i.n i.pier [{ start := g.a, bytes := k }]) i.n i.pier 0x0E k
  let s := if k = 0 then s else accumulateHbm s (pierReader i.n i.pier) (g.flags % 2) g.b ((pierAt s i.pier).mem.read g.a k)
  match badWord (pierAt s i.pier) [{ start := g.a, bytes := g.length }] with
  | some a => padFault s i.n i.pier a
  | none => s

/-- The bytes in HBM after an ACC_WRITE from a scratchpad. -/
abbrev accumulated (h : Hbm) (source : Memory) (g : General) : Hbm :=
  { h with mem := h.mem.write g.b (accWriteBytes (g.flags % 2) (h.mem.read g.b g.length) (source.read g.a g.length)) }

theorem execAccWrite_runs {s v : State} {p n : Nat} {im : Image} {w : Nat} (runs : RunsOn s v p n im w) (op : opcodeOf w = 0x05)
    (ok : wordOk w = true) (within : outside im p [{ start := (generalOf w).a, bytes := (generalOf w).length }] = none)
    (may : mayWrite im (generalOf w).b (generalOf w).length = true)
    (free : scoreFree (pierAt v p) [{ start := (generalOf w).a, bytes := (generalOf w).length },
        { start := hbmSpace + (generalOf w).b, bytes := (generalOf w).length }]
      [{ start := hbmSpace + (generalOf w).b, bytes := (generalOf w).length }] none none = true) :
    exec (.accWrite p) s = .next ((issueAt s p n im w).run v (accWriteEffect (issueAt s p n im w))) := by
  refine atPier_runs runs op ?_
  simp only [ok, within, may, free]
  rfl

theorem OnPier.accWriteEffect {s t : State} {p n : Nat} {P : Pier} (h : OnPier s t p n P) (bad : P.badWords = []) (weak : P.weakWords = [])
    (eu : s.hbm.uncorrectable = []) (ec : s.hbm.correctable = []) (er : s.caisson.run = none) {i : Issue} (hp : i.pier = p) (hn : i.n = n)
    {source : Memory} (hsource : P.mem = source)     (some_bytes : 0 < (generalOf i.word).length)
    (good : (stackAt s ((stackOf (generalOf i.word).b).getD 0)).pathBad = false)
    (strong : (stackAt s ((stackOf (generalOf i.word).b).getD 0)).pathWeak = false) :
    OnPier { s with hbm := accumulated s.hbm source (generalOf i.word) } (accWriteEffect i t) p n P := by
  subst hp hn hsource
  have read := (h.touchPad weak [{ start := (generalOf i.word).a, bytes := (generalOf i.word).length }]).countEvent i.pier 0x0E
    (generalOf i.word).length
  have added := read.accumulateHbm eu ec er good strong (pierReader i.n i.pier) ((generalOf i.word).flags % 2)
    (P.mem.read (generalOf i.word).a (generalOf i.word).length)
  rw [Memory.read_length] at added
  unfold Machine.accWriteEffect
  simp only [h.pier, goodUnits_clean bad, if_neg (Nat.pos_iff_ne_zero.1 some_bytes), read.pier, added.badWord bad]
  exact added

/-! ### COPY (R95) -/

/-- From HBM to the own scratchpad. -/
theorem OnPier.copyIn {s t : State} {p n : Nat} {P : Pier} (h : OnPier s t p n P) (bad : P.badWords = []) (weak : P.weakWords = [])
    (eu : s.hbm.uncorrectable = []) (ec : s.hbm.correctable = []) {i : Issue} (hp : i.pier = p) (hn : i.n = n) (g : General) :
    OnPier s (copyIn t i g) p n { P with mem := P.mem.write g.a (s.hbm.mem.read g.b g.length) } := by
  subst hp hn
  have hbm := h.beside.hbm
  unfold Machine.copyIn
  simp only [hbm, badIn_nil eu, List.min?_nil, readHbm_clean (s := t) (by rw [hbm, eu]) (by rw [hbm, ec]),
    lt_irrefl, if_false]
  exact ((h.count ..).writePad bad weak _ _).countEvent ..

/-- What a COPY out of the own scratchpad has made once its bytes are moved. -/
def copied (s : State) (i : Issue) (g : General) : State :=
  let p := i.pier
  let k := goodBytes (pierAt s p) g.a g.length
  let bs := (pierAt s p).mem.read g.a k
  let s := countEvent (touchPad s i.n p [{ start := g.a, bytes := k }]) i.n p 0x0D k
  let other := pierTile p * 128 + g.index
  if g.toPier then countEvent (writePad s i.n other g.b bs) i.n other 0x0C k else writeOrFault s (pierReader i.n p) g.b bs

theorem copyOut_copied {s : State} {i : Issue} {g : General} (clean : (pierAt (copied s i g) i.pier).badWords = []) :
    copyOut s i g = copied s i g := by
  have no_fault := badWord_clean clean [{ start := g.a, bytes := g.length }]
  unfold copied at no_fault
  unfold copyOut
  simp only [no_fault]
  rfl

/-- From the own scratchpad to HBM. -/
theorem OnPier.copyOut {s t : State} {p n : Nat} {P : Pier} (h : OnPier s t p n P) (bad : P.badWords = []) (weak : P.weakWords = [])
    (eu : s.hbm.uncorrectable = []) (ec : s.hbm.correctable = []) (er : s.caisson.run = none) {i : Issue} (hp : i.pier = p) (hn : i.n = n)
    {source : Memory} (hsource : P.mem = source) {g : General} (toHbm : g.toPier = false) :
    OnPier { s with hbm := { s.hbm with mem := s.hbm.mem.write g.b (source.read g.a g.length) } } (copyOut t i g) p n P := by
  subst hp hn hsource
  have written := ((h.touchPad weak [{ start := g.a, bytes := g.length }]).countEvent i.pier 0x0D g.length).writeOrFault eu ec er
    (pierReader i.n i.pier) g.b (P.mem.read g.a g.length)
  have moved : copied t i g = Machine.writeOrFault (Machine.countEvent (Machine.touchPad t i.n i.pier
      [{ start := g.a, bytes := g.length }]) i.n i.pier 0x0D g.length) (pierReader i.n i.pier) g.b (P.mem.read g.a g.length) := by
    unfold copied
    simp only [h.pier, good_clean bad, toHbm, Bool.false_eq_true, if_false]
  rw [copyOut_copied (by rw [moved, written.pier, bad]), moved]
  exact written

/-- A pier that has received bytes: a word written whole is good again (R81). -/
abbrev received (P : Pier) (a : Nat) (bs : List Byte) : Pier :=
  { P with mem := P.mem.write a bs, badWords := P.badWords.filter fun w => !rangeInside (8 * w) 8 a bs.length }

/-- A write that meets no correctable error. -/
theorem pierAt_writePad_received {s : State} {p : Nat} (weak : (pierAt s p).weakWords = []) (n a q : Nat) (bs : List Byte) :
    pierAt (writePad s n p a bs) q = if p = q then received (pierAt s q) a bs else pierAt s q := by
  simp only [writePad, pierAt_countEvent]
  rw [pierAt_modPier _ _ _ _ (by simp), pierAt_correctWords weak, pierAt_correctWords weak, weak]
  split
  · rename_i own
    subst own
    cases hP : pierAt s p
    simp_all
  · rfl

/-- From the own scratchpad to that of another pier, or to another place of the own (log 114). -/
theorem copyOut_toPier {t : State} {i : Issue} {g : General} (toPier : g.toPier = true) (bad : (pierAt t i.pier).badWords = [])
    (weak : (pierAt t i.pier).weakWords = []) {other : Nat} (names : pierTile i.pier * 128 + g.index = other)
    (target : (pierAt t other).weakWords = []) :
    (∀ q, pierAt (copyOut t i g) q =
        if other = q then received (pierAt t q) g.b ((pierAt t i.pier).mem.read g.a g.length) else pierAt t q)
      ∧ Beside t (copyOut t i g) i.n := by
  have moved : copied t i g = countEvent (writePad (countEvent (touchPad t i.n i.pier [{ start := g.a, bytes := g.length }]) i.n i.pier 0x0D
      g.length) i.n other g.b ((pierAt t i.pier).mem.read g.a g.length)) i.n other 0x0C g.length := by
    unfold copied
    simp only [good_clean bad, toPier, names, if_true]
  have piers (q : Nat) : pierAt (copied t i g) q =
      if other = q then received (pierAt t q) g.b ((pierAt t i.pier).mem.read g.a g.length) else pierAt t q := by
    rw [moved, pierAt_countEvent, pierAt_writePad_received (by rw [pierAt_countEvent, pierAt_touchPad weak, target]),
      pierAt_countEvent, pierAt_touchPad weak]
  have clean : (pierAt (copied t i g) i.pier).badWords = [] := by
    rw [piers]
    split <;> simp [bad]
  rw [copyOut_copied clean]
  refine ⟨piers, ?_⟩
  rw [moved]
  exact (((Beside.touchPad weak ..).trans (Beside.countEvent ..)).trans
    (Beside.writePad (by rw [pierAt_countEvent, pierAt_touchPad weak, target]) ..)).trans (Beside.countEvent ..)

/-- A COPY that passes the checks of R95 and R96 runs. -/
theorem execCopy_runs {s v : State} {p n : Nat} {im : Image} {w : Nat} {reads writes : List Range}
    (runs : RunsOn s v p n im w)
    (op : opcodeOf w = 0x06) (ok : wordOk w = true) (within : outside im p [{ start := (generalOf w).a, bytes := (generalOf w).length }] = none)
    (toPier : ((generalOf w).toPier && !copyTargetOk (issueAt s p n im w) (generalOf w)) = false)
    (mayRead : ((generalOf w).flags == 0 && !mayRead im (generalOf w).b (generalOf w).length) = false)
    (mayWrite : ((generalOf w).flags == 1 && !mayWrite im (generalOf w).b (generalOf w).length) = false)
    (hreads : reads = if (generalOf w).flags = 0 then [{ start := hbmSpace + (generalOf w).b, bytes := (generalOf w).length }]
      else [{ start := (generalOf w).a, bytes := (generalOf w).length }])
    (hwrites : writes = if (generalOf w).flags = 0 then [{ start := (generalOf w).a, bytes := (generalOf w).length }]
      else if (generalOf w).toPier then
        (if pierTile p * 128 + (generalOf w).index == p then [{ start := (generalOf w).b, bytes := (generalOf w).length }] else [])
      else [{ start := hbmSpace + (generalOf w).b, bytes := (generalOf w).length }])
    (free : scoreFree (pierAt v p) reads writes none none = true) :
    exec (.copy p) s = .next ((issueAt s p n im w).run v fun t =>
      if (generalOf w).flags = 0 then copyIn t (issueAt s p n im w) (generalOf w) else copyOut t (issueAt s p n im w) (generalOf w)) := by
  subst hreads hwrites
  refine atPier_runs runs op ?_
  simp only [ok, within, toPier, mayRead, mayWrite, free]
  rfl

theorem OnPier.mem {s t : State} {p n : Nat} {P : Pier} (h : OnPier s t p n P) (same : P.mem = (pierAt s p).mem) (q : Nat) :
    (pierAt t q).mem = (pierAt s q).mem := by
  by_cases own : q = p
  · rw [own, h.pier, same]
  · rw [h.2.1 q own]

theorem OnPier.weakWords {s t : State} {p n : Nat} {P : Pier} (h : OnPier s t p n P) (same : P.weakWords = (pierAt s p).weakWords) {q : Nat}
    (good : (pierAt s q).weakWords = []) : (pierAt t q).weakWords = [] := by
  by_cases own : q = p
  · rw [own] at good ⊢
    rw [h.pier, same, good]
  · rw [h.2.1 q own, good]

/-- Settles O5: each clause is the effect of its row on the pier that has issued it. -/
theorem accWriteAndCopyMoveBytes : Obligations.AccWriteAndCopyMoveBytes := by
  unfold Obligations.AccWriteAndCopyMoveBytes
  refine ⟨?accWrite, ?copyIn, ?copyOut, ?toPier⟩
  case accWrite =>
    intro s p n im w stands op some_bytes within may free er good strong
    obtain ⟨v, runs, fetched, -, quiet⟩ := stands.fetched
    obtain ⟨-, -, -, ok, eu, ec, bad, weak, -⟩ := stands
    have done := ((fetched.issued (i := issueAt s p n im w) rfl rfl).accWriteEffect (by simpa using bad) (by simpa using weak) eu ec er
      (i := issueAt s p n im w) rfl rfl (filled_mem ..) some_bytes good strong).opDone
    have runs := execAccWrite_runs runs op ok within may (by rwa [fetched.pier, scoreFree_filled])
    rw [Issue.run_quiet quiet] at runs
    exact ⟨_, runs, done.pier, done.hbm⟩
  case copyIn =>
    intro s p n im w stands op flags within may free
    obtain ⟨v, runs, fetched, -, quiet⟩ := stands.fetched
    obtain ⟨-, -, -, ok, eu, ec, bad, weak, -⟩ := stands
    have done := ((fetched.issued (i := issueAt s p n im w) rfl rfl).copyIn (by simpa using bad) (by simpa using weak) eu ec
      (i := issueAt s p n im w) rfl rfl (generalOf w)).opDone
    simp only [filled_mem] at done
    have runs := execCopy_runs runs op ok within (by rw [General.toPier, flags]; rfl) (by simp [may]) (by simp [flags]) rfl rfl
      (by rw [fetched.pier, scoreFree_filled]; simpa [flags] using free)
    rw [Issue.run_quiet quiet, if_pos flags] at runs
    exact ⟨_, runs, done⟩
  case copyOut =>
    intro s p n im w stands op flags within may free er
    obtain ⟨v, runs, fetched, -, quiet⟩ := stands.fetched
    obtain ⟨-, -, -, ok, eu, ec, bad, weak, -⟩ := stands
    have toHbm : (generalOf w).toPier = false := by rw [General.toPier, flags]; rfl
    have done := ((fetched.issued (i := issueAt s p n im w) rfl rfl).copyOut (by simpa using bad) (by simpa using weak) eu ec er
      (i := issueAt s p n im w) rfl rfl (filled_mem ..) toHbm).opDone
    have runs := execCopy_runs runs op ok within (by simp [toHbm]) (by simp [flags]) (by simp [may]) rfl rfl
      (by rw [fetched.pier, scoreFree_filled]; simpa [flags, toHbm] using free)
    rw [Issue.run_quiet quiet, if_neg (by simp [flags])] at runs
    exact ⟨_, runs, done.pier, done.hbm⟩
  case toPier =>
    rintro s p n im w _ stands op flags within rfl targetOk free target
    obtain ⟨v, runs, fetched, -, quiet⟩ := stands.fetched
    obtain ⟨-, -, -, ok, -, -, bad, weak, -⟩ := stands
    have toPier : (generalOf w).toPier = true := by rw [General.toPier, flags]; rfl
    have runs := execCopy_runs runs op ok within (by simp [targetOk]) (by simp [flags]) (by simp [flags]) rfl rfl
      (by rw [fetched.pier, scoreFree_filled]; simpa [flags, toPier] using free)
    rw [Issue.run_quiet quiet, if_neg (by simp [flags])] at runs
    have issued := fetched.issued (i := issueAt s p n im w) rfl rfl
    obtain ⟨piers, beside⟩ := copyOut_toPier (i := issueAt s p n im w) toPier (by rw [issued.pier]; simpa using bad)
      (by rw [issued.pier]; simpa using weak) rfl (issued.weakWords (filled_weakWords ..) target)
    refine ⟨_, runs, ?_, fun apart => ?_, ?_, fun q hp hq => ?_, (issued.beside.trans beside).trans (Beside.opDone ..)⟩
    · rw [pierAt_opDone, piers, issued.pier]
      split <;> simp [bad]
    · rw [pierAt_opDone, piers, if_neg apart, issued.pier, filled_mem]
    · rw [pierAt_opDone, piers, if_pos rfl]
      simp only [issued.mem (filled_mem ..)]
    · rw [pierAt_opDone, piers, if_neg (Ne.symm hq), issued.2.1 q hp]

end Sys2Proof.Machine

/-! SUPPORT. Lane programs and VEC (03 R89 to R91, R93, R422, R440). -/

namespace Sys2Proof.Machine

/-! ### A lane instruction (R90, R91) -/

/-- The values of some lanes, stored. -/
def storeLanes (site : LaneSite) (value : Nat → List Byte) (xs : List (Nat × Range)) (s : State) : State :=
  xs.foldl (fun s x => writePad s site.n site.pier x.2.start (value x.1)) s

/-- A lane instruction executes nothing but itself, never ends as a runaway, and of the state at most reads the scratchpad or writes to it. -/
theorem laneStep_cases (site : LaneSite) (r : LaneRun) (i : LaneInstr) :
    (laneStep site r i).1.executed = r.executed ∧ (laneStep site r i).2 ≠ some .runaway
      ∧ ((laneStep site r i).1.s = r.s ∨ (∃ rs, (laneStep site r i).1.s = touchPad r.s site.n site.pier rs)
        ∨ ∃ value xs, (laneStep site r i).1.s = storeLanes site value xs r.s) := by
  have stands {t : LaneRun} {e : Option LaneStop} (count : t.executed = r.executed) (state : t.s = r.s) (stop : e ≠ some .runaway) :
      t.executed = r.executed ∧ e ≠ some .runaway
        ∧ (t.s = r.s ∨ (∃ rs, t.s = touchPad r.s site.n site.pier rs) ∨ ∃ value xs, t.s = storeLanes site value xs r.s) :=
    ⟨count, stop, .inl state⟩
  unfold laneStep
  split
  case h_5 t d a offset _ =>
    dsimp only
    split
    · exact stands rfl rfl (by simp)
    · split
      · exact stands rfl rfl (by simp)
      · exact ⟨rfl, by simp, .inr (.inl ⟨_, rfl⟩)⟩
  case h_6 t a d offset _ =>
    dsimp only
    split
    · exact stands rfl rfl (by simp)
    · exact ⟨rfl, by simp, .inr (.inr ⟨fun l => leBytes (laneBytes t) (r.reg a l), _, rfl⟩)⟩
  all_goals
    repeat' split
    all_goals exact stands rfl rfl (by simp)

theorem OnPier.storeLanes {s t : State} {p n : Nat} {P : Pier} (h : OnPier s t p n P) (bad : P.badWords = []) (weak : P.weakWords = [])
    {site : LaneSite} (hp : site.pier = p) (hn : site.n = n) (value : Nat → List Byte) (xs : List (Nat × Range)) :
    ∃ mem, OnPier s (storeLanes site value xs t) p n { P with mem } := by
  induction xs generalizing t P with
  | nil => exact ⟨P.mem, h⟩
  | cons x xs ih =>
    have written := h.writePad bad weak x.2.start (value x.1)
    subst hp hn
    obtain ⟨mem, stored⟩ := ih written bad weak
    exact ⟨mem, stored⟩

/-- A lane instruction changes the scratchpad of its pier alone. -/
theorem OnPier.laneStep {s : State} {r : LaneRun} {p n : Nat} {P : Pier} (h : OnPier s r.s p n P) (bad : P.badWords = [])
    (weak : P.weakWords = []) {site : LaneSite} (hp : site.pier = p) (hn : site.n = n) (i : LaneInstr) :
    ∃ mem, OnPier s (laneStep site r i).1.s p n { P with mem } := by
  obtain ⟨-, -, same | ⟨rs, reads⟩ | ⟨value, xs, writes⟩⟩ := laneStep_cases site r i
  · exact ⟨P.mem, same ▸ h⟩
  · subst hp hn
    exact ⟨P.mem, reads ▸ h.touchPad weak rs⟩
  · rw [writes]
    exact h.storeLanes bad weak hp hn value xs

/-! ### A lane program (R90) -/

/-- One instruction of a program that goes on, or the program's end. -/
theorem runLanes_succ (site : LaneSite) (store : List Byte) (f : Nat) (r : LaneRun) :
    runLanes site store (f + 1) r = (r, .undefined)
      ∨ ∃ i, (∃ e, (laneStep site { r with executed := r.executed + 1 } i).2 = some e
          ∧ runLanes site store (f + 1) r = ((laneStep site { r with executed := r.executed + 1 } i).1, e))
        ∨ runLanes site store (f + 1) r = runLanes site store f (laneStep site { r with executed := r.executed + 1 } i).1 := by
  simp only [runLanes]
  cases (laneWord store r.pc).filter laneOk with
  | none => exact .inl rfl
  | some i =>
    refine .inr ⟨i, ?_⟩
    dsimp only
    obtain ⟨t, e⟩ := laneStep site { r with executed := r.executed + 1 } i
    cases e with
    | none => exact .inr rfl
    | some e => exact .inl ⟨e, rfl, rfl⟩

/-- A program executes at most the instructions it is given, and all of them when it does not come to its end. -/
theorem runLanes_executed (site : LaneSite) (store : List Byte) (f : Nat) (r : LaneRun) :
    (runLanes site store f r).1.executed ≤ r.executed + f
      ∧ ((runLanes site store f r).2 = .runaway → (runLanes site store f r).1.executed = r.executed + f) := by
  induction f generalizing r with
  | zero => exact ⟨le_refl _, fun _ => rfl⟩
  | succ f ih =>
    obtain undefined | ⟨i, ⟨e, ends, run⟩ | run⟩ := runLanes_succ site store f r
    · rw [undefined]
      exact ⟨by simp, by simp⟩
    · obtain ⟨count, running, -⟩ := laneStep_cases site { r with executed := r.executed + 1 } i
      rw [run]
      dsimp only at count ⊢
      refine ⟨by omega, fun runaway => ?_⟩
      subst runaway
      exact absurd ends running
    · obtain ⟨count, -, -⟩ := laneStep_cases site { r with executed := r.executed + 1 } i
      obtain ⟨most, runaway⟩ := ih (laneStep site { r with executed := r.executed + 1 } i).1
      rw [run]
      dsimp only at count
      exact ⟨by omega, fun h => by rw [runaway h]; omega⟩

/-- A program changes the scratchpad of its pier alone. -/
theorem OnPier.runLanes {s : State} {p n : Nat} {P : Pier} (bad : P.badWords = []) (weak : P.weakWords = []) {site : LaneSite}
    (hp : site.pier = p) (hn : site.n = n) (store : List Byte) (f : Nat) {r : LaneRun} {mem : Memory} (h : OnPier s r.s p n { P with mem }) :
    ∃ mem, OnPier s (runLanes site store f r).1.s p n { P with mem } := by
  induction f generalizing r mem with
  | zero => exact ⟨mem, h⟩
  | succ f ih =>
    obtain undefined | ⟨i, ⟨e, -, run⟩ | run⟩ := runLanes_succ site store f r
    · rw [undefined]
      exact ⟨mem, h⟩
    · rw [run]
      exact OnPier.laneStep (r := { r with executed := r.executed + 1 }) h bad weak hp hn i
    · rw [run]
      obtain ⟨mem, next⟩ := OnPier.laneStep (r := { r with executed := r.executed + 1 }) h bad weak hp hn i
      exact ih next

/-- So does a launch: what it leaves of the pier is the memory it ends with. -/
theorem OnPier.launchLanes {s t : State} {p n : Nat} {P : Pier} (h : OnPier s t p n P) (bad : P.badWords = []) (weak : P.weakWords = [])
    {i : Issue} (hp : i.pier = p) (hn : i.n = n) (launch : Nat) :
    OnPier s (launchLanes t i launch).1.s p n { P with mem := (pierAt (launchLanes t i launch).1.s p).mem } := by
  obtain ⟨mem, ran⟩ := OnPier.runLanes (P := P) bad weak
    (site := { n := i.n, pier := i.pier, limit := scratchOf i.im.decls i.pier
               args := elements 4 ((pierAt t i.pier).mem.read (vecArgs i).start 32) }) hp hn (pierAt t i.pier).store laneLimit
    (r := freshLanes t launch (laneEntry (pierAt t i.pier).store (generalOf i.word).index)) (mem := P.mem) h
  change OnPier s (Machine.launchLanes t i launch).1.s p n { P with mem } at ran
  rw [show (pierAt (Machine.launchLanes t i launch).1.s p).mem = mem by rw [ran.pier]]
  exact ran

theorem launchLanes_executed (s : State) (i : Issue) (launch : Nat) : (launchLanes s i launch).1.executed ≤ 16777216
    ∧ ((launchLanes s i launch).2 = .runaway → (launchLanes s i launch).1.executed = 16777216) := by
  have bound := runLanes_executed
    { n := i.n, pier := i.pier, limit := scratchOf i.im.decls i.pier
      args := elements 4 ((pierAt s i.pier).mem.read (vecArgs i).start 32) } (pierAt s i.pier).store laneLimit
    (freshLanes s launch (laneEntry (pierAt s i.pier).store (generalOf i.word).index))
  rw [show (freshLanes s launch (laneEntry (pierAt s i.pier).store (generalOf i.word).index)).executed = 0 from rfl, Nat.zero_add] at bound
  exact bound

end Sys2Proof.Machine

/-! SUPPORT. VEC: the launch, how it ends, and the program that does not (03 R89 to R91, R93, R96, R422, R440). -/

namespace Sys2Proof.Machine

/-! ### The fault of a pier's instruction (R50) -/

theorem Beside.progAt {s t : State} {n : Nat} (h : Beside s t n) : ∃ at_, progAt t n = (progAt s n).map fun p => { p with watchdogAt := at_ } := by
  obtain ⟨-, ⟨k, w, e⟩, -⟩ := h
  refine ⟨w, ?_⟩
  unfold Machine.progAt
  rw [e]
  cases ctxAt s n <;> rfl

/-- The context has faulted, with the status of a fault of its own. -/
def HasFaulted (s : State) (n : Nat) : Prop := faultedIn s n = true ∧ (ctxAt s n).map (·.faultStatus) = some stContextFault

theorem HasFaulted.opDone {s : State} {n : Nat} (h : HasFaulted s n) : HasFaulted (opDone s n) n := by
  unfold HasFaulted faultedIn Machine.opDone at *
  rw [progAt_modProg, if_pos rfl, modProg, ctxAt_modCtx, if_pos rfl]
  obtain ⟨faulted, status⟩ := h
  refine ⟨?_, ?_⟩
  · cases hp : progAt s n <;> simp_all
  · cases hc : ctxAt s n <;> simp_all

/-- A confinement fault ends a program that has not faulted yet. -/
theorem pierFault_faults {s : State} {n : Nat} {x : Program} (prog : progAt s n = some x) (live : x.st ≠ .faulted) (pier index address : Nat) :
    HasFaulted (pierFault s n pier index address) n := by
  obtain ⟨c, hc, hx⟩ : ∃ c, ctxAt s n = some c ∧ c.program = some x := by
    unfold progAt at prog
    exact Option.bind_eq_some_iff.1 prog
  have logged : ctxAt (logError s 0x0003 stContextFault sevFault srcPier (pierTile pier) n [pier, index, address]) n = some c := by
    rw [logError_toll, ← hc]
    rfl
  obtain ⟨status, st, -⟩ := faultEndsProgramWithReport _ _ n stContextFault c x logged hx live rfl
  refine ⟨?_, status⟩
  unfold faultedIn pierFault confine
  obtain ⟨y, hy, faulted⟩ := Option.map_eq_some_iff.1 st
  rw [hy]
  simp [faulted]

theorem issuing_live {s : State} {n : Nat} (h : issuing s = some n) : ∃ x, progAt s n = some x ∧ x.st ≠ .faulted := by
  unfold issuing at h
  split at h
  · obtain ⟨-, active⟩ := Option.filter_eq_some_iff.1 h
    obtain ⟨x, hx, running⟩ := (Option.any_eq_true _ _).1 active
    refine ⟨x, hx, ?_⟩
    rw [eq_of_beq running]
    decide
  · cases h

theorem pierReady_issuing {s : State} {p n : Nat} {im : Image} (h : pierReady s p = some (n, im)) : issuing s = some n := by
  unfold pierReady at h
  split at h
  · cases h
  · rename_i m active
    split at h
    · cases h
    · split at h
      · cases h
        exact active
      · cases h

/-- What an instruction of a pier leaves beside still runs the program. -/
theorem Beside.live {s t : State} {n : Nat} (h : Beside s t n) {x : Program} (prog : Machine.progAt s n = some x) (live : x.st ≠ .faulted) :
    ∃ y, Machine.progAt t n = some y ∧ y.st ≠ .faulted := by
  obtain ⟨w, e⟩ := h.progAt
  exact ⟨{ x with watchdogAt := w }, by rw [e, prog]; rfl, live⟩

/-! ### The end of a launch -/

/-- What the end of a launch makes of the state. -/
def endLaunch (i : Issue) (s : State) : LaneStop → State
  | .finished => s
  | .undefined => pierFault s i.n i.pier i.index 0
  | .outside a => pierFault s i.n i.pier i.index a
  | .bad a => padFault s i.n i.pier a
  | .runaway => modPier s i.pier fun P => { P with lane := some ((generalOf i.word).index, i.index) }

/-- The state in which a VEC launches its program: its arguments have been read. -/
abbrev argued (i : Issue) (s : State) : State := touchPad s i.n i.pier [vecArgs i]

/-- What a launch from a state leaves there once its instructions are counted. -/
abbrev ranLanes (i : Issue) (k : Nat) (s : State) : State :=
  countEvent (launchLanes s i k).1.s i.n i.pier 0x06 (launchLanes s i k).1.executed

theorem vecEffect_launches {i : Issue} {k : Nat} {s : State} (clean : badWord (pierAt s i.pier) [vecArgs i] = none) :
    vecEffect i k s = endLaunch i (ranLanes i k (argued i s)) (launchLanes (argued i s) i k).2 := by
  unfold vecEffect
  rw [clean]
  dsimp only [ranLanes, argued]
  generalize launchLanes (touchPad s i.n i.pier [vecArgs i]) i k = r
  obtain ⟨r, e⟩ := r
  cases e <;> rfl

theorem Issue.run_launches {i : Issue} {s : State} (quiet : (ctxAt s i.n).bind (·.sampling) = none)
    (clean : badWord (pierAt (i.issued s) i.pier) [vecArgs i] = none) (k : Nat) :
    i.run s (vecEffect i k) = opDone (endLaunch i (ranLanes i k (argued i (i.issued s))) (launchLanes (argued i (i.issued s)) i k).2) i.n := by
  rw [Issue.run_quiet quiet, vecEffect_launches clean]

/-- A VEC that passes the checks of R96 issues when the scoreboard lets it, and waits otherwise. -/
theorem execVec_runs {s v : State} {p n : Nat} {im : Image} {w : Nat} (free : v.free = s.free)
    (runs : RunsOn s v p n im w)
    (op : opcodeOf w = 0x04) (ok : wordOk w = true) (entry : (generalOf w).index < entryCount (pierAt v p).store)
    (within : outside im p [vecArgs (issueAt s p n im w)] = none) :
    exec (.vec p) s = .next (
      if !scoreFree (pierAt v p) (vecArgs (issueAt s p n im w) :: (launchLanes v (issueAt s p n im w) s.free).1.reads)
          (launchLanes v (issueAt s p n im w) s.free).1.writes none none then s
      else (issueAt s p n im w).run (freeUsed v 1) (vecEffect (issueAt s p n im w) s.free)) := by
  refine atPier_runs runs op ?_
  simp only [ok, if_neg (Nat.not_le.2 entry), within, free]
  rfl

theorem scoreFree_empty {P : Pier} (h : P.score = []) (reads writes : List Range) : scoreFree P reads writes none none = true := by
  simp [scoreFree, h]

/-- The unit's stop of a program without end: the record of a sampled VEC goes first (R90, R422). -/
theorem execLaneProgramRunaway_runs {s : State} {p n e i : Nat} (active : s.sched.active = some n) (lane : (pierAt s p).lane = some (e, i)) :
    exec (.laneProgramRunaway p) s = .next (faultContext
      (logError (modPier
          ((pierAt s p).laneSample.elim s fun x => takeRecord s n p x.1.toNat i (flag true 3) (some x.2) (some s.time))
          p fun P => { P with lane := none, laneSample := none })
        0x0002 stContextFault sevFault srcPier (pierTile p) n [p, e])
      n stContextFault) := by
  show execLaneProgramRunaway p s = _
  unfold execLaneProgramRunaway
  simp only [active, lane, Option.map_some]
  cases (pierAt s p).laneSample <;> rfl

theorem OnPier.argued {s t : State} {p n : Nat} {P : Pier} (h : OnPier s t p n P) (weak : P.weakWords = []) {i : Issue} (hp : i.pier = p)
    (hn : i.n = n) : OnPier s (argued i t) p n P := by
  subst hp hn
  exact h.touchPad weak [vecArgs i]

theorem OnPier.freeUsed {s t : State} {p n : Nat} {P : Pier} (h : OnPier s t p n P) :
    OnPier { s with free := s.free + 1 } (freeUsed t 1) p n P := by
  obtain ⟨pier, others, ctxs, ctx, parts⟩ := h
  exact ⟨pier, others, ctxs, ctx, by rw [parts]; rfl⟩

/-- How a VEC whose arguments have been read completes, by the end of its program. -/
theorem OnPier.endLaunch {s u : State} {p n : Nat} {P : Pier} (h : OnPier s u p n P) (bad : P.badWords = []) (weak : P.weakWords = [])
    {i : Issue} (hp : i.pier = p) (hn : i.n = n) (k : Nat) {x : Program} (prog : Machine.progAt s n = some x) (live : x.st ≠ .faulted)
    {t : State} (ht : t = Machine.opDone (endLaunch i (ranLanes i k u) (Machine.launchLanes u i k).2) n) :
    ((Machine.launchLanes u i k).2 = .finished →
        OnPier s t p n { P with mem := (pierAt (Machine.launchLanes u i k).1.s p).mem })
      ∧ ((Machine.launchLanes u i k).2 = .runaway →
        OnPier s t p n { P with mem := (pierAt (Machine.launchLanes u i k).1.s p).mem, lane := some ((generalOf i.word).index, i.index) })
      ∧ ((Machine.launchLanes u i k).2 = .undefined ∨ (∃ a, (Machine.launchLanes u i k).2 = .outside a) → HasFaulted t n) := by
  have ran := (h.launchLanes bad weak hp hn k).countEvent p 0x06 (Machine.launchLanes u i k).1.executed
  obtain ⟨y, prog, live⟩ := ran.beside.live prog live
  subst hp hn ht
  unfold ranLanes
  generalize Machine.launchLanes u i k = r at ran prog ⊢
  refine ⟨fun finished => ?_, fun runaway => ?_, fun fault => ?_⟩
  · rw [finished]
    exact ran.opDone
  · rw [runaway]
    exact (ran.modPier (f := fun P => { P with lane := some ((generalOf i.word).index, i.index) }) ran.id).opDone
  · obtain undefined | ⟨a, outside⟩ := fault
    · rw [undefined]
      exact (pierFault_faults prog live ..).opDone
    · rw [outside]
      exact (pierFault_faults prog live ..).opDone

/-- Settles O4: the program runs on the state in which its arguments have been read, and its end decides what follows. -/
theorem vecRunsLaneProgram : Obligations.VecRunsLaneProgram := by
  unfold Obligations.VecRunsLaneProgram
  refine ⟨?launch, launchLanes_executed, runLanes_executed, fun s p n e i active lane => execLaneProgramRunaway_runs active lane⟩
  intro s p n im w i stands op hi entry within
  have same : issueAt s p n im w = i := hi.symm
  obtain ⟨v, runs, fetched, hF, quiet⟩ := stands.fetched
  obtain ⟨ready, -, -, ok, -, -, bad, weak, -⟩ := stands
  have free : v.free = s.free := by rw [hF.2]
  have runs := execVec_runs free runs op ok (by rw [fetched.pier]; simpa using entry) (by rwa [same])
  rw [fetched.pier, scoreFree_filled, same] at runs
  refine ⟨v, hF, fun waits => by rw [runs, waits]; rfl, fun starts => ?_⟩
  have starts := starts.elim id fun h => scoreFree_empty h (vecArgs i :: (launchLanes v i s.free).1.reads) (launchLanes v i s.free).1.writes
  obtain ⟨pier, context, index, word⟩ : i.pier = p ∧ i.n = n ∧ i.index = (pierAt s p).index ∧ i.word = w := by
    rw [hi]
    exact ⟨rfl, rfl, rfl, rfl⟩
  have issued := fetched.freeUsed.issued pier context
  have args := issued.argued (by simpa using weak) pier context
  obtain ⟨x, prog, live⟩ := issuing_live (pierReady_issuing ready)
  have ends := args.endLaunch (by simpa using bad) (by simpa using weak) pier context s.free prog live rfl
  rw [starts, Issue.run_launches (s := freeUsed v 1) (by rwa [context]) (by rw [pier]; exact issued.badWord (by simpa using bad) _)] at runs
  rw [context] at runs
  rw [index] at args ends
  rw [word] at ends
  exact ⟨_, _, runs, args.beside, args.pier, ends⟩

end Sys2Proof.Machine

/-! SUPPORT. The Abutment: its checks in order, and a command that passes them, where HBM holds no error (05 R139, R144 to R149). -/

namespace Sys2Proof.Machine

/-! ### The row of a command -/

theorem onUnit_held {s : State} (held : approachHeld s = true) (q seq op : Nat) (f : State → Taken → State) : onUnit s q seq op f = s :=
  if_pos held

theorem onUnit_ready {s : State} {q seq op : Nat} {c : Taken} (up : approachHeld s = false) (hr : ready s q seq op = some c)
    (f : State → Taken → State) : onUnit s q seq op f = f (start s q seq) c := by
  rw [onUnit, up, if_neg Bool.false_ne_true, onCmd_ready hr]

/-- Each of the four rows runs the command of its kind. -/
theorem exec_abut {k : AbutKind} {q seq op : Nat} {i : Instr}
    (row : k = .fwd ∧ op = 0x0780 ∧ i = .abutConvFwd q seq ∨ k = .bwdData ∧ op = 0x0781 ∧ i = .abutConvBwdData q seq
      ∨ k = .bwdWeight ∧ op = 0x0782 ∧ i = .abutConvBwdWeight q seq ∨ k = .pool ∧ op = 0x0783 ∧ i = .abutPool q seq) (s : State) :
    exec i s = .next (onUnit s q seq op (abutCommand k)) := by
  obtain ⟨rfl, rfl, rfl⟩ | ⟨rfl, rfl, rfl⟩ | ⟨rfl, rfl, rfl⟩ | ⟨rfl, rfl, rfl⟩ := row
  all_goals rfl

/-! ### The checks (R146) -/

/-- The byte ranges that a command would read and write. -/
def Abut.ranges (d : Abut) (k : AbutKind) : List (Nat × Nat) :=
  ((d.runs k).1.map fun x => (d.in_ + x.1, x.2)) ++ ((d.runs k).2.1.map fun x => (d.w + x.1, x.2))
    ++ [(d.out, (d.sizes k).2.2.1)] ++ ((d.runs k).2.2.map fun x => (d.aux + x.1, x.2))

theorem abutCommand_badParam {k : AbutKind} {t : Taken} (bad : abutOk k t.payload = false) (s : State) :
    abutCommand k s t = refuse s t.q t.seq stBadParam := by
  rw [abutCommand, bad]
  rfl

section
variable {k : AbutKind} {t : Taken} {d : Abut} (s : State) (hd : d = abutOf t.payload) (ok : abutOk k t.payload = true)
include hd ok

theorem abutCommand_badPad (bad : mirrorOk d.pad d.inH d.inW d.padLoY d.padHiY d.padLoX d.padHiX = false) :
    abutCommand k s t = refuse s t.q t.seq stBadPad := by
  subst hd
  simp only [abutCommand, ok, bad]
  rfl

variable (mirror : mirrorOk d.pad d.inH d.inW d.padLoY d.padHiY d.padLoX d.padHiX = true)
include mirror

theorem abutCommand_emptyOutput (empty : d.outH ≤ 0 ∨ d.outW ≤ 0) : abutCommand k s t = finish s t.q t.seq stEmptyOutput [] := by
  subst hd
  simp only [abutCommand, ok, mirror, empty]
  rfl

variable (extent : ¬(d.outH ≤ 0 ∨ d.outW ≤ 0))
include extent

theorem abutCommand_notPermitted (denied : ((d.ranges k).all fun r => granted s t.context r.1 r.2) = false) :
    abutCommand k s t = refuse s t.q t.seq stNotPermitted := by
  subst hd
  unfold Abut.ranges at denied
  simp only [abutCommand, ok, mirror, extent, denied]
  rfl

theorem abutCommand_runs (permitted : ((d.ranges k).all fun r => granted s t.context r.1 r.2) = true) (turn : abutTurn s t = true) :
    abutCommand k s t = abutRun s t k d := by
  subst hd
  unfold Abut.ranges at permitted
  simp only [abutCommand, ok, mirror, extent, permitted, turn]
  rfl

end

/-! ### A command that runs, where HBM holds no error -/

/-- The bytes of a tensor that starts at address a, from its runs: what lies between runs counts as 0 and is not read (R139). -/
def tensorBytes (m : Memory) (a : Nat) (l : List (Nat × Nat)) (bs : List Byte) : List Byte :=
  l.foldl (fun bs x => padTo bs x.1 ++ m.read (a + x.1) x.2) bs

/-- Runs read without an error: the counters change and nothing else. -/
theorem readTensor_clean (n a : Nat) (l : List (Nat × Nat)) {s : State} (eu : s.hbm.uncorrectable = []) (ec : s.hbm.correctable = [])
    (bs : List Byte) : ∃ cs, readTensor n a l s bs = ({ s with counters := cs }, some (tensorBytes s.hbm.mem a l bs)) := by
  induction l generalizing s bs with
  | nil => exact ⟨s.counters, rfl⟩
  | cons x l ih =>
    obtain ⟨cs, rest⟩ := ih (s := count s 5 ((stackOf (a + x.1)).getD 0) 0 x.2) eu ec (padTo bs x.1 ++ s.hbm.mem.read (a + x.1) x.2)
    refine ⟨cs, ?_⟩
    rw [readTensor, readHbm_clean eu ec]
    exact rest

/-- What a command computes on a memory. -/
def Abut.output (d : Abut) (k : AbutKind) (m : Memory) : List Byte :=
  abutResult k d (tensorBytes m d.in_ (d.runs k).1 []) (tensorBytes m d.w (d.runs k).2.1 []) (tensorBytes m d.aux (d.runs k).2.2 [])

/-- A command that runs completes on a state in which its output stands in HBM and, but for the counters, nothing else has changed. -/
theorem abutRun_clean {s : State} (eu : s.hbm.uncorrectable = []) (ec : s.hbm.correctable = []) (er : s.caisson.run = none) (t : Taken)
    (k : AbutKind) (d : Abut) : ∃ cs, abutRun s t k d =
      finish { s with hbm := { s.hbm with mem := s.hbm.mem.write d.out (d.output k s.hbm.mem) }, counters := cs } t.q t.seq stOk [] := by
  obtain ⟨c₁, input⟩ := readTensor_clean t.context d.in_ (d.runs k).1 eu ec []
  obtain ⟨c₂, weights⟩ := readTensor_clean t.context d.w (d.runs k).2.1 (s := { s with counters := c₁ }) eu ec []
  obtain ⟨c₃, bias⟩ := readTensor_clean t.context d.aux (d.runs k).2.2 (s := { s with counters := c₂ }) eu ec []
  have written := writeHbm_clean (s := { s with counters := c₃ }) eu ec er (abutReader t.context) d.out (d.output k s.hbm.mem)
  unfold Abut.output at written ⊢
  simp only [abutRun, input, weights, bias, written]
  exact ⟨_, rfl⟩

/-- Settles O32: the checks fail in the order of `abutCommand`; past them the command runs on the state in which it has started. -/
theorem abutmentWritesItsOutput : Obligations.AbutmentWritesItsOutput := by
  unfold Obligations.AbutmentWritesItsOutput
  intro s q seq op c k i d rs f row
  rw [exec_abut row]
  refine ⟨fun held => by rw [onUnit_held held], fun up hr hd hrs hf => ?_⟩
  obtain ⟨rfl, rfl, -⟩ := ready_key hr
  rw [onUnit_ready up hr]
  have ranges : rs = d.ranges k := hrs
  subst ranges hf
  refine ⟨fun bad => congrArg _ (abutCommand_badParam bad _), fun ok bad => congrArg _ (abutCommand_badPad _ hd ok bad), fun ok mirror =>
    ⟨fun empty => congrArg _ (abutCommand_emptyOutput _ hd ok mirror empty), fun hH hW => ?_⟩⟩
  have extent : ¬(d.outH ≤ 0 ∨ d.outW ≤ 0) := not_or.2 ⟨hH.not_ge, hW.not_ge⟩
  refine ⟨fun denied => congrArg _ (abutCommand_notPermitted (start s c.q c.seq) hd ok mirror extent denied),
    fun permitted turn wf eu ec er => ?_⟩
  obtain ⟨cs, run⟩ := abutRun_clean (s := start s c.q c.seq) eu ec er c k d
  exact ⟨_, d.output k s.hbm.mem, congrArg _ ((abutCommand_runs (start s c.q c.seq) hd ok mirror extent permitted turn).trans run), rfl,
    Memory.read_write wf .., fun b outside => Memory.get_write_other wf _ _ _ outside, rfl⟩

end Sys2Proof.Machine

/-! SUPPORT. Checkpoints read back. What reading a half leaves of the state, and what its reads answer where HBM holds no error
(10 R254, R255, 11 R284, R441). -/

namespace Sys2Proof.Machine

/-! ### What reads at the stacks leave (R254, R255) -/

/-- Blocks and paths have been read: corrected, logged and counted; the bytes stand, and what is uncorrectable stays so. -/
def Senses (s t : State) : Prop :=
  t = { s with
    hbm := { s.hbm with correctable := t.hbm.correctable, footings := t.hbm.footings }, toll := t.toll, counters := t.counters }

theorem Senses.trans {s t u : State} (h : Senses s t) (g : Senses t u) : Senses s u := by
  unfold Senses at h g ⊢
  rw [g, h]

theorem Senses.foldl {α : Type} {f : State → α → State} (hf : ∀ s x, Senses s (f s x)) (l : List α) (s : State) :
    Senses s (l.foldl f s) := by
  induction l generalizing s with
  | nil => rfl
  | cons x l ih => exact (hf s x).trans (ih _)

theorem Senses.ctxs {s t : State} (h : Senses s t) : t.ctxs = s.ctxs := by rw [h]
theorem Senses.caisson {s t : State} (h : Senses s t) : t.caisson = s.caisson := by rw [h]

theorem Senses.granted {s t : State} (h : Senses s t) (n a len : Nat) : granted t n a len = Machine.granted s n a len := by
  rw [h]
  rfl

/-- Which half p0 selects rests on the commit records' bytes and on the uncorrectable blocks. -/
theorem Senses.selectHalf {s t : State} (h : Senses s t) (p0 : Nat) : selectHalf t p0 = Machine.selectHalf s p0 := by
  rw [h]
  rfl

theorem logError_senses (s : State) (a b c d e f : Nat) (l : List Nat) : Senses s (logError s a b c d e f l) := by
  rw [logError_toll]
  rfl

theorem logUncorrectable_senses (r : Reader) (access : Nat) (s : State) (b : Nat) : Senses s (logUncorrectable r access s b) :=
  Senses.trans (t := count s ..) rfl (logError_senses ..)

theorem correctBlock_senses (s : State) (b : Nat) : Senses s (correctBlock s b) := by
  have corrected (f : Stack → Stack) (c i x k p q r u v w : Nat) (l : List Nat) :
      Senses s (logError (count (modStack s (blockStack b) f) c i x k) p q r u v w l) :=
    Senses.trans (t := count (modStack ..) ..) rfl (logError_senses ..)
  unfold correctBlock
  dsimp only
  split
  · exact (corrected ..).trans (logError_senses ..)
  · exact corrected ..

theorem footPath_senses (s : State) (k a n : Nat) : Senses s (footPath s k a n).1 := by
  unfold footPath
  dsimp only
  split
  · exact Senses.trans (t := modStack ..) rfl (logError_senses ..)
  · split
    · exact Senses.trans (t := modStack ..) rfl (logError_senses ..)
    · rfl

theorem senseHbm_senses (s : State) (r : Reader) (a n : Nat) : Senses s (senseHbm s r a n).1 := by
  unfold senseHbm
  dsimp only
  split
  · exact Senses.trans (t := { s with hbm := _ }) rfl (Senses.foldl correctBlock_senses ..)
  · exact Senses.foldl (logUncorrectable_senses r 0) ..

theorem readCommits_senses (s : State) (n : Nat) : Senses s (readCommits s n) := Senses.foldl (fun _ _ => senseHbm_senses ..) ..

theorem readManifest_senses (n half : Nat) (ks : List Nat) (s : State) : Senses s (readManifest n half ks s).1 := by
  induction ks generalizing s with
  | nil => rfl
  | cons k ks ih =>
    have sense := senseHbm_senses s (caissonReader n k) (halfBase half k + manifestAt) (field (commitAt s half 0) 4 4)
    unfold readManifest
    dsimp only
    split
    · rename_i read
      rw [read] at sense
      split
      · exact sense
      · exact sense.trans (ih _)
    · rename_i read
      rw [read] at sense
      exact sense.trans (ih _)

theorem badRecords_senses (n half step : Nat) (hs : List Shard) (s : State) : Senses s (badRecords n half step hs s).1 := by
  induction hs generalizing s with
  | nil => rfl
  | cons h hs ih => exact (senseHbm_senses ..).trans (ih _)

theorem checkShards_senses (n half : Nat) (hs : List Shard) (s : State) : Senses s (checkShards n half hs s).1 := by
  induction hs generalizing s with
  | nil => rfl
  | cons h hs ih =>
    have read := (footPath_senses s h.stack (shardData half h) n).trans
      (senseHbm_senses _ (caissonReader n h.stack) (shardData half h) (h.mib * mib))
    unfold checkShards
    dsimp only
    split <;> exact read.trans (ih _)

/-! ### What the reads answer, where HBM holds no error -/

section
variable {s : State} (eu : s.hbm.uncorrectable = []) (ec : s.hbm.correctable = [])
include eu ec

theorem readCommits_clean (n : Nat) : readCommits s n = s := by
  simp only [readCommits, List.foldl_cons, List.foldl_nil, senseHbm_clean eu ec]

/-- The first copy of the manifest is taken when it matches the commit record's digest, else the next is tried (R284). -/
theorem readManifest_cons_clean (n half k : Nat) (ks : List Nat) {b : List Byte}
    (hb : b = s.hbm.mem.read (halfBase half k + manifestAt) (field (commitAt s half 0) 4 4)) : readManifest n half (k :: ks) s =
      if manifestMatches b (slice (commitAt s half 0) 32 32) = true then (s, some b) else readManifest n half ks s := by
  subst hb
  simp only [readManifest, senseHbm_clean eu ec]

theorem badRecords_clean (n half step : Nat) (hs : List Shard) : badRecords n half step hs s =
    (s, hs.filter fun h => !recordOk step h (s.hbm.mem.read (halfBase half h.stack + recordAt h.index) 64)) := by
  induction hs with
  | nil => rfl
  | cons h hs ih =>
    simp only [badRecords, senseHbm_clean eu ec, ih, Option.any_some, List.filter_cons]
    cases recordOk step h (s.hbm.mem.read (halfBase half h.stack + recordAt h.index) 64) <;> rfl

/-- Over sound paths the shards found corrupt are those whose data has another digest than the table's (R284). -/
theorem checkShards_clean (n half : Nat) {hs : List Shard}
    (paths : ∀ h ∈ hs, (stackAt s h.stack).pathBad = false ∧ (stackAt s h.stack).pathWeak = false) : checkShards n half hs s =
      (s, hs.filter (fun h => sha256 (s.hbm.mem.read (shardData half h) (h.mib * mib)) != h.digest), []) := by
  induction hs with
  | nil => rfl
  | cons h hs ih =>
    obtain ⟨⟨bad, weak⟩, rest⟩ := List.forall_mem_cons.1 paths
    simp only [checkShards, footPath_clean bad weak, senseHbm_clean eu ec, ih rest, List.filter_cons, bne]
    cases sha256 (s.hbm.mem.read (shardData half h) (h.mib * mib)) == h.digest <;> rfl

end

end Sys2Proof.Machine

/-! SUPPORT. CKPT_RESTORE: the shards return to their sources, and the context takes the manifest's state (06 R171, 11 R284, R285). -/

namespace Sys2Proof.Machine

/-! ### The shards' copies touch no context (R284) -/

/-- Without a checkpoint in progress a store inside a stack copies no granule first, and faults nobody. -/
theorem storeInside_ctxs_caisson {s : State} (idle : s.caisson.run = none) (r : Reader) (a n : Nat) (put : Hbm → Hbm) :
    (storeInside s r a n put).1.ctxs = s.ctxs ∧ (storeInside s r a n put).1.caisson = s.caisson := by
  have merged : Senses s ((s.hbm.badPartial a n).foldl (logUncorrectable r 2) ((s.hbm.weakPartial a n).foldl correctBlock s)) :=
    (Senses.foldl correctBlock_senses ..).trans (Senses.foldl (logUncorrectable_senses r 2) ..)
  rw [storeInside, copyFirst_none idle]
  exact ⟨merged.ctxs, merged.caisson⟩

theorem restoreShards_ctxs (n half : Nat) (hs : List Shard) {s : State} (idle : s.caisson.run = none) :
    (restoreShards s n half hs).ctxs = s.ctxs := by
  induction hs generalizing s with
  | nil => rfl
  | cons h hs ih =>
    have foot := footPath_senses s h.stack (shardData half h) n
    have stored := storeInside_ctxs_caisson (foot.caisson ▸ idle) (caissonReader n h.stack) h.src (h.mib * mib)
      fun m => m.copy (shardData half h) h.src (h.mib * mib)
    refine (ih (s := count (storeInside ..).1 ..) ?_).trans (stored.1.trans foot.ctxs)
    rw [count_caisson, stored.2, foot.caisson, idle]

/-! ### A restore whose checks pass (R284, R285) -/

/-- The state after a restore from manifest b: the shards are copied, the context is set, and what was due or held is dropped. -/
def restored (s : State) (n half : Nat) (b : List Byte) : State :=
  let t := modCtx (restoreShards s n half (shardsOf b)) n (restoreState b)
  { t with caisson := { t.caisson with held := false, timerDue := false, takes := t.caisson.takes.filter fun x => !x.due } }

theorem restored_hbm (s : State) (n half : Nat) (b : List Byte) :
    (restored s n half b).hbm = (restoreShards s n half (shardsOf b)).hbm := rfl

theorem ctxAt_restored {s : State} (idle : s.caisson.run = none) (n half : Nat) (b : List Byte) :
    ctxAt (restored s n half b) n = (ctxAt s n).map (restoreState b) := by
  refine (ctxAt_modCtx _ n n _).trans ((if_pos rfl).trans ?_)
  rw [ctxAt, restoreShards_ctxs n half _ idle, ctxAt]

/-- Checks 5 to 10 pass, in turn: the restore completes. -/
theorem restoreFrom_passes {s w : State} {t : Taken} {half : Nat} {b : List Byte} {im : Image} (image : slice b 0x40 32 = im.zecDigest)
    (sources : ∀ h ∈ shardsOf b, granted s t.context h.src (h.mib * mib) = true)
    (step : t.param 1 = 0xFFFFFFFF ∨ t.param 1 = field b 0x20 4)
    (records : (badRecords t.context half (field b 0x20 4) (shardsOf b) s).2 = [])
    (shards : checkShards t.context half (shardsOf b) (badRecords t.context half (field b 0x20 4) (shardsOf b) s).1 = (w, [], [])) :
    restoreFrom s t half b im =
      finish (restored w t.context half b) t.q t.seq stOk [0, 0, 0, flag (slice b 0x60 32 != im.redDigest) 0] := by
  have sameImage : (slice b 0x40 32 != im.zecDigest) = false := by simp [image]
  have allGranted : (!(shardsOf b).all fun h => granted s t.context h.src (h.mib * mib)) = false := by simpa using sources
  have sameStep : (t.param 1 != 0xFFFFFFFF && t.param 1 != field b 0x20 4) = false := by
    rcases step with h | h <;> simp [h]
  generalize hr : badRecords t.context half (field b 0x20 4) (shardsOf b) s = r at records shards
  obtain ⟨v, bad⟩ := r
  obtain rfl : bad = [] := records
  simp only [restoreFrom, sameImage, allGranted, sameStep, hr, shards, Bool.false_eq_true, if_false]
  rfl

section
variable {s v w : State} {q seq : Nat} {c : Taken} {x : Context} {im : Image} {half : Nat} {b : List Byte}
  (hr : ready s q seq 0x0604 = some c) (hx : ctxAt s c.context = some x) (hi : x.image = some im)
  (faulted : x.program.all (·.st == .faulted) = true) (idle : s.caisson.run = none) (selected : selectHalf s (c.param 0) = some half)
  (manifest : readManifest c.context half commitStacks (readCommits (start s q seq) c.context) = (v, some b))
include hr hx hi faulted idle selected manifest

/-- Checks 2 to 4 pass: the manifest that is found decides the rest. -/
theorem exec_ckptRestore_from : exec (.ckptRestore q seq) s = .next (restoreFrom v c half b im) := by
  have stopped : (x.program.any fun p => p.st != .faulted) = false := by
    cases hp : x.program with
    | none => rfl
    | some p => simpa [hp] using faulted
  have waits : (start s q seq).caisson.run.isSome = false := congrArg Option.isSome idle
  have chosen : selectHalf (readCommits (start s q seq) c.context) (c.param 0) = some half :=
    ((readCommits_senses ..).selectHalf _).trans selected
  refine onCmd_runs hr ?_
  simp only [ctxAt_start, hx, hi, stopped, waits, chosen, manifest, Bool.false_eq_true, if_false]

/-- All ten checks pass. -/
theorem exec_ckptRestore_restores (image : slice b 0x40 32 = im.zecDigest)
    (sources : ∀ h ∈ shardsOf b, granted s c.context h.src (h.mib * mib) = true)
    (step : c.param 1 = 0xFFFFFFFF ∨ c.param 1 = field b 0x20 4)
    (records : (badRecords c.context half (field b 0x20 4) (shardsOf b) v).2 = [])
    (shards : checkShards c.context half (shardsOf b) (badRecords c.context half (field b 0x20 4) (shardsOf b) v).1 = (w, [], [])) :
    exec (.ckptRestore q seq) s =
        .next (finish (restored w c.context half b) q seq stOk [0, 0, 0, flag (slice b 0x60 32 != im.redDigest) 0])
      ∧ ctxAt (restored w c.context half b) c.context = some (restoreState b x) := by
  have found : Senses (start s q seq) v := (readCommits_senses _ c.context).trans (by
    simpa only [manifest] using readManifest_senses c.context half commitStacks (readCommits (start s q seq) c.context))
  have read : Senses (start s q seq) w := found.trans ((badRecords_senses ..).trans (by
    simpa only [shards] using checkShards_senses c.context half (shardsOf b)
      (badRecords c.context half (field b 0x20 4) (shardsOf b) v).1))
  obtain ⟨hq, hseq, -⟩ := ready_key hr
  constructor
  · rw [exec_ckptRestore_from hr hx hi faulted idle selected manifest, restoreFrom_passes image
      (fun h mem => (found.granted ..).trans (sources h mem)) step records shards, hq, hseq]
  · have idle' : w.caisson.run = none := read.caisson ▸ idle
    have same : ctxAt w c.context = ctxAt s c.context := by
      rw [ctxAt, read.ctxs]
      rfl
    rw [ctxAt_restored idle', same, hx]
    rfl

end

end Sys2Proof.Machine

/-! SUPPORT. CKPT_EXPORT and CKPT_IMPORT of a generation's stream, and the row of restore and travel (11 R287, R288). -/

namespace Sys2Proof.Machine

/-! ### Starting a command changes no byte of HBM -/

@[simp] theorem start_hbm (s : State) (q seq : Nat) : (start s q seq).hbm = s.hbm := rfl
@[simp] theorem commitAt_start (s : State) (q seq half k : Nat) : commitAt (start s q seq) half k = commitAt s half k := rfl
@[simp] theorem halfCode_start (s : State) (q seq half : Nat) : halfCode (start s q seq) half = halfCode s half := rfl

/-! ### Export (R287) -/

/-- One piece is read after those before it. -/
def readPiece (n : Nat) (acc : State × Option (List Byte)) (p : Nat × Nat × Nat) : State × Option (List Byte) :=
  let r := readHbm acc.1 (caissonReader n p.1) p.2.1 p.2.2
  (r.1, acc.2.bind fun l => r.2.map fun b => l ++ b)

theorem readPieces_eq (n : Nat) (ps : List (Nat × Nat × Nat)) (s : State) : readPieces n ps s = ps.foldl (readPiece n) (s, some []) := rfl

section
variable {s : State} (eu : s.hbm.uncorrectable = []) (ec : s.hbm.correctable = [])
include eu ec

theorem readPiece_clean (n : Nat) (l : List Byte) (p : Nat × Nat × Nat) : ∃ cs, readPiece n (s, some l) p =
    ({ s with counters := cs }, some (l ++ s.hbm.mem.read p.2.1 p.2.2)) := by
  rw [readPiece, readHbm_clean eu ec]
  exact ⟨_, rfl⟩

/-- Where HBM holds no error all pieces are read, one after another, and only counters change. -/
theorem readPieces_clean (n : Nat) (ps : List (Nat × Nat × Nat)) : ∃ cs, readPieces n ps s =
    ({ s with counters := cs }, some (ps.flatMap fun p => s.hbm.mem.read p.2.1 p.2.2)) := by
  have after (l : List Byte) : ∃ cs, ps.foldl (readPiece n) (s, some l) =
      ({ s with counters := cs }, some (l ++ ps.flatMap fun p => s.hbm.mem.read p.2.1 p.2.2)) := by
    induction ps generalizing s l with
    | nil => exact ⟨s.counters, by simp⟩
    | cons p ps ih =>
      obtain ⟨cs, piece⟩ := readPiece_clean eu ec n l p
      obtain ⟨cs', rest⟩ := ih (s := { s with counters := cs }) eu ec (l ++ s.hbm.mem.read p.2.1 p.2.2)
      exact ⟨cs', by rw [List.foldl_cons, piece, rest, List.flatMap_cons, List.append_assoc]⟩
  rw [readPieces_eq]
  exact after []

/-- The stream of a committed generation that fits the host's buffer is posted whole. -/
theorem exec_ckptExport_posts {q seq : Nat} {c : Taken} {ps : List (Nat × Nat × Nat)} (hr : ready s q seq 0x0605 = some c)
    (hp : c.param 0 < 2) (holds : halfCode s (c.param 0) = 1)
    (hps : ps = streamPieces (c.param 0) (field (commitAt s (c.param 0) 0) 4 4) (shardsOf
      (s.hbm.mem.read (halfBase (c.param 0) 0 + manifestAt) (field (commitAt s (c.param 0) 0) 4 4))))
    (fits : (ps.map (·.2.2)).sum ≤ c.param 3 * 4096) : ∃ cs, exec (.ckptExport q seq) s = .next (finish
      (postHost { start s q seq with counters := cs } (c.param64 1) (ps.flatMap fun p => s.hbm.mem.read p.2.1 p.2.2)) q seq stOk []) := by
  obtain ⟨cs, pieces⟩ := readPieces_clean (s := start s q seq) eu ec c.context ps
  have half : (decide (1 < c.param 0) || halfCode s (c.param 0) != 1) = false := by
    simpa [holds] using Nat.le_of_lt_succ hp
  have manifest := senseHbm_clean (s := start s q seq) eu ec (caissonReader c.context 0)
  refine ⟨cs, onCmd_runs hr ?_⟩
  simp only [readCommits_clean (s := start s q seq) eu ec, commitAt_start, halfCode_start, half, Bool.false_eq_true, if_false, manifest,
    start_hbm, ← hps, not_lt.2 fits, pieces]

end

/-! ### Import (R288) -/

/-- A stream in order whose shards all agree is committed as imported. -/
theorem exec_ckptImport_commits {s v w : State} {q seq : Nat} {c : Taken} {b m : List Byte} (hr : ready s q seq 0x0606 = some c)
    (idle : s.caisson.run = none) (form : streamOk b (c.param 3 * 4096) = true) (hm : m = slice b 64 (field b 4 4))
    (digest : manifestMatches m (slice b 32 32) = true) (hw : w = readCommits (start s q seq) c.context)
    (written : importShards (targetHalf w) b (64 + m.length) (shardsOf m)
      (commitStacks.foldl (fun u k => writeHalf u (targetHalf w) k manifestAt m) (clearHalf w (targetHalf w))) = (v, false)) :
    exec (.ckptImport q seq (some b)) s = .next (finish
      (commitStacks.foldl (fun u k => writeHalf u (targetHalf w) k 0
        (commitRecord m.length (nextLocalSeq v) (field m 0x20 4) true (slice b 32 32))) v) q seq stOk []) := by
  have waits : (start s q seq).caisson.run.isSome = false := congrArg Option.isSome idle
  subst hm hw
  refine onCmd_runs hr ?_
  simp only [waits, form, digest, written, Bool.not_true, Bool.false_eq_true, if_false]

/-- Settles O29: all reads of a half leave contexts and commit records as they are, so the checks of a restore are those of the state in
which the command came; without errors the reads answer HBM's bytes. -/
theorem checkpointsRestoreAndTravel : Obligations.CheckpointsRestoreAndTravel := by
  unfold Obligations.CheckpointsRestoreAndTravel
  intro s q seq c
  refine ⟨?restores, ?reads, ?posts, ?commits⟩
  case restores =>
    intro x im half b v w hr hx hi faulted idle selected manifest image sources step records shards
    obtain ⟨run, context⟩ := exec_ckptRestore_restores hr hx hi faulted idle selected manifest image sources step records shards
    refine ⟨_, run, ?_, restored_hbm ..⟩
    rw [context]
    rfl
  case reads =>
    intro n half hs b eu ec
    exact ⟨readCommits_clean eu ec n, fun k ks hb => readManifest_cons_clean eu ec n half k ks hb,
      fun step => badRecords_clean eu ec n half step hs, checkShards_clean eu ec n half⟩
  case posts =>
    intro ps hr hp holds eu ec hps fits
    obtain ⟨cs, posted⟩ := exec_ckptExport_posts eu ec hr hp holds hps fits
    exact ⟨_, posted, rfl⟩
  case commits =>
    intro b m v w hr idle form hm digest hw written
    exact exec_ckptImport_commits hr idle form hm digest hw written

end Sys2Proof.Machine

/-! SUPPORT. Descriptors and segment table entries as bytes (07 R184, R185). -/

namespace Sys2Proof.Machine

/-! ### Fields of bytes written field by field -/

theorem field_later {m o : Nat} (h : m ≤ o) (v n : Nat) (r : List Byte) : field (leBytes m v ++ r) o n = field r (o - m) n := by
  rw [← field_skip m v (o - m) n r, Nat.add_sub_cancel' h]

theorem zeroField_later {m o : Nat} (h : m ≤ o) (v n : Nat) (r : List Byte) :
    zeroField (leBytes m v ++ r) o n = zeroField r (o - m) n := by
  unfold zeroField slice
  rw [List.drop_append, leBytes_length, List.drop_of_length_le (by rwa [leBytes_length]), List.nil_append]

theorem leBytes_leNat (l : List Byte) : leBytes l.length (leNat l) = l := by
  induction l with
  | nil => rfl
  | cons b l ih =>
    have low : BitVec.ofNat 8 (b.toNat + 256 * leNat l) = b := by
      apply BitVec.eq_of_toNat_eq
      rw [BitVec.toNat_ofNat, Nat.add_mul_mod_self_left, Nat.mod_eq_of_lt b.isLt]
    have high : (b.toNat + 256 * leNat l) / 256 = leNat l := by
      have := b.isLt
      omega
    simp only [List.length_cons, leNat, leBytes, low, high, ih]

theorem leBytes_field {b : List Byte} {o n : Nat} (h : o + n ≤ b.length) : leBytes n (field b o n) = slice b o n := by
  have len : (slice b o n).length = n := by
    simp only [slice, List.length_take, List.length_drop]
    omega
  calc leBytes n (field b o n) = leBytes (slice b o n).length (leNat (slice b o n)) := by rw [len, field]
    _ = slice b o n := leBytes_leNat _

/-! ### The descriptor (R184) -/

/-- The flag byte of a descriptor. -/
theorem bit_descFlags (a b c : Bool) : bit (flag a 0 + flag b 1 + flag c 2) 0 = a ∧ bit (flag a 0 + flag b 1 + flag c 2) 1 = b
    ∧ bit (flag a 0 + flag b 1 + flag c 2) 2 = c ∧ flag a 0 + flag b 1 + flag c 2 < 8 := by
  cases a <;> cases b <;> cases c <;> decide

theorem encodeDesc_length (d : Desc) : (encodeDesc d).length = 64 := by
  simp only [encodeDesc, List.length_append, leBytes_length]

/-- Each field of a descriptor at its offset, to its width. -/
theorem encodeDesc_fields (d : Desc) :
    field (encodeDesc d) 0 4 = d.mbId % 2 ^ 32 ∧ field (encodeDesc d) 4 4 = d.step % 2 ^ 32
    ∧ field (encodeDesc d) 8 4 = d.feedTag % 2 ^ 32 ∧ field (encodeDesc d) 12 4 = d.tokens % 2 ^ 32
    ∧ field (encodeDesc d) 16 4 = d.payloadBytes % 2 ^ 32 ∧ field (encodeDesc d) 20 4 = d.version % 2 ^ 32
    ∧ field (encodeDesc d) 24 2 = d.segCount % 65536 ∧ field (encodeDesc d) 26 1 = (flag d.last 0 + flag d.bwd 1 + flag d.joined 2) % 256
    ∧ field (encodeDesc d) 27 1 = 0 ∧ field (encodeDesc d) 28 4 = d.origin % 2 ^ 32 := by
  simp only [encodeDesc, List.append_assoc]
  refine ⟨?_, ?_, ?_, ?_, ?_, ?_, ?_, ?_, ?_, ?_⟩ <;>
    simp only [field_later, field_front, Nat.reduceLeDiff, Nat.reduceSub, Nat.reducePow, Nat.zero_mod]

theorem encodeDesc_reserved (d : Desc) : zeroField (encodeDesc d) 32 32 = true := by
  simp only [encodeDesc, List.append_assoc, zeroField_later, Nat.reduceLeDiff, Nat.reduceSub]
  decide

/-! ### The origin that ADMIT fixes (R184) -/

theorem originWord_identified {s : State} {p : Nat} (id : s.pylon.pkgId = some p) {k : Nat} (hk : k < 16) :
    originWord s k = p + k * 4096 := by
  simp only [originWord, id, Nat.mod_eq_of_lt hk]

theorem originWord_unset {s : State} (id : s.pylon.pkgId = none) {k : Nat} (hk : k < 16) : originWord s k = k * 4096 + 65536 := by
  simp only [originWord, id, Nat.mod_eq_of_lt hk]

/-! ### The segment table entry (R185) -/

theorem encodeSeg_length (g : Seg) : (encodeSeg g).length = 8 := by
  simp only [encodeSeg, List.length_append, leBytes_length]

/-- Each field of a segment table entry at its offset, to its width. -/
theorem encodeSeg_fields (g : Seg) : field (encodeSeg g) 0 4 = g.length % 2 ^ 32 ∧ field (encodeSeg g) 4 2 = g.segId % 65536
    ∧ field (encodeSeg g) 6 1 = g.modality % 256 ∧ field (encodeSeg g) 7 1 = 0 := by
  have bytes : encodeSeg g = leBytes 4 g.length ++ (leBytes 2 g.segId ++ (leBytes 1 g.modality ++ (leBytes 1 0 ++ []))) := by
    simp only [encodeSeg, List.append_assoc, List.append_nil]
  rw [bytes]
  refine ⟨?_, ?_, ?_, ?_⟩ <;>
    simp only [field_later, field_front, Nat.reduceLeDiff, Nat.reduceSub, Nat.reducePow, Nat.zero_mod]

theorem slice_append_slice (b : List Byte) (o m n : Nat) : slice b o m ++ slice b (o + m) n = slice b o (m + n) := by
  simp only [slice, List.take_add, List.drop_drop]

/-- Eight bytes with the reserved one 0 are the entry that they spell. -/
theorem encodeSeg_decodeSeg {b : List Byte} (len : b.length = 8) (reserved : field b 7 1 = 0) : encodeSeg (decodeSeg b) = b := by
  calc encodeSeg (decodeSeg b)
      = leBytes 4 (field b 0 4) ++ leBytes 2 (field b 4 2) ++ leBytes 1 (field b 6 1) ++ leBytes 1 (field b 7 1) := by rw [reserved]; rfl
    _ = slice b 0 4 ++ slice b 4 2 ++ slice b 6 1 ++ slice b 7 1 := by
      rw [leBytes_field (by omega), leBytes_field (by omega), leBytes_field (by omega), leBytes_field (by omega)]
    _ = slice b 0 8 := by
      rw [slice_append_slice b 0 4 2, slice_append_slice b 0 6 1, slice_append_slice b 0 7 1]
    _ = b := List.take_of_length_le (by rw [List.drop_zero, len])

/-- Settles O56: each field of the bytes, from the widths of the fields before it. -/
theorem descriptorsReadBack : Obligations.DescriptorsReadBack := by
  unfold Obligations.DescriptorsReadBack
  refine ⟨fun d mbId step feedTag tokens payloadBytes version segCount origin => ?descriptor, fun s k hk => ⟨fun p id hp => ?identified,
    fun id => ?unset⟩, fun g length segId modality => ?entry, fun b len reserved => encodeSeg_decodeSeg len reserved⟩
  case descriptor =>
    obtain ⟨f0, f4, f8, f12, f16, f20, f24, f26, f27, f28⟩ := encodeDesc_fields d
    obtain ⟨last, bwd, joined, flags⟩ := bit_descFlags d.last d.bwd d.joined
    rw [Nat.mod_eq_of_lt (by omega)] at f0 f4 f8 f12 f16 f20 f24 f26 f28
    have reads : decodeDesc (encodeDesc d) = d := by
      simp only [decodeDesc, f0, f4, f8, f12, f16, f20, f24, f26, f28, last, bwd, joined]
    rw [f26]
    exact ⟨reads, encodeDesc_length d, f0, f4, f8, f12, f16, f20, f24, last, bwd, joined, flags, f27, f28, encodeDesc_reserved d⟩
  case identified =>
    simp only [originWord_identified id hk, bits_eq]
    omega
  case unset =>
    simp only [originWord_unset id hk, bits_eq]
    omega
  case entry =>
    obtain ⟨f0, f4, f6, f7⟩ := encodeSeg_fields g
    rw [Nat.mod_eq_of_lt (by omega)] at f0 f4 f6
    exact ⟨by simp only [decodeSeg, f0, f4, f6], encodeSeg_length g, f0, f4, f6, f7⟩

end Sys2Proof.Machine

/-! SUPPORT. The stages of a program after a change of one of them, and after the sweep of the version stores (07 R198, R201). -/

namespace Sys2Proof.Machine

/-- The slots that R198 lets go and R201 assigns follow the program's verdicts, launch and admission step, not its stages or what is in
flight. -/
theorem sweepStage_progress (im : Image) (p : Program) (stages : List StageRun) (inflight : Nat) :
    sweepStage im { p with stages, inflight } = sweepStage im p := rfl

theorem stageAt_of_prog {s : State} {n : Nat} {p : Program} (hp : progAt s n = some p) (k : Nat) : stageAt s n k = p.stages[k]? := by
  simp only [stageAt, hp, Option.bind_some]

theorem progAt_sweep {s : State} {n : Nat} {p : Program} (hp : progAt s n = some p) (im : Image) :
    progAt (sweep s n im) n = some { p with stages := p.stages.zipIdx.map fun x => sweepStage im p x.2 x.1 } := by
  simp only [sweep, progAt_modProg, if_true, hp, Option.map_some]

theorem stageAt_sweep {s : State} {n : Nat} {p : Program} (hp : progAt s n = some p) (im : Image) (k : Nat) :
    stageAt (sweep s n im) n k = (stageAt s n k).map (sweepStage im p k) := by
  rw [stageAt_of_prog (progAt_sweep hp im), stageAt_of_prog hp, List.getElem?_map, List.getElem?_zipIdx, Option.map_map, Nat.zero_add]
  rfl

theorem progAt_modStage {s : State} {n : Nat} {p : Program} (hp : progAt s n = some p) (k : Nat) (f : StageRun → StageRun) :
    progAt (modStage s n k f) n = some { p with stages := modAt p.stages k f } := by
  simp only [modStage, progAt_modProg, if_true, hp, Option.map_some]

/-- Stage k of a program has changed from r, and then every stage's store is swept. -/
theorem swept_stages {s t : State} {n k inflight : Nat} {p : Program} {r : StageRun} {f : StageRun → StageRun}
    (hp : progAt s n = some p) (hr : stageAt s n k = some r) (ht : progAt t n = some { p with stages := modAt p.stages k f, inflight })
    (im : Image) : stageAt (sweep t n im) n k = some (sweepStage im p k (f r))
      ∧ ∀ j, j ≠ k → stageAt (sweep t n im) n j = (stageAt s n j).map (sweepStage im p j) := by
  rw [stageAt_of_prog hp] at hr
  refine ⟨?_, fun j hj => ?_⟩
  · rw [stageAt_sweep ht, sweepStage_progress, stageAt_of_prog ht, getElem?_modAt, if_pos rfl, hr]
    rfl
  · rw [stageAt_sweep ht, sweepStage_progress, stageAt_of_prog ht, getElem?_modAt, if_neg (Ne.symm hj), stageAt_of_prog hp]

end Sys2Proof.Machine

/-! SUPPORT. ADMIT, PIN and RETIRE as rows of a stage (07 R193, R198 to R200). -/

namespace Sys2Proof.Machine

/-! ### ADMIT (R193) -/

/-- What ADMIT does to a state of the stage's piers: the descriptor's fields are fixed, and one more micro-batch is in flight. -/
def admitNext (m : Meet) (mb : Nat) (s : State) : State :=
  sweep (modCtx (modProg s m.n fun p =>
    { p with inflight := p.inflight + 1, admitted := some (mb, p.admitStep, originWord s m.stage) }) m.n
      fun c => { c with nextMb := add32 c.nextMb 1 }) m.n m.im

theorem ctxAt_admitNext {s : State} {m : Meet} {c : Context} {p : Program} (hc : ctxAt s m.n = some c) (hp : progAt s m.n = some p)
    (mb : Nat) : ∃ stages, ctxAt (admitNext m mb s) m.n = some { c with
      nextMb := add32 c.nextMb 1
      program := some { p with stages, inflight := p.inflight + 1, admitted := some (mb, p.admitStep, originWord s m.stage) } } := by
  have program : c.program = some p := by
    unfold progAt at hp
    rwa [hc] at hp
  simp only [admitNext, sweep, modProg, ctxAt_modCtx, if_true, hc, Option.map_some, program]
  exact ⟨_, rfl⟩

/-! ### PIN (R199) -/

/-- A stage whose store holds a version; one that does not exist holds none. -/
theorem any_holdsVersion (o : Option StageRun) (v : Nat) :
    (o.any fun r => holdsVersion r.store v) = holdsVersion ((o.map (·.store)).getD []) v := by
  cases o <;> rfl

/-- Settles O11: the three rows on the fetched state. -/
theorem admitPinAndRetire : Obligations.AdmitPinAndRetire := by
  unfold Obligations.AdmitPinAndRetire
  refine ⟨fun s k m p c hm own hp hc hop first room known => ?admits, fun s k m p c v hm own hp hop hcur hv => ?pin,
    fun s k m x xs hm own hop hpinned => ?retire⟩
  case admits =>
    obtain ⟨u, hF, run⟩ := atStage_meets hm
    obtain ⟨rfl, -⟩ := hm
    rw [← hF.progAt] at hp
    rw [← hF.ctxAt] at hc
    have origin : originWord u m.stage = originWord s m.stage := by
      rw [hF.2]
      rfl
    obtain ⟨stages, admitted⟩ := ctxAt_admitNext hc hp c.nextMb
    refine ⟨u, admitNext m c.nextMb, hF, atStage_runs run hop ?_, ?_, ?_, rfl⟩
    · have free : (decide (inflightLimit m.im ≤ p.inflight) || (carried m.im p p.admitStep).isNone) = false := by
        simp [not_le.2 room, Option.isNone_eq_false_iff.2 known]
      simp only [hp, hc, ownIndex, own, first, beq_self_eq_true, bne_self_eq_false, Bool.not_true, Bool.or_self, free, Bool.false_eq_true, if_false]
      rfl
    · simp only [progAt, admitted, origin, Option.bind_some, Option.map_some]
    · simp only [admitted, Option.map_some]
  case pin =>
    obtain ⟨u, hF, run⟩ := atStage_meets hm
    obtain ⟨rfl, -⟩ := hm
    rw [← hF.progAt] at hp
    rw [← hF.stageAt] at hcur
    refine ⟨u, _, hF, rfl, fun holds => atStage_runs run hop ?_, fun store lacks => atStage_runs run hop ?_⟩
    · simp only [hp, hcur, ownIndex, own, beq_self_eq_true, hv, Bool.not_true, Bool.false_eq_true, if_false, any_holdsVersion]
      cases store : hasStore m.im m.stage with
      | false => rfl
      | true => simp only [holds store, Bool.or_true, if_true, Option.getD_some]
    · simp only [hp, hcur, ownIndex, own, beq_self_eq_true, hv, any_holdsVersion, store, lacks, Bool.not_true, Bool.or_self, Bool.false_or,
        Bool.false_eq_true, if_false]
      split <;> rfl
  case retire =>
    obtain ⟨u, hF, run⟩ := atStage_meets hm
    obtain ⟨rfl, -⟩ := hm
    rw [← hF.stageAt] at hpinned
    refine ⟨u, hF, atStage_runs run hop ?_⟩
    simp only [hpinned, ownIndex, own, beq_self_eq_true, if_true, Option.getD_some]

end Sys2Proof.Machine

/-! SUPPORT. PIN and RETIRE: the stage's pinned list, its version store, and the descriptors in its piers (07 R184, R199, R200). -/

namespace Sys2Proof.Machine

/-! ### The same bytes into several scratchpads without errors (R81) -/

/-- From s to t only piers and contexts have changed, and the program of context n has not. -/
def PadsOnly (n : Nat) (s t : State) : Prop := progAt t n = progAt s n ∧ t = { s with piers := t.piers, ctxs := t.ctxs }

theorem PadsOnly.trans {n : Nat} {s t u : State} (h : PadsOnly n s t) (g : PadsOnly n t u) : PadsOnly n s u :=
  ⟨g.1.trans h.1, by rw [g.2, h.2]⟩

theorem PadsOnly.modPier (n : Nat) (s : State) (p : Nat) (f : Pier → Pier) : PadsOnly n s (modPier s p f) := ⟨rfl, rfl⟩

theorem PadsOnly.counters (n : Nat) (s : State) (g : Context → List (Nat × Nat)) :
    PadsOnly n s (modCtx s n fun c => { c with counters := g c }) := ⟨progAt_counters .., rfl⟩

theorem PadsOnly.countEvent (n : Nat) (s : State) (p e k : Nat) : PadsOnly n s (countEvent s n p e k) := by
  obtain ⟨g, h⟩ := countEvent_eq s n p e k
  rw [h]
  exact .counters n s g

theorem PadsOnly.correctWords {s : State} {p : Nat} (weak : (pierAt s p).weakWords = []) (n : Nat) (rs : List Range) :
    PadsOnly n s (correctWords s n p rs) := by
  simp only [Machine.correctWords, weak, List.filter_nil, List.length_nil, List.foldl_nil]
  obtain ⟨g, h⟩ := countCtx_eq (Machine.modPier s p _) n 0 p 15 0
  rw [h]
  exact (PadsOnly.modPier ..).trans (.counters ..)

theorem PadsOnly.writePad {s : State} {p : Nat} (weak : (pierAt s p).weakWords = []) (n a : Nat) (bs : List Byte) :
    PadsOnly n s (writePad s n p a bs) :=
  (PadsOnly.correctWords weak ..).trans ((PadsOnly.modPier ..).trans (.countEvent ..))

/-- Bytes written at one address into each of several piers. -/
theorem writePads_clean (n a : Nat) (bs : List Byte) (ps : List Nat) {s : State} (distinct : ps.Nodup)
    (clean : ∀ p ∈ ps, (pierAt s p).badWords = [] ∧ (pierAt s p).weakWords = []) :
    (∀ p ∈ ps, pierAt (ps.foldl (fun s p => writePad s n p a bs) s) p = { pierAt s p with mem := (pierAt s p).mem.write a bs })
      ∧ (∀ q, q ∉ ps → pierAt (ps.foldl (fun s p => writePad s n p a bs) s) q = pierAt s q)
      ∧ PadsOnly n s (ps.foldl (fun s p => writePad s n p a bs) s) := by
  induction ps generalizing s with
  | nil => exact ⟨fun _ h => absurd h List.not_mem_nil, fun _ _ => rfl, rfl, rfl⟩
  | cons p ps ih =>
    obtain ⟨fresh, distinct⟩ := List.nodup_cons.1 distinct
    obtain ⟨bad, weak⟩ := clean p List.mem_cons_self
    have one (q : Nat) := pierAt_writePad bad weak n a q bs
    have other (q : Nat) (hq : q ∈ ps) : pierAt (writePad s n p a bs) q = pierAt s q :=
      (one q).trans (if_neg fun e : p = q => fresh (e ▸ hq))
    obtain ⟨written, kept, pads⟩ := ih (s := writePad s n p a bs) distinct fun q hq => by
      rw [other q hq]
      exact clean q (List.mem_cons_of_mem p hq)
    refine ⟨fun q hq => ?_, fun q hq => ?_, (PadsOnly.writePad weak n a bs).trans pads⟩
    · rcases List.mem_cons.1 hq with rfl | hq
      · exact (kept _ fresh).trans ((one _).trans (if_pos rfl))
      · rw [List.foldl_cons, written q hq, other q hq]
    · obtain ⟨ne, hq⟩ := List.ne_and_not_mem_of_not_mem_cons hq
      exact (kept q hq).trans ((one q).trans (if_neg (Ne.symm ne)))

/-! ### PIN (R184, R199) -/

/-- The version goes into the descriptor of each pier of the stage. -/
theorem writePiers_version {m : Meet} {a v : Nat} (inside : ∀ x ∈ m.piers, outside m.im x.1 [{ start := a + 20, bytes := 4 }] = none)
    (s : State) : writePiers s m (versionField m a v) = (m.piers.map (·.1)).foldl (fun s p => writePad s m.n p (a + 20) (leBytes 4 v)) s := by
  have fits : strays m.im ((versionField m a v).map fun w => (w.1, w.2.1, { start := w.2.2.1, bytes := w.2.2.2.length })) = none := by
    simp only [strays, versionField, Option.map_eq_none_iff, List.find?_eq_none, List.map_map, List.forall_mem_map, Function.comp_apply,
      leBytes_length]
    intro x hx
    rw [inside x hx]
    decide
  unfold writePiers
  rw [fits]
  simp only [versionField, List.foldl_map]

/-- What PIN makes of its stage: `d` is the micro-batch's descriptor, with the version at the first stage. -/
def pinnedRun (m : Meet) (c : Micro) (d : Desc) (v : Nat) (r : StageRun) : StageRun :=
  { r with
    current := some { c with desc := d }
    store := if hasStore m.im m.stage then pinSlot r.store v else r.store
    pinned := r.pinned ++ [{ mbId := d.mbId, step := d.step, version := v }] }

theorem pinMicro_later {m : Meet} (later : firstStage m.im ≠ some m.stage) (s : State) (c : Micro) (v : Nat) :
    pinMicro s m c v = sweep (modStage s m.n m.stage (pinnedRun m c c.desc v)) m.n m.im := by
  simp only [pinMicro, later, if_false]
  rfl

theorem pinMicro_first {m : Meet} (first : firstStage m.im = some m.stage) (s : State) (c : Micro) (v : Nat) :
    pinMicro s m c v =
      sweep (writePiers (modStage s m.n m.stage (pinnedRun m c { c.desc with version := v } v)) m (versionField m c.addr v)) m.n m.im := by
  simp only [pinMicro, first, if_true]
  rfl

/-! ### RETIRE (R200) -/

/-- What RETIRE makes of its stage. -/
def retiredRun (m : Meet) (x : Pinned) (r : StageRun) : StageRun :=
  { r with pinned := r.pinned.tail, store := if hasStore m.im m.stage then unpinSlot r.store x.version else r.store }

/-- The state in which RETIRE sweeps the stores: at the first stage one micro-batch fewer is in flight. -/
def retiring (s : State) (m : Meet) (x : Pinned) : State :=
  if firstStage m.im = some m.stage then
    modProg (modStage s m.n m.stage (retiredRun m x)) m.n fun p => { p with inflight := p.inflight - 1 }
  else modStage s m.n m.stage (retiredRun m x)

theorem retireMicro_eq (s : State) (m : Meet) (x : Pinned) : retireMicro s m x = sweep (retiring s m x) m.n m.im := rfl

theorem progAt_retiring {s : State} {m : Meet} {p : Program} (hp : progAt s m.n = some p) (x : Pinned) :
    progAt (retiring s m x) m.n = some { p with
      stages := modAt p.stages m.stage (retiredRun m x)
      inflight := if firstStage m.im = some m.stage then p.inflight - 1 else p.inflight } := by
  unfold retiring
  split
  · rw [progAt_modProg, if_pos rfl, progAt_modStage hp]
    rfl
  · exact progAt_modStage hp ..

theorem retiring_ctxs (s : State) (m : Meet) (x : Pinned) : retiring s m x = { s with ctxs := (retiring s m x).ctxs } := by
  unfold retiring
  split <;> rfl

/-- Settles O12: PIN at a later stage, at the first stage, and RETIRE. -/
theorem pinAndRetireKeepOrder : Obligations.PinAndRetireKeepOrder := by
  unfold Obligations.PinAndRetireKeepOrder
  refine ⟨fun s m c v r p hr hp => ⟨fun later => ?later, fun first distinct clean => ?first⟩, fun s m x r p hr hp => ?retire⟩
  case later =>
    rw [pinMicro_later later]
    obtain ⟨own, others⟩ := swept_stages hp hr (progAt_modStage hp m.stage (pinnedRun m c c.desc v)) m.im
    exact ⟨own, others, rfl⟩
  case first =>
    have good : ∀ q ∈ m.piers.map (·.1), (pierAt s q).badWords = [] ∧ (pierAt s q).weakWords = [] := by
      intro q hq
      obtain ⟨x, hx, rfl⟩ := List.mem_map.1 hq
      obtain ⟨bad, weak, -⟩ := clean x hx
      exact ⟨bad, weak⟩
    rw [pinMicro_first first, writePiers_version fun x hx => let ⟨_, _, inside⟩ := clean x hx; inside]
    obtain ⟨written, kept, prog, parts⟩ := writePads_clean m.n (c.addr + 20) (leBytes 4 v) (m.piers.map (·.1)) distinct
      (s := modStage s m.n m.stage (pinnedRun m c { c.desc with version := v } v))
      good
    obtain ⟨own, others⟩ := swept_stages hp hr (prog.trans (progAt_modStage hp ..)) m.im
    refine ⟨own, others, fun x hx => written x.1 (List.mem_map_of_mem hx), kept, ?_⟩
    rw [parts]
    rfl
  case retire =>
    have prog := progAt_retiring hp x
    obtain ⟨own, others⟩ := swept_stages hp hr prog m.im
    rw [retireMicro_eq]
    refine ⟨own, others, ?_, ?_⟩
    · rw [progAt_sweep prog]
      rfl
    · rw [retiring_ctxs]
      rfl

end Sys2Proof.Machine

/-! SUPPORT. Span frames that a link's end takes in order (07 R176 to R182). -/

namespace Sys2Proof.Machine

theorem bit_flag (b : Bool) (i : Nat) : bit (flag b i) i = b := by
  cases b
  · exact Nat.zero_testBit i
  · exact Nat.testBit_two_pow_self

theorem imageAt_modProg (s : State) (n m : Nat) (f : Program → Program) : imageAt (modProg s n f) m = imageAt s m := by
  unfold imageAt modProg
  rw [ctxAt_modCtx]
  split
  · cases ctxAt s m <;> rfl
  · rfl

/-! ### The frame is taken (R176, R180) -/

/-- A link at which the frame next in order has arrived, with the deadline's new start. -/
def hearLink (now : Nat) (f : SpanFrame) (L : SpanLink) : SpanLink := { L with heardAt := now, ahead := L.ahead ++ [f] }

/-- A link that takes a frame it holds. -/
def takeFrame (f : SpanFrame) (L : SpanLink) : SpanLink := { L with rxSeq := add32 L.rxSeq 1, ahead := L.ahead.erase f }

/-- The state in which a frame that is next in order acts. -/
def spanTaken (s : State) (src n q : Nat) (f : SpanFrame) : State :=
  modLink (modLink (takeInbox s src 1 (encodeSpan f)) n q (hearLink s.time f)) n q (takeFrame f)

section
variable {s : State} {link src seq n q : Nat} {im : Image} {x : SpanQueue} {L : SpanLink}

theorem spanTaken_taken (hx : ((progAt s n).bind fun p => spanQueueAt p q) = some x) (hl : x.link = some L) (empty : L.ahead = [])
    (f : SpanFrame) : SpanTaken s (spanTaken s src n q f) n q x L := by
  have queue : ((progAt (spanTaken s src n q f) n).bind fun p => spanQueueAt p q) =
      some { x with link := some { L with rxSeq := add32 L.rxSeq 1, heardAt := s.time } } := by
    unfold spanTaken
    rw [queue_modLink, queue_modLink, takeInbox_eq]
    refine (congrArg _ (congrArg _ hx)).trans ?_
    simp only [Option.map_some, hl, takeFrame, hearLink, empty, List.nil_append, List.erase_cons_head]
  have taken := linkAt_queue queue
  refine ⟨taken, taken ▸ queue, ?_⟩
  unfold spanTaken
  rw [takeInbox_eq]
  rfl

theorem drainSpan_one (hL : linkAt s n q = some L) {f : SpanFrame} (next : L.ahead.find? (fun g => g.seq = L.rxSeq) = some f) :
    drainSpan 1 s n q = actSpan (modLink s n q (takeFrame f)) n q f := by
  simp only [drainSpan, hL, next]
  rfl

/-- A frame that is next in order acts in the state that its taking leaves. -/
theorem recvSpan_next (h : SpanNext s link src seq n q im x L) {f : SpanFrame} (hlink : f.link = link) (hseq : f.seq = seq) :
    recvSpan s src f = actSpan (spanTaken s src n q f) n q f := by
  obtain ⟨-, found, -, hx, hl, rfl, empty⟩ := h
  subst hlink
  have now : (takeInbox s src 1 (encodeSpan f)).time = s.time := by rw [takeInbox_eq]
  have first : linkAt (takeInbox s src 1 (encodeSpan f)) n q = some L := by
    rw [takeInbox_eq]
    exact (linkAt_queue hx).trans hl
  have heard : linkAt (modLink (takeInbox s src 1 (encodeSpan f)) n q (hearLink s.time f)) n q = some (hearLink s.time f L) := by
    rw [linkAt_modLink, first]
    rfl
  unfold recvSpan
  simp only [found, first, empty, hseq, before_self, List.any_nil, Bool.or_self, Bool.false_eq_true, if_false, List.length_nil, now]
  exact drainSpan_one heard (by simp [hearLink, empty, hseq])

theorem imageAt_spanTaken (s : State) (src n q : Nat) (f : SpanFrame) : imageAt (spanTaken s src n q f) n = imageAt s n := by
  simp only [spanTaken, modLink, modSpanQueue, imageAt_modProg]
  rw [takeInbox_eq]
  rfl

/-- The row of a frame that is next in order. -/
theorem spanRow_acts (h : SpanNext s link src seq n q im x L) (f : SpanFrame) (hlink : f.link = link) (hseq : f.seq = seq) :
    ∃ u, SpanTaken s u n q x L ∧ imageAt u n = some im ∧
      (Host.Outcome.next (if running s then recvSpan s src f else s) : Host.Outcome State Fault Refusal) = .next (actSpan u n q f) := by
  have order := recvSpan_next h hlink hseq
  obtain ⟨up, -, image, queue, hl, -, empty⟩ := h
  refine ⟨spanTaken s src n q f, spanTaken_taken queue hl empty f, (imageAt_spanTaken ..).trans image, ?_⟩
  rw [if_pos up, order]

end

/-! ### The frame acts (R177 to R182) -/

section
variable {s u : State} {n q : Nat} {im : Image} {x : SpanQueue} {L : SpanLink} (taken : SpanTaken s u n q x L)
include taken

/-- A change of the link that has taken the frame. -/
theorem modLink_taken (f : SpanLink → SpanLink) :
    linkAt (modLink u n q f) n q = some (f { L with rxSeq := add32 L.rxSeq 1, heardAt := s.time })
      ∧ modLink u n q f = { s with pylon := { s.pylon with inbox := (modLink u n q f).pylon.inbox }, ctxs := (modLink u n q f).ctxs } := by
  obtain ⟨link, -, parts⟩ := taken
  refine ⟨by rw [linkAt_modLink, link]; rfl, ?_⟩
  rw [parts]
  rfl

theorem actSpan_bind (hi : imageAt u n = some im) (binding : L.st = .binding) {f : SpanFrame} (type : f.type = 6) (own : f.body = L.digest) :
    actSpan u n q f = checkBound (modLink u n q fun L => { L with st := .bound, heardAt := s.time, sentAt := s.time }) n := by
  obtain ⟨link, queue, parts⟩ := taken
  obtain ⟨p, hp, hq⟩ := Option.bind_eq_some_iff.1 queue
  have now : u.time = s.time := by rw [parts]
  simp only [actSpan, hp, hi, hq, link, type, onBind, binding, own, now, bne_self_eq_false, Bool.false_eq_true, if_true, if_false]

/-- What a frame of type k other than BIND does at a bound link. -/
theorem actSpan_bound (hi : imageAt u n = some im) (bound : L.st = .bound) (k : Nat) {f : SpanFrame} (type : f.type = k) (notBind : k ≠ 6) :
    actSpan u n q f =
      if k = 1 then onDesc u n im { x with link := linkAt u n q } (bit f.flags 1) f.body
      else if k = 2 then onData u n im { x with link := linkAt u n q } (bit f.flags 0) f.value f.body
      else if k = 3 then modLink u n q fun L => { L with released := f.value }
      else if k = 5 then peerLost u n L.link L.peer f.value
      else if k = 7 then
        if linkBusy u n im { x with link := linkAt u n q } { L with rxSeq := add32 L.rxSeq 1, heardAt := s.time } then
          peerLost u n L.link L.peer 0
        else modLink u n q fun L => { L with st := .closed }
      else if k = 4 then u
      else discardSpan u n q := by
  subst type
  obtain ⟨link, queue, -⟩ := taken
  obtain ⟨p, hp, hq⟩ := Option.bind_eq_some_iff.1 queue
  simp only [actSpan, hp, hi, hq, link, notBind, bound, bne_self_eq_false, Bool.false_eq_true, if_false]

end

/-- Settles O15: each row's frame is taken alike and then acts by its type. -/
theorem spanFramesActInOrder : Obligations.SpanFramesActInOrder := by
  unfold Obligations.SpanFramesActInOrder
  intro s link src seq n q im x L h
  have arrives := spanRow_acts h
  obtain ⟨-, -, -, -, -, rfl, -⟩ := h
  refine ⟨fun bound => ⟨fun cont slot body => ?desc, fun last off body => ?data, fun k => ?credit, ?heartbeat, fun st => ?abandon, ?close⟩,
    fun binding => ?bind⟩
  case desc =>
    obtain ⟨u, taken, image, run⟩ := arrives { type := 1, flags := flag cont 1, link, seq := L.rxSeq, value := slot, body } rfl rfl
    rw [actSpan_bound taken image bound 1 rfl (by decide), bit_flag] at run
    exact ⟨_, u, run, taken, rfl⟩
  case data =>
    obtain ⟨u, taken, image, run⟩ := arrives { type := 2, flags := flag last 0, link, seq := L.rxSeq, value := off, body } rfl rfl
    rw [actSpan_bound taken image bound 2 rfl (by decide), bit_flag] at run
    exact ⟨_, u, run, taken, rfl⟩
  case credit =>
    obtain ⟨u, taken, image, run⟩ := arrives { type := 3, flags := 0, link, seq := L.rxSeq, value := k, body := [] } rfl rfl
    rw [actSpan_bound taken image bound 3 rfl (by decide)] at run
    exact ⟨_, run, modLink_taken taken fun L => { L with released := k }⟩
  case heartbeat =>
    obtain ⟨u, taken, image, run⟩ := arrives { type := 4, flags := 0, link, seq := L.rxSeq, value := 0, body := [] } rfl rfl
    rw [actSpan_bound taken image bound 4 rfl (by decide)] at run
    exact ⟨u, run, taken⟩
  case abandon =>
    obtain ⟨u, taken, image, run⟩ := arrives { type := 5, flags := 0, link, seq := L.rxSeq, value := st, body := [] } rfl rfl
    rw [actSpan_bound taken image bound 5 rfl (by decide)] at run
    exact ⟨_, u, run, taken, rfl⟩
  case close =>
    obtain ⟨u, taken, image, run⟩ := arrives { type := 7, flags := 0, link, seq := L.rxSeq, value := 0, body := [] } rfl rfl
    rw [actSpan_bound taken image bound 7 rfl (by decide)] at run
    simp only [Nat.reduceEqDiff, if_true, if_false] at run
    refine ⟨_, u, run, taken, ?_⟩
    split
    · rfl
    · exact modLink_taken taken fun L => { L with st := .closed }
  case bind =>
    obtain ⟨u, taken, image, run⟩ := arrives { type := 6, flags := 0, link, seq := L.rxSeq, value := 0, body := L.digest } rfl rfl
    rw [actSpan_bind taken image binding rfl rfl] at run
    exact ⟨_, _, run, rfl, modLink_taken taken fun L => { L with st := .bound, heardAt := s.time, sentAt := s.time }⟩

end Sys2Proof.Machine

/-! SUPPORT. The timers of links and associations, and the bind window (07 R179, R180, R182, 08 R224). -/

namespace Sys2Proof.Machine

/-- A frame sent on a link moves its sequence number, its timer and its turn among the ports on. -/
theorem linkAt_sendSpan {s : State} {n q : Nat} {L : SpanLink} (hL : linkAt s n q = some L) {p : Nat} (port : bondPort s L = some p)
    (type flags value : Nat) (body : List Byte) : linkAt (sendSpan s n q type flags value body) n q =
      some { L with txSeq := add32 L.txSeq 1, sentAt := s.time, nextPort := (L.ports.idxOf p + 1) % L.ports.length } := by
  unfold sendSpan
  simp only [hL, port]
  have wire (u : State) (f : Option Nat × PylonFrame) : linkAt (giveFrame u p f) n q = linkAt u n q := by
    unfold linkAt
    rw [(giveFrame_onWire u p f).prog]
  rw [wire, linkAt_modLink, hL]
  rfl

/-- Settles O17: each timer's row by the branch that its premises select, and what sending moves on. -/
theorem linkTimersExpire : Obligations.LinkTimersExpire := by
  unfold Obligations.LinkTimersExpire
  refine ⟨fun s link n q L up found hL => ⟨?beat, fun live => ?lost⟩, fun s peer n A up found hA => ⟨?stayBeat, fun live => ?stayLost⟩,
    fun s n p up hp binding => ?window, fun s n q type flags value body L hL port => ?sent⟩
  case beat =>
    show Host.Outcome.next _ = _
    simp only [up, found, hL]
  case lost =>
    show Host.Outcome.next _ = _
    simp only [up, found, hL, live, Bool.false_eq_true, if_false, peerLost]
  case stayBeat =>
    show Host.Outcome.next _ = _
    simp only [up, found, hA]
  case stayLost =>
    show Host.Outcome.next _ = _
    simp only [up, found, hA, live, Bool.false_eq_true, if_false, peerLost]
  case window =>
    show Host.Outcome.next _ = _
    simp only [up, hp, binding, beq_self_eq_true, if_true]
  case sent =>
    obtain ⟨p, hp⟩ := Option.isSome_iff_exists.1 port
    rw [linkAt_sendSpan hL hp, hp]
    rfl

end Sys2Proof.Machine

/-! SUPPORT. HOLD and HOLD_END: the pauses that stand, and the deadlines that start again when the last one ends (07 R180, 09 R236, R247). -/

namespace Sys2Proof.Machine

/-! ### The rows: a notice leaves the inbox, and notes or ends a pause -/

section
variable {s : State} (up : running s = true)
include up

theorem exec_hold (a : Arrival) (pkg far : Nat) : ∃ l, exec (.hold a pkg far) s =
    .next (addHold { s with pylon := { s.pylon with inbox := l } } pkg far (some (a.port, a.number))) := by
  refine ⟨(takeInbox s pkg 4 (holdPayload 0x10 pkg far)).pylon.inbox, ?_⟩
  rw [← takeInbox_eq]
  exact congrArg _ (if_pos up)

theorem exec_holdEnd (a : Arrival) (pkg far : Nat) : ∃ l, exec (.holdEnd a pkg far) s =
    .next (endHold { s with pylon := { s.pylon with inbox := l } } pkg far (some (a.port, a.number))) := by
  refine ⟨(takeInbox s pkg 4 (holdPayload 0x11 pkg far)).pylon.inbox, ?_⟩
  rw [← takeInbox_eq]
  exact congrArg _ (if_pos up)

theorem exec_holdTimeout {pkg far : Nat} {h : Hold} (stands : s.pylon.holds.find? (fun h => h.names pkg far) = some h) :
    exec (.holdTimeout pkg far) s = .next (dropHold (advanceTo s (h.at_ + 500000)) pkg far) := by
  show Host.Outcome.next _ = _
  simp only [up, stands]

end

/-! ### Noting a pause, and its end -/

section
variable {s : State} {pkg far : Nat}

theorem addHold_notes {a : Option (Nat × Nat)}
    (fresh : (liveEnds s).find? (fun e => e.names pkg far && earlierNotice a e.arrival) = none) : addHold s pkg far a = { s with
      pylon := { s.pylon with
        holds := (s.pylon.holds.filter fun h => !h.names pkg far) ++ [{ pkg, port := far, at_ := s.time, arrival := a }] } } := by
  unfold addHold
  rw [fresh]

theorem addHold_ended {a : Option (Nat × Nat)} {e : Hold}
    (ended : (liveEnds s).find? (fun e => e.names pkg far && earlierNotice a e.arrival) = some e) :
    addHold s pkg far a = { s with pylon := { s.pylon with ends := s.pylon.ends.erase e } } := by
  unfold addHold
  rw [ended]

theorem endHold_waits (absent : s.pylon.holds.find? (fun h => h.names pkg far) = none) (a : Nat × Nat) : endHold s pkg far (some a) = { s with
    pylon := { s.pylon with
      ends := ((liveEnds s).filter fun h => !h.names pkg far) ++ [{ pkg, port := far, at_ := s.time, arrival := some a }] } } := by
  unfold endHold
  rw [absent]
  rfl

theorem endHold_ends {h : Hold} (stands : s.pylon.holds.find? (fun h => h.names pkg far) = some h) (a : Option (Nat × Nat)) :
    endHold s pkg far a = if earlierNotice a h.arrival = true then s else dropHold s pkg far := by
  unfold endHold
  rw [stands]

/-- The end of a pause: the last one lets every deadline start again, and the watchdogs of programs with a Pylon link. -/
theorem dropHold_eq {left : List Hold} (hleft : left = s.pylon.holds.filter fun h => !h.names pkg far) : dropHold s pkg far =
    if left = [] then restartWatchdogs (restartDeadlines { s with pylon := { s.pylon with holds := [] } } (fun _ => true) (fun _ => true)) usesPylon
    else { s with pylon := { s.pylon with holds := left } } := by
  subst hleft
  unfold dropHold
  simp only [List.isEmpty_iff]
  split
  · next last => rw [last]
  · rfl

end

/-! ### Deadlines while a HOLD stands -/

theorem linkPaused_held {s : State} (held : s.pylon.holds ≠ []) (L : SpanLink) : linkPaused s L = true := by
  simp [linkPaused, held]

theorem assocPaused_held {s : State} (held : s.pylon.holds ≠ []) (A : Assoc) : assocPaused s A = true := by
  simp [assocPaused, held]

theorem exec_spanPeerDeadline_held {s : State} (held : s.pylon.holds ≠ []) (link : Nat) : exec (.spanPeerDeadline link) s = .next s := by
  show Host.Outcome.next _ = _
  congr 1
  split
  · split
    · exact if_pos (linkPaused_held held _)
    · rfl
  · rfl

theorem exec_stayPeerDeadline_held {s : State} (held : s.pylon.holds ≠ []) (peer : Nat) : exec (.stayPeerDeadline peer) s = .next s := by
  show Host.Outcome.next _ = _
  congr 1
  split
  · split
    · exact if_pos (assocPaused_held held _)
    · rfl
  · rfl

/-- Settles O19: what each notice makes of the pauses, on the state in which it has left the inbox. -/
theorem holdsPauseDeadlines : Obligations.HoldsPauseDeadlines := by
  unfold Obligations.HoldsPauseDeadlines
  intro s p lseq pkg far left up hleft
  obtain ⟨l, hold⟩ := exec_hold up ⟨p, lseq⟩ pkg far
  obtain ⟨l', holdEnd⟩ := exec_holdEnd up ⟨p, lseq⟩ pkg far
  refine ⟨fun fresh => ⟨_, hold, ?notes⟩, fun e ended => ⟨_, hold, ?passed⟩, fun absent => ⟨_, holdEnd, ?waits⟩,
    fun h stands => ⟨_, holdEnd, ?ends⟩, fun h stands => ⟨_, exec_holdTimeout up stands, ?timeout⟩,
    fun held link peer => ⟨exec_spanPeerDeadline_held held link, exec_stayPeerDeadline_held held peer⟩⟩
  case notes =>
    rw [addHold_notes (s := { s with pylon := { s.pylon with inbox := l } }) fresh, hleft]
    exact ⟨rfl, rfl⟩
  case passed =>
    rw [addHold_ended (s := { s with pylon := { s.pylon with inbox := l } }) ended]
  case waits =>
    rw [endHold_waits (s := { s with pylon := { s.pylon with inbox := l' } }) absent]
    exact ⟨rfl, rfl⟩
  case ends =>
    rw [endHold_ends (s := { s with pylon := { s.pylon with inbox := l' } }) stands,
      dropHold_eq (s := { s with pylon := { s.pylon with inbox := l' } }) hleft]
    split
    · rfl
    · split <;> rfl
  case timeout =>
    obtain ⟨parts, -⟩ := advanceTo_parts s (h.at_ + 500000)
    have pylon : (advanceTo s (h.at_ + 500000)).pylon = s.pylon := by rw [parts]
    have time : (advanceTo s (h.at_ + 500000)).time = max s.time (h.at_ + 500000) := by rw [parts]
    rw [dropHold_eq (s := advanceTo s (h.at_ + 500000)) (left := left) (by rw [pylon, hleft])]
    refine ⟨?_, by rw [pylon]⟩
    split <;> exact time

end Sys2Proof.Machine

/-! SUPPORT. Stay frames that an association takes in order (08 R221, R224, R226). -/

namespace Sys2Proof.Machine

/-! ### The frame is taken (R224) -/

/-- An association at which the frame next in order has arrived, with the deadline's new start. -/
def hearAssoc (now tile : Nat) (f : StayFrame) (A : Assoc) : Assoc := { A with heardAt := now, ahead := A.ahead ++ [(tile, f)] }

/-- An association that takes a frame it holds. -/
def takeAhead (tile : Nat) (f : StayFrame) (A : Assoc) : Assoc := { A with rxSeq := add32 A.rxSeq 1, ahead := A.ahead.erase (tile, f) }

/-- The state in which a frame that is next in order acts. -/
def stayTaken (s : State) (peer tile n : Nat) (f : StayFrame) : State :=
  modAssoc (modAssoc (takeInbox s peer 2 (encodeStay f)) n peer (hearAssoc s.time tile f)) n peer (takeAhead tile f)

theorem assocAt_takeInbox (s : State) (src k : Nat) (b : List Byte) (n peer : Nat) :
    assocAt (takeInbox s src k b) n peer = assocAt s n peer := by
  rw [takeInbox_eq]
  rfl

section
variable {s : State} {peer seq n : Nat} {A : Assoc}

theorem stayTaken_taken (hA : assocAt s n peer = some A) (empty : A.ahead = []) (tile : Nat) (f : StayFrame) :
    StayTaken s (stayTaken s peer tile n f) n peer A := by
  unfold stayTaken
  constructor
  · rw [assocAt_modAssoc _ _ _ (takeAhead tile f) fun _ => rfl, assocAt_modAssoc _ _ _ (hearAssoc s.time tile f) fun _ => rfl,
      assocAt_takeInbox, hA]
    simp only [Option.map_some, takeAhead, hearAssoc, empty, List.nil_append, List.erase_cons_head]
  · rw [takeInbox_eq]
    rfl

theorem drainStay_one (hA : assocAt s n peer = some A) {tile : Nat} {f : StayFrame}
    (next : A.ahead.find? (fun g => g.2.seq = A.rxSeq) = some (tile, f)) :
    drainStay 1 s n peer = actStay (modAssoc s n peer (takeAhead tile f)) n peer tile f := by
  simp only [drainStay, hA, next]
  rfl

/-- A frame that is next in order, other than an ABANDON, acts in the state that its taking leaves. -/
theorem recvStay_next (h : StayNext s peer seq n A) (tile : Nat) {f : StayFrame} (hseq : f.seq = seq) (other : f.type ≠ 0x14) :
    recvStay s peer tile f = actStay (stayTaken s peer tile n f) n peer tile f := by
  obtain ⟨-, found, hA, rfl, empty⟩ := h
  have now : (takeInbox s peer 2 (encodeStay f)).time = s.time := by rw [takeInbox_eq]
  have first := (assocAt_takeInbox s peer 2 (encodeStay f) n peer).trans hA
  have heard : assocAt (modAssoc (takeInbox s peer 2 (encodeStay f)) n peer (hearAssoc s.time tile f)) n peer =
      some (hearAssoc s.time tile f A) := by
    rw [assocAt_modAssoc _ _ _ (hearAssoc s.time tile f) fun _ => rfl, first]
    rfl
  unfold recvStay
  simp only [found, first, empty, hseq, other, before_self, decide_false, Bool.false_and, List.any_nil, Bool.or_self,
    Bool.false_eq_true, if_false, List.length_nil, now]
  exact drainStay_one heard (by simp [hearAssoc, empty, hseq])

/-- The row of an ABANDON that is next in order on a bound association: it acts before it is put in order (R226). -/
theorem stayRow_abandons (h : StayNext s peer seq n A) (bound : A.st = .bound) (tile : Nat) (f : StayFrame) (type : f.type = 0x14)
    (hseq : f.seq = seq) :
    (Host.Outcome.next (if running s then recvStay s peer tile f else s) : Host.Outcome State Fault Refusal) =
      .next (peerLost (takeInbox s peer 2 (encodeStay f)) n (2 ^ 31 + peer) peer f.value) := by
  obtain ⟨up, found, hA, rfl, empty⟩ := h
  rw [if_pos up]
  unfold recvStay
  simp only [found, assocAt_takeInbox, hA, type, bound, hseq, empty, before_self, List.any_nil, Bool.or_self, Bool.not_false,
    beq_self_eq_true, decide_true, Bool.and_self, if_true]

/-- The row of a frame that is next in order, other than an ABANDON. -/
theorem stayRow_acts (h : StayNext s peer seq n A) (tile k : Nat) (f : StayFrame) (type : f.type = k) (hseq : f.seq = seq)
    (other : k ≠ 0x14) :
    ∃ u, StayTaken s u n peer A ∧
      (Host.Outcome.next (if running s then recvStay s peer tile f else s) : Host.Outcome State Fault Refusal)
        = .next (actStay u n peer tile f) := by
  have order := recvStay_next h tile hseq (type ▸ other)
  obtain ⟨up, -, hA, -, empty⟩ := h
  refine ⟨stayTaken s peer tile n f, stayTaken_taken hA empty tile f, ?_⟩
  rw [if_pos up, order]

end

/-! ### The frame acts (R221, R224, R226) -/

section
variable {s u : State} {n peer : Nat} {A : Assoc} (taken : StayTaken s u n peer A)
include taken

/-- A change of the association that has taken the frame. -/
theorem modAssoc_taken (f : Assoc → Assoc) (same : ∀ a, (f a).peer = a.peer) :
    assocAt (modAssoc u n peer f) n peer = some (f { A with rxSeq := add32 A.rxSeq 1, heardAt := s.time })
      ∧ modAssoc u n peer f =
          { s with pylon := { s.pylon with inbox := (modAssoc u n peer f).pylon.inbox }, ctxs := (modAssoc u n peer f).ctxs } := by
  obtain ⟨assoc, parts⟩ := taken
  refine ⟨by rw [assocAt_modAssoc _ _ _ _ same, assoc]; rfl, ?_⟩
  rw [parts]
  rfl

theorem actStay_bind (binding : A.st = .binding) (tile : Nat) {f : StayFrame} (type : f.type = 0x15) (own : f.body = A.digest) :
    actStay u n peer tile f = checkBound (modAssoc u n peer fun A => { A with st := .bound, heardAt := s.time, sentAt := s.time }) n := by
  obtain ⟨assoc, parts⟩ := taken
  have now : u.time = s.time := by rw [parts]
  simp only [actStay, assoc, type, onStayBind, binding, own, now, bne_self_eq_false, Bool.false_eq_true, if_true, if_false]

/-- What a frame of type k other than BIND does at a bound association. -/
theorem actStay_bound (bound : A.st = .bound) (tile k : Nat) {f : StayFrame} (type : f.type = k) (notBind : k ≠ 0x15) :
    actStay u n peer tile f =
      if k = 0x11 ∨ k = 0x17 then holdStay u n tile peer f
      else if k = 0x12 then
        if u.sched.active == some n && u.sched.incoming.isNone then
          drainBacklog A.backlog.length (modAssoc u n peer fun A => { A with granted := f.value }) n peer
        else modAssoc u n peer fun A => { A with granted := f.value }
      else if k = 0x14 then peerLost u n (2 ^ 31 + peer) peer f.value
      else if k = 0x16 then
        if assocBusy u n peer { A with rxSeq := add32 A.rxSeq 1, heardAt := s.time } then peerLost u n (2 ^ 31 + peer) peer 0
        else modAssoc u n peer fun A => { A with st := .closed }
      else if k = 0x13 then u
      else discardStay u n peer tile := by
  subst type
  obtain ⟨assoc, -⟩ := taken
  simp only [actStay, assoc, notBind, bound, bne_self_eq_false, Bool.false_eq_true, if_false]
  rfl

end

/-- Settles O16: an ABANDON ends the context at once; every other row's frame is taken alike and then acts by its type. -/
theorem stayFramesActInOrder : Obligations.StayFramesActInOrder := by
  unfold Obligations.StayFramesActInOrder
  intro s peer tile seq n A h
  have arrives := stayRow_acts h tile
  have abandoned := stayRow_abandons h
  obtain ⟨-, -, -, rfl, -⟩ := h
  refine ⟨fun bound => ⟨fun entry piece last off body => ?data, fun entry piece body => ?trailer, fun k => ?credit, ?heartbeat,
    fun st => ?abandon, ?close⟩, fun binding => ?bind⟩
  case data =>
    obtain ⟨u, taken, run⟩ :=
      arrives 0x11 { type := 0x11, flags := flag last 0, entry, piece, seq := A.rxSeq, value := off, body } rfl rfl (by decide)
    rw [actStay_bound taken bound tile 0x11 rfl (by decide)] at run
    exact ⟨_, u, run, taken, rfl⟩
  case trailer =>
    obtain ⟨u, taken, run⟩ :=
      arrives 0x17 { type := 0x17, flags := 0, entry, piece, seq := A.rxSeq, value := 0, body } rfl rfl (by decide)
    rw [actStay_bound taken bound tile 0x17 rfl (by decide)] at run
    exact ⟨_, u, run, taken, rfl⟩
  case credit =>
    obtain ⟨u, taken, run⟩ :=
      arrives 0x12 { type := 0x12, flags := 0, entry := 0, piece := 0, seq := A.rxSeq, value := k, body := [] } rfl rfl (by decide)
    rw [actStay_bound taken bound tile 0x12 rfl (by decide)] at run
    obtain ⟨assoc, parts⟩ := modAssoc_taken taken (fun A => { A with granted := k }) fun _ => rfl
    have sched : u.sched = s.sched := by rw [taken.2]
    refine ⟨_, _, run, assoc, parts, ?_⟩
    simp only [sched, Bool.and_eq_true, beq_iff_eq, Option.isNone_iff_eq_none]
    rfl
  case heartbeat =>
    obtain ⟨u, taken, run⟩ :=
      arrives 0x13 { type := 0x13, flags := 0, entry := 0, piece := 0, seq := A.rxSeq, value := 0, body := [] } rfl rfl (by decide)
    rw [actStay_bound taken bound tile 0x13 rfl (by decide)] at run
    exact ⟨u, run, taken⟩
  case abandon =>
    have run :=
      abandoned bound tile { type := 0x14, flags := 0, entry := 0, piece := 0, seq := A.rxSeq, value := st, body := [] } rfl rfl
    exact ⟨_, _, run, takeInbox_eq .., rfl⟩
  case close =>
    obtain ⟨u, taken, run⟩ :=
      arrives 0x16 { type := 0x16, flags := 0, entry := 0, piece := 0, seq := A.rxSeq, value := 0, body := [] } rfl rfl (by decide)
    rw [actStay_bound taken bound tile 0x16 rfl (by decide)] at run
    simp only [Nat.reduceEqDiff, or_self, if_true, if_false] at run
    refine ⟨_, u, run, taken, ?_⟩
    split
    · rfl
    · exact modAssoc_taken taken (fun A => { A with st := .closed }) fun _ => rfl
  case bind =>
    obtain ⟨u, taken, run⟩ :=
      arrives 0x15 { type := 0x15, flags := 0, entry := 0, piece := 0, seq := A.rxSeq, value := 0, body := A.digest } rfl rfl (by decide)
    rw [actStay_bind taken binding tile rfl rfl] at run
    exact ⟨_, _, run, rfl,
      modAssoc_taken taken (fun A => { A with st := .bound, heardAt := s.time, sentAt := s.time }) fun _ => rfl⟩

end Sys2Proof.Machine

/-! SUPPORT. The state of a cold reset (09 R231, R241, 13 R325, 16 R396, R402, 18 R424). -/

namespace Sys2Proof.Machine

/-! ### The store as delivered (16 R383, R393) -/

theorem epoch_of_mem_layOut {epoch : Nat} {bs : List JournalBody} {seq p : Nat} {r : JournalRecord} (h : r ∈ layOut epoch seq p bs) :
    r.epoch = epoch := by
  induction bs generalizing seq p with
  | nil => exact (List.not_mem_nil h).elim
  | cons b bs ih =>
    obtain rfl | h := List.mem_cons.1 h
    · rfl
    · exact ih h

theorem epoch_of_mem_factoryJournal {r : JournalRecord} (h : r ∈ factoryJournal) : r.epoch = 0 := by
  obtain h | h := List.mem_append.1 h <;> exact epoch_of_mem_layOut h

/-- Where every record is of epoch 0, that epoch is in force. -/
theorem oneEpoch_of_zero {t : Tollhouse} (zero : ∀ r ∈ t.journal, r.epoch = 0) : OneEpoch t := by
  have base : epochOf t = 0 := by
    refine Nat.le_zero.1 (foldl_max_le le_rfl fun e he => ?_)
    obtain ⟨r, found, rfl⟩ := List.mem_map.1 he
    exact (zero r (scanFrom_subset [] _ r (List.mem_of_mem_filter found))).le
  exact fun r h => (zero r h).trans base.symm

/-! ### The invariants of a step -/

theorem shaped_reset : State.reset.Shaped :=
  ⟨List.length_replicate, List.length_replicate, List.length_replicate, List.length_replicate, List.length_replicate, by decide⟩

theorem wf_nil : Memory.Wf [] := ⟨.nil, fun _ h => (List.not_mem_nil h).elim⟩

theorem memoriesWf_reset : State.reset.MemoriesWf := ⟨wf_nil, wf_nil, wf_nil, fun _ h => (List.not_mem_nil h).elim, .nil⟩

/-- The store holds epoch 0 only, and no index of the identity key has been used. -/
theorem indexReserved_reset : State.reset.IndexReserved :=
  ⟨oneEpoch_of_zero fun _ => epoch_of_mem_factoryJournal, Nat.zero_le _⟩

theorem bounded_reset : State.reset.Bounded := ⟨Nat.zero_le _, Nat.zero_le _⟩

/-- Settles O60: the four invariants, then the parts, of which those of one kind are all the same one. -/
theorem resetStateIsSound : Obligations.ResetStateIsSound := by
  unfold Obligations.ResetStateIsSound
  refine ⟨shaped_reset, memoriesWf_reset, indexReserved_reset, bounded_reset, rfl, rfl, fun n => ?contexts, fun Q h => ?queues,
    fun P h => ?ports, rfl, rfl, rfl, rfl, rfl, rfl, rfl, fun _ => rfl⟩
  case contexts =>
    unfold ctxAt State.reset
    rw [List.getElem?_replicate]
    split <;> rfl
  case queues =>
    obtain rfl := List.eq_of_mem_replicate h
    decide
  case ports =>
    obtain rfl := List.eq_of_mem_replicate h
    rfl

end Sys2Proof.Machine

/-! SUPPORT. Ports where one of them has changed, powered time has passed, or a link control frame has arrived (09 R228, R233, R234, 16 R396). -/

namespace Sys2Proof.Machine

/-! ### Powered time (R396) -/

@[simp] theorem advanceTo_pylon (s : State) (t : Nat) : (advanceTo s t).pylon = s.pylon := by rw [(advanceTo_parts s t).1]

@[simp] theorem advanceTo_time (s : State) (t : Nat) : (advanceTo s t).time = max s.time t := by rw [(advanceTo_parts s t).1]

/-! ### A port that has changed (R228) -/

theorem map_modAt_of_keeps {α β : Type} (g : α → β) {f : α → α} (keeps : ∀ x, g (f x) = g x) (l : List α) (i : Nat) :
    (modAt l i f).map g = l.map g := by
  induction l generalizing i with
  | nil => cases i <;> rfl
  | cons x l ih => cases i <;> simp [modAt, keeps, ih]

theorem portAt_modPort_ne (s : State) {p k : Nat} (h : k ≠ p) (f : Port → Port) : portAt (modPort s p f) k = portAt s k := by
  simp only [portAt, modPort, List.getD_eq_getElem?_getD, getElem?_modAt, if_neg (Ne.symm h)]

theorem sendCtl_eq {s : State} {p : Nat} {P : Port} (port : s.pylon.ports[p]? = some P) (c : CtlFrame) :
    sendCtl s p c = modPort s p fun _ => { P with ctlOut := P.ctlOut ++ [(P.rxSeq, encodeCtl c)] } :=
  modPort_congr _ _ port rfl

theorem settleDisable_idle {s : State} {p : Nat} {P : Port} (port : s.pylon.ports[p]? = some P) (idle : P.disabling = []) :
    settleDisable s p = s := by
  simp [settleDisable, portAt_of port, idle]

/-! ### Link control frames at a port that is ACTIVE (R233, R234) -/

section
variable {s u : State} {p a : Nat} (up : running s = true) (on : (portAt s p).st = .active) (ack : applyAck s p a = u)
  (still : (portAt u p).st = .active)
include up on ack still

theorem arriveCtl_credit (g : List Nat) : arriveCtl s ⟨p, a⟩ (.credit g) = pumpPort (modPort u p fun P => { P with credit := g }) p := by
  simp [arriveCtl, up, on, ack, still]

theorem arriveCtl_nak (lseq : Nat) : arriveCtl s ⟨p, a⟩ (.nak lseq) = arriveNak u p lseq := by
  simp [arriveCtl, up, on, ack, still]

theorem arriveCtl_recalReq (k : Nat) : arriveCtl s ⟨p, a⟩ (.recalReq k) = arriveRecalReq u p := by
  simp [arriveCtl, up, on, ack, still]

theorem arriveCtl_recalAck (k : Nat) : arriveCtl s ⟨p, a⟩ (.recalAck k) =
    modPort u p fun P => { P with recal := P.recal.map fun r => { r with acked := true } } := by
  simp [arriveCtl, up, on, ack, still]

end

end Sys2Proof.Machine

/-! SUPPORT. Training of a port: the steps from DETECT to ACTIVE, an attempt that fails, and the timeouts (09 R231, R232, R234, R239). -/

namespace Sys2Proof.Machine

/-! ### Failed attempts (R231, R232) -/

section
variable {s : State} {p : Nat} {P : Port} (port : s.pylon.ports[p]? = some P)
include port

theorem failAttempt_third (third : 2 ≤ P.attempts) :
    failAttempt s p = failPort (modPort s p fun P => { P with attempts := P.attempts + 1 }) p reasonAttempts := by
  unfold failAttempt
  rw [portAt_of port]
  exact if_pos (by omega)

theorem failAttempt_trains (few : P.attempts < 2) (whole : retrainLimit P = none) :
    failAttempt s p = modPort s p fun _ => { P with st := .equalise, since := s.time, attempts := P.attempts + 1 } := by
  unfold failAttempt
  rw [portAt_of port]
  dsimp only
  rw [if_neg (by omega), whole, if_neg (by simp)]
  exact modPort_congr _ _ port rfl

theorem failAttempt_retrains {r : Nat} (few : P.attempts < 2) (whole : retrainLimit P = some r) :
    failAttempt s p =
      modPort s p fun _ => { P with sub := 0, subSince := s.time, fromSaved := false, attempts := P.attempts + 1 } := by
  unfold failAttempt
  rw [portAt_of port]
  dsimp only
  rw [if_neg (by omega), whole, if_pos (by simp)]
  exact modPort_congr _ _ port rfl

end

/-! ### Timeouts (R231, R232) -/

theorem retrainLimit_none {P : Port} (training : P.st ≠ .retrain ∧ P.st ≠ .recal) : retrainLimit P = none := by
  simp [retrainLimit, training]

theorem retrainLimit_some {P : Port} (again : P.st = .retrain ∨ P.st = .recal) : retrainLimit P = some (P.since + 200000000) := by
  simp [retrainLimit, again]

theorem trainingLimit_again (s : State) {P : Port} (again : P.st = .retrain ∨ P.st = .recal) : trainingLimit s P =
    some (P.subSince + if P.sub = 1 then 1000000 else if P.sub = 2 then 100000 else if P.fromSaved then 10000000 else 150000000) := by
  unfold trainingLimit
  obtain st | st := again <;> rw [st]

section
variable {s : State} {p : Nat} {P : Port} (up : running s = true) (port : s.pylon.ports[p]? = some P)
include up port

theorem exec_portTrainingTimeout_unlimited (never : trainingLimit s P = none) : exec (.portTrainingTimeout p) s = .next s := by
  show Host.Outcome.next _ = _
  simp only [portAt_of port, up, never]

theorem exec_portTrainingTimeout_trains {l : Nat} (limit : trainingLimit s P = some l) (whole : retrainLimit P = none) :
    exec (.portTrainingTimeout p) s = .next (failAttempt (advanceTo s l) p) := by
  show Host.Outcome.next _ = _
  simp only [portAt_of port, up, limit, whole]

theorem exec_portTrainingTimeout_retrains {l r : Nat} (limit : trainingLimit s P = some l) (whole : retrainLimit P = some r) :
    exec (.portTrainingTimeout p) s =
      .next (if r ≤ l then failPort (advanceTo s r) p reasonRetrain else failAttempt (advanceTo s l) p) := by
  show Host.Outcome.next _ = _
  simp only [portAt_of port, up, limit, whole]

/-- A training state that lasts too long is tried again, and the third failed attempt ends in FAILED. -/
theorem portTrainingTimeout_trains {l : Nat} (limit : trainingLimit s P = some l) (training : P.st ≠ .retrain ∧ P.st ≠ .recal) :
    (P.attempts < 2 → exec (.portTrainingTimeout p) s = .next (modPort (advanceTo s l) p fun _ =>
        { P with st := .equalise, since := max s.time l, attempts := P.attempts + 1 }))
    ∧ (2 ≤ P.attempts → exec (.portTrainingTimeout p) s = .next (failPort (modPort (advanceTo s l) p fun P =>
        { P with attempts := P.attempts + 1 }) p reasonAttempts)) := by
  have whole := retrainLimit_none training
  have later : (advanceTo s l).pylon.ports[p]? = some P := by rw [advanceTo_pylon, port]
  rw [exec_portTrainingTimeout_trains up port limit whole, ← advanceTo_time]
  exact ⟨fun few => congrArg _ (failAttempt_trains later few whole), fun third => congrArg _ (failAttempt_third later third)⟩

/-- The same for a sub-state of RETRAIN and RECAL, which as a whole end within 200 ms. -/
theorem portTrainingTimeout_retrains {l : Nat} (limit : trainingLimit s P = some l) (again : P.st = .retrain ∨ P.st = .recal) :
    (P.since + 200000000 ≤ l →
      exec (.portTrainingTimeout p) s = .next (failPort (advanceTo s (P.since + 200000000)) p reasonRetrain))
    ∧ (l < P.since + 200000000 → P.attempts < 2 → exec (.portTrainingTimeout p) s = .next (modPort (advanceTo s l) p fun _ =>
        { P with sub := 0, subSince := max s.time l, fromSaved := false, attempts := P.attempts + 1 }))
    ∧ (l < P.since + 200000000 → 2 ≤ P.attempts → exec (.portTrainingTimeout p) s =
        .next (failPort (modPort (advanceTo s l) p fun P => { P with attempts := P.attempts + 1 }) p reasonAttempts)) := by
  have whole := retrainLimit_some again
  have later : (advanceTo s l).pylon.ports[p]? = some P := by rw [advanceTo_pylon, port]
  rw [exec_portTrainingTimeout_retrains up port limit whole, ← advanceTo_time]
  refine ⟨fun late => by rw [if_pos late], fun within few => ?_, fun within third => ?_⟩
  · rw [if_neg (by omega), failAttempt_retrains later few whole]
  · rw [if_neg (by omega), failAttempt_third later third]

end

/-! ### The states in order (R231) -/

section
variable {s : State} {p : Nat} {P : Port} (port : s.pylon.ports[p]? = some P)
include port

theorem trainTo_trains (training : P.st ≠ .retrain ∧ P.st ≠ .recal) (st : PortState) (sub : Nat) :
    trainTo s p st sub = modPort s p fun P => { P with st, since := s.time } :=
  modPort_congr _ _ port (by simp [training])

variable (up : running s = true)
include up

theorem exec_portSignalDetect (st : P.st = .detect) : exec (.portSignalDetect p) s = .next (trainTo s p .equalise 0) :=
  congrArg _ (if_pos (by simp [up, portAt_of port, st]))

theorem exec_equaliseComplete (st : P.st = .equalise) : exec (.equaliseComplete p) s = .next (trainTo s p .align 1) :=
  congrArg _ (if_pos (by simp [up, portAt_of port, trains, st]))

theorem exec_alignComplete (st : P.st = .align) : exec (.alignComplete p) s = .next (sendConfig (trainTo s p .config 2) p) :=
  congrArg _ (if_pos (by simp [up, portAt_of port, trains, st]))

theorem exec_configResendTimer (st : P.st = .config) : exec (.configResendTimer p) s = .next (sendConfig s p) :=
  congrArg _ (if_pos (by simp [up, portAt_of port, trains, st]))

theorem exec_portBerCheck (st : P.st = .active) (b : Nat) : exec (.portBerCheck p b) s = .next (
    if 10000000 < b then logError (modPort s p fun P => { P with ber := b }) 0x0020 0 sevWarning srcPylon p 0xFF [p, b / 1000]
    else modPort s p fun P => { P with ber := b }) :=
  congrArg _ (if_pos (by simp [up, portAt_of port, st]))

end

/-! ### CONFIG (R231, R232, R234, R241) -/

theorem sendConfig_some {s : State} {id : Nat} (own : s.pylon.pkgId = some id) (p : Nat) :
    sendConfig s p = sendCtl s p (.config id p 1 256) := by
  unfold sendConfig
  rw [own]

theorem sendConfig_none {s : State} (unset : s.pylon.pkgId = none) (p : Nat) : sendConfig s p = s := by
  unfold sendConfig
  rw [unset]

/-- What frames take of a port's buffers depends on the frames that wait only. -/
theorem heldKib_sendCtl (s : State) (p q : Nat) (c : CtlFrame) (h : Nat) : heldKib (sendCtl s q c) p h = heldKib s p h := by
  unfold heldKib sendCtl modPort
  rw [map_modAt_of_keeps]
  exact fun _ => rfl

/-- A port in CONFIG becomes ACTIVE: sequence numbers and credit begin anew, and it belongs to its bonds and routes. -/
theorem activate_config {s : State} {p : Nat} {P : Port} (port : s.pylon.ports[p]? = some P) (st : P.st = .config) (calm : P.recal = none)
    (pkg far : Nat) {gs : List Nat} (grants : gs = (List.range 8).map fun h => 32 - heldKib s p h) :
    activate s p pkg far = modPort (dropArrivals s p) p fun _ =>
      { Port.fresh with
        st := .active, since := s.time, waiting := P.waiting, retrains := P.retrains, neighbour := some (pkg, far)
        inService := true, granted := gs, ctlOut := P.ctlOut ++ [(0, encodeCtl (.credit gs))]
        ber := P.ber, ackAt := s.time, discarded := P.discarded } := by
  subst grants
  have kept : (dropArrivals s p).pylon.ports[p]? = some P := port
  unfold activate
  simp only [portAt_of port, st, calm, Option.bind_none, beq_self_eq_true, Bool.true_or]
  rw [(portAt_mod _ kept).1, sendCtl_eq (portAt_mod _ kept).2, modPort_modPort]
  exact modPort_congr _ _ kept (by simp [calm, Port.fresh])

section
variable {s : State} {p id : Nat} {P : Port} (up : running s = true) (port : s.pylon.ports[p]? = some P) (st : P.st = .config)
  (own : s.pylon.pkgId = some id)
include up port st own

/-- A CONFIG at a port in CONFIG, by its version and package. -/
theorem exec_config (ack pkg far v kib : Nat) : exec (.config ⟨p, ack⟩ pkg far v kib) s = .next (
    if v ≠ 1 then failPort s p reasonVersion
    else if pkg = id then failPort (logError s 0x0022 0 sevWarning srcPylon p 0xFF [p, id]) p reasonDuplicate
    else activate (sendConfig s p) p pkg far) := by
  show Host.Outcome.next (arriveCtl _ _ _) = _
  simp [arriveCtl, arriveConfig, trains, up, portAt_of port, st, own]

theorem exec_config_activates (ack far kib : Nat) {pkg : Nat} (other : pkg ≠ id) (calm : P.recal = none) {gs : List Nat}
    (grants : gs = (List.range 8).map fun h => 32 - heldKib s p h) :
    exec (.config ⟨p, ack⟩ pkg far 1 kib) s = .next (modPort (dropArrivals s p) p fun P =>
      { Port.fresh with
        st := .active, since := s.time, waiting := P.waiting, retrains := P.retrains, neighbour := some (pkg, far)
        inService := true, granted := gs
        ctlOut := P.ctlOut ++ [(P.rxSeq, encodeCtl (.config id p 1 256))] ++ [(0, encodeCtl (.credit gs))]
        ber := P.ber, ackAt := s.time, discarded := P.discarded }) := by
  have kept : (dropArrivals s p).pylon.ports[p]? = some P := port
  have told := sendCtl_eq port (.config id p 1 256)
  have held : gs = (List.range 8).map fun h => 32 - heldKib (sendCtl s p (.config id p 1 256)) p h := by
    simp only [heldKib_sendCtl, grants]
  rw [exec_config up port st own, if_neg (by simp), if_neg other, sendConfig_some own,
    activate_config (P := { P with ctlOut := P.ctlOut ++ [(P.rxSeq, encodeCtl (.config id p 1 256))] })
      (told ▸ (portAt_mod _ port).2) st calm pkg far held]
  refine congrArg _ ((modPort_modPort (dropArrivals s p) p _ _).trans (modPort_congr _ _ kept rfl))

end

/-- Settles O20: each row by the port's state; the timeouts by the limits of the state, of its sub-state and of the whole. -/
theorem portTrainsToActive : Obligations.PortTrainsToActive := by
  unfold Obligations.PortTrainsToActive
  intro s p P up port
  refine ⟨fun st => ?detect, fun st => ⟨?equalised, portTrainingTimeout_trains up port (by rw [trainingLimit, st]) (by simp [st])⟩,
    fun st => ?align, fun id st own => ⟨?resend, fun ack pkg far kib gs other calm grants => ?partner, fun ack far kib => ?duplicate,
      fun ack pkg far v kib version => ?version⟩, fun l limit => ?limited, fun st unset => ?unlimited,
    fun l again limit => portTrainingTimeout_retrains up port (limit ▸ trainingLimit_again s again) again, fun st => ?errors⟩
  case detect => rw [exec_portSignalDetect port up st, trainTo_trains port (by simp [st])]
  case equalised => rw [exec_equaliseComplete port up st, trainTo_trains port (by simp [st])]
  case align =>
    rw [exec_alignComplete port up st, trainTo_trains port (by simp [st])]
    refine ⟨fun unset => congrArg _ (sendConfig_none (s := modPort s p _) unset p), fun id own => ?_⟩
    rw [sendConfig_some (s := modPort s p _) own, sendCtl, modPort_modPort]
    rfl
  case resend => rw [exec_configResendTimer port up st, sendConfig_some own, sendCtl]
  case partner => exact exec_config_activates up port st own ack far kib other calm grants
  case duplicate => rw [exec_config up port st own, if_neg (by simp), if_pos rfl]
  case version => rw [exec_config up port st own, if_pos version]
  case limited =>
    obtain ⟨st, rfl⟩ | ⟨st, own, rfl⟩ := limit
    · exact portTrainingTimeout_trains up port (by rw [trainingLimit, st]) (by simp [st])
    · exact portTrainingTimeout_trains up port (by rw [trainingLimit, st]; exact if_pos own) (by simp [st])
  case unlimited =>
    refine exec_portTrainingTimeout_unlimited up port ?_
    rw [trainingLimit, st, unset]
    rfl
  case errors =>
    exact ⟨fun b few => by rw [exec_portBerCheck port up st, if_neg (by omega)],
      fun b many => by rw [exec_portBerCheck port up st, if_pos many]⟩

end Sys2Proof.Machine

/-! SUPPORT. The package ID and the routing tables (09 R241 to R243). -/

namespace Sys2Proof.Machine

/-! ### Ports that waited for the package ID (R241) -/

/-- A port in CONFIG begins its time there anew and sends CONFIG, now that the package has an ID. -/
def configWaits (s : State) (p : Nat) : State :=
  if (portAt s p).st == .config then sendConfig (modPort s p fun P => { P with since := s.time }) p else s

/-- What that makes of a port. -/
def toldConfig (now id p : Nat) (P : Port) : Port :=
  if P.st = .config then { P with since := now, ctlOut := P.ctlOut ++ [(P.rxSeq, encodeCtl (.config id p 1 256))] } else P

theorem configWaits_eq {s : State} {id : Nat} (own : s.pylon.pkgId = some id) (p : Nat) :
    configWaits s p = modPort s p (toldConfig s.time id p) := by
  unfold configWaits
  cases port : s.pylon.ports[p]? with
  | none =>
    have same : modPort s p (toldConfig s.time id p) = s := by
      unfold modPort
      rw [modAt_fix _ _ _ (by simp [port])]
    rw [same, portAt, List.getD_eq_getElem?_getD, port]
    rfl
  | some P =>
    rw [portAt_of port]
    split
    · next st =>
      rw [sendConfig_some (s := modPort s p _) own, sendCtl, modPort_modPort]
      exact modPort_congr _ _ port (if_pos (by simpa using st)).symm
    · next st => exact (modPort_id (toldConfig s.time id p) port (if_neg (by simpa using st))).symm

theorem configWaits_foldl {id : Nat} (ps : List Nat) {s : State} (own : s.pylon.pkgId = some id) :
    ps.foldl configWaits s = { s with
      pylon := { s.pylon with ports := ps.foldl (fun l p => modAt l p (toldConfig s.time id p)) s.pylon.ports } } := by
  induction ps generalizing s with
  | nil => rfl
  | cons p ps ih =>
    rw [List.foldl_cons, configWaits_eq own, ih (s := modPort s p _) own]
    rfl

theorem configWaits_onlyPorts {id : Nat} (ps : List Nat) {s : State} (own : s.pylon.pkgId = some id) :
    ps.foldl configWaits s = { s with pylon := { s.pylon with ports := (ps.foldl configWaits s).pylon.ports } } := by
  rw [configWaits_foldl ps own]

theorem getElem?_foldl_modAt {α : Type} (f : Nat → α → α) {is : List Nat} (once : is.Nodup) (l : List α) (k : Nat) :
    (is.foldl (fun l i => modAt l i (f i)) l)[k]? = if k ∈ is then (l[k]?).map (f k) else l[k]? := by
  induction is generalizing l with
  | nil => simp
  | cons i is ih =>
    obtain ⟨absent, once⟩ := List.nodup_cons.1 once
    rw [List.foldl_cons, ih once, getElem?_modAt]
    by_cases same : i = k
    · subst same
      simp [absent]
    · simp [same, Ne.symm same]

theorem portAt_configWaits {id : Nat} {s : State} (own : s.pylon.pkgId = some id) {k : Nat} (small : k < 64) {P : Port}
    (port : s.pylon.ports[k]? = some P) : portAt ((List.range 64).foldl configWaits s) k = toldConfig s.time id k P := by
  rw [configWaits_foldl _ own]
  refine portAt_of ?_
  rw [getElem?_foldl_modAt _ List.nodup_range, if_pos (by simpa using small), port]
  rfl

/-! ### The routing tables (R242, R243) -/

/-- Entries written one after another from a key on: each of them, and elsewhere what stood before. -/
theorem assoc_foldl_setAssoc {α : Type} (f : Nat → α) (a k i : Nat) (l : List (Nat × α)) :
    assoc ((List.range k).foldl (fun l j => setAssoc l (a + j) (f j)) l) i =
      if a ≤ i ∧ i < a + k then some (f (i - a)) else assoc l i := by
  induction k with
  | zero => rw [if_neg (by omega)]; rfl
  | succ k ih =>
    rw [List.range_succ, List.foldl_append, List.foldl_cons, List.foldl_nil]
    by_cases last : i = a + k
    · subst last
      rw [assoc_setAssoc_same, if_pos (by omega), Nat.add_sub_cancel_left]
    · rw [assoc_setAssoc_ne _ last, ih]
      exact if_congr (by omega) rfl rfl

/-! ### The rows -/

section
variable {s : State} {q seq : Nat} {c : Taken}

/-- PKG_ID_SET has started and set the package ID. -/
def identified (s : State) (q seq : Nat) (c : Taken) : State :=
  { start s q seq with pylon := { s.pylon with pkgId := some (c.param 0) } }

theorem exec_pkgIdSet (taken : ready s q seq 0x0141 = some c) : exec (.pkgIdSet q seq) s = .next (
    if s.pylon.committed then finish (start s q seq) q seq stNotPermitted []
    else if 4096 ≤ c.param 0 then finish (start s q seq) q seq stBadParam []
    else finish ((List.range 64).foldl configWaits (identified s q seq c)) q seq stOk []) :=
  onCmd_runs taken rfl

theorem exec_routeLoad (taken : ready s q seq 0x0142 = some c) {k : Nat} (size : c.payload.length = 16 * k) (small : k ≤ 256)
    (inside : c.param 0 + k ≤ 4096) : exec (.routeLoad q seq) s = .next (finish
      { start s q seq with pylon := { s.pylon with
          shadow := (List.range k).foldl (fun l j => setAssoc l (c.param 0 + j) (decodeRoute (slice c.payload (16 * j) 16)))
            s.pylon.shadow } } q seq stOk []) := by
  refine onCmd_runs taken ?_
  have entries : 16 * k / 16 = k := by omega
  dsimp only
  rw [size, entries, if_neg (by omega)]
  rfl

theorem exec_routeCommit (taken : ready s q seq 0x0143 = some c) : exec (.routeCommit q seq) s = .next (
    if shadowOk s then
      finish { start s q seq with pylon := { s.pylon with routes := s.pylon.shadow, committed := true } } q seq stOk []
    else finish (start s q seq) q seq stBadParam []) :=
  onCmd_runs taken rfl

end

/-- Settles O22: each command by its checks; PKG_ID_SET tells every port in CONFIG once, and ROUTE_LOAD writes its entries one by one. -/
theorem packageIdAndRoutes : Obligations.PackageIdAndRoutes := by
  unfold Obligations.PackageIdAndRoutes
  intro s q seq c
  refine ⟨fun taken => ?pkgId, fun k i taken size small inside => ?load, fun taken ok => ?commit, fun taken bad => ?refused⟩
  case pkgId =>
    rw [exec_pkgIdSet taken]
    refine ⟨fun committed => by rw [if_pos committed], fun unrouted large => ?_, fun unrouted small => ?_⟩
    · rw [unrouted, if_neg (by decide), if_pos large]
    · rw [unrouted, if_neg (by decide), if_neg (by omega)]
      exact ⟨_, rfl, configWaits_onlyPorts (s := identified s q seq c) (List.range 64) rfl,
        fun k P port hk => portAt_configWaits (s := identified s q seq c) rfl hk port⟩
  case load => exact ⟨_, exec_routeLoad taken size small inside, assoc_foldl_setAssoc _ _ k i _, rfl⟩
  case commit => rw [exec_routeCommit taken, if_pos ok]
  case refused => rw [exec_routeCommit taken, bad, if_neg (by decide)]

end Sys2Proof.Machine

/-! SUPPORT. PORT_CTL, and recalibration with the partner (09 R245 to R247). -/

namespace Sys2Proof.Machine

/-! ### A port that goes off, or stops giving frames (R231, R245, R246) -/

theorem endPortCommands_none (s : State) {P : Port} (calm : P.recal = none) (idle : P.disabling = []) : endPortCommands s P = s := by
  simp [endPortCommands, calm, idle]

theorem endPortCommands_one (s : State) {P : Port} (calm : P.recal = none) {c : Nat × Nat} (one : P.disabling = [c]) :
    endPortCommands s P = finish s c.1 c.2 stOk [] := by
  simp [endPortCommands, calm, one]

section
variable {s : State} {p : Nat} {P : Port} (port : s.pylon.ports[p]? = some P)
include port

theorem switchOff_eq : switchOff s p =
    failBonds (moveFrames (endPortCommands (modPort s p fun P => offPort P .disabled s.time) P) p (framesOf P)) p := by
  unfold switchOff
  rw [portAt_of port]

theorem settleDisable_drained {c : Nat × Nat} (waits : P.disabling = [c]) (drained : P.retry = []) : settleDisable s p = switchOff s p := by
  simp [settleDisable, portAt_of port, waits, drained]

theorem withhold_nil (none_waits : P.waiting = []) : withhold s p = modPort s p fun P => { P with inService := false } := by
  unfold withhold
  rw [portAt_of port, none_waits]
  exact modPort_congr _ _ port (by simp [none_waits])

theorem switchOff_drained {c : Nat × Nat} (none_held : P.retry = []) (none_waits : P.waiting = []) (calm : P.recal = none)
    (waits : P.disabling = [c]) :
    switchOff s p = failBonds (finish (modPort s p fun P => offPort P .disabled s.time) c.1 c.2 stOk []) p := by
  rw [switchOff_eq port, endPortCommands_one _ calm waits, framesOf, none_held, none_waits]
  rfl

theorem withhold_disable (none_waits : P.waiting = []) (idle : P.disabling = []) (c : Nat × Nat) :
    withhold (modPort s p fun P => { P with disabling := P.disabling ++ [c] }) p =
      modPort s p fun _ => { P with inService := false, disabling := [c] } := by
  rw [withhold_nil (portAt_mod _ port).2 none_waits, modPort_modPort]
  exact modPort_congr _ _ port (by simp [idle])

/-- A disable of a port that holds no frame takes effect at once. -/
theorem settleDisable_disable (none_held : P.retry = []) (none_waits : P.waiting = []) (calm : P.recal = none) (c : Nat × Nat) :
    settleDisable (modPort s p fun _ => { P with inService := false, disabling := [c] }) p =
      failBonds (finish (modPort s p fun _ => offPort P .disabled s.time) c.1 c.2 stOk []) p := by
  have asked := (portAt_mod (fun _ => { P with inService := false, disabling := [c] }) port).2
  rw [settleDisable_drained asked rfl none_held, switchOff_drained asked none_held none_waits calm rfl, modPort_modPort]
  rfl

end

/-! ### The rows of PORT_CTL (R245 to R247) -/

/-- A row of PORT_CTL whose command may start and names a port and the row's action. -/
theorem portCtl_runs {s t : State} {q seq action : Nat} {c : Taken} (taken : ready s q seq 0x0140 = some c) (small : c.param 0 < 64)
    (named : c.param 1 = action) (few : action < 3) {f : State → Taken → Nat → State} (run : f (start s q seq) c (c.param 0) = t) :
    (Host.Outcome.next (portCtl s q seq action f) : Host.Outcome State Fault Refusal) = .next t := by
  refine onCmd_runs taken ?_
  rw [if_neg (by omega), if_pos named, run]

section
variable {s : State} {q seq : Nat} {c : Taken} {P : Port} (taken : ready s q seq 0x0140 = some c) (small : c.param 0 < 64)
  (port : s.pylon.ports[c.param 0]? = some P)
include taken small port

theorem exec_portDisable (notLast : lastPort s (c.param 0) = false) (idle : P.disabling = []) (named : c.param 1 = 0) :
    exec (.portDisable q seq) s = .next (
      if P.st == .active then
        settleDisable (withhold (modPort (start s q seq) (c.param 0) fun P => { P with disabling := P.disabling ++ [(q, seq)] })
          (c.param 0)) (c.param 0)
      else finish (switchOff (start s q seq) (c.param 0)) q seq stOk []) := by
  have last : lastPort (start s q seq) (c.param 0) = false := notLast
  refine portCtl_runs taken small named (by decide) ?_
  simp [portAt_of (s := start s q seq) port, idle, last]

theorem exec_portEnable (named : c.param 1 = 1) (off : P.st = .disabled ∨ P.st = .failed) : exec (.portEnable q seq) s = .next (
    if (dieAt s (0x20 + portTile (c.param 0))).released = true then
      finish (modPort (start s q seq) (c.param 0) fun P => { P with st := .detect, since := s.time, attempts := 0 }) q seq stOk []
    else start s q seq) := by
  refine portCtl_runs taken small named (by decide) ?_
  rw [portAt_of (s := start s q seq) port, if_pos (by simpa using off)]
  rfl

/-- What a request of this end notes on its port. -/
def ownRequest (c : Nat × Nat) (now : Nat) (P : Port) : Port :=
  { P with recal := some { cmd := some c, acked := false, since := now, neighbour := P.neighbour, inBonds := P.inService } }

theorem exec_portRecalibrate (notLast : lastPort s (c.param 0) = false) (named : c.param 1 = 2) (on : P.st = .active) (calm : P.recal = none) :
    exec (.portRecalibrate q seq) s = .next (sendCtl
      (withhold (modPort (start s q seq) (c.param 0) (ownRequest (q, seq) s.time)) (c.param 0)) (c.param 0) (.recalReq (c.param 0))) := by
  have port' : (start s q seq).pylon.ports[c.param 0]? = some P := port
  have last : lastPort (start s q seq) (c.param 0) = false := notLast
  refine portCtl_runs taken small named (by decide) ?_
  simp only [portAt_of (s := start s q seq) port, last, on, calm, Option.any_none, Bool.false_eq_true, if_false, bne_self_eq_false]
  rw [modPort_congr (ownRequest (q, seq) s.time) (fun Q => { Q with recal := (ownRequest (q, seq) s.time P).recal }) port' rfl]
  rfl

theorem exec_portRecalibrate_joins (notLast : lastPort s (c.param 0) = false) (named : c.param 1 = 2) (on : P.st = .active) {r : RecalRun}
    (asked : P.recal = some r) (theirs : r.cmd = none) : exec (.portRecalibrate q seq) s = .next
      (modPort (start s q seq) (c.param 0) fun P => { P with recal := some { r with cmd := some (q, seq) } }) := by
  have last : lastPort (start s q seq) (c.param 0) = false := notLast
  refine portCtl_runs taken small named (by decide) ?_
  simp [portAt_of (s := start s q seq) port, last, on, asked, theirs]

end

/-! ### The request of the partner (R246) -/

theorem arriveRecalReq_calm {s : State} {p : Nat} {P : Port} (port : s.pylon.ports[p]? = some P) (calm : P.recal = none)
    (none_waits : P.waiting = []) : arriveRecalReq s p = modPort s p fun P =>
      { P with
        recal := some { cmd := none, acked := true, since := s.time, neighbour := P.neighbour, inBonds := P.inService }
        inService := false, ctlOut := P.ctlOut ++ [(P.rxSeq, encodeCtl (.recalAck p))] } := by
  unfold arriveRecalReq
  rw [portAt_of port, calm]
  dsimp only
  rw [withhold_nil (portAt_mod _ port).2 none_waits, sendCtl, modPort_modPort, modPort_modPort]
  exact modPort_congr _ _ port rfl

/-! ### The rows of recalibration (R246, R247) -/

section
variable {s : State} {p : Nat} {P : Port} {r : RecalRun} (up : running s = true) (port : s.pylon.ports[p]? = some P)
  (on : P.st = .active) (asked : P.recal = some r)
include up port on asked

theorem exec_recalEnter (answered : r.acked = true) (drained : P.retry = []) (calm : P.activity = none) : exec (.recalEnter p) s =
    .next (failBonds (modPort s p fun P =>
      { P with st := .recal, since := s.time, sub := 0, subSince := s.time, fromSaved := true, inService := false }) p) := by
  have drains : (running s && P.st == .active && P.recal.any (·.acked) && P.retry.isEmpty && P.activity.isNone) = true := by
    simp [up, on, asked, answered, drained, calm]
  show Host.Outcome.next _ = _
  rw [portAt_of port, if_pos drains]

theorem exec_recalReqResendTimer {c : Nat × Nat} (ours : r.cmd = some c) (waits : r.acked = false) :
    exec (.recalReqResendTimer p) s = .next (sendCtl s p (.recalReq p)) :=
  congrArg _ (if_pos (by simp [up, portAt_of port, on, asked, ours, waits]))

theorem exec_recalAckTimeout {c : Nat × Nat} (ours : r.cmd = some c) (waits : r.acked = false) : exec (.recalAckTimeout p) s =
    .next (finish (modPort (advanceTo s (r.since + 1000000)) p fun P => { P with recal := none, inService := r.inBonds })
      c.1 c.2 stTimeout []) := by
  show Host.Outcome.next _ = _
  simp [up, portAt_of port, on, asked, ours, waits]

end

/-- Settles O21: each action of PORT_CTL on the state in which the command has started, then the rows between the two ends. -/
theorem portControlAndRecalibration : Obligations.PortControlAndRecalibration := by
  unfold Obligations.PortControlAndRecalibration
  refine ⟨fun s q seq c P taken small port notLast idle => ?control, fun s p a P on none_acked none_waits calm idle => ?partner⟩
  case control =>
    have port' : (start s q seq).pylon.ports[c.param 0]? = some P := port
    refine ⟨fun named off calm => ?off, fun named on none_held none_waits calm => ?on,
      fun named off => exec_portEnable taken small port named off,
      fun named on calm none_waits => ?asks,
      fun r named on asked theirs => exec_portRecalibrate_joins taken small port notLast named on asked theirs⟩
    case off =>
      rw [exec_portDisable taken small port notLast idle named, if_neg (by simpa using off), switchOff_eq port',
        endPortCommands_none _ calm idle]
      rfl
    case on =>
      rw [exec_portDisable taken small port notLast idle named, if_pos (by simpa using on),
        withhold_disable port' none_waits idle, settleDisable_disable port' none_held none_waits calm]
      have gone := (portAt_mod (fun _ => offPort P .disabled s.time) port').1
      exact ⟨_, rfl, congrArg Port.st gone, congrArg Port.inService gone, rfl, fun k other => portAt_modPort_ne _ other _⟩
    case asks =>
      rw [exec_portRecalibrate taken small port notLast named on calm, withhold_nil (portAt_mod _ port').2 none_waits, sendCtl,
        modPort_modPort, modPort_modPort]
      exact congrArg _ (modPort_congr _ _ port' rfl)
  case partner =>
    obtain ⟨up, port, on⟩ := on
    have active : (portAt s p).st = .active := by rw [portAt_of port, on]
    have quiet : applyAck s p a = s := ack_nil port a none_acked none_waits (by simp [activityOver, calm]) idle
    refine ⟨fun alone => ?request, fun r asked => ⟨?answer, fun answered drained => exec_recalEnter up port on asked answered drained calm,
      fun c ours waits => ⟨exec_recalReqResendTimer up port on asked ours waits, exec_recalAckTimeout up port on asked ours waits⟩⟩⟩
    case request => exact congrArg _ ((arriveCtl_recalReq up active quiet active p).trans (arriveRecalReq_calm port alone none_waits))
    case answer =>
      refine congrArg _ ((arriveCtl_recalAck up active quiet active p).trans (modPort_congr _ _ port ?_))
      rw [asked]
      rfl

end Sys2Proof.Machine

/-! SUPPORT. Frames at a port that is ACTIVE: accepted by lseq, sent as grants allow, sent again (09 R233 to R237, R242). -/

namespace Sys2Proof.Machine

/-! ### A frame that is accepted (R235, R242) -/

/-- The frame in order has been counted and its lseq passed. -/
def accepted (s : State) (p : Nat) (f : PylonFrame) : State :=
  count (count (modPort s p fun P => { P with rxSeq := add32 P.rxSeq 1, nakSent := false }) 4 p 1 1) 4 p 3 (frameBytes f)

theorem arriveFrame_inOrder {s : State} {p : Nat} {f : PylonFrame} (routed : f.klass ≠ 3) (quiet : applyAck s p f.ack = s)
    (next : f.lseq = (portAt s p).rxSeq) : arriveFrame s p f = forward (accepted s p f) p f := by
  unfold arriveFrame
  rw [if_neg routed, quiet, if_pos next]
  rfl

section
variable {s : State} {f : PylonFrame} (sound : classOk f = true)
include sound

theorem forward_here (here : s.pylon.pkgId = some f.dst) (p : Nat) : forward s p f = regrant (deliverFrame s p f) p f.hops (frameKib f) := by
  simp [forward, sound, here]

theorem forward_on (away : s.pylon.pkgId ≠ some f.dst) (few : f.hops < 7) (p : Nat) :
    forward s p f = sendRouted s (some p, { f with hops := f.hops + 1 }) := by
  simp [forward, sound, away, few]

theorem forward_stops (away : s.pylon.pkgId ≠ some f.dst) (many : 7 ≤ f.hops) (p : Nat) :
    forward s p f = regrant (discardFrame s (some p) f.dst) p f.hops (frameKib f) := by
  simp [forward, sound, away, many]

end

/-- A notice, a Span frame or a Stay frame of a type that its class defines (R177, R224, R234). -/
def KnownType (f : PylonFrame) : Prop :=
  f.klass = 4 ∧ 0x10 ≤ field f.payload 0 1 ∧ field f.payload 0 1 ≤ 0x11
    ∨ f.klass = 1 ∧ 1 ≤ field f.payload 0 1 ∧ field f.payload 0 1 ≤ 7
    ∨ f.klass = 2 ∧ 0x11 ≤ field f.payload 0 1 ∧ field f.payload 0 1 ≤ 0x17

/-- A frame of such a type waits in the inbox for its engine. -/
theorem deliverFrame_known (s : State) (p : Nat) {f : PylonFrame} (known : KnownType f) :
    deliverFrame s p f = { s with pylon := { s.pylon with inbox := s.pylon.inbox ++ [f] } } := by
  refine if_pos ?_
  obtain ⟨k, l, h⟩ | ⟨k, l, h⟩ | ⟨k, l, h⟩ := known <;> simp [k, between, l, h]

theorem regrant_active {s : State} {p : Nat} {P : Port} (port : s.pylon.ports[p]? = some P) (on : P.st = .active) (hops kib : Nat)
    {g : List Nat} (grants : g = modAt P.granted hops fun k => (k + kib) % 65536) : regrant s p hops kib =
      modPort s p fun P => { P with granted := g, ctlOut := P.ctlOut ++ [(P.rxSeq, encodeCtl (.credit g))] } := by
  subst grants
  have told := portAt_mod (fun P => { P with granted := modAt P.granted hops fun k => (k + kib) % 65536 }) port
  unfold regrant
  dsimp only
  rw [told.1, if_pos (by simpa using on), sendCtl_eq told.2, modPort_modPort]
  exact modPort_congr _ _ port rfl

/-- A frame for this package goes to its inbox, and its hop class's grant grows. -/
theorem forward_accepted {s : State} {p : Nat} {P : Port} {f : PylonFrame} (port : s.pylon.ports[p]? = some P) (on : P.st = .active)
    (sound : classOk f = true) (here : s.pylon.pkgId = some f.dst) (known : KnownType f) {g : List Nat}
    (grants : g = modAt P.granted f.hops fun k => (k + frameKib f) % 65536) : forward (accepted s p f) p f =
      { s with
        pylon := { s.pylon with
          inbox := s.pylon.inbox ++ [f]
          ports := modAt s.pylon.ports p fun P =>
            { P with
              rxSeq := add32 P.rxSeq 1, nakSent := false, granted := g
              ctlOut := P.ctlOut ++ [(add32 P.rxSeq 1, encodeCtl (.credit g))] } }
        counters := (accepted s p f).counters } := by
  have taken : (deliverFrame (accepted s p f) p f).pylon.ports[p]? = some { P with rxSeq := add32 P.rxSeq 1, nakSent := false } := by
    rw [deliverFrame_known _ p known]
    exact (portAt_mod _ port).2
  rw [forward_here (s := accepted s p f) sound here, regrant_active taken on f.hops (frameKib f) grants, deliverFrame_known _ p known]
  simp only [modPort, accepted, count, modAt_modAt]
  rfl

/-! ### Sending (R235) -/

/-- Of a port only what it grants, and the link control frames that say so, have changed. -/
def Granting (P Q : Port) : Prop := ∃ g c, Q = { P with granted := g, ctlOut := c }

theorem Granting.refl (P : Port) : Granting P P := ⟨P.granted, P.ctlOut, rfl⟩

theorem regrant_port {s : State} {p : Nat} {P : Port} (port : s.pylon.ports[p]? = some P) (i hops kib : Nat) :
    ∃ Q, (regrant s i hops kib).pylon.ports[p]? = some Q ∧ Granting P Q := by
  unfold regrant
  by_cases same : i = p
  · subst same
    have told := (portAt_mod (fun P => { P with granted := modAt P.granted hops fun g => (g + kib) % 65536 }) port).2
    dsimp only
    split
    · exact ⟨_, (portAt_mod _ told).2, _, _, rfl⟩
    · exact ⟨_, told, _, P.ctlOut, rfl⟩
  · refine ⟨P, ?_, .refl P⟩
    dsimp only
    split
    · simp only [sendCtl, modPort, getElem?_modAt, if_neg same, port]
    · simp only [modPort, getElem?_modAt, if_neg same, port]

theorem leaveBuffer_port {s : State} {p : Nat} {P : Port} (port : s.pylon.ports[p]? = some P) (x : Option Nat × PylonFrame) :
    ∃ Q, (leaveBuffer s x).pylon.ports[p]? = some Q ∧ Granting P Q := by
  unfold leaveBuffer
  split
  · exact regrant_port port ..
  · exact ⟨P, port, .refl P⟩

/-- What sending a frame makes of its port, before the space that the frame took is free. -/
def sent (now : Nat) (f : PylonFrame) (P : Port) : Port :=
  { P with
    retry := P.retry ++ [{ frame := { f with lseq := P.txSeq, ack := P.rxSeq }, sends := 1 }]
    txSeq := add32 P.txSeq 1
    used := modAt P.used f.hops fun u => (u + frameKib f) % 65536
    ackAt := if P.retry.isEmpty then now else P.ackAt }

theorem transmit_port {s : State} {p : Nat} {P : Port} (port : s.pylon.ports[p]? = some P) (x : Option Nat × PylonFrame) :
    ∃ Q, (transmit s p x).pylon.ports[p]? = some Q ∧ Granting (sent s.time x.2 P) Q :=
  leaveBuffer_port (s := count (count (modPort s p (sent s.time x.2)) 4 p 0 1) 4 p 2 (frameBytes x.2)) (portAt_mod _ port).2 x

section
variable {s : State} {p : Nat} {P : Port} {x : Option Nat × PylonFrame} (port : s.pylon.ports[p]? = some P) (on : P.st = .active)
  (waits : P.waiting = [x])
include port on waits

/-- The frame that waits goes out where credit and the retry buffer allow it. -/
theorem pumpPort_sends (credit : hasCredit P x.2 = true) (room : retryRoom P x.2 = true) :
    ∃ Q, (pumpPort s p).pylon.ports[p]? = some { Q with waiting := [] } ∧ Granting (sent s.time x.2 P) Q := by
  obtain ⟨Q, there, granting⟩ := transmit_port port x
  refine ⟨Q, ?_, granting⟩
  have one : pumpOne p (s, []) x = (transmit s p x, []) := by simp [pumpOne, portAt_of port, credit, room]
  unfold pumpPort
  simp only [portAt_of port, on, waits, beq_self_eq_true, if_true, List.foldl_cons, List.foldl_nil, one]
  exact (portAt_mod _ there).2

theorem pumpPort_holds (credit : hasCredit P x.2 = false) : pumpPort s p = s := by
  have one : pumpOne p (s, []) x = (s, [x]) := by simp [pumpOne, portAt_of port, credit]
  unfold pumpPort
  simp only [portAt_of port, on, waits, beq_self_eq_true, if_true, List.foldl_cons, List.foldl_nil, one]
  exact modPort_id _ port (by rw [← waits])

end

theorem applyAck_none {s : State} {p : Nat} {P : Port} (port : s.pylon.ports[p]? = some P) {a : Nat} (none_acked : P.retry.any (acked a) = false)
    (unended : activityOver P = false) : applyAck s p a = settleDisable (pumpPort s p) p := by
  have kept : P.retry.filter (fun t => !acked a t) = P.retry :=
    List.filter_eq_self.2 fun t h => by simpa using List.any_eq_false.1 none_acked t h
  unfold applyAck
  simp only [portAt_of port, none_acked, Bool.false_eq_true, if_false]
  rw [modPort_id _ port (by rw [kept]), portAt_of port, unended, if_neg (by simp)]

/-- Grants that cover the frame which waits let it out, if those before did not. -/
theorem arriveCtl_credit_sends {s : State} {p : Nat} {P : Port} (on : PortOn s p P) {a : Nat} {x : Option Nat × PylonFrame} {gs : List Nat}
    (none_acked : P.retry.any (acked a) = false) (calm : P.activity = none) (idle : P.disabling = []) (waits : P.waiting = [x])
    (credit : hasCredit { P with credit := gs } x.2 = true) (room : retryRoom P x.2 = true) :
    ∃ t, arriveCtl s ⟨p, a⟩ (.credit gs) = t ∧ (portAt t p).credit = gs ∧ (portAt t p).waiting = []
      ∧ (portAt t p).retry = P.retry ++ [{ frame := { x.2 with lseq := P.txSeq, ack := P.rxSeq }, sends := 1 }] := by
  obtain ⟨up, port, on⟩ := on
  have active : (portAt s p).st = .active := by rw [portAt_of port, on]
  have ack := applyAck_none port none_acked (by simp [activityOver, calm])
  cases before : hasCredit P x.2 with
  | true =>
    obtain ⟨Q, gone, g, c, rfl⟩ := pumpPort_sends port on waits before room
    rw [settleDisable_idle gone idle] at ack
    have told := portAt_mod (fun P => { P with credit := gs }) gone
    refine ⟨_, arriveCtl_credit up active ack (by rw [portAt_of gone]; exact on) gs, ?_⟩
    rw [pump_nil told.2 rfl, told.1]
    exact ⟨rfl, rfl, rfl⟩
  | false =>
    rw [pumpPort_holds port on waits before, settleDisable_idle port idle] at ack
    obtain ⟨Q, gone, g, c, rfl⟩ := pumpPort_sends (portAt_mod (fun P => { P with credit := gs }) port).2 on waits credit room
    refine ⟨_, arriveCtl_credit up active ack active gs, ?_⟩
    rw [portAt_of gone]
    exact ⟨rfl, rfl, rfl⟩

/-! ### Sending again (R235, R236) -/

section
variable {s : State} {p : Nat} {P : Port} (port : s.pylon.ports[p]? = some P)
include port

theorem beginActivity_told {x : TxFrame} {a : Nat × Nat} (last : P.retry.getLast? = some x) (begun : P.activity = some a)
    (told : ∀ y ∈ P.retry, y.frame.src ∈ P.holdTo) :
    beginActivity s p = modPort s p fun P => { P with activity := some (a.1, x.frame.lseq) } := by
  have known : ((P.retry.map fun t => t.frame.src).eraseDups).filter (fun k => !P.holdTo.contains k) = [] := by
    refine List.filter_eq_nil_iff.2 fun k h => ?_
    obtain ⟨y, hy, rfl⟩ := List.mem_map.1 (List.mem_eraseDups.1 h)
    simpa using told y hy
  unfold beginActivity
  simp only [portAt_of port, last, known, List.foldl_nil]
  exact modPort_congr _ _ port (by simp [begun])

theorem replay_again (few : P.retry.all (·.sends < 8) = true) : replay s p = count (modPort s p fun P =>
    { P with retry := P.retry.map fun x => { x with sends := x.sends + 1, frame := { x.frame with ack := P.rxSeq } }, ackAt := s.time })
      4 p 9 P.retry.length := by
  unfold replay
  rw [portAt_of port, if_neg]
  simpa using few

/-- Retry activity goes on: every unacknowledged frame is sent again, with no further notice. -/
theorem replay_goesOn {x : TxFrame} {a : Nat × Nat} (last : P.retry.getLast? = some x) (begun : P.activity = some a)
    (told : ∀ y ∈ P.retry, y.frame.src ∈ P.holdTo) (few : P.retry.all (·.sends < 8) = true) :
    ∃ t, replay (beginActivity s p) p = t
      ∧ portAt t p = { P with
          retry := P.retry.map fun x => { x with sends := x.sends + 1, frame := { x.frame with ack := P.rxSeq } }
          activity := some (a.1, x.frame.lseq), ackAt := s.time }
      ∧ t = { s with pylon := t.pylon, counters := t.counters } := by
  have active := (portAt_mod (fun P => { P with activity := some (a.1, x.frame.lseq) }) port).2
  rw [beginActivity_told port last begun told, replay_again active few]
  exact ⟨_, rfl, (portAt_mod (s := modPort s p _) _ active).1, rfl⟩

end

theorem arriveNak_replays {s : State} {p lseq : Nat} {P : Port} (port : s.pylon.ports[p]? = some P)
    (none_acked : P.retry.any (acked lseq) = false) (none_waits : P.waiting = [])
    (unended : activityOver P = false) (idle : P.disabling = []) (held : P.retry ≠ []) :
    arriveNak s p lseq = replay (beginActivity (count s 4 p 8 1) p) p := by
  unfold arriveNak
  rw [ack_nil (s := count s 4 p 8 1) port lseq none_acked none_waits unended idle]
  exact if_neg (by simp [portAt_of (s := count s 4 p 8 1) port, held])

/-! ### The rows -/

section
variable {s : State} {p : Nat} {P : Port} (up : running s = true) (port : s.pylon.ports[p]? = some P) (on : P.st = .active)
include up port on

theorem exec_frameForward {bytes : List Byte} {f : PylonFrame} (spelt : decodeFrame bytes = some f) :
    exec (.frameForward p ⟨bytes, true⟩) s = .next (arriveFrame s p f) := by
  show Host.Outcome.next _ = _
  simp [up, portAt_of port, on, spelt]

theorem exec_frameForward_damaged {bytes : List Byte} {good : Bool} (damaged : decodeFrame bytes = none ∨ good = false) :
    ∃ k, exec (.frameForward p ⟨bytes, good⟩) s = .next (sendNak (count s 4 p k 1) p) := by
  cases good with
  | false =>
    refine ⟨5, ?_⟩
    show Host.Outcome.next _ = _
    cases decodeFrame bytes <;> simp [up, portAt_of port, on]
  | true =>
    refine ⟨6, ?_⟩
    show Host.Outcome.next _ = _
    simp [up, portAt_of port, on, damaged.resolve_right (by decide)]

theorem exec_linkCreditTimer : exec (.linkCreditTimer p) s = .next (sendCtl s p (.credit P.granted)) := by
  show Host.Outcome.next _ = _
  simp [up, portAt_of port, on]

theorem exec_portReplayTimeout (held : P.retry ≠ []) :
    exec (.portReplayTimeout p) s = .next (replay (beginActivity (advanceTo s (P.ackAt + 2000)) p) p) := by
  show Host.Outcome.next _ = _
  simp [up, portAt_of port, on, held]

theorem exec_portGiveUp_lock : exec (.portGiveUp p true) s = .next (giveUp s p) := by
  show Host.Outcome.next _ = _
  simp [up, portAt_of port, on]

theorem exec_portGiveUp_activity {a : Nat × Nat} (begun : P.activity = some a) :
    exec (.portGiveUp p false) s = .next (giveUp (advanceTo s (a.1 + 500000)) p) := by
  show Host.Outcome.next _ = _
  simp [up, portAt_of port, on, begun]

end

/-- Settles O18: what an accepted frame, a damaged one, grants, a NAK and the timers make of an ACTIVE port. -/
theorem portFramesAndReplay : Obligations.PortFramesAndReplay := by
  unfold Obligations.PortFramesAndReplay
  intro s p P portOn
  obtain ⟨up, port, on⟩ := portOn
  have active : (portAt s p).st = .active := by rw [portAt_of port, on]
  refine ⟨?accepts, ?damaged, ?grants, ?timer, ?again, exec_portGiveUp_lock up port on,
    fun a begun => exec_portGiveUp_activity up port on begun⟩
  case accepts =>
    intro bytes f u none_held none_waits calm idle spelt routed sound next hu
    have quiet : applyAck s p f.ack = s :=
      ack_nil port f.ack (by rw [none_held]; rfl) none_waits (by simp [activityOver, calm]) idle
    have own : u.pylon.pkgId = s.pylon.pkgId := by rw [hu]; rfl
    have run : exec (.frameForward p ⟨bytes, true⟩) s = .next (forward u p f) := by
      rw [exec_frameForward up port on spelt, arriveFrame_inOrder routed quiet (by rw [portAt_of port, next]), hu, accepted]
    rw [run]
    refine ⟨fun here known => ⟨_, _, rfl, rfl, ?_⟩, fun away few => by rw [forward_on sound (own ▸ away) few],
      fun away many => by rw [forward_stops sound (own ▸ away) many]⟩
    rw [hu, ← accepted, forward_accepted port on sound here known rfl]
    exact ⟨rfl, rfl⟩
  case damaged =>
    intro bytes good none_held damaged fresh
    obtain ⟨k, run⟩ := exec_frameForward_damaged up port on damaged
    rw [run, nak_fresh (u := count s 4 p k 1) port none_held fresh]
    exact ⟨_, rfl, rfl, rfl⟩
  case grants =>
    intro a x gs eight none_acked calm idle waits credit room
    obtain ⟨t, run, sent⟩ := arriveCtl_credit_sends ⟨up, port, on⟩ none_acked calm idle waits credit room
    exact ⟨t, congrArg _ ((if_pos eight).trans run), sent⟩
  case timer =>
    rw [exec_linkCreditTimer up port on, sendCtl_eq port]
    exact congrArg _ (modPort_congr _ _ port rfl)
  case again =>
    intro a x ack lseq last none_acked none_named none_waits idle begun unended few told
    have held : P.retry ≠ [] := fun none_held => by simp [none_held] at last
    have quiet : applyAck s p ack = s := ack_nil port ack none_acked none_waits unended idle
    constructor
    · obtain ⟨t, run, after⟩ := replay_goesOn (s := count s 4 p 8 1) port last begun told few
      exact ⟨t, congrArg _ ((arriveCtl_nak up active quiet active lseq).trans
        ((arriveNak_replays port none_named none_waits unended idle held).trans run)), after⟩
    · obtain ⟨t, run, after⟩ := replay_goesOn (s := advanceTo s (P.ackAt + 2000)) (by rw [advanceTo_pylon, port]) last begun told few
      obtain ⟨resent, others⟩ := after
      exact ⟨t, (exec_portReplayTimeout up port on held).trans (congrArg _ run), by rw [resent, advanceTo_time], others⟩

end Sys2Proof.Machine

/-! SUPPORT. The memory commands: what a store makes of an HBM without errors, and each row by its checks (10 R250, R255, 13 R336). -/

namespace Sys2Proof.Machine

/-! ### Fills and copies of an HBM without errors (R255, R261) -/

theorem fill_clean {h : Hbm} (eu : h.uncorrectable = []) (ec : h.correctable = []) (a n w : Nat) :
    h.fill a n w = { h with mem := h.mem.fill a n w } := by
  simp [Hbm.fill, Hbm.commit, badPartial_nil eu, eu, ec]

theorem copy_clean {h : Hbm} (eu : h.uncorrectable = []) (ec : h.correctable = []) (src dst n : Nat) :
    h.copy src dst n = { h with mem := h.mem.copyFrom h.mem src dst n } := by
  simp [Hbm.copy, Hbm.commit, badPartial_nil eu, eu, ec]

section
variable {s : State} (eu : s.hbm.uncorrectable = []) (ec : s.hbm.correctable = []) (er : s.caisson.run = none)
include eu ec er

theorem storeHbm_fill (r : Reader) (a n w : Nat) : storeHbm s r a n (fun h => h.fill a n w) =
    ({ count s 5 ((stackOf a).getD 0) 1 n with hbm := { s.hbm with mem := s.hbm.mem.fill a n w } }, false) := by
  rw [storeHbm_clean eu ec er, fill_clean eu ec]

theorem storeHbm_copy (r : Reader) (src dst n : Nat) : storeHbm s r dst n (fun h => h.copy src dst n) =
    ({ count s 5 ((stackOf dst).getD 0) 1 n with hbm := { s.hbm with mem := s.hbm.mem.copyFrom s.hbm.mem src dst n } }, false) := by
  rw [storeHbm_clean eu ec er, copy_clean eu ec]

end

/-! ### Reads that meet a block in error (R255), and bytes that fill their range -/

theorem readHbm_bad {s : State} {a n : Nat} (bad : s.hbm.badIn a n ≠ []) (r : Reader) :
    readHbm s r a n =
      ((s.hbm.badIn a n).foldl (logUncorrectable r 0) (count s 5 ((stackOf a).getD 0) 0 n), none) := by
  simp [readHbm, senseHbm, bad]

theorem padTo_full {bs : List Byte} {n : Nat} (full : bs.length = n) : padTo (bs.take n) n = bs := by
  simp [padTo, ← full]

/-! ### The rows -/

theorem memDone_ready {s : State} {q seq op : Nat} {c : Taken} (taken : ready s q seq op = some c) (t : State) (bad : Bool) :
    memDone t c bad = finish t q seq (if bad then stMemUncorrectable else stOk) [] := by
  obtain ⟨hq, hseq, -⟩ := ready_key taken
  rw [memDone, hq, hseq]

section
variable {s : State} {q seq : Nat} {c : Taken} {x : MemArgs} (args : memArgs c.payload = x)

section
variable (ok : memOk c.payload = true) (inGrant : granted s c.context x.a x.bytes = true)
include args ok inGrant

theorem exec_memWrite (taken : ready s q seq 0x0201 = some c) (aligned : x.b % 32 = 0) {d : List Byte} (full : d.length = x.bytes)
    {t : State} (written : writeHbm (start s q seq) (hostReader c.context q) x.a d = (t, false)) :
    exec (.memWrite q seq (some d)) s = .next (finish t q seq stOk []) := by
  refine onCmd_runs taken ?_
  simp [args, ok, aligned, inGrant, padTo_full full, written, memDone_ready taken]

theorem exec_memRead_reads (taken : ready s q seq 0x0202 = some c) (aligned : x.b % 32 = 0) {t : State} {d : List Byte}
    (read : readHbm (start s q seq) (hostReader c.context q) x.a x.bytes = (t, some d)) :
    exec (.memRead q seq) s = .next (finish (postHost t x.b d) q seq stOk []) := by
  refine onCmd_runs taken ?_
  simp [args, ok, aligned, inGrant, read]

theorem exec_memRead_bad (taken : ready s q seq 0x0202 = some c) (aligned : x.b % 32 = 0) {t : State}
    (read : readHbm (start s q seq) (hostReader c.context q) x.a x.bytes = (t, none)) :
    exec (.memRead q seq) s = .next (finish t q seq stMemUncorrectable [0]) := by
  refine onCmd_runs taken ?_
  simp [args, ok, aligned, inGrant, read]

theorem exec_memFill (taken : ready s q seq 0x0203 = some c) (word : x.b < 2 ^ 32) {t : State}
    (stored : storeHbm (start s q seq) (hostReader c.context q) x.a x.bytes (fun h => h.fill x.a x.bytes x.b) = (t, false)) :
    exec (.memFill q seq) s = .next (finish t q seq stOk []) := by
  refine onCmd_runs taken ?_
  have narrow : ¬ 2 ^ 32 ≤ x.b := by omega
  simp only [args, ok, granted_start, inGrant, decide_eq_false narrow, Bool.not_true, Bool.or_self, Bool.false_eq_true, if_false,
    stored, memDone_ready taken]

theorem exec_memCopy (taken : ready s q seq 0x0204 = some c) (aligned : x.b % 32 = 0)
    (source : granted s c.context x.b x.bytes = true) (apart : rangesMeet x.a x.bytes x.b x.bytes = false)
    (eu : s.hbm.uncorrectable = []) (ec : s.hbm.correctable = []) {t : State}
    (stored : storeHbm (count (start s q seq) 5 ((stackOf x.b).getD 0) 0 x.bytes) (hostReader c.context q) x.a x.bytes
      (fun h => h.copy x.b x.a x.bytes) = (t, false)) :
    exec (.memCopy q seq) s = .next (finish t q seq stOk []) := by
  refine onCmd_runs taken ?_
  simp [args, ok, aligned, apart, inGrant, source, badIn_nil eu, correctRange_clean, ec, stored, memDone_ready taken]

end

section
variable (taken : ready s q seq 0x0202 = some c)
include args taken

theorem exec_memRead_notPermitted (ok : memOk c.payload = true) (aligned : x.b % 32 = 0)
    (outside : granted s c.context x.a x.bytes = false) :
    exec (.memRead q seq) s = .next (finish (start s q seq) q seq stNotPermitted []) := by
  refine onCmd_runs taken ?_
  simp [args, ok, aligned, outside, refuse]

theorem exec_memRead_badParam (malformed : memOk c.payload = false ∨ x.b % 32 ≠ 0) :
    exec (.memRead q seq) s = .next (finish (start s q seq) q seq stBadParam []) := by
  refine onCmd_runs taken ?_
  have refused : (!memOk c.payload || x.b % 32 != 0) = true := by simpa using malformed
  simp only [args, refused, if_true, refuse]

end
end

/-- Settles O23: each row stores on, or reads from, the HBM in which the command has started, where no block is in error. -/
theorem memCommandsMoveBytes : Obligations.MemCommandsMoveBytes := by
  unfold Obligations.MemCommandsMoveBytes
  intro s q seq c x wf eu ec idle args ok inGrant
  refine ⟨fun d taken aligned full => ?write, fun taken aligned => ?read, fun taken word => ?fill,
    fun taken aligned source apart => ?copy⟩
  case write =>
    have written := writeHbm_clean (s := start s q seq) eu ec idle (hostReader c.context q) x.a d
    refine ⟨_, exec_memWrite args ok inGrant taken aligned full written, fun a => ?_, rfl⟩
    rw [← full]
    exact Memory.get_write_if wf x.a a d
  case read =>
    exact ⟨_, exec_memRead_reads args ok inGrant taken aligned (readHbm_clean (s := start s q seq) eu ec ..), rfl⟩
  case fill =>
    have stored := storeHbm_fill (s := start s q seq) eu ec idle (hostReader c.context q) x.a x.bytes x.b
    exact ⟨_, exec_memFill args ok inGrant taken word stored, fun a => Memory.get_fill wf x.a x.bytes x.b a, rfl⟩
  case copy =>
    have stored := storeHbm_copy (s := count (start s q seq) 5 ((stackOf x.b).getD 0) 0 x.bytes) eu ec idle
      (hostReader c.context q) x.b x.a x.bytes
    exact ⟨_, exec_memCopy args ok inGrant taken aligned source apart eu ec stored,
      fun a => Memory.get_copyFrom wf x.b x.a x.bytes a, rfl⟩

/-- Settles O24: past the checks the read meets the blocks in error; before that the first check that fails decides. -/
theorem memReadRefuses : Obligations.MemReadRefuses := by
  unfold Obligations.MemReadRefuses
  intro s q seq c x args taken
  exact ⟨fun ok aligned inGrant bad => ⟨_, exec_memRead_bad args ok inGrant taken aligned (readHbm_bad (s := start s q seq) bad _), rfl⟩,
    exec_memRead_notPermitted args taken, exec_memRead_badParam args taken⟩

end Sys2Proof.Machine

/-! SUPPORT. Service of the HBM stacks: what correcting blocks, recalibrating and the passing of time leave of the state
(10 R256, R263 to R265, 16 R396). -/

namespace Sys2Proof.Machine

/-! ### Powered time leaves HBM and the sensors (R396) -/

@[simp] theorem advanceTo_hbm (s : State) (t : Nat) : (advanceTo s t).hbm = s.hbm := by rw [(advanceTo_parts s t).1]

@[simp] theorem reading_advanceTo (s : State) (t : Nat) (x : Sensor) : reading (advanceTo s t) x = reading s x := by
  rw [(advanceTo_parts s t).1]
  rfl

/-! ### Stacks -/

theorem stackAt_of {s : State} {k : Nat} {K : Stack} (h : s.hbm.footings[k]? = some K) : stackAt s k = K := by
  rw [stackAt, List.getD_eq_getElem?_getD, h]
  rfl

/-! ### Corrected blocks (R255) -/

@[simp] theorem correctBlock_correctable (s : State) (b : Nat) : (correctBlock s b).hbm.correctable = s.hbm.correctable := by
  unfold correctBlock
  dsimp only
  split <;> simp [modStack]

theorem correctRange_correctable (s : State) (a n : Nat) :
    (correctRange s a n).hbm.correctable = s.hbm.correctable.filter fun b => !rangesMeet (64 * b) 64 a n :=
  foldl_keeps (·.hbm.correctable) correctBlock_correctable ..

theorem correctRange_senses (s : State) (a n : Nat) : Senses s (correctRange s a n) :=
  Senses.trans (t := { s with hbm := s.hbm.corrected a n }) rfl (Senses.foldl correctBlock_senses ..)

/-- A correctable block after one has been read is another one, which was correctable before. -/
theorem mem_correctRange_block {s : State} {b x : Nat} (left : x ∈ (correctRange s (64 * b) 64).hbm.correctable) :
    x ∈ s.hbm.correctable ∧ x ≠ b := by
  rw [correctRange_correctable] at left
  obtain ⟨old, apart⟩ := List.mem_filter.1 left
  exact ⟨old, fun same => by simp [same, rangesMeet] at apart⟩

/-! ### Recalibrated stacks (R264) -/

/-- What a recalibration makes of a stack: the time and the temperature at which it was. -/
def calibrated (now : Nat) (temp : Option Int) (K : Stack) : Stack := { K with calTime := now, calTemp := temp }

theorem recalibrateStack_foldl (ks : List Nat) (s : State) : ks.foldl recalibrateStack s = { s with
    hbm := { s.hbm with footings := ks.foldl (fun l k => modAt l k (calibrated s.time (reading s (.stack k)))) s.hbm.footings }
    counters := (ks.foldl recalibrateStack s).counters } := by
  induction ks generalizing s with
  | nil => rfl
  | cons k ks ih =>
    rw [List.foldl_cons, ih]
    rfl

/-- Recalibrating stacks in turn changes stacks and counters, nothing else. -/
theorem recalibrateStack_onlyStacks (ks : List Nat) (s : State) : ks.foldl recalibrateStack s = { s with
    hbm := { s.hbm with footings := (ks.foldl recalibrateStack s).hbm.footings }
    counters := (ks.foldl recalibrateStack s).counters } := by
  rw [recalibrateStack_foldl]

theorem stackAt_recalibrated {ks : List Nat} (once : ks.Nodup) {s : State} {k : Nat} {K : Stack} (stack : s.hbm.footings[k]? = some K) :
    stackAt (ks.foldl recalibrateStack s) k = if k ∈ ks then calibrated s.time (reading s (.stack k)) K else K := by
  rw [recalibrateStack_foldl]
  refine stackAt_of ((getElem?_foldl_modAt _ once _ k).trans ?_)
  rw [stack]
  split <;> rfl

/-! ### The rows -/

theorem exec_scrub {s : State} {k : Nat} (up : running s = true) (on : stackHeld s k = false) (b : Nat) :
    exec (.scrub k b) s = .next (
      if s.hbm.uncorrectable.contains (blockOf (stackBase k) + b) then
        logUncorrectable (scrubReader k) 0 (count s 5 k 6 1) (blockOf (stackBase k) + b)
      else correctRange (count s 5 k 6 1) (64 * (blockOf (stackBase k) + b)) 64) :=
  congrArg Host.Outcome.next (if_neg (by simp [up, on]))

section
variable {s : State} {k : Nat} {K : Stack} (stack : s.hbm.footings[k]? = some K) (up : running s = true) (on : stackHeld s k = false)
include stack up on

theorem exec_stackAutoRecal (failed : Option Nat) : exec (.stackAutoRecal ⟨k, failed⟩) s = .next (
    trainStack (if tempMoved s k then s else advanceTo s (K.calTime + 600000000000)) k failed) := by
  show Host.Outcome.next _ = _
  simp only [up, on, stackAt_of stack, Bool.not_true, Bool.or_self, Bool.false_eq_true, if_false]
  split <;> rfl

theorem exec_hotRefreshEnd {at_ : Nat} (hot : K.hotRefresh = true) (cool : K.coolSince = some at_) :
    exec (.hotRefreshEnd k) s = .next (
      modStack (advanceTo s (at_ + 1000000000)) k fun K => { K with hotRefresh := false, coolSince := none }) := by
  show Host.Outcome.next _ = _
  simp [up, on, stackAt_of stack, hot, cool]

end

/-! The rows of a stack whose tile is held in reset change nothing (R20). -/

section
variable {s : State} {k : Nat} (held : stackHeld s k = true)
include held

theorem exec_scrub_held (b : Nat) : exec (.scrub k b) s = .next s :=
  congrArg Host.Outcome.next (if_pos (by simp [held]))

theorem exec_stackAutoRecal_held (failed : Option Nat) : exec (.stackAutoRecal ⟨k, failed⟩) s = .next s :=
  congrArg Host.Outcome.next (if_pos (by simp [held]))

theorem exec_hotRefreshEnd_held : exec (.hotRefreshEnd k) s = .next s := by
  show Host.Outcome.next _ = _
  simp [held]

end

/-- The stacks that STACK_RECAL recalibrates by p0: those named, without the ones of held tiles (R20, R265). -/
def recalNamed (s : State) (p0 : Nat) : List Nat := (if p0 < 12 then [p0] else List.range 12).filter (!stackHeld s ·)

theorem recalNamed_nodup (s : State) (p0 : Nat) : (recalNamed s p0).Nodup := by
  refine List.Nodup.filter _ ?_
  split
  · exact List.nodup_singleton _
  · exact List.nodup_range

theorem mem_recalNamed {s : State} {p0 k : Nat} (valid : p0 < 12 ∨ p0 = 0xFFFFFFFF) (small : k < 12) :
    k ∈ recalNamed s p0 ↔ (p0 = k ∨ p0 = 0xFFFFFFFF) ∧ stackHeld s k = false := by
  rw [recalNamed, List.mem_filter, Bool.not_eq_true']
  refine and_congr_left' ?_
  split
  · rw [List.mem_singleton]
    omega
  · rw [List.mem_range]
    omega

theorem recalNamed_one {s : State} {k : Nat} (small : k < 12) (on : stackHeld s k = false) : recalNamed s k = [k] := by
  simp [recalNamed, small, on]

section
variable {s : State} {q seq : Nat} {c : Taken} (taken : ready s q seq 0x0210 = some c)
include taken

theorem exec_stackRecal (valid : c.param 0 < 12 ∨ c.param 0 = 0xFFFFFFFF) (failed : List (Nat × Nat)) :
    exec (.stackRecal q ⟨seq, failed⟩) s = .next (finish
      ((recalNamed s (c.param 0)).foldl (fun t k => trainStack t k (assoc failed k)) (start s q seq)) q seq
      (if (recalNamed s (c.param 0)).any fun k => (assoc failed k).isSome then stWidthMismatch else stOk) []) := by
  refine onCmd_runs taken ?_
  unfold recalNamed
  dsimp only
  by_cases one : c.param 0 < 12
  · rw [if_pos one, if_pos one]
    rfl
  · rw [if_neg one, if_neg one, if_pos (valid.resolve_left one)]
    rfl

/-- Where every channel trains, each stack is recalibrated. -/
theorem exec_stackRecal_trains (valid : c.param 0 < 12 ∨ c.param 0 = 0xFFFFFFFF) : exec (.stackRecal q ⟨seq, []⟩) s =
    .next (finish ((recalNamed s (c.param 0)).foldl recalibrateStack (start s q seq)) q seq stOk []) := by
  have trained : (recalNamed s (c.param 0)).any (fun k => (assoc ([] : List (Nat × Nat)) k).isSome) = false := by simp [assoc]
  rw [exec_stackRecal taken valid, trained]
  rfl

theorem exec_stackRecal_badParam (many : 12 ≤ c.param 0) (other : c.param 0 ≠ 0xFFFFFFFF) (failed : List (Nat × Nat)) :
    exec (.stackRecal q ⟨seq, failed⟩) s = .next (finish (start s q seq) q seq stBadParam []) := by
  refine onCmd_runs taken ?_
  dsimp only
  rw [if_neg (by omega), if_neg other]
  rfl

end

/-- Settles O25: a scrub by the block's error, a held stack's rows, each recalibration by what its training finds, and the end of hot
refresh. -/
theorem stackServiceKeepsBytes : Obligations.StackServiceKeepsBytes := by
  unfold Obligations.StackServiceKeepsBytes
  refine ⟨fun s k b up on => ⟨fun good => ?scrub, fun bad => ?bad⟩, fun s k b held =>
      ⟨exec_scrub_held held b, exec_hotRefreshEnd_held held, exec_stackAutoRecal_held held⟩,
    fun s k K stack up on => ⟨fun v moment => ?auto, fun at_ hot cool => ?hot⟩,
    fun s q seq c taken => ⟨fun valid => ?recal, fun failed ch one on fails => ?width, fun failed many other =>
      exec_stackRecal_badParam taken many other failed⟩⟩
  case scrub =>
    have kept := correctRange_senses (count s 5 k 6 1) (64 * (blockOf (stackBase k) + b)) 64
    rw [exec_scrub up on, good, if_neg Bool.false_ne_true]
    exact ⟨_, rfl, by rw [kept]; rfl, by rw [kept]; rfl, fun x => mem_correctRange_block, by rw [kept]; rfl⟩
  case bad => exact ⟨_, rfl, (exec_scrub up on b).trans (by rw [if_pos bad])⟩
  case auto =>
    have hbm : v.hbm = s.hbm := by rw [moment]; split <;> simp
    have temp : reading v (.stack k) = reading s (.stack k) := by rw [moment]; split <;> simp
    have run (failed : Option Nat) : exec (.stackAutoRecal ⟨k, failed⟩) s = .next (trainStack v k failed) := by
      rw [exec_stackAutoRecal stack up on, moment]
    refine ⟨by rw [moment]; split <;> simp, ⟨_, run none, ?_, ?_⟩, fun ch => run (some ch)⟩
    · rw [← hbm, ← temp]
      rfl
    · rw [← hbm]
      rfl
  case hot =>
    exact ⟨_, exec_hotRefreshEnd stack up on hot cool, by simp [modStack], by simp [modStack], by simp [modStack]⟩
  case recal =>
    refine ⟨_, exec_stackRecal_trains taken valid, fun k K stack small => ?_, recalibrateStack_onlyStacks ..⟩
    rw [stackAt_recalibrated (s := start s q seq) (recalNamed_nodup ..) stack]
    exact if_congr (mem_recalNamed valid small) rfl rfl
  case width =>
    rw [exec_stackRecal taken (.inl one), recalNamed_one one on]
    simp [fails, trainStack]

end Sys2Proof.Machine

/-! SUPPORT. What a checkpoint stores into its half: HBM without errors takes the bytes and nothing else, and they read back
(11 R276, R279, R282). -/

namespace Sys2Proof.Machine

/-! ### Stores into a half (R255, R276) -/

/-- The state with other bytes in HBM. -/
def withMem (s : State) (m : Memory) : State := { s with hbm := { s.hbm with mem := m } }

section
variable {s : State} (eu : s.hbm.uncorrectable = []) (ec : s.hbm.correctable = [])
include eu ec

theorem writeHalf_withMem (m : Memory) (half k off : Nat) (bs : List Byte) :
    writeHalf (withMem s m) half k off bs = withMem s (m.write (halfBase half k + off) bs) := by
  rw [writeHalf, write_clean (h := (withMem s m).hbm) eu ec]
  rfl

end

/-- Bytes at one offset of a half, on both of the stacks that hold commit records and manifests (R276). -/
def Memory.writeBoth (m : Memory) (half off : Nat) (bs : List Byte) : Memory :=
  commitStacks.foldl (fun m k => m.write (halfBase half k + off) bs) m

section
variable {s : State} (eu : s.hbm.uncorrectable = []) (ec : s.hbm.correctable = [])
include eu ec

theorem foldl_writeHalf_commitStacks (m : Memory) (half off : Nat) (bs : List Byte) :
    commitStacks.foldl (fun u k => writeHalf u half k off bs) (withMem s m) = withMem s (m.writeBoth half off bs) :=
  List.foldl_hom (withMem s) fun m k => writeHalf_withMem eu ec m half k off bs

theorem clearHalf_clean (half : Nat) : clearHalf s half = withMem s (s.hbm.mem.writeBoth half 0 (List.replicate 64 0)) :=
  foldl_writeHalf_commitStacks eu ec s.hbm.mem half 0 _

theorem clearHalf_mem (half : Nat) : (clearHalf s half).hbm.mem = s.hbm.mem.writeBoth half 0 (List.replicate 64 0) := by
  rw [clearHalf_clean eu ec, withMem]

theorem clearHalf_onlyMem (half : Nat) :
    clearHalf s half = { s with hbm := { s.hbm with mem := (clearHalf s half).hbm.mem } } := by
  rw [clearHalf_clean eu ec, withMem]

end

section
variable {m : Memory} (wf : Memory.Wf m) (half off : Nat) (bs : List Byte)
include wf

theorem Memory.wf_writeBoth : Memory.Wf (m.writeBoth half off bs) :=
  Memory.wf_write (Memory.wf_write wf _ bs) _ bs

theorem Memory.get_writeBoth_other {a : Nat}
    (apart : ∀ k ∈ commitStacks, a < halfBase half k + off ∨ halfBase half k + off + bs.length ≤ a) :
    (m.writeBoth half off bs).get a = m.get a :=
  (Memory.get_write_other (Memory.wf_write wf _ bs) _ a bs (apart 6 (by decide))).trans
    (Memory.get_write_other wf _ a bs (apart 0 (by decide)))

theorem Memory.read_writeBoth_other {a n : Nat}
    (apart : ∀ k ∈ commitStacks, a + n ≤ halfBase half k + off ∨ halfBase half k + off + bs.length ≤ a) :
    (m.writeBoth half off bs).read a n = m.read a n :=
  (Memory.read_write_other (Memory.wf_write wf _ bs) _ a n bs (apart 6 (by decide))).trans
    (Memory.read_write_other wf _ a n bs (apart 0 (by decide)))

/-- What fits into one stack's window reads back on either stack. -/
theorem Memory.read_writeBoth (short : bs.length ≤ stackBytes) {k : Nat} (hk : k ∈ commitStacks) :
    (m.writeBoth half off bs).read (halfBase half k + off) bs.length = bs := by
  have both : k = 0 ∨ k = 6 := by simpa [commitStacks] using hk
  rcases both with rfl | rfl
  · refine (Memory.read_write_other (Memory.wf_write wf _ bs) _ _ _ bs (.inl ?_)).trans (Memory.read_write wf _ bs)
    simp only [halfBase, stackBase, stackBytes] at short ⊢
    omega
  · exact Memory.read_write (Memory.wf_write wf _ bs) _ bs

end

/-! ### A generation: the manifests, and then the commit records (R279, R282) -/

/-- HBM's bytes after a generation's manifests and commit records. -/
def Memory.writeCommit (m : Memory) (half : Nat) (manifest record : List Byte) : Memory :=
  (m.writeBoth half manifestAt manifest).writeBoth half 0 record

theorem writeGeneration_withMem {s : State} (eu : s.hbm.uncorrectable = []) (ec : s.hbm.correctable = []) (m : Memory) (half : Nat)
    (manifest record : List Byte) :
    writeGeneration (withMem s m) half manifest record = withMem s (m.writeCommit half manifest record) := by
  simp only [writeGeneration, foldl_writeHalf_commitStacks eu ec, Memory.writeCommit]

section
variable {m : Memory} (wf : Memory.Wf m) (half : Nat) {manifest record : List Byte} (bytes : record.length = 64)
include wf bytes

theorem Memory.read_writeCommit_record {k : Nat} (hk : k ∈ commitStacks) :
    (m.writeCommit half manifest record).read (halfBase half k) 64 = record := by
  have inWindow : record.length ≤ stackBytes := bytes.le.trans (by decide)
  have back := Memory.read_writeBoth (Memory.wf_writeBoth wf half manifestAt manifest) half 0 record inWindow hk
  rw [bytes, Nat.add_zero] at back
  exact back

/-- The commit records lie below both manifests' first bytes, or beyond their last ones. -/
theorem Memory.read_writeCommit_manifest (short : manifest.length ≤ 520192) {k : Nat} (hk : k ∈ commitStacks) :
    (m.writeCommit half manifest record).read (halfBase half k + manifestAt) manifest.length = manifest := by
  have inWindow : manifest.length ≤ stackBytes := short.trans (by decide)
  refine (Memory.read_writeBoth_other (Memory.wf_writeBoth wf half manifestAt manifest) half 0 record fun j hj => ?_).trans
    (Memory.read_writeBoth wf half manifestAt manifest inWindow hk)
  simp only [commitStacks, List.mem_cons, List.not_mem_nil, or_false] at hk hj
  simp only [bytes, halfBase, stackBase, stackBytes, manifestAt]
  omega

end

/-! ### Commit records (R282) -/

theorem commitRecord_length (bytes seq step : Nat) (imported : Bool) {digest : List Byte} (full : digest.length = 32) :
    (commitRecord bytes seq step imported digest).length = 64 := by
  simp only [commitRecord, List.length_append, leBytes_length, full]

theorem commitRecord_magic (bytes seq step : Nat) (imported : Bool) (digest : List Byte) :
    field (commitRecord bytes seq step imported digest) 0 4 = commitMagic := by
  simp only [commitRecord, List.append_assoc, field_front]
  decide

theorem commitRecord_localSeq (bytes step : Nat) {seq : Nat} (fits : seq < 2 ^ 64) (imported : Bool) (digest : List Byte) :
    field (commitRecord bytes seq step imported digest) 8 8 = seq := by
  simp only [commitRecord, List.append_assoc, field_later, field_front, Nat.reduceLeDiff, Nat.reduceSub]
  omega

/-- A half whose commit record on stack 0 can be read is committed by the record's magic, with its local_seq. -/
theorem committed_of_commitAt {s : State} {half bytes seq step : Nat} {imported : Bool} {digest : List Byte}
    (eu : s.hbm.uncorrectable = []) (fits : seq < 2 ^ 64)
    (record : commitAt s half 0 = commitRecord bytes seq step imported digest) :
    committed s half = true ∧ localSeq s half = seq := by
  have holds : committed s half = true := by simp [committed, record, commitRecord_magic, badIn_nil eu]
  exact ⟨holds, by rw [localSeq, if_pos holds, record, commitRecord_localSeq bytes step fits]⟩

end Sys2Proof.Machine

/-! SUPPORT. The checkpoint in progress: its timer, the copy frontier, and the digests of a stack's shards
(11 R275, R277, R279, R282). -/

namespace Sys2Proof.Machine

/-! ### Timer and copy frontier (R275, R277) -/

@[simp] theorem advanceTo_caisson (s : State) (t : Nat) : (advanceTo s t).caisson = s.caisson := by rw [(advanceTo_parts s t).1]

theorem exec_ckptTimerDue {s : State} {cfg : CkptConfig} (up : running s = true) (config : s.caisson.config = some cfg)
    (timed : cfg.timerS ≠ 0) (early : s.caisson.timerDue = false) :
    exec .ckptTimerDue s = .next { advanceTo s (s.caisson.timerFrom + cfg.timerS * 1000000000) with
      caisson := { s.caisson with timerDue := true } } := by
  show Host.Outcome.next _ = _
  simp [config, up, timed, early]

section
variable {s : State} (eu : s.hbm.uncorrectable = [])
include eu

/-- The copy of a granule changes its bytes in the target half, the list of uncopied granules, and a counter. -/
theorem copyGranule_clean (ec : s.hbm.correctable = []) (run : CkptRun) (g : Nat × Nat) : copyGranule s run g =
    count { withMem s (s.hbm.mem.copyFrom s.hbm.mem (granuleSrc run g) (granuleDst run g) mib) with
      caisson := { s.caisson with run := some { run with uncopied := run.uncopied.erase g } } } 5
      ((stackOf (granuleSrc run g)).getD 0) 3 mib := by
  simp only [copyGranule, correctRange_clean ec, copy_clean eu ec]
  rfl

theorem exec_ckptGranuleCopy {k : Nat} {run : CkptRun} {g : Nat × Nat} (up : running s = true)
    (inProgress : s.caisson.run = some run) (next : frontier run k = some g)
    (bad : (stackAt s ((stackOf (granuleSrc run g)).getD 0)).pathBad = false)
    (weak : (stackAt s ((stackOf (granuleSrc run g)).getD 0)).pathWeak = false) :
    exec (.ckptGranuleCopy k) s = .next (copyGranule s run g) := by
  have copied : copyBeforeList [g] s = (copyGranule s run g, false) := by
    simp [copyBeforeList, inProgress, badIn_nil eu, footPath_clean bad weak]
  show Host.Outcome.next _ = _
  simp only [up, inProgress, next, copied, Bool.false_eq_true, if_false]

end

/-! ### Digests (R279, R282) -/

/-- The shards of a checkpoint once stack k has been digested: its own have the digests of their bytes in the target half. -/
def digestedShards (s : State) (run : CkptRun) (k : Nat) : List Shard :=
  run.shards.map fun h => if h.stack = k then digestShard s run.half h else h

/-- HBM's bytes after the shard records of stack k. -/
def Memory.writeRecords (m : Memory) (run : CkptRun) (k sequence : Nat) (hs : List Shard) : Memory :=
  hs.foldl (fun m h => m.write (halfBase run.half k + recordAt h.index) (shardRecord run.step sequence h)) m

section
variable {s : State} {k : Nat} {run : CkptRun} (eu : s.hbm.uncorrectable = []) (ec : s.hbm.correctable = [])
include eu ec

/-- No store of a record moves the sequence, which every record carries. -/
theorem foldl_writeRecord (hs : List Shard) :
    hs.foldl (fun u h => writeHalf u run.half k (recordAt h.index) (shardRecord run.step (nextSequence u) h)) s =
      withMem s (s.hbm.mem.writeRecords run k (nextSequence s) hs) :=
  List.foldl_hom (init := s.hbm.mem) (withMem s) fun m h => writeHalf_withMem eu ec m run.half k (recordAt h.index) _

theorem exec_shardDigest (up : running s = true) (inProgress : s.caisson.run = some run) (copied : frontier run k = none)
    (first : run.digested.contains k = false) :
    exec (.shardDigest k) s = .next { withMem s (s.hbm.mem.writeRecords run k (nextSequence s)
        ((digestedShards s run k).filter fun h => h.stack = k)) with
      caisson := { s.caisson with run := some { run with
        shards := digestedShards s run k, digested := run.digested ++ [k] } } } := by
  have good (hs : List Shard) : badShards s run.half hs = [] := by simp [badShards, badIn_nil eu]
  have corrected (hs : List Shard) : hs.foldl (fun s h => correctRange s (shardData run.half h) (h.mib * mib)) s = s :=
    List.foldl_fixed' (fun h => correctRange_clean ec _ _) hs
  show Host.Outcome.next _ = _
  simp only [up, inProgress, copied, first, Option.isSome_none, Bool.or_self, Bool.false_eq_true, if_false, good, corrected,
    foldl_writeRecord eu ec]
  rfl

end

/-- Settles O26: the timer, one granule of the copy frontier, and one stack's digests and records. -/
theorem checkpointCopiesAndDigests : Obligations.CheckpointCopiesAndDigests := by
  unfold Obligations.CheckpointCopiesAndDigests
  refine ⟨fun s cfg up config timed early => exec_ckptTimerDue up config timed early,
    fun s k run up inProgress eu ec wf => ⟨fun g next bad weak => ?copy, fun hs copied first shards => ?digest⟩⟩
  case copy =>
    refine ⟨_, exec_ckptGranuleCopy eu up inProgress next bad weak, ?_, ?_, ?_⟩ <;> rw [copyGranule_clean eu ec]
    · exact Memory.get_copyFrom wf _ _ _
    · rfl
    · rfl
  case digest =>
    subst shards
    exact ⟨_, exec_shardDigest eu ec up inProgress copied first, rfl, rfl, rfl⟩

end Sys2Proof.Machine

/-! SUPPORT. CKPT_COMMIT: the signature changes Tollhouse only, the report queues and Tether, and the stores read back as a committed
generation (11 R279, R281, R282). -/

namespace Sys2Proof.Machine

/-! ### Signatures change Tollhouse only (R391, R393) -/

theorem reserveIndex_toll (s : State) : reserveIndex s = { s with toll := (reserveIndex s).toll } := by
  unfold reserveIndex
  split
  · rfl
  · rw [logError_toll, retireBlocks_toll]

theorem signDigest_toll (s : State) (d : List Byte) : (signDigest s d).1 = { s with toll := (signDigest s d).1.toll } := by
  unfold signDigest
  dsimp only
  split
  · rfl
  · split
    · exact reserveIndex_toll s
    · rw [reserveIndex_toll]

theorem signManifest_toll (s : State) (run : CkptRun) : (signManifest s run).1 = { s with toll := (signManifest s run).1.toll } := by
  unfold signManifest
  dsimp only
  split
  · have signed := signDigest_toll s (sha256 (manifestBody s run true))
    split <;> rename_i result <;> rw [result] at signed <;> exact signed
  · split
    · exact logError_toll ..
    · rfl

/-! ### Report and release (R289, R333) -/

theorem ckptReport_posts (s : State) (run : CkptRun) (status : Nat) : Posts s (ckptReport s run status) := post_posts _ _ rfl

theorem settleRelease_none {s : State} (h : s.caisson.newConfig = none) : settleRelease s = s := by
  unfold settleRelease
  rw [h]
  cases s.caisson.run <;> rfl

/-! ### The commit -/

/-- The commit record of a manifest `m` that the checkpoint in progress writes (R282). -/
def ckptRecord (s : State) (run : CkptRun) (m : List Byte) : List Byte :=
  commitRecord m.length (nextLocalSeq s) run.step false (slice m (digestAt run.shards.length) 32)

/-- The state that the commit of manifest `m` leaves, where the report has left `r`. -/
def afterCommit (s r : State) (run : CkptRun) (m : List Byte) : State :=
  { withMem r (s.hbm.mem.writeCommit run.half m (ckptRecord s run m)) with
    caisson := { r.caisson with run := none, sequence := nextSequence r } }

/-- Signature and report touch neither HBM nor the Caisson. -/
theorem ckptReport_signed {s v : State} {run : CkptRun} {m : List Byte} (signed : signManifest s run = (v, m)) (status : Nat) :
    (ckptReport v run status).hbm = s.hbm ∧ (ckptReport v run status).caisson = s.caisson ∧ nextLocalSeq v = nextLocalSeq s := by
  have toll : v = { s with toll := v.toll } := by simpa only [signed] using signManifest_toll s run
  have posts := ckptReport_posts v run status
  exact ⟨by rw [posts, toll], by rw [posts, toll], by rw [toll]; rfl⟩

section
variable {s v : State} {run : CkptRun} {m : List Byte} (up : running s = true) (inProgress : s.caisson.run = some run)
include up inProgress

theorem exec_ckptCommit_waits (sign : run.cfg.sign = true) (waits : signWaits s = true) : exec .ckptCommit s = .next s := by
  show Host.Outcome.next _ = _
  simp [up, inProgress, sign, waits]

theorem exec_ckptCommit_commits (complete : commitReady run = true) (signed : signManifest s run = (v, m))
    (settled : s.caisson.newConfig = none) (eu : s.hbm.uncorrectable = []) (ec : s.hbm.correctable = [])
    (goes : run.cfg.sign = false ∨ signWaits s = false) :
    exec .ckptCommit s = .next (afterCommit s (ckptReport v run stOk) run m) := by
  obtain ⟨hbm, caisson, localSeq⟩ := ckptReport_signed signed stOk
  have go : (!commitReady run || run.cfg.sign && signWaits s) = false := by
    rcases goes with h | h <;> simp [complete, h]
  have stored : writeGeneration (ckptReport v run stOk) run.half m (ckptRecord s run m) =
      withMem (ckptReport v run stOk) (s.hbm.mem.writeCommit run.half m (ckptRecord s run m)) := by
    rw [← hbm] at eu ec ⊢
    exact writeGeneration_withMem eu ec _ run.half m _
  rw [ckptRecord] at stored
  show Host.Outcome.next _ = _
  simp only [up, inProgress, go, readCommits_clean eu ec, signed, localSeq, stored, Bool.false_eq_true, if_false]
  exact congrArg Host.Outcome.next (settleRelease_none (s := afterCommit s (ckptReport v run stOk) run m)
    ((congrArg Caisson.newConfig caisson).trans settled))

end

section
variable {s : State} {run : CkptRun} {m : List Byte}

theorem afterCommit_mem (r : State) :
    (afterCommit s r run m).hbm.mem = s.hbm.mem.writeCommit run.half m (ckptRecord s run m) := by
  rw [afterCommit, withMem]

theorem afterCommit_parts (r : State) : afterCommit s r run m = { r with
    hbm := { r.hbm with mem := (afterCommit s r run m).hbm.mem }
    caisson := (afterCommit s r run m).caisson } := by
  rw [afterCommit, withMem]

theorem read_afterCommit {r : State} (wf : Memory.Wf s.hbm.mem) (short : m.length ≤ 520192)
    (digest : (slice m (digestAt run.shards.length) 32).length = 32) {k : Nat} (hk : k ∈ commitStacks) :
    commitAt (afterCommit s r run m) run.half k = ckptRecord s run m
      ∧ (afterCommit s r run m).hbm.mem.read (halfBase run.half k + manifestAt) m.length = m := by
  have bytes : (ckptRecord s run m).length = 64 := commitRecord_length _ _ _ _ digest
  rw [commitAt, afterCommit_mem]
  exact ⟨Memory.read_writeCommit_record wf run.half bytes hk, Memory.read_writeCommit_manifest wf run.half bytes short hk⟩

end

/-- Settles O27: the record on stack 0 makes the half committed with its local_seq. -/
theorem checkpointCommits : Obligations.CheckpointCommits := by
  unfold Obligations.CheckpointCommits
  intro s v run m up inProgress complete signed settled eu ec wf fits _ short digest
  refine ⟨exec_ckptCommit_waits up inProgress, fun goes =>
    ⟨_, exec_ckptCommit_commits up inProgress complete signed settled eu ec goes, ?_⟩⟩
  obtain ⟨hbm, caisson, -⟩ := ckptReport_signed signed stOk
  have reads (k : Nat) (hk : k ∈ commitStacks) := read_afterCommit (s := s) (r := ckptReport v run stOk) wf short digest hk
  have clean : (afterCommit s (ckptReport v run stOk) run m).hbm.uncorrectable = [] := (congrArg Hbm.uncorrectable hbm).trans eu
  obtain ⟨holds, localSeq⟩ := committed_of_commitAt clean fits (reads 0 (by decide)).1
  refine ⟨?_, holds, localSeq, reads, ?_⟩
  · rw [← caisson]
    rfl
  · rw [← hbm]
    exact afterCommit_parts _

end Sys2Proof.Machine

/-! SUPPORT. CKPT_CONFIG, CKPT_TAKE, CKPT_QUERY and CKPT_DISCARD of a command that may start (11 R276, R289, R290, R442). -/

namespace Sys2Proof.Machine

@[simp] theorem start_caisson (s : State) (q seq : Nat) : (start s q seq).caisson = s.caisson := rfl

/-! ### CKPT_CONFIG (R290, R442) -/

/-- A release takes effect where no checkpoint is in progress, and completes its command (R289). -/
theorem settleRelease_releases {s : State} {q seq : Nat} (idle : s.caisson.run = none)
    (release : s.caisson.newConfig = some (none, q, seq)) : settleRelease s = finish { s with
      caisson := { s.caisson with config := none, newConfig := none, held := false, takes := [], timerDue := false } }
      q seq stOk [] := by
  simp only [settleRelease, idle, release]

/-- What the first checks of CKPT_CONFIG ask of a state without a release under way: nobody else holds a configuration. -/
theorem ckptHolder_own {s : State} {n : Nat} (settled : s.caisson.newConfig = none)
    (own : s.caisson.config.all (·.ctx == n) = true) : releasing s = false ∧ (ckptHolder s).any (· != n) = false := by
  cases config : s.caisson.config with
  | none => simp [releasing, ckptHolder, settled, config]
  | some cfg => simpa [releasing, ckptHolder, settled, config] using own

section
variable {s : State} {q seq : Nat} {c : Taken}

section
variable (taken : ready s q seq 0x0601 = some c) (settled : s.caisson.newConfig = none)
  (own : s.caisson.config.all (·.ctx == c.context) = true) (ok : configOk c.payload = true)
include taken settled own ok

theorem exec_ckptConfig_sets {im : Image} (image : imageAt s c.context = some im)
    (ranges : (configOf c.context seq c.payload).ranges ≠ [])
    (inGrant : (configOf c.context seq c.payload).ranges.all (fun r => granted s c.context r.1 (r.2 * mib)) = true)
    (good : rangesOk im (configOf c.context seq c.payload).ranges = true) :
    exec (.ckptConfig q seq) s = .next (finish { start s q seq with
      caisson := { s.caisson with newConfig := some (some (configOf c.context seq c.payload), q, seq) } } q seq stOk []) := by
  obtain ⟨noRelease, noOther⟩ := ckptHolder_own (s := start s q seq) settled own
  refine onCmd_runs taken ?_
  simp [noRelease, noOther, ok, ranges, inGrant, image, good]

theorem exec_ckptConfig_releases (ranges : (configOf c.context seq c.payload).ranges = []) (idle : s.caisson.run = none) :
    exec (.ckptConfig q seq) s = .next (finish { start s q seq with
      caisson := { s.caisson with config := none, newConfig := none, held := false, takes := [], timerDue := false } }
      q seq stOk []) := by
  obtain ⟨noRelease, noOther⟩ := ckptHolder_own (s := start s q seq) settled own
  refine onCmd_runs taken ?_
  simp only [noRelease, noOther, ok, ranges, Bool.false_and, Bool.not_true, Bool.false_eq_true, if_false, List.isEmpty_nil, if_true]
  exact settleRelease_releases idle rfl

end

/-! ### CKPT_TAKE (R275, R289) -/

theorem exec_ckptTake (taken : ready s q seq 0x0602 = some c) (holder : ckptHolder s = some c.context)
    (form : c.payload.length = 0 ∨ c.payload.length = 64) : exec (.ckptTake q seq) s =
    .next (finish { start s q seq with caisson := { s.caisson with takes := s.caisson.takes ++
      [{ step := c.param 0, text := if c.payload.isEmpty then none else some c.payload, due := false }] } } q seq stOk []) := by
  refine onCmd_runs taken ?_
  have accepted : (ckptHolder (start s q seq) != some c.context || (c.payload.length != 0 && c.payload.length != 64)) = false := by
    rw [show ckptHolder (start s q seq) = some c.context from holder]
    rcases form with h | h <;> simp [h]
  simp only [accepted, Bool.false_eq_true, if_false]
  rfl

/-! ### CKPT_QUERY (R289) -/

/-- Reading the commit records changes nothing that the reply states. -/
theorem Senses.queried {s t : State} (h : Senses s t) :
    halfCode t = halfCode s ∧ halfStep t = halfStep s ∧ newerIsOne t = newerIsOne s ∧ t.caisson = s.caisson := by
  rw [h]
  exact ⟨rfl, rfl, rfl, rfl⟩

theorem exec_ckptQuery (taken : ready s q seq 0x0603 = some c) : exec (.ckptQuery q seq) s =
    .next (finish (readCommits (start s q seq) c.context) q seq stOk
      [halfCode s 0 + halfCode s 1 * 4 + flag s.caisson.held 4 + flag (newerIsOne s) 5, halfStep s 0, halfStep s 1,
        (s.caisson.run.map (·.step)).getD 0xFFFFFFFF]) := by
  obtain ⟨codes, steps, newer, caisson⟩ := (readCommits_senses (start s q seq) c.context).queried
  refine onCmd_runs taken ?_
  simp only [codes, steps, newer, caisson]
  rfl

/-! ### CKPT_DISCARD (R276, R289) -/

theorem exec_ckptDiscard (taken : ready s q seq 0x0607 = some c) (half : c.param 0 < 2)
    (apart : (s.caisson.run.any fun r => r.half = c.param 0) = false) :
    exec (.ckptDiscard q seq) s = .next (finish (clearHalf (start s q seq) (c.param 0)) q seq stOk []) := by
  refine onCmd_runs taken ?_
  have accepted : (decide (1 < c.param 0) || ((start s q seq).caisson.run.any fun r => r.half = c.param 0)) = false := by
    simpa [apart] using Nat.le_of_lt_succ half
  simp only [accepted, Bool.false_eq_true, if_false]

end

section
variable {s : State} (wf : Memory.Wf s.hbm.mem) (eu : s.hbm.uncorrectable = []) (ec : s.hbm.correctable = []) (half : Nat)
include wf eu ec

/-- A record of zeros has no magic. -/
theorem committed_clearHalf : committed (clearHalf s half) half = false := by
  have inWindow : (List.replicate 64 (0 : Byte)).length ≤ stackBytes := by rw [List.length_replicate]; decide
  have cleared : commitAt (clearHalf s half) half 0 = List.replicate 64 0 := by
    have zeros := Memory.read_writeBoth wf half 0 (List.replicate 64 0) inWindow (k := 0) (by decide)
    rw [Nat.add_zero, List.length_replicate] at zeros
    rw [commitAt, clearHalf_mem eu ec, zeros]
  have magic : field (List.replicate 64 0) 0 4 ≠ commitMagic := by decide
  rw [committed, cleared, decide_eq_false magic, Bool.false_and]

theorem get_clearHalf_other {a : Nat} (apart : ∀ k ∈ commitStacks, ¬ (halfBase half k ≤ a ∧ a < halfBase half k + 64)) :
    (clearHalf s half).hbm.mem.get a = s.hbm.mem.get a := by
  rw [clearHalf_mem eu ec]
  refine Memory.get_writeBoth_other wf half 0 _ fun k hk => ?_
  have outside := apart k hk
  rw [List.length_replicate]
  omega

end

/-- Settles O28: each command runs its accepting branch on the state in which it has started. -/
theorem checkpointCommandsAct : Obligations.CheckpointCommandsAct := by
  unfold Obligations.CheckpointCommandsAct
  intro s q seq c
  refine ⟨fun im taken settled own ok image =>
      ⟨exec_ckptConfig_sets taken settled own ok image, exec_ckptConfig_releases taken settled own ok⟩,
    fun taken holder => ⟨fun empty => ?plain, fun text => ?text⟩, exec_ckptQuery, fun taken half apart wf eu ec => ?discard⟩
  case plain =>
    rw [exec_ckptTake taken holder (.inl empty), List.length_eq_zero_iff.1 empty]
    rfl
  case text =>
    have given : c.payload.isEmpty = false := by
      rw [List.isEmpty_eq_false_iff, ← List.length_pos_iff]
      omega
    rw [exec_ckptTake taken holder (.inr text), given]
    rfl
  case discard =>
    refine ⟨_, exec_ckptDiscard taken half apart, committed_clearHalf (s := start s q seq) wf eu ec _, fun a outside =>
      get_clearHalf_other (s := start s q seq) wf eu ec _ outside, ?_⟩
    exact clearHalf_onlyMem (s := start s q seq) eu ec _

end Sys2Proof.Machine

/-! SUPPORT. A step as a whole: what it keeps of the identity index and the rings, and the idle step (14 R348, 16 R393, R396, R402, 17 R418). -/

namespace Sys2Proof.Machine

/-- Settles O59: soundness of the step, read from the state without the command that it takes. -/
theorem stepKeepsIndexAndRings : Obligations.StepKeepsIndexAndRings := by
  intro s t stepped
  obtain ⟨-, -, -, index, bounded⟩ := step_sound stepped
  exact ⟨fun ⟨one, reserved⟩ => ⟨(index one).1, (index one).2.2 reserved⟩, fun one => (index one).2.1, bounded⟩

/-! ### The idle step (R396, R418) -/

/-- Time alone puts no record into a sampling session. -/
theorem waitingRecords_advanceTo (s : State) (t n : Nat) : waitingRecords (advanceTo s t) n = waitingRecords s n := by
  obtain ⟨k, w, a, same⟩ := (advanceTo_parts s t).2 n
  unfold waitingRecords
  rw [same]
  cases ctxAt s n <;> rfl

theorem drainRecords_none {s : State} {n : Nat} (none : waitingRecords s n = 0) : drainRecords s n = s := if_pos none

theorem foldl_drainRecords_none {s : State} {l : List Nat} (none : ∀ n ∈ l, waitingRecords s n = 0) : l.foldl drainRecords s = s := by
  induction l with
  | nil => rfl
  | cons n l ih =>
    rw [List.foldl_cons, drainRecords_none (none n List.mem_cons_self)]
    exact ih fun m hm => none m (List.mem_cons_of_mem n hm)

theorem idle_unpowered {s : State} (off : powered s = false) : idle s = s := if_neg (by rw [off]; decide)

theorem idle_powered {s : State} (on : powered s = true) :
    idle s = (List.range 16).foldl drainRecords (advanceTo s (s.time + 10)) := if_pos on

/-- Settles O57: the command at the front by the step's own cases, the idle step by what the passing of time changes. -/
theorem stepRunsTheFrontCommand : Obligations.StepRunsTheFrontCommand := by
  unfold Obligations.StepRunsTheFrontCommand
  refine ⟨fun s c => rfl, fun s c rest h => by simp only [step, h], fun s empty => ⟨fun off => ?_, fun on => ?_⟩⟩
  · rw [step_nil empty, idle_unpowered off]
  · obtain ⟨parts, ctxs⟩ := advanceTo_parts s (s.time + 10)
    have later : (advanceTo s (s.time + 10)).time = s.time + 10 := by
      rw [parts]
      exact Nat.max_eq_right (Nat.le_add_right ..)
    refine ⟨advanceTo s (s.time + 10), by rw [step_nil empty, idle_powered on], later, ?_, ctxs, fun none => ?_⟩
    · rw [later]
      conv_lhs => rw [parts, Nat.max_eq_right (Nat.le_add_right ..)]
    · rw [step_nil empty, idle_powered on, foldl_drainRecords_none]
      exact fun n hn => (waitingRecords_advanceTo ..).trans (none n (List.mem_range.1 hn))

end Sys2Proof.Machine

/-! SUPPORT. CMD_ABORT: the target that it names, and what becomes of it (12 R315, 14 R355 to R357). -/

namespace Sys2Proof.Machine

/-! ### Commands after one of them has started (R330) -/

section
variable {s : State} {q seq : Nat}

theorem isCmd_self {t : Taken} (same : t.q = q ∧ t.seq = seq) : isCmd q seq t = true := by simp [isCmd, same]

theorem findCmd_key {t : Taken} (found : findCmd s q seq = some t) : t.q = q ∧ t.seq = seq := by
  simpa [isCmd] using List.find?_some found

/-- Starting a command marks it, wherever it is looked up. -/
theorem findCmd_start (s : State) (q seq tq tseq : Nat) : findCmd (start s q seq) tq tseq =
    (findCmd s tq tseq).map fun t => if isCmd q seq t then { t with started := true } else t := by
  have key (t : Taken) : isCmd tq tseq (if isCmd q seq t then { t with started := true } else t) = isCmd tq tseq t := by
    split <;> rfl
  unfold findCmd start
  rw [List.find?_map]
  congr 2
  funext t
  exact key t

theorem findCmd_start_none {tq tseq : Nat} (absent : findCmd s tq tseq = none) : findCmd (start s q seq) tq tseq = none := by
  rw [findCmd_start, absent, Option.map_none]

theorem findCmd_start_other {tq tseq : Nat} {t : Taken} (other : ¬ (tq = q ∧ tseq = seq)) (found : findCmd s tq tseq = some t) :
    findCmd (start s q seq) tq tseq = some t := by
  obtain ⟨rfl, rfl⟩ := findCmd_key found
  rw [findCmd_start, found, Option.map_some, if_neg (by simpa [isCmd] using other)]

theorem findCmd_start_self {c : Taken} (found : findCmd s q seq = some c) :
    findCmd (start s q seq) q seq = some { c with started := true } := by
  rw [findCmd_start, found, Option.map_some, if_pos (isCmd_self (findCmd_key found))]

theorem findCmd_of_ready {op : Nat} {c : Taken} (taken : ready s q seq op = some c) : findCmd s q seq = some c :=
  (Option.filter_eq_some_iff.1 taken).1

/-! ### The checks of CMD_ABORT (R355) -/

theorem mayAbort_of {tq : Nat} (inRange : tq < 64) (own : 4 ≤ q → 4 ≤ tq ∧ (queueAt s tq).ctx = (queueAt s q).ctx) :
    mayAbort s q tq = true := by
  rcases Nat.lt_or_ge q 4 with low | high
  · simp [mayAbort, inRange, low]
  · obtain ⟨high', same⟩ := own high
    simp [mayAbort, inRange, high', same]

/-- An abort of a queue that it may name goes by whether its target has completed since it was taken. -/
theorem exec_cmdAbort {c : Taken} (taken : ready s q seq 0x0905 = some c)
    (first : (s.aborts.any fun a => a.q == q && a.seq == seq) = false) (inRange : c.param 0 < 64)
    (own : 4 ≤ q → 4 ≤ c.param 0 ∧ (queueAt s (c.param 0)).ctx = (queueAt s q).ctx) :
    exec (.cmdAbort q seq) s = .next (c.late.elim (abortTarget (start s q seq) q seq (c.param 0) (c.param 1))
      (abortLate (start s q seq) q seq (c.param 0) (c.param 1))) := by
  have allowed : ¬ (4 ≤ q ∧ !mayAbort (start s q seq) q (c.param 0)) := by
    rw [mayAbort_of (s := start s q seq) inRange own]
    exact fun h => Bool.false_ne_true h.2
  refine onCmd_runs taken ?_
  rw [show (start s q seq).aborts = s.aborts from rfl, first, if_neg Bool.false_ne_true, if_neg allowed, if_neg (Nat.not_le.2 inRange)]
  cases c.late <;> rfl

/-! ### The target (R356, R357) -/

section
variable {tq tseq : Nat}

/-- An abort that names itself answers 3. -/
theorem abortTarget_self {t : Taken} (found : findCmd s q seq = some t) (op : t.opcode = 0x0905) :
    abortTarget s q seq q seq = finish s q seq stOk [3] := by
  simp [abortTarget, found, op]

/-- An abort of nothing that is known answers 0. -/
theorem abortTarget_unknown (absent : findCmd s tq tseq = none) (idle : launched s tq tseq = none) (empty : (queueAt s tq).held = []) :
    abortTarget s q seq tq tseq = finish s q seq stOk [0] := by
  simp [abortTarget, absent, idle, empty]

/-- An abort of a completed LAUNCH faults the program that runs. -/
theorem abortTarget_launched {n : Nat} (absent : findCmd s tq tseq = none) (runs : launched s tq tseq = some n) :
    abortTarget s q seq tq tseq =
      faultContext { s with aborts := s.aborts ++ [{ q, seq, tq, tseq, outcome := 1 }] } n stAborted := by
  simp [abortTarget, absent, runs]

section
variable {t : Taken} (found : findCmd s tq tseq = some t) (other : ¬ (tq = q ∧ tseq = seq))
include found other

theorem abortTarget_waits (stays : unabortable t.opcode = true) : abortTarget s q seq tq tseq =
    { s with aborts := s.aborts ++ [{ q, seq, tq, tseq, outcome := 3 }] } := by
  have notSelf : ¬ (t.opcode = 0x0905 ∧ tq = q ∧ tseq = seq) := fun h => other h.2
  simp only [abortTarget, found, notSelf, stays, Bool.true_or, if_false, if_true]

theorem abortTarget_stops (stops : unabortable t.opcode = false) (noSlice : t.opcode ≠ 0x0904) : abortTarget s q seq tq tseq =
    finish (stopTarget { s with aborts := s.aborts ++ [{ q, seq, tq, tseq, outcome := 1 }] } t) tq tseq stAborted [] := by
  have notSelf : ¬ (t.opcode = 0x0905 ∧ tq = q ∧ tseq = seq) := fun h => other h.2
  have slice : (t.opcode == 0x0904) = false := beq_eq_false_iff_ne.2 noSlice
  simp only [abortTarget, found, notSelf, stops, slice, Bool.false_and, Bool.or_false, Bool.false_eq_true, if_false]

end

end

end

/-- Settles O43: by what the take noted, and otherwise by what the abort names: itself, nothing, a command, or a completed LAUNCH. -/
theorem abortsStopCommands : Obligations.AbortsStopCommands := by
  unfold Obligations.AbortsStopCommands
  intro s q seq c taken first inRange own
  have runs := exec_cmdAbort taken first inRange own
  refine ⟨fun o late => ?late, fun notLate => ?_⟩
  case late =>
    rw [runs, late]
    rfl
  rw [notLate, Option.elim_none] at runs
  refine ⟨fun sameQ sameSeq => ?self, fun absent idle empty => ?unknown, fun t other found =>
    ⟨fun stays => ?stays, fun stops noSlice _ => ?stops⟩, fun n absent runsOn => ?launched⟩
  case self =>
    rw [runs, sameQ, sameSeq]
    exact congrArg _ (abortTarget_self (findCmd_start_self (findCmd_of_ready taken)) (ready_key taken).2.2)
  case unknown =>
    rw [runs]
    exact congrArg _ (abortTarget_unknown (findCmd_start_none absent) idle empty)
  case stays =>
    rw [runs]
    exact congrArg _ (abortTarget_waits (findCmd_start_other other found) other stays)
  case stops =>
    rw [runs]
    exact congrArg _ (abortTarget_stops (findCmd_start_other other found) other stops noSlice)
  case launched =>
    rw [runs]
    exact congrArg _ (abortTarget_launched (findCmd_start_none absent) runsOn)

end Sys2Proof.Machine

/-! SUPPORT. O44 and O46 fail where a CMD_ABORT has been taken and has not acted yet: a completion that it names is noted with the
abort, and an OK becomes OK_ABORT_LATE (13 R333, 14 R356). -/

namespace Sys2Proof.Machine

/-- A CMD_ABORT of queue 1 that names command 5 of that queue and has not acted yet. -/
def abortOfFive : Taken :=
  { q := 1, seq := 9, opcode := 0x0905, context := 0, fence := false, p := [1, 5], payload := [], started := false }

/-- The completion of command 5, a MEM_WRITE that ends OK. -/
def replyOfFive : Completion := { opcode := 0x0201, status := stOk, kind := 0, context := 0, last := false, seq := 5, p := [] }

/-- A queue whose completion ring of 16 entries is full. -/
def fullRing : HostQueue := { HostQueue.fresh with enable := true, stopped := false, chead := 16 }

/-- The abort is outstanding, in a package that runs with its link UP; queue 1 is as given. -/
def abortPending (Q : HostQueue) : State :=
  { State.reset with
    pkg := { Package.fresh with phase := .running }, tether := { Tether.fresh with st := .up }
    queues := State.reset.queues.set 1 Q, cmds := [abortOfFive] }

/-- The entry that waits for room is not the one that was posted. -/
theorem post_abortPending_held : ((post (abortPending fullRing) 1 replyOfFive).queues[1]?).map (·.held.map (·.status)) = some [stAbortLate] := by
  decide +kernel

/-- Refutes O44: a full ring holds the OK of command 5 as OK_ABORT_LATE, since the abort that names it was taken before. -/
theorem not_completionsReachTheRing : ¬ Obligations.CompletionsReachTheRing := by
  unfold Obligations.CompletionsReachTheRing
  rintro ⟨-, full, -⟩
  obtain ⟨t, rfl, held, -⟩ := full (abortPending fullRing) 1 fullRing replyOfFive rfl (by decide)
  have late := post_abortPending_held
  rw [held] at late
  exact absurd late (by decide)

/-- A queue whose ring has been full, with the completion of command 5 waiting for room. -/
def heldRing : HostQueue := { fullRing with held := [replyOfFive] }

/-- The outcome is noted with the abort. -/
theorem qctail_abortPending : ∃ t, exec (.qctailWrite 1 1) (abortPending heldRing) = .next t ∧ t.cmds.map (·.late) = [some 2] :=
  ⟨_, rfl, by decide +kernel⟩

/-- Refutes O46: the room that QCTAIL makes takes the completion of command 5, and the outcome is noted with the abort that names it. -/
theorem not_queueRegistersAct : ¬ Obligations.QueueRegistersAct := by
  unfold Obligations.QueueRegistersAct
  intro h
  obtain ⟨reach, -⟩ := h (abortPending heldRing) 1 1 heldRing rfl
  obtain ⟨-, -, -, -, tail⟩ := reach (by decide +kernel)
  obtain ⟨t, e, run, -, -, -, parts⟩ := tail replyOfFive rfl (by decide) rfl (by decide)
  obtain ⟨u, run', noted⟩ := qctail_abortPending
  have settled : settleRemoval t = t := by
    rw [parts]
    exact if_neg Bool.false_ne_true
  obtain rfl : u = t := (Host.Outcome.next.inj (run'.symm.trans run)).trans settled
  have kept : u.cmds.map (·.late) = [none] := by
    rw [parts]
    rfl
  exact absurd (kept.symm.trans noted) (by decide)

end Sys2Proof.Machine

/-! SUPPORT. Doorbells, and the intake of ring entries: which queue is next, what an entry's read brings, and what a taken entry
leaves (13 R327 to R332, R334). -/

namespace Sys2Proof.Machine

/-! ### Time alone moves no queue, command or flit (R396) -/

section
variable (s : State) (t : Nat)
@[simp] theorem advanceTo_tether : (advanceTo s t).tether = s.tether := by rw [(advanceTo_parts s t).1]
@[simp] theorem advanceTo_queues : (advanceTo s t).queues = s.queues := by rw [(advanceTo_parts s t).1]
@[simp] theorem advanceTo_cmds : (advanceTo s t).cmds = s.cmds := by rw [(advanceTo_parts s t).1]
@[simp] theorem advanceTo_pkg : (advanceTo s t).pkg = s.pkg := by rw [(advanceTo_parts s t).1]
end

@[simp] theorem Tether.pump_tackTimers (t : Tether) : t.pump.tackTimers = t.tackTimers := by
  unfold Tether.pump
  split <;> rfl

/-! ### Queues -/

section
variable {s : State} {q : Nat} {Q : HostQueue} (hQ : s.queues[q]? = some Q)
include hQ

theorem queueAt_of_getElem? : queueAt s q = Q := by rw [queueAt, List.getD_eq_getElem?_getD, hQ, Option.getD_some]

theorem getElem?_modQueue_self (f : HostQueue → HostQueue) : (modQueue s q f).queues[q]? = some (f Q) := by
  rw [modQueue, getElem?_modAt, if_pos rfl, hQ, Option.map_some]

end

theorem getElem?_modQueue_other (s : State) {q r : Nat} (other : r ≠ q) (f : HostQueue → HostQueue) :
    (modQueue s q f).queues[r]? = s.queues[r]? := by rw [modQueue, getElem?_modAt, if_neg (Ne.symm other)]

/-- The log takes no queue. -/
@[simp] theorem logError_queues (s : State) (a b c d e f : Nat) (l : List Nat) : (logError s a b c d e f l).queues = s.queues := by
  rw [logError_toll]

/-! ### Doorbells (R327) -/

section
variable {s : State} {q v : Nat} {Q : HostQueue} (reach : writesReach s = true) (hQ : s.queues[q]? = some Q)

include reach in
theorem exec_doorbell : exec (.doorbell q v) s = .next (ring s q v) := congrArg Host.Outcome.next (hostWrite_reaches reach _ _ _)

include hQ

theorem ring_ignored (h : Q.stopped = true ∨ s.pkg.ready = false ∨ 2 ^ 31 ≤ sub32 v Q.head) :
    ring s q v = modQueue s q fun Q => { Q with ignored := min (Q.ignored + 1) 255 } := by
  rw [ring, queueAt_of_getElem? hQ, if_pos]
  simpa only [Bool.or_eq_true, Bool.not_eq_true', decide_eq_true_eq, or_assoc] using h

section
variable (armed : Q.stopped = false) (up : s.pkg.ready = true) (fresh : sub32 v Q.head < 2 ^ 31)
include armed up fresh

omit hQ in
theorem not_ignored : (Q.stopped || !s.pkg.ready || decide (2 ^ 31 ≤ sub32 v Q.head)) = false := by
  rw [armed, up, decide_eq_false (Nat.not_le.2 fresh)]
  rfl

theorem ring_overruns (beyond : 2 ^ (Q.ringLog2 + 4) < sub32 v Q.head + 1) : ring s q v = stopQueue s q stBadParam Q.head v := by
  rw [ring, queueAt_of_getElem? hQ, not_ignored armed up fresh, if_neg Bool.false_ne_true, if_pos beyond]

theorem ring_sets (within : sub32 v Q.head + 1 ≤ 2 ^ (Q.ringLog2 + 4)) : ring s q v = modQueue s q fun Q => { Q with target := some v } := by
  rw [ring, queueAt_of_getElem? hQ, not_ignored armed up fresh, if_neg Bool.false_ne_true, if_neg (Nat.not_lt.2 within)]

end

end

/-- A stopped queue wants no entry. -/
theorem wantsEntry_stopped {s : State} {q : Nat} {Q : HostQueue} (hQ : s.queues[q]? = some Q) (stopped : Q.stopped = true) :
    wantsEntry s q = false := by
  simp [wantsEntry, queueAt_of_getElem? hQ, stopped]

/-- Stopping a queue for a doorbell sets its registers and its mailbox, and no other queue's. -/
theorem stopQueue_queues {s : State} {q : Nat} {Q : HostQueue} (hQ : s.queues[q]? = some Q) (expect found : Nat) :
    (stopQueue s q stBadParam expect found).queues[q]? = some { Q with
        stopped := true, stopEvent := false, cause := stBadParam, target := none, staleFrom := none, event := stBadParam
        expect := expect, found := found, mptime := lo32 s.time }
      ∧ (∀ r, r ≠ q → (stopQueue s q stBadParam expect found).queues[r]? = s.queues[r]?)
      ∧ (stopQueue s q stBadParam expect found).cmds = s.cmds := by
  have same : (logError s 0x0061 stBadParam sevWarning srcPackage 0xFF 0xFF [q, expect, found]).queues[q]? = some Q := by
    rw [logError_queues, hQ]
  refine ⟨?_, fun r other => ?_, ?_⟩
  · rw [stopQueue, getElem?_modQueue_self same, logError_time]
    rfl
  · rw [stopQueue, getElem?_modQueue_other _ other, logError_queues]
  · rw [stopQueue, modQueue_cmds, logError_toll]

/-! ### The queue that is next (R328) -/

theorem waitsEntry_of_nextInTurn {s : State} {base k last q : Nat} (next : nextInTurn s base k last = some q) : waitsEntry s q = true :=
  List.find?_some next

theorem nextInTurn_range {s : State} {base k last q : Nat} (pos : 0 < k) (next : nextInTurn s base k last = some q) :
    base ≤ q ∧ q < base + k := by
  obtain ⟨i, -, rfl⟩ := List.mem_map.1 (List.mem_of_find?_eq_some next)
  exact ⟨Nat.le_add_right .., Nat.add_lt_add_left (Nat.mod_lt _ pos) _⟩

/-- The turn goes through all four of the first queues. -/
theorem waits_false_of_nextInTurn {s : State} {last : Nat} (absent : nextInTurn s 0 4 last = none) {k : Nat} (first : k < 4) :
    waitsEntry s k = false := by
  have all := List.find?_eq_none.1 absent k (List.mem_map.2 ⟨(k + 4 - (last + 1) % 4) % 4, List.mem_range.2 (by omega), by omega⟩)
  simpa using all

theorem nextQueue_waits {s : State} {q : Nat} (next : nextQueue s = some q) :
    waitsEntry s q = true ∧ (4 ≤ q → ∀ k, k < 4 → waitsEntry s k = false) := by
  unfold nextQueue at next
  cases high : nextInTurn s 0 4 s.tether.lastHigh with
  | some r =>
    rw [high, Option.some_or] at next
    obtain rfl := Option.some.inj next
    have low := (nextInTurn_range (by decide) high).2
    exact ⟨waitsEntry_of_nextInTurn high, fun other => absurd low (by omega)⟩
  | none =>
    rw [high, Option.none_or] at next
    exact ⟨waitsEntry_of_nextInTurn next, fun _ _ first => waits_false_of_nextInTurn high first⟩

/-! ### A taken entry (R328 to R330, R436) -/

/-- The state once the head entry has left the ring with its TACK. -/
def leaveRing (s : State) (q : Nat) : State :=
  modTether (sendTack (modQueue s q fun Q => { Q with head := add32 (queueAt s q).head 1, staleFrom := none }) q (queueAt s q).head)
    fun t => if q < 4 then { t with lastHigh := q } else { t with lastLow := q }

section
variable {s : State} {q : Nat} {e : List Byte} {payload : HostRead}

theorem takeEntry_ok {t : Taken} (ok : checkEntry s q e payload = .ok t) : takeEntry s q e payload =
    if s.pkg.removing then post (leaveRing s q) q
      { opcode := t.opcode, status := stAborted, kind := 0, context := t.context, last := false, seq := (queueAt s q).head, p := [] }
    else { leaveRing s q with cmds := s.cmds ++ [t] } := by
  unfold takeEntry
  rw [ok]
  rfl

theorem takeEntry_error {x : Nat × List Nat} (bad : checkEntry s q e payload = .error x) : takeEntry s q e payload =
    post (leaveRing s q) q { opcode := field e 0 2, status := x.1, kind := 0, context := field e 5 1, last := false
                             seq := (queueAt s q).head, p := x.2 } := by
  unfold takeEntry
  rw [bad]
  rfl

end

section
variable {s : State} {q : Nat} {Q : HostQueue} (hQ : s.queues[q]? = some Q)
include hQ

/-- The queue's head moves on, and the adapter's timer of the entry runs. -/
theorem leaveRing_parts : (leaveRing s q).queues[q]? = some { Q with head := add32 Q.head 1, staleFrom := none }
    ∧ (leaveRing s q).tether.tackTimers = s.tether.tackTimers ++ [{ q, seq := Q.head, flit := s.tether.nextFlit, since := s.time }]
    ∧ leaveRing s q = { s with queues := (leaveRing s q).queues, tether := (leaveRing s q).tether } := by
  refine ⟨?_, ?_, rfl⟩
  · rw [leaveRing, queueAt_of_getElem? hQ]
    exact getElem?_modQueue_self hQ _
  · have timers : (leaveRing s q).tether.tackTimers =
        (sendTack (modQueue s q fun Q => { Q with head := add32 (queueAt s q).head 1, staleFrom := none }) q
          (queueAt s q).head).tether.tackTimers := by
      unfold leaveRing modTether
      split <;> rfl
    rw [timers, queueAt_of_getElem? hQ]
    exact Tether.pump_tackTimers _

/-- The head entry once read leaves the ring as it would have before, with its address noted (R326). -/
theorem leaveRing_fetchEntry : leaveRing (fetchEntry s q) q =
    modTether (modQueue s q fun Q => { Q with head := add32 Q.head 1, staleFrom := none }) fun t =>
      let t := Tether.pump { t with
        fetchAddr := entryAddr Q Q.head, unsent := t.unsent + 1
        tackTimers := t.tackTimers ++ [{ q, seq := Q.head, flit := t.nextFlit, since := s.time }] }
      if q < 4 then { t with lastHigh := q } else { t with lastLow := q } := by
  have same : queueAt (fetchEntry s q) q = Q := queueAt_of_getElem? hQ
  have fetched : fetchEntry s q = modTether s fun t => { t with fetchAddr := entryAddr Q Q.head } := by
    rw [fetchEntry, queueAt_of_getElem? hQ]
  rw [leaveRing, same, modQueue_const (s := fetchEntry s q) hQ, modQueue_const hQ fun Q => { Q with head := add32 Q.head 1, staleFrom := none },
    fetched]
  rfl

/-! ### The first read (R328) -/

section
variable (next : nextQueue s = some q)
include next

theorem exec_entryTake_valid {e : List Byte} (valid : entryValid Q.head e = true) (payload : HostRead) :
    exec (.entryTake q (some e) payload) s = .next (takeEntry (fetchEntry s q) q e payload) := by
  have same : queueAt (fetchEntry s q) q = Q := queueAt_of_getElem? hQ
  refine congrArg Host.Outcome.next ?_
  rw [if_neg (not_not.2 next)]
  simp only [same, Option.filter_some, valid, if_true]

theorem exec_entryTake_invalid {entry : HostRead} (invalid : entry.filter (entryValid Q.head) = none) (payload : HostRead) :
    exec (.entryTake q entry payload) s = .next (modQueue (fetchEntry s q) q fun Q => { Q with staleFrom := some s.time }) := by
  have same : queueAt (fetchEntry s q) q = Q := queueAt_of_getElem? hQ
  refine congrArg Host.Outcome.next ?_
  rw [if_neg (not_not.2 next)]
  simp only [same, invalid]
  rfl

end

end

/-! ### Later reads (R328) -/

section
variable {s : State} {q first : Nat} {Q : HostQueue} (hQ : s.queues[q]? = some Q) (wants : wantsEntry s q = true)
  (stale : Q.staleFrom = some first) (quiet : s.tether.activity = none)
include hQ

/-- The read at the next point of time. -/
theorem queueAt_reread (t : Nat) : queueAt (fetchEntry (advanceTo s t) q) q = Q :=
  queueAt_of_getElem? (s := fetchEntry (advanceTo s t) q) ((congrArg (·[q]?) (advanceTo_queues s t)).trans hQ)

include wants stale quiet

theorem exec_entryReread_valid {e : List Byte} (valid : entryValid Q.head e = true) (payload : HostRead) :
    exec (.entryReread q (some e) payload) s = .next
      (if nextQueue (modQueue (fetchEntry (advanceTo s (nextRead s first)) q) q fun Q => { Q with staleFrom := none }) = some q then
        takeEntry (modQueue (fetchEntry (advanceTo s (nextRead s first)) q) q fun Q => { Q with staleFrom := none }) q e payload
      else modQueue (fetchEntry (advanceTo s (nextRead s first)) q) q fun Q => { Q with staleFrom := none }) := by
  refine congrArg Host.Outcome.next ?_
  simp only [wants, quiet, Option.isNone_none, Bool.and_self, queueAt_of_getElem? hQ, stale, queueAt_reread hQ, Option.filter_some,
    valid, if_true]

theorem exec_entryReread_stops {e : List Byte} (invalid : entryValid Q.head e = false)
    (due : first + 16000 ≤ max s.time (nextRead s first)) (payload : HostRead) :
    exec (.entryReread q (some e) payload) s = .next (stopQueue (fetchEntry (advanceTo s (nextRead s first)) q) q 0x20 Q.head
      (if field e 8 4 = Q.head then field e 0x7C 4 else field e 8 4)) := by
  have late : first + 16000 ≤ (fetchEntry (advanceTo s (nextRead s first)) q).time := due.trans_eq (advanceTo_time ..).symm
  refine congrArg Host.Outcome.next ?_
  simp only [wants, quiet, Option.isNone_none, Bool.and_self, queueAt_of_getElem? hQ, stale, queueAt_reread hQ, Option.filter_some,
    invalid, Bool.false_eq_true, if_false, if_pos late, Option.isNone_some, foundIn]

theorem exec_entryReread_waits {entry : HostRead} (invalid : entry.filter (entryValid Q.head) = none)
    (early : max s.time (nextRead s first) < first + 16000) (payload : HostRead) :
    exec (.entryReread q entry payload) s = .next (fetchEntry (advanceTo s (nextRead s first)) q) := by
  have notDue : ¬ first + 16000 ≤ (fetchEntry (advanceTo s (nextRead s first)) q).time := by
    rw [show (fetchEntry (advanceTo s (nextRead s first)) q).time = _ from advanceTo_time ..]
    omega
  refine congrArg Host.Outcome.next ?_
  simp only [wants, quiet, Option.isNone_none, Bool.and_self, queueAt_of_getElem? hQ, stale, queueAt_reread hQ, invalid, if_neg notDue]

end

/-- What the read of a head entry out of its turn leaves, for the take that may follow: beside the address and the time, the stale mark. -/
theorem reread_parts {s w : State} {q at_ : Nat} {Q : HostQueue} (hQ : s.queues[q]? = some Q)
    (hw : w = modQueue (fetchEntry (advanceTo s at_) q) q fun Q => { Q with staleFrom := none }) :
    w.queues[q]? = some { Q with staleFrom := none } ∧ w.cmds = s.cmds ∧ w.pkg = s.pkg ∧ w.time = max s.time at_
      ∧ w.tether.tackTimers = s.tether.tackTimers ∧ w.tether.nextFlit = s.tether.nextFlit
      ∧ w = { advanceTo s at_ with queues := w.queues, tether := w.tether } := by
  have timers : (advanceTo s at_).tether.tackTimers = s.tether.tackTimers := by rw [advanceTo_tether]
  have nextFlit : (advanceTo s at_).tether.nextFlit = s.tether.nextFlit := by rw [advanceTo_tether]
  subst hw
  refine ⟨getElem?_modQueue_self (s := fetchEntry (advanceTo s at_) q) ((congrArg (·[q]?) (advanceTo_queues s at_)).trans hQ) _,
    advanceTo_cmds s at_, advanceTo_pkg s at_, advanceTo_time s at_, timers, nextFlit, rfl⟩

/-- Settles O45: the doorbell by what it finds, the queue that is next, the first read of its head entry, and the later ones. -/
theorem queuesTakeEntries : Obligations.QueuesTakeEntries := by
  unfold Obligations.QueuesTakeEntries
  refine ⟨fun s q v Q reach hQ => ⟨fun old => ?ignored, fun armed up fresh => ⟨fun beyond => ?overruns, fun within => ?sets⟩⟩,
    fun s q Q hQ next => ⟨fun e payload u valid hu => ⟨fun t ok => ?ok, fun st p bad => ?refused⟩, fun entry payload invalid =>
      exec_entryTake_invalid hQ next invalid payload⟩,
    fun s q next => nextQueue_waits next, fun s v w q first Q hQ wants stale quiet hv hw => ⟨fun e payload valid => ?reread,
      fun e payload invalid due => ?stops, fun entry payload invalid early => ?waits⟩⟩
  case ignored => rw [exec_doorbell reach, ring_ignored hQ old]
  case overruns =>
    obtain ⟨own, others, cmds⟩ := stopQueue_queues hQ Q.head v
    exact ⟨_, by rw [exec_doorbell reach, ring_overruns hQ armed up fresh beyond], own, others, cmds, wantsEntry_stopped own rfl⟩
  case sets => rw [exec_doorbell reach, ring_sets hQ armed up fresh within]
  case ok =>
    rw [exec_entryTake_valid hQ next valid, takeEntry_ok (s := fetchEntry s q) ok, leaveRing_fetchEntry hQ, ← hu,
      show (queueAt (fetchEntry s q) q).head = Q.head from congrArg HostQueue.head (queueAt_of_getElem? hQ)]
    rfl
  case refused =>
    rw [exec_entryTake_valid hQ next valid, takeEntry_error (s := fetchEntry s q) bad, leaveRing_fetchEntry hQ, ← hu,
      show (queueAt (fetchEntry s q) q).head = Q.head from congrArg HostQueue.head (queueAt_of_getElem? hQ)]
  case reread =>
    have read := exec_entryReread_valid hQ wants stale quiet valid payload
    rw [← hv, ← hw] at read
    obtain ⟨unmarked, cmds, pkg, time, timers, nextFlit, parts⟩ := reread_parts hQ (hw.trans (by rw [hv]))
    obtain ⟨own, timers', parts'⟩ := leaveRing_parts unmarked
    refine ⟨fun other => by rw [read, if_neg other], fun t next ok inService => ⟨leaveRing w q, ?_, own, ?_, ?_⟩⟩
    · have staying : w.pkg.removing = false := by rw [pkg, inService]
      rw [read, if_pos next, takeEntry_ok ok, staying, if_neg Bool.false_ne_true, cmds]
    · rw [timers', timers, nextFlit, time]
    · rw [parts', hv]
      rw [parts]
  case stops => rw [exec_entryReread_stops hQ wants stale quiet invalid due, hv]
  case waits => rw [exec_entryReread_waits hQ wants stale quiet invalid early, hv]

end Sys2Proof.Machine

/-! SUPPORT. The Tether's flits: what an acknowledgement frees, how retry activity begins, replays and ends (13 R319, R320, R329, R338, R339). -/

namespace Sys2Proof.Machine

/-! ### Sending waiting flits (R320) -/

section
variable (t : Tether)
@[simp] theorem Tether.pump_st : t.pump.st = t.st := by
  unfold Tether.pump
  split <;> rfl
@[simp] theorem Tether.pump_activity : t.pump.activity = t.activity := by
  unfold Tether.pump
  split <;> rfl
@[simp] theorem Tether.pump_waiting : t.pump.waiting = t.waiting := by
  unfold Tether.pump
  split <;> rfl
@[simp] theorem Tether.pump_awaitFlit : t.pump.awaitFlit = t.awaitFlit := by
  unfold Tether.pump
  split <;> rfl
@[simp] theorem Tether.pump_events : t.pump.events = t.events := by
  unfold Tether.pump
  split <;> rfl
end

/-! ### What an acknowledgement frees (R320, R338) -/

/-- A flit is not covered by an acknowledgement. -/
def openAfter (ack n : Nat) : Bool := !decide (sub32 ack n < 2 ^ 31)

/-- The Tether once the flits up to an acknowledged number have left the retry buffer. -/
def Tether.acked (t : Tether) (ack : Nat) : Tether :=
  Tether.pump { t with
    unacked := t.unacked.filter fun x => openAfter ack x.1, activity := t.activity.map fun l => l.filter (openAfter ack)
    tackTimers := t.tackTimers.filter fun x => openAfter ack x.flit, posted := t.posted.filter fun w => openAfter ack w.last
    hostMem := (t.posted.filter fun w => !openAfter ack w.last).foldl (fun m w => Memory.write m w.addr w.bytes) t.hostMem
    unflushed := t.unflushed ++ ((t.posted.filter fun w => !openAfter ack w.last).filter fun w => !w.reply).map fun w =>
      (w.addr, w.bytes.length) }

theorem ackFlits_eq (s : State) (ack : Nat) :
    ackFlits s ack = settleReads (settleActivity (settleRemoval (modTether s fun t => t.acked ack))) := rfl

/-- A flit within the acknowledgement closes the activity that waits for it alone. -/
theorem filter_openAfter_nil {l : List Nat} {ack : Nat} (all : (l.all fun n => sub32 ack n < 2 ^ 31) = true) :
    l.filter (openAfter ack) = [] := by
  rw [List.filter_eq_nil_iff]
  intro n hn
  have covered := List.all_eq_true.1 all n hn
  rw [openAfter, covered]
  decide

/-! ### What follows an acknowledgement -/

section
variable {s : State}

theorem settleRemoval_inService (stays : s.pkg.removing = false) : settleRemoval s = s := by
  rw [settleRemoval, stays]
  exact if_neg Bool.false_ne_true

/-- A removal that goes on touches neither retry activity nor the accesses that wait. -/
theorem settleRemoval_waits (s : State) : (settleRemoval s).tether.activity = s.tether.activity
    ∧ (settleRemoval s).tether.waiting = s.tether.waiting := by
  unfold settleRemoval
  split
  · dsimp only
    split <;> exact ⟨rfl, rfl⟩
  · exact ⟨rfl, rfl⟩

theorem settleActivity_none (quiet : s.tether.activity = none) : settleActivity s = s := by rw [settleActivity, quiet]

theorem settleReads_empty (empty : s.tether.waiting = []) : settleReads s = s := by
  have same : runWaiting s = s := by
    rw [runWaiting, empty, List.foldl_nil, ← empty]
    rfl
  rw [settleReads, same, ite_self]

/-- Outside retry activity, with no access waiting, an acknowledgement moves a removal on and nothing else. -/
theorem ackFlits_quiet (quiet : s.tether.activity = none) (empty : s.tether.waiting = []) (ack : Nat) :
    ackFlits s ack = settleRemoval (modTether s fun t => t.acked ack) := by
  obtain ⟨activity, waiting⟩ := settleRemoval_waits (modTether s fun t => t.acked ack)
  have quiet' : (settleRemoval (modTether s fun t => t.acked ack)).tether.activity = none := by
    rw [activity]
    exact (Tether.pump_activity _).trans (by rw [quiet]; rfl)
  rw [ackFlits_eq, settleActivity_none quiet', settleReads_empty]
  rw [waiting]
  exact (Tether.pump_waiting _).trans empty

/-! ### The end of retry activity (R62, R328, R339) -/

/-- Retry activity has ended: stale windows, TACK timers and watchdogs start from zero. -/
def activityEnded (s : State) : State :=
  { s with
    tether := { s.tether with
      activity := none, events := s.tether.events ++ [.activityEnd], tackTimers := s.tether.tackTimers.map fun x => { x with since := s.time } }
    queues := s.queues.map fun Q => { Q with staleFrom := Q.staleFrom.map fun _ => s.time }
    ctxs := s.ctxs.map (Option.map fun c => { c with program := c.program.map fun p => { p with watchdogAt := s.time } }) }

theorem settleActivity_ends (closed : s.tether.activity = some []) (up : s.tether.st = .up) (heard : s.tether.awaitFlit = false) :
    settleActivity s = activityEnded s := by
  rw [settleActivity, closed]
  exact if_pos ⟨up, heard⟩

theorem ctxAt_activityEnded (s : State) (n : Nat) : ctxAt (activityEnded s) n =
    (ctxAt s n).map fun c => { c with program := c.program.map fun p => { p with watchdogAt := s.time } } := by
  unfold ctxAt activityEnded
  rw [List.getElem?_map]
  rcases s.ctxs[n]? with _ | _ | c <;> rfl

theorem progAt_activityEnded (s : State) (n : Nat) : (progAt (activityEnded s) n).map (·.watchdogAt) = (progAt s n).map fun _ => s.time := by
  unfold progAt
  rw [ctxAt_activityEnded]
  cases ctxAt s n with
  | none => rfl
  | some c => cases h : c.program <;> simp [h]

/-- An acknowledgement of all flits that the activity waits for ends it. -/
theorem ackFlits_ends {l : List Nat} {ack : Nat} (stays : s.pkg.removing = false) (on : s.tether.activity = some l)
    (empty : s.tether.waiting = []) (all : (l.all fun n => sub32 ack n < 2 ^ 31) = true) (up : s.tether.st = .up)
    (heard : s.tether.awaitFlit = false) : ackFlits s ack = activityEnded (modTether s fun t => t.acked ack) := by
  have closed : (modTether s fun t => t.acked ack).tether.activity = some [] := by
    refine (Tether.pump_activity _).trans ?_
    show s.tether.activity.map _ = _
    rw [on, Option.map_some, filter_openAfter_nil all]
  rw [ackFlits_eq, settleRemoval_inService (s := modTether s fun t => t.acked ack) stays,
    settleActivity_ends closed ((Tether.pump_st _).trans up) ((Tether.pump_awaitFlit _).trans heard), settleReads_empty]
  exact (Tether.pump_waiting _).trans empty

/-! ### The beginning of retry activity, and replays (R320, R323) -/

theorem beginTetherRetry_quiet (quiet : s.tether.activity = none) : beginTetherRetry s = modTether s fun t =>
    { t with activity := some (t.unacked.map (·.1)), events := t.events ++ [.activityStart] } := by
  rw [beginTetherRetry, quiet]
  exact if_neg Bool.false_ne_true

theorem beginTetherRetry_on (on : s.tether.activity.isSome = true) : beginTetherRetry s = s := if_pos on

/-- The retry buffer once it has been replayed. -/
def replayed (s : State) : State :=
  modTether (beginTetherRetry s) fun t => { t with unacked := t.unacked.map fun x => (x.1, x.2 + 1), replays := min (t.replays + 1) 65535 }

theorem replayFlits_eq (held : (beginTetherRetry s).tether.unacked ≠ []) : replayFlits s =
    if (replayed s).tether.unacked.any (fun x => decide (8 ≤ x.2)) then enterRetrain (replayed s) else replayed s := by
  unfold replayFlits
  dsimp only
  rw [List.isEmpty_eq_false_iff.2 held]
  exact if_neg Bool.false_ne_true

section
variable (quiet : s.tether.activity = none)
include quiet

theorem replayed_quiet : replayed s = { s with
    tether := { s.tether with
      unacked := s.tether.unacked.map fun x => (x.1, x.2 + 1), replays := min (s.tether.replays + 1) 65535
      activity := some (s.tether.unacked.map (·.1)), events := s.tether.events ++ [.activityStart] } } := by
  rw [replayed, beginTetherRetry_quiet quiet]
  rfl

section
variable (held : s.tether.unacked ≠ [])
include held

theorem replayFlits_quiet : replayFlits s =
    if s.tether.unacked.any (fun x => decide (7 ≤ x.2)) then enterRetrain (replayed s) else replayed s := by
  have counted : (replayed s).tether.unacked.any (fun x => decide (8 ≤ x.2)) = s.tether.unacked.any fun x => decide (7 ≤ x.2) := by
    rw [replayed_quiet quiet, List.any_map]
    congr 1
    funext x
    exact decide_eq_decide.2 (Nat.succ_le_succ_iff)
  rw [replayFlits_eq (by rw [beginTetherRetry_quiet quiet]; exact held), counted]

theorem exec_tetherReplayTimeout (up : s.tether.st = .up) : exec .tetherReplayTimeout s = .next
    (if s.tether.unacked.any (fun x => decide (7 ≤ x.2)) then enterRetrain (replayed s) else replayed s) := by
  refine congrArg Host.Outcome.next ?_
  rw [if_pos ⟨up, by rw [List.isEmpty_eq_false_iff.2 held]; rfl⟩, replayFlits_quiet quiet held]

end

end

/-! ### Flits that arrive (R318 to R320) -/

theorem flitIntact_of {f : TetherFlit} (covered : crc64 (f.header ++ f.data) = f.crc) : flitIntact f = true := beq_iff_eq.2 covered

theorem flitIntact_damaged {f : TetherFlit} (damaged : crc64 (f.header ++ f.data) ≠ f.crc) : flitIntact f = false := beq_eq_false_iff_ne.2 damaged

section
variable {f : TetherFlit} (up : s.tether.st = .up)
include up

/-- The flit that is next in order, intact: it is taken, and its acknowledgement. -/
theorem exec_tetherFlitReceive_next (covered : crc64 (f.header ++ f.data) = f.crc) (ack : Nat) :
    exec (.tetherFlitReceive s.tether.rxSeq ack f) s = .next (ackFlits
      (modTether s fun t => { t with rxSeq := add32 t.rxSeq 1, awaitFlit := false }) ack) := by
  refine congrArg Host.Outcome.next ?_
  rw [if_neg (not_not.2 up), flitIntact_of covered, if_neg (by decide), if_pos rfl]

theorem exec_tetherFlitReceive_damaged (damaged : crc64 (f.header ++ f.data) ≠ f.crc) (seq ack : Nat) :
    exec (.tetherFlitReceive seq ack f) s = .next
      (beginTetherRetry (modTether s fun t => { t with naksSent := t.naksSent + 1, awaitFlit := true })) := by
  refine congrArg Host.Outcome.next ?_
  rw [if_neg (not_not.2 up), flitIntact_damaged damaged, if_pos (by decide)]

end

/-- TACK_TIMER_EXPIRY on a link that is UP and not in retry activity (R329, R339). -/
theorem exec_tackTimerExpiry {q seq : Nat} {x : TackTimer} (on : running s = true) (up : s.tether.st = .up) (quiet : s.tether.activity = none)
    (found : s.tether.tackTimers.find? (fun x => x.q == q && x.seq == seq) = some x) :
    exec (.tackTimerExpiry q seq) s = .next { advanceTo s (x.since + 8000) with
      tether := { s.tether with
        forwarding := false, events := s.tether.events ++ [.unresponsive q seq]
        tackTimers := s.tether.tackTimers.filter fun y => !(y.q == q && y.seq == seq) } } := by
  refine congrArg Host.Outcome.next ?_
  simp only [found, on, up, quiet, beq_self_eq_true, Option.isNone_none, Bool.and_self, if_true, modTether, advanceTo_tether]

end

/-- Settles O48: a flit by whether it is intact and by what its acknowledgement ends, then each row that begins retry activity. -/
theorem tetherRetries : Obligations.TetherRetries := by
  unfold Obligations.TetherRetries
  intro s up
  refine ⟨fun quiet empty ack open_ done hopen f covered hdone => ?taken, fun seq ack f quiet damaged => ?damaged,
    fun l ack f covered stays on empty all => ?ends, fun seq => congrArg Host.Outcome.next (if_pos up),
    fun held quiet => ⟨fun few => ?replay, fun eighth => ?eighth⟩, fun quiet => ?retrain, ?cable,
    fun q seq x on quiet found => exec_tackTimerExpiry on up quiet found⟩
  case taken =>
    obtain rfl : open_ = openAfter ack := funext hopen
    rw [exec_tetherFlitReceive_next up covered, ackFlits_quiet (by exact quiet) (by exact empty), hdone]
    simp only [modTether, Tether.acked, quiet, Option.map_none]
  case damaged =>
    rw [exec_tetherFlitReceive_damaged up damaged, beginTetherRetry_quiet (by exact quiet)]
    rfl
  case ends =>
    refine ⟨_, exec_tetherFlitReceive_next up covered ack, ?_⟩
    rw [ackFlits_ends (by exact stays) (by exact on) (by exact empty) all (by exact up) rfl]
    refine ⟨rfl, congrArg (· ++ [AdapterEvent.activityEnd]) (Tether.pump_events _), rfl, fun x hx => ?_, progAt_activityEnded _, rfl⟩
    obtain ⟨y, -, rfl⟩ := List.mem_map.1 hx
    rfl
  case replay =>
    have none : s.tether.unacked.any (fun x => decide (7 ≤ x.2)) = false := by
      rw [List.any_eq_false]
      intro x hx
      simpa using List.all_eq_true.1 few x hx
    rw [exec_tetherReplayTimeout quiet held up, none, if_neg Bool.false_ne_true, replayed_quiet quiet]
  case eighth =>
    refine ⟨_, by rw [exec_tetherReplayTimeout quiet held up, if_pos eighth], ?_⟩
    rw [enterRetrain, beginTetherRetry_on (by rw [replayed_quiet quiet]; rfl), replayed_quiet quiet]
    exact ⟨rfl, rfl, rfl, rfl, rfl⟩
  case retrain =>
    refine congrArg Host.Outcome.next ?_
    rw [if_pos up, enterRetrain, beginTetherRetry_quiet quiet]
    rfl
  case cable =>
    refine congrArg Host.Outcome.next ?_
    rw [if_pos up]
    rfl

end Sys2Proof.Machine

/-! SUPPORT. Context descriptors: creation, grants, destruction and the query (14 R343 to R347). -/

namespace Sys2Proof.Machine

/-! ### Ranges filled with zeros (R345, R346) -/

/-- An address lies in one of the ranges. -/
def inRanges (rs : List (Nat × Nat)) (a : Nat) : Bool := rs.any fun r => decide (r.1 ≤ a ∧ a < r.1 + r.2)

/-- Empty ranges hold no address. -/
theorem inRanges_filter (rs : List (Nat × Nat)) (a : Nat) : inRanges (rs.filter fun r => r.2 != 0) a = inRanges rs a := by
  unfold inRanges
  rw [List.any_filter]
  congr 1
  funext r
  by_cases empty : r.2 = 0
  · have outside : ¬ (r.1 ≤ a ∧ a < r.1 + r.2) := by omega
    rw [decide_eq_false outside, Bool.and_false]
  · rw [bne_iff_ne.2 empty, Bool.true_and]

section
variable {s : State} (eu : s.hbm.uncorrectable = []) (ec : s.hbm.correctable = []) (er : s.caisson.run = none)
include eu ec er

theorem zeroRange_clean (r : Nat × Nat) : zeroRange s r = { s with hbm := { s.hbm with mem := s.hbm.mem.fill r.1 r.2 0 } } := by
  rw [zeroRange, copyFirst_none er, fill_clean eu ec]

/-- Ranges filled one after another: their bytes are 0, the others as they were. -/
theorem foldl_zeroRange (wf : Memory.Wf s.hbm.mem) (rs : List (Nat × Nat)) : ∃ m, rs.foldl zeroRange s = { s with hbm := { s.hbm with mem := m } }
    ∧ ∀ a, m.get a = if inRanges rs a then 0 else s.hbm.mem.get a := by
  induction rs generalizing s with
  | nil => exact ⟨s.hbm.mem, rfl, fun a => rfl⟩
  | cons r rs ih =>
    obtain ⟨m, zeroed, get⟩ := ih (s := { s with hbm := { s.hbm with mem := s.hbm.mem.fill r.1 r.2 0 } }) eu ec er
      (Memory.wf_fill wf r.1 r.2 0)
    refine ⟨m, by rw [List.foldl_cons, zeroRange_clean eu ec er, zeroed], fun a => ?_⟩
    have first : (s.hbm.mem.fill r.1 r.2 0).get a = if r.1 ≤ a ∧ a < r.1 + r.2 then 0 else s.hbm.mem.get a := by
      rw [Memory.get_fill wf]
      simp
    refine (get a).trans ?_
    show (if inRanges rs a then 0 else (s.hbm.mem.fill r.1 r.2 0).get a) = _
    rw [first, inRanges, inRanges, List.any_cons]
    by_cases here : r.1 ≤ a ∧ a < r.1 + r.2
    · rw [if_pos here, decide_eq_true here, Bool.true_or, if_pos rfl, ite_self]
    · rw [if_neg here, decide_eq_false here, Bool.false_or]

end

/-! ### CTX_CREATE and CTX_GRANT (R343 to R345) -/

section
variable {s : State} {q seq : Nat} {c : Taken}

theorem exec_ctxCreate (taken : ready s q seq 0x0901 = some c) (inRange : c.param 0 < 16) (free : ctxAt s (c.param 0) = none)
    (ok : descriptorOk c.payload = true) (apart : grantMeets s (c.param 0) (grantOf c.payload) = false) :
    exec (.ctxCreate q seq) s = .next (finish (setCtx (start s q seq) (c.param 0) (some (freshContext c.payload))) q seq stOk []) := by
  have apart' : grantMeets (start s q seq) (c.param 0) (grantOf c.payload) = false := apart
  refine onCmd_runs taken ?_
  simp [Nat.not_le.2 inRange, free, ok, apart']

/-- The context with the fields that CTX_GRANT sets. -/
def regranted (x : Context) (p : List Byte) : Context :=
  { x with watchdogMs := field p 0 4, lsInterval := field p 4 2, permCtr := bit (field p 6 1) 0, grant := grantOf p }

theorem exec_ctxGrant {x : Context} (taken : ready s q seq 0x0903 = some c) (exists_ : ctxAt s (c.param 0) = some x) (empty : x.image = none)
    (ok : descriptorOk c.payload = true) (apart : grantMeets s (c.param 0) (grantOf c.payload) = false) :
    exec (.ctxGrant q seq) s = .next (finish (modCtx
      (((leavingBytes x.grant (grantOf c.payload)).filter fun r => r.2 != 0).foldl zeroRange (start s q seq)) (c.param 0)
        fun x => regranted x c.payload) q seq stOk []) := by
  have apart' : grantMeets (start s q seq) (c.param 0) (freshContext c.payload).grant = false := apart
  refine onCmd_runs taken ?_
  simp only [ctxAt_start, exists_, empty, ok, apart', Option.isSome_none, Bool.not_true, Bool.false_and, Bool.or_false,
    Bool.false_eq_true, if_false]
  rfl

/-! ### CTX_DESTROY (R346) -/

@[simp] theorem commandsOf_start (s : State) (q seq n : Nat) : commandsOf (start s q seq) n = commandsOf s n := by
  unfold commandsOf start
  rw [List.any_map]
  congr 2
  funext t
  simp only [Function.comp]
  split <;> rfl

theorem releaseConfig_other {n : Nat} (other : ckptHolder s ≠ some n) : releaseConfig s n = s := if_neg other

/-- A context with no slice, and not active, has none to end. -/
theorem endSlicesOf_none {n : Nat} (idle : s.sched.active ≠ some n) (notCurrent : s.sched.current.any (·.slice.ctx = n) = false)
    (notPending : (pendingSlices s).any (·.ctx == n) = false) : endSlicesOf s n = s := by
  have others : ∀ e ∈ pendingSlices s, (e.ctx == n) = false := by simpa [List.any_eq_false] using notPending
  have gone : (pendingSlices s).filter (fun e => e.ctx == n) = [] :=
    List.filter_eq_nil_iff.2 fun e he => by rw [others e he]; decide
  have queue : s.sched.queue.filter (fun e => !(e.ctx == n)) = s.sched.queue :=
    List.filter_eq_self.2 fun e he => by rw [others e (List.mem_append_left _ he)]; rfl
  have dropped : dropSlices s (fun e => e.ctx == n) = s := by
    unfold dropSlices
    dsimp only
    rw [queue]
    split
    · next x incoming =>
        have other : (x.1.ctx == n) = false := others x.1 (List.mem_append_right _ (by simp [incoming]))
        exact if_neg (by rw [other]; decide)
    · rfl
  unfold endSlicesOf
  rw [gone, dropped]
  rcases Option.eq_none_or_eq_some s.sched.current with current | ⟨x, current⟩
  · simp only [List.foldl_nil, current, if_neg idle]
  · have other : ¬ x.slice.ctx = n := by simpa [current] using notCurrent
    simp only [List.foldl_nil, current, if_neg other, if_neg idle]

theorem exec_ctxDestroy {x : Context} (taken : ready s q seq 0x0902 = some c) (exists_ : ctxAt s (c.param 0) = some x) (empty : x.image = none)
    (unbound : (s.queues.zipIdx.any fun y => decide (4 ≤ y.2) && y.1.enable && y.1.ctx == c.param 0) = false)
    (noCommands : commandsOf s (c.param 0) = false) (notHolder : ckptHolder s ≠ some (c.param 0)) (idle : s.sched.active ≠ some (c.param 0))
    (notCurrent : s.sched.current.any (·.slice.ctx = c.param 0) = false) (notPending : (pendingSlices s).any (·.ctx == c.param 0) = false) :
    exec (.ctxDestroy q seq) s = .next (takeSlice (finish
      (setCtx (((grantRanges x).filter fun r => r.2 != 0).foldl zeroRange (start s q seq)) (c.param 0) none) q seq stOk [])) := by
  have unbound' : ((start s q seq).queues.zipIdx.any fun y => decide (4 ≤ y.2) && y.1.enable && y.1.ctx == c.param 0) = false := unbound
  have kept : endSlicesOf (releaseConfig (start s q seq) (c.param 0)) (c.param 0) = start s q seq := by
    rw [releaseConfig_other (s := start s q seq) notHolder, endSlicesOf_none (s := start s q seq) idle notCurrent notPending]
  refine onCmd_runs taken ?_
  simp only [ctxAt_start, exists_, empty, unbound', commandsOf_start, noCommands, Option.isSome_none, Bool.or_false, Bool.false_eq_true,
    if_false, kept]

/-! ### CTX_QUERY (R347) -/

theorem flag_eq (b : Bool) (i : Nat) : flag b i = b.toNat * 2 ^ i := by cases b <;> simp [flag]

/-- The first reply word: six flags, then the fault status and the number of pending slices. -/
theorem contextWord {a b d e f : Bool} {status pending w : Nat}
    (hw : w = 1 + flag a 1 + flag b 2 + flag d 3 + flag e 4 + flag f 5 + status * 256 + pending * 65536) :
    bit w 0 = true ∧ bit w 1 = a ∧ bit w 2 = b ∧ bit w 3 = d ∧ bit w 4 = e ∧ bit w 5 = f ∧ bits w 7 6 = 0
      ∧ w / 256 = status + pending * 256 := by
  have isBit (x : Bool) {n : Nat} (h : n = x.toNat) : decide (n = 1) = x := by cases x <;> simp [h]
  have le := Bool.toNat_le
  have ha := le a; have hb := le b; have hd := le d; have he := le e; have hf := le f
  simp only [flag_eq] at hw
  refine ⟨?_, ?_, ?_, ?_, ?_, ?_, ?_, ?_⟩
  · rw [bit_eq]; exact decide_eq_true (by omega)
  · rw [bit_eq]; exact isBit a (by omega)
  · rw [bit_eq]; exact isBit b (by omega)
  · rw [bit_eq]; exact isBit d (by omega)
  · rw [bit_eq]; exact isBit e (by omega)
  · rw [bit_eq]; exact isBit f (by omega)
  · rw [bits_eq]; omega
  · omega

theorem exec_ctxQuery_refused (taken : ready s q seq 0x0906 = some c) (bound : 4 ≤ q) (other : c.param 0 ≠ (queueAt s q).ctx) :
    exec (.ctxQuery q seq) s = .next (finish (start s q seq) q seq stNotPermitted []) := onCmd_runs taken (if_pos ⟨bound, other⟩)

section
variable (taken : ready s q seq 0x0906 = some c) (own : 4 ≤ q → c.param 0 = (queueAt s q).ctx)
include taken own

theorem exec_ctxQuery_none (absent : ctxAt s (c.param 0) = none) :
    exec (.ctxQuery q seq) s = .next (finish (start s q seq) q seq stOk []) := by
  refine onCmd_runs taken ((if_neg fun h => h.2 (own h.1)).trans ?_)
  rw [ctxAt_start, absent]

theorem exec_ctxQuery {x : Context} (exists_ : ctxAt s (c.param 0) = some x) : exec (.ctxQuery q seq) s = .next (finish (start s q seq) q seq stOk
    [1 + flag (s.sched.active == some (c.param 0)) 1 + flag x.image.isSome 2 + flag ((x.program.map (·.st)) == some .running) 3
      + flag ((x.program.map (·.st)) == some .faulted || x.faultStatus != 0) 4 + flag x.permCtr 5 + x.faultStatus * 256
      + ((pendingSlices s).filter fun e => e.ctx == c.param 0).length * 65536, lo32 x.debt, hi32 x.debt, x.step]) := by
  refine onCmd_runs taken ((if_neg fun h => h.2 (own h.1)).trans ?_)
  rw [ctxAt_start, exists_]
  rfl

end

end

/-- Settles O40: each command by its checks; grants and destruction by the ranges that they fill. -/
theorem contextsCreateGrantDestroy : Obligations.ContextsCreateGrantDestroy := by
  unfold Obligations.ContextsCreateGrantDestroy
  intro s q seq c
  refine ⟨fun taken length inRange free ok apart => ?create, fun x exists_ wf eu ec er => ⟨fun taken empty ok apart => ?grant,
    fun taken length empty noCommands unbound notHolder idle notCurrent notPending => ?destroy⟩,
    fun taken => ⟨exec_ctxQuery_refused taken, fun own => ⟨exec_ctxQuery_none taken own, fun x exists_ => ?query⟩⟩⟩
  case create =>
    refine ⟨_, exec_ctxCreate taken inRange free ok apart, fun n => ?_, rfl⟩
    rw [ctxAt_setCtx _ _ _ _ (by rwa [show (start s q seq).ctxs = s.ctxs from rfl, length])]
    simp only [eq_comm (a := c.param 0), ctxAt_start]
  case grant =>
    obtain ⟨m, zeroed, get⟩ := foldl_zeroRange (s := start s q seq) eu ec er wf
      ((leavingBytes x.grant (grantOf c.payload)).filter fun r => r.2 != 0)
    have run := exec_ctxGrant taken exists_ empty ok apart
    rw [zeroed] at run
    refine ⟨_, run, fun n => ?_, fun a => (get a).trans (by rw [inRanges_filter]; rfl), rfl⟩
    rw [ctxAt_modCtx]
    by_cases own : n = c.param 0
    · rw [if_pos own.symm, if_pos own, own]
      exact congrArg _ exists_
    · rw [if_neg (Ne.symm own), if_neg own]
      rfl
  case destroy =>
    obtain ⟨m, zeroed, get⟩ := foldl_zeroRange (s := start s q seq) eu ec er wf ((grantRanges x).filter fun r => r.2 != 0)
    have run := exec_ctxDestroy taken exists_ empty unbound noCommands notHolder idle notCurrent notPending
    rw [zeroed] at run
    have listed : c.param 0 < s.ctxs.length := by
      by_contra beyond
      simp [ctxAt, List.getElem?_eq_none (Nat.not_lt.1 beyond)] at exists_
    refine ⟨_, run, fun n => ?_, fun a => (get a).trans (by rw [inRanges_filter]; rfl), rfl⟩
    refine (ctxAt_setCtx _ _ _ _ (by exact listed)).trans ?_
    simp only [eq_comm (a := c.param 0)]
    rfl
  case query => exact ⟨_, exec_ctxQuery taken own exists_, contextWord rfl⟩

end Sys2Proof.Machine

/-! SUPPORT. Slices: how they join the queue, begin, end and follow one another, and the switch between contexts (14 R348 to R353). -/

namespace Sys2Proof.Machine

/-! ### Debts and accounts (R349, R350) -/

section
variable (s : State)

/-- Debts are read from the contexts. -/
theorem debtOf_congr {t : State} {n : Nat} (same : (ctxAt t n).map (·.debt) = (ctxAt s n).map (·.debt)) : debtOf t n = debtOf s n := by
  unfold debtOf
  rw [same]

@[simp] theorem debtOf_start (q seq n : Nat) : debtOf (start s q seq) n = debtOf s n := rfl
@[simp] theorem advanceTo_sched (t : Nat) : (advanceTo s t).sched = s.sched := by rw [(advanceTo_parts s t).1]

@[simp] theorem debtOf_advanceTo (t n : Nat) : debtOf (advanceTo s t) n = debtOf s n := by
  obtain ⟨k, w, a, same⟩ := (advanceTo_parts s t).2 n
  refine debtOf_congr s ?_
  rw [same]
  cases ctxAt s n <;> rfl

theorem debtOf_modCtx (n m : Nat) (f : Context → Context) :
    debtOf (modCtx s n f) m = if n = m then ((ctxAt s m).map fun x => (f x).debt).getD 0 else debtOf s m := by
  unfold debtOf
  rw [ctxAt_modCtx]
  split
  · rw [Option.map_map]
    rfl
  · rfl

/-- Charging adds the time since the last charge to the active context's account. -/
theorem ctxAt_charge (n : Nat) : ctxAt (charge s) n = if s.sched.active = some n then
    (ctxAt s n).map fun c => { c with account := (c.account + (s.time - s.sched.chargedTo)) % 2 ^ 64 } else ctxAt s n := by
  unfold charge
  split
  · next m active =>
      refine (ctxAt_modCtx s m n _).trans ?_
      simp only [active, Option.some.injEq]
  · next active => exact (if_neg (by rw [active]; exact nofun)).symm

theorem charge_parts : charge s = { s with sched := { s.sched with chargedTo := s.time }, ctxs := (charge s).ctxs } := by
  unfold charge
  split <;> rfl

@[simp] theorem debtOf_charge (n : Nat) : debtOf (charge s) n = debtOf s n := by
  refine debtOf_congr s ?_
  rw [ctxAt_charge]
  split
  · rw [Option.map_map]
    rfl
  · rfl

@[simp] theorem charge_time : (charge s).time = s.time := by rw [charge_parts]
theorem charge_sched : (charge s).sched = { s.sched with chargedTo := s.time } := by rw [charge_parts]

end

/-! ### The head of the queue (R348, R350) -/

section
variable {s : State}

/-- The slice in hand from now on. -/
def sliceFrom (s : State) (e : Slice) (effective : Nat) : CurrentSlice :=
  { slice := e, start := s.time, nominalEnd := s.time + effective, nextReady := none, ending := false, overrun := 0 }

theorem consumeHeads_keeps {e : Slice} {es : List Slice} (queue : s.sched.queue = e :: es) (owes : debtOf s e.ctx < e.lengthNs) (k : Nat) :
    consumeHeads k s = s := by
  cases k with
  | zero => rfl
  | succ k =>
    unfold consumeHeads
    rw [queue]
    exact if_pos owes

theorem consumeHeads_empty (empty : s.sched.queue = []) (k : Nat) : consumeHeads k s = s := by
  cases k with
  | zero => rfl
  | succ k =>
    unfold consumeHeads
    rw [empty]

/-- A slice that begins is the one in hand, and its context owes nothing. -/
theorem beginSlice_parts (s : State) (e : Slice) (effective : Nat) :
    (beginSlice s e effective).sched = { s.sched with chargedTo := s.time, current := some (sliceFrom s e effective) }
      ∧ (∀ n, debtOf (beginSlice s e effective) n = if n = e.ctx then 0 else debtOf s n)
      ∧ beginSlice s e effective = { s with sched := (beginSlice s e effective).sched, ctxs := (beginSlice s e effective).ctxs } := by
  refine ⟨?_, fun n => ?_, ?_⟩
  · unfold beginSlice
    rw [modCtx_sched, charge_sched]
    rfl
  · unfold beginSlice
    rw [debtOf_modCtx]
    by_cases own : e.ctx = n
    · rw [if_pos own, if_pos own.symm]
      cases ctxAt _ n <;> rfl
    · rw [if_neg own, if_neg (Ne.symm own)]
      exact debtOf_charge s n
  · unfold beginSlice modCtx
    dsimp only
    rw [charge_parts]

/-! ### A slice joins the queue (R348) -/

theorem passDue_early {x : CurrentSlice} (current : s.sched.current = some x) (early : s.time < x.nominalEnd) (ready : Option Nat) :
    passDue s ready = s := by
  unfold passDue
  rw [current]
  exact if_neg (Nat.not_le.2 early)

theorem passDue_none (noCurrent : s.sched.current = none) (ready : Option Nat) : passDue s ready = s := by
  unfold passDue
  rw [noCurrent]

section
variable {q seq : Nat} {c : Taken} (taken : ready s q seq 0x0904 = some c) (unknown : knownSlice s q seq = false)
  (exists_ : (ctxAt s (c.param 0)).isSome = true) (least : 100 ≤ c.param 1) (most : c.param 1 ≤ 60000000)
include taken unknown exists_ least most

/-- CTX_SLICE past its checks, where the slice in hand has not reached its end. -/
theorem exec_ctxSlice (due : passDue (start s q seq) none = start s q seq) (room : s.sched.queue.length < 16) :
    exec (.ctxSlice q seq) s = .next
      (let t := { start s q seq with sched := { s.sched with
          queue := s.sched.queue ++ [{ ctx := c.param 0, lengthNs := c.param 1 * 1000, q, seq }] } }
        if t.sched.current.isNone then takeSlice t else passDue t (some t.time)) := by
  have unknown' : knownSlice (start s q seq) q seq = false := unknown
  have ok : ¬ ((ctxAt (start s q seq) (c.param 0)).isNone = true ∨ c.param 1 < 100 ∨ 60000000 < c.param 1) := by
    rw [ctxAt_start, Option.isNone_eq_false_iff.2 exists_]
    simp only [Bool.false_eq_true, false_or]
    omega
  refine onCmd_runs taken ?_
  simp only [unknown', if_neg ok, due, Bool.false_eq_true, if_false]
  exact if_neg (Nat.not_le.2 room)

theorem exec_ctxSlice_joins {x : CurrentSlice} (room : s.sched.queue.length < 16) (current : s.sched.current = some x)
    (early : s.time < x.nominalEnd) : exec (.ctxSlice q seq) s = .next { start s q seq with
      sched := { s.sched with queue := s.sched.queue ++ [{ ctx := c.param 0, lengthNs := c.param 1 * 1000, q, seq }] } } := by
  rw [exec_ctxSlice taken unknown exists_ least most (passDue_early (s := start s q seq) current early none) room]
  have notNone : ¬ s.sched.current.isNone = true := by rw [current]; exact Bool.false_ne_true
  exact congrArg _ ((if_neg notNone).trans (passDue_early (by exact current) (by exact early) _))

theorem exec_ctxSlice_takes (queue : s.sched.queue = []) (noCurrent : s.sched.current = none) : exec (.ctxSlice q seq) s = .next (takeSlice
    { start s q seq with sched := { s.sched with queue := [{ ctx := c.param 0, lengthNs := c.param 1 * 1000, q, seq }] } }) := by
  have isNone : s.sched.current.isNone = true := by rw [noCurrent]; rfl
  rw [exec_ctxSlice taken unknown exists_ least most (passDue_none (s := start s q seq) noCurrent _) (by rw [queue]; decide)]
  refine congrArg _ ((if_pos isNone).trans ?_)
  rw [queue, List.nil_append]

end

/-- With no slice in hand the head is taken: at once for the active context, else to be switched in. -/
theorem takeSlice_head {e : Slice} {es : List Slice} (queue : s.sched.queue = e :: es) (noCurrent : s.sched.current = none)
    (settled : s.sched.incoming = none) (owes : debtOf s e.ctx < e.lengthNs) : takeSlice s =
      if s.sched.active = some e.ctx then
        beginSlice { s with sched := { s.sched with queue := es } } e (e.lengthNs - debtOf s e.ctx)
      else { s with sched := { s.sched with queue := es, incoming := some (e, e.lengthNs - debtOf s e.ctx) } } := by
  have head : consumeHeads s.sched.queue.length s = s := consumeHeads_keeps queue owes _
  have popped : popSlice s = { s with sched := { s.sched with queue := es } } := by rw [popSlice, queue, List.drop_one, List.tail_cons]
  unfold takeSlice
  rw [noCurrent, settled, if_neg (by decide), head]
  dsimp only
  rw [queue]
  dsimp only
  rw [popped]

/-! ### The nominal end (R348, R350) -/

theorem exec_sliceNominalEnd {x : CurrentSlice} (on : running s = true) (current : s.sched.current = some x) :
    exec .sliceNominalEnd s = .next (passEnd (advanceTo s x.nominalEnd) x.nominalEnd) := by
  refine congrArg Host.Outcome.next ?_
  rw [on, current]

theorem passEnd_extends (settled : s.sched.incoming = none) (empty : s.sched.queue = []) (ready : Nat) : passEnd s ready = s := by
  unfold passEnd
  rw [settled, if_neg (by decide), consumeHeads_empty empty]
  dsimp only
  rw [empty]
  split <;> simp_all

section
variable {x : CurrentSlice} {e : Slice} {es : List Slice} (settled : s.sched.incoming = none) (current : s.sched.current = some x)
  (queue : s.sched.queue = e :: es) (owes : debtOf s e.ctx < e.lengthNs)
include settled current queue owes

theorem passEnd_waiting (going : x.ending = false) (ready : Nat) : passEnd s ready =
    if e.ctx = x.slice.ctx then followSlice s e
    else { s with sched := { s.sched with current := some { x with ending := true, nextReady := x.nextReady.or (some ready) } } } := by
  unfold passEnd
  rw [settled, if_neg (by decide), consumeHeads_keeps queue owes]
  dsimp only
  rw [current, queue]
  dsimp only
  rw [going, if_neg Bool.false_ne_true, ← queue]

/-! ### The switch-out (R350, R351, R353) -/

section
variable (on : running s = true) (ending : x.ending = true) (boundary : atBoundary s = true)
include on ending boundary

theorem exec_switchOut : exec .switchOut s = .next (if e.ctx = x.slice.ctx then followSlice s e
    else saveProgram (popSlice { addOverrun s x with sched := { (addOverrun s x).sched with
      incoming := some (e, e.lengthNs - debtOf (addOverrun s x) e.ctx) } }) x.slice.ctx) := by
  refine congrArg Host.Outcome.next ?_
  simp only [on, settled, Option.isNone_none, Bool.and_self, current, ending, boundary, Bool.not_true, Bool.or_self, Bool.false_eq_true,
    if_false, consumeHeads_keeps queue owes, queue]

end

end

/-- The wait since the due moment is the slice's overrun and adds to its context's debt. -/
theorem addOverrun_parts (s : State) (x : CurrentSlice) {late : Nat} (hlate : late = s.time - max x.nominalEnd (x.nextReady.getD x.nominalEnd)) :
    (addOverrun s x).sched = { s.sched with current := some { x with overrun := late } }
      ∧ (∀ n, debtOf (addOverrun s x) n = if n = x.slice.ctx ∧ (ctxAt s n).isSome then debtOf s n + late else debtOf s n)
      ∧ addOverrun s x = { s with sched := (addOverrun s x).sched, ctxs := (addOverrun s x).ctxs } := by
  subst hlate
  refine ⟨rfl, fun n => ?_, rfl⟩
  unfold addOverrun
  rw [debtOf_modCtx]
  by_cases own : x.slice.ctx = n
  · rw [if_pos own]
    show ((ctxAt s n).map _).getD 0 = if n = _ ∧ (ctxAt s n).isSome then ((ctxAt s n).map _).getD 0 + _ else ((ctxAt s n).map _).getD 0
    cases ctxAt s n <;> simp [own]
  · rw [if_neg own, if_neg fun h => own h.1.symm]
    rfl

/-! ### The switch-in (R353) -/

theorem exec_switchIn {e : Slice} {eff : Nat} (on : running s = true) (incoming : s.sched.incoming = some (e, eff)) :
    exec .switchIn s = .next (restoreProgram (beginSlice { charge (endSlice s) with
      sched := { (charge (endSlice s)).sched with active := some e.ctx, incoming := none } } e eff) e.ctx) := by
  refine congrArg Host.Outcome.next ?_
  rw [on, incoming]

theorem endSlice_none (noCurrent : s.sched.current = none) : endSlice s = s := by
  unfold endSlice
  rw [noCurrent]

/-- The outgoing slice's command completes with the time charged, the overrun and the debt. -/
theorem endSlice_current {x : CurrentSlice} (current : s.sched.current = some x) : endSlice s =
    finish { charge s with sched := { (charge s).sched with current := none } } x.slice.q x.slice.seq stOk
      (sliceReply (s.time - x.start) x.overrun (debtOf s x.slice.ctx)) := by
  unfold endSlice
  rw [current]
  have debt (d : Sched) : debtOf { charge s with sched := d } x.slice.ctx = debtOf s x.slice.ctx := debtOf_charge s _
  dsimp only
  rw [debt, charge_time]

/-- The context that is switched in becomes the active one, with its slice in hand and its debt repaid. -/
theorem switchedIn_parts (w : State) (e : Slice) (eff : Nat) {v : State} (hv : v = beginSlice { charge w with
      sched := { (charge w).sched with active := some e.ctx, incoming := none } } e eff) :
    v.sched = { w.sched with active := some e.ctx, incoming := none, chargedTo := w.time, current := some (sliceFrom w e eff) }
      ∧ (∀ n, debtOf v n = if n = e.ctx then 0 else debtOf w n) ∧ v = { w with sched := v.sched, ctxs := v.ctxs } := by
  subst hv
  obtain ⟨sched, debt, parts⟩ := beginSlice_parts { charge w with
    sched := { (charge w).sched with active := some e.ctx, incoming := none } } e eff
  refine ⟨?_, fun n => ?_, ?_⟩
  · rw [sched]
    simp only [charge_sched, charge_time, sliceFrom]
  · exact (debt n).trans (congrArg (if n = e.ctx then 0 else ·) (debtOf_charge w n))
  · rw [parts]
    dsimp only
    rw [charge_parts]

end

/-- Settles O41: a slice that joins, the nominal end and the switch-out by what waits, the switch-in by the slice in hand. -/
theorem slicesTakeTurns : Obligations.SlicesTakeTurns := by
  unfold Obligations.SlicesTakeTurns
  refine ⟨fun s q seq c e taken unknown exists_ least most he => ⟨fun x room current early => ?joins, fun queue noCurrent settled owes => ?takes⟩,
    fun s on settled => ⟨fun x current => ⟨fun empty => ?extended, fun e es queue same owes => ⟨fun going => ?follows, fun ending boundary => ?followsOut⟩,
      fun e es queue other owes => ⟨fun going => ?ends, fun ending boundary => ?out⟩⟩, fun x e eff current => ?switched, fun e eff noCurrent => ?first⟩⟩
  case joins =>
    subst he
    exact exec_ctxSlice_joins taken unknown exists_ least most room current early
  case takes =>
    have run := exec_ctxSlice_takes taken unknown exists_ least most queue noCurrent
    rw [← he] at run
    have head := takeSlice_head (s := { start s q seq with sched := { s.sched with queue := [e] } }) rfl noCurrent settled owes
    refine ⟨_, run.trans (congrArg _ head), fun active => ?_, fun inactive => ?_⟩
    · obtain ⟨sched, debt, -⟩ := beginSlice_parts { start s q seq with sched := { s.sched with queue := [] } } e (e.lengthNs - debtOf s e.ctx)
      rw [if_pos (by exact active)]
      exact ⟨congrArg Sched.current sched, (debt _).trans (if_pos rfl)⟩
    · rw [if_neg (by exact inactive)]
      exact congrArg (fun l => ({ s.sched with queue := l, incoming := some (e, e.lengthNs - debtOf s e.ctx) } : Sched)) queue.symm
  case extended => rw [exec_sliceNominalEnd on current, passEnd_extends (by simpa using settled) (by simpa using empty)]
  case follows =>
    rw [exec_sliceNominalEnd on current, passEnd_waiting (x := x) (es := es) (by simpa using settled) (by simpa using current)
      (by simpa using queue) (by simpa using owes) going, if_pos same]
  case followsOut => rw [exec_switchOut settled current queue owes on ending boundary, if_pos same]
  case ends =>
    rw [exec_sliceNominalEnd on current, passEnd_waiting (x := x) (es := es) (by simpa using settled) (by simpa using current)
      (by simpa using queue) (by simpa using owes) going, if_neg other, advanceTo_sched]
  case out =>
    obtain ⟨sched, debt, parts⟩ := addOverrun_parts s x rfl
    have owed : debtOf (addOverrun s x) e.ctx = debtOf s e.ctx := (debt e.ctx).trans (if_neg fun h => other h.1)
    refine ⟨_, _, (exec_switchOut settled current queue owes on ending boundary).trans (congrArg _ (if_neg other)), rfl, ?_, debt, ?_⟩
    · rw [owed]
      simp only [popSlice, sched, queue, List.drop_one, List.tail_cons]
    · unfold popSlice
      dsimp only
      rw [parts]
  case switched =>
    obtain ⟨S, hS⟩ : ∃ S, S = { s with sched := { s.sched with incoming := some (e, eff) } } := ⟨_, rfl⟩
    have current' : S.sched.current = some x := by rw [hS]; exact current
    have run := exec_switchIn (s := S) (e := e) (eff := eff) (by rw [hS]; exact on) (by rw [hS])
    rw [endSlice_current current'] at run
    obtain ⟨sched, debt, parts⟩ := switchedIn_parts (finish { charge S with sched := { (charge S).sched with current := none } }
      x.slice.q x.slice.seq stOk (sliceReply (S.time - x.start) x.overrun (debtOf S x.slice.ctx))) e eff rfl
    refine ⟨{ charge S with sched := { (charge S).sched with current := none } }, _, _, by rw [← hS]; exact run, ?_, fun n => ?_, ?_,
      by rw [hS]; rfl, sched.trans ?_, debt, parts⟩
    · rw [charge_sched, hS]
    · exact (ctxAt_charge S n).trans (by rw [hS]; rfl)
    · have parts : charge S = { s with sched := (charge S).sched, ctxs := (charge S).ctxs } := by
        conv_lhs => rw [charge_parts, ← charge_sched, hS]
        rw [hS]
      rw [parts]
    · rw [finish_posts]
      simp only [charge_sched, charge_time, sliceFrom, hS]
  case first =>
    have run := exec_switchIn (s := { s with sched := { s.sched with incoming := some (e, eff) } }) on rfl
    rw [endSlice_none (s := { s with sched := { s.sched with incoming := some (e, eff) } }) noCurrent] at run
    obtain ⟨sched, debt, parts⟩ := switchedIn_parts { s with sched := { s.sched with incoming := some (e, eff) } } e eff rfl
    exact ⟨_, run, sched, (debt _).trans (if_pos rfl), parts⟩

end Sys2Proof.Machine

/-! SUPPORT. A copy between two memories, and the scratchpad of a pier saved at a switch-out and restored at a switch-in (14 R353). -/

namespace Sys2Proof.Machine

/-! ### Copies between two memories -/

/-- The canonical form is unique: two memories in it with the same bytes are equal. -/
theorem Memory.ext_get {m k : Memory} (hm : Memory.Wf m) (hk : Memory.Wf k) (h : ∀ a, m.get a = k.get a) : m = k := by
  have below : ∀ {l : Memory} {c : Host.Cell}, Memory.Wf (c :: l) → ∀ a < c.1, Memory.get (c :: l) a = 0 := fun {l c} hl a ha => by
    obtain ⟨first, _, _⟩ := Memory.wf_cons.1 hl
    have none_of : List.lookup a (c :: l) = none := by
      rw [List.lookup_eq_none_iff]
      intro d hd
      rcases List.mem_cons.1 hd with rfl | hd
      · simp; omega
      · have := first d hd
        simp; omega
    rw [Memory.get, none_of]; rfl
  have atHead : ∀ (l : Memory) (c : Host.Cell), Memory.get (c :: l) c.1 = c.2 := fun l c => by simp [Memory.get, List.lookup]
  induction m generalizing k with
  | nil =>
    cases k with
    | nil => rfl
    | cons d k => exact absurd ((atHead k d).symm.trans (h d.1).symm) (Memory.wf_cons.1 hk).2.1
  | cons c m ih =>
    cases k with
    | nil => exact absurd ((atHead m c).symm.trans (h c.1)) (Memory.wf_cons.1 hm).2.1
    | cons d k =>
      obtain ⟨firstC, valueC, restC⟩ := Memory.wf_cons.1 hm
      obtain ⟨firstD, valueD, restD⟩ := Memory.wf_cons.1 hk
      have keys : c.1 = d.1 := by
        rcases Nat.lt_trichotomy c.1 d.1 with lt | eq | lt
        · exact absurd (((atHead m c).symm.trans (h c.1)).trans (below hk _ lt)) valueC
        · exact eq
        · exact absurd (((atHead k d).symm.trans (h d.1).symm).trans (below hm _ lt)) valueD
      have values : c.2 = d.2 := by rw [← atHead m c, ← atHead k d, h, keys]
      obtain rfl : c = d := Prod.ext keys values
      refine congrArg _ (ih restC restD fun a => ?_)
      have outside : ∀ {l : Memory}, (∀ x ∈ l, c.1 < x.1) → a ≤ c.1 → Memory.get l a = 0 := fun {l} first le => by
        have none_of : List.lookup a l = none := by
          rw [List.lookup_eq_none_iff]
          intro x hx
          have := first x hx
          simp; omega
        rw [Memory.get, none_of]; rfl
      by_cases le : a ≤ c.1
      · rw [outside firstC le, outside firstD le]
      · have tail : ∀ l : Memory, Memory.get (c :: l) a = Memory.get l a := fun l => by
          rw [Memory.get, show c :: l = (c.1, c.2) :: l from rfl, List.lookup_cons, beq_false_of_ne (by omega : a ≠ c.1)]
          rfl
        rw [← tail, h, tail]

/-- The cells of a range, moved to another address, looked up at an address. -/
theorem Memory.lookup_moved {l : Memory} (hl : l.Pairwise fun x y => x.1 < y.1) (src dst n b : Nat) :
    ((Memory.cells l src n).map fun c => (dst + (c.1 - src), c.2)).lookup b
      = if dst ≤ b ∧ b < dst + n then l.lookup (src + (b - dst)) else none := by
  induction l with
  | nil => split <;> rfl
  | cons x l ih =>
    obtain ⟨k, v⟩ := x
    have rest := ih (List.pairwise_cons.1 hl).2
    unfold Memory.cells at rest ⊢
    by_cases inside : src ≤ k ∧ k < src + n
    · rw [List.filter_cons_of_pos (by simpa using inside), List.map_cons, List.lookup_cons, List.lookup_cons, rest]
      by_cases same : b = dst + (k - src)
      · have here : src + (b - dst) = k := by omega
        simp only [same, beq_self_eq_true, show src + (dst + (k - src) - dst) = k by omega]
        rw [if_pos (by omega)]
      · rw [beq_false_of_ne same]
        by_cases range : dst ≤ b ∧ b < dst + n
        · simp only [if_pos range, beq_false_of_ne (show src + (b - dst) ≠ k by omega)]
        · simp only [if_neg range]
    · rw [List.filter_cons_of_neg (by simpa using inside), rest, List.lookup_cons]
      by_cases range : dst ≤ b ∧ b < dst + n
      · simp only [if_pos range, beq_false_of_ne (show src + (b - dst) ≠ k by omega)]
      · simp only [if_neg range]

/-- A byte after a copy from another memory. -/
theorem Memory.get_copyBetween {m k : Memory} (hm : Memory.Wf m) (hk : Memory.Wf k) (src dst n b : Nat) :
    (Memory.copyFrom m k src dst n).get b = if dst ≤ b ∧ b < dst + n then k.get (src + (b - dst)) else m.get b := by
  have rising : ((Memory.cells k src n).map fun c => (dst + (c.1 - src), c.2)).Pairwise fun x y => x.1 < y.1 := by
    rw [List.pairwise_map]
    refine List.Pairwise.imp_of_mem ?_ (show (Memory.cells k src n).Pairwise fun x y => x.1 < y.1 from hk.1.filter _)
    intro x y hx hy lt
    have hx := (List.mem_filter.1 hx).2
    have hy := (List.mem_filter.1 hy).2
    simp only [decide_eq_true_eq] at hx hy
    show dst + (x.1 - src) < dst + (y.1 - src)
    omega
  unfold Memory.copyFrom
  rw [Memory.get_put (Memory.wf_clear hm _ _) _ rising, Memory.get_clear, Memory.lookup_moved hk.1]
  split <;> rfl

/-- Bytes copied out of a memory and back again are the same memory, where nothing lies beyond the copied range. -/
theorem Memory.copy_back {m k : Memory} (hm : Memory.Wf m) (hk : Memory.Wf k) {n : Nat} (within : ∀ x ∈ m, x.1 < n) (a : Nat) :
    Memory.copyFrom [] (Memory.copyFrom k m 0 a n) a 0 n = m := by
  refine Memory.ext_get (Memory.wf_copyFrom Memory.wf_nil _ _ _ _) hm fun b => ?_
  rw [Memory.get_copyBetween Memory.wf_nil (Memory.wf_copyFrom hk _ _ _ _), Memory.get_copyBetween hk hm]
  by_cases lt : b < n
  · rw [if_pos (by omega), if_pos (by omega)]; congr 1; omega
  · rw [if_neg (by omega), Memory.get, Memory.get]
    have beyond : List.lookup b m = none := by
      rw [List.lookup_eq_none_iff]
      intro x hx
      have := within x hx
      simp; omega
    rw [beyond]; rfl

/-- What a copy wrote reads as the bytes it copied. -/
theorem Memory.read_copyFrom {m k : Memory} (hm : Memory.Wf m) (hk : Memory.Wf k) (src dst n : Nat) :
    (Memory.copyFrom m k src dst n).read dst n = k.read src n := by
  unfold Memory.read
  refine List.map_congr_left fun i hi => ?_
  have := List.mem_range.1 hi
  rw [Memory.get_copyBetween hm hk, if_pos (by omega)]
  congr 1; omega

/-! ### Saving and restoring a scratchpad (R353) -/

theorem Beside.faultedIn {s t : State} {n : Nat} (h : Beside s t n) : faultedIn t n = faultedIn s n := by
  obtain ⟨w, prog⟩ := h.progAt
  rw [Machine.faultedIn, prog, Machine.faultedIn]
  cases Machine.progAt s n <;> rfl

/-- Without errors a switch-out copies the declared scratchpad into its save area. -/
theorem savePad_clean {s : State} {n p : Nat} {c : Context} {im : Image} (eu : s.hbm.uncorrectable = []) (ec : s.hbm.correctable = [])
    (er : s.caisson.run = none) (live : faultedIn s n = false) (bad : (pierAt s p).badWords = []) (weak : (pierAt s p).weakWords = []) :
    (savePad n c im s p).hbm = { s.hbm with
        mem := Memory.copyFrom s.hbm.mem (pierAt s p).mem 0 (padHome c p) (scratchOf im.decls p) }
      ∧ faultedIn (savePad n c im s p) n = false := by
  have beside := Beside.correctWords weak n [{ start := 0, bytes := scratchOf im.decls p }]
  have same := pierAt_correctWords weak n p [{ start := 0, bytes := scratchOf im.decls p }]
  unfold savePad
  simp only [live, badWord_clean bad, Bool.false_eq_true, if_false]
  generalize correctWords s n p _ = t at beside same
  rw [storeHbm_clean (by rw [beside.hbm, eu]) (by rw [beside.hbm, ec]) (by rw [beside.caisson, er])]
  refine ⟨?_, beside.faultedIn.trans live⟩
  simp [Hbm.commit, badPartial_nil, beside.hbm, same, eu, ec]

section
variable {s : State} (n : Nat) (im : Image) (eu : s.hbm.uncorrectable = []) (ec : s.hbm.correctable = [])
include eu ec

/-- Loading a lane program store again leaves HBM, and of a pier everything but its store, as they are. -/
theorem reloadStore_clean (p q : Nat) : (reloadStore n im s p).hbm = s.hbm
    ∧ ∃ store, pierAt (reloadStore n im s p) q = { pierAt s q with store } := by
  unfold reloadStore
  cases sectionOf im 0x0004 p with
  | none => exact ⟨rfl, (pierAt s q).store, rfl⟩
  | some x =>
    simp only [readOrFault_clean eu ec]
    refine ⟨rfl, ?_⟩
    rw [pierAt_modPier _ _ _ _ (by simp), pierAt_count]
    split
    · rename_i e; subst e; exact ⟨_, rfl⟩
    · exact ⟨(pierAt s q).store, rfl⟩

end

/-- A pier saved with no plane in use comes back with the bytes of its save area, at the index it had. -/
theorem restorePier_clean {s : State} {n : Nat} {P : Pier} (c : Context) (im : Image) (eu : s.hbm.uncorrectable = [])
    (ec : s.hbm.correctable = []) (live : faultedIn s n = false) (plane0 : P.plane0.loadedAt = none) (plane1 : P.plane1.loadedAt = none) :
    (restorePier n c im s P).hbm = s.hbm ∧ ∃ store, pierAt (restorePier n c im s P) P.id =
      { P with mem := Memory.copyFrom [] s.hbm.mem (padHome c P.id) 0 (scratchOf im.decls P.id), store } := by
  have idle : ∀ (t : State) (plane : Bool), (planeOf (pierAt t P.id) plane).loadedAt = none → reload n im plane t P.id = t := by
    intro t plane empty
    unfold reload
    rw [empty]
  unfold restorePier
  simp only [live, readOrFault_clean eu ec, Bool.false_eq_true, if_false, count]
  generalize placed : setPier _ _ = t
  have clean : t.hbm = s.hbm := by rw [← placed]; rfl
  have pier : pierAt t P.id = { P with mem := Memory.copyFrom [] s.hbm.mem (padHome c P.id) 0 (scratchOf im.decls P.id) } := by
    rw [← placed, pierAt_setPier]; simp
  obtain ⟨hbm, store, stored⟩ := reloadStore_clean n im (by rw [clean, eu]) (by rw [clean, ec]) P.id P.id
  rw [pier] at stored
  rw [idle _ false (by rw [stored]; exact plane0), idle _ true (by rw [stored]; exact plane1)]
  exact ⟨hbm.trans clean, store, stored⟩

/-- Settles O42. The copy out and the copy back are inverse because the canonical form of a memory is unique. -/
theorem savedScratchpadsReturn : Obligations.SavedScratchpadsReturn := by
  intro s n p c im wfHbm wfPad eu ec er live bad weak within plane0 plane1
  obtain ⟨saved, live⟩ := savePad_clean (c := c) (im := im) eu ec er live bad weak
  generalize savePad n c im s p = v at saved live
  obtain ⟨hbm, store, pier⟩ := restorePier_clean (s := { v with piers := [] }) (P := husk (pierAt s p)) c im
    (by exact (congrArg Hbm.uncorrectable saved).trans eu) (by exact (congrArg Hbm.correctable saved).trans ec) live plane0 plane1
  have id : (husk (pierAt s p)).id = p := pierAt_id s p
  rw [id] at pier
  have mem := (congrArg Hbm.mem hbm).trans (congrArg Hbm.mem saved)
  refine ⟨_, rfl, ?_, by rw [pier]; rfl, ?_, fun a outside => ?_⟩
  · rw [pier]
    show Memory.copyFrom [] v.hbm.mem _ _ _ = _
    rw [saved]
    exact Memory.copy_back wfPad wfHbm within _
  · rw [mem]
    exact Memory.read_copyFrom wfHbm wfPad _ _ _
  · rw [mem]
    exact (Memory.get_copyBetween wfHbm wfPad ..).trans (if_neg (by omega))

end Sys2Proof.Machine

/-! SUPPORT. The I3C target: its packets and what it answers (16 R404, R405). -/

namespace Sys2Proof.Machine

/-- The transmission units of a message, in order, are the message. -/
theorem packets_flatten (bs : List Byte) : (packets bs).flatten = bs := by
  have upTo : ∀ n, ((List.range n).map fun i => (bs.drop (64 * i)).take 64).flatten = bs.take (64 * n) := by
    intro n
    induction n with
    | zero => simp
    | succ n ih => rw [List.range_succ, List.map_append, List.flatten_append, ih, Nat.mul_succ, List.take_add]; simp
  rw [packets, upTo]
  refine List.take_of_length_le ?_
  unfold ceilDiv
  omega

/-- Every transmission unit holds a byte, and at most 64. -/
theorem packets_length {bs p : List Byte} (h : p ∈ packets bs) : 0 < p.length ∧ p.length ≤ 64 := by
  obtain ⟨i, hi, rfl⟩ := List.mem_map.1 h
  have := List.mem_range.1 hi
  unfold ceilDiv at this
  simp only [List.length_take, List.length_drop]
  omega

/-- A power table that passes is short enough for one message. -/
theorem powerTableOk_fits {b : List Byte} {orderB : Bool} (ok : powerTableOk orderB b = true) : fitsMessage b.length = true := by
  simp only [powerTableOk, Bool.and_eq_true, decide_eq_true_eq] at ok
  obtain ⟨⟨⟨length, _⟩, _⟩, _⟩ := ok
  rw [length]; rfl

theorem loadTable_ok {s : State} {b : List Byte} (ok : powerTableOk s.pkg.orderB b = true) :
    loadTable s b = ({ s with toll := { s.toll with table := powerTableOf b, epoch := s.toll.epoch + 1 } }, stOk) := if_pos ok

/-- Settles O36. -/
theorem managementMessagesAnswered : Obligations.ManagementMessagesAnswered := by
  refine ⟨fun bs => ⟨packets_flatten bs, fun p => packets_length⟩, fun s up => ⟨fun a unset => ⟨?_, ?_⟩, fun e zero ones => ?_, ?_,
    ⟨freeBelow s (2 ^ 32), ?_⟩, ?_, ?_, ?_, fun count first es posted => ?_, fun first serves => ?_, fun b serves ok => ?_, ?_,
    fun bs => rfl⟩⟩
  · simp [exec, execSetdasa, up, unset]
  · simp [exec, execEntdaa, up, unset]
  · simp [exec, execSetEndpointId, up, zero, ones, answer]
  · simp [exec, execGetEndpointId, up, answer]
  · simp [exec, execGetMctpVersionSupport, up, answer, freeUsed]
  · simp [exec, execGetMessageTypeSupport, up, answer]
  · simp [exec, execGetStatus, up]
  · simp only [exec, execGetSensors, up, if_true]
    rfl
  · subst posted
    simp [exec, execReadErrlog, up]
  · simp [exec, execGetIdentity, up, serves]
  · simp only [exec, execPowerTable, up, serves, powerTableOk_fits ok, loadTable_ok ok, Bool.and_self, if_true]
    rfl
  · simp [exec, execResetRequest, up]

end Sys2Proof.Machine

/-! SUPPORT. Signatures of the identity key, identity descriptors, quotes and reads of the error log (16 R369, R391 to R395, R403). -/

namespace Sys2Proof.Machine

/-- Reserving indices leaves the certificate as it is. -/
theorem reserveIndex_certificate (s : State) : (reserveIndex s).toll.certificate = s.toll.certificate := by
  unfold reserveIndex
  split
  · rfl
  · rw [logError_logOnly, retireBlocks, retireFuel_logOnly, commitRecords_storeOnly]

theorem useIndex_keeps (t : Tollhouse) :
    (useIndex t).q = t.q + 1 ∧ indexLimit (useIndex t) = indexLimit t ∧ (useIndex t).certificate = t.certificate := by
  unfold useIndex
  split <;> exact ⟨rfl, rfl, rfl⟩

/-- A signature takes the next index, which lies below the capacity and below the committed limit. -/
theorem signDigest_some {s v : State} {d : List Byte} {x : Nat × List Byte} (signed : signDigest s d = (v, some x)) :
    x = (s.toll.q, identitySign s.toll.q d) ∧ s.toll.q < keyCapacity ∧ s.toll.q < indexLimit v.toll ∧ v.toll.q = s.toll.q + 1
      ∧ v.toll.certificate = s.toll.certificate := by
  unfold signDigest at signed
  simp only [reserveIndex_q] at signed
  split at signed
  · exact absurd (congrArg Prod.snd signed) (by simp)
  · rename_i left
    split at signed
    · exact absurd (congrArg Prod.snd signed) (by simp)
    · rename_i below
      obtain ⟨rfl, same⟩ := Prod.ext_iff.1 signed
      obtain ⟨q, limit, certificate⟩ := useIndex_keeps (reserveIndex s).toll
      refine ⟨(Option.some.inj same).symm, Nat.lt_of_not_le left, ?_, ?_, ?_⟩
      · exact (Nat.lt_of_not_le below).trans_eq limit.symm
      · exact q.trans (congrArg (· + 1) (reserveIndex_q s))
      · exact certificate.trans (reserveIndex_certificate s)

/-- The exhausted key signs nothing. -/
theorem signDigest_exhausted {s : State} (h : keyCapacity ≤ s.toll.q) (d : List Byte) : signDigest s d = (s, none) := if_pos h

/-- An entry that was read by none of the entries posted is as it was. -/
theorem markRead_entry {t : Tollhouse} {es : List LogEntry} {e : LogEntry} (h : e ∈ (markRead t es).log) :
    e.read = true ∨ e ∈ t.log ∧ es.all (·.seq != e.seq) = true := by
  obtain ⟨x, hx, rfl⟩ := List.mem_map.1 h
  split
  · exact .inl rfl
  · rename_i apart
    refine .inr ⟨hx, List.all_eq_true.2 fun y hy => ?_⟩
    simp only [Bool.not_eq_true, List.any_eq_false, beq_iff_eq] at apart
    simpa using apart y hy

section
variable {s : State} {q seq : Nat} {c : Taken}

theorem exec_devIdentify (taken : ready s q seq 0x0101 = some c) (aligned : c.param64 0 % 64 = 0) :
    exec (.devIdentify q seq) s = .next (finish (postHost (start s q seq) (c.param64 0) ((List.range 21).flatMap (identity s))) q seq
      stOk [21, profileVersion s, releasedTiles s]) := by
  refine onCmd_runs taken ?_
  simp only [aligned]
  rfl

theorem exec_errlogRead (taken : ready s q seq 0x0102 = some c) :
    exec (.errlogRead q seq) s = .next (finish { postHost (start s q seq) (c.param64 0)
        ((readEntries s.toll (c.param 3) (c.param 2)).flatMap (shownEntry s q)) with
      toll := markRead s.toll (readEntries s.toll (c.param 3) (c.param 2)) } q seq stOk
      (readReply s.toll (c.param 3) (readEntries s.toll (c.param 3) (c.param 2)))) := by
  refine onCmd_runs taken ?_
  have toll : (postHost (start s q seq) (c.param64 0) ((readEntries s.toll (c.param 3) (c.param 2)).flatMap (shownEntry s q))).toll = s.toll := by
    rw [postHost_posts]; rfl
  exact congrArg (fun t => finish { postHost (start s q seq) (c.param64 0)
    ((readEntries s.toll (c.param 3) (c.param 2)).flatMap (shownEntry s q)) with
      toll := markRead t (readEntries s.toll (c.param 3) (c.param 2)) } q seq stOk
      (readReply s.toll (c.param 3) (readEntries s.toll (c.param 3) (c.param 2)))) toll

section
variable (taken : ready s q seq 0x0105 = some c) (length : c.payload.length = 32) (aligned : c.param64 0 % 64 = 0)
  (room : 16384 ≤ c.param 2)
include length aligned room

theorem quoteFits : (c.payload.length != 32 || c.param64 0 % 64 != 0 || decide (c.param 2 < 16384)) = false := by
  simp [length, aligned, room]

include taken

theorem exec_attestQuote_waits (waits : signWaits (start s q seq) = true) : exec (.attestQuote q seq) s = .next (start s q seq) := by
  refine onCmd_runs taken ?_
  simp only [quoteFits length aligned room, waits, Bool.false_eq_true, if_false, if_true]

theorem exec_attestQuote_signs (goes : signWaits (start s q seq) = false) {v : State} {i : Nat} {sig : List Byte}
    (signed : signDigest (start s q seq) (sha256 (quoteBody s c.payload)) = (v, some (i, sig))) {quote : List Byte}
    (built : quote = quoteBody s c.payload ++ sha256 (quoteBody s c.payload) ++ sig ++ s.toll.certificate) :
    exec (.attestQuote q seq) s = .next (finish (postHost v (c.param64 0) quote) q seq stOk [quote.length, lo32 i]) := by
  refine onCmd_runs taken ?_
  obtain ⟨_, _, _, _, certificate⟩ := signDigest_some signed
  have body : quoteBody (start s q seq) c.payload = quoteBody s c.payload := rfl
  simp only [quoteFits length aligned room, goes, Bool.false_eq_true, if_false, body, signed, certificate, built]
  rfl

theorem exec_attestQuote_exhausted (done : keyCapacity ≤ s.toll.q) :
    exec (.attestQuote q seq) s = .next (finish (start s q seq) q seq stNotPermitted [1]) := by
  refine onCmd_runs taken ?_
  have goes : signWaits (start s q seq) = false := decide_eq_false fun h => absurd h.1 (Nat.not_lt.2 done)
  simp only [quoteFits length aligned room, goes, Bool.false_eq_true, if_false, signDigest_exhausted (s := start s q seq) done]

end
end

/-- Settles O35. A reservation moves the limit and never the index, so the index signed lies below the limit then in force. -/
theorem identityQuotesAndLog : Obligations.IdentityQuotesAndLog := by
  refine ⟨fun s v d x signed => ?_, fun s up few => ?_, fun s q seq c => ⟨exec_devIdentify, fun taken length aligned room =>
    ⟨exec_attestQuote_waits taken length aligned room, fun goes v i sig quote signed built =>
      exec_attestQuote_signs taken length aligned room goes signed built, exec_attestQuote_exhausted taken length aligned room⟩,
    fun es taken posted => ⟨posted ▸ exec_errlogRead taken, fun e => markRead_entry⟩⟩⟩
  · obtain ⟨rfl, capacity, limit, q, _⟩ := signDigest_some signed
    exact ⟨rfl, capacity, limit, q, by simpa only [signed] using signDigest_toll s d⟩
  · simp [exec, execSubtreeCompute, up, few]

end Sys2Proof.Machine

/-! SUPPORT. Compaction of the journal and the retirement of blocks that failed (16 R380, R384). -/

namespace Sys2Proof.Machine

/-! ### Blocks that failed (R380) -/

/-- From t to u no block that failed is forgotten: it still waits for its failure to be met, or it is retired, and then for good; the
blocks that wait for either stay as many. -/
structure Tracks (t u : Tollhouse) : Prop where
  failing : ∀ b ∈ t.failing, b ∈ u.failing ∨ b ∈ u.retired
  retired : ∀ b ∈ t.retired, b ∈ u.retired
  due : u.toRetire.length + u.failing.length = t.toRetire.length + t.failing.length

theorem Tracks.refl (t : Tollhouse) : Tracks t t := ⟨fun _ => .inl, fun _ => id, rfl⟩

theorem Tracks.trans {t u v : Tollhouse} (h : Tracks t u) (g : Tracks u v) : Tracks t v :=
  ⟨fun b hb => (h.failing b hb).elim (g.failing b) fun hu => .inr (g.retired b hu), fun b hb => g.retired b (h.retired b hb),
    g.due.trans h.due⟩

theorem Tracks.lose (t : Tollhouse) (failed : Nat → Bool) (j : List JournalRecord) : Tracks t { t.lose failed with journal := j } where
  failing b hb := by
    cases hf : failed b
    · exact .inl (List.mem_filter.2 ⟨hb, by simp [hf]⟩)
    · exact .inr (List.mem_append_right _ (List.mem_filter.2 ⟨hb, hf⟩))
  retired b hb := List.mem_append_left _ hb
  due := by
    simp only [Tollhouse.lose, List.length_append, List.length_eq_length_filter_add (l := t.failing) failed]
    omega

theorem Tracks.program (old : List JournalRecord) (epoch : Nat) (t : Tollhouse) (b : JournalBody) : Tracks t (program old epoch t b) :=
  Tracks.lose t _ _

theorem Tracks.programAll (old : List JournalRecord) (epoch : Nat) (bs : List JournalBody) (t : Tollhouse) :
    Tracks t (bs.foldl (Machine.program old epoch) t) := by
  induction bs generalizing t with
  | nil => exact .refl t
  | cons b bs ih => exact (Tracks.program old epoch t b).trans (ih _)

theorem Tracks.appendAll (bs : List JournalBody) (t : Tollhouse) : Tracks t (bs.foldl appendRecord t) := by
  induction bs generalizing t with
  | nil => exact .refl t
  | cons b bs ih => exact (Tracks.program [] (epochOf t) t b).trans (ih _)

theorem Tracks.commitRecords (t : Tollhouse) (kind : Nat) (bs : List JournalBody) : Tracks t (commitRecords t kind bs) :=
  (Tracks.appendAll bs t).trans (Tracks.program ..)

theorem Tracks.pushLog (t : Tollhouse) (e : LogEntry) : Tracks t (pushLog { t with logSeq := t.logSeq + 1 } e) := by
  unfold Machine.pushLog
  split
  · exact ⟨fun _ => .inl, fun _ => id, rfl⟩
  · split <;> exact ⟨fun _ => .inl, fun _ => id, rfl⟩

theorem Tracks.logEntry (s : State) (a b c d e f : Nat) (l : List Nat) : Tracks s.toll (logEntry s a b c d e f l).toll := by
  unfold Machine.logEntry
  split
  · exact ⟨fun _ => .inl, fun _ => id, rfl⟩
  · unfold logFresh
    dsimp only
    split
    · exact (Tracks.pushLog ..).trans (Tracks.commitRecords ..)
    · exact Tracks.pushLog ..

theorem Tracks.retireBlock (s : State) (b : Nat) : Tracks s.toll (retireBlock s b).toll :=
  (Tracks.commitRecords s.toll 4 [.retire b]).trans (Tracks.logEntry { s with toll := Machine.commitRecords s.toll 4 [.retire b] } ..)

/-- Each round writes one RETIRE record, and those that its own records add are among the blocks counted at the start. -/
theorem retireFuel_done (f : Nat) (s : State) (h : s.toll.toRetire.length + s.toll.failing.length = f) :
    (retireFuel f s).toll.toRetire = [] ∧ ∀ b ∈ s.toll.retired, b ∈ (retireFuel f s).toll.retired := by
  induction f generalizing s with
  | zero => exact ⟨List.eq_nil_of_length_eq_zero (Nat.eq_zero_of_add_eq_zero_right h), fun _ => id⟩
  | succ f ih =>
    unfold retireFuel
    split
    · rename_i done
      exact ⟨done, fun _ => id⟩
    · rename_i b rest waits
      have round := Tracks.retireBlock { s with toll := { s.toll with toRetire := rest } } b
      obtain ⟨done, keeps⟩ := ih _ (by
        rw [round.due]
        rw [waits] at h
        simp only [List.length_cons] at h ⊢
        omega)
      exact ⟨done, fun x hx => keeps x (round.retired x hx)⟩

theorem Tracks.sealed (t : Tollhouse) (e : Nat) : Tracks t (sealEpoch t.journal e (copyEpoch t)) := by
  have copied : Tracks t (copyEpoch t) := Tracks.trans (u := { t with journal := [] }) ⟨fun _ => .inl, fun _ => id, rfl⟩ (Tracks.programAll ..)
  exact copied.trans (Tracks.program ..)

/-! ### The new epoch (R384) -/

/-- A new epoch that was written whole is in effect with the bodies copied, and holds no record of another. -/
theorem sealEpoch_whole {t : Tollhouse} {e : Nat}
    (whole : (sealEpoch t.journal (epochOf t + 1) (copyEpoch t)).journal.length = (kept t.journal).length + 2)
    (he : e = epochOf t + 1) :
    bodies (sealEpoch t.journal e (copyEpoch t)).journal = .compactBegin :: kept t.journal
      ∧ baseEpoch (scan (sealEpoch t.journal e (copyEpoch t)).journal) = e
      ∧ ∀ r ∈ (sealEpoch t.journal e (copyEpoch t)).journal, r.epoch = e := by
  obtain ⟨l, copied, intact, short, full, _⟩ := copies t.journal (epochOf t + 1) (.compactBegin :: kept t.journal) { t with journal := [] }
  have copied : (copyEpoch t).journal = l := copied.trans (List.nil_append l)
  rw [← he] at whole intact
  revert whole
  unfold sealEpoch
  dsimp only
  generalize blockList _ = blocks
  obtain ⟨⟨l', sealing, last⟩, _⟩ := program_journal t.journal e (copyEpoch t) (.compactCommit blocks
    (bodiesDigest (scan (copyEpoch t).journal) e 0 (nextSeq (t.journal ++ (copyEpoch t).journal))))
  rw [sealing, copied]
  intro whole
  simp only [List.length_append, List.length_cons] at whole short full
  rcases last with rfl | ⟨x, rfl⟩
  · rw [List.length_nil] at whole; omega
  · rw [List.length_singleton] at whole
    obtain ⟨epochs, effect⟩ := wholeEpoch (x := x) (blocks := blocks) intact
      (fun r hr => lt_nextSeq (List.mem_append_right t.journal hr)) rfl
    have base : baseEpoch (scan _) = e := (epochs _ (List.mem_append_right l (List.mem_singleton_self _))).symm
    rw [copied]
    refine ⟨?_, base, fun r hr => (epochs r hr).trans base⟩
    rw [bodies, effect, full (by omega)]

/-! ### What the copies say (R384) -/

/-- Of a list's elements, those equal to its last or its last but one keep both of them. -/
theorem ends_of_filter (l : List FwModule) : (l.filter fun m => l.dropLast.getLast? == some m || l.getLast? == some m).getLast? = l.getLast?
    ∧ (l.filter fun m => l.dropLast.getLast? == some m || l.getLast? == some m).dropLast.getLast? = l.dropLast.getLast? := by
  rcases List.eq_nil_or_concat l with rfl | ⟨front, last, rfl⟩
  · simp
  · rcases List.eq_nil_or_concat front with rfl | ⟨older, previous, rfl⟩
    · simp
    · simp [List.filter_append, List.dropLast_append_of_ne_nil]

theorem moduleOf_some {b : JournalBody} {m : FwModule} (h : moduleOf b = some m) : b = .module m := by
  cases b <;> simp_all [moduleOf]

/-- The revisions copied of a module are those equal to its live or its previous one. -/
theorem revisions_of_kept (j : List JournalRecord) (id : Nat) :
    (((JournalBody.compactBegin :: kept j).filterMap moduleOf).filter fun m => m.id = id)
      = (revisions j id).filter fun m => previousRevision j id == some m || liveRevision j id == some m := by
  have logged : ((newest 1024 (persistedEntries j)).map JournalBody.errlog).filterMap moduleOf = [] := by
    rw [List.filterMap_map, List.filterMap_eq_nil_iff]
    exact fun _ _ => rfl
  have reserved : (if limitOf j = 0 then [] else [JournalBody.indexReserve (limitOf j)]).filterMap moduleOf = [] := by
    split <;> rfl
  have copied : ∀ bs : List JournalBody, (((bs.filter (isKept j)).filterMap moduleOf).filter fun m => m.id = id)
      = (((bs.filterMap moduleOf).filter fun m => m.id = id).filter
          fun m => previousRevision j id == some m || liveRevision j id == some m) := by
    intro bs
    induction bs with
    | nil => rfl
    | cons b bs ih =>
      cases carried : moduleOf b with
      | none =>
        rw [List.filterMap_cons_none carried, List.filter_cons]
        split
        · rw [List.filterMap_cons_none carried, ih]
        · exact ih
      | some m =>
        obtain rfl : b = .module m := moduleOf_some carried
        by_cases here : m.id = id
        · subst here
          cases keep : isKept j (.module m) <;> have named := keep <;> unfold isKept at named <;>
            simp only [List.filter_cons, List.filterMap_cons, moduleOf, keep, named, ih, decide_true, if_true, if_false, Bool.false_eq_true]
        · cases keep : isKept j (.module m) <;>
            simp only [List.filter_cons, List.filterMap_cons, moduleOf, keep, here, ih, decide_false, if_true, if_false, Bool.false_eq_true]
  rw [List.filterMap_cons]
  simp only [kept, List.filterMap_append, logged, reserved, List.append_nil, moduleOf]
  exact copied (bodies j)

/-- The entries copied are the newest 1,024. -/
theorem entries_of_kept (j : List JournalRecord) :
    (JournalBody.compactBegin :: kept j).filterMap loggedOf = newest 1024 (persistedEntries j) := by
  have copied : ((bodies j).filter (isKept j)).filterMap loggedOf = [] := by
    rw [List.filterMap_eq_nil_iff]
    intro b hb
    have keep := (List.mem_filter.1 hb).2
    cases b <;> simp_all [isKept, loggedOf]
  have reserved : (if limitOf j = 0 then [] else [JournalBody.indexReserve (limitOf j)]).filterMap loggedOf = [] := by
    split <;> rfl
  rw [List.filterMap_cons]
  simp only [kept, List.filterMap_append, copied, reserved, List.nil_append, loggedOf, List.filterMap_map]
  exact List.filterMap_some

/-! ### The compaction (R384) -/

section
variable {t : Tollhouse}

/-- What a compaction that was written whole keeps. -/
theorem compact_whole (whole : (sealEpoch t.journal (epochOf t + 1) (copyEpoch t)).journal.length = (kept t.journal).length + 2) :
    epochOf (compact t) = epochOf t + 1 ∧ (∀ r ∈ (compact t).journal, r.epoch = epochOf (compact t))
      ∧ (∀ id, liveRevision (compact t).journal id = liveRevision t.journal id
        ∧ previousRevision (compact t).journal id = previousRevision t.journal id)
      ∧ persistedEntries (compact t).journal = newest 1024 (persistedEntries t.journal) := by
  obtain ⟨copied, base, epochs⟩ := sealEpoch_whole whole rfl
  have journal : (compact t).journal = (sealEpoch t.journal (epochOf t + 1) (copyEpoch t)).journal := by
    simp only [compact, whole, beq_self_eq_true, if_true]
  have epoch : epochOf (compact t) = epochOf t + 1 := by rw [epochOf, journal, base]
  have revised : ∀ id, revisions (compact t).journal id =
      (revisions t.journal id).filter fun m => previousRevision t.journal id == some m || liveRevision t.journal id == some m := by
    intro id
    rw [revisions, journal, copied]
    exact revisions_of_kept t.journal id
  refine ⟨epoch, fun r hr => (epochs r (journal ▸ hr)).trans epoch.symm, fun id => ?_, ?_⟩
  · rw [liveRevision, previousRevision, revised]
    exact ends_of_filter (revisions t.journal id)
  · rw [persistedEntries, journal, copied]
    exact entries_of_kept t.journal

/-- A used block that fails to erase at a compaction's end is retired. -/
theorem compact_retires (whole : (sealEpoch t.journal (epochOf t + 1) (copyEpoch t)).journal.length = (kept t.journal).length + 2) {b : Nat}
    (failing : b ∈ t.failing) (used : b ∈ usedBlocks t.journal) : b ∈ (compact t).retired ∧ b ∉ (compact t).failing := by
  have lost : ∀ f : Nat → Bool, f b = true → ∀ u : Tollhouse, (b ∈ u.failing ∨ b ∈ u.retired) → b ∈ (u.lose f).retired ∧ b ∉ (u.lose f).failing := by
    intro f hit u has
    refine ⟨?_, fun h => by simpa [hit] using (List.mem_filter.1 h).2⟩
    exact has.elim (fun h => List.mem_append_right _ (List.mem_filter.2 ⟨h, hit⟩)) (List.mem_append_left _)
  unfold compact
  simp only [whole, beq_self_eq_true, Bool.true_and]
  exact lost _ (by simpa using used) _ ((Tracks.sealed t (epochOf t + 1)).failing b failing)

end

/-- Settles O34. The new epoch's records are the bodies copied and their COMPACT_COMMIT; the two newest revisions of a module stay the two
newest among those copied. -/
theorem compactionKeepsWhatCounts : Obligations.CompactionKeepsWhatCounts := by
  refine ⟨fun s t up full compacted => ?_, fun s => ?_⟩
  · subst compacted
    obtain ⟨limit, _, store⟩ := compact_index s.toll
    refine ⟨by simp [exec, execJournalCompaction, up, full], store, limit, ?_⟩
    split
    · rename_i whole
      obtain ⟨epoch, epochs, revised, entries⟩ := compact_whole whole
      exact ⟨epoch, epochs, revised, entries, fun b => compact_retires whole⟩
    · rename_i part
      simp only [compact, beq_eq_false_iff_ne.2 part, Bool.false_eq_true, if_false]
  · obtain ⟨done, keeps⟩ := retireFuel_done _ s rfl
    exact ⟨done, (retireBlocks_index s).2, keeps⟩

end Sys2Proof.Machine

/-! SUPPORT. Firmware updates: the revision committed to the journal, its swap into the module table, and the staged package of a
recovery (16 R382, R386, R389, R390, R405). -/

namespace Sys2Proof.Machine

/-! ### A change that found room (R381, R382) -/

theorem appendRecord_grows (t : Tollhouse) (b : JournalBody) : (appendRecord t b).journal = t.journal
    ∨ ∃ r, (∃ x, r = .make (nextSeq t.journal) (epochOf t) b x) ∧ r.start ∉ deadFrom [] t.journal
        ∧ (appendRecord t b).journal = t.journal ++ [r] := by
  unfold appendRecord program
  dsimp only
  split
  · rename_i ok
    exact .inr ⟨_, ⟨_, rfl⟩, by simpa using (Bool.and_eq_true_iff.1 ok).2, rfl⟩
  · exact .inl rfl

/-- A scan finds an intact record in a block where it has not stopped. -/
theorem scan_append_intact {j : List JournalRecord} {r : JournalRecord} (alive : r.start ∉ deadFrom [] j) (intact : r.intact = true) :
    scan (j ++ [r]) = scan j ++ [r] := by
  have alive : (deadFrom [] j).contains r.start = false := by simpa using alive
  rw [scan, scanFrom_append]
  simp only [scanFrom, alive, intact, if_true, if_false, Bool.false_eq_true]
  rfl

/-- A revision whose record and COMMIT found room is the live one of its module. -/
theorem commitRecords_live {t : Tollhouse} {m : FwModule} {kind : Nat}
    (room : (commitRecords t kind [.module m]).journal.length = t.journal.length + 2) :
    liveRevision (commitRecords t kind [.module m]).journal m.id = some m := by
  have late : ∀ b, Late (nextSeq t.journal) b → Extends (nextSeq t.journal) (fun _ => True) t (appendRecord t b) := fun b hb =>
    (Extends.refl _ _ t).append rfl hb trivial
  have epoch := (late (.module m) trivial).epoch rfl
  obtain ⟨⟨l, grown, tail⟩, _⟩ := commitRecords_extends (ok := fun _ => True) t kind (bs := [.module m]) (by simp [Late]) fun _ _ _ => trivial
  have behind : Behind (nextSeq t.journal) t.journal l :=
    ⟨fun _ => lt_nextSeq, fun r hr => (tail r hr).1, fun r hr => (tail r hr).2.2.1⟩
  obtain ⟨u, hu⟩ : ∃ u, u = appendRecord t (.module m) := ⟨_, rfl⟩
  have whole : commitRecords t kind [.module m] = appendRecord u (commitBody u (nextSeq t.journal) kind) := by rw [hu]; rfl
  rw [← hu] at epoch
  rcases appendRecord_grows t (.module m) with unwritten | ⟨r, ⟨x, made⟩, alive, first⟩ <;>
    rcases appendRecord_grows u (commitBody u (nextSeq t.journal) kind) with unwritten' | ⟨c, ⟨y, made'⟩, alive', second⟩
  · rw [whole, unwritten', hu, unwritten] at room; omega
  · rw [whole, second, hu, unwritten] at room; simp at room
  · rw [whole, unwritten', hu, first] at room; simp at room
  · rw [← hu] at first
    rw [first] at alive' second
    have scanned : scan (t.journal ++ [r] ++ [c]) = scan t.journal ++ [r] ++ [c] := by
      rw [scan_append_intact alive' (made' ▸ make_intact ..), scan_append_intact alive (made ▸ make_intact ..)]
    have pair : l = [r] ++ [c] := List.append_cancel_left (as := t.journal) (by rw [← grown, whole, second, List.append_assoc])
    have base := behind.epoch
    rw [pair, ← List.append_assoc, scanned] at base
    have covered : covers (scan t.journal ++ [r] ++ [c]) r c = true := by
      have apart : ∀ x ∈ [c], c.seq ≤ x.seq := fun x hx => (List.mem_singleton.1 hx ▸ le_rfl)
      have number : c.seq = nextSeq u.journal := by rw [made']; rfl
      have epochC : c.epoch = epochOf u := by rw [made']; rfl
      have epochR : r.epoch = epochOf t := by rw [made]; rfl
      have numberR : r.seq = nextSeq t.journal := by rw [made]; rfl
      have before : r.seq < nextSeq u.journal := lt_nextSeq (by rw [first]; simp)
      have body : c.body = .commit (nextSeq t.journal) kind (bodiesDigest (scan u.journal) (epochOf u) (nextSeq t.journal) (nextSeq u.journal)) := by
        rw [made']; rfl
      have scannedU : scan u.journal = scan t.journal ++ [r] := by rw [first, scan_append_intact alive (made ▸ make_intact ..)]
      unfold covers
      rw [body]
      simp only [epochC, epochR, epoch, number, numberR ▸ before, numberR, beq_self_eq_true, decide_true, Bool.true_and, le_refl]
      rw [bodiesDigest_append (n := c.seq) apart _ _ (by omega), scannedU]
      exact beq_self_eq_true _
    have effect : ∃ before after, inEffect (t.journal ++ [r] ++ [c]) = before ++ [r] ++ after ∧ ∀ x ∈ after, x = c := by
      unfold inEffect
      dsimp only
      rw [scanned, List.filter_append, List.filter_append, List.filter_cons_of_pos (a := r), List.filter_nil]
      · exact ⟨_, _, rfl, fun x hx => List.mem_singleton.1 (List.mem_filter.1 hx).1⟩
      · have sameEpoch : r.epoch = epochOf t := by rw [made]; rfl
        rw [base, sameEpoch, List.any_append, List.any_cons, covered]
        simp [epochOf]
    obtain ⟨before, after, split, only⟩ := effect
    have moduleR : moduleOf r.body = some m := by rw [made]; rfl
    have moduleAfter : (after.map (·.body)).filterMap moduleOf = [] := by
      rw [List.filterMap_map, List.filterMap_eq_nil_iff]
      intro x hx
      rw [only x hx, made']; rfl
    rw [whole, second, liveRevision, revisions, bodies, split]
    simp [List.filterMap_append, moduleAfter, moduleR, List.filter_append]

/-! ### Later records that carry no module -/

section
variable (id : Nat)

/-- A change that carries no module leaves every module's revisions as they are. -/
theorem commitRecords_revisions (t : Tollhouse) (kind : Nat) {bs : List JournalBody}
    (hb : ∀ b ∈ bs, Late (nextSeq t.journal) b ∧ moduleOf b = none) :
    revisions (commitRecords t kind bs).journal id = revisions t.journal id := by
  obtain ⟨⟨l, grown, tail⟩, _⟩ := commitRecords_extends (ok := fun b => moduleOf b = none) t kind hb fun _ _ _ => rfl
  have behind : Behind (nextSeq t.journal) t.journal l :=
    ⟨fun _ => lt_nextSeq, fun r hr => (tail r hr).1, fun r hr => (tail r hr).2.2.1⟩
  obtain ⟨l', effect, sub⟩ := behind.inEffect
  have empty : (l'.map (·.body)).filterMap moduleOf = [] := by
    rw [List.filterMap_map, List.filterMap_eq_nil_iff]
    exact fun x hx => (tail x (sub x hx)).2.2.2
  rw [revisions, bodies, grown, effect, List.map_append, List.filterMap_append, empty, List.append_nil]
  rfl

theorem logEntry_revisions (s : State) (a b c d e f : Nat) (l : List Nat) :
    revisions (logEntry s a b c d e f l).toll.journal id = revisions s.toll.journal id := by
  unfold logEntry
  split
  · rfl
  · unfold logFresh
    dsimp only
    split
    · rw [commitRecords_revisions id _ 3 (by simp [Late, moduleOf]), pushLog_journal]
    · rw [pushLog_journal]

theorem retireFuel_revisions (f : Nat) (s : State) : revisions (retireFuel f s).toll.journal id = revisions s.toll.journal id := by
  induction f generalizing s with
  | zero => rfl
  | succ f ih =>
    unfold retireFuel
    split
    · rfl
    · rename_i b rest _
      rw [ih, retireBlock, logEntry_revisions]
      exact commitRecords_revisions id { s.toll with toRetire := rest } 4 (by simp [Late, moduleOf])

theorem retireBlocks_live (s : State) : liveRevision (retireBlocks s).toll.journal id = liveRevision s.toll.journal id :=
  congrArg List.getLast? (retireFuel_revisions id _ s)

end

/-! ### The package (R389, R390) -/

section
variable (s : State) (cmd : Option (Nat × Nat)) (b : List Byte)

/-- The journal to which a change of one module is appended: compacted where it would be too full. -/
def updateBase (t : Tollhouse) (m : FwModule) : Tollhouse := if overFull t ((JournalBody.module m).pages + 1) then compact t else t

/-- The state with a change committed, before blocks that failed are retired. -/
def updateCommitted (s : State) (cmd : Option (Nat × Nat)) (m : FwModule) : State :=
  { s with toll := { commitRecords (updateBase s.toll m) 1 [.module m] with fw := some { cmd, module := m, replaced := revisionOf s m.id } } }

variable {s b}

theorem commitUpdate_badParam (bad : packageOk b = false) : commitUpdate s cmd b = (s, stBadParam) := by
  simp [commitUpdate, bad]

theorem commitUpdate_authFail (ok : packageOk b = true) (forged : authentic (packageModule b) = false) :
    commitUpdate s cmd b = (s, stAuthFail) := by
  simp [commitUpdate, ok, forged]

theorem commitUpdate_notPermitted (ok : packageOk b = true) (old : newer s.toll (packageModule b) = false) :
    commitUpdate s cmd b = (s, if authentic (packageModule b) then stNotPermitted else stAuthFail) := by
  cases signed : authentic (packageModule b) <;> simp [commitUpdate, ok, old, signed]

theorem commitUpdate_commits (ok : packageOk b = true) (signed : authentic (packageModule b) = true)
    (new : newer s.toll (packageModule b) = true) (room : noRoom s.toll (packageModule b) = false) :
    commitUpdate s cmd b = (retireBlocks (updateCommitted s cmd (packageModule b)), stOk) := by
  simp only [commitUpdate, ok, signed, new, room, Bool.not_true, Bool.false_eq_true, if_false]
  rfl

variable (s) (m : FwModule)

theorem updateCommitted_journal :
    (updateCommitted s cmd m).toll.journal = (commitRecords (updateBase s.toll m) 1 [.module m]).journal := by
  simp only [updateCommitted]

theorem updateCommitted_live (room : (updateCommitted s cmd m).toll.journal.length = (updateBase s.toll m).journal.length + 2) :
    liveRevision (updateCommitted s cmd m).toll.journal m.id = some m := by
  rw [updateCommitted_journal] at room ⊢
  exact commitRecords_live room

theorem updateCommitted_limit : indexLimit (updateCommitted s cmd m).toll = indexLimit s.toll := by
  have base : indexLimit (updateBase s.toll m) = indexLimit s.toll := by
    unfold updateBase
    split
    · exact (compact_index s.toll).1
    · rfl
  have same : indexLimit (updateCommitted s cmd m).toll = indexLimit (commitRecords (updateBase s.toll m) 1 [.module m]) :=
    indexLimit_of_journal (updateCommitted_journal s cmd m)
  exact same.trans ((commit_index (updateBase s.toll m) 1 (by simp [Late, reserveOf])).2.trans base)

theorem retireBlocks_fw (s : State) : (retireBlocks s).toll.fw = s.toll.fw := by
  rw [retireBlocks, retireFuel_logOnly]

end

section
variable {s : State} {q seq : Nat} {c : Taken} {d b : List Byte}

/-- FW_UPDATE on a package that could be read: what the package's check and commitment answer. -/
theorem exec_fwUpdate (taken : ready s q seq 0x0104 = some c) (idle : s.toll.fw = none) (aligned : c.param 0 % 32 = 0)
    (read : b = padTo (d.take (c.param 2)) (c.param 2)) {t : State} {st : Nat}
    (answers : commitUpdate (start s q seq) (some (q, seq)) b = (t, st)) :
    exec (.fwUpdate q seq (some d)) s = .next (if st = stOk then t else finish t q seq st []) := by
  refine onCmd_runs taken ?_
  have idle : (start s q seq).toll.fw.isSome = false := by rw [show (start s q seq).toll.fw = s.toll.fw from rfl, idle]; rfl
  subst read
  simp only [idle, aligned, answers, Bool.false_eq_true, if_false, bne_self_eq_false]
  rfl

variable (taken : ready s q seq 0x0104 = some c) (idle : s.toll.fw = none) (aligned : c.param 0 % 32 = 0)
  (read : b = padTo (d.take (c.param 2)) (c.param 2))
include taken idle aligned read

theorem exec_fwUpdate_refuses {st : Nat} (fails : st ≠ stOk)
    (answers : commitUpdate (start s q seq) (some (q, seq)) b = (start s q seq, st)) :
    exec (.fwUpdate q seq (some d)) s = .next (finish (start s q seq) q seq st []) :=
  (exec_fwUpdate taken idle aligned read answers).trans (congrArg _ (if_neg fails))

theorem exec_fwUpdate_commits (ok : packageOk b = true) (signed : authentic (packageModule b) = true)
    (new : newer s.toll (packageModule b) = true) (room : noRoom s.toll (packageModule b) = false) :
    exec (.fwUpdate q seq (some d)) s =
      .next (retireBlocks (updateCommitted (start s q seq) (some (q, seq)) (packageModule b))) :=
  (exec_fwUpdate taken idle aligned read (commitUpdate_commits _ ok signed new room)).trans (congrArg _ (if_pos rfl))

end

/-! ### The swap (R386, R390) -/

/-- The revision that a module takes is the one the module table then names. -/
theorem find_putModule (l : List FwModule) (m : FwModule) : (putModule l m).find? (fun x => x.id = m.id) = some m := by
  induction l with
  | nil => simp [putModule]
  | cons x l ih =>
    unfold putModule
    split
    · simp
    · split
      · simp
      · rename_i apart
        rw [List.find?_cons_of_neg (by simpa using fun h : x.id = m.id => apart h.symm), ih]

section
variable {s : State} {r : FwRun} (up : powered s = true) (waits : s.toll.fw = some r) (atPoint : atSwapPoint s r.module.id = true)

/-- The state with the revision swapped in and the swap logged. -/
def swapped (s : State) (r : FwRun) : State :=
  logError { s with toll := { s.toll with modules := putModule s.toll.modules r.module, fw := none } } 0x0051 0 sevInfo
    srcPackage 0xFF 0xFF [r.module.id, r.replaced, r.module.revision]

theorem swapped_revision (s : State) (r : FwRun) : revisionOf (swapped s r) r.module.id = r.module.revision := by
  rw [revisionOf, swapped, logError_logOnly]
  simp [find_putModule]

include up waits atPoint in
theorem exec_moduleSwap : exec (.moduleSwap r.module.id) s = .next (match r.cmd with
    | some (q, seq) => finish (swapped s r) q seq stOk [r.module.id, r.module.revision, r.replaced]
    | none => answerVoune (swapped s r) [0]) := by
  show Host.Outcome.next _ = _
  rw [up, waits]
  simp only [atPoint, and_self, if_true]
  rfl

end

/-! ### The staged package (R405) -/

section
variable {s : State} (up : powered s = true) (off : Nat) {data : List Byte}
include up

theorem exec_recoveryWrite_tooLong (long : 4086 < data.length) : exec (.recoveryWrite off data) s = .next s := by
  have fits : fitsMessage (4 + data.length) = false := decide_eq_false (by omega)
  simp [exec, execRecoveryWrite, up, fits]

theorem exec_recoveryWrite_refused (long : 4000 < data.length) (fits : data.length ≤ 4086) :
    exec (.recoveryWrite off data) s = .next (answerVoune s [BitVec.ofNat 8 stBadParam]) := by
  have fits : fitsMessage (4 + data.length) = true := decide_eq_true (by omega)
  simp [exec, execRecoveryWrite, up, fits, long]

theorem exec_recoveryWrite (short : data.length ≤ 4000) : exec (.recoveryWrite off data) s = .next (answerVoune { s with
    toll := { s.toll with staged := s.toll.staged.write off data, stagedBytes := max s.toll.stagedBytes (off + data.length) } } [0]) := by
  have fits : fitsMessage (4 + data.length) = true := decide_eq_true (by omega)
  simp [exec, execRecoveryWrite, up, fits, Nat.not_lt.2 short]

theorem exec_recoveryCommit (idle : s.toll.fw = none) {t : State} {st : Nat}
    (answers : commitUpdate s none (s.toll.staged.read 0 s.toll.stagedBytes) = (t, st)) : exec .recoveryCommit s = .next
      (if st = stOk then { t with toll := { t.toll with staged := [], stagedBytes := 0 } } else answerVoune t [BitVec.ofNat 8 st]) := by
  simp only [exec, execRecoveryCommit, up, idle, answers]
  rfl

variable {b : List Byte} (idle : s.toll.fw = none) (read : b = s.toll.staged.read 0 s.toll.stagedBytes) (ok : packageOk b = true)
include idle read ok

theorem exec_recoveryCommit_commits (signed : authentic (packageModule b) = true)
    (new : newer s.toll (packageModule b) = true) (room : noRoom s.toll (packageModule b) = false) : ∃ t, exec .recoveryCommit s = .next t
      ∧ t.toll.fw = some { cmd := none, module := packageModule b, replaced := revisionOf s (packageModule b).id }
      ∧ t.toll.staged = [] ∧ t.toll.stagedBytes = 0
      ∧ ((commitRecords (updateBase s.toll (packageModule b)) 1 [.module (packageModule b)]).journal.length
          = (updateBase s.toll (packageModule b)).journal.length + 2 →
        liveRevision t.toll.journal (packageModule b).id = some (packageModule b)) := by
  subst read
  have answers := commitUpdate_commits none ok signed new room
  generalize packageModule _ = m at answers
  obtain ⟨u, committed⟩ : ∃ u, u = updateCommitted s none m := ⟨_, rfl⟩
  obtain ⟨v, retired⟩ : ∃ v, v = retireBlocks u := ⟨_, rfl⟩
  rw [← committed, ← retired] at answers
  refine ⟨_, (exec_recoveryCommit up idle answers).trans (congrArg _ (if_pos rfl)), ?_, rfl, rfl, fun fits => ?_⟩
  · exact (congrArg (·.toll.fw) retired).trans ((retireBlocks_fw u).trans (by rw [committed, updateCommitted]))
  · show liveRevision v.toll.journal m.id = some m
    rw [retired, retireBlocks_live, committed]
    exact updateCommitted_live s none m (by rwa [updateCommitted_journal])

theorem exec_recoveryCommit_refuses (forged : authentic (packageModule b) = false) :
    exec .recoveryCommit s = .next (answerVoune s [BitVec.ofNat 8 stAuthFail]) := by
  subst read
  exact (exec_recoveryCommit up idle (commitUpdate_authFail none ok forged)).trans (congrArg _ (if_neg (by decide)))

end

/-- Settles O33. -/
theorem firmwareUpdateCommitsAndSwaps : Obligations.FirmwareUpdateCommitsAndSwaps := by
  refine ⟨fun s q seq c d b m taken idle aligned read carried => ?_, fun s r up waits atPoint => ?_, fun s up => ?_⟩
  · subst carried
    have refuses := fun {st} => exec_fwUpdate_refuses (st := st) taken idle aligned read
    refine ⟨fun bad => refuses (by decide) (commitUpdate_badParam _ bad), fun ok differs => ?_, fun ok old => ?_, fun ok new room => ?_⟩
    · exact refuses (by decide) (commitUpdate_authFail _ ok (by simp [authentic, differs]))
    · exact refuses (by split <;> decide) (commitUpdate_notPermitted _ ok old)
    · by_cases signed : authentic (packageModule b) = true
      · refine ⟨_, exec_fwUpdate_commits taken idle aligned read ok signed new room, ?_⟩
        rw [if_pos signed]
        exact ⟨updateBase s.toll (packageModule b), updateCommitted (start s q seq) (some (q, seq)) (packageModule b), rfl, rfl, rfl,
          updateCommitted_limit .., updateCommitted_live _ _ _⟩
      · refine ⟨_, refuses (by decide) (commitUpdate_authFail _ ok (Bool.not_eq_true _ ▸ signed)), ?_⟩
        rw [if_neg signed]
  · refine ⟨swapped s r, rfl, swapped_revision s r, fun q seq posted => ?_, fun silent => ?_⟩
    · rw [exec_moduleSwap up waits atPoint, posted]
    · rw [exec_moduleSwap up waits atPoint, silent]
  · refine ⟨fun off data long fits => exec_recoveryWrite_refused up off long fits, fun off data long => exec_recoveryWrite_tooLong up off long,
      fun off data short wf => ⟨_, exec_recoveryWrite up off short, Memory.read_write wf off data, rfl, rfl⟩,
      fun b m v idle read carried ok new room based => ?_⟩
    subst carried based
    by_cases signed : authentic (packageModule b) = true
    · obtain ⟨t, runs, kept⟩ := exec_recoveryCommit_commits up idle read ok signed new room
      refine ⟨t, runs, ?_⟩
      rw [if_pos signed]
      exact kept
    · refine ⟨_, exec_recoveryCommit_refuses up idle read ok (Bool.not_eq_true _ ▸ signed), ?_⟩
      rw [if_neg signed]

end Sys2Proof.Machine

/-! SUPPORT. Captures of counters, the selection of pier events, and sampling sessions (17 R409, R414 to R417, R420, R421). -/

namespace Sys2Proof.Machine

/-! ### Captures (R409, R416) -/

/-- From s to t time passes: only it, the free values used and the counters that time moves change. -/
def Passes (s t : State) : Prop :=
  s.time ≤ t.time ∧ t = { s with time := t.time, free := t.free, ctxs := t.ctxs, counters := t.counters, waits := t.waits }

theorem Passes.refl (s : State) : Passes s s := ⟨le_rfl, rfl⟩

theorem Passes.trans {s t u : State} (h : Passes s t) (g : Passes t u) : Passes s u := by
  refine ⟨h.1.trans g.1, ?_⟩
  rw [g.2, h.2]

theorem captureBound_le (s : State) (n x y : Nat) : captureBound s n x y ≤ 600 := by
  unfold captureBound
  split <;> omega

/-- The wait before a capture takes at most 600 ns. -/
theorem passes_wait (s : State) (n x y : Nat) :
    Passes s (advanceTo (freeUsed s 1) (s.time + freeBelow s (captureBound s n y x + 1)))
      ∧ (advanceTo (freeUsed s 1) (s.time + freeBelow s (captureBound s n y x + 1))).time ≤ s.time + 600 := by
  have bound := captureBound_le s n y x
  have below : freeBelow s (captureBound s n y x + 1) < captureBound s n y x + 1 := Nat.mod_lt _ (by omega)
  have time : (freeUsed s 1).time = s.time := rfl
  refine ⟨⟨?_, ?_⟩, ?_⟩
  · rw [advanceTo_time, time]; omega
  · rw [(advanceTo_parts _ _).1]; rfl
  · rw [advanceTo_time, time]; omega

/-- The state in which a list's next capture is made: at once for the first, else after a wait. -/
def beforeCapture (s : State) (n x : Nat) : Option Nat → State
  | some y => advanceTo (freeUsed s 1) (s.time + freeBelow s (captureBound s n y x + 1))
  | none => s

/-- The longest wait before a list's next capture. -/
def waitBound : Option Nat → Nat
  | some _ => 600
  | none => 0

theorem beforeCapture_passes (s : State) (n x : Nat) (before : Option Nat) :
    Passes s (beforeCapture s n x before) ∧ (beforeCapture s n x before).time ≤ s.time + waitBound before := by
  cases before with
  | none => exact ⟨.refl s, le_rfl⟩
  | some y => exact passes_wait s n x y

/-- What a capture reads: the counter, or a free value. -/
def captureRead (t : State) (n x : Nat) : Nat :=
  if (counterValue t n x).2 then freeBelow t (2 ^ 64) else (counterValue t n x).1

/-- The state after a capture. -/
def captured (t : State) (n x : Nat) : State := if (counterValue t n x).2 then freeUsed t 1 else t

theorem captured_passes (t : State) (n x : Nat) : Passes t (captured t n x) ∧ (captured t n x).time = t.time := by
  unfold captured
  split
  · exact ⟨⟨le_rfl, rfl⟩, rfl⟩
  · exact ⟨.refl t, rfl⟩

theorem captures_cons (n x : Nat) (xs : List Nat) (before : Option Nat) (s : State) : captures n (x :: xs) before s =
    ((captures n xs (some x) (captured (beforeCapture s n x before) n x)).1,
      (captureRead (beforeCapture s n x before) n x, (beforeCapture s n x before).time)
        :: (captures n xs (some x) (captured (beforeCapture s n x before) n x)).2) := by
  cases before <;> rfl

/-- The captures of a list: one for each selector, stamped in the time that they take. -/
theorem captures_spec (n : Nat) (xs : List Nat) (before : Option Nat) (s : State) :
    (captures n xs before s).2.length = xs.length ∧ Passes s (captures n xs before s).1
      ∧ (∀ e ∈ (captures n xs before s).2, s.time ≤ e.2 ∧ e.2 ≤ (captures n xs before s).1.time)
      ∧ (captures n xs before s).1.time ≤ s.time + 600 * xs.length := by
  induction xs generalizing before s with
  | nil => exact ⟨rfl, .refl s, fun e he => absurd he List.not_mem_nil, le_rfl⟩
  | cons x xs ih =>
    rw [captures_cons]
    obtain ⟨waits, waitTime⟩ := beforeCapture_passes s n x before
    generalize beforeCapture s n x before = t at waits waitTime
    obtain ⟨reads, readTime⟩ := captured_passes t n x
    obtain ⟨length, rest, stamps, bound⟩ := ih (some x) (captured t n x)
    have wait : waitBound before ≤ 600 := by cases before <;> simp [waitBound]
    have start := waits.1
    rw [readTime] at stamps bound
    refine ⟨congrArg (· + 1) length, waits.trans (reads.trans rest), fun e he => ?_, ?_⟩
    · rcases List.mem_cons.1 he with rfl | he
      · exact ⟨start, readTime ▸ rest.1⟩
      · exact ⟨start.trans (stamps e he).1, (stamps e he).2⟩
    · simp only [List.length_cons]
      omega

theorem captures_head (n : Nat) {xs : List Nat} {x : Nat} {s : State} (first : xs.head? = some x) (known : (counterValue s n x).2 = false) :
    (captures n xs none s).2.head? = some ((counterValue s n x).1, s.time) := by
  obtain ⟨rest, rfl⟩ : ∃ rest, xs = x :: rest := ⟨xs.tail, (List.cons_head?_tail first).symm⟩
  rw [captures_cons]
  simp [beforeCapture, captureRead, known]

/-! ### CTR_READ (R415) -/

section
variable {s : State} {q seq : Nat} {c : Taken}

theorem exec_ctrRead {xs : List Nat} {v : State} {l : List (Nat × Nat)} (taken : ready s q seq 0x0801 = some c)
    (list : xs = selectors c.payload) (whole : c.payload.length % 4 = 0) (some_ : xs ≠ []) (aligned : c.param64 0 % 32 = 0)
    (stamped : c.param 2 < 2) (good : badSelector s c.context xs = none) (own : 4 ≤ q → xs.all (fun x => selClass x < 4) = true)
    (taking : captures c.context xs none (start s q seq) = (v, l)) :
    exec (.ctrRead q seq) s = .next (finish (postHost v (c.param64 0) (l.flatMap fun e =>
        leBytes 8 e.1 ++ if c.param 2 = 1 then leBytes 8 e.2 else [])) q seq stOk
      [l.length, lo32 ((l.head?.map (·.2)).getD 0), lo32 ((l.getLast?.map (·.2)).getD 0)]) := by
  refine onCmd_runs taken ?_
  have permitted : (if 4 ≤ q then xs.findIdx? fun x => decide (4 ≤ selClass x) else none) = none := by
    split
    · rename_i guest
      rw [List.findIdx?_eq_none_iff]
      intro x hx
      have := List.all_eq_true.1 (own guest) x hx
      simp only [decide_eq_true_eq] at this
      simpa using this
    · rfl
  have good : badSelector (start s q seq) c.context xs = none := good
  have nonempty : xs.isEmpty = false := by simpa using some_
  subst list
  simp only [whole, nonempty, aligned, Nat.not_le.2 stamped, good, permitted, taking, bne_self_eq_false, Bool.or_false, decide_false,
    Bool.false_eq_true, if_false]

end

/-! ### CTR_SELECT (R414) -/

section
variable (es : List Nat)

theorem foldl_selectEvents_keeps (ps : List Nat) (x : Context) : ps.foldl (selectEvents es) x =
    { x with events := (ps.foldl (selectEvents es) x).events, counters := (ps.foldl (selectEvents es) x).counters
             waits := (ps.foldl (selectEvents es) x).waits } := by
  induction ps generalizing x with
  | nil => rfl
  | cons p ps ih => exact ih (selectEvents es x p)

/-- The piers told take the events told; the others keep theirs. -/
theorem eventsOf_selected (ps : List Nat) (x : Context) (p : Nat) :
    eventsOf (ps.foldl (selectEvents es) x) p = if p ∈ ps then es else eventsOf x p := by
  induction ps generalizing x with
  | nil => rfl
  | cons k ps ih =>
    rw [List.foldl_cons, ih]
    by_cases later : p ∈ ps
    · rw [if_pos later, if_pos (List.mem_cons_of_mem _ later)]
    · rw [if_neg later]
      by_cases here : p = k
      · subst here
        rw [if_pos List.mem_cons_self]
        simp only [eventsOf, selectEvents, assoc_setAssoc_same, Option.getD_some]
      · rw [if_neg (by simp [here, later])]
        simp only [eventsOf, selectEvents, assoc_setAssoc_ne _ here]

end

section
variable (s : State) (n : Nat) (ps : List Nat)

/-- The context with the events given to those piers that are between instructions. -/
def selected (s : State) (q seq n : Nat) (ps es : List Nat) (x : Context) : Context :=
  { (ps.filter fun p => !insideInstruction s n p).foldl (selectEvents es) x with
    selecting := (x.selecting.filter fun e => !(e.1 == q && e.2.1 == seq))
      ++ if ps.any (insideInstruction s n) then [(q, seq, ps.filter (insideInstruction s n))] else [] }

theorem takeSelect_eq (q seq : Nat) (es : List Nat) : takeSelect s q seq n ps es =
    if ps.any (insideInstruction s n) then modCtx s n (selected s q seq n ps es)
    else finish (modCtx s n (selected s q seq n ps es)) q seq stOk [] := by
  have empty : (ps.filter (insideInstruction s n)).isEmpty = !ps.any (insideInstruction s n) := by
    rw [Bool.eq_iff_iff]
    simp [List.isEmpty_iff, List.filter_eq_nil_iff]
  unfold takeSelect
  rw [List.partition_eq_filter_filter]
  unfold selected
  dsimp only
  rw [empty]
  cases ps.any (insideInstruction s n) <;> rfl

end

section
variable {s : State} {q seq : Nat} {c : Taken} {x : Context} {es ps : List Nat}

/-- CTR_SELECT that passes its checks and has not begun changes the piers that may be changed now. -/
theorem exec_ctrSelect (taken : ready s q seq 0x0802 = some c) (found : ctxAt s c.context = some x) (list : es = c.payload.map (·.toNat))
    (twelve : es.length = 12) (known : ∀ e ∈ es, e ≤ 0x11) (target : c.param 0 = 0xFFFFFFFF ∨ c.param 0 < 512)
    (fresh : (x.selecting.find? fun e => e.1 == q && e.2.1 == seq) = none)
    (piers : ps = if c.param 0 = 0xFFFFFFFF then List.range 512 else [c.param 0]) :
    exec (.ctrSelect q seq) s = .next (takeSelect (start s q seq) q seq c.context ps es) := by
  refine onCmd_runs taken ?_
  have found : ctxAt (start s q seq) c.context = some x := found
  have events : es.any (fun e => decide (0x11 < e)) = false := by
    rw [List.any_eq_false]
    intro e he
    have := known e he
    simpa using this
  have pier : (!(c.param 0 == 0xFFFFFFFF) && decide (511 < c.param 0)) = false := by
    rcases target with all | one
    · simp [all]
    · simp; omega
  have all : (if (c.param 0 == 0xFFFFFFFF) = true then List.range 512 else [c.param 0]) = ps := by rw [piers]; simp
  subst list
  simp only [found, twelve, events, pier, all, toSelect, fresh, bne_self_eq_false, Bool.or_false, Bool.false_eq_true, if_false]
  rfl

theorem selected_spec (fresh : (x.selecting.find? fun e => e.1 == q && e.2.1 == seq) = none) (n : Nat) :
    (∀ p, eventsOf (selected s q seq n ps es x) p = if p ∈ ps ∧ insideInstruction s n p = false then es else eventsOf x p)
      ∧ (selected s q seq n ps es x).selecting = x.selecting ++ (if ps.any (insideInstruction s n) then
          [(q, seq, ps.filter (insideInstruction s n))] else [])
      ∧ selected s q seq n ps es x = { x with
          events := (selected s q seq n ps es x).events, counters := (selected s q seq n ps es x).counters
          waits := (selected s q seq n ps es x).waits, selecting := (selected s q seq n ps es x).selecting } := by
  refine ⟨fun p => ?_, ?_, ?_⟩
  · exact (eventsOf_selected es _ x p).trans (by simp only [List.mem_filter, Bool.not_eq_eq_eq_not, Bool.not_true])
  · refine congrArg (· ++ _) (List.filter_eq_self.2 fun e he => ?_)
    simpa [or_iff_not_imp_left] using List.find?_eq_none.1 fresh e he
  · rw [selected, foldl_selectEvents_keeps]

end

/-! ### Sampling sessions (R417, R420, R421) -/

/-- A state in which a context has changed and the header of its sample buffer has been written. -/
def withHeader (s : State) (n : Nat) (f : Context → Context) (a : Nat) (header : List Byte) : State :=
  { count (modCtx s n f) 5 ((stackOf a).getD 0) 1 64 with hbm := { s.hbm with mem := s.hbm.mem.write a header } }

section
variable (s : State) (n : Nat) (f : Context → Context) (a : Nat) (header : List Byte)

theorem ctxAt_withHeader {x : Context} (found : ctxAt s n = some x) (m : Nat) :
    ctxAt (withHeader s n f a header) m = if m = n then some (f x) else ctxAt s m := by
  refine (ctxAt_modCtx s n m f).trans ?_
  by_cases here : n = m
  · subst here
    simp [found]
  · simp [here, Ne.symm here]

theorem withHeader_frame : withHeader s n f a header = { s with
    hbm := { s.hbm with mem := (withHeader s n f a header).hbm.mem }
    ctxs := (withHeader s n f a header).ctxs, counters := (withHeader s n f a header).counters } := rfl

theorem withHeader_read (wf : Memory.Wf s.hbm.mem) (length : header.length = 64) :
    (withHeader s n f a header).hbm.mem.read a 64 = header := length ▸ Memory.read_write wf a header

end

@[simp] theorem sampleHeader_length (x : Sampling) (state : Nat) : (sampleHeader x state).length = 64 := by
  simp [sampleHeader, leBytes_length]

section
variable {s : State} (eu : s.hbm.uncorrectable = []) (ec : s.hbm.correctable = []) (er : s.caisson.run = none)
include eu ec er

/-- Without errors and copies the sampler's write stores its bytes. -/
theorem sampleStore_clean (r : Reader) (a : Nat) (bs : List Byte) : (sampleStore s r a bs).1 =
    { count s 5 ((stackOf a).getD 0) 1 bs.length with hbm := { s.hbm with mem := s.hbm.mem.write a bs } } := by
  unfold sampleStore
  rw [copyBefore_none er, mergeHbm_clean (by exact eu) (by exact ec)]
  exact congrArg (fun h => { count s 5 ((stackOf a).getD 0) 1 bs.length with hbm := h }) (write_clean eu ec a bs)

/-- The end of a session with no record waiting closes its header. -/
theorem endSampling_clean {n : Nat} {y : Sampling} (runs : (ctxAt s n).bind (·.sampling) = some y) (quiet : y.waiting = []) :
    endSampling s n = withHeader s n (fun c => { c with sampling := none }) y.bufAddr (sampleHeader y 2) := by
  have none_waits : flushRecords s n = s := by
    rw [flushRecords, waitingRecords, runs]
    simp [quiet, storeRecords]
  unfold endSampling
  rw [runs]
  dsimp only
  rw [none_waits, putHeader, runs]
  dsimp only
  rw [sampleStore_clean eu ec er, sampleHeader_length]
  rfl

end

section
variable {s : State} {q seq : Nat} {c : Taken} {x : Context} {y : Sampling}

theorem exec_sampleStop {v : State} (taken : ready s q seq 0x0804 = some c) (flushed : flushRecords (start s q seq) c.context = v)
    (runs : (ctxAt v c.context).bind (·.sampling) = some y) :
    exec (.sampleStop q seq) s = .next (finish (endSampling v c.context) q seq stOk [lo32 y.written, hi32 y.written, lo32 y.dropped]) := by
  refine onCmd_runs taken ?_
  simp only [flushed, runs]

theorem exec_sampleStart {im : Image} (taken : ready s q seq 0x0803 = some c) (found : ctxAt s c.context = some x) (image : x.image = some im)
    (idle : x.sampling = none) (session : y = sessionOf c.payload) (ok : sessionOk c.payload = true) (apart : meetsImage im y = false)
    (own : granted s c.context y.bufAddr y.bufBytes = true) (eu : s.hbm.uncorrectable = []) (ec : s.hbm.correctable = [])
    (er : s.caisson.run = none) :
    exec (.sampleStart q seq) s = .next (finish
      (withHeader (start s q seq) c.context (fun c => { c with sampling := some y }) y.bufAddr (sampleHeader y 1)) q seq stOk []) := by
  refine onCmd_runs taken ?_
  have found : ctxAt (start s q seq) c.context = some x := found
  have own : granted (start s q seq) c.context y.bufAddr y.bufBytes = true := own
  subst session
  simp only [found, image, idle, ok, apart, own, Option.isSome_none, Bool.not_true, Bool.or_false, Bool.false_eq_true, if_false]
  rw [writeHbm_clean (by exact eu) (by exact ec) (by exact er), sampleHeader_length]
  rfl

end

/-- Settles O39. -/
theorem countersAndSamplesRead : Obligations.CountersAndSamplesRead := by
  refine fun s q seq c => ⟨fun xs v l taken list whole some_ aligned stamped good own taking => ?_,
    fun x es ps taken found list twelve known target fresh piers => ?_,
    fun x im y taken found image idle session ok apart own wf eu ec er => ?_, fun y v => exec_sampleStop,
    fun x y taken found runs quiet wf eu ec er => ?_⟩
  · refine ⟨exec_ctrRead taken list whole some_ aligned stamped good own taking, ?_⟩
    obtain ⟨length, passes, stamps, bound⟩ := captures_spec c.context xs none (start s q seq)
    have first := fun x h k => captures_head c.context (xs := xs) (x := x) (s := start s q seq) h k
    rw [taking] at length passes stamps bound first
    exact ⟨length, passes.2, stamps, bound, first⟩
  · have runs := exec_ctrSelect taken found list twelve known target fresh piers
    rw [takeSelect_eq] at runs
    obtain ⟨events, selecting, kept⟩ := selected_spec (s := s) (ps := ps) (es := es) fresh c.context
    refine ⟨modCtx (start s q seq) c.context (selected s q seq c.context ps es), selected s q seq c.context ps es x, ?_, fun n => ?_,
      fun p _ => events p, selecting, kept, rfl⟩
    · refine runs.trans (congrArg _ ?_)
      rfl
    · rw [ctxAt_modCtx]
      by_cases here : c.context = n
      · subst here
        simp [found]
      · simp [here, Ne.symm here]
  · exact ⟨_, exec_sampleStart taken found image idle session ok apart own eu ec er, ctxAt_withHeader (start s q seq) _ _ _ _ found,
      withHeader_read (start s q seq) _ _ _ _ wf (sampleHeader_length ..), withHeader_frame (start s q seq) ..⟩
  · have session : (ctxAt (start s q seq) c.context).bind (·.sampling) = some y := by rw [ctxAt_start, found]; exact runs
    have none_waits : flushRecords (start s q seq) c.context = start s q seq := by
      rw [flushRecords, waitingRecords, session]
      simp [quiet, storeRecords]
    have stops := exec_sampleStop taken none_waits session
    rw [endSampling_clean (s := start s q seq) eu ec er session quiet] at stops
    exact ⟨_, stops, ctxAt_withHeader (start s q seq) _ _ _ _ found,
      withHeader_read (start s q seq) _ _ _ _ wf (sampleHeader_length ..), withHeader_frame (start s q seq) ..⟩

end Sys2Proof.Machine

/-! SUPPORT. A feed whose decoded rows are wider than the configuration's row_bytes, and what PATCH_PACK writes for it (12 R294, R298, R299). -/

namespace Sys2Proof.Machine

/-- A configuration of 32-byte rows with a staging range of 3 GiB (R294). -/
def narrowConfig : AprConfig :=
  { stagingAddr := 0, stagingBytes := 3 * gib, rowBytes := 32, padTo := 1, omitErrors := false, feedQueue := 0, profiles := [] }

/-- One token row of 64 bytes, where the configuration's rows have 32. APR_CONFIG and the decoders make no such row (R294), but the state
may hold one. -/
def wideRow : ItemResult := { result := 0, unit := 0, detail := 0, microcode := 0, tokens := 1, width := 64, place := 0 }

/-- A feed whose one item was decoded into that row. -/
def wideFeed : Feed :=
  { q := 1, seq := 3, ctx := 0, last := true, tag := 0, resultsAddr := 0, items := [itemOf (List.replicate 48 0)], results := [(0, wideRow)]
    tables := [], packed := none }

/-- A package that runs; context 0 is configured, and its feed is decoded. -/
def wideState : State :=
  { State.reset with
    pkg := { Package.fresh with phase := .running }, ctxs := [some { freshContext (List.replicate 64 0) with apr := some narrowConfig }]
    apr := { tables := [], feeds := [wideFeed] } }

/-- Filling a row out never cuts it. -/
theorem length_padTo (bs : List Byte) (n : Nat) : (padTo bs n).length = max bs.length n := by
  simp only [padTo, List.length_append, List.length_replicate]
  omega

/-- The rows that the statement wants read back at the payload's place. -/
def wideRows : List Byte :=
  padTo (wideFeed.segments.flatMap fun g => (List.range g.2.2.tokens).flatMap fun k =>
    padTo (slice (wideState.hbm.mem.read g.2.2.place (g.2.2.tokens * g.2.2.width)) (k * g.2.2.width) g.2.2.width)
      narrowConfig.rowBytes) (packedBytes narrowConfig wideFeed)

/-- They are longer than the payload. -/
theorem wideRows_longer : packedBytes narrowConfig wideFeed < wideRows.length := by decide +kernel

/-- The feed is packed: it has a token, fits its class, is first in its turn, and there is room in the staging range. -/
theorem wideFeed_packs : wideFeed.packed = none ∧ wideFeed.results.length = wideFeed.items.length ∧ firstFailed wideFeed = none
    ∧ 0 < wideFeed.tokens
    ∧ ((feedClass wideState wideFeed.ctx narrowConfig).any fun x => oversize x narrowConfig.rowBytes
        (paddedTokens narrowConfig wideFeed.tokens) (feedSegs narrowConfig wideFeed).length) = false
    ∧ packTurn wideState wideFeed = true
    ∧ packPlaces wideState narrowConfig wideFeed (feedSegs narrowConfig wideFeed).length
        (packedBytes narrowConfig wideFeed) = some (0, 2 * gib)
    ∧ meetsFrozen wideState wideFeed.ctx 0 (8 * (feedSegs narrowConfig wideFeed).length) = false
    ∧ meetsFrozen wideState wideFeed.ctx (2 * gib) (packedBytes narrowConfig wideFeed) = false := by
  decide +kernel

/-- The state meets the statement's hypotheses about itself. -/
theorem wideFeed_state : running wideState = true ∧ approachHeld wideState = false
    ∧ findFeed wideState 1 3 = some wideFeed
    ∧ (ctxAt wideState wideFeed.ctx).bind (·.apr) = some narrowConfig
    ∧ Memory.Wf wideState.hbm.mem ∧ wideState.hbm.uncorrectable = []
    ∧ wideState.hbm.correctable = [] ∧ wideState.caisson.run = none := by
  decide +kernel

/-- Refutes O30: of a feed whose decoded row has 64 bytes, under a configuration of 32-byte rows, PATCH_PACK's rows are longer than the
payload (a row is filled to row_bytes, and never cut), so that a read of the payload's bytes cannot give them. The statement leaves out
that a decoded row's width is at most row_bytes. -/
theorem not_feedsReachTheFeedQueue : ¬ Obligations.FeedsReachTheFeedQueue := by
  rintro ⟨_, _, _, _, feeds⟩
  obtain ⟨up, free, found, configured, wf, eu, ec, er⟩ := wideFeed_state
  obtain ⟨unpacked, decoded, unfailed, tokens, fits, turn, places, clearTable, clearPlace⟩ := wideFeed_packs
  obtain ⟨_, _, packs, _⟩ := feeds _ 1 3 wideFeed _ up free found configured
  obtain ⟨t, _, payload, _⟩ := (packs unpacked decoded (.inl unfailed)).2 _ _ wideRows tokens fits turn places clearTable clearPlace wf eu ec
    er rfl
  have length := congrArg List.length payload
  rw [Memory.read_length] at length
  exact absurd length wideRows_longer.ne

end Sys2Proof.Machine

/-! SUPPORT. Single decodes, tokenizer tables and queries of the Approach (12 R293, R308, R312, R314). -/

namespace Sys2Proof.Machine

/-! ### APR_DECODE (R314) -/

/-- A command of the units waits while the Approach die is held. -/
theorem exec_aprDecode_held {s : State} (held : approachHeld s = true) (q seq : Nat) (d : HostRead) : exec (.aprDecode q seq d) s = .next s :=
  congrArg Host.Outcome.next (onUnit_held held ..)

/-- Where no error, copy or FROZEN range is met, a staging write stores its bytes. -/
theorem stage_clean {s : State} {r : Reader} {place : Nat} {bs : List Byte} (thawed : meetsFrozen s r.ctx place bs.length = false)
    (eu : s.hbm.uncorrectable = []) (ec : s.hbm.correctable = []) (er : s.caisson.run = none) : stage s r place bs =
      ({ count s 5 ((stackOf place).getD 0) 1 bs.length with hbm := { s.hbm with mem := s.hbm.mem.write place bs } }, stOk) := by
  simp [stage, thawed, writeHbm_clean eu ec er]

/-- The state before a tensor goes to its place: the unit is chosen and its working data is written. -/
def unitWorked (s : State) (a : AprConfig) (n kind : Nat) : State :=
  workData (freeUsed s 1) a (aprReader n (unitClass kind) (freeBelow s (unitCount kind))) kind

/-- A tensor that fits the working area goes there and from there to its destination. -/
theorem deliverTensor_clean {s : State} {a : AprConfig} {q seq n kind dst w : Nat} {out : List Byte} {dims : List Nat}
    (short : out.length ≤ 2 * gib - tableSpace)
    (place : firstFit (stagingUsed s n) a.stagingAddr (a.stagingAddr + 2 * gib - tableSpace) out.length = some w)
    (thawed : meetsFrozen (unitWorked s a n kind) n w out.length = false) (wf : Memory.Wf (unitWorked s a n kind).hbm.mem)
    (eu : (unitWorked s a n kind).hbm.uncorrectable = []) (ec : (unitWorked s a n kind).hbm.correctable = [])
    (er : (unitWorked s a n kind).caisson.run = none) :
    ∃ counters, deliverTensor s a q seq n kind dst out dims = finish { unitWorked s a n kind with
      hbm := { (unitWorked s a n kind).hbm with mem := ((unitWorked s a n kind).hbm.mem.write w out).write dst out }
      counters } q seq stOk dims := by
  have held : min out.length (2 * gib - tableSpace) = out.length := Nat.min_eq_left short
  unfold deliverTensor
  simp only [held, place, List.take_length, List.drop_length, List.append_nil]
  obtain ⟨v, worked⟩ : ∃ v, v = unitWorked s a n kind := ⟨_, rfl⟩
  rw [← worked] at thawed wf eu ec er ⊢
  rw [unitWorked] at worked
  rw [← worked]
  rw [stage_clean thawed eu ec er]
  simp only [stOk]
  rw [readHbm_clean (by exact eu) (by exact ec)]
  simp only [Memory.read_write wf]
  rw [writeHbm_clean (by exact eu) (by exact ec) (by exact er)]
  exact ⟨_, rfl⟩

section
variable {s : State} {q seq : Nat} {c : Taken}

theorem exec_aprDecode {a : AprConfig} {pr : Profile} {d : List Byte} {x : Content} {y : Planar} {out : List Byte} {i : Item}
    (free : approachHeld s = false) (taken : ready s q seq 0x0703 = some c) (configured : (ctxAt s c.context).bind (·.apr) = some a)
    (item : i = itemOf (slice c.payload 0 48)) (profile : a.profiles[i.profile]? = some pr) (length : c.payload.length = 65)
    (formed : itemOk a (slice c.payload 0 48) = true) (aligned : field c.payload 48 8 % 32 = 0) (format : field c.payload 64 1 ≤ 2)
    (own : granted s c.context (field c.payload 48 8) (field c.payload 56 8) = true)
    (decoded : decodeItem (assoc s.apr.tables i.table) a.omitErrors i pr (d.take i.length) = x) (succeeds : ∀ r k, x ≠ .failed r k)
    (planar : y = planarOf pr (classOfKind i.kind) i.tokenCap x) (bytes : y.bytes (field c.payload 64 1) = some out)
    (fits : out.length ≤ field c.payload 56 8) : exec (.aprDecode q seq (some d)) s =
      .next (deliverTensor (start s q seq) a q seq c.context i.kind (field c.payload 48 8) out y.dims) := by
  refine congrArg Host.Outcome.next ((onUnit_ready free taken _).trans ?_)
  have configured : (ctxAt (start s q seq) c.context).bind (·.apr) = some a := configured
  have own : granted (start s q seq) c.context (field c.payload 48 8) (field c.payload 56 8) = true := own
  have decoded : decodeItem (assoc (start s q seq).apr.tables i.table) a.omitErrors i pr (d.take i.length) = x := decoded
  subst item planar
  simp only [configured, profile, length, formed, aligned, Nat.not_lt.2 format, own, decoded, ne_eq, not_true_eq_false, decide_false,
    Bool.not_true, Bool.or_false, Bool.false_eq_true, if_false]
  cases x with
  | failed r k => exact absurd rfl (succeeds r k)
  | text ids => simp only [bytes, Nat.not_lt.2 fits, if_false]
  | picture p => simp only [bytes, Nat.not_lt.2 fits, if_false]
  | sound l => simp only [bytes, Nat.not_lt.2 fits, if_false]

/-! ### APR_TABLE_LOAD (R308, R312) -/

theorem exec_aprTableLoad {b : List Byte} (taken : ready s q seq 0x0704 = some c) (index : c.param 0 < 8) (size : c.param 3 = b.length)
    (formed : tableOk b = true) (digest : sha256 (b.drop 0x40) = slice b 0x20 32)
    (room : otherTables s (c.param 0) + b.length + oldTables s (c.param 0) ≤ tableRoom) : exec (.aprTableLoad q seq (some b)) s =
      .next (finish { start s q seq with apr := { s.apr with tables := setAssoc s.apr.tables (c.param 0) b } } q seq stOk []) := by
  refine onCmd_runs taken ?_
  have both : ¬ tableRoom < otherTables (start s q seq) (c.param 0) + b.length + oldTables (start s q seq) (c.param 0) := Nat.not_lt.2 room
  have alone : ¬ tableRoom < otherTables (start s q seq) (c.param 0) + b.length :=
    Nat.not_lt.2 ((Nat.le_add_right _ _).trans (Nat.not_lt.1 both))
  have index : decide (7 < c.param 0) = false := decide_eq_false (by omega)
  simp only [index, size, formed, digest, alone, both, ne_eq, not_true_eq_false, decide_false, Bool.not_true, Bool.or_false,
    Bool.false_eq_true, if_false, bne_self_eq_false]
  rfl

/-! ### APR_QUERY (R293) -/

/-- The word whose bit i is set where f i holds. -/
theorem bit_sum_flags (f : Nat → Bool) (n i : Nat) : bit (((List.range n).map fun k => flag (f k) k).sum) i = (decide (i < n) && f i)
    ∧ ((List.range n).map fun k => flag (f k) k).sum < 2 ^ n := by
  induction n with
  | zero => exact ⟨by simp [bit], by simp⟩
  | succ n ih =>
    obtain ⟨low, bound⟩ := ih
    have split : ((List.range (n + 1)).map fun k => flag (f k) k).sum = 2 ^ n * (f n).toNat + ((List.range n).map fun k => flag (f k) k).sum := by
      rw [List.range_succ, List.map_append, List.sum_append, List.map_singleton, List.sum_singleton, flag_eq]
      ring
    rw [split]
    refine ⟨(Nat.testBit_two_pow_mul_add _ bound i).trans ?_, ?_⟩
    · split
      · rename_i below
        refine Eq.trans low ?_
        simp [below, Nat.lt_succ_of_lt below]
      · rename_i above
        rcases Nat.lt_or_ge n i with more | least
        · have past : ¬ i < n + 1 := by omega
          have zero : (f n).toNat < 2 ^ (i - n) := (Bool.toNat_lt _).trans_le (by
            calc 2 = 2 ^ 1 := rfl
              _ ≤ 2 ^ (i - n) := Nat.pow_le_pow_right (by omega) (by omega))
          simp [past, Nat.testBit_lt_two_pow zero]
        · obtain rfl : i = n := by omega
          cases f i <;> simp
    · have := Bool.toNat_le (f n)
      have : 2 ^ n * (f n).toNat ≤ 2 ^ n * 1 := Nat.mul_le_mul_left _ this
      omega

/-- The least and the greatest of a list bound each of its elements. -/
theorem foldl_min_le (l : List Nat) (a : Nat) : l.foldl min a ≤ a ∧ ∀ x ∈ l, l.foldl min a ≤ x := by
  induction l generalizing a with
  | nil => exact ⟨le_refl a, by simp⟩
  | cons y l ih =>
    obtain ⟨start, rest⟩ := ih (min a y)
    refine ⟨start.trans (min_le_left ..), fun x hx => ?_⟩
    rcases List.mem_cons.1 hx with rfl | hx
    · exact start.trans (min_le_right ..)
    · exact rest x hx

theorem exec_aprQuery (taken : ready s q seq 0x0705 = some c) : exec (.aprQuery q seq) s = .next (finish (start s q seq) q seq stOk
    [((List.range 8).map fun i => flag (assoc s.apr.tables i).isSome i).sum,
      (microcodeRevisions s).foldl min ((microcodeRevisions s).headD 0), (microcodeRevisions s).foldl max 0,
      (s.apr.feeds.filter fun f => f.ctx = c.context).length]) :=
  onCmd_runs taken rfl

end

/-- Settles O31. -/
theorem decodesTablesAndQueries : Obligations.DecodesTablesAndQueries := by
  refine fun s q seq c => ⟨fun held => exec_aprDecode_held held q seq, fun a pr d x y out w i v free taken configured item profile length formed
    aligned format own decoded succeeds planar bytes fits short place worked thawed wf eu ec er => ?_,
    fun b taken index size formed digest room => ?_, fun taken => ⟨_, _, _, exec_aprQuery taken, fun i lt => ?_, fun i lt => ?_⟩⟩
  · subst worked
    obtain ⟨counters, delivers⟩ := deliverTensor_clean (s := start s q seq) (q := q) (seq := seq) (dst := field c.payload 48 8)
      (dims := y.dims) short place thawed wf eu ec er
    have runs := (exec_aprDecode free taken configured item profile length formed aligned format own decoded succeeds planar bytes fits).trans
      (congrArg Host.Outcome.next delivers)
    have staged := Memory.wf_write wf w out
    refine ⟨_, runs, Memory.read_write staged _ out, fun b outside apart => ?_, rfl⟩
    exact (Memory.get_write_other staged _ b out outside).trans (Memory.get_write_other wf w b out apart)
  · exact ⟨_, exec_aprTableLoad taken index size formed digest room, assoc_setAssoc_same .., fun k other => assoc_setAssoc_ne _ other b, rfl⟩
  · rw [(bit_sum_flags (fun i => (assoc s.apr.tables i).isSome) 8 i).1]
    simp [lt]
  · have listed : revisionOf s (0x0010 + i) ∈ microcodeRevisions s := List.mem_map.2 ⟨i, List.mem_range.2 lt, rfl⟩
    exact ⟨(foldl_min_le ..).2 _ listed, (le_foldl_max ..).2 _ listed⟩

end Sys2Proof.Machine
